-- ==== Sys2Proof/Word.lean ====
section
/-! DEFINITION. The word types of the module and the type of sparse tables. -/

namespace Sys2Proof

/-- One byte of an image, a frame or a buffer. -/
abbrev Byte := BitVec 8

/-- One 32-bit register word (R11, notation of chapter 0). -/
abbrev Word := BitVec 32

/-- A sparse table: pairs of key and value with strictly rising keys, none of them holding the table's
default value (the accessor names it). Registers, buffers and per-object state are held in this form. -/
abbrev Tbl (α : Type) := List (Nat × α)

end Sys2Proof
end

