-- ==== Sys2Proof/Env.lean ====
section
/-! DEFINITION. The operands of the commands that carry what the outside world shows the module: measurements, frames,
packets and the contents of the memories it reads. -/

namespace Sys2Proof

/-- What the flash answers to the SFDP read, from SFDP address 0 on, and the two slots as the flash was delivered, which the module reads where it has not
written or read them before (R98, R99). -/
structure FlashReport where
  sfdp : List Byte
  slotA : List Byte
  slotB : List Byte
  deriving DecidableEq, Repr

/-- The end of an operation of the flash in a write-back (R122): an erase, a program, or a read-back with the bytes it gave. -/
inductive FlashEvent where
  | erased
  | programmed
  | read (l : List Byte)
  deriving DecidableEq, Repr

/-- What the checkpoint read of BOOT finds (R534). -/
inductive CpRead where
  | valid | missing | noAnswer
  deriving DecidableEq, Repr

/-- What the bank's converter sees in one visit (R141 to R147, R160, R182, R183). -/
structure VisitMeas where
  vin : List Int               -- V(IN+) - V(IN-) of each conversion, nV
  vref : Int                   -- V(SN+) - V(SN-) in nV, used with REF = 1
  sense : Int                  -- sense level, µV, before normalisation
  probe : Int                  -- probe voltage, µV
  compliance : Bool            -- the current source left compliance for 10 µs by the end of the visit
  overload : Bool              -- the voltage source is at its limit at the end of the visit
  overloadAny : Bool           -- it was at its limit at some time in the visit
  vcurr : Nat                  -- its current, units of 0.1 mA
  winIn : Bool                 -- the IN+ pin left its window
  winSn : Bool                 -- the SN+ pin left its window
  deriving DecidableEq, Repr

/-- The active's mirrored result of a visit (R159, R189). -/
structure MirrorVisit where
  raw : Int
  cause : Nat                  -- 0 when its verdict passed
  unsettled : Bool
  sense : Int                  -- µV
  deriving DecidableEq, Repr

/-- The measured admittances of a sweep (R208): spots 0 to K - 1, then the reference spot, in nS. -/
structure SweepMeas where
  gs : List Int
  bs : List Int
  gref : Int
  bref : Int
  drive : Bool
  ovf : Bool
  deriving DecidableEq, Repr

/-- A CAN or CAN FD frame on the bus: its identifier, format, data length code and data bytes, and the network time,
32.32, of its start of frame as the port's edge capture saw it (R470, R482). -/
structure CanFrame where
  ext : Bool
  id : Nat
  fd : Bool
  brs : Bool
  esi : Bool
  rtr : Bool
  dlc : Nat
  data : List Byte
  edge : Nat
  deriving DecidableEq, Repr

/-- What the frame boundary sees of the work the module did in the frame and of the outside world. -/
structure FrameEnv where
  loopsDone : Nat              -- how many of the loops due complete before the deadline
  loopEnd : Nat                -- end of loop execution, µs after the boundary, when every due loop completes
  passDone : Bool              -- the sequencer pass that runs has completed by this boundary
  passUs : Nat                 -- and how long it took, µs
  deriving DecidableEq, Repr

/-- A return frame set of a field group (R364, R370 to R374, R402): what the die sampled and reports. -/
structure ReturnSet where
  levels : Nat                 -- sampled input level per channel, bit k; on a mover group, bit n: the tachometer
                               -- input has lain within 3.5-5.5 V for the last 100 ms
  readback : Nat               -- output readbacks, bit k
  load : List Nat              -- load currents, units of 1 mA, per channel
  valid : Bool                 -- the status record passes its check
  edges : List Nat             -- counter edges since the previous return set, per channel
  deriving DecidableEq, Repr

/-- How a transmit attempt ended (R479, R480). -/
inductive TxOutcome where
  | sent (edge : Nat)          -- acknowledged; the network time, 32.32, of the falling edge at CANn_TX
  | arbLost
  | error (lec : Nat) (afterArb : Bool)   -- an error of that LEC; afterArb: it came after the arbitration field and
                                          -- before the ACK slot (R490)
  deriving DecidableEq, Repr

/-- A bus error outside the port's own completed transmissions (R485). -/
structure BusError where
  rx : Bool                    -- the port was receiving
  dominantAfter : Bool         -- a dominant bit followed its error flag
  lec : Nat
  deriving DecidableEq, Repr

/-- What the media gave while Shuttle read (R525, R527, R535). -/
structure MediaRead where
  erased : List (Nat × Nat × List Nat)   -- band, stripe and the pages whose inner code is uncorrectable
  badCrc : List Nat                      -- SEQ of records read whose CRC failed
  deriving DecidableEq, Repr

/-- A logic supply (R74). -/
inductive Supply where
  | v33a | vao | vio
  deriving DecidableEq, Repr

/-- A ledger record as the pair link carries it (R528, R534). -/
structure MirrorRec where
  typ : Nat
  cls : Nat
  epoch : Nat
  seq : Nat
  time : Nat
  devt : Nat
  body : List Byte
  deriving DecidableEq, Repr

/-- The figures of a moisture result that the mirror carries beside its values (R231, R238). -/
structure CellFigures where
  drift : Int
  eps1 : List Int
  eps2 : List Int
  g : List Int
  b : List Int
  gref : Int
  bref : Int
  expired : Bool
  sweeps : Nat
  deriving DecidableEq, Repr

/-- One item of the pair stream (R548); a visit's mirrored result comes with VISIT_END. -/
inductive StreamItem where
  | word (addr : Nat) (v : BitVec 32)       -- a register write to be applied at the next boundary
  | dio (k : Nat) (level : Bool) (stamp : Nat)
  | counter (k : Nat) (count : Nat) (rate : Int)
  | cell (n : Nat) (state cause : Nat) (m rho temp qual : Int)
  | figures (n : Nat) (q : CellFigures)     -- the figures of a delivered result
  | cartridge (n : Nat) (state reason serial : Nat) (mem : List Byte) (warn expired : Bool)
  | flow (n : Nat) (acc pend : Nat)
  | mover (n : Nat) (state retry : Nat) (rpm : Int) (noPulse openIn evid speedOk : Bool)
  | table (t : Nat) (req : Bool) (held : Int)
  | loop (n : Nat) (missed : Bool) (i xp dst u : Int)
  | colSkip (c skipped consec late : Nat)   -- the boundary just passed was skipped by that column
  | colQual (c : Nat) (m : Int) (at_ : Nat) -- a discharge result that qualified, and the boundary at which it became visible (short time)
  | pend (p : Nat) (bits : Nat)             -- pending flags of a CAN port
  | alt (k : Nat) (on : Bool)               -- whether a frame map is on its alternate port
  | fired (a : Nat) (state next skipped : Nat)
  | time (ofs : Int) (epoch : Nat) (slew : Int) (slewLeft : Nat)
  | record (r : MirrorRec)
  deriving DecidableEq, Repr

/-- A seal as the standby receives it (R547): the frame and the device time it names, in units of 2^-48 s, and whether its
state digest agrees with the one this module computed. `hand` is the cause of a handover it names, 0 for none (R556, R557). -/
structure Seal where
  crcOk : Bool
  frame : Nat
  acc : Nat
  agrees : Bool
  hand : Nat
  items : List StreamItem
  deriving DecidableEq, Repr

/-- The standby's return frame as the active receives it (R550), with the records raised on the standby alone: code,
source, severity, DATA_A and DATA_B. -/
structure ReturnFrame where
  crcOk : Bool
  diverged : Bool
  halted : Bool                -- the standby holds an open HALT record
  records : List (Nat × Nat × Nat × Nat × Nat)
  dorm : Nat := 0              -- the code with which the standby's own check of R25 would refuse DORMANT, 0 for none (R559)
  deriving DecidableEq, Repr

/-- What a joining partner reports of itself (R560, R561): `lastSeq` is its newest ledger SEQ, `none` for an empty ledger,
and `sameCrc` whether this module holds that record with an equal CRC field. -/
structure JoinReport where
  id : Nat
  digest : Nat
  variant : Nat
  seat : Bool
  lastSeq : Option Nat
  sameCrc : Bool
  deriving DecidableEq, Repr

/-- The role answer of the partner (R552, R560). -/
structure RoleAnswer where
  active : Bool                -- it answers as ACTIVE; otherwise as SEEKING
  hold : Bool                  -- as ACTIVE, it holds this module until an acceptance
  seat : Bool
  id : Nat
  deriving DecidableEq, Repr

/-- A stream or copy packet on the pair link (R547, R561): the records of re-threading it carries. -/
structure LinkPacket where
  crcOk : Bool
  recs : List MirrorRec
  deriving DecidableEq, Repr

end Sys2Proof
end

