-- ==== Sys2Proof/Syntax.lean ====
section
/-! DEFINITION. The commands of the module: one constructor per row of spec/opcode_table.json, with the operands that
the rules named there need. Indices count as the spec numbers the objects (banks, cells, units, channels, terms, ports).
A command row that the spec reaches by a register write stands for the moment that write is applied. -/

namespace Sys2Proof

/-- One command (R567 gives the registers, each docstring the rule of its row). -/
inductive Instr where
  /-- V33_POWER_UP (R18). -/
  | v33PowerUp
  /-- RST_N_LOW (R78). -/
  | rstNLow
  /-- RST_N_RELEASE (R75). -/
  | rstNRelease
  /-- V33_LOSS (R77). -/
  | v33Loss
  /-- VAO_POWER_ON (R452). -/
  | vaoPowerOn
  /-- FLASH_DISCOVERY (R98). -/
  | flashDiscovery (r : FlashReport)
  /-- CANDIDATE_STREAMED (R111). -/
  | candidateStreamed
  /-- CHECKPOINT_READ (R534). -/
  | checkpointRead (r : CpRead)
  /-- BOOT_END (R18). -/
  | bootEnd (seat present : Bool)
  /-- FRAME_BOUNDARY (R35). -/
  | frameBoundary (e : FrameEnv)
  /-- LOOP_DEADLINE (R278). -/
  | loopDeadline (done : Nat)
  /-- STEP_TIMEOUT (R347). -/
  | stepTimeout (draft : Nat)
  /-- UNIT_START_TIMEOUT (R336). -/
  | unitStartTimeout (u : Nat)
  /-- UNIT_STOP_TIMEOUT (R336). -/
  | unitStopTimeout (u : Nat)
  /-- UNIT_PROOF_LOST (R336). -/
  | unitProofLost (u : Nat)
  /-- UNIT_TRIP1 (R336). -/
  | unitTrip1 (u : Nat)
  /-- UNIT_TRIP2 (R336). -/
  | unitTrip2 (u : Nat)
  /-- COLUMN_STEP_COMPLETE (R264). -/
  | columnStepComplete (c : Nat)
  /-- GO_DORMANT (R25). -/
  | goDormant
  /-- GO_SAFE (R30). -/
  | goSafe
  /-- LEAVE_SAFE (R24). -/
  | leaveSafe
  /-- GLB_CMD_RESET (R30). -/
  | glbCmdReset
  /-- DORMANT_ENTRY (R25). -/
  | dormantEntry
  /-- SCAN_WAKE (R85). -/
  | scanWake
  /-- TIMED_WAKE (R83). -/
  | timedWake
  /-- WAKE_PIN (R89). -/
  | wakePin (low : Bool)
  /-- DIO_WAKE (R382). -/
  | dioWake (k : Nat) (level : Bool)
  /-- PARTNER_WAKE (R559). -/
  | partnerWake
  /-- XT32_STOPPED (R96). -/
  | xt32Stopped
  /-- FAST_CLOCKS_RUNNING (R82). -/
  | fastClocksRunning (us : Nat)
  /-- XT25_FAIL (R96). -/
  | xt25Fail
  /-- SCAN_LIST_COMPLETE (R86). -/
  | scanListComplete
  /-- BURST_END (R86). -/
  | burstEnd
  /-- HOLD_EXPIRY (R26). -/
  | holdExpiry (g : Nat)
  /-- FIELD_WATCHDOG_EXPIRY (R380). -/
  | fieldWatchdogExpiry (g : Nat)
  /-- SLOW_CAL_WINDOW (R81). -/
  | slowCalWindow (cycles : Nat)
  /-- VAO_LOW (R96). -/
  | vaoLow (level : Nat)
  /-- V33A_OUT (R96). -/
  | v33aOut
  /-- SESSION_OPEN (R117). -/
  | sessionOpen (copy : Bool)
  /-- STAGING_FILL_DONE (R117). -/
  | stagingFillDone
  /-- SESSION_CLOSE (R118). -/
  | sessionClose
  /-- SESSION_EXPIRED (R118). -/
  | sessionExpired
  /-- STAGING_WRITE (R117). -/
  | stagingWrite (addr : Nat) (v : Word)
  /-- APPLY (R120). -/
  | apply
  /-- STORE (R120). -/
  | store
  /-- APPLY_STORE (R120). -/
  | applyStore
  /-- COMMIT_CHECK_DONE (R119). -/
  | commitCheckDone
  /-- WRITEBACK_COMPLETE (R122). -/
  | writebackComplete (e : FlashEvent)
  /-- FUSE_PROG (R109). -/
  | fuseProg
  /-- FUSE_PROG_DONE (R109). -/
  | fuseProgDone (readback : Nat)
  /-- ENABLE_WRITE (R114). -/
  | enableWrite (addr : Nat) (v : Word)
  /-- ENABLE_CHECK_DONE (R114). -/
  | enableCheckDone
  /-- REGISTER_WRITE (R12). -/
  | registerWrite (addr : Nat) (v : Word)
  /-- GUARD_SLOT_START (R153). -/
  | guardSlotStart (d : Nat)
  /-- VISIT_END (R146). -/
  | visitEnd (b : Nat) (m : VisitMeas) (mirror : Option MirrorVisit)
  /-- EXC_RETRY (R140). -/
  | excRetry (b : Nat)
  /-- CHANNEL_STALE (R186). -/
  | channelStale (c : Nat)
  /-- SELFTEST (R162). -/
  | selftest (b : Nat)
  /-- SELFTEST_DONE (R162). -/
  | selftestDone (b : Nat) (code1 code2 : Int)
  /-- LCOMMIT (R157). -/
  | lcommit (b : Nat)
  /-- SWEEP_COMPLETE (R205). -/
  | sweepComplete (n : Nat) (m : SweepMeas)
  /-- RTD_CONVERSION (R207). -/
  | rtdConversion (n : Nat) (raw : Int) (sense : Int) (compliance : Bool)
  /-- CELL_STALE (R221). -/
  | cellStale (n : Nat)
  /-- CAL_OPEN (R213). -/
  | calOpen (n : Nat)
  /-- CAL_SHORT (R213). -/
  | calShort (n : Nat)
  /-- CAL_CLEAR (R237). -/
  | calClear (n : Nat)
  /-- ID_RESPONSE (R224). -/
  | idResponse (n : Nat) (bytes : List Byte)
  /-- ID_ATTEMPT_FAIL (R224). -/
  | idAttemptFail (n : Nat)
  /-- PRESENCE_POLL (R225). -/
  | presencePoll (n : Nat)
  /-- FLOW_QUARTER (R228). -/
  | flowQuarter (n : Nat)
  /-- INCR_RETRY (R228). -/
  | incrRetry (n : Nat)
  /-- REREAD (R240). -/
  | reread (n : Nat)
  /-- CTG_LINE_FAULT (R242). -/
  | ctgLineFault (n : Nat)
  /-- COLUMN_RESTART (R274). -/
  | columnRestart (c : Nat)
  /-- BATCH_CLEAR (R274). -/
  | batchClear (c : Nat)
  /-- KAPPA_RESET (R274). -/
  | kappaReset (c : Nat)
  /-- KAPPA_WRITE (R273). -/
  | kappaWrite (c : Nat) (v : Word)
  /-- MODEL_OPEN_LOOP (R258). -/
  | modelOpenLoop (c : Nat)
  /-- INLET_LOST (R267). -/
  | inletLost (c : Nat)
  /-- LOOP_MODE_WRITE (R285). -/
  | loopModeWrite (n : Nat) (v : Word)
  /-- REINIT (R305). -/
  | reinit (n : Nat)
  /-- LOOP_CLR_COUNTS (R305). -/
  | loopClrCounts (n : Nat)
  /-- SNAP (R315). -/
  | snap (n : Nat)
  /-- TRACE_ARM (R324). -/
  | traceArm (t : Nat)
  /-- TRACE_STOP (R324). -/
  | traceStop (t : Nat)
  /-- TRACE_FORCE (R323). -/
  | traceForce (t : Nat)
  /-- DRAFT_HOLD (R348). -/
  | draftHold (d : Nat)
  /-- RESUME (R348). -/
  | resume (d : Nat)
  /-- ABORT (R349). -/
  | abort (d : Nat)
  /-- DRAFT_RESET (R350). -/
  | draftReset (d : Nat)
  /-- UNIT_RUN (R337). -/
  | unitRun (u : Nat)
  /-- UNIT_STOP (R337). -/
  | unitStop (u : Nat)
  /-- UNIT_ACK (R337). -/
  | unitAck (u : Nat)
  /-- SEQ_FLAGSET (R358). -/
  | seqFlagset (v : Word)
  /-- SEQ_FLAGCLR (R358). -/
  | seqFlagclr (v : Word)
  /-- FORWARD_FRAME_SET (R365). -/
  | forwardFrameSet (g : Nat)
  /-- RETURN_FRAME_SET (R364). -/
  | returnFrameSet (g : Nat) (r : ReturnSet)
  /-- INPUT_SAMPLE (R369). -/
  | inputSample (g : Nat) (levels : Nat)
  /-- DEBOUNCED_CHANGE (R369). -/
  | debouncedChange (k : Nat)
  /-- INPUT_BREAK (R371). -/
  | inputBreak (k : Nat)
  /-- BACKFED (R376). -/
  | backfed (k : Nat)
  /-- DRIVER_FAULT (R376). -/
  | driverFault (k : Nat)
  /-- OPEN_LOAD (R376). -/
  | openLoad (k : Nat)
  /-- OUTPUT_OVERLOAD (R377). -/
  | outputOverload (k : Nat)
  /-- OVERLOAD_RETRY (R377). -/
  | overloadRetry (k : Nat)
  /-- OVERLOAD_RECOVERED (R377). -/
  | overloadRecovered (k : Nat)
  /-- DIO_RESTORE (R384). -/
  | dioRestore (g : Nat)
  /-- DIO_CLR_MIN (R390). -/
  | dioClrMin (g : Nat)
  /-- DIO_GROUP_CLEAR (R379). -/
  | dioGroupClear (g : Nat)
  /-- DIO_CHANNEL_CLEAR (R379). -/
  | dioChannelClear (k : Nat)
  /-- ZERO (R390). -/
  | zero (k : Nat)
  /-- DIO_GOUTSET (R375). -/
  | dioGoutset (g : Nat) (v : Word)
  /-- DIO_GOUTCLR (R375). -/
  | dioGoutclr (g : Nat) (v : Word)
  /-- FIELD_SUPPLY_SAMPLE (R383). -/
  | fieldSupplySample (g : Nat) (mv : Nat)
  /-- FIELD_CUT (R383). -/
  | fieldCut (g : Nat)
  /-- GROUP_RESTORABLE (R384). -/
  | groupRestorable (g : Nat)
  /-- GROUP_RECORD_CLOSE (R384). -/
  | groupRecordClose (g : Nat)
  /-- STATUS_FRAMES_BAD (R385). -/
  | statusFramesBad (g : Nat)
  /-- STATUS_RECOVERED (R385). -/
  | statusRecovered (g : Nat)
  /-- GROUP_MISSING (R385). -/
  | groupMissing (g : Nat)
  /-- COMMON_FAULT_LINE (R366). -/
  | commonFaultLine (g : Nat) (line : Nat)
  /-- PARTNER_OUTPUT_MISMATCH (R386). -/
  | partnerOutputMismatch (k : Nat)
  /-- LISTEN_INPUT_MISMATCH (R386). -/
  | listenInputMismatch (k : Nat)
  /-- TACH_EDGE (R402). -/
  | tachEdge (n : Nat) (stamp : Nat)
  /-- SPINUP_TIMEOUT (R405). -/
  | spinupTimeout (n : Nat)
  /-- PAUSE_TIMEOUT (R405). -/
  | pauseTimeout (n : Nat)
  /-- LOW_SPEED_TIMEOUT (R405). -/
  | lowSpeedTimeout (n : Nat)
  /-- OUTPUT_OPEN (R399). -/
  | outputOpen (n : Nat)
  /-- OUTPUT_SHORT (R399). -/
  | outputShort (n : Nat)
  /-- MOV_CLEAR (R415). -/
  | movClear (n : Nat)
  /-- MOV_RESTORE (R415). -/
  | movRestore (m : Nat)
  /-- MOV_CLR_MIN (R415). -/
  | movClrMin (m : Nat)
  /-- MOV_GROUP_CLEAR (R415). -/
  | movGroupClear (m : Nat)
  /-- LEASE_EXPIRY (R554). -/
  | leaseExpiry (m : Nat)
  /-- PARTNER_DRIVE_MISMATCH (R409). -/
  | partnerDriveMismatch (n : Nat)
  /-- GUARD_RELEASE (R420). -/
  | guardRelease (t : Nat)
  /-- GUARD_PATH_FAULT (R421). -/
  | guardPathFault (t : Nat)
  /-- GUARD_RESET (R423). -/
  | guardReset (t : Nat)
  /-- GUARD_RESET_ALL (R423). -/
  | guardResetAll
  /-- FAULT_ACK (R437). -/
  | faultAck
  /-- FAULT_ACK_ALL (R437). -/
  | faultAckAll
  /-- FAULT_NEXT (R448). -/
  | faultNext
  /-- FAULT_COPY_TAKEN (R438). -/
  | faultCopyTaken
  /-- EVENTS_MERGED (R439). -/
  | eventsMerged
  /-- TIMED_ACTION_FIRE (R461). -/
  | timedActionFire (a : Nat)
  /-- ACTION_ARM (R458). -/
  | actionArm (a : Nat)
  /-- TIME_STEP (R453). -/
  | timeStep
  /-- SLEW (R453). -/
  | slew
  /-- SLEW_STOP (R453). -/
  | slewStop
  /-- SLEW_END (R453). -/
  | slewEnd
  /-- CAN_FRAME_RECEIVED (R476). -/
  | canFrameReceived (p : Nat) (fr : CanFrame)
  /-- CAN_TX_COMPLETE (R479). -/
  | canTxComplete (p : Nat) (r : TxOutcome)
  /-- FOLLOW_UP_SEND (R483). -/
  | followUpSend (p : Nat)
  /-- RECOVER (R487). -/
  | recover (p : Nat)
  /-- BUS_RECOVERED (R487). -/
  | busRecovered (p : Nat)
  /-- ABORT_ALL (R505). -/
  | abortAll (p : Nat)
  /-- CAN_CLR_COUNTS (R505). -/
  | canClrCounts (p : Nat)
  /-- TXREQ (R475). -/
  | txreq (p : Nat) (v : Word)
  /-- TX_BUFFER_WRITE (R475). -/
  | txBufferWrite (p m : Nat) (dlc : Nat) (data : List Byte)
  /-- LAUNCH_ARM (R481). -/
  | launchArm (p l : Nat)
  /-- LAUNCH_DUE (R481). -/
  | launchDue (p l : Nat)
  /-- LAUNCH_WINDOW_CLOSE (R481). -/
  | launchWindowClose (p l : Nat)
  /-- NET_TIME_LOST (R484). -/
  | netTimeLost (p : Nat)
  /-- PORT_BLOCKED (R488). -/
  | portBlocked (p : Nat)
  /-- MAP_RX_TIMEOUT (R494). -/
  | mapRxTimeout (k : Nat)
  /-- SERVICE_READ (R497). -/
  | serviceRead (p : Nat)
  /-- SERVICE_WRITE (R497). -/
  | serviceWrite (p : Nat)
  /-- SERVICE_WRITE_REPLY (R497). -/
  | serviceWriteReply (p : Nat)
  /-- DP_READ (R512). -/
  | dpRead (addr n : Nat) (late : List Nat)
  /-- DP_QUAD_READ (R512). -/
  | dpQuadRead (addr n : Nat) (late : List Nat)
  /-- DP_WRITE (R512). -/
  | dpWrite (addr : Nat) (data : List Byte)
  /-- DP_QUAD_WRITE (R512). -/
  | dpQuadWrite (addr : Nat) (data : List Byte)
  /-- DP_STATUS (R516). -/
  | dpStatus (n : Nat)
  /-- DP_IDENTITY (R517). -/
  | dpIdentity (n : Nat)
  /-- UNKNOWN_COMMAND (R512). -/
  | unknownCommand (cmd : Byte)
  /-- LOCK_EXPIRED (R518). -/
  | lockExpired
  /-- SUBPAGE_PROGRAM_DONE (R525). -/
  | subpageProgramDone (ok : Bool)
  /-- BAND_ERASE_DONE (R532). -/
  | bandEraseDone (band : Nat) (badBlocks : Nat)
  /-- FLUSH_TIMEOUT (R533). -/
  | flushTimeout (r : Nat)
  /-- DROP_SUMMARY (R532). -/
  | dropSummary
  /-- ARC_FLUSH (R541). -/
  | arcFlush
  /-- CLEAR_REGION (R541). -/
  | clearRegion (r : Nat)
  /-- SHUTTLE_GO (R536). -/
  | shuttleGo
  /-- SHUTTLE_CANCEL (R536). -/
  | shuttleCancel
  /-- SHUTTLE_DONE (R535). -/
  | shuttleDone (t : Nat) (m : MediaRead)
  /-- MOUNT_COMPLETE (R534). -/
  | mountComplete (rebuilt : Bool)
  /-- SEAL_RECEIVED (R547). -/
  | sealReceived (x : Seal)
  /-- SEAL_MISSED (R555). -/
  | sealMissed
  /-- TAKEOVER (R555). -/
  | takeover
  /-- RETURN_FRAME_RECEIVED (R550). -/
  | returnFrameReceived (r : ReturnFrame)
  /-- RETURN_FRAME_MISSED (R553). -/
  | returnFrameMissed
  /-- SEEK_TIMEOUT (R552). -/
  | seekTimeout
  /-- FENCE_IN_CHANGE (R546). -/
  | fenceInChange (active : Bool)
  /-- PARTNER_JOIN (R560). -/
  | partnerJoin (j : JoinReport)
  /-- ACCEPT (R565). -/
  | accept
  /-- REJECT (R565). -/
  | reject
  /-- SWITCH (R556). -/
  | switch
  /-- RESYNC (R565). -/
  | resync
  /-- HANDOVER (R556). -/
  | handover
  /-- PARTNER_IMAGE_RECEIVED (R560). -/
  | partnerImageReceived (bytes : List Byte)
  /-- PARTNER_SYNCED (R560). -/
  | partnerSynced (keep : Bool) (total : Nat)
  /-- COMMIT_PARTNER_RESULT (R560). -/
  | commitPartnerResult (code : Nat)
  /-- THREAD_DONE (R561). -/
  | threadDone
  /-- WAKE_GRACE_TIMEOUT (R559). -/
  | wakeGraceTimeout
  /-- SUPPLY_OUT_OF_RANGE (R75). -/
  | supplyOutOfRange (which : Supply)
  /-- V33A_IN_RANGE (R96). -/
  | v33aInRange
  /-- VAO_RESTORED (R96). -/
  | vaoRestored (level : Nat)
  /-- XT32_RESTARTED (R96). -/
  | xt32Restarted
  /-- CTG_LINE_RECOVERED (R242). -/
  | ctgLineRecovered (n : Nat)
  /-- PARTNER_ANSWER (R552). -/
  | partnerAnswer (a : RoleAnswer)
  /-- PAIR_LINK_PACKET (R547). -/
  | pairLinkPacket (pk : LinkPacket)
  /-- CAN_ERROR_DETECTED (R470). -/
  | canErrorDetected (p : Nat) (e : BusError)
  deriving DecidableEq, Repr

end Sys2Proof
end

