-- ==== Sys2Proof/Decode.lean ====
section
/-! DEFINITION. The reading of command words. No row of the command table gives bits: a command is no word of this part (the
host's bytes on the data port are operands of the DP commands, R512). -/

namespace Sys2Proof

/-- No word of bits spells a command. -/
def decodeTableWord (_nbits _w : Nat) : Option Instr := none

end Sys2Proof
end

