-- ==== Sys2Proof/Machine/Ops.lean ====
section
/-! DEFINITION. Sparse tables, bit fields, byte order and the exact arithmetic helpers of R10 and R11. -/

namespace Sys2Proof.Machine

open Sys2Proof

/-- The value of key `k`, or the default `d` where the table lists none. -/
def tget (d : α) (t : Tbl α) (k : Nat) : α :=
  match t with
  | [] => d
  | (j, v) :: r => if j = k then v else tget d r k

/-- Insert or replace key `k` in a strictly rising list. -/
def tins (k : Nat) (v : α) (t : Tbl α) : Tbl α :=
  match t with
  | [] => [(k, v)]
  | (j, u) :: r => if k < j then (k, v) :: (j, u) :: r else if j = k then (k, v) :: r else (j, u) :: tins k v r

/-- Remove key `k`. -/
def tdel (k : Nat) (t : Tbl α) : Tbl α := t.filter (fun p => p.1 != k)

/-- Set key `k` to `v`; writing the default value removes the entry, so equal tables are equal lists. -/
def tput [DecidableEq α] (d : α) (t : Tbl α) (k : Nat) (v : α) : Tbl α :=
  if v = d then tdel k t else tins k v t

/-- Change the value of key `k`. -/
def tmod [DecidableEq α] (d : α) (t : Tbl α) (k : Nat) (g : α → α) : Tbl α := tput d t k (g (tget d t k))

/-- The canonical form of a table: keys strictly rising from `lo`, no value equal to the default. -/
def twf [DecidableEq α] (d : α) (lo : Nat) (t : Tbl α) : Bool :=
  match t with
  | [] => true
  | (j, v) :: r => decide (lo ≤ j) && decide (v ≠ d) && twf d (j + 1) r

/-- The keys of a second table up to `j`, then what follows in it, where the first table has `v` at `j` and `r` after it. -/
def diffAt [DecidableEq α] (j : Nat) (v : α) (r : Tbl α) (rest : Tbl α → List Nat) : Tbl α → List Nat
  | [] => j :: r.map (·.1)
  | (k, x) :: s =>
    if k < j then k :: diffAt j v r rest s
    else if j < k then j :: rest ((k, x) :: s)
    else if v = x then rest s else j :: rest s

/-- The keys at which two tables differ, in rising order. -/
def diffKeys [DecidableEq α] : Tbl α → Tbl α → List Nat
  | [], u => u.map (·.1)
  | (j, v) :: r, u => diffAt j v r (diffKeys r) u

/-- Bits `[lo + n - 1 : lo]` of a word, unsigned. -/
def fld (w : Word) (lo n : Nat) : Nat := (w.toNat >>> lo) % 2 ^ n

/-- One bit of a word. -/
def bit (w : Word) (k : Nat) : Bool := fld w k 1 == 1

/-- The number `x`, taken modulo `2 ^ n`, read as a signed `n`-bit value. -/
def sext (n : Nat) (x : Int) : Int :=
  let m := x % (2 ^ n : Int)
  if m < 2 ^ (n - 1) then m else m - 2 ^ n

/-- Bits `[lo + n - 1 : lo]` of a word as a signed value. -/
def sfld (w : Word) (lo n : Nat) : Int := sext n (fld w lo n)

/-- A word as a signed 32-bit value. -/
def sword (w : Word) : Int := sext 32 w.toNat

/-- A number as a word, modulo `2 ^ 32`. -/
def wordOf (x : Int) : Word := BitVec.ofInt 32 x

/-- Place the low `n` bits of `v` at bit `lo`. -/
def at_ (lo n : Nat) (v : Nat) : Nat := (v % 2 ^ n) <<< lo

/-- One bit, placed. -/
def b1 (lo : Nat) (b : Bool) : Nat := if b then 1 <<< lo else 0

/-- A word from parts placed at disjoint bits. -/
def packW (l : List Nat) : Word := BitVec.ofNat 32 (l.foldl (· + ·) 0)

/-- Replace the bits that `mask` names. -/
def mix (old new mask : Word) : Word := (old &&& ~~~mask) ||| (new &&& mask)

/-- The mask of `n` bits at `lo`. -/
def maskAt (lo n : Nat) : Word := BitVec.ofNat 32 ((2 ^ n - 1) <<< lo)

/-- Saturation to `[lo, hi]` (R10, clamp). -/
def clampI (x lo hi : Int) : Int := max lo (min hi x)

/-- Saturation to the signed 32-bit range (R10, sat32). -/
def sat32 (x : Int) : Int := clampI x (-2147483648) 2147483647

/-- Saturation to the signed 64-bit range. -/
def sat64 (x : Int) : Int := clampI x (-9223372036854775808) 9223372036854775807

/-- Arithmetic right shift: truncation toward minus infinity (R10, shr). -/
def shrI (x : Int) (s : Nat) : Int := x.fdiv (2 ^ s : Int)

/-- Quotient rounded half away from zero (R10); `d` is positive. -/
def rdivI (n : Int) (d : Nat) : Int :=
  let a : Nat := (2 * n.natAbs + d) / (2 * d)
  if n < 0 then -(a : Int) else (a : Int)

/-- The saturating unsigned counter of `n` bits. -/
def satInc (n x : Nat) : Nat := if x + 1 < 2 ^ n then x + 1 else 2 ^ n - 1

/-- Saturating addition in `n` bits. -/
def satAdd (n x y : Nat) : Nat := min (x + y) (2 ^ n - 1)

/-- The largest natural number whose square is at most `n`, by bits from the top (the root of the frequency
plan and of the profile generators). -/
def isqrtFrom (n : Nat) : Nat → Nat → Nat
  | 0, r => r
  | k + 1, r => let r' := r + 2 ^ k; isqrtFrom n k (if r' * r' ≤ n then r' else r)

/-- Integer square root of a number below `2 ^ 256`. -/
def isqrt (n : Nat) : Nat := isqrtFrom n 128 0

/-- Little-endian value of a list of bytes. -/
def leNat (l : List Byte) : Nat :=
  match l with
  | [] => 0
  | b :: r => b.toNat + 256 * leNat r

/-- The first `n` little-endian bytes of a number. -/
def leBytes (n : Nat) (x : Nat) : List Byte :=
  match n with
  | 0 => []
  | k + 1 => BitVec.ofNat 8 x :: leBytes k (x / 256)

/-- Big-endian value of a list of bytes. -/
def beNat (l : List Byte) : Nat := l.foldl (fun a b => a * 256 + b.toNat) 0

/-- The little-endian value of `n` bytes at offset `o` of a byte list (bytes beyond the end read 0). -/
def leAt (l : List Byte) (o n : Nat) : Nat := leNat ((l.drop o).take n)

/-- The numbers `a, a + 1, …` (`n` of them). -/
def upFrom (a n : Nat) : List Nat := (List.range n).map (a + ·)

/-- Fold a state over a list of numbers. -/
def forEach (l : List Nat) (s : σ) (g : Nat → σ → σ) : σ := l.foldl (fun s k => g k s) s

/-- `some` of the first result a list of checks gives. -/
def firstSome (l : List (Option α)) : Option α := l.findSome? id

/-- A signed difference of two short times: positive when `a` is later than `b` (R11). -/
def shortDiff (a b : Nat) : Int := sext 32 ((a : Int) - (b : Int))

/-- Number of one bits among the low `n` bits. -/
def popN (n x : Nat) : Nat := ((List.range n).filter (fun k => x.testBit k)).length

/-- The low `n` bits of a number as a list of Booleans, lowest first. -/
def bitsOf (n x : Nat) : List Bool := (List.range n).map (fun k => x.testBit k)

/-- The number whose bit `k` is element `k` of the list. -/
def ofBits (l : List Bool) : Nat :=
  match l with
  | [] => 0
  | b :: r => (if b then 1 else 0) + 2 * ofBits r

/-- Set or clear bit `k` of a number. -/
def putBit (x k : Nat) (b : Bool) : Nat := if b then x ||| 2 ^ k else if x.testBit k then x - 2 ^ k else x

/-- Element `k` of a list, or the default. -/
def nth (d : α) (l : List α) (k : Nat) : α := l.getD k d

/-- Replace element `k` of a list, if there is one. -/
def setNth (l : List α) (k : Nat) (v : α) : List α := l.set k v

end Sys2Proof.Machine
end

