-- ==== Sys2Proof/Config.lean ====
section
/-! DEFINITION. Values the spec leaves open: constants without a body, so that nothing can be proved of them. -/

namespace Sys2Proof.Config

/-- The quality term qs of R219 where the averaged susceptance is 0 and the spot moved, in units of 2^-16 % (the spec
states no quotient there; log entry 21). -/
opaque qualZeroMean (spread : Nat) : Nat

/-- The receive error counter after a good reception in error-passive state: a value of 119 to 127 (R470, the standard), given
as its distance above 119 modulo 9 (log entry 22). -/
opaque recBackFree (n : Nat) : Nat

/-- The bytes a cancelled Shuttle tag leaves in its buffer (R536; log entry 23). -/
opaque cancelledByteFree (n offset : Nat) : BitVec 8

/-- A figure of a moisture result that its data does not give (R209, R211, R212): a de-embedding without a denominator, or a permittivity or drift
without a cartridge's constants; of a cell, at a count of sweeps, by figure (log entry 84). -/
opaque cellFigureFree (cell sweeps figure : Nat) : Int

/-- A calibration term that the sweeps do not give (R213): of an entry without a spot, or a short term beyond 32 bits; by cell, entry and word (log entry 84). -/
opaque calTermFree (cell entry word : Nat) : BitVec 32

/-- VAO_LEVEL in a second of device time in which no command has reported the voltage (R90; log entry 77). -/
opaque vaoLevelFree (second : Nat) : BitVec 8

/-- The bytes the pair stream takes in a frame (PAIR_LOAD.PEAK, R564): the spec charges a worst case and gives no layout (log
entry 24). -/
opaque streamBytes (frame : Nat) : BitVec 16

end Sys2Proof.Config
end

