-- ==== Sys2Proof/Machine/Numeric.lean ====
section
/-! DEFINITION. Interpolation, exponentials, checksums and the built-in curve tables (R107, R173 to R180, R216). -/

namespace Sys2Proof.Machine

open Sys2Proof

/-- The linear map of R174 before saturation of the operands; `b ≠ a` (Sage refuses `a = b`). -/
def linMap (q a b lo hi : Int) : Int :=
  let d := b - a
  if d < 0 then sat32 (lo + rdivI (-((hi - lo) * (q - a))) d.natAbs) else sat32 (lo + rdivI ((hi - lo) * (q - a)) d.natAbs)

/-- Interpolation over nodes given as pairs, the first two of them around or below `x` (R174). -/
def interpIn (x : Int) : List (Int × Int) → Option Int
  | [] => none
  | [(x0, y0)] => if x = x0 then some y0 else none
  | (x0, y0) :: (x1, y1) :: r =>
    if r = [] ∨ x < x1 then
      if x < x0 ∨ x1 < x then none else some (y0 + rdivI ((y1 - y0) * (x - x0)) (x1 - x0).natAbs)
    else interpIn x ((x1, y1) :: r)

/-- interp() of R174: `none` stands for RANGE. -/
def interp (x : Int) (nodes : List (Int × Int)) : Option Int := interpIn x nodes

/-- Taylor terms of exp in fixed point with `p` fraction bits: sum and next term. -/
def expTerms (p : Nat) (x : Int) : Nat → Nat → Int → Int → Int
  | 0, _, _, acc => acc
  | k + 1, n, t, acc => let t' := (t * x).fdiv (2 ^ p * (n : Int)); expTerms p x k (n + 1) t' (acc + t')

/-- Repeated squaring in fixed point. -/
def sqTimes (p : Nat) (y : Int) : Nat → Int
  | 0 => y
  | k + 1 => sqTimes p ((y * y).fdiv (2 ^ p)) k

/-- exp(num/den) in fixed point with 256 fraction bits: the argument is divided by 2^20, sixty Taylor terms are
summed, and the sum is squared twenty times. The error lies far below the rounding of every use. -/
def expFix (num : Int) (den : Nat) : Int :=
  let x := (num * 2 ^ 236).fdiv (den : Int)
  sqTimes 256 (expTerms 256 x 60 1 (2 ^ 256) (2 ^ 256)) 20

/-- CRC-32C, one byte (R107). -/
def crcByte (c : Nat) (b : Byte) : Nat :=
  (List.range 8).foldl (fun c _ => if c % 2 = 1 then (c / 2) ^^^ 0x82F63B78 else c / 2) (c ^^^ b.toNat)

/-- CRC-32C of a byte list (R107). -/
def crc32c (l : List Byte) : Nat := (l.foldl crcByte 0xFFFFFFFF) ^^^ 0xFFFFFFFF

/-- One polynomial coefficient `m × 10^-e` of IEC 60584-1, for the term of degree `i`, at the integer temperature
`t`, in units of 10^-42 mV. -/
def tcTerm (t : Int) (i : Nat) (c : Int × Nat) : Int := c.1 * t ^ i * 10 ^ (42 - c.2)

/-- A reference polynomial at an integer temperature, in units of 10^-42 mV. -/
def tcPoly (cs : List (Int × Nat)) (t : Int) : Int :=
  ((List.range cs.length).zip cs).foldl (fun a ic => a + tcTerm t ic.1 ic.2) 0

/-- Coefficients below and above the meeting temperature, and that temperature (IEC 60584-1; PRESUMED, log entry 20).
Curves 16 to 20 are types J, K, T, E and N (R173). -/
def tcCoeff (curve : Nat) : List (Int × Nat) × List (Int × Nat) × Int :=
  match curve with
  | 16 => ([(0, 0), (503811878150, 13), (304758369300, 16), (-856810657200, 19), (132281952950, 21), (-170529583370, 24),
      (209480906970, 27), (-125383953360, 30), (156317256970, 34)],
     [(296456256810, 9), (-149761277860, 11), (317871039240, 14), (-318476867010, 17), (157208190040, 20),
      (-306913690560, 24)], 760)
  | 17 => ([(0, 0), (394501280250, 13), (236223735980, 16), (-328589067840, 18), (-499048287770, 20), (-675090591730, 22),
      (-574103274280, 24), (-310888728940, 26), (-104516093650, 28), (-198892668780, 31), (-163226974860, 34)],
     [(-176004136860, 13), (389212049750, 13), (185587700320, 16), (-994575928740, 19), (318409457190, 21),
      (-560728448890, 24), (560750590590, 27), (-320207200030, 30), (971511471520, 34), (-121047212750, 37)], 0)
  | 18 => ([(0, 0), (387481063640, 13), (441944343470, 16), (118443231050, 18), (200329735540, 19), (901380195590, 21),
      (226511565930, 22), (360711542050, 24), (384939398830, 26), (282135219250, 28), (142515947790, 30),
      (487686622860, 33), (107955392700, 35), (139450270620, 38), (797951539270, 42)],
     [(0, 0), (387481063640, 13), (332922278800, 16), (206182434040, 18), (-218822568460, 20), (109968809280, 22),
      (-308157587720, 25), (454791352900, 28), (-275129016730, 31)], 0)
  | 19 => ([(0, 0), (586655087080, 13), (454109771240, 16), (-779980486860, 18), (-258001608430, 19), (-594525830570, 21),
      (-932140586670, 23), (-102876055340, 24), (-803701236210, 27), (-439794973910, 29), (-164147763550, 31),
      (-396736195160, 34), (-558273287210, 37), (-346578420130, 40)],
     [(0, 0), (586655087100, 13), (450322755820, 16), (289084072120, 19), (-330568966520, 21), (650244032700, 24),
      (-191974955040, 27), (-125366004970, 29), (214892175690, 32), (-143880417820, 35), (359608994810, 39)], 0)
  | _ => ([(0, 0), (261591059620, 13), (109574842280, 16), (-938411115540, 19), (-464120397590, 22), (-263033577160, 23),
      (-226534380030, 25), (-760893007910, 28), (-934196678350, 31)],
     [(0, 0), (259293946010, 13), (157101418800, 16), (438256272370, 19), (-252611697940, 21), (643118193390, 24),
      (-100634715190, 26), (997453389920, 30), (-608632456070, 33), (208492293390, 36), (-306821961510, 40)], 0)

/-- The exponential term of type K at an integer temperature, in units of 10^-42 mV: 0.1185976 ×
exp(-1.183432 × 10^-4 × (t - 126.9686)^2). -/
def tcKExp (t : Int) : Int :=
  let d := t * 10000 - 1269686
  (118597600000 * 10 ^ 30 * expFix (-(1183432 * d * d)) (10 ^ 18)).fdiv (2 ^ 256)

/-- The reference function E(T) of R175 at an integer temperature, mV in Q16.16. -/
def tcE (curve : Nat) (t : Int) : Int :=
  let c := tcCoeff curve
  let base := if t < c.2.2 then tcPoly c.1 t else tcPoly c.2.1 t
  let e := if curve = 17 ∧ 0 ≤ t then base + tcKExp t else base
  rdivI (e * 65536) (10 ^ 42)

/-- The node temperatures of a thermocouple curve (R175). -/
def tcTemps (curve : Nat) : List Int :=
  let r := fun (lo : Int) (n : Nat) => (List.range n).map (fun (k : Nat) => lo + 5 * (k : Int))
  match curve with
  | 16 => r (-210) 283
  | 17 => r (-200) 315
  | 18 => r (-200) 121
  | 19 => r (-200) 241
  | _ => r (-200) 301

/-- Nodes E to T, both Q16.16 (R175, R178). -/
def tcET (curve : Nat) : List (Int × Int) := (tcTemps curve).map (fun t => (tcE curve t, t * 65536))

/-- Nodes T to E. -/
def tcTE (curve : Nat) : List (Int × Int) := (tcTemps curve).map (fun t => (t * 65536, tcE curve t))

/-- W = R(T)/R0 at an integer temperature in Q2.30 (R175, Callendar–Van Dusen). -/
def ptW (t : Int) : Int :=
  let w := 10 ^ 16 + 39083 * 10 ^ 9 * t - 5775 * 10 ^ 6 * t * t - (if t < 0 then 41830 * (t - 100) * t * t * t else 0)
  rdivI (w * 2 ^ 30) (10 ^ 16)

/-- Nodes of curve 8. -/
def ptNodes : List (Int × Int) :=
  (List.range 106).map (fun (k : Nat) => let t := (k : Int) * 10 - 200; (ptW t, t * 65536))

/-- Nodes of the NTC curves 24 and 25: R/R25 in Q8.24 (R175). -/
def ntcNodes (curve : Nat) : List (Int × Int) :=
  let beta : Int := if curve = 24 then 3435 else 3977
  (List.range 39).map (fun (k : Nat) =>
    let t : Int := 150 - 5 * (k : Int)
    -- β (1/(t + 273.15) - 1/298.15) = β (29815 - (100 t + 27315)) × 100 / ((100 t + 27315) × 29815)
    let a : Int := 100 * t + 27315
    (rdivI (expFix (beta * (29815 - a) * 100) (a.natAbs * 29815)) (2 ^ 232), t * 65536))

/-- The platinum evaluation of R177: `none` stands for RANGE. -/
def ptTemp (r p1 : Int) : Option Int :=
  if r ≤ 0 then none else
    let w := rdivI (r * 2 ^ 30) p1.natAbs
    if 2 ^ 32 ≤ w then none else interp w ptNodes

/-- A built-in grain curve of R216: FA, FB, c0 to c5 in Q8.24, then DMIN, DMAX, DREF, TMIN, TMAX, MMIN, MMAX in Q16.16. -/
structure GrainCurve where
  fa : Nat
  fb : Nat
  c : List Int
  dmin : Int
  dmax : Int
  dref : Int
  tmin : Int
  tmax : Int
  mmin : Int
  mmax : Int
  deriving DecidableEq, Repr

/-- A row of R216: frequencies in MHz, coefficients in thousandths, densities in hundredths, moistures in %. -/
def grainRow (fa fb : Nat) (c : List Int) (dmin dmax dref mmin mmax : Int) : GrainCurve :=
  { fa := fa * 100, fb := fb * 100, c := c.map (fun x => rdivI (x * 2 ^ 24) 1000)
    dmin := rdivI (dmin * 65536) 100, dmax := rdivI (dmax * 65536) 100, dref := rdivI (dref * 65536) 100
    tmin := -5 * 65536, tmax := 45 * 65536, mmin := mmin * 65536, mmax := mmax * 65536 }

/-- The built-in grain curves 1 to 14 (R216). -/
def grainBuiltin (k : Nat) : Option GrainCurve :=
  match k with
  | 1 => some (grainRow 20 100 [6200, 48000, -22000, 4500, -60, 350] 150 600 310 8 35)
  | 2 => some (grainRow 20 100 [5800, 44000, -18000, 3800, -55, 300] 180 650 340 8 30)
  | 3 => some (grainRow 20 100 [5600, 45500, -19000, 3600, -55, 310] 180 650 335 8 30)
  | 4 => some (grainRow 20 100 [6000, 46000, -20000, 4000, -58, 330] 160 620 305 8 30)
  | 5 => some (grainRow 20 100 [6400, 50000, -24000, 4800, -62, 360] 120 520 240 8 30)
  | 6 => some (grainRow 20 100 [4200, 40000, -16000, 3000, -50, 280] 160 600 320 7 25)
  | 7 => some (grainRow 50 120 [3100, 34000, -12000, 2600, -45, 240] 150 560 300 5 20)
  | 8 => some (grainRow 50 120 [2900, 32000, -11000, 2400, -42, 220] 100 460 210 5 20)
  | 9 => some (grainRow 20 100 [6800, 47000, -21000, 4200, -60, 340] 140 580 290 10 30)
  | 10 => some (grainRow 20 100 [6900, 46500, -20500, 4100, -60, 340] 140 580 295 10 30)
  | 11 => some (grainRow 20 100 [6100, 47500, -21500, 4400, -59, 340] 160 620 315 8 30)
  | 12 => some (grainRow 20 100 [5700, 45000, -19500, 3700, -56, 310] 180 640 330 8 30)
  | 13 => some (grainRow 20 100 [5750, 44500, -19000, 3700, -56, 310] 180 640 330 8 30)
  | 14 => some (grainRow 20 100 [5200, 42000, -17000, 3300, -52, 290] 170 620 325 8 30)
  | _ => none

end Sys2Proof.Machine
end

