-- ==== Sys2Proof/Machine/State/Analog.lean ====
section
/-! DEFINITION. The state of the analog front end and of conversion (chapters 5 and 6). -/

namespace Sys2Proof.Machine

open Sys2Proof

/-- A channel descriptor at run time (R143, R148 to R151, R160, R168). -/
structure Desc where
  heldP : Option Int
  heldN : Option Int
  pending : Bool             -- settle pending
  unsettled : Nat
  lastValid : Bool
  ovf : Bool
  compliance : Bool
  pol : Bool                 -- reversed
  raw : Int
  chopStart : Bool           -- the chop schedule restarts at the next visit
  lastRev : Nat              -- device ms of the latest reversal
  overRun : Nat              -- consecutive visits that end in overload
  misRaw : Nat
  misSense : Nat
  okRaw : Nat
  okSense : Nat
  revisit : Nat              -- the revisit interval of R156, in units of 1/128 µs; 0 where the run list does not name the descriptor
  deriving DecidableEq, Repr

/-- A visit in progress (R146). -/
structure Visit where
  desc : Nat
  guard : Bool
  ext : Bool
  unsettled : Bool           -- a settle cause arrived during the visit
  deriving DecidableEq, Repr

/-- One front-end bank (R133 to R165). -/
structure Bank where
  visit : Option Visit
  pos : Nat                  -- next entry of the list
  inScan : Bool              -- the storage list runs
  listDone : Bool
  waiting : Bool             -- idle until a guard slot has ended
  contOn : Bool
  contPol : Bool
  contStart : Bool           -- the continuous source's chop schedule restarts
  contRev : Nat
  contOver : Nat
  overload : Bool
  retryAt : Option Nat       -- device ms of the retry of a switched-off source
  vcurr : Nat
  visits : Nat
  selftest : Bool
  failed : Bool
  checking : Bool
  listPend : Bool
  runList : List Nat         -- list in force
  scanList : List Nat
  nextRun : Option (List Nat)   -- accepted edit waiting for the end of the cycle
  nextScan : Option (List Nat)
  runUs : Nat
  scanUs : Nat
  reason : Nat
  cmdResult : Nat
  deriving DecidableEq, Repr

/-- The front end. -/
structure Afe where
  banks : Tbl Bank
  descs : Tbl Desc           -- key 64 b + d
  deriving DecidableEq, Repr

/-- A measurement channel (R185, R198). State 0 disabled, 1 VALID, 2 HOLDING, 3 INVALID. -/
structure Chan where
  state : Nat
  value : Int
  cause : Nat
  limit : Bool
  stale : Bool
  at_ : Nat                  -- device ms at the end of the visit that produced VALUE
  noRec : Option Nat         -- device ms from which a stale record may be raised; none once it has been
  filt : Bool                -- the filter holds a value since the channel was last INVALID
  fshift : Nat               -- FSHIFT the filter last ran with
  scanned : Bool             -- converted in the last burst
  deriving DecidableEq, Repr

/-- A threshold switch (R191). -/
structure Sw where
  s : Bool
  cnt : Nat
  forced : Bool
  deriving DecidableEq, Repr

/-- Conversion. -/
structure Cnv where
  chans : Tbl Chan
  sws : Tbl Sw
  reason : Nat
  deriving DecidableEq, Repr

end Sys2Proof.Machine
end

