-- ==== Sys2Proof/Machine/State/Can.lean ====
section
/-! DEFINITION. The state of the CAN FD ports and of the frame maps (chapter 16). -/

namespace Sys2Proof.Machine

open Sys2Proof

/-- A frame buffer (R507): INFO, identifier, stamp and data. In a transmit buffer only DLC and the data are the host's. -/
structure CBuf where
  dlc : Nat
  fd : Bool
  brs : Bool
  esi : Bool
  rtr : Bool
  ext : Bool
  id : Nat
  epoch : Nat
  stamp : Nat
  data : List Byte
  deriving DecidableEq, Repr

/-- A mailbox (R474 to R480, R490, R506). -/
structure Mbx where
  buf : CBuf
  shadow : Option CBuf         -- the latest frame that came while the buffer was locked (R478)
  shadowOvf : Bool             -- that frame has replaced another one
  txres : Nat
  pending : Bool
  again : Bool                 -- requested again while its frame was on the wire
  held : Bool                  -- pending since before the port went bus-off
  since : Nat                  -- device ms since when it has been pending
  unread : Bool                -- NEW
  ovf : Bool                  -- OVERWRITTEN
  clashes : Nat
  overwrites : Nat
  deriving DecidableEq, Repr

/-- A launch entry at run time (R481, R508). -/
structure Launch where
  state : Nat                  -- 0 disabled, 1 armed, 2 launched, 3 sent, 4 failed
  txres : Nat
  reason : Nat
  due : Nat                    -- due time of its binding, 32.32
  sent : Nat
  deriving DecidableEq, Repr

/-- What a frame that waits outside the mailboxes is. -/
inductive XKind where
  | sync (seq : Nat)
  | followUp
  | reply
  deriving DecidableEq, Repr

/-- An exchange or service frame that waits for the bus. -/
structure XItem where
  kind : XKind
  frame : CBuf
  since : Nat
  deriving DecidableEq, Repr

/-- The transmission that has begun: of a mailbox, or of the exchange or service frame at the head of its queue place. -/
inductive Wire where
  | mailbox (m : Nat) (frame : CBuf)
  | extra (x : XItem)
  deriving DecidableEq, Repr

/-- A request of the register service, or a reply that waits for SERVICE_WRITE_REPLY: byte 0, address, data, the frame's
stamp, and the reason code. -/
structure SvcReq where
  op : Nat
  dlc : Nat
  addr : Nat
  val : Word
  stamp : Nat
  code : Nat
  deriving DecidableEq, Repr

/-- A captured snapshot of the register service (R497). -/
structure SvcLock where
  first : Nat
  last : Nat
  at_ : Nat                    -- device µs at which it was taken
  words : List Word
  deriving DecidableEq, Repr

/-- A port. -/
structure Port where
  tec : Nat
  rcv : Nat                    -- receive error counter
  lec : Nat
  busOff : Bool
  recovering : Bool
  blocked : Bool
  syncOk : Bool
  reason : Nat
  ctlResult : Nat
  txcnt : Nat
  rxcnt : Nat
  fifoDrops : Nat
  svcDrops : Nat
  dropAt : Option Nat          -- device ms of the latest RX_FIFO_DROP
  neterr : Int
  seq : Nat                    -- SEQ of the next SYNC
  rxSync : Option (Nat × Nat)  -- slave: SEQ and stamp of the latest SYNC
  follow : Option (Nat × Nat × Nat)   -- master: SEQ, epoch and T1 of a SYNC sent
  lastPair : Nat               -- device ms of the latest pair, or of the start
  mbx : Tbl Mbx
  launches : Tbl Launch
  fifo : List CBuf
  svc : List SvcReq            -- requests received
  replies : List SvcReq        -- replies to writes that have been applied
  xq : List XItem
  wire : Option Wire
  busy : Bool                  -- another node's frame is on the bus
  foreign : Tbl Nat            -- 1 + device ms of the latest FOREIGN_OWN_ID per identifier
  lock : Option SvcLock
  deriving DecidableEq, Repr

/-- A frame map at run time (R492 to R494, R509). -/
structure MapS where
  onAlt : Bool
  timedOut : Bool
  lastRx : Nat                 -- device ms of the latest frame, or of the start
  count : Nat
  deriving DecidableEq, Repr

/-- A write in the register-service position of R37. -/
inductive CanWrite where
  | service (p : Nat) (r : SvcReq)
  | mapped (k : Nat) (addr : Nat) (v : Word)
  | exchange (p : Nat) (step : Bool) (value : Int) (ms : Nat)
  deriving DecidableEq, Repr

/-- The CAN ports. -/
structure Can where
  ports : Tbl Port
  maps : Tbl MapS
  writes : List (Nat × CanWrite)      -- with the reception stamp, oldest first
  free : Nat                          -- the model's own count of free values taken
  deriving DecidableEq, Repr

end Sys2Proof.Machine
end

