-- ==== Sys2Proof/Machine/State/Column.lean ====
section
/-! DEFINITION. The state of the column model (chapter 8). -/

namespace Sys2Proof.Machine

open Sys2Proof

/-- A parcel (R247, R270). -/
structure Parcel where
  top : Int
  mass : Int
  m : Int
  theta : Int
  entry : Int
  born : Nat
  seq : Nat
  zone : Nat
  unknown : Bool
  est : Bool
  gap : Bool
  deriving DecidableEq, Repr

/-- An entry of the departure record (R248, R257, R275). -/
structure Dep where
  leave : Nat
  pred : Int
  seq : Nat
  unknown : Bool
  used : Bool
  est : Bool
  resid : Option Int
  deriving DecidableEq, Repr

/-- A zone's conditions of the latest step (R275). -/
structure ZoneCond where
  ta : Int
  rh : Int
  k : Int
  me : Int
  deriving DecidableEq, Repr

/-- What a step computes and publishes. -/
structure ColCore where
  kappa : Int
  carry : Int
  inMass : Int
  inSum : Int
  fill : Int                  -- batch mode: mass filled and not yet in a parcel
  seq : Nat
  parcels : List Parcel       -- oldest first
  head : Nat                  -- slot of the oldest parcel within the column's range
  deps : Tbl Dep
  depPos : Nat
  zones : Tbl ZoneCond
  lastTa : Tbl (Option Int)
  edgeZones : List Nat        -- zones that raised TABLE_EDGE since the start
  edge : Nat
  resid : Int
  pred : Int
  temp : Int
  ttt : Nat
  unknownPct : Nat
  bad : Nat                   -- cause of the outputs, 0 when none applies
  lastIn : Option Int         -- last usable inlet moisture
  startedMs : Nat             -- device ms at which the step started
  deriving DecidableEq, Repr

/-- A qualifying discharge result (R256): its moisture and the frame boundary at which it became visible, short time. -/
structure Qual where
  m : Int
  at_ : Nat
  deriving DecidableEq, Repr

/-- What a step took when it started: the commands that acted and the qualifying result it used (R257, R263, R274). -/
structure ColTaken where
  restart : Bool
  clear : Bool
  kReset : Bool
  kWrite : Option Int
  qual : Option Qual
  deriving DecidableEq, Repr

/-- A column at run time. -/
structure Col where
  core : ColCore
  shown : List Parcel         -- the parcels of the last published step: what the parcel window shows (R270)
  shownHead : Nat
  stepMs : Nat                -- device ms at which the latest step started (R263)
  prevMs : Nat                -- the same of the step before it
  taken : ColTaken
  work : Option ColCore       -- a step that runs
  done : Bool                 -- it has completed and is published at the next boundary
  hasStep : Bool              -- a step has completed since the start
  state : Nat                 -- 0 disabled, 1 VALID, 2 HOLDING, 3 INVALID
  cause : Nat
  first : Bool                -- the next step is the first after a start
  skipped : Nat               -- boundaries skipped since the previous step
  consec : Nat
  late : Nat
  steps : Nat
  qual : Option Qual
  seenAt : Nat                -- device ms of the discharge result last looked at
  qualMs : Nat                -- device ms of the last qualifying result, or of the start
  openLoop : Bool
  inletMs : Nat               -- device ms at which the inlet was last usable, or of the start
  inletLost : Bool
  restart : Bool
  clear : Bool
  kReset : Bool
  kWrite : Option Int
  cmdResult : Nat
  reason : Nat
  deriving DecidableEq, Repr

end Sys2Proof.Machine
end

