-- ==== Sys2Proof/Machine/State/Control.lean ====
section
/-! DEFINITION. The state of the loops, profile generators, override groups and trace channels (chapters 9 and 10). -/

namespace Sys2Proof.Machine

open Sys2Proof

/-- A time-proportioned output (R297). -/
structure Tpo where
  on : Nat                 -- on-time of the present cycle, ms
  res : Int                -- Q16.16 ms
  elapsed : Nat
  out : Bool               -- the level the latest boundary asks for
  deriving DecidableEq, Repr

/-- A control loop (R282 to R298, R304). State: 2 MANUAL, 3 AUTO, 4 TRACK, 5 FALLBACK. -/
structure LoopS where
  state : Nat
  i : Int                  -- 2^-32 of the output unit
  xp : Int
  dst : Int
  u : Int                  -- u_prev
  init : Bool              -- the next AUTO sample initialises
  bank : Bool              -- the bank of the latest sample
  sampled : Bool           -- a sample has executed since the start
  satHi : Bool
  satLo : Bool
  held : Bool
  missed : Bool
  fbCause : Nat
  x : Int
  r : Int
  e : Int
  p : Int
  f : Int
  lastSp : Int
  lastF : Int
  manAt : Option Nat       -- device ms of a write to LOOP_MAN that no sample has taken yet
  modeAt : Option Nat      -- device ms of the latest write to LOOP_MODE since the causes of FALLBACK were last present
  onTime : Nat             -- consecutive samples on time since the last miss, at most 10
  consec : Nat
  total : Nat
  count : Nat
  overrun : Bool           -- CONTROL_OVERRUN stands
  lostPv : Bool
  lostSp : Bool
  lostF : Bool
  lostTrack : Bool
  tpo : Tpo
  reason : Nat
  cmdResult : Nat
  deriving DecidableEq, Repr

/-- A profile generator (R309 to R314): y in 2^-48 of the unit, v and a per frame. -/
structure Gen where
  y : Int
  v : Int
  a : Int
  atTarget : Bool
  stopped : Bool           -- not in RUN
  ovf : Bool
  out : Int
  snap : Bool              -- PRF_CMD.SNAP waits for the next step
  reason : Nat
  cmdResult : Nat
  deriving DecidableEq, Repr

/-- An override group (R316 to R320). -/
structure Ovr where
  winner : Nat
  u : Int                  -- U of the latest selection
  fresh : Bool             -- no selection since the start
  switches : Nat
  tpo : Tpo
  reason : Nat
  deriving DecidableEq, Repr

/-- A trace channel (R321 to R325). State: 0 idle, 2 armed, 3 after the trigger, 4 DONE, 5 STOPPED. -/
structure Trc where
  state : Nat
  cause : Nat
  ring : List Nat          -- samples held, oldest first, 32 bits each
  preGot : Nat
  low : Bool               -- a TRIG sample below LEVEL - HYST since arming or the last unusable one
  high : Bool
  force : Bool
  linked : Bool            -- the linked channel has triggered since arming
  faulted : Bool           -- the fault code has been raised since arming
  arm : Bool               -- an accepted ARM takes effect at the next frame boundary (R46, R114)
  frame : Nat
  time : Nat
  epoch : Nat
  reason : Nat
  cmdResult : Nat
  deriving DecidableEq, Repr

/-- The control engine. -/
structure Ctl where
  loops : Tbl LoopS
  before : Tbl LoopS       -- the loops as they stood before the samples of the present frame, which the mirror may change (R296)
  gens : Tbl Gen
  ovrs : Tbl Ovr
  trcs : Tbl Trc
  due : List Nat           -- loops due in this frame that have neither completed nor missed yet
  anyMiss : Bool           -- a loop has missed in this frame
  reason : Nat
  worst : Nat              -- 0.1 µs
  worstIdx : Nat
  missFrames : Nat
  lastEnd : Nat
  peakEnd : Nat
  deriving DecidableEq, Repr

end Sys2Proof.Machine
end

