-- ==== Sys2Proof/Machine/State/Core.lean ====
section
/-! DEFINITION. Fuses, register words, the running image, and the state of the always-on domain, the supplies, the
configuration loader and the time base (chapters 0, 1, 3, 4 and 15). -/

namespace Sys2Proof.Machine

open Sys2Proof

/-- Fuses and bonding (R4, R7). They never change. -/
structure Variant where
  banks : Nat      -- GLB_VARIANT.BANKS: 0, 1, 2 for 4, 8, 16 banks
  tierD : Bool
  pair : Bool
  rev : Nat
  id : Nat         -- GLB_ID, 64 bits
  deriving DecidableEq, Repr

/-- Every configuration and operator register word by byte address: as last written or loaded, and in force (R12); and
the words whose shadowed fields were written in the present frame, which no boundary of this frame brings into force
(R38). -/
structure Regs where
  w : Tbl Word
  f : Tbl Word
  fresh : Tbl Bool
  deriving DecidableEq, Repr

/-- One section of the running image: its type, instance and the image offset of its first byte (R102). -/
structure Sect where
  typ : Nat
  inst : Nat
  off : Nat
  len : Nat
  deriving DecidableEq, Repr

/-- The running image (R127): its bytes, what its header says, and where it came from. -/
structure Image where
  ok : Bool            -- GLB_STATE.CFG
  bytes : List Byte
  sects : List Sect
  gen : Nat
  signed : Bool
  expert : Bool        -- LEVEL
  pairOn : Bool
  dormant : Bool       -- START = DORMANT
  source : Nat         -- CFG_STAT.SOURCE
  deriving DecidableEq, Repr

/-- What no engine changes by itself: the fuses, the register words and the running image. -/
structure Cfg where
  fx : Variant
  reg : Regs
  img : Image
  deriving DecidableEq, Repr

/-- The device states of R18 to R20. -/
inductive DevState where
  | boot | safe | dormant | scan | run
  deriving DecidableEq, Repr

/-- The pair role (R29). -/
inductive Role where
  | none | active | standby
  deriving DecidableEq, Repr

/-- The state manager (R18 to R32). -/
structure Glb where
  st : DevState
  role : Role
  lastCause : Nat
  cmdResult : Nat              -- GLB_CMD.RESULT
  safeReq : Option Nat         -- cause of a pending entry to SAFE at the next boundary
  runReq : Option Nat          -- pending SAFE to RUN, with its cause
  dormReq : Bool               -- an accepted request for DORMANT waits for the end of the following pass
  dormSched : Bool             -- that request came from a timed action
  haltCause : Option Nat       -- a HALT raised in this frame or burst
  runCommit : Bool             -- the pending SAFE to RUN follows an accepted configuration, not LEAVE_SAFE
  deriving DecidableEq, Repr

/-- A start of the fast clocks that is under way (R82). -/
structure Starting where
  toRun : Bool
  cause : Nat
  at_ : Nat          -- accumulator at the wake reference
  deriving DecidableEq, Repr

/-- The phase of a SCAN burst (R86). -/
inductive Burst where
  | none | scanning | listDone | holdsSent
  deriving DecidableEq, Repr

/-- Supplies, clocks and the sleeping plant (chapter 3). -/
structure Pwr where
  v33 : Bool
  v33a : Bool
  vio : Bool
  vaoIn : Bool          -- VAO above 1.60 V
  vaoOk : Bool          -- PWR_STAT.VAO_OK, at or above 1.9 V
  vaoLevel : Nat        -- the VAO level last reported, units of 20 mV
  vaoAt : Nat           -- the second of device time in which it was
  rstLow : Bool         -- RST_N held low
  wakeLow : Bool        -- WAKE_N held low
  xt25 : Bool           -- XT25 has not failed since BOOT began
  xt32 : Bool           -- XT32 runs
  rc : Bool
  fast : Bool           -- the fast clocks have run since BOOT began
  rst : Nat             -- PWR_RSTCAUSE bits
  calOfs : Int
  calValid : Bool
  calOut : Bool
  burstLast : Nat
  overruns : Nat
  scanCount : Nat
  start : Option Starting
  burst : Burst
  burstRef : Nat                 -- accumulator at the wake reference of the burst
  runCond : Option Nat           -- the first run condition found
  scanStopped : Bool
  interval : Nat                 -- PWR_SCAN.INTERVAL in force: as the configuration brought it, then as of each entry to DORMANT
  nextScan : Option Nat          -- the next scheduled scan, in whole seconds of device time
  nextWake : Option Nat          -- device time, 32.32, of the next WAKE_RUN action
  entryAbort : Option Nat        -- a wake event since the request for DORMANT
  slow : Bool                    -- the slow tick is in use
  holdMs : Nat                   -- hold time of the latest hold command, ms
  firstAt : Option Nat           -- device ms of the frame boundary that a timed wake or the end of BOOT has named
  woke : Bool                    -- the next frame boundary is the first after a wake
  resetFrom : Option DevState    -- held in reset: the state in which the reset came
  deriving DecidableEq, Repr

/-- One flash slot as BOOT saw it (R130) and the bytes it holds. -/
structure Slot where
  state : Nat
  reason : Nat
  gen : Nat
  bytes : List Byte
  deriving DecidableEq, Repr

/-- The flash as discovered (R98, R131). -/
structure Flash where
  cap : Nat              -- capacity in bytes
  read : Nat             -- read instruction: 0 for 1-1-1, 1 for 1-1-4, 2 for 1-4-4
  addr : Nat             -- addresses: 0 of 3 bytes, 1 by 4-byte instructions, 2 by the 4-byte entry method
  page : Nat             -- page size in bytes
  erases : List Nat      -- erase sizes in bytes
  valid : Bool
  deriving DecidableEq, Repr

/-- The write-session phase (R117). -/
inductive Session where
  | none | filling (copy : Bool) | opened
  deriving DecidableEq, Repr

/-- A commit whose check or partner result is awaited (R119, R560). -/
structure Commit where
  mode : Nat             -- 1 APPLY, 2 STORE, 3 APPLY_STORE
  bytes : List Byte
  toPartner : Bool       -- accepted here; the partner's result is awaited
  deriving DecidableEq, Repr

/-- The step a write-back is at (R122): the magic cleared, sectors erased, pages programmed, the read-back, bytes 4 to 15 and their read-back, the magic
and its read-back; or the erase of a slot that failed. -/
inductive WbStage where
  | clear | erase | pages | check | head | headCheck | magic | magicCheck | wipe
  deriving DecidableEq, Repr

/-- A write-back under way (R122). -/
structure WriteBack where
  slot : Nat
  bytes : List Byte
  gen : Nat
  apply : Bool
  stage : WbStage
  pos : Nat              -- the slot byte at which the present erase or page begins
  deriving DecidableEq, Repr

/-- One key-hash fuse bank (R109). -/
structure FuseBank where
  used : Bool
  valid : Bool
  hash : Nat
  deriving DecidableEq, Repr

/-- An enable, disable or commit bit handed to Sage whose result is awaited (R114). -/
structure Check where
  addr : Nat            -- address of the word holding the bit
  val : Word            -- the value written
  deriving DecidableEq, Repr

/-- The configuration loader and Sage (chapter 4). -/
structure CfgSt where
  flash : Flash
  kept : Bool                  -- the module has read the slots, and their bytes below are the flash's
  slotA : Slot
  slotB : Slot
  found : Bool                 -- the flash discovery of this BOOT has ended
  cands : List Nat             -- candidates still to be tried, 0 for slot A and 1 for slot B
  tried : Nat                  -- candidates tried
  firstRefusal : Nat           -- code for LAST_CAUSE when no image is accepted
  accepted : Option Nat        -- the slot accepted in this BOOT
  cpDone : Bool                -- the checkpoint read of R534 has completed
  bootHalt : Option Nat        -- a HALT raised in BOOT
  session : Session
  lastAccess : Nat             -- device time in ms of the last host access
  staging : Tbl Byte
  sesResult : Nat
  cmdResult : Nat
  fuseResult : Nat
  commit : Option Commit
  wbState : Nat
  wbSlot : Nat
  wbProgress : Nat
  wb : Option WriteBack
  prot : Option Nat            -- the protected slot
  fallback : Bool
  lastReason : Nat
  errLocked : Bool
  errNoSession : Bool
  errAddr : Nat
  locType : Nat
  locEntry : Nat
  errOff : Nat
  digest : Nat                 -- SHA-256 of the running image, big-endian value
  fuse0 : FuseBank
  fuse1 : FuseBank
  fusing : Option Nat          -- bank being programmed
  checks : List Check
  applied : Bool               -- an image was applied at run time, and the next frame boundary brings its frame-boundary blocks into force
  deriving DecidableEq, Repr

/-- The state of one timed action (R456 to R468). -/
structure Act where
  state : Nat              -- 0 disabled, 1 pending, 2 DONE, 3 PAST
  c0 : Int                 -- due time of occurrence 0, 32.32 of its binding
  next : Nat               -- next occurrence that may fire
  late : Bool
  stepped : Bool
  slept : Bool
  skipped : Nat
  result : Nat
  lateNow : Bool           -- armed late: fires at the next tick flagged LATE
  passed : Bool            -- a forward STEP passed its due time
  firedAt : Nat            -- short time of the firing when DONE
  deriving DecidableEq, Repr

/-- An effect of a fired action that waits for the next boundary (R461). -/
structure Effect where
  due : Int
  entry : Nat
  kind : Nat
  index : Nat
  addr : Nat
  val : Word
  deriving DecidableEq, Repr

/-- The time base (chapter 15). -/
structure Tim where
  acc : Nat                -- device time, units of 2^-48 s, 80 bits
  ofs : Int                -- OFS, 64 bits signed
  epoch : Nat
  slew : Int               -- rate in force
  slewLeft : Nat           -- milliseconds remaining
  netSet : Bool
  steps : Nat
  cmdResult : Nat
  incS : Nat               -- INC_S of the present DORMANT
  acts : Tbl Act
  effects : List Effect
  wakeFired : Bool         -- a WAKE_RUN action has fired since the last frame boundary (R464)
  arming : List Nat        -- timed actions whose EN a write of this boundary has set (R458)
  restart : Bool           -- VAO power-on: R452 awaits the epoch of the ledger
  deriving DecidableEq, Repr

end Sys2Proof.Machine
end

