-- ==== Sys2Proof/Machine/State/Faults.lean ====
section
/-! DEFINITION. The state of the guard path, the fault manager, the archive and the host data port (chapters 14, 17 and 18). -/

namespace Sys2Proof.Machine

open Sys2Proof

/-- A fault record (R433), with what its Clears column needs. -/
structure FRec where
  code : Nat
  sev : Nat
  acked : Bool
  escalated : Bool
  source : Nat
  occ : Nat
  first : Nat              -- network time of the first occurrence, 32.32
  last : Nat
  epoch : Nat
  firstSev : Nat
  seq : Nat
  a : Nat                  -- DATA_A
  b : Nat
  byAck : Bool             -- Clears reads "acknowledgement"
  gone : Bool              -- the cause is gone
  deriving DecidableEq, Repr

/-- A copy of a record in the fault queue, or an event (R438, R439). -/
structure FCopy where
  r : FRec
  isOpen : Bool
  closed : Bool
  event : Bool
  merged : Bool
  deriving DecidableEq, Repr

/-- The fault manager. -/
structure Flt where
  recs : List FRec              -- open records in rising SOURCE
  seq : Nat
  queue : List FCopy            -- fault queue, oldest first
  waiting : List FCopy          -- TRIP and HALT copies that found only TRIP and HALT copies (R55)
  events : List FCopy
  merge : Tbl Nat               -- merge counter per code
  drops : Nat
  merged : Nat
  sel : Nat
  lastCode : Nat
  lastSev : Nat
  cmdResult : Nat
  healthy : Bool
  raised : List Nat             -- codes raised since the trace channels last looked (R323)
  dropAt : Option Nat           -- device ms of the last FAULT_QUEUE_DROP
  dropPend : Bool               -- a close or acknowledgement copy was dropped since, and FAULT_QUEUE_DROP waits for the frame boundary (R438)
  deriving DecidableEq, Repr

/-- A guard term at run time (R419 to R425). -/
structure GTerm where
  value : Bool
  tripped : Bool
  hold : Bool
  src : Nat               -- source values
  inv : Nat               -- invalid sources
  seen : Nat              -- sources that have delivered a valid value since the term's start
  relSince : Option Nat   -- device ms since when a tripped non-latching term is false
  count : Nat
  deriving DecidableEq, Repr

/-- The Selvedge guard path. -/
structure Grd where
  terms : Tbl GTerm
  pathOk : Bool
  bad : List Nat          -- terms whose evaluators disagree
  cmdResult : Nat
  reason : Nat
  deriving DecidableEq, Repr

/-- A ledger record (R528). -/
structure Rec where
  typ : Nat
  cls : Nat
  epoch : Nat
  seq : Nat
  time : Nat
  devt : Nat
  body : List Byte
  deriving DecidableEq, Repr

/-- A subpage: the records packed into it. -/
structure Sub where
  recs : List Rec
  deriving DecidableEq, Repr

/-- What the band index holds for one stripe (R530): the records with the least and the greatest SEQ, and the epoch and the low 56 bits
of the time of the first. -/
structure StripeIdx where
  region : Nat
  first : Nat
  last : Nat
  epoch : Nat
  time : Nat
  deriving DecidableEq, Repr

/-- One record band (R532): 0 erased, 1 being erased, 2 open, 3 closed. -/
structure Band where
  cond : Nat
  owner : Nat
  order : Nat             -- rises with each band taken, so the oldest is the least
  subs : List Sub         -- programmed subpages, oldest first
  parity : List (Nat × Nat)         -- stripes whose parity pages are programmed, each with the parity pages that failed (R526)
  index : Option (List StripeIdx)   -- stripe 63 (R530)
  moved : List Nat        -- stripes rewritten at another stripe after an erasure was recovered (R527)
  lost : List Nat         -- stripes with three or more erasures
  bad : Nat               -- permanent erasures (failed blocks without a spare)
  failed : List Nat       -- blocks that failed a program and retire at the next erase
  deriving DecidableEq, Repr

/-- A region at run time. -/
structure Region where
  partialRecs : List Rec      -- the partly filled subpage in SRAM
  since : Nat                 -- device ms when its first record entered
  full : Bool
  drops : Nat
  gone : Nat              -- one more than the newest SEQ an erase has removed, 0 when none
  goneEpoch : Nat         -- epoch and time of that record
  goneTime : Nat
  rewrite : List (List Rec)   -- subpages of recovered stripes that wait for the region's next stripe (R527)
  deriving DecidableEq, Repr

/-- A Shuttle tag (R535, R542). -/
structure Tag where
  state : Nat
  fin : Bool
  overtaken : Bool
  lost : Bool
  volatil : Bool
  count : Nat
  bytes : Nat
  next : Nat
  buf : List Byte
  gones : List Nat        -- `gone` of each region at GO
  deriving DecidableEq, Repr

/-- What waits in the program queue: a subpage of records, the parity pages of a closed stripe, or a band index (R526, R530, R533). A band is
named with its order, so an erase in between is seen. -/
inductive PKind where
  | data
  | parity (band order stripe : Nat)
  | index (band order : Nat)
  deriving DecidableEq, Repr

/-- An item of the program queue. -/
structure PQ where
  region : Nat
  recs : List Rec
  kind : PKind := .data
  deriving DecidableEq, Repr

/-- The archive (chapter 18). -/
structure Arc where
  state : Nat
  seq : Nat
  mark : Nat                 -- SEQ_MARK
  cpEpoch : Nat              -- epoch of the newest checkpoint
  cpValid : Bool
  queue : List PQ            -- the program queue, oldest first
  peak : Nat
  regions : Tbl Region
  bands : Tbl Band
  order : Nat
  spare : Nat
  retired : Nat
  rebuilt : Nat
  lostStripes : Nat
  offline : Nat
  dropTimer : Nat            -- device ms of the last DROP_SUMMARY
  cmdResult : Nat
  scmdResult : Nat
  tags : Tbl Tag
  tagQueue : List Nat        -- queued and busy tags in order of issue
  waitRecs : List Rec        -- records that wait for the mount
  bootSeq : Nat              -- first SEQ after BOOT
  free : Nat                 -- the model's own count of free values taken
  deriving DecidableEq, Repr

/-- A queued register write (R515). -/
structure QWrite where
  addr : Nat
  val : Word
  deriving DecidableEq, Repr

/-- A snapshot lock: the first and last address and the captured words (R518). -/
structure Lock where
  first : Nat
  last : Nat
  words : List Word
  deriving DecidableEq, Repr

/-- The host data port (chapter 17). -/
structure Dp where
  queue : List QWrite
  sbuf : List QWrite       -- words waiting in the staging write buffer, oldest first
  lock : Option Lock
  expired : Bool
  frameErr : Bool
  underrun : Bool
  overrun : Bool
  code : Nat
  count : Nat
  addr : Nat
  irq : Nat
  out : List Byte          -- the bytes the latest frame sent on the lanes
  quad : Bool              -- they were sent on four lanes
  overAt : Option Nat      -- device ms of the last HOST_OVERRUN
  deriving DecidableEq, Repr

end Sys2Proof.Machine
end

