-- ==== Sys2Proof/Machine/State/Field.lean ====
section
/-! DEFINITION. The state of the field groups, of the isolated digital channels and of the mover channels (chapters 12
and 13). -/

namespace Sys2Proof.Machine

open Sys2Proof

/-- A field group: digital groups 0 to 3 are 0 to 3, mover groups 0 and 1 are 4 and 5 (R364, R394). -/
structure FGrp where
  line : Nat               -- common-fault line toward the die: 0 RUN, 1 BOOT, 2 FENCE, 3 DARK
  wdExp : Bool             -- the field watchdog has expired and no valid mark has come since
  holdExp : Bool           -- the DORMANT hold has run out
  holding : Bool           -- a hold command is in force (R382)
  lease : Bool             -- mover group: the output lease has expired
  cond : Nat               -- 2 normal, 3 FIELD_UNDER, 4 FIELD_CUT, 5 STATUS_BAD, 6 MISSING
  low : Bool
  restorable : Bool
  latch : Nat              -- group-level latch: 0 none, 4 CUT, 5 GROUP
  cfOk : Bool              -- GROUP_OK as received
  reason : Nat
  samples : List Nat       -- the last four supply samples, mV
  now : Nat                -- units of 10 mV
  min : Nat
  wakeSet : Bool           -- the next return frame set is the first after a wake from DORMANT: its edges are those counted there (R374)
  wdCnt : Nat
  badCnt : Nat
  refused : Nat
  badRun : Nat             -- consecutive failed status records
  goodRun : Nat            -- consecutive valid status records
  cmd : Nat                -- digital group: levels the latest boundary sends, bit k
  want : Nat               -- the levels ranks 3 to 5 ask for: on a STANDBY, what the active commands
  held : Nat               -- the levels of the forward frame set the die holds, bit k
  trip : Nat               -- the trip bits the die holds, bit k
  safeHeld : Nat           -- the safe levels the die holds, bit k
  applied : Nat            -- levels the die drives, bit k
  rb : Nat                 -- readbacks
  raw : Nat                -- latest input samples
  cmdResult : Nat
  startMs : Nat            -- device ms of the group's start
  deriving DecidableEq, Repr

/-- An isolated digital channel. -/
structure DChan where
  level : Bool             -- debounced state
  hasState : Bool          -- a debounced state has come since the group's start
  own : Bool               -- this module's own debounced state
  hasOwn : Bool            -- the own field die has sent a debounced state since the group's start
  cand : Bool              -- the level of the debounce run
  run : Nat                -- consecutive samples at that level
  stamp : Nat              -- network time of the run's first sample
  stampEp : Nat
  brk : Bool               -- INVALID with cause BREAK until the next debounced state
  brkAt : Nat              -- device ms at which the input current was last below 0.25 mA for 50 ms (R371)
  latch : Nat              -- 0 none, 1 OVERLOAD, 2 BACKFED, 3 DRIVER
  phase : Nat              -- overload: 0 none, 1 off and waiting, 2 retrying, 3 ended by a command to off, 4 retry due, waiting for the restore (R387)
  retries : Nat
  openLoad : Bool
  load : Nat
  count : Nat
  edges : Nat              -- edges of the present frame
  hist : List Nat          -- edges of the latest frames, newest first, at most WIN
  rate : Int
  host : Bool              -- host command
  stood : Nat              -- boundaries for which the applied level has stood
  lastOn : Bool            -- the applied level at the previous boundary
  fedCnt : Nat             -- consecutive boundaries off with the readback on
  drvCnt : Nat             -- consecutive boundaries on with the readback off
  misCnt : Nat             -- STANDBY: consecutive boundaries with the active on and the readback off
  cmdResult : Nat
  deriving DecidableEq, Repr

/-- A mover channel. State: 1 OFF, 2 SPINUP, 3 RUN, 4 TACH_LOST, 5 PAUSE, 6 LATCHED. -/
structure MChan where
  state : Nat
  since : Nat              -- device ms of the entry to the state, moved on while the timers stand still
  retry : Nat
  latch : Nat              -- 1 START_FAILED, 2 STALL_RUN
  lowFor : Nat             -- boundaries for which RPM has been below MIN_RPM, or evidence absent
  offSince : Nat           -- device ms since when the drive is off
  stamps : List Nat        -- edge stamps in µs of device time, oldest first
  lastEdge : Option Nat
  rpm : Int
  noPulse : Bool
  openIn : Bool
  evid : Bool
  speedOk : Bool
  uc : Int
  eCmd : Int               -- what the latest boundary sends
  held : Int               -- the e of the forward frame set the die holds
  e : Int                  -- what the die drives
  parked : Bool
  trip : Bool              -- the trip bit the die holds
  starts : Nat
  stalls : Nat
  outBad : Nat             -- 0 none, 1 OUTPUT_OPEN, 2 OUTPUT_SHORT
  outAt : Nat              -- device ms of the latest OUTPUT_OPEN or OUTPUT_SHORT
  misAt : Option Nat       -- device ms of the latest PARTNER_DRIVE_MISMATCH while its record is open
  tachOpen : Bool          -- TACH_OPEN raised
  cmdResult : Nat
  reason : Nat
  deriving DecidableEq, Repr

/-- A temperature-to-duty table (R403). -/
structure DTab where
  req : Bool
  held : Int
  lost : Bool
  deriving DecidableEq, Repr

/-- The field side. -/
structure Fld where
  grps : Tbl FGrp          -- 0 to 5
  dio : Tbl DChan
  mov : Tbl MChan
  tabs : Tbl DTab
  late : List (Nat × Nat × Nat)   -- source, code and severity of records raised in DORMANT, reported at the wake
  deriving DecidableEq, Repr

end Sys2Proof.Machine
end

