-- ==== Sys2Proof/Machine/State/Moisture.lean ====
section
/-! DEFINITION. The state of the moisture engine and of the cartridge units (chapter 7). -/

namespace Sys2Proof.Machine

open Sys2Proof

/-- The admittances of one sweep: spots 0 to 7 then the reference spot, in nS, and its marks (R204, R208). -/
structure SweepRec where
  gs : List Int
  bs : List Int
  drive : Bool
  ovf : Bool
  deriving DecidableEq, Repr

/-- A calibration under way (R213): 1 CAL_OPEN, 2 CAL_SHORT. -/
structure CalRun where
  kind : Nat
  got : List SweepRec
  started : Bool
  deriving DecidableEq, Repr

/-- A moisture cell (R205 to R221, R238). -/
structure Cell where
  state : Nat
  cause : Nat
  m : Int
  rho : Int
  temp : Int
  qual : Int
  drift : Int
  resA : Nat
  resB : Nat
  sweepUs : Nat               -- sweep length in µs
  sweeps : Nat
  at_ : Nat                   -- device ms of the delivery of the values held
  eps1 : List Int
  eps2 : List Int
  g : List Int
  b : List Int
  gref : Int
  bref : Int
  expired : Bool
  sweeping : Bool             -- a sweep is under way
  dropSweep : Bool            -- its result is discarded
  got : List SweepRec         -- sweeps collected for the average
  ctgChange : Bool            -- a cartridge change during the average
  cal : Option CalRun
  calClear : Bool
  calResult : Nat
  rtd : Option Int            -- latest valid RTD result
  rtdAt : Nat
  uncalRaised : Bool          -- the enable has raised CELL_UNCALIBRATED
  staleRec : Bool             -- CELL_STALE has been raised since the last valid result
  plan : List Nat             -- the words in force that R205 compares at a sweep start
  deriving DecidableEq, Repr

/-- A transaction on the identity line (R224): 1 INCR, 2 WRITE, 3 full read, 4 poll. -/
structure CtgTx where
  kind : Nat
  row : Nat                   -- address of a WRITE row, or bytes read so far of a full read
  attempts : Nat
  data : List Byte            -- bytes collected by a full read
  stale : Bool                -- a change was detected: the result is discarded
  deriving DecidableEq, Repr

/-- A cartridge unit (R223 to R230, R239). -/
structure Ctg where
  state : Nat                 -- 0 absent, 1 reading, 2 accepted, 3 refused
  mem : Tbl Byte              -- the memory as last accepted
  serial : Nat
  reason : Nat
  acc : Nat
  pend : Nat
  fails : Nat
  consec : Nat                -- consecutive failed INCR or row writes
  tx : Option CtgTx
  wantIncr : Bool
  wantRows : List Nat         -- rows to write
  wantRead : Bool
  wantPoll : Bool
  lineFault : Bool
  retryAt : Option Nat        -- device ms from which a failed INCR is retried
  lifeWarn : Bool
  expired : Bool
  absent : Bool               -- a poll has failed since the last answer
  result : Nat
  discarded : Nat             -- flow discarded by the latest change, in ms
  deriving DecidableEq, Repr

/-- The moisture engine. -/
structure Mst where
  cells : Tbl Cell
  ctgs : Tbl Ctg
  reason : Nat
  deriving DecidableEq, Repr

end Sys2Proof.Machine
end

