-- ==== Sys2Proof/Machine/State/Pair.lean ====
section
/-! DEFINITION. The state of redundant pair operation (chapter 19). -/

namespace Sys2Proof.Machine

open Sys2Proof

/-- The pair link and redundancy manager (R544 to R566). -/
structure Pair where
  state : Nat                  -- PAIR_STAT.STATE
  fencing : Bool
  fenceIn : Bool
  seat : Bool
  present : Bool               -- PAIR_PRESENT low
  lastRx : Option Nat          -- device µs of the latest seal or return frame
  claim : Bool                 -- a claim waits for the next frame boundary
  acceptPend : Bool
  join : Option JoinReport     -- the partner that is joining
  pid : Nat
  accepted : List Nat          -- identities accepted since BOOT
  thread : Nat
  done : Nat                   -- bytes of re-threading copied
  total : Nat                  -- bytes to copy at its start
  threadEnd : Nat              -- STANDBY: one more than the newest SEQ of the active that a packet has shown
  threadSeq : Nat              -- the next SEQ to copy
  reason : Nat
  missed : Nat
  crcErr : Nat
  errs : List Nat              -- device ms of the packet failures within the last second, oldest first
  peak : Nat
  takes : Nat
  takeCause : Nat
  takeFrame : Nat
  diverged : Nat
  resyncs : Nat
  cmdResult : Nat
  f0 : Nat                     -- device ms of the boundary of the latest received seal
  switchAt : Option Nat        -- device ms of the handover boundary T
  switchCause : Nat
  partnerHalt : Bool
  partnerDorm : Nat            -- the code with which the partner's own check would refuse DORMANT, 0 for none (R559)
  wakeAt : Option Nat          -- device ms at which the fast clocks ran after a wake, until a seal or return frame
  imageOk : Bool               -- the partner runs this module's image
  stream : List StreamItem     -- items received and waiting for the boundary
  sealed_ : Bool               -- a seal has been received for a boundary that has not been run
  seekAt : Nat                 -- device ms at which seeking, or withdrawal, began
  deriving DecidableEq, Repr

end Sys2Proof.Machine
end

