-- ==== Sys2Proof/Machine/State/Seq.lean ====
section
/-! DEFINITION. The state of the units and Drafts (chapter 11). -/

namespace Sys2Proof.Machine

open Sys2Proof

/-- A unit. State: 0 STOPPED, 1 STARTING, 2 RUNNING, 3 STOPPING, 4 FAULT (R40). -/
structure UnitS where
  state : Nat
  enterMs : Nat            -- start of the pass in which the state was entered, device ms
  runMs : Nat              -- start of the pass of the latest entry to STARTING
  cmd : Bool               -- command level RUN
  fresh : Bool
  proof : Bool
  ready : Bool
  acked : Bool
  cause : Nat
  trip1At : Option Nat     -- start of the first pass that saw TRIP1, and so on
  trip2At : Option Nat
  plossAt : Option Nat
  newFault : Bool          -- entered FAULT since the previous pass
  isOpen : Bool            -- its record is open
  active : List Nat        -- DUTY: the active set, by member number
  lead : Nat
  refused : Nat
  starts : Nat
  pubState : Nat           -- the state as published, from which the outputs follow
  reason : Nat
  cmdResult : Nat
  deriving DecidableEq, Repr

/-- SEQ_DCMD commands. -/
structure DraftWant where
  abort : Bool
  reset : Bool
  hold : Bool
  resume : Bool
  deriving DecidableEq, Repr

/-- A Draft. -/
structure Draft where
  step : Nat
  held : Bool
  holdPend : Bool
  time : Nat               -- step time up to `atMs`, ms
  atMs : Nat
  startPend : Bool         -- enters step 0 at the next pass
  wantAbort : Bool
  wantReset : Bool
  wantHold : Bool
  wantResume : Bool
  lastCond : Bool          -- ABORT_COND at the previous pass
  aborts : Nat
  abortCause : Nat
  abortUnit : Nat
  prev : Nat
  entry : Nat
  trans : Nat
  entries : Nat
  lostRefs : List (Nat × Nat)   -- sources that an action has missed and none has had since (R363)
  taken : DraftWant        -- the commands that the running pass takes (R360)
  reason : Nat
  cmdResult : Nat
  deriving DecidableEq, Repr

/-- A write of a Draft, which waits for the frame boundary after its pass (R37, R345). -/
structure DWrite where
  addr : Nat
  val : Word
  mask : Word
  deriving DecidableEq, Repr

/-- A unit command that waits for the end of a running pass: 1 RUN, 2 STOP, 3 ACK. -/
structure UCmd where
  unit : Nat
  kind : Nat
  deriving DecidableEq, Repr

/-- The sequencer. -/
structure Seq where
  units : Tbl UnitS
  drafts : Tbl Draft
  flags : Nat
  passMs : Option Nat      -- device ms at the start of the running pass
  passFlags : Nat          -- the flags at its start
  passTrips : List Nat     -- the units held off by a guard trip at its start
  passHolds : List Nat     -- the units that waited for the guard's arming at its start
  resumed : Bool           -- the timers restart at the next pass (R342)
  defer : List UCmd
  writes : List DWrite     -- Draft writes of the completed pass
  lastUs : Nat
  peakUs : Nat
  passes : Nat
  late : Nat
  lateOpen : Bool
  worst : Nat
  reason : Nat
  bootStart : Bool         -- the first entry to RUN after a BOOT that ended in DORMANT is a start
  deriving DecidableEq, Repr

end Sys2Proof.Machine
end

