-- ==== Sys2Proof/Machine/State.lean ====
section
/-! DEFINITION. The whole state of the module, its faults and refusals, and the state right after reset. -/

namespace Sys2Proof.Machine

open Sys2Proof

/-- The input snapshot of a frame (R35): the values and states that the frame's computations read. -/
structure Snap where
  cnv : Cnv
  cells : Tbl Cell
  cols : Tbl Col
  fld : Fld
  loops : Tbl LoopS
  gens : Tbl Gen
  ovrs : Tbl Ovr
  deriving DecidableEq, Repr

/-- Everything the module's engines change: one field per block. -/
structure Dyn where
  glb : Glb
  pwr : Pwr
  cfg : CfgSt
  tim : Tim
  flt : Flt
  grd : Grd
  arc : Arc
  dp : Dp
  afe : Afe
  cnv : Cnv
  mst : Mst
  cols : Tbl Col
  fld : Fld
  ctl : Ctl
  snap : Snap
  seq : Seq
  passSnap : Snap          -- the snapshot of the frame in which the running pass started (R36)
  can : Can
  pair : Pair
  deriving DecidableEq, Repr

/-- The state of the module and the commands that wait, first in, first out. -/
structure State where
  c : Cfg
  d : Dyn
  pending : List Instr
  deriving DecidableEq, Repr

/-- A machine fault. The module has none: what goes wrong in the plant is a record of the fault manager (R432). -/
inductive Fault where
  /-- Raised by no command; kept so that the type is inhabited. Safe. -/
  | none
  deriving DecidableEq, Repr

/-- A refusal of the model. -/
inductive Refusal where
  /-- A command without its meaning yet, by its mnemonic. Safe: the machine stops. -/
  | notModelled (mnemonic : String)
  deriving DecidableEq, Repr

/-- No running image. -/
def Image.none : Image :=
  { ok := false, bytes := [], sects := [], gen := 0, signed := false, expert := false, pairOn := false, dormant := false, source := 0 }

/-- Register words as reset leaves them: the operator values, and nothing loaded from an image. -/
def Regs.none : Regs := { w := [], f := [], fresh := [] }

/-- The fuses and bonding of the module the model describes (log entry 3): a tier-D pair module with 16 banks. -/
def Variant.chosen : Variant := { banks := 2, tierD := true, pair := true, rev := 3, id := 1 }

/-- Supplies in range, clocks stopped, nothing calibrated (R90, R94, R95). -/
def Pwr.cold : Pwr :=
  { v33 := true, v33a := true, vio := true, vaoIn := true, vaoOk := true, vaoLevel := 0, vaoAt := 0, rstLow := false, wakeLow := false, xt25 := true,
    xt32 := true, rc := false, fast := false, rst := 0, calOfs := 0, calValid := false, calOut := false, burstLast := 0, overruns := 0, scanCount := 0,
    start := .none, burst := .none, burstRef := 0, runCond := .none, scanStopped := false, interval := 0, nextScan := .none,
    nextWake := .none, entryAbort := .none, slow := false, holdMs := 0, firstAt := .none, woke := false, resetFrom := .none }

/-- An empty slot. -/
def Slot.empty : Slot := { state := 0, reason := 0, gen := 0, bytes := [] }

/-- The configuration loader before BOOT reads the flash. -/
def CfgSt.cold : CfgSt :=
  { flash := { cap := 0, read := 0, addr := 0, page := 0, erases := [], valid := false }, kept := false, slotA := Slot.empty, slotB := Slot.empty,
    found := false, cands := [], tried := 0, firstRefusal := 0, accepted := .none, cpDone := false, bootHalt := .none, session := .none,
    lastAccess := 0, staging := [], sesResult := 0, cmdResult := 0, fuseResult := 0, commit := .none, wbState := 0, wbSlot := 0,
    wbProgress := 0, wb := .none, prot := .none, fallback := false, lastReason := 0, errLocked := false, errNoSession := false,
    errAddr := 0, locType := 0, locEntry := 0, errOff := 0, digest := 0, fuse0 := { used := false, valid := false, hash := 0 },
    fuse1 := { used := false, valid := false, hash := 0 }, fusing := .none, checks := [], applied := false }

/-- The time base at VAO power-on (R452). -/
def Tim.cold : Tim :=
  { acc := 0, ofs := 0, epoch := 0, slew := 0, slewLeft := 0, netSet := false, steps := 0, cmdResult := 0, incS := 0, acts := [],
    effects := [], wakeFired := false, arming := [], restart := true }

def Flt.cold : Flt :=
  { recs := [], seq := 0, queue := [], waiting := [], events := [], merge := [], drops := 0, merged := 0, sel := 0, lastCode := 0,
    lastSev := 0, cmdResult := 0, healthy := false, raised := [], dropAt := .none, dropPend := false }

/-- The archive with the factory's initial checkpoint (R534): every record band erased, epoch 0 and SEQ_MARK 0. -/
def Arc.cold : Arc :=
  { state := 0, seq := 0, mark := 0, cpEpoch := 0, cpValid := true, queue := [], peak := 0, regions := [], bands := [],
    order := 0, spare := 64, retired := 0, rebuilt := 0, lostStripes := 0, offline := 0, dropTimer := 0, cmdResult := 0, scmdResult := 0,
    tags := [], tagQueue := [], waitRecs := [], bootSeq := 0, free := 0 }

def Dp.cold : Dp :=
  { queue := [], sbuf := [], lock := .none, expired := false, frameErr := false, underrun := false, overrun := false, code := 0,
    count := 0, addr := 0, irq := 0, out := [], quad := false, overAt := .none }

def Ctl.cold : Ctl :=
  { loops := [], before := [], gens := [], ovrs := [], trcs := [], due := [], anyMiss := false, reason := 0, worst := 0, worstIdx := 0, missFrames := 0,
    lastEnd := 0, peakEnd := 0 }

def Fld.cold : Fld := { grps := [], dio := [], mov := [], tabs := [], late := [] }

def Snap.cold : Snap :=
  { cnv := { chans := [], sws := [], reason := 0 }, cells := [], cols := [], fld := Fld.cold, loops := [], gens := [], ovrs := [] }

def Seq.cold : Seq :=
  { units := [], drafts := [], flags := 0, passMs := .none, passFlags := 0, passTrips := [], passHolds := [], resumed := false, defer := [], writes := [], lastUs := 0, peakUs := 0, passes := 0,
    late := 0, lateOpen := false, worst := 0, reason := 0, bootStart := false }

def Pair.cold : Pair :=
  { state := 0, fencing := false, fenceIn := false, seat := false, present := false, lastRx := .none, claim := false, acceptPend := false,
    join := .none, pid := 0, accepted := [], thread := 0, done := 0, total := 0, threadSeq := 0, reason := 0, missed := 0, crcErr := 0,
    errs := [], peak := 0, takes := 0, takeCause := 0, takeFrame := 0, diverged := 0, resyncs := 0, cmdResult := 0, f0 := 0,
    switchAt := .none, switchCause := 0, partnerHalt := false, partnerDorm := 0, wakeAt := .none, imageOk := false, stream := [], sealed_ := false, seekAt := 0, threadEnd := 0 }

/-- The state manager as BOOT begins. -/
def Glb.boot : Glb :=
  { st := .boot, role := .none, lastCause := 0, cmdResult := 0, safeReq := .none, runReq := .none, dormReq := false, dormSched := false,
    haltCause := .none, runCommit := false }

/-- Every engine as BOOT begins on a module that has never run. -/
def Dyn.cold : Dyn :=
  { glb := Glb.boot, pwr := Pwr.cold, cfg := CfgSt.cold, tim := Tim.cold, flt := Flt.cold,
    grd := { terms := [], pathOk := true, bad := [], cmdResult := 0, reason := 0 }, arc := Arc.cold, dp := Dp.cold,
    afe := { banks := [], descs := [] }, cnv := { chans := [], sws := [], reason := 0 }, mst := { cells := [], ctgs := [], reason := 0 },
    cols := [], fld := Fld.cold, ctl := Ctl.cold, snap := Snap.cold, seq := Seq.cold, passSnap := Snap.cold,
    can := { ports := [], maps := [], writes := [], free := 0 }, pair := Pair.cold }

/-- The machine right after power-on: in BOOT, its clocks started, PWR_RSTCAUSE showing the power-on of VAO and of V33 (R18, R91),
nothing read from the flash yet, the record of the entry to BOOT (R22) waiting for the archive's mount, no command
waiting. -/
def State.reset : State :=
  { c := { fx := Variant.chosen, reg := Regs.none, img := Image.none }
    d := { Dyn.cold with
             pwr := { Pwr.cold with rst := 3 }
             arc := { Arc.cold with
                        seq := 1
                        waitRecs := [{ typ := 1, cls := 0, epoch := 0, seq := 0, time := 0, devt := 0, body := [0, 0, 0, 0] }] } }
    pending := [] }

end Sys2Proof.Machine
end

