-- ==== Sys2Proof/Machine/Base.lean ====
section
/-! DEFINITION. Access to register words, the clocks, the ledger queue and the fault manager's shared operations
(R12, R33, R34, R432 to R439, R450 to R455, R528, R531). -/

namespace Sys2Proof.Machine

open Sys2Proof

/-- The reset value of a register word whose chapter states one that is not 0 (R444, R466, R522). -/
def resetWord (a : Nat) : Word :=
  if a = 0x20 then 0x300 else if a = 0x5001C then 3 else if a = 0x30024 then 0x400000 else 0

/-- The word at an address as last written or loaded. -/
def Cfg.w (c : Cfg) (a : Nat) : Word := tget (resetWord a) c.reg.w a

/-- The word at an address in force. -/
def Cfg.f (c : Cfg) (a : Nat) : Word := tget (resetWord a) c.reg.f a

/-- Store a word as written. -/
def Regs.putW (r : Regs) (a : Nat) (v : Word) : Regs := { r with w := tput (resetWord a) r.w a v }

/-- Store a word in force. -/
def Regs.putF (r : Regs) (a : Nat) (v : Word) : Regs := { r with f := tput (resetWord a) r.f a v }

/-- Store a word as written and in force. -/
def Regs.putB (r : Regs) (a : Nat) (v : Word) : Regs := (r.putW a v).putF a v

/-- A write to shadowed fields: the word reads back at once and waits for a boundary of a later frame (R12, R38). -/
def Regs.shadow (r : Regs) (a : Nat) (v : Word) : Regs := { r.putW a v with fresh := tput false r.fresh a true }

/-- A frame boundary: what was written in the frame before may come into force from here on (R38). -/
def Regs.settle (r : Regs) : Regs := { r with fresh := [] }

/-- Bring one word into force, unless it was written in the present frame. -/
def Regs.load1 (r : Regs) (a : Nat) : Regs :=
  if tget false r.fresh a then r else r.putF a (tget (resetWord a) r.w a)

/-- The addresses whose words as written wait for a boundary. -/
def Regs.waiting (r : Regs) : List Nat := diffKeys r.w r.f

/-- Bring the waiting words that a test picks into force. -/
def Regs.loadIf (r : Regs) (p : Nat → Bool) : Regs := forEach (r.waiting.filter p) r (fun a r => r.load1 a)

/-- Bring `n` words from `a` into force. -/
def Regs.load (r : Regs) (a n : Nat) : Regs := forEach (List.range n) r (fun k r => r.load1 (a + 4 * k))

/-- A field of the word in force. -/
def Cfg.fF (c : Cfg) (a lo n : Nat) : Nat := fld (c.f a) lo n

/-- A bit of the word in force. -/
def Cfg.bF (c : Cfg) (a k : Nat) : Bool := bit (c.f a) k

/-- Bonded banks (R7). -/
def Variant.nBanks (v : Variant) : Nat := if v.banks = 0 then 4 else if v.banks = 1 then 8 else 16

/-- Resources by tier (R4). -/
def Variant.nLoops (v : Variant) : Nat := if v.tierD then 64 else 16
def Variant.nGens (v : Variant) : Nat := if v.tierD then 32 else 8
def Variant.nOvr (v : Variant) : Nat := if v.tierD then 8 else 2
def Variant.nDrafts (v : Variant) : Nat := if v.tierD then 4 else 2
def Variant.nUnits (v : Variant) : Nat := if v.tierD then 256 else 64
def Variant.nTerms (v : Variant) : Nat := if v.tierD then 64 else 32
def Variant.nCells (v : Variant) : Nat := if v.tierD then 8 else 2
def Variant.nCols (v : Variant) : Nat := if v.tierD then 2 else 0

/-- Device time, 32.32 seconds (R450). -/
def Tim.dev (t : Tim) : Nat := (t.acc / 2 ^ 16) % 2 ^ 64

/-- Network time, 32.32 seconds (R453). -/
def Tim.net (t : Tim) : Nat := (((t.dev : Int) + t.ofs) % (2 ^ 64 : Int)).toNat

/-- The short time of a 32.32 time (R11). -/
def shortOf (x : Nat) : Nat := (x / 2 ^ 16) % 2 ^ 32

/-- Device time in whole milliseconds. -/
def Tim.ms (t : Tim) : Nat := t.acc * 1000 / 2 ^ 48

/-- Device time in whole microseconds. -/
def Tim.us (t : Tim) : Nat := t.acc * 1000000 / 2 ^ 48

/-- Device time in milliseconds, of the whole state. -/
def Dyn.ms (d : Dyn) : Nat := d.tim.ms

/-- The frame index (R31). -/
def Dyn.frame (d : Dyn) : Nat := d.ms % 2 ^ 32

/-- The schedule index (R34). -/
def Dyn.sched (d : Dyn) : Nat := d.ms % 60000

/-- What an item of the program queue takes, in KiB: a subpage or an index 4, the two parity pages of a stripe 32 (R524, R526). -/
def PQ.kib (q : PQ) : Nat :=
  match q.kind with
  | .parity _ _ _ => 32
  | _ => 4

/-- The program queue in use, in KiB (R533, R540): its items, the partly filled subpages and those of stripes to be rewritten. -/
def Arc.kib (a : Arc) : Nat :=
  (a.queue.map PQ.kib).sum + 4 * (a.regions.map (fun r => (if r.2.partialRecs = [] then 0 else 1) + r.2.rewrite.length)).sum

/-- An idle region. -/
def Region.empty : Region :=
  { partialRecs := [], since := 0, full := false, drops := 0, gone := 0, goneEpoch := 0, goneTime := 0, rewrite := [] }

/-- The length of a record in the ledger: its 32-byte header and its body (R528). -/
def Rec.size (r : Rec) : Nat := 32 + r.body.length

/-- The bytes of a list of records. -/
def recBytes (l : List Rec) : Nat := l.foldl (fun a r => a + r.size) 0

/-- Put a record into its region's partly filled subpage; a subpage that cannot take it goes to the program queue
first (R528, R533). -/
def Arc.pack (a : Arc) (ms : Nat) (r : Rec) : Arc :=
  let g := tget Region.empty a.regions r.cls
  if recBytes g.partialRecs + r.size ≤ 4096 then
    let g' := { g with partialRecs := g.partialRecs ++ [r], since := if g.partialRecs = [] then ms else g.since }
    let a' := { a with regions := tput Region.empty a.regions r.cls g' }
    { a' with peak := max a'.peak a'.kib }
  else
    let q : PQ := { region := r.cls, recs := g.partialRecs }
    let g' := { g with partialRecs := [r], since := ms }
    let a' := { a with queue := a.queue ++ [q], regions := tput Region.empty a.regions r.cls g' }
    { a' with peak := max a'.peak a'.kib }

/-- A record of class 1 whose copy carries TRIP or HALT (R532). -/
def Rec.major (r : Rec) : Bool := r.typ == 4 && 3 ≤ leAt r.body 2 1

/-- Bands a region owns (R532). -/
def Arc.owned (a : Arc) (r : Nat) : Nat := (a.bands.filter (fun b => 2 ≤ b.2.cond && b.2.owner == r)).length

/-- Erased record bands. -/
def Arc.erased (a : Arc) : Nat := 250 - (a.bands.filter (fun b => b.2.cond ≠ 0)).length

/-- The ledger holds a record (R452): some subpage of a band does. -/
def Arc.holds (a : Arc) : Bool := a.bands.any (fun q => q.2.subs.any (fun u => !u.recs.isEmpty))

/-- What the regions keep over a loss of SRAM: which records an erase has removed (R535). -/
def Arc.remembered (a : Arc) : Tbl Region :=
  (a.regions.map (fun q => (q.1, { Region.empty with gone := q.2.gone, goneEpoch := q.2.goneEpoch, goneTime := q.2.goneTime }))).filter (fun q => q.2 ≠ Region.empty)

/-- A band as it stands in an empty table: erased. -/
def Band.empty : Band :=
  { cond := 0, owner := 0, order := 0, subs := [], parity := [], index := none, moved := [], lost := [], bad := 0, failed := [] }

/-- A band whose contents are erased. -/
def Band.wiped (x : Band) (cond : Nat) : Band := { x with cond := cond, subs := [], parity := [], index := none, moved := [], lost := [] }

/-- The subpages a band holds when its stripes 0 to 62 are full: 63 stripes of 14 data pages of four (R524). -/
def bandSubs : Nat := 63 * 14 * 4

/-- The open band of a region, if it has one. -/
def Arc.openBand (a : Arc) (r : Nat) : Option (Nat × Band) := a.bands.find? (fun b => b.2.cond == 2 && b.2.owner == r)

/-- A checkpoint follows when SEQ reaches SEQ_MARK (R534). -/
def Arc.marked (a : Arc) (epoch : Nat) : Arc :=
  if a.state = 2 ∧ a.mark ≤ a.seq then { a with mark := a.seq + 2 ^ 24, cpEpoch := epoch, cpValid := true } else a

/-- Append a record to the ledger (R531), or drop and count it: offline (R534), or a full fill-stop region (R532). Records
raised before the mount completes wait in the queue. -/
def Dyn.ledgerRec (d : Dyn) (r : Rec) : Dyn :=
  let a := d.arc
  let a1 : Arc := { a with seq := (r.seq + 1) % 2 ^ 64 }
  if a.state = 3 then { d with arc := { a1 with offline := satInc 16 a1.offline } }
  else
    let g := tget Region.empty a1.regions r.cls
    let last := match a1.openBand r.cls with
      | some (_, b) => decide (b.subs.length < bandSubs)
      | none => false
    if g.full && !(r.cls == 1 && r.major && last) then
      let a2 : Arc := { a1 with regions := tput Region.empty a1.regions r.cls { g with drops := (g.drops + 1) % 2 ^ 32 } }
      { d with arc := a2.marked d.tim.epoch }
    else if a.state = 2 then { d with arc := (a1.pack d.ms r).marked d.tim.epoch }
    else { d with arc := { a1 with waitRecs := a1.waitRecs ++ [r] } }

/-- Append a record with the next SEQ (R531). A synced STANDBY appends only what the stream brings it (R534, R550). -/
def Dyn.ledgerAs (d : Dyn) (typ cls epoch time : Nat) (body : List Byte) : Dyn :=
  if d.pair.state = 7 ∨ d.pair.state = 8 then d
  else d.ledgerRec { typ := typ, cls := cls, epoch := epoch, seq := d.arc.seq, time := time, devt := shortOf d.tim.dev, body := body }

/-- Append a record at the present network time and epoch (R528). -/
def Dyn.ledger (d : Dyn) (typ cls : Nat) (body : List Byte) : Dyn := d.ledgerAs typ cls d.tim.epoch d.tim.net body

/-- The 32 bytes of a fault record copy (R433). -/
def FCopy.bytes (k : FCopy) : List Byte :=
  leBytes 2 k.r.code ++ leBytes 1 k.r.sev ++
  leBytes 1 (b1 0 k.isOpen + b1 1 k.r.acked + b1 2 k.r.escalated + b1 3 k.event + b1 4 k.closed + b1 5 k.merged) ++
  leBytes 2 k.r.source ++ leBytes 2 k.r.occ ++ leBytes 8 k.r.first ++ leBytes 4 k.r.last ++ leBytes 1 k.r.epoch ++
  leBytes 1 k.r.firstSev ++ leBytes 2 k.r.seq ++ leBytes 4 k.r.a ++ leBytes 4 k.r.b

/-- The open record of a source. -/
def Flt.find (f : Flt) (src : Nat) : Option FRec := f.recs.find? (fun r => r.source == src)

/-- Put a record in its place in rising SOURCE. -/
def insRec (r : FRec) : List FRec → List FRec
  | [] => [r]
  | x :: l => if x.source = r.source then r :: l else if r.source < x.source then r :: x :: l else x :: insRec r l

/-- General entries are those not of TRIP or HALT severity (R54, R55). -/
def FCopy.minor (k : FCopy) : Bool := k.r.sev < 3

/-- Remove the newest entry of the queue below TRIP. -/
def dropNewestMinor (l : List FCopy) : List FCopy :=
  let rec go : List FCopy → List FCopy
    | [] => []
    | x :: r => if x.minor then r else x :: go r
  (go l.reverse).reverse

/-- Count a dropped copy; the flag asks for FAULT_QUEUE_DROP, at most once a second (R438). -/
def Flt.countDrop (f : Flt) : Flt := { f with drops := satInc 16 f.drops }

/-- Place a copy in the fault queue under R55. Answers the manager and whether a copy was dropped. -/
def Flt.enqueue (f : Flt) (k : FCopy) : Flt × Bool :=
  if k.minor then
    if f.queue.length < 64 ∧ (f.queue.filter FCopy.minor).length < 48 then ({ f with queue := f.queue ++ [k] }, false)
    else (f.countDrop, true)
  else if f.queue.length < 64 then ({ f with queue := f.queue ++ [k] }, false)
  else if f.queue.any FCopy.minor then
    ({ f.countDrop with queue := dropNewestMinor f.queue ++ [k] }, true)
  else ({ f with waiting := f.waiting ++ [k] }, false)

/-- GLB_DPCFG.IRQ_SEV in force (R522). -/
def Cfg.irqSev (c : Cfg) : Nat := c.fF 0x20 8 3

/-- Set a bit of GLB_IRQ (R522). -/
def Dyn.setIrq (d : Dyn) (k : Nat) : Dyn := { d with dp := { d.dp with irq := d.dp.irq ||| 2 ^ k } }

/-- The repeat threshold and ceiling of a subsystem (R436); `none` where records never escalate on repetition. -/
def repeatRule (sub : Nat) : Option (Nat × Nat) :=
  match sub with
  | 3 => some (8, 2)
  | 4 => some (16, 2)
  | 5 => some (16, 2)
  | 6 => some (16, 2)
  | 10 => some (32, 1)
  | 14 => some (16, 2)
  | _ => none

/-- The severity action of R435: a HALT asks for SAFE, or marks BOOT as ending in SAFE. HEALTHY is computed from the
open records at the boundary (R431). -/
def Dyn.sevAction (d : Dyn) (sev code : Nat) : Dyn :=
  if sev = 4 then
    { d with glb := { d.glb with haltCause := some (d.glb.haltCause.getD code) }
             cfg := { d.cfg with bootHalt := if d.glb.st = .boot then some (d.cfg.bootHalt.getD code) else d.cfg.bootHalt } }
  else if sev = 3 ∧ d.glb.st = .scan then
    { d with pwr := { d.pwr with runCond := some (d.pwr.runCond.getD code) } }
  else d

/-- What an opening or an escalation does besides its record: the latest code, the interrupt flag and the severity
action (R434, R435, R447, R522). -/
def Dyn.noted (d : Dyn) (c : Cfg) (code sev : Nat) : Dyn :=
  let d1 := { d with flt := { d.flt with lastCode := code, lastSev := sev, raised := d.flt.raised ++ [code] } }
  let d2 := if c.irqSev ≤ sev then d1.setIrq 0 else d1
  d2.sevAction sev code

/-- Place a copy of a record and, where a copy is dropped, open or repeat FAULT_QUEUE_DROP, once a second. -/
def Dyn.copyRec (d : Dyn) (k : FCopy) : Dyn × Bool :=
  let (f, dropped) := d.flt.enqueue k
  ({ d with flt := f }, dropped)

/-- A new record of a fault. -/
def Dyn.newRec (d : Dyn) (src code sev a b : Nat) (byAck gone : Bool) : FRec :=
  { code := code, sev := sev, acked := false, escalated := false, source := src, occ := 1, first := d.tim.net,
    last := shortOf d.tim.net, epoch := d.tim.epoch, firstSev := sev, seq := d.flt.seq % 65536, a := a % 2 ^ 32, b := b % 2 ^ 32,
    byAck := byAck, gone := gone }

/-- The copy of an open record. -/
def FRec.copy (r : FRec) : FCopy := { r := r, isOpen := true, closed := false, event := false, merged := false }

/-- Update in place the untaken copy of a record, if the queue holds one (R438). -/
def Flt.refresh (f : Flt) (r : FRec) : Flt :=
  { f with queue := f.queue.map (fun k => if k.isOpen && k.r.source == r.source && k.r.seq == r.seq then { k with r := r } else k) }

/-- One fault on a source: opens, repeats or escalates its record (R434, R436). `byAck` says whether its Clears column
reads "acknowledgement" and `gone` whether its cause is already gone. Answers the state and whether a copy was dropped. -/
def Dyn.fault1 (d : Dyn) (c : Cfg) (src code sev a b : Nat) (byAck gone : Bool) : Dyn × Bool :=
  match d.flt.find src with
  | none =>
    let r := d.newRec src code sev a b byAck gone
    let d1 := { d with flt := { d.flt with recs := insRec r d.flt.recs, seq := (d.flt.seq + 1) % 65536 } }
    (d1.noted c code sev).copyRec r.copy
  | some r0 =>
    let occ := min (r0.occ + 1) 65535
    let r1 := { r0 with occ := occ, last := shortOf d.tim.net }
    let esc := decide (r0.sev < sev) || (decide (sev = r0.sev) && decide (code ≠ r0.code))
    let r2 := if esc then { r1 with code := code, sev := sev, escalated := true, acked := false, byAck := byAck, gone := gone,
                                    a := a % 2 ^ 32, b := b % 2 ^ 32 }
              else if code = r0.code then { r1 with gone := gone } else r1
    let up := match repeatRule (src / 4096) with
      | some (n, top) => decide (r1.occ ≠ r0.occ) && decide (occ % n = 0) && decide (r2.sev < top)
      | none => false
    let r3 := if up then { r2 with sev := r2.sev + 1, escalated := true, acked := false } else r2
    let d1 := { d with flt := { d.flt with recs := insRec r3 d.flt.recs } }
    if esc || up then (d1.noted c r3.code r3.sev).copyRec r3.copy
    else ({ d1 with flt := d1.flt.refresh r3 }, false)

/-- A second has passed since the last FAULT_QUEUE_DROP (R438). -/
def Flt.dropDue (f : Flt) (ms : Nat) : Bool :=
  match f.dropAt with
  | some t => decide (t + 1000 ≤ ms)
  | none => true

/-- A fault, and FAULT_QUEUE_DROP after it where a copy was dropped and a second has passed (R438). -/
def Dyn.fault (d : Dyn) (c : Cfg) (src code sev a b : Nat) (byAck gone : Bool) : Dyn :=
  let (d1, dropped) := d.fault1 c src code sev a b byAck gone
  if dropped && d1.flt.dropDue d1.ms then
    (({ d1 with flt := { d1.flt with dropAt := some d1.ms } } : Dyn).fault1 c 0xD100 0xD062 1 0 0 true true).1
  else d1

/-- FAULT_QUEUE_DROP for the close and acknowledgement copies dropped in the frame (R438). -/
def Dyn.dropReport (d : Dyn) (c : Cfg) : Dyn :=
  if d.flt.dropPend && d.flt.dropDue d.ms then
    (({ d with flt := { d.flt with dropAt := some d.ms, dropPend := false } } : Dyn).fault1 c 0xD100 0xD062 1 0 0 true true).1
  else d

/-- Place a close copy, or an acknowledgement copy (R438). Where it is dropped, FAULT_QUEUE_DROP is raised at the frame boundary. -/
def Dyn.statusCopy (d : Dyn) (r : FRec) (closed : Bool) : Dyn :=
  let q := d.copyRec { r := r, isOpen := !closed, closed := closed, event := false, merged := false }
  { q.1 with flt := { q.1.flt with dropPend := q.1.flt.dropPend || q.2 } }

/-- Close the record of a source. -/
def Dyn.closeRec (d : Dyn) (src : Nat) : Dyn :=
  match d.flt.find src with
  | none => d
  | some r =>
    let r' := { r with last := shortOf d.tim.net }
    ({ d with flt := { d.flt with recs := d.flt.recs.filter (fun x => x.source ≠ src) } } : Dyn).statusCopy r' true

/-- The Clears condition of a code came true: the record of that source closes where its code is one of `codes`
(R434). -/
def Dyn.clears (d : Dyn) (src : Nat) (codes : List Nat) : Dyn :=
  match d.flt.find src with
  | some r => if codes.contains r.code then d.closeRec src else d
  | none => d

/-- The cause of a code that clears on acknowledgement is gone: the record closes if it has been acknowledged (R434). -/
def Dyn.causeGone (d : Dyn) (src : Nat) (codes : List Nat) : Dyn :=
  match d.flt.find src with
  | some r =>
    if codes.contains r.code then
      if r.acked then d.closeRec src
      else { d with flt := { d.flt with recs := insRec { r with gone := true } d.flt.recs } }
    else d
  | none => d

/-- Acknowledge the record of a source (R437, R438): one copy, with CLOSED where the acknowledgement closes it. -/
def Dyn.ackRec (d : Dyn) (src : Nat) : Dyn :=
  match d.flt.find src with
  | none => d
  | some r =>
    let r' := { r with acked := true, last := shortOf d.tim.net }
    if r.byAck && r.gone then
      ({ d with flt := { d.flt with recs := d.flt.recs.filter (fun x => x.source ≠ src) } } : Dyn).statusCopy r' true
    else ({ d with flt := { d.flt with recs := insRec r' d.flt.recs } } : Dyn).statusCopy r' false

/-- Whether a source has an open record with one of the codes. -/
def Dyn.openCode (d : Dyn) (src : Nat) (codes : List Nat) : Bool :=
  match d.flt.find src with
  | some r => codes.contains r.code
  | none => false

/-- Whether a HALT record is open. -/
def Dyn.haltOpen (d : Dyn) : Bool := d.flt.recs.any (fun r => r.sev == 4)

/-- Append an event of NOTE or WARN severity, or merge it when the queue is full (R439). `stamp` is the event's own time
stamp where its chapter names one. -/
def Dyn.eventAt (d : Dyn) (src code sev a b stamp epoch : Nat) : Dyn :=
  let d : Dyn := { d with flt := { d.flt with raised := d.flt.raised ++ [code] } }
  if d.flt.events.length < 256 then
    let r := { d.newRec src code sev a b false true with first := stamp, epoch := epoch }
    { d with flt := { d.flt with events := d.flt.events ++ [{ r := r, isOpen := false, closed := false, event := true, merged := false }]
                                 seq := (d.flt.seq + 1) % 65536 } }
  else { d with flt := { d.flt with merge := tmod 0 d.flt.merge code (· + 1), merged := satInc 16 d.flt.merged } }

/-- An event at the present time. -/
def Dyn.event (d : Dyn) (src code sev a b : Nat) : Dyn := d.eventAt src code sev a b d.tim.net d.tim.epoch

/-- GLB_STATE.STATE (R29). -/
def DevState.num : DevState → Nat
  | .boot => 0
  | .safe => 1
  | .dormant => 2
  | .scan => 3
  | .run => 4

/-- Append a state record and change the device state (R22, R29). -/
def Dyn.toState (d : Dyn) (st : DevState) (cause : Nat) : Dyn :=
  let d1 := d.ledger 1 0 (leBytes 1 d.glb.st.num ++ leBytes 1 st.num ++ leBytes 2 cause)
  { d1 with glb := { d1.glb with st := st, lastCause := cause } }.setIrq 1

/-- A number of the register as an unsigned 32-bit value. -/
def u32 (x : Int) : Nat := (x % (2 ^ 32 : Int)).toNat

/-- Whether the module drives the plant as ACTIVE or alone (not STANDBY). -/
def Dyn.standby (d : Dyn) : Bool := d.glb.role == .standby

/-- The module is in a state in which its engines run on an accepted configuration: RUN, SCAN or SAFE. -/
def Dyn.live (d : Dyn) (c : Cfg) : Bool :=
  c.img.ok && (d.glb.st == .run || d.glb.st == .scan || d.glb.st == .safe)

end Sys2Proof.Machine
end

