-- ==== Sys2Proof/Machine/Time.lean ====
section
/-! DEFINITION. The time base: ticks, network time, slews, steps and the timed actions (R450 to R469). -/

namespace Sys2Proof.Machine

open Sys2Proof

/-- Word `j` of action entry `a` (R466). -/
def actA (a j : Nat) : Nat := 0x31000 + 0x20 * a + 4 * j

def Cfg.stepBack (c : Cfg) : Bool := c.bF 0x30024 0
def Cfg.lateLimit (c : Cfg) : Nat := c.fF 0x30024 16 16
def Cfg.trim (c : Cfg) : Int := sword (c.f 0x30030)
def Cfg.actBind (c : Cfg) (a : Nat) : Bool := c.bF (actA a 0) 1
def Cfg.actCyclic (c : Cfg) (a : Nat) : Bool := c.bF (actA a 0) 2
def Cfg.actLog (c : Cfg) (a : Nat) : Bool := c.bF (actA a 0) 3
def Cfg.actKind (c : Cfg) (a : Nat) : Nat := c.fF (actA a 0) 8 8
def Cfg.actIndex (c : Cfg) (a : Nat) : Nat := c.fF (actA a 0) 16 16
def Cfg.actCompare (c : Cfg) (a : Nat) : Nat := (c.f (actA a 1)).toNat
def Cfg.actPeriod (c : Cfg) (a : Nat) : Nat := (c.f (actA a 2)).toNat

def Act.empty : Act :=
  { state := 0, c0 := 0, next := 0, late := false, stepped := false, slept := false, skipped := 0, result := 0, lateNow := false,
    passed := false, firedAt := 0 }

def Dyn.act (d : Dyn) (a : Nat) : Act := tget Act.empty d.tim.acts a
def Dyn.setAct (d : Dyn) (a : Nat) (x : Act) : Dyn := { d with tim := { d.tim with acts := tput Act.empty d.tim.acts a x } }

/-- The slew rate in force (R453). -/
def Tim.rate (t : Tim) : Int := if t.slewLeft = 0 then 0 else t.slew

/-- INC_F (R450). -/
def incF (c : Cfg) (t : Tim) : Nat := (281474977 + c.trim + t.rate).toNat

/-- INC_S of an entry to DORMANT (R450). -/
def incS (c : Cfg) (d : Dyn) : Nat :=
  (rdivI ((incF c d.tim : Int) * 10 ^ 15) (32768 * (10 ^ 9 + d.pwr.calOfs)).toNat).toNat

/-- Move the accumulator on (R450, R453): the milliseconds of a slew run down as whole milliseconds pass. -/
def Tim.to (t : Tim) (acc : Nat) : Tim :=
  let t' : Tim := { t with acc := acc % 2 ^ 80 }
  { t' with slewLeft := t.slewLeft - (acc * 1000 / 2 ^ 48 - t.ms) }

/-- The increment of the tick in use. -/
def tickInc (c : Cfg) (d : Dyn) : Nat := max 1 (if d.pwr.slow then d.tim.incS else incF c d.tim)

/-- The accumulator at the first tick at which it has reached `target`. -/
def reachAcc (inc acc target : Nat) : Nat := if target ≤ acc then acc else acc + (target - acc + inc - 1) / inc * inc

/-- The least accumulator value of a whole millisecond. -/
def accOfMs (ms : Nat) : Nat := (ms * 2 ^ 48 + 999) / 1000

/-- Move device time to the first tick at or after `target`. -/
def Dyn.goTo (c : Cfg) (target : Nat) (d : Dyn) : Dyn :=
  { d with tim := d.tim.to (reachAcc (tickInc c d) d.tim.acc target) }

/-- The tick at which the next frame boundary falls (R33). -/
def Dyn.nextFrame (c : Cfg) (d : Dyn) : Dyn := d.goTo c (accOfMs (d.ms + 1))

/-- One tick (R450) while no command waits: in a state with frames it never reaches the next frame boundary, which is a
command of its own. -/
def Dyn.tick (c : Cfg) (d : Dyn) : Dyn :=
  let acc := d.tim.acc + tickInc c d
  if d.pwr.slow || d.glb.st == .boot || acc < accOfMs (d.ms + 1) then { d with tim := d.tim.to acc } else d

/-- The binding's time (R456). -/
def Dyn.bound (d : Dyn) (net : Bool) : Nat := if net then d.tim.net else d.tim.dev

/-- The accumulator at which the binding's time reaches `due`. -/
def Dyn.accOf (d : Dyn) (net : Bool) (due : Int) : Nat := ((if net then due - d.tim.ofs else due) * 2 ^ 16).toNat

/-- Move device time to the tick at which a due time is reached, when that tick comes before the next frame boundary or has
passed already. -/
def Dyn.reach (c : Cfg) (net : Bool) (due : Int) (d : Dyn) : Dyn :=
  let d' := d.goTo c (d.accOf net due)
  if d'.ms = d.ms then d' else d

/-- Due time of occurrence `k` (R460). -/
def actDue (c : Cfg) (a : Nat) (x : Act) (k : Nat) : Int :=
  if c.actCyclic a then x.c0 + rdivI ((k * c.actPeriod a * 2 ^ 32 : Nat) : Int) 1000 else x.c0

/-- The least occurrence due after `now`; the one before it is the latest due. -/
def actAfter (c : Cfg) (a : Nat) (x : Act) (now : Int) : Nat :=
  if now < x.c0 then 0
  else
    let k := ((now - x.c0) * 1000 / ((max 1 (c.actPeriod a) : Nat) * 2 ^ 32 : Int)).toNat
    if actDue c a x (k + 1) ≤ now then k + 2 else if actDue c a x k ≤ now then k + 1 else k

/-- Arm an entry (R458, R459). Answers the state and the code; `host` says whether a write enables it. -/
def armAction (c : Cfg) (host : Bool) (a : Nat) (d : Dyn) : Dyn × Nat :=
  let now := d.bound (c.actBind a)
  let dd := shortDiff (c.actCompare a) (shortOf now)
  let x0 : Act := { Act.empty with c0 := ((now / 2 ^ 16 * 2 ^ 16 : Nat) : Int) + dd * 2 ^ 16 }
  if -(c.lateLimit : Int) ≤ dd then
    let code := 0
    (d.setAct a { x0 with state := 1, lateNow := decide (dd ≤ 0) }, code)
  else if host then (d.setAct a { d.act a with result := 0x41 }, 0x41)
  else if c.actCyclic a then (d.setAct a { x0 with state := 1, next := actAfter c a x0 now }, 0)
  else (d.setAct a { x0 with state := 3, result := 0x41 }, 0)

/-- Whether a pending entry is due (R459, R463). -/
def actIsDue (c : Cfg) (d : Dyn) (a : Nat) : Bool :=
  let x := d.act a
  x.state == 1 && (x.lateNow || x.passed || decide (actDue c a x x.next ≤ (d.bound (c.actBind a) : Int)))

/-- Take the effect of a firing: flags, writes and requests wait for the next boundary (R461). On a STANDBY the firing and
its writes reach the module through the mirror (R464). -/
def fireEffect (c : Cfg) (a : Nat) (due : Int) (d : Dyn) : Dyn :=
  let k := c.actKind a
  let v := c.f (actA a 4)
  if k = 1 then
    if d.glb.st = .scan then { d with pwr := { d.pwr with runCond := some (d.pwr.runCond.getD 0x82) } }
    else if d.glb.st = .run then
      { d with tim := { d.tim with wakeFired := true }, pwr := if d.glb.dormReq then { d.pwr with entryAbort := some (d.pwr.entryAbort.getD 0x82) } else d.pwr }
    else d
  else if k = 6 then d.event 0 0x6F 0 a v.toNat
  else if 2 ≤ k ∧ k ≤ 5 ∧ !d.standby then
    { d with tim := { d.tim with effects := d.tim.effects ++
        [{ due := due, entry := a, kind := k, index := c.actIndex a, addr := (c.f (actA a 3)).toNat, val := v }] } }
  else d

/-- Fire a due entry (R460 to R463): once, for the latest occurrence due. -/
def fireAction (c : Cfg) (slept : Bool) (a : Nat) (d : Dyn) : Dyn :=
  let x := d.act a
  if actIsDue c d a then
    let now : Int := d.bound (c.actBind a)
    let cyc := c.actCyclic a
    let aft := if cyc then max (x.next + 1) (actAfter c a x now) else x.next + 1
    let skipped := aft - 1 - x.next
    let late := x.lateNow || (x.passed && !cyc)
    let x' : Act := { x with state := if cyc then 1 else 2, next := aft, late := late, stepped := x.passed, slept := slept,
                             skipped := satAdd 8 x.skipped skipped, lateNow := false, passed := false,
                             firedAt := shortOf (d.bound (c.actBind a)) }
    let dd := shortDiff (shortOf (actDue c a x (aft - 1)).toNat) (shortOf now.toNat)
    let d1 := d.setAct a x'
    let d2 := if late || x.passed then d1.event 0 0x6A 0 a (u32 dd) else d1
    let d3 := if 0 < skipped then d2.event 0 0x6B 1 a skipped else d2
    let d4 := fireEffect c a (actDue c a x (aft - 1)) d3
    if c.actLog a then d4.event 0 0x6E 0 a (c.actKind a) else d4
  else d

/-- The states in which entries fire (R462). -/
def actsRun (c : Cfg) (d : Dyn) : Bool := d.live c

/-- TIMED_ACTION_FIRE (R461): the tick at which an entry is due. -/
def timedActionFire (c : Cfg) (a : Nat) (d : Dyn) : Dyn :=
  let x := d.act a
  if actsRun c d && decide (a < 256) && x.state == 1 then
    fireAction c false a (if x.lateNow || x.passed then d else d.reach c (c.actBind a) (actDue c a x x.next))
  else d

/-- Put the numbers of the due entries in order of due time, the lower entry first on equal times (R462). -/
def insDue (p : Int × Nat) : List (Int × Nat) → List (Int × Nat)
  | [] => [p]
  | q :: l => if p.1 < q.1 ∨ (p.1 = q.1 ∧ p.2 ≤ q.2) then p :: q :: l else q :: insDue p l

/-- Entries that fell due in DORMANT fire at the first frame boundary after it, in order of due time, flagged SLEPT; a
WAKE_RUN entry fires there too (R462). -/
def fireSlept (c : Cfg) (d : Dyn) : Dyn :=
  let due := ((List.range 256).filter (actIsDue c d)).map (fun a => (actDue c a (d.act a) (d.act a).next, a))
  (due.foldr insDue []).foldl (fun d p => fireAction c (c.actKind p.2 != 1) p.2 d) d

/-- Arm every enabled entry of an image (R458): at the end of BOOT or at an accepted commit. -/
def armAll (c : Cfg) (d : Dyn) : Dyn :=
  forEach (List.range 256) d (fun a d => if c.bF (actA a 0) 0 then (armAction c false a d).1 else d.setAct a Act.empty)

/-- TIM_STEP as a signed number of 2^-32 s. -/
def Cfg.stepVal (c : Cfg) : Int := sext 64 ((c.f 0x3002C).toNat * 2 ^ 32 + (c.f 0x30028).toNat)

/-- The code of a STEP (R453). -/
def stepCode (c : Cfg) (d : Dyn) (step : Int) : Nat :=
  if d.standby then 0x0D else if step = 0 then 1 else if step < 0 ∧ !c.stepBack then 0x42 else 0

/-- A checkpoint of the ledger (R534). -/
def Dyn.checkpoint (d : Dyn) : Dyn :=
  if d.arc.state = 3 then d
  else { d with arc := { d.arc with mark := d.arc.seq + 2 ^ 24, cpEpoch := d.tim.epoch, cpValid := true } }

/-- The TIME_STEP record (R529). -/
def timeRecord (oldN newN oldE newE cause : Nat) (d : Dyn) : Dyn :=
  (d.ledger 3 0 (leBytes 8 oldN ++ leBytes 8 newN ++ leBytes 1 oldE ++ leBytes 1 newE ++ leBytes 1 cause ++ [0])).checkpoint

/-- A pending one-shot or cyclic entry whose due time a forward step passes (R463). The check falls after every step of the tick (R464), so a step
back beyond the due time takes it from the entry again. -/
def stepAction (c : Cfg) (old new : Nat) (a : Nat) (d : Dyn) : Dyn :=
  let x := d.act a
  let due := actDue c a x x.next
  if x.state == 1 && c.actBind a && decide ((old : Int) < due) && decide (due ≤ (new : Int)) then d.setAct a { x with passed := true }
  else if x.state == 1 && c.actBind a && x.passed && decide ((new : Int) < due) then d.setAct a { x with passed := false }
  else d

/-- An accepted STEP (R453, R454, R463). -/
def stepDo (c : Cfg) (step : Int) (d : Dyn) : Dyn :=
  let old := d.tim.net
  let oldE := d.tim.epoch
  let t := d.tim
  let d1 : Dyn := { d with tim := { t with ofs := sext 64 (t.ofs + step), epoch := (t.epoch + 1) % 256, netSet := true,
                                           steps := satInc 16 t.steps } }
  let d2 := timeRecord old d1.tim.net oldE d1.tim.epoch 0 d1
  let u := (step % (2 ^ 64 : Int)).toNat
  let d3 := (d2.event 0 0x69 0 (u / 2 ^ 32) (u % 2 ^ 32)).setIrq 7
  forEach (List.range 256) d3 (stepAction c old d1.tim.net)

/-- Set TIM_CMD.RESULT. -/
def timResult (code : Nat) (d : Dyn) : Dyn := { d with tim := { d.tim with cmdResult := code } }

/-- TIM_CMD.STEP with a step value (R453). Answers the code too. -/
def stepCmd (c : Cfg) (step : Int) (d : Dyn) : Dyn × Nat :=
  let code := stepCode c d step
  if code = 0 then (timResult 0 (stepDo c step d), 0) else (timResult code d, code)

/-- The code of a SLEW (R453). -/
def slewCode (d : Dyn) (rate : Int) (ms : Nat) : Nat :=
  if d.standby then 0x0D else if rate < -140737 ∨ 140737 < rate ∨ ms = 0 then 1 else 0

/-- TIM_CMD.SLEW: a new slew replaces one that runs (R453). -/
def slewCmd (rate : Int) (ms : Nat) (d : Dyn) : Dyn × Nat :=
  let code := slewCode d rate ms
  if code = 0 then (timResult 0 { d with tim := { d.tim with slew := rate, slewLeft := ms } }, 0) else (timResult code d, code)

/-- TIM_CMD.SLEW_STOP: SLEW and TIM_SLEWMS become 0 (R453). -/
def slewStopCmd (s : State) : State :=
  if s.d.standby then { s with d := timResult 0x0D s.d }
  else { s with c := { s.c with reg := s.c.reg.putB 0x30038 0 }
                d := timResult 0 { s.d with tim := { s.d.tim with slew := 0, slewLeft := 0 } } }

/-- SLEW_END (R453): the duration has elapsed and the rate is 0 again. -/
def slewEnd (d : Dyn) : Dyn := if d.tim.slewLeft = 0 then { d with tim := { d.tim with slew := 0 } } else d

/-- The epoch and the record of a restarted time base (R452), once the newest record is known. -/
def timeRestarted (c : Cfg) (d : Dyn) : Dyn :=
  if d.tim.restart then
    let oldE := if d.arc.holds then d.arc.cpEpoch else 0
    let newE := if d.arc.holds then (d.arc.cpEpoch + 1) % 256 else 0
    let d1 : Dyn := { d with tim := { d.tim with epoch := newE, restart := false } }
    timeRecord d1.tim.net d1.tim.net oldE newE 1 (d1.fault c 0 0x6D 1 0 0 true true)
  else d

end Sys2Proof.Machine
end

