-- ==== Sys2Proof/Machine/Guard.lean ====
section
/-! DEFINITION. The Selvedge guard path and HEALTHY (R417 to R431, R444 to R446). -/

namespace Sys2Proof.Machine

open Sys2Proof

/-- Word `j` of guard term `n`'s entry (R442, R444). -/
def termA (n j : Nat) : Nat := 0x50100 + 0x20 * n + 4 * j

def Cfg.termEn (c : Cfg) (n : Nat) : Bool := c.bF (termA n 0) 0
def Cfg.termLatch (c : Cfg) (n : Nat) : Bool := c.bF (termA n 0) 1
def Cfg.termLogic (c : Cfg) (n : Nat) : Nat := c.fF (termA n 0) 2 2
def Cfg.termNsrc (c : Cfg) (n : Nat) : Nat := c.fF (termA n 0) 8 8
def Cfg.termRelMs (c : Cfg) (n : Nat) : Nat := c.fF (termA n 0) 16 16

/-- The 16-bit SRC word `i` of a term (R442). -/
def Cfg.termSrc (c : Cfg) (n i : Nat) : Nat := c.fF (termA n (1 + i / 2)) (16 * (i % 2)) 16

/-- Whether DIO channel `k` stands in the term's mask (R422). -/
def Cfg.termDo (c : Cfg) (n k : Nat) : Bool := c.bF (termA n (3 + k / 32)) (k % 32)

/-- Whether mover channel `m` stands in the term's mask. -/
def Cfg.termMv (c : Cfg) (n m : Nat) : Bool := c.bF (termA n 5) m

/-- A term before its start. -/
def GTerm.empty : GTerm :=
  { value := false, tripped := false, hold := false, src := 0, inv := 0, seen := 0, relSince := none, count := 0 }

def Dyn.term (d : Dyn) (n : Nat) : GTerm := tget GTerm.empty d.grd.terms n

def Dyn.setTerm (d : Dyn) (n : Nat) (t : GTerm) : Dyn :=
  { d with grd := { d.grd with terms := tput GTerm.empty d.grd.terms n t } }

/-- The truth of a term from its source values (R419). -/
def termTrue (logic nsrc src : Nat) : Bool :=
  let n := popN nsrc src
  if logic = 0 then decide (0 < n) else if logic = 1 then decide (n = nsrc) else decide (2 ≤ popN 3 src)

/-- Evaluate term `n` after a delivery (R420, R421, R425). `data` is the channel VALUE or DIO level of the source whose
value calls for the trip, as a function of the source's index in the term. -/
def evalTerm (c : Cfg) (n : Nat) (dataA dataB : Nat) (d : Dyn) : Dyn :=
  let t := d.term n
  let v := termTrue (c.termLogic n) (c.termNsrc n) t.src
  let hold := t.hold && decide (popN (c.termNsrc n) t.seen < c.termNsrc n)
  let trip := v && !hold && !t.tripped
  let again := v && !hold && t.tripped && !t.value
  let t1 := { t with value := v, hold := hold, tripped := t.tripped || trip, count := if trip then satInc 16 t.count else t.count
                     relSince := if v then none else if t.tripped then some (t.relSince.getD d.ms) else none }
  let d1 := d.setTerm n t1
  if trip || again then d1.fault c (0xD000 + n) 0xD060 3 dataA dataB false false else d1

/-- The SRC word of the first source, in SRC order, whose value is 1 (R449). -/
def firstSrc (c : Cfg) (n src : Nat) : Nat :=
  match (List.range (c.termNsrc n)).find? (fun i => src.testBit i) with
  | some i => c.termSrc n i
  | none => 0

/-- One source of term `n` is delivered: its value and whether it is valid; then the term is evaluated (R418, R421).
`dataOf` is the value GUARD_TRIP reports for each SRC word. -/
def deliverTo (c : Cfg) (isDio : Bool) (idx : Nat) (raw valid : Bool) (dataOf : Nat → Nat) (n : Nat) (d : Dyn) : Dyn :=
  if !c.termEn n then d else
    let hit := (List.range (c.termNsrc n)).filter (fun i =>
      let w := c.termSrc n i
      decide (w / 2 ^ 15 = (if isDio then 1 else 0)) && decide (w % 1024 = idx))
    if hit = [] then d else
      let t := d.term n
      let t1 := forEach hit t (fun i t =>
        let w := c.termSrc n i
        let v := if valid then (if isDio then raw != w.testBit 14 else raw) else if isDio then w.testBit 13 else raw
        { t with src := putBit t.src i v, inv := putBit t.inv i (!valid), seen := if valid then putBit t.seen i true else t.seen })
      let d1 := d.setTerm n t1
      let w := firstSrc c n t1.src
      evalTerm c n w (dataOf w) d1

/-- Deliver a guard source to every term that names it, in ascending term number. -/
def deliverSrc (c : Cfg) (isDio : Bool) (idx : Nat) (raw valid : Bool) (dataOf : Nat → Nat) (d : Dyn) : Dyn :=
  if d.live c then forEach (List.range c.fx.nTerms) d (deliverTo c isDio idx raw valid dataOf) else d

/-- Whether some term's mask holds DIO channel `k` at rank 3: tripped, or an arming hold (R422, R425). `pair` says that
`k` is the odd channel of a parallel pair, which the even channel's mask bit covers. -/
def rank3Do (c : Cfg) (d : Dyn) (k : Nat) (pairOdd : Bool) : Bool :=
  c.img.ok && (List.range c.fx.nTerms).any (fun n =>
    c.termEn n && (c.termDo n k || (pairOdd && c.termDo n (k - 1))) && ((d.term n).tripped || (d.term n).hold))

/-- Whether an arming hold alone covers DIO channel `k`. -/
def holdDo (c : Cfg) (d : Dyn) (k : Nat) : Bool :=
  c.img.ok && (List.range c.fx.nTerms).any (fun n => c.termEn n && c.termDo n k && (d.term n).hold)

/-- Whether a tripped term covers DIO channel `k`. -/
def tripDo (c : Cfg) (d : Dyn) (k : Nat) : Bool :=
  c.img.ok && (List.range c.fx.nTerms).any (fun n => c.termEn n && c.termDo n k && (d.term n).tripped)

/-- Rank 3 of a mover channel. -/
def rank3Mv (c : Cfg) (d : Dyn) (m : Nat) : Bool :=
  c.img.ok && (List.range c.fx.nTerms).any (fun n => c.termEn n && c.termMv n m && ((d.term n).tripped || (d.term n).hold))

def tripMv (c : Cfg) (d : Dyn) (m : Nat) : Bool :=
  c.img.ok && (List.range c.fx.nTerms).any (fun n => c.termEn n && c.termMv n m && (d.term n).tripped)

def holdMv (c : Cfg) (d : Dyn) (m : Nat) : Bool :=
  c.img.ok && (List.range c.fx.nTerms).any (fun n => c.termEn n && c.termMv n m && (d.term n).hold)

/-- GRD_HCFG.HEALTHY_SEV in force (R431, R444). -/
def Cfg.healthySev (c : Cfg) : Nat := c.fF 0x5001C 0 3

/-- HEALTHY sinks only under the four conditions of R431. -/
def healthyNow (c : Cfg) (d : Dyn) : Bool :=
  c.img.ok && (d.glb.st == .run || d.glb.st == .scan || d.glb.st == .dormant) &&
  !((List.range c.fx.nTerms).any (fun n => c.termEn n && ((d.term n).tripped || (d.term n).hold))) &&
  !(d.flt.recs.any (fun r => decide (c.healthySev ≤ r.sev)))

/-- HEALTHY_UPDATE at a frame boundary (R431). -/
def healthyUpdate (c : Cfg) (d : Dyn) : Dyn := { d with flt := { d.flt with healthy := healthyNow c d } }

/-- The effective value of a term: a term whose evaluators disagree counts as true (R421). -/
def Dyn.termValue (d : Dyn) (n : Nat) : Bool := (d.term n).value || d.grd.bad.contains n

/-- End the trip of a term and close its record (R420, R423, R449). -/
def endTrip (n : Nat) (d : Dyn) : Dyn :=
  (d.setTerm n { d.term n with tripped := false, relSince := none }).clears (0xD000 + n) [0xD060]

/-- GUARD_RELEASE: a non-latching term false for RELEASE_MS ends its trip (R420). In DORMANT no term is evaluated (R428). -/
def guardRelease (c : Cfg) (n : Nat) (d : Dyn) : Dyn :=
  let t := d.term n
  match t.relSince with
  | some since =>
    if d.live c ∧ c.termEn n ∧ ¬ c.termLatch n ∧ t.tripped ∧ ¬ d.termValue n ∧ since + c.termRelMs n ≤ d.ms then endTrip n d else d
  | none => d

/-- GUARD_PATH_FAULT: the evaluators of a term disagree for 100 µs (R421, R449). -/
def guardPathFault (c : Cfg) (n : Nat) (d : Dyn) : Dyn :=
  if d.live c ∧ c.termEn n then
    let t := d.term n
    let d1 := d.setTerm n { t with tripped := true, count := if t.tripped then t.count else satInc 16 t.count }
    let d2 := { d1 with grd := { d1.grd with pathOk := false, bad := if d1.grd.bad.contains n then d1.grd.bad else d1.grd.bad ++ [n] } }
    d2.fault c 0xD100 0xD061 4 0 0 false false
  else d

/-- The result of GRD_CMD.RESET for a term (R423, R446). -/
def guardResetCode (c : Cfg) (d : Dyn) (n : Nat) : Nat :=
  if !c.img.ok then 0xD00D else if c.fx.nTerms ≤ n then 0xD004 else if d.termValue n then 0xD044 else 0

/-- GRD_CMD.RESET of a latched term (R423, R446). -/
def guardReset (c : Cfg) (n : Nat) (d : Dyn) : Dyn :=
  let code := guardResetCode c d n
  let d1 := if code = 0 ∧ c.termEn n ∧ c.termLatch n ∧ (d.term n).tripped then endTrip n d else d
  { d1 with grd := { d1.grd with cmdResult := code } }

/-- GRD_CMD.RESET_ALL: every latched term that is false (R423). -/
def guardResetAll (c : Cfg) (d : Dyn) : Dyn :=
  if !c.img.ok then { d with grd := { d.grd with cmdResult := 0xD00D } }
  else
    let d1 := forEach (List.range c.fx.nTerms) d (fun n d =>
      if c.termEn n && c.termLatch n && (d.term n).tripped && !d.termValue n then endTrip n d else d)
    { d1 with grd := { d1.grd with cmdResult := 0 } }

end Sys2Proof.Machine
end

