-- ==== Sys2Proof/Machine/Analog.lean ====
section
/-! DEFINITION. The front end's descriptors, raw results, verdicts and conversion (R137 to R160, R170 to R192). -/

namespace Sys2Proof.Machine

open Sys2Proof

/-- Base of bank `b`'s registers (R163). -/
def bankA (b : Nat) : Nat := 0x100000 + b * 0x1000

/-- Word `j` of the descriptor of channel `k` = 64 b + d (R167). -/
def descA (k j : Nat) : Nat := bankA (k / 64) + 0x100 + 0x20 * (k % 64) + 4 * j

/-- Word `j` of channel `k`'s conversion entry (R195). -/
def chanA (k j : Nat) : Nat := 0x121000 + 0x20 * k + 4 * j

/-- Word `j` of switch `s` (R195). -/
def swA (s j : Nat) : Nat := 0x12B000 + 0x10 * s + 4 * j

/-- User curve `u` (32 to 63) (R195). -/
def ucurveA (u : Nat) : Nat := 0x130000 + 0x400 * (u - 32)

def Cfg.bankEn (c : Cfg) (b : Nat) : Bool := decide (b < c.fx.nBanks) && c.bF (bankA b) 0
def Cfg.descEn (c : Cfg) (k : Nat) : Bool := c.bF (descA k 0) 0
def Cfg.descGuard (c : Cfg) (k : Nat) : Bool := c.bF (descA k 0) 1
def Cfg.descRef (c : Cfg) (k : Nat) : Bool := c.bF (descA k 0) 24
def Cfg.descExc (c : Cfg) (k : Nat) : Nat := c.fF (descA k 1) 0 3
def Cfg.descExcVal (c : Cfg) (k : Nat) : Nat := c.fF (descA k 1) 8 8
def Cfg.descGain (c : Cfg) (k : Nat) : Nat := c.fF (descA k 2) 16 8
def Cfg.descRate (c : Cfg) (k : Nat) : Nat := c.fF (descA k 2) 24 8
def Cfg.descAvg (c : Cfg) (k : Nat) : Nat := c.fF (descA k 3) 0 8
def Cfg.descSenseChk (c : Cfg) (k : Nat) : Bool := c.bF (descA k 3) 8
def Cfg.descProbe (c : Cfg) (k : Nat) : Nat := c.fF (descA k 3) 9 2
def Cfg.descChop (c : Cfg) (k : Nat) : Bool := c.bF (descA k 3) 16
def Cfg.descPre (c : Cfg) (k : Nat) : Nat := c.fF (descA k 3) 24 8
def Cfg.descChopMs (c : Cfg) (k : Nat) : Nat := c.fF (descA k 4) 0 16
def Cfg.descGPer (c : Cfg) (k : Nat) : Nat := c.fF (descA k 4) 16 16
def Cfg.descGPhase (c : Cfg) (k : Nat) : Nat := c.fF (descA k 5) 0 16
def Cfg.descGOfs (c : Cfg) (k : Nat) : Nat := c.fF (descA k 5) 16 16

/-- Times of R142 and R146 in units of 1/128 µs: one conversion. -/
def t1Of (rate : Nat) : Nat := 8000 * 2 ^ rate

/-- The switch phase. -/
def tSwOf (pre : Nat) : Nat := (16 + 16 * pre) * 128

/-- The visit length w without extension: switch phase and 9/8 of the main conversion. -/
def visitLen (rate avg pre : Nat) : Nat := tSwOf pre + avg * (9000 * 2 ^ rate)

/-- The visit length of a descriptor, with or without the settle extension. -/
def Cfg.visitW (c : Cfg) (k : Nat) (ext : Bool) : Nat :=
  visitLen (c.descRate k) (c.descAvg k) (c.descPre k) + (if ext then 3 * t1Of (c.descRate k) else 0)

/-- The settle time of R149, in 1/128 µs. -/
def settleTime (rate avg : Nat) : Nat := (3 + avg) * t1Of rate

/-- The lead of a guard slot before its main conversion (R153). -/
def Cfg.guardLead (c : Cfg) (k : Nat) : Nat :=
  tSwOf (c.descPre k) + (if c.descExc k ≠ 0 then 3 * t1Of (c.descRate k) else 0)

/-- Device time in 1/128 µs. -/
def Tim.t128 (t : Tim) : Nat := t.acc * 128000000 / 2 ^ 48

/-- The start of the next guard slot of descriptor `k` at or after `now`, in 1/128 µs (R153). -/
def Cfg.nextSlot (c : Cfg) (k now : Nat) : Nat :=
  let p := max 1 (c.descGPer k)
  let lead := c.guardLead k
  let ofs := c.descGOfs k * 128
  let m0 := (now + lead - ofs + 127999) / 128000
  let m := m0 + (c.descGPhase k + p - m0 % p) % p
  m * 128000 + ofs - lead

/-- The guard descriptors of a bank that are enabled. -/
def Cfg.guardDescs (c : Cfg) (b : Nat) : List Nat := (upFrom (64 * b) 64).filter (fun k => c.descEn k && c.descGuard k)

/-- The earliest guard slot start of a bank at or after `now`. -/
def Cfg.bankSlot (c : Cfg) (b now : Nat) : Option Nat :=
  (c.guardDescs b).foldl (fun a k => let t := c.nextSlot k now
    match a with
    | none => some t
    | some x => some (min x t)) none

/-- A descriptor that has made no visit. -/
def Desc.empty : Desc :=
  { heldP := none, heldN := none, pending := false, unsettled := 0, lastValid := false, ovf := false, compliance := false,
    pol := false, raw := 0, chopStart := true, lastRev := 0, overRun := 0, misRaw := 0, misSense := 0, okRaw := 0, okSense := 0,
    revisit := 0 }

/-- A bank before its first visit. Its self-test of BOOT is under way (R162) until SELFTEST_DONE reports its end (log entry 81). -/
def Bank.empty : Bank :=
  { visit := none, pos := 0, inScan := false, listDone := false, waiting := false, contOn := false, contPol := false,
    contStart := true, contRev := 0, contOver := 0, overload := false, retryAt := none, vcurr := 0, visits := 0,
    selftest := true, failed := false, checking := false, listPend := false, runList := [], scanList := [], nextRun := none,
    nextScan := none, runUs := 0, scanUs := 0, reason := 0, cmdResult := 0 }

def Dyn.bank (d : Dyn) (b : Nat) : Bank := tget Bank.empty d.afe.banks b
def Dyn.setBank (d : Dyn) (b : Nat) (x : Bank) : Dyn := { d with afe := { d.afe with banks := tput Bank.empty d.afe.banks b x } }
def Dyn.desc (d : Dyn) (k : Nat) : Desc := tget Desc.empty d.afe.descs k
def Dyn.setDesc (d : Dyn) (k : Nat) (x : Desc) : Dyn := { d with afe := { d.afe with descs := tput Desc.empty d.afe.descs k x } }

/-- Set settle pending on the excited descriptors of a bank that `p` picks; a visit of one of them under way becomes
unsettled (R148). -/
def setPending (c : Cfg) (b : Nat) (p : Nat → Bool) (d : Dyn) : Dyn :=
  let ks := (upFrom (64 * b) 64).filter (fun k => c.descEn k && decide (c.descExc k ≠ 0) && p k)
  let d1 := forEach ks d (fun k d => d.setDesc k { d.desc k with pending := true })
  match (d1.bank b).visit with
  | some v => if ks.contains v.desc then d1.setBank b { d1.bank b with visit := some { v with unsettled := true } } else d1
  | none => d1

/-- Entry to RUN, SAFE or SCAN (R138, R143, R148, R151, R152): held codes cleared, chop schedules restarted, every excited
descriptor settle pending, the list at entry 0. -/
def bankEntry (c : Cfg) (scan : Bool) (b : Nat) (d : Dyn) : Dyn :=
  let d1 := forEach (upFrom (64 * b) 64) d (fun k d =>
    d.setDesc k { d.desc k with heldP := none, heldN := none, chopStart := true })
  let x := d1.bank b
  let x1 := { x with pos := 0, inScan := scan, listDone := false, waiting := false, contStart := true,
                     scanList := if scan then x.nextScan.getD x.scanList else x.scanList,
                     nextScan := if scan then none else x.nextScan }
  setPending c b (fun _ => true) (d1.setBank b x1)

/-- One conversion (R141, R143): the code and whether it saturated. `vref` in nV is 2.5 V where REF = 0. -/
def codeOf (gain : Nat) (vin vref : Int) : Int × Bool :=
  if vref = 0 then (if vin = 0 then (0, false) else if 0 < vin then (8388607, true) else (-8388608, true))
  else
    let n := 2 ^ 23 * 2 ^ gain * vin * (if vref < 0 then -1 else 1)
    let x := rdivI n vref.natAbs
    if x > 8388607 then (8388607, true) else if x < -8388608 then (-8388608, true) else (x, false)

/-- The raw result of one polarity (R143). -/
def rawPol (ref rev : Bool) (gain avg : Nat) (vin : List Int) (vref : Int) : Int × Bool :=
  let cs := (List.range avg).map (fun i => codeOf gain (nth 0 vin i) (if ref then vref else 2500000000))
  let norm := fun (x : Int) => if rev && !ref then -x else x
  (rdivI (cs.foldl (fun a x => a + norm x.1) 0) (max 1 avg), cs.any (·.2))

/-- The chopped combination of R143: the result, given the codes held after this visit. -/
def chopRaw (rev : Bool) (rp : Int) (hp hn : Option Int) : Int :=
  match (if rev then hp else hn) with
  | some o => rdivI (o + rp) 2
  | none => rp

/-- Causes of CNV_CSTATc (R198). -/
def causeBREAK : Nat := 2
def causeSENSE : Nat := 3
def causeEXC : Nat := 4
def causeOVER : Nat := 5
def causeRANGE : Nat := 6
def causeNE43 : Nat := 7
def causeCJ : Nat := 8
def causeBANK : Nat := 9
def causeSTALE : Nat := 10
def causeNORES : Nat := 11

/-- What R182's verdict depends on. -/
structure Verdict where
  bank : Bool
  ovf : Bool
  exc : Nat
  compliance : Bool
  senseUsed : Bool
  sense : Int       -- µV, normalised
  probe : Nat
  probeUv : Int
  mainNv : Int      -- main input voltage, nV
  winIn : Bool
  winSn : Bool

/-- The diagnostic verdict (R182, R183): 0 when it passes, else the first cause in table order. -/
def verdictOf (v : Verdict) : Nat :=
  if v.bank then causeBANK
  else if v.ovf then causeOVER
  else if (v.exc = 1 ∨ v.exc = 3) ∧ v.compliance then causeEXC
  else if v.senseUsed ∧ (v.sense < 25000 ∨ 2450000 < v.sense) then causeSENSE
  else if v.probe = 1 ∧ 1000000 < v.probeUv then causeBREAK
  else if v.probe = 2 ∧ v.probeUv < -1000000 then causeBREAK
  else if v.probe = 3 ∧ max 5000000 ((v.mainNv.natAbs : Int) / 50) < ((v.probeUv * 1000 - v.mainNv).natAbs : Int) then causeBREAK
  else if v.winSn then causeSENSE
  else if v.winIn then causeBREAK
  else 0

/-- A channel before its first result. -/
def Chan.empty : Chan :=
  { state := 0, value := 0, cause := 0, limit := false, stale := false, at_ := 0, noRec := some 0, filt := false, fshift := 0, scanned := false }

def Sw.empty : Sw := { s := false, cnt := 0, forced := false }

def Dyn.chan (d : Dyn) (k : Nat) : Chan := tget Chan.empty d.cnv.chans k
def Dyn.setChan (d : Dyn) (k : Nat) (x : Chan) : Dyn := { d with cnv := { d.cnv with chans := tput Chan.empty d.cnv.chans k x } }
def Dyn.sw (d : Dyn) (s : Nat) : Sw := tget Sw.empty d.cnv.sws s
def Dyn.setSw (d : Dyn) (s : Nat) (x : Sw) : Dyn := { d with cnv := { d.cnv with sws := tput Sw.empty d.cnv.sws s x } }

def Cfg.chanEn (c : Cfg) (k : Nat) : Bool := c.bF (chanA k 0) 0
def Cfg.chanCurve (c : Cfg) (k : Nat) : Nat := c.fF (chanA k 0) 8 8
def Cfg.chanCj (c : Cfg) (k : Nat) : Nat := c.fF (chanA k 0) 16 16
def Cfg.chanP (c : Cfg) (k j : Nat) : Int := sword (c.f (chanA k (1 + j)))
def Cfg.chanLo (c : Cfg) (k : Nat) : Int := sword (c.f (chanA k 4))
def Cfg.chanHi (c : Cfg) (k : Nat) : Int := sword (c.f (chanA k 5))
def Cfg.chanFshift (c : Cfg) (k : Nat) : Nat := c.fF (chanA k 6) 0 8
def Cfg.chanStaleMs (c : Cfg) (k : Nat) : Nat := c.fF (chanA k 6) 16 16
def Cfg.swEn (c : Cfg) (s : Nat) : Bool := c.bF (swA s 0) 0
def Cfg.swChan (c : Cfg) (s : Nat) : Nat := c.fF (swA s 0) 16 16

/-- The state of a channel as its register reports it (R198): disabled channels read 0. -/
def chanState (c : Cfg) (d : Dyn) (k : Nat) : Nat := if c.chanEn k then (let s := (d.chan k).state; if s = 0 then 3 else s) else 0

/-- Consumers treat VALID and HOLDING as usable (R185). -/
def chanUsable (c : Cfg) (d : Dyn) (k : Nat) : Bool := let s := chanState c d k; s == 1 || s == 2

/-- The nodes of a user curve (R194, R195). -/
def Cfg.userNodes (c : Cfg) (u : Nat) : List (Int × Int) :=
  (List.range (fld (c.f (ucurveA u)) 16 8)).map (fun i =>
    (sword (c.f (ucurveA u + 0x10 + 8 * i)), sword (c.f (ucurveA u + 0x14 + 8 * i))))

/-- The outcome of a curve: a value and LIMIT, or the cause of an invalid result. -/
abbrev CurveOut := (Int × Bool) ⊕ Nat

/-- `some` value or RANGE. -/
def orRange (x : Option Int) : CurveOut :=
  match x with
  | some v => .inl (v, false)
  | none => .inr causeRANGE

/-- The input quantities of R172. -/
def qVolt (raw : Int) (gain : Nat) : Int := sat32 (rdivI (raw * 163840000) (8388608 * 2 ^ gain))
def qRatio (raw : Int) (gain : Nat) : Int := sat32 (rdivI (raw * 65536000) (8388608 * 2 ^ gain))
def qOhm (raw : Int) (gain : Nat) (p0 : Int) : Int := sat32 (rdivI (raw * p0) (8388608 * 2 ^ gain))
def qMa (qv p0 : Int) : Int := sat32 (rdivI (qv * 65536 * (if p0 < 0 then -1 else 1)) (max 1 p0.natAbs))

/-- The NAMUR NE 43 curve (R176). -/
def ne43 (q lo hi : Int) : CurveOut :=
  if q ≤ 235930 ∨ 1376256 ≤ q then .inr causeNE43
  else
    let r := if q < 249037 then 249037 else if 1343488 < q then 1343488 else q
    .inl (linMap r 262144 1310720 lo hi, r != q)

/-- The thermocouple curves (R178). -/
def tcOut (curve : Nat) (qv : Int) (tcj : Option Int) : CurveOut :=
  match tcj with
  | none => .inr causeCJ
  | some t =>
    match interp t (tcTE curve) with
    | none => .inr causeCJ
    | some e => orRange (interp (sat32 (qv + e)) (tcET curve))

/-- Evaluate channel `k`'s curve on a raw result (R172 to R180). -/
def evalCurve (c : Cfg) (d : Dyn) (k : Nat) (raw : Int) : CurveOut :=
  let cv := c.chanCurve k
  let g := c.descGain k
  let p0 := c.chanP k 0
  let p1 := c.chanP k 1
  let p2 := c.chanP k 2
  if cv = 1 then .inl (linMap (qVolt raw g) p1 p2 (c.chanLo k) (c.chanHi k), false)
  else if cv = 2 then .inl (linMap (qRatio raw g) p1 p2 (c.chanLo k) (c.chanHi k), false)
  else if cv = 3 then ne43 (qMa (qVolt raw g) p0) (c.chanLo k) (c.chanHi k)
  else if cv = 4 then .inl (qOhm raw g p0, false)
  else if cv = 8 then orRange (ptTemp (qOhm raw g p0) p1)
  else if 16 ≤ cv ∧ cv ≤ 20 then
    let tcj := if c.chanCj k = 0xFFFF then some p1
               else if chanUsable c d (c.chanCj k) then some (d.chan (c.chanCj k)).value else none
    tcOut cv (qVolt raw g) tcj
  else if cv = 24 ∨ cv = 25 then
    orRange (interp (rdivI (raw * p0 * 2 * (if p1 < 0 then -1 else 1)) (max 1 (2 ^ g * p1.natAbs))) (ntcNodes cv))
  else
    let inp := fld (c.f (ucurveA cv)) 8 8
    let q := if inp = 0 then qVolt raw g else if inp = 1 then qRatio raw g else if inp = 2 then qOhm raw g p0 else qMa (qVolt raw g) p0
    orRange (interp q (c.userNodes cv))

/-- The filter of R181. -/
def filterStep (fshift : Nat) (fresh : Bool) (y x : Int) : Int :=
  if fshift = 0 || fresh then x else sat32 (y + shrI (x - y) fshift)

/-- The record a cause opens on the channel's source: code and severity; BANK opens none (R187, R200). -/
def causeFault (cause : Nat) : Option (Nat × Nat) :=
  if cause = causeBREAK then some (0x5060, 2) else if cause = causeSENSE then some (0x5061, 2)
  else if cause = causeEXC then some (0x5062, 2) else if cause = causeNE43 then some (0x5063, 2)
  else if cause = causeOVER ∨ cause = causeRANGE then some (0x5064, 1)
  else if cause = causeCJ then some (0x5065, 2) else if cause = causeSTALE then some (0x5066, 1) else none

/-- The codes of a channel's record, all cleared by the first valid result. -/
def chanCodes : List Nat := [0x5060, 0x5061, 0x5062, 0x5063, 0x5064, 0x5065, 0x5066]

/-- The state a switch calls for on a value (R191). -/
def swWant (dir : Bool) (thresh hyst x : Int) (s : Bool) : Bool :=
  if !dir then (if thresh ≤ x then true else if x < sat32 (thresh - hyst) then false else s)
  else (if x ≤ thresh then true else if sat32 (thresh + hyst) < x then false else s)

/-- One evaluation of a switch on a valid value. -/
def swStep (dir : Bool) (thresh hyst : Int) (deb : Nat) (x : Int) (w : Sw) : Sw :=
  let want := swWant dir thresh hyst x w.s
  if want = w.s then { s := w.s, cnt := 0, forced := false }
  else if deb ≤ w.cnt + 1 then { s := want, cnt := 0, forced := false }
  else { s := w.s, cnt := w.cnt + 1, forced := false }

/-- A switch whose channel is INVALID (R191): INV 1 ON, 2 OFF, else HOLD. -/
def swForce (inv : Nat) (w : Sw) : Sw :=
  { s := if inv = 1 then true else if inv = 2 then false else w.s, cnt := 0, forced := true }

/-- The switch configuration loaded at a result of its channel. -/
def Cfg.swCfg (c : Cfg) (s : Nat) : Bool × Nat × Bool × Int × Int × Nat :=
  (c.bF (swA s 0) 2, c.fF (swA s 0) 3 2, c.bF (swA s 0) 5, sword (c.f (swA s 1)), sword (c.f (swA s 2)), c.fF (swA s 3) 0 8)

/-- What GUARD_TRIP reports for a source: a switch's channel VALUE, or a DIO level. -/
def srcData (c : Cfg) (d : Dyn) (level : Nat → Nat) (w : Nat) : Nat :=
  if w.testBit 15 then level (w % 1024) else u32 (d.chan (c.swChan (w % 1024))).value

/-- Evaluate one switch after a result or an invalidation of its channel, log its change with the switch and the new state (R191, R433; log entry 85), and deliver a guard
switch to Selvedge (R417, R418). -/
def evalSwitch (c : Cfg) (k : Nat) (level : Nat → Nat) (s : Nat) (d : Dyn) : Dyn :=
  if !(c.swEn s && c.swChan s == k) then d else
    let (dir, inv, log, th, hy, deb) := c.swCfg s
    let w := d.sw s
    let bad := !chanUsable c d k
    let w' := if bad then swForce inv w else swStep dir th hy deb (d.chan k).value w
    let d1 := d.setSw s w'
    let d2 := if log && w'.s != w.s then d1.event (0x5000 + k) 0x5070 0 s (if w'.s then 1 else 0) else d1
    if c.bF (swA s 0) 1 then deliverSrc c false s w'.s (!bad) (srcData c d2 level) d2 else d2

/-- Every switch on a channel, in ascending number (R170, R191). -/
def evalSwitches (c : Cfg) (k : Nat) (level : Nat → Nat) (d : Dyn) : Dyn :=
  forEach (List.range 512) d (evalSwitch c k level)

/-- A channel becomes, or stays, INVALID with a cause (R185, R187). -/
def invalidate (c : Cfg) (k cause : Nat) (level : Nat → Nat) (d : Dyn) : Dyn :=
  let x := d.chan k
  let same := x.state = 3 ∧ x.cause = cause
  let d1 := d.setChan k { x with state := 3, cause := cause, filt := false }
  let d2 := match causeFault cause with
    | some (code, sev) => if same then d1 else d1.fault c (0x5000 + k) code sev 0 0 false false
    | none => d1
  evalSwitches c k level d2

/-- A valid value before the filter is delivered to the channel (R170, R181, R185, R186). -/
def acceptValue (c : Cfg) (k : Nat) (x : Int) (limit : Bool) (level : Nat → Nat) (d : Dyn) : Dyn :=
  let ch := d.chan k
  let fs := c.chanFshift k
  let y := filterStep fs (!ch.filt || fs != ch.fshift) ch.value x
  let d1 := d.setChan k { ch with state := 1, value := y, cause := 0, limit := limit, stale := false, at_ := d.ms, filt := true,
                                  fshift := fs, noRec := some d.ms }
  evalSwitches c k level (d1.clears (0x5000 + k) chanCodes)

/-- Channel `k` starts (R185, R191): INVALID before its first result, with its last valid VALUE kept for reading, and every switch on it in its invalid
state. AGE runs on from that VALUE's visit; where no visit has produced one it counts from the enable (log entry 83). -/
def chanStart (c : Cfg) (k : Nat) (level : Nat → Nat) (d : Dyn) : Dyn :=
  let x := d.chan k
  evalSwitches c k level (d.setChan k { x with state := 3, cause := causeNORES, limit := false, filt := false, at_ := if x.state = 0 then d.ms else x.at_,
                                               noRec := some d.ms })

/-- CONVERSION of a delivered visit (R170, R188, R189): `cause` is the verdict, 0 when it passes. -/
def convert (c : Cfg) (k : Nat) (raw : Int) (cause : Nat) (level : Nat → Nat) (d : Dyn) : Dyn :=
  if !c.chanEn k then d
  else
    let d1 := if d.glb.st = .scan then d.setChan k { d.chan k with scanned := true } else d
    let bad : Nat → Dyn := fun cs => invalidate c k cs level (d1.setChan k { d1.chan k with limit := false })
    if cause ≠ 0 then bad cause
    else
      match evalCurve c d1 k raw with
      | .inl (x, lim) => acceptValue c k x lim level d1
      | .inr cs => bad cs

/-- An unsettled visit delivers nothing: a VALID channel becomes HOLDING (R149, R185). -/
def holdChan (c : Cfg) (k : Nat) (d : Dyn) : Dyn :=
  let x := d.chan k
  if c.chanEn k && x.state == 1 then d.setChan k { x with state := 2, cause := 1 } else d

/-- PWR_SCAN.INTERVAL in seconds in force. -/
def Dyn.scanInterval (d : Dyn) : Nat := d.pwr.interval

/-- The stale limit of a channel in ms (R186, R188). -/
def staleLimit (c : Cfg) (d : Dyn) (k : Nat) : Nat :=
  if d.glb.st = .scan then d.scanInterval * 1000 + 2000
  else if c.chanStaleMs k ≠ 0 then c.chanStaleMs k
  else if c.descGuard k then 2 * c.descGPer k + 1
  else if (d.desc k).revisit = 0 then d.scanInterval * 1000 + 2000
  else (4 * (d.desc k).revisit + 127999) / 128000

/-- AGE in ms (R186). -/
def Dyn.chanAge (d : Dyn) (k : Nat) : Nat := d.ms - (d.chan k).at_

/-- The storage list of channel `k`'s bank names it. -/
def inStorage (d : Dyn) (k : Nat) : Bool := (d.bank (k / 64)).scanList.contains (k % 64)

/-- Entry to RUN from DORMANT or SCAN (R185, R188): a channel that the last burst did not convert is INVALID with cause NO_RESULT, and
its stale record waits for its limit counted from the entry. -/
def chanWake (c : Cfg) (k : Nat) (level : Nat → Nat) (d : Dyn) : Dyn :=
  let x := d.chan k
  if x.scanned then d.setChan k { x with scanned := false }
  else evalSwitches c k level
    (d.setChan k { x with state := 3, cause := causeNORES, limit := false, filt := false, noRec := some (d.ms + staleLimit c d k + 1) })

/-- CNV_CSTAT of channel `k` (R198). -/
def chanWord (c : Cfg) (d : Dyn) (k : Nat) : Nat :=
  let x := d.chan k
  let st := chanState c d k
  if st = 0 then 0
  else at_ 0 2 st + b1 2 x.stale + at_ 3 4 (if st = 3 ∧ x.state = 0 then causeNORES else x.cause) + b1 7 x.limit + at_ 8 16 (min 65535 (d.chanAge k))

/-- STALE is set, and a usable channel becomes INVALID with cause STALE (R186). -/
def staleFlag (c : Cfg) (k : Nat) (level : Nat → Nat) (d : Dyn) : Dyn :=
  let x := d.chan k
  let d1 := d.setChan k { x with stale := true }
  if x.state = 1 ∨ x.state = 2 then evalSwitches c k level (d1.setChan k { d1.chan k with state := 3, cause := causeSTALE, filt := false }) else d1

/-- The stale record (R186, R188): once, and not before the time an entry to RUN has set. -/
def staleRecord (c : Cfg) (k : Nat) (d : Dyn) : Dyn :=
  match (d.chan k).noRec with
  | some t =>
    if t ≤ d.ms then (d.setChan k { d.chan k with noRec := none }).fault c (0x5000 + k) 0x5066 1 0 0 false false else d
  | none => d

/-- CHANNEL_STALE (R186): when AGE exceeds the limit, STALE is set, the record is raised and a usable channel becomes
INVALID with cause STALE; in DORMANT nothing happens, and in SCAN only to the channels of the storage lists (R188). -/
def channelStale (c : Cfg) (k : Nat) (level : Nat → Nat) (d : Dyn) : Dyn :=
  if !c.chanEn k || d.glb.st == .dormant || d.glb.st == .boot then d
  else if d.glb.st == .scan && !inStorage d k then d
  else if d.chanAge k ≤ staleLimit c d k then d
  else staleFlag c k level (staleRecord c k d)

end Sys2Proof.Machine
end

