-- ==== Sys2Proof/Machine/Moisture.lean ====
section
/-! DEFINITION. Moisture cells and cartridges (R203 to R230, R237 to R240). -/

namespace Sys2Proof.Machine

open Sys2Proof

/-- Base of cell `n`'s registers (R235). -/
def cellA (n : Nat) : Nat := 0x140000 + n * 0x400

def Cfg.cellEn (c : Cfg) (n : Nat) : Bool := decide (n < c.fx.nCells) && c.bF (cellA n) 0
def Cfg.cellCurve (c : Cfg) (n : Nat) : Nat := c.fF (cellA n) 8 8
def Cfg.cellK (c : Cfg) (n : Nat) : Nat := c.fF (cellA n) 16 4
def Cfg.cellAvg (c : Cfg) (n : Nat) : Nat := c.fF (cellA n) 24 5
def Cfg.cellPer (c : Cfg) (n : Nat) : Nat := c.fF (cellA n + 4) 0 16
def Cfg.cellPhase (c : Cfg) (n : Nat) : Nat := c.fF (cellA n + 4) 16 16
def Cfg.cellRefN (c : Cfg) (n : Nat) : Nat := c.fF (cellA n + 8) 0 14
def Cfg.cellFlowKind (c : Cfg) (n : Nat) : Nat := c.fF (cellA n + 8) 24 2
def Cfg.cellRefLim (c : Cfg) (n : Nat) : Nat := c.fF (cellA n + 0xC) 0 17
def Cfg.cellStale (c : Cfg) (n : Nat) : Nat := c.fF (cellA n + 0x10) 0 16
def Cfg.cellFlowRef (c : Cfg) (n : Nat) : Nat := c.fF (cellA n + 0x10) 16 16
def Cfg.cellAccept (c : Cfg) (n : Nat) : Nat := c.fF (cellA n + 0x14) 0 16
def Cfg.cellSpotN (c : Cfg) (n k : Nat) : Nat := c.fF (cellA n + 0x20 + 4 * k) 0 14
def Cfg.cellDwell (c : Cfg) (n k : Nat) : Nat := c.fF (cellA n + 0x20 + 4 * k) 16 4

/-- Word `j` (GO, BO, RS, XS) of calibration entry `k` of set `st` (R235). -/
def calA (n st k j : Nat) : Nat := cellA n + 0x40 + 0x90 * st + 0x10 * k + 4 * j

/-- The OPEN and SHORT flags of a set (R236). -/
def Cfg.calOpen (c : Cfg) (n st : Nat) : Bool := c.bF (cellA n + 0x160) (8 * st)
def Cfg.calShort (c : Cfg) (n st : Nat) : Bool := c.bF (cellA n + 0x160) (8 * st + 1)

def Cell.empty : Cell :=
  { state := 0, cause := 0, m := 0, rho := 0, temp := 0, qual := 0, drift := 0, resA := 0, resB := 0, sweepUs := 0, sweeps := 0,
    at_ := 0, eps1 := [], eps2 := [], g := [], b := [], gref := 0, bref := 0, expired := false, sweeping := false,
    dropSweep := false, got := [], ctgChange := false, cal := none, calClear := false, calResult := 0, rtd := none, rtdAt := 0,
    uncalRaised := false, staleRec := false, plan := [] }

def Ctg.empty : Ctg :=
  { state := 0, mem := [], serial := 0, reason := 0, acc := 0, pend := 0, fails := 0, consec := 0, tx := none, wantIncr := false,
    wantRows := [], wantRead := false, wantPoll := false, lineFault := false, retryAt := none, lifeWarn := false, expired := false,
    absent := false, result := 0, discarded := 0 }

def Dyn.cell (d : Dyn) (n : Nat) : Cell := tget Cell.empty d.mst.cells n
def Dyn.setCell (d : Dyn) (n : Nat) (x : Cell) : Dyn := { d with mst := { d.mst with cells := tput Cell.empty d.mst.cells n x } }
def Dyn.ctg (d : Dyn) (n : Nat) : Ctg := tget Ctg.empty d.mst.ctgs n
def Dyn.setCtg (d : Dyn) (n : Nat) (x : Ctg) : Dyn := { d with mst := { d.mst with ctgs := tput Ctg.empty d.mst.ctgs n x } }

/-- Little-endian value in a cartridge memory (R223). -/
def Ctg.le (x : Ctg) (o n : Nat) : Nat := leNat ((upFrom o n).map (fun a => tget 0 x.mem a))

/-- Bytes of a cartridge memory. -/
def Ctg.bytes (x : Ctg) (o n : Nat) : List Byte := (upFrom o n).map (fun a => tget 0 x.mem a)

/-- Replace bytes of a cartridge memory. -/
def Ctg.write (x : Ctg) (o : Nat) (l : List Byte) : Ctg :=
  { x with mem := ((List.range l.length).zip l).foldl (fun m p => tput 0 m (o + p.1) p.2) x.mem }

/-- LIFE_PCT (R229). -/
def Ctg.lifePct (x : Ctg) : Nat := min 255 (x.le 0x100 4 * 100 / max 1 (x.le 0x18 4))

/-- States of a cell: disabled reads 0 (R238). -/
def cellState (c : Cfg) (d : Dyn) (n : Nat) : Nat := if c.cellEn n then (let s := (d.cell n).state; if s = 0 then 3 else s) else 0

def cellUsable (c : Cfg) (d : Dyn) (n : Nat) : Bool := let s := cellState c d n; s == 1 || s == 2

/-- The user grain curve `u` of the image's section 0x0601, held at the addresses the model keeps for it (log entry 5). -/
def gcurveA (u : Nat) : Nat := 0x7000000 + 0x40 * (u - 32)

/-- A user curve read from its 16 words (R234). -/
def Cfg.userGrain (c : Cfg) (u : Nat) : Option GrainCurve :=
  if c.fF (gcurveA u) 0 8 ≠ u then none
  else
    let w := fun (j : Nat) => sword (c.f (gcurveA u + 4 * j))
    some { fa := c.fF (gcurveA u) 16 16, fb := c.fF (gcurveA u + 4) 0 16, c := (List.range 6).map (fun i => w (2 + i)),
           dmin := w 8, dmax := w 9, dref := w 10, tmin := w 11, tmax := w 12, mmin := w 13, mmax := w 14 }

/-- The curve CURVE selects (R215). -/
def Cfg.grain (c : Cfg) (k : Nat) : Option GrainCurve :=
  if 32 ≤ k ∧ k ≤ 63 then c.userGrain k else grainBuiltin k

/-- The node frequencies of R210, in units of 10 kHz. -/
def strayN : List Nat := [100, 200, 500, 1000, 1500, 2000, 3000, 4000, 5000, 6000, 7000, 8000, 9000, 10000, 11000, 12000]

/-- The stray admittance of R210 at frequency `f`: component 0 is GS and 1 is BS. -/
def Ctg.stray (x : Ctg) (f comp : Nat) : Int :=
  let nodes := ((List.range 16).zip strayN).map (fun p => ((p.2 : Int), sext 32 (x.le (0x20 + 8 * p.1 + 4 * comp) 4)))
  (interp f nodes).getD 0

/-- De-embedding (R209): `none` where the denominator is 0. -/
def deembed (gm bm go bo rs xs : Int) : Option (Int × Int) :=
  let dr := 10 ^ 12 - (gm * rs - bm * xs)
  let di := -(gm * xs + bm * rs)
  let n := dr * dr + di * di
  if n = 0 then none
  else some (sat32 (rdivI (10 ^ 12 * (gm * dr + bm * di)) n.natAbs - go), sat32 (rdivI (10 ^ 12 * (bm * dr - gm * di)) n.natAbs - bo))

/-- 2π × 2^29, rounded (R211). -/
def twoPiQ29 : Nat := 3373259426

/-- ωC0 in nS with 16 fraction bits (R211). -/
def wC0 (f c0 : Nat) : Nat := (rdivI ((twoPiQ29 * f * c0 : Nat) : Int) 819200).natAbs

/-- One permittivity component (R211). -/
def epsOf (y ys : Int) (w : Nat) : Int := sat32 (rdivI ((y - ys) * 2 ^ 32) (max 1 w))

/-- DRIFT in ppm (R212). -/
def driftOf (bref : Int) (refN cref : Nat) : Int :=
  let q := cref * twoPiQ29 * refN
  sat32 (rdivI ((bref * 100 * 2 ^ 29 - (q : Int)) * 10 ^ 6) (max 1 q))

/-- The moisture polynomial of R218: M and RHO. -/
def moistureOf (g : GrainCurve) (e1a e1b e2b temp : Int) : Int × Int :=
  let dd := sat32 (e1a - 65536)
  let dn := max 1 dd.natAbs
  let sg : Int := if dd < 0 then -1 else 1
  let l := sat32 (rdivI (e2b * 65536 * sg) dn)
  let x := sat32 (rdivI ((e1a - e1b) * 65536 * sg) dn)
  let dT := sat32 (temp - 1638400)
  let l2 := sat32 (rdivI (l * l) 65536)
  let lt := sat32 (rdivI (l * dT) 65536)
  let s := nth 0 g.c 0 * 65536 + nth 0 g.c 1 * l + nth 0 g.c 2 * l2 + nth 0 g.c 3 * x + nth 0 g.c 4 * dT + nth 0 g.c 5 * lt
  (sat32 (rdivI s (2 ^ 24)), sat32 (rdivI (dd * 65536) (max 1 g.dref.natAbs)))

/-- QUAL (R219): the three figures are rounded and clamped separately, which gives the rounded minimum. -/
def qualOf (g : GrainCurve) (dd drift : Int) (refLim avg : Nat) (bmax bmin bavg : Int) : Int :=
  let cl := fun (x : Int) => clampI x 0 6553600
  let qf := cl (rdivI (65536 * 1000 * min (dd - g.dmin) (g.dmax - dd)) (max 1 (g.dmax - g.dmin).natAbs))
  let qr := cl (rdivI (65536 * 100 * ((refLim : Int) - (drift.natAbs : Int))) (max 1 refLim))
  let qs := if avg = 1 then 6553600
            else if bavg = 0 then (if bmax = bmin then 6553600 else cl (Config.qualZeroMean (bmax - bmin).natAbs))
            else cl (rdivI (65536 * (100 * (bavg.natAbs : Int) - 2000 * (bmax - bmin))) bavg.natAbs)
  min qf (min qr qs)

/-- Whether a cell has an accepted, answering cartridge (R225, R226). -/
def Dyn.ctgOk (d : Dyn) (n : Nat) : Bool := let x := d.ctg n; x.state == 2 && !x.absent && !x.lineFault

/-- The record a moisture cause opens (R241). -/
def cellFault (cause : Nat) : Option (Nat × Nat) :=
  if cause = 1 then some (0x6065, 2) else if cause = 2 ∨ cause = 7 then some (0x6060, 1) else if cause = 4 then some (0x6064, 2)
  else if cause = 5 then some (0x6063, 2) else if cause = 8 then some (0x6061, 1) else if cause = 9 then some (0x6062, 1)
  else if cause = 11 then some (0x6066, 1) else none

/-- A cell becomes, or stays, INVALID (R220, R221). -/
def cellInvalid (c : Cfg) (n cause : Nat) (d : Dyn) : Dyn :=
  let x := d.cell n
  let same := x.state = 3 ∧ x.cause = cause
  let d1 := d.setCell n { x with state := 3, cause := cause }
  match cellFault cause with
  | some (code, sev) => if same then d1 else d1.fault c (0x6000 + n) code sev 0 0 false false
  | none => d1

/-- The mean of a list of values (R205). -/
def meanOf (l : List Int) : Int := rdivI (l.foldl (· + ·) 0) (max 1 l.length)

/-- The nine averaged components of the collected sweeps: spots then reference. -/
def avgCol (got : List SweepRec) (useB : Bool) (i : Nat) : Int :=
  meanOf (got.map (fun r => nth 0 (if useB then r.bs else r.gs) i))

/-- The terms of calibration entry `k` of the module's own set, 0 where its flag is clear (R209). -/
def Cfg.calTerm (c : Cfg) (n st k j : Nat) : Int :=
  if (if j < 2 then c.calOpen n st else c.calShort n st) then sword (c.f (calA n st k j)) else 0

/-- De-embed column `i` of the average with entry `k`. -/
def deembedAt (c : Cfg) (n st : Nat) (got : List SweepRec) (i k : Nat) : Option (Int × Int) :=
  deembed (avgCol got false i) (avgCol got true i) (c.calTerm n st k 0) (c.calTerm n st k 1) (c.calTerm n st k 2) (c.calTerm n st k 3)

/-- The index of the spot at frequency `f` (R215). -/
def Cfg.spotAt (c : Cfg) (n f : Nat) : Option Nat := (List.range (c.cellK n)).find? (fun k => c.cellSpotN n k == f)

/-- The RTD result a moisture result may use: valid and at most 100 ms old (R207). -/
def Cell.usableRtd (x : Cell) (ms : Nat) : Option Int := if ms ≤ x.rtdAt + 100 then x.rtd else none

/-- The figures of the latest result (R209 to R212, R229, R238): they stand whatever the verdict. Where the data gives none, a free value (log entry 84). -/
def cellFigures (c : Cfg) (n a b : Nat) (de : List (Option (Int × Int))) (t : Ctg) (x : Cell) : Cell :=
  let kk := c.cellK n
  let free : Nat → Int := Config.cellFigureFree n x.sweeps
  let c0 := t.le 0xC 4
  let ys := (de.zipIdx).map (fun q => q.1.getD (free (2 * q.2), free (2 * q.2 + 1)))
  let eps : Nat → Int → Int → Int := fun i y s => if c0 = 0 then free (32 + i) else epsOf y s (wC0 (c.cellSpotN n (i / 2)) c0)
  let drift := if t.le 0x10 4 = 0 then free 64 else driftOf (nth (0, 0) ys kk).2 (c.cellRefN n) (t.le 0x10 4)
  { x with drift := drift, resA := a, resB := b, expired := t.expired
           eps1 := (List.range kk).map (fun k => eps (2 * k) (nth (0, 0) ys k).2 (t.stray (c.cellSpotN n k) 1))
           eps2 := (List.range kk).map (fun k => eps (2 * k + 1) (nth (0, 0) ys k).1 (t.stray (c.cellSpotN n k) 0))
           g := (ys.take kk).map (·.1), b := (ys.take kk).map (·.2), gref := (nth (0, 0) ys kk).1, bref := (nth (0, 0) ys kk).2 }

/-- MOISTURE_RESULT (R205, R209 to R220). `st` is the module's own calibration set. -/
def moistureResult (c : Cfg) (n st : Nat) (got : List SweepRec) (d : Dyn) : Dyn :=
  let x0 := { d.cell n with got := [], ctgChange := false }
  let change := (d.cell n).ctgChange
  let d0 := d.setCell n x0
  let kk := c.cellK n
  let de := (List.range (kk + 1)).map (fun i => deembedAt c n st got i (if i = kk then 8 else i))
  match c.grain (c.cellCurve n) with
  | none => d0
  | some g =>
    let a := (c.spotAt n g.fa).getD 0
    let b := (c.spotAt n g.fb).getD 0
    let x1 := cellFigures c n a b de (d.ctg n) x0
    let d1 := d0.setCell n x1
    if got.any (·.drive) then cellInvalid c n 1 d1
    else if got.any (·.ovf) || de.any (·.isNone) then cellInvalid c n 2 d1
    else if change || !d.ctgOk n then cellInvalid c n 3 d1
    else match x0.usableRtd d.ms with
    | none => cellInvalid c n 4 d1
    | some temp =>
      let dd := sat32 (nth 0 x1.eps1 a - 65536)
      if (c.cellRefLim n : Int) < (x1.drift.natAbs : Int) then cellInvalid c n 5 d1
      else if dd < g.dmin then cellInvalid c n 6 d1
      else if g.dmax < dd then cellInvalid c n 7 d1
      else
        let mr := moistureOf g (nth 0 x1.eps1 a) (nth 0 x1.eps1 b) (nth 0 x1.eps2 b) temp
        if temp < g.tmin ∨ g.tmax < temp then cellInvalid c n 8 d1
        else if mr.1 < g.mmin ∨ g.mmax < mr.1 then cellInvalid c n 9 d1
        else
          let bs := got.map (fun r => nth 0 r.bs a)
          let q := qualOf g dd x1.drift (c.cellRefLim n) (c.cellAvg n) (bs.foldl max (nth 0 bs 0)) (bs.foldl min (nth 0 bs 0)) (avgCol got true a)
          let x2 := { x1 with state := 1, cause := 0, m := mr.1, rho := mr.2, temp := temp, qual := q, at_ := d.ms, staleRec := false }
          (d1.setCell n x2).clears (0x6000 + n) [0x6060, 0x6061, 0x6062, 0x6063, 0x6064, 0x6065, 0x6066]

/-- What Sage resolves of a cell (R204, R215): the indices a and b, and the sweep length. -/
def cellResolve (c : Cfg) (n : Nat) (sweepUs : Nat) (d : Dyn) : Dyn :=
  let at_ : (GrainCurve → Nat) → Nat := fun f => ((c.grain (c.cellCurve n)).bind (fun g => c.spotAt n (f g))).getD 0
  d.setCell n { d.cell n with resA := at_ (·.fa), resB := at_ (·.fb), sweepUs := sweepUs }

/-- The words whose change at a sweep start discards the average (R205): SWEEP_AVG, DRIVE and the calibration values. -/
def Cfg.planWords (c : Cfg) (n : Nat) : List Nat :=
  [c.cellAvg n, c.fF (cellA n + 8) 16 2, (c.f (cellA n + 0x160)).toNat] ++ (upFrom 0 72).map (fun i => (c.f (cellA n + 0x40 + 4 * i)).toNat)

/-- The sweep length in µs (R204). -/
def Cfg.sweepUs (c : Cfg) (n : Nat) : Nat := (List.range (c.cellK n)).foldl (fun a k => a + 100 + 1000 * c.cellDwell n k) 0 + 1100

/-- SWEEP_START (R204, R205, R213, R225): the words come into force, a waiting calibration or CAL_CLEAR begins here. On a STANDBY the sweep is the ACTIVE's,
whose average runs until its result is mirrored (R231). -/
def sweepStart (st n : Nat) (s : State) : State :=
  let x := s.d.cell n
  let r0 := s.c.reg.load (cellA n) 0x60
  let u := fld (tget 0 r0.w (cellA n)) 8 8
  let c1 : Cfg := { s.c with reg := if 32 ≤ u ∧ u < 64 then r0.load (gcurveA u) 16 else r0 }
  let c2 : Cfg := if x.calClear then
      let v := c1.w (cellA n + 0x160)
      { c1 with reg := c1.reg.putB (cellA n + 0x160) (mix v 0 (maskAt (8 * st) 2)) }
    else c1
  let keep := x.plan == c2.planWords n
  let cal := x.cal.map (fun k => { k with started := true, got := if k.started then k.got else [] })
  let x1 := { x with sweeping := true, dropSweep := false, got := if keep then x.got else [], plan := c2.planWords n, calClear := false
                     cal := cal, ctgChange := x.ctgChange && keep && x.got != [] }
  let d1 := cellResolve c2 n (c2.sweepUs n) (s.d.setCell n x1)
  let d2 := if c2.calOpen n st && c2.calShort n st then d1.clears (0x6000 + n) [0x6067] else d1
  { s with c := c2, d := if cal.isSome then cellInvalid c2 n 10 d2 else d2 }

/-- A calibration term as stored (R213): a value beyond 32 bits, or none, is a free value (log entry 84). -/
def calStored (n e w : Nat) (x : Option Int) : Word :=
  match x with
  | some v => if sat32 v = v then wordOf v else Config.calTermFree n e w
  | none => Config.calTermFree n e w

/-- The pair of terms that 16 averaged sweeps give entry `e` (R213): none for an entry without a spot, and none for the short of an admittance of 0. -/
def calPair (c : Cfg) (n e : Nat) (k : CalRun) : Option (Int × Int) :=
  let kk := c.cellK n
  if e ≠ 8 ∧ kk ≤ e then none
  else
    let i := if e = 8 then kk else e
    let gm := avgCol k.got false i
    let bm := avgCol k.got true i
    if k.kind = 1 then some (gm, bm)
    else
      let q := gm * gm + bm * bm
      if q = 0 then none else some (rdivI (10 ^ 12 * gm) q.natAbs, rdivI (-(10 ^ 12 * bm)) q.natAbs)

/-- CAL_DONE (R213): the terms of every entry of the module's own set, its flag and CAL_TIME. -/
def calDone (st n : Nat) (k : CalRun) (s : State) : State :=
  let j := if k.kind = 1 then 0 else 2
  let pair : Nat → Option (Int × Int) := fun e => calPair s.c n e k
  let r1 := forEach (List.range 9) s.c.reg (fun e r =>
    (r.putB (calA n st e j) (calStored n e j ((pair e).map (·.1)))).putB (calA n st e (j + 1)) (calStored n e (j + 1) ((pair e).map (·.2))))
  let v := tget 0 r1.w (cellA n + 0x160)
  let r2 := r1.putB (cellA n + 0x160) (v ||| BitVec.ofNat 32 (2 ^ (8 * st + (k.kind - 1))))
  let t := s.d.tim.net
  let r3 := (r2.putB (cellA n + 0x168 + 8 * st) (BitVec.ofNat 32 t)).putB (cellA n + 0x16C + 8 * st) (BitVec.ofNat 32 (t / 2 ^ 32))
  let c' : Cfg := { s.c with reg := r3 }
  let x := s.d.cell n
  let d1 := s.d.setCell n { x with cal := none, got := [], state := 3, cause := 12, plan := c'.planWords n }
  let d2 := d1.event (0x6000 + n) 0x6068 0 st (c'.f (calA n st 0 j)).toNat
  { s with c := c', d := if c'.calOpen n st && c'.calShort n st then d2.clears (0x6000 + n) [0x6067] else d2 }

/-- SWEEP_COMPLETE (R204, R205, R213). -/
def sweepComplete (st n : Nat) (m : SweepMeas) (s : State) : State :=
  let x := s.d.cell n
  let run := s.d.glb.st == .run || s.d.glb.st == .safe
  if !x.sweeping || !s.c.cellEn n || s.d.standby || !run then s
  else
    let x1 := { x with sweeping := false, sweeps := (x.sweeps + 1) % 2 ^ 32 }
    let r : SweepRec := { gs := m.gs.take (s.c.cellK n) ++ [m.gref], bs := m.bs.take (s.c.cellK n) ++ [m.bref], drive := m.drive, ovf := m.ovf }
    if x.dropSweep then { s with d := s.d.setCell n { x1 with dropSweep := false } }
    else match x.cal with
    | some { kind := kind, got := l, started := true } =>
      let k1 : CalRun := { kind := kind, got := l ++ [r], started := true }
      if 16 ≤ k1.got.length then calDone st n k1 { s with d := s.d.setCell n x1 }
      else { s with d := s.d.setCell n { x1 with cal := some k1 } }
    | _ =>
      -- a calibration command that waits leaves the sweep under way as it is (R230)
      let got := x.got ++ [r]
      if s.c.cellAvg n ≤ got.length then { s with d := moistureResult s.c n st got (s.d.setCell n x1) }
      else { s with d := s.d.setCell n { x1 with got := got } }

/-- RTD_CONVERSION (R207): the code of the ratiometric conversion against 4,000 Ω, the sense level in µV and the
compliance mark. The standby's own result is not used (R231). -/
def rtdConversion (c : Cfg) (n : Nat) (raw sense : Int) (compliance : Bool) (d : Dyn) : Dyn :=
  if !c.cellEn n || d.standby || d.glb.st == .dormant || d.glb.st == .boot then d
  else
    let p1 := rdivI (((d.ctg n).le 0x14 4 : Nat) * 65536) 1000
    let t := if compliance ∨ sense < 25000 ∨ 2450000 < sense then none else ptTemp (qOhm raw 0 262144000) p1
    match t with
    | some v => d.setCell n { d.cell n with rtd := some v, rtdAt := d.ms }
    | none => d

/-- The stale limit of a cell in ms (R221). -/
def cellStaleLimit (c : Cfg) (n : Nat) : Nat :=
  if c.cellStale n ≠ 0 then c.cellStale n * 100 else (4 * c.cellPer n * c.cellAvg n + 99) / 100 * 100

/-- CELL_STALE (R221, R241): beyond the limit the record is raised, once until a valid result, and the cell is INVALID with cause STALE; NO_RESULT stands
until the first result (R206) and CAL until the calibration ends (R213). -/
def cellStaleEv (c : Cfg) (n : Nat) (d : Dyn) : Dyn :=
  let x := d.cell n
  let run := d.glb.st == .run || d.glb.st == .safe
  if c.cellEn n && run && decide (cellStaleLimit c n < d.ms - x.at_) then
    let keep := x.state = 0 ∨ (x.state = 3 ∧ (x.cause = 10 ∨ x.cause = 12))
    let d1 := d.setCell n { x with state := if keep then x.state else 3, cause := if keep then x.cause else 11, staleRec := true }
    if x.staleRec then d1 else d1.fault c (0x6000 + n) 0x6066 1 0 0 false false
  else d

/-- The refusal of an MST_CCMD command (R213, R237): 0 where it is accepted. -/
def calCode (c : Cfg) (d : Dyn) (n : Nat) (calib : Bool) : Nat :=
  if (d.cell n).cal.isSome then 0x6046 else if d.standby then 0x600D else if !c.cellEn n then 0x6003
  else if calib && (d.ctg n).state != 0 then 0x6044 else 0

/-- CAL_OPEN and CAL_SHORT: the calibration starts at the next sweep start (R213, R230). -/
def calCmd (c : Cfg) (n kind : Nat) (d : Dyn) : Dyn :=
  if c.fx.nCells ≤ n then d
  else
    let code := calCode c d n true
    let x := d.cell n
    if code = 0 then d.setCell n { x with calResult := 0, cal := some { kind := kind + 1, got := [], started := false } }
    else d.setCell n { x with calResult := code }

/-- CAL_CLEAR: both flags of the own set are cleared at the next sweep start (R237). -/
def calClearCmd (c : Cfg) (n : Nat) (d : Dyn) : Dyn :=
  if c.fx.nCells ≤ n then d
  else
    let code := calCode c d n false
    d.setCell n { d.cell n with calResult := code, calClear := (d.cell n).calClear || code == 0 }

/-- Whether the identity line of a cell runs: cell enabled, module not STANDBY, RUN or SAFE (R225, R231). -/
def ctgRuns (c : Cfg) (d : Dyn) (n : Nat) : Bool :=
  c.cellEn n && !d.standby && c.img.ok && (d.glb.st == .run || d.glb.st == .safe)

/-- Start the next transaction of the line: INCR, WRITE, full read, poll (R224). -/
def ctgNext (c : Cfg) (n : Nat) (d : Dyn) : Dyn :=
  let x := d.ctg n
  if !ctgRuns c d n || x.lineFault || x.tx.isSome then d
  else
    let mk := fun (k r : Nat) => some ({ kind := k, row := r, attempts := 0, data := [], stale := false } : CtgTx)
    if x.wantIncr && x.retryAt.isNone && x.state == 2 then d.setCtg n { x with tx := mk 1 0x100 }
    else if x.wantRows ≠ [] ∧ x.retryAt.isNone ∧ x.state = 2 then d.setCtg n { x with tx := mk 2 (x.wantRows.headD 0x110) }
    else if x.wantRead then d.setCtg n { x with tx := mk 3 0, wantRead := false }
    else if x.wantPoll then d.setCtg n { x with tx := mk 4 0, wantPoll := false }
    else d

/-- Queue a full read (R225); `reading` says that the cell reads as not accepted until it ends. -/
def ctgRead (c : Cfg) (n : Nat) (reading : Bool) (d : Dyn) : Dyn :=
  let x := d.ctg n
  ctgNext c n (d.setCtg n { x with wantRead := true, state := if reading then 1 else x.state })

/-- The cartridge becomes absent (R225). -/
def ctgAbsent (c : Cfg) (n : Nat) (d : Dyn) : Dyn :=
  let x := d.ctg n
  let d1 := d.setCtg n { x with state := 0, absent := true, reason := 0x7060 }
  let d2 := if x.state = 0 ∧ x.absent then d1 else d1.fault c (0x7000 + n) 0x7060 2 0 0 false false
  if (d2.cell n).cal.isSome then d2 else cellInvalid c n 3 d2

/-- A changed cartridge (R225, R228): the average, a sweep under way, the accumulator and the pending quarters are
discarded and a full read starts; a transaction under way is discarded with it (R230). -/
def ctgChanged (c : Cfg) (n : Nat) (d : Dyn) : Dyn :=
  let x := d.ctg n
  let y := d.cell n
  let d1 := d.setCell n { y with got := [], dropSweep := y.sweeping, ctgChange := y.sweeping }
  let d2 := d1.setCtg n { x with absent := false, acc := 0, pend := 0, wantIncr := false, wantRows := [], retryAt := none, consec := 0
                                 discarded := x.acc + 900000 * x.pend, tx := none, state := 1, wantRead := true }
  cellInvalid c n 3 d2

/-- The checks of R226 on a full read: 0, or the code that refuses the cartridge. -/
def ctgCheck (c : Cfg) (n : Nat) (x : Ctg) : Nat :=
  if x.bytes 0 4 ≠ [0x5A, 0x43, 0x54, 0x01] ∨ x.le 0xFC 4 ≠ crc32c (x.bytes 0 0xFC) then 0x7061
  else if ¬ (1 ≤ x.le 0xA 1 ∧ x.le 0xA 1 ≤ 4) ∨ x.le 0xB 1 ≠ 1 ∨ ¬ (1000 ≤ x.le 0xC 4 ∧ x.le 0xC 4 ≤ 50000)
      ∨ ¬ (1000 ≤ x.le 0x10 4 ∧ x.le 0x10 4 ≤ 20000) ∨ ¬ (900000 ≤ x.le 0x14 4 ∧ x.le 0x14 4 ≤ 1100000) ∨ x.le 0x18 4 < 1
      ∨ x.le 0x1C 4 ≠ 0 ∨ (x.bytes 0xA0 92).any (· != 0) then 0x7061
  else if ¬ (c.cellAccept n).testBit (x.le 0xA 1) then 0x7062 else 0

/-- Life limits after USED_LIFE changed (R229). -/
def ctgLife (c : Cfg) (n : Nat) (d : Dyn) : Dyn :=
  let x := d.ctg n
  let warn := decide (90 ≤ x.lifePct)
  let exp := decide (x.le 0x18 4 ≤ x.le 0x100 4)
  let d1 := if warn && !x.lifeWarn then (d.setCtg n { x with lifeWarn := true, reason := 0x7063 }).fault c (0x7000 + n) 0x7063 1 0 0 false false else d
  if exp && !x.expired then
    (d1.setCtg n { d1.ctg n with expired := true, reason := 0x7064 }).fault c (0x7000 + n) 0x7064 2 0 0 false false
  else d1

/-- FULL_READ (R225 to R229): accept or refuse the cartridge; a newly installed one gets its rows and CTG_REPLACED, whose data are the low halves of the old
and the new serial and the flow discarded, in ms (log entry 36). -/
def fullRead (c : Cfg) (partner : Nat) (n : Nat) (bytes : List Byte) (d : Dyn) : Dyn :=
  let x := d.ctg n
  let x1 := ({ x with tx := none, mem := [] } : Ctg).write 0 bytes
  let code := ctgCheck c n x1
  if code ≠ 0 then
    let d1 := (d.setCtg n { x with tx := none, state := 3, reason := code }).fault c (0x7000 + n) code 2 0 0 false false
    cellInvalid c n 3 d1
  else
    let serial := x1.le 4 6
    let newIn := (x1.le 0x110 8 ≠ c.fx.id ∧ ¬ (c.img.pairOn ∧ x1.le 0x110 8 = partner)) ∨ x1.le 0x12C 4 ≠ crc32c (x1.bytes 0x110 0x1C)
    let badCrc := x1.le 0x12C 4 ≠ crc32c (x1.bytes 0x110 0x1C)
    let cnt := if badCrc then 1 else min 255 (x1.le 0x121 1 + 1)
    let x2 := if newIn then
        let y := (((x1.write 0x110 (leBytes 8 c.fx.id)).write 0x118 (leBytes 8 d.tim.net)).write 0x120
          (leBytes 1 d.tim.epoch ++ leBytes 1 cnt ++ [0, 0] ++ leBytes 4 0))
        let z := y.write 0x12C (leBytes 4 (crc32c (y.bytes 0x110 0x1C)))
        { z with wantRows := [0x110, 0x120] }
      else x1
    -- the flags of the same cartridge stand; what they report is raised once (R229)
    let same := serial = x.serial
    let x3 := { x2 with state := 2, absent := false, serial := serial, reason := if newIn then 0x7065 else x.reason, discarded := 0
                        lifeWarn := x.lifeWarn && decide (same ∧ 90 ≤ x2.lifePct), expired := x.expired && decide (same ∧ x2.le 0x18 4 ≤ x2.le 0x100 4) }
    let y := d.cell n
    -- sweeps that began under other constants are no part of an average with these (R225)
    let new := x1.bytes 0 0x100 ≠ x.bytes 0 0x100
    let d1 := (d.setCtg n x3).setCell n (if new then { y with got := [], dropSweep := y.sweeping } else y)
    let d2 := if newIn then d1.event (0x7000 + n) 0x7065 0 (x.serial % 2 ^ 16 * 2 ^ 16 + serial % 2 ^ 16) (x.discarded % 2 ^ 32) else d1
    let d3 := d2.clears (0x7000 + n) ([0x7060, 0x7061, 0x7062, 0x7067] ++ (if 90 ≤ x3.lifePct then [] else [0x7063])
      ++ (if x3.le 0x18 4 ≤ x3.le 0x100 4 then [] else [0x7064]))
    ctgLife c n d3

/-- A failed transaction of three attempts (R224, R225, R228). -/
def ctgTxFail (c : Cfg) (n : Nat) (t : CtgTx) (d : Dyn) : Dyn :=
  let x := d.ctg n
  let d0 := d.setCtg n { x with tx := none }
  if 3 ≤ t.kind then ctgAbsent c n d0
  else
    let k := x.consec + 1
    let d1 := d0.setCtg n { d0.ctg n with consec := k, retryAt := some (d.ms + (if 10 ≤ k then 60000 else 1000)) }
    if k = 10 then (d1.setCtg n { d1.ctg n with reason := 0x7066 }).fault c (0x7000 + n) 0x7066 2 0 0 false false else d1

/-- ID_ATTEMPT_FAIL (R224): the attempt is repeated at once, at most twice. -/
def idFail (c : Cfg) (n : Nat) (d : Dyn) : Dyn :=
  let x := d.ctg n
  match x.tx with
  | none => d
  | some t =>
    let d1 := d.setCtg n { x with fails := satInc 16 x.fails, tx := some { t with attempts := t.attempts + 1 } }
    if 2 ≤ t.attempts then ctgNext c n (ctgTxFail c n t d1) else d1

/-- The data length a transaction expects (R224, R225). -/
def txLen (t : CtgTx) : Nat := match t.kind with | 1 => 4 | 2 => 0 | 3 => if t.row < 0x120 then 32 else 16 | _ => 6

/-- A good answer to the transaction `t` (R225 to R228). -/
def idGood (c : Cfg) (partner : Nat) (n : Nat) (t : CtgTx) (data : List Byte) (d : Dyn) : Dyn :=
  let x := d.ctg n
  match t.kind with
  | 1 =>
    let y := (({ x with tx := none, pend := x.pend - 1, wantIncr := decide (1 < x.pend), consec := 0, retryAt := none } : Ctg).write 0x100 data)
    let y1 := y.write 0x124 (leBytes 4 (u32 (d.cell n).drift))
    let y2 := y1.write 0x12C (leBytes 4 (crc32c (y1.bytes 0x110 0x1C)))
    ctgLife c n ((d.setCtg n { y2 with wantRows := if x.wantRows.contains 0x120 then x.wantRows else x.wantRows ++ [0x120] }).clears (0x7000 + n) [0x7066])
  | 2 => d.setCtg n { x with tx := none, wantRows := x.wantRows.filter (· ≠ t.row), consec := 0 }
  | 3 =>
    let all := t.data ++ data
    if t.row + 32 < 0x130 then d.setCtg n { x with tx := some { t with row := t.row + 32, data := all, attempts := 0 } }
    else fullRead c partner n all d
  | _ =>
    let d0 := d.setCtg n { x with tx := none }
    if x.absent || x.state == 0 || leNat data != x.serial then ctgChanged c n d0 else d0

/-- ID_RESPONSE (R224): STATUS, data and CRC-32C. A wrong CRC, a wrong length or a STATUS other than done fails the
attempt. An answer while a calibration runs abandons it (R213). An answer after an absence counts as a change (R225). -/
def idResponse (c : Cfg) (partner : Nat) (n : Nat) (bytes : List Byte) (d : Dyn) : Dyn :=
  match (d.ctg n).tx with
  | none => d
  | some t =>
    let len := txLen t
    let body := bytes.take (1 + len)
    let ok := bytes.length = 5 + len ∧ leNat (bytes.drop (1 + len)) = crc32c body ∧ bytes.headD 1 = 0
    if ¬ ok then idFail c n d
    else
      let y := d.cell n
      let d0 := if y.cal.isSome then d.setCell n { y with cal := none, calResult := 0x6044, cause := if y.cause = 10 then 12 else y.cause } else d
      if (d0.ctg n).absent ∧ t.kind ≠ 3 then ctgNext c n (ctgChanged c n d0)
      else
        let x := d0.ctg n
        let d1 := if x.absent then d0.setCtg n { x with absent := false, acc := 0, pend := 0, wantIncr := false, wantRows := [], retryAt := none, consec := 0,
                                                        discarded := x.acc + 900000 * x.pend } else d0
        ctgNext c n (idGood c partner n t (body.drop 1) d1)

/-- PRESENCE_POLL (R225). -/
def presencePoll (c : Cfg) (n : Nat) (d : Dyn) : Dyn :=
  if ctgRuns c d n then ctgNext c n (d.setCtg n { d.ctg n with wantPoll := true }) else d

/-- FLOW_QUARTER (R228): at 900,000 ms a quarter is taken off and an INCR issued; further quarters wait. -/
def flowQuarter (c : Cfg) (n : Nat) (d : Dyn) : Dyn :=
  let x := d.ctg n
  if x.acc < 900000 ∨ ¬ c.cellEn n then d
  else ctgNext c n (d.setCtg n { x with acc := x.acc - 900000, pend := min 255 (x.pend + 1), wantIncr := true })

/-- INCR_RETRY (R228). -/
def incrRetry (c : Cfg) (n : Nat) (d : Dyn) : Dyn :=
  let x := d.ctg n
  match x.retryAt with
  | some t => if t ≤ d.ms then ctgNext c n (d.setCtg n { x with retryAt := none }) else d
  | none => d

/-- CTG_CMD.REREAD (R240). -/
def reread (c : Cfg) (n : Nat) (d : Dyn) : Dyn :=
  if c.fx.nCells ≤ n then d
  else if d.standby then d.setCtg n { d.ctg n with result := 0x700D }
  else ctgRead c n true (d.setCtg n { d.ctg n with result := 0 })

/-- CTG_LINE_FAULT (R242): transactions are suspended and the cell is INVALID with cause CTG. -/
def ctgLineFault (c : Cfg) (n : Nat) (d : Dyn) : Dyn :=
  if !c.cellEn n || d.standby then d
  else
    let x := d.ctg n
    let d1 := (d.setCtg n { x with lineFault := true, tx := none, reason := 0x7067, wantRead := true }).fault c (0x7000 + n) 0x7067 2 0 0 false false
    cellInvalid c n 3 d1

/-- CTG_LINE_RECOVERED: transactions resume with a full read (R242). -/
def ctgLineOk (c : Cfg) (n : Nat) (d : Dyn) : Dyn :=
  let x := d.ctg n
  if x.lineFault then ctgRead c n true (d.setCtg n { x with lineFault := false }) else d

/-- FLOW_ACCUMULATE: one millisecond while the flow condition holds (R228). `dioOn` and `unitRunning` answer for the
objects FLOW_REF names. -/
def flowAccumulate (c : Cfg) (dioOn unitRunning : Nat → Bool) (n : Nat) (d : Dyn) : Dyn :=
  if !c.cellEn n then d
  else
    let y := d.cell n
    let on := if c.cellFlowKind n = 0 then !(y.state == 3 && (y.cause == 6 || y.cause == 7 || y.cause == 3 || y.cause == 10))
              else if c.cellFlowKind n = 1 then dioOn (c.cellFlowRef n) else unitRunning (c.cellFlowRef n)
    let x := d.ctg n
    if on then d.setCtg n { x with acc := min (x.acc + 1) (2 ^ 20 - 1) } else d

/-- CELL_UNCALIBRATED at an enable (R214, R241). -/
def cellUncal (c : Cfg) (st n : Nat) (d : Dyn) : Dyn :=
  if c.calOpen n st && c.calShort n st then d.setCell n { d.cell n with uncalRaised := false }
  else (d.setCell n { d.cell n with uncalRaised := true }).fault c (0x6000 + n) 0x6067 1 0 0 false false

/-- Entry to RUN or SAFE with configuration (R206, R225): every enabled cell is INVALID with NO_RESULT, a calibration that runs apart, and reads its
cartridge. A STANDBY has its cartridges from the mirror (R231). -/
def cellEntry (c : Cfg) (n : Nat) (d : Dyn) : Dyn :=
  if !c.cellEn n then d
  else
    let y := d.cell n
    let cal := y.cal.any (·.started)
    let d1 := d.setCell n { y with state := 3, cause := if cal then 10 else 12, got := [], sweeping := false, dropSweep := false }
    if d.standby then d1 else ctgRead c n true d1

/-- The cells and cartridge units stop (R206, R224, R230): in DORMANT no sweep and no transaction runs. -/
def cellsStop (d : Dyn) : Dyn :=
  { d with mst := { d.mst with cells := d.mst.cells.map (fun q => (q.1, { q.2 with sweeping := false, dropSweep := false, got := [] }))
                               ctgs := d.mst.ctgs.map (fun q => (q.1, { q.2 with tx := none })) } }

/-- A module leaves the ACTIVE role (R230, R231): averages, transactions and calibrations are abandoned, and everything else comes from the mirror. -/
def cellsOff (d : Dyn) : Dyn :=
  let d1 := cellsStop d
  { d1 with mst := { d1.mst with cells := d1.mst.cells.map (fun q => (q.1, { q.2 with cal := none, calClear := false }))
                                 ctgs := d1.mst.ctgs.map (fun q => (q.1, { q.2 with wantRead := false, wantPoll := false })) } }

end Sys2Proof.Machine
end

