-- ==== Sys2Proof/Machine/Column.lean ====
section
/-! DEFINITION. The column model (R243 to R267, R274). -/

namespace Sys2Proof.Machine

open Sys2Proof

def colA (c : Nat) : Nat := 0x160000 + c * 0x1000

/-- Word `j` of zone `z` of column `n`. -/
def zoneA (n z j : Nat) : Nat := colA n + 0x400 + 0x10 * z + 4 * j

/-- Drying table `t` (R271). -/
def dtabA (t : Nat) : Nat := 0x164000 + t * 0x800

def Cfg.colEn (c : Cfg) (n : Nat) : Bool := decide (n < c.fx.nCols) && c.bF (colA n) 0
def Cfg.colBatch (c : Cfg) (n : Nat) : Bool := c.bF (colA n) 1
def Cfg.colZones (c : Cfg) (n : Nat) : Nat := c.fF (colA n) 8 7
def Cfg.colParcels (c : Cfg) (n : Nat) : Nat := c.fF (colA n) 16 13
def Cfg.colStep (c : Cfg) (n : Nat) : Nat := c.fF (colA n + 4) 0 16
def Cfg.colPhase (c : Cfg) (n : Nat) : Nat := c.fF (colA n + 4) 16 16
def Cfg.colW (c : Cfg) (n o : Nat) : Int := ((c.f (colA n + o)).toNat : Int)
def Cfg.colS (c : Cfg) (n o : Nat) : Int := sword (c.f (colA n + o))
def Cfg.colInlet (c : Cfg) (n : Nat) : Nat := c.fF (colA n + 0x3C) 0 8
def Cfg.colDis (c : Cfg) (n : Nat) : Nat := c.fF (colA n + 0x3C) 8 8
def Cfg.colQualMin (c : Cfg) (n : Nat) : Nat := c.fF (colA n + 0x3C) 16 8
def Cfg.colEntryHold (c : Cfg) (n : Nat) : Nat := c.fF (colA n + 0x40) 0 16
def Cfg.colOlDelay (c : Cfg) (n : Nat) : Nat := c.fF (colA n + 0x34) 16 16
def Cfg.zoneType (c : Cfg) (n z : Nat) : Nat := c.fF (zoneA n z 0) 0 8
def Cfg.zoneTable (c : Cfg) (n z : Nat) : Nat := c.fF (zoneA n z 0) 8 8
def Cfg.zoneCap (c : Cfg) (n z : Nat) : Int := ((c.f (zoneA n z 1)).toNat : Int)
def Cfg.zoneH (c : Cfg) (n z : Nat) : Int := ((c.f (zoneA n z 3)).toNat : Int)

/-- BOT_z: the lower boundary of a zone (R243). -/
def Cfg.colBot (c : Cfg) (n z : Nat) : Int := (List.range (z + 1)).foldl (fun a j => a + c.zoneCap n j) 0

/-- The column capacity CAP. -/
def Cfg.colCap (c : Cfg) (n : Nat) : Int := (List.range (c.colZones n)).foldl (fun a j => a + c.zoneCap n j) 0

/-- The parcel mass P_MASS. -/
def Cfg.colP (c : Cfg) (n : Nat) : Int := c.colW n 8

def ColCore.empty : ColCore :=
  { kappa := 65536, carry := 0, inMass := 0, inSum := 0, fill := 0, seq := 0, parcels := [], head := 0, deps := [], depPos := 0,
    zones := [], lastTa := [], edgeZones := [], edge := 0, resid := 0, pred := 0, temp := 0, ttt := 0, unknownPct := 0, bad := 0,
    lastIn := none, startedMs := 0 }

def Col.empty : Col :=
  { core := ColCore.empty, shown := [], shownHead := 0, stepMs := 0, prevMs := 0,
    taken := { restart := false, clear := false, kReset := false, kWrite := none, qual := none }, work := none, done := false, hasStep := false, state := 0, cause := 0, first := true, skipped := 0, consec := 0,
    late := 0, steps := 0, qual := none, seenAt := 0, qualMs := 0, openLoop := false, inletMs := 0, inletLost := false, restart := false,
    clear := false, kReset := false, kWrite := none, cmdResult := 0, reason := 0 }

def Dep.empty : Dep := { leave := 0, pred := 0, seq := 0, unknown := false, used := false, est := false, resid := none }
def ZoneCond.empty : ZoneCond := { ta := 0, rh := 0, k := 0, me := 0 }

def Dyn.col (d : Dyn) (n : Nat) : Col := tget Col.empty d.cols n
def Dyn.setCol (d : Dyn) (n : Nat) (x : Col) : Dyn := { d with cols := tput Col.empty d.cols n x }

/-- The input reference a word holds: KIND and INDEX (R245). -/
def refOf (w : Word) : Nat × Nat := (fld w 0 8, fld w 16 16)

/-- The source kind of R280 that a column input KIND of R245 names: a channel, a cell's grain temperature, a mover's speed, a loop's
output. -/
def colKind : Nat → Nat
  | 1 => 1
  | 2 => 3
  | 3 => 5
  | 4 => 6
  | _ => 0

/-- decay(a) of R254, unsigned Q2.30. From an exponent of 64 on the exact value is below 2^-62 and rounds to 0. -/
def decay (a : Int) : Int := if 2 ^ 46 ≤ a then 0 else rdivI (expFix (-a) (2 ^ 40)) (2 ^ 226)

/-- u(T) of R253, Q8.24. -/
def magnusU (t : Int) : Int :=
  let den := 100 * t + 1593311232
  rdivI (1762 * 2 ^ 24 * t * (if den < 0 then -1 else 1)) (max 1 den.natAbs)

/-- RH of heated air (R253), Q16.16 %. Beyond an exponent of ±64 the product is 0, 100 % or, for a negative ambient humidity,
below every 32-bit value. -/
def heatedRh (rhAmb tAmb tZone : Int) : Int :=
  let g := magnusU tAmb - magnusU tZone
  if g < -(2 ^ 30) then 0
  else if 2 ^ 30 < g then (if rhAmb = 0 then 0 else if rhAmb < 0 then -(2 ^ 31) else 6553600)
  else max (-(2 ^ 31)) (min 6553600 (rdivI (rhAmb * expFix g (2 ^ 24)) (2 ^ 256)))

/-- The largest index below `n` whose node is at or below `x` (0 where none is). -/
def nodeIndex (node : Nat → Int) (x : Int) : Nat → Nat
  | 0 => 0
  | k + 1 => if node (k + 1) ≤ x then k + 1 else nodeIndex node x k

/-- k and Me of a table at (Ta, RH), and whether a coordinate was clamped (R252). -/
def tableAt (c : Cfg) (t : Nat) (ta rh : Int) : Int × Int × Bool :=
  let tn := fun (i : Nat) => sword (c.f (dtabA t + 16 + 4 * i))
  let hn := fun (j : Nat) => sword (c.f (dtabA t + 80 + 4 * j))
  let x := clampI ta (tn 0) (tn 15)
  let y := clampI rh (hn 0) (hn 7)
  let i := nodeIndex tn x 14
  let j := nodeIndex hn y 6
  let dx := tn (i + 1) - tn i
  let ux := x - tn i
  let dy := hn (j + 1) - hn j
  let uy := y - hn j
  let v := fun (o i j : Nat) => sword (c.f (dtabA t + o + 4 * (8 * i + j)))
  let ip := fun (o : Nat) =>
    rdivI (v o i j * (dx - ux) * (dy - uy) + v o (i + 1) j * ux * (dy - uy) + v o i (j + 1) * (dx - ux) * uy + v o (i + 1) (j + 1) * ux * uy)
      (max 1 (dx * dy).natAbs)
  (ip 112, ip 624, x != ta || y != rh)

/-- The zone a midpoint lies in (R247). -/
def Cfg.zoneAt (c : Cfg) (n : Nat) (mid : Int) : Nat :=
  ((List.range (c.colZones n)).find? (fun z => mid < c.colBot n z)).getD (c.colZones n - 1)

def Parcel.mid (p : Parcel) : Int := p.top + shrI p.mass 1

/-- What a step reads from the snapshot (R245, R263). -/
structure ColIn where
  src : Nat → Nat → Option Int       -- usable value of a reference of R245; none for its KINDs 0 and 5
  inletM : Option Int                -- usable inlet moisture
  inletT : Option Int
  now : Nat                          -- step start, short time
  ms : Nat
  dt : Int                           -- Δt_eff, ms
  qual : Option Qual
  sweepMs : Nat                      -- SWEEP_PERIOD × SWEEP_AVG of the discharge cell

/-- The ambient temperature and humidity of a step, and whether each came from its reference (R245, R267). -/
def ambient (c : Cfg) (n : Nat) (i : ColIn) : Int × Int × Bool :=
  let t := refOf (c.f (colA n + 0x14))
  let h := refOf (c.f (colA n + 0x18))
  let tv := i.src t.1 t.2
  let hv := i.src h.1 h.2
  (tv.getD (c.colS n 0x1C), hv.getD (c.colS n 0x20), (t.1 != 5 && tv.isNone) || (h.1 != 5 && hv.isNone))

/-- What a step found besides its results. -/
structure ColNotes where
  rateLost : Bool
  airLost : Bool
  airBad : Bool              -- a HEAT zone's air input is unusable
  ambFixed : Bool
  edges : List (Nat × Int)
  kLimit : Bool
  kInside : Bool
  overflow : Bool
  created : Bool
  overfill : Bool

/-- The matching of a qualifying result (R257): answers κ, the departure record, the residual and whether κ reached a
bound or lies strictly inside after a residual. -/
def residual (c : Cfg) (n : Nat) (i : ColIn) (k : ColCore) : ColCore × Bool × Bool :=
  match i.qual with
  | none => (k, false, false)
  | some q =>
    let tr := ((q.at_ : Int) - rdivI ((i.sweepMs : Int) * 32768) 1000)
    let tt := tr - rdivI (c.colW n 0x2C * 65536) 1000
    let cand := (List.range 32).filterMap (fun j =>
      let e := tget Dep.empty k.deps j
      if e = Dep.empty then none else
        let df := sext 32 ((e.leave : Int) - tt)
        if df ≤ 0 then some (j, df) else none)
    match cand.foldl (fun (a : Option (Nat × Int)) p => match a with | none => some p | some b => if b.2 < p.2 then some p else a) none with
    | none => (k, false, false)
    | some (j, df) =>
      let e := tget Dep.empty k.deps j
      if -df ≤ rdivI (c.colW n 0x30 * 65536) 1000 ∧ ¬ e.unknown ∧ ¬ e.used then
        let r := sat32 (q.m - e.pred)
        let kp := clampI (k.kappa - rdivI (c.colW n 0x28 * r) 65536) 16384 262144
        ({ k with kappa := kp, deps := tput Dep.empty k.deps j { e with used := true, resid := some r }, resid := r },
         kp == 16384 || kp == 262144, decide (16384 < kp ∧ kp < 262144))
      else (k, false, false)

/-- The conditions of one zone (R244, R252, R253, R267), and whether its air input is unusable. -/
def zoneCond (c : Cfg) (n z : Nat) (i : ColIn) (amb : Int × Int × Bool) (last : Option Int) : ZoneCond × Option Int × Bool × Bool × Bool :=
  let ty := c.zoneType n z
  let r := refOf (c.f (zoneA n z 2))
  let v := if r.1 = 0 then none else if r.1 = 5 then some amb.1 else i.src r.1 r.2
  if ty = 2 then
    let ta := v.getD (last.getD amb.1)
    let rh := heatedRh amb.2.1 amb.1 ta
    let t := tableAt c (c.zoneTable n z) ta rh
    ({ ta := ta, rh := rh, k := t.1, me := t.2.1 }, some ta, v.isNone, v.isNone, t.2.2)
  else if ty = 3 then
    let ta := v.getD amb.1
    let t := tableAt c (c.zoneTable n z) ta amb.2.1
    ({ ta := ta, rh := amb.2.1, k := t.1, me := t.2.1 }, last, r.1 != 0 && v.isNone, false, t.2.2)
  else (ZoneCond.empty, last, false, false, false)

/-- Update a parcel in the zone it occupies at the start of the step (R255). -/
def dryParcel (c : Cfg) (n : Nat) (kappa dt : Int) (zs : Tbl ZoneCond) (p : Parcel) : Parcel :=
  if c.zoneType n p.zone = 1 ∨ c.zoneType n p.zone = 0 then p
  else
    let z := tget ZoneCond.empty zs p.zone
    let a := rdivI (z.k * kappa * dt) 3600000
    let ah := rdivI (c.zoneH n p.zone * 65536 * dt) 3600000
    { p with m := z.me + rdivI ((p.m - z.me) * decay a) (2 ^ 30), theta := z.ta + rdivI ((p.theta - z.ta) * decay ah) (2 ^ 30) }

/-- Take the departing parcels, oldest first (R248). -/
def depart (cap : Int) (now : Nat) : List Parcel → ColCore → ColCore × List Parcel
  | [], k => (k, [])
  | p :: r, k =>
    if cap ≤ p.mid then
      let e : Dep := { leave := now, pred := rdivI p.m 256, seq := p.seq, unknown := p.unknown, used := false, est := p.est, resid := none }
      depart cap now r { k with deps := tput Dep.empty k.deps k.depPos e, depPos := (k.depPos + 1) % 32, head := k.head + 1 }
    else (k, p :: r)

/-- Create parcels while the gap allows (R249): `gap` is the top gap, at most `fuel` parcels. -/
def createC (c : Cfg) (n : Nat) (i : ColIn) (mIn : Int) (est : Bool) (theta : Int) : Nat → Int → ColCore → ColCore × Bool × Bool
  | 0, _, k => (k, false, false)
  | fuel + 1, gap, k =>
    let p := c.colP n
    if gap < p then (k, false, false)
    else if c.colParcels n ≤ k.parcels.length then (k, false, true)
    else
      let m := if k.inMass = 0 then mIn * 256 else rdivI (k.inSum * 256) k.inMass.natAbs
      let sq := (k.seq + 1) % 65536
      let q : Parcel := { top := gap - p, mass := p, m := m, theta := theta, entry := rdivI m 256, born := i.now, seq := sq, zone := 0,
                          unknown := false, est := est, gap := false }
      let k1 := { k with parcels := k.parcels ++ [q], seq := sq, inMass := 0, inSum := 0 }
      let r := createC c n i mIn est theta fuel (gap - p) k1
      (r.1, true, r.2.2)

/-- Mass present in a batch column. -/
def massOf (ps : List Parcel) : Int := ps.foldl (fun a p => a + p.mass) 0

/-- Batch creation (R261): parcels sit on the grain present; grain beyond CAP is not tracked. -/
def createB (c : Cfg) (n : Nat) (i : ColIn) (mIn : Int) (est : Bool) (theta : Int) : Nat → ColCore → ColCore × Bool × Bool
  | 0, k => (k, false, false)
  | fuel + 1, k =>
    let p := c.colP n
    if k.fill < p then (k, false, false)
    else if c.colCap n < massOf k.parcels + p then ({ k with fill := 0, inMass := 0, inSum := 0 }, false, true)
    else
      let m := if k.inMass = 0 then mIn * 256 else rdivI (k.inSum * 256) k.inMass.natAbs
      let sq := (k.seq + 1) % 65536
      let q : Parcel := { top := c.colCap n - massOf k.parcels - p, mass := p, m := m, theta := theta, entry := rdivI m 256, born := i.now,
                          seq := sq, zone := 0, unknown := false, est := est, gap := false }
      let r := createB c n i mIn est theta fuel { k with parcels := k.parcels ++ [q], seq := sq, fill := k.fill - p, inMass := 0, inSum := 0 }
      (r.1, true, r.2.2)

/-- One parcel's moisture carried to the outlet at today's rate (R259). -/
def ahead (c : Cfg) (n : Nat) (q : Int) (k : ColCore) (p : Parcel) : Int :=
  let r := (upFrom p.zone (c.colZones n - p.zone)).foldl (fun (a : Int × Int) z =>
    let path := c.colBot n z - a.2
    let zc := tget ZoneCond.empty k.zones z
    if c.zoneType n z = 1 then (a.1, c.colBot n z)
    else (zc.me + rdivI ((a.1 - zc.me) * decay (rdivI (zc.k * k.kappa * path) q.natAbs)) (2 ^ 30), c.colBot n z)) (p.m, p.mid)
  r.1

/-- The parcels within the horizon mass of the outlet, oldest first (R259). -/
def inHorizon (cap w : Int) : List Parcel → List Parcel
  | [] => []
  | p :: r => if w < cap - p.mid then [] else p :: inHorizon cap w r

/-- PRED_NEXT, DIS_TEMP and UNKNOWN_PCT (R259, R261). -/
def predict (c : Cfg) (n : Nat) (q : Int) (k : ColCore) : Int × Int × Nat :=
  let batch := c.colBatch n
  let w := max (c.colP n) (rdivI (q * (c.fF (colA n + 0x34) 0 16 : Nat)) 3600)
  let ps := if batch then k.parcels else inHorizon (c.colCap n) w k.parcels
  let mv := fun (p : Parcel) => if batch ∨ q ≤ 0 then p.m else ahead c n q k p
  let num := ps.foldl (fun a p => a + p.mass * mv p) 0
  let tn := ps.foldl (fun a p => a + p.mass * p.theta) 0
  let den := massOf ps
  let un := ps.foldl (fun a p => if p.unknown || p.gap then a + p.mass else a) 0
  if den = 0 then (k.pred, k.temp, 0) else (rdivI num (den * 256).natAbs, rdivI tn den.natAbs, (100 * un / den).toNat)

/-- mean(t) of R262. -/
def meanAt (c : Cfg) (n : Nat) (k : ColCore) (t : Nat) : Int :=
  let mt := fun (p : Parcel) =>
    if c.zoneType n p.zone = 1 then p.m
    else let z := tget ZoneCond.empty k.zones p.zone
         z.me + rdivI ((p.m - z.me) * decay (rdivI (z.k * k.kappa * (t : Int)) 3600)) (2 ^ 30)
  rdivI (k.parcels.foldl (fun a p => a + p.mass * mt p) 0) (max 1 (massOf k.parcels * 256).natAbs)

/-- The bisection of R262. -/
def bisect (le : Nat → Bool) : Nat → Nat → Nat → Nat
  | 0, _, hi => hi
  | f + 1, lo, hi => if hi - lo ≤ 1 then hi else let mid := (lo + hi) / 2; if le mid then bisect le f lo mid else bisect le f mid hi

/-- TTT (R262). -/
def tttOf (c : Cfg) (n : Nat) (k : ColCore) : Nat :=
  let tgt := c.colS n 0x38
  if k.parcels = [] then 0
  else if meanAt c n k 0 ≤ tgt then 0
  else if tgt < meanAt c n k 65535 then 65535
  else bisect (fun t => decide (meanAt c n k t ≤ tgt)) 17 0 65535

/-- One step of a column, in the order of R263 from its second item on. -/
def colCompute (c : Cfg) (n : Nat) (i : ColIn) (k0 : ColCore) : ColCore × ColNotes :=
  let batch := c.colBatch n
  let rr := if batch then (k0, false, false) else residual c n i k0
  let k := rr.1
  let amb := ambient c n i
  let rr0 := refOf (c.f (colA n + 0xC))
  let rv := i.src rr0.1 rr0.2
  let q := match rv with
    | some pv => clampI (rdivI (pv * c.colW n 0x10) 65536) 0 65536000
    | none => 0
  let zs := (List.range (c.colZones n)).map (fun z => (z, zoneCond c n z i amb (tget none k.lastTa z)))
  let zones := zs.foldl (fun t p => tput ZoneCond.empty t p.1 p.2.1) ([] : Tbl ZoneCond)
  let lastTa := zs.foldl (fun t p => tput none t p.1 p.2.2.1) k.lastTa
  let clamped := zs.filter (fun p => p.2.2.2.2.2)
  let newEdges := clamped.filter (fun p => !k.edgeZones.contains p.1)
  let mIn := match i.inletM with
    | some m => m
    | none => k.lastIn.getD (c.colS n 0x24)
  let est := i.inletM.isNone
  let theta := i.inletT.getD amb.1
  let ps0 := k.parcels.map (dryParcel c n k.kappa i.dt zones)
  let ps1 := if rv.isNone then ps0.map (fun p => { p with gap := true }) else ps0
  let num := q * i.dt + k.carry
  let dX := shrI 0 0 + num.fdiv 3600000
  let k1 := { k with zones := zones, lastTa := lastTa, edgeZones := k.edgeZones ++ newEdges.map (·.1), edge := min 65535 (k.edge + clamped.length),
                     carry := num - dX * 3600000, lastIn := if i.inletM.isSome then i.inletM else k.lastIn, startedMs := i.ms }
  let moved := if batch then (k1, ps1) else depart (c.colCap n) i.now (ps1.map (fun p => { p with top := p.top + dX })) k1
  let k2 := { moved.1 with parcels := moved.2, head := if c.colParcels n = 0 then 0 else moved.1.head % c.colParcels n, inMass := k1.inMass + dX,
                           inSum := k1.inSum + mIn * dX, fill := if batch then k1.fill + dX else 0 }
  let gap := match k2.parcels.getLast? with
    | some p => p.top
    | none => c.colCap n
  let cr := if rv.isNone then (k2, false, false)
            else if batch then createB c n i mIn est theta 4096 k2 else createC c n i mIn est theta 4096 gap k2
  let k3 := { cr.1 with parcels := cr.1.parcels.map (fun p => { p with zone := c.zoneAt n p.mid }) }
  let o := predict c n q k3
  let airBad := zs.any (fun p => p.2.2.2.2.1)
  let bad := if rv.isNone then 2 else if airBad then 3 else if batch ∧ k3.parcels = [] then 1 else 0
  ({ k3 with pred := o.1, temp := o.2.1, unknownPct := o.2.2, ttt := if batch then tttOf c n k3 else 0, bad := bad },
   { rateLost := rv.isNone, airLost := zs.any (fun p => p.2.2.2.1), airBad := airBad, ambFixed := amb.2.2,
     edges := newEdges.map (fun p => (p.1, p.2.1.ta)), kLimit := rr.2.1, kInside := rr.2.2, overflow := !batch && cr.2.2,
     created := cr.2.1, overfill := batch && cr.2.2 })

/-- A start of a column (R250): κ 1.0, everything cleared, a continuous column filled from the outlet upward with
UNKNOWN parcels. -/
def colFill (c : Cfg) (n : Nat) (inletM : Option Int) (ambT : Int) (now : Nat) (k : ColCore) : ColCore :=
  let p := c.colP n
  let cap := c.colCap n
  let cnt := if c.colBatch n ∨ p ≤ 0 then 0 else (cap / p).toNat
  let m := (inletM.getD (c.colS n 0x24)) * 256
  let ps := (List.range cnt).map (fun (j : Nat) =>
    let top := cap - p * ((j : Int) + 1)
    ({ top := top, mass := p, m := m, theta := ambT, entry := rdivI m 256, born := now, seq := (k.seq + 1 + j) % 65536, zone := c.zoneAt n (top + shrI p 1),
       unknown := true, est := inletM.isNone, gap := false } : Parcel))
  { ColCore.empty with parcels := ps, seq := (k.seq + cnt) % 65536, edge := k.edge, lastIn := inletM }

/-- The start as an operation of the column. -/
def colStart (c : Cfg) (n : Nat) (inletM : Option Int) (ambT : Int) (d : Dyn) : Dyn :=
  if !c.colEn n then d
  else
    let x := d.col n
    d.setCol n { x with core := colFill c n inletM ambT (shortOf d.tim.dev) x.core, work := none, done := false, hasStep := false, state := 3, cause := 1,
                        first := true, skipped := 0, consec := 0, qual := none, qualMs := d.ms, openLoop := false, inletMs := d.ms, inletLost := false,
                        restart := false, clear := false, kReset := false }

/-- A column is primed while it holds no parcel flagged UNKNOWN or RATE_GAP (R250). -/
def Col.primed (x : Col) : Bool := x.core.parcels.all (fun p => !p.unknown && !p.gap)

/-- Raise or close a column record by a condition. -/
def colFlag (c : Cfg) (n code sev : Nat) (on : Bool) (d : Dyn) : Dyn :=
  if on then (if d.openCode (0xB000 + n) [code] then d else d.fault c (0xB000 + n) code sev 0 0 false false)
  else d.clears (0xB000 + n) [code]

/-- Raise a column record by a condition; nothing closes it here. -/
def colFlagOn (c : Cfg) (n code sev : Nat) (on : Prop) [Decidable on] (d : Dyn) : Dyn :=
  if on then colFlag c n code sev true d else d

/-- The records a step opens and closes (R252, R257, R267, R276). The data of TABLE_EDGE are the first two values that R276 names, the
zone and Ta (R433; log entry 85). -/
def colNotes (c : Cfg) (n : Nat) (o : ColNotes) (d : Dyn) : Dyn :=
  let d1 := colFlag c n 0xB064 2 o.rateLost d
  let d2 := colFlag c n 0xB065 2 o.airLost d1
  let d3 := colFlag c n 0xB066 1 o.ambFixed d2
  let d4 := o.edges.foldl (fun d e => d.event (0xB000 + n) 0xB069 0 e.1 (u32 e.2)) d3
  let d5 := if o.kLimit then colFlag c n 0xB067 1 true d4 else if o.kInside then d4.clears (0xB000 + n) [0xB067] else d4
  let d6 := if o.overflow then colFlag c n 0xB06A 2 true d5 else if o.created then d5.clears (0xB000 + n) [0xB06A] else d5
  if o.overfill then colFlag c n 0xB068 1 true d6 else d6

/-- Words of a column come into force at the start of a model step (R46). -/
def colLoad (n : Nat) (c : Cfg) : Cfg :=
  let r1 := c.reg.load (colA n) 17
  let c1 : Cfg := { c with reg := r1 }
  let r2 := r1.load (colA n + 0x400) (4 * c1.colZones n)
  let c2 : Cfg := { c with reg := r2 }
  { c with reg := forEach (List.range (c1.colZones n)) r2 (fun z r => if c2.zoneTable n z < 8 then r.load (dtabA (c2.zoneTable n z)) 284 else r) }

/-- Commands and writes that act at the step start (R263 item 1, R273, R274). -/
def colPending (c : Cfg) (n : Nat) (inletM : Option Int) (ambT : Int) (d : Dyn) : Dyn :=
  let x0 := d.col n
  let d1 := if x0.restart then colStart c n inletM ambT d else d
  let x1 := d1.col n
  let d2 := if x1.clear then
      (d1.setCol n { x1 with clear := false, core := { x1.core with parcels := [], fill := 0, inMass := 0, inSum := 0, head := 0 } }).clears (0xB000 + n) [0xB068]
    else d1
  let x2 := d2.col n
  let d3 := if x2.kReset then
      (d2.setCol n { x2 with kReset := false, core := { x2.core with kappa := 65536 } }).clears (0xB000 + n) [0xB067]
    else d2
  let x3 := d3.col n
  match x3.kWrite with
  | some v => colFlagOn c n 0xB067 1 (v = 16384 ∨ v = 262144) (d3.setCol n { x3 with kWrite := none, core := { x3.core with kappa := v } })
  | none => d3

/-- A boundary is skipped: the skip is counted, and the outputs hold or, after more than three in a row, are INVALID (R260, R264). -/
def Col.skip (x : Col) (skipped consec late : Nat) : Col :=
  { x with skipped := skipped, consec := consec, late := late, state := if 3 < consec then 3 else if x.state = 1 then 2 else x.state
           cause := if 3 < consec then 4 else x.cause }

/-- The records of a skipped boundary (R264). -/
def colLate (c : Cfg) (n consec : Nat) (d : Dyn) : Dyn := colFlagOn c n 0xB061 2 (3 < consec) (colFlag c n 0xB060 1 true d)

/-- Publish the completed step `k` at a frame boundary (R260, R264, R270). -/
def colShow (c : Cfg) (n : Nat) (k : ColCore) (d : Dyn) : Dyn :=
  let x := d.col n
  let onTime := x.skipped = 0
  let x1 := { x with core := k, shown := k.parcels, shownHead := k.head, work := none, done := false, hasStep := true, steps := (x.steps + 1) % 2 ^ 32
                     consec := if onTime then 0 else x.consec, state := if k.bad ≠ 0 ∨ (x.cause = 4 ∧ ¬ onTime) then 3 else if onTime then 1 else 2
                     cause := if k.bad ≠ 0 then k.bad else if x.cause = 4 ∧ ¬ onTime then 4 else 0 }
  let d1 := d.setCol n x1
  if onTime then d1.clears (0xB000 + n) [0xB060, 0xB061] else d1

/-- The entry moisture that a step falls back on (R267): the last usable one, until the inlet has been unusable for more than
ENTRY_HOLD. -/
def colLastIn (c : Cfg) (n : Nat) (x : Col) (ms : Nat) : Option Int :=
  if x.inletMs + 1000 * c.colEntryHold n < ms then none else x.core.lastIn

/-- A step starts (R263): words and commands act, Δt_eff is the time since the previous step that ran, or STEP_MS for the first
after a start. -/
def colBegin (n : Nat) (mk : Cfg → Nat → Int → Option Qual → ColIn) (s : State) : State :=
  let x := s.d.col n
  let c' := colLoad n s.c
  let i0 := mk c' n 0 none
  let d1 := colPending c' n i0.inletM (ambient c' n i0).1 s.d
  let y := d1.col n
  let dt : Int := if y.first then c'.colStep n else ((s.d.ms - y.stepMs : Nat) : Int)
  let r := colCompute c' n (mk c' n dt y.qual) { y.core with lastIn := colLastIn c' n y s.d.ms }
  let y1 := { y with work := some r.1, done := false, first := false, skipped := 0, consec := 0, qual := none, stepMs := s.d.ms, prevMs := y.stepMs
                     taken := { restart := x.restart, clear := x.clear, kReset := x.kReset, kWrite := x.kWrite, qual := y.qual } }
  { s with c := c', d := colNotes c' n r.2 (d1.setCol n y1) }

/-- COLUMN_STEP (R263, R264): a step starts at its boundary, or the boundary is skipped because a step still runs. A STANDBY skips
only what the ACTIVE skips (R266): it completes its own step, and `colAdoptSkip` takes the new one back. `mk` builds the snapshot
inputs for a Δt_eff. -/
def columnStep (n : Nat) (mk : Cfg → Nat → Int → Option Qual → ColIn) (s : State) : State :=
  let x := s.d.col n
  match x.work with
  | none => colBegin n mk s
  | some k =>
    if s.d.standby then colBegin n mk { s with d := colShow s.c n k s.d }
    else
      let x1 := x.skip (x.skipped + 1) (x.consec + 1) (satInc 16 x.late)
      { s with d := colLate s.c n x1.consec (s.d.setCol n x1) }

/-- A step that runs is taken back, with what it had taken. -/
def Col.withdraw (x : Col) : Col :=
  let t := x.taken
  if x.work.isSome then
    { x with work := none, done := false, stepMs := x.prevMs, first := !x.hasStep, restart := x.restart || t.restart, clear := x.clear || t.clear
             kReset := x.kReset || t.kReset, kWrite := x.kWrite.orElse (fun _ => t.kWrite), qual := x.qual.orElse (fun _ => t.qual) }
  else x

/-- The ACTIVE's skip of the boundary before this one (R266): the step that this STANDBY began there is taken back with what it
had taken; an older running step goes on. -/
def colAdoptSkip (c : Cfg) (n skipped consec late : Nat) (d : Dyn) : Dyn :=
  let x := d.col n
  let x1 := if x.stepMs + 1 = d.ms then x.withdraw else x
  colLate c n consec (d.setCol n (x1.skip skipped consec late))

/-- A qualifying discharge result (R256): the column leaves open loop (R258). -/
def colQualify (n : Nat) (q : Qual) (d : Dyn) : Dyn :=
  (d.setCol n { d.col n with qual := some q, qualMs := d.ms, openLoop := false }).clears (0xB000 + n) [0xB062]

/-- COLUMN_STEP_COMPLETE (R263): the running step completes; it is published at the next frame boundary. -/
def columnDone (n : Nat) (d : Dyn) : Dyn :=
  let x := d.col n
  if x.work.isSome then d.setCol n { x with done := true } else d

/-- Publish a completed step at a frame boundary (R260, R264). -/
def columnPublish (c : Cfg) (n : Nat) (d : Dyn) : Dyn :=
  let x := d.col n
  match x.done, x.work with
  | true, some k => colShow c n k d
  | _, _ => d

/-- Look at the discharge and inlet cells at a frame boundary (R256, R258, R267). `dis` is the discharge cell's state. A STANDBY
takes its qualifying results from the ACTIVE (R266). -/
def columnWatch (c : Cfg) (n : Nat) (dis inlet : Option Cell) (inletOk : Bool) (d : Dyn) : Dyn :=
  let x := d.col n
  let d1 := match dis with
    | some y =>
      if y.state = 1 ∧ y.at_ ≠ x.seenAt then
        let q := !y.expired && decide ((c.colQualMin n : Int) * 65536 ≤ y.qual)
        let d1 := d.setCol n { x with seenAt := y.at_ }
        if q && !d.standby then colQualify n { m := y.m, at_ := shortOf d.tim.dev } d1 else d1
      else d
    | none => d
  match inlet, inletOk with
  | some _, true => (d1.setCol n { d1.col n with inletMs := d.ms, inletLost := false }).clears (0xB000 + n) [0xB063]
  | _, _ => d1

/-- A column is in open loop (R258). -/
def Col.isOpen (c : Cfg) (n : Nat) (x : Col) : Bool := c.colDis n == 0xFF || x.openLoop

/-- MODEL_OPEN_LOOP (R258): no result has qualified for OL_DELAY s. -/
def modelOpenLoop (c : Cfg) (n : Nat) (d : Dyn) : Dyn :=
  let x := d.col n
  if c.colEn n ∧ d.glb.st = .run ∧ c.colDis n ≠ 0xFF ∧ ¬ x.openLoop ∧ x.qualMs + 1000 * c.colOlDelay n ≤ d.ms then
    colFlag c n 0xB062 1 true (d.setCol n { x with openLoop := true })
  else d

/-- INLET_LOST (R267): the inlet has been unusable beyond ENTRY_HOLD; FILL_M is used from here on. -/
def inletLostEv (c : Cfg) (n : Nat) (d : Dyn) : Dyn :=
  let x := d.col n
  if c.colEn n ∧ d.glb.st = .run ∧ c.colInlet n ≠ 0xFF ∧ ¬ x.inletLost ∧ x.inletMs + 1000 * c.colEntryHold n < d.ms then
    let gone : ColCore → ColCore := fun k => { k with lastIn := none }
    colFlag c n 0xB063 2 true (d.setCol n { x with inletLost := true, core := gone x.core, work := x.work.map gone })
  else d

/-- COL_CMD.RESTART (R274). A column the variant lacks ignores writes. -/
def columnRestart (c : Cfg) (n : Nat) (d : Dyn) : Dyn :=
  if c.fx.nCols ≤ n then d else d.setCol n { d.col n with restart := true, cmdResult := 0 }

/-- COL_CMD.BATCH_CLEAR: refused in continuous mode (R274). -/
def batchClear (c : Cfg) (n : Nat) (d : Dyn) : Dyn :=
  if c.fx.nCols ≤ n then d
  else if c.colBatch n then d.setCol n { d.col n with clear := true, cmdResult := 0 }
  else d.setCol n { d.col n with cmdResult := 0xB00D }

/-- COL_CMD.KAPPA_RESET (R274). -/
def kappaReset (c : Cfg) (n : Nat) (d : Dyn) : Dyn :=
  if c.fx.nCols ≤ n then d else d.setCol n { d.col n with kReset := true, cmdResult := 0 }

/-- A write to COL_KAPPA (R273): 16,384 to 262,144, at the next step start; other values are refused. -/
def kappaWrite (c : Cfg) (n : Nat) (v : Word) (d : Dyn) : Dyn :=
  if c.fx.nCols ≤ n then d
  else if 16384 ≤ v.toNat ∧ v.toNat ≤ 262144 then d.setCol n { d.col n with kWrite := some (v.toNat : Int) }
  else d.setCol n { d.col n with reason := 0xB001 }

end Sys2Proof.Machine
end

