-- ==== Sys2Proof/Machine/Dio.lean ====
section
/-! DEFINITION. Field groups and isolated digital channels (R364 to R387, R390). -/

namespace Sys2Proof.Machine

open Sys2Proof

/-- The GCFG word of a field group: digital groups 0 to 3, mover groups as 4 and 5 (R389, R413). -/
def grpA (g : Nat) : Nat := if g < 4 then 0x200000 + g * 0x1000 else 0x222000 + (g - 4) * 0x100

/-- Word `j` of digital channel `k` = 16 g + i (R389). -/
def dioA (k j : Nat) : Nat := 0x200100 + (k / 16) * 0x1000 + 0x10 * (k % 16) + 4 * j

def Cfg.grpEn (c : Cfg) (g : Nat) : Bool := c.img.ok && c.bF (grpA g) 0
def Cfg.grpAuto (c : Cfg) (g : Nat) : Bool := c.bF (grpA g) 16
def Cfg.dioEn (c : Cfg) (k : Nat) : Bool := c.bF (dioA k 0) 0
def Cfg.dioGuard (c : Cfg) (k : Nat) : Bool := c.bF (dioA k 0) 1
def Cfg.dioOpenChk (c : Cfg) (k : Nat) : Bool := c.bF (dioA k 0) 3
def Cfg.dioPar (c : Cfg) (k : Nat) : Bool := c.bF (dioA k 0) 4
def Cfg.dioMode (c : Cfg) (k : Nat) : Nat := if c.dioEn k then c.fF (dioA k 0) 8 8 else 0
def Cfg.dioDeb (c : Cfg) (k : Nat) : Nat := c.fF (dioA k 0) 16 8
def Cfg.dioChg (c : Cfg) (k : Nat) : Nat := c.fF (dioA k 0) 24 2
def Cfg.dioWake (c : Cfg) (k : Nat) : Nat := c.fF (dioA k 0) 26 2
def Cfg.dioWin (c : Cfg) (k : Nat) : Nat := c.fF (dioA k 1) 0 16
def Cfg.dioRGain (c : Cfg) (k : Nat) : Int := sword (c.f (dioA k 2))

/-- SAFE_ON of a digital channel (R443). -/
def Cfg.safeOn (c : Cfg) (k : Nat) : Bool := c.bF (0x50A00 + 4 * (k / 4)) (8 * (k % 4))

/-- Channel `k` is the odd half of a parallel pair (R378). -/
def Cfg.pairOdd (c : Cfg) (k : Nat) : Bool := k % 2 == 1 && c.dioPar (k - 1)

/-- The channel that holds the state of channel `k`: the even one of a parallel pair. -/
def Cfg.owner (c : Cfg) (k : Nat) : Nat := if c.pairOdd k then k - 1 else k

/-- Channel `k` is an output. -/
def Cfg.isOut (c : Cfg) (k : Nat) : Bool := let m := c.dioMode (c.owner k); m == 3 || m == 4

def FGrp.empty : FGrp :=
  { line := 1, wdExp := false, holdExp := false, holding := false, lease := false, cond := 2, low := false, restorable := false, latch := 0,
    cfOk := false, reason := 0, samples := [], now := 0, min := 0xFFF, wakeSet := false, wdCnt := 0, badCnt := 0, refused := 0, badRun := 0, goodRun := 0,
    cmd := 0, want := 0, held := 0, trip := 0, safeHeld := 0, applied := 0, rb := 0, raw := 0, cmdResult := 0, startMs := 0 }

def DChan.empty : DChan :=
  { level := false, hasState := false, own := false, hasOwn := false, cand := false, run := 0, stamp := 0, stampEp := 0, brk := false, brkAt := 0, latch := 0, phase := 0,
    retries := 0, openLoad := false, load := 0, count := 0, edges := 0, hist := [], rate := 0, host := false, stood := 0, lastOn := false,
    fedCnt := 0, drvCnt := 0, misCnt := 0, cmdResult := 0 }

def Dyn.grp (d : Dyn) (g : Nat) : FGrp := tget FGrp.empty d.fld.grps g
def Dyn.setGrp (d : Dyn) (g : Nat) (x : FGrp) : Dyn := { d with fld := { d.fld with grps := tput FGrp.empty d.fld.grps g x } }
def Dyn.dch (d : Dyn) (k : Nat) : DChan := tget DChan.empty d.fld.dio k
def Dyn.setDch (d : Dyn) (k : Nat) (x : DChan) : Dyn := { d with fld := { d.fld with dio := tput DChan.empty d.fld.dio k x } }

/-- A fault source of a group, and its code `j` counted from FIELD_LOW (R393, R416). -/
def grpSrc (g : Nat) : Nat := if g < 4 then 0x8100 + g else 0x9100 + (g - 4)
def grpCode (g j : Nat) : Nat := if g < 4 then 0x8060 + j else 0x9068 + j

/-- Raise a record of the field side; in DORMANT it is reported at the next wake (R382), and a logic side held in reset raises none. -/
def fldFault (c : Cfg) (src code sev : Nat) (byAck gone : Bool) (d : Dyn) : Dyn :=
  if d.pwr.resetFrom.isSome then d
  else if d.glb.st = .dormant then { d with fld := { d.fld with late := d.fld.late ++ [(src, code, sev)] } }
  else d.fault c src code sev 0 0 byAck gone

/-- Channel `k`'s input is VALID, and otherwise the cause (R370): 1 NO_RESULT, 2 BREAK, 3 GROUP. -/
def dioCause (d : Dyn) (k : Nat) : Nat :=
  let g := d.grp (k / 16)
  let x := d.dch k
  if g.cond = 5 ∨ g.cond = 6 then 3 else if x.brk then 2 else if x.hasState then 0 else 1

/-- Channel `k` is an enabled input or counter. -/
def Cfg.isIn (c : Cfg) (k : Nat) : Bool := let m := c.dioMode k; m == 1 || m == 2

/-- The usable level of a digital input. -/
def dioInput (c : Cfg) (d : Dyn) (k : Nat) : Option Bool :=
  if c.isIn k && c.grpEn (k / 16) && dioCause d k == 0 then some (d.dch k).level else none

/-- The usable rate of a counter (R374). -/
def dioRate (c : Cfg) (d : Dyn) (k : Nat) : Option Int :=
  if c.dioMode k = 2 ∧ c.grpEn (k / 16) ∧ dioCause d k = 0 ∧ c.dioWin k ≤ (d.dch k).hist.length then some (d.dch k).rate else none

/-- The DIO level of GUARD_TRIP's DATA_B (R449). -/
def Dyn.dioLevel (d : Dyn) (k : Nat) : Nat := if (d.dch k).level then 1 else 0

/-- Deliver a digital guard input to Selvedge (R373). -/
def deliverDio (c : Cfg) (k : Nat) (d : Dyn) : Dyn :=
  if c.dioGuard k && c.dioMode k == 1 then
    deliverSrc c true k (d.dch k).level (dioCause d k == 0) (srcData c d d.dioLevel) d
  else d

/-- The level the die drives on channel `k` (R375, R422). -/
def dieLevel (c : Cfg) (d : Dyn) (k : Nat) : Bool :=
  let g := d.grp (k / 16)
  let x := d.dch (c.owner k)
  let o := c.owner k % 16
  c.grpEn (k / 16) && c.isOut k && g.line != 1 && g.line != 2 && x.latch == 0 && x.phase != 1 && x.phase != 4 && g.latch == 0 && !g.trip.testBit o &&
  (if g.wdExp || g.holdExp then g.safeHeld.testBit o else g.held.testBit o)

/-- Sixteen bits of a group from a predicate on its channels. -/
def bits16 (g : Nat) (p : Nat → Bool) : Nat := ofBits ((upFrom (16 * g) 16).map p)

/-- The die of a digital group drives its outputs anew. -/
def reapply (c : Cfg) (g : Nat) (d : Dyn) : Dyn :=
  if g < 4 then d.setGrp g { d.grp g with applied := bits16 g (dieLevel c d) } else d

/-- The command of rank 5 on channel `k`: the unit that names it, the host, or the time-proportioned level (R367). -/
def rank5 (c : Cfg) (unitOut : Nat → Option Bool) (tpo : Nat → Bool) (d : Dyn) (k : Nat) : Bool :=
  let o := c.owner k
  let m := c.dioMode o
  if m = 3 then (unitOut o).getD (d.dch o).host else if m = 4 then tpo o else false

/-- The levels a frame boundary sends to digital group `g` (R36, R422). -/
def dioSend (c : Cfg) (unitOut : Nat → Option Bool) (tpo : Nat → Bool) (g : Nat) (d : Dyn) : Dyn :=
  if c.grpEn g then
    let safe := d.glb.st == .safe
    let want := bits16 g (fun k => c.isOut k && (if safe then c.safeOn (c.owner k) else rank5 c unitOut tpo d k))
    d.setGrp g { d.grp g with want := want, cmd := if d.standby then 0 else want }
  else d.setGrp g { d.grp g with want := 0, cmd := 0 }

/-- Words of a digital group come into force at its next coupler frame (R46); a changed WIN restarts the rate window. -/
def dioLoad (g : Nat) (s : State) : State :=
  let r1 := s.c.reg.load (grpA g) 1
  let r2 := forEach (upFrom (16 * g) 16) r1 (fun k r => r.load (dioA k 0) 3)
  let c2 : Cfg := { s.c with reg := r2 }
  { s with c := c2, d := forEach (upFrom (16 * g) 16) s.d (fun k d =>
      if c2.dioWin k ≠ s.c.dioWin k then d.setDch k { d.dch k with hist := [] } else d) }

/-- A boundary mark reaches a die whose watchdog had expired (R380). -/
def markSeen (c : Cfg) (g : Nat) (d : Dyn) : Dyn :=
  let x := d.grp g
  if x.wdExp then (d.setGrp g { x with wdExp := false, wdCnt := satInc 8 x.wdCnt }).fault c (grpSrc g) (grpCode g 5) 2 0 0 true true else d

/-- The logic side sends coupler frames: RUN, SCAN and SAFE. -/
def Dyn.sends (d : Dyn) : Bool := d.pwr.resetFrom.isNone && (d.glb.st == .run || d.glb.st == .scan || d.glb.st == .safe)

/-- FORWARD_FRAME_SET of a digital group (R365, R380, R422): the die takes the levels, the trip bits and the mark. -/
def forwardDio (g : Nat) (s0 : State) : State :=
  if s0.d.sends && (s0.d.grp g).line == 0 then
    let s := dioLoad g s0
    let c := s.c
    let d1 := markSeen c g s.d
    let x := d1.grp g
    let x1 := { x with held := x.cmd, trip := bits16 g (fun k => rank3Do c d1 k (c.pairOdd k)), holding := false, holdExp := false,
                       safeHeld := bits16 g (fun k => c.isOut k && c.safeOn (c.owner k) && !c.img.pairOn) }
    { s with d := reapply c g (d1.setGrp g x1) }
  else s0

/-- One channel's share of a return frame set. -/
def returnChan (k : Nat) (load edges : Nat) (standby woke : Bool) (d : Dyn) : Dyn :=
  let x := d.dch k
  if standby then d.setDch k { x with load := load }
  else d.setDch k { x with load := load, count := (x.count + edges) % 2 ^ 32, edges := if woke then x.edges else x.edges + edges }

/-- The status record of a return frame set (R364, R385). A valid record ends MISSING. -/
def returnStatus (g : Nat) (ok : Bool) (d : Dyn) : Dyn :=
  let x := d.grp g
  if ok then d.setGrp g { x with badRun := 0, goodRun := x.goodRun + 1, cond := if x.cond = 6 then 2 else x.cond }
  else d.setGrp g { x with badRun := x.badRun + 1, goodRun := 0 }

/-- RETURN_FRAME_SET of a digital group (R364, R374). The first set after a wake brings what the die counted in DORMANT: it is added to the
count and is no part of a frame's edges. -/
def returnDio (c : Cfg) (g : Nat) (r : ReturnSet) (d : Dyn) : Dyn :=
  if c.grpEn g then
    let d1 := returnStatus g r.valid d
    let x := d1.grp g
    if x.cond = 5 ∨ x.cond = 6 then d1
    else
      let d2 := d1.setGrp g { x with raw := r.levels % 65536, rb := r.readback % 65536, wakeSet := false }
      forEach (List.range 16) d2 (fun i d =>
        let k := 16 * g + i
        returnChan k (nth 0 r.load i % 4096) (if c.dioMode k = 2 then nth 0 r.edges i else 0) d.standby x.wakeSet d)
  else d

/-- One sample of an input: the debounce run (R369). -/
def sampleChan (k : Nat) (lv : Bool) (d : Dyn) : Dyn :=
  let x := d.dch k
  if x.run ≠ 0 ∧ lv = x.cand then d.setDch k { x with run := min (x.run + 1) 65535 }
  else d.setDch k { x with cand := lv, run := 1, stamp := d.tim.net, stampEp := d.tim.epoch }

/-- INPUT_SAMPLE (R369): the die samples every input of the group. -/
def inputSample (c : Cfg) (g levels : Nat) (d : Dyn) : Dyn :=
  let x := d.grp g
  if g < 4 ∧ c.grpEn g ∧ x.cond ≠ 5 ∧ x.cond ≠ 6 then
    forEach (List.range 16) (d.setGrp g { x with raw := levels % 65536 }) (fun i d => sampleChan (16 * g + i) (levels.testBit i) d)
  else d

/-- Samples a debounced state needs (R369, R373). -/
def Cfg.debNeed (c : Cfg) (k : Nat) : Nat := if c.dioGuard k then 16 else max 1 (16 * c.dioDeb k)

/-- DIO_CHANGE, where CHG selects the change (R372). -/
def dioChange (c : Cfg) (k : Nat) (lv : Bool) (stamp ep : Nat) (d : Dyn) : Dyn :=
  let sel := c.dioChg k
  if (d.glb.st == .run || d.glb.st == .safe) && (if lv then sel.testBit 0 else sel.testBit 1) then
    d.eventAt (0x8000 + k) 0x806F 0 (if lv then 1 else 0) 0 stamp ep
  else d

/-- The module takes a debounced state of channel `k`. -/
def takeState (c : Cfg) (k : Nat) (lv : Bool) (stamp ep : Nat) (d : Dyn) : Dyn :=
  let x := d.dch k
  let changed := x.hasState && x.level != lv
  let d1 := (d.setDch k { x with level := lv, hasState := true, brk := false }).clears (0x8000 + k) [0x806C]
  let d2 := if changed then dioChange c k lv stamp ep d1 else d1
  deliverDio c k d2

/-- The record of a listening input closes once the states agree (R393). -/
def listenAgree (k : Nat) (d : Dyn) : Dyn :=
  let x := d.dch k
  if x.own = x.level then d.clears (0x8000 + k) [0x806D] else d

/-- The own inputs are used from the takeover on (R386): the die's own debounced state, or none yet. -/
def ownInput (c : Cfg) (k : Nat) (d : Dyn) : Dyn :=
  let x := d.dch k
  if x.hasOwn then (if x.hasState && x.own == x.level then d else takeState c k x.own x.stamp x.stampEp d)
  else deliverDio c k (d.setDch k { x with hasState := false })

/-- The counters' rate windows start anew at a wake from DORMANT (R374). -/
def dioWoke (c : Cfg) (d : Dyn) : Dyn :=
  let d1 := forEach ((List.range 4).filter c.grpEn) d (fun g d => d.setGrp g { d.grp g with wakeSet := true })
  forEach ((List.range 64).filter (fun k => c.dioMode k == 2)) d1 (fun k d => d.setDch k { d.dch k with hist := [], edges := 0 })

/-- A BREAK has lasted until now, or the current has stayed at 0.25 mA or more for 50 ms since (R371). -/
def brkHeld (d : Dyn) (k : Nat) : Bool := let x := d.dch k; x.brk && decide (d.ms < x.brkAt + 50)

/-- DEBOUNCED_CHANGE (R369 to R373). On a STANDBY the module's own state is only compared with the mirror (R386). -/
def debouncedChange (c : Cfg) (k : Nat) (d : Dyn) : Dyn :=
  let x := d.dch k
  if c.isIn k && c.grpEn (k / 16) && decide (c.debNeed k ≤ x.run) && dioCause d k != 3 && !brkHeld d k then
    if d.standby then listenAgree k (d.setDch k { x with own := x.cand, hasOwn := true })
    else if !x.hasState || x.brk || x.cand != x.level then takeState c k x.cand x.stamp x.stampEp (d.setDch k { x with own := x.cand, hasOwn := true })
    else d
  else d

/-- INPUT_BREAK (R371): the current has been below 0.25 mA for 50 ms. While the channel is INVALID for it, the 50 ms of the return start anew. -/
def inputBreak (c : Cfg) (k : Nat) (d : Dyn) : Dyn :=
  if c.isIn k && c.grpEn (k / 16) && c.bF (dioA k 0) 2 then
    let d1 := d.setDch k { d.dch k with brk := true, brkAt := d.ms, run := 0, hasOwn := false }
    if (d.dch k).brk then d1 else deliverDio c k (fldFault c (0x8000 + k) 0x806C 2 false false d1)
  else d

/-- Latch an output and raise its record (R376). -/
def latchOut (c : Cfg) (k latch code : Nat) (d : Dyn) : Dyn :=
  reapply c (k / 16) (fldFault c (0x8000 + k) code 2 false false (d.setDch k { d.dch k with latch := latch, phase := 0 }))

/-- The three consecutive disagreements of R376: counted at the frame boundaries, and in DORMANT by the die itself (R382), which needs the
output to be driven to `lv`. -/
def fedUp (d : Dyn) (k : Nat) (n : Nat) (lv : Bool) : Bool :=
  decide (3 ≤ n) || (d.glb.st == .dormant && (d.grp (k / 16)).applied.testBit (k % 16) == lv)

/-- BACKFED (R376): not for the odd half of a pair, and not under FENCE. -/
def backfed (c : Cfg) (k : Nat) (d : Dyn) : Dyn :=
  if c.grpEn (k / 16) && c.isOut k && !c.pairOdd k && (d.grp (k / 16)).line != 2 && fedUp d k (d.dch k).fedCnt false && (d.dch k).latch == 0 then
    latchOut c k 2 0x8069 d
  else d

/-- DRIVER_FAULT (R376, R378). -/
def driverFault (c : Cfg) (k : Nat) (d : Dyn) : Dyn :=
  let o := c.owner k
  if c.grpEn (k / 16) && c.isOut k && fedUp d k (d.dch k).drvCnt true && (d.dch o).latch == 0 && (d.dch o).phase == 0 &&
      (d.grp (k / 16)).cond == 2 then latchOut c o 3 0x806A d else d

/-- OPEN_LOAD (R376): reported, not latched. -/
def openLoad (c : Cfg) (k : Nat) (d : Dyn) : Dyn :=
  let x := d.dch k
  if c.grpEn (k / 16) && c.isOut k && c.dioOpenChk k && (d.grp (k / 16)).applied.testBit (k % 16) && decide (x.load < 10) && !x.openLoad then
    fldFault c (0x8000 + k) 0x806B 1 false false (d.setDch k { x with openLoad := true })
  else d

/-- OUTPUT_OVERLOAD (R377): the output goes off and waits, or after its third retry latches. -/
def outputOverload (c : Cfg) (k : Nat) (d : Dyn) : Dyn :=
  let o := c.owner k
  let x := d.dch o
  if c.grpEn (k / 16) && c.isOut k && (d.grp (k / 16)).applied.testBit (k % 16) then
    if x.retries < 3 then
      let d1 := d.setDch o { x with phase := 1, retries := x.retries + 1 }
      reapply c (k / 16) (fldFault c (0x8000 + o) 0x8067 1 false false d1)
    else latchOut c o 1 0x8068 d
  else d

/-- OVERLOAD_RETRY (R377, R387): the output is tried again; while the group waits for its restore, so does the retry. -/
def overloadRetry (c : Cfg) (k : Nat) (d : Dyn) : Dyn :=
  let o := c.owner k
  let x := d.dch o
  if x.phase = 1 then
    if (d.grp (k / 16)).latch = 0 then reapply c (k / 16) (d.setDch o { x with phase := 2 }) else d.setDch o { x with phase := 4 }
  else d

/-- OVERLOAD_RECOVERED (R377): a retry has held for 1 s, or the output has been off for 1 s. -/
def overloadRecovered (c : Cfg) (k : Nat) (d : Dyn) : Dyn :=
  let o := c.owner k
  let x := d.dch o
  if x.phase = 2 ∨ x.phase = 3 then
    reapply c (k / 16) ((d.setDch o { x with phase := 0, retries := 0 }).clears (0x8000 + o) [0x8067])
  else d

/-- Clear the latch of a channel (R379). -/
def clearLatch (c : Cfg) (k : Nat) (d : Dyn) : Dyn :=
  let o := c.owner k
  let x := d.dch o
  if x.latch = 0 then d
  else (d.setDch o { x with latch := 0, retries := 0, fedCnt := 0, drvCnt := 0 }).clears (0x8000 + o) [0x8068, 0x8069, 0x806A]

/-- DIO_CCMDk.CLEAR. -/
def dioChannelClear (c : Cfg) (k : Nat) (d : Dyn) : Dyn :=
  let d1 := clearLatch c k d
  d1.setDch k { d1.dch k with cmdResult := 0 }

/-- DIO_CCMDk.ZERO: refused unless the channel counts (R390). -/
def dioZero (c : Cfg) (k : Nat) (d : Dyn) : Dyn :=
  if c.dioMode k = 2 then d.setDch k { d.dch k with count := 0, cmdResult := 0 } else d.setDch k { d.dch k with cmdResult := 0x800D }

/-- DIO_GCMD.CLEAR: every channel latch of the group. -/
def dioGroupClear (c : Cfg) (g : Nat) (d : Dyn) : Dyn :=
  let d1 := forEach (upFrom (16 * g) 16) d (clearLatch c)
  d1.setGrp g { d1.grp g with cmdResult := 0 }

/-- CLR_MIN of a field group: MIN := NOW. -/
def grpClrMin (g : Nat) (d : Dyn) : Dyn := d.setGrp g { d.grp g with min := (d.grp g).now, cmdResult := 0 }

/-- The overload retries that waited for a restore run (R387). -/
def retriesRun (g : Nat) (d : Dyn) : Dyn :=
  if g < 4 then forEach ((upFrom (16 * g) 16).filter (fun k => (d.dch k).phase == 4)) d (fun k d => d.setDch k { d.dch k with phase := 2 }) else d

/-- Restore a group: the CUT and GROUP latches end (R384). -/
def restoreGrp (g : Nat) (d : Dyn) : Dyn :=
  let x := d.grp g
  (retriesRun g (d.setGrp g { x with latch := 0, restorable := false, cond := if x.cond = 4 then 2 else x.cond })).clears (grpSrc g) [grpCode g 4]

/-- RESTORE: refused before the group is restorable (R384). -/
def grpRestore (g : Nat) (d : Dyn) : Dyn :=
  if (d.grp g).restorable then let d1 := restoreGrp g d; d1.setGrp g { d1.grp g with cmdResult := 0 }
  else d.setGrp g { d.grp g with cmdResult := if g < 4 then 0x8045 else 0x9044 }

/-- A host write to DIO_GOUTSET or DIO_GOUTCLR (R375): channels the host does not command are ignored and counted. -/
def goutWrite (c : Cfg) (unitOut : Nat → Bool) (on : Bool) (g : Nat) (v : Word) (d : Dyn) : Dyn :=
  forEach ((upFrom (16 * g) 16).filter (fun k => bit v (k % 16))) d (fun k d =>
    if c.dioMode k = 3 ∧ ¬ unitOut k then d.setDch k { d.dch k with host := on }
    else d.setGrp g { d.grp g with refused := satInc 8 (d.grp g).refused })

/-- The inputs of a group become INVALID with cause GROUP; debounce runs are discarded (R370, R387). -/
def inputsLost (c : Cfg) (g : Nat) (d : Dyn) : Dyn :=
  forEach (upFrom (16 * g) 16) d (fun k d => deliverDio c k (d.setDch k { d.dch k with hasState := false, hasOwn := false, run := 0 }))

/-- FIELD_CUT (R383): outputs off at once, latched with cause CUT. `cut` is the die's own part. -/
def fieldCut (c : Cfg) (g : Nat) (d : Dyn) : Dyn :=
  let x := d.grp g
  if c.grpEn g then
    if x.cond = 4 then d.setGrp g { x with cfOk := false, restorable := false }
    else
      let d1 := d.setGrp g { x with cond := if x.cond = 5 ∨ x.cond = 6 then x.cond else 4, latch := if x.latch = 5 then 5 else 4, cfOk := false, restorable := false }
      reapply c g (fldFault c (grpSrc g) (grpCode g 2) 3 false false d1)
  else d

/-- FIELD_SUPPLY_SAMPLE (R383): the four-sample mean against the thresholds, each clearing 0.4 V above its setting. In STATUS_BAD the module
believes only GROUP_OK (R385). -/
def fieldSupplySample (c : Cfg) (g mv : Nat) (d : Dyn) : Dyn :=
  if c.grpEn g && (d.grp g).cond != 5 then
    let x := d.grp g
    let ss := (x.samples ++ [mv]).drop ((x.samples.length + 1) - 4)
    let mean := ss.foldl (· + ·) 0 / ss.length
    let nw := min (mean / 10) 4095
    let low := decide (mean < 19200) || (x.low && decide (mean < 19600))
    let under := decide (mean < 16000) || ((x.cond == 3 || x.cond == 4) && decide (mean < 16400))
    let x1 := { x with samples := ss, now := nw, min := min x.min nw, low := low, restorable := x.restorable && decide (18000 < mean),
                       cfOk := decide (12400 ≤ mean) || (x.cfOk && decide (12000 ≤ mean)),
                       cond := if x.cond = 5 ∨ x.cond = 6 then x.cond else if x.cond = 4 ∧ (mean < 12400 ∨ mv < 12400) then 4 else if under then 3 else 2 }
    let d1 := d.setGrp g x1
    let d2 := if low && !x.low && x1.cond != 4 then fldFault c (grpSrc g) (grpCode g 0) 1 false false d1 else d1
    let d3 := if x1.cond = 3 ∧ x.cond = 2 then fldFault c (grpSrc g) (grpCode g 1) 2 false false d2 else d2
    if mean < 12000 ∧ x.cond ≠ 4 ∧ x.cond ≠ 6 then fieldCut c g d3 else d3
  else d

/-- GROUP_RESTORABLE (R384): 50 ms above 18.0 V with valid records and GROUP_OK. -/
def groupRestorable (c : Cfg) (g : Nat) (d : Dyn) : Dyn :=
  let x := d.grp g
  if c.grpEn g && x.latch != 0 && x.cond != 5 && x.cond != 6 && x.cfOk && x.badRun == 0 && decide (1800 ≤ x.now) then
    d.setGrp g { x with restorable := true }
  else d

/-- GROUP_RECORD_CLOSE (R384): 1 s at or above 19.6 V. -/
def groupRecordClose (g : Nat) (d : Dyn) : Dyn :=
  let x := d.grp g
  if x.latch = 0 ∧ 1960 ≤ x.now then d.clears (grpSrc g) [grpCode g 0, grpCode g 1, grpCode g 2, grpCode g 3] else d

/-- A group-level loss: STATUS_BAD or MISSING (R385). -/
def groupLost (c : Cfg) (g cond code : Nat) (d : Dyn) : Dyn :=
  let x := d.grp g
  let d1 := d.setGrp g { x with cond := cond, latch := 5, restorable := false, cfOk := x.cfOk && cond == 5,
                                badCnt := if cond = 5 then satInc 8 x.badCnt else x.badCnt, goodRun := 0 }
  let d2 := if g < 4 then inputsLost c g d1 else d1
  reapply c g (fldFault c (grpSrc g) code 3 false false d2)

/-- STATUS_FRAMES_BAD: three consecutive records failed. -/
def statusFramesBad (c : Cfg) (g : Nat) (d : Dyn) : Dyn :=
  let x := d.grp g
  if c.grpEn g ∧ 3 ≤ x.badRun ∧ x.cond ≠ 5 ∧ x.cond ≠ 6 then groupLost c g 5 (grpCode g 4) d else d

/-- STATUS_RECOVERED: 1,000 consecutive valid records. -/
def statusRecovered (g : Nat) (d : Dyn) : Dyn :=
  let x := d.grp g
  if x.cond = 5 ∧ 1000 ≤ x.goodRun then d.setGrp g { x with cond := 2 } else d

/-- GROUP_MISSING. -/
def groupMissing (c : Cfg) (g : Nat) (d : Dyn) : Dyn :=
  if c.grpEn g ∧ (d.grp g).cond ≠ 6 then groupLost c g 6 (grpCode g 3) d else d

/-- HOLD_EXPIRY in DORMANT (R26, R382): safe values; the record is reported at the next wake. -/
def holdExpiry (c : Cfg) (g : Nat) (d : Dyn) : Dyn :=
  let x := d.grp g
  if x.holding ∧ ¬ x.holdExp then
    reapply c g (fldFault c (grpSrc g) (grpCode g 6) 1 true true (d.setGrp g { x with holdExp := true }))
  else d

/-- FIELD_WATCHDOG_EXPIRY (R380): suspended under BOOT and replaced by the hold in DORMANT. -/
def fieldWatchdog (c : Cfg) (g : Nat) (d : Dyn) : Dyn :=
  let x := d.grp g
  if c.grpEn g ∧ x.line ≠ 1 ∧ ¬ x.holding then reapply c g (d.setGrp g { x with wdExp := true }) else d

/-- COMMON_FAULT_LINE of a digital group (R366): FENCE ends overload retries without a latch (R387). -/
def commonLineDio (c : Cfg) (g line : Nat) (d : Dyn) : Dyn :=
  let d1 := d.setGrp g { d.grp g with line := line % 4 }
  let d2 := if line % 4 = 2 then
      forEach (upFrom (16 * g) 16) d1 (fun k d => let x := d.dch k; if x.phase = 1 ∨ x.phase = 2 ∨ x.phase = 4 then d.setDch k { x with phase := 3 } else d)
    else d1
  reapply c g d2

/-- PARTNER_OUTPUT_MISMATCH (R386). -/
def partnerOutputMismatch (c : Cfg) (k : Nat) (d : Dyn) : Dyn :=
  if d.standby && c.isOut k && decide (3 ≤ (d.dch k).misCnt) && !d.openCode (0x8000 + k) [0x806E] then
    d.fault c (0x8000 + k) 0x806E 1 0 0 false false
  else d

/-- LISTEN_INPUT_MISMATCH (R386). -/
def listenInputMismatch (c : Cfg) (k : Nat) (d : Dyn) : Dyn :=
  let x := d.dch k
  if d.standby && c.isIn k && x.own != x.level && !d.openCode (0x8000 + k) [0x806D] then d.fault c (0x8000 + k) 0x806D 1 0 0 false false else d

/-- The output checks of one channel at a frame boundary (R376, R377, R386). -/
def outCheck (c : Cfg) (k : Nat) (d : Dyn) : Dyn :=
  let g := d.grp (k / 16)
  let i := k % 16
  let x := d.dch k
  let sb := d.standby
  let lv := if sb then g.want.testBit i else g.applied.testBit i
  let rb := g.rb.testBit i
  let stood := if lv = x.lastOn then min (x.stood + 1) 3 else 0
  let live := decide (1 ≤ stood) && g.line == 0 && c.isOut k
  let quiet := live && g.cond == 2 && (d.dch (c.owner k)).phase == 0
  let x1 := { x with stood := stood, lastOn := lv, fedCnt := if live && !lv && rb then min (x.fedCnt + 1) 3 else 0,
                     drvCnt := if !sb && quiet && lv && !rb then min (x.drvCnt + 1) 3 else 0,
                     misCnt := if sb && live && lv && !rb then min (x.misCnt + 1) 3 else 0,
                     openLoad := x.openLoad && !(lv && decide (10 ≤ x.load)),
                     phase := if (x.phase = 1 ∨ x.phase = 2 ∨ x.phase = 4) ∧ ¬ g.cmd.testBit i then 3 else x.phase }
  let d1 := d.setDch k x1
  let d2 := if x.openLoad && !x1.openLoad then d1.clears (0x8000 + k) [0x806B] else d1
  if sb && live && lv == rb then d2.clears (0x8000 + k) [0x806E] else d2

/-- The counter rate of one channel at a frame boundary (R374). -/
def rateUpdate (c : Cfg) (k : Nat) (d : Dyn) : Dyn :=
  if c.dioMode k = 2 then
    let x := d.dch k
    let w := c.dioWin k
    let h := (x.edges :: x.hist).take w
    let n : Nat := h.foldl (· + ·) 0
    d.setDch k { x with edges := 0, hist := h, rate := sat32 (rdivI ((n : Int) * c.dioRGain k * 1000) (max 1 w)) }
  else d

/-- A digital group at a frame boundary: the automatic restore, the checks and the rates. -/
def dioBoundary (c : Cfg) (g : Nat) (d : Dyn) : Dyn :=
  if c.grpEn g then
    let d1 := if (d.grp g).restorable ∧ c.grpAuto g then restoreGrp g d else d
    forEach (upFrom (16 * g) 16) d1 (fun k d => let d2 := outCheck c k d; if d.standby then d2 else rateUpdate c k d2)
  else d

/-- A field group starts (R381): inputs INVALID with cause NO_RESULT, nothing commanded. Counts since BOOT stay. -/
def grpStart (g : Nat) (d : Dyn) : Dyn :=
  let x := d.grp g
  let d1 := d.setGrp g { FGrp.empty with line := 0, cfOk := true, wdCnt := x.wdCnt, badCnt := x.badCnt, refused := x.refused, now := x.now, min := x.min,
                                         samples := x.samples, rb := x.rb, raw := x.raw, startMs := d.ms }
  if g < 4 then forEach (upFrom (16 * g) 16) d1 (fun k d =>
    let y := d.dch k
    d.setDch k { DChan.empty with level := y.level, count := y.count, host := y.host }) else d1

/-- The latched fault a unit sees on output channel `k` (R379, R383). -/
def dioLatched (c : Cfg) (d : Dyn) (k : Nat) : Bool := (d.dch (c.owner k)).latch != 0 || (d.grp (k / 16)).latch != 0

end Sys2Proof.Machine
end

