-- ==== Sys2Proof/Machine/Mov.lean ====
section
/-! DEFINITION. Mover channels: drive, tachometer, duty tables and fan supervision (R394 to R410, R415). -/

namespace Sys2Proof.Machine

open Sys2Proof

/-- Word `j` of mover channel `n` (R413). -/
def movA (n j : Nat) : Nat := 0x220000 + n * 0x100 + 4 * j

/-- Word `j` of duty table `t`. -/
def tabA (t j : Nat) : Nat := 0x224000 + t * 0x80 + 4 * j

def Cfg.movEn (c : Cfg) (n : Nat) : Bool := c.grpEn (4 + n / 16) && c.bF (movA n 0) 0
def Cfg.movPlain (c : Cfg) (n : Nat) : Bool := c.bF (movA n 0) 1
def Cfg.movDem (c : Cfg) (n : Nat) : Nat := c.fF (movA n 0) 2 2
def Cfg.movKind (c : Cfg) (n : Nat) : Nat := c.fF (movA n 0) 8 2
def Cfg.movNe43 (c : Cfg) (n : Nat) : Nat := c.fF (movA n 0) 13 2
def Cfg.movTable (c : Cfg) (n : Nat) : Nat := c.fF (movA n 0) 16 8
def Cfg.movMinDuty (c : Cfg) (n : Nat) : Int := sword (c.f (movA n 3))
def Cfg.movMinRpm (c : Cfg) (n : Nat) : Int := sword (c.f (movA n 4))
def Cfg.movPpr (c : Cfg) (n : Nat) : Nat := c.fF (movA n 5) 0 8
def Cfg.movRetries (c : Cfg) (n : Nat) : Nat := c.fF (movA n 5) 8 8
def Cfg.movSpinup (c : Cfg) (n : Nat) : Nat := c.fF (movA n 5) 16 16
def Cfg.movPause (c : Cfg) (n : Nat) : Nat := c.fF (movA n 6) 0 16
def Cfg.movTachWin (c : Cfg) (n : Nat) : Nat := c.fF (movA n 6) 16 16
def Cfg.movTachTo (c : Cfg) (n : Nat) : Nat := c.fF (movA n 7) 0 16
def Cfg.movLowMs (c : Cfg) (n : Nat) : Nat := c.fF (movA n 7) 16 16
def Cfg.movCoast (c : Cfg) (n : Nat) : Nat := c.fF (movA n 8) 0 16

/-- Full scale, 100 % in Q16.16. -/
def fullScale : Int := 6553600

/-- The safe value of a mover channel: SAFE_KIND, TRIP_KIND and FIXED (R443). -/
def Cfg.safeKind (c : Cfg) (n : Nat) : Nat := c.fF (0x50A40 + 8 * n) 0 8
def Cfg.tripKind (c : Cfg) (n : Nat) : Nat := c.fF (0x50A40 + 8 * n) 8 8
def Cfg.safeFixed (c : Cfg) (n : Nat) : Int := sword (c.f (0x50A44 + 8 * n))

def MChan.empty : MChan :=
  { state := 1, since := 0, retry := 0, latch := 0, lowFor := 0, offSince := 0, stamps := [], lastEdge := none, rpm := 0, noPulse := false,
    openIn := false, evid := false, speedOk := false, uc := 0, eCmd := 0, held := 0, e := 0, parked := false, trip := false, starts := 0,
    stalls := 0, outBad := 0, outAt := 0, misAt := none, tachOpen := false, cmdResult := 0, reason := 0 }

def DTab.empty : DTab := { req := false, held := 0, lost := false }

def Dyn.mch (d : Dyn) (n : Nat) : MChan := tget MChan.empty d.fld.mov n
def Dyn.setMch (d : Dyn) (n : Nat) (x : MChan) : Dyn := { d with fld := { d.fld with mov := tput MChan.empty d.fld.mov n x } }
def Dyn.dtab (d : Dyn) (t : Nat) : DTab := tget DTab.empty d.fld.tabs t
def Dyn.setDtab (d : Dyn) (t : Nat) (x : DTab) : Dyn := { d with fld := { d.fld with tabs := tput DTab.empty d.fld.tabs t x } }

/-- e of R398 from an applied demand. -/
def Cfg.spanE (c : Cfg) (n : Nat) (uc : Int) : Int :=
  let lo := sword (c.f (movA n 1))
  lo + rdivI ((sword (c.f (movA n 2)) - lo) * uc) 6553600

/-- The NE 43 level a current channel signals, on the scale of e (R399, R414); 0 where NE43 is 0. -/
def Cfg.ne43 (c : Cfg) (n : Nat) : Int :=
  if c.movKind n = 3 then (if c.movNe43 n = 1 then -163840 else if c.movNe43 n = 2 then 6963200 else 0) else 0

/-- The safe value of a mover channel, given the e it drives (R401, R426). -/
def Cfg.movSafe (c : Cfg) (n : Nat) (e : Int) : Int :=
  match c.safeKind n with
  | 1 => e
  | 2 => c.spanE n (clampI (c.safeFixed n) 0 fullScale)
  | 3 => c.ne43 n
  | _ => 0

/-- What the die drives on channel `n`, and whether it is parked (R401, R410, R422, R554). -/
def dieMov (c : Cfg) (d : Dyn) (n : Nat) : Int × Bool :=
  let g := d.grp (4 + n / 16)
  let x := d.mch n
  if !c.movEn n || g.line == 1 then (0, false)
  else if g.line == 2 then (0, true)
  else if g.latch ≠ 0 then (0, false)
  else if x.state = 6 then (c.ne43 n, false)
  else if d.standby || g.lease then (0, true)
  else if x.trip then (if c.tripKind n = 1 then c.ne43 n else 0, false)
  else if g.wdExp then (if c.img.pairOn then (0, true) else (c.movSafe n x.e, false))
  else if g.holdExp then (c.movSafe n x.e, false)
  else (x.held, false)

/-- The die of mover group `m` drives its channels anew. -/
def reapplyMov (c : Cfg) (m : Nat) (d : Dyn) : Dyn :=
  forEach (upFrom (16 * m) 16) d (fun n d =>
    let v := dieMov c d n
    d.setMch n { d.mch n with e := v.1, parked := v.2 })

/-- The die of any field group drives its outputs anew. -/
def reapplyG (c : Cfg) (g : Nat) (d : Dyn) : Dyn := if g < 4 then reapply c g d else reapplyMov c (g - 4) d

/-- The drive of a fan channel is on (R401). -/
def MChan.driving (x : MChan) : Bool := x.state == 2 || x.state == 3 || x.state == 4

/-- The demand u of a channel (R396). -/
def demandOf (c : Cfg) (drv : Nat → Option Int) (d : Dyn) (n : Nat) : Int :=
  match c.movDem n with
  | 0 => sword (c.f (movA n 16))
  | 1 => (drv n).getD 0
  | _ => let t := d.dtab (c.movTable n); if t.req then t.held else 0

/-- MOVER_DRIVE_UPDATE at a frame boundary (R398, R400, R401). -/
def movSend (c : Cfg) (drv : Nat → Option Int) (n : Nat) (d : Dyn) : Dyn :=
  let x := d.mch n
  if !c.movEn n then d
  else if d.glb.st = .safe then d.setMch n { x with uc := 0, eCmd := c.movSafe n x.e }
  else if c.movPlain n ∧ d.glb.st = .scan then d
  else
    let on := if c.movPlain n then d.glb.st == .run else x.driving
    if on then
      let uc := clampI (demandOf c drv d n) (c.movMinDuty n) fullScale
      d.setMch n { x with uc := uc, eCmd := c.spanE n uc }
    else d.setMch n { x with uc := 0, eCmd := 0 }

/-- FORWARD_FRAME_SET of mover group `m` (R365, R394, R398, R554). -/
def forwardMov (c : Cfg) (m : Nat) (d : Dyn) : Dyn :=
  let g := 4 + m
  if d.sends && (d.grp g).line == 0 then
    let d1 := markSeen c g d
    let d2 := d1.setGrp g { d1.grp g with holding := false, holdExp := false, lease := (d1.grp g).lease && d1.glb.role == .standby }
    let d3 := forEach (upFrom (16 * m) 16) d2 (fun n d =>
      if c.movEn n then d.setMch n { d.mch n with held := (d.mch n).eCmd, trip := rank3Mv c d n } else d)
    reapplyMov c m d3
  else d

/-- RETURN_FRAME_SET of a mover group: the status record, and whether each tachometer input rests open (R402). -/
def returnMov (c : Cfg) (m : Nat) (r : ReturnSet) (d : Dyn) : Dyn :=
  if c.grpEn (4 + m) then
    let d1 := returnStatus (4 + m) r.valid d
    if d.standby then d1
    else forEach (List.range 16) d1 (fun i d =>
      let n := 16 * m + i
      if c.movEn n ∧ ¬ c.movPlain n then d.setMch n { d.mch n with openIn := r.levels.testBit i } else d)
  else d

/-- TACH_EDGE (R402): the die counts and stamps the edge in every state, on a STANDBY too, whose input listens (R409). `stamp` is device time
in µs. -/
def tachEdge (c : Cfg) (n stamp : Nat) (d : Dyn) : Dyn :=
  if c.movEn n ∧ ¬ c.movPlain n then
    let x := d.mch n
    d.setMch n { x with stamps := x.stamps ++ [stamp], lastEdge := some stamp }
  else d

/-- The edges within the last TACH_WIN (R402). -/
def tachEdges (c : Cfg) (n : Nat) (d : Dyn) : List Nat := (d.mch n).stamps.filter (fun t => d.tim.us ≤ t + 1000 * c.movTachWin n)

/-- TACH_SPEED_UPDATE at a frame boundary (R402). A STANDBY takes its speed from the mirror (R409). -/
def speedUpdate (c : Cfg) (n : Nat) (d : Dyn) : Dyn :=
  if !c.movEn n || c.movPlain n then d
  else if d.standby then d.setMch n { d.mch n with stamps := tachEdges c n d }
  else
    let x := d.mch n
    let now := d.tim.us
    let ss := tachEdges c n d
    let quiet := match x.lastEdge with
      | some t => decide (t + 1000 * c.movTachTo n < now)
      | none => true
    let rpm := if quiet then 0 else
      match ss.head?, ss.getLast? with
      | some a, some b =>
        if 2 ≤ ss.length ∧ a < b then sat32 (rdivI (60000000 * 65536 * ((ss.length : Int) - 1)) (max 1 (c.movPpr n * (b - a)))) else x.rpm
      | _, _ => x.rpm
    let lost := x.openIn || (quiet && x.driving)
    let ok := decide ((d.grp (4 + n / 16)).startMs + c.movTachWin n ≤ d.ms) && !lost
    d.setMch n { x with stamps := ss, noPulse := quiet, rpm := rpm, speedOk := ok }

/-- The usable measured speed of a channel (R280, R402). -/
def movSpeed (c : Cfg) (d : Dyn) (n : Nat) : Option Int :=
  if c.movEn n && !c.movPlain n && (d.mch n).speedOk then some (d.mch n).rpm else none

/-- Airflow evidence (R406). -/
def evidence (c : Cfg) (src : Nat → Nat → Option Int) (d : Dyn) (n : Nat) : Bool :=
  match c.fF (movA n 9) 0 8 with
  | 1 =>
    let w := c.f (movA n 10)
    match src (fld w 0 8) (fld w 16 16) with
    | some v => decide (sword (c.f (movA n 11)) ≤ v)
    | none => false
  | 2 => (dioInput c d (c.fF (movA n 9) 16 16)).getD false
  | _ => false

/-- Enter a state of R405. -/
def MChan.go (x : MChan) (ms st : Nat) : MChan :=
  { x with state := st, since := ms, lowFor := 0, offSince := if x.driving && !(st == 2 || st == 3 || st == 4) then ms else x.offSince,
           starts := if st = 2 then satInc 16 x.starts else x.starts }

/-- A guard trip, a latch of the group or the fence holds the drive off (R407). -/
def MChan.frozen (c : Cfg) (d : Dyn) (n : Nat) : Bool :=
  let g := d.grp (4 + n / 16)
  rank3Mv c d n || g.latch != 0 || g.line == 2

/-- The channel latches with STALL_RUN (R405). -/
def stallRun (c : Cfg) (n : Nat) (d : Dyn) : Dyn :=
  let x := (d.mch n).go d.ms 6
  (d.setMch n { x with latch := 2, stalls := satInc 16 x.stalls }).fault c (0x9000 + n) 0x9062 3 0 0 false false

/-- A failed start (R405): PAUSE, or LATCHED with the retries spent. -/
def stallStart (c : Cfg) (n : Nat) (d : Dyn) : Dyn :=
  let x := d.mch n
  if x.retry < c.movRetries n then
    (d.setMch n { x.go d.ms 5 with stalls := satInc 16 x.stalls }).fault c (0x9000 + n) 0x9060 1 0 0 false false
  else
    (d.setMch n { x.go d.ms 6 with latch := 1, stalls := satInc 16 x.stalls }).fault c (0x9000 + n) 0x9061 2 0 0 false false

/-- FAN_STATE_UPDATE: the first transition of R405 that applies. `tick` says that a frame boundary has passed. -/
def fanStep (c : Cfg) (run tick : Bool) (n : Nat) (d : Dyn) : Dyn :=
  let x := d.mch n
  let src := 0x9000 + n
  let frz := MChan.frozen c d n
  let proven := x.speedOk && decide (c.movMinRpm n ≤ x.rpm)
  let lost := x.openIn || (x.noPulse && x.driving)
  let lowNow := x.speedOk && decide (x.rpm < c.movMinRpm n)
  let under := (d.grp (4 + n / 16)).cond == 3
  let wait := d.setMch n { x with since := if tick then x.since + 1 else x.since }
  let bump := if tick then x.lowFor + 1 else x.lowFor
  if x.state = 6 then d
  else if !run then
    if x.state = 1 then d.setMch n { x with retry := 0 }
    else (d.setMch n { x.go d.ms 1 with retry := 0 }).clears src [0x9060]
  else
    match x.state with
    | 1 => d.setMch n { x.go d.ms 2 with retry := 0 }
    | 2 =>
      if proven then (d.setMch n (x.go d.ms 3)).clears src [0x9060]
      else if frz then wait
      else if x.since + 1000 * c.movSpinup n ≤ d.ms then
        if lost && x.evid then (d.setMch n (x.go d.ms 4)).fault c src 0x9063 1 0 0 false false else stallStart c n d
      else d
    | 5 =>
      if frz then wait
      else if x.since + 1000 * c.movPause n ≤ d.ms then d.setMch n { x.go d.ms 2 with retry := x.retry + 1 } else d
    | 3 =>
      if frz then wait
      else if lost then
        if x.evid then (d.setMch n (x.go d.ms 4)).fault c src 0x9063 1 0 0 false false else stallRun c n d
      else if lowNow then
        if under then d
        else if c.movLowMs n + 1 ≤ bump then stallRun c n d else d.setMch n { x with lowFor := bump }
      else d.setMch n { x with lowFor := 0 }
    | _ =>
      if proven then (d.setMch n (x.go d.ms 3)).clears src [0x9063]
      else if frz then wait
      else if x.evid then d.setMch n { x with lowFor := 0 }
      else if c.movLowMs n + 1 ≤ bump then stallRun c n d else d.setMch n { x with lowFor := bump }

/-- The ACTIVE's state of a channel on a STANDBY (R409), with the records of the transition it shows, so that both modules hold the same. -/
def movMirror (c : Cfg) (n st retry : Nat) (rpm : Int) (noPulse openIn evid speedOk : Bool) (d : Dyn) : Dyn :=
  let x := d.mch n
  let src := 0x9000 + n
  let y := { (if st = x.state then x else x.go d.ms st) with
             retry := retry, rpm := rpm, noPulse := noPulse, openIn := openIn, evid := evid, speedOk := speedOk }
  if st = x.state then d.setMch n y
  else
    let stalled := st == 5 || st == 6
    let latch := if st = 6 then (if x.state = 2 then 1 else 2) else 0
    let d1 := d.setMch n { y with latch := latch, stalls := if stalled then satInc 16 y.stalls else y.stalls }
    if st = 4 then d1.fault c src 0x9063 1 0 0 false false
    else if st = 5 then d1.fault c src 0x9060 1 0 0 false false
    else if st = 6 then (if latch = 1 then d1.fault c src 0x9061 2 0 0 false false else d1.fault c src 0x9062 3 0 0 false false)
    else if st = 3 then d1.clears src [0x9060, 0x9063]
    else if st = 1 then d1.clears src [0x9060, 0x9061, 0x9062]
    else d1

/-- The speed has come back to MIN_RPM: TACH_LOST ends (R416). -/
def tachBack (c : Cfg) (n : Nat) (d : Dyn) : Dyn :=
  let x := d.mch n
  if x.speedOk && decide (c.movMinRpm n ≤ x.rpm) then d.clears (0x9000 + n) [0x9063] else d

/-- Records of a channel that open and close by themselves at a boundary (R399, R409, R416). -/
def movRecords (c : Cfg) (n : Nat) (d0 : Dyn) : Dyn :=
  let d := tachBack c n d0
  let x := d.mch n
  let src := 0x9000 + n
  let d1 := if x.outBad ≠ 0 ∧ x.outAt + 1000 ≤ d.ms then (d.setMch n { x with outBad := 0 }).clears src [0x9065, 0x9066] else d
  let d2 := match x.misAt with
    | some t => if t + 100 ≤ d.ms then (d1.setMch n { d1.mch n with misAt := none }).clears src [0x906F] else d1
    | none => d1
  let y := d2.mch n
  if y.openIn && y.state == 1 && !y.tachOpen then (d2.setMch n { y with tachOpen := true }).fault c src 0x9064 1 0 0 false false
  else if !y.openIn && y.tachOpen then (d2.setMch n { y with tachOpen := false }).clears src [0x9064]
  else d2

/-- Supervision of one channel at a frame boundary: evidence, then R405 in RUN and SCAN. -/
def movBoundary (c : Cfg) (src : Nat → Nat → Option Int) (run : Nat → Bool) (n : Nat) (d : Dyn) : Dyn :=
  if !c.movEn n then d
  else if c.movPlain n then movRecords c n d
  else if d.standby then movRecords c n d
  else
    let d1 := d.setMch n { d.mch n with evid := evidence c src d n }
    let d2 := if d.glb.st = .run ∨ d.glb.st = .scan then fanStep c (run n) true n d1 else d1
    movRecords c n d2

/-- DUTY_TABLE_EVAL (R403). -/
def tableEval (c : Cfg) (src : Nat → Nat → Option Int) (t : Nat) (d : Dyn) : Dyn :=
  let nn := c.fF (tabA t 0) 8 8
  let ra := c.f (tabA t 1)
  let rb := c.f (tabA t 2)
  let a := src (fld ra 0 8) (fld ra 16 16)
  let b := if fld rb 0 8 = 0 then some 0 else src (fld rb 0 8) (fld rb 16 16)
  let y := d.dtab t
  match a, b with
  | some va, some vb =>
    let x := if fld rb 0 8 = 0 then va else sat32 (va - vb)
    let req := if sword (c.f (tabA t 3)) ≤ x then true else if x ≤ sword (c.f (tabA t 4)) then false else y.req
    let xs := (List.range nn).map (fun (j : Nat) => sword (c.f (tabA t (8 + 2 * j))))
    let ys := (List.range nn).map (fun (j : Nat) => sword (c.f (tabA t (9 + 2 * j))))
    let v := (interp (clampI x (nth 0 xs 0) (nth 0 xs (nn - 1))) (xs.zip ys)).getD y.held
    let held := if (req && !y.req) || decide (sword (c.f (tabA t 5)) ≤ (v - y.held).natAbs) then v else y.held
    (d.setDtab t { req := req, held := held, lost := false }).clears (0x9200 + t) [0x9067]
  | _, _ =>
    (d.setDtab t { y with lost := true }).fault c (0x9200 + t) 0x9067 1 0 0 false false

/-- The tables of the table section (R403, R412): a block that the section does not list has no nodes. -/
def Cfg.usedTables (c : Cfg) : List Nat := (List.range 16).filter (fun t => c.img.ok && c.fF (tabA t 0) 8 8 != 0)

/-- Every table is evaluated. -/
def tablesEval (c : Cfg) (src : Nat → Nat → Option Int) (d : Dyn) : Dyn := forEach c.usedTables d (tableEval c src)

/-- COMMON_FAULT_LINE (R366) of any field group. -/
def commonLine (c : Cfg) (g line : Nat) (d : Dyn) : Dyn :=
  if g < 4 then commonLineDio c g line d else reapplyMov c (g - 4) (d.setGrp g { d.grp g with line := line % 4 })

/-- Operations of a field group that also make a mover die drive its channels anew. -/
def moverGroup (c : Cfg) (g : Nat) (d : Dyn) : Dyn := if g < 4 then d else reapplyMov c (g - 4) d

/-- OUTPUT_OPEN (R399). -/
def outputOpen (c : Cfg) (n : Nat) (d : Dyn) : Dyn :=
  if c.movEn n ∧ c.movKind n = 3 then
    let x := d.mch n
    let d1 := d.setMch n { x with outBad := 1, outAt := d.ms }
    if x.outBad = 1 then d1 else d1.fault c (0x9000 + n) 0x9065 2 0 0 false false
  else d

/-- OUTPUT_SHORT (R399). -/
def outputShort (c : Cfg) (n : Nat) (d : Dyn) : Dyn :=
  if c.movEn n ∧ (c.movKind n = 1 ∨ c.movKind n = 2) then
    let x := d.mch n
    let d1 := d.setMch n { x with outBad := 2, outAt := d.ms }
    if x.outBad = 2 then d1 else d1.fault c (0x9000 + n) 0x9066 2 0 0 false false
  else d

/-- Clear the latch of a fan channel (R405): LATCHED to OFF. -/
def movUnlatch (n : Nat) (d : Dyn) : Dyn :=
  let x := d.mch n
  if x.state = 6 then (d.setMch n { x.go d.ms 1 with latch := 0, retry := 0 }).clears (0x9000 + n) [0x9061, 0x9062] else d

/-- MOV_CCMD.CLEAR. -/
def movClear (n : Nat) (d : Dyn) : Dyn :=
  let d1 := movUnlatch n d
  d1.setMch n { d1.mch n with cmdResult := 0 }

/-- MOV_GCMD.CLEAR. -/
def movGroupClear (m : Nat) (d : Dyn) : Dyn :=
  let d1 := forEach (upFrom (16 * m) 16) d movUnlatch
  d1.setGrp (4 + m) { d1.grp (4 + m) with cmdResult := 0 }

/-- LEASE_EXPIRY (R410, R554): the die of an ACTIVE's mover group parks its drives. -/
def leaseExpiry (c : Cfg) (m : Nat) (d : Dyn) : Dyn :=
  if d.glb.role = .active then reapplyMov c m (d.setGrp (4 + m) { d.grp (4 + m) with lease := true }) else d

/-- PARTNER_DRIVE_MISMATCH (R409): PWM and voltage channels of a STANDBY. -/
def partnerDriveMismatch (c : Cfg) (n : Nat) (d : Dyn) : Dyn :=
  let x := d.mch n
  if d.standby ∧ c.movEn n ∧ (c.movKind n = 1 ∨ c.movKind n = 2) then
    let d1 := d.setMch n { x with misAt := some d.ms }
    if x.misAt.isSome then d1 else d1.fault c (0x9000 + n) 0x906F 1 0 0 false false
  else d

/-- SPINUP_TIMEOUT, PAUSE_TIMEOUT and LOW_SPEED_TIMEOUT: the channel's state machine where the window has run out. -/
def fanTimeout (c : Cfg) (run : Bool) (n : Nat) (states : List Nat) (d : Dyn) : Dyn :=
  if c.movEn n && !c.movPlain n && !d.standby && (d.glb.st == .run || d.glb.st == .scan) && states.contains (d.mch n).state then
    fanStep c run false n d
  else d

/-- Proven, and stopped (R405). -/
def movProven (d : Dyn) (n : Nat) : Bool := (d.mch n).state == 3 || (d.mch n).state == 4

def movStopped (c : Cfg) (d : Dyn) (n : Nat) : Bool :=
  let x := d.mch n
  x.state == 1 && ((x.speedOk && decide (x.rpm < c.movMinRpm n)) || decide (x.offSince + 1000 * c.movCoast n ≤ d.ms))

/-- The latched fault a unit sees on mover channel `n`. -/
def movLatched (c : Cfg) (d : Dyn) (n : Nat) : Bool := c.movEn n && ((d.mch n).state == 6 || (d.grp (4 + n / 16)).latch != 0)

/-- A digital or mover group starts, with its channels (R381, R394). -/
def groupStart (g : Nat) (d : Dyn) : Dyn :=
  let d1 := grpStart g d
  if g < 4 then d1 else forEach (upFrom (16 * (g - 4)) 16) d1 (fun n d =>
    let y := d.mch n
    d.setMch n { MChan.empty with starts := y.starts, stalls := y.stalls, lastEdge := y.lastEdge, since := d.ms, offSince := d.ms, noPulse := true })

end Sys2Proof.Machine
end

