-- ==== Sys2Proof/Machine/Loop.lean ====
section
/-! DEFINITION. Sources, control loops, missed samples and time-proportioned outputs (R277 to R305). -/

namespace Sys2Proof.Machine

open Sys2Proof

/-- Base of loop `n` (R301). -/
def loopA (n : Nat) : Nat := 0x180000 + n * 0x100

def Cfg.loopEn (c : Cfg) (n : Nat) : Bool := decide (n < c.fx.nLoops) && c.img.ok && c.bF (loopA n) 0

/-- Sample period in frames by PERIOD (R300). -/
def periodOf (p : Nat) : Nat := nth 1 [1, 2, 5, 10, 20, 50, 100, 200, 500, 1000, 2000, 5000, 10000, 30000, 60000] p

def Cfg.loopP (c : Cfg) (n : Nat) : Nat := periodOf (c.fF (loopA n) 16 8)
def Cfg.loopPhase (c : Cfg) (n : Nat) : Nat := c.fF (loopA n + 4) 0 16
def Cfg.loopS (c : Cfg) (n o : Nat) : Int := sword (c.f (loopA n + o))

/-- A loop reference of a word: KIND and INDEX (R280). -/
def Cfg.loopRef (c : Cfg) (n j : Nat) : Nat × Nat := refOf (c.f (loopA n + 4 * j))

def Tpo.empty : Tpo := { on := 0, res := 0, elapsed := 0, out := false }

def LoopS.empty : LoopS :=
  { state := 0, i := 0, xp := 0, dst := 0, u := 0, init := false, bank := false, sampled := false, satHi := false, satLo := false, held := false,
    missed := false, fbCause := 0, x := 0, r := 0, e := 0, p := 0, f := 0, lastSp := 0, lastF := 0, manAt := none, modeAt := none,
    onTime := 10, consec := 0, total := 0, count := 0, overrun := false, lostPv := false, lostSp := false, lostF := false, lostTrack := false,
    tpo := Tpo.empty, reason := 0, cmdResult := 0 }

def Gen.empty : Gen :=
  { y := 0, v := 0, a := 0, atTarget := false, stopped := false, ovf := false, out := 0, snap := false, reason := 0, cmdResult := 0 }

def Ovr.empty : Ovr := { winner := 0, u := 0, fresh := true, switches := 0, tpo := Tpo.empty, reason := 0 }

def Dyn.lp (d : Dyn) (n : Nat) : LoopS := tget LoopS.empty d.ctl.loops n
def Dyn.setLp (d : Dyn) (n : Nat) (x : LoopS) : Dyn := { d with ctl := { d.ctl with loops := tput LoopS.empty d.ctl.loops n x } }
def Dyn.gen (d : Dyn) (n : Nat) : Gen := tget Gen.empty d.ctl.gens n
def Dyn.setGen (d : Dyn) (n : Nat) (x : Gen) : Dyn := { d with ctl := { d.ctl with gens := tput Gen.empty d.ctl.gens n x } }
def Dyn.ovr (d : Dyn) (g : Nat) : Ovr := tget Ovr.empty d.ctl.ovrs g
def Dyn.setOvr (d : Dyn) (g : Nat) (x : Ovr) : Dyn := { d with ctl := { d.ctl with ovrs := tput Ovr.empty d.ctl.ovrs g x } }

def prfA (n : Nat) : Nat := 0x1A0000 + n * 0x40
def ovrA (g : Nat) : Nat := 0x1A1000 + g * 0x40
def trcA (t : Nat) : Nat := 0x1A2000 + t * 0x40

def Cfg.genEn (c : Cfg) (n : Nat) : Bool := decide (n < c.fx.nGens) && c.img.ok && c.bF (prfA n) 0
def Cfg.ovrEn (c : Cfg) (g : Nat) : Bool := decide (g < c.fx.nOvr) && c.img.ok && c.bF (ovrA g) 0

/-- The input snapshot as a state whose blocks read as they stood when it was taken (R35). -/
def Dyn.frozen (d : Dyn) : Dyn :=
  { d with cnv := d.snap.cnv, mst := { d.mst with cells := d.snap.cells }, cols := d.snap.cols, fld := d.snap.fld,
           ctl := { d.ctl with loops := d.snap.loops, gens := d.snap.gens, ovrs := d.snap.ovrs } }

/-- Take the input snapshot. -/
def takeSnap (d : Dyn) : Dyn :=
  { d with snap := { cnv := d.cnv, cells := d.mst.cells, cols := d.cols, fld := d.fld, loops := d.ctl.loops, gens := d.ctl.gens
                     ovrs := d.ctl.ovrs } }

/-- Entry to DORMANT from RUN (R298): what the outputs hold is what the latest boundary sent, and the values of a later sample are
never sent. -/
def heldOutputs (d : Dyn) : Dyn :=
  let d1 := forEach (List.range 64) d (fun n d => d.setLp n { d.lp n with u := (tget LoopS.empty d.snap.loops n).u })
  forEach (List.range 8) d1 (fun g d => d.setOvr g { d.ovr g with u := (tget Ovr.empty d.snap.ovrs g).u })

/-- The usable value of a source (R280), read from state `z`. -/
def srcVal (c : Cfg) (z : Dyn) (kind idx : Nat) : Option Int :=
  match kind with
  | 1 => let x := z.chan idx; if x.state = 1 ∨ x.state = 2 then some x.value else none
  | 2 => let x := z.cell idx; if x.state = 1 ∨ x.state = 2 then some x.m else none
  | 3 => let x := z.cell idx; if x.state = 1 ∨ x.state = 2 then some x.temp else none
  | 4 =>
    let x := z.col (idx / 4)
    if c.colEn (idx / 4) && (x.state == 1 || x.state == 2) && (idx % 4 != 2 || c.colBatch (idx / 4)) then
      some (match idx % 4 with
        | 0 => x.core.pred
        | 1 => x.core.temp
        | 2 => sat32 ((x.core.ttt : Int) * 65536)
        | _ => x.core.kappa)
    else none
  | 5 => movSpeed c z idx
  | 6 => if c.loopEn idx then some (z.lp idx).u else none
  | 7 => if c.genEn idx then some (z.gen idx).out else none
  | 8 => dioRate c z idx
  | _ => none

/-- One frame of a time-proportioned output (R297). -/
def tpoStep (cycle phase minOn sched : Nat) (en : Bool) (u : Int) (t : Tpo) : Tpo :=
  let cy := max 1 cycle
  let t1 := if sched % cy = phase then
      let want := (u * (cy : Int)).fdiv 100
      let tot := want + t.res
      let on0 := (clampI (tot.fdiv 65536) 0 cy).toNat
      let on1 := if on0 < minOn then 0 else if cy - on0 < minOn then cy else on0
      { t with on := on1, res := clampI (tot - (on1 : Int) * 65536) (-(cy : Int) * 65536) ((cy : Int) * 65536), elapsed := 0 }
    else { t with elapsed := min (t.elapsed + 1) 65535 }
  if u = 0 ∨ ¬ en then { t1 with on := 0, res := 0, out := false } else { t1 with out := decide (t1.elapsed < t1.on) }

/-- The time-proportioned output of a loop at a frame boundary. -/
def loopTpo (c : Cfg) (sched n : Nat) (d : Dyn) : Dyn :=
  if (c.loopRef n 7).1 = 2 then
    let w := c.f (loopA n + 0x38)
    d.setLp n { d.lp n with tpo := tpoStep (fld w 0 16) (fld w 16 16) (c.fF (loopA n + 0x3C) 0 16) sched (c.loopEn n) (d.lp n).u (d.lp n).tpo }
  else d

/-- A loop starts (R298): its operator registers take their initial values. -/
def loopStart (n : Nat) (s : State) : State :=
  if !s.c.loopEn n then s
  else
    let r0 := s.c.reg.load (loopA n) 43
    let c0 : Cfg := { s.c with reg := r0 }
    let im := c0.fF (loopA n) 8 8
    let mode := mix (c0.w (loopA n + 0xA0)) (BitVec.ofNat 32 im) (maskAt 0 2)
    let r1 := ((r0.putB (loopA n + 0xA0) mode).putB (loopA n + 0xA4) (c0.f (loopA n + 0x34))).putB (loopA n + 0xA8) (c0.f (loopA n + 0x2C))
    let x := s.d.lp n
    { s with c := { s.c with reg := r1 },
             d := s.d.setLp n { x with state := im + 2, u := c0.loopS n 0x2C, init := true, sampled := false, fbCause := 0, x := 0, lastSp := 0, lastF := 0,
                                       manAt := none, modeAt := none, onTime := 10, consec := 0, missed := false, overrun := false,
                                       tpo := { x.tpo with res := 0, on := 0, out := false } } }

/-- Every other entry to RUN (R298): the first AUTO sample initialises. -/
def loopResume (c : Cfg) (n : Nat) (d : Dyn) : Dyn := if c.loopEn n then d.setLp n { d.lp n with init := true } else d

/-- The output window of a sample (R282). -/
def window (lo hi du u : Int) : Int × Int :=
  if 0 < du then
    let l := max lo (u - du)
    let h := min hi (u + du)
    if h < l then (if hi < u then (u - du, u - du) else (u + du, u + du)) else (l, h)
  else (lo, hi)

/-- The coefficients of a bank (R283). -/
structure Coef where
  kp : Int
  ki : Int
  kd : Int
  kf : Int
  kps : Nat
  kis : Nat
  kds : Nat
  kfs : Nat
  dsh : Nat

def Cfg.coef (c : Cfg) (n : Nat) (b : Bool) : Coef :=
  let a := loopA n + (if b then 0x80 else 0x40)
  { kp := sword (c.f a), ki := sword (c.f (a + 4)), kd := sword (c.f (a + 8)), kf := sword (c.f (a + 12)), kps := c.fF (a + 16) 0 8,
    kis := c.fF (a + 16) 8 8, kds := c.fF (a + 16) 16 8, kfs := c.fF (a + 16) 24 8, dsh := c.fF (a + 20) 0 8 }

/-- round(m × x / 2^s). -/
def mulShift (m x : Int) (s : Nat) : Int := rdivI (m * x) (2 ^ s)

/-- The filtered derivative after a sample (R282). -/
def derivative (k : Coef) (act : Bool) (x xp dst : Int) : Int :=
  let dr := sat32 (mulShift (x - xp) k.kd k.kds)
  let dr' := if act then dr else -dr
  sat32 (dst + shrI (dr' - dst) k.dsh)

/-- What replaces the integral step of a non-selected member of an override group (R318): NS_RULE and U_prev. -/
def nsRule (c : Cfg) (d : Dyn) (n : Nat) : Option (Nat × Int) :=
  let r := c.loopRef n 7
  if r.1 = 3 ∧ c.ovrEn r.2 then
    let g := d.ovr r.2
    if g.fresh ∨ g.winner = n then none else some (c.fF (ovrA r.2) 2 2, g.u)
  else none

/-- A limited output and the flags of a sample. -/
structure LawOut where
  i : Int
  u : Int
  satHi : Bool
  satLo : Bool
  held : Bool

/-- The law of R282 from P, F and the updated Dst on: the integral, the output window and the output. `d0` is dI before
an initialising sample sets it to 0. -/
def autoLaw (init : Bool) (ns : Option (Nat × Int)) (i0 di p f dst uPrev outLo outHi lo hi : Int) : LawOut :=
  let lim := fun (x : Int) => clampI x (outLo * 65536) (outHi * 65536)
  let base := if init then lim ((uPrev - p - f) * 65536) else i0
  let dI := if init then 0 else di
  let rq := fun (x : Int) => rdivI x 65536
  let r : Int × Bool :=
    match (if init then none else ns) with
    | some (0, up) => (lim ((up - dst - f) * 65536), false)
    | some (1, _) => (base, dI != 0)
    | _ =>
      let ic := lim (base + dI)
      let v := p + rq ic + dst + f
      let h := (decide (hi < v) && decide (0 < dI)) || (decide (v < lo) && decide (dI < 0))
      (if h then base else ic, h)
  let v := p + rq r.1 + dst + f
  { i := r.1, u := clampI v lo hi, satHi := decide (hi < v), satLo := decide (v < lo), held := r.2 }

/-- Raise or close a loop's record when a source is lost or usable again. -/
def loopFlag (c : Cfg) (n code sev : Nat) (was now : Bool) (d : Dyn) : Dyn :=
  if now && !was then d.fault c (0xA000 + n) code sev 0 0 false false
  else if !now && was then d.clears (0xA000 + n) [code] else d

/-- What a sample decides before it computes: the state, the bank, the PV. -/
structure Plan where
  st : Nat
  bank : Bool
  pv : Option Int
  init : Bool
  fbCause : Nat
  modeAt : Option Nat

/-- Transfer and fallback at a sample (R285 to R292). `z` is the snapshot. -/
def loopPlan (c : Cfg) (z : Dyn) (n ms : Nat) (x : LoopS) : Plan :=
  let bi := c.fF (loopA n + 8) 0 16
  let bank := match c.fF (loopA n + 4) 16 8 with
    | 0 => c.bF (loopA n + 0xA0) 8
    | 1 => (z.sw bi).s
    | _ => (dioInput c z bi).getD x.bank
  let pr := c.loopRef n 3
  let pv := srcVal c z pr.1 pr.2
  let seen := match x.modeAt with
    | some t => decide (t < ms)
    | none => false
  let release := x.state == 5 && pv.isSome && decide (10 ≤ x.onTime) && (!c.bF (loopA n) 4 || seen)
  let st := if x.state = 5 ∧ ¬ release then 5 else
    match c.fF (loopA n + 0xA0) 0 2 with
    | 0 => 2
    | 1 => if pv.isSome then 3 else 5
    | _ => 4
  let cause := pv.isNone || decide (x.onTime < 10)
  { st := st, bank := bank, pv := pv,
    init := x.init || release || (x.sampled && bank != x.bank && c.bF (loopA n) 3) || (st == 3 && x.state != 3),
    fbCause := if st = 5 then (if pv.isNone then 1 else if x.onTime < 10 then 2 else 3) else 0,
    modeAt := if st = 5 ∧ cause then (if seen then none else x.modeAt) else x.modeAt }

/-- The references of a sample: the value used, the new last usable value, and whether the source is lost. -/
def refVal (c : Cfg) (z : Dyn) (r : Nat × Nat) (last : Int) : Int × Bool :=
  match srcVal c z r.1 r.2 with
  | some v => (v, false)
  | none => (last, true)

/-- What a sample leaves in LOOP_SP and LOOP_MAN (R38, R287, R288): the tracked setpoint, which does not overwrite a write that still waits for the
next sample; and the value of MANUAL, as the word itself (`true`) or as the written word that now acts. -/
def loopStore (n : Nat) (sp : Option Int) (man : Option (Word × Bool)) (r : Regs) : Regs :=
  let a := loopA n + 0xA4
  let r1 := match sp with
    | some v => if tget false r.fresh a then r.putF a (wordOf v) else r.putB a (wordOf v)
    | none => r
  match man with
  | some (v, true) => r1.putB (loopA n + 0xA8) v
  | some (v, false) => r1.putF (loopA n + 0xA8) v
  | none => r1

/-- A loop executes one sample (R282 to R292). `z` is the snapshot of the frame. -/
def loopSample (z : Dyn) (n : Nat) (s : State) : State :=
  let c : Cfg := { s.c with reg := s.c.reg.load (loopA n) 43 }
  let x := s.d.lp n
  let ms := s.d.ms
  let pl := loopPlan c z n ms x
  let pv := pl.pv.getD x.x
  let k := c.coef n pl.bank
  let act := c.bF (loopA n) 1
  let spr := c.loopRef n 4
  let track := c.bF (loopA n) 2 && spr.1 == 0 && pl.pv.isSome && (pl.st == 2 || pl.st == 4)
  let sp : Int × Bool := if spr.1 = 0 then (if track then pv else c.loopS n 0xA4, false) else refVal c z spr x.lastSp
  let ffr := c.loopRef n 5
  let ff : Int × Bool := if ffr.1 = 0 then (0, false) else refVal c z ffr x.lastF
  let tr := c.loopRef n 6
  let tv := srcVal c z tr.1 tr.2
  let e := sat32 (if act then pv - sp.1 else sp.1 - pv)
  let p := sat32 (mulShift k.kp e k.kps)
  let f := sat32 (mulShift k.kf ff.1 k.kfs)
  let lo0 := c.loopS n 0x20
  let hi0 := c.loopS n 0x24
  let w := window lo0 hi0 (c.loopS n 0x28) x.u
  let initNow := pl.st == 3 && pl.init
  let xp0 := if initNow then pv else x.xp
  let dst0 := if initNow then 0 else x.dst
  let upd := pl.pv.isSome && pl.st != 2
  let dst := if upd then derivative k act pv xp0 dst0 else dst0
  let xp := if upd then pv else xp0
  let manSeen := match x.manAt with
    | some t => decide (t < ms)
    | none => false
  -- a transfer into MANUAL takes u_prev, unless LOOP_MAN has been written since the previous sample: that value acts at once (R287)
  let manA := loopA n + 0xA8
  let into := pl.st == 2 && x.state != 2
  let toMan := into && x.manAt.isNone
  let man := if toMan then x.u else if into then sword (c.w manA) else c.loopS n 0xA8
  let di := sat64 (rdivI (k.ki * e * 65536) (2 ^ k.kis))
  let keep : LawOut := { i := x.i, u := x.u, satHi := false, satLo := false, held := false }
  let o : LawOut :=
    if pl.st = 2 then { keep with u := clampI man lo0 hi0 }
    else if pl.st = 3 then autoLaw initNow (nsRule c s.d n) x.i di p f dst x.u lo0 hi0 w.1 w.2
    else if pl.st = 4 then
      let u := match tv with
        | some v => clampI v lo0 hi0
        | none => x.u
      { keep with u := u, i := clampI ((u - p - dst - f) * 65536) (lo0 * 65536) (hi0 * 65536) }
    else { keep with u := if c.fF (loopA n) 24 8 = 1 then clampI (c.loopS n 0x30) w.1 w.2 else x.u }
  -- a record stands until its source is usable again, that of TRACK also until the mode changes (R290, R307)
  let mode := c.fF (loopA n + 0xA0) 0 2
  let lostPv := pl.pv.isNone && (x.lostPv || (pl.st == 5 && mode == 1))
  let lostTr := tv.isNone && (pl.st == 4 || (x.lostTrack && mode == 2))
  let lostF := ff.2 && (pl.st != 2 || x.lostF)
  let onTime := min (x.onTime + 1) 10
  let x1 : LoopS := { x with
    state := pl.st, i := o.i, xp := xp, dst := dst, u := o.u, init := if pl.st = 3 then false else pl.init, bank := pl.bank, sampled := true,
    satHi := o.satHi, satLo := o.satLo, held := o.held, missed := false, fbCause := pl.fbCause, x := pv, r := sp.1, e := e, p := p, f := f,
    lastSp := if spr.1 = 0 then x.lastSp else sp.1, lastF := if ffr.1 = 0 then x.lastF else ff.1, manAt := if manSeen then none else x.manAt,
    modeAt := pl.modeAt, onTime := onTime, consec := 0, count := (x.count + 1) % 2 ^ 32, overrun := x.overrun && decide (onTime < 10),
    lostPv := lostPv, lostSp := sp.2, lostF := lostF, lostTrack := lostTr }
  let r2 := loopStore n (if track then some pv else none) (if toMan then some (wordOf x.u, true) else if into then some (c.w manA, false) else none) c.reg
  let d1 := s.d.setLp n x1
  let d2 := loopFlag c n 0xA060 2 x.overrun x1.overrun d1
  let d3 := loopFlag c n 0xA061 2 x.lostPv lostPv d2
  let d4 := loopFlag c n 0xA062 1 x.lostSp sp.2 d3
  let d5 := loopFlag c n 0xA063 1 x.lostF lostF d4
  { s with c := { s.c with reg := r2 }, d := loopFlag c n 0xA064 1 x.lostTrack lostTr d5 }

/-- A missed sample (R295): the loop's state stays; the third in a row raises CONTROL_OVERRUN. -/
def loopMiss (c : Cfg) (n : Nat) (d : Dyn) : Dyn :=
  let x := d.lp n
  let k := min (x.consec + 1) 255
  let fb := decide (k = 3) && (x.state == 3 || x.state == 4)
  let x1 := { x with missed := true, total := satInc 16 x.total, consec := k, onTime := 0, overrun := x.overrun || decide (k = 3),
                     state := if fb then 5 else x.state, fbCause := if fb then 2 else x.fbCause, modeAt := if fb then none else x.modeAt }
  let d1 := (d.setLp n x1).event (0xA000 + n) 0xA065 0 0 0
  let d2 := { d1 with ctl := { d1.ctl with anyMiss := true } }
  if k = 3 then d2.fault c (0xA000 + n) 0xA060 2 0 0 false false else d2

/-- The loops due at a schedule index, in ascending number (R34). -/
def Cfg.dueLoops (c : Cfg) (sched : Nat) : List Nat :=
  (List.range c.fx.nLoops).filter (fun n => c.loopEn n && sched % c.loopP n == c.loopPhase n)

/-- The drive demand of loops and groups on a mover channel (R281, R319), and the level they time-proportion on a
digital channel. -/
def loopDrive (c : Cfg) (d : Dyn) (n : Nat) : Option Int :=
  match (List.range c.fx.nLoops).find? (fun l => c.loopEn l && c.loopRef l 7 == (1, n)) with
  | some l => some (d.lp l).u
  | none =>
    match (List.range c.fx.nOvr).find? (fun g => c.ovrEn g && refOf (c.f (ovrA g + 4)) == (1, n)) with
    | some g => some (d.ovr g).u
    | none => none

def tpoLevel (c : Cfg) (d : Dyn) (k : Nat) : Bool :=
  ((List.range c.fx.nLoops).any (fun l => c.loopEn l && c.loopRef l 7 == (2, k) && (d.lp l).tpo.out)) ||
  ((List.range c.fx.nOvr).any (fun g => c.ovrEn g && refOf (c.f (ovrA g + 4)) == (2, k) && (d.ovr g).tpo.out))

/-- The code with which a LOOP_MODE value is refused, 0 where it is accepted (R285, R303). -/
def loopModeCode (c : Cfg) (n : Nat) (v : Word) : Nat :=
  let m := fld v 0 2
  if m = 3 then 0xA00A
  else if m = 1 ∧ (c.loopRef n 3).1 = 0 then 0xA045
  else if m = 2 ∧ (c.loopRef n 6).1 = 0 then 0xA045 else 0

/-- A write to LOOP_MODE (R285, R292, R303). -/
def loopModeWrite (n : Nat) (v : Word) (s : State) : State :=
  if s.c.fx.nLoops ≤ n then s
  else
    let code := loopModeCode s.c n v
    let x := s.d.lp n
    if code ≠ 0 then { s with d := s.d.setLp n { x with reason := code } }
    else
      let a := loopA n + 0xA0
      let nv := v &&& 0x103#32
      { s with c := { s.c with reg := if s.c.loopEn n then s.c.reg.shadow a nv else s.c.reg.putB a nv },
               d := s.d.setLp n { x with modeAt := some s.d.ms, reason := if x.reason = 0xA045 then 0 else x.reason } }

/-- LOOP_CMD.REINIT and CLR_COUNTS (R305). -/
def reinit (c : Cfg) (n : Nat) (d : Dyn) : Dyn :=
  if c.fx.nLoops ≤ n then d else d.setLp n { d.lp n with init := true, cmdResult := 0 }

def loopClrCounts (c : Cfg) (n : Nat) (d : Dyn) : Dyn :=
  if c.fx.nLoops ≤ n then d else d.setLp n { d.lp n with total := 0, count := 0, cmdResult := 0 }

end Sys2Proof.Machine
end

