-- ==== Sys2Proof/Machine/Profile.lean ====
section
/-! DEFINITION. Profile generators, override groups and trace channels (R308 to R325). -/

namespace Sys2Proof.Machine

open Sys2Proof

/-- Word `j` of generator `n`: TARGET, V, A and J as written, which act in the step of the frame at whose boundary the write is applied
(R315). -/
def Cfg.prfW (c : Cfg) (n j : Nat) : Int := sword (c.w (prfA n + 4 * j))

/-- The limits in internal units (R310). -/
def Cfg.prfVf (c : Cfg) (n : Nat) : Int := rdivI (c.prfW n 2 * 2 ^ 32) 1000
def Cfg.prfAf (c : Cfg) (n : Nat) : Int := rdivI (c.prfW n 3 * 2 ^ 32) 1000000
def Cfg.prfJf (c : Cfg) (n : Nat) : Int := rdivI (c.prfW n 4 * 2 ^ 32) 1000000000

/-- Quotient rounded toward plus infinity; `b` is positive. -/
def cdivI (a b : Int) : Int := -((-a).fdiv b)

/-- G(x) of R311: the velocity gained while the acceleration x ramps to 0. -/
def gainG (jf x : Int) : Int :=
  if x ≤ 0 then 0 else let n := cdivI x jf; n * x - (jf * n * (n - 1)).fdiv 2

/-- Bisection for the largest number in [lo, hi) that satisfies `ok`. -/
def largest (ok : Int → Bool) : Nat → Int → Int → Int
  | 0, lo, _ => lo
  | f + 1, lo, hi => if hi - lo ≤ 1 then lo else let m := (lo + hi).fdiv 2; if ok m then largest ok f m hi else largest ok f lo m

/-- cmax(w, L): the largest c with w + G(c) ≤ L, for w ≤ L. -/
def cmax (jf w l : Int) : Int := largest (fun c => decide (w + gainG jf c ≤ l)) 160 0 (l - w + 1)

/-- cmin(w, L): the smallest c with w - G(-c) ≥ L, for w ≥ L. -/
def cmin (jf w l : Int) : Int := -(cmax jf (-w) (-l))

/-- The smallest r with r² ≥ x. -/
def isqrtUp (x : Nat) : Nat := let r := isqrt x; if r * r < x then r + 1 else r

/-- stopdist(w, b): an upper bound of the distance to rest (R311). -/
def stopdist (jf af w b : Int) : Int :=
  let w0 := w + (if 0 < b then cdivI (b * b) (2 * jf) else 0)
  let s0 := if w0 * jf ≤ af * af then cdivI (w0 * (isqrtUp (w0 * jf).toNat : Int)) jf
            else cdivI (w0 * w0 * jf + w0 * af * af) (2 * af * jf)
  let s1 := if 0 < b then s0 + cdivI (w0 * b) jf else s0
  s1 + w0

/-- PROFILE_STEP (R311): one frame of a generator's motion. -/
def motion (vf af jf target : Int) (hold : Bool) (y v a : Int) : Int × Int × Int × Bool :=
  let t := target * 2 ^ 32
  let dd := t - y
  if dd.natAbs ≤ jf ∧ v.natAbs ≤ jf ∧ a.natAbs ≤ jf then (t, 0, 0, true)
  else
    let s : Int := if 0 < dd ∨ (dd = 0 ∧ v < 0) then 1 else -1
    let d := s * dd
    let w := s * v
    let b := s * a
    -- beyond a lowered A the acceleration returns by J a frame (R312)
    let beyond := decide (af < b.natAbs)
    let lo := if beyond then (if 0 < b then b - jf else min (b + jf) (-af)) else max (b - jf) (-af)
    let hi := if beyond then (if 0 < b then max (b - jf) af else b + jf) else min (b + jf) af
    let narrow := fun (l : Int) (h : Int) (l' : Int) (h' : Int) => if l' ≤ h' then (l', h') else (l, h)
    let r : Int × Int × Int :=
      if vf < w.natAbs then
        if 0 < w then let x := narrow lo hi (max lo (cmin jf w vf)) hi; (-af, x.1, x.2)
        else let x := narrow lo hi lo (min hi (cmax jf w (-vf))); (af, x.1, x.2)
      else
        let n2 := narrow lo hi (max lo (cmin jf w (-vf))) (min hi (cmax jf w vf))
        let lo1 := n2.1
        let hi1 := n2.2
        if hold || (decide (0 < w) && decide (d ≤ stopdist jf af w b)) then
          if 0 < w then let x := narrow lo1 hi1 (max lo1 (cmin jf w 0)) hi1; (-af, x.1, x.2)
          else if w < 0 then let x := narrow lo1 hi1 lo1 (min hi1 (cmax jf w 0)); (af, x.1, x.2)
          else (0, lo1, hi1)
        else (af, lo1, hi1)
    let b1 := clampI r.1 r.2.1 r.2.2
    let w1 := w + b1
    (y + s * w1, s * w1, s * b1, false)

/-- A generator's step in a frame of RUN (R311, R312, R315): after a SNAP from rest at the target. OVER_LIMIT shows a speed or
acceleration above its limit before or after the step. -/
def genStep (c : Cfg) (n : Nat) (d : Dyn) : Dyn :=
  if !c.genEn n then d
  else
    let x := d.gen n
    let vf := c.prfVf n
    let af := c.prfAf n
    let p : Int × Int × Int := if x.snap then (c.prfW n 1 * 2 ^ 32, 0, 0) else (x.y, x.v, x.a)
    let r := motion vf af (c.prfJf n) (c.prfW n 1) (bit (c.w (prfA n)) 1) p.1 p.2.1 p.2.2
    let beyond : Int → Int → Bool := fun v a => decide (vf < v.natAbs) || decide (af < a.natAbs)
    d.setGen n { x with y := r.1, v := r.2.1, a := r.2.2.1, atTarget := r.2.2.2, snap := false, out := sat32 (rdivI r.1 (2 ^ 32)),
                        ovf := beyond p.2.1 p.2.2 || beyond r.2.1 r.2.2.1 }

/-- A generator starts (R314). `z` is the snapshot. -/
def genStart (c : Cfg) (z : Dyn) (n : Nat) (d : Dyn) : Dyn :=
  if !c.genEn n then d
  else
    let w := c.f (prfA n)
    let y0 := (srcVal c z (fld w 8 8) (fld w 16 16)).getD (c.prfW n 1) * 2 ^ 32
    d.setGen n { d.gen n with y := y0, v := 0, a := 0, atTarget := false, snap := false, ovf := false, out := sat32 (rdivI y0 (2 ^ 32)) }

/-- PRF_CMD.SNAP (R315, R328). -/
def snapCmd (c : Cfg) (n : Nat) (d : Dyn) : Dyn :=
  if c.fx.nGens ≤ n then d else d.setGen n { d.gen n with snap := true, cmdResult := 0 }

/-- The loops a group lists, slot by slot (R316). -/
def Cfg.members (c : Cfg) (g : Nat) : List Nat :=
  ((List.range 8).map (fun k => c.fF (ovrA g + 0x10 + 4 * (k / 4)) (8 * (k % 4)) 8)).filter (fun l => l != 0xFF)

/-- The candidate that wins (R317): none where the group has no candidate. -/
def ovrBest (c : Cfg) (g : Nat) (d : Dyn) : Option Nat :=
  let ms := (c.members g).filter (fun l => c.loopEn l && decide (2 ≤ (d.lp l).state))
  let able := if c.bF (ovrA g) 4 then ms.filter (fun l => (d.lp l).state != 5) else ms
  let cand := if able = [] then ms else able
  let high := c.bF (ovrA g) 1
  cand.foldl (fun (a : Option Nat) l =>
    match a with
    | none => some l
    | some b =>
      let ub := (d.lp b).u
      let ul := (d.lp l).u
      if (if high then ub < ul else ul < ub) ∨ (ul = ub ∧ l < b) then some l else some b) none

/-- OVERRIDE_SELECTION (R317): every change of WINNER counts. The data of OVERRIDE_SWITCH are the old and the new winner
(R433; log entry 85). -/
def ovrSelect (c : Cfg) (g : Nat) (d : Dyn) : Dyn :=
  if !c.ovrEn g then d
  else
    match ovrBest c g d with
    | none => d
    | some l =>
      let x := d.ovr g
      let u := (d.lp l).u
      let ch := decide (l ≠ x.winner)
      let d1 := d.setOvr g { x with winner := l, u := u, fresh := false, switches := if ch then (x.switches + 1) % 2 ^ 32 else x.switches }
      if ch && c.bF (ovrA g) 5 then d1.event (0xA200 + g) 0xA066 0 x.winner l else d1

/-- A group's time-proportioned output (R319). -/
def ovrTpo (c : Cfg) (sched g : Nat) (d : Dyn) : Dyn :=
  if (refOf (c.f (ovrA g + 4))).1 = 2 then
    let w := c.f (ovrA g + 8)
    d.setOvr g { d.ovr g with tpo := tpoStep (fld w 0 16) (fld w 16 16) (c.fF (ovrA g + 12) 0 16) sched (c.ovrEn g) (d.ovr g).u (d.ovr g).tpo }
  else d

/-- A group starts (R320): it selects among its members' outputs, which at a start are their INIT_OUT, and until the selection of its
first frame every member counts as selected (R318). -/
def ovrStart (c : Cfg) (g : Nat) (d : Dyn) : Dyn :=
  if c.ovrEn g then
    let d1 := ovrSelect c g d
    d1.setOvr g { d1.ovr g with fresh := true, tpo := { (d1.ovr g).tpo with res := 0, on := 0, out := false } }
  else d

def Trc.empty : Trc :=
  { state := 0, cause := 0, ring := [], preGot := 0, low := false, high := false, force := false, linked := false, faulted := false, arm := false, frame := 0,
    time := 0, epoch := 0, reason := 0, cmdResult := 0 }

def Dyn.trc (d : Dyn) (t : Nat) : Trc := tget Trc.empty d.ctl.trcs t
def Dyn.setTrc (d : Dyn) (t : Nat) (x : Trc) : Dyn := { d with ctl := { d.ctl with trcs := tput Trc.empty d.ctl.trcs t x } }

def Cfg.trcPre (c : Cfg) (t : Nat) : Nat := c.fF (trcA t + 8) 16 12
def Cfg.trcDiv (c : Cfg) (t : Nat) : Nat := max 1 (c.fF (trcA t + 8) 0 16)
def Cfg.trcCond (c : Cfg) (t : Nat) : Nat := c.fF (trcA t + 12) 0 3

/-- The value a trace source gives (R321): inputs from the snapshot `z`, computed values from this frame. -/
def trcVal (c : Cfg) (z d : Dyn) (kind idx : Nat) : Option Int :=
  match kind with
  | 6 => srcVal c d 6 idx
  | 7 => srcVal c d 7 idx
  | 9 =>
    let x := d.lp (idx / 8)
    if c.loopEn (idx / 8) then
      some (match idx % 8 with
        | 0 => x.u
        | 1 => x.x
        | 2 => x.r
        | 3 => x.e
        | 4 => x.p
        | 5 => sat32 (rdivI x.i 65536)
        | 6 => x.dst
        | _ => x.f)
    else none
  | 10 => if c.ovrEn idx then some (d.ovr idx).u else none
  | 11 => if c.bF (0x12B000 + 0x10 * idx) 0 then some (if (z.sw idx).s then 65536 else 0) else none
  | 12 => if c.genEn idx then some (sat32 (rdivI ((d.gen idx).v * 1000) (2 ^ 32))) else none
  | k => srcVal c z k idx

/-- A channel stops for good (R324): DONE or STOPPED, and TRACE_STOPPED is appended, with the channel and the
cause as data (R433; log entry 85). -/
def trcStop (t st cause : Nat) (d : Dyn) : Dyn :=
  (d.setTrc t { d.trc t with state := st, cause := cause, force := false }).event (0xA300 + t) 0xA067 0 t cause

/-- Keep the latest `n` elements of a list. -/
def lastN (n : Nat) (l : List α) : List α := l.drop (l.length - n)

/-- Whether the trigger fires at a sample instant, and the primed flags after it (R323). -/
def trcFires (c : Cfg) (t : Nat) (x : Trc) (v : Option Int) : Bool × Bool × Bool :=
  let lv := sword (c.f (trcA t + 16))
  let hy := sword (c.f (trcA t + 20))
  match c.trcCond t with
  | 0 => (true, x.low, x.high)
  | 4 => (x.linked, x.low, x.high)
  | 5 => (x.faulted, x.low, x.high)
  | k =>
    match v with
    | none => (false, false, false)
    | some y =>
      let rise := x.low && decide (lv ≤ y)
      let fall := x.high && decide (y ≤ lv)
      ((k != 2 && rise) || (k != 1 && fall), x.low || decide (y < lv - hy), x.high || decide (lv + hy < y))

/-- TRACE_SAMPLE at a sample instant (R322 to R324). -/
def trcSample (c : Cfg) (z : Dyn) (t : Nat) (d : Dyn) : Dyn :=
  let x := d.trc t
  let sw := c.f (trcA t)
  let v := match trcVal c z d (fld sw 0 8) (fld sw 16 16) with
    | some y => u32 y
    | none => 0x80000000
  let pre := c.trcPre t
  let full := fun (y : Trc) => decide (y.preGot + 4096 - pre ≤ y.ring.length)
  if x.state = 2 then
    let tw := c.f (trcA t + 4)
    let r := trcFires c t x (if c.trcCond t = 0 ∨ 4 ≤ c.trcCond t then none else trcVal c z d (fld tw 0 8) (fld tw 16 16))
    if r.1 || x.force then
      let kept := lastN pre x.ring
      let y := { x with state := 3, ring := kept ++ [v], preGot := kept.length, frame := d.frame, time := d.tim.net, epoch := d.tim.epoch,
                        force := false, low := r.2.1, high := r.2.2 }
      let d1 := d.setTrc t y
      let d2 := forEach (List.range 8) d1 (fun j d =>
        if c.trcCond j = 4 ∧ c.fF (trcA j + 12) 4 3 = t ∧ (d.trc j).state = 2 then d.setTrc j { d.trc j with linked := true } else d)
      if full y then trcStop t 4 0 d2 else d2
    else d.setTrc t { x with ring := lastN pre (x.ring ++ [v]), low := r.2.1, high := r.2.2 }
  else if x.state = 3 then
    let y := { x with ring := x.ring ++ [v] }
    if full y then trcStop t 4 0 (d.setTrc t y) else d.setTrc t y
  else d

/-- How many LINKs lead from a channel to the one that its trigger waits for in the end (R323). -/
def linkDepth (c : Cfg) : Nat → Nat → Nat
  | 0, _ => 0
  | f + 1, t => if c.trcCond t = 4 then linkDepth c f (c.fF (trcA t + 12) 4 3) + 1 else 0

/-- The channels with those first that others are linked to. -/
def trcOrder (c : Cfg) : List Nat := ((List.range 9).map (fun k => (List.range 8).filter (fun t => linkDepth c 8 t == k))).flatten

/-- The trace channels at a frame boundary of RUN (R322). -/
def trcFrame (c : Cfg) (z : Dyn) (sched : Nat) (d : Dyn) : Dyn :=
  forEach (trcOrder c) d (fun t d => if sched % c.trcDiv t = 0 then trcSample c z t d else d)

/-- Armed channels note the fault codes raised since they last looked (R323). -/
def trcNote (c : Cfg) (d : Dyn) : Dyn :=
  let d1 := forEach (List.range 8) d (fun t d =>
    let x := d.trc t
    if x.state = 2 ∧ c.trcCond t = 5 ∧ d.flt.raised.contains (c.fF (trcA t + 12) 16 16) then d.setTrc t { x with faulted := true } else d)
  { d1 with flt := { d1.flt with raised := [] } }

/-- Leaving RUN stops an armed channel with cause STATE (R322). -/
def trcLeaveRun (d : Dyn) : Dyn :=
  forEach (List.range 8) d (fun t d => if (d.trc t).state = 2 ∨ (d.trc t).state = 3 then trcStop t 5 2 d else d)

/-- A channel arms (R324). -/
def trcArmed (t : Nat) (d : Dyn) : Dyn :=
  let x := d.trc t
  d.setTrc t { Trc.empty with state := 2, reason := x.reason, cmdResult := x.cmdResult }

/-- Entry to RUN: channels with ARM_AT_START arm themselves (R324). Faults raised before are none of theirs (R323). -/
def trcStart (c : Cfg) (d : Dyn) : Dyn :=
  if c.img.ok then forEach (List.range 8) (trcNote c d) (fun t d => if c.bF (trcA t + 12) 3 then trcArmed t d else d) else d

/-- The frame boundary at which accepted ARM commands take effect (R46, R114, R323). -/
def trcArmDue (c : Cfg) (d : Dyn) : Dyn :=
  if (List.range 8).any (fun t => (d.trc t).arm) then
    forEach (List.range 8) (trcNote c d) (fun t d => if (d.trc t).arm then trcArmed t d else d)
  else d

/-- TRC_CMD.STOP (R324). -/
def traceStop (t : Nat) (d : Dyn) : Dyn :=
  if 8 ≤ t then d
  else
    let d1 := d.setTrc t { d.trc t with cmdResult := 0 }
    if (d.trc t).state = 2 ∨ (d.trc t).state = 3 then trcStop t 5 1 d1 else d1

/-- TRC_CMD.FORCE (R323): refused unless armed and untriggered. -/
def traceForce (t : Nat) (d : Dyn) : Dyn :=
  if 8 ≤ t then d
  else if (d.trc t).state = 2 then d.setTrc t { d.trc t with force := true, cmdResult := 0 }
  else d.setTrc t { d.trc t with cmdResult := 0xA00D }

/-- What follows the loops of a frame (R308): override selection, then the generators. -/
def afterLoops (c : Cfg) (d : Dyn) : Dyn :=
  forEach (List.range c.fx.nGens) (forEach (List.range c.fx.nOvr) d (ovrSelect c)) (genStep c)

end Sys2Proof.Machine
end

