-- ==== Sys2Proof/Machine/Units.lean ====
section
/-! DEFINITION. Units, groups and conditions (R332 to R342, R361). -/

namespace Sys2Proof.Machine

open Sys2Proof

/-- Word `j` of unit `u`'s descriptor, and of member entry `k` (R357). -/
def unitA (u j : Nat) : Nat := 0x1C2000 + 0x50 * u + 4 * j
def memA (k j : Nat) : Nat := 0x1C7000 + 8 * k + 4 * j

def Cfg.unitEn (c : Cfg) (u : Nat) : Bool := decide (u < c.fx.nUnits) && c.img.ok && c.bF (unitA u 0) 0
def Cfg.unitKind (c : Cfg) (u : Nat) : Nat := c.fF (unitA u 0) 8 8
def Cfg.unitCmdr (c : Cfg) (u : Nat) : Nat := c.fF (unitA u 0) 16 8
def Cfg.unitCmdrIdx (c : Cfg) (u : Nat) : Nat := c.fF (unitA u 1) 0 16
def Cfg.unitOut1 (c : Cfg) (u : Nat) : Nat := c.fF (unitA u 1) 16 16
def Cfg.unitOut2 (c : Cfg) (u : Nat) : Nat := c.fF (unitA u 2) 0 16
def Cfg.unitMaySleep (c : Cfg) (u : Nat) : Bool := c.bF (unitA u 0) 1
def Cfg.grpPolicy (c : Cfg) (u : Nat) : Nat := c.fF (unitA u 4) 0 8
def Cfg.grpNeed (c : Cfg) (u : Nat) : Nat := c.fF (unitA u 4) 8 8
def Cfg.grpMinProof (c : Cfg) (u : Nat) : Nat := c.fF (unitA u 4) 16 8
def Cfg.memFirst (c : Cfg) (u : Nat) : Nat := c.fF (unitA u 5) 0 16
def Cfg.memCount (c : Cfg) (u : Nat) : Nat := c.fF (unitA u 5) 16 8

/-- The units a group lists, in flow order. -/
def Cfg.memUnit (c : Cfg) (g k : Nat) : Nat := c.fF (memA (c.memFirst g + k) 0) 0 16
def Cfg.memDelay (c : Cfg) (g k : Nat) : Nat := 100 * c.fF (memA (c.memFirst g + k) 0) 16 16
def Cfg.memRunout (c : Cfg) (g k : Nat) : Nat := 100 * c.fF (memA (c.memFirst g + k) 1) 0 16
def Cfg.memUnits (c : Cfg) (g : Nat) : List Nat := (List.range (c.memCount g)).map (c.memUnit g)

def UnitS.empty : UnitS :=
  { state := 0, enterMs := 0, runMs := 0, cmd := false, fresh := true, proof := false, ready := false, acked := false, cause := 0, trip1At := none,
    trip2At := none, plossAt := none, newFault := false, isOpen := false, active := [], lead := 0, refused := 0, starts := 0, pubState := 0,
    reason := 0, cmdResult := 0 }

def DraftWant.none : DraftWant := { abort := false, reset := false, hold := false, resume := false }

def Draft.empty : Draft :=
  { step := 0, held := false, holdPend := false, time := 0, atMs := 0, startPend := false, wantAbort := false, wantReset := false,
    wantHold := false, wantResume := false, lastCond := false, aborts := 0, abortCause := 0, abortUnit := 0, prev := 0, entry := 0, trans := 0,
    entries := 0, lostRefs := [], taken := DraftWant.none, reason := 0, cmdResult := 0 }

def Dyn.unit (d : Dyn) (u : Nat) : UnitS := tget UnitS.empty d.seq.units u
def Dyn.setUnit (d : Dyn) (u : Nat) (x : UnitS) : Dyn := { d with seq := { d.seq with units := tput UnitS.empty d.seq.units u x } }
def Dyn.draft (d : Dyn) (n : Nat) : Draft := tget Draft.empty d.seq.drafts n
def Dyn.setDraft (d : Dyn) (n : Nat) (x : Draft) : Dyn := { d with seq := { d.seq with drafts := tput Draft.empty d.seq.drafts n x } }

/-- The step time of a Draft (R347). -/
def Draft.stepTime (x : Draft) (ms : Nat) : Nat := if x.held then x.time else x.time + (ms - x.atMs)

/-- What a pass fixes at its start (R335): the snapshot `z`, the units and Drafts `k` as the previous pass left them, the
flags and the time. -/
structure PassIn where
  z : Dyn
  k : Dyn
  flags : Nat
  ms : Nat
  trips : List Nat          -- units an output of which a guard trip holds off
  holds : List Nat          -- units an output of which waits for the guard's arming

/-- A condition at address `a` (R334). `absent` is its value when it is absent; `step` the step time, where there is one. -/
def cond (c : Cfg) (i : PassIn) (a : Nat) (absent : Bool) (step : Nat) : Bool :=
  let w := c.f a
  let op := fld w 0 8
  let idx := fld w 16 16
  let rf := c.f (a + 4)
  let v := c.f (a + 8)
  let inv := bit w 8
  if op = 0 then absent
  else
    let r : Option Bool := match op with
      | 1 => some true
      | 2 => dioInput c i.z idx
      | 3 => some (i.z.sw idx).s
      | 4 => some (c.unitEn idx && v.toNat.testBit (i.k.unit idx).state)
      | 5 => some (c.unitEn idx && (i.k.unit idx).proof)
      | 6 => some (c.unitEn idx && (i.k.unit idx).ready)
      | 7 => (srcVal c i.z (fld rf 0 8) (fld rf 16 16)).map (fun x => decide (sword v ≤ x))
      | 8 => (srcVal c i.z (fld rf 0 8) (fld rf 16 16)).map (fun x => decide (x ≤ sword v))
      | 9 => some (decide (v.toNat ≤ step))
      | 10 => some ((i.k.draft idx).step == v.toNat)
      | 11 => some (i.flags.testBit idx)
      | _ => some false
    match r with
    | some b => b != inv
    | none => bit w 9

/-- The latched fault, the guard trip and the arming hold on a unit's outputs (R336, R425). -/
def outNums (c : Cfg) (u : Nat) : List Nat := [c.unitOut1 u, c.unitOut2 u].filter (fun o => o != 0xFFFF)

def unitLatched (c : Cfg) (d : Dyn) (u : Nat) : Bool :=
  if c.unitKind u = 2 then movLatched c d (c.unitOut1 u) else (outNums c u).any (dioLatched c d)

def unitTripped (c : Cfg) (d : Dyn) (u : Nat) : Bool :=
  if c.unitKind u = 2 then tripMv c d (c.unitOut1 u) else (outNums c u).any (fun k => tripDo c d (c.owner k))

def unitHold (c : Cfg) (d : Dyn) (u : Nat) : Bool :=
  if c.unitKind u = 2 then holdMv c d (c.unitOut1 u) else (outNums c u).any (fun k => holdDo c d (c.owner k))

/-- The enabled units that a guard trip holds off, and those that wait for the guard's arming. -/
def trippedUnits (c : Cfg) (d : Dyn) : List Nat := (List.range c.fx.nUnits).filter (fun u => c.unitEn u && unitTripped c d u)
def heldUnits (c : Cfg) (d : Dyn) : List Nat := (List.range c.fx.nUnits).filter (fun u => c.unitEn u && unitHold c d u)

/-- PROOF and REST of a leaf unit, absent conditions read by kind (R338). -/
def unitProof (c : Cfg) (i : PassIn) (u : Nat) : Bool :=
  cond c i (unitA u 4) (if c.unitKind u = 2 then movProven i.z (c.unitOut1 u) else true) 0

def unitRest (c : Cfg) (i : PassIn) (u : Nat) : Bool :=
  cond c i (unitA u 7) (if c.unitKind u = 2 then movStopped c i.z (c.unitOut1 u) else true) 0

/-- Enter a state of R40. -/
def UnitS.go (x : UnitS) (ms st : Nat) : UnitS :=
  { x with state := st, enterMs := ms, runMs := if st = 1 then ms else x.runMs, starts := if st = 1 then satInc 16 x.starts else x.starts,
           plossAt := none, trip2At := none }

/-- The codes a unit's record can hold (R363). -/
def unitCodes : List Nat := [0xC060, 0xC061, 0xC062, 0xC063, 0xC064, 0xC065, 0xC066, 0xC067]

/-- Store a unit and append UNIT_STATE_CHANGE where its state changed and LOG is set (R336), with the unit and its old state as
data (R433; log entry 85). -/
def putUnit (c : Cfg) (u old : Nat) (x : UnitS) (d : Dyn) : Dyn :=
  let d1 := d.setUnit u x
  if x.state ≠ old ∧ c.bF (unitA u 0) 2 then d1.event (0xC000 + u) 0xC068 0 u old else d1

/-- A unit enters FAULT with a cause (R336). -/
def unitFault (c : Cfg) (u cause ms : Nat) (d : Dyn) : Dyn :=
  let x := d.unit u
  let y := { x.go ms 4 with fresh := false, acked := false, cause := cause, newFault := true, isOpen := true, proof := false, ready := false, active := [] }
  (putUnit c u x.state y d).fault c (0xC000 + u) (0xC05F + cause) 2 0 0 false false

/-- The unit reaches STOPPED: its record closes (R363). -/
def unitStopped (c : Cfg) (u ms : Nat) (d : Dyn) : Dyn :=
  let x := d.unit u
  (putUnit c u x.state { x.go ms 0 with isOpen := false, cause := 0 } d).clears (0xC000 + u) unitCodes

/-- The debounce start of a condition. -/
def since (now : Bool) (at_ : Option Nat) (ms : Nat) : Option Nat := if now then some (at_.getD ms) else none

/-- A condition has held for `t` units of 100 ms. -/
def heldFor (at_ : Option Nat) (t ms : Nat) : Bool :=
  match at_ with
  | some a => decide (a + 100 * t ≤ ms)
  | none => false

/-- The fault cause of a leaf unit in a pass, 0 for none, with its debounce starts already updated (R336). -/
def unitCause (c : Cfg) (i : PassIn) (u : Nat) (x : UnitS) : Nat :=
  let sw := c.fF (unitA u 2) 16 16
  let tw := c.fF (unitA u 3) 0 16
  if x.state = 0 ∨ x.state = 4 then 0
  else if i.trips.contains u then 6
  else if unitLatched c i.z u then 7
  else if x.state ≠ 3 ∧ heldFor x.trip1At (c.fF (unitA u 19) 0 16) i.ms then 4
  else if x.state = 2 ∧ heldFor x.trip2At (c.fF (unitA u 19) 16 16) i.ms then 5
  else if x.state = 2 ∧ heldFor x.plossAt (c.fF (unitA u 3) 16 16) i.ms then 3
  else if x.state = 1 ∧ 0 < sw ∧ ¬ unitProof c i u ∧ x.enterMs + 100 * sw ≤ i.ms then 1
  else if x.state = 3 ∧ 0 < tw ∧ ¬ unitRest c i u ∧ x.enterMs + 100 * tw ≤ i.ms then 2
  else 0

/-- The debounce starts of a leaf unit at a pass. -/
def unitSeen (c : Cfg) (i : PassIn) (u : Nat) (x : UnitS) : UnitS :=
  { x with trip1At := since (cond c i (unitA u 13) false 0) x.trip1At i.ms,
           trip2At := since (x.state == 2 && cond c i (unitA u 16) false 0) x.trip2At i.ms,
           plossAt := since (x.state == 2 && !unitProof c i u) x.plossAt i.ms }

/-- One leaf unit in the state sweep (R336). -/
def leafSweep (c : Cfg) (i : PassIn) (u : Nat) (d : Dyn) : Dyn :=
  let x := unitSeen c i u (d.unit u)
  let d0 := d.setUnit u x
  let cause := unitCause c i u x
  let proof := unitProof c i u
  let rest := unitRest c i u
  let trip1 := cond c i (unitA u 13) false 0
  let bad := unitLatched c i.z u
  let d1 :=
    if cause ≠ 0 then unitFault c u cause i.ms d0
    else if x.state = 0 ∧ x.cmd ∧ x.fresh ∧ x.ready then putUnit c u 0 (x.go i.ms 1) d0
    else if x.state = 1 ∧ ¬ x.cmd then putUnit c u 1 (x.go i.ms 3) d0
    else if x.state = 1 ∧ proof then putUnit c u 1 (x.go i.ms 2) d0
    else if x.state = 2 ∧ ¬ x.cmd then putUnit c u 2 (x.go i.ms 3) d0
    else if x.state = 3 ∧ rest then unitStopped c u i.ms d0
    else if x.state = 4 ∧ ¬ x.cmd ∧ x.acked ∧ ¬ (trip1 || bad || i.trips.contains u) then unitStopped c u i.ms d0
    else d0
  let y := d1.unit u
  let ready := (y.state == 0 && cond c i (unitA u 10) true 0 && !trip1 && !bad && !i.holds.contains u) || y.state == 1 || y.state == 2
  d1.setUnit u { y with fresh := y.fresh || !y.cmd, ready := ready, proof := (y.state == 2 && proof) || (y.state == 0 && rest) }

/-- Set a member's command level. -/
def setCmd (u : Nat) (run : Bool) (d : Dyn) : Dyn := d.setUnit u { d.unit u with cmd := run }

/-- A CHAIN that stops (R340): member `k`, where `f` is the lowest member in FAULT, if any, and the group entered its
state at `ge`. -/
def chainStop (c : Cfg) (g n ge : Nat) (f : Option Nat) (ms k : Nat) (d : Dyn) : Dyn :=
  let u := c.memUnit g k
  let above := match f with
    | some j => decide (j ≤ k)
    | none => false
  if above then setCmd u false d
  else if k + 1 = n then (if ge + c.memRunout g k ≤ ms then setCmd u false d else d)
  else
    let nx := d.unit (c.memUnit g (k + 1))
    let gone := nx.state == 0 || f == some (k + 1)
    if gone && decide (max nx.enterMs ge + c.memRunout g k ≤ ms) then setCmd u false d else d

/-- The active set of a DUTY group: keep what runs, drop what is in FAULT, add Ready members in rotation order. -/
def dutySet (c : Cfg) (g n : Nat) (d : Dyn) : List Nat :=
  let x := d.unit g
  let keep := x.active.filter (fun k => (d.unit (c.memUnit g k)).state != 4)
  ((List.range n).map (fun k => (x.lead + k) % n)).foldl (fun a k =>
    if a.length < c.grpNeed g ∧ (d.unit (c.memUnit g k)).ready ∧ ¬ a.contains k then a ++ [k] else a) keep

/-- The command sweep of one group (R340). -/
def groupCommand (c : Cfg) (i : PassIn) (g : Nat) (d : Dyn) : Dyn :=
  let x := d.unit g
  let n := c.memCount g
  let ms := i.ms
  let d1 :=
    if x.state = 0 ∧ x.cmd ∧ x.fresh ∧ x.ready then
      putUnit c g 0 { x.go ms 1 with lead := if c.grpPolicy g = 2 ∧ c.bF (unitA g 4) 24 then (x.lead + 1) % (max 1 n) else x.lead } d
    else if (x.state = 1 ∨ x.state = 2) ∧ ¬ x.cmd then putUnit c g x.state (x.go ms 3) d
    else d
  let y := d1.unit g
  let ks := List.range n
  let all := fun (b : Bool) (d : Dyn) => forEach ks d (fun k d => setCmd (c.memUnit g k) b d)
  match c.grpPolicy g with
  | 0 =>
    if y.state = 1 ∨ y.state = 2 then
      forEach ks d1 (fun k d =>
        let u := c.memUnit g k
        let go := if k = 0 then decide (y.runMs + c.memDelay g 0 ≤ ms)
                  else let p := d.unit (c.memUnit g (k - 1)); p.state == 2 && decide (p.enterMs + c.memDelay g k ≤ ms)
        if go then setCmd u true d else d)
    else if y.state = 3 then forEach ks d1 (chainStop c g n y.enterMs none ms)
    else if y.state = 4 then forEach ks d1 (chainStop c g n y.enterMs (ks.find? (fun k => (d1.unit (c.memUnit g k)).state == 4)) ms)
    else all false d1
  | 1 =>
    if y.state = 1 ∨ y.state = 2 then
      forEach ks d1 (fun k d => if y.runMs + c.memDelay g k ≤ ms then setCmd (c.memUnit g k) true d else d)
    else if y.state = 3 then
      forEach ks d1 (fun k d => if y.enterMs + c.memRunout g k ≤ ms then setCmd (c.memUnit g k) false d else d)
    else all false d1
  | _ =>
    if y.state = 1 ∨ y.state = 2 then
      let act := dutySet c g n d1
      let d2 := d1.setUnit g { y with active := act }
      forEach ks d2 (fun k d => setCmd (c.memUnit g k) (act.contains k) d)
    else all false (d1.setUnit g { y with active := [] })

/-- The state sweep of one group (R341). -/
def groupState (c : Cfg) (i : PassIn) (g : Nat) (d : Dyn) : Dyn :=
  let x := d.unit g
  let ms := (c.memUnits g).map (fun u => d.unit u)
  let cnt := fun (p : UnitS → Bool) => (ms.filter p).length
  let duty := c.grpPolicy g == 2
  let proof := if duty then decide (c.grpMinProof g ≤ cnt (fun m => m.state == 2)) else ms.all (fun m => m.state == 2)
  let stopped := ms.all (fun m => m.state == 0)
  let member :=
    if duty then (x.state == 1 || x.state == 2) && decide (cnt (fun m => m.state == 1 || m.state == 2) < c.grpMinProof g) &&
      !((List.range ms.length).any (fun k => (nth UnitS.empty ms k).ready && !x.active.contains k))
    else ms.any (fun m => m.state == 4)
  let sw := c.fF (unitA g 2) 16 16
  let tw := c.fF (unitA g 3) 0 16
  let x0 := { x with plossAt := since (x.state == 2 && duty && !proof) x.plossAt i.ms }
  let cause :=
    if x.state = 4 then 0
    else if member then 8
    else if duty ∧ x.state = 2 ∧ heldFor x0.plossAt (c.fF (unitA g 3) 16 16) i.ms then 3
    else if x.state = 1 ∧ 0 < sw ∧ ¬ proof ∧ x.enterMs + 100 * sw ≤ i.ms then 1
    else if x.state = 3 ∧ 0 < tw ∧ ¬ stopped ∧ x.enterMs + 100 * tw ≤ i.ms then 2
    else 0
  let d0 := d.setUnit g x0
  let d1 :=
    if cause ≠ 0 then unitFault c g cause i.ms d0
    else if x.state = 1 ∧ proof then putUnit c g 1 (x0.go i.ms 2) d0
    else if x.state = 3 ∧ stopped then unitStopped c g i.ms d0
    else if x.state = 4 ∧ ¬ x.cmd ∧ x.acked ∧ stopped then unitStopped c g i.ms d0
    else d0
  let y := d1.unit g
  let able := if duty then decide (c.grpMinProof g ≤ cnt (·.ready)) else ms.all (·.ready)
  let ready := (y.state == 0 && cond c i (unitA g 10) true 0 && able) || y.state == 1 || y.state == 2
  d1.setUnit g { y with fresh := y.fresh || !y.cmd, ready := ready, proof := proof }

/-- How deep a unit lies below its outermost group; Sage has refused cycles. -/
def depthOf (c : Cfg) : Nat → Nat → Nat
  | 0, _ => 0
  | f + 1, u => if c.unitCmdr u = 2 then depthOf c f (c.unitCmdrIdx u) + 1 else 0

/-- The enabled units, parents before children (R42). -/
def topOrder (c : Cfg) : List Nat :=
  let us := ((List.range c.fx.nUnits).filter (c.unitEn)).map (fun u => (depthOf c 256 u, u))
  let deep := us.foldl (fun a p => max a p.1) 0
  ((List.range (deep + 1)).map (fun k => (us.filter (fun p => p.1 == k)).map (·.2))).flatten

/-- The command sweep and the state sweep of a pass. -/
def unitSweeps (c : Cfg) (i : PassIn) (d : Dyn) : Dyn :=
  let us := topOrder c
  let d1 := forEach (us.filter (fun u => c.unitKind u == 6)) d (groupCommand c i)
  forEach us.reverse d1 (fun u d => if c.unitKind u = 6 then groupState c i u d else leafSweep c i u d)

/-- Acknowledge one unit's fault. -/
def ackUnit (u : Nat) (d : Dyn) : Dyn :=
  let x := d.unit u
  if x.state = 4 then d.setUnit u { x with acked := true } else d

/-- Unit `v` is `u` or lies below it, looking up `f` levels. -/
def Cfg.under (c : Cfg) (u : Nat) : Nat → Nat → Bool
  | 0, v => v == u
  | f + 1, v => v == u || (c.unitCmdr v == 2 && c.under u f (c.unitCmdrIdx v))

/-- Acknowledge a unit and every unit below it (R337). -/
def ackTree (c : Cfg) (u : Nat) (d : Dyn) : Dyn :=
  forEach ((List.range c.fx.nUnits).filter (c.unitEn)) d (fun v d => if c.under u 256 v then ackUnit v d else d)

/-- The Fault output (R39, R341): the record of the unit, or of a unit below it, is open. -/
def unitFaultOut (c : Cfg) (d : Dyn) (u : Nat) : Bool :=
  (List.range c.fx.nUnits).any (fun v => c.unitEn v && (d.unit v).isOpen && c.under u 256 v)

/-- A unit command takes effect: 1 RUN, 2 STOP, 3 ACK; while a pass runs it waits for its end. -/
def unitDo (c : Cfg) (u kind : Nat) (d : Dyn) : Dyn :=
  if d.seq.passMs.isSome then { d with seq := { d.seq with defer := d.seq.defer ++ [{ unit := u, kind := kind }] } }
  else if kind = 3 then ackTree c u d else setCmd u (kind == 1) d

/-- UNIT_CMD (R41, R337, R352, R361): RUN and STOP only where the host is the commander. -/
def unitCmd (c : Cfg) (u kind : Nat) (d : Dyn) : Dyn :=
  if c.fx.nUnits ≤ u then d
  else if kind ≠ 3 ∧ c.unitCmdr u ≠ 0 then
    d.setUnit u { d.unit u with cmdResult := 0xC047, refused := satInc 16 (d.unit u).refused }
  else
    let d1 := d.setUnit u { d.unit u with cmdResult := 0 }
    if c.unitEn u then unitDo c u kind d1 else d1

/-- The published state of the unit that owns DIO channel `k`, and the level it asks for (R332). -/
def unitOut (c : Cfg) (d : Dyn) (k : Nat) : Option Bool :=
  match (List.range c.fx.nUnits).find? (fun u => c.unitEn u && c.unitKind u != 2 && c.unitKind u != 6 && (c.unitOut1 u == k || c.unitOut2 u == k)) with
  | some u =>
    let s := (d.unit u).pubState
    some (if c.unitOut1 u = k then s == 1 || s == 2 else s == 3)
  | none => none

/-- The run request of a fan channel (R401). -/
def runRequest (c : Cfg) (d : Dyn) (n : Nat) : Bool :=
  (List.range c.fx.nUnits).any (fun u => c.unitEn u && c.unitKind u == 2 && c.unitOut1 u == n && ((d.unit u).pubState == 1 || (d.unit u).pubState == 2))

end Sys2Proof.Machine
end

