-- ==== Sys2Proof/Machine/Archive.lean ====
section
/-! DEFINITION. The ledger in the NAND, its mount, Shuttle, and the commands of the fault manager (R437 to R439, R448, R524 to
R543). -/

namespace Sys2Proof.Machine

open Sys2Proof

/-- ARC_RCFGr of region `r` (R538, R540). -/
def arcRegA (r : Nat) : Nat := 0x500100 + 0x20 * r

def Cfg.arcStop (c : Cfg) (r : Nat) : Bool := c.bF (arcRegA r) 0
def Cfg.arcBands (c : Cfg) (r : Nat) : Nat := c.fF (arcRegA r) 8 8
def Cfg.arcFlush (c : Cfg) (r : Nat) : Nat := c.fF (arcRegA r) 16 16

def Dyn.region (d : Dyn) (r : Nat) : Region := tget Region.empty d.arc.regions r
def Dyn.setRegion (d : Dyn) (r : Nat) (x : Region) : Dyn := { d with arc := { d.arc with regions := tput Region.empty d.arc.regions r x } }
def Dyn.band (d : Dyn) (b : Nat) : Band := tget Band.empty d.arc.bands b
def Dyn.setBand (d : Dyn) (b : Nat) (x : Band) : Dyn := { d with arc := { d.arc with bands := tput Band.empty d.arc.bands b x } }

/-- The bytes of a record as it stands in a subpage (R528). -/
def Rec.bytes (r : Rec) : List Byte :=
  let h := leBytes 2 r.typ ++ leBytes 2 r.body.length ++ leBytes 1 r.cls ++ leBytes 1 r.epoch ++ [0, 0] ++ leBytes 8 r.seq ++
    leBytes 8 r.time ++ leBytes 4 r.devt
  h ++ leBytes 4 (crc32c (h ++ r.body)) ++ r.body

/-- Give the records that wait for the mount their numbers from a base (R534). -/
def renumber (base : Nat) (a : Arc) : Arc :=
  let rs := a.waitRecs.zipIdx.map (fun p => { p.1 with seq := base + p.2 })
  { a with waitRecs := rs, seq := base + a.waitRecs.length, bootSeq := base }

/-- CHECKPOINT_READ in BOOT (R452, R534). -/
def checkpointRead (c : Cfg) (r : CpRead) (d : Dyn) : Dyn :=
  if d.glb.st ≠ .boot ∨ d.cfg.cpDone ∨ d.pwr.resetFrom.isSome then d
  else
    let d0 : Dyn := { d with cfg := { d.cfg with cpDone := true } }
    match r with
    | .valid => timeRestarted c { d0 with arc := { renumber d0.arc.mark d0.arc with state := 1, cpValid := true } }
    | .missing => { d0 with arc := { d0.arc with state := 1, cpValid := false }, tim := if d0.tim.restart then { d0.tim with epoch := 0 } else d0.tim }
    | .noAnswer =>
      let n := d0.arc.waitRecs.length
      ({ d0 with arc := { d0.arc with state := 3, waitRecs := [], offline := satAdd 16 d0.arc.offline n } } : Dyn).fault c 0xF000 0xF067 2 0 0 false false

/-- An erased band for a region (R532). -/
def freeBand (d : Dyn) : Option Nat := (upFrom 6 250).find? (fun b => (d.band b).cond == 0)

/-- The newest record of a band. -/
def Band.newestRec (b : Band) : Option Rec :=
  b.subs.foldl (fun m s => s.recs.foldl (fun m r => match m with | some x => if x.seq < r.seq then some r else some x | none => some r) m) none

/-- The newest SEQ in a band plus one, 0 when it holds no record. -/
def Band.newest (b : Band) : Nat := (b.newestRec.map (fun r => r.seq + 1)).getD 0

/-- The records of stripe `st` of a band. -/
def Band.stripeRecs (b : Band) (st : Nat) : List Rec := (((b.subs.drop (56 * st)).take 56).map (·.recs)).flatten

/-- The entry of the band index for one stripe (R530): none where the stripe holds no record. -/
def Band.stripeIdx (b : Band) (st : Nat) : StripeIdx :=
  match b.stripeRecs st with
  | [] => { region := b.owner, first := 0, last := 0, epoch := 0, time := 0 }
  | r :: rs =>
    let f := rs.foldl (fun a x => if x.seq < a.seq then x else a) r
    { region := b.owner, first := f.seq, last := rs.foldl (fun a x => max a x.seq) r.seq, epoch := f.epoch, time := f.time % 2 ^ 56 }

/-- The band index (R530). -/
def Band.mkIndex (b : Band) : List StripeIdx := (List.range 63).map b.stripeIdx

/-- The bytes of an index entry (R530); the four that the rule does not name are 0 (log entry 88). -/
def StripeIdx.bytes (e : StripeIdx) : List Byte :=
  leBytes 1 e.region ++ [0, 0, 0] ++ leBytes 8 e.first ++ leBytes 8 e.last ++ leBytes 1 e.epoch ++ leBytes 7 e.time ++ [0, 0, 0, 0]

/-- The bytes of a programmed subpage: its records back to back, then 0xFF (R528). -/
def Sub.bytes (s : Sub) : List Byte :=
  let l := (s.recs.map Rec.bytes).flatten
  l ++ List.replicate (4096 - l.length) 0xFF

/-- Multiplication by α in GF(2^8) with field polynomial 0x11D (R525). -/
def gfDouble (b : Byte) : Byte := if b.msb then (b <<< 1) ^^^ 0x1D else b <<< 1

/-- The two parity symbols of a codeword, of pages 14 and 15, from its data symbols, that of page 0 first (R525): the remainder of the division
by (x − 1)(x − α) = x^2 + 3x + 2. -/
def rsParity (data : List Byte) : Byte × Byte :=
  data.foldl (fun r b => let f := b ^^^ r.1; (r.2 ^^^ gfDouble f ^^^ f, gfDouble f)) (0, 0)

/-- The symbol of data page `k` of a stripe at byte offset `i`; a subpage that is not programmed reads as 0xFF (R525). -/
def Band.symbol (b : Band) (st k i : Nat) : Byte :=
  match b.subs[56 * st + 4 * k + i / 4096]? with
  | some s => s.bytes.getD (i % 4096) 0xFF
  | none => 0xFF

/-- The parity bytes of a stripe at byte offset `i` of its pages (R525). -/
def Band.parityAt (b : Band) (st i : Nat) : Byte × Byte := rsParity ((List.range 14).map (fun k => b.symbol st k i))

/-- Take an erased band as the open band of region `r`; a checkpoint marks the band change (R534). -/
def takeBand (r : Nat) (d : Dyn) : Dyn :=
  match freeBand d with
  | some b =>
    let d1 := d.setBand b { (d.band b).wiped 2 with owner := r, order := d.arc.order }
    ({ d1 with arc := { d1.arc with order := d1.arc.order + 1 } } : Dyn).checkpoint
  | none => d

/-- What a region remembers of the records an erase removes: the newest of them. -/
def Region.forget (g : Region) (r : Option Rec) : Region :=
  match r with
  | some x => if g.gone ≤ x.seq then { g with gone := x.seq + 1, goneEpoch := x.epoch, goneTime := x.time } else g
  | none => g

/-- A band of region `r` leaves the ledger and starts erasing (R532). -/
def eraseBand (r b : Nat) (d : Dyn) : Dyn :=
  let x := d.band b
  (d.setBand b (x.wiped 1)).setRegion r ((d.region r).forget x.newestRec)

/-- The oldest closed band of a region. -/
def oldestClosed (a : Arc) (r : Nat) : Option Nat :=
  (a.bands.foldl (fun (m : Option (Nat × Nat)) q =>
    if q.2.cond == 3 && q.2.owner == r then
      match m with
      | some (o, b) => if q.2.order < o then some (q.2.order, q.1) else some (o, b)
      | none => some (q.2.order, q.1)
    else m) none).map (·.2)

/-- Set FULL and raise REGION_FULL (R532, R543). -/
def regionFull (c : Cfg) (r : Nat) (d : Dyn) : Dyn :=
  let g := d.region r
  if g.full then d else (d.setRegion r { g with full := true }).fault c (0xF100 + r) 0xF060 1 0 0 false false

/-- BAND_CHANGE: the open band of region `r` has filled (R532). Region 1 in fill-stop mode is FULL once its last band is its
open band. -/
def bandChange (c : Cfg) (r : Nat) (d : Dyn) : Dyn :=
  let d1 := match d.arc.openBand r with
    | some (b, x) => (d.setBand b { x with cond := 3 }).checkpoint
    | none => d
  if d1.arc.owned r < c.arcBands r then
    let d2 := takeBand r d1
    if r = 1 ∧ c.arcStop 1 ∧ d2.arc.owned 1 = c.arcBands 1 then regionFull c 1 d2 else d2
  else if c.arcStop r then regionFull c r d1
  else
    match oldestClosed d1.arc r with
    | some b => takeBand r (eraseBand r b d1)
    | none => takeBand r d1

/-- Put items at the front of the program queue (R533). -/
def queueFront (l : List PQ) (d : Dyn) : Dyn :=
  let a : Arc := { d.arc with queue := l ++ d.arc.queue }
  { d with arc := { a with peak := max a.peak a.kib } }

/-- The stripes of region `r` that wait to be rewritten take its next stripe (R527). -/
def rewriteNow (r : Nat) (d : Dyn) : Dyn :=
  let g := d.region r
  if g.rewrite = [] then d else queueFront (g.rewrite.map (fun l => { region := r, recs := l })) (d.setRegion r { g with rewrite := [] })

/-- The open band of a region for one more subpage (R532): a region without one takes it by a band change. -/
def withOpen (c : Cfg) (r : Nat) (d : Dyn) : Dyn := if (d.arc.openBand r).isNone then bandChange c r d else d

/-- What follows a subpage that fills its stripe (R526, R527, R530): the parity pages wait to be programmed; a band whose last stripe this is
closes, and its index waits behind them. -/
def stripeClosed (c : Cfg) (r b : Nat) (x : Band) (d : Dyn) : Dyn :=
  let d1 := rewriteNow r d
  let p : PQ := { region := r, recs := [], kind := .parity b x.order (x.subs.length / 56) }
  if bandSubs ≤ x.subs.length + 1 then queueFront [p, { region := r, recs := [], kind := .index b x.order }] (bandChange c r d1) else queueFront [p] d1

/-- A subpage is programmed in the open band `b` of its region (R524, R532); `fails` says that the program failed, and its block then retires at
the next erase of the band (R527). -/
def placeSub (c : Cfg) (r b : Nat) (x : Band) (rs : List Rec) (fails : Bool) (d : Dyn) : Dyn :=
  let blk := x.subs.length / 4 % 14
  let bad := if fails && !x.failed.contains blk then x.failed ++ [blk] else x.failed
  let d1 := d.setBand b { x with subs := x.subs ++ [{ recs := rs }], failed := bad }
  if (x.subs.length + 1) % 56 = 0 then stripeClosed c r b x d1 else d1

/-- The program of a subpage of records ends (R525, R527, R532): a failed one leaves its subpage without records, and they are programmed again in
the next. A region that can take no band drops them when it is full, and otherwise waits for an erased band. -/
def dataDone (c : Cfg) (ok : Bool) (q : PQ) (rest : List PQ) (d : Dyn) : Dyn :=
  let d1 := withOpen c q.region d
  match d1.arc.openBand q.region with
  | some (b, x) =>
    if ok then placeSub c q.region b x q.recs false { d1 with arc := { d1.arc with queue := rest } } else placeSub c q.region b x [] true d1
  | none =>
    let g := d1.region q.region
    if g.full then
      { d1.setRegion q.region { g with drops := (g.drops + q.recs.length) % 2 ^ 32 } with arc := { (d1.setRegion q.region { g with drops := (g.drops + q.recs.length) % 2 ^ 32 }).arc with queue := rest } }
    else d1

/-- The program of the parity pages of stripe `st` of a band ends (R526, R527): a failure leaves one of them without its symbols. -/
def parityDone (ok : Bool) (b order st : Nat) (d : Dyn) : Dyn :=
  let x := d.band b
  if 2 ≤ x.cond ∧ x.order = order then
    let y := { x with parity := x.parity ++ [(st, if ok then 0 else 1)] }
    d.setBand b (if ok || x.failed.contains 14 then y else { y with failed := y.failed ++ [14] })
  else d

/-- The program of a band index ends (R527, R530): after a failure the band has none, and its records are found by their headers. -/
def indexDone (ok : Bool) (b order : Nat) (d : Dyn) : Dyn :=
  let x := d.band b
  if 2 ≤ x.cond ∧ x.order = order then
    d.setBand b (if ok then { x with index := some x.mkIndex } else { x with failed := if x.failed.contains 0 then x.failed else x.failed ++ [0] })
  else d

/-- SUBPAGE_PROGRAM_DONE (R525 to R527, R530, R532): the program of the front item of the program queue ends. -/
def subpageProgramDone (c : Cfg) (ok : Bool) (d : Dyn) : Dyn :=
  match d.arc.queue with
  | q :: rest =>
    if d.arc.state ≠ 2 then d
    else
      let popped : Dyn := { d with arc := { d.arc with queue := rest } }
      match q.kind with
      | .data => dataDone c ok q rest d
      | .parity b order st => parityDone ok b order st popped
      | .index b order => indexDone ok b order popped
  | [] => d

/-- Retire one block of a band (R527): a spare replaces it, or the band keeps a permanent erasure. -/
def retireBlock (c : Cfg) (b : Nat) (d : Dyn) : Dyn :=
  let a := d.arc
  let d0 : Dyn := { d with arc := { a with retired := satInc 16 a.retired, spare := a.spare - 1 } }
  let d1 := d0.event 0xF000 0xF063 0 0 0
  if 0 < a.spare then
    if a.spare - 1 ≤ 8 ∧ !d1.openCode 0xF000 [0xF064, 0xF065] then d1.fault c 0xF000 0xF064 1 0 0 false false else d1
  else (d1.setBand b { d1.band b with bad := (d1.band b).bad + 1 }).fault c 0xF000 0xF065 2 0 0 true true

/-- BAND_ERASE_DONE (R527, R532): blocks that failed a program, or this erase, retire. -/
def bandEraseDone (c : Cfg) (b badBlocks : Nat) (d : Dyn) : Dyn :=
  let x := d.band b
  if x.cond = 1 then
    let n := min 16 (x.failed.length + badBlocks)
    forEach (List.range n) (d.setBand b { x.wiped 0 with owner := 0, order := 0, failed := [] }) (fun _ d => retireBlock c b d)
  else d

/-- Move a region's partly filled subpage into the program queue, padded (R533). -/
def flushRegion (r : Nat) (d : Dyn) : Dyn :=
  let g := d.region r
  if g.partialRecs = [] then d
  else
    let d1 := d.setRegion r { g with partialRecs := [], since := 0 }
    let a : Arc := { d1.arc with queue := d1.arc.queue ++ [{ region := r, recs := g.partialRecs }] }
    { d1 with arc := { a with peak := max a.peak a.kib } }

/-- FLUSH_TIMEOUT (R533): FLUSH_r has passed since the first record entered. -/
def flushTimeout (c : Cfg) (r : Nat) (d : Dyn) : Dyn :=
  let g := d.region r
  if decide (r < 6) && decide (g.partialRecs ≠ []) && decide (g.since + 100 * c.arcFlush r ≤ d.ms) then flushRegion r d else d

def arcResult (code : Nat) (d : Dyn) : Dyn := { d with arc := { d.arc with cmdResult := code } }

/-- ARC_CMD.FLUSH (R533, R541). -/
def arcFlushCmd (d : Dyn) : Dyn := arcResult 0 (forEach (List.range 6) d flushRegion)

/-- DROP_SUMMARY (R532): every 60 s while a region drops records. -/
def dropSummary (d : Dyn) : Dyn :=
  if d.arc.regions.any (fun q => q.2.full) && decide (d.arc.dropTimer + 60000 ≤ d.ms) then
    let body := ((List.range 8).map (fun r => leBytes 4 (d.region r).drops)).flatten
    let d1 := d.ledger 9 0 body
    { d1 with arc := { d1.arc with dropTimer := d1.ms } }
  else d

/-- ARC_CMD.CLEAR_REGION (R541). -/
def clearRegion (r : Nat) (d : Dyn) : Dyn :=
  if d.standby then arcResult 0xF00D d
  else if 6 ≤ r then arcResult 0xF004 d
  else
    let bs := d.arc.bands.filter (fun q => 2 ≤ q.2.cond && q.2.owner == r)
    let seqs := (bs.map (fun q => (q.2.subs.map (fun s => s.recs.map (·.seq))).flatten)).flatten
    let lo := seqs.foldl min (seqs.headD 0)
    let hi := seqs.foldl max 0
    let d1 := bs.foldl (fun d q => eraseBand r q.1 d) d
    let d2 := (d1.setRegion r { d1.region r with full := false }).clears (0xF100 + r) [0xF060]
    arcResult 0 ((d2.ledger 11 0 (leBytes 1 r ++ [0, 0, 0] ++ leBytes 8 lo ++ leBytes 8 hi)).checkpoint)

/-- The greatest SEQ of a band plus one, as the mount finds it (R534): from the band index, or from the headers of a band that has none. -/
def Band.top (b : Band) : Nat :=
  match b.index with
  | some l => if b.newestRec.isNone then 0 else l.foldl (fun a e => max a (e.last + 1)) 0
  | none => b.newest

/-- What a band still lacks after a loss of the program queue (R526, R530): the parity of its closed stripes, and the index of a closed band. -/
def Band.lacks (k : Nat) (b : Band) : List PQ :=
  ((List.range (b.subs.length / 56)).filter (fun st => !b.parity.any (fun p => p.1 == st))).map (fun st => { region := b.owner, recs := [], kind := .parity k b.order st }) ++
  (if b.cond = 3 ∧ b.index = none then [{ region := b.owner, recs := [], kind := .index k b.order }] else [])

/-- A fill-stop region that owns its bands and has none open is FULL (R532); region 1 also with its last band open. -/
def fullAtMount (c : Cfg) (r : Nat) (d : Dyn) : Dyn :=
  if c.arcStop r ∧ c.arcBands r ≤ d.arc.owned r ∧ (r = 1 ∨ (d.arc.openBand r).isNone) then regionFull c r d else d

/-- The mount reads the bands afresh: the tags that waited for it start (R535), and what the bands lack after a loss of SRAM waits in the queue. -/
def Arc.mounted (a : Arc) : Arc :=
  { a with state := 2, waitRecs := [],
           queue := ((a.bands.filter (fun q => 2 ≤ q.2.cond)).map (fun q => q.2.lacks q.1)).flatten ++ a.queue
           bands := a.bands.map (fun q => (q.1, { q.2 with moved := [] }))
           tags := a.tags.map (fun p => (p.1, if p.2.state = 1 then { p.2 with state := 2 } else p.2)) }

/-- MOUNT_COMPLETE (R452, R534). A rebuild finds the newest record in the bands. -/
def mountComplete (c : Cfg) (rebuilt : Bool) (d : Dyn) : Dyn :=
  if d.arc.state ≠ 1 ∨ d.glb.st = .boot ∨ (!rebuilt && !d.arc.cpValid) then d
  else
    let top := d.arc.bands.foldl (fun a q => max a q.2.top) 0
    let d0 := if d.arc.cpValid then d
      else timeRestarted c { d with arc := { renumber top d.arc with cpValid := true } }
    let a := d0.arc
    let ws := a.waitRecs
    let d1 := forEach (List.range 6) ({ d0 with arc := a.mounted } : Dyn) (fullAtMount c)
    let d2 : Dyn := ws.foldl (fun d r => { d with arc := d.arc.pack d.ms r }) d1
    let d3 := d2.ledger 10 0 (leBytes 2 (if rebuilt then 1 else 0) ++ [0, 0] ++ leBytes 8 a.bootSeq)
    let d4 := d3.checkpoint
    if rebuilt then d4.fault c 0xF000 0xF066 1 0 0 true true else d4

/-- Tag words (R542). -/
def tagA (t j : Nat) : Nat := 0x501000 + 0x20 * t + 4 * j

def Tag.empty : Tag := { state := 0, fin := false, overtaken := false, lost := false, volatil := false, count := 0, bytes := 0, next := 0, buf := [], gones := [] }

def Dyn.tag (d : Dyn) (t : Nat) : Tag := tget Tag.empty d.arc.tags t
def Dyn.setTag (d : Dyn) (t : Nat) (x : Tag) : Dyn := { d with arc := { d.arc with tags := tput Tag.empty d.arc.tags t x } }

def scmdResult (code : Nat) (d : Dyn) : Dyn := { d with arc := { d.arc with scmdResult := code } }

/-- ARC_SSEL.TAG. -/
def Cfg.ssel (c : Cfg) : Nat := c.fF 0x500020 0 7

/-- ARC_SCMD.GO (R536): the tag is queued, and starts at once on a mounted archive. -/
def shuttleGo (c : Cfg) (d : Dyn) : Dyn :=
  let t := c.ssel
  let x := d.tag t
  let w := c.f (tagA t 0)
  if x.state = 1 ∨ x.state = 2 then scmdResult 0xF042 d
  else if fld w 0 2 = 0 ∨ fld w 8 8 = 0 then scmdResult 0xF043 d
  else
    let d1 := d.setTag t { Tag.empty with state := if d.arc.state = 2 then 2 else 1, next := x.next, gones := (List.range 6).map (fun r => (d.region r).gone) }
    scmdResult 0 { d1 with arc := { d1.arc with tagQueue := d1.arc.tagQueue ++ [t] } }

/-- The end of an operation (R536): an operation with NOTIFY sets GLB_IRQ.SHUTTLE. -/
def shuttleEnd (c : Cfg) (t : Nat) (x : Tag) (d : Dyn) : Dyn :=
  let d1 := d.setTag t x
  let d2 : Dyn := { d1 with arc := { d1.arc with tagQueue := d1.arc.tagQueue.filter (· ≠ t) } }
  if c.bF (tagA t 0) 2 then d2.setIrq 4 else d2

/-- ARC_SCMD.CANCEL (R536): the buffer's contents are undefined. -/
def shuttleCancel (c : Cfg) (d : Dyn) : Dyn :=
  let t := c.ssel
  let x := d.tag t
  if x.state = 1 ∨ x.state = 2 then
    let n := d.arc.free
    let y := { x with state := 4, count := 0, bytes := 0, buf := (List.range 4096).map (Config.cancelledByteFree n) }
    let d1 := shuttleEnd c t y d
    scmdResult 0 { d1 with arc := { d1.arc with free := n + 1 } }
  else scmdResult 0 d

/-- Every record the ledger holds, with whether it is still in SRAM and whether it cannot be read: its stripe is lost (R527, R535), or `hit`
says so of its band and its page. -/
def recsBut (hit : Nat → Nat → Bool) (a : Arc) : List (Rec × Bool × Bool) :=
  ((a.bands.filter (fun q => 2 ≤ q.2.cond)).map (fun q =>
    (q.2.subs.zipIdx.map (fun s => s.1.recs.map (fun r => (r, false, q.2.lost.contains (s.2 / 56) || hit q.1 (s.2 / 4))))).flatten)).flatten ++
  (a.queue.map (fun q => q.recs.map (fun r => (r, true, false)))).flatten ++
  (a.regions.map (fun q => (q.2.rewrite.flatten ++ q.2.partialRecs).map (fun r => (r, true, false)))).flatten

/-- Every record the ledger holds. -/
def allRecs (a : Arc) : List (Rec × Bool × Bool) := recsBut (fun _ _ => false) a

/-- Of two copies of a record the first stands, unless it alone cannot be read. -/
def firstOf (x y : Rec × Bool × Bool) : Rec × Bool × Bool :=
  if y.1.seq < x.1.seq then y else if y.1.seq = x.1.seq ∧ x.2.2 ∧ !y.2.2 then y else x

/-- The first record in SEQ order that satisfies a condition. -/
def firstRec (p : Rec → Bool) (l : List (Rec × Bool × Bool)) : Option (Rec × Bool × Bool) :=
  l.foldl (fun m r => if p r.1 then (match m with | some x => some (firstOf x r) | none => some r) else m) none

/-- At or after (E, T) (R535). -/
def Rec.atOrAfter (r : Rec) (e t : Nat) : Bool :=
  let k := sext 8 ((r.epoch : Int) - e)
  decide (0 < k) || (decide (k = 0) && decide (t ≤ r.time))

/-- Fill a tag's buffer from SEQ `k` upward (R535). -/
def shuttleFill (l : List (Rec × Bool × Bool)) : Nat → Nat → Tag → Tag
  | 0, k, x => { x with next := k }
  | n + 1, k, x =>
    match firstRec (fun r => decide (k ≤ r.seq)) l with
    | none => { x with fin := true, next := k }
    | some (r, vol, lost) =>
      if lost then shuttleFill l n (r.seq + 1) { x with lost := true }
      else if 4096 < x.bytes + r.size then { x with next := r.seq }
      else shuttleFill l n (r.seq + 1) { x with buf := x.buf ++ r.bytes, bytes := x.bytes + r.size, count := x.count + 1, volatil := x.volatil || vol }

/-- The erasures of stripe `st` of a band when the inner code reports `pages` (R525, R527): beside them the permanent ones of failed blocks without
a spare, and the parity pages whose program failed. -/
def Band.erasures (b : Band) (st : Nat) (pages : List Nat) : Nat :=
  pages.eraseDups.length + b.bad + ((b.parity.find? (fun p => p.1 == st)).map (·.2)).getD 0

/-- A closed stripe has its parity pages (R526). -/
def Band.coded (b : Band) (st : Nat) : Bool := b.parity.any (fun p => p.1 == st)

/-- A recovered stripe waits to be rewritten at the next stripe of its region (R527). -/
def rewriteStripe (b st : Nat) (d : Dyn) : Dyn :=
  let x := d.band b
  let g := d.region x.owner
  let l := ((x.subs.drop (56 * st)).take 56).map (·.recs)
  let d1 := (d.setBand b { x with moved := x.moved ++ [st] }).setRegion x.owner { g with rewrite := g.rewrite ++ l }
  match d1.arc.openBand x.owner with
  | some (_, y) => if y.subs.length % 56 = 0 then rewriteNow x.owner d1 else d1
  | none => rewriteNow x.owner d1

/-- A stripe is lost (R527). -/
def loseStripe (c : Cfg) (b st : Nat) (d : Dyn) : Dyn :=
  let x := d.band b
  if x.lost.contains st then d
  else
    let d1 := d.setBand b { x with lost := x.lost ++ [st] }
    ({ d1 with arc := { d1.arc with lostStripes := satInc 16 d1.arc.lostStripes } } : Dyn).fault c 0xF000 0xF062 2 0 0 true true

/-- What a read met in one stripe (R526, R527): three or more erasures lose it; up to two are recovered where the stripe has its parity, and then
it is rewritten once; in an open stripe the inner code stands alone, and the pages are not read. -/
def stripeMet (c : Cfg) (b st : Nat) (pages : List Nat) (d : Dyn) : Dyn :=
  let x := d.band b
  if pages = [] ∨ x.cond < 2 ∨ x.subs.length ≤ 56 * st then d
  else if 3 ≤ x.erasures st pages then loseStripe c b st d
  else if x.coded st && !x.moved.contains st then
    let n := pages.eraseDups.length
    let d1 : Dyn := { d with arc := { d.arc with rebuilt := satAdd 16 d.arc.rebuilt n } }
    rewriteStripe b st (forEach (List.range n) d1 (fun _ d => d.event 0xF000 0xF061 0 0 0))
  else d

/-- What a read of the NAND met. -/
def mediaMet (c : Cfg) (m : MediaRead) (d : Dyn) : Dyn := m.erased.foldl (fun d e => stripeMet c e.1 e.2.1 e.2.2 d) d

/-- A page that this read does not give: an erasure in a stripe that has no parity yet (R526). -/
def pageHit (m : MediaRead) (a : Arc) (b page : Nat) : Bool :=
  m.erased.any (fun e => e.1 == b && e.2.1 == page / 14 && e.2.2.contains (page % 14)) && !(tget Band.empty a.bands b).coded (page / 14)

/-- The records as this read gives them: one whose CRC failed cannot be returned (R535). -/
def readRecs (m : MediaRead) (a : Arc) : List (Rec × Bool × Bool) :=
  if m.erased = [] ∧ m.badCrc = [] then allRecs a
  else (recsBut (pageHit m a) a).map (fun x => (x.1, x.2.1, x.2.2 || (!x.2.1 && m.badCrc.contains x.1.seq)))

/-- The band index shows that every record of stripe `st` lies before (E, T) (R530, R535): the next stripe follows it in SEQ and begins before. -/
def Band.before (b : Band) (st e t : Nat) : Bool :=
  match b.index with
  | some l =>
    match l[st]?, l[st + 1]? with
    | some x, some y =>
      let k := sext 8 ((y.epoch : Int) - e)
      decide (x.last < y.first) && (decide (k < 0) || (decide (k = 0) && decide (t < 2 ^ 56) && decide (y.time < t)))
    | _, _ => false
  | none => false

/-- The records among which a READ_TIME seeks its start point (R535): the stripes that the band indexes show to lie before it are passed over. -/
def seekRecs (e t : Nat) (a : Arc) : List (Rec × Bool × Bool) :=
  allRecs { a with bands := a.bands.map (fun q => (q.1, { q.2 with subs := q.2.subs.zipIdx.map (fun s => if q.2.before (s.2 / 56) e t then { recs := [] } else s.1) })) }

/-- KEY of a tag (R542). -/
def Cfg.tagKey (c : Cfg) (t : Nat) : Nat := (c.f (tagA t 1)).toNat + 2 ^ 32 * (c.f (tagA t 2)).toNat

/-- The start point of an operation (R535): KEY, the first record at or after (EPOCH, KEY), or NEXT. -/
def shuttleStart (c : Cfg) (t : Nat) (d : Dyn) : Nat :=
  let w := c.f (tagA t 0)
  match fld w 0 2 with
  | 1 => c.tagKey t
  | 2 => match firstRec (fun r => r.atOrAfter (fld w 16 8) (c.tagKey t)) ((seekRecs (fld w 16 8) (c.tagKey t) d.arc).filter (fun r => (fld w 8 8).testBit r.1.cls)) with
         | some r => r.1.seq
         | none => d.arc.seq
  | _ => (d.tag t).next

/-- An erase has removed the start point (R535, R537): the newest record it removed from a selected region lies at or after it, and the erase fell
while the tag was under way or no record of the start's own SEQ is left (log entry 88). -/
def overtakes (c : Cfg) (t k : Nat) (l : List (Rec × Bool × Bool)) (d : Dyn) : Bool :=
  let w := c.f (tagA t 0)
  (List.range 6).any (fun r =>
    let g := d.region r
    (fld w 8 8).testBit r && decide (0 < g.gone) &&
      (if fld w 0 2 = 2 then ({ typ := 0, cls := 0, epoch := g.goneEpoch, seq := 0, time := g.goneTime, devt := 0, body := [] } : Rec).atOrAfter (fld w 16 8) (c.tagKey t)
       else decide (k < g.gone) && (decide ((d.tag t).gones.getD r 0 < g.gone) || !l.any (fun x => x.1.seq == k))))

/-- SHUTTLE_DONE (R535): the operation of tag `t` ends. -/
def shuttleDone (c : Cfg) (t : Nat) (m : MediaRead) (d0 : Dyn) : Dyn :=
  let x := d0.tag t
  if (x.state = 1 ∨ x.state = 2) ∧ d0.arc.state = 2 then
    let l := (readRecs m (mediaMet c m d0).arc).filter (fun r => (fld (c.f (tagA t 0)) 8 8).testBit r.1.cls)
    let k := shuttleStart c t d0
    let y := shuttleFill l (l.length + 1) k { Tag.empty with state := 3, overtaken := overtakes c t k l d0 }
    shuttleEnd c t y (mediaMet c m d0)
  else d0

/-- The code of an acknowledgement on a STANDBY (R558). -/
def fltResult (code : Nat) (d : Dyn) : Dyn := { d with flt := { d.flt with cmdResult := code } }

/-- Acknowledge one source; for a unit it acknowledges the unit and those below it (R337, R437). -/
def ackSource (c : Cfg) (src : Nat) (d : Dyn) : Dyn :=
  let d1 := d.ackRec src
  if 0xC000 ≤ src ∧ src < 0xC100 then unitDo c (src - 0xC000) 3 d1 else d1

/-- FLT_CMD.ACK (R437, R448). -/
def faultAck (c : Cfg) (d : Dyn) : Dyn :=
  if d.standby then fltResult 0xD00D d
  else
    match d.flt.find d.flt.sel with
    | some r => fltResult 0 (ackSource c r.source d)
    | none => fltResult 0xD046 d

/-- FLT_CMD.ACK_ALL (R437). -/
def faultAckAll (c : Cfg) (d : Dyn) : Dyn :=
  if d.standby then fltResult 0xD00D d else fltResult 0 ((d.flt.recs.map (·.source)).foldl (fun d s => ackSource c s d) d)

/-- FLT_CMD.NEXT (R448). -/
def faultNext (d : Dyn) : Dyn :=
  let srcs := d.flt.recs.map (·.source)
  let sel := match srcs.find? (fun s => decide (d.flt.sel < s)) with
    | some s => s
    | none => srcs.headD d.flt.sel
  fltResult 0 { d with flt := { d.flt with sel := sel } }

/-- FAULT_COPY_TAKEN (R55, R56, R438, R439): the archive takes the oldest copy of the fault queue, and the oldest event when
that queue is empty. A copy that waited for room enters. -/
def faultCopyTaken (d : Dyn) : Dyn :=
  match d.flt.queue with
  | k :: q =>
    let d1 := d.ledger 4 1 k.bytes
    match d1.flt.waiting with
    | w :: ws => { d1 with flt := { d1.flt with queue := q ++ [w], waiting := ws } }
    | [] => { d1 with flt := { d1.flt with queue := q } }
  | [] =>
    match d.flt.events with
    | e :: es => let d1 := d.ledger 5 2 e.bytes; { d1 with flt := { d1.flt with events := es } }
    | [] => d

/-- EVENTS_MERGED (R439): one summary for each merge counter, while the event queue has room. -/
def eventsMerged (d : Dyn) : Dyn :=
  d.flt.merge.foldl (fun d p =>
    if d.flt.events.length < 256 then
      let r := { d.newRec 0xD100 0xD063 0 p.1 0 false true with occ := min p.2 65535 }
      { d with flt := { d.flt with events := d.flt.events ++ [{ r := r, isOpen := false, closed := false, event := true, merged := true }]
                                   seq := (d.flt.seq + 1) % 65536, merge := tput 0 d.flt.merge p.1 0 } }
    else d) d

end Sys2Proof.Machine
end

