-- ==== Sys2Proof/Machine/Can.lean ====
section
/-! DEFINITION. The CAN FD ports: mailboxes, arbitration, launches, the time exchange, error confinement, frame maps and the
queue of the register service (R470 to R510). -/

namespace Sys2Proof.Machine

open Sys2Proof

def canA (p o : Nat) : Nat := 0x300000 + p * 0x4000 + o
def mbxA (p m j : Nat) : Nat := canA p (0x400 + 0x10 * m + 4 * j)
def filtA (p f j : Nat) : Nat := canA p (0x100 + 0x10 * f + 4 * j)
def launchA (p e j : Nat) : Nat := canA p (0x200 + 0x10 * e + 4 * j)

/-- The words of frame map `k` (R502), which have no register of their own (log entry 5). -/
def mapA (k o : Nat) : Nat := 0x7800000 + 0x100 * k + o

def Cfg.portEn (c : Cfg) (p : Nat) : Bool := decide (p < 4) && c.img.ok && c.bF (canA p 0) 0
def Cfg.portSeg (c : Cfg) (p : Nat) : Nat := c.fF (canA p 0) 2 2
def Cfg.svcEn (c : Cfg) (p : Nat) : Bool := c.bF (canA p 0) 4
def Cfg.svcWr (c : Cfg) (p : Nat) : Bool := c.bF (canA p 0) 5
def Cfg.portSync (c : Cfg) (p : Nat) : Nat := c.fF (canA p 0) 6 2
def Cfg.blockMs (c : Cfg) (p : Nat) : Nat := c.fF (canA p 0) 16 16
def Cfg.syncId (c : Cfg) (p : Nat) : Nat × Bool := (c.fF (canA p 0x10) 0 29, c.bF (canA p 0x10) 29)
def Cfg.syncPer (c : Cfg) (p : Nat) : Nat := c.fF (canA p 0x14) 0 16
def Cfg.slewMs (c : Cfg) (p : Nat) : Nat := c.fF (canA p 0x14) 16 16
def Cfg.svcId (c : Cfg) (p : Nat) : Nat × Bool := (c.fF (canA p 0x1C) 0 29, c.bF (canA p 0x1C) 29)
def Cfg.mbxEn (c : Cfg) (p m : Nat) : Bool := c.bF (mbxA p m 0) 0
def Cfg.mbxTx (c : Cfg) (p m : Nat) : Bool := c.bF (mbxA p m 0) 1
def Cfg.mbxMap (c : Cfg) (p m : Nat) : Bool := c.bF (mbxA p m 0) 2
def Cfg.mbxOneshot (c : Cfg) (p m : Nat) : Bool := c.bF (mbxA p m 0) 3
def Cfg.mbxIde (c : Cfg) (p m : Nat) : Bool := c.bF (mbxA p m 0) 4
def Cfg.mbxFd (c : Cfg) (p m : Nat) : Bool := c.bF (mbxA p m 0) 5
def Cfg.mbxDlc (c : Cfg) (p m : Nat) : Nat := c.fF (mbxA p m 0) 8 4
def Cfg.mbxId (c : Cfg) (p m : Nat) : Nat := c.fF (mbxA p m 1) 0 29
def Cfg.mbxMask (c : Cfg) (p m : Nat) : Nat := c.fF (mbxA p m 2) 0 29
def Cfg.mapEn (c : Cfg) (k : Nat) : Bool := c.img.ok && c.bF (mapA k 0) 0
def Cfg.mapRx (c : Cfg) (k : Nat) : Bool := c.bF (mapA k 0) 1
def Cfg.mapDup (c : Cfg) (k : Nat) : Bool := c.bF (mapA k 0) 2
def Cfg.mapPort (c : Cfg) (k : Nat) : Nat := c.fF (mapA k 0) 8 8
def Cfg.mapMb (c : Cfg) (k : Nat) : Nat := c.fF (mapA k 0) 16 8
def Cfg.mapAltPort (c : Cfg) (k : Nat) : Nat := c.fF (mapA k 0) 24 8
def Cfg.mapAltMb (c : Cfg) (k : Nat) : Nat := c.fF (mapA k 4) 0 8
def Cfg.mapNsig (c : Cfg) (k : Nat) : Nat := c.fF (mapA k 4) 8 8
def Cfg.mapPer (c : Cfg) (k : Nat) : Nat := c.fF (mapA k 4) 16 16
def Cfg.mapPhase (c : Cfg) (k : Nat) : Nat := c.fF (mapA k 8) 0 16
def Cfg.launchMb (c : Cfg) (p e : Nat) : Nat := c.fF (launchA p e 0) 8 5
def Cfg.launchNet (c : Cfg) (p e : Nat) : Bool := c.bF (launchA p e 0) 1
def Cfg.launchWin (c : Cfg) (p e : Nat) : Nat := c.fF (launchA p e 0) 16 16

def CBuf.empty : CBuf :=
  { dlc := 0, fd := false, brs := false, esi := false, rtr := false, ext := false, id := 0, epoch := 0, stamp := 0, data := [] }

def Mbx.empty : Mbx :=
  { buf := CBuf.empty, shadow := none, shadowOvf := false, txres := 0, pending := false, again := false, held := false, since := 0, unread := false,
    ovf := false, clashes := 0, overwrites := 0 }

def Launch.empty : Launch := { state := 0, txres := 0, reason := 0, due := 0, sent := 0 }

def Port.empty : Port :=
  { tec := 0, rcv := 0, lec := 0, busOff := false, recovering := false, blocked := false, syncOk := false, reason := 0,
    ctlResult := 0, txcnt := 0, rxcnt := 0, fifoDrops := 0, svcDrops := 0, dropAt := none, neterr := 0, seq := 0, rxSync := none,
    follow := none, lastPair := 0, mbx := [], launches := [], fifo := [], svc := [], replies := [], xq := [], wire := none,
    busy := false, foreign := [], lock := none }

def MapS.empty : MapS := { onAlt := false, timedOut := false, lastRx := 0, count := 0 }

def Dyn.port (d : Dyn) (p : Nat) : Port := tget Port.empty d.can.ports p
def Dyn.setPort (d : Dyn) (p : Nat) (x : Port) : Dyn := { d with can := { d.can with ports := tput Port.empty d.can.ports p x } }
def Port.mb (x : Port) (m : Nat) : Mbx := tget Mbx.empty x.mbx m
def Port.setMb (x : Port) (m : Nat) (b : Mbx) : Port := { x with mbx := tput Mbx.empty x.mbx m b }
def Port.launch (x : Port) (e : Nat) : Launch := tget Launch.empty x.launches e
def Port.setLaunch (x : Port) (e : Nat) (l : Launch) : Port := { x with launches := tput Launch.empty x.launches e l }
def Dyn.mapS (d : Dyn) (k : Nat) : MapS := tget MapS.empty d.can.maps k
def Dyn.setMapS (d : Dyn) (k : Nat) (x : MapS) : Dyn := { d with can := { d.can with maps := tput MapS.empty d.can.maps k x } }

/-- Fault sources (R432, R503). -/
def portSrc (p : Nat) : Nat := 0xE000 + p
def mbxSrc (p m : Nat) : Nat := 0xE100 + 32 * p + m
def mapSrc (k : Nat) : Nat := 0xE200 + k

/-- The data lengths of the codes 0 to 15 (R470). -/
def dlcLen (fd : Bool) (dlc : Nat) : Nat :=
  if dlc ≤ 8 then dlc else if fd then nth 64 [12, 16, 20, 24, 32, 48, 64] (dlc - 9) else 8

/-- A port runs: enabled, in a state of R498 that runs it. -/
def portOn (c : Cfg) (d : Dyn) (p : Nat) : Bool := c.portEn p && d.live c

/-- Restricted operation, for any cause of R498 or R499, or by LISTEN. -/
def portMuted (c : Cfg) (d : Dyn) (p : Nat) : Bool := c.bF (canA p 0) 1 || d.standby || d.openCode 0 [0x60]

/-- A port that may start transmissions. -/
def portSends (c : Cfg) (d : Dyn) (p : Nat) : Bool := portOn c d p && !portMuted c d p && !(d.port p).busOff

/-- CANn_STAT.EST. -/
def Port.est (x : Port) : Nat := if x.busOff then (if x.recovering then 3 else 2) else if 127 < x.tec ∨ 127 < x.rcv then 1 else 0

/-- The arbitration field as a number: the lower one wins (R475, the standard). -/
def CBuf.arb (f : CBuf) : Nat :=
  if f.ext then (f.id / 2 ^ 18 * 4 + 3) * 2 ^ 19 + f.id % 2 ^ 18 * 2 + (if f.rtr then 1 else 0)
  else (f.id * 4 + (if f.rtr then 2 else 0)) * 2 ^ 19

/-- The frame a mailbox would send (R475, R506, R507). -/
def mbxFrame (c : Cfg) (p m : Nat) (b : Mbx) : CBuf :=
  let fd := c.mbxFd p m
  let dlc := if c.mbxMap p m then c.mbxDlc p m else b.buf.dlc
  let rtr := c.bF (mbxA p m 0) 7
  { CBuf.empty with dlc := dlc, fd := fd, brs := c.bF (mbxA p m 0) 6, rtr := rtr, ext := c.mbxIde p m, id := c.mbxId p m,
                    data := if rtr then [] else (List.range (dlcLen fd dlc)).map (fun i => nth 0 b.buf.data i) }

/-- What a port would send next: frames held through a bus-off first, then by arbitration, then the lower mailbox; exchange
and service frames after the mailboxes on equal priority (R475, R487). -/
def wireKey (c : Cfg) (p : Nat) (x : Port) (k : Nat) : Option (Nat × Nat × Nat × Wire) :=
  if k < 32 then
    let b := x.mb k
    if b.pending && c.mbxEn p k then
      let f := mbxFrame c p k b
      some (if b.held then 0 else 1, f.arb, k, .mailbox k f)
    else none
  else (x.xq[k - 32]?).map (fun i => (1, i.frame.arb, k, .extra i))

/-- The better of two candidates. -/
def wireMin (a b : Option (Nat × Nat × Nat × Wire)) : Option (Nat × Nat × Nat × Wire) :=
  match a, b with
  | some u, some v =>
    if v.1 < u.1 ∨ (v.1 = u.1 ∧ (v.2.1 < u.2.1 ∨ (v.2.1 = u.2.1 ∧ v.2.2.1 < u.2.2.1))) then some v else some u
  | some u, none => some u
  | none, v => v

def bestWire (c : Cfg) (p : Nat) (x : Port) : Option (Nat × Nat × Nat × Wire) :=
  (List.range (32 + x.xq.length)).foldl (fun a k => wireMin a (wireKey c p x k)) none

/-- Begin a transmission when the bus is free: the frame keeps the content it has now (R475). -/
def canBegin (c : Cfg) (p : Nat) (d : Dyn) : Dyn :=
  let x := d.port p
  if portSends c d p && !x.busy && x.wire == none then
    match bestWire c p x with
    | some (_, _, k, w) =>
      d.setPort p { x with wire := some w, xq := if 32 ≤ k then x.xq.eraseIdx (k - 32) else x.xq }
    | none => d
  else d

/-- What TXRES of a mailbox that becomes pending reads at once (R479, R486, R499). -/
def waitRes (c : Cfg) (d : Dyn) (p : Nat) (old : Nat) : Nat :=
  if portMuted c d p then 7 else if (d.port p).busOff then 6 else old

/-- Make a mailbox pending (R475). -/
def mbxRequest (c : Cfg) (p m : Nat) (d : Dyn) : Dyn :=
  let x := d.port p
  let b := x.mb m
  let onWire := match x.wire with
    | some (.mailbox k _) => k == m
    | _ => false
  if onWire then d.setPort p (x.setMb m { b with again := true })
  else
    let b' : Mbx := { b with pending := true, since := if b.pending then b.since else d.ms, txres := waitRes c d p b.txres }
    canBegin c p (d.setPort p (x.setMb m b'))

/-- Queue an exchange or service frame. -/
def sendExtra (c : Cfg) (p : Nat) (kind : XKind) (f : CBuf) (d : Dyn) : Dyn :=
  let x := d.port p
  canBegin c p (d.setPort p { x with xq := x.xq ++ [{ kind := kind, frame := f, since := d.ms }] })

/-- The launch entry that has a mailbox under its control (R481). -/
def launchOf (c : Cfg) (p : Nat) (x : Port) (m : Nat) : Option Nat :=
  (List.range 16).find? (fun e => let s := (x.launch e).state; (s == 1 || s == 2) && c.launchMb p e == m)

/-- Append TX_FAILED (R480, R481). -/
def txFailed (p m res : Nat) (d : Dyn) : Dyn := d.event (mbxSrc p m) 0xE067 0 m res

/-- End a launch entry without success (R481): its mailbox is no longer pending. -/
def launchFail (c : Cfg) (p e res : Nat) (d : Dyn) : Dyn :=
  let x := d.port p
  let m := c.launchMb p e
  let b := x.mb m
  let x1 := (x.setLaunch e { x.launch e with state := 4, txres := res }).setMb m { b with pending := false, again := false, txres := res }
  txFailed p m res (d.setPort p x1)

/-- Whether the window of an armed or launched entry has closed (R481): LAUNCH + WINDOW_US. -/
def launchClosed (c : Cfg) (d : Dyn) (p e : Nat) : Bool :=
  let l := (d.port p).launch e
  decide (l.due + c.launchWin p e * 2 ^ 32 / 1000000 ≤ d.bound (c.launchNet p e))

/-- Open and close the records of error-passive and bus-off after the counters moved (R485, R486). -/
def errState (c : Cfg) (p : Nat) (d : Dyn) : Dyn :=
  let x := d.port p
  if 255 < x.tec ∧ !x.busOff then
    let x1 : Port := { x with busOff := true, wire := none,
                              xq := (match x.wire with | some (.extra i) => i :: x.xq | _ => x.xq),
                              mbx := x.mbx.map (fun q => (q.1, if q.2.pending then { q.2 with txres := 6, held := true, again := false } else q.2)) }
    (d.setPort p x1).fault c (portSrc p) 0xE061 2 0 0 false false
  else if x.est = 1 then
    if d.openCode (portSrc p) [0xE060] then d else d.fault c (portSrc p) 0xE060 1 0 0 false false
  else if x.est = 0 then d.clears (portSrc p) [0xE060]
  else d

/-- A transmit error (R470, the standard): TEC rises by 8, but not on an ACK error of an error-passive port. -/
def txError (lec : Nat) (x : Port) : Port :=
  { x with lec := lec, tec := if lec = 3 ∧ x.est = 1 then x.tec else min 511 (x.tec + 8) }

/-- The count of a suspected clash or an error after arbitration (R490). -/
def clashCount (c : Cfg) (p m : Nat) (d : Dyn) : Dyn :=
  let x := d.port p
  let b := x.mb m
  let n := min 3 (b.clashes + 1)
  let d1 := d.setPort p (x.setMb m { b with clashes := n })
  if n = 3 ∧ b.clashes < 3 then d1.fault c (mbxSrc p m) 0xE063 2 (c.mbxId p m) 0 false false else d1

/-- A failed attempt of a mailbox (R480, R481): `res` is 2 or 3. -/
def mbxFailed (c : Cfg) (p m res : Nat) (d : Dyn) : Dyn :=
  let x := d.port p
  match launchOf c p x m with
  | some e =>
    if launchClosed c d p e then launchFail c p e 4 d
    else if c.mbxOneshot p m then launchFail c p e res d
    else d
  | none =>
    if c.mbxOneshot p m then
      let b := x.mb m
      txFailed p m res (d.setPort p (x.setMb m { b with pending := b.again, again := false, txres := res, since := if b.again then d.ms else b.since }))
    else d

/-- Nanoseconds in units of 2^-32 s (R482). -/
def nsTo32 (ns : Nat) : Nat := (2 * ns * 2 ^ 32 + 10 ^ 9) / (2 * 10 ^ 9)

/-- The stamp of a sent frame (R482). -/
def txStamp (c : Cfg) (p edge : Nat) : Nat := (edge + nsTo32 (c.fF (canA p 0xC) 16 8)) % 2 ^ 64

/-- The stamp of a received frame (R482). -/
def rxStamp (c : Cfg) (p edge : Nat) : Nat := (edge + 2 ^ 64 - nsTo32 (c.fF (canA p 0xC) 24 8)) % 2 ^ 64

/-- A mailbox's frame has been sent and acknowledged (R475, R479, R481, R488, R490). What was written during the transmission stays the next
waiting frame. -/
def mbxSent (c : Cfg) (p m stamp : Nat) (f : CBuf) (d : Dyn) : Dyn :=
  let x := d.port p
  let b := x.mb m
  let b' : Mbx := { b with buf := { f with stamp := stamp, epoch := d.tim.epoch, dlc := b.buf.dlc, data := b.buf.data },
                           txres := 1, pending := b.again, again := false, held := false, clashes := 0,
                           since := if b.again then d.ms else b.since }
  let x1 := x.setMb m b'
  let x2 := match launchOf c p x m with
    | some e => x1.setLaunch e { x1.launch e with state := 3, txres := 1, sent := shortOf stamp }
    | none => x1
  (d.setPort p x2).clears (mbxSrc p m) [0xE063]

/-- CAN_TX_COMPLETE (R479): the attempt in progress ends. -/
def canTxComplete (c : Cfg) (p : Nat) (r : TxOutcome) (d0 : Dyn) : Dyn :=
  if !portSends c d0 p then d0
  else
    let d1 := canBegin c p (d0.setPort p { d0.port p with busy := false })
    let x := d1.port p
    match x.wire with
    | none => d0
    | some w =>
      match r with
      | .sent edge =>
        let stamp := txStamp c p edge
        let x1 : Port := { x with wire := none, tec := x.tec - 1, txcnt := (x.txcnt + 1) % 2 ^ 32, blocked := false }
        let d2 := errState c p ((d1.setPort p x1).clears (portSrc p) [0xE062])
        let d3 := match w with
          | .mailbox m f => mbxSent c p m stamp f d2
          | .extra i =>
            match i.kind with
            | .sync seq => d2.setPort p { d2.port p with follow := some (seq, d2.tim.epoch, stamp) }
            | _ => d2
        canBegin c p d3
      | .arbLost =>
        let x1 : Port := { x with wire := none, busy := true }
        match w with
        | .mailbox m _ => mbxFailed c p m 2 (d1.setPort p x1)
        | .extra i => d1.setPort p { x1 with xq := i :: x1.xq }
      | .error lec after =>
        let x1 := txError lec { x with wire := none }
        let d2 := match w with
          | .mailbox m _ =>
            let d2 := d1.setPort p x1
            mbxFailed c p m 3 (if after then clashCount c p m d2 else d2)
          | .extra i => d1.setPort p { x1 with xq := i :: x1.xq }
        canBegin c p (errState c p d2)

/-- CAN_ERROR_DETECTED (R470, R485): in restricted operation the counters do not change. -/
def canErrorDetected (c : Cfg) (p : Nat) (e : BusError) (d : Dyn) : Dyn :=
  let x := d.port p
  if portOn c d p && !portMuted c d p && !x.busOff then
    let x1 : Port := { x with lec := e.lec, busy := false,
                              rcv := if e.rx then min 255 (x.rcv + if e.dominantAfter then 8 else 1) else x.rcv,
                              tec := if e.rx then x.tec else min 511 (x.tec + 8) }
    canBegin c p (errState c p (d.setPort p x1))
  else d

/-- A good reception (R470, the standard): REC falls by 1, and from above 127 to a value of 119 to 127. -/
def rxGood (c : Cfg) (p : Nat) (d : Dyn) : Dyn :=
  let x := d.port p
  if portMuted c d p then d
  else if 127 < x.rcv then
    let d1 : Dyn := { d with can := { d.can with free := d.can.free + 1 } }
    errState c p (d1.setPort p { x with rcv := 119 + Config.recBackFree d.can.free % 9 })
  else d.setPort p { x with rcv := x.rcv - 1 }

/-- The port's own transmit identifiers (R489). -/
def ownIds (c : Cfg) (p : Nat) : List (Nat × Bool) :=
  ((List.range 32).filter (fun m => c.mbxEn p m && c.mbxTx p m)).map (fun m => (c.mbxId p m, c.mbxIde p m)) ++
  (if c.portSync p = 1 then let (i, e) := c.syncId p; [(i, e), (i + 1, e)] else []) ++
  (if c.svcEn p then let (i, e) := c.svcId p; [(i + 1, e)] else [])

/-- FOREIGN_OWN_ID (R491): at most once a second for each identifier. -/
def foreignId (c : Cfg) (p : Nat) (f : CanFrame) (d : Dyn) : Dyn :=
  if (ownIds c p).contains (f.id, f.ext) then
    let x := d.port p
    let k := 2 * f.id + (if f.ext then 1 else 0)
    let t := tget 0 x.foreign k
    if t = 0 ∨ t - 1 + 1000 ≤ d.ms then
      (d.setPort p { x with foreign := tput 0 x.foreign k (d.ms + 1) }).fault c (portSrc p) 0xE064 1 f.id 0 true true
    else d
  else d

/-- A received frame as a buffer holds it. -/
def bufOf (c : Cfg) (p epoch : Nat) (f : CanFrame) : CBuf :=
  { dlc := f.dlc % 16, fd := f.fd, brs := f.brs, esi := f.esi, rtr := f.rtr, ext := f.ext, id := f.id % 2 ^ 29, epoch := epoch,
    stamp := rxStamp c p f.edge, data := if f.rtr then [] else f.data.take (dlcLen f.fd (f.dlc % 16)) }

/-- Insert a write in order of reception stamp, after those of the same stamp (R37). -/
def insWrite (p : Nat × CanWrite) : List (Nat × CanWrite) → List (Nat × CanWrite)
  | [] => [p]
  | q :: l => if p.1 < q.1 then p :: q :: l else q :: insWrite p l

def Dyn.canWrite (d : Dyn) (stamp : Nat) (w : CanWrite) : Dyn := { d with can := { d.can with writes := insWrite (stamp, w) d.can.writes } }

/-- The raw value of a signal in received data, when it lies within them: START, LEN and SIGNED of R494. -/
def sigRaw (data : List Byte) (start len : Nat) (signed : Bool) : Option Int :=
  if 8 * data.length < start + len then none
  else
    let u := leNat data / 2 ^ start % 2 ^ len
    let raw : Int := if signed then sext len u else u
    let inv : Int := if signed then -(2 ^ (len - 1)) else 2 ^ len - 1
    if raw = inv then none else some raw

/-- RX_MAP_DECODE (R494): the writes of a frame for the next boundary. -/
def mapDecode (c : Cfg) (k : Nat) (f : CBuf) (d : Dyn) : Dyn :=
  forEach (List.range (c.mapNsig k)) d (fun s d =>
    let w := c.f (mapA k (16 + 16 * s))
    match sigRaw f.data (fld w 0 16) (fld w 16 8) (bit w 24) with
    | some raw =>
      let v := sat32 (rdivI (raw * sword (c.f (mapA k (24 + 16 * s)))) (2 ^ (c.fF (mapA k (28 + 16 * s)) 0 8)))
      d.canWrite f.stamp (.mapped k (c.f (mapA k (20 + 16 * s))).toNat (wordOf v))
    | none => d)

/-- The receive maps of a mailbox (R492, R494). -/
def mapsOf (c : Cfg) (p m : Nat) : List Nat :=
  (List.range 128).filter (fun k => c.mapEn k && c.mapRx k &&
    ((c.mapPort k == p && c.mapMb k == m) || (c.mapAltPort k == p && c.mapAltMb k == m)))

def mapsReceive (c : Cfg) (p m : Nat) (f : CBuf) (d : Dyn) : Dyn :=
  forEach (mapsOf c p m) d (fun k d =>
    let x := d.mapS k
    mapDecode c k f ((d.setMapS k { x with timedOut := false, lastRx := d.ms, count := satInc 16 x.count }).clears (mapSrc k) [0xE066]))

/-- NET_TIME_PAIR (R484): a pair stores err and issues a STEP or a SLEW for the next boundary; a STANDBY issues none. -/
def netPair (c : Cfg) (p t1 r1 stamp : Nat) (d : Dyn) : Dyn :=
  let err := sext 64 ((t1 : Int) - r1)
  let lim := rdivI ((c.f (canA p 0x18)).toNat * 2 ^ 32 : Nat) 1000000
  let x := d.port p
  let d1 := (d.setPort p { x with neterr := sat32 err, syncOk := true, lastPair := d.ms, rxSync := none }).clears (portSrc p) [0xE069]
  let u := (err % (2 ^ 64 : Int)).toNat
  let d2 := d1.event (portSrc p) 0xE068 0 (u / 2 ^ 32) (u % 2 ^ 32)
  if d2.standby then d2
  else if lim ≤ err.natAbs ∧ (0 < err ∨ c.stepBack) then d2.canWrite stamp (.exchange p true err 0)
  else if lim ≤ err.natAbs then d2.canWrite stamp (.exchange p false (if err < 0 then -140737 else 140737) (c.slewMs p))
  else d2.canWrite stamp (.exchange p false (clampI (rdivI (err * 65536) (1000 * c.slewMs p)) (-140737) 140737) (c.slewMs p))

/-- A frame of the exchange at a slave (R484). -/
def exchangeFrame (c : Cfg) (p : Nat) (b : CBuf) (follow : Bool) (d : Dyn) : Dyn :=
  if c.portSync p ≠ 2 then d
  else
    let x := d.port p
    if !follow then
      if !b.fd && !b.rtr && b.dlc == 1 then d.setPort p { x with rxSync := some (leAt b.data 0 1, b.stamp) } else d
    else if b.fd && b.dlc == 9 then
      match x.rxSync with
      | some (seq, r1) =>
        if seq = leAt b.data 0 1 ∧ (b.stamp + 2 ^ 64 - r1) % 2 ^ 64 ≤ 2 ^ 32 / 10 then netPair c p (leAt b.data 4 8) r1 b.stamp d else d
      | none => d
    else d

/-- Requests of a port that wait or whose write has not been applied yet (R497). -/
def svcWaiting (d : Dyn) (p : Nat) : Nat :=
  (d.port p).svc.length + (d.can.writes.filter (fun w => match w.2 with | .service q _ => q == p | _ => false)).length

/-- A request of the register service arrives (R496, R497). -/
def svcRequest (p : Nat) (b : CBuf) (d : Dyn) : Dyn :=
  let x := d.port p
  if d.standby then d
  else if 8 ≤ svcWaiting d p then d.setPort p { x with svcDrops := satInc 16 x.svcDrops }
  else d.setPort p { x with svc := x.svc ++ [{ op := leAt b.data 0 1, dlc := if b.fd || b.rtr then 16 else b.dlc, addr := leAt b.data 1 3,
                                               val := BitVec.ofNat 32 (leAt b.data 4 4), stamp := b.stamp, code := 0 }] }

/-- Whether a port's receive buffer at a byte offset is locked by a reader (R478): the data port or a register service. -/
def bufLocked (d : Dyn) (first : Nat) : Bool :=
  (match d.dp.lock with | some l => l.first == first | none => false) ||
  (List.range 4).any (fun q => match (d.port q).lock with | some l => l.first == first | none => false)

/-- A frame for a receive mailbox (R476, R478). -/
def mbxReceive (p m : Nat) (b : CBuf) (d : Dyn) : Dyn :=
  let x := d.port p
  let y := x.mb m
  if bufLocked d (canA p (0x1000 + 0x80 * m)) then d.setPort p (x.setMb m { y with shadow := some b, shadowOvf := y.shadow.isSome })
  else d.setPort p (x.setMb m { y with buf := b, unread := true, ovf := y.ovf || y.unread })

/-- A frame for the receive FIFO (R477). -/
def fifoReceive (c : Cfg) (p : Nat) (b : CBuf) (d : Dyn) : Dyn :=
  let x := d.port p
  if x.fifo.length < 32 then d.setPort p { x with fifo := x.fifo ++ [b] }
  else
    let due := match x.dropAt with | some t => decide (t + 1000 ≤ d.ms) | none => true
    let d1 := d.setPort p { x with fifoDrops := satInc 16 x.fifoDrops, dropAt := if due then some d.ms else x.dropAt }
    if due then d1.fault c (portSrc p) 0xE065 1 0 0 true true else d1

/-- CAN_FRAME_RECEIVED (R476): the reserved identifiers, the receive mailboxes in ascending number, the filters. -/
def canFrameReceived (c : Cfg) (p : Nat) (f : CanFrame) (d0 : Dyn) : Dyn :=
  if portOn c d0 p && !(d0.port p).busOff then
    let x0 := d0.port p
    let d1 := d0.setPort p { x0 with rxcnt := (x0.rxcnt + 1) % 2 ^ 32, busy := false }
    let d2 := foreignId c p f (rxGood c p d1)
    let b := bufOf c p d2.tim.epoch f
    let is : Nat × Bool → Nat → Bool := fun i k => b.id == i.1 + k && b.ext == i.2
    let d3 :=
      if c.portSync p ≠ 0 && is (c.syncId p) 0 then exchangeFrame c p b false d2
      else if c.portSync p ≠ 0 && is (c.syncId p) 1 then exchangeFrame c p b true d2
      else if c.svcEn p && is (c.svcId p) 0 then svcRequest p b d2
      else if c.svcEn p && is (c.svcId p) 1 then d2
      else
        match (List.range 32).find? (fun m => c.mbxEn p m && !c.mbxTx p m && b.ext == c.mbxIde p m &&
            (b.id ^^^ c.mbxId p m) &&& c.mbxMask p m == 0) with
        | some m => mapsReceive c p m b (mbxReceive p m b d2)
        | none =>
          if (List.range 16).any (fun k => c.bF (filtA p k 0) 0 && b.ext == c.bF (filtA p k 0) 1 &&
              (b.id ^^^ c.fF (filtA p k 1) 0 29) &&& c.fF (filtA p k 2) 0 29 == 0) then fifoReceive c p b d2
          else d2
    canBegin c p d3
  else d0

/-- SYNC_SEND (R483): a master queues a SYNC at its boundaries. -/
def syncSend (c : Cfg) (p : Nat) (d : Dyn) : Dyn :=
  if portSends c d p && c.portSync p == 1 && d.sched % max 1 (c.syncPer p) == 0 then
    let x := d.port p
    let (i, e) := c.syncId p
    sendExtra c p (.sync x.seq) { CBuf.empty with dlc := 1, ext := e, id := i, data := leBytes 1 x.seq }
      (d.setPort p { x with seq := (x.seq + 1) % 256 })
  else d

/-- FOLLOW_UP_SEND (R483): T1 of a SYNC is known. -/
def followUpSend (c : Cfg) (p : Nat) (d : Dyn) : Dyn :=
  let x := d.port p
  match x.follow with
  | some (seq, ep, t1) =>
    if portSends c d p then
      let (i, e) := c.syncId p
      sendExtra c p .followUp { CBuf.empty with dlc := 9, fd := true, ext := e, id := i + 1,
                                                data := leBytes 1 seq ++ leBytes 1 ep ++ [0, 0] ++ leBytes 8 t1 }
        (d.setPort p { x with follow := none })
    else d
  | none => d

/-- NET_TIME_LOST (R484): no pair for 3 × PERIOD_MS. -/
def netTimeLost (c : Cfg) (p : Nat) (d : Dyn) : Dyn :=
  let x := d.port p
  if portOn c d p && c.portSync p == 2 && decide (x.lastPair + 3 * c.syncPer p ≤ d.ms) && !d.openCode (portSrc p) [0xE069] then
    (d.setPort p { x with syncOk := false }).fault c (portSrc p) 0xE069 1 0 0 false false
  else d

/-- Set the RESULT of CANn_CTL. -/
def ctlResult (p code : Nat) (d : Dyn) : Dyn := d.setPort p { d.port p with ctlResult := code }

/-- RECOVER (R487). -/
def recoverCmd (p : Nat) (d : Dyn) : Dyn :=
  let x := d.port p
  if d.standby then ctlResult p 0xE00D d
  else if x.busOff then d.setPort p { x with recovering := true, ctlResult := 0 } else ctlResult p 0xE00D d

/-- BUS_RECOVERED (R487): held frames are presented at once. -/
def busRecovered (c : Cfg) (p : Nat) (d : Dyn) : Dyn :=
  let x := d.port p
  if x.busOff && x.recovering then
    let d1 := d.setPort p { x with busOff := false, recovering := false, blocked := false, tec := 0, rcv := 0, busy := false }
    canBegin c p ((d1.clears (portSrc p) [0xE060, 0xE061, 0xE062]).event (portSrc p) 0xE06B 0 0 0)
  else d

/-- ABORT_ALL (R500, R505): what is on the wire completes; every other pending mailbox and launch entry ends ABORTED. -/
def abortAll (c : Cfg) (p : Nat) (d : Dyn) : Dyn :=
  if d.standby then ctlResult p 0xE00D d
  else
    let x := d.port p
    let onWire := match x.wire with | some (.mailbox k _) => some k | _ => none
    let d1 := ctlResult p 0 d
    let d2 := forEach (List.range 16) d1 (fun e d =>
      let s := ((d.port p).launch e).state
      if (s = 1 ∨ s = 2) ∧ onWire ≠ some (c.launchMb p e) then launchFail c p e 5 d else d)
    forEach (List.range 32) d2 (fun m d =>
      let y := d.port p
      let b := y.mb m
      if onWire = some m then d.setPort p (y.setMb m { b with again := false })
      else if b.pending then d.setPort p (y.setMb m { b with pending := false, txres := 5, held := false }) else d)

/-- CLR_COUNTS (R505). -/
def canClrCounts (p : Nat) (d : Dyn) : Dyn :=
  if d.standby then ctlResult p 0xE00D d
  else d.setPort p { d.port p with txcnt := 0, rxcnt := 0, fifoDrops := 0, svcDrops := 0, ctlResult := 0 }

def portReason (p code : Nat) (d : Dyn) : Dyn := d.setPort p { d.port p with reason := code }

/-- Bring a mailbox's words into force at its load (R46). -/
def mbxLoad (p m : Nat) (c : Cfg) : Cfg := { c with reg := c.reg.load (mbxA p m 0) 3 }

/-- One bit of a TXREQ write (R475, R481, R500). -/
def txreqBit (p m : Nat) (s : State) : State :=
  if !(s.c.mbxEn p m && s.c.mbxTx p m) || s.c.mbxMap p m then { s with d := portReason p 0xE047 s.d }
  else if (launchOf s.c p (s.d.port p) m).isSome then { s with d := portReason p 0xE00D s.d }
  else
    let c' := mbxLoad p m s.c
    { s with c := c', d := mbxRequest c' p m s.d }

/-- TXREQ (R475, R504). A STANDBY refuses it (R558). -/
def txreqWrite (p : Nat) (v : Word) (s : State) : State :=
  if s.d.standby then { s with d := portReason p 0xE00D s.d }
  else forEach ((List.range 32).filter (fun m => bit v m)) s (txreqBit p)

/-- Put new content into a host-owned transmit buffer (R475, R507): a write to a pending frame counts in OVERWRITES. -/
def txBufferPut (p m dlc : Nat) (data : List Byte) (s : State) : State :=
  if s.d.standby then { s with d := portReason p 0xE00D s.d }
  else if s.c.mbxTx p m && !s.c.mbxMap p m then
    let c' := mbxLoad p m s.c
    let x := s.d.port p
    let b := x.mb m
    let fd := c'.mbxFd p m
    let b' : Mbx := { b with buf := { b.buf with dlc := dlc % 16, fd := fd, brs := c'.bF (mbxA p m 0) 6, rtr := c'.bF (mbxA p m 0) 7,
                                                 ext := c'.mbxIde p m, id := c'.mbxId p m, esi := false, data := data.take 64 },
                             overwrites := if b.pending then satInc 16 b.overwrites else b.overwrites }
    { s with c := c', d := s.d.setPort p (x.setMb m b') }
  else { s with d := portReason p 0xE047 s.d }

/-- The code of arming a launch entry (R481). -/
def launchCode (c : Cfg) (d : Dyn) (p e : Nat) : Nat :=
  let m := c.launchMb p e
  let dd := shortDiff (c.f (launchA p e 1)).toNat (shortOf (d.bound (c.launchNet p e)))
  if d.standby ∨ !portOn c d p then 0xE00D
  else if c.launchWin p e < 10 then 0xE001
  else if !c.mbxTx p m || c.mbxMap p m then 0xE00E
  else if !c.mbxEn p m then 0xE003
  else if (launchOf c p (d.port p) m).isSome then 0xE046
  else if dd * 15625 + c.launchWin p e * 1024 < 0 then 0xE045
  else 0

/-- LAUNCH_ARM (R481): the words stand in the entry's registers. -/
def launchArm (c : Cfg) (p e : Nat) (d : Dyn) : Dyn :=
  let x := d.port p
  let l := x.launch e
  if l.state = 1 ∨ l.state = 2 then d
  else
    let code := launchCode c d p e
    if code = 0 then
      let now := d.bound (c.launchNet p e)
      let dd := shortDiff (c.f (launchA p e 1)).toNat (shortOf now)
      d.setPort p (x.setLaunch e { state := 1, txres := 0, reason := 0, sent := 0,
                                   due := (((now / 2 ^ 16 * 2 ^ 16 : Nat) : Int) + dd * 2 ^ 16).toNat })
    else d.setPort p { x.setLaunch e { l with reason := code } with reason := code }

/-- Writing EN = 0 ends an armed entry: its mailbox's frame is aborted unless it has begun (R500). -/
def launchDisarm (c : Cfg) (p e : Nat) (d : Dyn) : Dyn :=
  let x := d.port p
  let l := x.launch e
  let m := c.launchMb p e
  let onWire := match x.wire with | some (.mailbox k _) => k == m | _ => false
  let b := x.mb m
  let x1 := if l.state = 2 ∧ !onWire then x.setMb m { b with pending := false, txres := 5 } else x
  d.setPort p (x1.setLaunch e { l with state := 0 })

/-- LAUNCH_DUE (R481): the first tick at or after LAUNCH. -/
def launchDue (p e : Nat) (s : State) : State :=
  let l := (s.d.port p).launch e
  if l.state = 1 ∧ portOn s.c s.d p then
    let net := s.c.launchNet p e
    let d1 := s.d.reach s.c net l.due
    if l.due ≤ d1.bound net then
      let m := s.c.launchMb p e
      let c' := mbxLoad p m s.c
      let x := d1.port p
      { s with c := c', d := mbxRequest c' p m (d1.setPort p (x.setLaunch e { l with state := 2 })) }
    else s
  else s

/-- LAUNCH_WINDOW_CLOSE (R481): no attempt starts any more; a transmission that has begun completes. -/
def launchWindowClose (c : Cfg) (p e : Nat) (d : Dyn) : Dyn :=
  let x := d.port p
  let l := x.launch e
  let onWire := match x.wire with | some (.mailbox k _) => k == c.launchMb p e | _ => false
  if (l.state = 1 ∨ l.state = 2) ∧ !onWire then
    let d1 := d.reach c (c.launchNet p e) ((l.due + c.launchWin p e * 2 ^ 32 / 1000000 + 1 : Nat) : Int)
    if launchClosed c d1 p e then launchFail c p e 4 d1 else d
  else d

/-- A step of network time acts on network-bound entries (R481): a forward step past the window ends the entry LATE. -/
def canStep (c : Cfg) (d : Dyn) : Dyn :=
  forEach (List.range 4) d (fun p d => forEach (List.range 16) d (fun e d =>
    if ((d.port p).launch e).state = 1 ∧ c.launchNet p e ∧ launchClosed c d p e then launchFail c p e 4 d else d))

/-- PORT_BLOCKED (R488). -/
def portBlocked (c : Cfg) (p : Nat) (d : Dyn) : Dyn :=
  let x := d.port p
  let old : Nat → Bool := fun since => decide (since + c.blockMs p ≤ d.ms)
  let waits := x.mbx.any (fun q => q.2.pending && old q.2.since) || x.xq.any (fun i => old i.since) ||
    (match x.wire with | some (.extra i) => old i.since | _ => false)
  if portSends c d p && waits && !x.blocked then
    (d.setPort p { x with blocked := true }).fault c (portSrc p) 0xE062 2 0 0 false false
  else d

/-- MAP_RX_TIMEOUT (R494). -/
def mapRxTimeout (c : Cfg) (k : Nat) (d : Dyn) : Dyn :=
  let x := d.mapS k
  if d.live c && c.mapEn k && c.mapRx k && !x.timedOut && decide (x.lastRx + c.mapPer k ≤ d.ms) then
    (d.setMapS k { x with timedOut := true }).fault c (mapSrc k) 0xE066 1 0 0 false false
  else d

/-- A signal of a transmit map packed in place (R493). -/
def sigPack (c : Cfg) (z : Dyn) (k s : Nat) : Nat :=
  let w := c.f (mapA k (16 + 16 * s))
  let len := fld w 16 8
  let signed := bit w 24
  let inv : Int := if signed then -(2 ^ (len - 1)) else 2 ^ len - 1
  let (kind, idx) := refOf (c.f (mapA k (20 + 16 * s)))
  let raw := match srcVal c z kind idx with
    | none => inv
    | some v =>
      let r := rdivI (v * sword (c.f (mapA k (24 + 16 * s)))) (2 ^ (c.fF (mapA k (28 + 16 * s)) 0 8))
      if signed then clampI r (-(2 ^ (len - 1)) + 1) (2 ^ (len - 1) - 1) else clampI r 0 (2 ^ len - 2)
  (raw % (2 ^ len : Int)).toNat * 2 ^ fld w 0 16

/-- The data of a transmit map's frame (R493). -/
def mapData (c : Cfg) (z : Dyn) (k len : Nat) : List Byte :=
  leBytes len ((List.range (c.mapNsig k)).foldl (fun a s => a + sigPack c z k s) 0)

/-- Load a map's frame into one mailbox; a frame that waits there is replaced and counted (R475, R493). -/
def mapLoadMb (p m : Nat) (k : Nat) (s : State) : State :=
  let c' := mbxLoad p m s.c
  let x := s.d.port p
  let b := x.mb m
  let fd := c'.mbxFd p m
  let dlc := c'.mbxDlc p m
  let b' : Mbx := { b with buf := { b.buf with dlc := dlc, fd := fd, brs := c'.bF (mbxA p m 0) 6, rtr := false, esi := false,
                                               ext := c'.mbxIde p m, id := c'.mbxId p m, data := mapData c' s.d.frozen k (dlcLen fd dlc) },
                           overwrites := if b.pending then satInc 16 b.overwrites else b.overwrites }
  { s with c := c', d := mbxRequest c' p m (s.d.setPort p (x.setMb m b')) }

/-- PORT cannot carry a map (R492). -/
def portDown (c : Cfg) (d : Dyn) (p : Nat) : Bool :=
  let x := d.port p
  x.busOff || x.blocked || !c.portEn p || portMuted c d p

/-- A map falls back to its alternate port, or returns (R492), with the record of the fall-back. -/
def mapTo (c : Cfg) (k : Nat) (alt : Bool) (d : Dyn) : Dyn :=
  let x := d.mapS k
  let d1 := d.setMapS k { x with onAlt := alt }
  if alt && !x.onAlt then d1.fault c (mapSrc k) 0xE06A 1 0 0 false false
  else if !alt && x.onAlt then d1.clears (mapSrc k) [0xE06A] else d1

/-- A due map loads its mailboxes (R492, R493): the alternate one in place of its own, or both where it is doubled. -/
def mapSend (c : Cfg) (k : Nat) (alt : Bool) (s : State) : State :=
  if alt then mapLoadMb (c.mapAltPort k) (c.mapAltMb k) k s
  else
    let s1 := mapLoadMb (c.mapPort k) (c.mapMb k) k s
    if c.mapDup k && decide (c.mapAltPort k < 4) then mapLoadMb (c.mapAltPort k) (c.mapAltMb k) k s1 else s1

/-- MAP_LOAD (R492, R493) at a due boundary. A STANDBY loads where the mirror says that the ACTIVE does (R499). -/
def mapLoad (k : Nat) (s : State) : State :=
  if s.d.live s.c && s.c.mapEn k && !s.c.mapRx k && s.d.sched % max 1 (s.c.mapPer k) == s.c.mapPhase k then
    let c := { s.c with reg := s.c.reg.load (mapA k 0) 36 }
    let x := s.d.mapS k
    let p := c.mapPort k
    let alt := if s.d.standby then x.onAlt else decide (c.mapAltPort k < 4) && !c.mapDup k && portDown c s.d p
    let d1 := s.d.setMapS k { x with count := satInc 16 x.count }
    mapSend c k alt { s with c := c, d := mapTo c k alt d1 }
  else s

/-- A reply of the register service (R496): byte 0 as the request, the code, and four bytes of data. -/
def svcReply (c : Cfg) (p op code : Nat) (v : Word) (d : Dyn) : Dyn :=
  if portOn c d p && !portMuted c d p then
    let (i, e) := c.svcId p
    sendExtra c p .reply { CBuf.empty with dlc := 8, ext := e, id := i + 1,
                                           data := leBytes 1 op ++ leBytes 2 code ++ [0] ++ leBytes 4 v.toNat } d
  else d

/-- The code of a malformed request (R496). -/
def SvcReq.bad (r : SvcReq) : Bool := r.dlc != 8 || r.addr % 4 != 0 || !(r.op % 16 == 1 || r.op % 16 == 2)

/-- SERVICE_WRITE (R497): the oldest request, a write, waits for the next boundary. -/
def serviceWrite (c : Cfg) (p : Nat) (d : Dyn) : Dyn :=
  let x := d.port p
  match x.svc with
  | r :: rest =>
    if r.bad || r.op % 16 != 2 then d
    else
      let d1 := d.setPort p { x with svc := rest }
      if c.svcWr p then d1.canWrite r.stamp (.service p r) else svcReply c p r.op 0xE00D r.val d1
  | [] => d

/-- SERVICE_WRITE_REPLY (R497): the reply to the oldest applied write. -/
def serviceWriteReply (c : Cfg) (p : Nat) (d : Dyn) : Dyn :=
  let x := d.port p
  match x.replies with
  | r :: rest => svcReply c p r.op r.code r.val (d.setPort p { x with replies := rest })
  | [] => d

/-- After the CAN boundary: pending mailboxes of a disabled port or mailbox end ABORTED unless begun, with the launch entries that hold them; those
of a muted port, which sends nothing, read MUTED (R498 to R500). -/
def canSettle (c : Cfg) (d : Dyn) : Dyn :=
  forEach (List.range 4) d (fun p d =>
    let x0 := d.port p
    let x : Port := if portMuted c d p then { x0 with wire := none, xq := [], follow := none } else x0
    let x1 : Port := { x with mbx := x.mbx.map (fun q =>
      let onWire := match x.wire with | some (.mailbox k _) => k == q.1 | _ => false
      if q.2.pending && !onWire then
        if !c.portEn p || !c.mbxEn p q.1 then (q.1, { q.2 with pending := false, txres := 5, held := false })
        else if portMuted c d p then (q.1, { q.2 with txres := 7 }) else q
      else q) }
    let x2 : Port := if c.portEn p then x1 else { x1 with wire := none, xq := [], busy := false }
    forEach (List.range 16) (d.setPort p x2) (fun e d =>
      let s := ((d.port p).launch e).state
      let m := c.launchMb p e
      let onWire := match x2.wire with | some (.mailbox k _) => k == m | _ => false
      if (s = 1 ∨ s = 2) ∧ !onWire ∧ !(c.portEn p && c.mbxEn p m) then launchFail c p e 5 d else d))

/-- The start of the ports at the end of BOOT or after a commit: the times of R484 and R494 count from here. -/
def canStart (c : Cfg) (d : Dyn) : Dyn :=
  let d1 := forEach (List.range 4) d (fun p d => if c.portEn p then d.setPort p { d.port p with lastPair := d.ms } else d)
  forEach (List.range 128) d1 (fun k d => if c.mapEn k then d.setMapS k { d.mapS k with lastRx := d.ms } else d)

/-- Launched entries whose mailbox is no longer pending on the ACTIVE have sent (R499). -/
def launchMirror (c : Cfg) (p bits : Nat) (d : Dyn) : Dyn :=
  forEach (List.range 16) d (fun e d =>
    let x := d.port p
    let l := x.launch e
    if l.state = 2 ∧ (x.mb (c.launchMb p e)).pending ∧ !bits.testBit (c.launchMb p e) then
      d.setPort p (x.setLaunch e { l with state := 3, txres := 1, sent := shortOf d.tim.net })
    else d)

/-- The takeover boundary (R499): counters at 0, and pending frames are presented at once. -/
def canTakeover (c : Cfg) (d : Dyn) : Dyn :=
  forEach (List.range 4) d (fun p d => canBegin c p (d.setPort p { d.port p with tec := 0, rcv := 0, busy := false }))

end Sys2Proof.Machine
end

