-- ==== Sys2Proof/Machine/Drafts.lean ====
section
/-! DEFINITION. Drafts and the sequencer pass (R343 to R354, R358, R360). -/

namespace Sys2Proof.Machine

open Sys2Proof

/-- Draft `n`'s control register `o`, and its tables (R357). -/
def draftR (n o : Nat) : Nat := 0x1C0100 + 0x40 * n + o
def draftA (n o : Nat) : Nat := 0x1D0000 + 0xC000 * n + o

/-- SEQ_DCTL shares the low 16 bits of the header word. -/
def Cfg.draftEn (c : Cfg) (n : Nat) : Bool := decide (n < c.fx.nDrafts) && c.img.ok && c.bF (draftA n 0) 0
def Cfg.draftOnFault (c : Cfg) (n : Nat) : Bool := c.bF (draftA n 0) 1
def Cfg.draftLog (c : Cfg) (n : Nat) : Bool := c.bF (draftA n 0) 2
def Cfg.draftAbortStep (c : Cfg) (n : Nat) : Nat := c.fF (draftA n 0) 8 8

def stepA (n s o : Nat) : Nat := draftA n (0x20 + 16 * s + o)
def Cfg.stepNoHold (c : Cfg) (n s : Nat) : Bool := c.bF (stepA n s 0) 0
def Cfg.stepTo (c : Cfg) (n s : Nat) : Nat := c.fF (stepA n s 0) 8 8
def Cfg.stepActFirst (c : Cfg) (n s : Nat) : Nat := c.fF (stepA n s 0) 16 16
def Cfg.stepActs (c : Cfg) (n s : Nat) : Nat := c.fF (stepA n s 4) 0 8
def Cfg.stepTrs (c : Cfg) (n s : Nat) : Nat := c.fF (stepA n s 4) 8 8
def Cfg.stepTrFirst (c : Cfg) (n s : Nat) : Nat := c.fF (stepA n s 4) 16 16
def Cfg.stepTimeout (c : Cfg) (n s : Nat) : Nat := (c.f (stepA n s 8)).toNat
def Cfg.stepToSev (c : Cfg) (n s : Nat) : Nat := c.fF (stepA n s 12) 0 8

/-- The registers a Draft's action writes (R345): address, value and the bits written. -/
def actWrite (op idx : Nat) (v : Int) : Option DWrite :=
  let full : Word := 0xFFFFFFFF#32
  match op with
  | 4 => some { addr := loopA idx + 0xA4, val := wordOf v, mask := full }
  | 5 => some { addr := loopA idx + 0xA0, val := wordOf v, mask := 3#32 }
  | 6 => some { addr := loopA idx + 0xA8, val := wordOf v, mask := full }
  | 7 => some { addr := prfA idx + 4, val := wordOf v, mask := full }
  | 8 => some { addr := prfA idx, val := wordOf (2 * v), mask := 2#32 }
  | 9 => some { addr := swA idx 1, val := wordOf v, mask := full }
  | 10 => some { addr := colA idx + 0xAC, val := BitVec.ofNat 32 (0xB400 + (if v = 1 then 1 else if v = 2 then 2 else if v = 3 then 4 else 0)), mask := full }
  | _ => none

/-- An action of Draft `n` missed its source, or had it again: ACTION_SOURCE_LOST closes when none is missing (R345, R363). -/
def lostRef (n : Nat) (r : Nat × Nat) (d : Dyn) : Dyn :=
  let x := d.draft n
  d.setDraft n { x with lostRefs := x.lostRefs.filter (· ≠ r) ++ [r] }

def foundRef (n : Nat) (r : Nat × Nat) (d : Dyn) : Dyn :=
  let x := d.draft n
  if x.lostRefs.contains r then
    let d1 := d.setDraft n { x with lostRefs := x.lostRefs.filter (· ≠ r) }
    if (d1.draft n).lostRefs = [] then d1.clears (0xC100 + n) [0xC06C] else d1
  else d

/-- One entry action of Draft `n` (R345). The data of DRAFT_EVENT are the Draft and its step (R433; log entry 85). -/
def runAction (c : Cfg) (i : PassIn) (n a : Nat) (d : Dyn) : Dyn :=
  let w := c.f (draftA n (0x1020 + 12 * a))
  let op := fld w 0 8
  let idx := fld w 16 16
  let v := sword (c.f (draftA n (0x1024 + 12 * a)))
  let rf := c.f (draftA n (0x1028 + 12 * a))
  match op with
  | 1 => setCmd idx true d
  | 2 => setCmd idx false d
  | 3 => ackTree c idx d
  | 11 => { d with seq := { d.seq with flags := putBit d.seq.flags (idx % 32) (v != 0) } }
  | 12 => d.event (0xC100 + n) 0xC06D 0 n (d.draft n).step
  | _ =>
    let useRef := (op == 4 || op == 6 || op == 7 || op == 9) && fld rf 0 8 != 0
    let val := if useRef then srcVal c i.z (fld rf 0 8) (fld rf 16 16) else some v
    match val with
    | some y =>
      let d1 := if useRef then foundRef n (fld rf 0 8, fld rf 16 16) d else d
      match actWrite op idx y with
      | some q => { d1 with seq := { d1.seq with writes := d1.seq.writes ++ [q] } }
      | none => d1
    | none => (lostRef n (fld rf 0 8, fld rf 16 16) d).fault c (0xC100 + n) 0xC06C 1 0 0 false false

/-- A Draft enters a step (R346, R348): entry 0 start, 1 transition, 2 timeout, 3 abort, 4 RESET. The data of STEP_ENTERED are the
Draft and the step (R433; log entry 85). -/
def enterStep (c : Cfg) (i : PassIn) (n s entry tr : Nat) (d : Dyn) : Dyn :=
  let d0 := d.clears (0xC100 + n) [0xC06A, 0xC06B]
  let x := d0.draft n
  let d1 := d0.setDraft n { x with prev := x.step, step := s, time := 0, atMs := i.ms, entry := entry, trans := tr, entries := satInc 16 x.entries }
  let d2 := forEach (upFrom (c.stepActFirst n s) (c.stepActs n s)) d1 (runAction c i n)
  let y := d2.draft n
  let d3 := if y.holdPend ∧ ¬ c.stepNoHold n s then d2.setDraft n { y with held := true, holdPend := false } else d2
  if c.draftLog n then d3.event (0xC100 + n) 0xC069 0 n s else d3

/-- The first true transition of a step (R344). -/
def firstTrans (c : Cfg) (i : PassIn) (n s st : Nat) : Option (Nat × Nat) :=
  (List.range (c.stepTrs n s)).findSome? (fun j =>
    let a := draftA n (0x4020 + 28 * (c.stepTrFirst n s + j))
    if cond c i a true st && cond c i (a + 12) true st then some (j, c.fF (a + 24) 0 8) else none)

/-- A step's timeout (R347). -/
def stepTimeout (c : Cfg) (i : PassIn) (n : Nat) (d : Dyn) : Dyn :=
  let s := (d.draft n).step
  (enterStep c i n (c.stepTo n s) 2 0 d).fault c (0xC100 + n) 0xC06A (c.stepToSev n s) 0 0 false false

/-- A RUNNING Draft moves on: the first true transition, else the timeout (R346, R347). -/
def draftMove (c : Cfg) (i : PassIn) (n : Nat) (d : Dyn) : Dyn :=
  let x := d.draft n
  let st := x.stepTime i.ms
  match firstTrans c i n x.step st with
  | some (j, nx) => enterStep c i n nx 1 j d
  | none => if 0 < c.stepTimeout n x.step ∧ c.stepTimeout n x.step ≤ st then stepTimeout c i n d else d

/-- HOLD and RESUME as a pass takes them (R348). -/
def draftHold (c : Cfg) (ms n : Nat) (d : Dyn) : Dyn :=
  let x := d.draft n
  if x.taken.hold ∧ ¬ x.held then
    if c.stepNoHold n x.step then d.setDraft n { x with holdPend := true }
    else d.setDraft n { x with held := true, time := x.stepTime ms, atMs := ms }
  else if x.taken.resume then d.setDraft n { x with held := false, holdPend := false, atMs := if x.held then ms else x.atMs }
  else d

/-- The abort causes of a pass (R349): 1 command, 2 ABORT_COND, 3 unit fault. `faulted` are the units that entered FAULT
since the previous pass. -/
def abortCauses (c : Cfg) (i : PassIn) (faulted : List Nat) (n : Nat) (x : Draft) : List (Nat × Nat) :=
  let mine := faulted.filter (fun u => c.unitCmdr u == 1 && c.unitCmdrIdx u == n)
  (if x.taken.abort then [(1, 0)] else []) ++
  (if cond c i (draftA n 8) false 0 && !x.lastCond then [(2, 0)] else []) ++
  (if c.draftOnFault n then mine.map (fun u => (3, u)) else [])

/-- One Draft in a pass (R346 to R350, R352). An abort also outranks the entry into step 0 of a start. -/
def draftPass (c : Cfg) (i : PassIn) (faulted : List Nat) (n : Nat) (d : Dyn) : Dyn :=
  let x := d.draft n
  let causes := abortCauses c i faulted n x
  let cn := cond c i (draftA n 8) false 0
  let last := (causes.getLast?).getD (x.abortCause, x.abortUnit)
  let d0 := d.setDraft n { x with lastCond := cn, aborts := satAdd 16 x.aborts causes.length, abortCause := last.1, abortUnit := last.2 }
  let inAbort := x.step == c.draftAbortStep n && !x.startPend
  if causes ≠ [] ∧ ¬ inAbort then
    let d1 := d0.setDraft n { d0.draft n with held := false, holdPend := false, startPend := false }
    (enterStep c i n (c.draftAbortStep n) 3 0 d1).fault c (0xC100 + n) 0xC06B 1 last.1 last.2 false false
  else if x.startPend then enterStep c i n 0 0 0 (d0.setDraft n { d0.draft n with startPend := false, held := false, holdPend := false })
  else if x.taken.reset then enterStep c i n 0 4 0 (d0.setDraft n { d0.draft n with held := false, holdPend := false })
  else
    let d1 := draftHold c i.ms n d0
    if (d1.draft n).held then d1 else draftMove c i n d1

/-- Publish unit states (R346 item 5). -/
def publish (c : Cfg) (d : Dyn) : Dyn :=
  forEach ((List.range c.fx.nUnits).filter (c.unitEn)) d (fun u d => d.setUnit u { d.unit u with pubState := (d.unit u).state })

/-- SEQUENCER_PASS (R346), as it stands when it completes; `us` is its duration. -/
def runPass (c : Cfg) (i : PassIn) (us : Nat) (d : Dyn) : Dyn :=
  let en := (List.range c.fx.nUnits).filter (c.unitEn)
  let faulted := en.filter (fun u => (d.unit u).newFault)
  let d1 := forEach faulted d (fun u d => d.setUnit u { d.unit u with newFault := false })
  let d2 := forEach ((List.range c.fx.nDrafts).filter (c.draftEn)) d1 (draftPass c i faulted)
  let d3 := publish c (unitSweeps c i d2)
  let q := d3.seq
  let d4 := { d3 with seq := { q with passMs := none, defer := [], lastUs := min us 65535, peakUs := max q.peakUs (min us 65535), passes := (q.passes + 1) % 2 ^ 32 } }
  q.defer.foldl (fun d k => unitDo c k.unit k.kind d) d4

/-- The source of SEQ_PASS_LATE; the spec lists none for the sequencer itself. -/
def seqSrc : Nat := 0xC1FF

/-- A running pass has completed: it publishes (R346, R354). -/
def passEnd (c : Cfg) (us : Nat) (d : Dyn) : Dyn :=
  match d.seq.passMs with
  | some ms =>
    let z := ({ d with snap := d.passSnap } : Dyn).frozen
    let d1 := runPass c { z := z, k := d, flags := d.seq.passFlags, ms := ms, trips := d.seq.passTrips, holds := d.seq.passHolds } us d
    if d.seq.lateOpen && decide (d.ms ≤ ms + 10) then ({ d1 with seq := { d1.seq with lateOpen := false } } : Dyn).clears seqSrc [0xC06E] else d1
  | none => d

/-- The commands given to the Drafts so far are those of the pass that starts (R360). -/
def Draft.take (x : Draft) : Draft :=
  { x with taken := { abort := x.wantAbort, reset := x.wantReset, hold := x.wantHold, resume := x.wantResume }
           wantAbort := false, wantReset := false, wantHold := false, wantResume := false }

/-- The unit timers restart at the first pass after an entry to RUN that is no start (R342). -/
def timersRestart (c : Cfg) (d : Dyn) : Dyn :=
  if d.seq.resumed then
    let d1 := forEach ((List.range c.fx.nUnits).filter (c.unitEn)) d (fun u d =>
      d.setUnit u { d.unit u with enterMs := d.ms, runMs := d.ms, trip1At := none, trip2At := none, plossAt := none })
    { d1 with seq := { d1.seq with resumed := false } }
  else d

/-- A pass is due (R35, R354): it starts with what stands now (R36, R335), or is skipped because the previous one still runs. -/
def passStart (c : Cfg) (d : Dyn) : Dyn :=
  match d.seq.passMs with
  | some _ =>
    let d1 := { d with seq := { d.seq with late := (d.seq.late + 1) % 2 ^ 32, lateOpen := true } }
    d1.fault c seqSrc 0xC06E 1 0 0 false false
  | none =>
    let d1 := forEach ((List.range c.fx.nDrafts).filter (c.draftEn)) (timersRestart c d) (fun n d => d.setDraft n (d.draft n).take)
    { d1 with seq := { d1.seq with passMs := some d.ms, passFlags := d.seq.flags, passTrips := trippedUnits c d, passHolds := heldUnits c d }, passSnap := d.snap }

/-- Words of the sequencer come into force at the start of a pass (R46). -/
def seqLoad (c : Cfg) : Cfg := { c with reg := c.reg.loadIf (fun a => decide (0x1C2000 ≤ a) && decide (a < 0x200000)) }

/-- A start of the sequencer (R350). -/
def seqStart (c : Cfg) (d : Dyn) : Dyn :=
  let ms := d.ms
  let d1 := forEach ((List.range c.fx.nUnits).filter (c.unitEn)) d (fun u d =>
    let x := d.unit u
    (d.setUnit u { UnitS.empty with enterMs := ms, refused := x.refused, starts := x.starts, reason := x.reason, cmdResult := x.cmdResult }).clears (0xC000 + u) unitCodes)
  let d2 := forEach ((List.range c.fx.nDrafts).filter (c.draftEn)) d1 (fun n d =>
    let x := d.draft n
    (d.setDraft n { x with startPend := true, held := false, holdPend := false, wantAbort := false, wantReset := false, wantHold := false, wantResume := false,
                           lastCond := false, lostRefs := [], taken := DraftWant.none }).clears (0xC100 + n) [0xC06A, 0xC06B, 0xC06C])
  { d2 with seq := { d2.seq with passMs := none, defer := [], writes := [], resumed := false } }

/-- The sequencer stops on entry to SAFE (R23, R350): a running pass publishes nothing, units read STOPPED or FAULT, Drafts
keep their step and step time. -/
def seqStop (c : Cfg) (d : Dyn) : Dyn :=
  let ms := d.ms
  let d1 := forEach ((List.range c.fx.nUnits).filter (c.unitEn)) d (fun u d =>
    let x := d.unit u
    if x.state = 4 then d.setUnit u { x with cmd := false, pubState := 4 }
    else d.setUnit u { x with state := 0, pubState := 0, enterMs := ms, cmd := false, proof := false, ready := false, active := [] })
  let d2 := forEach (List.range c.fx.nDrafts) d1 (fun n d =>
    let x := d.draft n
    d.setDraft n { x with time := x.stepTime ms, atMs := ms })
  { d2 with seq := { d2.seq with passMs := none, defer := [], writes := [], resumed := false } }

/-- An entry to RUN that is not a start (R342, R350): timers restart at the first pass. -/
def seqResume (d : Dyn) : Dyn := { d with seq := { d.seq with resumed := true } }

/-- The present inputs of a condition, for events between passes. -/
def passNow (c : Cfg) (d : Dyn) : PassIn := { z := d.frozen, k := d, flags := d.seq.flags, ms := d.ms, trips := trippedUnits c d, holds := heldUnits c d }

/-- STEP_TIMEOUT (R347): no transition is true and the step time has reached TIMEOUT. -/
def stepTimeoutEv (c : Cfg) (n : Nat) (d : Dyn) : Dyn :=
  let x := d.draft n
  let i := passNow c d
  let st := x.stepTime d.ms
  if c.draftEn n && d.glb.st == .run && !x.held && !x.startPend && (firstTrans c i n x.step st).isNone &&
     decide (0 < c.stepTimeout n x.step) && decide (c.stepTimeout n x.step ≤ st) then stepTimeout c i n d else d

/-- UNIT_START_TIMEOUT, UNIT_STOP_TIMEOUT, UNIT_PROOF_LOST, UNIT_TRIP1 and UNIT_TRIP2 (R336, R341). -/
def unitCauseEv (c : Cfg) (u cause : Nat) (d : Dyn) : Dyn :=
  if c.unitEn u && d.glb.st == .run then
    let i := passNow c d
    if c.unitKind u = 6 then
      let d1 := groupState c i u d
      if (d.unit u).state ≠ 4 ∧ (d1.unit u).cause = cause ∧ (d1.unit u).state = 4 then d1 else d
    else
      let x := unitSeen c i u (d.unit u)
      if unitCause c i u x = cause then unitFault c u cause i.ms (d.setUnit u x) else d
  else d

/-- SEQ_DCMD (R348, R349, R350, R360): 1 HOLD, 2 RESUME, 4 ABORT, 8 RESET. -/
def draftCmd (c : Cfg) (n kind : Nat) (d : Dyn) : Dyn :=
  if c.fx.nDrafts ≤ n then d
  else
    let x := d.draft n
    let running := c.draftEn n && d.glb.st == .run && !x.held
    let ok := { x with cmdResult := 0 }
    match kind with
    | 1 => if running then d.setDraft n { ok with wantHold := true, wantResume := false } else d.setDraft n { x with cmdResult := 0xC00D, reason := 0xC00D }
    | 2 => if x.held ∨ x.holdPend ∨ x.wantHold ∨ x.taken.hold then d.setDraft n { ok with wantResume := true, wantHold := false } else d.setDraft n { x with cmdResult := 0xC00D, reason := 0xC00D }
    | 4 => d.setDraft n { ok with wantAbort := c.draftEn n }
    | _ => d.setDraft n { ok with wantReset := c.draftEn n }

/-- SEQ_FLAGSET and SEQ_FLAGCLR (R358). -/
def flagSet (v : Word) (d : Dyn) : Dyn := { d with seq := { d.seq with flags := (BitVec.ofNat 32 d.seq.flags ||| v).toNat } }
def flagClr (v : Word) (d : Dyn) : Dyn := { d with seq := { d.seq with flags := (BitVec.ofNat 32 d.seq.flags &&& ~~~v).toNat } }

end Sys2Proof.Machine
end

