-- ==== Sys2Proof/Machine/State/Sage.lean ====
section
/-! DEFINITION. What Sage's checks are written in: entries of the configuration, single checks and failures (R113, R129). -/

namespace Sys2Proof.Machine

open Sys2Proof

/-- An entry of a section: its type and instance (R103), which of the section's tables it stands in (0 the header), and its
index there. -/
structure Ent where
  typ : Nat
  inst : Nat
  part : Nat
  idx : Nat
  deriving DecidableEq, Repr

/-- One check of a field: the entry, the field's byte offset in the section, the register word that mirrors it, the code, whether
it fails, and the entry a reference names. -/
structure Chk where
  own : Ent
  off : Nat
  addr : Nat
  code : Nat
  bad : Bool
  ref : Option Ent
  also : Option Ent := none   -- an entry the check depends on without a reference that bars its disable
  deriving DecidableEq, Repr

/-- A failure and its place as CFG_ERRLOC and CFG_ERROFF report it (R129). -/
structure Bad where
  code : Nat
  typ : Nat
  entry : Nat
  off : Nat
  deriving DecidableEq, Repr

/-- The fields of one register word by access class (R12), and its operator fields (R44): bit masks. `wide` are bits of the section's
field beyond the register's. -/
structure Fields where
  rw : Nat
  rws : Nat
  rwl : Nat
  op : Nat
  wide : Nat
  deriving DecidableEq, Repr

/-- A run of equal entries of the register map (R567): entry `i` has its words from `base + i * stride` on. `en` says that bit 0
of word 0 is its enable bit. The entries belong to part `part` of the section of type `typ` and instance `inst`; where the section's words
have the registers' layout, entry `i` lies `sOff + i * sStride` bytes into it, and `sStride` is 0 where they do not. Type 0xFFFF stands
for registers that no section carries. -/
structure Area where
  typ : Nat
  inst : Nat
  part : Nat
  base : Nat
  stride : Nat
  count : Nat
  sOff : Nat
  sStride : Nat
  en : Bool
  words : List Fields
  deriving DecidableEq, Repr

end Sys2Proof.Machine
end

