-- ==== Sys2Proof/Machine/SageBase.lean ====
section
/-! DEFINITION. The shared pieces of Sage's checks (R113, R129). -/

namespace Sys2Proof.Machine

open Sys2Proof

/-- A check without a reference. -/
def ck (own : Ent) (off addr code : Nat) (bad : Bool) : Chk := { own := own, off := off, addr := addr, code := code, bad := bad, ref := none }

/-- A check of a reference. -/
def cr (own : Ent) (off addr code : Nat) (bad : Bool) (ref : Ent) : Chk :=
  { own := own, off := off, addr := addr, code := code, bad := bad, ref := some ref }

/-- A check that depends on a second entry, which may be disabled all the same. -/
def ca (own : Ent) (off addr code : Nat) (bad : Bool) (also : Ent) : Chk :=
  { own := own, off := off, addr := addr, code := code, bad := bad, ref := none, also := some also }

/-- A number beyond the die that every number passes: objects whose chapter gives one code for every number the variant lacks. -/
def anyDie : Nat := 65536

/-- The refusal of an object's number (R5, R124): one that the variant lacks has the code of the subsystem that owns the object, one beyond the die's
table that of the entry that refers to it. `n` is the variant's count and `die` the table's; 0 where the object exists. -/
def numCode (owner sub n die i : Nat) : Nat := if i < n then 0 else if i < die then 0x1000 * owner + 2 else 0x1000 * sub + 4

def ckNum (e : Ent) (o a owner sub n die i : Nat) : Chk := let x := numCode owner sub n die i; ck e o a x (x != 0)

/-- The checks of a reference to a numbered object: the number, then whether the object is enabled. -/
def ckObj (e : Ent) (o a owner sub n die i : Nat) (on : Bool) (t : Ent) : List Chk :=
  ckNum e o a owner sub n die i :: (if i < n then [cr e o a (0x1000 * sub + 3) (!on) t] else [])

/-- A value outside a range. -/
def outN (x lo hi : Nat) : Bool := decide (x < lo) || decide (hi < x)

def outI (x lo hi : Int) : Bool := decide (x < lo) || decide (hi < x)

/-- A check list of the entries of a range that satisfy a condition. -/
def perEnt (n : Nat) (p : Nat → Bool) (g : Nat → List Chk) : List Chk := (((List.range n).filter p).map g).flatten

/-- The first failing check of a list: the least section offset, the earlier of the list on equal offsets. -/
def firstBad (l : List Chk) : Option Chk :=
  l.foldl (fun m x => if x.bad then (match m with | some y => if x.off < y.off then some x else some y | none => some x) else m) none

/-- Whether a list of numbers repeats one. -/
def hasDup : List Nat → Bool
  | [] => false
  | x :: r => r.contains x || hasDup r

end Sys2Proof.Machine
end

