-- ==== Sys2Proof/Machine/Visits.lean ====
section
/-! DEFINITION. The bank scheduler: visits, guard slots, excitation, self-test and the listen cross-check (R135 to R162). -/

namespace Sys2Proof.Machine

open Sys2Proof

/-- The matrix of a module that leaves the ACTIVE role (R159): every excitation source off. -/
def sourcesOff (d : Dyn) : Dyn :=
  { d with afe := { d.afe with banks := d.afe.banks.map (fun q => (q.1, { q.2 with contOn := false, retryAt := none })) } }

/-- The kind of continuous excitation a descriptor shares, 3 or 4 (R138). -/
def Cfg.isCont (c : Cfg) (k : Nat) : Bool := decide (3 ≤ c.descExc k)

/-- The enabled descriptors of a bank that share its continuous excitation. -/
def Cfg.contDescs (c : Cfg) (b : Nat) : List Nat := (upFrom (64 * b) 64).filter (fun k => c.descEn k && c.isCont k)

/-- The RWL bits of a descriptor's words (R167). -/
def descRwl (j : Nat) : Word := nth 0 [0xFFFFFF02#32, 0xFFFF00FF#32, 0xFF00FFFF#32, 0xFFFF00FF#32, 0xFFFF0000#32, 0xFFFFFFFF#32] j

/-- The codes held for chopping go with a change of an RWL field (R143). -/
def dropHeld (k : Nat) (d : Dyn) : Dyn := d.setDesc k { d.desc k with heldP := none, heldN := none }

/-- Whether two configurations differ in an RWL field of a descriptor. -/
def rwlDiffers (c c' : Cfg) (k : Nat) : Bool := (List.range 6).any (fun j => (c.f (descA k j) ^^^ c'.f (descA k j)) &&& descRwl j != 0#32)

/-- Bring a descriptor's words into force at the start of its visit (R46), its EXC_VAL change setting settle pending
(R148). -/
def loadDesc (k : Nat) (s : State) : State :=
  let old := s.c.descExcVal k
  let c' : Cfg := { s.c with reg := s.c.reg.load (descA k 0) 8 }
  let d := if rwlDiffers s.c c' k then dropHeld k s.d else s.d
  if c'.descExcVal k ≠ old ∧ c'.descExc k ≠ 0 then
    let b := k / 64
    let p : Nat → Bool := fun j => if c'.isCont k then c'.isCont j else j == k
    { s with c := c', d := setPending c' b p d }
  else { s with c := c', d := d }

/-- Bring a channel's words, those of its switches and its user curve into force at a result (R46). -/
def loadChan (k : Nat) (s : State) : State :=
  let r1 := s.c.reg.load (chanA k 0) 8
  let r2 := forEach (List.range 512) r1 (fun i r => if fld (tget 0 r.w (swA i 0)) 16 16 = k then r.load (swA i 0) 4 else r)
  let u := fld (tget 0 r2.w (chanA k 0)) 8 8
  let r3 := if 32 ≤ u ∧ u < 64 then r2.load (ucurveA u) 132 else r2
  { s with c := { s.c with reg := r3 } }

/-- Whether a chop reversal is due at a visit start at `ms` (R151). -/
def chopDue (start : Bool) (last ms per : Nat) : Bool := start || decide (last + per ≤ ms)

/-- CHOP_REVERSAL at the start of a visit (R151): the first visit after a restart runs at positive polarity and counts as
a reversal. With CHOP = 0 the excitation is at positive polarity; where it was reversed before, that is a reversal (R143, R148). -/
def chopStep (c : Cfg) (k : Nat) (d : Dyn) : Dyn :=
  let b := k / 64
  let x := d.desc k
  if c.descExc k = 0 then d
  else if c.isCont k then
    let bk := d.bank b
    if c.descChop k && chopDue bk.contStart bk.contRev d.ms (c.descChopMs k) then
      let pol := if bk.contStart then false else !bk.contPol
      let d1 := d.setBank b { bk with contPol := pol, contStart := false, contRev := d.ms }
      setPending c b c.isCont d1
    else if !c.descChop k && bk.contPol then setPending c b c.isCont (d.setBank b { bk with contPol := false })
    else d
  else if c.descChop k && chopDue x.chopStart x.lastRev d.ms (c.descChopMs k) then
    d.setDesc k { x with pol := if x.chopStart then false else !x.pol, chopStart := false, lastRev := d.ms, pending := true }
  else if !c.descChop k && x.pol then d.setDesc k { x with pol := false, pending := true }
  else d

/-- The polarity a visit of descriptor `k` runs at (R143). -/
def polOf (c : Cfg) (d : Dyn) (k : Nat) : Bool :=
  if c.descExc k = 0 then false else if c.isCont k then (d.bank (k / 64)).contPol else (d.desc k).pol

/-- Begin a visit of descriptor `k` (R146, R148, R151). The continuous source comes on at the first visit (R138). -/
def beginVisit (k : Nat) (guard : Bool) (s : State) : State :=
  let s1 := loadDesc k s
  let b := k / 64
  let d0 := chopStep s1.c k s1.d
  let bk := d0.bank b
  let on := !d0.standby && decide (s1.c.contDescs b ≠ []) && bk.retryAt.isNone
  let x := d0.desc k
  let v : Visit := { desc := k, guard := guard, ext := x.pending && decide (s1.c.descExc k ≠ 0), unsettled := false }
  { s1 with d := (d0.setDesc k { x with pol := polOf s1.c d0 k }).setBank b { bk with visit := some v, contOn := bk.contOn || on, waiting := false } }

/-- The list a bank works through now: the storage list in SCAN, the run list in RUN and SAFE (R152). -/
def Dyn.listNow (d : Dyn) (b : Nat) : List Nat := let x := d.bank b; if d.glb.st = .scan then x.scanList else x.runList

/-- The end of a list cycle: the run list starts again, with an accepted edit from here on (R157); the storage list
stops (R152). -/
def cycleEnd (b : Nat) (d : Dyn) : Dyn :=
  let x := d.bank b
  if x.pos < (d.listNow b).length then d
  else if d.glb.st = .scan then d.setBank b { x with listDone := true }
  else match x.nextRun with
    | some l => d.setBank b { x with pos := 0, runList := l, nextRun := none, listPend := false }
    | none => d.setBank b { x with pos := 0 }

/-- Whether the bank may visit now: enabled, in a state in which lists run, no visit under way and no self-test. -/
def bankFree (c : Cfg) (d : Dyn) (b : Nat) : Bool :=
  d.live c && c.bankEn b && (d.bank b).visit.isNone && !(d.bank b).selftest

/-- VISIT_START (R154): the next ordinary visit, or idling until the guard slot has ended. -/
def visitStart (b : Nat) (s : State) : State :=
  let d := cycleEnd b s.d
  let s0 := { s with d := d }
  if !bankFree s.c d b || (d.bank b).listDone then s0
  else
    let x := d.bank b
    match (d.listNow b)[x.pos]? with
    | none => s0
    | some j =>
      let k := 64 * b + j
      let now := d.tim.t128
      -- the extension runs where settle pending is set or will be set by what falls due at this start
      let s1 := loadDesc k s0
      let d1 := chopStep s1.c k s1.d
      let w := s1.c.visitW k ((d1.desc k).pending && decide (s1.c.descExc k ≠ 0))
      match s.c.bankSlot b now with
      | some t =>
        if now + w ≤ t then
          let s2 := beginVisit k false s0
          { s2 with d := s2.d.setBank b { s2.d.bank b with pos := x.pos + 1 } }
        else { s0 with d := d.setBank b { x with waiting := true } }
      | none =>
        let s2 := beginVisit k false s0
        { s2 with d := s2.d.setBank b { s2.d.bank b with pos := x.pos + 1 } }

/-- GUARD_SLOT_START (R153): an enabled guard descriptor's slot begins; a guard slot is never skipped for another
visit, since the scheduler leaves the bank idle for it. -/
def guardSlotStart (k : Nat) (s : State) : State :=
  if s.d.live s.c && s.c.bankEn (k / 64) && s.c.descEn k && s.c.descGuard k && (s.d.bank (k / 64)).visit.isNone then beginVisit k true s
  else s

/-- Whether every result of bank `b` is invalid by a record of the bank or of V33A (R182). -/
def bankBad (d : Dyn) (b : Nat) : Bool := (d.bank b).failed || d.openCode 0 [0x0063]

/-- Whether the bank's voltage source is on in a visit of descriptor `k` (R138): the descriptor's own, or the continuous one of the bank. -/
def vSource (c : Cfg) (k : Nat) (d : Dyn) : Bool :=
  let on := (d.bank (k / 64)).contOn
  c.descExc k == 2 || (on && (c.contDescs (k / 64)).any (fun j => c.descExc j == 4))

/-- What AFE_BEXC shows of the latest visit (R140, R165): the voltage source's current, and whether it was at its limit at some time in the visit. -/
def vReport (c : Cfg) (k : Nat) (m : VisitMeas) (d : Dyn) : Dyn :=
  let b := k / 64
  let on := vSource c k d
  d.setBank b { d.bank b with overload := on && (m.overload || m.overloadAny), vcurr := if on then m.vcurr % 256 else 0 }

/-- The voltage-source bookkeeping at the end of a visit (R140, R148): a visit that uses the source counts, or ends the overload; an overload of
the continuous source, and its being switched off, leaves every sharer settle pending. -/
def overloadEnd (c : Cfg) (k : Nat) (m : VisitMeas) (d0 : Dyn) : Dyn :=
  let b := k / 64
  let on := vSource c k d0
  let d := vReport c k m d0
  let bk := d.bank b
  let uses := on && (c.descExc k == 2 || c.descExc k == 4)
  if !bk.overload then if uses then (d.setBank b { bk with contOver := 0 }).clears (0x4400 + b) [0x4061] else d
  else
    let d1 := if c.descExc k = 2 then d else setPending c b c.isCont d
    let n := if uses then (if m.overload then bk.contOver + 1 else 0) else bk.contOver
    let d2 := d1.setBank b { d1.bank b with contOver := n }
    if uses && m.overload && decide (3 ≤ n) then
      let d3 := if d2.openCode (0x4400 + b) [0x4061] then d2 else d2.fault c (0x4400 + b) 0x4061 2 0 0 false false
      if c.descExc k = 4 then d3.setBank b { d3.bank b with contOn := false, retryAt := some (d.ms + 1000) } else d3
    else d2

/-- EXC_RETRY: a continuous source switched off for overload is tried again with one visit (R140). -/
def excRetry (c : Cfg) (b : Nat) (d : Dyn) : Dyn :=
  let x := d.bank b
  match x.retryAt with
  | some t =>
    if t ≤ d.ms ∧ d.live c ∧ c.bankEn b then
      setPending c b c.isCont (d.setBank b { x with contOn := true, retryAt := none, contOver := 2 })
    else d
  | none => d

/-- The sense level normalised to positive polarity (R147). -/
def senseNorm (rev : Bool) (x : Int) : Int := if rev then -x else x

/-- What a settled visit gives: its raw polarity code, the verdict, and the marks (R143, R182). -/
def visitVerdict (c : Cfg) (d : Dyn) (k : Nat) (m : VisitMeas) : Int × Bool × Nat :=
  let x := d.desc k
  let avg := c.descAvg k
  let rp := rawPol (c.descRef k) x.pol (c.descGain k) avg m.vin m.vref
  let comp := m.compliance && (c.descExc k == 1 || c.descExc k == 3)
  let v : Verdict :=
    { bank := bankBad d (k / 64), ovf := rp.2, exc := c.descExc k, compliance := comp
      senseUsed := c.descRef k || c.descSenseChk k, sense := senseNorm x.pol m.sense, probe := c.descProbe k
      probeUv := m.probe, mainNv := rdivI ((List.range avg).foldl (fun a i => a + nth 0 m.vin i) 0) (max 1 avg)
      winIn := m.winIn, winSn := m.winSn }
  (rp.1, rp.2, verdictOf v)

/-- A settled visit of the module's own excitation: held codes, AFE_RAWd and AFE_DSTATd (R143, R168). Answers the raw
result. -/
def settle (c : Cfg) (k : Nat) (rp : Int) (ovf : Bool) (cause : Nat) (m : VisitMeas) (d : Dyn) : Dyn × Int :=
  let x := d.desc k
  let raw := if c.descChop k && c.descExc k ≠ 0 then chopRaw x.pol rp x.heldP x.heldN else rp
  let hold := cause = 0 ∧ c.descChop k
  let x1 := { x with heldP := if hold ∧ ¬ x.pol then some rp else x.heldP, heldN := if hold ∧ x.pol then some rp else x.heldN,
                     pending := false, unsettled := 0, lastValid := cause == 0, ovf := ovf,
                     compliance := m.compliance && (c.descExc k == 1 || c.descExc k == 3), raw := if cause = 0 then raw else x.raw }
  ((d.setDesc k x1).clears (0x4000 + k) [0x4060], raw)

/-- An unsettled visit (R149, R150). -/
def unsettle (c : Cfg) (k : Nat) (ovf : Bool) (m : VisitMeas) (d : Dyn) : Dyn :=
  let x := d.desc k
  let n := min 7 (x.unsettled + 1)
  let d1 := d.setDesc k { x with pending := true, unsettled := n, lastValid := false, ovf := ovf,
                                 compliance := m.compliance && (c.descExc k == 1 || c.descExc k == 3) }
  if n = 4 then d1.fault c (0x4000 + k) 0x4060 2 0 0 false false else d1

/-- A cross-check's counts (R160): consecutive visits that differ and that agree. Answers the counts and what they call for: 1 a record, 2 the clearing of
one. -/
def crossCount (bad : Bool) (mis good : Nat) : (Nat × Nat) × Nat :=
  if bad then ((mis + 1, 0), if (mis + 1) % 4 = 0 then 1 else 0) else ((0, good + 1), if good + 1 = 4 then 2 else 0)

/-- The record of a cross-check (R169). -/
def crossFault (c : Cfg) (k code call : Nat) (d : Dyn) : Dyn :=
  if call = 1 then d.fault c (0x4000 + k) code 1 0 0 false false else if call = 2 then d.clears (0x4000 + k) [code] else d

/-- The listen cross-check of the standby (R160): its own raw result against the active's where the visit is valid by the active's verdict, and its own
sense level against the active's in every visit that measures one. -/
def listenCheck (c : Cfg) (k : Nat) (own sense : Int) (mv : MirrorVisit) (d : Dyn) : Dyn :=
  let b := k / 64
  let tol : Int := (c.fF (bankA b + 8) 0 24 : Nat)
  let x := d.desc k
  let d1 :=
    if mv.cause ≠ 0 ∨ mv.unsettled then d
    else
      let r := crossCount (decide (tol < ((own - mv.raw).natAbs : Int))) x.misRaw x.okRaw
      crossFault c k 0x4063 r.2 (d.setDesc k { x with misRaw := r.1.1, okRaw := r.1.2 })
  if c.descRef k || c.descSenseChk k then
    let y := d1.desc k
    let r := crossCount (decide ((mv.sense.natAbs : Int) < 50 * ((sense - mv.sense).natAbs : Int))) y.misSense y.okSense
    crossFault c k 0x4064 r.2 (d1.setDesc k { y with misSense := r.1.1, okSense := r.1.2 })
  else d1

/-- A listen visit (R159, R160): the standby follows the active's settling and takes its verdict for its own listen result. Answers that result. -/
def listenVisit (c : Cfg) (k : Nat) (rp : Int) (ovf : Bool) (mv : MirrorVisit) (m : VisitMeas) (d : Dyn) : Dyn × Int :=
  if mv.unsettled then
    let x := d.desc k
    (d.setDesc k { x with pending := true, unsettled := min 7 (x.unsettled + 1), lastValid := false, ovf := ovf, compliance := false }, rp)
  else settle c k rp ovf mv.cause { m with compliance := false } d

/-- What the visit's result does to its channel (R159, R170, R189): the standby takes the active's mirrored result. -/
def deliverVisit (k : Nat) (raw : Int) (cause : Nat) (unsettled : Bool) (level : Nat → Nat) (s : State) : State :=
  if unsettled then { s with d := holdChan s.c k s.d }
  else let s1 := loadChan k s; { s1 with d := convert s1.c k raw cause level s1.d }

/-- VISIT_END without the visit that follows it (R146 to R150). -/
def endVisit (k : Nat) (v : Visit) (m : VisitMeas) (mirror : Option MirrorVisit) (level : Nat → Nat) (s : State) : State :=
  let b := k / 64
  let d0 := s.d.setBank b { s.d.bank b with visit := none, visits := ((s.d.bank b).visits + 1) % 2 ^ 32 }
  let r := visitVerdict s.c d0 k m
  match s.d.standby, mirror with
  | true, some mv =>
    let q := listenVisit s.c k r.1 r.2.1 mv m (vReport s.c k m d0)
    let d1 := listenCheck s.c k q.2 (senseNorm (d0.desc k).pol m.sense) mv q.1
    deliverVisit k mv.raw mv.cause mv.unsettled level { s with d := d1 }
  | true, none => { s with d := holdChan s.c k (vReport s.c k m d0) }
  | false, _ =>
    let vs := s.c.descExc k = 2 ∨ (s.c.descExc k = 4 ∧ (d0.bank b).contOn)
    let bad := s.c.descExc k ≠ 0 ∧ (v.unsettled ∨ (vs ∧ (m.overload ∨ m.overloadAny)))
    let d1 := overloadEnd s.c k m d0
    if bad then { s with d := holdChan s.c k (unsettle s.c k r.2.1 m d1) }
    else
      let q := settle s.c k r.1 r.2.1 r.2.2 m d1
      deliverVisit k q.2 r.2.2 false level { s with d := q.1 }

/-- VISIT_END (R146): the visit under way in bank `b` ends, then the scheduler takes the next one. With no visit under
way nothing ends. -/
def visitEnd (b : Nat) (m : VisitMeas) (mirror : Option MirrorVisit) (level : Nat → Nat) (s : State) : State :=
  match (s.d.bank b).visit with
  | none => s
  | some v => visitStart b (endVisit v.desc v m mirror level s)

/-- AFE_BCMD.SELFTEST (R162, R166): refused in listen mode. -/
def selftestCmd (c : Cfg) (b : Nat) (d : Dyn) : Dyn :=
  if c.fx.nBanks ≤ b then d
  else if d.standby then d.setBank b { d.bank b with cmdResult := 0x400D }
  else d.setBank b { d.bank b with selftest := true, cmdResult := 0 }

/-- A self-test code within 0.5 % of its expected code (R162). -/
def selfOk (code expected : Int) : Bool := decide (200 * ((code - expected).natAbs) ≤ expected.natAbs)

/-- SELFTEST_DONE (R162, R169): the codes at 1.000 V with gain 1 and at 7.8125 mV with gain 128, both 3,355,443 nominally. A failure makes every result of
the bank invalid at once. -/
def selftestDone (c : Cfg) (b : Nat) (code1 code2 : Int) (level : Nat → Nat) (d : Dyn) : Dyn :=
  if c.fx.nBanks ≤ b ∨ !(d.bank b).selftest then d
  else
    let e : Int := 3355443
    let ok := selfOk code1 e && selfOk code2 e
    let d1 := d.setBank b { d.bank b with selftest := false, failed := !ok }
    if ok then d1.clears (0x4400 + b) [0x4062]
    else
      let d2 := d1.fault c (0x4400 + b) 0x4062 3 0 0 false false
      forEach ((upFrom (64 * b) 64).filter c.chanEn) d2 (fun k d => invalidate c k causeBANK level d)

/-- SELFTEST_DONE, and the ordinary visits that waited for it. -/
def selftestEnd (b : Nat) (code1 code2 : Int) (level : Nat → Nat) (s : State) : State :=
  visitStart b { s with d := selftestDone s.c b code1 code2 level s.d }

end Sys2Proof.Machine
end

