-- ==== Sys2Proof/Machine/RegMap.lean ====
section
/-! DEFINITION. The writable registers by access class and operator mark, with the section entries that carry them (R12, R44, R103,
R104, R567 and the field tables of every chapter). -/

namespace Sys2Proof.Machine

open Sys2Proof

/-- All bits of a word. -/
def m32 : Nat := 0xFFFFFFFF

/-- A word of mixed access classes. -/
def fw (rw rws rwl : Nat) : Fields := { rw := rw, rws := rws, rwl := rwl, op := 0, wide := 0 }

/-- Words of one access class. -/
def fRw (m : Nat) : Fields := fw m 0 0
def fRws (m : Nat) : Fields := fw 0 m 0
def fRwl (m : Nat) : Fields := fw 0 0 m

/-- The same word with its operator fields, or with the wider fields of its section. -/
def Fields.ops (x : Fields) (m : Nat) : Fields := { x with op := m }
def Fields.wider (x : Fields) (m : Nat) : Fields := { x with wide := m }

/-- A word without configuration. -/
def fNil : Fields := fw 0 0 0

/-- Every writable bit of a word. -/
def Fields.all (x : Fields) : Nat := x.rw ||| x.rws ||| x.rwl

/-- A word that the guard path holds: every field but EN waits for the lock (R145). -/
def Fields.locked (x : Fields) : Fields := { x with rws := 0, rwl := x.rws ||| x.rwl }

/-- Entries that carry an enable bit, and entries without one. -/
def area (typ inst part base stride count sOff sStride : Nat) (words : List Fields) : Area :=
  { typ := typ, inst := inst, part := part, base := base, stride := stride, count := count, sOff := sOff, sStride := sStride, en := true, words := words }

def tableArea (typ inst part base stride count sOff sStride : Nat) (words : List Fields) : Area :=
  { area typ inst part base stride count sOff sStride words with en := false }

/-- The words of a bank header, a descriptor, a channel and a switch (R144, R158, R164, R168, R193, R197, R199). -/
def bankWords : List Fields :=
  [fw 1 0 0xFFFF00, (fRws 0x01FF01FF).wider 0xFE00FE00, (fRws 0xFFFFFF).wider 0xFF000000]

def descWords : List Fields :=
  [fw 1 0 0xFFFFFF02, fw 0 0xFF00 0xFFFF0007, fw 0 0x00FF0000 0xFF00FFFF, fw 0 0x0F00 0xFFFF00FF, fw 0 0xFFFF 0xFFFF0000, fRwl m32, fNil, fNil]

def chanWords : List Fields := [fw 1 0 0xFFFFFF00, fRws m32, fRws m32, fRws m32, fRws m32, fRws m32, fRws 0xFFFF00FF, fNil]

def swWords : List Fields := [fw 1 0x3C 0xFFFF0002, (fRws m32).ops m32, fRws m32, fRws 0xFF]

/-- A user curve: its 16-byte head and 64 nodes (R194, R200). -/
def ucurveWords : List Fields := [fRwl 0xFFFFFF, fNil, fNil, fNil] ++ List.replicate 128 (fRwl m32)

/-- The words of a cell (R233, R236). -/
def cellWords : List Fields :=
  [(fw 1 0x1F000000 0x000FFF00).wider 0xE0F00000, fRwl m32, (fw 0 0x30000 0x03003FFF).wider 0xFCFCC000, (fRws 0x1FFFF).wider 0xFFFE0000,
   fw 0 0xFFFF 0xFFFF0000, fRws 0xFFFF, fNil, fNil] ++ List.replicate 8 ((fRwl 0xF3FFF).wider 0xF0C000) ++ List.replicate 72 (fRws m32) ++
  [fRws 0x303, fNil] ++ List.replicate 4 (fRws m32)

/-- A user grain curve, which the section alone carries (R234). -/
def grainWords : List Fields := [fRwl 0xFFFF00FF, fRwl 0xFFFF] ++ List.replicate 14 (fRwl m32)

/-- The words of a column, a zone and a drying table (R268, R269, R271, R272, R276). -/
def colWords : List Fields :=
  [(fw 1 0 0x1FFF7F02).wider 0xE0008000, fRwl m32, fRwl m32, fRwl 0xFFFF00FF, fRws m32, fRwl 0xFFFF00FF, fRwl 0xFFFF00FF,
   (fRws m32).ops m32, (fRws m32).ops m32, (fRws m32).ops m32, fRws m32, fRws m32, fRws m32, (fRws m32).ops 0xFFFF,
   (fRws m32).ops m32, fw 0 0xFF0000 0xFFFF, fRws 0xFFFF] ++ List.replicate 7 fNil

def zoneWords : List Fields := [fRwl 0xFFFF, fRwl m32, fRwl 0xFFFF00FF, fRws m32]

def dtabWords : List Fields := [fRwl 0xFF, fNil, fNil, fNil] ++ List.replicate 280 (fRwl m32)

/-- The words of a loop and of a coefficient bank (R300, R302, R303). -/
def loopWords : List Fields :=
  [fw 1 0xFF00FF1C 0x00FF0002, fRwl 0x00FFFFFF, fRwl 0xFFFF] ++ List.replicate 5 (fRwl 0xFFFF00FF) ++ List.replicate 6 (fRws m32) ++
  [fRwl m32, fRws 0xFFFF]

def coefWords : List Fields := [fRws m32, fRws m32, fRws m32, fRws m32, fRws m32, fRws 0xFF, fNil, fNil]

/-- The words of a generator, a group and a trace channel (R328 to R330). -/
def genWords : List Fields := (fw 1 2 0xFFFFFF00).ops 2 :: List.replicate 4 ((fRws m32).ops m32)

def ovrWords : List Fields := [fw 1 0x30 0xE, fRwl 0xFFFF00FF, fRwl m32, fRws 0xFFFF, fRwl m32, fRwl m32]

def trcWords : List Fields := [fRwl 0xFFFF00FF, fRwl 0xFFFF00FF, fRwl 0x0FFFFFFF, fRwl 0xFFFF007F, fRwl m32, fRwl m32]

/-- The words of a unit, a member entry and the tables of a Draft (R355, R356, R361, R362). -/
def unitWords : List Fields :=
  [fw 1 4 0x00FFFF02, fRwl m32, fw 0 0xFFFF0000 0xFFFF, fRws m32, fRwl m32, fRwl m32, fRws m32, fRwl 0xFFFF03FF, fRwl 0xFFFF00FF, fRws m32,
   fRwl 0xFFFF03FF, fRwl 0xFFFF00FF, fRws m32, fRwl 0xFFFF03FF, fRwl 0xFFFF00FF, fRws m32, fRwl 0xFFFF03FF, fRwl 0xFFFF00FF, fRws m32, fRws m32]

def memWords : List Fields := [fw 0 0xFFFF0000 0xFFFF, fRws 0xFFFF]

def draftHead : List Fields := [fw 1 6 0xFFFFFF00, fRwl m32, fRwl 0xFFFF03FF, fRwl 0xFFFF00FF, fRwl m32, fNil, fNil, fNil]
def stepWords : List Fields := [fRwl 0xFFFFFF01, fRwl m32, fRwl m32, fRwl 0xFF]
def actionWords : List Fields := [fRwl 0xFFFF00FF, fRwl m32, fRwl 0xFFFF00FF]
def transWords : List Fields :=
  [fRwl 0xFFFF03FF, fRwl 0xFFFF00FF, fRwl m32, fRwl 0xFFFF03FF, fRwl 0xFFFF00FF, fRwl m32, fRwl 0xFF]

/-- The words of a digital or mover group, a digital channel, a mover channel and a duty table (R388, R389, R391, R411 to R413, R415, R416). -/
def grpWords : List Fields := [fw 1 0x10000 0x7F00]
def dioWords : List Fields := [fw 1 0x0FFF0008 0xFF36, fRws 0xFFFF, fRws m32, fNil]

def movWords : List Fields :=
  [fw 1 0 0x00FF7F0E, fRws m32, fRws m32, fRws m32, fRws m32, fw 0 0xFFFFFF00 0xFF, fRws m32, fRws m32, fRws 0xFFFF, fRwl 0xFFFF00FF,
   fRwl 0xFFFF00FF, (fRws m32).ops m32, fNil, fNil, fNil, fNil]

def tabWords : List Fields :=
  [fRwl 0xFFFF, fRwl 0xFFFF00FF, fRwl 0xFFFF00FF, fRwl m32, fRwl m32, fRwl m32, fNil, fNil] ++ List.replicate 16 (fRwl m32)

/-- The words of a guard term and of the safe-state table (R442 to R445). -/
def termWords : List Fields := [fRwl 0xFFFFFF0F, fRwl m32, fRwl m32, fRwl m32, fRwl m32, fRwl m32, fNil, fNil]

def safeWords : List Fields := List.replicate 16 (fRwl 0x01010101) ++ (List.replicate 32 [fRwl 0xFFFF, fRwl m32]).flatten

/-- The words of a timed action (R465, R467). -/
def actWords : List Fields := (fw 1 0 0xFFFFFF0E).ops m32 :: (List.replicate 4 ((fRwl m32).ops m32) ++ [fNil])

/-- The words of a CAN port, a mailbox, a filter and a launch entry, and of a frame map, which the section alone carries (R501, R502, R504, R506, R508). -/
def portWords : List Fields :=
  [fw 1 0xFFFF0000 0xFE, fRwl 0x0FFFFFFF, fRwl 0x3FFFF, fw 0 0xFFFF0000 0xFF, fRwl 0x3FFFFFFF, fw 0 0xFFFF0000 0xFFFF, fRws m32, fRwl 0x3FFFFFFF]

def mbxWords : List Fields := [fw 1 0xE8 0xF16, (fRwl 0x1FFFFFFF).wider 0xE0000000, fRwl 0x1FFFFFFF]
def filtWords : List Fields := [fw 1 0 2, fRwl 0x1FFFFFFF, fRwl 0x1FFFFFFF]
def launchWords : List Fields := [(fw 1 0 0xFFFF1F02).ops 1, (fRwl m32).ops m32]

def mapWords : List Fields :=
  [fRwl 0xFFFFFF07, fRwl m32, fRwl 0xFFFF, fNil] ++ (List.replicate 8 [fRwl 0x01FFFFFF, fRwl m32, fRwl m32, fRwl 0xFF]).flatten

/-- The words of a Shuttle tag (R542). -/
def tagWords : List Fields := [fRwl 0x00FFFF07, fRwl m32, fRwl m32]

/-- How many entries a table may hold: `img` says by the section's counts, else by the variant (R4, R326, R442). `h o` is the 16-bit header field at
offset `o`. -/
def secAreas (v : Variant) (img : Bool) (h : Nat → Nat) (typ inst : Nat) : List Area :=
  let n : Nat → Nat → Nat := fun o lim => if img then h o else lim
  match typ with
  | 0x000 => [area 0 0 1 0x31000 0x20 (n 0 256) 16 24 actWords]
  | 0x400 =>
    [area 0x400 inst 0 (bankA inst) 0 1 0 32 bankWords, area 0x400 inst 1 (bankA inst + 0x100) 0x20 64 0x20 32 descWords,
     tableArea 0x400 inst 2 (bankA inst + 0xC00) 0 1 0x820 256 (List.replicate 64 (fRws m32)),
     tableArea 0x400 inst 3 (bankA inst + 0xD00) 0 1 0x920 256 (List.replicate 64 (fRws m32))]
  | 0x500 =>
    [area 0x500 0 1 0x121000 0x20 (n 0 (64 * v.nBanks)) 16 32 chanWords,
     area 0x500 0 2 0x12B000 0x10 (n 2 512) (16 + 32 * n 0 (64 * v.nBanks)) 16 swWords]
  | 0x501 => [tableArea 0x501 0 1 0x130000 0x400 32 0 0 ucurveWords]
  | 0x600 => [area 0x600 inst 0 (cellA inst) 0 1 0 376 cellWords]
  | 0x601 => [tableArea 0x601 0 1 0x7000000 0x40 32 0 0 grainWords]
  | 0x800 =>
    [area 0x800 inst 0 (grpA inst) 0 1 0 0 grpWords, area 0x800 inst 1 (grpA inst + 0x100) 0x10 16 0x10 16 dioWords]
  | 0x900 =>
    [area 0x900 0 0 (grpA 4) 0x100 2 0 0 grpWords, area 0x900 0 1 (movA 0 0) 0x100 32 0x10 64 movWords]
  | 0x901 => [tableArea 0x901 0 1 (tabA 0 0) 0x80 16 0 0 tabWords]
  | 0xA00 =>
    [area 0xA00 0 1 (loopA 0) 0x100 (n 0 v.nLoops) 16 128 loopWords, tableArea 0xA00 0 1 (loopA 0 + 0x40) 0x100 (n 0 v.nLoops) 80 128 coefWords,
     tableArea 0xA00 0 1 (loopA 0 + 0x80) 0x100 (n 0 v.nLoops) 112 128 coefWords]
  | 0xA01 => [area 0xA01 0 1 (prfA 0) 0x40 (n 0 v.nGens) 0 0 genWords]
  | 0xA02 => [area 0xA02 0 1 (ovrA 0) 0x40 (n 0 v.nOvr) 16 24 ovrWords]
  | 0xA03 => [tableArea 0xA03 0 1 (trcA 0) 0x40 (n 0 8) 0 0 trcWords]
  | 0xB00 =>
    [area 0xB00 inst 0 (colA inst) 0 1 0 96 colWords,
     tableArea 0xB00 inst 1 (colA inst + 0x400) 0x10 (if img then h 0 / 256 else 64) 0x60 16 zoneWords]
  | 0xB01 => [tableArea 0xB01 0 1 0x164000 0x800 8 0 0 dtabWords]
  | 0xC00 =>
    [area 0xC00 0 1 (unitA 0 0) 0x50 (n 0 v.nUnits) 16 80 unitWords,
     tableArea 0xC00 0 2 (memA 0 0) 8 (n 2 1024) (16 + 80 * n 0 v.nUnits) 8 memWords]
  | 0xC01 =>
    [area 0xC01 inst 0 (draftA inst 0) 0 1 0 32 draftHead, tableArea 0xC01 inst 1 (draftA inst 0x20) 16 (n 2 256) 32 16 stepWords,
     tableArea 0xC01 inst 2 (draftA inst 0x1020) 12 (n 4 1024) (32 + 16 * n 2 256) 12 actionWords,
     tableArea 0xC01 inst 3 (draftA inst 0x4020) 28 (n 6 1024) (32 + 16 * n 2 256 + 12 * n 4 1024) 28 transWords]
  | 0xD00 => [area 0xD00 0 1 (termA 0 0) 0x20 (n 0 v.nTerms) 16 32 termWords, tableArea 0xD00 0 0 0x5001C 0 1 0 0 [fRwl 7]]
  | 0xD01 => [tableArea 0xD01 0 0 0x50A00 0 1 0x10 320 safeWords]
  | 0xE00 =>
    [area 0xE00 inst 0 (canA inst 0) 0 1 0 64 portWords, area 0xE00 inst 1 (mbxA inst 0 0) 0x10 32 0x40 12 mbxWords,
     area 0xE00 inst 2 (filtA inst 0 0) 0x10 16 0x1C0 12 filtWords]
  | 0xE01 => [area 0xE01 0 1 (mapA 0 0) 0x100 (n 0 128) 16 144 mapWords]
  | _ => []

/-- Registers that no section carries. -/
def looseAreas (v : Variant) (typ inst : Nat) : List Area :=
  let one : Nat → List Fields → Area := fun a w => tableArea 0xFFFF 0 0 a 0 1 0 0 w
  match typ with
  | 0x000 =>
    [one 0x20 [(fRw 0x707).ops m32], one 0x30 [(fRw 0xFF).ops m32], one 0x10008 [fRw 0xFFFF, fRw 7],
     one 0x30024 [fRw 0xFFFF0001, (fRw m32).ops m32, (fRw m32).ops m32, (fRw m32).ops m32, (fRw m32).ops m32, (fRw m32).ops m32]]
  | 0x100 => [one 0x20080 (List.replicate 8 ((fRw m32).ops m32))]
  | 0xA00 => [tableArea 0xFFFF 1 0 (loopA 0 + 0xA0) 0x100 v.nLoops 0 0 [(fRws 0x103).ops m32, (fRws m32).ops m32, (fRws m32).ops m32]]
  | 0xB00 => [one (colA inst + 0x94) [(fRws m32).ops m32]]
  | 0x900 => [tableArea 0xFFFF 3 0 (movA 0 0x10) 0x100 32 0 0 [(fRws m32).ops m32]]
  | 0x800 => [tableArea 0xFFFF 4 0 (grpA inst + 0x18) 0 1 0 0 [(fRw 0xFFFF).ops m32, (fRw 0xFFFF).ops m32]]
  | 0xC00 => [one 0x1C0014 [(fRw m32).ops m32, (fRw m32).ops m32]]
  | 0xD00 => [one 0x4000C [(fRw 0xFFFF).ops m32]]
  | 0xE00 => [area 0xFFFF (16 + inst) 0 (launchA inst 0 0) 0x10 16 0 0 launchWords, one (canA inst 0x38) [(fRw m32).ops m32]]
  | 0xF00 => [one 0x500020 [(fRw 0x7F).ops m32], tableArea 0xFFFF 5 0 0x501000 0x20 128 0 0 tagWords]
  | _ => []

/-- The section type and instance whose registers lie around an address (R567); the second list entry names further blocks of that range. -/
def secAt (a : Nat) : List (Nat × Nat) :=
  if a < 0x20000 then [(0, 0)]
  else if a < 0x30000 then [(0x100, 0)]
  else if a < 0x40000 then [(0, 0)]
  else if a < 0x50000 then [(0xD00, 0)]
  else if a < 0x60000 then (if 0x50A00 ≤ a then [(0xD01, 0)] else [(0xD00, 0)])
  else if a < 0x100000 then []
  else if a < 0x110000 then [(0x400, (a - 0x100000) / 0x1000)]
  else if a < 0x120000 then []
  else if a < 0x130000 then [(0x500, 0)]
  else if a < 0x138000 then [(0x501, 0)]
  else if a < 0x140000 then []
  else if a < 0x142000 then [(0x600, (a - 0x140000) / 0x400)]
  else if a < 0x160000 then []
  else if a < 0x162000 then [(0xB00, (a - 0x160000) / 0x1000)]
  else if a < 0x164000 then []
  else if a < 0x168000 then [(0xB01, 0)]
  else if a < 0x180000 then []
  else if a < 0x184000 then [(0xA00, 0)]
  else if a < 0x1A0000 then []
  else if a < 0x1A1000 then [(0xA01, 0)]
  else if a < 0x1A2000 then [(0xA02, 0)]
  else if a < 0x1A3000 then [(0xA03, 0)]
  else if a < 0x1C0000 then []
  else if a < 0x1D0000 then [(0xC00, 0)]
  else if a < 0x200000 then [(0xC01, (a - 0x1D0000) / 0xC000)]
  else if a < 0x204000 then [(0x800, (a - 0x200000) / 0x1000)]
  else if a < 0x220000 then []
  else if a < 0x224000 then [(0x900, 0)]
  else if a < 0x225000 then [(0x901, 0)]
  else if a < 0x300000 then []
  else if a < 0x310000 then [(0xE00, (a - 0x300000) / 0x4000)]
  else if a < 0x500000 then []
  else if a < 0x600000 then [(0xF00, 0)]
  else []

/-- Whether an instance of a section type exists in the variant (R103). -/
def instOk (v : Variant) (typ inst : Nat) : Bool :=
  match typ with
  | 0x400 => decide (inst < v.nBanks)
  | 0x600 => decide (inst < v.nCells)
  | 0xB00 => decide (inst < v.nCols)
  | 0xC01 => decide (inst < v.nDrafts)
  | 0xB01 => inst == 0 && decide (0 < v.nCols)
  | 0x800 => decide (inst < 4)
  | 0xE00 => decide (inst < 4)
  | _ => inst == 0

/-- The place of an address in an area: the entry and the word. -/
def Area.find (x : Area) (a : Nat) : Option (Nat × Nat) :=
  if a < x.base then none
  else
    let i := if x.stride = 0 then 0 else (a - x.base) / x.stride
    let j := (a - x.base - i * x.stride) / 4
    if i < x.count ∧ j < x.words.length then some (i, j) else none

/-- The area, entry and word of a register, where it has writable fields. -/
def regAt (v : Variant) (a : Nat) : Option (Area × Nat × Nat) :=
  (secAt a).findSome? (fun ti =>
    if instOk v ti.1 ti.2 then
      (secAreas v false (fun _ => 0) ti.1 ti.2 ++ looseAreas v ti.1 ti.2).findSome? (fun x => (x.find a).map (fun ij => (x, ij)))
    else none)

/-- The descriptor, channel, switch or digital input that a guard term's path uses: its fields but EN are locked while enabled (R145, R191, R367). -/
def guardEntry (c : Cfg) (x : Area) (i : Nat) : Bool :=
  match x.typ, x.part with
  | 0x400, 1 => c.descGuard (64 * x.inst + i)
  | 0x500, 1 => c.descGuard i
  | 0x500, 2 => bit (c.w (swA i 0)) 1
  | 0x800, 1 => bit (c.w (dioA (16 * x.inst + i) 0)) 1
  | _, _ => false

/-- The fields of a register by access class. -/
def fieldsAt (c : Cfg) (a : Nat) : Option (Area × Nat × Fields) :=
  match regAt c.fx a with
  | none => none
  | some (x, i, j) =>
    let f := nth fNil x.words j
    let f' := if guardEntry c x i then f.locked else f
    if f'.all = 0 then none else some (x, i, f')

/-- SEQ_DCTL of a Draft is the low half of its header's first word (R360). -/
def aliasOf (a : Nat) : Nat :=
  if 0x1C0100 ≤ a ∧ a < 0x1C0200 ∧ (a - 0x1C0100) % 0x40 = 0 then draftA ((a - 0x1C0100) / 0x40) 0 else a

/-- The entry of a register word (R113). -/
def entOf (x : Area) (i : Nat) : Ent := { typ := x.typ, inst := x.inst, part := x.part, idx := if x.stride = 0 then 0 else i }

/-- The command registers (R104). -/
def isCommand (v : Variant) (a : Nat) : Bool :=
  let per : Nat → Nat → Nat → Bool := fun base stride n => decide (base ≤ a) && (a - base) % stride == 0 && decide ((a - base) / stride < n)
  [0x10, 0x20008, 0x2000C, 0x200A0, 0x3003C, 0x40030, 0x50018, 0x400024, 0x500018, 0x50001C].contains a ||
  per 0x10001C 0x1000 v.nBanks || per 0x140180 0x400 v.nCells || per 0x15002C 0x40 v.nCells || per 0x1600AC 0x1000 v.nCols ||
  per 0x1800F0 0x100 v.nLoops || per 0x1A0024 0x40 v.nGens || per 0x1A2018 0x40 8 || per 0x1C0110 0x40 v.nDrafts ||
  per 0x1C1008 0x10 v.nUnits || per 0x20000C 0x1000 4 || (decide (a < 0x204000) && per (0x20020C + (a - 0x200000) / 0x1000 * 0x1000) 0x10 16) ||
  per 0x220058 0x100 32 || per 0x22200C 0x100 2 || per 0x300034 0x4000 4

end Sys2Proof.Machine
end

