-- ==== Sys2Proof/Machine/Power.lean ====
section
/-! DEFINITION. The state manager, resets, supplies, clocks, sleeping and waking (R18 to R32, R74 to R96). -/

namespace Sys2Proof.Machine

open Sys2Proof

def Cfg.scanInterval (c : Cfg) : Nat := max 1 (c.fF 0x10008 0 16)
def Cfg.pinWake (c : Cfg) : Bool := c.bF 0x1000C 0
def Cfg.partnerWakeEn (c : Cfg) : Bool := c.bF 0x1000C 1
def Cfg.dioWakeEn (c : Cfg) : Bool := c.bF 0x1000C 2

/-- Drive the common-fault line of every field group (R366): 0 RUN, 1 BOOT, 2 FENCE, 3 DARK. -/
def setLines (c : Cfg) (line : Nat) (d : Dyn) : Dyn := forEach (List.range 6) d (fun g d => commonLine c g line d)

/-- What a cold logic side keeps: the always-on domain, the flash, the NAND, the field dice and the pair lands (R77, R78,
R452). Everything else is as BOOT begins. -/
def logicReset (d : Dyn) : Dyn :=
  { Dyn.cold with
    pwr := { d.pwr with burstLast := 0, overruns := 0, scanCount := 0, start := none, burst := .none, runCond := none, nextScan := none,
                        nextWake := none, entryAbort := none, slow := false, xt25 := true, rc := false, fast := false, firstAt := none, woke := false }
    tim := { d.tim with acts := [], effects := [], wakeFired := false, arming := [], steps := 0, cmdResult := 0 }
    cfg := { CfgSt.cold with slotA := { d.cfg.slotA with state := 0, reason := 0, gen := 0 }
                             slotB := { d.cfg.slotB with state := 0, reason := 0, gen := 0 }
                             kept := d.cfg.kept, fuse0 := d.cfg.fuse0, fuse1 := d.cfg.fuse1 }
    arc := { Arc.cold with mark := d.arc.mark, cpEpoch := d.arc.cpEpoch, cpValid := d.arc.cpValid,
                           bands := d.arc.bands, regions := d.arc.remembered, order := d.arc.order, spare := d.arc.spare, retired := d.arc.retired, free := d.arc.free }
    fld := d.fld
    can := { Dyn.cold.can with free := d.can.free }
    pair := { Pair.cold with seat := d.pair.seat, present := d.pair.present, fenceIn := d.pair.fenceIn } }

/-- The configuration as BOOT begins: no image, and every word at reset but TIM_TRIM, which lies in the always-on domain
(R452). -/
def cfgReset (c : Cfg) : Cfg :=
  let r := Regs.none.putB 0x30030 (c.w 0x30030)
  { c with img := Image.none, reg := r }

/-- Entry to BOOT (R18, R20, R112): every field driver off. `old` is the state left. -/
def toBoot (old : DevState) (s : State) : State :=
  let c := cfgReset s.c
  let d1 := logicReset s.d
  let d2 : Dyn := { d1 with glb := { d1.glb with st := old }, pwr := { d1.pwr with resetFrom := none } }
  let d3 := setLines c 1 (d2.toState .boot 0)
  { s with c := c, d := { d3 with dp := { d3.dp with irq := 0 } } }

/-- The logic side is held in reset (R75, R77, R78): the couplers stop, HEALTHY is released, and the always-on domain counts the slow
tick (R80). The field dice keep their outputs, and what they need to know of the groups, until their watchdogs or hold times run out (R51,
R88); the configuration goes with the entry to BOOT. -/
def holdReset (s : State) : State :=
  match s.d.pwr.resetFrom with
  | some _ => s
  | none =>
    let old := s.d.glb.st
    let d1 := logicReset s.d
    { s with d := setLines s.c 3 { d1 with pwr := { d1.pwr with resetFrom := some old, slow := true }
                                           tim := { d1.tim with incS := if s.d.pwr.slow then d1.tim.incS else incS s.c s.d } } }

/-- V33_POWER_UP (R18, R75, R77, R91): BOOT, unless RST_N is low or another logic supply out of range; POR_V33 where the supply was absent before, BROWNOUT_V33 or V33_LOST_DORMANT standing from a
loss. -/
def v33PowerUp (s : State) : State :=
  if s.d.pwr.v33 then s
  else
    let old := s.d.pwr.resetFrom.getD .boot
    let p := s.d.pwr
    let p1 : Pwr := { p with v33 := true, scanStopped := false, rst := if fld (BitVec.ofNat 32 p.rst) 2 1 = 1 ∨ fld (BitVec.ofNat 32 p.rst) 5 1 = 1 then p.rst else p.rst ||| 2 }
    if p.v33a && p.vio && p.vaoIn && !p.rstLow then toBoot old { s with d := { s.d with pwr := p1 } }
    else { s with d := { s.d with pwr := p1 } }

/-- V33_LOSS (R77, R88, R91). -/
def v33Loss (s : State) : State :=
  if s.d.pwr.v33 then
    let p := s.d.pwr
    let asleep := s.d.glb.st == .dormant
    let p1 : Pwr := { p with v33 := false, rst := p.rst ||| (if asleep then 32 else 4), scanStopped := p.scanStopped || asleep }
    holdReset { s with d := { s.d with pwr := p1 } }
  else s

/-- RST_N_LOW (R78). -/
def rstNLow (s : State) : State := holdReset { s with d := { s.d with pwr := { s.d.pwr with rst := s.d.pwr.rst ||| 8, rstLow := true } } }

/-- RST_N_RELEASE (R75): RST_N is high and every logic supply in range. -/
def rstNRelease (s : State) : State :=
  match s.d.pwr.resetFrom with
  | some old =>
    let p := s.d.pwr
    toBoot old { s with d := { s.d with pwr := { p with v33 := true, v33a := true, vio := true, vaoIn := true, rstLow := false } } }
  | none => s

/-- SUPPLY_OUT_OF_RANGE (R74, R75): as RST_N held low. -/
def supplyOut (which : Supply) (s : State) : State :=
  let p := s.d.pwr
  let p1 : Pwr := match which with
    | .v33a => { p with v33a := false }
    | .vao => { p with vaoIn := false, vaoOk := false }
    | .vio => { p with vio := false }
  holdReset { s with d := { s.d with pwr := { p1 with rst := p1.rst ||| 8 } } }

/-- VAO_POWER_ON (R91, R94, R452): VAO has been below 1.60 V, and the always-on domain restarts. -/
def vaoPowerOn (s : State) : State :=
  let s1 := holdReset s
  let r := (s1.c.reg.putB 0x30030 0)
  { s1 with c := { s1.c with reg := r }
            d := { s1.d with tim := Tim.cold, pwr := { s1.d.pwr with vaoIn := true, rst := 1, calOfs := 0, calValid := false, calOut := false, vaoLevel := 0, vaoAt := 0 } } }

/-- GLB_CMD.RESET (R30). -/
def glbReset (s : State) : State :=
  if s.d.glb.st = .dormant ∨ s.d.pwr.resetFrom.isSome then { s with d := { s.d with glb := { s.d.glb with cmdResult := 0x4A } } }
  else toBoot s.d.glb.st { s with d := { s.d with pwr := { s.d.pwr with rst := s.d.pwr.rst ||| 16 } } }

def glbResult (code : Nat) (d : Dyn) : Dyn := { d with glb := { d.glb with cmdResult := code } }

/-- The units bar DORMANT (R25). -/
def unitsActive (c : Cfg) (d : Dyn) : Bool :=
  (List.range c.fx.nUnits).any (fun u => c.unitEn u && !c.unitMaySleep u && !((d.unit u).pubState == 0 || (d.unit u).pubState == 4))

/-- The code of a request for DORMANT (R25, R30, R96, R559). -/
def dormantCode (c : Cfg) (d : Dyn) : Nat :=
  if d.standby then 0x0D
  else if d.glb.st ≠ .run then 0x4A
  else if d.openCode 0 [0x62] then 0x67
  else if !d.pwr.xt32 || d.openCode 0 [0x61] then 0x68
  else if unitsActive c d then 0x48
  else if d.pair.state = 3 then 0x3044
  else if d.pair.state = 4 then d.pair.partnerDorm
  else 0

/-- GO_DORMANT (R25, R30); `sched` says that a timed action asks. -/
def goDormant (c : Cfg) (sched : Bool) (d : Dyn) : Dyn :=
  let code := dormantCode c d
  if code = 0 then
    { d with glb := { d.glb with cmdResult := if sched then d.glb.cmdResult else 0, dormReq := true, dormSched := sched }
             pwr := { d.pwr with entryAbort := none } }
  else if sched then d else glbResult code d

/-- GO_SAFE (R30). -/
def goSafe (d : Dyn) : Dyn :=
  if d.standby then glbResult 0x0D d
  else if d.glb.st = .run then { d with glb := { d.glb with cmdResult := 0, safeReq := some 0 } } else glbResult 0x4A d

/-- LEAVE_SAFE (R24, R30). -/
def leaveSafe (c : Cfg) (d : Dyn) : Dyn :=
  if d.standby then glbResult 0x0D d
  else if d.glb.st ≠ .safe ∨ !c.img.ok then glbResult 0x4A d
  else if d.haltOpen then glbResult 0x49 d
  else { d with glb := { d.glb with cmdResult := 0, runReq := some 0, runCommit := false } }

/-- What a column step reads (R245, R263). -/
def colIn (c : Cfg) (d : Dyn) (n : Nat) (dt : Int) (q : Option Qual) : ColIn :=
  let z := d.frozen
  let i := c.colInlet n
  let y := z.cell i
  let ok := decide (i < 8) && (y.state == 1 || y.state == 2)
  { src := fun k i => srcVal c z (colKind k) i, inletM := if ok then some y.m else none, inletT := if ok then some y.temp else none, now := shortOf d.tim.dev, ms := d.ms,
    dt := dt, qual := q, sweepMs := c.cellPer (c.colDis n) * c.cellAvg (c.colDis n) }

/-- A start of column `n` with the present inputs (R250). -/
def colStartNow (c : Cfg) (n : Nat) (d : Dyn) : Dyn :=
  let i := colIn c d n 0 none
  colStart c n i.inletM (ambient c n i).1 d

/-- Banks, cells and the snapshot at an entry to RUN, SAFE or SCAN (R138, R152, R206, R225). -/
def measureEntry (c : Cfg) (scan : Bool) (d : Dyn) : Dyn :=
  let d1 := forEach ((List.range c.fx.nBanks).filter c.bankEn) d (bankEntry c scan)
  if scan then d1 else forEach ((List.range c.fx.nCells).filter c.cellEn) d1 (cellEntry c)

/-- The full start of the engines (R250, R298, R314, R320, R350): end of BOOT in RUN, LEAVE_SAFE, a claim, and the first entry to
RUN after a BOOT that ended in DORMANT. -/
def startEngines (s : State) : State :=
  let s1 := forEach (List.range s.c.fx.nLoops) s loopStart
  let c := s1.c
  let d0 := takeSnap s1.d
  let d1 := forEach (List.range c.fx.nGens) d0 (genStart c d0.frozen)
  let d2 := forEach (List.range c.fx.nOvr) d1 (ovrStart c)
  let d3 := forEach (List.range c.fx.nCols) d2 (colStartNow c)
  let d4 := seqStart c d3
  { s1 with d := { d4 with seq := { d4.seq with bootStart := false } } }

/-- Every other entry to RUN (R250, R298, R314, R342, R350). A column starts only on entry from DORMANT. -/
def resumeEngines (fromScan : Bool) (c : Cfg) (d : Dyn) : Dyn :=
  let d0 := takeSnap (forEach (List.range c.fx.nLoops) d (loopResume c))
  let d1 := forEach (List.range c.fx.nGens) d0 (genStart c d0.frozen)
  let d2 := if fromScan then d1 else forEach (List.range c.fx.nCols) d1 (colStartNow c)
  seqResume d2

/-- Entry to RUN with its cause (R20, R24). A HALT raised while the fast clocks started takes the module to SAFE at the next frame
boundary. -/
def enterRun (cause : Nat) (s : State) : State :=
  let old := s.d.glb.st
  let d0 := s.d.toState .run cause
  let dz : Dyn := { d0 with glb := { d0.glb with runReq := none, runCommit := false, safeReq := none, dormReq := false,
                                                       haltCause := if old = .dormant then d0.glb.haltCause else none }
                            pwr := { d0.pwr with burst := .none, runCond := none } }
  let dw := if old = .dormant ∨ old = .scan then forEach ((List.range 1024).filter s.c.chanEn) dz (fun k d => chanWake s.c k d.dioLevel d) else dz
  let d1 := trcStart s.c (measureEntry s.c false dw)
  let s1 : State := { s with d := d1 }
  if old = .safe ∨ old = .boot ∨ d1.seq.bootStart then startEngines s1
  else { s1 with d := resumeEngines (old == .scan) s1.c s1.d }

/-- Entry to SAFE with its cause (R23, R24). Without configuration no engine runs. -/
def enterSafe (c : Cfg) (cause : Nat) (d : Dyn) : Dyn :=
  let d0 := d.toState .safe cause
  let d1 : Dyn := { d0 with glb := { d0.glb with runReq := none, runCommit := false, safeReq := none, dormReq := false, haltCause := none }
                            pwr := { d0.pwr with burst := .none, runCond := none } }
  if c.img.ok then
    let d2 := seqStop c (trcLeaveRun d1)
    let d3 := { d2 with ctl := { d2.ctl with due := [], anyMiss := false }, cols := d2.cols.map (fun q => (q.1, { q.2 with work := none, done := false })) }
    measureEntry c false d3
  else d1

/-- The wake of R85: the next scan at least 1 s after now, in whole seconds of device time. -/
def nextScanOf (c : Cfg) (d : Dyn) : Nat :=
  let i := c.scanInterval
  (d.tim.dev + 2 ^ 32 + i * 2 ^ 32 - 1) / (i * 2 ^ 32) * i

/-- Device time, 32.32, of the next pending WAKE_RUN action (R83, R85). -/
def nextWakeOf (c : Cfg) (d : Dyn) : Option Nat :=
  (List.range 256).foldl (fun (b : Option Nat) a =>
    let x := d.act a
    if x.state == 1 && c.actKind a == 1 then
      let due := actDue c a x x.next
      let dev := (if c.actBind a then due - d.tim.ofs else due).toNat
      match b with
      | some v => some (min v dev)
      | none => some dev
    else b) none

/-- Hold commands to every field group (R26, R86): twice the time to the next scheduled wake, plus 1 s. -/
def sendHolds (c : Cfg) (d : Dyn) : Dyn :=
  let t := nextScanOf c d * 2 ^ 32
  let w := match nextWakeOf c d with | some v => min v t | none => t
  let ms := 2 * ((w - d.tim.dev) * 1000 / 2 ^ 32) + 1000
  let d1 : Dyn := { d with pwr := { d.pwr with holdMs := ms } }
  forEach (List.range 6) d1 (fun g d => if c.grpEn g then d.setGrp g { d.grp g with holding := true } else d)

/-- The partly filled subpages enter the program queue (R533). -/
def arcFlushAll (a : Arc) : Arc :=
  let q := (a.regions.filter (fun r => r.2.partialRecs ≠ [])).map (fun r => ({ region := r.1, recs := r.2.partialRecs } : PQ))
  { a with queue := a.queue ++ q,
           regions := (a.regions.map (fun r => (r.1, { r.2 with partialRecs := [], since := 0 }))).filter (fun r => r.2 ≠ Region.empty) }

/-- Begin a start of the fast clocks (R82). -/
def startClocks (toRun : Bool) (cause : Nat) (first : Option Nat) (d : Dyn) : Dyn :=
  { d with pwr := { d.pwr with start := some { toRun := toRun, cause := cause, at_ := d.tim.acc }, firstAt := first } }

/-- A run condition is found (R25, R89): the first one stands. -/
def runCondition (cause : Nat) (d : Dyn) : Dyn := { d with pwr := { d.pwr with runCond := some (d.pwr.runCond.getD cause) } }

/-- A wake source becomes active (R25, R87, R89): it wakes DORMANT, is a run condition in SCAN, and aborts an entry to DORMANT. -/
def wakeSource (cause : Nat) (d : Dyn) : Dyn :=
  match d.glb.st with
  | .dormant =>
    if d.pwr.start.isNone then startClocks true cause none d
    else if d.pwr.start.any (fun x => !x.toRun) then runCondition cause d else d
  | .scan => runCondition cause d
  | .run => if d.glb.dormReq then { d with pwr := { d.pwr with entryAbort := some (d.pwr.entryAbort.getD cause) } } else d
  | _ => d

/-- The wake sources that are levels (R25, R89): WAKE_N low, and XT32 stopped. -/
def levelCause (c : Cfg) (d : Dyn) : Option Nat := if d.pwr.wakeLow && c.pinWake then some 0x81 else if !d.pwr.xt32 then some 0x84 else none

/-- A level that holds acts at once (R25, R89, R93). -/
def wakeLevels (c : Cfg) (d : Dyn) : Dyn :=
  match levelCause c d with
  | some x => wakeSource x d
  | none => d

/-- Entry to DORMANT (R25, R26, R80, R81, R85, R450, R533): the slow tick takes over. A wake level that holds wakes the module at once. -/
def enterDormant (c : Cfg) (cause : Nat) (d : Dyn) : Dyn :=
  let d0 := cellsStop (trcLeaveRun (sendHolds c (if d.glb.st = .run then heldOutputs d else d)))
  let d1 := d0.toState .dormant cause
  let d2 : Dyn := { d1 with glb := { d1.glb with runReq := none, runCommit := false, safeReq := none, dormReq := false, haltCause := none }
                            tim := { d1.tim with incS := incS c d1 }
                            arc := arcFlushAll d1.arc
                            dp := { d1.dp with lock := none }
                            afe := { d1.afe with banks := d1.afe.banks.map (fun q => (q.1, { q.2 with visit := none, contOn := false, waiting := false, retryAt := none })) }
                            can := { d1.can with ports := d1.can.ports.map (fun q => (q.1, { q.2 with wire := none, busy := false, lock := none })) }
                            seq := { d1.seq with passMs := none, defer := [] } }
  let cols := d2.cols.map (fun q => (q.1, q.2.withdraw))
  let p : Pwr := { d2.pwr with slow := true, burst := .none, runCond := none, start := none, entryAbort := none, interval := c.scanInterval,
                               nextScan := some (nextScanOf c d2), nextWake := nextWakeOf c d2, firstAt := none, woke := false }
  wakeLevels c { d2 with pwr := p, cols := cols }

/-- A cause that another outranks is recorded, and nothing more (R21, R25). -/
def discard (cause : Nat) (d : Dyn) : Dyn :=
  d.ledger 1 0 (leBytes 1 d.glb.st.num ++ leBytes 1 d.glb.st.num ++ leBytes 2 cause)

/-- A pending request for DORMANT falls to a cause that outranks it (R21). -/
def dropDorm (d : Dyn) : Dyn :=
  if d.glb.dormReq then
    let d1 := discard 0 d
    { d1 with glb := { d1.glb with dormReq := false }, pwr := { d1.pwr with entryAbort := none } }
  else d

/-- DORMANT_ENTRY (R20, R21, R25): the end of the entry sequence, after the sequencer pass that follows the request. A HALT or GO_SAFE of the
frame outranks the request, and a wake source that is active, or that has been signalled since the request, aborts the entry. -/
def dormantEntry (c : Cfg) (d : Dyn) : Dyn :=
  if d.glb.st = .run ∧ d.glb.dormReq then
    if d.glb.haltCause.isSome ∨ d.glb.safeReq.isSome then dropDorm d
    else match d.pwr.entryAbort.orElse (fun _ => levelCause c d) with
      | some cause =>
        let d1 := discard cause d
        { d1 with glb := { d1.glb with dormReq := false }, pwr := { d1.pwr with entryAbort := none } }
      | none => enterDormant c 0 d
  else d

/-- The first whole millisecond at or after a 32.32 device time (R83). -/
def wakeMs (dev : Nat) : Nat := (dev * 1000 + 2 ^ 32 - 1) / 2 ^ 32

/-- The slow tick at which the start for a wake boundary begins, 4.0 ms ahead of it (R83), as the accumulator of a state that has not passed
it. -/
def wakeStart (c : Cfg) (d : Dyn) (b : Nat) : Nat := reachAcc (tickInc c d) d.tim.acc (accOfMs (b - 4))

/-- The next timed wake is due before the scheduled scan at second `t` (R83). -/
def wakeBefore (d : Dyn) (t : Nat) : Bool := match d.pwr.nextWake with | some w => decide (wakeMs w < t * 1000) | none => false

/-- A scheduled scan is due by millisecond `b` of device time (R83, R87). -/
def scanBy (d : Dyn) (b : Nat) : Bool := match d.pwr.nextScan with | some t => decide (t * 1000 ≤ b) && !d.pwr.scanStopped | none => false

/-- SCAN_WAKE (R83, R85): 4.0 ms before the scan. A wake source found first in the same slow tick falls behind the scan and is a run condition of its
burst (R87). -/
def scanWake (c : Cfg) (d : Dyn) : Dyn :=
  match d.pwr.nextScan with
  | some t =>
    if d.glb.st == .dormant && !d.pwr.scanStopped && !wakeBefore d t then
      match d.pwr.start with
      | none => startClocks false 0x80 (some (t * 1000)) (d.goTo c (accOfMs (t * 1000 - 4)))
      | some x =>
        if x.toRun && x.at_ == d.tim.acc && wakeStart c d (t * 1000) == x.at_ && decide (x.at_ < accOfMs (t * 1000 - 4) + tickInc c d) then
          runCondition x.cause (startClocks false 0x80 (some (t * 1000)) d)
        else d
    else d
  | none => d

/-- TIMED_WAKE (R83, R89): a scan that falls on the same wake boundary comes first (R87). -/
def timedWake (c : Cfg) (d : Dyn) : Dyn :=
  match d.pwr.nextWake with
  | some w =>
    let b := wakeMs w
    if d.glb.st == .dormant && d.pwr.start.isNone && !scanBy d b then startClocks true 0x82 (some b) (d.goTo c (accOfMs (b - 4)))
    else d
  | none => d

/-- WAKE_PIN (R89): WAKE_N has been low for 1 ms, or is high again. -/
def wakePin (c : Cfg) (low : Bool) (d : Dyn) : Dyn :=
  let d1 : Dyn := { d with pwr := { d.pwr with wakeLow := low } }
  if low && c.pinWake then wakeSource 0x81 d1 else d1

/-- DIO_WAKE (R89, R382): a debounced change on a wake-enabled input, as its WAKE field selects. -/
def dioWake (c : Cfg) (k : Nat) (level : Bool) (d : Dyn) : Dyn :=
  let sel := c.dioWake k
  let hit := decide (k < 64) && c.grpEn (k / 16) && c.isIn k && (sel == 3 || (sel == 1 && level) || (sel == 2 && !level))
  let d1 := if d.glb.st == .dormant && hit then d.setDch k { d.dch k with level := level, hasState := true, own := level, hasOwn := true } else d
  if hit && c.dioWakeEn then wakeSource (0x100 + k) d1 else d1

/-- PARTNER_WAKE (R89, R559). -/
def partnerWake (c : Cfg) (d : Dyn) : Dyn := if c.fx.pair && c.partnerWakeEn then wakeSource 0x83 d else d

/-- XT32_STOPPED (R89, R96). -/
def xt32Stopped (c : Cfg) (d : Dyn) : Dyn :=
  if d.pwr.xt32 then
    let d1 : Dyn := { d with pwr := { d.pwr with xt32 := false } }
    wakeSource 0x84 (fldFault c 0 0x61 2 true false d1)
  else d

/-- XT32_RESTARTED (R96): it has run for 10 s. -/
def xt32Restarted (d : Dyn) : Dyn :=
  if d.pwr.xt32 then d else ({ d with pwr := { d.pwr with xt32 := true } } : Dyn).causeGone 0 [0x61]

/-- The fast clocks run or are being started (R80, R82). -/
def Dyn.clocked (d : Dyn) : Bool := d.pwr.resetFrom.isNone && (d.glb.st != .dormant || d.pwr.start.isSome)

/-- XT25_FAIL (R96): the internal RC oscillator takes over. -/
def xt25Fail (c : Cfg) (d : Dyn) : Dyn :=
  if d.pwr.xt25 && d.clocked then ({ d with pwr := { d.pwr with xt25 := false, rc := true } } : Dyn).fault c 0 0x60 4 0 0 false false else d

/-- Every analog and moisture result is invalid (R96, R182, R200). -/
def v33aFlag (c : Cfg) (d : Dyn) : Dyn :=
  let d2 := forEach ((List.range 1024).filter c.chanEn) d (fun k d => invalidate c k causeBANK d.dioLevel d)
  forEach ((List.range c.fx.nCells).filter c.cellEn) d2 (fun n d =>
    d.setCell n { d.cell n with state := 3, cause := 12, got := [], dropSweep := (d.cell n).sweeping })

/-- Records raised in DORMANT are reported at the wake (R382): a clearing by acknowledgement stands for HOLD_EXPIRED and
XT32_FAIL. -/
def raiseLate (c : Cfg) (d : Dyn) : Dyn :=
  let l := d.fld.late
  l.foldl (fun d r =>
    let hold := r.2.1 = 0x8066 ∨ r.2.1 = 0x906E
    let d1 := d.fault c r.1 r.2.1 r.2.2 0 0 (decide hold || r.2.1 == 0x61) (decide hold)
    if r.2.1 = 0x63 then v33aFlag c d1 else d1) { d with fld := { d.fld with late := [] } }

/-- What a late start raises (R82): WAKE_SLOW over 3.3 ms, and XT25_FAIL where XT25 was not qualified within 10 ms. -/
def startLate (c : Cfg) (us : Nat) (d : Dyn) : Dyn :=
  if 10000 < us then xt25Fail c d else if 3300 < us then d.fault c 0 0x65 1 0 0 true true else d

/-- The fast clocks run `us` microseconds after the wake start `st` (R82, R83, R85): device time is there, a timed wake keeps its boundary where the
start was not late, and the groups and the pair take the wake up. -/
def clocksUp (c : Cfg) (us : Nat) (st : Starting) (d : Dyn) : Dyn :=
  let d0 := d.goTo c (st.at_ + us * 2 ^ 48 / 1000000)
  let first := match d0.pwr.firstAt with | some b => if d0.tim.acc ≤ reachAcc (tickInc c d) st.at_ (accOfMs b) then some b else none | none => none
  let dw := dioWoke c d0
  { dw with pwr := { d0.pwr with slow := false, woke := true, firstAt := first }
            pair := if d0.pair.state = 0 then d0.pair else { d0.pair with wakeAt := some d0.ms } }

/-- Entry to SCAN (R20, R82, R86, R95): the burst is counted from its wake reference. -/
def burstBegin (c : Cfg) (us : Nat) (st : Starting) (d : Dyn) : Dyn :=
  let d2 := d.toState .scan st.cause
  let d3 : Dyn := { d2 with pwr := { d2.pwr with burst := .scanning, burstRef := st.at_, start := none, scanCount := (d2.pwr.scanCount + 1) % 2 ^ 32 } }
  let d4 := startLate c us (raiseLate c d3)
  let d5 := { d4 with cnv := { d4.cnv with chans := d4.cnv.chans.map (fun q => (q.1, { q.2 with scanned := false })) } }
  measureEntry c true d5

/-- FAST_CLOCKS_RUNNING (R82, R83): the start took `us` microseconds. Where it overran the start of the wake boundary's millisecond, the first
frame falls at the next whole millisecond. Records raised in DORMANT are reported in the state that is entered. -/
def fastClocksRunning (us : Nat) (s : State) : State :=
  match s.d.glb.st, s.d.pwr.start with
  | .dormant, some st =>
    let c := s.c
    let d1 := clocksUp c us st s.d
    if st.toRun then
      let d2 := startLate c us (raiseLate c d1)
      enterRun st.cause { s with d := { d2 with pwr := { d2.pwr with start := none } } }
    else { s with d := burstBegin c us st d1 }
  | _, _ => s

/-- What is delivered at the first frame boundary after a wake (R428, R462). -/
def firstBoundary (c : Cfg) (d : Dyn) : Dyn :=
  if d.pwr.woke then
    let d1 : Dyn := { d with pwr := { d.pwr with woke := false } }
    let d2 := forEach ((List.range 64).filter (fun k => c.dioGuard k && c.isIn k && c.grpEn (k / 16))) d1 (deliverDio c)
    fireSlept c d2
  else d

/-- Channels of the storage lists that the burst converted, and the SCAN records of them (R529). -/
def scanRecords (c : Cfg) (d : Dyn) : Dyn :=
  let ks := (List.range 1024).filter (fun k => c.chanEn k && (d.chan k).scanned && inStorage d k)
  let entry : Nat → List Byte := fun k =>
    leBytes 2 k ++ leBytes 2 (chanWord c d k % 65536) ++ leBytes 4 (u32 (d.chan k).value)
  let rec go : Nat → List Nat → Dyn → Dyn
    | 0, _, d => d
    | n + 1, l, d =>
      if l = [] then d
      else
        let h := l.take 507
        go n (l.drop 507) (d.ledger 6 3 (leBytes 2 h.length ++ [0, 0] ++ (h.map entry).flatten))
  go 3 ks d

/-- The run condition of R404: a fan channel whose table request disagrees with its unit. -/
def fanDisagrees (c : Cfg) (d : Dyn) : Bool :=
  (List.range 32).any (fun n => c.movEn n && !c.movPlain n && c.movDem n == 2 &&
    (List.range c.fx.nUnits).any (fun u => c.unitEn u && c.unitKind u == 2 && c.unitOut1 u == n &&
      (let st := (d.unit u).state
       let req := (d.dtab (c.movTable n)).req
       (req && !(st == 1 || st == 2)) || (!req && st == 2))))

/-- Length of the burst that ends, in units of 10 µs, at most what LAST's 20 bits hold (R95; log entry 78). -/
def burstLen (d : Dyn) : Nat := min ((d.tim.acc - d.pwr.burstRef) * 100000 / 2 ^ 48) (2 ^ 20 - 1)

/-- A burst ends, in whatever state (R86, R95, R96): its length, and SCAN_OVERRUN over 2,000 ms. -/
def burstDone (c : Cfg) (d : Dyn) : Dyn :=
  let len := burstLen d
  let ovf := decide (200000 < len)
  let d1 : Dyn := { d with pwr := { d.pwr with burstLast := len, overruns := if ovf then satInc 8 d.pwr.overruns else d.pwr.overruns } }
  if ovf then d1.fault c 0 0x64 1 0 0 true true else d1

/-- The end of a burst in SAFE or RUN, when there is a cause (R20, R21, R25): a HALT outranks a run condition, which is recorded. -/
def burstExit (s : State) : Option State :=
  let run := s.d.pwr.runCond.orElse (fun _ => levelCause s.c s.d)
  match s.d.glb.haltCause, run with
  | some h, some r => some { s with d := enterSafe s.c h (discard r (burstDone s.c s.d)) }
  | some h, none => some { s with d := enterSafe s.c h (burstDone s.c s.d) }
  | none, some r => some (enterRun r { s with d := burstDone s.c s.d })
  | none, none => none

/-- SCAN_LIST_COMPLETE (R86): tables, records and run conditions. -/
def scanListComplete (s : State) : State :=
  if s.d.glb.st = .scan ∧ s.d.pwr.burst = .scanning then
    let c := s.c
    let d0 := takeSnap s.d
    let d1 := scanRecords c (tablesEval c (srcVal c d0.frozen) d0)
    let trip := (List.range c.fx.nTerms).any (fun n => c.termEn n && (d1.term n).tripped && (d1.term n).value)
    let d2 := if trip && d1.pwr.runCond.isNone then { d1 with pwr := { d1.pwr with runCond := some 0xD060 } } else d1
    let d3 := if fanDisagrees c d2 && d2.pwr.runCond.isNone then { d2 with pwr := { d2.pwr with runCond := some 0x85 } } else d2
    let s1 : State := { s with d := { d3 with pwr := { d3.pwr with burst := .listDone } } }
    (burstExit s1).getD s1
  else s

/-- The archive has nothing left to program: no subpage waits and none is partly filled (R86, R533). -/
def arcDrained (a : Arc) : Bool := a.state != 2 || (a.queue == [] && a.regions.all (fun r => r.2.partialRecs == []))

/-- BURST_END (R86, R95): once the archive is drained the module sleeps again; before that its partly filled subpages enter the program queue. -/
def burstEnd (s : State) : State :=
  if s.d.glb.st = .scan ∧ s.d.pwr.burst = .holdsSent then
    match burstExit s with
    | some s1 => s1
    | none =>
      if arcDrained s.d.arc then { s with d := enterDormant s.c 0 (burstDone s.c s.d) }
      else { s with d := { s.d with arc := arcFlushAll s.d.arc } }
  else s

/-- SLOW_CAL_WINDOW (R81, R94): XT25 cycles counted in 1,024 cycles of XT32, 781,250 at nominal. OFFSET truncates (R10) and saturates at the ends of
its 24 bits (log entry 78). The window shows that XT32 runs. -/
def slowCalWindow (c : Cfg) (cycles : Nat) (d : Dyn) : Dyn :=
  if d.glb.st = .dormant ∨ d.pwr.resetFrom.isSome ∨ cycles = 0 then d
  else
    let ofs := clampI ((781250 - (cycles : Int)) * 10 ^ 9 / (cycles : Int)) (-8388608) 8388607
    let out := decide (500000 < ofs.natAbs)
    let d1 : Dyn := { d with pwr := { d.pwr with calOfs := ofs, calValid := true, calOut := out, xt32 := true } }
    if out then d1.fault c 0 0x66 1 0 0 false false else d1.clears 0 [0x66]

/-- VAO_LOW and VAO_RESTORED (R90, R96): `level` in units of 20 mV. -/
def vaoLow (c : Cfg) (level : Nat) (d : Dyn) : Dyn :=
  fldFault c 0 0x62 1 false false { d with pwr := { d.pwr with vaoOk := false, vaoLevel := level % 256, vaoAt := d.ms / 1000 } }

def vaoRestored (level : Nat) (d : Dyn) : Dyn :=
  ({ d with pwr := { d.pwr with vaoOk := true, vaoLevel := level % 256, vaoAt := d.ms / 1000 } } : Dyn).clears 0 [0x62]

/-- V33A_OUT (R96, R188): analog and moisture results are flagged invalid while the record is open. In DORMANT no channel changes state and no record is
raised: both come with the wake. -/
def v33aOut (c : Cfg) (d : Dyn) : Dyn :=
  if d.openCode 0 [0x63] ∨ d.pwr.resetFrom.isSome ∨ d.fld.late.contains (0, 0x63, 3) then d
  else
    let d1 := fldFault c 0 0x63 3 false false d
    if d.glb.st = .dormant then d1 else v33aFlag c d1

/-- V33A_IN_RANGE (R96, R148): the record closes after 100 ms in range; excited descriptors are settle pending. -/
def v33aInRange (c : Cfg) (d0 : Dyn) : Dyn :=
  let d : Dyn := { d0 with fld := { d0.fld with late := d0.fld.late.filter (fun r => r.2.1 != 0x63) } }
  if d.openCode 0 [0x63] then
    forEach ((List.range c.fx.nBanks).filter c.bankEn) (d.clears 0 [0x63]) (fun b d => setPending c b (fun _ => true) d)
  else d

end Sys2Proof.Machine
end

