-- ==== Sys2Proof/Machine/Pair.lean ====
section
/-! DEFINITION. Redundant pair operation: roles, fences, seals, the stream, takeover and handover, joining and re-threading
(R544 to R566). -/

namespace Sys2Proof.Machine

open Sys2Proof

def Cfg.seekMs (c : Cfg) : Nat := c.fF 0x400028 0 16
def Cfg.wakeGrace (c : Cfg) : Nat := c.fF 0x400028 16 16

/-- A KNOWN identity (R563): `k` is 0 or 1. One equal to the module's own GLB_ID is ignored. -/
def Cfg.known (c : Cfg) (k : Nat) : Nat := (c.f (0x400030 + 8 * k)).toNat + 2 ^ 32 * (c.f (0x400034 + 8 * k)).toNat

/-- Whether the pair function is on (R544). -/
def Cfg.pairOn (c : Cfg) : Bool := c.img.ok && c.img.pairOn && c.fx.pair

/-- GLB_VARIANT (R7). -/
def Variant.word (v : Variant) : Nat := at_ 0 2 v.banks + b1 4 v.tierD + b1 5 v.pair + at_ 8 8 v.rev

/-- The field dice of the module are fenced (R546). -/
def Pair.fenced (p : Pair) : Bool := p.fenceIn && !(p.seat && p.fencing)

/-- The common-fault lines follow the fence (R366, R546) outside BOOT and reset. -/
def fenceLines (c : Cfg) (d : Dyn) : Dyn :=
  if d.glb.st = .boot ∨ d.pwr.resetFrom.isSome then d
  else
    let line := if d.pair.fenced then 2 else 0
    forEach ((List.range 6).filter (fun g => (d.grp g).line ≠ line)) d (fun g d => commonLine c g line d)

/-- Drive FENCE_OUT, or stop (R545). -/
def setFence (c : Cfg) (on : Bool) (d : Dyn) : Dyn := fenceLines c { d with pair := { d.pair with fencing := on } }

/-- FENCE_IN_CHANGE (R69, R545, R546): a variant without P has the land open. -/
def fenceInChange (c : Cfg) (on : Bool) (d : Dyn) : Dyn := fenceLines c { d with pair := { d.pair with fenceIn := on && c.fx.pair } }

/-- Enter a substate (R564). -/
def pairState (n : Nat) (d : Dyn) : Dyn := { d with pair := { d.pair with state := n } }

/-- Take a role; a change of GLB_STATE.ROLE sets GLB_IRQ.ROLE (R522). -/
def setRole (r : Role) (d : Dyn) : Dyn :=
  if d.glb.role = r then d else ({ d with glb := { d.glb with role := r } } : Dyn).setIrq 1

/-- One record of the pair link and redundancy manager (R566). -/
def pairFault (c : Cfg) (code sev a b : Nat) (byAck : Bool) (d : Dyn) : Dyn := d.fault c 0x3000 code sev a b byAck byAck

/-- Seeking begins (R552). -/
def seekStart (d : Dyn) : Dyn :=
  let d1 := setRole .standby (pairState 1 d)
  { d1 with pair := { d1.pair with seekAt := d1.ms, join := none, acceptPend := false, missed := 0, stream := [] } }

/-- An ACTIVE that gives up its role copies no further (R561). -/
def threadLeft (d : Dyn) : Dyn :=
  if d.glb.role = .active ∧ d.pair.thread = 1 then { d with pair := { d.pair with thread := 3 } } else d

/-- WITHDRAWN (R552, R556). -/
def withdrawn (d : Dyn) : Dyn :=
  let d1 := setRole .standby (pairState 9 (threadLeft d))
  cellsOff <| sourcesOff { d1 with pair := { d1.pair with seekAt := d1.ms, claim := false, join := none, acceptPend := false, switchAt := none } }

/-- A claim begins: the module fences and settles its role at the next frame boundary (R552). -/
def claimStart (c : Cfg) (d : Dyn) : Dyn := setFence c true { d with pair := { d.pair with claim := true } }

/-- The count, the record and the role of an entry to ACTIVE (R564, R566). `frame` is the index of its boundary. -/
def activeEntry (frame cause : Nat) (d : Dyn) : Dyn :=
  let p := d.pair
  let p1 : Pair := { p with takes := satInc 16 p.takes, takeCause := cause, takeFrame := frame % 2 ^ 32, claim := false, switchAt := none, wakeAt := none,
                            missed := 0, stream := [], join := none }
  let d1 := setRole .active (({ d with pair := { p1 with state := 2 } } : Dyn).clears 0x3000 [0x3066])
  d1.event 0x3000 0x3061 0 cause (p.f0 % 2 ^ 32)

/-- The module leaves listen mode (R161, R232): visits under way are abandoned and settling is pending; averages are abandoned
and the cartridges are read; its own digital inputs are used (R386); the ports leave restricted operation (R499). -/
def takeInputs (s : State) : State :=
  let c := s.c
  let bs := (List.range c.fx.nBanks).filter c.bankEn
  let d1 := forEach bs s.d (fun b d => setPending c b (fun k => c.descExc k != 0)
    (d.setBank b { d.bank b with visit := none, contOn := decide (c.contDescs b ≠ []), retryAt := none }))
  let s1 := forEach bs { s with d := d1 } visitStart
  let d2 := forEach ((List.range c.fx.nCells).filter c.cellEn) s1.d (fun n d =>
    let y := d.cell n
    let run := y.sweeping || y.got != []
    ctgRead c n false (d.setCell n { y with state := if run && y.state == 1 then 2 else y.state, got := [], sweeping := false, dropSweep := false }))
  let d3 := forEach ((List.range 64).filter (fun k => c.isIn k && c.grpEn (k / 16))) d2 (ownInput c)
  { s1 with d := canTakeover s1.c d3 }

/-- A takeover during re-threading ends the copy (R561). -/
def threadEnds (c : Cfg) (d : Dyn) : Dyn :=
  if d.pair.thread = 1 then
    let p := d.pair
    let d1 : Dyn := { d with pair := { p with thread := 3 }, arc := { d.arc with seq := max d.arc.seq p.threadEnd } }
    pairFault c 0x3069 1 (p.threadSeq % 2 ^ 32) ((p.threadEnd - p.threadSeq) % 2 ^ 32) true d1
  else d

/-- The role passes to this module without a restart (R555, R559): it fences, leaves listen mode and takes its own inputs. -/
def takeRole (cause : Nat) (s : State) : State :=
  let frame := s.d.ms + 1
  let d1 := setFence s.c true (activeEntry frame cause s.d)
  let d2 := threadEnds s.c (pairFault s.c 0x3060 2 0 0 false d1)
  takeInputs { s with d := d2 }

/-- TAKEOVER (R555): given before the boundary T = F0 + 4 ms, whose outputs are those of frame F0 + 3. -/
def takeover (s : State) : State :=
  if s.d.pair.state = 8 ∧ 2 ≤ s.d.pair.missed ∧ s.d.pair.f0 + 4 ≤ s.d.ms + 1 then takeRole 1 s else s

/-- The partner is lost (R553). -/
def partnerLost (c : Cfg) (d : Dyn) : Dyn :=
  let p := d.pair
  let p1 : Pair := { p with state := 2, join := none, acceptPend := false, switchAt := none, wakeAt := none, imageOk := false,
                            thread := if p.thread = 1 then 3 else p.thread }
  pairFault c 0x3060 2 0 0 false (setFence c true { d with pair := p1 })

/-- WAKE_GRACE_TIMEOUT (R559). -/
def wakeGraceTimeout (s : State) : State :=
  match s.d.pair.wakeAt with
  | some t =>
    if t + s.c.wakeGrace ≤ s.d.ms then
      let s1 : State := { s with d := { s.d with pair := { s.d.pair with wakeAt := none } } }
      if s.d.glb.role = .active then { s1 with d := if s.d.pair.state = 2 then s1.d else partnerLost s.c s1.d }
      else if s.d.pair.state = 7 ∨ s.d.pair.state = 8 then takeRole 4 s1
      else { s1 with d := seekStart s1.d }
    else s
  | none => s

/-- SEEK_TIMEOUT (R552): a seeking module claims; a withdrawn one seeks again. -/
def seekTimeout (c : Cfg) (d : Dyn) : Dyn :=
  if d.pair.seekAt + c.seekMs ≤ d.ms then
    if d.pair.state = 1 then (if d.pair.claim then d else claimStart c d)
    else if d.pair.state = 9 ∧ d.glb.st = .run then seekStart d
    else d
  else d

/-- Both report one SEAT level (R553). Answers whether they do. -/
def seatCheck (c : Cfg) (seat : Bool) (d : Dyn) : Dyn × Bool :=
  if seat = d.pair.seat then ((if d.openCode 0x3000 [0x3065] then d else pairFault c 0x3065 2 0 0 false d), true)
  else (d.clears 0x3000 [0x3065], false)

/-- PARTNER_ANSWER (R552, R553): the partner answers as ACTIVE or as SEEKING. -/
def partnerAnswer (c : Cfg) (a : RoleAnswer) (d : Dyn) : Dyn :=
  if (d.pair.state = 1 ∧ ¬ d.pair.claim) ∨ d.pair.state = 5 then
    let q := seatCheck c a.seat { d with pair := { d.pair with present := true, pid := a.id % 2 ^ 64 } }
    let d1 := q.1
    if a.active ∨ d.pair.state = 5 then
      if q.2 then withdrawn d1 else pairState (if a.hold then 5 else 6) d1
    else if d1.pair.seat then claimStart c d1
    else if q.2 then withdrawn d1
    else pairState 6 d1
  else d

/-- Copying of the dynamic state begins (R560 step 4): the ACTIVE has no synced partner and fences. -/
def copyStart (c : Cfg) (d : Dyn) : Dyn :=
  let d1 : Dyn := { d with pair := { d.pair with resyncs := satInc 16 d.pair.resyncs } }
  if d.glb.role = .active then setFence c true (pairState 3 { d1 with pair := { d1.pair with imageOk := true } }) else pairState 6 d1

/-- Admission of a partner (R560 steps 2 and 3). -/
def letIn (c : Cfg) (j : JoinReport) (d : Dyn) : Dyn :=
  let d1 := (d.clears 0x3000 [0x3062, 0x3063])
  let d2 : Dyn := { d1 with pair := { d1.pair with join := some j, acceptPend := false, missed := 0, imageOk := false } }
  if j.digest = d.cfg.digest then copyStart c d2 else pairState 3 d2

/-- PARTNER_JOIN (R560). -/
def partnerJoin (c : Cfg) (j : JoinReport) (d : Dyn) : Dyn :=
  if d.glb.role = .active ∧ (d.pair.state = 2 ∨ d.pair.state = 3) then
    let q := seatCheck c j.seat { d with pair := { d.pair with present := true, pid := j.id % 2 ^ 64 } }
    let d1 := q.1
    if q.2 then pairState 2 d1
    else if j.variant % 65536 ≠ c.fx.word then pairFault c 0x3063 1 0 0 false (pairState 2 d1)
    else if j.id ≠ 0 ∧ ((j.id ≠ c.fx.id ∧ (j.id = c.known 0 ∨ j.id = c.known 1)) ∨ d.pair.accepted.contains j.id) then letIn c j d1
    else
      let d2 : Dyn := { d1 with pair := { d1.pair with join := some j, acceptPend := true, state := 3 } }
      pairFault c 0x3062 1 (j.id % 2 ^ 32) (j.id / 2 ^ 32 % 2 ^ 32) false d2
  else d

/-- PAIR_CMD.RESULT, and REASON for a refused write (R564, R565). -/
def pairResult (code : Nat) (d : Dyn) : Dyn :=
  { d with pair := { d.pair with cmdResult := code, reason := if code = 0 then d.pair.reason else code } }

/-- PAIR_CMD.ACCEPT (R560, R565). -/
def pairAccept (c : Cfg) (d : Dyn) : Dyn :=
  if d.standby then pairResult 0x300D d
  else
    match d.pair.acceptPend, d.pair.join with
    | true, some j => letIn c j (pairResult 0 { d with pair := { d.pair with accepted := j.id :: d.pair.accepted } })
    | _, _ => pairResult 0x3042 d

/-- PAIR_CMD.REJECT (R565). -/
def pairReject (c : Cfg) (d : Dyn) : Dyn :=
  if d.standby then pairResult 0x300D d
  else if d.pair.acceptPend then
    let d1 := (pairResult 0 d).clears 0x3000 [0x3062]
    pairFault c 0x3063 1 0 0 false { d1 with pair := { d1.pair with acceptPend := false, join := none, state := 2 } }
  else pairResult 0x3042 d

/-- PAIR_CMD.SWITCH (R556): the seal of this boundary F names T = F + 1 ms. -/
def pairSwitch (d : Dyn) : Dyn :=
  if d.glb.role ≠ .active then pairResult 0x300D d
  else if d.pair.state ≠ 4 ∨ d.pair.partnerHalt then pairResult 0x3043 d
  else pairResult 0 { d with pair := { d.pair with switchAt := some (d.ms + 1), switchCause := 2 } }

/-- PAIR_CMD.RESYNC (R560, R565). -/
def pairResync (c : Cfg) (d : Dyn) : Dyn :=
  let st := d.pair.state
  if st = 4 ∨ st = 6 ∨ st = 7 ∨ (st = 3 ∧ d.pair.imageOk) then copyStart c (pairResult 0 d) else pairResult 0x300D d

/-- HANDOVER (R556, R557, R586): given before the boundary T that the seal names. The ACTIVE becomes a synced STANDBY, and after its own HALT a
WITHDRAWN one; the STANDBY becomes ACTIVE, and fences after a HALT of its partner. -/
def handover (s : State) : State :=
  match s.d.pair.switchAt with
  | some t =>
    if t ≤ s.d.ms + 1 then
      let cause := s.d.pair.switchCause
      if s.d.glb.role = .active ∧ cause = 3 then { s with d := withdrawn s.d }
      else if s.d.glb.role = .active then
        let d1 := setRole .standby (pairState 7 (threadLeft s.d))
        { s with d := cellsOff <| sourcesOff { d1 with pair := { d1.pair with switchAt := none, missed := 0 } } }
      else if s.d.pair.state = 7 ∨ s.d.pair.state = 8 then
        if cause = 3 then takeRole 3 s
        else
          let id := s.d.pair.pid
          let d1 := pairState 4 (threadEnds s.c (activeEntry (s.d.ms + 1) cause s.d))
          takeInputs { s with d := { d1 with pair := { d1.pair with pid := id, imageOk := true } } }
      else s
    else s
  | none => s

/-- A HALT of the ACTIVE with a synced partner takes the place of SWITCH at boundary F (R557, R586): the seal of F names T = F + 1 ms, and the
module enters SAFE at T. Whether the boundary of now is still F. -/
def haltWaits (d : Dyn) : Bool :=
  d.glb.role == .active && d.pair.state == 4 && !d.pair.partnerHalt && !(d.pair.switchCause == 3 && d.pair.switchAt.any (fun t => decide (t ≤ d.ms)))

/-- A HALT of the ACTIVE with a synced partner: the role is left at the boundary that enters SAFE (R557). -/
def haltHandover (d : Dyn) : Dyn :=
  if d.glb.role = .active ∧ d.pair.state = 4 ∧ ¬ d.pair.partnerHalt then withdrawn d
  else if d.glb.role = .standby ∧ d.pair.state ≠ 0 then withdrawn d
  else d

/-- A packet failed its CRC (R547, R564, R566). -/
def linkError (c : Cfg) (d : Dyn) : Dyn :=
  let es := (d.pair.errs.filter (fun t => d.ms < t + 1000)) ++ [d.ms]
  let d1 : Dyn := { d with pair := { d.pair with crcErr := satInc 16 d.pair.crcErr, errs := es.drop (es.length - 100) } }
  if 100 ≤ es.length ∧ ¬ d.openCode 0x3000 [0x306B] then pairFault c 0x306B 1 0 0 false d1 else d1

/-- A record that the link brings is appended as the ACTIVE numbered it (R534, R561). -/
def mirrorRec (r : MirrorRec) (d : Dyn) : Dyn :=
  d.ledgerRec { typ := r.typ, cls := r.cls, epoch := r.epoch, seq := r.seq, time := r.time, devt := r.devt, body := r.body }

/-- PAIR_LINK_PACKET (R547, R561): a packet of the copy path, whose records continue the re-threading of a STANDBY. -/
def linkPacket (c : Cfg) (pk : LinkPacket) (d : Dyn) : Dyn :=
  if d.pair.state = 0 then d
  else if !pk.crcOk then linkError c d
  else if d.standby ∧ d.pair.thread = 1 then
    pk.recs.foldl (fun d r =>
      if d.pair.threadSeq ≤ r.seq then
        let d1 := mirrorRec r d
        { d1 with pair := { d1.pair with threadSeq := r.seq + 1, threadEnd := max d1.pair.threadEnd (r.seq + 1), done := d1.pair.done + 32 + r.body.length } }
      else d) d
  else d

/-- A seal names the boundary: the STANDBY's time base takes its device time (R551). -/
def sealTime (acc : Nat) (d : Dyn) : Dyn := { d with tim := d.tim.to (max acc (d.tim.acc - 2 ^ 48 / 500)) }

/-- SEAL_RECEIVED (R547, R551, R555). The boundary it names is run by the FRAME_BOUNDARY that follows. -/
def sealReceived (c : Cfg) (x : Seal) (d : Dyn) : Dyn :=
  if d.glb.role ≠ .standby ∨ d.pair.state = 0 then d
  else if !x.crcOk then linkError c d
  else
    let d1 := sealTime x.acc d
    let p := d1.pair
    let hand := decide (x.hand ≠ 0) && (p.state == 7 || p.state == 8)
    let p1 : Pair := { p with lastRx := some d1.tim.us, missed := 0, f0 := d1.ms, wakeAt := none, present := true, sealed_ := true,
                              stream := p.stream ++ x.items, switchAt := if hand then some (d1.ms + 1) else p.switchAt,
                              switchCause := if hand then x.hand else p.switchCause }
    let d2 : Dyn := { d1 with pair := p1 }
    if p.state = 7 ∨ p.state = 8 then
      if x.agrees then pairState 7 d2
      else copyStart c (pairFault c 0x3064 2 0 0 false { d2 with pair := { d2.pair with diverged := satInc 16 p1.diverged } })
    else d2

/-- SEAL_MISSED (R555): a synced STANDBY bridges; one that is not synced seeks after the second. -/
def sealMissed (d : Dyn) : Dyn :=
  let p := d.pair
  let d1 : Dyn := { d with pair := { p with missed := satInc 8 p.missed } }
  if p.state = 7 then pairState 8 d1
  else if p.state = 8 then d1
  else if p.state = 5 ∨ p.state = 6 then (if 2 ≤ d1.pair.missed then seekStart d1 else d1)
  else d

/-- RETURN_FRAME_RECEIVED (R550, R556): the ACTIVE numbers the records raised on the standby alone. -/
def returnFrameReceived (c : Cfg) (r : ReturnFrame) (d : Dyn) : Dyn :=
  if d.glb.role ≠ .active ∨ (d.pair.state ≠ 3 ∧ d.pair.state ≠ 4) then d
  else if !r.crcOk then linkError c d
  else
    let d1 : Dyn := { d with pair := { d.pair with lastRx := some d.tim.us, missed := 0, wakeAt := none, partnerHalt := r.halted, partnerDorm := r.dorm, present := true } }
    let d2 := r.records.foldl (fun d q =>
      let k := (d.newRec q.2.1 q.1 q.2.2.1 q.2.2.2.1 q.2.2.2.2 false false)
      let d' : Dyn := { d with flt := { d.flt with seq := (d.flt.seq + 1) % 65536 } }
      d'.ledger 4 1 k.copy.bytes) d1
    if r.halted ∧ d.pair.state = 4 then partnerLost c d2
    else if r.diverged ∧ d.pair.state = 4 then copyStart c { d2 with pair := { d2.pair with diverged := satInc 16 d2.pair.diverged } }
    else d2

/-- RETURN_FRAME_MISSED (R553): the third in a row loses the partner. -/
def returnFrameMissed (c : Cfg) (d : Dyn) : Dyn :=
  if d.glb.role = .active ∧ (d.pair.state = 3 ∨ d.pair.state = 4) then
    let d1 : Dyn := { d with pair := { d.pair with missed := satInc 8 d.pair.missed } }
    if 3 ≤ d1.pair.missed then partnerLost c d1 else d1
  else d

/-- Every region of a partner whose ledger does not continue is erased before re-threading (R561). -/
def eraseLedger (d : Dyn) : Dyn :=
  let d1 := (d.arc.bands.filter (fun q => 2 ≤ q.2.cond)).foldl (fun d q => eraseBand q.2.owner q.1 d) d
  { d1 with arc := { d1.arc with queue := [], regions := d1.arc.regions.map (fun q => (q.1, { q.2 with partialRecs := [], rewrite := [], full := false })) } }

/-- The first SEQ the ACTIVE copies, and the bytes there are (R561). -/
def threadFrom (j : JoinReport) (d : Dyn) : Nat × Nat :=
  let l := allRecs d.arc
  let n := match j.lastSeq, j.sameCrc with
    | some q, true => q + 1
    | _, _ => match firstRec (fun _ => true) l with | some r => r.1.seq | none => d.arc.seq
  (n, l.foldl (fun a r => if n ≤ r.1.seq then a + r.1.size else a) 0)

/-- PARTNER_SYNCED (R553, R560, R561): fencing ends and re-threading starts. On the STANDBY `keep` says whether the ACTIVE holds
its newest record, and `total` how much there is to copy. -/
def partnerSynced (c : Cfg) (keep : Bool) (total : Nat) (d : Dyn) : Dyn :=
  if d.glb.role = .active ∧ d.pair.state = 3 ∧ d.pair.imageOk then
    match d.pair.join with
    | some j =>
      let t := threadFrom j d
      let p : Pair := { d.pair with state := 4, join := none, missed := 0, thread := 1, threadSeq := t.1, total := t.2, done := 0 }
      let d1 := setFence c false { d with pair := p }
      (d1.clears 0x3000 [0x3060, 0x3064, 0x3066, 0x3067]).event 0x3000 0x306A 0 (p.pid % 2 ^ 32) (p.pid / 2 ^ 32)
    | none => (setFence c false (pairState 4 d)).clears 0x3000 [0x3060, 0x3064, 0x3066, 0x3067]
  else if d.glb.role = .standby ∧ d.pair.state = 6 then
    let d1 := if keep then d else eraseLedger d
    let first := if keep then d1.arc.seq else 0
    let p : Pair := { d1.pair with state := 7, missed := 0, thread := 1, threadSeq := first, threadEnd := first, total := total, done := 0 }
    ({ d1 with pair := p } : Dyn).clears 0x3000 [0x3060, 0x3064, 0x3066, 0x3067]
  else d

/-- THREAD_DONE (R561). -/
def threadDone (d : Dyn) : Dyn :=
  if d.pair.thread = 1 then
    ({ d with pair := { d.pair with thread := 2, done := max d.pair.done d.pair.total } } : Dyn).event 0x3000 0x3068 0 0 0
  else d

/-- The partner's Sage answers for the image the ACTIVE sent it at joining (R560 step 3). -/
def joinImage (c : Cfg) (code : Nat) (d : Dyn) : Dyn :=
  if code = 0 then copyStart c d
  else pairFault c 0x3067 2 0 code false { d with pair := { d.pair with state := 2, join := none } }

/-- An item of the stream other than a register write, taken over at the boundary (R231, R266, R296, R372, R409, R464, R499). -/
def takeItem (c : Cfg) (i : StreamItem) (d : Dyn) : Dyn :=
  match i with
  | .word _ _ => d
  | .dio k lv stamp =>
    let x := d.dch k
    if !x.hasState || x.brk || x.level != lv then listenAgree k (takeState c k lv stamp d.tim.epoch d) else d
  | .counter k n rate => d.setDch k { d.dch k with count := n % 2 ^ 32, rate := rate }
  | .cell n st cause m rho temp qual =>
    let y := d.cell n
    -- a delivered result ends the ACTIVE's average, and its T is the temperature in hand (R231, R232)
    d.setCell n { y with state := st, cause := cause, m := m, rho := rho, temp := temp, qual := qual, at_ := if st = 1 then d.ms else y.at_, sweeping := false
                         got := [], rtd := if st = 1 then some temp else y.rtd, rtdAt := if st = 1 then d.ms else y.rtdAt
                         staleRec := y.staleRec && st != 1 }
  | .figures n q =>
    d.setCell n { d.cell n with drift := q.drift, eps1 := q.eps1, eps2 := q.eps2, g := q.g, b := q.b, gref := q.gref, bref := q.bref, expired := q.expired
                                sweeps := q.sweeps }
  | .cartridge n st reason serial mem warn exp =>
    d.setCtg n ({ d.ctg n with state := st, absent := st == 0, reason := reason, serial := serial, lifeWarn := warn, expired := exp, mem := [] }.write 0 mem)
  | .flow n acc pend => d.setCtg n { d.ctg n with acc := acc, pend := pend }
  | .mover n st retry rpm noPulse openIn evid speedOk => movMirror c n st retry rpm noPulse openIn evid speedOk d
  | .table t req held => d.setDtab t { d.dtab t with req := req, held := held }
  | .loop _ _ _ _ _ _ => d
  | .colSkip n skipped consec late => colAdoptSkip c n skipped consec late d
  | .colQual n m at_ => colQualify n { m := m, at_ := at_ } d
  | .pend p bits => forEach (List.range 32) (launchMirror c p bits d) (fun m d => d.setPort p ((d.port p).setMb m { (d.port p).mb m with pending := bits.testBit m }))
  | .alt k on => mapTo c k on d
  | .fired a st next skipped => d.setAct a { d.act a with state := st, next := next, skipped := skipped }
  | .time ofs epoch slew left => { d with tim := { d.tim with ofs := ofs, epoch := epoch, slew := slew, slewLeft := left } }
  | .record r =>
    if d.pair.thread = 1 then { d with pair := { d.pair with threadEnd := max d.pair.threadEnd (r.seq + 1) } } else mirrorRec r d

/-- The stream of the frame before, at its boundary: every item but the register writes, which take their place in R37. -/
def takeStream (c : Cfg) (d : Dyn) : Dyn :=
  d.pair.stream.foldl (fun d i => takeItem c i d) d

/-- The register writes the stream holds. -/
def Pair.words (p : Pair) : List (Nat × Word) :=
  p.stream.filterMap (fun i => match i with | .word a v => some (a, v) | _ => none)

/-- What a frame boundary settles in a pair (R546, R552, R561, R564, R566). -/
def pairBoundary (s : State) : State :=
  let c := s.c
  let p := s.d.pair
  if p.state = 0 then s
  else
    let d0 := if s.d.openCode 0x3000 [0x306B] && decide ((p.errs.getLast?.getD 0) + 10000 ≤ s.d.ms) then s.d.clears 0x3000 [0x306B] else s.d
    let active := decide (d0.glb.role = .active)
    let sync := decide (p.state = 3) || decide (p.state = 4)
    let pk := if active && sync then max p.peak (Config.streamBytes d0.frame).toNat else p.peak
    let dn := if active && decide (p.thread = 1) then min p.total (p.done + 12000) else p.done
    let d1 : Dyn := { d0 with pair := { p with peak := pk, done := dn } }
    if p.fencing ∧ p.fenced then
      { s with d := pairFault c 0x3066 1 0 0 false (withdrawn (setFence c false d1)) }
    else if p.claim then
      let d2 := threadEnds c (activeEntry d1.frame 4 d1)
      takeInputs (startEngines { s with d := d2 })
    else { s with d := d1 }

end Sys2Proof.Machine
end

