-- ==== Sys2Proof/Machine/SageCells.lean ====
section
/-! DEFINITION. Sage on moisture cells, user grain curves, columns and drying tables (R203 to R205, R215, R217, R233, R234, R243 to R245,
R251, R265, R268, R269). -/

namespace Sys2Proof.Machine

open Sys2Proof

def cellEnt (n : Nat) : Ent := { typ := 0x600, inst := n, part := 0, idx := 0 }
def colEnt (n : Nat) : Ent := { typ := 0xB00, inst := n, part := 0, idx := 0 }

/-- The field checks of an enabled cell (R203, R204, R233). -/
def cellField (c : Cfg) (n : Nat) : List Chk :=
  let e := cellEnt n
  let a := cellA n
  let k := c.cellK n
  let per := c.cellPer n
  let drive := c.fF (a + 8) 16 2
  let curve := c.cellCurve n
  let spot : Nat → List Chk := fun j =>
    let o := 0x20 + 4 * j
    let x := a + 0x20 + 4 * j
    if j < k then
      [ck e o x 0x6001 (outN (c.cellSpotN n j) 100 12000), ck e o x 0x6009 (decide (0 < j) && decide (c.cellSpotN n j ≤ c.cellSpotN n (j - 1))),
       ck e (o + 2) x 0x6001 (outN (c.cellDwell n j) 1 8)]
    else [ck e o x 0x6007 (c.cellSpotN n j != 0), ck e (o + 2) x 0x6007 (c.cellDwell n j != 0)]
  [ck e 1 a 0x6040 (!(decide (1 ≤ curve) && decide (curve ≤ 14)) && !(decide (32 ≤ curve) && decide (curve ≤ 63))),
   ck e 2 a 0x6001 (outN k 1 8), ck e 3 a 0x6001 (outN (c.cellAvg n) 1 16),
   ck e 4 (a + 4) 0x6001 (outN per 10 60000 || 60000 % max 1 per != 0), ck e 6 (a + 4) 0x6001 (decide (per ≤ c.cellPhase n)),
   ck e 8 (a + 8) 0x6001 (outN (c.cellRefN n) 100 12000), ck e 10 (a + 8) 0x6001 (drive == 3), ck e 11 (a + 8) 0x6001 (c.cellFlowKind n == 3),
   ck e 12 (a + 0xC) 0x6001 (outN (c.cellRefLim n) 1000 100000),
   ck e 18 (a + 0x10) 0x6001 (c.cellFlowKind n == 0 && c.cellFlowRef n != 0),
   ck e 20 (a + 0x14) 0x6007 (c.cellAccept n % 2 == 1 || decide (32 ≤ c.cellAccept n))] ++
  ((List.range 8).map spot).flatten

/-- The references of a cell (R215, R233): its curve, the curve's frequencies in its plan, its flow source. -/
def cellRefs (c : Cfg) (n : Nat) : List Chk :=
  let e := cellEnt n
  let a := cellA n
  let g := c.grain (c.cellCurve n)
  let kind := c.cellFlowKind n
  let r := c.cellFlowRef n
  let lacks := match g with
    | some x => (c.spotAt n x.fa).isNone || (c.spotAt n x.fb).isNone
    | none => false
  [ck e 1 a 0x6040 g.isNone, ck e 1 a 0x6041 lacks,
   ck e 18 (a + 0x10) 0x6004 (kind == 1 && decide (63 < r)),
   cr e 18 (a + 0x10) 0x6003 (kind == 1 && decide (r ≤ 63) && !c.dioEn r) { typ := 0x800, inst := r / 16, part := 1, idx := r % 16 }] ++
  (if kind = 2 then ckObj e 18 (a + 0x10) 12 6 c.fx.nUnits anyDie r (c.unitEn r) { typ := 0xC00, inst := 0, part := 1, idx := r } else [])

/-- The sweep fits its period (R204). -/
def cellBudget (c : Cfg) (n : Nat) : List Chk :=
  [ck (cellEnt n) 4 (cellA n + 4) 0x6006 (decide (1000 * c.cellPer n < c.sweepUs n + 200))]

/-- A user grain curve (R217): entry `i` holds number `u`. -/
def grainField (c : Cfg) (i u : Nat) : List Chk :=
  let e : Ent := { typ := 0x601, inst := 0, part := 1, idx := i }
  match c.userGrain u with
  | none => []
  | some g =>
    let bad := g.fa == g.fb || outN g.fa 100 12000 || outN g.fb 100 12000 || decide (g.dmin ≤ 0) || decide (g.dmax ≤ g.dmin) ||
      decide (g.dref ≤ 0) || decide (g.tmax ≤ g.tmin) || decide (g.mmax ≤ g.mmin)
    [ck e (16 + 64 * i) (gcurveA u) 0x6042 bad]

/-- The body of a section of the image, if it has it. -/
def Image.sect (i : Image) (typ inst : Nat) : Option (List Byte) :=
  (i.sects.find? (fun x => x.typ == typ && x.inst == inst)).map (fun x => (i.bytes.drop x.off).take x.len)

/-- The drying tables of the image's drying-table section (R269). -/
def Image.tables (i : Image) : List Nat :=
  match i.sect 0xB01 0 with
  | some b => (List.range (leAt b 0 2)).map (fun k => leAt b (16 + 1136 * k) 1)
  | none => []

/-- A column input reference (R245): its KIND and INDEX. -/
def Cfg.colRef (c : Cfg) (a : Nat) : Nat × Nat := (c.fF a 0 8, c.fF a 16 16)

/-- The reference's encoding: `top` is the largest KIND allowed. -/
def colRefField (c : Cfg) (e : Ent) (o a top : Nat) : List Chk := [ck e o a 0xB00A (decide (top < (c.colRef a).1))]

/-- What the reference names. -/
def colRefRefs (c : Cfg) (e : Ent) (o a : Nat) : List Chk :=
  let r := c.colRef a
  let i := r.2
  match r.1 with
  | 1 => ckObj e o a 5 11 (64 * c.fx.nBanks) 1024 i (c.chanEn i) { typ := 0x500, inst := 0, part := 1, idx := i }
  | 2 => ckObj e o a 6 11 c.fx.nCells 8 i (c.cellEn i) (cellEnt i)
  | 3 => ckObj e o a 9 11 32 32 i (c.movEn i) { typ := 0x900, inst := 0, part := 1, idx := i }
  | 4 => ckObj e o a 10 11 c.fx.nLoops 64 i (c.loopEn i) { typ := 0xA00, inst := 0, part := 1, idx := i }
  | _ => [ck e o a 0xB004 (i != 0)]

/-- The field checks of an enabled column (R243, R244, R263, R268). -/
def columnField (c : Cfg) (n : Nat) : List Chk :=
  let e := colEnt n
  let a := colA n
  let zs := c.colZones n
  let st := c.colStep n
  let u : Nat → Nat := fun o => (c.f (a + o)).toNat
  let zone : Nat → List Chk := fun z =>
    let o := 0x60 + 16 * z
    let t := c.zoneType n z
    let air := c.colRef (zoneA n z 2)
    [ck e o (zoneA n z 0) 0xB00A (outN t 1 3), ck e (o + 1) (zoneA n z 0) 0xB001 (t == 1 && c.zoneTable n z != 0),
     ck e (o + 4) (zoneA n z 1) 0xB001 (outI (c.zoneCap n z) 6554 65536000)] ++
    colRefField c e (o + 8) (zoneA n z 2) 4 ++
    [ck e (o + 8) (zoneA n z 2) 0xB044 (t == 2 && air.1 == 0), ck e (o + 12) (zoneA n z 3) 0xB001 (outI (c.zoneH n z) 0 1073741824)]
  [ck e 1 a 0xB001 (outN zs 1 64), ck e 2 a 0xB001 (outN (c.colParcels n) 1 4096),
   ck e 2 a 0xB043 (decide ((c.colParcels n : Int) < c.colCap n / max 1 (c.colP n) + 2)),
   ck e 4 (a + 4) 0xB001 (outN st 500 10000 || st % 100 != 0 || 60000 % max 1 st != 0),
   ck e 6 (a + 4) 0xB001 (decide (st ≤ c.colPhase n) || c.colPhase n % 100 != 0), ck e 8 (a + 8) 0xB001 (outN (u 8) 6554 655360)] ++
  colRefField c e 0xC (a + 0xC) 4 ++ [ck e 0x10 (a + 0x10) 0xB001 (decide (c.colS n 0x10 ≤ 0))] ++
  colRefField c e 0x14 (a + 0x14) 5 ++ colRefField c e 0x18 (a + 0x18) 5 ++
  [ck e 0x1C (a + 0x1C) 0xB001 (outI (c.colS n 0x1C) (-2621440) 3932160), ck e 0x20 (a + 0x20) 0xB001 (outI (c.colS n 0x20) 0 6553600),
   ck e 0x24 (a + 0x24) 0xB001 (outI (c.colS n 0x24) 327680 2621440), ck e 0x28 (a + 0x28) 0xB001 (outI (c.colS n 0x28) 0 65536),
   ck e 0x2C (a + 0x2C) 0xB001 (outN (u 0x2C) 0 600000), ck e 0x30 (a + 0x30) 0xB001 (outN (u 0x30) 100 60000),
   ck e 0x34 (a + 0x34) 0xB001 (outN (c.fF (a + 0x34) 0 16) 10 7200), ck e 0x36 (a + 0x34) 0xB001 (outN (c.colOlDelay n) 1 600),
   ck e 0x38 (a + 0x38) 0xB001 (outI (c.colS n 0x38) 327680 2621440),
   ck e 0x3C (a + 0x3C) 0xB001 (decide (7 < c.colInlet n) && c.colInlet n != 255), ck e 0x3D (a + 0x3C) 0xB001 (decide (7 < c.colDis n) && c.colDis n != 255),
   ck e 0x3D (a + 0x3C) 0xB008 (c.colInlet n == c.colDis n && c.colInlet n != 255), ck e 0x3E (a + 0x3C) 0xB001 (decide (100 < c.colQualMin n)),
   ck e 0x40 (a + 0x40) 0xB001 (decide (3600 < c.colEntryHold n))] ++
  ((List.range (min 64 zs)).map zone).flatten ++
  [ck e 0x60 (zoneA n 0 1) 0xB001 (decide (4000 * 65536 < c.colCap n))]

/-- The references of a column: cells, inputs, tables, and the pool it shares (R243 to R245, R268). -/
def columnRefs (c : Cfg) (n : Nat) : List Chk :=
  let e := colEnt n
  let a := colA n
  let o := 1 - n
  let other := c.colEn o
  let sum := c.colParcels 0 + c.colParcels 1
  let cell : Nat → Nat → Nat → List Chk := fun off x y =>
    if x = 255 then []
    else [cr e off (a + 0x3C) 0xB003 (!c.cellEn x) (cellEnt x), ck e off (a + 0x3C) 0xB008 (other && x == y)]
  let zone : Nat → List Chk := fun z =>
    let t := c.zoneTable n z
    (if c.zoneType n z = 1 then [] else
      [ck e (0x61 + 16 * z) (zoneA n z 0) 0xB004 (!c.img.tables.contains t)]) ++
    colRefRefs c e (0x68 + 16 * z) (zoneA n z 2)
  [ck e 2 a 0xB041 (other && decide (4096 < sum))] ++
  colRefRefs c e 0xC (a + 0xC) ++ colRefRefs c e 0x14 (a + 0x14) ++ colRefRefs c e 0x18 (a + 0x18) ++
  cell 0x3C (c.colInlet n) (c.colInlet o) ++ cell 0x3D (c.colDis n) (c.colDis o) ++ ((List.range (min 64 (c.colZones n))).map zone).flatten

/-- The worst-case step time of a column, in units of 10 ns (R265). -/
def Cfg.colWorst (c : Cfg) (n : Nat) : Nat :=
  let p := c.colParcels n
  1500 + 30 * p + 20 * c.colZones n * p + (if c.colBatch n then 480 * p else 0)

/-- The budget of the columns (R265): `l` is the worst-case loop time per frame in units of 0.1 µs. -/
def columnBudget (c : Cfg) (l n : Nat) : List Chk :=
  let o := 1 - n
  let so : Int := if c.colEn o then max 1 (c.colStep o) else 1
  let wo : Int := if c.colEn o then c.colWorst o else 0
  let free : Int := (c.colStep n : Int) * (96000 - 10 * l)
  [ck (colEnt n) 4 (colA n + 4) 0xB006 (decide (free * so < 2 * (c.colWorst n * so + wo * c.colStep n)))]

/-- A drying table (R251): entry `i` of its section holds table `t`. -/
def dryField (c : Cfg) (i t : Nat) : List Chk :=
  let e : Ent := { typ := 0xB01, inst := 0, part := 1, idx := i }
  let a := dtabA t
  let w : Nat → Int := fun o => sword (c.f (a + o))
  let bad : Nat → Nat → Int → Bool := fun o n hi =>
    (List.range n).any (fun j => outI (w (o + 4 * j)) 0 hi || (decide (0 < j) && decide (w (o + 4 * j) ≤ w (o + 4 * (j - 1)))))
  let low : Nat → Int → Bool := fun o hi => (List.range 128).any (fun j => outI (w (o + 4 * j)) 0 hi)
  let o := 16 + 1136 * i
  [ck e (o + 16) (a + 16) 0xB042 (bad 16 16 10485760), ck e (o + 80) (a + 80) 0xB042 (bad 80 8 6553600),
   ck e (o + 112) (a + 112) 0xB042 (low 112 2147483647), ck e (o + 624) (a + 624) 0xB042 (low 624 1660944384)]

end Sys2Proof.Machine
end

