-- ==== Sys2Proof/Machine/SageFront.lean ====
section
/-! DEFINITION. Sage on the front end and on conversion (R136, R139, R144, R145, R153 to R158, R173, R178, R180, R192 to R194). -/

namespace Sys2Proof.Machine

open Sys2Proof

/-- The bank header and descriptor `k` as entries. -/
def bankEnt (b : Nat) : Ent := { typ := 0x400, inst := b, part := 0, idx := 0 }
def descEnt (k : Nat) : Ent := { typ := 0x400, inst := k / 64, part := 1, idx := k % 64 }
def chanEnt (k : Nat) : Ent := { typ := 0x500, inst := 0, part := 1, idx := k }
def swEnt (s : Nat) : Ent := { typ := 0x500, inst := 0, part := 2, idx := s }

/-- The tie line `j` of bank `b`: its declaration byte (R158). -/
def Cfg.tie (c : Cfg) (b j : Nat) : Nat := c.fF (bankA b) (8 + 8 * j) 8

/-- The tie-line pins of bank `b` (R136): those its own header and the header below declare on it. -/
def Cfg.tiePins (c : Cfg) (b : Nat) : List Nat :=
  let pin : Nat → Nat → Bool → Option Nat := fun h j side =>
    let t := c.tie h j
    if t ≠ 255 ∧ t.testBit 4 = side then some (t % 16) else none
  ((List.range 2).filterMap (fun j => if c.bF (bankA b) 0 then pin b j false else none)) ++
  (if 0 < b ∧ c.bF (bankA (b - 1)) 0 then (List.range 2).filterMap (fun j => pin (b - 1) j true) else [])

/-- The value a descriptor's route byte names: words 0 to 3 as bytes of R144. -/
def Cfg.descByte (c : Cfg) (k j : Nat) : Nat := c.fF (descA k (j / 4)) (8 * (j % 4)) 8

/-- The pins of a descriptor's lines other than IN− (R145), and all of them. -/
def Cfg.descPins (c : Cfg) (k : Nat) : List Nat := ([1, 6, 7, 8, 9].map (c.descByte k)).filter (fun p => p != 255)

def Cfg.allPins (c : Cfg) (k : Nat) : List Nat :=
  let n := c.descByte k 2
  c.descPins k ++ (if n < 16 then [n] else [])

/-- Whether EXC_VAL fits EXC (R137). -/
def excValBad (exc v : Nat) : Bool :=
  match exc with
  | 0 => v != 0
  | 1 => outN v 0 7
  | 3 => outN v 0 7
  | _ => outN v 1 9

/-- The field checks of a bank header. -/
def bankField (c : Cfg) (b : Nat) : List Chk :=
  let e := bankEnt b
  let tieBad : Nat → Bool := fun t => t != 255 && decide (32 ≤ t)
  [ck e 1 (bankA b) 0x400A (tieBad (c.tie b 0)), ck e 2 (bankA b) 0x400A (tieBad (c.tie b 1)),
   ck e 4 (bankA b + 4) 0x4001 (outN (c.fF (bankA b + 4) 0 9) 0 256), ck e 6 (bankA b + 4) 0x4001 (outN (c.fF (bankA b + 4) 16 9) 0 256),
   ck e 8 (bankA b + 8) 0x4001 (outN (c.fF (bankA b + 8) 0 24) 0 8388607)]

/-- The field checks of a descriptor (R144, R145, R149). `image` says that a whole image is checked, in which a basic-level
descriptor leaves its placement to Sage. -/
def descField (c : Cfg) (image : Bool) (k : Nat) : List Chk :=
  let e := descEnt k
  let o := 0x20 + 32 * (k % 64)
  let x := c.descByte k
  let exc := c.descExc k
  let w : Nat → Nat := fun j => descA k (j / 4)
  let pin : Nat → Bool → List Chk := fun j need =>
    [ck e (o + j) (w j) 0x4044 (need && x j == 255), ck e (o + j) (w j) 0x4001 (decide (15 < x j) && x j != 255)]
  let excPin : Nat → List Chk := fun j => if exc = 0 then [ck e (o + j) (w j) 0x4001 (x j != 255)] else pin j true
  let per := c.descGPer k
  let g := c.descGuard k
  let ref := c.descRef k
  let basic := image && !c.img.expert
  let settle := settleTime (c.descRate k) (c.descAvg k)
  [ck e (o + 0) (w 0) 0x4040 (g && c.descChop k), ck e (o + 1) (w 1) 0x4001 (decide (15 < x 1)),
   ck e (o + 2) (w 2) 0x400A (!(decide (x 2 < 20) || x 2 == 32)), ck e (o + 3) (w 3) 0x400A (decide (1 < x 3)),
   ck e (o + 4) (w 4) 0x400A (decide (4 < x 4 % 8)), ck e (o + 5) (w 5) (if exc = 0 then 0x4001 else 0x400A) (excValBad exc (x 5))] ++
  excPin 6 ++ excPin 7 ++ pin 8 ref ++ pin 9 ref ++
  [ck e (o + 1) (w 1) 0x4041 (hasDup (c.allPins k)),
   ck e (o + 10) (w 10) 0x4001 (decide (7 < x 10)), ck e (o + 11) (w 11) 0x4001 (decide (11 < x 11)), ck e (o + 12) (w 12) 0x4001 (outN (x 12) 1 16),
   ck e (o + 14) (w 14) 0x400A (decide (1 < x 14)), ck e (o + 14) (w 14) 0x4043 (x 14 == 1 && exc == 0),
   ck e (o + 16) (descA k 4) 0x4001 (if x 14 = 1 then outN (c.descChopMs k) 1 60000 else c.descChopMs k != 0),
   ck e (o + 16) (descA k 4) 0x4043 (x 14 == 1 && decide (c.descChopMs k * 128000 < settle)),
   ck e (o + 18) (descA k 4) 0x4001 (if g then outN per 2 250 || 60000 % max 1 per != 0 else per != 0),
   ck e (o + 20) (descA k 5) 0x4001 (if basic then c.descGPhase k != 0 else g && decide (per ≤ c.descGPhase k)),
   ck e (o + 22) (descA k 5) 0x4001 (if basic then c.descGOfs k != 0 else g && decide (999 < c.descGOfs k))]

/-- List `scan` of bank `b` as the configuration holds it: the descriptor index of each entry (R152). -/
def Cfg.bankList (c : Cfg) (b : Nat) (scan : Bool) : List Nat :=
  let n := if scan then c.fF (bankA b + 4) 16 9 else c.fF (bankA b + 4) 0 9
  let base := bankA b + (if scan then 0xD00 else 0xC00)
  (List.range (min n 256)).map (fun i => c.fF (base + 4 * (i / 4)) (8 * (i % 4)) 8)

/-- The references of a descriptor (R136, R139, R145). -/
def descRefs (c : Cfg) (k : Nat) : List Chk :=
  let e := descEnt k
  let b := k / 64
  let o := 0x20 + 32 * (k % 64)
  let x := c.descByte k
  let n := x 2
  let tieOf : Option (Nat × Nat) := if n = 16 ∨ n = 17 then (if 0 < b then some (b - 1, n - 16) else some (99, 0))
    else if n = 18 ∨ n = 19 then some (b, n - 18) else none
  let tieBad := match tieOf with
    | some (h, j) => decide (c.fx.nBanks ≤ h + 1) || c.tie h j == 255
    | none => false
  -- a tie line that the header of the bank below declares needs that bank (R136)
  let below := if 0 < b ∧ (n = 16 ∨ n = 17) then some (b - 1) else none
  let cont := (upFrom (64 * b) 64).filter (fun j => c.descEn j && c.isCont j)
  let held := cont.map (fun j => [c.descByte j 6, c.descByte j 7]) |>.flatten
  let low := (upFrom (64 * b) (k % 64)).filter (fun j => c.descEn j && c.isCont j)
  let same : Nat → Bool := fun j => (c.f (descA j 1) == c.f (descA k 1)) && (c.descChop j == c.descChop k) && (c.descChopMs j == c.descChopMs k)
  let visitKind := decide (c.descExc k = 1) || decide (c.descExc k = 2)
  let lists := c.bankList b false ++ c.bankList b true
  [ck e o (descA k 0) 0x4040 (c.descGuard k && (lists.contains (k % 64) || (c.isCont k && cont.any (fun j => c.descChop j)))),
   ck e (o + 1) (descA k 0) 0x4041 ((c.descPins k).any (fun p => (c.tiePins b).contains p)),
   ck e (o + 1) (descA k 0) 0x4041 (([1, 2, 8, 9].map x).any (fun p => decide (p < 16) && held.contains p)),
   ck e (o + 2) (descA k 0) 0x4003 tieBad,
   (match below with
    | some h => cr e (o + 2) (descA k 0) 0x4003 (!c.bF (bankA h) 0) (bankEnt h)
    | none => ck e (o + 2) (descA k 0) 0x4003 false),
   ck e (o + 4) (descA k 1) 0x4042 ((c.isCont k && low.any (fun j => !same j)) || (visitKind && cont != []))]

/-- The references of a bank's lists (R157, R158). -/
def listRefs (c : Cfg) (b : Nat) : List Chk :=
  let e := bankEnt b
  let entry : Bool → Nat → Nat → List Chk := fun scan i j =>
    let o := (if scan then 0x920 else 0x820) + i
    let a := bankA b + (if scan then 0xD00 else 0xC00) + 4 * (i / 4)
    [ck e o a 0x4004 (decide (63 < j)), cr e o a 0x4003 (decide (j < 64) && !c.descEn (64 * b + j)) (descEnt (64 * b + j))]
  let lst : Bool → List Chk := fun scan => (((c.bankList b scan).zipIdx).map (fun p => entry scan p.2 p.1)).flatten
  lst false ++ lst true

/-- The references of a bank: its tie lines and its lists (R136, R157, R158). -/
def bankRefs (c : Cfg) (b : Nat) : List Chk :=
  let e := bankEnt b
  let top := decide (c.fx.nBanks ≤ b + 1)
  [ck e 1 (bankA b) 0x4004 (top && c.tie b 0 != 255 && c.bF (bankA b) 0), ck e 2 (bankA b) 0x4004 (top && c.tie b 1 != 255 && c.bF (bankA b) 0)] ++ listRefs c b

/-- The internal lines of a bank that take pins, and the idle bias resistor (R134, R135). -/
inductive Line where
  | inP | inN | exP | exN | snP | snN | tie | idle
  deriving DecidableEq, Repr

/-- The pins on a descriptor's excitation lines, with the polarity the excitation has (R135, R137). -/
def Cfg.exPins (c : Cfg) (rev : Bool) (k : Nat) : List (Nat × Line) :=
  [(c.descByte k (if rev then 7 else 6), .exP), (c.descByte k (if rev then 6 else 7), .exN)]

/-- The pins that a bank holds between visits (R135, R136, R138, R159): its tie-line pins, those of a continuous excitation that is on, and the inputs
that sit on their bias resistor, which a STANDBY switches off. -/
def heldPins (c : Cfg) (d : Dyn) (b : Nat) : List (Nat × Line) :=
  let x := d.bank b
  let tie := (c.tiePins b).map (fun p => (p, Line.tie))
  let cont := if x.contOn then ((c.contDescs b).take 1).flatMap (c.exPins x.contPol) else []
  let ks := (upFrom (64 * b) 64).filter (fun k => c.descEn k && c.bF (descA k 3) 11 && !d.standby)
  let idle := (ks.flatMap (fun k => [c.descByte k 1, c.descByte k 2])).filter (fun p => decide (p < 16) && !(tie ++ cont).any (fun q => q.1 == p))
  tie ++ cont ++ idle.map (fun p => (p, Line.idle))

/-- The pins that the visit under way connects (R135, R146, R159): its inputs, its sense lines, and a visit-mode excitation, which stays open on a STANDBY. -/
def visitPins (c : Cfg) (d : Dyn) (b : Nat) : List (Nat × Line) :=
  match (d.bank b).visit with
  | none => []
  | some v =>
    let k := v.desc
    let own := decide (c.descExc k = 1 ∨ c.descExc k = 2) && !d.standby
    (([(c.descByte k 1, Line.inP), (c.descByte k 2, .inN), (c.descByte k 8, .snP), (c.descByte k 9, .snN)] ++
      (if own then c.exPins (d.desc k).pol k else [])).filter (fun p => decide (p.1 < 16)))

/-- What each connected pin of a bank is on now; every other pin is open, and so is every pin in BOOT, in SAFE without configuration, in DORMANT and in a
disabled bank (R135). -/
def matrixPins (c : Cfg) (d : Dyn) (b : Nat) : List (Nat × Line) :=
  if d.live c && c.bankEn b then visitPins c d b ++ (heldPins c d b).filter (fun p => p.2 != .idle || !(visitPins c d b).any (fun q => q.1 == p.1)) else []

/-- A guard slot's length in 1/128 µs (R153). -/
def Cfg.slotLen (c : Cfg) (k : Nat) : Nat := c.guardLead k + c.descAvg k * (9000 * 2 ^ c.descRate k)

/-- The start of a guard slot within its period, in 1/128 µs (it may lie before the frame boundary). -/
def Cfg.slotStart (c : Cfg) (k : Nat) : Int := (c.descGPhase k * 128000 + c.descGOfs k * 128 : Nat) - (c.guardLead k : Int)

/-- Whether the slots of two guard descriptors overlap in some frame (R155). -/
def slotsMeet (s1 : Int) (l1 p1 : Nat) (s2 : Int) (l2 p2 : Nat) : Bool :=
  let g : Int := (Nat.gcd p1 p2 : Nat) * 128000
  decide ((s2 - s1) % g < l1) || decide ((s1 - s2) % g < l2)

/-- Time that slots with start `s`, length `l` and period `p` (1/128 µs) take of `[t, t + w)`. -/
def occupied (s : Int) (l p : Nat) (t : Int) (w : Nat) : Nat :=
  let i0 := (t - s - l).fdiv p
  (List.range (w / p + 3)).foldl (fun (a : Nat) (j : Nat) =>
    let x := s + (i0 + j) * p
    a + (min (x + l) (t + w) - max x t).toNat) 0

/-- The guard slots of a bank as start, length and period. -/
def Cfg.slots (c : Cfg) (b : Nat) : List (Int × Nat × Nat) :=
  (c.guardDescs b).map (fun k => (c.slotStart k, c.slotLen k, c.descGPer k * 128000))

/-- More than half of some 100 ms goes to guard slots (R155): the worst window starts with a slot or ends with one. -/
def guardFull (sl : List (Int × Nat × Nat)) : Bool :=
  let w := 12800000
  let ovf : Int → Bool := fun t => decide (w < 2 * sl.foldl (fun a x => a + occupied x.1 x.2.1 (max 1 x.2.2) t w) 0)
  sl.any (fun x => (List.range (60000 * 128000 / max 1 x.2.2)).any (fun i => let t := x.1 + i * x.2.2; ovf t || ovf (t + x.2.1 - w)))

/-- The next slot start at or after `t`, and the end of that slot. -/
def nextOf (sl : List (Int × Nat × Nat)) (t : Int) : Option (Int × Int) :=
  sl.foldl (fun m x =>
    let p : Int := max 1 x.2.2
    let s := x.1 + (t - x.1 + p - 1) / p * p
    match m with
    | some y => if s < y.1 then some (s, s + x.2.1) else some y
    | none => some (s, s + x.2.1)) none

/-- A slot that runs at `t`: its end. -/
def slotAt (sl : List (Int × Nat × Nat)) (t : Int) : Option Int :=
  sl.findSome? (fun x => let r := (t - x.1) % (max 1 x.2.2 : Nat); if r < x.2.1 then some (t + (x.2.1 - r)) else none)

/-- The start of a visit of length `w` that is wanted at `t` (R154): it waits for slots it would meet. -/
def visitAt (sl : List (Int × Nat × Nat)) (w : Nat) : Nat → Int → Int
  | 0, t => t
  | n + 1, t =>
    match slotAt sl t with
    | some e => visitAt sl w n e
    | none =>
      match nextOf sl t with
      | some (s, e) => if t + w ≤ s then t else visitAt sl w n e
      | none => t

/-- The starts and ends of the visits of a list run once from `t`. -/
def runOnce (sl : List (Int × Nat × Nat)) : List Nat → Int → List (Int × Int)
  | [], _ => []
  | w :: r, t => let s := visitAt sl w 1000 t; (s, s + w) :: runOnce sl r (s + w)

/-- The longest gap between the shortest consecutive slots is what an ordinary visit must fit in (R155): the shortest gap. -/
def minGap (sl : List (Int × Nat × Nat)) : Option Nat :=
  sl.foldl (fun m x =>
    (List.range (60000 * 128000 / max 1 x.2.2)).foldl (fun m (i : Nat) =>
      let e := x.1 + (i : Int) * x.2.2 + x.2.1
      match nextOf sl e with
      | some (s, _) => some (match m with | some g => min g (s - e).toNat | none => (s - e).toNat)
      | none => m) m) none

/-- The longest w of a descriptor (R154, R156). -/
def Cfg.longW (c : Cfg) (k : Nat) : Nat := c.visitW k (c.descExc k != 0)

/-- The visits of a list over the 60 s cycle, and until every entry has come twice (log entry 82), with their list positions: start times (R156). -/
def cycleRun (sl : List (Int × Nat × Nat)) (ws : List Nat) : Nat → Nat → Int → List (Nat × Int) → List (Nat × Int)
  | 0, _, _, acc => acc
  | n + 1, i, t, acc =>
    let s := visitAt sl (nth 0 ws (i % max 1 ws.length)) 1000 t
    if 60000 * 128000 < s ∧ 2 * ws.length ≤ i then (i, s) :: acc
    else cycleRun sl ws n (i + 1) (s + nth 0 ws (i % max 1 ws.length)) ((i, s) :: acc)

/-- The duration of one run of a list from every whole second, the longest (R156), in 1/128 µs. -/
def scanLen (sl : List (Int × Nat × Nat)) (ws : List Nat) : Nat :=
  (List.range 60).foldl (fun m (i : Nat) =>
    let t : Int := (i : Int) * 128000000
    match (runOnce sl ws t).getLast? with
    | some (_, e) => max m (e - t).toNat
    | none => m) 0

/-- The budget of a bank (R155): 0x4006. -/
def bankBudget (c : Cfg) (b : Nat) : List Chk :=
  let gs := c.guardDescs b
  let sl := c.slots b
  let e := bankEnt b
  let ordinary := (c.bankList b false ++ c.bankList b true).map (fun j => 64 * b + j)
  let gapBad : Nat → Bool := fun k => match minGap sl with | some g => decide (g < c.longW k) | none => false
  (gs.map (fun k => ck (descEnt k) (0x20 + 32 * (k % 64) + 18) (descA k 4) 0x4006 ((gs.filter (· < k)).any (fun j =>
    slotsMeet (c.slotStart j) (c.slotLen j) (c.descGPer j) (c.slotStart k) (c.slotLen k) (c.descGPer k))))) ++
  [ck e 0x20 (descA (64 * b) 4) 0x4006 (guardFull sl)] ++
  ((ordinary.filter (fun k => gapBad k)).map (fun k => ck (descEnt k) (0x20 + 32 * (k % 64)) (descA k 0) 0x4006 true)) ++
  [ck e 0x920 (bankA b + 0xD00) 0x4006 (decide (1500 * 128000 < scanLen sl ((c.bankList b true).map (fun j => c.longW (64 * b + j)))))]

/-- The smallest free placement of a guard descriptor at basic level (R155): phase and offset. -/
def placeGuard (c : Cfg) (k : Nat) (placed : List (Int × Nat × Nat)) : Option (Nat × Nat) :=
  let per := c.descGPer k
  let lead : Int := c.guardLead k
  (List.range per).findSome? (fun ph => (List.range 63).findSome? (fun j =>
    let s : Int := (ph * 128000 + 16 * j * 128 : Nat) - lead
    if placed.any (fun x => slotsMeet x.1 x.2.1 (x.2.2 / 128000) s (c.slotLen k) per) then none else some (ph, 16 * j)))

/-- Store a placement in word 5 of the descriptor (R167). -/
def putPlace (k ph ofs : Nat) (c : Cfg) : Cfg := { c with reg := c.reg.putB (descA k 5) (BitVec.ofNat 32 (ph + 65536 * ofs)) }

/-- Place every guard slot afresh (R155). A descriptor for which there is no room keeps phase and offset 0 and fails the budget. -/
def placeAll (c : Cfg) : Cfg :=
  if c.img.expert then c
  else forEach (List.range c.fx.nBanks) c (fun b c =>
    ((c.guardDescs b).foldl (fun (a : Cfg × List (Int × Nat × Nat)) k =>
      let q := (placeGuard a.1 k a.2).getD (0, 0)
      let c' := putPlace k q.1 q.2 a.1
      (c', a.2 ++ [(c'.slotStart k, c'.slotLen k, c'.descGPer k * 128000)])) (c, [])).1)

/-- Place one guard descriptor that is being enabled, beside the slots that run (R155). -/
def placeOne (k : Nat) (c : Cfg) : Cfg :=
  if c.img.expert || !c.descGuard k then c
  else
    let others := ((c.guardDescs (k / 64)).filter (· != k)).map (fun j => (c.slotStart j, c.slotLen j, c.descGPer j * 128000))
    let q := (placeGuard c k others).getD (0, 0)
    putPlace k q.1 q.2 c

/-- What Sage reports of a bank (R156): the duration of the run list and of the storage list, and the revisit interval of
each descriptor, in 1/128 µs. Durations are in whole µs (R10). The duration of the run list is taken from one start of its entry 0 to the next (log entry 82). -/
def bankReport (c : Cfg) (b : Nat) : Nat × Nat × List (Nat × Nat) :=
  let sl := c.slots b
  let run := c.bankList b false
  let ws := run.map (fun j => c.longW (64 * b + j))
  let vs := if run = [] then [] else (cycleRun sl ws 700000 0 0 []).reverse
  let n := max 1 run.length
  let starts : Nat → List Int := fun j => (vs.filter (fun v => nth 99 run (v.1 % n) == j)).map (·.2)
  let rec gap : List Int → Int → Int
    | a :: x :: r, m => gap (x :: r) (max m (x - a))
    | _, m => m
  let cyc := gap ((vs.filter (fun v => v.1 % n == 0)).map (·.2)) 0
  let us : Int → Nat := fun t => t.toNat / 128
  (us cyc, us (scanLen sl ((c.bankList b true).map (fun j => c.longW (64 * b + j)))),
   ((List.range 64).filter (fun j => run.contains j)).map (fun j => (64 * b + j, (gap (starts j) 0).toNat)))

/-- CH_COUNT of the conversion section (R193): 64 times the banks of the header. -/
def Image.chCount (i : Image) : Nat := 256 * 2 ^ min 2 (leAt i.bytes 0x10 1)

/-- The sort of a curve (R173): the REF it needs and the parameters it uses as resistance. -/
def curveRef (c : Cfg) (curve : Nat) : Option Bool :=
  if curve = 1 ∨ curve = 3 ∨ (16 ≤ curve ∧ curve ≤ 20) then some false
  else if curve = 2 ∨ curve = 4 ∨ curve = 8 ∨ curve = 24 ∨ curve = 25 then some true
  else if 32 ≤ curve ∧ curve ≤ 63 ∧ c.fF (ucurveA curve) 0 8 = curve then (let i := c.fF (ucurveA curve) 8 8; some (i == 1 || i == 2))
  else none

def isTc (curve : Nat) : Bool := decide (16 ≤ curve) && decide (curve ≤ 20)

/-- The field checks of a channel (R173, R193). -/
def chanField (c : Cfg) (k : Nat) : List Chk :=
  let e := chanEnt k
  let o := 0x10 + 32 * k
  let cv := c.chanCurve k
  let cj := c.chanCj k
  let listed := cv == 1 || cv == 2 || cv == 3 || cv == 4 || cv == 8 || isTc cv || cv == 24 || cv == 25 || (decide (32 ≤ cv) && decide (cv ≤ 63))
  let ui := if 32 ≤ cv then c.fF (ucurveA cv) 8 8 else 0
  let res0 := cv == 3 || cv == 4 || cv == 8 || cv == 24 || cv == 25 || (decide (32 ≤ cv) && (ui == 2 || ui == 3))
  let res1 := cv == 8 || cv == 24 || cv == 25
  let use1 := res1 || isTc cv || cv == 1 || cv == 2
  let lin := cv == 1 || cv == 2
  let p := c.chanP k
  [ck e (o + 1) (chanA k 0) 0x5040 (!listed),
   ck e (o + 2) (chanA k 0) 0x5001 (if isTc cv then decide (1023 < cj) && cj != 65535 else cj != 65535),
   ck e (o + 4) (chanA k 1) (if res0 then 0x5001 else 0x5007) (if res0 then decide (p 0 ≤ 0) else p 0 != 0),
   ck e (o + 8) (chanA k 2) (if res1 then 0x5001 else 0x5007) (if res1 then decide (p 1 ≤ 0) else !use1 && p 1 != 0),
   ck e (o + 12) (chanA k 3) (if lin then 0x5001 else 0x5007) (if lin then p 1 == p 2 else p 2 != 0),
   ck e (o + 16) (chanA k 4) 0x5001 (decide (4 ≤ cv) && c.chanLo k != 0), ck e (o + 20) (chanA k 5) 0x5001 (decide (4 ≤ cv) && c.chanHi k != 0),
   ck e (o + 24) (chanA k 6) 0x5001 (decide (8 < c.chanFshift k))]

/-- The references of a channel (R173, R178, R193). -/
def chanRefs (c : Cfg) (k : Nat) : List Chk :=
  let e := chanEnt k
  let o := 0x10 + 32 * k
  let cv := c.chanCurve k
  let cj := c.chanCj k
  let r := curveRef c cv
  let n := 64 * c.fx.nBanks
  let hasCj := isTc cv && cj != 65535
  let cjCv := c.chanCurve cj
  let cjOk := cjCv == 8 || cjCv == 24 || cjCv == 25 || (decide (32 ≤ cjCv) && decide (cjCv ≤ 63))
  [cr e o (chanA k 0) 0x5003 (!c.descEn k) (descEnt k),
   ck e (o + 1) (chanA k 0) 0x5040 r.isNone, ck e (o + 1) (chanA k 0) 0x5041 (match r with | some b => b != c.descRef k | none => false),
   ck e (o + 2) (chanA k 0) 0x5004 (hasCj && decide (n ≤ cj)),
   ck e (o + 2) (chanA k 0) 0x500B (hasCj && isTc cjCv && (cj == k || c.chanCj cj == k))] ++
  (if hasCj && decide (cj < n) then [cr e (o + 2) (chanA k 0) 0x5003 (!c.chanEn cj) (chanEnt cj), ck e (o + 2) (chanA k 0) 0x500E (!cjOk)] else [])

/-- The checks of a switch (R192, R193): its fields, then its references. -/
def swOff (c : Cfg) (s : Nat) : Nat := 0x10 + 32 * c.img.chCount + 16 * s

def swField (c : Cfg) (s : Nat) : List Chk :=
  let e := swEnt s
  let o := swOff c s
  let g := c.bF (swA s 0) 1
  let inv := c.fF (swA s 0) 3 2
  let deb := c.fF (swA s 3) 0 8
  [ck e o (swA s 0) 0x500A (inv == 3), ck e o (swA s 0) 0x5044 (g && inv == 0), ck e (o + 2) (swA s 0) 0x5001 (decide (1023 < c.swChan s)),
   ck e (o + 8) (swA s 2) 0x5001 (decide (sword (c.f (swA s 2)) < 0)), ck e (o + 12) (swA s 3) 0x5001 (deb == 0),
   ck e (o + 12) (swA s 3) 0x5044 (g && deb != 1)]

def swRefs (c : Cfg) (s : Nat) : List Chk :=
  let e := swEnt s
  let o := swOff c s
  let k := c.swChan s
  let g := c.bF (swA s 0) 1
  let cj := c.chanCj k
  let n := 64 * c.fx.nBanks
  [ck e (o + 2) (swA s 0) 0x5004 (decide (n ≤ k)), cr e (o + 2) (swA s 0) 0x5003 (decide (k < n) && !c.chanEn k) (chanEnt k),
   ck e (o + 2) (swA s 0) 0x5044 (g && (!c.descGuard k || c.chanFshift k != 0 || (isTc (c.chanCurve k) && cj != 65535 && !c.descGuard cj)))]

/-- A user curve (R180, R194): entry `i` of its section holds number `u`. -/
def ucurveField (c : Cfg) (i u : Nat) : List Chk :=
  let e : Ent := { typ := 0x501, inst := 0, part := 1, idx := i }
  let o := 16 + 528 * i
  let a := ucurveA u
  let n := c.fF a 16 8
  let nodes := c.userNodes u
  let rec bad : List (Int × Int) → Bool
    | p :: q :: r => decide (q.1 ≤ p.1) || decide (2 ^ 31 ≤ q.1 - p.1) || decide (2 ^ 31 ≤ ((q.2 - p.2).natAbs : Int)) || bad (q :: r)
    | _ => false
  let rest := (upFrom n (64 - n)).any (fun j => c.f (a + 0x10 + 8 * j) != 0 || c.f (a + 0x14 + 8 * j) != 0)
  [ck e (o + 1) a 0x500A (decide (3 < c.fF a 8 8)), ck e (o + 2) a 0x5043 (outN n 2 64), ck e (o + 16) (a + 0x10) 0x5043 (bad nodes || rest)]

/-- Phase 3 on the front end and conversion. -/
def frontField (c : Cfg) (image : Bool) (typ inst : Nat) : List Chk :=
  if typ = 0x400 then
    (if c.bF (bankA inst) 0 then bankField c inst else []) ++
    perEnt 64 (fun j => c.descEn (64 * inst + j)) (fun j => descField c image (64 * inst + j))
  else if typ = 0x500 then perEnt 1024 c.chanEn (chanField c) ++ perEnt 512 c.swEn (swField c)
  else []

/-- Phase 4. -/
def frontRefs (c : Cfg) (typ inst : Nat) : List Chk :=
  if typ = 0x400 then
    (if c.bF (bankA inst) 0 then bankRefs c inst else []) ++ perEnt 64 (fun j => c.descEn (64 * inst + j)) (fun j => descRefs c (64 * inst + j))
  else if typ = 0x500 then perEnt 1024 c.chanEn (chanRefs c) ++ perEnt 512 c.swEn (swRefs c)
  else []

end Sys2Proof.Machine
end

