-- ==== Sys2Proof/Machine/SageControl.lean ====
section
/-! DEFINITION. Sage on loops, profile generators, override groups and trace channels (R280, R281, R283, R289, R293, R294, R297, R300,
R309, R310, R314, R316, R319, R321 to R323, R326). -/

namespace Sys2Proof.Machine

open Sys2Proof

def loopEnt (n : Nat) : Ent := { typ := 0xA00, inst := 0, part := 1, idx := n }
def genEnt (n : Nat) : Ent := { typ := 0xA01, inst := 0, part := 1, idx := n }
def ovrEnt (g : Nat) : Ent := { typ := 0xA02, inst := 0, part := 1, idx := g }
def trcEnt (t : Nat) : Ent := { typ := 0xA03, inst := 0, part := 1, idx := t }
def dioEnt (k : Nat) : Ent := { typ := 0x800, inst := k / 16, part := 1, idx := k % 16 }
def movEnt (n : Nat) : Ent := { typ := 0x900, inst := 0, part := 1, idx := n }

/-- A reference that Sage follows without a check of its own. -/
def rf (own : Ent) (off addr : Nat) (ref : Ent) : Chk := cr own off addr 0 false ref

/-- The other entries that a repeated claim is held against: in a whole image those below, at run time all others. -/
def othersOf (image : Bool) (n count : Nat) : List Nat := if image then List.range n else (List.range count).filter (· != n)

/-- The encoding of a source reference (R280): `top` is the largest KIND listed. -/
def srcField (c : Cfg) (sub : Nat) (e : Ent) (o a top : Nat) : List Chk := [ck e o a (0x1000 * sub + 0xA) (decide (top < (refOf (c.f a)).1))]

/-- What the source reference `r` names (R280, R321). -/
def nameRefs (c : Cfg) (sub : Nat) (e : Ent) (o a : Nat) (r : Nat × Nat) : List Chk :=
  let i := r.2
  let s := 0x1000 * sub
  match r.1 with
  | 1 => ckObj e o a 5 sub (64 * c.fx.nBanks) 1024 i (c.chanEn i) (chanEnt i)
  | 2 => ckObj e o a 6 sub c.fx.nCells 8 i (c.cellEn i) (cellEnt i)
  | 3 => ckObj e o a 6 sub c.fx.nCells 8 i (c.cellEn i) (cellEnt i)
  | 4 => if c.fx.nCols = 0 then [ck e o a 0xB002 true] else ckObj e o a 11 sub (4 * c.fx.nCols) 8 i (c.colEn (i / 4)) (colEnt (i / 4))
  | 5 => ckObj e o a 9 sub 32 32 i (c.movEn i) (movEnt i)
  | 6 => ckObj e o a 10 sub c.fx.nLoops anyDie i (c.loopEn i) (loopEnt i)
  | 7 => ckObj e o a 10 sub c.fx.nGens anyDie i (c.genEn i) (genEnt i)
  | 8 => ckObj e o a 8 sub 64 64 i (c.dioEn i) (dioEnt i) ++ [ck e o a (s + 0xE) (decide (i < 64) && c.dioEn i && c.dioMode i != 2)]
  | 9 => ckObj e o a 10 sub (8 * c.fx.nLoops) anyDie i (c.loopEn (i / 8)) (loopEnt (i / 8))
  | 10 => ckObj e o a 10 sub c.fx.nOvr 8 i (c.ovrEn i) (ovrEnt i)
  | 11 => ckObj e o a 5 sub 512 512 i (c.swEn i) (swEnt i)
  | 12 => ckObj e o a 10 sub c.fx.nGens anyDie i (c.genEn i) (genEnt i)
  | _ => [ck e o a (s + 4) (i != 0)]

/-- What a register's source reference names. -/
def srcRefs (c : Cfg) (sub : Nat) (e : Ent) (o a : Nat) : List Chk := nameRefs c sub e o a (refOf (c.f a))

/-- The time-proportioning fields of R297: cycle, phase and minimum. -/
def tpoBad (cycle phase low : Nat) : List Bool :=
  [outN cycle 100 60000 || 60000 % max 1 cycle != 0, decide (cycle ≤ phase), decide (cycle < 2 * low)]

/-- The checks of the time-proportioning fields at their offsets; without a time-proportioned destination they are 0 (R300, R587). -/
def tpoField (e : Ent) (o aCyc aMin : Nat) (use : Bool) (cycle phase low : Nat) : List Chk :=
  let b := if use then tpoBad cycle phase low else [cycle != 0, phase != 0, low != 0]
  [ck e o aCyc 0xA044 (nth false b 0), ck e (o + 2) aCyc 0xA044 (nth false b 1), ck e (o + 4) aMin 0xA044 (nth false b 2)]

/-- A coefficient bank (R283). -/
def coefField (c : Cfg) (e : Ent) (o a : Nat) : List Chk :=
  ((List.range 4).map (fun j => ck e (o + 16 + j) (a + 16) 0xA001 (decide (63 < c.fF (a + 16) (8 * j) 8)))) ++
  [ck e (o + 20) (a + 20) 0xA001 (decide (8 < c.fF (a + 20) 0 8))]

/-- The field checks of an enabled loop (R283, R289, R297, R300). -/
def loopField (c : Cfg) (image : Bool) (n : Nat) : List Chk :=
  let e := loopEnt n
  let o := 16 + 128 * n
  let a := loopA n
  let per := c.fF a 16 8
  let src := c.fF (a + 4) 16 8
  let idx := c.fF (a + 8) 0 16
  let dest := (c.loopRef n 7).1
  let lo := c.loopS n 32
  let hi := c.loopS n 36
  let span := dest == 1 || dest == 2
  let inOut : Nat → Bool := fun j => outI (c.loopS n j) lo hi
  [ck e (o + 1) a 0xA00A (decide (2 < c.fF a 8 8)), ck e (o + 2) a 0xA041 (decide (14 < per)), ck e (o + 3) a 0xA00A (decide (1 < c.fF a 24 8)),
   ck e (o + 4) (a + 4) 0xA042 (if image && !c.img.expert then c.loopPhase n != 0 else decide (c.loopP n ≤ c.loopPhase n)),
   ck e (o + 6) (a + 4) 0xA00A (decide (2 < src)), ck e (o + 8) (a + 8) 0xA001 (src == 0 && idx != 0)] ++
  ((List.range 4).map (fun j => srcField c 10 e (o + 12 + 4 * j) (a + 12 + 4 * j) 8)).flatten ++
  srcField c 10 e (o + 28) (a + 28) 3 ++
  [ck e (o + 32) (a + 32) 0xA043 (decide (hi ≤ lo) || (span && decide (lo < 0))), ck e (o + 36) (a + 36) 0xA043 (span && decide (6553600 < hi)),
   ck e (o + 40) (a + 40) 0xA001 (decide (c.loopS n 40 < 0)), ck e (o + 44) (a + 44) 0xA043 (inOut 44), ck e (o + 48) (a + 48) 0xA043 (inOut 48)] ++
  tpoField e (o + 56) (a + 56) (a + 60) (dest == 2) (c.fF (a + 56) 0 16) (c.fF (a + 56) 16 16) (c.fF (a + 60) 0 16) ++
  coefField c e (o + 64) (a + 0x40) ++ coefField c e (o + 96) (a + 0x80)

/-- DEST of a loop or group as a pair, and the enabled loops and groups of one destination. -/
def Cfg.groupDest (c : Cfg) (g : Nat) : Nat × Nat := refOf (c.f (ovrA g + 4))

/-- A drive destination (R281, R319, R368): the mode it needs, and who else claims it. -/
def destRefs (c : Cfg) (e : Ent) (o a : Nat) (dup : Bool) : List Chk :=
  let r := refOf (c.f a)
  match r.1 with
  | 1 => if r.2 < 32 then [rf e o a (movEnt r.2), ck e o a 0xA00E (c.movDem r.2 != 1), ck e o a 0xA008 dup] else [ck e o a 0xA004 true]
  | 2 => if r.2 < 64 then [cr e o a 0xA003 (!c.dioEn r.2) (dioEnt r.2), ck e o a 0xA00E (c.dioMode r.2 != 4), ck e o a 0xA008 dup] else [ck e o a 0xA004 true]
  | 0 => [ck e o a 0xA004 (r.2 != 0)]
  | _ => []

/-- The references of an enabled loop (R280, R281, R289, R319). -/
def loopRefs (c : Cfg) (image : Bool) (n : Nat) : List Chk :=
  let e := loopEnt n
  let o := 16 + 128 * n
  let a := loopA n
  let src := c.fF (a + 4) 16 8
  let i := c.fF (a + 8) 0 16
  let own : Nat → Bool := fun j => c.loopRef n j == (6, n)
  let d := c.loopRef n 7
  let dup := (othersOf image n c.fx.nLoops).any (fun m => c.loopEn m && c.loopRef m 7 == d)
  let gd := c.groupDest d.2
  let bank : List Chk :=
    if src = 1 then
      (if i < 512 then [cr e (o + 8) (a + 8) 0xA003 (!c.swEn i) (swEnt i)] else [ck e (o + 8) (a + 8) 0xA004 true])
    else if src = 2 then
      (if i < 64 then [cr e (o + 8) (a + 8) 0xA003 (!c.dioEn i) (dioEnt i), ck e (o + 8) (a + 8) 0xA00E (c.dioMode i != 1)] else [ck e (o + 8) (a + 8) 0xA004 true])
    else []
  bank ++ [ck e (o + 12) (a + 12) 0xA00B (own 3), ck e (o + 20) (a + 20) 0xA00B (own 5)] ++
  ((List.range 4).map (fun j => srcRefs c 10 e (o + 12 + 4 * j) (a + 12 + 4 * j))).flatten ++
  (if d.1 = 3 then
     (if d.2 < c.fx.nOvr then
        [rf e (o + 28) (a + 28) (ovrEnt d.2), ck e (o + 28) (a + 28) 0xA00E (!(c.members d.2).contains n),
         ck e (o + 32) (a + 32) 0xA043 ((gd.1 == 1 || gd.1 == 2) && (decide (c.loopS n 32 < 0) || decide (6553600 < c.loopS n 36)))]
      else [ckNum e (o + 28) (a + 28) 10 10 c.fx.nOvr 8 d.2])
   else destRefs c e (o + 28) (a + 28) dup)

/-- A loop's worst-case cost in units of 0.1 µs (R293). -/
def Cfg.loopCost (c : Cfg) (n : Nat) : Nat :=
  let a := loopA n
  90 + (if c.f (a + 0x48) ≠ 0 ∨ c.f (a + 0x88) ≠ 0 then 20 else 0) + (if (c.loopRef n 5).1 ≠ 0 then 15 else 0) + (if (c.loopRef n 7).1 = 2 then 25 else 0)

/-- The frame load of schedule index `i` by the loops of a list (R293). -/
def Cfg.loopLoad (c : Cfg) (ns : List Nat) (i : Nat) : Nat :=
  ns.foldl (fun a n => if i % max 1 (c.loopP n) = c.loopPhase n then a + c.loopCost n else a) 0

def Cfg.loopsOn (c : Cfg) : List Nat := (List.range c.fx.nLoops).filter c.loopEn

/-- The largest frame load and the first index that has it. -/
def Cfg.worstLoad (c : Cfg) : Nat × Nat :=
  (List.range 60000).foldl (fun (m : Nat × Nat) i => let x := c.loopLoad c.loopsOn i; if m.1 < x then (x, i) else m) (0, 0)

/-- The smallest phase that keeps every frame load within 800 µs beside the loops of a list (R294). -/
def placeLoop (c : Cfg) (ns : List Nat) (n : Nat) : Option Nat :=
  let p := max 1 (c.loopP n)
  (List.range p).find? (fun ph => (List.range (60000 / p)).all (fun j => decide (c.loopLoad ns (ph + j * p) + c.loopCost n ≤ 8000)))

def putPhase (n ph : Nat) (c : Cfg) : Cfg :=
  { c with reg := c.reg.putB (loopA n + 4) (mix (c.f (loopA n + 4)) (BitVec.ofNat 32 ph) 0xFFFF) }

/-- Place every loop afresh at basic level (R294). -/
def placeLoops (c : Cfg) : Cfg :=
  if c.img.expert then c
  else (c.loopsOn.foldl (fun (a : Cfg × List Nat) n => (putPhase n ((placeLoop a.1 a.2 n).getD 0) a.1, a.2 ++ [n])) (c, [])).1

/-- Place the one loop that is being enabled. -/
def placeOneLoop (n : Nat) (c : Cfg) : Cfg :=
  if c.img.expert then c else putPhase n ((placeLoop c (c.loopsOn.filter (· != n)) n).getD 0) c

/-- The budget of the loops (R293): 0xA006 on the first loop whose frame load, with those below it, passes 800 µs. -/
def loopBudget (c : Cfg) : List Chk :=
  if (c.worstLoad).1 ≤ 8000 then []
  else
    let ovf : Nat → Bool := fun n => (List.range 60000).any (fun i => decide (8000 < c.loopLoad (c.loopsOn.filter (· ≤ n)) i))
    match c.loopsOn.find? ovf with
    | some n => [ck (loopEnt n) (16 + 128 * n + 4) (loopA n + 4) 0xA006 true]
    | none => []

/-- A generator (R310, R314, R326). -/
def genField (c : Cfg) (n : Nat) : List Chk :=
  let e := genEnt n
  let o := 16 + 32 * n
  let a := prfA n
  let top := c.fF a 8 8
  [ck e (o + 4) a 0xA00A (decide (8 < top)), ck e (o + 12) (a + 8) 0xA046 (decide (c.prfW n 2 < 1) || decide (c.prfVf n < c.prfAf n)),
   ck e (o + 16) (a + 12) 0xA046 (decide (c.prfW n 3 < 1) || decide (c.prfAf n < c.prfJf n)), ck e (o + 20) (a + 16) 0xA046 (decide (c.prfW n 4 < 1))]

/-- INIT_REF stands in bits [31:8] of PRF_CTL: the reference word it amounts to, checked in a configuration that holds it at a
spare address. -/
def genRefs (c : Cfg) (n : Nat) : List Chk :=
  let e := genEnt n
  let o := 16 + 32 * n
  let a := prfA n
  let spare := 0x6FFFFFC
  let c' : Cfg := { c with reg := c.reg.putF spare (packW [c.fF a 8 8, 65536 * c.fF a 16 16]) }
  ck e (o + 4) a 0xA00B (c.fF a 8 8 == 7 && c.fF a 16 16 == n) :: (srcRefs c' 10 e (o + 4) spare).map (fun x => { x with addr := a })

/-- An override group (R316, R319, R326). -/
def ovrField (c : Cfg) (g : Nat) : List Chk :=
  let e := ovrEnt g
  let o := 16 + 24 * g
  let a := ovrA g
  let d := c.groupDest g
  [ck e o a 0xA00A (c.fF a 2 2 == 3), ck e (o + 4) (a + 4) 0xA00A (decide (2 < d.1))] ++
  tpoField e (o + 8) (a + 8) (a + 12) (d.1 == 2) (c.fF (a + 8) 0 16) (c.fF (a + 8) 16 16) (c.fF (a + 12) 0 16) ++
  [ck e (o + 16) (a + 16) 0xA008 (hasDup (c.members g))]

/-- `off` is the code for a group without an enabled member: 0xA047, or 0xA003 where a disable would leave it so (R316). -/
def ovrRefs (c : Cfg) (image : Bool) (off g : Nat) : List Chk :=
  let e := ovrEnt g
  let o := 16 + 24 * g
  let a := ovrA g
  let d := c.groupDest g
  let ms := c.members g
  let dup := (othersOf image g c.fx.nOvr).any (fun h => c.ovrEn h && c.groupDest h == d) || c.loopsOn.any (fun n => c.loopRef n 7 == d)
  destRefs c e (o + 4) (a + 4) dup ++
  (ms.map (fun n =>
    [ckNum e (o + 16) (a + 16) 10 10 c.fx.nLoops anyDie n,
     ca e (o + 16) (a + 16) 0xA00E (decide (n < c.fx.nLoops) && c.loopRef n 7 != (3, g)) (loopEnt n),
     ck e (o + 16) (a + 16) 0xA008 ((othersOf image g c.fx.nOvr).any (fun h => c.ovrEn h && (c.members h).contains n))])).flatten ++
  [ck e (o + 16) (a + 16) off (ms.all (fun n => !c.loopEn n))]

/-- A trace channel: its COND word in the register layout (R326, R330). -/
def trcField (c : Cfg) (t : Nat) : List Chk :=
  let e := trcEnt t
  let o := 16 + 32 * t
  let a := trcA t
  let cond := c.trcCond t
  let link := c.fF (a + 12) 4 3
  let dv := c.fF (a + 8) 0 16
  let trig := c.fF (a + 4) 0 8
  [ck e (o + 1) (a + 12) 0xA00A (decide (5 < cond)), ck e (o + 2) (a + 12) 0xA001 (cond != 4 && link != 0), ck e (o + 2) (a + 12) 0xA048 (cond == 4 && link == t),
   ck e (o + 4) a 0xA00A (c.fF a 0 8 == 0 || decide (12 < c.fF a 0 8)),
   ck e (o + 8) (a + 4) 0xA00A (decide (12 < trig)), ck e (o + 8) (a + 4) 0xA001 (!(decide (1 ≤ cond) && decide (cond ≤ 3)) && trig != 0),
   ck e (o + 12) (a + 8) 0xA048 (outN dv 1 60000 || 60000 % max 1 dv != 0), ck e (o + 20) (a + 20) 0xA048 (decide (sword (c.f (a + 20)) < 0)),
   ck e (o + 24) (a + 12) 0xA048 (cond == 5 && c.fF (a + 12) 16 16 == 0)]

/-- Whether following LINK from `t` returns to `t` (R323). -/
def linkLoop (c : Cfg) (t : Nat) : Nat → Nat → Bool
  | 0, _ => false
  | n + 1, x => if c.trcCond x = 4 then (let y := c.fF (trcA x + 12) 4 3; y == t || linkLoop c t n y) else false

def trcRefs (c : Cfg) (t : Nat) : List Chk :=
  let e := trcEnt t
  let o := 16 + 32 * t
  let a := trcA t
  srcRefs c 10 e (o + 4) a ++ srcRefs c 10 e (o + 8) (a + 4) ++ [ck e (o + 2) (a + 12) 0xA00B (linkLoop c t 8 t)]

/-- Phase 3 on cells, columns and control. -/
def ctlField (c : Cfg) (image : Bool) (typ inst : Nat) : List Chk :=
  let blocks : Nat → Nat → Nat → Nat → (Nat → Nat → List Chk) → List Chk := fun size lo hi code g =>
    match c.img.sect typ 0 with
    | some b => ((List.range (leAt b 0 2)).map (fun i =>
        let u := leAt b (16 + size * i) 1
        if outN u lo hi then [ck { typ := typ, inst := 0, part := 1, idx := i } (16 + size * i) 0 code true] else g i u)).flatten
    | none => []
  match typ with
  | 0x501 => blocks 528 32 63 0x5001 (ucurveField c)
  | 0x600 => if c.cellEn inst then cellField c inst else []
  | 0x601 => blocks 64 32 63 0x6001 (grainField c)
  | 0xA00 => perEnt c.fx.nLoops c.loopEn (loopField c image)
  | 0xA01 => perEnt c.fx.nGens c.genEn (genField c)
  | 0xA02 => perEnt c.fx.nOvr c.ovrEn (ovrField c)
  | 0xA03 => perEnt 8 (fun t => c.bF (trcA t + 12) 3) (trcField c)
  | 0xB00 => if c.colEn inst then columnField c inst else []
  | 0xB01 => blocks 1136 0 7 0xB001 (dryField c)
  | _ => []

/-- Phase 4: a NUMBER or INDEX that appears twice, then the references. -/
def ctlRefs (c : Cfg) (image : Bool) (off typ inst : Nat) : List Chk :=
  let twice : Nat → Nat → List Chk := fun size code =>
    match c.img.sect typ 0 with
    | some b =>
      let ns := (List.range (leAt b 0 2)).map (fun i => leAt b (16 + size * i) 1)
      (List.range ns.length).map (fun i =>
        ck { typ := typ, inst := 0, part := 1, idx := i } (16 + size * i) 0 code ((ns.take i).contains (nth 0 ns i)))
    | none => []
  match typ with
  | 0x501 => twice 528 0x5008
  | 0x600 => if c.cellEn inst then cellRefs c inst else []
  | 0x601 => twice 64 0x6008
  | 0xA00 => perEnt c.fx.nLoops c.loopEn (loopRefs c image)
  | 0xA01 => perEnt c.fx.nGens c.genEn (genRefs c)
  | 0xA02 => perEnt c.fx.nOvr c.ovrEn (ovrRefs c image off)
  | 0xA03 => perEnt 8 (fun t => c.bF (trcA t + 12) 3) (trcRefs c)
  | 0xB00 => if c.colEn inst then columnRefs c inst else []
  | 0xB01 => twice 1136 0xB008
  | _ => []

end Sys2Proof.Machine
end

