-- ==== Sys2Proof/Machine/SageUnits.lean ====
section
/-! DEFINITION. Sage on units and Drafts (R332 to R339, R344, R345, R353, R355, R356). -/

namespace Sys2Proof.Machine

open Sys2Proof

def unitEnt (u : Nat) : Ent := { typ := 0xC00, inst := 0, part := 1, idx := u }
def memEnt (k : Nat) : Ent := { typ := 0xC00, inst := 0, part := 2, idx := k }
def draftEnt (n part k : Nat) : Ent := { typ := 0xC01, inst := n, part := part, idx := k }

/-- The number of member entries the unit section holds (R355). -/
def Image.members (i : Image) : Nat := match i.sect 0xC00 0 with | some b => leAt b 2 2 | none => 0

/-- The field checks of the condition whose words begin at `a` (R334). -/
def condField (c : Cfg) (e : Ent) (o a : Nat) (stepTime : Bool) : List Chk :=
  let op := c.fF a 0 8
  let i := c.fF a 16 16
  let rf := c.f (a + 4)
  let v := (c.f (a + 8)).toNat
  let cmp := op == 7 || op == 8
  [ck e o a 0xC00A (decide (11 < op)), ck e o a 0xC043 (op == 9 && !stepTime),
   ck e (o + 2) a 0xC001 ((decide (op ≤ 1) || cmp || op == 9) && i != 0),
   ck e (o + 4) (a + 4) (if cmp then 0xC00A else 0xC001) (if cmp then decide (8 < (refOf rf).1) else rf != 0),
   ck e (o + 8) (a + 8) 0xC001 (match op with
     | 4 => decide (31 < v)
     | 7 => false
     | 8 => false
     | 9 => v % 10 != 0
     | 10 => decide (255 < v)
     | _ => v != 0)]

/-- What a condition names (R334). -/
def condRefs (c : Cfg) (e : Ent) (o a : Nat) : List Chk :=
  let i := c.fF a 16 16
  match c.fF a 0 8 with
  | 2 => ckObj e (o + 2) a 8 12 64 64 i (c.dioEn i) (dioEnt i) ++ [ck e (o + 2) a 0xC00E (decide (i < 64) && c.dioEn i && c.dioMode i != 1)]
  | 3 => ckObj e (o + 2) a 5 12 512 512 i (c.swEn i) (swEnt i)
  | 4 => ckObj e (o + 2) a 12 12 c.fx.nUnits anyDie i (c.unitEn i) (unitEnt i)
  | 5 => ckObj e (o + 2) a 12 12 c.fx.nUnits anyDie i (c.unitEn i) (unitEnt i)
  | 6 => ckObj e (o + 2) a 12 12 c.fx.nUnits anyDie i (c.unitEn i) (unitEnt i)
  | 7 => srcRefs c 12 e (o + 4) (a + 4)
  | 8 => srcRefs c 12 e (o + 4) (a + 4)
  | 10 => ckObj e (o + 2) a 12 12 c.fx.nDrafts 4 i (c.draftEn i) (draftEnt i 0 0)
  | 11 => [ck e (o + 2) a 0xC004 (decide (31 < i))]
  | _ => []

/-- The field checks of an enabled unit (R332, R333, R337 to R339, R355). -/
def unitField (c : Cfg) (image : Bool) (u : Nat) : List Chk :=
  let e := unitEnt u
  let o := 16 + 80 * u
  let kind := c.unitKind u
  let grp := kind == 6
  let cmdr := c.unitCmdr u
  let none1 := c.unitOut1 u == 0xFFFF
  let none2 := c.unitOut2 u == 0xFFFF
  let sw := c.fF (unitA u 2) 16 16
  let tw := c.fF (unitA u 3) 0 16
  let windowed := !grp && kind != 2
  let op : Nat → Nat := fun j => c.fF (unitA u j) 0 8
  let n := c.memCount u
  let top := if image then c.img.members else 1024
  let duty := c.grpPolicy u == 2
  [ck e (o + 1) (unitA u 0) 0xC00A (outN kind 1 6), ck e (o + 2) (unitA u 0) 0xC00A (decide (2 < cmdr)),
   ck e (o + 4) (unitA u 1) 0xC001 (cmdr == 0 && c.unitCmdrIdx u != 0),
   ck e (o + 6) (unitA u 1) 0xC042 (if grp then !none1 else none1), ck e (o + 8) (unitA u 2) 0xC042 (grp && !none2),
   ck e (o + 8) (unitA u 2) 0xC001 (!grp && kind != 3 && !none2),
   ck e (o + 10) (unitA u 2) 0xC042 (windowed && sw == 0 && op 4 != 0), ck e (o + 12) (unitA u 3) 0xC042 (windowed && tw == 0 && op 7 != 0)] ++
  (if grp then
     [ck e (o + 16) (unitA u 4) 0xC00A (decide (2 < c.grpPolicy u)), ck e (o + 17) (unitA u 4) 0xC044 (duty && outN (c.grpNeed u) 1 n),
      ck e (o + 18) (unitA u 4) 0xC044 (duty && outN (c.grpMinProof u) 1 (c.grpNeed u)),
      ck e (o + 20) (unitA u 5) 0xC044 (decide (top < c.memFirst u + n)), ck e (o + 22) (unitA u 5) 0xC044 (outN n 1 64),
      ck e (o + 28) (unitA u 7) 0xC042 (op 7 != 0), ck e (o + 52) (unitA u 13) 0xC042 (op 13 != 0), ck e (o + 64) (unitA u 16) 0xC042 (op 16 != 0)] ++
     condField c e (o + 40) (unitA u 10) false
   else
     ([4, 7, 10, 13, 16].map (fun j => condField c e (o + 4 * j) (unitA u j) false)).flatten)

/-- The enabled groups. -/
def Cfg.groups (c : Cfg) : List Nat := (List.range c.fx.nUnits).filter (fun g => c.unitEn g && c.unitKind g == 6)

/-- The units below a list of groups, `n` levels down. -/
def below (c : Cfg) : Nat → List Nat → List Nat
  | 0, l => l
  | n + 1, l => l ++ below c n ((l.filter (fun u => c.unitKind u == 6)).map c.memUnits).flatten.eraseDups

/-- Whether a group lies below itself (R339). -/
def groupCycle (c : Cfg) (g : Nat) : Bool := (below c c.groups.length (c.memUnits g)).contains g

/-- An output of a unit (R333). A loop may set the demand of the mover channel that a FAN unit starts and stops (R396, R406), so the
rule against two owners is held between two FAN units there. -/
def outRefs (c : Cfg) (image : Bool) (u : Nat) (e : Ent) (o a k : Nat) : List Chk :=
  let others := (othersOf image u c.fx.nUnits).filter c.unitEn
  let fan : Nat → Bool := fun v => c.unitKind v == 2
  if k = 0xFFFF then []
  else if fan u then
    (if k < 32 then
       [cr e o a 0xC003 (!c.movEn k) (movEnt k), ck e o a 0xC00E (c.movPlain k), ck e o a 0xC008 (others.any (fun v => fan v && c.unitOut1 v == k))]
     else [ck e o a 0xC004 true])
  else if k < 64 then
    [cr e o a 0xC003 (!c.dioEn k) (dioEnt k), ck e o a 0xC00E (c.dioMode k != 3),
     ck e o a 0xC008 (others.any (fun v => !fan v && (c.unitOut1 v == k || c.unitOut2 v == k)) ||
       c.loopsOn.any (fun l => c.loopRef l 7 == (2, k)) || (List.range c.fx.nOvr).any (fun g => c.ovrEn g && c.groupDest g == (2, k)))]
  else [ck e o a 0xC004 true]

/-- The references of an enabled unit (R333, R334, R337, R339). -/
def unitRefs (c : Cfg) (image : Bool) (u : Nat) : List Chk :=
  let e := unitEnt u
  let o := 16 + 80 * u
  let kind := c.unitKind u
  let cmdr := c.unitCmdr u
  let x := c.unitCmdrIdx u
  let ms := c.memUnits u
  let owner : List Chk :=
    [ck e (o + 2) (unitA u 0) 0xC041 (cmdr == 2 && decide (x < c.fx.nUnits) && !(c.unitKind x == 6 && (c.memUnits x).contains u)),
     if cmdr = 1 then ckNum e (o + 4) (unitA u 1) 12 12 c.fx.nDrafts 4 x
     else if cmdr = 2 then ckNum e (o + 4) (unitA u 1) 12 12 c.fx.nUnits anyDie x else ck e (o + 4) (unitA u 1) 0xC004 false]
  if kind = 6 then
    let twice := hasDup ms || ((othersOf image u c.fx.nUnits).filter (fun g => c.unitEn g && c.unitKind g == 6)).any (fun g => (c.memUnits g).any ms.contains)
    owner ++ [ck e (o + 1) (unitA u 0) 0xC00B (groupCycle c u), ck e (o + 20) (unitA u 5) 0xC008 twice] ++
    ((List.range (min 64 ms.length)).map (fun k =>
      let m := nth 0 ms k
      [ckNum e (o + 20) (unitA u 5) 12 12 c.fx.nUnits anyDie m] ++
      (if m < c.fx.nUnits then
        [cr e (o + 20) (unitA u 5) 0xC003 (!c.unitEn m) (unitEnt m),
         ck e (o + 20) (unitA u 5) 0xC041 (c.unitCmdr m != 2 || c.unitCmdrIdx m != u),
         ck e (o + 20) (unitA u 5) 0xC044 ((c.grpPolicy u == 2 && (c.memDelay u k != 0 || c.memRunout u k != 0)) || (c.unitMaySleep u && !c.unitMaySleep m))]
       else []))).flatten ++
    condRefs c e (o + 40) (unitA u 10)
  else
    owner ++ outRefs c image u e (o + 6) (unitA u 1) (c.unitOut1 u) ++ outRefs c image u e (o + 8) (unitA u 2) (c.unitOut2 u) ++
    ([4, 7, 10, 13, 16].map (fun j => condRefs c e (o + 4 * j) (unitA u j))).flatten

/-- The sizes of a Draft's tables (R356). -/
def Cfg.draftSteps (c : Cfg) (n : Nat) : Nat := min 256 (c.fF (draftA n 0) 16 16)
def Cfg.draftActs (c : Cfg) (n : Nat) : Nat := min 1024 (c.fF (draftA n 4) 0 16)
def Cfg.draftTrs (c : Cfg) (n : Nat) : Nat := min 1024 (c.fF (draftA n 4) 16 16)

/-- Section offsets of a Draft's action `k` and transition `k`. -/
def Cfg.actOff (c : Cfg) (n k : Nat) : Nat := 32 + 16 * c.draftSteps n + 12 * k
def Cfg.trOff (c : Cfg) (n k : Nat) : Nat := c.actOff n (c.draftActs n) + 28 * k

/-- The field checks of a Draft action (R345). -/
def actField (c : Cfg) (n k : Nat) : List Chk :=
  let e := draftEnt n 2 k
  let o := c.actOff n k
  let a := draftA n (0x1020 + 12 * k)
  let op := c.fF a 0 8
  let v := (c.f (a + 4)).toNat
  let sourced := op == 4 || op == 6 || op == 7 || op == 9
  [ck e o a 0xC00A (decide (12 < op)), ck e (o + 2) a 0xC001 ((op == 0 || op == 12) && c.fF a 16 16 != 0),
   ck e (o + 4) (a + 4) 0xC001 (decide (op ≤ 3) && v != 0),
   ck e (o + 4) (a + 4) 0xC00A ((op == 5 && decide (2 < v)) || ((op == 8 || op == 11) && decide (1 < v)) || (op == 10 && outN v 1 3)),
   ck e (o + 8) (a + 8) (if sourced then 0xC00A else 0xC001) (if sourced then decide (8 < (refOf (c.f (a + 8))).1) else c.f (a + 8) != 0)]

def actRefs (c : Cfg) (n k : Nat) : List Chk :=
  let e := draftEnt n 2 k
  let o := c.actOff n k
  let a := draftA n (0x1020 + 12 * k)
  let op := c.fF a 0 8
  let i := c.fF a 16 16
  let what : List Chk :=
    if 1 ≤ op ∧ op ≤ 3 then
      ckObj e (o + 2) a 12 12 c.fx.nUnits anyDie i (c.unitEn i) (unitEnt i) ++ [ck e (o + 2) a 0xC041 (decide (i < c.fx.nUnits) && op != 3 && !(c.unitCmdr i == 1 && c.unitCmdrIdx i == n))]
    else if 4 ≤ op ∧ op ≤ 6 then ckObj e (o + 2) a 10 12 c.fx.nLoops anyDie i (c.loopEn i) (loopEnt i)
    else if op = 7 ∨ op = 8 then ckObj e (o + 2) a 10 12 c.fx.nGens anyDie i (c.genEn i) (genEnt i)
    else if op = 9 then ckObj e (o + 2) a 5 12 512 512 i (c.swEn i) (swEnt i)
    else if op = 10 then (if c.fx.nCols = 0 then [ck e (o + 2) a 0xB002 true] else ckObj e (o + 2) a 11 12 c.fx.nCols 2 i (c.colEn i) (colEnt i))
    else if op = 11 then [ck e (o + 2) a 0xC004 (decide (31 < i))]
    else []
  what ++ (if op = 4 ∨ op = 6 ∨ op = 7 ∨ op = 9 then srcRefs c 12 e (o + 8) (a + 8) else [])

/-- The field checks of an enabled Draft (R344, R356). -/
def draftField (c : Cfg) (n : Nat) : List Chk :=
  let step : Nat → List Chk := fun s =>
    let e := draftEnt n 1 s
    let o := 32 + 16 * s
    [ck e (o + 2) (stepA n s 0) 0xC009 (decide (c.draftActs n < c.stepActFirst n s + c.stepActs n s)),
     ck e (o + 4) (stepA n s 4) 0xC001 (decide (32 < c.stepActs n s)), ck e (o + 5) (stepA n s 4) 0xC001 (decide (16 < c.stepTrs n s)),
     ck e (o + 6) (stepA n s 4) 0xC009 (decide (c.draftTrs n < c.stepTrFirst n s + c.stepTrs n s)),
     ck e (o + 8) (stepA n s 8) 0xC001 (c.stepTimeout n s % 10 != 0), ck e (o + 12) (stepA n s 12) 0xC001 (decide (2 < c.stepToSev n s))]
  let tr : Nat → List Chk := fun k =>
    let e := draftEnt n 3 k
    let a := draftA n (0x4020 + 28 * k)
    condField c e (c.trOff n k) a true ++ condField c e (c.trOff n k + 12) (a + 12) true
  condField c (draftEnt n 0 0) 8 (draftA n 8) false ++ ((List.range (c.draftSteps n)).map step).flatten ++
  ((List.range (c.draftActs n)).map (actField c n)).flatten ++ ((List.range (c.draftTrs n)).map tr).flatten

/-- The references of an enabled Draft. -/
def draftRefs (c : Cfg) (n : Nat) : List Chk :=
  let top := c.draftSteps n
  let step : Nat → List Chk := fun s => [ck (draftEnt n 1 s) (32 + 16 * s + 1) (stepA n s 0) 0xC004 (decide (top ≤ c.stepTo n s))]
  let tr : Nat → List Chk := fun k =>
    let e := draftEnt n 3 k
    let a := draftA n (0x4020 + 28 * k)
    let o := c.trOff n k
    condRefs c e o a ++ condRefs c e (o + 12) (a + 12) ++ [ck e (o + 24) (a + 24) 0xC004 (decide (top ≤ c.fF (a + 24) 0 8))]
  [ck (draftEnt n 0 0) 1 (draftA n 0) 0xC004 (decide (top ≤ c.draftAbortStep n))] ++ condRefs c (draftEnt n 0 0) 8 (draftA n 8) ++
  ((List.range top).map step).flatten ++ ((List.range (c.draftActs n)).map (actRefs c n)).flatten ++ ((List.range (c.draftTrs n)).map tr).flatten

/-- The worst-case cost of a pass in µs (R353). -/
def Cfg.passCost (c : Cfg) : Nat :=
  let units := (List.range c.fx.nUnits).filter c.unitEn
  let drafts := (List.range c.fx.nDrafts).filter c.draftEn
  let unit : Nat → Nat := fun u => if c.unitKind u = 6 then 30 + 6 * c.memCount u else 24
  let draft : Nat → Nat := fun n => 40 + (List.range (c.draftSteps n)).foldl (fun m s => max m (12 * c.stepActs n s + 20 * c.stepTrs n s)) 0
  100 + (units.map unit).sum + (drafts.map draft).sum

/-- The pass budget (R353): 0xC006 at the unit section. -/
def passBudget (c : Cfg) : List Chk := [ck { typ := 0xC00, inst := 0, part := 0, idx := 0 } 0 (unitA 0 0) 0xC006 (decide (8000 < c.passCost))]

/-- The conditions of the enabled units and Drafts, by address. -/
def Cfg.conds (c : Cfg) : List Nat :=
  (((List.range c.fx.nUnits).filter c.unitEn).map (fun u => (if c.unitKind u = 6 then [10] else [4, 7, 10, 13, 16]).map (unitA u))).flatten ++
  (((List.range c.fx.nDrafts).filter c.draftEn).map (fun n =>
    draftA n 8 :: ((List.range (c.draftTrs n)).map (fun k => [draftA n (0x4020 + 28 * k), draftA n (0x402C + 28 * k)])).flatten)).flatten

/-- Whether a unit, loop, group, condition or counter source names DIO channel `k` (R368). -/
def Cfg.dioNamed (c : Cfg) (k : Nat) : Bool :=
  ((List.range c.fx.nUnits).any (fun u => c.unitEn u && c.unitKind u != 2 && (c.unitOut1 u == k || c.unitOut2 u == k))) ||
  c.loopsOn.any (fun n => c.loopRef n 7 == (2, k) || (List.range 4).any (fun j => c.loopRef n (3 + j) == (8, k)) ||
    (c.fF (loopA n + 4) 16 8 == 2 && c.fF (loopA n + 8) 0 16 == k)) ||
  ((List.range c.fx.nOvr).any (fun g => c.ovrEn g && c.groupDest g == (2, k))) ||
  c.conds.any (fun a => let op := c.fF a 0 8
    (op == 2 && c.fF a 16 16 == k) || ((op == 7 || op == 8) && refOf (c.f (a + 4)) == (8, k)))

end Sys2Proof.Machine
end

