-- ==== Sys2Proof/Machine/SageField.lean ====
section
/-! DEFINITION. Sage on digital groups, mover channels and tables, guard terms and safe states (R145, R367, R368, R380, R388, R396 to R398,
R403, R411, R412, R417 to R419, R426, R442, R443). -/

namespace Sys2Proof.Machine

open Sys2Proof

def grpEnt (g : Nat) : Ent := if g < 4 then { typ := 0x800, inst := g, part := 0, idx := 0 } else { typ := 0x900, inst := 0, part := 0, idx := g - 4 }
def termEnt (n : Nat) : Ent := { typ := 0xD00, inst := 0, part := 1, idx := n }

/-- WD_MS of a field group (R380). -/
def Cfg.wdMs (c : Cfg) (g : Nat) : Nat := c.fF (grpA g) 8 7

/-- The field check of an enabled group (R380, R388, R411). -/
def groupField (c : Cfg) (g : Nat) : List Chk :=
  let o := if g < 4 then 1 else 1 + 2 * (g - 4)
  let sub := if g < 4 then 0x8000 else 0x9000
  [ck (grpEnt g) o (grpA g) (sub + 1) (outN (c.wdMs g) 2 64),
   ck (grpEnt g) o (grpA g) (if g < 4 then 0x8042 else 0x9045) (c.img.pairOn && decide (c.wdMs g < 6))]

/-- The field checks of an enabled digital channel (R368). -/
def dioField (c : Cfg) (k : Nat) : List Chk :=
  let e := dioEnt k
  let o := 16 + 16 * (k % 16)
  let a := dioA k 0
  let m := c.fF a 8 8
  let counter := m == 2
  let brk := c.bF a 2
  [ck e o a 0x8040 (c.dioGuard k && (m != 1 || c.dioDeb k != 0)), ck e o a 0x8040 (brk && ((m != 1 && m != 2) || !c.bF a 5)),
   ck e o a 0x8040 (c.dioOpenChk k && decide (m ≤ 2)), ck e o a 0x8041 (c.dioPar k && (k % 2 == 1 || (m != 3 && m != 4))),
   ck e (o + 1) a 0x800A (decide (4 < m)), ck e (o + 3) a 0x8040 (c.dioWake k != 0 && m != 1),
   ck e (o + 4) (dioA k 1) 0x8001 (if counter then outN (c.dioWin k) 10 2000 else c.dioWin k != 0),
   ck e (o + 8) (dioA k 2) 0x8001 (if counter then decide (c.dioRGain k ≤ 0) else c.dioRGain k != 0)]

/-- The parallel-pair rules that involve the other channel (R368). -/
def dioRefs (c : Cfg) (k : Nat) : List Chk :=
  let o := 16 + 16 * (k % 16)
  let used := (List.range 3).any (fun j => c.f (dioA (k + 1) j) != 0)
  [ck (dioEnt k) o (dioA k 0) 0x8041 (c.dioPar k && k % 2 == 0 && (used || c.dioNamed (k + 1)))]

/-- The field checks of an enabled mover channel (R396 to R398, R411, R587). -/
def movField (c : Cfg) (n : Nat) : List Chk :=
  let e := movEnt n
  let o := 16 + 64 * n
  let a : Nat → Nat := movA n
  let plain := c.movPlain n
  let kind := c.movKind n
  let evid := c.fF (a 9) 0 8
  let rng : Nat → Nat → Nat → Nat → Nat → Chk := fun off j x lo hi =>
    ck e (o + off) (a j) (if plain then 0x9041 else 0x9001) (if plain then x != 0 else outN x lo hi)
  let minRpm := c.movMinRpm n
  [ck e o (a 0) 0x900A (c.movDem n == 3), ck e (o + 1) (a 0) 0x900A (kind == 0 || c.movNe43 n == 3), ck e (o + 1) (a 0) 0x9041 (c.movNe43 n != 0 && kind != 3),
   ck e (o + 2) (a 0) 0x9001 (decide (15 < c.movTable n) && c.movTable n != 255), ck e (o + 2) (a 0) 0x9041 (c.movDem n == 2 && c.movTable n == 255),
   ck e (o + 4) (a 1) 0x9001 (outI (sword (c.f (a 1))) 0 6553600 || decide (sword (c.f (a 2)) ≤ sword (c.f (a 1)))),
   ck e (o + 8) (a 2) 0x9001 (outI (sword (c.f (a 2))) 0 6553600),
   ck e (o + 12) (a 3) (if plain then 0x9041 else 0x9001) (if plain then c.movMinDuty n != 0 else outI (c.movMinDuty n) 0 6553600),
   ck e (o + 16) (a 4) (if plain then 0x9041 else 0x9001) (if plain then minRpm != 0 else decide (minRpm ≤ 0)),
   rng 20 5 (c.movPpr n) 1 16, rng 21 5 (c.movRetries n) 0 7, rng 22 5 (c.movSpinup n) 1 60, rng 24 6 (c.movPause n) 1 600,
   rng 26 6 (c.movTachWin n) 100 1000, rng 28 7 (c.movTachTo n) 100 5000, rng 30 7 (c.movLowMs n) 100 10000, rng 32 8 (c.movCoast n) 1 600,
   ck e (o + 36) (a 9) (if plain then 0x9041 else 0x900A) (if plain then evid != 0 else decide (2 < evid)),
   ck e (o + 38) (a 9) (if plain then 0x9041 else 0x9001) (evid != 2 && c.fF (a 9) 16 16 != 0),
   ck e (o + 40) (a 10) (if plain then 0x9041 else if evid = 1 then 0x900A else 0x9001)
     (if evid = 1 ∧ ¬ plain then decide (8 < (refOf (c.f (a 10))).1) else c.f (a 10) != 0),
   ck e (o + 44) (a 11) (if plain then 0x9041 else 0x9001) ((plain || evid != 1) && c.f (a 11) != 0)]

/-- The references of an enabled mover channel (R396, R406, R411). -/
def movRefs (c : Cfg) (n : Nat) : List Chk :=
  let e := movEnt n
  let o := 16 + 64 * n
  let a : Nat → Nat := movA n
  let fan := (List.range c.fx.nUnits).any (fun u => c.unitKind u == 2 && c.unitOut1 u == n)
  let named := (List.range c.fx.nUnits).any (fun u => c.unitEn u && c.unitKind u == 2 && c.unitOut1 u == n)
  let driven := c.loopsOn.any (fun l => c.loopRef l 7 == (1, n)) || (List.range c.fx.nOvr).any (fun g => c.ovrEn g && c.groupDest g == (1, n))
  let t := c.movTable n
  let evid := c.fF (a 9) 0 8
  let ch := c.fF (a 9) 16 16
  [ck e o (a 0) 0x9041 (if c.movPlain n then named else !fan), ck e o (a 0) 0x9041 (c.movDem n == 1 && !driven),
   ck e (o + 2) (a 0) 0x9004 (t != 255 && (decide (15 < t) || c.fF (tabA t 0) 8 8 == 0))] ++
  (if evid = 2 then
     (if ch < 64 then [cr e (o + 38) (a 9) 0x9003 (!c.dioEn ch) (dioEnt ch), ck e (o + 38) (a 9) 0x900E (c.dioMode ch != 1)]
      else [ck e (o + 38) (a 9) 0x9004 true])
   else if evid = 1 then srcRefs c 9 e (o + 40) (a 10) else [])

/-- A temperature-to-duty table (R403, R412): entry `i` of its section holds table `t`. -/
def tabEnt (i : Nat) : Ent := { typ := 0x901, inst := 0, part := 1, idx := i }

def tabField (c : Cfg) (i t : Nat) : List Chk :=
  let e := tabEnt i
  let o := 16 + 96 * i
  let n := c.fF (tabA t 0) 8 8
  let w : Nat → Int := fun j => sword (c.f (tabA t j))
  let xs := (List.range (min 8 n)).map (fun k => w (8 + 2 * k))
  let rec falls : List Int → Bool
    | a :: b :: r => decide (b ≤ a) || falls (b :: r)
    | _ => false
  [ck e (o + 1) (tabA t 0) 0x9042 (outN n 2 8), ck e (o + 4) (tabA t 1) 0x9001 ((refOf (c.f (tabA t 1))).1 == 0)] ++
  srcField c 9 e (o + 4) (tabA t 1) 8 ++ srcField c 9 e (o + 8) (tabA t 2) 8 ++
  [ck e (o + 12) (tabA t 3) 0x9042 (decide (w 3 ≤ w 4)), ck e (o + 20) (tabA t 5) 0x9042 (decide (w 5 < 0)), ck e (o + 32) (tabA t 8) 0x9042 (falls xs)] ++
  (List.range 8).map (fun k => if k < n then ck e (o + 36 + 8 * k) (tabA t (9 + 2 * k)) 0x9042 (outI (w (9 + 2 * k)) 0 6553600)
    else ck e (o + 32 + 8 * k) (tabA t (8 + 2 * k)) 0x9007 (c.f (tabA t (8 + 2 * k)) != 0 || c.f (tabA t (9 + 2 * k)) != 0))

def tabRefs (c : Cfg) (i t : Nat) : List Chk :=
  let o := 16 + 96 * i
  srcRefs c 9 (tabEnt i) (o + 4) (tabA t 1) ++ srcRefs c 9 (tabEnt i) (o + 8) (tabA t 2)

/-- The field checks of an enabled guard term (R419, R442). -/
def termField (c : Cfg) (n : Nat) : List Chk :=
  let e := termEnt n
  let o := 16 + 32 * n
  let a : Nat → Nat := termA n
  let k := c.termNsrc n
  let lg := c.termLogic n
  let src : Nat → List Chk := fun i =>
    let s := c.termSrc n i
    let x := o + 4 + 2 * i
    let w := a (1 + i / 2)
    if i < k then [ck e x w 0xD007 (decide (0 < s / 1024 % 8)), ck e x w 0xD041 (!s.testBit 15 && (s.testBit 13 || s.testBit 14))]
    else [ck e x w 0xD007 (s != 0)]
  [ck e o (a 0) 0xD00A (lg == 3), ck e (o + 1) (a 0) 0xD001 (outN k 1 4 || (lg == 2 && k != 3)),
   ck e (o + 2) (a 0) 0xD001 (if c.termLatch n then c.termRelMs n != 0 else outN (c.termRelMs n) 100 60000)] ++
  ((List.range 4).map src).flatten ++
  [ck e (o + 12) (a 3) 0xD040 (c.f (a 3) == 0 && c.f (a 4) == 0 && c.f (a 5) == 0)]

/-- The references of an enabled guard term (R442). -/
def termRefs (c : Cfg) (n : Nat) : List Chk :=
  let e := termEnt n
  let o := 16 + 32 * n
  let a : Nat → Nat := termA n
  let src : Nat → List Chk := fun i =>
    let s := c.termSrc n i
    let x := o + 4 + 2 * i
    let w := a (1 + i / 2)
    let j := s % 1024
    if s.testBit 15 then
      (if j < 64 then [cr e x w 0xD003 (!c.dioEn j) (dioEnt j), ck e x w 0xD041 (c.dioMode j != 1 || !c.dioGuard j)] else [ck e x w 0xD004 true])
    else
      (if j < 512 then [cr e x w 0xD003 (!c.swEn j) (swEnt j), ck e x w 0xD041 (!c.bF (swA j 0) 1)] else [ck e x w 0xD004 true])
  let dio : Nat → List Chk := fun k =>
    let x := o + 12 + k / 8
    let w := a (3 + k / 32)
    if c.pairOdd k then [ck e x w 0xD040 true]
    else [cr e x w 0xD003 (!c.dioEn k) (dioEnt k), ck e x w 0xD040 (c.dioMode k != 3 && c.dioMode k != 4)]
  ((List.range (min 4 (c.termNsrc n))).map src).flatten ++
  (((List.range 64).filter (c.termDo n)).map dio).flatten ++
  ((List.range 32).filter (c.termMv n)).map (fun m => cr e (o + 20 + m / 8) (a 5) 0xD003 (!c.movEn m) (movEnt m))

/-- A guard descriptor needs a guard switch that an enabled term uses (R145, R442). -/
def guardUse (c : Cfg) (k : Nat) : List Chk :=
  let used := (List.range 512).any (fun s => c.swEn s && c.swChan s == k && c.bF (swA s 0) 1 &&
    (List.range c.fx.nTerms).any (fun t => c.termEn t && (List.range (min 4 (c.termNsrc t))).any (fun i => c.termSrc t i == s)))
  [ck (descEnt k) (0x20 + 32 * (k % 64)) (descA k 0) 0xD003 (c.descGuard k && !used)]

/-- The safe-state table (R426, R443). -/
def safeField (c : Cfg) : List Chk :=
  (List.range 32).map (fun n =>
    ck { typ := 0xD01, inst := 0, part := 2, idx := n } (0x54 + 8 * n) (0x50A44 + 8 * n) 0xD001 (outI (c.safeFixed n) 0 6553600)) ++
  (List.range 32).map (fun n =>
    ck { typ := 0xD01, inst := 0, part := 2, idx := n } (0x50 + 8 * n) (0x50A40 + 8 * n) 0xD00A (decide (3 < c.safeKind n) || decide (1 < c.tripKind n)))

def safeRefs (c : Cfg) : List Chk :=
  let heat : Nat → Bool := fun k => (List.range c.fx.nUnits).any (fun u => c.unitEn u && c.unitKind u == 4 && (c.unitOut1 u == k || c.unitOut2 u == k))
  (List.range 64).map (fun k =>
    ck { typ := 0xD01, inst := 0, part := 1, idx := k } (0x10 + k) (0x50A00 + 4 * (k / 4)) 0xD042 (c.safeOn k && (c.dioMode k != 3 || heat k))) ++
  (List.range 32).map (fun n =>
    ck { typ := 0xD01, inst := 0, part := 2, idx := n } (0x50 + 8 * n) (0x50A40 + 8 * n) 0xD042
      ((c.safeKind n == 3 || c.tripKind n == 1) && !(c.movKind n == 3 && c.movNe43 n != 0)))

/-- HEALTHY_SEV (R442, R444). -/
def hcfgField (c : Cfg) : List Chk :=
  [ck { typ := 0xD00, inst := 0, part := 0, idx := 0 } 2 0x5001C 0xD00A (outN (c.healthySev) 2 4)]

/-- The tables of the table section: position and number. -/
def Image.dutyTables (i : Image) : List (Nat × Nat) :=
  match i.sect 0x901 0 with
  | some b => (List.range (leAt b 0 2)).map (fun k => (k, leAt b (16 + 96 * k) 1))
  | none => []

/-- Phase 3 on the field side, units and the guard path. -/
def fieldField (c : Cfg) (image : Bool) (typ inst : Nat) : List Chk :=
  match typ with
  | 0x800 => (if c.grpEn inst then groupField c inst else []) ++ ((upFrom (16 * inst) 16).filter c.dioEn |>.map (dioField c)).flatten
  | 0x900 => ([4, 5].filter c.grpEn |>.map (groupField c)).flatten ++ perEnt 32 (fun n => c.bF (movA n 0) 0) (movField c)
  | 0x901 => (c.img.dutyTables.map (fun p =>
      if 15 < p.2 then [ck (tabEnt p.1) (16 + 96 * p.1) 0 0x9001 true] else tabField c p.1 p.2)).flatten
  | 0xC00 => perEnt c.fx.nUnits c.unitEn (unitField c image)
  | 0xC01 => if c.draftEn inst then draftField c inst else []
  | 0xD00 => hcfgField c ++ perEnt c.fx.nTerms c.termEn (termField c)
  | 0xD01 => safeField c
  | _ => []

/-- Phase 4. -/
def fieldRefs (c : Cfg) (image : Bool) (typ inst : Nat) : List Chk :=
  match typ with
  | 0x400 => perEnt 64 (fun j => c.descEn (64 * inst + j)) (fun j => guardUse c (64 * inst + j))
  | 0x800 => ((upFrom (16 * inst) 16).filter c.dioEn |>.map (dioRefs c)).flatten
  | 0x900 => perEnt 32 (fun n => c.bF (movA n 0) 0) (movRefs c)
  | 0x901 => (c.img.dutyTables.map (fun p =>
      ck (tabEnt p.1) (16 + 96 * p.1) 0 0x9008 (((c.img.dutyTables.take p.1).map (·.2)).contains p.2) :: tabRefs c p.1 p.2)).flatten
  | 0xC00 => perEnt c.fx.nUnits c.unitEn (unitRefs c image)
  | 0xC01 => if c.draftEn inst then draftRefs c inst else []
  | 0xD00 => perEnt c.fx.nTerms c.termEn (termRefs c)
  | 0xD01 => safeRefs c
  | _ => []

end Sys2Proof.Machine
end

