-- ==== Sys2Proof/Machine/SageLinks.lean ====
section
/-! DEFINITION. Sage on timed actions, register presets, CAN ports and frame maps, the archive, the pair and the sleeping plant (R92, R93, R104,
R456, R457, R465, R472, R474, R484, R489, R492 to R495, R501, R502, R504, R538, R539, R549, R563). -/

namespace Sys2Proof.Machine

open Sys2Proof

def actEnt (a : Nat) : Ent := { typ := 0, inst := 0, part := 1, idx := a }
def portEnt (p : Nat) : Ent := { typ := 0xE00, inst := p, part := 0, idx := 0 }
def mbxEnt (p m : Nat) : Ent := { typ := 0xE00, inst := p, part := 1, idx := m }
def filtEnt (p f : Nat) : Ent := { typ := 0xE00, inst := p, part := 2, idx := f }
def mapEnt (k : Nat) : Ent := { typ := 0xE01, inst := 0, part := 1, idx := k }

/-- A register whose flags clear where 1 is written (R44). -/
def isW1C (a : Nat) : Bool := [0x10004, 0x20010, 0x24, 0x34].contains a

/-- The port, mailbox and word of an address in a mailbox buffer (R503, R507). -/
def bufAt (a : Nat) : Option (Nat × Nat × Nat) :=
  if a < 0x300000 ∨ 0x310000 ≤ a then none
  else
    let p := (a - 0x300000) / 0x4000
    let o := (a - 0x300000) % 0x4000
    if 0x1000 ≤ o ∧ o < 0x2000 ∧ o % 0x80 < 80 then some (p, (o - 0x1000) / 0x80, o % 0x80 / 4) else none

/-- A buffer word that a host may write: DLC and the data of a host-owned transmit mailbox (R507). -/
def bufWritable (c : Cfg) (a : Nat) : Bool :=
  match bufAt a with
  | some (p, m, j) => (j == 0 || decide (4 ≤ j)) && c.mbxTx p m && !c.mbxMap p m
  | none => false

/-- Whether an address names a register with an RW, RWS or RWL field, and whether it names an operator field (R44, R104). -/
def Cfg.hasField (c : Cfg) (a : Nat) : Bool :=
  a % 4 == 0 && (isW1C a || bufWritable c a || (fieldsAt c (aliasOf a)).isSome)

def Cfg.hasOp (c : Cfg) (a : Nat) : Bool :=
  a % 4 == 0 && (isW1C a || bufWritable c a || isCommand c.fx a || (match fieldsAt c a with | some (_, _, f) => f.op != 0 | none => false))

/-- The refusal of a preset's address (R104). -/
def presetCode (c : Cfg) (a : Nat) : Nat := if isCommand c.fx a ∨ !c.hasField a then 0x1004 else 0

/-- The refusal of the address of a timed WRITE or of a received signal (R457, R494). -/
def writeCode (c : Cfg) (a : Nat) : Nat :=
  if isCommand c.fx a ∨ (0x20000 ≤ a ∧ a < 0x40000) then 0x43
  else if !c.hasField a then 0x1004
  else if !c.img.expert ∧ !c.hasOp a then 5
  else 0

/-- The checks of an enabled timed action (R456, R457, R465). -/
def timedField (c : Cfg) (a : Nat) : List Chk :=
  let e := actEnt a
  let o := 16 + 24 * a
  let w := actA a
  let k := c.actKind a
  let per := c.actPeriod a
  let flag := k == 3 || k == 4
  [ck e (o + 1) (w 0) (if k = 0 then 0x43 else 0xA) (k == 0 || decide (6 < k)),
   ck e (o + 2) (w 0) (if flag then 4 else 1) (if flag then decide (31 < c.actIndex a) else c.actIndex a != 0),
   ck e (o + 8) (w 2) 1 (if c.actCyclic a then outN per 10 2592000000 else per != 0),
   ck e (o + 12) (w 3) 1 (k != 5 && c.f (w 3) != 0), ck e (o + 16) (w 4) 1 (k != 5 && k != 6 && c.f (w 4) != 0)]

def timedRefs (c : Cfg) (a : Nat) : List Chk :=
  let x := writeCode c (c.f (actA a 3)).toNat
  [ck (actEnt a) (16 + 24 * a + 12) (actA a 3) x (c.actKind a == 5 && x != 0)]

/-- The bit times of a port in units of 12.5 ns: nominal and data (R472, R504). -/
def Cfg.nbt (c : Cfg) (p : Nat) : Nat :=
  (c.fF (canA p 4) 0 5 + 1) * (1 + (c.fF (canA p 4) 5 9 + 1) + (c.fF (canA p 4) 14 7 + 1))

def Cfg.dbt (c : Cfg) (p : Nat) : Nat :=
  (c.fF (canA p 8) 0 5 + 1) * (1 + (c.fF (canA p 8) 5 5 + 1) + (c.fF (canA p 8) 10 4 + 1))

/-- An identifier beyond its format (R474). -/
def idBad (id : Nat) (ide : Bool) : Bool := !ide && decide (0x7FF < id)

/-- The field checks of an enabled port (R472, R504). -/
def portField (c : Cfg) (p : Nat) : List Chk :=
  let e := portEnt p
  let w := canA p
  let per := c.syncPer p
  [ck e 0 (w 0) 0xE00A (c.portSync p == 3), ck e 2 (w 0) 0xE001 (outN (c.blockMs p) 10 10000),
   ck e 4 (w 4) 0xE001 (c.fF (w 4) 5 9 == 0), ck e 4 (w 4) 0xE041 (outN (c.nbt p) 80 8000 || decide (c.fF (w 4) 14 7 < c.fF (w 4) 21 7)),
   ck e 8 (w 8) 0xE041 (decide (c.dbt p < 16) || decide (c.nbt p < c.dbt p) || decide (c.fF (w 8) 10 4 < c.fF (w 8) 14 4)),
   ck e 12 (w 12) 0xE041 (c.bF (w 12) 0 && decide (1 < c.fF (w 8) 0 5)),
   ck e 16 (w 16) 0xE001 (c.portSync p != 0 && idBad (c.syncId p).1 (c.syncId p).2),
   ck e 20 (w 20) 0xE001 (outN per 100 60000 || 60000 % max 1 per != 0), ck e 22 (w 20) 0xE001 (outN (c.slewMs p) 100 60000),
   ck e 24 (w 24) 0xE001 (outN (c.f (w 24)).toNat 10 1000000),
   ck e 28 (w 28) 0xE001 (c.svcEn p && idBad (c.svcId p).1 (c.svcId p).2)]

/-- The transmit identifiers of the module outside its mailboxes (R489): port, offset of the word that holds them, identifier. -/
def Cfg.portIds (c : Cfg) (p : Nat) : List (Nat × Nat × Bool) :=
  if c.portEn p then
    (if c.portSync p = 1 then [(16, c.syncId p), (16, ((c.syncId p).1 + 1, (c.syncId p).2))] else []) ++
    (if c.svcEn p then [(28, ((c.svcId p).1 + 1, (c.svcId p).2))] else [])
  else []

/-- The transmit mailboxes of a port with their identifiers. -/
def Cfg.txIds (c : Cfg) (p : Nat) : List (Nat × Nat × Bool) :=
  if c.portEn p then ((List.range 32).filter (fun m => c.mbxEn p m && c.mbxTx p m)).map (fun m => (m, c.mbxId p m, c.mbxIde p m)) else []

/-- The ports of a port's segment. -/
def Cfg.segPorts (c : Cfg) (p : Nat) : List Nat := (List.range 4).filter (fun q => c.portSeg q == c.portSeg p)

/-- The claims of a port's own identifiers and exchange roles (R484, R489). -/
def portRefs (c : Cfg) (image : Bool) (p : Nat) : List Chk :=
  let seg := c.segPorts p
  let boxes := (seg.map (fun q => (c.txIds q).map (·.2))).flatten
  let other := ((seg.filter (fun q => if image then decide (q < p) else q != p)).map (fun q => (c.portIds q).map (·.2))).flatten
  let own := c.portIds p
  let dup : Nat → Bool := fun o =>
    (own.filter (fun x => x.1 == o)).any (fun x => boxes.contains x.2 || other.contains x.2 || (o == 28 && (own.filter (fun y => y.1 == 16)).any (fun y => y.2 == x.2)))
  let rivals : List Nat := (if image then List.range p else (List.range 4).filter (· != p)).filter c.portEn
  [ck (portEnt p) 0 (canA p 0) 0xE008 ((c.portSync p == 1 && rivals.any (fun q => c.portSync q == 1 && c.portSeg q == c.portSeg p)) ||
     (c.portSync p == 2 && rivals.any (fun q => c.portSync q == 2))),
   ck (portEnt p) 16 (canA p 16) 0xE008 (dup 16), ck (portEnt p) 28 (canA p 28) 0xE008 (dup 28)]

/-- The field checks of an enabled mailbox and of a filter (R474, R506, R508). -/
def mbxField (c : Cfg) (p m : Nat) : List Chk :=
  let e := mbxEnt p m
  let o := 0x40 + 12 * m
  let w := mbxA p m
  let tx := c.mbxTx p m
  let rtr := c.bF (w 0) 7
  let brs := c.bF (w 0) 6
  let dlc := c.mbxDlc p m
  [ck e o (w 0) 0xE043 ((rtr && c.mbxFd p m) || (brs && !c.mbxFd p m) || (!tx && (c.mbxOneshot p m || dlc != 0))),
   ck e (o + 1) (w 0) 0xE043 ((!c.mbxMap p m && dlc != 0) || (c.mbxMap p m && !c.mbxFd p m && decide (8 < dlc))),
   ck e (o + 4) (w 1) 0xE001 (idBad (c.mbxId p m) (c.mbxIde p m)), ck e (o + 8) (w 2) 0xE001 (tx && c.mbxMask p m != 0)]

def filtField (c : Cfg) (p f : Nat) : List Chk :=
  let o := 0x1C0 + 12 * f
  [ck (filtEnt p f) (o + 4) (filtA p f 1) 0xE001 (idBad (c.fF (filtA p f 1) 0 29) (c.bF (filtA p f 0) 1))]

/-- The enabled maps that name a mailbox, as primary or as alternate. -/
def Cfg.namedBy (c : Cfg) (p m : Nat) : List Nat :=
  (List.range 128).filter (fun k => c.mapEn k && ((c.mapPort k == p && c.mapMb k == m) || (c.mapAltPort k == p && c.mapAltMb k == m)))

/-- The claims of a mailbox (R474, R489). -/
def mbxRefs (c : Cfg) (image : Bool) (p m : Nat) : List Chk :=
  let e := mbxEnt p m
  let o := 0x40 + 12 * m
  let seg := c.segPorts p
  let others := (seg.map (fun q => ((c.txIds q).filter (fun x => if image then decide (32 * q + x.1 < 32 * p + m) else 32 * q + x.1 != 32 * p + m)).map (·.2))).flatten
  let fixed := (seg.map (fun q => (c.portIds q).map (·.2))).flatten
  let id := (c.mbxId p m, c.mbxIde p m)
  [ck e o (mbxA p m 0) 0xE00E (c.mbxMap p m && (c.namedBy p m).isEmpty), ck e o (mbxA p m 0) 0xE008 (c.mbxMap p m && decide (2 ≤ (c.namedBy p m).length)),
   ck e (o + 4) (mbxA p m 1) 0xE008 (c.mbxTx p m && c.portEn p && (others.contains id || (!image && fixed.contains id)))]

/-- The bits a map's mailbox carries: a receive mailbox takes frames up to the format's longest (R474, R495). -/
def Cfg.mapBits (c : Cfg) (k : Nat) : Nat :=
  let p := c.mapPort k
  let m := c.mapMb k
  8 * (if c.mapRx k then (if c.mbxFd p m then 64 else 8) else dlcLen (c.mbxFd p m) (c.mbxDlc p m))

/-- Signal `s` of a map: START and LEN. -/
def Cfg.sig (c : Cfg) (k s : Nat) : Nat × Nat := (c.fF (mapA k (16 + 16 * s)) 0 16, c.fF (mapA k (16 + 16 * s)) 16 8)

/-- The field checks of an enabled map (R492, R495, R502). -/
def mapField (c : Cfg) (k : Nat) : List Chk :=
  let e := mapEnt k
  let o := 16 + 144 * k
  let w := mapA k
  let rx := c.mapRx k
  let per := c.mapPer k
  let ns := c.mapNsig k
  let alt := c.mapAltPort k != 255
  let meet : Nat → Nat → Bool := fun i j =>
    let a := c.sig k i
    let b := c.sig k j
    decide (a.1 < b.1 + b.2) && decide (b.1 < a.1 + a.2)
  [ck e (o + 1) (w 0) 0xE004 (decide (3 < c.mapPort k)), ck e (o + 2) (w 0) 0xE004 (decide (31 < c.mapMb k)),
   ck e (o + 3) (w 0) 0xE004 (alt && decide (3 < c.mapAltPort k)),
   ck e (o + 4) (w 4) (if alt then 0xE004 else 0xE001) (if alt then decide (31 < c.mapAltMb k) else c.mapAltMb k != 0),
   ck e (o + 5) (w 4) 0xE001 (outN ns 1 8), ck e (o + 6) (w 4) 0xE001 (outN per 10 60000 || (!rx && 60000 % max 1 per != 0)),
   ck e (o + 8) (w 8) 0xE001 (if rx then c.mapPhase k != 0 else decide (per ≤ c.mapPhase k))] ++
  ((List.range (min 8 ns)).map (fun s =>
    let q := o + 16 + 16 * s
    let a := w (16 + 16 * s)
    let x := c.sig k s
    [ck e q a 0xE001 (decide (511 < x.1)), ck e q a 0xE043 ((List.range s).any (meet s)), ck e (q + 2) a 0xE001 (outN x.2 1 32),
     ck e (q + 12) (a + 12) 0xE001 (decide (63 < c.fF (a + 12) 0 8))] ++
    (if rx then [] else srcField c 14 e (q + 4) (a + 4) 8))).flatten

/-- The references of an enabled map (R474, R492, R494, R495). -/
def mapRefs (c : Cfg) (k : Nat) : List Chk :=
  let e := mapEnt k
  let o := 16 + 144 * k
  let w := mapA k
  let p := c.mapPort k
  let m := c.mapMb k
  let q := c.mapAltPort k
  let n := c.mapAltMb k
  let box : Nat → Nat → Nat → List Chk := fun off x y =>
    if x < 4 ∧ y < 32 then
      [cr e off (w 0) 0xE003 (!c.portEn x) (portEnt x), cr e off (w 0) 0xE003 (!c.mbxEn x y) (mbxEnt x y),
       ck e off (w 0) 0xE00E (!c.mbxMap x y || (off == o + 1 && c.mbxTx x y == c.mapRx k))]
    else []
  let pair : List Chk :=
    if q < 4 ∧ n < 32 then
      [ck e (o + 3) (w 0) 0xE042 (c.portSeg q == c.portSeg p),
       ck e (o + 4) (w 4) 0xE042 (c.fF (mbxA q n 0) 4 3 != c.fF (mbxA p m 0) 4 3 || c.mbxDlc q n != c.mbxDlc p m || c.mbxTx q n != c.mbxTx p m)]
    else []
  box (o + 1) p m ++ box (o + 3) q n ++ pair ++
  ((List.range (min 8 (c.mapNsig k))).map (fun s =>
    let r := o + 16 + 16 * s
    let a := w (16 + 16 * s)
    let x := c.sig k s
    ck e r a 0xE043 (decide (c.mapBits k < x.1 + x.2)) ::
    (if c.mapRx k then [ck e (r + 4) (a + 4) 0xE043 (writeCode c (c.f (a + 4)).toNat != 0)] else srcRefs c 14 e (r + 4) (a + 4)))).flatten

/-- A frame's time in units of 12.5 ns (R495). -/
def Cfg.frameTime (c : Cfg) (p : Nat) (ext fd brs : Bool) (len : Nat) : Nat :=
  if fd then
    let data := 10 * len + (if len ≤ 16 then 33 else 38)
    (if ext then 61 else 36) * c.nbt p + data * (if brs then c.dbt p else c.nbt p)
  else ((if ext then 80 else 55) + 10 * len) * c.nbt p

/-- The frame load of a port: the time its frames take in 60 s, in units of 12.5 ns (R495). -/
def Cfg.frameLoad (c : Cfg) (p : Nat) : Nat :=
  let one : Nat → Nat → Nat := fun k m =>
    c.frameTime p (c.mbxIde p m) (c.mbxFd p m) (c.bF (mbxA p m 0) 6) (dlcLen (c.mbxFd p m) (c.mbxDlc p m)) * (60000 / max 1 (c.mapPer k))
  let maps := (List.range 128).foldl (fun a k =>
    if c.mapEn k ∧ !c.mapRx k then
      a + (if c.mapPort k = p then one k (c.mapMb k) else 0) + (if c.mapAltPort k = p then one k (c.mapAltMb k) else 0)
    else a) 0
  let ide := (c.syncId p).2
  maps + (if c.portSync p = 1 then (c.frameTime p ide false false 1 + c.frameTime p ide true false 12) * (60000 / max 1 (c.syncPer p)) else 0)

def portBudget (c : Cfg) (p : Nat) : List Chk := [ck (portEnt p) 0 (canA p 0) 0xE006 (c.portEn p && decide (2400000000 < c.frameLoad p))]

/-- The archive section's bytes (R538): region, list and logged-field checks (R539). -/
def arcEnt (part k : Nat) : Ent := { typ := 0xF00, inst := 0, part := part, idx := k }

/-- Sample list `i` (R538): whether it runs, N, PERIOD_MS and its references, from the section's bytes. -/
def listOf (body : List Byte) (i : Nat) : Bool × Nat × Nat × List (Nat × Nat) :=
  let o := 0x50 + 144 * i
  let n := leAt body (o + 1) 1
  (leAt body o 1 % 2 == 1, n, leAt body (o + 4) 4, (List.range (min 32 n)).map (fun j => (leAt body (o + 8 + 4 * j) 1, leAt body (o + 10 + 4 * j) 2)))

/-- The bytes per minute that the sample lists append (R528, R529, R539). -/
def listRate (body : List Byte) : Nat :=
  (List.range 4).foldl (fun a i => let l := listOf body i; if l.1 then a + (36 + 4 * l.2.1) * (60000 / max 1 l.2.2.1) else a) 0

def arcField (body : List Byte) : List Chk :=
  let bands : Nat → Nat := fun r => leAt body (0x10 + 8 * r + 2) 2
  let sum := (List.range 8).foldl (fun a r => a + bands r) 0
  ((List.range 8).map (fun r =>
    let o := 0x10 + 8 * r
    let e := arcEnt 1 r
    [ck e o (arcRegA r) 0xF00A (decide (1 < leAt body o 1)),
     ck e (o + 2) (arcRegA r) 0xF041 ((if r < 6 then decide (bands r < 2) else bands r != 0) || (r == 7 && decide (242 < sum))),
     ck e (o + 4) (arcRegA r) 0xF001 (outN (leAt body (o + 4) 2) 1 6000)])).flatten ++
  ((List.range 4).map (fun i =>
    let o := 0x50 + 144 * i
    let e := arcEnt 2 i
    let l := listOf body i
    [ck e (o + 1) 0x500000 0xF044 (l.1 && outN l.2.1 1 32), ck e (o + 4) 0x500000 0xF044 (l.1 && (outN l.2.2.1 100 60000 || 60000 % max 1 l.2.2.1 != 0))] ++
    (if l.1 then ((List.range l.2.2.2.length).zip l.2.2.2).map (fun jr => ck e (o + 8 + 4 * jr.1) 0x500000 0xF044 (decide (8 < jr.2.1))) else []) ++
    ((List.range 32).filter (fun j => !l.1 || decide (l.2.1 ≤ j))).map (fun j => ck e (o + 8 + 4 * j) 0x500000 0xF044 (leAt body (o + 8 + 4 * j) 4 != 0)))).flatten ++
  [ck (arcEnt 2 0) 0x50 0x500000 0xF044 (decide (256000 * 60 < listRate body))]

/-- The references of the sample lists and of the logged fields (R280, R539). -/
def arcRefs (c : Cfg) (body : List Byte) : List Chk :=
  ((List.range 4).map (fun i =>
    let l := listOf body i
    if l.1 then
      (((List.range l.2.2.2.length).zip l.2.2.2).map (fun jr =>
        (nameRefs c 15 (arcEnt 2 i) (0x50 + 144 * i + 8 + 4 * jr.1) 0x500000 jr.2).map (fun k => if k.code = 0xF004 then { k with code := 0xF044 } else k))).flatten
    else [])).flatten ++
  ((List.range 32).map (fun j =>
    let a := leAt body (0x290 + 4 * j) 4
    ck (arcEnt 3 j) (0x290 + 4 * j) 0x500000 0xF044 (a != 0 && !c.hasOp a)))

/-- The field checks of the pair section (R563). -/
def pairField (c : Cfg) : List Chk :=
  let e : Ent := { typ := 0x300, inst := 0, part := 0, idx := 0 }
  [ck e 0 0x400028 0x3001 (outN c.seekMs 100 10000), ck e 2 0x400028 0x3001 (outN c.wakeGrace 5 100)]

/-- The visits of a bank that may end in one frame (R549): its guard slots of the worst frame, and the ordinary visits that follow one another
within 1 ms. -/
def Cfg.visitsPerFrame (c : Cfg) (b : Nat) : Nat :=
  if !c.bankEn b then 0
  else
    let ends := (c.guardDescs b).map (fun k => ((((c.slotStart k + c.slotLen k) / 128000) % max 1 (c.descGPer k)).toNat, max 1 (c.descGPer k)))
    let guards := (List.range 60000).foldl (fun m i => max m ((ends.filter (fun x => i % x.2 == x.1)).length)) 0
    let ws := (c.bankList b false).map (fun j => c.visitW (64 * b + j) false)
    let run : Nat → Nat := fun s =>
      ((List.range 64).foldl (fun (a : Nat × Nat) i => if a.1 < 128000 then (a.1 + nth 1 ws ((s + i) % max 1 ws.length), a.2 + 1) else a) (0, 0)).2
    guards + (if ws = [] then 0 else (List.range ws.length).foldl (fun m s => max m (run (s + 1))) 0)

/-- The worst case of the pair stream in bytes per frame (R549). -/
def Cfg.streamWorst (c : Cfg) : Nat :=
  let count : Nat → (Nat → Bool) → Nat := fun n p => ((List.range n).filter p).length
  let body := (c.img.sects.find? (fun s => s.typ == 0xF00)).map (fun s => (c.img.bytes.drop s.off).take s.len)
  512 + 12 * (List.range 16).foldl (fun a b => a + c.visitsPerFrame b) 0 + 64 * count 4 c.grpEn + 32 * count 32 c.movEn + 48 * count c.fx.nCells c.cellEn +
  48 * count c.fx.nLoops c.loopEn + 32 * count c.fx.nGens c.genEn + 16 * count c.fx.nOvr c.ovrEn + 2 * count c.fx.nUnits c.unitEn + 4096 +
  80 * (List.range 4).foldl (fun a p => a + (if c.portEn p then 80000 / (50 * c.nbt p) else 0)) 0 +
  256 + (match body with | some l => (listRate l + 59999) / 60000 | none => 0)

def pairBudget (c : Cfg) : List Chk :=
  [ck { typ := 0x300, inst := 0, part := 0, idx := 0 } 0 0x400028 0x3006 (c.img.pairOn && decide (26000 < c.streamWorst))]

/-- The sleeping plant's registers, which presets alone set (R92, R93, R104). -/
def pwrField (c : Cfg) : List Chk :=
  let e : Ent := { typ := 0xFFFF, inst := 0, part := 0, idx := 0 }
  [ck e 0 0x10008 1 (outN (c.fF 0x10008 0 16) 10 7200), ck e 0 0x1000C 1 (c.img.pairOn && !c.bF 0x1000C 1)]

/-- The field checks of a section type of this chapter. -/
def linkField (c : Cfg) (body : List Byte) (typ inst : Nat) : List Chk :=
  match typ with
  | 0x000 => perEnt 256 (fun a => c.bF (actA a 0) 0) (timedField c)
  | 0x300 => if c.img.pairOn then pairField c else []
  | 0xE00 =>
    (if c.portEn inst then portField c inst else []) ++ perEnt 32 (c.mbxEn inst) (mbxField c inst) ++
    perEnt 16 (fun f => c.bF (filtA inst f 0) 0) (filtField c inst)
  | 0xE01 => perEnt 128 c.mapEn (mapField c)
  | 0xF00 => if body = [] then [] else arcField body
  | 0xFFFF => pwrField c
  | _ => []

/-- The references of a section type of this chapter. -/
def linkRefs (c : Cfg) (image : Bool) (body : List Byte) (typ inst : Nat) : List Chk :=
  match typ with
  | 0x000 => perEnt 256 (fun a => c.bF (actA a 0) 0) (timedRefs c)
  | 0xE00 => (if c.portEn inst then portRefs c image inst else []) ++ perEnt 32 (c.mbxEn inst) (mbxRefs c image inst)
  | 0xE01 => perEnt 128 c.mapEn (mapRefs c)
  | 0xF00 => if body = [] then [] else arcRefs c body
  | _ => []

end Sys2Proof.Machine
end

