-- ==== Sys2Proof/Machine/Image.lean ====
section
/-! DEFINITION. The configuration image: header, directory, checksums, digest, key and signature, the section structure, and the loading of the
registers that sections, defaults and presets give (R99, R101 to R108, R110, R588). -/

namespace Sys2Proof.Machine

open Sys2Proof

/-- The slot size (R99) for a flash of `2 ^ log` bytes. -/
def slotSize (log : Nat) : Nat := min (2 ^ 21) (2 ^ log / 2)

/-- The first `n` bytes of a memory of which a list gives the beginning; the rest is erased flash. -/
def takePad (n : Nat) (l : List Byte) : List Byte := let t := l.take n; t ++ List.replicate (n - t.length) 0xFF

/-- Whether a slot's or a staging area's MAGIC is that of an image (R101). -/
def magicOk (l : List Byte) : Bool := leAt l 0 4 == 0x49434C5A

/-- IMAGE_LEN and GENERATION of a header. -/
def imageLen (l : List Byte) : Nat := leAt l 8 4
def imageGen (l : List Byte) : Nat := leAt l 0xC 4

/-- The bytes of the image that a slot, or the staging area, holds. -/
def imageBytes (l : List Byte) : List Byte := takePad (max 256 (min (imageLen l) (2 ^ 21))) l

/-- A failure in the header, the directory or the trailer (R129). -/
def hdrBad (code entry off : Nat) : Bad := { code := code, typ := 0xFFFF, entry := entry, off := off }

/-- The first failure of a list of conditions with their codes and offsets. -/
def hdrFirst (entry : Nat) (l : List (Bool × Nat × Nat)) : Option Bad := (l.find? (fun x => x.1)).map (fun x => hdrBad x.2.1 entry x.2.2)

/-- The header checks of R101, after MAGIC: `s` is the slot size. -/
def headerBad (v : Variant) (s : Nat) (l : List Byte) : Option Bad :=
  let b : Nat → Nat := fun o => leAt l o 1
  let len := imageLen l
  let gen := imageGen l
  let n := leAt l 0x16 2
  let resv := (upFrom 0x40 188).find? (fun o => b o != 0)
  hdrFirst 0
    [(leAt l 0xFC 4 != crc32c (l.take 0xFC), 0x1041, 0xFC), (leAt l 4 2 != 1, 0x1041, 4), (leAt l 6 2 != 0x100, 0x1041, 6),
     (len % 16 != 0 || decide (len < 512), 0x1009, 8), (decide (s < len), 0x104E, 8), (gen == 0 || gen == 0xFFFFFFFF, 0x1001, 0xC),
     (decide (3 ≤ b 0x10), 0x100A, 0x10), (decide (v.banks < b 0x10), 0x1002, 0x10),
     (decide (2 ≤ b 0x11), 0x100A, 0x11), (b 0x11 == 1 && !v.tierD, 0x1002, 0x11),
     (decide (2 ≤ b 0x12), 0x100A, 0x12), (b 0x12 == 1 && !v.pair, 0x3002, 0x12),
     (decide (2 ≤ b 0x13), 0x100A, 0x13), (decide (2 ≤ b 0x14), 0x100A, 0x14), (decide (2 ≤ b 0x15), 0x100A, 0x15),
     (n == 0 || decide (256 < n), 0x1001, 0x16), (resv.isSome, 0x1007, resv.getD 0)]

/-- The directory entries of a header that passed (R102). -/
def dirOf (l : List Byte) : List Sect :=
  (List.range (leAt l 0x16 2)).map (fun i =>
    let o := 0x100 + 16 * i
    { typ := leAt l o 2, inst := leAt l (o + 2) 2, off := leAt l (o + 4) 4, len := leAt l (o + 8) 4 })

/-- The length of the trailer (R106). -/
def trailerLen (l : List Byte) : Nat := if leAt l 0x15 1 % 2 = 1 then 160 else 32

/-- The bytes of a section. -/
def Sect.body (x : Sect) (l : List Byte) : List Byte := (l.drop x.off).take x.len

/-- The directory's layout (R102), entry by entry, then the bytes that no section covers. -/
def dirBad (l : List Byte) : Option Bad :=
  let d := dirOf l
  let n := d.length
  let first := 0x100 + 16 * n
  let last := imageLen l - trailerLen l
  let ent : Nat → Option Bad := fun i =>
    match d[i]? with
    | none => none
    | some x =>
      let o := 0x100 + 16 * i
      let before := d.take i
      let key := x.typ * 65536 + x.inst
      let prev := match before.getLast? with | some y => some (y.typ * 65536 + y.inst) | none => none
      hdrFirst i
        [(before.any (fun y => y.typ * 65536 + y.inst == key), 0x1008, o), (match prev with | some k => decide (key < k) | none => false, 0x1009, o),
         (x.off % 16 != 0 || decide (x.off < first), 0x1009, o + 4), (decide (x.len < 4) || decide (last < x.off + x.len), 0x1009, o + 8),
         (before.any (fun y => decide (x.off < y.off + y.len) && decide (y.off < x.off + x.len)), 0x1009, o + 4)]
  let gap := (upFrom first (last - first)).find? (fun o => leAt l o 1 != 0 && !d.any (fun x => decide (x.off ≤ o) && decide (o < x.off + x.len)))
  match (List.range n).findSome? ent with
  | some b => some b
  | none => gap.map (fun o => hdrBad 0x1009 0 o)

/-- The sections in ascending image offset. -/
def insSect (x : Sect) : List Sect → List Sect
  | [] => [x]
  | y :: r => if x.off < y.off then x :: y :: r else y :: insSect x r

/-- The first section whose CRC fails (R102). -/
def crcBad (l : List Byte) : Option Bad :=
  let d := dirOf l
  let crc : Sect → Nat := fun x => match (List.range d.length).find? (fun i => d[i]? == some x) with
    | some i => leAt l (0x100 + 16 * i + 12) 4
    | none => 0
  ((d.foldl (fun a x => insSect x a) []).find? (fun x => crc x != crc32c (x.body l))).map
    (fun x => { code := 0x1042, typ := x.typ, entry := 0, off := x.off })

/-- Digest, key and signature (R106, R108): `key` is the fused hash. -/
def trailerBad (key : Option Nat) (l : List Byte) : Option Bad :=
  let t := imageLen l - trailerLen l
  let signed := leAt l 0x15 1 % 2 == 1
  let dg := sha256 (l.take t)
  let at_ : Nat → Nat → Nat := fun o n => beNat ((l.drop (t + o)).take n)
  let trusted := match key with
    | some h => sha256 ((l.drop (t + 32)).take 64) == h
    | none => true
  hdrFirst 0
    [(at_ 0 32 != dg, 0x1044, t), (key.isSome && !signed, 0x1045, 0x15), (signed && !trusted, 0x1047, t + 32),
     (signed && !ecdsaOk dg (at_ 32 32) (at_ 64 32) (at_ 96 32) (at_ 128 32), 0x1046, t + 96)]

/-- The section types of R103: the number of instances on the die and the owning subsystem. -/
def typeInst (typ : Nat) : Option Nat :=
  match typ with
  | 0x400 => some 16
  | 0x600 => some 8
  | 0x800 => some 4
  | 0xB00 => some 2
  | 0xC01 => some 4
  | 0xE00 => some 4
  | _ => if [0x000, 0x100, 0x101, 0x300, 0x500, 0x501, 0x601, 0x900, 0x901, 0xA00, 0xA01, 0xA02, 0xA03, 0xB01, 0xC00, 0xD00, 0xD01, 0xE01, 0xF00].contains typ
         then some 1 else none

/-- The counts and the length a section of a type must have (R588): the code of the first failure, 0 for none. -/
def lengthCode (v : Variant) (banks : Nat) (typ : Nat) (b : List Byte) : Nat :=
  let n := leAt b 0 2
  let s := 0x1000 * (typ / 256)
  let fixed : Nat → Nat := fun k => if b.length = k then 0 else s + 9
  let table : Nat → Nat → Nat → Nat := fun top size above =>
    if n = 0 then s + 1 else if top < n then above else if b.length = 16 + size * n then 0 else s + 9
  match typ with
  | 0x000 => table 256 24 1
  | 0x100 => if b.length % 8 = 0 ∧ b.length ≤ 32768 then 0 else 0x1009
  | 0x101 => if b.length % 8 = 0 ∧ b.length ≤ 128 then 0 else 0x1009
  | 0x300 => fixed 32
  | 0x400 => fixed 2592
  | 0x500 =>
    if n ≠ 256 * 2 ^ banks then 0x5009 else if 512 < leAt b 2 2 then 0x5001 else fixed (16 + 32 * n + 16 * leAt b 2 2)
  | 0x501 => table 32 528 0x5001
  | 0x600 => fixed 376
  | 0x601 => table 32 64 0x6001
  | 0x800 => fixed 272
  | 0x900 => fixed 2064
  | 0x901 => table 16 96 0x9001
  | 0xA00 => table v.nLoops 128 0xA002
  | 0xA01 => table v.nGens 32 0xA002
  | 0xA02 => table v.nOvr 24 0xA002
  | 0xA03 => table 8 32 0xA002
  | 0xB00 => let z := leAt b 1 1; if outN z 1 64 then 0xB001 else fixed (96 + 16 * z)
  | 0xB01 => table 8 1136 0xB001
  | 0xC00 =>
    if n = 0 then 0xC001 else if v.nUnits < n then 0xC002 else if 1024 < leAt b 2 2 then 0xC001 else fixed (16 + 80 * n + 8 * leAt b 2 2)
  | 0xC01 =>
    if outN (leAt b 2 2) 1 256 ∨ 1024 < leAt b 4 2 ∨ 1024 < leAt b 6 2 then 0xC001
    else fixed (32 + 16 * leAt b 2 2 + 12 * leAt b 4 2 + 28 * leAt b 6 2)
  | 0xD00 => table v.nTerms 32 0xD002
  | 0xD01 => fixed 336
  | 0xE00 => fixed 640
  | 0xE01 => table 128 144 0xE001
  | 0xF00 => fixed 784
  | _ => 0

/-- The section structure of R588: the first failure in directory order. -/
def structBad (v : Variant) (l : List Byte) : Option Bad :=
  (dirOf l).findSome? (fun x =>
    let s := 0x1000 * (x.typ / 256)
    let code := match typeInst x.typ with
      | none => 0x1001
      | some k => if k ≤ x.inst then s + 4 else if !instOk v x.typ x.inst then s + 2 else lengthCode v (leAt l 0x10 1) x.typ (x.body l)
    if code = 0 then none else some { code := code, typ := x.typ, entry := 0, off := x.off })

/-- The whole envelope (R113, step 1): `none` where it passes. -/
def envelopeBad (v : Variant) (s : Nat) (key : Option Nat) (l : List Byte) : Option Bad :=
  if !magicOk l then some (hdrBad 0x1041 0 0)
  else firstSome [headerBad v s l] <|> dirBad l <|> crcBad l <|> trailerBad key l <|> structBad v l

/-- The image that bytes hold, from a source of CFG_STAT.SOURCE. -/
def mkImage (source : Nat) (l : List Byte) : Image :=
  { ok := true, bytes := l, sects := dirOf l, gen := imageGen l, signed := leAt l 0x15 1 % 2 == 1, expert := leAt l 0x13 1 == 1,
    pairOn := leAt l 0x12 1 == 1, dormant := leAt l 0x14 1 == 1, source := source }

/-- Whether an image that passed its envelope runs on a module: no bound identities, or GLB_ID among them (R105). -/
def Image.boundOk (i : Image) (id : Nat) : Bool :=
  match i.sect 0x101 0 with
  | some b => (List.range (b.length / 8)).any (fun k => leAt b (8 * k) 8 == id)
  | none => true

/-- The register presets of an image (R104): address and value. -/
def Image.presets (i : Image) : List (Nat × Word) :=
  match i.sect 0x100 0 with
  | some b => (List.range (b.length / 8)).map (fun k => (leAt b (8 * k) 4, BitVec.ofNat 32 (leAt b (8 * k + 4) 4)))
  | none => []

/-- The words of one area that a section carries in the registers' layout. -/
def areaLoads (b : List Byte) (x : Area) : List (Nat × Word) :=
  if x.sStride = 0 then []
  else ((List.range x.count).map (fun i =>
    ((List.range x.words.length).zip x.words).filterMap (fun jf =>
      if jf.2.all = 0 then none
      else some (x.base + i * x.stride + 4 * jf.1, BitVec.ofNat 32 (leAt b (x.sOff + i * x.sStride + 4 * jf.1) 4 &&& jf.2.all))))).flatten

/-- A numbered table's words: block `i` of a section goes to the registers of its number. -/
def tableLoads (b : List Byte) (size lo hi : Nat) (base : Nat → Nat) (ws : List Fields) : List (Nat × Word) :=
  ((List.range (leAt b 0 2)).map (fun i =>
    let o := 16 + size * i
    let u := leAt b o 1
    if outN u lo hi then []
    else ((List.range ws.length).zip ws).map (fun jf => (base u + 4 * jf.1, BitVec.ofNat 32 (leAt b (o + 4 * jf.1) 4 &&& jf.2.all))))).flatten

/-- The words of the sections that are laid out differently from their registers. -/
def otherLoads (typ inst : Nat) (b : List Byte) : List (Nat × Word) :=
  let n := leAt b 0 2
  let w : Nat → Word := fun o => BitVec.ofNat 32 (leAt b o 4)
  let grp : Nat → Nat → Nat × Word := fun g o =>
    (grpA g, packW [at_ 0 1 (leAt b o 1), at_ 8 7 (leAt b (o + 1) 1), at_ 16 1 (leAt b o 1 / 2)])
  match typ with
  | 0x000 => [(0x30024, packW [at_ 0 1 (leAt b 4 1), at_ 16 16 (leAt b 2 2)])]
  | 0x300 => (0x400028, w 0) :: (List.range 4).map (fun j => (0x400030 + 4 * j, w (8 + 4 * j)))
  | 0x501 => tableLoads b 528 32 63 ucurveA ucurveWords
  | 0x601 => tableLoads b 64 32 63 gcurveA grainWords
  | 0x901 => tableLoads b 96 0 15 (fun t => tabA t 0) tabWords
  | 0xB01 => tableLoads b 1136 0 7 dtabA dtabWords
  | 0x800 => [grp inst 0]
  | 0x900 => [grp 4 0, grp 5 2]
  | 0xA01 => ((List.range n).map (fun i =>
      let o := 16 + 32 * i
      (prfA i, packW [at_ 0 2 (leAt b o 1), at_ 8 8 (leAt b (o + 4) 1), at_ 16 16 (leAt b (o + 6) 2)]) ::
        (List.range 4).map (fun j => (prfA i + 4 + 4 * j, w (o + 8 + 4 * j))))).flatten
  | 0xA03 => ((List.range n).map (fun i =>
      let o := 16 + 32 * i
      let a := trcA i
      [(a, w (o + 4) &&& 0xFFFF00FF), (a + 4, w (o + 8) &&& 0xFFFF00FF), (a + 8, w (o + 12) &&& 0x0FFFFFFF),
       (a + 12, packW [at_ 0 3 (leAt b (o + 1) 1), at_ 3 1 (leAt b o 1), at_ 4 3 (leAt b (o + 2) 1), at_ 16 16 (leAt b (o + 24) 2)]),
       (a + 16, w (o + 16)), (a + 20, w (o + 20))])).flatten
  | 0xD00 => [(0x5001C, packW [at_ 0 3 (leAt b 2 1)])]
  | 0xF00 => (List.range 8).map (fun r =>
      let o := 0x10 + 8 * r
      (arcRegA r, packW [at_ 0 1 (leAt b o 1), at_ 8 8 (leAt b (o + 2) 2), at_ 16 16 (leAt b (o + 4) 2)]))
  | _ => []

/-- The 16-bit header field of a section, by offset. -/
def hdrField (b : List Byte) (o : Nat) : Nat := leAt b o 2

/-- Every register word a section gives (R104, step 1). -/
def sectLoads (v : Variant) (x : Sect) (l : List Byte) : List (Nat × Word) :=
  let b := x.body l
  ((secAreas v true (hdrField b) x.typ x.inst).map (areaLoads b)).flatten ++ otherLoads x.typ x.inst b

/-- The archive regions without their section (R538). -/
def arcDefaults : List (Nat × Word) :=
  (List.range 8).map (fun r => (arcRegA r, packW [at_ 8 8 (nth 0 [24, 24, 48, 48, 72, 26] r), at_ 16 16 50]))

/-- Whether a register keeps its value over a change of image: no field of it is "from image" (R104). -/
def keptReg (v : Variant) (a : Nat) : Bool :=
  if a = 0x10008 ∨ a = 0x1000C ∨ a = 0x30024 then false
  else match regAt v a with
    | some (x, _, _) => x.typ == 0xFFFF
    | none => false

/-- Put words as written and in force. -/
def Regs.puts (r : Regs) (l : List (Nat × Word)) : Regs := l.foldl (fun r x => r.putB x.1 x.2) r

/-- A preset's effect on its register: the writable fields take the value (R104, step 3). -/
def presetPut (c : Cfg) (x : Nat × Word) : Cfg :=
  let a := aliasOf x.1
  match fieldsAt c a with
  | some (_, _, f) => { c with reg := c.reg.putB a (mix (c.w a) x.2 (BitVec.ofNat 32 (if a = x.1 then f.all else f.all % 65536))) }
  | none => c

/-- The reset values of the operator registers of the loops (R303): INIT_MODE, SP_INIT and INIT_OUT. A loop that runs keeps its own. -/
def loopDefaults (c : Cfg) (r : Regs) : Regs :=
  forEach (List.range 64) r (fun n r =>
    let a := 0x180000 + n * 0x100
    let w : Nat → Word := fun o => tget (resetWord (a + o)) r.w (a + o)
    if c.img.ok && c.bF a 0 then r
    else r.puts [(a + 0xA0, BitVec.ofNat 32 (fld (w 0) 8 2)), (a + 0xA4, w 0x34), (a + 0xA8, w 0x2C)])

/-- The registers as sections and defaults leave them, under an image. -/
def loadImage (c : Cfg) (i : Image) : Cfg :=
  let keep : Tbl Word → Tbl Word := fun t => t.filter (fun x => keptReg c.fx x.1)
  let r0 : Regs := { w := keep c.reg.w, f := keep c.reg.f, fresh := [] }
  let r1 := if i.sects.any (fun x => x.typ == 0xF00) then r0 else r0.puts arcDefaults
  let r2 := i.sects.foldl (fun r x => r.puts (sectLoads c.fx x i.bytes)) r1
  { c with reg := if i.sects.any (fun x => x.typ == 0xA00) then loopDefaults c r2 else r2, img := i }

/-- The configuration an image leaves: sections, defaults, then presets (R104). -/
def candidate (c : Cfg) (source : Nat) (l : List Byte) : Cfg :=
  let i := mkImage source l
  i.presets.foldl presetPut (loadImage c i)

end Sys2Proof.Machine
end

