-- ==== Sys2Proof/Machine/Flash.lean ====
section
/-! DEFINITION. The configuration flash: what its SFDP table says, the choice of the read instruction and of the address width, and the steps of a
write-back on the bytes of a slot (R98, R99, R121 to R123, R131). -/

namespace Sys2Proof.Machine

open Sys2Proof

/-- A 24-bit pointer of an SFDP parameter header (log entry 79). -/
def sfdpPtr (l : List Byte) (k : Nat) : Nat := leAt l (12 + 8 * k) 3

/-- The parameter headers of an SFDP space, as identifier, length in words and pointer; the first is the basic table (log entry 79). -/
def sfdpHeads (l : List Byte) : List (Nat × Nat × Nat) :=
  (List.range (leAt l 6 1 + 1)).map (fun k => (leAt l (8 + 8 * k) 1 + 256 * leAt l (15 + 8 * k) 1, leAt l (11 + 8 * k) 1, sfdpPtr l k))

/-- Word `n` of the basic parameter table, counted from 1; 0 beyond its end. -/
def sfdpWord (l : List Byte) (n : Nat) : Word :=
  match sfdpHeads l with
  | h :: _ => if 1 ≤ n ∧ n ≤ h.2.1 then BitVec.ofNat 32 (leAt l (h.2.2 + 4 * (n - 1)) 4) else 0
  | [] => 0

/-- The SFDP signature 0x5044_4653 (R98). -/
def sfdpOk (l : List Byte) : Bool := leAt l 0 4 == 0x50444653

/-- The capacity in bytes. -/
def sfdpCap (l : List Byte) : Nat :=
  let w := sfdpWord l 2
  (if bit w 31 then 2 ^ fld w 0 31 else fld w 0 31 + 1) / 8

/-- The erase types: sizes in bytes. -/
def sfdpErases (l : List Byte) : List Nat :=
  ([(8, 0), (8, 16), (9, 0), (9, 16)].map (fun p => fld (sfdpWord l p.1) p.2 8)).filterMap (fun n => if n = 0 then none else some (2 ^ n))

/-- The flash as the module finds and uses it (R98, R131): quad reads only with a quad-enable method from 0b000 to 0b101, the first supported instruction
of 1-1-4, 1-4-4 and 1-1-1, and above 128 Mbit 4-byte addresses, by instruction where the flash has the table of 4-byte instructions. -/
def flashOf (l : List Byte) : Flash :=
  let w1 := sfdpWord l 1
  let qer := decide (fld (sfdpWord l 15) 20 3 ≤ 5)
  let read := if qer && bit w1 22 then 1 else if qer && bit w1 21 then 2 else 0
  let cap := sfdpCap l
  let big := decide (2 ^ 24 < cap)
  let table := (sfdpHeads l).any (fun h => h.1 == 0xFF84)
  { cap := cap, read := read, addr := if big then (if table then 1 else 2) else 0, page := 2 ^ fld (sfdpWord l 11) 4 4, erases := sfdpErases l, valid := true }

/-- CFG_FLASH (R131). -/
def Flash.word (f : Flash) : Word :=
  if f.valid then packW [at_ 0 5 (Nat.log2 f.cap), b1 5 (f.read != 0), b1 6 (f.addr != 0), b1 7 true] else 0

/-- The slot size of a flash (R99). -/
def Flash.slotLen (f : Flash) : Nat := min (2 ^ 21) (f.cap / 2)

/-- The sector a write-back erases at a time (R122): the largest erase type that divides the slot; a flash that names none is erased slot by slot (log
entry 80). -/
def Flash.sector (f : Flash) : Nat :=
  let s := f.slotLen
  let e := (f.erases.filter (fun x => s % x == 0)).foldl max 0
  if e = 0 then s else e

/-- The bytes of a slot with `new` in place of those from `o` on; bytes the list does not give are erased flash. -/
def putBytes (l : List Byte) (o : Nat) (new : List Byte) : List Byte := takePad o l ++ new ++ l.drop (o + new.length)

/-- Erase a sector. -/
def eraseBytes (l : List Byte) (o n : Nat) : List Byte := putBytes l o (List.replicate n 0xFF)

/-- Program bytes: programming clears bits and sets none (R123). -/
def programBytes (l : List Byte) (o : Nat) (new : List Byte) : List Byte :=
  putBytes l o ((((takePad (o + new.length) l).drop o).zip new).map (fun p => p.1 &&& p.2))

/-- The page that step 3 programs from position `pos` on (R122): up to the next page boundary, within the image. -/
def pageLen (page pos len : Nat) : Nat := min (max 1 page - pos % max 1 page) (len - pos)

/-- One operation of the flash ends and the write-back goes on (R122): the slot's bytes, the write-back, and what came of it: `none` while it runs, `some
true` when the image is verified and its magic stands, `some false` when the failed slot's first sector is erased again. An event that is not the one
awaited changes nothing. -/
def wbStep (f : Flash) (e : FlashEvent) (l : List Byte) (w : WriteBack) : List Byte × WriteBack × Option Bool :=
  let len := w.bytes.length
  let bad : List Byte × WriteBack × Option Bool := (l, { w with stage := .wipe }, none)
  match w.stage, e with
  | .clear, .programmed => (programBytes l 0 [0, 0, 0, 0], { w with stage := .erase, pos := 0 }, none)
  | .erase, .erased =>
    let n := f.sector
    let p := w.pos + n
    (eraseBytes l w.pos n, if p < f.slotLen then { w with pos := p } else { w with stage := .pages, pos := 16 }, none)
  | .pages, .programmed =>
    let n := pageLen f.page w.pos len
    let p := w.pos + n
    (programBytes l w.pos ((w.bytes.drop w.pos).take n), if p < len then { w with pos := p } else { w with stage := .check, pos := len }, none)
  | .check, .read r => if r = w.bytes.drop 16 then (l, { w with stage := .head }, none) else bad
  | .head, .programmed => (programBytes l 4 ((w.bytes.drop 4).take 12), { w with stage := .headCheck }, none)
  | .headCheck, .read r => if r = (w.bytes.drop 4).take 12 then (l, { w with stage := .magic }, none) else bad
  | .magic, .programmed => (programBytes l 0 (w.bytes.take 4), { w with stage := .magicCheck }, none)
  | .magicCheck, .read r => if r = w.bytes.take 4 then (l, w, some true) else bad
  | .wipe, .erased => (eraseBytes l 0 f.sector, w, some false)
  | _, _ => (l, w, none)

/-- CFG_WB.STATE of a write-back under way (R131; log entry 80). -/
def WriteBack.num (w : WriteBack) : Nat :=
  match w.stage with
  | .clear => 1
  | .erase => 1
  | .wipe => 1
  | .pages => 2
  | .check => 3
  | _ => 3

/-- CFG_WB.PROGRESS: the image bytes programmed, in units of 4 KiB (R10, R131). -/
def WriteBack.done (w : WriteBack) : Nat :=
  match w.stage with
  | .clear => 0
  | .erase => 0
  | .pages => (w.pos - 16) / 4096
  | .check => (w.bytes.length - 16) / 4096
  | .head => (w.bytes.length - 16) / 4096
  | .headCheck => (w.bytes.length - 4) / 4096
  | .magic => (w.bytes.length - 4) / 4096
  | .magicCheck => w.bytes.length / 4096
  | .wipe => (w.bytes.length - 16) / 4096

end Sys2Proof.Machine
end

