-- ==== Sys2Proof/Machine/Sage.lean ====
section
/-! DEFINITION. Sage: the checks of a whole image and of one entry, in their order, with the place a failure is reported at (R104, R113 to R115,
R124, R129, R164, R350). -/

namespace Sys2Proof.Machine

open Sys2Proof

/-- The sections an image may have in the variant (R103), in directory order; 0xFFFF stands for the registers that presets alone set. -/
def sectKeys (v : Variant) : List (Nat × Nat) :=
  let many : Nat → Nat → List (Nat × Nat) := fun typ n => (List.range n).map (fun i => (typ, i))
  [(0x000, 0), (0x100, 0), (0x101, 0), (0x300, 0)] ++ many 0x400 v.nBanks ++ [(0x500, 0), (0x501, 0)] ++ many 0x600 v.nCells ++ [(0x601, 0)] ++
  many 0x800 4 ++ [(0x900, 0), (0x901, 0), (0xA00, 0), (0xA01, 0), (0xA02, 0), (0xA03, 0)] ++ many 0xB00 v.nCols ++ [(0xB01, 0), (0xC00, 0)] ++
  many 0xC01 v.nDrafts ++ [(0xD00, 0), (0xD01, 0)] ++ many 0xE00 4 ++ [(0xE01, 0), (0xF00, 0)]

/-- The order of checks: the image's sections in directory order, then the types it lacks. -/
def sectOrder (c : Cfg) : List (Nat × Nat) :=
  let own := c.img.sects.map (fun x => (x.typ, x.inst))
  own ++ (sectKeys c.fx).filter (fun k => !own.contains k) ++ [(0xFFFF, 0)]

/-- The phase of a code (R113): 3 for the common field codes, 4 for the common reference codes, 5 for budgets; else the phase of its list. -/
def phaseOf (code dflt : Nat) : Nat :=
  match code % 0x1000 with
  | 1 => 3 | 2 => 3 | 7 => 3 | 9 => 3 | 0xA => 3
  | 3 => 4 | 4 => 4 | 8 => 4 | 0xB => 4 | 0xE => 4
  | 6 => 5
  | _ => dflt

/-- The bytes of a section, none where the image lacks it. -/
def Image.body (i : Image) (k : Nat × Nat) : List Byte := (i.sect k.1 k.2).getD []

/-- The bits of a section word that its layout uses: header words and sections laid out differently from their registers. -/
def otherMask (typ o : Nat) : Nat :=
  let entry : Nat → List Nat → Nat := fun size l => if o < 16 then 0 else nth 0 l ((o - 16) % size / 4)
  let ws : List Fields → List Nat := fun l => l.map Fields.all
  let head : Nat → Nat := fun m => if o = 0 then m else 0
  match typ with
  | 0x000 => if o = 0 then m32 else if o = 4 then 1 else 0
  | 0x100 => m32
  | 0x101 => m32
  | 0x300 => if o = 0 ∨ (8 ≤ o ∧ o < 0x18) then m32 else if o = 4 then 1 else 0
  | 0x500 => head m32
  | 0x501 => head 0xFFFF ||| entry 528 (ws ucurveWords)
  | 0x601 => head 0xFFFF ||| entry 64 (ws grainWords)
  | 0x800 => head 0xFF03
  | 0x900 => head 0xFF03FF03
  | 0x901 => head 0xFFFF ||| entry 96 (ws tabWords)
  | 0xA00 => head 0xFFFF
  | 0xA01 => head 0xFFFF ||| entry 32 [3, 0xFFFF00FF, m32, m32, m32, m32, 0, 0]
  | 0xA02 => head 0xFFFF
  | 0xA03 => head 0xFFFF ||| entry 32 [0xFFFF01, 0xFFFF00FF, 0xFFFF00FF, m32, m32, m32, 0xFFFF, 0]
  | 0xB01 => head 0xFFFF ||| entry 1136 (ws dtabWords)
  | 0xC00 => head m32
  | 0xD00 => head 0xFFFFFF
  | 0xE01 => head 0xFFFF
  | 0xF00 =>
    if o < 0x10 then 0
    else if o < 0x50 then (if o % 8 = 0 then 0xFFFF00FF else 0xFFFF)
    else if o < 0x290 then (let j := (o - 0x50) % 144; if j = 0 then 0xFF01 else if j = 4 then m32 else if j < 136 then 0xFFFF00FF else 0)
    else m32
  | _ => 0

/-- The area of a section that holds the word at an offset: entry, word. -/
def areaOff (l : List Area) (o : Nat) : Option (Area × Nat × Nat) :=
  l.findSome? (fun x =>
    if x.sStride = 0 ∨ o < x.sOff then none
    else
      let i := (o - x.sOff) / x.sStride
      let j := (o - x.sOff) % x.sStride / 4
      if i < x.count ∧ j < x.words.length then some (x, i, j) else none)

/-- The size of an entry of the sections that `areaOff` does not describe, for the entry number in a location. -/
def entrySize (typ : Nat) : Nat :=
  match typ with
  | 0x501 => 528 | 0x601 => 64 | 0x901 => 96 | 0xA01 => 32 | 0xA03 => 32 | 0xB01 => 1136 | _ => 0

/-- The entry at a section offset. -/
def entryAt (typ inst : Nat) (l : List Area) (o : Nat) : Ent :=
  match areaOff l o with
  | some (x, i, _) => entOf x i
  | none => { typ := typ, inst := inst, part := if entrySize typ = 0 ∨ o < 16 then 0 else 1, idx := if entrySize typ = 0 then 0 else (o - 16) / entrySize typ }

/-- The unit descriptor's bits that depend on its KIND (R355): unused in a leaf, and in a group. -/
def unitMask (kind j : Nat) : Nat :=
  if kind = 6 then (match j with | 4 => 0x01FFFFFF | 5 => 0x00FFFFFF | 6 => 0 | _ => m32)
  else match j with | 4 => 0xFFFF03FF | 5 => 0xFFFF00FF | _ => m32

/-- The least bit of a number, as its byte. -/
def firstByte (x : Nat) : Nat := ((List.range 4).find? (fun k => x / 256 ^ k % 256 != 0)).getD 0

/-- The reserved bytes and bits of a section (R113): every entry, enabled or not. -/
def resvChk (v : Variant) (k : Nat × Nat) (b : List Byte) : List Chk :=
  let l := secAreas v true (hdrField b) k.1 k.2
  (List.range (b.length / 4)).filterMap (fun q =>
    let o := 4 * q
    let w := leAt b o 4
    let m := match areaOff l o with
      | some (x, i, j) =>
        let f := nth fNil x.words j
        (f.all ||| f.wide) &&& (if k.1 = 0xC00 ∧ x.part = 1 then unitMask (leAt b (16 + 80 * i + 1) 1) j else m32)
      | none => otherMask k.1 o
    let bad := w &&& (m32 ^^^ m)
    if bad = 0 then none else some (ck (entryAt k.1 k.2 l o) (o + firstByte bad) 0 (0x1000 * (k.1 / 256) + 7) true))

/-- Fields of an enabled entry whose section field is wider than the register (R113): a value beyond the register is out of range. -/
def wideChk (c : Cfg) (k : Nat × Nat) (b : List Byte) : List Chk :=
  let l := secAreas c.fx true (hdrField b) k.1 k.2
  let s := 0x1000 * (k.1 / 256)
  (List.range (b.length / 4)).filterMap (fun q =>
    let o := 4 * q
    match areaOff l o with
    | some (x, i, j) =>
      let bad := leAt b o 4 &&& (nth fNil x.words j).wide
      if bad = 0 ∨ (x.en ∧ !c.bF (x.base + i * x.stride) 0) then none else some (ck (entOf x i) (o + firstByte bad) 0 (s + 1) true)
    | none => none) ++
  (match k.1 with
   | 0x400 =>
     -- list bytes beyond the list's length are zero (R158)
     let rest : Nat → Nat → List Chk := fun base n => ((List.range 256).filter (fun i => decide (n ≤ i))).map (fun i =>
       ck (bankEnt k.2) (base + i) 0 0x4007 (leAt b (base + i) 1 != 0))
     rest 0x820 (leAt b 4 2) ++ rest 0x920 (leAt b 6 2)
   | 0x800 => [ck (grpEnt k.2) 1 0 0x8001 (c.grpEn k.2 && decide (127 < leAt b 1 1))]
   | 0x900 => [ck (grpEnt 4) 1 0 0x9001 (c.grpEn 4 && decide (127 < leAt b 1 1)), ck (grpEnt 5) 3 0 0x9001 (c.grpEn 5 && decide (127 < leAt b 3 1))]
   | 0xA03 => ((List.range (leAt b 0 2)).map (fun t =>
       let o := 16 + 32 * t
       let on := leAt b o 1 % 2 == 1
       [ck (trcEnt t) (o + 1) 0 0xA00A (on && decide (7 < leAt b (o + 1) 1)), ck (trcEnt t) (o + 2) 0 0xA004 (on && decide (7 < leAt b (o + 2) 1)),
        ck (trcEnt t) (o + 14) 0 0xA048 (on && decide (4095 < leAt b (o + 14) 2))])).flatten
   | 0xD00 => [ck { typ := 0xD00, inst := 0, part := 0, idx := 0 } 2 0 0xD00A (decide (7 < leAt b 2 1))]
   | _ => [])

/-- A value that its operator register refuses (R92, R104, R273, R285, R396, R466, R522). -/
def valueCode (a : Nat) (v : Word) : Nat :=
  if a = 0x30030 then (if outI (sword v) (-28147) 28147 then 1 else 0)
  else if a = 0x20 then (if 4 < fld v 8 3 then 0x2001 else 0)
  else if a = 0x10008 then (if outN (fld v 0 16) 10 7200 then 1 else 0)
  else if 0x180000 ≤ a ∧ a < 0x184000 ∧ a % 0x100 = 0xA0 then (if fld v 0 2 = 3 then 0xA00A else 0)
  else if 0x220000 ≤ a ∧ a < 0x222000 ∧ a % 0x100 = 0x40 then (if outI (sword v) 0 6553600 then 0x9001 else 0)
  else if 0x160000 ≤ a ∧ a < 0x162000 ∧ a % 0x1000 = 0x94 then (if outN v.toNat 16384 262144 then 0xB001 else 0)
  else 0

/-- A value that the target of a preset refuses (R104): also a mode without its source (R285), and a transmit request for a mailbox that takes none
(R475). -/
def presetValue (c : Cfg) (a : Nat) (v : Word) : Nat :=
  let x := valueCode a v
  if x ≠ 0 then x
  else if 0x180000 ≤ a ∧ a < 0x180000 + 0x100 * c.fx.nLoops ∧ a % 0x100 = 0xA0 then loopModeCode c ((a - 0x180000) / 0x100) v
  else if 0x300000 ≤ a ∧ a < 0x310000 ∧ a % 0x4000 = 0x38 then
    (let p := (a - 0x300000) / 0x4000
     if (List.range 32).any (fun m => bit v m && !(c.mbxEn p m && c.mbxTx p m && !c.mbxMap p m)) then 0xE047 else 0)
  else 0

/-- The presets as entries: addresses and values (R104). -/
def presetChk (c : Cfg) : List Chk :=
  ((List.range c.img.presets.length).zip c.img.presets).map (fun ip => [
    ck { typ := 0x100, inst := 0, part := 0, idx := ip.1 } (8 * ip.1) 0 0x1004 (ip.2.1 % 4 != 0 || presetCode c ip.2.1 != 0),
    (let x := presetValue c ip.2.1 ip.2.2; ck { typ := 0x100, inst := 0, part := 0, idx := ip.1 } (8 * ip.1 + 4) 0 x (x != 0))]) |>.flatten

/-- Every check of one section type: the field list and the reference list. `off` is the code of a group left without members (R316). -/
def sectField (c : Cfg) (image : Bool) (k : Nat × Nat) : List Chk :=
  let b := c.img.body k
  (if image then resvChk c.fx k b ++ wideChk c k b else []) ++ (if k.1 = 0x100 ∧ image then presetChk c else []) ++
  frontField c image k.1 k.2 ++ ctlField c image k.1 k.2 ++ fieldField c image k.1 k.2 ++ linkField c b k.1 k.2

def sectRefs (c : Cfg) (image : Bool) (off : Nat) (k : Nat × Nat) : List Chk :=
  frontRefs c k.1 k.2 ++ ctlRefs c image off k.1 k.2 ++ fieldRefs c image k.1 k.2 ++ linkRefs c image (c.img.body k) k.1 k.2 ++
  (if k.1 = 0x300 then [ck { typ := 0x300, inst := 0, part := 0, idx := 0 } 0 0 0x3040 (c.img.pairOn != (c.img.sect 0x300 0).isSome)] else [])

/-- The budgets of one section type (R155, R204, R265, R293, R353, R495, R549). -/
def sectBudget (c : Cfg) (k : Nat × Nat) : List Chk :=
  match k.1 with
  | 0x300 => pairBudget c
  | 0x400 => if c.bF (bankA k.2) 0 then bankBudget c k.2 else []
  | 0x600 => if c.cellEn k.2 then cellBudget c k.2 else []
  | 0xA00 => loopBudget c
  | 0xB00 => if c.colEn k.2 then columnBudget c (c.worstLoad).1 k.2 else []
  | 0xC00 => passBudget c
  | 0xE00 => portBudget c k.2
  | _ => []

/-- The checks of one phase of one section type, in the order of entry and offset. -/
def phaseChk (c : Cfg) (image : Bool) (off phase : Nat) (k : Nat × Nat) : List Chk :=
  if phase = 5 then sectBudget c k
  else (sectField c image k).filter (fun x => x.bad && phaseOf x.code 3 == phase) ++ (sectRefs c image off k).filter (fun x => x.bad && phaseOf x.code 4 == phase)

/-- Where a failing check is reported (R129): the last preset that names the register, else the section entry, else nowhere. -/
def chkBad (c : Cfg) (x : Chk) : Bad :=
  let named := (List.range c.img.presets.length).filter (fun i => x.addr != 0 && aliasOf (nth (0, 0) c.img.presets i).1 == x.addr)
  let sect : Nat → Nat → Option Sect := fun t i => c.img.sects.find? (fun y => y.typ == t && y.inst == i)
  match named.getLast?, sect 0x100 0, sect x.own.typ x.own.inst with
  | some i, some p, _ => { code := x.code, typ := 0x100, entry := i, off := p.off + 8 * i + 4 }
  | _, _, some y => { code := x.code, typ := y.typ, entry := x.own.idx, off := y.off + x.off }
  | _, _, none => { code := x.code, typ := 0xFFFF, entry := 0, off := 0 }

/-- The first failure of a phase over every section. -/
def phaseBad (c : Cfg) (phase : Nat) : Option Chk := (sectOrder c).findSome? (fun k => firstBad (phaseChk c true 0xA047 phase k))

/-- What Sage finds in a whole image whose envelope has passed: the first failure, or the configuration with the placements Sage derives at basic level
(R113, R155, R294). -/
def sageWhole (c : Cfg) : Option Chk × Cfg :=
  match phaseBad c 3 with
  | some x => (some x, c)
  | none =>
    match phaseBad c 4 with
    | some x => (some x, c)
    | none => let c' := placeLoops (placeAll c); (phaseBad c' 5, c')

/-- Whether two entries are one for a run-time check: a bank, a Draft, a column or a port with everything in its section (R114). -/
def sameEnt (e f : Ent) : Bool :=
  e.typ == f.typ && e.inst == f.inst &&
  ((e.typ == 0xC01 || e.typ == 0xB00 || e.typ == 0x600) || ((e.typ == 0x400 || e.typ == 0xE00) && e.part == 0) || (e.part == f.part && e.idx == f.idx))

/-- The checks of the numbered tables an entry uses, which hold outside any image. -/
def tableChk (c : Cfg) (e : Ent) : List Chk :=
  match e.typ, e.part with
  | 0x500, 1 => if 32 ≤ c.chanCurve e.idx then ucurveField c 0 (c.chanCurve e.idx) else []
  | 0x600, _ => if 32 ≤ c.cellCurve e.inst then grainField c 0 (c.cellCurve e.inst) else []
  | 0xB00, _ => ((List.range (min 64 (c.colZones e.inst))).map (fun z => if c.zoneType e.inst z = 1 then [] else dryField c 0 (c.zoneTable e.inst z))).flatten
  | 0x900, 1 => let t := c.fF (movA e.idx 0) 16 8; if t < 16 then tabField c t t ++ tabRefs c t t else []
  | _, _ => []

/-- Every check of the running configuration outside a whole image. -/
def allChk (c : Cfg) (off : Nat) : List Chk × List Chk :=
  let ks := sectKeys c.fx
  ((ks.map (sectField c false)).flatten, (ks.map (sectRefs c false off)).flatten)

/-- The section types whose budgets a change of an entry affects. -/
def budgetKeys (c : Cfg) (e : Ent) : List (Nat × Nat) :=
  let pair : List (Nat × Nat) := if c.img.pairOn then [(0x300, 0)] else []
  let cols := (List.range c.fx.nCols).map (fun n => (0xB00, n))
  pair ++ (match e.typ with
  | 0x400 => [(0x400, e.inst)]
  | 0x600 => [(0x600, e.inst)]
  | 0xA00 => (0xA00, 0) :: cols
  | 0xB00 => cols
  | 0xC00 => [(0xC00, 0)]
  | 0xC01 => [(0xC00, 0)]
  | 0xE00 => [(0xE00, e.inst)]
  | 0xE01 => (List.range 4).map (fun p => (0xE00, p))
  | _ => [])

/-- The run-time check of an entry that is being enabled (R114): the entry, what it references, what references it, every rule that the enable newly
breaks, and the budgets. `c0` is the configuration before the enable. -/
def sageEntry (c0 c : Cfg) (e : Ent) : Option Chk × Cfg :=
  let (fs, rs) := allChk c 0xA047
  let (fs0, rs0) := allChk c0 0xA047
  let stood := (fs0 ++ rs0).filter (·.bad)
  let refd := (rs.filter (fun x => sameEnt e x.own)).filterMap (·.ref)
  let names : Option Ent → Bool := fun r => match r with | some r => sameEnt e r | none => false
  let from_ := (rs.filter (fun x => names x.ref)).map (·.own)
  let near : Chk → Bool := fun x => sameEnt e x.own || refd.any (fun r => sameEnt r x.own) || from_.any (fun r => sameEnt r x.own) || names x.also ||
    (x.bad && !stood.any (fun y => y.own == x.own && y.off == x.off && y.code == x.code))
  let field := (fs.filter near ++ tableChk c e).filter (fun x => x.bad && phaseOf x.code 3 == 3) ++ rs.filter (fun x => near x && x.bad && phaseOf x.code 4 == 3)
  let refs := fs.filter (fun x => near x && x.bad && phaseOf x.code 3 == 4) ++ (rs.filter near ++ tableChk c e).filter (fun x => x.bad && phaseOf x.code 4 == 4)
  match field.head? with
  | some x => (some x, c)
  | none =>
    match refs.head? with
    | some x => (some x, c)
    | none =>
      let c' := match e.typ, e.part with
        | 0x400, 1 => placeOne (64 * e.inst + e.idx) c
        | 0xA00, _ => placeOneLoop e.idx c
        | _, _ => c
      (firstBad ((budgetKeys c' e).map (sectBudget c')).flatten, c')

/-- The subsystem nibble of an entry's codes. -/
def Ent.sub (e : Ent) : Nat := 0x1000 * (e.typ / 256)

/-- The refusal of clearing an entry's enable bit, 0 for none; `c` has the entry disabled (R114, R164, R350). -/
def disableCode (c : Cfg) (d : Dyn) (e : Ent) : Nat :=
  let rs := (allChk c 0xA003).2
  let named := rs.any (fun x => match x.ref with
    | some r => sameEnt e r && !sameEnt e x.own
    | none => x.bad && x.code == 0xA003 && e.typ == 0xA00)
  let busy := e.typ == 0xC01 && (List.range c.fx.nUnits).any (fun u =>
    c.unitEn u && c.unitCmdr u == 1 && c.unitCmdrIdx u == e.inst && (d.unit u).state != 0 && (d.unit u).state != 4)
  let bk := d.bank e.inst
  -- the lists in force name the descriptor, whatever an edit that waits says (R157)
  let listed := e.typ == 0x400 && e.part == 1 && c.bankEn e.inst && (bk.runList ++ bk.scanList).contains e.idx
  if busy then 0xC046 else if named || listed then e.sub + 3 else 0

/-- Put a code into the status register of the block an entry belongs to (R113, R114). -/
def blockReason (e : Ent) (code : Nat) (d : Dyn) : Dyn :=
  let grp : Nat → Dyn := fun g => d.setGrp g { d.grp g with reason := code }
  match e.typ with
  | 0x000 => d.setAct e.idx { d.act e.idx with result := code }
  | 0x300 => { d with pair := { d.pair with reason := code } }
  | 0x400 => d.setBank e.inst { d.bank e.inst with reason := code }
  | 0x500 => { d with cnv := { d.cnv with reason := code } }
  | 0x501 => { d with cnv := { d.cnv with reason := code } }
  | 0x600 => { d with mst := { d.mst with reason := code } }
  | 0x601 => { d with mst := { d.mst with reason := code } }
  | 0x800 => grp e.inst
  | 0x900 => if e.part = 0 then grp (4 + e.idx) else grp (4 + e.idx / 16)
  | 0xA00 =>
    let d1 := d.setLp e.idx { d.lp e.idx with reason := code }
    if code = 0 ∨ code = 0xA006 then { d1 with ctl := { d1.ctl with reason := code } } else d1
  | 0xA01 => d.setGen e.idx { d.gen e.idx with reason := code }
  | 0xA02 => d.setOvr e.idx { d.ovr e.idx with reason := code }
  | 0xA03 => d.setTrc e.idx { d.trc e.idx with reason := code }
  | 0xB00 => d.setCol e.inst { d.col e.inst with reason := code }
  | 0xC00 =>
    let d1 : Dyn := { d with seq := { d.seq with reason := code } }
    if e.part = 1 then d1.setUnit e.idx { d1.unit e.idx with reason := code } else d1
  | 0xC01 => d.setDraft e.inst { d.draft e.inst with reason := code }
  | 0xD00 => { d with grd := { d.grd with reason := code } }
  | 0xD01 => { d with grd := { d.grd with reason := code } }
  | 0xE00 => d.setPort e.inst { d.port e.inst with reason := code }
  | _ => d

/-- The result of a check, in CFG_STAT.LAST_REASON (R127). -/
def lastReason (code : Nat) (d : Dyn) : Dyn := { d with cfg := { d.cfg with lastReason := code } }

/-- The place of a whole image's failure (R129). -/
def putLoc (b : Bad) (d : Dyn) : Dyn := { d with cfg := { d.cfg with locType := b.typ, locEntry := b.entry, errOff := b.off } }

end Sys2Proof.Machine
end

