-- ==== Sys2Proof/Machine/Flags.lean ====
section
/-! DEFINITION. The status and flag words of the state manager, the supplies, the loader, the time base, the fault manager, the guard
path and the data port, and how their write-1-to-clear flags clear (R7, R29 to R31, R90 to R95, R127 to R132, R444 to R448, R466 to R468,
R522). -/

namespace Sys2Proof.Machine

open Sys2Proof

/-- The halves of a 64-bit value. -/
def lo32 (x : Nat) : Word := BitVec.ofNat 32 x
def hi32 (x : Nat) : Word := BitVec.ofNat 32 (x / 2 ^ 32)

/-- A command register as it reads: its commands and key 0, its result in the high half (R30). -/
def resultWord (code : Nat) : Word := packW [at_ 16 16 code]

/-- The argument field of a command register, which is no command and keeps what was last written with one (R12): COPY (R128), TERM (R446)
and REGION (R541). -/
def cmdArg (a : Nat) : Word :=
  if a = 0x20008 then maskAt 2 1 else if a = 0x50018 then maskAt 2 6 else if a = 0x500018 then maskAt 2 3 else 0

/-- Word `k` of a 32-byte big-endian value whose byte 4k stands in bits [7:0] (R132). -/
def digestWord (x k : Nat) : Word :=
  let b : Nat → Nat := fun i => x / 256 ^ (31 - i) % 256
  packW [at_ 0 8 (b (4 * k)), at_ 8 8 (b (4 * k + 1)), at_ 16 8 (b (4 * k + 2)), at_ 24 8 (b (4 * k + 3))]

/-- GLB_STATE.ROLE (R29). -/
def Role.num : Role → Nat
  | .none => 0
  | .active => 1
  | .standby => 2

/-- GLB_STATE (R29). -/
def stateWord (c : Cfg) (d : Dyn) : Word :=
  packW [at_ 0 3 d.glb.st.num, at_ 4 2 d.glb.role.num, b1 6 (c.img.ok && c.img.expert), b1 7 c.img.ok, at_ 16 16 d.glb.lastCause]

/-- GLB_DPSTAT (R522). -/
def dpStatWord (d : Dyn) : Word :=
  packW [b1 0 d.dp.lock.isSome, b1 1 d.dp.expired, b1 2 d.dp.frameErr, b1 3 d.dp.underrun, b1 4 d.dp.overrun, at_ 16 10 d.dp.queue.length]

/-- The GLB block (R7, R29 to R31, R522). -/
def glbWord (c : Cfg) (d : Dyn) (o : Nat) : Word :=
  match o with
  | 0x00 => lo32 c.fx.id
  | 0x04 => hi32 c.fx.id
  | 0x08 => packW [c.fx.word]
  | 0x0C => stateWord c d
  | 0x10 => resultWord d.glb.cmdResult
  | 0x14 => lo32 d.frame
  | 0x24 => dpStatWord d
  | 0x28 => packW [at_ 0 16 d.dp.code, at_ 16 16 d.dp.count]
  | 0x2C => lo32 d.dp.addr
  | 0x34 => packW [at_ 0 8 d.dp.irq]
  | _ => 0

/-- VAO_LEVEL (R90): the level reported in the present second of device time, and in every other second a free value (log entry 77). Before the
first second has passed it reads its reset value. -/
def Dyn.vaoRead (d : Dyn) : Nat := if d.ms / 1000 = d.pwr.vaoAt then d.pwr.vaoLevel else (Config.vaoLevelFree (d.ms / 1000)).toNat

/-- The PWR block (R90, R91, R94, R95). -/
def pwrWord (d : Dyn) (o : Nat) : Word :=
  let p := d.pwr
  match o with
  | 0x00 => packW [b1 0 p.v33, b1 1 p.v33a, b1 2 p.vaoOk, b1 3 p.vio, b1 4 (!p.v33 || d.glb.st == .dormant), b1 5 (p.fast && p.xt25),
                   b1 6 (p.fast && p.xt32), b1 7 p.rc, at_ 16 8 d.vaoRead]
  | 0x04 => packW [at_ 0 6 p.rst]
  | 0x10 => packW [at_ 0 24 (p.calOfs % 2 ^ 24).toNat, b1 24 p.calValid, b1 25 p.calOut]
  | 0x14 => packW [at_ 0 20 p.burstLast, at_ 20 8 p.overruns]
  | 0x18 => lo32 p.scanCount
  | _ => 0

/-- CFG_STAT (R127). -/
def cfgStatWord (c : Cfg) (d : Dyn) : Word :=
  packW [at_ 0 2 (if c.img.ok then c.img.source else 0), b1 2 (c.img.ok && c.img.signed), b1 3 (d.cfg.fuse0.valid || d.cfg.fuse1.valid),
         b1 4 (d.cfg.session == .opened), b1 5 d.cfg.commit.isSome, b1 6 d.cfg.fallback, at_ 16 16 d.cfg.lastReason]

/-- The fused key hash in force: the newer valid bank (R109). -/
def CfgSt.keyHash (x : CfgSt) : Option Nat :=
  if x.fuse1.valid then some x.fuse1.hash else if x.fuse0.valid then some x.fuse0.hash else none

/-- The CFG block (R127 to R132). -/
def cfgWord (c : Cfg) (d : Dyn) (o : Nat) : Word :=
  let x := d.cfg
  let slot : Slot → Word := fun s => packW [at_ 0 2 s.state, at_ 16 16 (if s.state = 3 then s.reason else 0)]
  if 0x40 ≤ o ∧ o < 0x60 then (if c.img.ok then digestWord x.digest ((o - 0x40) / 4) else 0)
  else if 0x60 ≤ o ∧ o < 0x80 then digestWord (x.keyHash.getD 0) ((o - 0x60) / 4)
  else match o with
  | 0x00 => cfgStatWord c d
  | 0x04 => lo32 (if c.img.ok then c.img.gen else 0)
  | 0x08 => resultWord x.sesResult
  | 0x0C => resultWord x.cmdResult
  | 0x10 => packW [b1 0 x.errLocked, b1 1 x.errNoSession]
  | 0x14 => lo32 x.errAddr
  | 0x18 => packW [at_ 0 16 x.locType, at_ 16 16 x.locEntry]
  | 0x1C => lo32 x.errOff
  | 0x20 => slot x.slotA
  | 0x24 => slot x.slotB
  | 0x28 => lo32 x.slotA.gen
  | 0x2C => lo32 x.slotB.gen
  | 0x30 => packW [at_ 0 3 x.wbState, at_ 3 1 x.wbSlot, at_ 16 16 x.wbProgress]
  | 0x34 => x.flash.word
  | 0xA0 => resultWord x.fuseResult
  | _ => 0

/-- The TIM block (R466 to R468). -/
def timWord (c : Cfg) (d : Dyn) (o : Nat) : Word :=
  let t := d.tim
  let ofs := (t.ofs % (2 ^ 64 : Int)).toNat
  if 0x1000 ≤ o ∧ o < 0x3000 then
    let a := (o - 0x1000) / 0x20
    let x := d.act a
    match o % 0x20 with
    | 0x18 => packW [at_ 0 3 x.state, b1 3 x.late, b1 4 x.stepped, b1 5 x.slept, at_ 8 8 x.skipped, at_ 16 16 x.result]
    | 0x1C => if x.state = 2 then lo32 x.firedAt else if x.state = 1 then lo32 (shortOf (actDue c a x x.next % (2 ^ 64 : Int)).toNat) else 0
    | _ => 0
  else match o with
  | 0x00 => lo32 t.dev
  | 0x04 => hi32 t.dev
  | 0x08 => lo32 t.net
  | 0x0C => hi32 t.net
  | 0x10 => packW [at_ 0 8 t.epoch]
  | 0x14 => lo32 (shortOf t.dev)
  | 0x18 => lo32 (shortOf t.net)
  | 0x1C => lo32 ofs
  | 0x20 => hi32 ofs
  | 0x38 => lo32 t.slewLeft
  | 0x3C => resultWord t.cmdResult
  | 0x40 => packW [b1 0 t.netSet, b1 1 (t.slewLeft != 0), b1 2 d.pwr.slow,
                   at_ 8 8 (min 255 (t.acts.filter (fun x => x.2.state == 1)).length), at_ 16 16 t.steps]
  | 0x44 => lo32 (incF c t)
  | _ => 0

/-- The FLT block (R447, R448). -/
def fltWord (d : Dyn) (o : Nat) : Word :=
  let f := d.flt
  if 0x10 ≤ o ∧ o < 0x30 then
    match f.find f.sel with
    | some r => BitVec.ofNat 32 (leAt r.copy.bytes (o - 0x10) 4)
    | none => 0
  else match o with
  | 0x00 => packW [at_ 0 11 f.recs.length, b1 11 d.haltOpen, at_ 16 7 f.queue.length, b1 23 f.healthy]
  | 0x04 => packW [at_ 0 16 f.drops, at_ 16 16 f.merged]
  | 0x08 => packW [at_ 0 9 f.events.length]
  | 0x0C => packW [at_ 0 16 f.sel]
  | 0x30 => resultWord f.cmdResult
  | 0x34 => packW [at_ 0 16 f.lastCode, at_ 16 3 f.lastSev]
  | _ => 0

/-- Bits of a predicate over 32 objects from `base` on. -/
def bits32 (base : Nat) (p : Nat → Bool) : Word := BitVec.ofNat 32 (ofBits ((upFrom base 32).map p))

/-- The GRD block (R444 to R446). -/
def grdWord (c : Cfg) (d : Dyn) (o : Nat) : Word :=
  let en := (List.range c.fx.nTerms).filter (fun n => c.img.ok && c.termEn n)
  if 0x900 ≤ o ∧ o < 0xA00 then
    let t := d.term ((o - 0x900) / 4)
    packW [b1 0 t.value, b1 1 t.tripped, b1 2 t.hold, at_ 3 4 t.src, at_ 7 4 t.inv, at_ 16 16 t.count]
  else match o with
  | 0x00 => packW [at_ 0 7 en.length, b1 7 (en.any (fun n => (d.term n).hold)), b1 8 d.grd.pathOk, at_ 16 16 d.grd.reason]
  | 0x04 => bits32 0 (fun n => en.contains n && (d.term n).tripped)
  | 0x08 => bits32 32 (fun n => en.contains n && (d.term n).tripped)
  | 0x0C => bits32 0 (fun k => rank3Do c d k (c.pairOdd k))
  | 0x10 => bits32 32 (fun k => rank3Do c d k (c.pairOdd k))
  | 0x14 => bits32 0 (rank3Mv c d)
  | 0x18 => resultWord d.grd.cmdResult
  | _ => 0

/-- A write of 1 clears a flag (R91, R129, R522). -/
def w1c (flags v n : Nat) : Nat := forEach (List.range n) flags (fun k f => if v.testBit k then putBit f k false else f)

/-- A write to PWR_RSTCAUSE (R91). -/
def rstCauseWrite (v : Word) (d : Dyn) : Dyn := { d with pwr := { d.pwr with rst := w1c d.pwr.rst v.toNat 6 } }

/-- A write to CFG_ERR (R129). -/
def cfgErrWrite (v : Word) (d : Dyn) : Dyn :=
  { d with cfg := { d.cfg with errLocked := d.cfg.errLocked && !bit v 0, errNoSession := d.cfg.errNoSession && !bit v 1 } }

/-- A write to GLB_DPSTAT (R522). -/
def dpStatWrite (v : Word) (d : Dyn) : Dyn :=
  { d with dp := { d.dp with expired := d.dp.expired && !bit v 1, frameErr := d.dp.frameErr && !bit v 2,
                             underrun := d.dp.underrun && !bit v 3, overrun := d.dp.overrun && !bit v 4 } }

/-- A write to GLB_IRQ (R522). -/
def irqWrite (v : Word) (d : Dyn) : Dyn := { d with dp := { d.dp with irq := w1c d.dp.irq v.toNat 8 } }

/-- The interrupt line DP_IRQ_N is low (R521). -/
def irqLow (c : Cfg) (d : Dyn) : Bool := d.dp.irq &&& c.fF 0x30 0 8 != 0

end Sys2Proof.Machine
end

