-- ==== Sys2Proof/Machine/Status.lean ====
section
/-! DEFINITION. The status registers and windows of every block, as a read finds them (R165, R168, R196, R198, R238, R239, R270, R273, R275,
R304, R306, R328 to R330, R358 to R361, R389 to R392, R413 to R415, R504 to R509, R540 to R542, R564). -/

namespace Sys2Proof.Machine

open Sys2Proof

/-- Whether the enable bit of the word at an address waits for Sage (R114). -/
def Dyn.checkingAt (d : Dyn) (a : Nat) : Bool := d.cfg.checks.any (fun k => k.addr == a)

/-- A state field: 0 disabled, 1 checking, else as given (R114). -/
def blockState (d : Dyn) (en : Bool) (a n : Nat) : Nat := if d.checkingAt a then 1 else if en then n else 0

/-- Bank `b`'s status (R165, R166, R168). -/
def afeWord (c : Cfg) (d : Dyn) (b o : Nat) : Word :=
  let x := d.bank b
  if 0x900 ≤ o ∧ o < 0xA00 then
    let k := 64 * b + (o - 0x900) / 4
    let y := d.desc k
    let rv := if y.revisit = 0 ∨ c.descGuard k ∨ 65536 * 2048 ≤ y.revisit + 2048 then 0xFFFF else y.revisit / 2048
    packW [at_ 0 16 (if c.img.ok then rv else 0), b1 16 y.pending, at_ 17 3 y.unsettled, b1 20 y.lastValid, b1 21 y.ovf,
           b1 22 y.compliance, b1 23 y.pol]
  else if 0xA00 ≤ o ∧ o < 0xB00 then wordOf (d.desc (64 * b + (o - 0xA00) / 4)).raw
  else match o with
  | 0x00C =>
    let n := if x.failed then 5 else if x.selftest then 4 else if d.standby then 3 else 2
    packW [at_ 0 3 (blockState d (c.bankEn b) (bankA b) n), b1 3 x.listPend, at_ 16 16 x.reason]
  | 0x010 => lo32 x.runUs
  | 0x014 => lo32 x.scanUs
  | 0x018 => packW [b1 0 x.contOn, b1 1 x.contPol, b1 2 x.overload, b1 3 x.retryAt.isSome, at_ 16 8 x.vcurr]
  | 0x01C => resultWord x.cmdResult
  | 0x020 => lo32 x.visits
  | _ => 0

/-- Conversion (R196, R198). -/
def cnvWord (c : Cfg) (d : Dyn) (o : Nat) : Word :=
  let chs := (List.range (64 * c.fx.nBanks)).filter c.chanEn
  if 0x40 ≤ o ∧ o < 0x80 then bits32 (32 * ((o - 0x40) / 4)) (fun s => c.swEn s && (d.sw s).s)
  else if 0x80 ≤ o ∧ o < 0xC0 then bits32 (32 * ((o - 0x80) / 4)) (fun s => c.swEn s && (d.sw s).forced)
  else if 0x9000 ≤ o ∧ o < 0xB000 then
    let k := (o - 0x9000) / 8
    if 64 * c.fx.nBanks ≤ k then 0
    else if (o - 0x9000) % 8 = 0 then wordOf (d.chan k).value
    else packW [chanWord c d k]
  else match o with
  | 0x0 => packW [at_ 0 11 chs.length, at_ 16 16 d.cnv.reason]
  | 0x4 => packW [at_ 0 11 (chs.filter (fun k => chanState c d k == 3)).length]
  | _ => 0

/-- The module's own calibration set (R213). -/
def ownSet (c : Cfg) (d : Dyn) : Nat := if c.fx.pair && !d.pair.seat then 1 else 0

/-- Cell `n`'s results (R237, R238). -/
def mstWord (c : Cfg) (d : Dyn) (n o : Nat) : Word :=
  let x := d.cell n
  if 0x200 ≤ o ∧ o < 0x240 then wordOf (nth 0 (if o % 8 = 0 then x.eps1 else x.eps2) ((o - 0x200) / 8))
  else if 0x280 ≤ o ∧ o < 0x2C0 then wordOf (nth 0 (if o % 8 = 0 then x.g else x.b) ((o - 0x280) / 8))
  else match o with
  | 0x180 => resultWord x.calResult
  | 0x190 =>
    let st := cellState c d n
    packW [at_ 0 2 st, at_ 2 4 (if st = 0 then 0 else if x.state = 0 then 12 else x.cause), b1 6 x.expired,
           b1 7 (st != 0 && !(c.calOpen n (ownSet c d) && c.calShort n (ownSet c d))),
           at_ 16 16 (if st = 0 then 0 else min 65535 ((d.ms - x.at_) / 100))]
  | 0x194 => wordOf x.m
  | 0x198 => wordOf x.rho
  | 0x19C => wordOf x.temp
  | 0x1A0 => wordOf x.qual
  | 0x1A4 => wordOf x.drift
  | 0x1A8 => packW [at_ 0 3 x.resA, at_ 3 3 x.resB, at_ 16 16 (x.sweepUs / 10)]
  | 0x1AC => lo32 x.sweeps
  | 0x2C0 => wordOf x.gref
  | 0x2C4 => wordOf x.bref
  | _ => 0

/-- Cartridge unit `n` (R239, R240) and its copy of the identity memory. -/
def ctgWord (d : Dyn) (n o : Nat) : Word :=
  let x := d.ctg n
  match o with
  | 0x00 =>
    let pend := x.pend != 0 || x.wantIncr || x.wantRows != [] || (match x.tx with | some t => t.kind == 1 || t.kind == 2 | none => false)
    packW [at_ 0 2 x.state, b1 2 x.expired, b1 3 x.lifeWarn, b1 4 pend, at_ 8 8 x.lifePct, at_ 16 16 x.reason]
  | 0x04 => lo32 x.serial
  | 0x08 => hi32 x.serial
  | 0x0C => packW [at_ 0 8 (x.le 0xA 1), at_ 8 8 (x.le 0xB 1), at_ 16 8 (x.le 0x121 1)]
  | 0x10 => lo32 (x.le 0xC 4)
  | 0x14 => lo32 (x.le 0x10 4)
  | 0x18 => lo32 (x.le 0x18 4)
  | 0x1C => lo32 (x.le 0x100 4)
  | 0x20 => packW [at_ 0 20 x.acc, at_ 20 8 x.pend]
  | 0x24 => lo32 (x.le 0x118 4)
  | 0x28 => lo32 (x.le 0x11C 4)
  | 0x2C => resultWord x.result
  | 0x30 => packW [at_ 0 16 x.fails]
  | _ => 0

/-- Column `n`'s status, departure and zone words (R273 to R275). -/
def colWord (c : Cfg) (d : Dyn) (n o : Nat) : Word :=
  let x := d.col n
  let k := x.core
  let en := c.colEn n
  if 0x100 ≤ o ∧ o < 0x300 then
    let e := tget Dep.empty k.deps ((o - 0x100) / 0x10)
    match (o % 0x10) / 4 with
    | 0 => lo32 e.leave
    | 1 => wordOf e.pred
    | 2 => packW [at_ 0 16 e.seq, b1 16 e.unknown, b1 17 e.used, b1 18 e.est]
    | _ => match e.resid with
      | some r => wordOf r
      | none => 0x80000000
  else if 0x800 ≤ o ∧ o < 0xC00 then
    let z := tget ZoneCond.empty k.zones ((o - 0x800) / 0x10)
    match (o % 0x10) / 4 with
    | 0 => wordOf z.ta
    | 1 => wordOf z.rh
    | 2 => wordOf z.k
    | _ => wordOf z.me
  else match o with
  | 0x080 => packW [at_ 0 3 (blockState d en (colA n) (if d.glb.st = .run then 2 else 3)), b1 3 (en && x.isOpen c n), b1 4 (en && x.primed),
                    at_ 16 16 x.reason]
  | 0x084 =>
    let none := en && !x.hasStep
    packW [at_ 0 2 (if !en then 0 else if none then 3 else x.state), at_ 2 4 (if !en then 0 else if none then 1 else x.cause),
           at_ 8 8 k.unknownPct, at_ 16 16 (if en && x.hasStep then min 65535 ((d.ms - k.startedMs) / 100) else 0)]
  | 0x088 => wordOf k.pred
  | 0x08C => wordOf k.temp
  | 0x090 => packW [at_ 0 16 k.ttt]
  | 0x094 => wordOf k.kappa
  | 0x098 => lo32 x.steps
  | 0x09C => packW [at_ 0 16 x.late, at_ 16 16 x.consec]
  | 0x0A0 =>
    let base := if n = 0 then 0 else c.colParcels 0
    packW [at_ 0 12 (base + (if c.colParcels n = 0 then 0 else x.shownHead % c.colParcels n)), at_ 16 13 x.shown.length]
  | 0x0A4 => wordOf k.resid
  | 0x0A8 => packW [at_ 0 16 k.edge]
  | 0x0AC => resultWord x.cmdResult
  | _ => 0

/-- A parcel's word (R270). -/
def Parcel.word (p : Parcel) (j : Nat) : Word :=
  match j with
  | 0 => wordOf p.top
  | 1 => wordOf p.mass
  | 2 => wordOf p.m
  | 3 => wordOf p.theta
  | 4 => wordOf p.entry
  | 5 => lo32 p.born
  | 6 => packW [at_ 0 16 p.seq, at_ 16 8 p.zone, b1 24 true, b1 25 p.unknown, b1 26 p.est, b1 27 p.gap]
  | _ => 0

/-- The parcel window (R270). -/
def parcelWord (c : Cfg) (d : Dyn) (o : Nat) : Word :=
  let s := o / 32
  let n0 := c.colParcels 0
  let at1 : Nat → Nat → Word := fun n i =>
    let x := d.col n
    let len := c.colParcels n
    match x.shown[(i + len - x.shownHead % len) % len]? with
    | some p => p.word (o % 32 / 4)
    | none => 0
  if s < n0 then (if c.colEn 0 then at1 0 s else 0)
  else if c.colEn 1 && decide (s < n0 + c.colParcels 1) then at1 1 (s - n0)
  else 0

/-- Loop `n` and the global loop registers (R304 to R306). -/
def loopWord (c : Cfg) (d : Dyn) (o : Nat) : Word :=
  if o < 0x4000 then
    let n := o / 0x100
    let x := d.lp n
    let en := c.loopEn n
    match o % 0x100 with
    | 0xC0 =>
      packW [at_ 0 3 (blockState d en (loopA n) (if d.glb.st = .run then x.state else 6)), b1 3 x.bank, b1 4 x.satHi, b1 5 x.satLo, b1 6 x.held,
             b1 7 x.missed, at_ 8 2 x.fbCause, at_ 16 16 x.reason]
    | 0xC4 => wordOf x.u
    | 0xC8 => wordOf x.x
    | 0xCC => wordOf x.r
    | 0xD0 => wordOf x.e
    | 0xD4 => wordOf x.p
    | 0xD8 => wordOf (rdivI x.i 65536)
    | 0xDC => wordOf x.dst
    | 0xE0 => wordOf x.f
    | 0xE4 => packW [at_ 0 16 x.total, at_ 16 8 (min 255 x.consec)]
    | 0xE8 => lo32 x.count
    | 0xEC => packW [at_ 0 16 x.tpo.on, at_ 16 16 x.tpo.elapsed]
    | 0xF0 => resultWord x.cmdResult
    | _ => 0
  else match o with
  | 0x4000 => packW [at_ 0 7 (c.loopsOn.length), at_ 16 16 d.ctl.reason]
  | 0x4004 => packW [at_ 0 16 d.ctl.worst, at_ 16 16 d.ctl.worstIdx]
  | 0x4008 => lo32 d.ctl.missFrames
  | 0x400C => packW [at_ 0 16 d.ctl.lastEnd, at_ 16 16 d.ctl.peakEnd]
  | _ => 0

/-- Generators, override groups and trace channels (R328 to R330). -/
def prfWord (c : Cfg) (d : Dyn) (o : Nat) : Word :=
  let n := o / 0x40
  let x := d.gen n
  match o % 0x40 with
  | 0x14 =>
    let hold := c.bF (prfA n) 1 && decide (x.v = 0) && decide (x.a = 0)
    let st := if d.glb.st ≠ .run then 5 else if hold then 4 else if x.atTarget then 3 else 2
    packW [at_ 0 3 (blockState d (c.genEn n) (prfA n) st), b1 3 x.ovf, at_ 16 16 x.reason]
  | 0x18 => wordOf x.out
  | 0x1C => wordOf (rdivI (x.v * 1000) (2 ^ 32))
  | 0x20 => wordOf (rdivI (x.a * 1000000) (2 ^ 32))
  | 0x24 => resultWord x.cmdResult
  | _ => 0

def ovrWord (c : Cfg) (d : Dyn) (o : Nat) : Word :=
  let g := o / 0x40
  let x := d.ovr g
  match o % 0x40 with
  | 0x18 => packW [at_ 0 2 (blockState d (c.ovrEn g) (ovrA g) (if d.glb.st = .run then 2 else 3)), at_ 2 6 x.winner, at_ 16 16 x.reason]
  | 0x1C => wordOf x.u
  | 0x20 => lo32 x.switches
  | _ => 0

def trcWord (d : Dyn) (o : Nat) : Word :=
  let x := d.trc (o / 0x40)
  match o % 0x40 with
  | 0x18 => resultWord x.cmdResult
  | 0x1C => packW [at_ 0 3 (if d.checkingAt (0x1A2000 + o / 0x40 * 0x40 + 0x18) then 1 else x.state), at_ 3 2 x.cause, at_ 16 12 x.preGot]
  | 0x20 => packW [at_ 0 13 x.ring.length]
  | 0x24 => lo32 x.frame
  | 0x28 => lo32 x.time
  | 0x2C => hi32 x.time
  | 0x30 => packW [at_ 0 8 x.epoch]
  | _ => 0

/-- The sequencer, its Drafts and the units (R358 to R361). -/
def seqWord (c : Cfg) (d : Dyn) (o : Nat) : Word :=
  let q := d.seq
  if 0x100 ≤ o ∧ o < 0x200 then
    let n := (o - 0x100) / 0x40
    let x := d.draft n
    match o % 0x40 with
    | 0x00 => BitVec.ofNat 32 ((c.w (draftA n 0)).toNat % 0x10000)
    | 0x04 =>
      let st := if d.glb.st ≠ .run then 4 else if x.held then 3 else 2
      packW [at_ 0 3 (blockState d (c.draftEn n) (draftA n 0) st), b1 3 x.holdPend, at_ 8 8 x.step, at_ 16 16 x.reason]
    | 0x08 => packW [at_ 0 8 x.prev, at_ 8 4 x.entry, at_ 12 4 x.trans, at_ 16 16 x.entries]
    | 0x0C => lo32 (min (2 ^ 32 - 1) (if d.glb.st = .safe ∨ d.glb.st = .boot then x.time else x.stepTime d.ms))
    | 0x10 => resultWord x.cmdResult
    | 0x14 => packW [at_ 0 16 x.aborts, at_ 16 4 x.abortCause, at_ 24 8 x.abortUnit]
    | _ => 0
  else if 0x1000 ≤ o ∧ o < 0x2000 then
    let u := (o - 0x1000) / 0x10
    let x := d.unit u
    let en := c.unitEn u
    match o % 0x10 with
    | 0x0 =>
      if u < c.fx.nUnits then
        packW [at_ 0 3 (if d.checkingAt (unitA u 0) then 6 else if en then x.state else 5), b1 3 x.cmd, b1 4 x.proof, b1 5 x.ready,
               b1 6 (en && unitFaultOut c d u), b1 7 x.acked, at_ 8 4 x.cause, at_ 16 16 x.reason]
      else 0
    | 0x4 => if en then lo32 (min (2 ^ 32 - 1) (d.ms - x.enterMs)) else 0
    | 0x8 => resultWord x.cmdResult
    | _ => packW [at_ 0 16 x.refused, at_ 16 16 x.starts]
  else match o with
  | 0x00 => packW [at_ 0 9 ((List.range c.fx.nUnits).filter c.unitEn).length, at_ 16 16 q.reason]
  | 0x04 => packW [at_ 0 16 q.lastUs, at_ 16 16 q.peakUs]
  | 0x08 => packW [at_ 0 16 q.worst]
  | 0x0C => lo32 q.late
  | 0x10 => lo32 q.flags
  | 0x1C => lo32 q.passes
  | _ => 0

/-- The state of a field group (R389, R415). -/
def grpStatWord (c : Cfg) (d : Dyn) (g : Nat) : Word :=
  let x := d.grp g
  packW [at_ 0 3 (blockState d (c.grpEn g) (grpA g) x.cond), b1 3 x.low, b1 4 x.restorable, b1 5 x.cfOk, b1 6 (x.line == 2), at_ 16 16 x.reason]

def grpSupplyWord (d : Dyn) (g : Nat) : Word := packW [at_ 0 12 (d.grp g).now, at_ 16 12 (d.grp g).min]

/-- Digital group `g` (R389, R390, R392). -/
def dioWord (c : Cfg) (d : Dyn) (g o : Nat) : Word :=
  let x := d.grp g
  if 0x200 ≤ o ∧ o < 0x300 then
    let k := 16 * g + (o - 0x200) / 0x10
    let y := d.dch k
    let en := c.grpEn g && c.dioEn k
    let out := c.isOut k
    match o % 0x10 with
    | 0x0 =>
      let cause := if out then (if x.cond = 5 ∨ x.cond = 6 then 3 else 0) else dioCause d k
      let latch := if (d.dch (c.owner k)).latch ≠ 0 then (d.dch (c.owner k)).latch else if out then x.latch else 0
      packW [at_ 0 2 (if !en then 0 else if cause = 0 then 1 else 3), b1 2 (if out then x.applied.testBit (k % 16) else y.level),
             b1 3 (x.rb.testBit (k % 16)), at_ 4 4 (if en then cause else 0), at_ 8 4 latch, at_ 12 2 y.retries, b1 14 y.openLoad, at_ 16 12 y.load]
    | 0x4 => lo32 y.count
    | 0x8 => wordOf y.rate
    | _ => resultWord y.cmdResult
  else match o with
  | 0x004 => grpStatWord c d g
  | 0x008 => grpSupplyWord d g
  | 0x00C => resultWord x.cmdResult
  | 0x010 => packW [bits16 g (fun k => c.isIn k && (d.dch k).level), at_ 16 16 (bits16 g (fun k => c.isIn k && c.grpEn g && dioCause d k == 0))]
  | 0x014 => packW [at_ 0 16 x.applied, at_ 16 16 x.rb]
  | 0x020 => packW [bits16 g (fun k => c.isOut k && dioLatched c d k)]
  | 0x024 => packW [at_ 0 8 x.wdCnt, at_ 8 8 x.badCnt, at_ 16 8 x.refused]
  | _ => 0

/-- Mover channel `n` and the mover groups (R414, R415). -/
def movWord (c : Cfg) (d : Dyn) (o : Nat) : Word :=
  if o < 0x2000 then
    let n := o / 0x100
    let x := d.mch n
    let g := d.grp (4 + n / 16)
    let en := c.movEn n
    match o % 0x100 with
    | 0x44 =>
      let st := if !en then 0 else if x.parked then 7 else if c.movPlain n then (if d.glb.st = .run then 3 else 1) else x.state
      let latch := if x.latch ≠ 0 then x.latch else if g.latch = 4 then 3 else if g.latch = 5 then 4 else 0
      packW [at_ 0 3 st, b1 3 (en && c.movDem n == 2 && (d.dtab (c.movTable n)).req), b1 4 x.openIn, b1 5 (x.noPulse && !c.movPlain n), b1 6 x.evid, b1 7 x.speedOk,
             at_ 8 3 x.retry, at_ 11 3 latch, at_ 16 16 (if en then min 65535 ((d.ms - x.since) / 100) else 0)]
    | 0x48 => wordOf x.rpm
    | 0x4C => wordOf x.uc
    | 0x50 => wordOf x.e
    | 0x54 => packW [at_ 0 16 x.starts, at_ 16 16 x.stalls]
    | 0x58 => resultWord x.cmdResult
    | _ => 0
  else if o < 0x2200 then
    let g := 4 + (o - 0x2000) / 0x100
    match o % 0x100 with
    | 0x4 => grpStatWord c d g
    | 0x8 => grpSupplyWord d g
    | 0xC => resultWord (d.grp g).cmdResult
    | _ => 0
  else 0

/-- A frame buffer's word (R507). -/
def CBuf.word (b : CBuf) (j : Nat) : Word :=
  match j with
  | 0 => packW [at_ 0 4 b.dlc, b1 4 b.fd, b1 5 b.brs, b1 6 b.esi, b1 7 b.rtr, b1 8 b.ext, at_ 16 8 b.epoch]
  | 1 => packW [at_ 0 29 b.id]
  | 2 => lo32 b.stamp
  | 3 => hi32 b.stamp
  | _ => BitVec.ofNat 32 (leAt b.data (4 * (j - 4)) 4)

/-- The buffer of a mailbox as it reads: a transmit buffer shows the format configured (R507). -/
def mbxBufWord (c : Cfg) (d : Dyn) (p m j : Nat) : Word :=
  let y := (d.port p).mb m
  if c.mbxEn p m && c.mbxTx p m then
    { y.buf with dlc := if c.mbxMap p m then c.mbxDlc p m else y.buf.dlc, fd := c.mbxFd p m, brs := c.bF (mbxA p m 0) 6, esi := false,
                 rtr := c.bF (mbxA p m 0) 7, ext := c.mbxIde p m, id := c.mbxId p m }.word j
  else y.buf.word j

/-- Port `p` (R504 to R508). -/
def canWord (c : Cfg) (d : Dyn) (p o : Nat) : Word :=
  let x := d.port p
  if 0x200 ≤ o ∧ o < 0x300 then
    let l := x.launch ((o - 0x200) / 0x10)
    match o % 0x10 with
    | 0x8 => packW [at_ 0 3 l.state, at_ 3 3 l.txres, at_ 16 16 l.reason]
    | 0xC => lo32 l.sent
    | _ => 0
  else if 0x400 ≤ o ∧ o < 0x600 then
    let m := (o - 0x400) / 0x10
    let y := x.mb m
    if o % 0x10 = 0xC then
      packW [at_ 0 3 y.txres, b1 3 y.pending, b1 4 y.unread, b1 5 y.ovf, at_ 6 2 (min 3 y.clashes), at_ 16 16 y.overwrites]
    else 0
  else if 0x1000 ≤ o ∧ o < 0x2000 then
    if (o - 0x1000) % 0x80 < 0x50 then mbxBufWord c d p ((o - 0x1000) / 0x80) ((o - 0x1000) % 0x80 / 4) else 0
  else if 0x2000 ≤ o ∧ o < 0x2050 then
    match x.fifo.head? with
    | some b => b.word ((o - 0x2000) / 4)
    | none => 0
  else match o with
  | 0x020 => packW [at_ 0 2 x.est, b1 2 (portMuted c d p && c.portEn p), b1 3 x.blocked, b1 4 x.syncOk, at_ 16 16 x.reason]
  | 0x024 => packW [at_ 0 9 x.tec, at_ 16 8 (min 255 x.rcv), at_ 24 3 x.lec]
  | 0x028 => lo32 x.txcnt
  | 0x02C => lo32 x.rxcnt
  | 0x030 => packW [at_ 0 16 x.fifoDrops, at_ 16 16 x.svcDrops]
  | 0x034 => resultWord x.ctlResult
  | 0x038 => bits32 0 (fun m => (x.mb m).pending)
  | 0x03C => wordOf x.neterr
  | 0x2050 => packW [at_ 0 6 x.fifo.length]
  | _ => 0

/-- CANMAP_STAT (R509). -/
def mapStatWord (c : Cfg) (d : Dyn) (k : Nat) : Word :=
  let x := d.mapS k
  if c.mapEn k then packW [at_ 0 2 (if x.timedOut then 3 else if x.onAlt then 2 else 1), at_ 16 16 x.count] else packW [at_ 16 16 x.count]

/-- The PAIR block (R564, R565). -/
def pairWord (c : Cfg) (d : Dyn) (o : Nat) : Word :=
  let p := d.pair
  if !c.fx.pair then 0
  else match o with
  | 0x00 =>
    let link := match p.lastRx with
      | some t => decide (d.tim.us ≤ t + 2000)
      | none => false
    packW [at_ 0 4 p.state, b1 4 link, b1 5 p.fencing, b1 6 p.fenced, b1 7 p.seat, b1 8 p.present, at_ 9 2 p.thread, b1 11 p.acceptPend,
           at_ 16 16 p.reason]
  | 0x04 => lo32 p.pid
  | 0x08 => hi32 p.pid
  | 0x0C => packW [at_ 0 8 (min 255 p.missed), at_ 16 16 p.crcErr]
  | 0x10 => packW [at_ 0 16 (if c.pairOn then c.streamWorst else 0), at_ 16 16 p.peak]
  | 0x14 => packW [at_ 0 16 (p.done / 2 ^ 20), at_ 16 16 (p.total / 2 ^ 20)]
  | 0x18 => packW [at_ 0 16 p.takes, at_ 16 4 p.takeCause]
  | 0x1C => lo32 p.takeFrame
  | 0x20 => packW [at_ 0 16 p.diverged, at_ 16 16 p.resyncs]
  | 0x24 => resultWord p.cmdResult
  | 0x28 => if c.img.ok then c.w 0x400028 else 0
  | _ => if 0x30 ≤ o ∧ o < 0x40 ∧ c.img.ok then c.w (0x400000 + o) else 0

/-- SEQ of the oldest record a region holds, 0 for none (R540). -/
def Dyn.oldest (d : Dyn) (r : Nat) : Nat :=
  match firstRec (fun x => x.cls == r) (allRecs d.arc) with
  | some x => x.1.seq
  | none => 0

/-- The ARC block (R540 to R542). -/
def arcWord (c : Cfg) (d : Dyn) (o : Nat) : Word :=
  let a := d.arc
  if 0x100 ≤ o ∧ o < 0x200 then
    let r := (o - 0x100) / 0x20
    if 6 ≤ r then 0
    else match o % 0x20 with
    | 0x0 => if c.img.ok then c.w (arcRegA r) else 0
    | 0x4 => packW [at_ 0 8 (a.owned r), b1 8 (d.region r).full, b1 9 ((d.region r).partialRecs != [])]
    | 0x8 => lo32 (d.region r).drops
    | 0xC => lo32 (d.oldest r)
    | 0x10 => hi32 (d.oldest r)
    | _ => 0
  else if 0x1000 ≤ o ∧ o < 0x2000 then
    let t := d.tag ((o - 0x1000) / 0x20)
    match o % 0x20 with
    | 0xC => packW [at_ 0 3 t.state, b1 3 t.fin, b1 4 t.overtaken, b1 5 t.lost, b1 6 t.volatil, at_ 8 8 t.count, at_ 16 13 t.bytes]
    | 0x10 => lo32 t.next
    | 0x14 => hi32 t.next
    | _ => 0
  else match o with
  | 0x00 => packW [at_ 0 2 a.state, b1 2 (decide (a.erased < 8)), at_ 8 8 a.erased, at_ 16 7 a.spare]
  | 0x04 => lo32 a.seq
  | 0x08 => hi32 a.seq
  | 0x0C => packW [at_ 0 16 a.kib, at_ 16 16 a.peak]
  | 0x10 => packW [at_ 0 16 a.rebuilt, at_ 16 16 a.retired]
  | 0x14 => packW [at_ 0 16 a.lostStripes, at_ 16 16 a.offline]
  | 0x18 => resultWord a.cmdResult
  | 0x1C => resultWord a.scmdResult
  | _ => 0

/-- The status word of an address below the windows (R567). -/
def statusWord (c : Cfg) (d : Dyn) (a : Nat) : Word :=
  if a < 0x10000 then glbWord c d a
  else if a < 0x20000 then pwrWord d (a - 0x10000)
  else if a < 0x30000 then cfgWord c d (a - 0x20000)
  else if a < 0x40000 then timWord c d (a - 0x30000)
  else if a < 0x50000 then fltWord d (a - 0x40000)
  else if a < 0x60000 then grdWord c d (a - 0x50000)
  else if a < 0x100000 then 0
  else if a < 0x110000 then (if (a - 0x100000) / 0x1000 < c.fx.nBanks then afeWord c d ((a - 0x100000) / 0x1000) (a % 0x1000) else 0)
  else if a < 0x120000 then 0
  else if a < 0x140000 then cnvWord c d (a - 0x120000)
  else if a < 0x150000 then (if (a - 0x140000) / 0x400 < c.fx.nCells then mstWord c d ((a - 0x140000) / 0x400) (a % 0x400) else 0)
  else if a < 0x151000 then (if (a - 0x150000) / 0x40 < c.fx.nCells then ctgWord d ((a - 0x150000) / 0x40) (a % 0x40) else 0)
  else if a < 0x160000 then
    (if (a - 0x151000) / 0x200 < c.fx.nCells then BitVec.ofNat 32 ((d.ctg ((a - 0x151000) / 0x200)).le (a % 0x200) 4) else 0)
  else if a < 0x180000 then (if (a - 0x160000) / 0x1000 < c.fx.nCols then colWord c d ((a - 0x160000) / 0x1000) (a % 0x1000) else 0)
  else if a < 0x1A0000 then loopWord c d (a - 0x180000)
  else if a < 0x1A1000 then prfWord c d (a - 0x1A0000)
  else if a < 0x1A2000 then ovrWord c d (a - 0x1A1000)
  else if a < 0x1A3000 then trcWord d (a - 0x1A2000)
  else if a < 0x1C0000 then 0
  else if a < 0x1D0000 then seqWord c d (a - 0x1C0000)
  else if a < 0x200000 then 0
  else if a < 0x204000 then dioWord c d ((a - 0x200000) / 0x1000) (a % 0x1000)
  else if a < 0x220000 then 0
  else if a < 0x300000 then movWord c d (a - 0x220000)
  else if a < 0x310000 then canWord c d ((a - 0x300000) / 0x4000) (a % 0x4000)
  else if a < 0x400000 then (if (a - 0x310000) / 4 < 128 then mapStatWord c d ((a - 0x310000) / 4) else 0)
  else if a < 0x500000 then pairWord c d (a - 0x400000)
  else if a < 0x600000 then arcWord c d (a - 0x500000)
  else 0

/-- Registers whose stored word is not what a read shows: flags, requests and values the engines hold (R358, R375, R466, R504, R507). -/
def readsLive (a : Nat) : Bool :=
  isW1C a || a == 0x30038 || a == 0x4000C || a == 0x1C0014 || a == 0x1C0018 ||
  (decide (0x160000 ≤ a) && decide (a < 0x162000) && a % 0x1000 == 0x94) ||
  (decide (0x200000 ≤ a) && decide (a < 0x204000) && (a % 0x1000 == 0x18 || a % 0x1000 == 0x1C)) ||
  (decide (0x300000 ≤ a) && decide (a < 0x310000) && a % 0x4000 == 0x38)

/-- What a read of a register finds (R12, R567): the configuration and operator fields as last written or loaded, else the block's
status. -/
def readReg (c : Cfg) (d : Dyn) (a : Nat) : Word :=
  let b := aliasOf a
  if b ≠ a then statusWord c d a
  else if readsLive a then (if (regAt c.fx a).isSome || isW1C a then statusWord c d a else 0)
  else match fieldsAt c a with
    | some (x, i, f) =>
      let v := c.w a &&& BitVec.ofNat 32 f.all
      if x.typ = 0xFFFF ∧ 16 ≤ x.inst ∧ (a - x.base) % 16 = 0 then
        let st := ((d.port (x.inst - 16)).launch i).state
        if st = 1 ∨ st = 2 then v ||| 1 else v
      else v
    | none => if cmdArg a = 0 then statusWord c d a else statusWord c d a ||| (c.w a &&& cmdArg a)

/-- A word of the staging area (R116) and of the running image's window. -/
def stagingWord (d : Dyn) (o : Nat) : Word :=
  match d.cfg.session with
  | .opened => BitVec.ofNat 32 (leNat ((upFrom o 4).map (tget 0 d.cfg.staging)))
  | _ => 0

/-- A word of any address: the registers and the windows (R513, R567). -/
def readWord (c : Cfg) (d : Dyn) (a : Nat) : Word :=
  if a < 0x10000000 then readReg c d a
  else if a < 0x10200000 then stagingWord d (a - 0x10000000)
  else if a < 0x10800000 then 0
  else if a < 0x10A00000 then (if c.img.ok then BitVec.ofNat 32 (leAt c.img.bytes (a - 0x10800000) 4) else 0)
  else if a < 0x20000000 then 0
  else if a < 0x20020000 then parcelWord c d (a - 0x20000000)
  else if a < 0x30000000 then 0
  else if a < 0x30020000 then
    (let x := d.trc ((a - 0x30000000) / 0x4000)
     if x.state = 2 ∨ x.state = 3 then 0x80000000 else lo32 (nth 0 x.ring (a % 0x4000 / 4)))
  else if a < 0x40000000 then 0
  else if a < 0x40080000 then BitVec.ofNat 32 (leAt (d.tag ((a - 0x40000000) / 0x1000)).buf (a % 0x1000) 4)
  else 0

end Sys2Proof.Machine
end

