-- ==== Sys2Proof/Machine/Operands.lean ====
section
/-! DEFINITION. Command registers: keys, command bits and results (R30, R104, R128 and the command rule of every chapter); and the
subsystem and access rules of an address. -/

namespace Sys2Proof.Machine

open Sys2Proof

/-- The command a write names: the KEY in bits [15:8] matches and exactly one of the low `n` bits is set. -/
def cmdBit (v : Word) (key n : Nat) : Option Nat :=
  if fld v 8 8 = key then
    match (List.range n).filter (fun k => bit v k) with
    | [k] => some k
    | _ => none
  else none

/-- The subsystem of the block an address lies in, as the top nibble of its codes (R567). -/
def subOf (a : Nat) : Nat :=
  0x1000 * (if 0x20 ≤ a ∧ a < 0x10000 then 2 else if a < 0x20000 then 0 else if a < 0x30000 then 1 else if a < 0x40000 then 0
    else if a < 0x100000 then 13 else if a < 0x120000 then 4 else if a < 0x140000 then 5 else if a < 0x150000 then 6 else if a < 0x160000 then 7
    else if a < 0x180000 then 11 else if a < 0x1C0000 then 10 else if a < 0x200000 then 12 else if a < 0x220000 then 8 else if a < 0x300000 then 9
    else if a < 0x400000 then 14 else if a < 0x500000 then 3 else 15)

/-- The key, the number of command bits and the refusal of a malformed write, of a command register (R30, R128, R166, R237, R240, R274,
R305, R328, R330, R360, R361, R390, R415, R446, R448, R467, R505, R541, R565). -/
def cmdShape (a : Nat) : Nat × Nat × Nat :=
  if a = 0x10 then (0xA5, 4, 0x4A)
  else if a = 0x20008 then (0xC3, 2, 0x1054)
  else if a = 0x3003C then (0x71, 3, 0x40)
  else if a = 0x40030 then (0xF4, 3, 0xD045)
  else if a = 0x50018 then (0xD7, 2, 0xD043)
  else if a < 0x110000 then (0x96, 2, 0x4054)
  else if a < 0x150000 then (0x69, 3, 0x6045)
  else if a < 0x160000 then (0x7B, 1, 0x7040)
  else if a < 0x180000 then (0xB4, 3, 0xB040)
  else if a < 0x1A0000 then (0xA7, 2, 0xA040)
  else if a < 0x1A1000 then (0x5D, 1, 0xA049)
  else if a < 0x1C0000 then (0xE1, 3, 0xA04A)
  else if a < 0x1C1000 then (0xD2, 4, 0xC045)
  else if a < 0x200000 then (0x3A, 3, 0xC040)
  else if a < 0x220000 then (if a % 0x1000 = 0xC then (0x8E, 3, 0x8043) else (0x87, 2, 0x8044))
  else if a < 0x222000 then (0x9B, 1, 0x9040)
  else if a < 0x300000 then (0x9E, 3, 0x9043)
  else if a < 0x400000 then (0xE6, 3, 0xE040)
  else if a < 0x500000 then (0x4B, 4, 0x3041)
  else if a = 0x500018 then (0xF3, 2, 0xF040)
  else (0xF1, 2, 0xF040)

/-- Put a reason code into the RESULT of the command register at an address. -/
def putResult (a code : Nat) (d : Dyn) : Dyn :=
  if a = 0x10 then glbResult code d
  else if a = 0x20008 then { d with cfg := { d.cfg with sesResult := code } }
  else if a = 0x2000C then { d with cfg := { d.cfg with cmdResult := code } }
  else if a = 0x200A0 then { d with cfg := { d.cfg with fuseResult := code } }
  else if a = 0x3003C then { d with tim := { d.tim with cmdResult := code } }
  else if a = 0x40030 then fltResult code d
  else if a = 0x50018 then { d with grd := { d.grd with cmdResult := code } }
  else if a < 0x110000 then (let b := (a - 0x100000) / 0x1000; d.setBank b { d.bank b with cmdResult := code })
  else if a < 0x150000 then (let n := (a - 0x140000) / 0x400; d.setCell n { d.cell n with calResult := code })
  else if a < 0x160000 then (let n := (a - 0x150000) / 0x40; d.setCtg n { d.ctg n with result := code })
  else if a < 0x180000 then (let n := (a - 0x160000) / 0x1000; d.setCol n { d.col n with cmdResult := code })
  else if a < 0x1A0000 then (let n := (a - 0x180000) / 0x100; d.setLp n { d.lp n with cmdResult := code })
  else if a < 0x1A1000 then (let n := (a - 0x1A0000) / 0x40; d.setGen n { d.gen n with cmdResult := code })
  else if a < 0x1C0000 then (let t := (a - 0x1A2000) / 0x40; d.setTrc t { d.trc t with cmdResult := code })
  else if a < 0x1C1000 then (let n := (a - 0x1C0100) / 0x40; d.setDraft n { d.draft n with cmdResult := code })
  else if a < 0x200000 then (let u := (a - 0x1C1000) / 0x10; d.setUnit u { d.unit u with cmdResult := code })
  else if a < 0x220000 then
    (let g := (a - 0x200000) / 0x1000
     if a % 0x1000 = 0xC then d.setGrp g { d.grp g with cmdResult := code }
     else let k := 16 * g + (a % 0x1000 - 0x200) / 0x10; d.setDch k { d.dch k with cmdResult := code })
  else if a < 0x222000 then (let n := (a - 0x220000) / 0x100; d.setMch n { d.mch n with cmdResult := code })
  else if a < 0x300000 then (let g := 4 + (a - 0x222000) / 0x100; d.setGrp g { d.grp g with cmdResult := code })
  else if a < 0x400000 then ctlResult ((a - 0x300000) / 0x4000) code d
  else if a < 0x500000 then pairResult code d
  else if a = 0x500018 then arcResult code d
  else scmdResult code d

/-- Command registers whose fields R44 counts as operator fields: all but AFE_BCMD. -/
def cmdIsOp (a : Nat) : Bool := !(decide (0x100000 ≤ a) && decide (a < 0x110000))

/-- A write that a STANDBY accepts from its host data port (R558): the list of the rule, and the words of the Shuttle tags, which change nothing of
the plant (log entry 88). -/
def standbyTakes (a : Nat) (v : Word) : Bool :=
  a == 0x20 || a == 0x24 || a == 0x30 || a == 0x34 || a == 0x4000C || a == 0x20008 || a == 0x2000C || a == 0x500020 || a == 0x50001C ||
  (a == 0x10 && cmdBit v 0xA5 4 == some 3) || (a == 0x40030 && cmdBit v 0xF4 3 == some 2) ||
  (a == 0x500018 && cmdBit v 0xF3 2 == some 1) || (a == 0x400024 && cmdBit v 0x4B 4 == some 3) ||
  (decide (0x1A2000 ≤ a) && decide (a < 0x1A2200) && a % 0x40 == 0x18) || (decide (0x501000 ≤ a) && decide (a < 0x502000))

/-- The running configuration with every word as last written. -/
def Cfg.asW (c : Cfg) : Cfg := { c with reg := { c.reg with f := c.reg.w } }

/-- Basic level, also without configuration (R43, R44). -/
def Cfg.basic (c : Cfg) : Bool := !(c.img.ok && c.img.expert)

/-- Whether the RWL fields of entry `i` of an area are locked (R12, R145, R195, R271, R324, R357, R360, R413, R444, R466, R504, R542). `c` is the
configuration as last written. -/
def areaLocked (c : Cfg) (d : Dyn) (x : Area) (i : Nat) : Bool :=
  match x.typ with
  | 0x500 => c.bF (x.base + i * x.stride) 0
  | 0x501 => (List.range (64 * c.fx.nBanks)).any (fun k => c.chanEn k && c.chanCurve k == 32 + i)
  | 0x600 => c.cellEn x.inst
  | 0xB00 => c.colEn x.inst
  | 0xB01 => (List.range c.fx.nCols).any (fun n => c.colEn n && (List.range (c.colZones n)).any (fun z => c.zoneType n z != 1 && c.zoneTable n z == i))
  | 0xC01 => c.bF (draftA x.inst 0) 0
  | 0xC00 =>
    if x.part = 2 then
      (List.range c.fx.nUnits).any (fun u => c.bF (unitA u 0) 0 && c.unitKind u == 6 && decide (c.memFirst u ≤ i) && decide (i < c.memFirst u + c.memCount u))
    else c.bF (unitA i 0) 0
  | 0xA00 => c.bF (loopA i) 0
  | 0xA03 => (d.trc i).state == 2 || (d.trc i).state == 3
  | 0x901 => (List.range 32).any (fun n => c.movEn n && c.fF (movA n 0) 16 8 == i)
  | 0xD00 => c.img.ok
  | 0xD01 => c.img.ok
  | 0xFFFF =>
    if x.inst = 5 then (d.tag i).state == 1 || (d.tag i).state == 2
    else if 16 ≤ x.inst then ((d.port (x.inst - 16)).launch i).state == 1 || ((d.port (x.inst - 16)).launch i).state == 2 else false
  | _ => if x.en then c.bF (x.base + i * x.stride) 0 else false

/-- Whether the entry that owns a word is enabled, so that its shadowed fields wait for its boundary (R12). -/
def areaOn (c : Cfg) (x : Area) (i : Nat) : Bool :=
  match x.typ with
  | 0x400 => if x.part = 1 then c.bF (x.base + i * x.stride) 0 else c.bF (bankA x.inst) 0
  | 0xA00 => c.bF (loopA i) 0
  | 0xB00 => c.colEn x.inst
  | 0xC01 => c.bF (draftA x.inst 0) 0
  | 0xC00 =>
    if x.part = 2 then
      (List.range c.fx.nUnits).any (fun u => c.bF (unitA u 0) 0 && c.unitKind u == 6 && decide (c.memFirst u ≤ i) && decide (i < c.memFirst u + c.memCount u))
    else c.bF (unitA i 0) 0
  | 0xFFFF => if x.inst = 1 then c.bF (loopA i) 0 else if x.inst = 3 then c.bF (movA i 0) 0 else false
  | _ => x.en && c.bF (x.base + i * x.stride) 0

end Sys2Proof.Machine
end

