-- ==== Sys2Proof/Machine/Writes.lean ====
section
/-! DEFINITION. Writes to registers that act at once, the storing of fields by access class, and the refusals of a write (R12, R44, R113, R129,
R358, R375, R504, R507, R529). -/

namespace Sys2Proof.Machine

open Sys2Proof

/-- The number of the entry an address of stride `stride` from `base` lies in, where its offset in the entry is `off`. -/
def entryOf (a base stride n off : Nat) : Option Nat :=
  if base + off ≤ a ∧ (a - base) % stride = off ∧ (a - base) / stride < n then some ((a - base) / stride) else none

/-- The first refusal of a TXREQ write, 0 where every bit is taken (R475, R481, R558). -/
def txreqCode (c : Cfg) (d : Dyn) (p : Nat) (v : Word) : Nat :=
  if d.standby then 0xE00D
  else
    let bad : Nat → Bool := fun m => !(c.mbxEn p m && c.mbxTx p m) || c.mbxMap p m
    match (List.range 32).find? (fun m => bit v m && (bad m || (launchOf c p (d.port p) m).isSome)) with
    | some m => if bad m then 0xE047 else 0xE00D
    | none => 0

/-- A word of a transmit buffer: DLC in word 0, data from word 4 (R475, R507). -/
def bufferWord (p m j : Nat) (v : Word) (s : State) : State :=
  let b := ((s.d.port p).mb m).buf
  if j = 0 then txBufferPut p m (fld v 0 4) b.data s
  else if 4 ≤ j then
    let o := 4 * (j - 4)
    let full := b.data ++ List.replicate (64 - b.data.length) 0
    txBufferPut p m b.dlc (full.take o ++ leBytes 4 v.toNat ++ full.drop (o + 4)) s
  else s

/-- The channels of a digital group that a unit commands. -/
def unitNamed (c : Cfg) (d : Dyn) (k : Nat) : Bool := (unitOut c d k).isSome

/-- A write that acts at once in place of storing a word: flags that clear where 1 is written, selections, requests, commands to
outputs, buffers and the modes and values the engines hold. Answers the code too; `none` for every other register. -/
def liveWrite (a : Nat) (v : Word) (s : State) : Option (State × Nat) :=
  let c := s.c
  let put : (Dyn → Dyn) → Option (State × Nat) := fun g => some ({ s with d := g s.d }, 0)
  if a = 0x10004 then put (rstCauseWrite v)
  else if a = 0x20010 then put (cfgErrWrite v)
  else if a = 0x24 then put (dpStatWrite v)
  else if a = 0x34 then put (irqWrite v)
  else if a = 0x4000C then put (fun d => { d with flt := { d.flt with sel := fld v 0 16 } })
  else if a = 0x1C0014 then put (flagSet v)
  else if a = 0x1C0018 then put (flagClr v)
  else
    match entryOf a 0x300000 0x4000 4 0x38 with
    | some p => some (txreqWrite p v s, txreqCode c s.d p v)
    | none =>
    match entryOf a 0x200000 0x1000 4 0x18 with
    | some g => put (goutWrite c (unitNamed c s.d) true g v)
    | none =>
    match entryOf a 0x200000 0x1000 4 0x1C with
    | some g => put (goutWrite c (unitNamed c s.d) false g v)
    | none =>
    match entryOf a 0x160000 0x1000 c.fx.nCols 0x94 with
    | some n => some ({ s with d := kappaWrite c n v s.d }, valueCode a v)
    | none =>
    match entryOf a 0x180000 0x100 c.fx.nLoops 0xA0 with
    | some n => some (loopModeWrite n v s, loopModeCode c n v)
    | none =>
    match bufAt a with
    | some (p, m, j) =>
      if j = 0 ∨ 4 ≤ j then some (bufferWord p m j v s, if s.d.standby then 0xE00D else if bufWritable c a then 0 else 0xE047) else some (s, 0)
    | none =>
      if 0x300000 ≤ a ∧ a < 0x310000 ∧ 0x2000 ≤ a % 0x4000 ∧ a % 0x4000 < 0x2050 then
        some ({ s with d := portReason ((a - 0x300000) / 0x4000) 0xE047 s.d }, 0xE047)
      else none

/-- Store the writable bits of a word: RW and unlocked RWL bits at once, RWS bits at once in a disabled entry and else in wait for the entry's
boundary (R12). -/
def storeWord (c : Cfg) (a : Nat) (f : Fields) (on : Bool) (v : Word) : Cfg :=
  let now := BitVec.ofNat 32 (if on then f.rw ||| f.rwl else f.all)
  let sh := BitVec.ofNat 32 f.rws
  let r := c.reg.putW a (mix (c.w a) v (BitVec.ofNat 32 f.all))
  let r1 := r.putF a (mix (c.f a) v now)
  { c with reg := if on ∧ mix (c.w a) v sh ≠ c.w a then { r1 with fresh := tput false r1.fresh a true } else r1 }

/-- The entry whose status shows the refusal of a write to an area: registers that no section carries report with the block they belong to. -/
def ownerEnt (x : Area) (i : Nat) : Option Ent :=
  if x.typ ≠ 0xFFFF then some (entOf x i)
  else match x.inst with
    | 1 => some { typ := 0xA00, inst := 0, part := 1, idx := i }
    | 3 => some { typ := 0x900, inst := 0, part := 1, idx := i }
    | 4 => some { typ := 0x800, inst := (x.base - 0x200000) / 0x1000, part := 0, idx := 0 }
    | n => if 16 ≤ n then some (portEnt (n - 16)) else none

/-- Put a code into the status of the block that owns a register. -/
def areaReason (x : Area) (i code : Nat) (d : Dyn) : Dyn :=
  match ownerEnt x i with
  | some e => blockReason e code d
  | none => d

/-- A locked write: ignored, flagged, and the first one's address captured (R12, R129). -/
def lockedWrite (a : Nat) (d : Dyn) : Dyn :=
  { d with cfg := { d.cfg with errLocked := true, errAddr := if d.cfg.errLocked then d.cfg.errAddr else a } }

/-- A locked write in a block whose REASON shows every refused write: loops, Drafts, field groups, ports and the pair block (R304, R359, R389,
R415, R504, R565). -/
def lockedIn (x : Area) (i a code : Nat) (d : Dyn) : Dyn :=
  let d1 := lockedWrite a d
  match ownerEnt x i with
  | some e => if [0xA00, 0xC01, 0x800, 0x900, 0xE00, 0x300].contains e.typ then blockReason e code d1 else d1
  | none => d1

/-- The fields the image marks as logged (R538, R539). -/
def Cfg.logged (c : Cfg) : List Nat :=
  match c.img.sects.find? (fun x => x.typ == 0xF00) with
  | some x => (List.range 32).map (fun j => leAt c.img.bytes (x.off + 0x290 + 4 * j) 4)
  | none => []

/-- The WRITE record of a logged field whose value a write changed (R37, R529). -/
def logWrite (src a : Nat) (old new : Word) (d : Dyn) : Dyn :=
  d.ledger 8 5 (leBytes 4 a ++ leBytes 4 old.toNat ++ leBytes 4 new.toNat ++ leBytes 1 src ++ [0, 0, 0])

/-- The refusal by the STANDBY of a host write (R558). -/
def standbyRefuse (c : Cfg) (a : Nat) (d : Dyn) : Dyn :=
  let code := subOf a + 0xD
  if isCommand c.fx a then putResult a code d
  else match fieldsAt c (aliasOf a) with
    | some (x, i, _) => areaReason x i code d
    | none => d

/-- A list word of a bank: it waits for LCOMMIT (R157). -/
def isListWord (a : Nat) : Bool :=
  decide (0x100000 ≤ a) && decide (a < 0x110000) && (a % 0x1000 == 4 || (decide (0xC00 ≤ a % 0x1000) && decide (a % 0x1000 < 0xE00)))

/-- The configuration as Sage checks it at run time: every word as last written, but list edits that no LCOMMIT has handed over; `lists` names
the bank whose edits are handed over. -/
def Cfg.asWritten (c : Cfg) (lists : Option Nat) : Cfg :=
  let take : Nat → Bool := fun a => !isListWord a || lists == some ((a - 0x100000) / 0x1000)
  { c with reg := forEach (c.reg.waiting.filter take) c.reg (fun a r => r.putF a (c.w a)) }

end Sys2Proof.Machine
end

