-- ==== Sys2Proof/Machine/ConfigOps.lean ====
section
/-! DEFINITION. The configuration loader: BOOT, write sessions, commits, the write-back, the key fuses, and the checks of enable and commit bits
(R18, R98 to R123, R157, R560). -/

namespace Sys2Proof.Machine

open Sys2Proof

/-- The bytes from position `p` on of a sparse table of bytes, `n` of them. -/
def tblBytes : Nat → Nat → Tbl Byte → List Byte
  | 0, _, _ => []
  | n + 1, p, t =>
    match t with
    | [] => List.replicate (n + 1) 0
    | (j, v) :: r => if p < j then 0 :: tblBytes n (p + 1) ((j, v) :: r) else v :: tblBytes n (p + 1) r

/-- A list of bytes as a sparse table. -/
def bytesTbl (l : List Byte) : Tbl Byte := (l.zipIdx.filter (fun p => p.1 ≠ 0)).map (fun p => (p.2, p.1))

/-- A term starts (R425): it holds its masks until every source has delivered a valid value, and counts those that have. -/
def termStart (c : Cfg) (n : Nat) (d : Dyn) : Dyn :=
  let d0 := if (d.term n).tripped then endTrip n d else d
  if !c.termEn n then d0.setTerm n GTerm.empty
  else
    forEach (List.range (c.termNsrc n)) (d0.setTerm n { GTerm.empty with hold := true }) (fun i d =>
      let w := c.termSrc n i
      let x := w % 1024
      if w.testBit 15 then
        if (d.dch x).hasState && dioCause d x == 0 then deliverTo c true x (d.dch x).level true (srcData c d d.dioLevel) n d else d
      else if c.swEn x && chanUsable c d (c.swChan x) then deliverTo c false x (d.sw x).s true (srcData c d d.dioLevel) n d else d)

/-- Whether a term is the same in two configurations: its enable, LOGIC, latch, sources and masks (R425). -/
def sameTerm (c c' : Cfg) (n : Nat) : Bool :=
  (c.f (termA n 0)) &&& 0xFF0F#32 == (c'.f (termA n 0)) &&& 0xFF0F#32 && (upFrom 1 5).all (fun j => c.f (termA n j) == c'.f (termA n j))

/-- The terms at the boundary that brings a committed image into force (R47, R425). -/
def guardCommit (c c' : Cfg) (d : Dyn) : Dyn :=
  forEach (List.range c.fx.nTerms) d (fun n d => if sameTerm c c' n then d else termStart c' n d)

/-- What Sage reports of a bank: list durations and revisit intervals (R156). -/
def bankFigures (c : Cfg) (b : Nat) (d : Dyn) : Dyn :=
  let r := bankReport c b
  forEach (upFrom (64 * b) 64) (d.setBank b { d.bank b with runUs := r.1, scanUs := r.2.1 }) (fun k d =>
    let v := match r.2.2.find? (fun p => p.1 == k) with | some p => p.2 | none => 0
    d.setDesc k { d.desc k with revisit := v })

/-- A bank's lists and their figures: in force at once, or as an accepted edit (R156, R157). -/
def bankLists (c : Cfg) (b : Nat) (now : Bool) (d : Dyn) : Dyn :=
  let d1 := bankFigures c b d
  let x := d1.bank b
  let run := c.bankList b false
  let scan := c.bankList b true
  d1.setBank b (if now then { x with runList := run, scanList := scan, nextRun := none, nextScan := none, listPend := false }
    else { x with nextRun := if run = x.runList then none else some run, nextScan := if scan = x.scanList then none else some scan,
                  listPend := decide (run ≠ x.runList) })

/-- The figures Sage leaves in status registers: worst frame and worst pass (R293, R353). -/
def figures (c : Cfg) (d : Dyn) : Dyn :=
  let w := c.worstLoad
  { d with ctl := { d.ctl with worst := w.1, worstIdx := w.2 }, seq := { d.seq with worst := c.passCost } }

/-- The presets that name registers which act at once (R104, step 3). -/
def livePresets (s : State) : State :=
  s.c.img.presets.foldl (fun s x => match liveWrite x.1 x.2 s with | some r => r.1 | none => s) s

/-- A cell's enable (R214, R215, R241): what Sage resolved of it, and CELL_UNCALIBRATED. -/
def cellStart (c : Cfg) (n : Nat) (d : Dyn) : Dyn := cellUncal c (ownSet c d) n (cellResolve c n (c.sweepUs n) d)

/-- Channels and cells before their first result (R185, R191, R221). -/
def measureStart (c : Cfg) (d : Dyn) : Dyn :=
  let d1 := forEach ((List.range 1024).filter c.chanEn) d (fun k d => chanStart c k d.dioLevel d)
  forEach ((List.range c.fx.nCells).filter c.cellEn) d1 (fun n d => cellStart c n (d.setCell n { d.cell n with at_ := d.ms }))

/-- An accepted configuration enters a module without one: groups, channels and terms start, lists stand, actions are armed, and INTERVAL is in force (R92, R104, R185,
R381, R425, R458). -/
def configure (s : State) : State :=
  let c := s.c
  let d1 := forEach ((List.range 6).filter c.grpEn) s.d groupStart
  let d2 := forEach (List.range c.fx.nTerms) (measureStart c d1) (termStart c)
  let d3 := forEach (List.range c.fx.nBanks) d2 (fun b d => bankLists c b true d)
  let d4 : Dyn := { d3 with pwr := { d3.pwr with interval := c.scanInterval } }
  livePresets { s with d := fenceLines c (canStart c (armAll c (figures c d4))) }

/-- The flash slot size (R99); without a flash the staging area bounds an image. -/
def CfgSt.slotLen (x : CfgSt) : Nat := if x.flash.valid then x.flash.slotLen else 2 ^ 21

/-- The digest an image carries in its trailer (R106). -/
def imageDigest (l : List Byte) : Nat := beNat ((l.drop (imageLen l - trailerLen l)).take 32)

/-- The status registers of every block after a check that refused nothing (R113). -/
def clearReasons (d : Dyn) : Dyn :=
  let d1 : Dyn := { d with pair := { d.pair with reason := 0 }, cnv := { d.cnv with reason := 0 }, mst := { d.mst with reason := 0 }
                           ctl := { d.ctl with reason := 0 }, seq := { d.seq with reason := 0 }, grd := { d.grd with reason := 0 } }
  let d2 := forEach (List.range 16) d1 (fun n d => d.setBank n { d.bank n with reason := 0 })
  let d3 := forEach (List.range 6) d2 (fun n d => d.setGrp n { d.grp n with reason := 0 })
  let d4 := forEach (List.range 64) d3 (fun n d => d.setLp n { d.lp n with reason := 0 })
  let d5 := forEach (List.range 32) d4 (fun n d => d.setGen n { d.gen n with reason := 0 })
  let d6 := forEach (List.range 8) d5 (fun n d => ((d.setOvr n { d.ovr n with reason := 0 }).setTrc n { d.trc n with reason := 0 }).setDraft n { d.draft n with reason := 0 })
  let d7 := forEach (List.range 4) d6 (fun n d => (d.setCol n { d.col n with reason := 0 }).setPort n { d.port n with reason := 0 })
  forEach (List.range 256) d7 (fun n d => d.setUnit n { d.unit n with reason := 0 })

/-- The CONFIG record, and what the registers show of an accepted image (R127, R529). -/
def acceptImage (i : Image) (d : Dyn) : Dyn :=
  let g := imageDigest i.bytes
  let d0 := clearReasons d
  let d1 : Dyn := { d0 with cfg := { d0.cfg with digest := g, lastReason := 0 } }
  d1.ledger 2 0 (leBytes 4 i.gen ++ leBytes 1 i.source ++ [0, 0, 0] ++ (leBytes 32 g).reverse)

/-- The check of a whole image (R113): the configuration it leaves, or the failure with the entry it concerns. -/
def checkImage (c : Cfg) (d : Dyn) (source : Nat) (l : List Byte) : Option (Bad × Option Ent) × Cfg :=
  match envelopeBad c.fx d.cfg.slotLen d.cfg.keyHash l with
  | some b => (some (b, none), c)
  | none =>
    let c1 := candidate c source l
    match sageWhole c1 with
    | (some x, c2) => (some (chkBad c2 x, some x.own), c2)
    | (none, c2) => (none, c2)

/-- A refused check of a whole image: LAST_REASON, the block's status and the place (R113, R129). -/
def refuseImage (b : Bad) (e : Option Ent) (d : Dyn) : Dyn :=
  let d1 := putLoc b (lastReason b.code d)
  match e with
  | some e => blockReason e b.code d1
  | none => d1

/-- One slot as BOOT finds it (R101, R110, R130). -/
def readSlot (c : Cfg) (len : Nat) (l : List Byte) : Slot :=
  if !magicOk l then { Slot.empty with bytes := l }
  else match headerBad c.fx len (imageBytes l) with
    | some b => { state := 3, reason := b.code, gen := 0, bytes := l }
    | none => { state := 1, reason := 0, gen := imageGen l, bytes := l }

/-- Slot 0 is A and slot 1 is B. -/
def CfgSt.slot (x : CfgSt) (i : Nat) : Slot := if i = 0 then x.slotA else x.slotB
def CfgSt.putSlot (x : CfgSt) (i : Nat) (s : Slot) : CfgSt := if i = 0 then { x with slotA := s } else { x with slotB := s }

/-- The first work of BOOT shows that the fast clocks run (R90). -/
def clocksRun (d : Dyn) : Dyn := if d.glb.st = .boot ∧ d.pwr.resetFrom.isNone then { d with pwr := { d.pwr with fast := true } } else d

/-- BOOT runs: the state is BOOT and the logic side is not held in reset. -/
def Dyn.booting (d : Dyn) : Bool := d.glb.st == .boot && d.pwr.resetFrom.isNone

/-- A slot header that fails its check (R101, R113, R129). -/
def headerRefused (c : Cfg) (len : Nat) (l : List Byte) (d : Dyn) : Dyn :=
  if !magicOk (l.take len) then d
  else match headerBad c.fx len (imageBytes (l.take len)) with
    | some b => putLoc b (lastReason b.code d)
    | none => d

/-- FLASH_DISCOVERY (R98, R99, R110 steps 1 to 4, R123): slots that the module has read before hold what it has made of them since, an interrupted
write-back included. -/
def flashDiscovery (c : Cfg) (r : FlashReport) (d0 : Dyn) : Dyn :=
  let d := clocksRun d0
  let x := d.cfg
  let f := flashOf r.sfdp
  if !d.booting || x.found then d
  else if !sfdpOk r.sfdp then { d with cfg := { x with found := true, firstRefusal := 0x104F } }
  else if outN f.cap (2 ^ 20) (2 ^ 26) then { d with cfg := { x with found := true, firstRefusal := 0x1050 } }
  else
    let len := f.slotLen
    let la := if x.kept then x.slotA.bytes else r.slotA
    let lb := if x.kept then x.slotB.bytes else r.slotB
    let a := readSlot c len (la.take len)
    let b := readSlot c len (lb.take len)
    let two := if a.gen < b.gen then [1, 0] else [0, 1]
    let cands := two.filter (fun i => (if i = 0 then a.state else b.state) == 1)
    let why := if a.state = 3 then a.reason else if b.state = 3 then b.reason else 0x1040
    let d1 := headerRefused c len lb (headerRefused c len la d)
    let x := d1.cfg
    { d1 with cfg := { x with found := true, kept := true, slotA := a, slotB := b, cands := cands, firstRefusal := why, flash := f } }

/-- CANDIDATE_STREAMED (R110 steps 5 to 8, R111): the next candidate is streamed and checked. -/
def candidateStreamed (s : State) : State :=
  let x := s.d.cfg
  match s.d.booting, x.accepted, x.cands with
  | true, none, i :: rest =>
    let l := imageBytes (x.slot i).bytes
    match checkImage s.c s.d (i + 1) l with
    | (none, c') =>
      let x1 := { x.putSlot i { x.slot i with state := 2, reason := 0 } with accepted := some i, prot := some i, cands := [], tried := x.tried + 1,
                                                                             fallback := decide (0 < x.tried) }
      let d1 := acceptImage c'.img { s.d with cfg := x1 }
      let d2 := if x.tried = 0 then d1 else d1.fault c' 0x1000 0x1051 1 0 0 true true
      let d3 := if c'.img.boundOk c'.fx.id then d2 else d2.fault c' 0x1000 0x1043 4 0 0 false false
      { s with c := c', d := d3 }
    | (some (b, e), _) =>
      let x1 := { x.putSlot i { x.slot i with state := 3, reason := b.code } with cands := rest, tried := x.tried + 1,
                                                                                  firstRefusal := if x.tried = 0 then b.code else x.firstRefusal }
      { s with d := refuseImage b e { s.d with cfg := x1 } }
  | _, _, _ => s

/-- BOOT_END (R18, R110, R111, R552): the first frame boundary after everything BOOT waits for. -/
def bootEnd (seat present : Bool) (s : State) : State :=
  let x := s.d.cfg
  if !s.d.booting || !x.found || !x.cpDone || (x.accepted.isNone && !x.cands.isEmpty) then s
  else
    let d0 := s.d.nextFrame s.c
    -- the frame that begins here is the first one of the state after BOOT
    let d1 : Dyn := { d0 with pair := { d0.pair with seat := seat, present := present }, pwr := { d0.pwr with firstAt := some d0.ms } }
    if x.accepted.isNone then
      let d2 := enterSafe s.c x.firstRefusal d1
      { s with d := fenceLines s.c d2 }
    else
      let s1 := configure { s with d := d1 }
      let c := s1.c
      match x.bootHalt with
      | some h => let d2 := enterSafe c h s1.d; { s1 with d := fenceLines c d2 }
      | none =>
        if c.pairOn then
          let d2 := trcStart c (measureEntry c false (seekStart (s1.d.toState .run 0)))
          let d3 := fenceLines c d2
          { s1 with d := if present then d3 else claimStart c d3 }
        else if c.img.dormant then
          let d2 := enterDormant c 0 s1.d
          { s1 with d := fenceLines c { d2 with seq := { d2.seq with bootStart := true } } }
        else let s2 := enterRun 0 s1; { s2 with d := fenceLines c s2.d }

def sesResult (code : Nat) (d : Dyn) : Dyn := { d with cfg := { d.cfg with sesResult := code } }
def cfgResult (code : Nat) (d : Dyn) : Dyn := { d with cfg := { d.cfg with cmdResult := code } }

/-- A host access to the CFG block or the staging area keeps the session (R118). -/
def cfgTouch (d : Dyn) : Dyn := { d with cfg := { d.cfg with lastAccess := d.ms } }

/-- A write session is open (R117). -/
def Dyn.sessionOn (d : Dyn) : Bool := d.cfg.session == .opened

/-- The refusal of OPEN (R117), 0 where it is accepted. -/
def openCode (c : Cfg) (d : Dyn) : Nat :=
  if d.cfg.session ≠ .none then 0x1049
  else if d.glb.st = .safe ∨ (d.glb.st = .run ∧ !c.basic) then 0
  else if d.glb.st = .run then 0x1005 else 0x100D

/-- SESSION_OPEN (R117): the staging area is being filled. -/
def sessionOpen (copy : Bool) (c : Cfg) (d : Dyn) : Dyn :=
  let code := openCode c d
  if code = 0 then cfgTouch (sesResult 0 { d with cfg := { d.cfg with session := .filling copy, staging := [] } }) else sesResult code d

/-- STAGING_FILL_DONE (R117). -/
def stagingFillDone (c : Cfg) (d : Dyn) : Dyn :=
  match d.cfg.session with
  | .filling copy => { d with cfg := { d.cfg with session := .opened, staging := if copy then bytesTbl c.img.bytes else [] } }
  | _ => d

/-- The session ends and the staging area is discarded. -/
def endSession (d : Dyn) : Dyn := { d with cfg := { d.cfg with session := .none, staging := [] } }

/-- SESSION_CLOSE (R118). -/
def sessionClose (d : Dyn) : Dyn :=
  if d.cfg.session = .none then sesResult 0x1055 d else sesResult 0 (endSession d)

/-- SESSION_EXPIRED (R118): 5 s without an access of the host. -/
def sessionExpired (d : Dyn) : Dyn :=
  if d.cfg.session ≠ .none ∧ d.cfg.lastAccess + 5000 ≤ d.ms then sesResult 0x1048 (endSession d) else d

/-- STAGING_WRITE (R117): a word of the staging area, or the flag that no session is open. -/
def stagingPut (a : Nat) (v : Word) (d : Dyn) : Dyn :=
  if d.sessionOn then
    let o := a - 0x10000000
    let t := ((leBytes 4 v.toNat).zipIdx).foldl (fun t p => tput 0 t (o + p.2) p.1) d.cfg.staging
    cfgTouch { d with cfg := { d.cfg with staging := t } }
  else { d with cfg := { d.cfg with errNoSession := true } }

/-- The staging area's first `n` bytes. -/
def CfgSt.staged (x : CfgSt) (n : Nat) : List Byte := tblBytes n 0 x.staging

/-- CFG_CMD.MODE (R119, R128): the refusals that need no check, or the start of the check. -/
def commitCmd (mode : Nat) (d : Dyn) : Dyn :=
  let x := d.cfg
  let code := if !d.sessionOn then 0x1055 else if d.standby then 0x104D else if x.commit.isSome then 0x100C
    else if 2 ≤ mode ∧ x.wb.isSome then 0x104B else 0
  if code ≠ 0 then cfgResult code d
  else
    let l := x.staged (max 256 (min (imageLen (x.staged 16)) (2 ^ 21)))
    { d with cfg := { x with commit := some { mode := mode, bytes := l, toPartner := false } } }

/-- A commit ends: the session with it, and CFG_CMD.RESULT takes the result (R118, R522). -/
def endCommit (code : Nat) (d : Dyn) : Dyn :=
  (cfgResult code (lastReason code (endSession { d with cfg := { d.cfg with commit := none } }))).setIrq 2

/-- The slot a write-back goes to (R121). -/
def CfgSt.target (x : CfgSt) : Nat :=
  match x.prot with
  | some p => 1 - p
  | none =>
    let want : Nat → Option Nat := fun st => (List.range 2).find? (fun i => (x.slot i).state == st)
    (want 0).getD ((want 3).getD 0)

/-- A write-back starts (R122): its first operation programs the target's magic to 0. -/
def startWriteBack (l : List Byte) (apply : Bool) (d : Dyn) : Dyn :=
  let x := d.cfg
  let w : WriteBack := { slot := x.target, bytes := l, gen := imageGen l, apply := apply, stage := .clear, pos := 0 }
  { d with cfg := { x with wbState := 1, wbSlot := x.target, wbProgress := 0, wb := some w } }

/-- WRITEBACK_COMPLETE (R121, R122): an operation of the flash ends; the last one ends the write-back, verified or failed. -/
def writebackComplete (c : Cfg) (e : FlashEvent) (d : Dyn) : Dyn :=
  match d.cfg.wb with
  | none => d
  | some w =>
    let x := d.cfg
    let s := x.slot w.slot
    let r := wbStep x.flash e s.bytes w
    match r.2.2 with
    | none => { d with cfg := { x.putSlot w.slot { s with bytes := r.1 } with wb := some r.2.1, wbState := r.2.1.num, wbProgress := r.2.1.done } }
    | some true =>
      let x1 := x.putSlot w.slot { state := 1, reason := 0, gen := w.gen, bytes := r.1 }
      ({ d with cfg := { x1 with wb := none, wbState := 4, wbProgress := w.bytes.length / 4096, prot := if w.apply then some w.slot else x.prot } } : Dyn).setIrq 3
    | some false =>
      (({ d with cfg := { x.putSlot w.slot { s with bytes := r.1 } with wb := none, wbState := 5 } } : Dyn).setIrq 3).fault c 0x1000 0x1052 1 0 0 true true

/-- A word of the TIM block, whose boundary is the next tick (R46). -/
def isTimWord (a : Nat) : Bool := decide (0x30000 ≤ a) && decide (a < 0x33000)

/-- The configuration of a running module under an applied image: the words as written are the image's, and each block brings its own into force
at its boundary (R46, R120); those of TIM come in at once. -/
def applyOver (c c' : Cfg) : Cfg := { c' with reg := ({ w := c'.reg.w, f := c.reg.f, fresh := [] } : Regs).loadIf isTimWord }

/-- An accepted image takes effect (R120): in a module without configuration all of it before the first frame in RUN. The timed actions of a
running module are armed at the next tick (R46, R458). -/
def applyImage (c' : Cfg) (s : State) : State :=
  let d1 := (acceptImage c'.img s.d).clears 0x1000 [0x1043]
  let d2 : Dyn := { d1 with cfg := { d1.cfg with checks := [] } }
  if s.c.img.ok then
    let c1 := applyOver s.c c'
    { s with c := c1, d := armAll c1 { d2 with cfg := { d2.cfg with applied := true } } }
  else
    let s1 := configure { s with c := c', d := d2 }
    { s1 with d := if s1.d.glb.st = .safe then { s1.d with glb := { s1.d.glb with runReq := some 0, runCommit := true } } else s1.d }

/-- An accepted commit (R119, R120). -/
def commitDo (k : Commit) (c' : Cfg) (s : State) : State :=
  let d1 := endCommit 0 s.d
  let s1 := if k.mode = 2 then { s with d := d1 } else applyImage c' { s with d := d1 }
  if k.mode = 1 then s1 else { s1 with d := startWriteBack k.bytes (k.mode == 3) s1.d }

/-- A section's bytes as an image carries them. -/
def sectDiffers (i j : Image) (typ : Nat) : Bool := i.sect typ 0 != j.sect typ 0

/-- The refusals of a commit beside R113: bound identities in its second step, then GENERATION and APPLY (R119, R120). -/
def boundBad (c : Cfg) (l : List Byte) : Option Bad :=
  let i := mkImage 3 l
  if i.boundOk c.fx.id then none
  else some { code := 0x1043, typ := 0x101, entry := 0, off := ((i.sects.find? (fun x => x.typ == 0x101)).map (·.off)).getD 0 }

def commitBad (c : Cfg) (k : Commit) : Option Bad :=
  let i := mkImage 3 k.bytes
  let o := c.img
  let sectOff : Nat → Nat := fun t => ((i.sects.find? (fun x => x.typ == t)).map (·.off)).getD 0
  if c.img.ok ∧ i.gen ≤ o.gen then some (hdrBad 0x104C 0 0xC)
  else if k.mode = 2 ∨ !c.img.ok then none
  else if i.expert ≠ o.expert then some (hdrBad 0x104A 0 0x13)
  else if i.pairOn ≠ o.pairOn then some (hdrBad 0x104A 0 0x12)
  else if sectDiffers i o 0x300 then some { code := 0x104A, typ := 0x300, entry := 0, off := sectOff 0x300 }
  else if sectDiffers i o 0xF00 then some { code := 0x104A, typ := 0xF00, entry := 0, off := sectOff 0xF00 }
  else none

/-- The result of a commit's check: the envelope, the bound identities, Sage's phases, then the rules of R119 and R120. -/
def commitCheck (c : Cfg) (d : Dyn) (k : Commit) : Option (Bad × Option Ent) × Cfg :=
  match envelopeBad c.fx d.cfg.slotLen d.cfg.keyHash k.bytes with
  | some b => (some (b, none), c)
  | none =>
    match boundBad c k.bytes with
    | some b => (some (b, none), c)
    | none =>
      match checkImage c d 3 k.bytes with
      | (some x, c') => (some x, c')
      | (none, c') => ((commitBad c k).map (fun b => (b, none)), c')

/-- COMMIT_CHECK_DONE (R113, R119, R560): an accepted commit with a synced partner waits for the partner's result. -/
def commitCheckDone (s : State) : State :=
  match s.d.cfg.commit with
  | none => s
  | some k =>
    if k.toPartner then s
    else match commitCheck s.c s.d k with
      | (some (b, e), _) => { s with d := endCommit b.code (refuseImage b e s.d) }
      | (none, c') =>
        if s.d.glb.role = .active ∧ s.d.pair.state = 4 then { s with d := { s.d with cfg := { s.d.cfg with commit := some { k with toPartner := true } } } }
        else commitDo k c' s

/-- COMMIT_PARTNER_RESULT (R560): the partner's Sage answers for a commit, or for the image of a join. -/
def commitPartnerResult (code : Nat) (s : State) : State :=
  match s.d.cfg.commit with
  | some k =>
    if k.toPartner then
      let c' := (checkImage s.c s.d 3 k.bytes).2
      let s1 := commitDo { k with toPartner := false } c' s
      if code = 0 ∨ s1.d.pair.state ≠ 4 then s1
      else { s1 with d := setFence s1.c true { s1.d with pair := { s1.d.pair with state := 2, imageOk := false, join := none } } }
    else s
  | none => if s.d.glb.role = .active ∧ s.d.pair.state = 3 ∧ !s.d.pair.imageOk ∧ !s.d.pair.acceptPend then { s with d := joinImage s.c code s.d } else s

/-- PARTNER_IMAGE_RECEIVED (R560): the STANDBY, or a module in SAFE without configuration, checks the ACTIVE's image with its own Sage, applies it, and
with COPY_STORE writes it back. -/
def partnerImage (l0 : List Byte) (s : State) : State :=
  let l := imageBytes l0
  let joins := (s.d.standby && s.d.pair.state != 0) || (s.d.glb.st == .safe && !s.c.img.ok && s.c.fx.pair)
  if !joins then s
  else match checkImage s.c s.d 3 l with
    | (some (b, e), _) => { s with d := (if s.d.standby then withdrawn else id) (refuseImage b e s.d) }
    | (none, c') =>
      let keep := s.c.img.ok
      let s1 := applyImage c' s
      let d1 := if keep then s1.d else
        setRole .standby (pairState 6 s1.d)
      let store := match c'.img.sect 0x300 0 with | some b => leAt b 4 1 % 2 == 1 | none => false
      { s1 with d := if store && d1.cfg.wb.isNone then startWriteBack l true d1 else d1 }

/-- The staged key hash (R132): byte 4k of its value stands in bits [7:0] of word k. -/
def stagedHash (c : Cfg) : Nat := beNat ((List.range 8).map (fun k => leBytes 4 (c.w (0x20080 + 4 * k)).toNat)).flatten

def fuseResult (code : Nat) (d : Dyn) : Dyn := { d with cfg := { d.cfg with fuseResult := code } }

/-- FUSE_PROG (R109). -/
def fuseProg (c : Cfg) (d : Dyn) : Dyn :=
  let x := d.cfg
  if x.fuse0.valid ∨ x.fuse1.valid ∨ (x.fuse0.used ∧ x.fuse1.used) ∨ d.glb.st ≠ .safe ∨ stagedHash c = 0 ∨ x.fusing.isSome then fuseResult 0x1053 d
  else if x.fuse0.used then fuseResult 0 { d with cfg := { x with fuse1 := { x.fuse1 with used := true }, fusing := some 1 } }
  else fuseResult 0 { d with cfg := { x with fuse0 := { x.fuse0 with used := true }, fusing := some 0 } }

/-- FUSE_PROG_DONE (R109): the bank is read back, and its key-valid fuse programmed where it holds the staged hash. -/
def fuseProgDone (c : Cfg) (readback : Nat) (d : Dyn) : Dyn :=
  let x := d.cfg
  match x.fusing with
  | none => d
  | some b =>
    let x1 := { x with fusing := none }
    if readback = stagedHash c then
      let k : FuseBank := { used := true, valid := true, hash := readback }
      fuseResult 0 { d with cfg := if b = 0 then { x1 with fuse0 := k } else { x1 with fuse1 := k } }
    else fuseResult 0x1053 { d with cfg := x1 }

/-- AFE_BCMD.LCOMMIT (R157, R166): the list edits are handed to Sage. -/
def lcommitCmd (c : Cfg) (b : Nat) (d : Dyn) : Dyn :=
  if c.fx.nBanks ≤ b then d
  else
    let a := bankA b + 0x1C
    let code := if d.sessionOn then 0x400F else if d.checkingAt a then 0x400C else if !c.img.ok then 0x400D else 0
    let d1 := d.setBank b { d.bank b with cmdResult := code }
    if code = 0 then { d1 with cfg := { d1.cfg with checks := d1.cfg.checks ++ [{ addr := a, val := 2 }] } } else d1

/-- What Sage finds in a list edit (R157): the bank's entry check, and on a disabled bank the same rules of its lists. -/
def listsBad (c0 c : Cfg) (b : Nat) : Option Chk :=
  if c.bankEn b then (sageEntry c0 c (bankEnt b)).1
  else ((bankField c b ++ listRefs c b ++ (perEnt 64 (fun j => c.descEn (64 * b + j)) (fun j => descRefs c (64 * b + j)))).find? (·.bad)).orElse
    (fun _ => firstBad (bankBudget c b))

/-- The result of a list edit (R157). -/
def listsChecked (b : Nat) (s : State) : State :=
  match listsBad (s.c.asWritten none) (s.c.asWritten (some b)) b with
  | some x => { s with d := lastReason x.code (s.d.setBank b { s.d.bank b with cmdResult := x.code, reason := x.code }) }
  | none =>
    let c' : Cfg := { s.c with reg := s.c.reg.loadIf (fun a => isListWord a && (a - 0x100000) / 0x1000 == b) }
    { s with c := c', d := bankLists c' b (!c'.bankEn b) (lastReason 0 (s.d.setBank b { s.d.bank b with cmdResult := 0, reason := 0 })) }

/-- What Sage finds in a trace channel that is to be armed (R321, R323, R327): its fields, then its sources. -/
def armBad (c : Cfg) (t : Nat) : Option Chk := (trcField c t ++ trcRefs c t).find? (·.bad)

/-- The result of the check of a channel that is to be armed (R114, R331): accepted, it arms at the next frame boundary. -/
def armChecked (t : Nat) (s : State) : State :=
  let code := ((armBad (s.c.asWritten none) t).map (·.code)).getD 0
  { s with d := lastReason code (s.d.setTrc t { s.d.trc t with cmdResult := code, reason := code, arm := code == 0 }) }

/-- The result of the check of an enable bit that a write set or cleared (R114). -/
def enableChecked (x : Area) (i : Nat) (k : Check) (s : State) : State :=
  let e := entOf x i
  let on := bit k.val 0
  let word : Word := mix (s.c.w k.addr) k.val (maskAt 0 1)
  let cand0 := s.c.asWritten none
  let cand : Cfg := { cand0 with reg := cand0.reg.putB k.addr word }
  let (code, c1) := if on then (match sageEntry cand0 cand e with | (some y, c1) => (y.code, c1) | (none, c1) => (0, c1)) else (disableCode cand s.d e, cand)
  let d1 := lastReason code (blockReason e code s.d)
  if code ≠ 0 then { s with d := d1 }
  else
    let placed := diffKeys cand.reg.f c1.reg.f
    let r := forEach placed (s.c.reg.putW k.addr word) (fun a r => r.putB a (c1.f a))
    let d2 := if x.typ = 0x400 then bankFigures c1 x.inst d1 else d1
    { s with c := { s.c with reg := r }, d := if x.typ = 0xA00 ∨ x.typ = 0xC00 ∨ x.typ = 0xC01 then figures c1 d2 else d2 }

/-- ENABLE_CHECK_DONE (R114, R115): the oldest check ends. -/
def enableCheckDone (s : State) : State :=
  match s.d.cfg.checks with
  | [] => s
  | k :: rest =>
    let s1 : State := { s with d := { s.d with cfg := { s.d.cfg with checks := rest } } }
    if 0x100000 ≤ k.addr ∧ k.addr < 0x110000 ∧ k.addr % 0x1000 = 0x1C then listsChecked ((k.addr - 0x100000) / 0x1000) s1
    else if 0x1A2000 ≤ k.addr ∧ k.addr < 0x1A2200 ∧ k.addr % 0x40 = 0x18 then armChecked ((k.addr - 0x1A2000) / 0x40) s1
    else match regAt s.c.fx k.addr with
      | some (x, i, _) => enableChecked x i k s1
      | none => s1

end Sys2Proof.Machine
end

