-- ==== Sys2Proof/Machine/Registers.lean ====
section
/-! DEFINITION. Applying a register write: commands, access classes, enable bits, levels and roles (R12, R37, R43, R44, R104, R114, R458, R497, R558). -/

namespace Sys2Proof.Machine

open Sys2Proof

/-- TIM_CMD.STEP, with its effect on the launch entries (R453, R481). -/
def timeStep (c : Cfg) (d : Dyn) : Dyn :=
  let r := stepCmd c c.stepVal d
  if r.2 = 0 then canStep c r.1 else r.1

/-- TIM_CMD.SLEW (R453). -/
def slewStart (c : Cfg) (d : Dyn) : Dyn := (slewCmd (sword (c.f 0x30034)) (c.f 0x30038).toNat d).1

/-- TRC_CMD.ARM (R114, R324, R327): refused while armed, while it is being checked and without configuration; otherwise the channel is handed
to Sage. -/
def traceArm (c : Cfg) (t : Nat) (d : Dyn) : Dyn :=
  if 8 ≤ t then d
  else
    let a := trcA t + 0x18
    let x := d.trc t
    let code := if x.state = 2 ∨ x.state = 3 ∨ !c.img.ok then 0xA00D else if d.sessionOn then 0xA00F else if d.checkingAt a || x.arm then 0xA00C else 0
    let d1 := d.setTrc t { x with cmdResult := code }
    if code = 0 then { d1 with cfg := { d1.cfg with checks := d1.cfg.checks ++ [{ addr := a, val := 3 }] } } else d1

/-- The group commands RESTORE, CLR_MIN and CLEAR of group `g` (R384, R390, R415). Restored outputs follow their commands from the
frame that the boundary sends. -/
def groupCmd (c : Cfg) (g k : Nat) (d : Dyn) : Dyn :=
  match k with
  | 0 => grpRestore g d
  | 1 => grpClrMin g d
  | _ => if g < 4 then dioGroupClear c g d else moverGroup c g (movGroupClear (g - 4) d)

/-- The command of bit `k` of a command register (R30, R117, R166, R237, R240, R274, R305, R328, R330, R360, R361, R390, R415, R446, R448, R467, R505,
R541, R565). -/
def commandRun (a k : Nat) (v : Word) (s : State) : State :=
  let c := s.c
  let on : (Dyn → Dyn) → State := fun g => { s with d := g s.d }
  if a = 0x10 then (match k with | 0 => on (goDormant c false) | 1 => on goSafe | 2 => on (leaveSafe c) | _ => glbReset s)
  else if a = 0x20008 then (if k = 0 then on (sessionOpen (bit v 2) c) else on sessionClose)
  else if a = 0x3003C then (match k with | 0 => on (timeStep c) | 1 => on (slewStart c) | _ => slewStopCmd s)
  else if a = 0x40030 then (match k with | 0 => on (faultAck c) | 1 => on (faultAckAll c) | _ => on faultNext)
  else if a = 0x50018 then (if k = 0 then on (guardReset c (fld v 2 6)) else on (guardResetAll c))
  else if a < 0x110000 then (let b := (a - 0x100000) / 0x1000; if k = 0 then on (selftestCmd c b) else on (lcommitCmd c b))
  else if a < 0x150000 then (let n := (a - 0x140000) / 0x400; if k = 2 then on (calClearCmd c n) else on (calCmd c n k))
  else if a < 0x160000 then on (reread c ((a - 0x150000) / 0x40))
  else if a < 0x180000 then
    (let n := (a - 0x160000) / 0x1000
     match k with | 0 => on (columnRestart c n) | 1 => on (batchClear c n) | _ => on (kappaReset c n))
  else if a < 0x1A0000 then (let n := (a - 0x180000) / 0x100; if k = 0 then on (reinit c n) else on (loopClrCounts c n))
  else if a < 0x1A1000 then on (snapCmd c ((a - 0x1A0000) / 0x40))
  else if a < 0x1C0000 then
    (let t := (a - 0x1A2000) / 0x40
     match k with | 0 => on (traceArm c t) | 1 => on (traceStop t) | _ => on (traceForce t))
  else if a < 0x1C1000 then on (draftCmd c ((a - 0x1C0100) / 0x40) (nth 3 [1, 2, 4, 3] k))
  else if a < 0x200000 then on (unitCmd c ((a - 0x1C1000) / 0x10) (k + 1))
  else if a < 0x220000 then
    (let g := (a - 0x200000) / 0x1000
     if a % 0x1000 = 0xC then on (groupCmd c g k)
     else
      let ch := 16 * g + (a % 0x1000 - 0x200) / 0x10
      if k = 0 then on (dioChannelClear c ch) else on (dioZero c ch))
  else if a < 0x222000 then on (movClear ((a - 0x220000) / 0x100))
  else if a < 0x300000 then on (groupCmd c (4 + (a - 0x222000) / 0x100) k)
  else if a < 0x400000 then
    (let p := (a - 0x300000) / 0x4000
     match k with | 0 => on (recoverCmd p) | 1 => on (abortAll c p) | _ => on (canClrCounts p))
  else if a < 0x500000 then (match k with | 0 => on (pairAccept c) | 1 => on (pairReject c) | 2 => on pairSwitch | _ => on (pairResync c))
  else if a = 0x500018 then (if k = 0 then on (clearRegion (fld v 2 3)) else on arcFlushCmd)
  else (if k = 0 then on (shuttleGo c) else on (shuttleCancel c))

/-- Keep the argument field of an accepted command (R12). -/
def keepArg (a : Nat) (v : Word) (s : State) : State :=
  if cmdArg a = 0 then s else { s with c := { s.c with reg := s.c.reg.putB a (v &&& cmdArg a) } }

/-- A write to a command register: a malformed one only sets RESULT (R30, R125, R128, R132). -/
def commandWrite (a : Nat) (v : Word) (s : State) : State :=
  if a = 0x2000C then
    { s with d := if fld v 8 8 = 0x3C ∧ fld v 0 2 ≠ 0 then commitCmd (fld v 0 2) s.d else cfgResult 0x1054 s.d }
  else if a = 0x200A0 then { s with d := if fld v 8 8 = 0x5C ∧ bit v 0 then fuseProg s.c s.d else fuseResult 0x1054 s.d }
  else
    let (key, n, bad) := cmdShape a
    match cmdBit v key n with
    | some k => keepArg a v (commandRun a k v s)
    | none => { s with d := putResult a bad s.d }

/-- The code a command register shows of its latest write. -/
def commandCode (a : Nat) (s : State) : Nat := fld (statusWord s.c s.d a) 16 16

/-- Setting EN of a timed action whose words stand: the checks of its fields, then arming with the boundary's other entries (R115, R458). -/
def actionEnable (a : Nat) (s : State) : State × Nat :=
  let cand : Cfg := { s.c with reg := s.c.reg.putB (actA a 0) (mix (s.c.w (actA a 0)) 1 (maskAt 0 1)) }
  let code := if !s.c.img.ok then 0xD else match (timedField cand a ++ timedRefs cand a).find? (·.bad) with | some k => k.code | none => 0
  if code = 0 then ({ s with c := cand, d := { s.d with tim := { s.d.tim with arming := s.d.tim.arming ++ [a] } } }, 0)
  else ({ s with d := s.d.setAct a { s.d.act a with result := code } }, code)

/-- Arm one entry whose EN was set at this boundary; a refused one keeps EN 0 (R458). -/
def armOne (a : Nat) (s : State) : State :=
  let r := armAction s.c true a s.d
  if r.2 = 0 then { s with d := r.1 }
  else { s with c := { s.c with reg := s.c.reg.putB (actA a 0) (mix (s.c.w (actA a 0)) 0 (maskAt 0 1)) }, d := r.1 }

/-- Arm the entries enabled at this boundary, after every STEP applied there (R458). -/
def armWaiting (s : State) : State :=
  let l := s.d.tim.arming
  forEach l { s with d := { s.d with tim := { s.d.tim with arming := [] } } } armOne

/-- Clearing EN of a timed action (R458). -/
def actionDisable (a : Nat) (s : State) : State :=
  { s with c := { s.c with reg := s.c.reg.putB (actA a 0) (mix (s.c.w (actA a 0)) 0 (maskAt 0 1)) }
           d := ({ s.d with tim := { s.d.tim with arming := s.d.tim.arming.filter (· ≠ a) } } : Dyn).setAct a { Act.empty with result := (s.d.act a).result } }

/-- A write that changes an enable bit (R114, R117, R458, R481): it is handed to Sage, or acts at once on an entry of the operator's. -/
def enableWrite (x : Area) (i a : Nat) (on : Bool) (s : State) : State × Nat :=
  if x.typ = 0xFFFF then
    let p := x.inst - 16
    let code := if on then (if portOn s.c s.d p then launchCode s.c s.d p i else 0xE00D) else 0
    ({ s with d := if on then launchArm s.c p i s.d else launchDisarm s.c p i s.d }, code)
  else if x.typ = 0 then (if on then actionEnable i s else (actionDisable i s, 0))
  else
    let e := entOf x i
    let code := if s.d.sessionOn then e.sub + 0xF else if s.d.checkingAt a then e.sub + 0xC else if !s.c.img.ok then e.sub + 0xD else 0
    if code ≠ 0 then ({ s with d := blockReason e code s.d }, code)
    else ({ s with d := { s.d with cfg := { s.d.cfg with checks := s.d.cfg.checks ++ [{ addr := a, val := if on then 1 else 0 }] } } }, 0)

/-- Whether an enable bit reads 1 now: as last written, and for a launch entry while it is armed or launched (R481). -/
def enableNow (c : Cfg) (d : Dyn) (x : Area) (i a : Nat) : Bool :=
  if x.typ = 0xFFFF then (let st := ((d.port (x.inst - 16)).launch i).state; st == 1 || st == 2) else bit (c.w a) 0

/-- The refusal of a value for a shadowed field of an enabled entry: a failing field check of that entry (R12, R113). -/
def shadowCode (c : Cfg) (x : Area) (i a : Nat) (v : Word) : Nat :=
  if x.typ = 0xFFFF then 0
  else
    let cand0 := c.asWritten none
    let cand : Cfg := { cand0 with reg := cand0.reg.putB a v }
    match (sectField cand false (x.typ, x.inst)).find? (fun k => k.bad && sameEnt (entOf x i) k.own && phaseOf k.code 3 == 3) with
    | some k => k.code
    | none => 0

/-- The refusal of a value for a shadowed field of a disabled bank or descriptor, which is checked all the same (R165, R167). Every field of a guard
descriptor but EN is locked rather than shadowed. -/
def offCode (c : Cfg) (x : Area) (i a : Nat) (v : Word) : Nat :=
  if x.typ ≠ 0x400 ∨ 1 < x.part then 0
  else
    let cand0 := c.asWritten none
    let cand : Cfg := { cand0 with reg := cand0.reg.putB a v }
    let k := 64 * x.inst + i
    let o := 0x20 + 32 * i
    let (l, at_) : List Chk × List Nat := if x.part = 0 then (bankField cand x.inst, [4, 6, 8]) else
      (if cand.descGuard k then [] else descField cand false k, [o + 5, o + 10, o + 16])
    match l.find? (fun y => y.bad && y.addr == a && at_.contains y.off) with
    | some y => y.code
    | none => 0

/-- A write to a register with configuration or operator fields (R12, R44, R114). `src` is its source as a WRITE record numbers it. -/
def fieldWrite (src : Nat) (x : Area) (i : Nat) (f : Fields) (a : Nat) (v : Word) (s : State) : State × Nat :=
  let c := s.c
  let old := c.w a
  let aw := c.asW
  let en0 := enableNow c s.d x i a
  let hasEn := x.en && (a - x.base - i * x.stride == 0) && bit (BitVec.ofNat 32 f.rw) 0
  let base := if hasEn && en0 then old ||| 1#32 else old
  let ask := mix base v (BitVec.ofNat 32 f.all)
  -- the level (R44), then the lock (R12)
  let level := c.basic && decide (src ≤ 2) && ((base ^^^ ask) &&& BitVec.ofNat 32 f.all &&& ~~~(BitVec.ofNat 32 f.op)) != 0#32
  let v1 := if level then mix base ask (BitVec.ofNat 32 f.op) else ask
  let lock := areaLocked aw s.d x i && ((old ^^^ v1) &&& BitVec.ofNat 32 f.rwl) != 0#32
  let v2 := if lock then mix v1 old (BitVec.ofNat 32 f.rwl) else v1
  let denied := if level then 0x1005 else if lock then subOf a + 5 else 0
  let d1 := if level || lock then lockedIn x i a denied s.d else s.d
  let on := areaOn aw x i
  let vc := if a = 0x1000C ∧ c.img.pairOn ∧ ¬ bit v2 1 then 1 else valueCode a v2
  let code := if vc ≠ 0 then vc
    else if decide (f.rws ≠ 0) && mix old v2 (BitVec.ofNat 32 f.rws) != old then (if on then shadowCode c x i a v2 else offCode c x i a v2) else 0
  if code ≠ 0 then ({ s with d := areaReason x i code d1 }, code)
  else
    let v3 := if hasEn then mix v2 old (maskAt 0 1) else v2
    let c1 := storeWord c a f on v3
    let d2 := match entryOf a 0x180000 0x100 c.fx.nLoops 0xA8 with
      | some n => d1.setLp n { d1.lp n with manAt := some d1.ms }
      | none => d1
    let d3 := if x.typ = 0x400 ∧ x.part = 1 ∧ rwlDiffers c c1 (64 * x.inst + i) then dropHeld (64 * x.inst + i) d2 else d2
    let s1 : State := { s with c := c1, d := if a = 0x1000C then wakeLevels c1 d3 else d3 }
    let want := bit v2 0
    if hasEn ∧ !(level && !bit (BitVec.ofNat 32 f.op) 0) ∧ want ≠ en0 then
      let r := enableWrite x i a want s1
      (r.1, if denied ≠ 0 then denied else r.2)
    else (s1, denied)

/-- What a write does, and its WRITE record where the image logs the register and its value changed (R37, R529). -/
def loggedWrite (src a : Nat) (g : State → State) (s : State) : State :=
  let t := g s
  if s.c.logged.contains a && readReg s.c s.d a != readReg t.c t.d a then
    { t with d := logWrite src a (readReg s.c s.d a) (readReg t.c t.d a) t.d }
  else t

/-- A register write at the moment it is applied (R37), from a source as a WRITE record numbers it: 0 host, 1 CAN service, 2 mirror, 3 Draft, 4 timed
action. Answers the code of a refusal too, 0 where there is none. -/
def applyWrite (src a : Nat) (v : Word) (s : State) : State × Nat :=
  let c := s.c
  if src = 0 ∧ s.d.standby ∧ !standbyTakes a v then ({ s with d := standbyRefuse c a s.d }, subOf a + 0xD)
  else if src = 1 ∧ a = 0x20008 then (s, 0x100D)
  else if isCommand c.fx a then
    if c.basic ∧ !cmdIsOp a ∧ src ≤ 2 then ({ s with d := lockedWrite a s.d }, 0x1005)
    else let s1 := commandWrite a v s; (s1, commandCode a s1)
  else
    let r := match liveWrite a v s with
      | some r => r
      | none =>
        let b := aliasOf a
        match fieldsAt c b with
        | some (x, i, f) =>
          let m : Nat := if b = a then 0xFFFFFFFF else 0xFFFF
          fieldWrite src x i { f with rw := f.rw &&& m, rws := f.rws &&& m, rwl := f.rwl &&& m } b v s
        | none => (s, 0)
    (loggedWrite src a (fun _ => r.1) s, r.2)

/-- Whether the data port's writes are taken: not in BOOT, in DORMANT or while the logic side is held in reset (R512, R515). -/
def Dyn.portUp (d : Dyn) : Bool := d.glb.st != .boot && d.glb.st != .dormant && d.pwr.resetFrom.isNone

/-- A host write (R37 position 1): an access to the CFG block keeps the session. -/
def hostWrite (a : Nat) (v : Word) (s : State) : State :=
  let s1 : State := if 0x20000 ≤ a ∧ a < 0x30000 then { s with d := cfgTouch s.d } else s
  (applyWrite 0 a v s1).1

/-- A host write with the arming that ends its boundary: of this write alone. -/
def registerWrite (a : Nat) (v : Word) (s : State) : State :=
  if s.d.portUp && a % 4 == 0 then armWaiting (hostWrite a v { s with d := { s.d with tim := { s.d.tim with arming := [] } } }) else s

/-- Whether an address holds an enable or commit bit (R114). -/
def isEnableWord (c : Cfg) (a : Nat) : Bool :=
  (decide (0x100000 ≤ a) && decide (a < 0x110000) && a % 0x1000 == 0x1C) ||
  (match regAt c.fx (aliasOf a) with
   | some (x, _, j) => x.en && j == 0
   | none => false)

/-- A mirrored write of the ACTIVE (R37 position 3, R548): the STANDBY applies it as the ACTIVE did. -/
def mirrorWrite (a : Nat) (v : Word) (s : State) : State :=
  let r := (applyWrite 2 a v { s with d := { s.d with glb := { s.d.glb with role := .active } } }).1
  { r with d := if r.d.glb.role = .active then { r.d with glb := { r.d.glb with role := .standby } } else r.d }

end Sys2Proof.Machine
end

