-- ==== Sys2Proof/Machine/Load.lean ====
section
/-! DEFINITION. The words that a frame boundary brings into force, and what an entry does when its enable takes effect (R12, R38, R46, R47, R114,
R120). -/

namespace Sys2Proof.Machine

open Sys2Proof

/-- The area, entry and word of any configuration word, also of the tables that sections alone carry (log entry 5). -/
def wordAt (v : Variant) (a : Nat) : Option (Area × Nat × Nat) :=
  if 0x7000000 ≤ a then
    (secAreas v false (fun _ => 0) 0x601 0 ++ secAreas v false (fun _ => 0) 0xE01 0).findSome? (fun x => (x.find a).map (fun ij => (x, ij)))
  else regAt v a

/-- Whether visits of descriptor `k` come: lists run, its bank is enabled, and a list or a guard slot names it. -/
def descRuns (c : Cfg) (d : Dyn) (k : Nat) : Bool :=
  let b := d.bank (k / 64)
  d.live c && c.bankEn (k / 64) && c.descEn k && bit (c.w (descA k 0)) 0 && (c.descGuard k || (b.runList ++ b.scanList).contains (k % 64))

/-- Whether results of channel `k` come. -/
def chanRuns (c : Cfg) (d : Dyn) (k : Nat) : Bool := c.chanEn k && bit (c.w (chanA k 0)) 0 && descRuns c d k

/-- Whether sweeps of cell `n` come. -/
def cellRuns (c : Cfg) (d : Dyn) (n : Nat) : Bool := (d.glb.st == .run || d.glb.st == .safe) && c.img.ok && c.cellEn n && bit (c.w (cellA n)) 0

/-- Whether steps of column `n` come: also its first one. -/
def colRuns (c : Cfg) (d : Dyn) (n : Nat) : Bool := (d.glb.st == .run || d.glb.st == .scan) && (c.colEn n || bit (c.w (colA n)) 0)

/-- Whether samples of loop `n` come: also its first one. -/
def loopRuns (c : Cfg) (d : Dyn) (n : Nat) : Bool := (d.glb.st == .run || d.glb.st == .scan) && (c.loopEn n || bit (c.w (loopA n)) 0)

/-- A word whose block has a boundary of its own that will come (R46): it does not wait for the frame boundary. -/
def ownBoundary (c : Cfg) (d : Dyn) (a : Nat) : Bool :=
  if isListWord a then true
  else match wordAt c.fx a with
    | none => false
    | some (x, i, _) =>
      match x.typ, x.part with
      | 0x400, 1 => descRuns c d (64 * x.inst + i)
      | 0x500, 1 => chanRuns c d i
      | 0x500, 2 => c.swEn i && chanRuns c d (c.swChan i)
      | 0x501, _ => (List.range (64 * c.fx.nBanks)).any (fun k => c.chanCurve k == 32 + i && chanRuns c d k)
      | 0x600, _ => cellRuns c d x.inst
      | 0x601, _ => (List.range c.fx.nCells).any (fun n => cellRuns c d n && c.cellCurve n == 32 + i)
      | 0x800, _ => d.sends && c.grpEn x.inst && (d.grp x.inst).line == 0
      | 0xA00, _ => loopRuns c d i
      | 0xB00, _ => colRuns c d x.inst
      | 0xB01, _ => (List.range c.fx.nCols).any (fun n => colRuns c d n && (List.range (c.colZones n)).any (fun z => c.zoneType n z != 1 && c.zoneTable n z == i))
      | 0xC00, _ => d.glb.st == .run || d.glb.st == .scan
      | 0xC01, _ => d.glb.st == .run || d.glb.st == .scan
      | 0xE00, 1 => portOn c d x.inst && c.mbxEn x.inst i && c.mbxTx x.inst i && bit (c.w (mbxA x.inst i 0)) 0
      | 0xE01, _ => d.live c && c.mapEn i && bit (c.w (mapA i 0)) 0
      | 0xFFFF, _ => x.inst == 1 && loopRuns c d i
      | _, _ => false

/-- The entries whose enable bits a list of words in wait changes, and how. -/
def enableMoves (c : Cfg) (l : List Nat) : List (Area × Nat × Bool) :=
  l.filterMap (fun a =>
    match wordAt c.fx a with
    | some (x, i, 0) => if x.en && bit (c.f a) 0 != bit (c.w a) 0 && !tget false c.reg.fresh a then some (x, i, bit (c.w a) 0) else none
    | _ => none)

/-- A descriptor's accepted enable takes effect (R148, R151): it is settle pending, its chop schedule restarts, and with it that of the continuous source it
shares. -/
def descStart (c : Cfg) (k : Nat) (d : Dyn) : Dyn :=
  let b := k / 64
  let d1 := d.setDesc k { d.desc k with chopStart := true }
  setPending c b (fun j => j == k) (if c.isCont k then d1.setBank b { d1.bank b with contStart := true } else d1)

/-- An entry whose accepted enable takes effect starts (R148, R157, R185, R206, R314, R320, R381, R394, R484, R494). -/
def entryStart (c : Cfg) (x : Area) (i : Nat) (d : Dyn) : Dyn :=
  match x.typ, x.part with
  | 0x400, 0 => bankEntry c (d.glb.st == .scan) x.inst (bankLists c x.inst true d)
  | 0x400, 1 => descStart c (64 * x.inst + i) d
  | 0x500, 1 => chanStart c i d.dioLevel d
  | 0x500, 2 => let d1 := d.setSw i Sw.empty; if chanUsable c d1 (c.swChan i) then d1 else evalSwitch c (c.swChan i) d1.dioLevel i d1
  | 0x600, _ => cellStart c x.inst (cellEntry c x.inst d)
  | 0x800, 0 => groupStart x.inst d
  | 0x800, _ => (let k := 16 * x.inst + i; d.setDch k { DChan.empty with level := (d.dch k).level, count := (d.dch k).count, host := (d.dch k).host })
  | 0x900, 0 => groupStart (4 + i) d
  | 0x900, _ => (let y := d.mch i; d.setMch i { MChan.empty with starts := y.starts, stalls := y.stalls, lastEdge := y.lastEdge, since := d.ms,
                                                                 offSince := d.ms, noPulse := true })
  | 0xA01, _ => genStart c d.frozen i d
  | 0xA02, _ => ovrStart c i d
  | 0xE00, 0 => d.setPort x.inst { d.port x.inst with lastPair := d.ms }
  | 0xE01, _ => d.setMapS i { d.mapS i with lastRx := d.ms, timedOut := false, onAlt := false }
  | _, _ => d

/-- An entry whose accepted disable takes effect stops (R138, R205, R263). -/
def entryStop (x : Area) (i : Nat) (d : Dyn) : Dyn :=
  match x.typ, x.part with
  | 0x400, 0 => d.setBank x.inst { d.bank x.inst with visit := none, contOn := false, waiting := false, retryAt := none, selftest := false }
  | 0x600, _ => d.setCell x.inst { d.cell x.inst with sweeping := false, got := [], cal := none }
  | 0x900, 1 => d.setMch i { d.mch i with eCmd := 0, held := 0, uc := 0 }
  | _, _ => d

/-- The starts and stops of a list of entries. -/
def moveEntries (c : Cfg) (l : List (Area × Nat × Bool)) (d : Dyn) : Dyn :=
  l.foldl (fun d m => if m.2.2 then entryStart c m.1 m.2.1 d else entryStop m.1 m.2.1 d) d

/-- The frame boundary of a commit (R46, R47, R104, R120): lists, guard terms, presets that act at once and figures. -/
def commitBoundary (old : Cfg) (s : State) : State :=
  let c := s.c
  let d1 := forEach (List.range c.fx.nBanks) s.d (fun b d => bankLists c b (!old.bankEn b || !c.bankEn b) d)
  let d1' := forEach ((List.range (64 * c.fx.nBanks)).filter (rwlDiffers old c)) d1 dropHeld
  let d2 := figures c (guardCommit old c d1')
  livePresets { s with d := { d2 with cfg := { d2.cfg with applied := false } } }

/-- The words of blocks without a boundary of their own come into force (R12, R38, R46). -/
def frameLoad (s : State) : State :=
  let c := s.c
  let take : Nat → Bool := fun a => (s.d.cfg.applied && isListWord a) || !ownBoundary c s.d a
  let moves := enableMoves c (c.reg.waiting.filter take)
  let s1 : State := { s with c := { c with reg := c.reg.loadIf take } }
  let s2 := if s.d.cfg.applied then commitBoundary c s1 else s1
  { s2 with d := trcArmDue s2.c (moveEntries s2.c moves s2.d) }

/-- A loop at a frame in which it is due (R46, R298): an accepted enable starts it with this sample, and an accepted disable stops it. -/
def loopTurn (z : Dyn) (n : Nat) (s : State) : State :=
  let c' : Cfg := { s.c with reg := s.c.reg.load (loopA n) 43 }
  if !c'.loopEn n then { s with c := c' }
  else loopSample z n (if s.c.loopEn n then s else loopStart n { s with c := c' })

/-- The loops due in a frame, by the schedule words that this frame brings into force. -/
def loopsDue (c : Cfg) (sched : Nat) : List Nat :=
  let aw := c.asW
  (List.range c.fx.nLoops).filter (fun n => let k := if c.loopEn n then c else aw; k.loopEn n && sched % k.loopP n == k.loopPhase n)

/-- A column at a boundary at which a step of it is due (R46, R250, R263). -/
def columnTurn (n : Nat) (s : State) : State :=
  let aw := s.c.asW
  let k := if s.c.colEn n then s.c else aw
  if !(k.colEn n && s.d.sched % max 1 (k.colStep n) == k.colPhase n) then s
  else if (s.d.col n).work.isSome then columnStep n (fun c' m dt q => colIn c' s.d m dt q) s
  else
    let c' := colLoad n s.c
    if !c'.colEn n then { s with c := c', d := s.d.setCol n { s.d.col n with work := none, done := false } }
    else
      let d1 := if s.c.colEn n then s.d else colStartNow c' n s.d
      columnStep n (fun c m dt q => colIn c d1 m dt q) { s with c := c', d := d1 }

/-- The words of the sequencer at the start of a pass, and the units and Drafts that start with it (R46, R350). -/
def passWords (s : State) : State :=
  let c' := seqLoad s.c
  let d1 := forEach (List.range c'.fx.nUnits) s.d (fun u d =>
    if c'.unitEn u && !s.c.unitEn u then
      let x := d.unit u
      d.setUnit u { UnitS.empty with enterMs := d.ms, refused := x.refused, starts := x.starts, reason := x.reason, cmdResult := x.cmdResult }
    else d)
  let d2 := forEach (List.range c'.fx.nDrafts) d1 (fun n d =>
    if c'.draftEn n && !s.c.draftEn n then
      d.setDraft n { d.draft n with startPend := true, held := false, holdPend := false, wantAbort := false, wantReset := false, wantHold := false,
                                    wantResume := false, lastCond := false, lostRefs := [], taken := DraftWant.none }
    else d)
  { s with c := c', d := d2 }

end Sys2Proof.Machine
end

