-- ==== Sys2Proof/Machine/Port.lean ====
section
/-! DEFINITION. The host data port: frames, snapshot locks, status and identity; and the reads of the CAN register service (R478, R496, R497, R512 to
R523). -/

namespace Sys2Proof.Machine

open Sys2Proof

/-- Snapshots at fixed addresses: first and last word (R6, R126, R447, R466, R540, R564). -/
def fixedGroups : List (Nat × Nat) :=
  [(0x0, 0x4), (0x20040, 0x2005C), (0x20060, 0x2007C), (0x20080, 0x2009C), (0x30000, 0x30010), (0x3001C, 0x30020), (0x40010, 0x4002C),
   (0x400004, 0x400008), (0x400030, 0x40003C), (0x500004, 0x500008)]

/-- Snapshots of numbered objects: base, stride, count, and the offsets of the first and the last word (R198, R235, R236, R239, R270, R299, R328, R329,
R330, R388, R411, R540). -/
def tableGroups (v : Variant) : List (Nat × Nat × Nat × Nat × Nat) :=
  [(0x129000, 8, 64 * v.nBanks, 0, 4), (0x140000, 0x400, v.nCells, 0x190, 0x1A0), (0x140000, 0x400, v.nCells, 0x168, 0x16C),
   (0x140000, 0x400, v.nCells, 0x170, 0x174), (0x150000, 0x40, v.nCells, 4, 8), (0x150000, 0x40, v.nCells, 0x24, 0x28),
   (0x160000, 0x1000, v.nCols, 0x84, 0x90), (0x180000, 0x100, v.nLoops, 0xC0, 0xE0), (0x1A0000, 0x40, v.nGens, 0x14, 0x20),
   (0x1A1000, 0x40, v.nOvr, 0x18, 0x1C), (0x1A2000, 0x40, 8, 0x28, 0x2C), (0x220000, 0x100, 32, 0x44, 0x50), (0x500100, 0x20, 8, 0xC, 0x10)] ++
  (List.range 4).map (fun g => (0x200200 + 0x1000 * g, 0x10, 16, 0, 8))

/-- The frame buffer that begins at an address: the port, and the mailbox or the FIFO head (R478, R503). -/
def bufferAt (a : Nat) : Option (Nat × Option Nat) :=
  if a < 0x300000 ∨ 0x310000 ≤ a then none
  else
    let p := (a - 0x300000) / 0x4000
    let o := (a - 0x300000) % 0x4000
    if o = 0x2000 then some (p, none) else if 0x1000 ≤ o ∧ o < 0x2000 ∧ o % 0x80 = 0 then some (p, some ((o - 0x1000) / 0x80)) else none

/-- The frame in a buffer: nothing for an empty FIFO. -/
def bufferFrame (c : Cfg) (d : Dyn) (p : Nat) : Option Nat → CBuf
  | some m => if c.mbxEn p m && c.mbxTx p m then { ((d.port p).mb m).buf with rtr := c.bF (mbxA p m 0) 7 } else ((d.port p).mb m).buf
  | none => (d.port p).fifo.headD CBuf.empty

/-- The snapshot that begins at an address: the last word whose reading releases it, and how many words it holds (R478, R518). -/
def groupAt (c : Cfg) (d : Dyn) (a : Nat) : Option (Nat × Nat) :=
  match bufferAt a with
  | some (p, m) =>
    let f := bufferFrame c d p m
    let n := f.data.length
    some (if f.rtr ∨ n = 0 then a + 12 else a + 16 + 4 * ((n - 1) / 4), 20)
  | none =>
    match fixedGroups.find? (fun g => g.1 == a) with
    | some g => some (g.2, (g.2 - g.1) / 4 + 1)
    | none => (tableGroups c.fx).findSome? (fun g => (entryOf a g.1 g.2.1 g.2.2.1 g.2.2.2.1).map (fun _ =>
        (a + (g.2.2.2.2 - g.2.2.2.1), (g.2.2.2.2 - g.2.2.2.1) / 4 + 1)))

/-- The end of a lock on a frame buffer (R478): by reading, NEW clears and the FIFO head is popped; the shadow moves in either way. -/
def bufferRelease (first : Nat) (byRead : Bool) (d : Dyn) : Dyn :=
  match bufferAt first with
  | some (p, none) => if byRead then d.setPort p { d.port p with fifo := (d.port p).fifo.drop 1 } else d
  | some (p, some m) =>
    let y := (d.port p).mb m
    let y1 : Mbx := if byRead then { y with unread := false, ovf := false } else y
    let y2 : Mbx := match y.shadow with
      | some b => { y1 with buf := b, shadow := none, shadowOvf := false, unread := true, ovf := y1.ovf || y1.unread || y.shadowOvf }
      | none => y1
    d.setPort p ((d.port p).setMb m y2)
  | none => d

/-- Capture every word of a snapshot (R518). -/
def capture (c : Cfg) (d : Dyn) (first n : Nat) : List Word := (List.range n).map (fun k => readReg c d (first + 4 * k))

/-- Record a code of the port (R522, R523). -/
def dpCode (code addr : Nat) (d : Dyn) : Dyn :=
  let x := d.dp
  let x1 : Dp := { x with code := code, count := satInc 16 x.count, addr := addr }
  let x2 : Dp := if code = 0x2044 ∨ code = 0x2045 then { x1 with expired := true }
    else if code = 0x2046 then { x1 with underrun := true }
    else if code = 0x2047 then { x1 with overrun := true } else { x1 with frameErr := true }
  let rose := (x2.expired && !x.expired) || (x2.frameErr && !x.frameErr) || (x2.underrun && !x.underrun) || (x2.overrun && !x.overrun)
  let d1 : Dyn := { d with dp := x2 }
  if rose then d1.setIrq 6 else d1

/-- A dropped word: the code, and HOST_OVERRUN at most once a second (R515, R523). -/
def dpOverrun (c : Cfg) (addr : Nat) (d : Dyn) : Dyn :=
  let d1 := dpCode 0x2047 addr d
  let due := match d.dp.overAt with | some t => decide (t + 1000 ≤ d.ms) | none => true
  if due then ({ d1 with dp := { d1.dp with overAt := some d.ms } } : Dyn).fault c 0x2000 0x2060 1 0 0 true true else d1

/-- Release the port's lock before its last word was read (R518). -/
def dpUnlock (code addr : Nat) (d : Dyn) : Dyn :=
  match d.dp.lock with
  | some l => bufferRelease l.first false (dpCode code addr { d with dp := { d.dp with lock := none } })
  | none => d

/-- LOCK_EXPIRED (R518): 100 µs have passed since the lock was taken. -/
def lockExpired (d : Dyn) : Dyn := dpUnlock 0x2044 0 d

/-- One word of the register path as the port fetches it in a frame that started at `start` (R514, R518). -/
def fetchWord (c : Cfg) (start a : Nat) (d : Dyn) : Word × Dyn :=
  match groupAt c d a with
  | some (last, n) =>
    let d1 := match d.dp.lock with
      | some l => if l.first = a then d else dpUnlock 0x2045 start d
      | none => d
    let ws := capture c d1 a n
    (ws.headD 0, { d1 with dp := { d1.dp with lock := some { first := a, last := last, words := ws } } })
  | none =>
    match d.dp.lock with
    | some l => if l.first < a ∧ a < l.first + 4 * l.words.length then (nth 0 l.words ((a - l.first) / 4), d) else (readReg c d a, d)
    | none => (readReg c d a, d)

/-- The last byte of a word has been sent: the lock ends with its last word (R478, R518). -/
def wordSent (a : Nat) (d : Dyn) : Dyn :=
  match d.dp.lock with
  | some l =>
    if a = l.last ∨ ((bufferAt l.first).isSome ∧ a = l.first + 76) then bufferRelease l.first true { d with dp := { d.dp with lock := none } } else d
  | none => d

/-- The address of word `k` of a frame (R513). -/
def frameAddr (c : Cfg) (addr k : Nat) : Nat :=
  if c.bF 0x20 0 then addr / 4096 * 4096 + (addr + 4 * k) % 4096 else (addr + 4 * k) % 2 ^ 32

/-- Whether an address is one that keeps a write session (R118). -/
def cfgAccess (a : Nat) : Bool := (decide (0x20000 ≤ a) && decide (a < 0x30000)) || (decide (0x10000000 ≤ a) && decide (a < 0x10200000))

/-- One word of a read frame: `m` of its bytes are sent, `late` are the bytes of the frame that the window fetch misses. -/
def readStep (c : Cfg) (addr m : Nat) (late : List Nat) (k : Nat) (r : List Byte × Dyn) : List Byte × Dyn :=
  let a := frameAddr c addr k
  let d := if cfgAccess a then cfgTouch r.2 else r.2
  if a < 0x10000000 then
    let q := fetchWord c addr a d
    (r.1 ++ (leBytes 4 q.1.toNat).take m, if m = 4 then wordSent a q.2 else q.2)
  else
    let bs := (leBytes 4 (readWord c d a).toNat).take m
    let hit : Nat → Bool := fun j => late.contains (4 * k + j)
    (r.1 ++ bs.zipIdx.map (fun p => if hit p.2 then 0xFF else p.1), if (List.range m).any hit then dpCode 0x2046 addr d else d)

/-- What the latest frame put on the lanes. -/
def dpOut (quad : Bool) (l : List Byte) (d : Dyn) : Dyn := { d with dp := { d.dp with out := l, quad := quad } }

/-- Frames are ignored in DORMANT and while the logic side is held in reset (R519). -/
def Dyn.portDead (d : Dyn) : Bool := d.glb.st == .dormant || d.pwr.resetFrom.isSome

/-- DP_READ and DP_QUAD_READ (R512 to R514, R519): `n` data bytes from `addr`. -/
def dpRead (quad : Bool) (addr n : Nat) (late : List Nat) (c : Cfg) (d : Dyn) : Dyn :=
  if d.portDead then d
  else if d.glb.st = .boot then dpOut quad (List.replicate n 0) (dpCode 0x2048 addr d)
  else if addr % 4 ≠ 0 then dpOut quad (List.replicate n 0xFF) (dpCode 0x2041 addr d)
  else
    let m := min n 4096
    let r := forEach (List.range ((m + 3) / 4)) (([], d) : List Byte × Dyn) (fun k r => readStep c addr (min 4 (m - 4 * k)) late k r)
    dpOut quad (r.1 ++ List.replicate (n - m) 0xFF) (if m < n then dpCode 0x2043 addr r.2 else r.2)

/-- One word of a write frame goes to its queue or is dropped (R515). -/
def queueWord (c : Cfg) (addr a : Nat) (v : Word) (d : Dyn) : Dyn :=
  let d := if cfgAccess a then cfgTouch d else d
  if a < 0x10000000 then
    if d.dp.queue.length < 512 then { d with dp := { d.dp with queue := d.dp.queue ++ [{ addr := a, val := v }] } } else dpOverrun c addr d
  else if a < 0x10200000 then
    if d.dp.sbuf.length < 1024 then { d with dp := { d.dp with sbuf := d.dp.sbuf ++ [{ addr := a, val := v }] } } else dpOverrun c addr d
  else d

/-- DP_WRITE and DP_QUAD_WRITE (R512, R513, R515, R519). -/
def dpWrite (addr : Nat) (data : List Byte) (c : Cfg) (d : Dyn) : Dyn :=
  if d.portDead then d
  else if d.glb.st = .boot then dpOut false [] (dpCode 0x2048 addr d)
  else if addr % 4 ≠ 0 then dpOut false [] (dpCode 0x2041 addr d)
  else
    let l := data.take 4096
    let d1 := forEach (List.range (l.length / 4)) d (fun k d => queueWord c addr (frameAddr c addr k) (BitVec.ofNat 32 (leAt l (4 * k) 4)) d)
    let d2 := if 4096 < data.length then dpCode 0x2043 addr d1 else if l.length % 4 ≠ 0 then dpCode 0x2042 addr d1 else d1
    dpOut false [] d2

/-- The status byte (R516). -/
def statusByte (c : Cfg) (d : Dyn) : Byte :=
  BitVec.ofNat 8 (b1 0 d.dp.lock.isSome + b1 1 d.dp.expired + b1 2 d.dp.frameErr + b1 3 d.dp.underrun + b1 4 d.dp.overrun + b1 5 (irqLow c d) +
    b1 6 (decide (d.dp.queue ≠ [])) + b1 7 (d.glb.st != .boot))

/-- DP_STATUS (R516). -/
def dpStatus (n : Nat) (c : Cfg) (d : Dyn) : Dyn := if d.portDead then d else dpOut false (List.replicate n (statusByte c d)) d

/-- DP_IDENTITY (R517). -/
def dpIdentity (n : Nat) (c : Cfg) (d : Dyn) : Dyn :=
  if d.portDead then d
  else
    let l : List Byte := [0xE5, 0x5A] ++ leBytes 2 c.fx.word ++ leBytes 8 c.fx.id
    dpOut false (l.take n ++ List.replicate (n - 12) 0) d

/-- UNKNOWN_COMMAND (R512). -/
def unknownCommand (cmd : Byte) (d : Dyn) : Dyn :=
  if d.portDead ∨ [0x0B, 0x6B, 0x02, 0x32, 0x05, 0x9F].contains cmd.toNat then d else dpOut false [] (dpCode 0x2040 0 d)

/-- STAGING_WRITE (R117, R515): a word reaches the staging area; the buffer's entry of it goes. -/
def stagingWrite (a : Nat) (v : Word) (d : Dyn) : Dyn :=
  if 0x10000000 ≤ a ∧ a < 0x10200000 ∧ a % 4 = 0 ∧ d.portUp then
    stagingPut a v { d with dp := { d.dp with sbuf := d.dp.sbuf.erase { addr := a, val := v } } }
  else d

/-- The staging writes that wait in the port's buffer reach the staging area (R515). -/
def stagingDrain (d : Dyn) : Dyn :=
  d.dp.sbuf.foldl (fun d q => stagingPut q.addr q.val d) { d with dp := { d.dp with sbuf := [] } }

/-- A port's own lock 100 µs after it was taken (R497, R518). -/
def svcExpire (p : Nat) (d : Dyn) : Dyn :=
  match (d.port p).lock with
  | some l => if l.at_ + 100 ≤ d.tim.us then bufferRelease l.first false (d.setPort p { d.port p with lock := none }) else d
  | none => d

/-- One word as the register service of port `p` reads it (R497, R518). -/
def svcFetch (c : Cfg) (p a : Nat) (d0 : Dyn) : Word × Dyn :=
  let d := svcExpire p d0
  let x := d.port p
  match groupAt c d a with
  | some (last, n) =>
    let d1 := match x.lock with
      | some l => if l.first = a then d else bufferRelease l.first false (d.setPort p { x with lock := none })
      | none => d
    let ws := capture c d1 a n
    (ws.headD 0, d1.setPort p { d1.port p with lock := some { first := a, last := last, at_ := d1.tim.us, words := ws } })
  | none =>
    match x.lock with
    | some l =>
      if l.first < a ∧ a < l.first + 4 * l.words.length then
        (nth 0 l.words ((a - l.first) / 4),
         if a = l.last ∨ ((bufferAt l.first).isSome ∧ a = l.first + 76) then bufferRelease l.first true (d.setPort p { x with lock := none }) else d)
      else (readReg c d a, d)
    | none => (readReg c d a, d)

/-- SERVICE_READ (R496, R497): the oldest request, a read, is answered; so is a malformed one. -/
def serviceRead (c : Cfg) (p : Nat) (d : Dyn) : Dyn :=
  let x := d.port p
  match x.svc with
  | r :: rest =>
    let d1 := d.setPort p { x with svc := rest }
    if r.bad then svcReply c p r.op 0xE044 r.val d1
    else if r.op % 16 = 1 then let q := svcFetch c p r.addr d1; svcReply c p r.op 0 q.1 q.2
    else d
  | [] => d

end Sys2Proof.Machine
end

