-- ==== Sys2Proof/Machine/Frame.lean ====
section
/-! DEFINITION. The frame (R33 to R38, R278, R308, R346, R461, R529): what a frame boundary does, in order, and the loop deadline. -/

namespace Sys2Proof.Machine

open Sys2Proof

/-- The engines run in this frame: RUN, and in a pair as ACTIVE or as a synced STANDBY (R16, R23, R551). -/
def enginesRun (d : Dyn) : Bool := d.glb.st == .run && (!d.standby || d.pair.state == 7 || d.pair.state == 8)

/-- The end of loop execution in a frame, then override selection, generators and trace (R278, R295, R308). -/
def loopsEnd (endUs : Nat) (s : State) : State :=
  let c := s.c
  let z := s.d.frozen
  let k := s.d.ctl
  let d1 : Dyn := { s.d with ctl := { k with due := [], anyMiss := false, lastEnd := endUs, peakEnd := max k.peakEnd endUs,
                                             missFrames := if k.anyMiss then (k.missFrames + 1) % 2 ^ 32 else k.missFrames } }
  { s with d := trcFrame c z s.d.sched (trcNote c (afterLoops c d1)) }

/-- LOOP_DEADLINE (R278): of the loops still due, the first `done` complete in time and the others miss their sample. -/
def loopDeadline (done : Nat) (s : State) : State :=
  let due := s.d.ctl.due
  if due = [] then s
  else
    let s1 := forEach (due.take done) s (loopTurn s.d.frozen)
    let d1 := forEach ((due.drop done).filter s1.c.loopEn) s1.d (loopMiss s1.c)
    loopsEnd 820 { s1 with d := d1 }

/-- The loops of the frame that begins: those that complete before the deadline, and the frame's tail when none is left. -/
def loopsRun (e : FrameEnv) (s : State) : State :=
  if !enginesRun s.d then s
  else
    let due := loopsDue s.c s.d.sched
    let s0 : State := { s with d := { s.d with ctl := { s.d.ctl with before := s.d.ctl.loops } } }
    let s1 := forEach (due.take e.loopsDone) s0 (loopTurn s.d.frozen)
    let left := due.drop e.loopsDone
    if left = [] then loopsEnd (if due = [] then 20 else min e.loopEnd 820) s1
    else { s1 with d := { s1.d with ctl := { s1.d.ctl with due := left } } }

/-- What the ACTIVE made of a loop in the frame that ends (R296): a sample that it missed is taken back on the STANDBY and counts as missed, one
that only the STANDBY missed is made up, and I, Dst, xp and u are the ACTIVE's. -/
def loopAdopt (i : StreamItem) (s : State) : State :=
  match i with
  | .loop n missed iv xp dst u =>
    let b := tget LoopS.empty s.d.ctl.before n
    let s1 : State :=
      if missed && !(s.d.lp n).missed then { s with d := loopMiss s.c n (s.d.setLp n b) }
      else if !missed && (s.d.lp n).missed then loopTurn s.d.frozen n { s with d := s.d.setLp n b }
      else s
    { s1 with d := s1.d.setLp n { s1.d.lp n with i := iv, xp := xp, dst := dst, u := u } }
  | _ => s

/-- The loops of a STANDBY follow the ACTIVE's (R296). -/
def loopsAdopt (s : State) : State := if s.d.standby && enginesRun s.d then s.d.pair.stream.foldl (fun s i => loopAdopt i s) s else s

/-- Device time at the boundary (R33, R83, R551): the next whole millisecond, or the boundary that a wake, the end of BOOT or a seal has
named. -/
def frameTime (c : Cfg) (d : Dyn) : Dyn :=
  if d.pair.sealed_ then d
  else
    let d1 : Dyn := { d with pwr := { d.pwr with firstAt := none } }
    match d.pwr.firstAt with
    | some b => if d.ms < b then d1.goTo c (accOfMs b) else if d.ms = b then d1 else d1.nextFrame c
    | none => d1.nextFrame c

/-- What an entry to SAFE at a boundary outranks is recorded (R21): a pending GO_SAFE and a pending request for DORMANT. -/
def beaten (safe : Option Nat) (d : Dyn) : Dyn :=
  dropDorm (match safe with | some q => discard q d | none => d)

/-- The joining STANDBY's first RUN (R560): its engines stand until the copy is done. -/
def standbyRun (c : Cfg) (cause : Nat) (d : Dyn) : Dyn :=
  let d1 := d.toState .run cause
  trcStart c (measureEntry c false { d1 with glb := { d1.glb with runReq := none, runCommit := false, safeReq := none, dormReq := false, haltCause := none } })

/-- The first RUN of a pair configuration whose role is not settled (R552): an accepted commit in SAFE without configuration, or the end of a HALT
that BOOT met. -/
def seekRun (c : Cfg) (cause : Nat) (d : Dyn) : Dyn :=
  let d1 := fenceLines c (seekStart (standbyRun c cause d))
  if d1.pair.present then d1 else claimStart c d1

/-- The transitions taken at a frame boundary (R20, R21, R24, R557). A HALT record bars LEAVE_SAFE alone: an accepted configuration leads out of SAFE
whatever is open. -/
def transitions (s : State) : State :=
  let c := s.c
  let g := s.d.glb
  match g.st with
  | .run =>
    match g.haltCause, g.safeReq with
    | some h, q =>
      if haltWaits s.d then { s with d := { s.d with pair := { s.d.pair with switchAt := some (s.d.ms + 1), switchCause := 3 } } }
      else { s with d := fenceLines c (enterSafe c h (haltHandover (beaten q s.d))) }
    | none, some q => { s with d := enterSafe c q (beaten none s.d) }
    | none, none => s
  | .safe =>
    match g.runReq with
    | some q =>
      if s.d.haltOpen && !g.runCommit then
        let d1 := discard q s.d
        { s with d := { d1 with glb := { d1.glb with runReq := none, haltCause := none } } }
      else if s.d.standby && s.d.pair.state == 6 then { s with d := standbyRun c q s.d }
      else if c.pairOn && s.d.pair.state == 0 then { s with d := seekRun c q s.d }
      else enterRun q s
    | none => { s with d := { s.d with glb := { g with haltCause := none } } }
  | _ => s

/-- Put an effect of a fired action in order of due time, the lower entry first on equal times (R461). -/
def insEffect (e : Effect) : List Effect → List Effect
  | [] => [e]
  | q :: l => if e.due < q.due ∨ (e.due = q.due ∧ e.entry ≤ q.entry) then e :: q :: l else q :: insEffect e l

/-- The effect of a fired action (R456, R461): a refusal leaves its code in the entry and an event. A request for DORMANT counts in RUN alone, and a
WAKE_RUN that fired in its frame aborts it (R464). -/
def effectDo (e : Effect) (s : State) : State :=
  let flag : Bool → State := fun b => { s with d := { s.d with seq := { s.d.seq with flags := putBit s.d.seq.flags e.index b } } }
  let r : State × Nat :=
    match e.kind with
    | 2 =>
      if s.d.glb.st ≠ .run then (s, 0)
      else
        let d := goDormant s.c true s.d
        ({ s with d := if d.glb.dormReq && d.tim.wakeFired then { d with pwr := { d.pwr with entryAbort := some 0x82 } } else d }, dormantCode s.c s.d)
    | 3 => (flag true, 0)
    | 4 => (flag false, 0)
    | _ => applyWrite 4 e.addr e.val s
  if r.2 = 0 then r.1
  else { r.1 with d := (r.1.d.setAct e.entry { r.1.d.act e.entry with result := r.2 }).event 0 0x6C 1 e.entry r.2 }

/-- A write in the register-service position (R37, R484, R494, R497). A STANDBY answers no request and issues no command (R499). -/
def canWriteDo (w : CanWrite) (s : State) : State :=
  if s.d.standby then s
  else match w with
    | .service p r =>
      let q := applyWrite 1 r.addr r.val s
      let x := q.1.d.port p
      { q.1 with d := q.1.d.setPort p { x with replies := x.replies ++ [{ r with code := q.2 }] } }
    | .mapped _ a v => (applyWrite 1 a v s).1
    | .exchange p step value ms =>
      let u := (value % (2 ^ 64 : Int)).toNat
      let reg := if step then (s.c.reg.putB 0x30028 (BitVec.ofNat 32 u)).putB 0x3002C (BitVec.ofNat 32 (u / 2 ^ 32))
        else (s.c.reg.putB 0x30034 (wordOf value)).putB 0x30038 (BitVec.ofNat 32 ms)
      let c : Cfg := { s.c with reg := reg }
      let d1 := if step then timeStep c s.d else slewStart c s.d
      { s with c := c, d := if d1.tim.cmdResult = 0 then d1 else portReason p d1.tim.cmdResult d1 }

/-- The writes of the frame that has passed, in the order of R37, the effects of fired actions ahead of them (R461). -/
def frameWrites (s : State) : State :=
  let d := s.d
  let effects := d.tim.effects.foldr insEffect []
  let clean : Dyn := { d with tim := { d.tim with effects := [] }, dp := { d.dp with queue := [] }, can := { d.can with writes := [] }
                              seq := { d.seq with writes := [] } }
  let s1 := effects.foldl (fun s e => effectDo e s) { s with d := stagingDrain clean }
  let s2 := d.dp.queue.foldl (fun s q => hostWrite q.addr q.val s) s1
  let s3 := d.can.writes.foldl (fun s q => canWriteDo q.2 s) s2
  let s4 := if d.standby then d.pair.words.foldl (fun s q => mirrorWrite q.1 q.2 s) s3 else s3
  let s5 := d.seq.writes.foldl (fun s q => (applyWrite 3 q.addr (mix (readReg s.c s.d q.addr) q.val q.mask) s).1) s4
  armWaiting { s5 with d := { s5.d with tim := { s5.d.tim with wakeFired := false } } }

/-- A sequencer pass that has completed publishes, and the outputs of the frame before go to the field side (R35, R36, R346, R354). -/
def frameOutputs (e : FrameEnv) (s : State) : State :=
  let c := s.c
  let d := s.d
  let d1 := if e.passDone && d.glb.st == .run then passEnd c e.passUs d else d
  let d2 := forEach (List.range c.fx.nLoops) d1 (loopTpo c d1.sched)
  let d3 := forEach (List.range c.fx.nOvr) d2 (ovrTpo c d1.sched)
  let d4 := forEach (List.range 4) d3 (fun g d => dioSend c (unitOut c d) (tpoLevel c d) g d)
  let d5 := forEach (List.range 32) d4 (fun n d => movSend c (loopDrive c d) n (speedUpdate c n d))
  let d6 := forEach (List.range 4) d5 (dioBoundary c)
  let d7 := forEach (List.range 2) d6 (fun m d => if (d.grp (4 + m)).restorable && c.grpAuto (4 + m) then restoreGrp (4 + m) d else d)
  { s with d := forEach (List.range 32) d7 (fun n d => movBoundary c (srcVal c d.frozen) (runRequest c d) n d) }

/-- The sample lists due at this boundary (R529, R538). -/
def sampleLists (c : Cfg) (d : Dyn) : Dyn :=
  match c.img.sect 0xF00 0 with
  | none => d
  | some body =>
    if d.glb.st = .run ∨ d.glb.st = .safe then
      forEach (List.range 4) d (fun i d =>
        let l := listOf body i
        if l.1 && d.sched % max 1 l.2.2.1 == 0 then
          let z := d.frozen
          let vals := l.2.2.2.map (fun r => leBytes 4 (match srcVal c z r.1 r.2 with | some v => u32 v | none => 0x80000000))
          d.ledger 7 4 (leBytes 1 i ++ leBytes 1 l.2.1 ++ [0, 0] ++ vals.flatten)
        else d)
    else d

/-- Whether digital channel `k` is on for a flow condition (R228): a usable input, or a driven output. -/
def dioOn (c : Cfg) (d : Dyn) (k : Nat) : Bool :=
  if c.isIn k then (dioInput c d k).getD false else (d.grp (k / 16)).applied.testBit (k % 16)

/-- The columns at a boundary (R256, R263, R264, R267): look at the cells, step. -/
def frameColumns (s : State) : State :=
  let c := s.c
  let d1 := forEach ((List.range c.fx.nCols).filter c.colEn) s.d (fun n d =>
    let look : Nat → Option Cell := fun m => if m < 8 ∧ c.cellEn m then some (d.frozen.cell m) else none
    let inlet := look (c.colInlet n)
    let ok := match inlet with | some y => y.state == 1 || y.state == 2 | none => false
    columnWatch c n (look (c.colDis n)) inlet ok d)
  forEach (List.range c.fx.nCols) { s with d := d1 } columnTurn

/-- The cells at a boundary (R204, R228): sweeps that start now, and the flow of the last millisecond. -/
def frameCells (s : State) : State :=
  let run := s.d.glb.st == .run || s.d.glb.st == .safe
  let st := ownSet s.c s.d
  let s1 := if run then forEach (List.range s.c.fx.nCells) s (fun n s =>
      if s.c.cellEn n && s.d.sched % max 1 (s.c.cellPer n) == s.c.cellPhase n then sweepStart st n s else s) else s
  let c := s1.c
  { s1 with d := if run && !s1.d.standby then forEach (List.range c.fx.nCells) s1.d (fun n d =>
      flowAccumulate c (dioOn c d) (fun u => (d.unit u).pubState == 2) n d) else s1.d }

/-- The CAN ports at a boundary (R483, R493, R498 to R500). -/
def frameCan (s : State) : State :=
  let c := s.c
  let s1 := forEach (List.range 128) { s with d := forEach (List.range 4) s.d (syncSend c) } mapLoad
  { s1 with d := canSettle s1.c s1.d }

/-- The tail of a burst at a boundary (R86): hold commands follow the storage lists, and the archive's partly filled subpages enter its queue. -/
def frameBurst (c : Cfg) (d : Dyn) : Dyn :=
  if d.glb.st = .scan ∧ d.pwr.burst = .listDone then
    let d1 := sendHolds c d
    { d1 with pwr := { d1.pwr with burst := .holdsSent }, arc := arcFlushAll d1.arc }
  else d

/-- The beginning of a frame: a loop still due has missed (R295), the standby takes over the loop values of the active's frame (R296), the words written
in the last frame stand, and the device time goes to the next whole millisecond (R33, R37). -/
def frameClock (s : State) : State :=
  let s0 := loopsAdopt (if s.d.ctl.due = [] then s else loopDeadline 0 s)
  { s0 with c := { s0.c with reg := s0.c.reg.settle }, d := frameTime s0.c s0.d }

/-- Outputs sent, the active's mirror frame taken on a standby, the column results of finished steps put out, and the input snapshot (R35, R260, R573). -/
def frameInputs (e : FrameEnv) (s : State) : State :=
  let s3 := frameOutputs e s
  let c3 := s3.c
  let dp := if s3.d.standby then takeStream c3 s3.d else s3.d
  { s3 with d := takeSnap (if enginesRun dp then forEach ((List.range c3.fx.nCols).filter c3.colEn) dp (columnPublish c3) else dp) }

/-- The writes of R37, the loops due with the overrides, generators and traces after them, the fault tables, the pass starts, the column steps, the cells,
the visits and CAN (R35). -/
def frameWork (e : FrameEnv) (s : State) : State :=
  let s4w := frameWrites (frameLoad s)
  let s4 : State := { s4w with d := firstBoundary s4w.c s4w.d }
  let s5 := loopsRun e s4
  let run := enginesRun s5.d
  let d5 := if run && s5.d.sched % 100 == 0 then tablesEval s5.c (srcVal s5.c s5.d.frozen) s5.d else s5.d
  let s6 : State := { s5 with d := d5 }
  let s7 := if run && d5.sched % 10 == 0 then (let t := if d5.seq.passMs.isNone then passWords s6 else s6; { t with d := passStart t.c t.d }) else s6
  let s8 := if run then frameColumns s7 else s7
  let s9 := forEach (List.range s8.c.fx.nBanks) (frameCells s8) (fun b s => if bankFree s.c s.d b then visitStart b s else s)
  frameCan s9

/-- The end of the frame's work: the sample lists, the end of a scan burst, the report of dropped faults, HEALTHY, and the mirror frame forgotten (R86,
R431, R529, R573). -/
def frameEnds (s : State) : State :=
  let d10 := healthyUpdate s.c ((frameBurst s.c (sampleLists s.c s.d)).dropReport s.c)
  { s with d := { d10 with pair := { d10.pair with stream := [], sealed_ := false } } }

/-- A frame boundary of RUN, SCAN or SAFE (R33 to R38, R46, R86, R431). -/
def frameRun (e : FrameEnv) (s : State) : State := frameEnds (frameWork e (frameInputs e (transitions (pairBoundary (frameClock s)))))

/-- FRAME_BOUNDARY (R31, R33): in BOOT only device time passes; in DORMANT and in reset there are no frames. -/
def frameBoundary (e : FrameEnv) (s : State) : State :=
  if s.d.pwr.resetFrom.isSome then s
  else match s.d.glb.st with
    | .boot => { s with d := s.d.nextFrame s.c }
    | .dormant => s
    | _ => frameRun e s

end Sys2Proof.Machine
end

