-- ==== Sys2Proof/Machine/Commands.lean ====
section
/-! DEFINITION. What the meanings share: a command or value that the host's register write carries (R37, R44, R512, R558). -/

namespace Sys2Proof.Machine

open Sys2Proof

/-- A command that the host writes to the register at `a`, at the moment the write is applied: nothing comes in BOOT, in DORMANT or in reset; a
STANDBY refuses it unless `takes` (R558); at basic level a command that is no operator field is a locked write (R44). -/
def hostCmd (a : Nat) (takes : Bool) (g : State → State) (s : State) : State :=
  if !s.d.portUp then s
  else if s.d.standby && !takes then { s with d := standbyRefuse s.c a s.d }
  else if s.c.basic && !cmdIsOp a then { s with d := lockedWrite a s.d }
  else g s

/-- A value that the host writes to the operator register at `a`; its WRITE record where the image logs the field (R37, R529). -/
def hostVal (a : Nat) (g : State → State) (s : State) : State := hostCmd a false (loggedWrite 0 a g) s

end Sys2Proof.Machine
end

