-- ==== Sys2Proof/Machine/ExecArchive.lean ====
section
/-! DEFINITION. The commands of the ledger and of Shuttle (R523 to R543). -/

namespace Sys2Proof.Machine

open Sys2Proof

/-- SUBPAGE_PROGRAM_DONE (R525, R530 to R533). -/
def execSubpageProgramDone (ok : Bool) (s : State) : Host.Outcome State Fault Refusal :=
  .next { s with d := subpageProgramDone s.c ok s.d }

/-- BAND_ERASE_DONE (R525, R532). -/
def execBandEraseDone (band badBlocks : Nat) (s : State) : Host.Outcome State Fault Refusal :=
  .next { s with d := bandEraseDone s.c band badBlocks s.d }

/-- FLUSH_TIMEOUT (R533). -/
def execFlushTimeout (r : Nat) (s : State) : Host.Outcome State Fault Refusal :=
  .next { s with d := flushTimeout s.c r s.d }

/-- DROP_SUMMARY (R532). -/
def execDropSummary (s : State) : Host.Outcome State Fault Refusal :=
  .next { s with d := dropSummary s.d }

/-- ARC_CMD.FLUSH (R541), which a STANDBY takes too (R558). -/
def execArcFlush (s : State) : Host.Outcome State Fault Refusal :=
  .next (hostCmd (0x500018) true (fun s => { s with d := arcFlushCmd s.d }) s)

/-- ARC_CMD.CLEAR_REGION (R541). -/
def execClearRegion (r : Nat) (s : State) : Host.Outcome State Fault Refusal :=
  .next (if r < 8 then hostCmd (0x500018) false (fun s => keepArg 0x500018 (BitVec.ofNat 32 (4 * r)) { s with d := clearRegion r s.d }) s else s)

/-- ARC_SCMD.GO (R535, R536), which a STANDBY takes too (R558). -/
def execShuttleGo (s : State) : Host.Outcome State Fault Refusal :=
  .next (hostCmd (0x50001C) true (fun s => { s with d := shuttleGo s.c s.d }) s)

/-- ARC_SCMD.CANCEL (R535, R536), which a STANDBY takes too (R558). -/
def execShuttleCancel (s : State) : Host.Outcome State Fault Refusal :=
  .next (hostCmd (0x50001C) true (fun s => { s with d := shuttleCancel s.c s.d }) s)

/-- SHUTTLE_DONE (R527, R535). -/
def execShuttleDone (t : Nat) (m : MediaRead) (s : State) : Host.Outcome State Fault Refusal :=
  .next { s with d := shuttleDone s.c t m s.d }

/-- MOUNT_COMPLETE (R534). -/
def execMountComplete (rebuilt : Bool) (s : State) : Host.Outcome State Fault Refusal :=
  .next { s with d := mountComplete s.c rebuilt s.d }

end Sys2Proof.Machine
end

