-- ==== Sys2Proof/Machine/ExecCan.lean ====
section
/-! DEFINITION. The commands of the CAN FD ports (R470 to R510). -/

namespace Sys2Proof.Machine

open Sys2Proof

/-- CAN_FRAME_RECEIVED (R476 to R478, R482 to R496). -/
def execCanFrameReceived (p : Nat) (fr : CanFrame) (s : State) : Host.Outcome State Fault Refusal :=
  .next (if p < 4 then { s with d := canFrameReceived s.c p fr s.d } else s)

/-- CAN_TX_COMPLETE (R479, R480, R490). -/
def execCanTxComplete (p : Nat) (r : TxOutcome) (s : State) : Host.Outcome State Fault Refusal :=
  .next (if p < 4 then { s with d := canTxComplete s.c p r s.d } else s)

/-- CAN_ERROR_DETECTED (R470, R485, R486). -/
def execCanErrorDetected (p : Nat) (e : BusError) (s : State) : Host.Outcome State Fault Refusal :=
  .next (if p < 4 then { s with d := canErrorDetected s.c p e s.d } else s)

/-- FOLLOW_UP_SEND (R483). -/
def execFollowUpSend (p : Nat) (s : State) : Host.Outcome State Fault Refusal :=
  .next (if p < 4 then { s with d := followUpSend s.c p s.d } else s)

/-- CANn_CMD.RECOVER (R487, R505). -/
def execRecover (p : Nat) (s : State) : Host.Outcome State Fault Refusal :=
  .next (if p < 4 then hostCmd (canA p 0x34) false (fun s => { s with d := recoverCmd p s.d }) s else s)

/-- BUS_RECOVERED (R487). -/
def execBusRecovered (p : Nat) (s : State) : Host.Outcome State Fault Refusal :=
  .next (if p < 4 then { s with d := busRecovered s.c p s.d } else s)

/-- CANn_CMD.ABORT_ALL (R505). -/
def execAbortAll (p : Nat) (s : State) : Host.Outcome State Fault Refusal :=
  .next (if p < 4 then hostCmd (canA p 0x34) false (fun s => { s with d := abortAll s.c p s.d }) s else s)

/-- CANn_CMD.CLR_COUNTS (R505). -/
def execCanClrCounts (p : Nat) (s : State) : Host.Outcome State Fault Refusal :=
  .next (if p < 4 then hostCmd (canA p 0x34) false (fun s => { s with d := canClrCounts p s.d }) s else s)

/-- CANn_TXREQ (R475, R504). -/
def execTxreq (p : Nat) (v : Word) (s : State) : Host.Outcome State Fault Refusal :=
  .next (if p < 4 then hostCmd (canA p 0x38) true (fun s => txreqWrite p v s) s else s)

/-- TX_BUFFER_WRITE (R475, R507): the host puts new content into a transmit buffer. -/
def execTxBufferWrite (p m dlc : Nat) (data : List Byte) (s : State) : Host.Outcome State Fault Refusal :=
  .next (if p < 4 ∧ m < 32 then hostCmd (canA p 0x2000) true (fun s => txBufferPut p m dlc data s) s else s)

/-- LAUNCH_ARM (R481): a host write sets EN of a launch entry whose words stand. -/
def execLaunchArm (p l : Nat) (s : State) : Host.Outcome State Fault Refusal :=
  .next (if p < 4 ∧ l < 16 then hostCmd (launchA p l 0) true (fun s => { s with d := launchArm s.c p l s.d }) s else s)

/-- LAUNCH_DUE (R481). -/
def execLaunchDue (p l : Nat) (s : State) : Host.Outcome State Fault Refusal :=
  .next (if p < 4 ∧ l < 16 then launchDue p l s else s)

/-- LAUNCH_WINDOW_CLOSE (R481). -/
def execLaunchWindowClose (p l : Nat) (s : State) : Host.Outcome State Fault Refusal :=
  .next (if p < 4 ∧ l < 16 then { s with d := launchWindowClose s.c p l s.d } else s)

/-- NET_TIME_LOST (R484). -/
def execNetTimeLost (p : Nat) (s : State) : Host.Outcome State Fault Refusal :=
  .next (if p < 4 then { s with d := netTimeLost s.c p s.d } else s)

/-- PORT_BLOCKED (R488). -/
def execPortBlocked (p : Nat) (s : State) : Host.Outcome State Fault Refusal :=
  .next (if p < 4 then { s with d := portBlocked s.c p s.d } else s)

/-- MAP_RX_TIMEOUT (R494). -/
def execMapRxTimeout (k : Nat) (s : State) : Host.Outcome State Fault Refusal :=
  .next (if k < 128 then { s with d := mapRxTimeout s.c k s.d } else s)

/-- SERVICE_READ (R496, R497). -/
def execServiceRead (p : Nat) (s : State) : Host.Outcome State Fault Refusal :=
  .next (if p < 4 then { s with d := serviceRead s.c p s.d } else s)

/-- SERVICE_WRITE (R496, R497). -/
def execServiceWrite (p : Nat) (s : State) : Host.Outcome State Fault Refusal :=
  .next (if p < 4 then { s with d := serviceWrite s.c p s.d } else s)

/-- SERVICE_WRITE_REPLY (R497). -/
def execServiceWriteReply (p : Nat) (s : State) : Host.Outcome State Fault Refusal :=
  .next (if p < 4 then { s with d := serviceWriteReply s.c p s.d } else s)

end Sys2Proof.Machine
end

