-- ==== Sys2Proof/Machine/ExecConfig.lean ====
section
/-! DEFINITION. The commands of the configuration loader, of Sage and of register writes (R12, R98 to R123). -/

namespace Sys2Proof.Machine

open Sys2Proof

/-- CFG_SESSION.OPEN (R117), which a STANDBY takes too (R558). -/
def execSessionOpen (copy : Bool) (s : State) : Host.Outcome State Fault Refusal :=
  .next (hostCmd (0x20008) true (fun s => keepArg 0x20008 (if copy then 4 else 0) { s with d := cfgTouch (sessionOpen copy s.c s.d) }) s)

/-- STAGING_FILL_DONE (R117). -/
def execStagingFillDone (s : State) : Host.Outcome State Fault Refusal :=
  .next { s with d := stagingFillDone s.c s.d }

/-- CFG_SESSION.CLOSE (R118), which a STANDBY takes too (R558). -/
def execSessionClose (s : State) : Host.Outcome State Fault Refusal :=
  .next (hostCmd (0x20008) true (fun s => { s with d := cfgTouch (sessionClose s.d) }) s)

/-- SESSION_EXPIRED (R118). -/
def execSessionExpired (s : State) : Host.Outcome State Fault Refusal :=
  .next { s with d := sessionExpired s.d }

/-- STAGING_WRITE (R117, R515). -/
def execStagingWrite (addr : Nat) (v : Word) (s : State) : Host.Outcome State Fault Refusal :=
  .next { s with d := stagingWrite addr v s.d }

/-- CFG_CMD.APPLY (R119, R120): a STANDBY refuses it with its own code. -/
def execApply (s : State) : Host.Outcome State Fault Refusal :=
  .next (hostCmd (0x2000C) true (fun s => { s with d := cfgTouch (commitCmd 1 s.d) }) s)

/-- CFG_CMD.STORE (R119, R121). -/
def execStore (s : State) : Host.Outcome State Fault Refusal :=
  .next (hostCmd (0x2000C) true (fun s => { s with d := cfgTouch (commitCmd 2 s.d) }) s)

/-- CFG_CMD.APPLY_STORE (R119, R120, R121). -/
def execApplyStore (s : State) : Host.Outcome State Fault Refusal :=
  .next (hostCmd (0x2000C) true (fun s => { s with d := cfgTouch (commitCmd 3 s.d) }) s)

/-- COMMIT_CHECK_DONE (R113, R119, R560). -/
def execCommitCheckDone (s : State) : Host.Outcome State Fault Refusal :=
  .next (commitCheckDone s)

/-- WRITEBACK_COMPLETE (R121, R122). -/
def execWritebackComplete (e : FlashEvent) (s : State) : Host.Outcome State Fault Refusal :=
  .next { s with d := writebackComplete s.c e s.d }

/-- CFG_FUSECMD.PROG (R109). -/
def execFuseProg (s : State) : Host.Outcome State Fault Refusal :=
  .next (hostCmd (0x200A0) false (fun s => { s with d := cfgTouch (fuseProg s.c s.d) }) s)

/-- FUSE_PROG_DONE (R109). -/
def execFuseProgDone (readback : Nat) (s : State) : Host.Outcome State Fault Refusal :=
  .next { s with d := fuseProgDone s.c readback s.d }

/-- ENABLE_WRITE (R114): a host write to a word that holds an enable or commit bit. -/
def execEnableWrite (addr : Nat) (v : Word) (s : State) : Host.Outcome State Fault Refusal :=
  .next (if isEnableWord s.c addr then registerWrite addr v s else s)

/-- ENABLE_CHECK_DONE (R114, R115). -/
def execEnableCheckDone (s : State) : Host.Outcome State Fault Refusal :=
  .next (enableCheckDone s)

/-- REGISTER_WRITE (R12, R37, R44): a host write is applied. -/
def execRegisterWrite (addr : Nat) (v : Word) (s : State) : Host.Outcome State Fault Refusal :=
  .next (registerWrite addr v s)

end Sys2Proof.Machine
end

