-- ==== Sys2Proof/Machine/ExecControl.lean ====
section
/-! DEFINITION. The commands of loops, generators, trace channels, units and Drafts (R277 to R363). -/

namespace Sys2Proof.Machine

open Sys2Proof

/-- LOOP_MODE_WRITE (R285, R292, R303). -/
def execLoopModeWrite (n : Nat) (v : Word) (s : State) : Host.Outcome State Fault Refusal :=
  .next (if n < s.c.fx.nLoops then hostVal (loopA n + 0xA0) (fun s => loopModeWrite n v s) s else s)

/-- LOOP_CMD.REINIT (R286, R305). -/
def execReinit (n : Nat) (s : State) : Host.Outcome State Fault Refusal :=
  .next (if n < s.c.fx.nLoops then hostCmd (loopA n + 0xF0) false (fun s => { s with d := reinit s.c n s.d }) s else s)

/-- LOOP_CMD.CLR_COUNTS (R305). -/
def execLoopClrCounts (n : Nat) (s : State) : Host.Outcome State Fault Refusal :=
  .next (if n < s.c.fx.nLoops then hostCmd (loopA n + 0xF0) false (fun s => { s with d := loopClrCounts s.c n s.d }) s else s)

/-- PRF_CMD.SNAP (R315, R328). -/
def execSnap (n : Nat) (s : State) : Host.Outcome State Fault Refusal :=
  .next (if n < s.c.fx.nGens then hostCmd (prfA n + 0x24) false (fun s => { s with d := snapCmd s.c n s.d }) s else s)

/-- TRC_CMD.ARM (R324), which a STANDBY takes too (R558). -/
def execTraceArm (t : Nat) (s : State) : Host.Outcome State Fault Refusal :=
  .next (if t < 8 then hostCmd (trcA t + 0x18) true (fun s => { s with d := traceArm s.c t s.d }) s else s)

/-- TRC_CMD.STOP (R324), which a STANDBY takes too (R558). -/
def execTraceStop (t : Nat) (s : State) : Host.Outcome State Fault Refusal :=
  .next (if t < 8 then hostCmd (trcA t + 0x18) true (fun s => { s with d := traceStop t s.d }) s else s)

/-- TRC_CMD.FORCE (R323), which a STANDBY takes too (R558). -/
def execTraceForce (t : Nat) (s : State) : Host.Outcome State Fault Refusal :=
  .next (if t < 8 then hostCmd (trcA t + 0x18) true (fun s => { s with d := traceForce t s.d }) s else s)

/-- SEQ_DCMD.HOLD (R348, R360). -/
def execDraftHold (n : Nat) (s : State) : Host.Outcome State Fault Refusal :=
  .next (if n < s.c.fx.nDrafts then hostCmd (draftR n 0x10) false (fun s => { s with d := draftCmd s.c n 1 s.d }) s else s)

/-- SEQ_DCMD.RESUME (R348, R360). -/
def execResume (n : Nat) (s : State) : Host.Outcome State Fault Refusal :=
  .next (if n < s.c.fx.nDrafts then hostCmd (draftR n 0x10) false (fun s => { s with d := draftCmd s.c n 2 s.d }) s else s)

/-- SEQ_DCMD.ABORT (R349, R360). -/
def execAbort (n : Nat) (s : State) : Host.Outcome State Fault Refusal :=
  .next (if n < s.c.fx.nDrafts then hostCmd (draftR n 0x10) false (fun s => { s with d := draftCmd s.c n 4 s.d }) s else s)

/-- SEQ_DCMD.RESET (R350, R360). -/
def execDraftReset (n : Nat) (s : State) : Host.Outcome State Fault Refusal :=
  .next (if n < s.c.fx.nDrafts then hostCmd (draftR n 0x10) false (fun s => { s with d := draftCmd s.c n 3 s.d }) s else s)

/-- UNIT_CMD.RUN (R337, R361). -/
def execUnitRun (u : Nat) (s : State) : Host.Outcome State Fault Refusal :=
  .next (if u < s.c.fx.nUnits then hostCmd (0x1C1008 + 0x10 * u) false (fun s => { s with d := unitCmd s.c u 1 s.d }) s else s)

/-- UNIT_CMD.STOP (R337, R361). -/
def execUnitStop (u : Nat) (s : State) : Host.Outcome State Fault Refusal :=
  .next (if u < s.c.fx.nUnits then hostCmd (0x1C1008 + 0x10 * u) false (fun s => { s with d := unitCmd s.c u 2 s.d }) s else s)

/-- UNIT_CMD.ACK (R337, R361). -/
def execUnitAck (u : Nat) (s : State) : Host.Outcome State Fault Refusal :=
  .next (if u < s.c.fx.nUnits then hostCmd (0x1C1008 + 0x10 * u) false (fun s => { s with d := unitCmd s.c u 3 s.d }) s else s)

/-- UNIT_START_TIMEOUT (R336, R341). -/
def execUnitStartTimeout (u : Nat) (s : State) : Host.Outcome State Fault Refusal :=
  .next { s with d := unitCauseEv s.c u 1 s.d }

/-- UNIT_STOP_TIMEOUT (R336, R341). -/
def execUnitStopTimeout (u : Nat) (s : State) : Host.Outcome State Fault Refusal :=
  .next { s with d := unitCauseEv s.c u 2 s.d }

/-- UNIT_PROOF_LOST (R336, R341). -/
def execUnitProofLost (u : Nat) (s : State) : Host.Outcome State Fault Refusal :=
  .next { s with d := unitCauseEv s.c u 3 s.d }

/-- UNIT_TRIP1 (R336, R341). -/
def execUnitTrip1 (u : Nat) (s : State) : Host.Outcome State Fault Refusal :=
  .next { s with d := unitCauseEv s.c u 4 s.d }

/-- UNIT_TRIP2 (R336, R341). -/
def execUnitTrip2 (u : Nat) (s : State) : Host.Outcome State Fault Refusal :=
  .next { s with d := unitCauseEv s.c u 5 s.d }

/-- STEP_TIMEOUT (R347). -/
def execStepTimeout (n : Nat) (s : State) : Host.Outcome State Fault Refusal :=
  .next { s with d := stepTimeoutEv s.c n s.d }

/-- SEQ_FLAGSET (R358). -/
def execSeqFlagset (v : Word) (s : State) : Host.Outcome State Fault Refusal :=
  .next (hostVal (0x1C0014) (fun s => { s with d := flagSet v s.d }) s)

/-- SEQ_FLAGCLR (R358). -/
def execSeqFlagclr (v : Word) (s : State) : Host.Outcome State Fault Refusal :=
  .next (hostVal (0x1C0018) (fun s => { s with d := flagClr v s.d }) s)

end Sys2Proof.Machine
end

