-- ==== Sys2Proof/Machine/ExecDigital.lean ====
section
/-! DEFINITION. The commands of the isolated digital channels and of both kinds of field group (R364 to R387). -/

namespace Sys2Proof.Machine

open Sys2Proof

/-- FORWARD_FRAME_SET (R365, R380, R394, R422). -/
def execForwardFrameSet (g : Nat) (s : State) : Host.Outcome State Fault Refusal :=
  .next (if g < 4 then forwardDio g s else if g < 6 then { s with d := forwardMov s.c (g - 4) s.d } else s)

/-- RETURN_FRAME_SET (R364, R370, R374, R402). -/
def execReturnFrameSet (g : Nat) (r : ReturnSet) (s : State) : Host.Outcome State Fault Refusal :=
  .next { s with d := if g < 4 then returnDio s.c g r s.d else if g < 6 then returnMov s.c (g - 4) r s.d else s.d }

/-- INPUT_SAMPLE (R369). -/
def execInputSample (g levels : Nat) (s : State) : Host.Outcome State Fault Refusal :=
  .next (if g < 4 then { s with d := inputSample s.c g levels s.d } else s)

/-- DEBOUNCED_CHANGE (R369, R372). -/
def execDebouncedChange (k : Nat) (s : State) : Host.Outcome State Fault Refusal :=
  .next (if k < 64 then { s with d := debouncedChange s.c k s.d } else s)

/-- INPUT_BREAK (R371). -/
def execInputBreak (k : Nat) (s : State) : Host.Outcome State Fault Refusal :=
  .next (if k < 64 then { s with d := inputBreak s.c k s.d } else s)

/-- BACKFED (R376). -/
def execBackfed (k : Nat) (s : State) : Host.Outcome State Fault Refusal :=
  .next (if k < 64 then { s with d := backfed s.c k s.d } else s)

/-- DRIVER_FAULT (R376). -/
def execDriverFault (k : Nat) (s : State) : Host.Outcome State Fault Refusal :=
  .next (if k < 64 then { s with d := driverFault s.c k s.d } else s)

/-- OPEN_LOAD (R376). -/
def execOpenLoad (k : Nat) (s : State) : Host.Outcome State Fault Refusal :=
  .next (if k < 64 then { s with d := openLoad s.c k s.d } else s)

/-- OUTPUT_OVERLOAD (R377). -/
def execOutputOverload (k : Nat) (s : State) : Host.Outcome State Fault Refusal :=
  .next (if k < 64 then { s with d := outputOverload s.c k s.d } else s)

/-- OVERLOAD_RETRY (R377). -/
def execOverloadRetry (k : Nat) (s : State) : Host.Outcome State Fault Refusal :=
  .next (if k < 64 then { s with d := overloadRetry s.c k s.d } else s)

/-- OVERLOAD_RECOVERED (R377). -/
def execOverloadRecovered (k : Nat) (s : State) : Host.Outcome State Fault Refusal :=
  .next (if k < 64 then { s with d := overloadRecovered s.c k s.d } else s)

/-- PARTNER_OUTPUT_MISMATCH (R386). -/
def execPartnerOutputMismatch (k : Nat) (s : State) : Host.Outcome State Fault Refusal :=
  .next (if k < 64 then { s with d := partnerOutputMismatch s.c k s.d } else s)

/-- LISTEN_INPUT_MISMATCH (R386). -/
def execListenInputMismatch (k : Nat) (s : State) : Host.Outcome State Fault Refusal :=
  .next (if k < 64 then { s with d := listenInputMismatch s.c k s.d } else s)

/-- DIO_GCMD.RESTORE (R384, R390). -/
def execDioRestore (g : Nat) (s : State) : Host.Outcome State Fault Refusal :=
  .next (if g < 4 then hostCmd (grpA g + 0xC) false (fun s => { s with d := groupCmd s.c g 0 s.d }) s else s)

/-- DIO_GCMD.CLR_MIN (R390). -/
def execDioClrMin (g : Nat) (s : State) : Host.Outcome State Fault Refusal :=
  .next (if g < 4 then hostCmd (grpA g + 0xC) false (fun s => { s with d := groupCmd s.c g 1 s.d }) s else s)

/-- DIO_GCMD.CLEAR (R379, R390). -/
def execDioGroupClear (g : Nat) (s : State) : Host.Outcome State Fault Refusal :=
  .next (if g < 4 then hostCmd (grpA g + 0xC) false (fun s => { s with d := groupCmd s.c g 2 s.d }) s else s)

/-- DIO_CCMD.CLEAR (R379, R390). -/
def execDioChannelClear (k : Nat) (s : State) : Host.Outcome State Fault Refusal :=
  .next (if k < 64 then hostCmd (0x20020C + k / 16 * 0x1000 + k % 16 * 0x10) false (fun s => { s with d := dioChannelClear s.c k s.d }) s else s)

/-- DIO_CCMD.ZERO (R390). -/
def execZero (k : Nat) (s : State) : Host.Outcome State Fault Refusal :=
  .next (if k < 64 then hostCmd (0x20020C + k / 16 * 0x1000 + k % 16 * 0x10) false (fun s => { s with d := dioZero s.c k s.d }) s else s)

/-- DIO_GOUTSET (R375). -/
def execDioGoutset (g : Nat) (v : Word) (s : State) : Host.Outcome State Fault Refusal :=
  .next (if g < 4 then hostVal (grpA g + 0x18) (fun s => { s with d := goutWrite s.c (unitNamed s.c s.d) true g v s.d }) s else s)

/-- DIO_GOUTCLR (R375). -/
def execDioGoutclr (g : Nat) (v : Word) (s : State) : Host.Outcome State Fault Refusal :=
  .next (if g < 4 then hostVal (grpA g + 0x1C) (fun s => { s with d := goutWrite s.c (unitNamed s.c s.d) false g v s.d }) s else s)

/-- FIELD_SUPPLY_SAMPLE (R383). -/
def execFieldSupplySample (g mv : Nat) (s : State) : Host.Outcome State Fault Refusal :=
  .next (if g < 6 then { s with d := moverGroup s.c g (fieldSupplySample s.c g mv s.d) } else s)

/-- FIELD_CUT (R383). -/
def execFieldCut (g : Nat) (s : State) : Host.Outcome State Fault Refusal :=
  .next (if g < 6 then { s with d := moverGroup s.c g (fieldCut s.c g s.d) } else s)

/-- GROUP_RESTORABLE (R384). -/
def execGroupRestorable (g : Nat) (s : State) : Host.Outcome State Fault Refusal :=
  .next (if g < 6 then { s with d := groupRestorable s.c g s.d } else s)

/-- GROUP_RECORD_CLOSE (R384). -/
def execGroupRecordClose (g : Nat) (s : State) : Host.Outcome State Fault Refusal :=
  .next (if g < 6 then { s with d := groupRecordClose g s.d } else s)

/-- STATUS_FRAMES_BAD (R385). -/
def execStatusFramesBad (g : Nat) (s : State) : Host.Outcome State Fault Refusal :=
  .next (if g < 6 then { s with d := moverGroup s.c g (statusFramesBad s.c g s.d) } else s)

/-- STATUS_RECOVERED (R385). -/
def execStatusRecovered (g : Nat) (s : State) : Host.Outcome State Fault Refusal :=
  .next (if g < 6 then { s with d := statusRecovered g s.d } else s)

/-- GROUP_MISSING (R385). -/
def execGroupMissing (g : Nat) (s : State) : Host.Outcome State Fault Refusal :=
  .next (if g < 6 then { s with d := moverGroup s.c g (groupMissing s.c g s.d) } else s)

/-- COMMON_FAULT_LINE (R366). -/
def execCommonFaultLine (g line : Nat) (s : State) : Host.Outcome State Fault Refusal :=
  .next (if g < 6 then { s with d := commonLine s.c g line s.d } else s)

/-- HOLD_EXPIRY (R26, R382). -/
def execHoldExpiry (g : Nat) (s : State) : Host.Outcome State Fault Refusal :=
  .next (if g < 6 then { s with d := moverGroup s.c g (holdExpiry s.c g s.d) } else s)

/-- FIELD_WATCHDOG_EXPIRY (R380). -/
def execFieldWatchdogExpiry (g : Nat) (s : State) : Host.Outcome State Fault Refusal :=
  .next (if g < 6 then { s with d := moverGroup s.c g (fieldWatchdog s.c g s.d) } else s)

end Sys2Proof.Machine
end

