-- ==== Sys2Proof/Machine/ExecFront.lean ====
section
/-! DEFINITION. The commands of the analog front end and of conversion (R133 to R199). -/

namespace Sys2Proof.Machine

open Sys2Proof

/-- GUARD_SLOT_START (R153). -/
def execGuardSlotStart (k : Nat) (s : State) : Host.Outcome State Fault Refusal :=
  .next (guardSlotStart k s)

/-- VISIT_END (R143 to R151, R154, R159, R182 to R195). -/
def execVisitEnd (b : Nat) (m : VisitMeas) (mirror : Option MirrorVisit) (s : State) : Host.Outcome State Fault Refusal :=
  .next (visitEnd b m mirror s.d.dioLevel s)

/-- EXC_RETRY (R140). -/
def execExcRetry (b : Nat) (s : State) : Host.Outcome State Fault Refusal :=
  .next { s with d := excRetry s.c b s.d }

/-- CHANNEL_STALE (R186). -/
def execChannelStale (k : Nat) (s : State) : Host.Outcome State Fault Refusal :=
  .next (if k < 1024 then { s with d := channelStale s.c k s.d.dioLevel s.d } else s)

/-- AFE_BCMD.SELFTEST (R162, R166). -/
def execSelftest (b : Nat) (s : State) : Host.Outcome State Fault Refusal :=
  .next (if b < s.c.fx.nBanks then hostCmd (bankA b + 0x1C) false (fun s => { s with d := selftestCmd s.c b s.d }) s else s)

/-- SELFTEST_DONE (R162). -/
def execSelftestDone (b : Nat) (code1 code2 : Int) (s : State) : Host.Outcome State Fault Refusal :=
  .next (selftestEnd b code1 code2 s.d.dioLevel s)

/-- AFE_BCMD.LCOMMIT (R157, R166). -/
def execLcommit (b : Nat) (s : State) : Host.Outcome State Fault Refusal :=
  .next (if b < s.c.fx.nBanks then hostCmd (bankA b + 0x1C) false (fun s => { s with d := lcommitCmd s.c b s.d }) s else s)

end Sys2Proof.Machine
end

