-- ==== Sys2Proof/Machine/ExecGuard.lean ====
section
/-! DEFINITION. The commands of the guard path, the fault manager and the time base (R417 to R469). -/

namespace Sys2Proof.Machine

open Sys2Proof

/-- GUARD_RELEASE (R420). -/
def execGuardRelease (t : Nat) (s : State) : Host.Outcome State Fault Refusal :=
  .next (if t < s.c.fx.nTerms then { s with d := guardRelease s.c t s.d } else s)

/-- GUARD_PATH_FAULT (R421). -/
def execGuardPathFault (t : Nat) (s : State) : Host.Outcome State Fault Refusal :=
  .next (if t < s.c.fx.nTerms then { s with d := guardPathFault s.c t s.d } else s)

/-- GRD_CMD.RESET (R423). -/
def execGuardReset (t : Nat) (s : State) : Host.Outcome State Fault Refusal :=
  .next (if t < 64 then hostCmd (0x50018) false (fun s => keepArg 0x50018 (BitVec.ofNat 32 (4 * t)) { s with d := guardReset s.c t s.d }) s else s)

/-- GRD_CMD.RESET_ALL (R423). -/
def execGuardResetAll (s : State) : Host.Outcome State Fault Refusal :=
  .next (hostCmd (0x50018) false (fun s => { s with d := guardResetAll s.c s.d }) s)

/-- FLT_CMD.ACK (R437, R448). -/
def execFaultAck (s : State) : Host.Outcome State Fault Refusal :=
  .next (hostCmd (0x40030) false (fun s => { s with d := faultAck s.c s.d }) s)

/-- FLT_CMD.ACK_ALL (R437, R448). -/
def execFaultAckAll (s : State) : Host.Outcome State Fault Refusal :=
  .next (hostCmd (0x40030) false (fun s => { s with d := faultAckAll s.c s.d }) s)

/-- FLT_CMD.NEXT (R448), which a STANDBY takes too (R558). -/
def execFaultNext (s : State) : Host.Outcome State Fault Refusal :=
  .next (hostCmd (0x40030) true (fun s => { s with d := faultNext s.d }) s)

/-- FAULT_COPY_TAKEN (R55, R438). -/
def execFaultCopyTaken (s : State) : Host.Outcome State Fault Refusal :=
  .next { s with d := faultCopyTaken s.d }

/-- EVENTS_MERGED (R439). -/
def execEventsMerged (s : State) : Host.Outcome State Fault Refusal :=
  .next { s with d := eventsMerged s.d }

/-- TIMED_ACTION_FIRE (R459 to R463). -/
def execTimedActionFire (a : Nat) (s : State) : Host.Outcome State Fault Refusal :=
  .next { s with d := timedActionFire s.c a s.d }

/-- ACTION_ARM (R458): a host write sets EN of an entry whose words stand. -/
def execActionArm (a : Nat) (s : State) : Host.Outcome State Fault Refusal :=
  .next (if a < 256 then registerWrite (actA a 0) (mix (s.c.w (actA a 0)) 1 (maskAt 0 1)) s else s)

/-- TIM_CMD.STEP (R453, R454, R463). -/
def execTimeStep (s : State) : Host.Outcome State Fault Refusal :=
  .next (hostCmd (0x3003C) false (fun s => { s with d := timeStep s.c s.d }) s)

/-- TIM_CMD.SLEW (R453). -/
def execSlew (s : State) : Host.Outcome State Fault Refusal :=
  .next (hostCmd (0x3003C) false (fun s => { s with d := slewStart s.c s.d }) s)

/-- TIM_CMD.SLEW_STOP (R453). -/
def execSlewStop (s : State) : Host.Outcome State Fault Refusal :=
  .next (hostCmd (0x3003C) false (fun s => slewStopCmd s) s)

/-- SLEW_END (R453). -/
def execSlewEnd (s : State) : Host.Outcome State Fault Refusal :=
  .next { s with d := slewEnd s.d }

end Sys2Proof.Machine
end

