-- ==== Sys2Proof/Machine/ExecMoisture.lean ====
section
/-! DEFINITION. The commands of the moisture engine, the cartridges and the column model (R203 to R276). -/

namespace Sys2Proof.Machine

open Sys2Proof

/-- SWEEP_COMPLETE (R205 to R221). -/
def execSweepComplete (n : Nat) (m : SweepMeas) (s : State) : Host.Outcome State Fault Refusal :=
  .next (sweepComplete (ownSet s.c s.d) n m s)

/-- RTD_CONVERSION (R207). -/
def execRtdConversion (n : Nat) (raw sense : Int) (compliance : Bool) (s : State) : Host.Outcome State Fault Refusal :=
  .next { s with d := rtdConversion s.c n raw sense compliance s.d }

/-- CELL_STALE (R221). -/
def execCellStale (n : Nat) (s : State) : Host.Outcome State Fault Refusal :=
  .next { s with d := cellStaleEv s.c n s.d }

/-- MST_CMD.CAL_OPEN (R213, R237). -/
def execCalOpen (n : Nat) (s : State) : Host.Outcome State Fault Refusal :=
  .next (if n < s.c.fx.nCells then hostCmd (cellA n + 0x180) false (fun s => { s with d := calCmd s.c n 0 s.d }) s else s)

/-- MST_CMD.CAL_SHORT (R213, R237). -/
def execCalShort (n : Nat) (s : State) : Host.Outcome State Fault Refusal :=
  .next (if n < s.c.fx.nCells then hostCmd (cellA n + 0x180) false (fun s => { s with d := calCmd s.c n 1 s.d }) s else s)

/-- MST_CMD.CAL_CLEAR (R213, R237). -/
def execCalClear (n : Nat) (s : State) : Host.Outcome State Fault Refusal :=
  .next (if n < s.c.fx.nCells then hostCmd (cellA n + 0x180) false (fun s => { s with d := calClearCmd s.c n s.d }) s else s)

/-- ID_RESPONSE (R224 to R230). -/
def execIdResponse (n : Nat) (bytes : List Byte) (s : State) : Host.Outcome State Fault Refusal :=
  .next { s with d := idResponse s.c s.d.pair.pid n bytes s.d }

/-- ID_ATTEMPT_FAIL (R224). -/
def execIdAttemptFail (n : Nat) (s : State) : Host.Outcome State Fault Refusal :=
  .next { s with d := idFail s.c n s.d }

/-- PRESENCE_POLL (R225). -/
def execPresencePoll (n : Nat) (s : State) : Host.Outcome State Fault Refusal :=
  .next { s with d := presencePoll s.c n s.d }

/-- FLOW_QUARTER (R228). -/
def execFlowQuarter (n : Nat) (s : State) : Host.Outcome State Fault Refusal :=
  .next { s with d := flowQuarter s.c n s.d }

/-- INCR_RETRY (R228). -/
def execIncrRetry (n : Nat) (s : State) : Host.Outcome State Fault Refusal :=
  .next { s with d := incrRetry s.c n s.d }

/-- CTG_CMD.REREAD (R240). -/
def execReread (n : Nat) (s : State) : Host.Outcome State Fault Refusal :=
  .next (if n < s.c.fx.nCells then hostCmd (0x15002C + 0x40 * n) false (fun s => { s with d := reread s.c n s.d }) s else s)

/-- CTG_LINE_FAULT (R242). -/
def execCtgLineFault (n : Nat) (s : State) : Host.Outcome State Fault Refusal :=
  .next { s with d := ctgLineFault s.c n s.d }

/-- CTG_LINE_RECOVERED (R242). -/
def execCtgLineRecovered (n : Nat) (s : State) : Host.Outcome State Fault Refusal :=
  .next { s with d := ctgLineOk s.c n s.d }

/-- COLUMN_STEP_COMPLETE (R263, R264). -/
def execColumnStepComplete (n : Nat) (s : State) : Host.Outcome State Fault Refusal :=
  .next { s with d := columnDone n s.d }

/-- COL_CMD.RESTART (R274). -/
def execColumnRestart (n : Nat) (s : State) : Host.Outcome State Fault Refusal :=
  .next (if n < s.c.fx.nCols then hostCmd (colA n + 0xAC) false (fun s => { s with d := columnRestart s.c n s.d }) s else s)

/-- COL_CMD.BATCH_CLEAR (R274). -/
def execBatchClear (n : Nat) (s : State) : Host.Outcome State Fault Refusal :=
  .next (if n < s.c.fx.nCols then hostCmd (colA n + 0xAC) false (fun s => { s with d := batchClear s.c n s.d }) s else s)

/-- COL_CMD.KAPPA_RESET (R274). -/
def execKappaReset (n : Nat) (s : State) : Host.Outcome State Fault Refusal :=
  .next (if n < s.c.fx.nCols then hostCmd (colA n + 0xAC) false (fun s => { s with d := kappaReset s.c n s.d }) s else s)

/-- KAPPA_WRITE (R273). -/
def execKappaWrite (n : Nat) (v : Word) (s : State) : Host.Outcome State Fault Refusal :=
  .next (if n < s.c.fx.nCols then hostVal (colA n + 0x94) (fun s => { s with d := kappaWrite s.c n v s.d }) s else s)

/-- MODEL_OPEN_LOOP (R258). -/
def execModelOpenLoop (n : Nat) (s : State) : Host.Outcome State Fault Refusal :=
  .next { s with d := modelOpenLoop s.c n s.d }

/-- INLET_LOST (R267). -/
def execInletLost (n : Nat) (s : State) : Host.Outcome State Fault Refusal :=
  .next { s with d := inletLostEv s.c n s.d }

end Sys2Proof.Machine
end

