-- ==== Sys2Proof/Machine/ExecMover.lean ====
section
/-! DEFINITION. The commands of the mover channels (R394 to R415, R554). -/

namespace Sys2Proof.Machine

open Sys2Proof

/-- TACH_EDGE (R402). -/
def execTachEdge (n stamp : Nat) (s : State) : Host.Outcome State Fault Refusal :=
  .next (if n < 32 then { s with d := tachEdge s.c n stamp s.d } else s)

/-- SPINUP_TIMEOUT (R405). -/
def execSpinupTimeout (n : Nat) (s : State) : Host.Outcome State Fault Refusal :=
  .next (if n < 32 then { s with d := fanTimeout s.c (runRequest s.c s.d n) n [2] s.d } else s)

/-- PAUSE_TIMEOUT (R405). -/
def execPauseTimeout (n : Nat) (s : State) : Host.Outcome State Fault Refusal :=
  .next (if n < 32 then { s with d := fanTimeout s.c (runRequest s.c s.d n) n [5] s.d } else s)

/-- LOW_SPEED_TIMEOUT (R405). -/
def execLowSpeedTimeout (n : Nat) (s : State) : Host.Outcome State Fault Refusal :=
  .next (if n < 32 then { s with d := fanTimeout s.c (runRequest s.c s.d n) n [3, 4] s.d } else s)

/-- OUTPUT_OPEN (R399). -/
def execOutputOpen (n : Nat) (s : State) : Host.Outcome State Fault Refusal :=
  .next (if n < 32 then { s with d := outputOpen s.c n s.d } else s)

/-- OUTPUT_SHORT (R399). -/
def execOutputShort (n : Nat) (s : State) : Host.Outcome State Fault Refusal :=
  .next (if n < 32 then { s with d := outputShort s.c n s.d } else s)

/-- MOV_CCMD.CLEAR (R405, R415). -/
def execMovClear (n : Nat) (s : State) : Host.Outcome State Fault Refusal :=
  .next (if n < 32 then hostCmd (0x220058 + 0x100 * n) false (fun s => { s with d := reapplyMov s.c (n / 16) (movClear n s.d) }) s else s)

/-- MOV_GCMD.RESTORE (R384, R415). -/
def execMovRestore (m : Nat) (s : State) : Host.Outcome State Fault Refusal :=
  .next (if m < 2 then hostCmd (grpA (4 + m) + 0xC) false (fun s => { s with d := groupCmd s.c (4 + m) 0 s.d }) s else s)

/-- MOV_GCMD.CLR_MIN (R415). -/
def execMovClrMin (m : Nat) (s : State) : Host.Outcome State Fault Refusal :=
  .next (if m < 2 then hostCmd (grpA (4 + m) + 0xC) false (fun s => { s with d := groupCmd s.c (4 + m) 1 s.d }) s else s)

/-- MOV_GCMD.CLEAR (R405, R415). -/
def execMovGroupClear (m : Nat) (s : State) : Host.Outcome State Fault Refusal :=
  .next (if m < 2 then hostCmd (grpA (4 + m) + 0xC) false (fun s => { s with d := groupCmd s.c (4 + m) 2 s.d }) s else s)

/-- LEASE_EXPIRY (R410, R554). -/
def execLeaseExpiry (m : Nat) (s : State) : Host.Outcome State Fault Refusal :=
  .next (if m < 2 then { s with d := leaseExpiry s.c m s.d } else s)

/-- PARTNER_DRIVE_MISMATCH (R409). -/
def execPartnerDriveMismatch (n : Nat) (s : State) : Host.Outcome State Fault Refusal :=
  .next (if n < 32 then { s with d := partnerDriveMismatch s.c n s.d } else s)

end Sys2Proof.Machine
end

