-- ==== Sys2Proof/Machine/ExecPair.lean ====
section
/-! DEFINITION. The commands of redundant pair operation (R544 to R566). -/

namespace Sys2Proof.Machine

open Sys2Proof

/-- SEAL_RECEIVED (R547, R551, R555). -/
def execSealReceived (x : Seal) (s : State) : Host.Outcome State Fault Refusal :=
  .next { s with d := sealReceived s.c x s.d }

/-- SEAL_MISSED (R555). -/
def execSealMissed (s : State) : Host.Outcome State Fault Refusal :=
  .next { s with d := sealMissed s.d }

/-- TAKEOVER (R555). -/
def execTakeover (s : State) : Host.Outcome State Fault Refusal :=
  .next (takeover s)

/-- RETURN_FRAME_RECEIVED (R550, R556). -/
def execReturnFrameReceived (r : ReturnFrame) (s : State) : Host.Outcome State Fault Refusal :=
  .next { s with d := returnFrameReceived s.c r s.d }

/-- RETURN_FRAME_MISSED (R553). -/
def execReturnFrameMissed (s : State) : Host.Outcome State Fault Refusal :=
  .next { s with d := returnFrameMissed s.c s.d }

/-- SEEK_TIMEOUT (R552). -/
def execSeekTimeout (s : State) : Host.Outcome State Fault Refusal :=
  .next { s with d := seekTimeout s.c s.d }

/-- FENCE_IN_CHANGE (R545, R546). -/
def execFenceInChange (active : Bool) (s : State) : Host.Outcome State Fault Refusal :=
  .next { s with d := fenceInChange s.c active s.d }

/-- PARTNER_JOIN (R560). -/
def execPartnerJoin (j : JoinReport) (s : State) : Host.Outcome State Fault Refusal :=
  .next { s with d := partnerJoin s.c j s.d }

/-- PAIR_CMD.ACCEPT (R560, R565). -/
def execAccept (s : State) : Host.Outcome State Fault Refusal :=
  .next (hostCmd (0x400024) false (fun s => { s with d := pairAccept s.c s.d }) s)

/-- PAIR_CMD.REJECT (R565). -/
def execReject (s : State) : Host.Outcome State Fault Refusal :=
  .next (hostCmd (0x400024) false (fun s => { s with d := pairReject s.c s.d }) s)

/-- PAIR_CMD.SWITCH (R556). -/
def execSwitch (s : State) : Host.Outcome State Fault Refusal :=
  .next (hostCmd (0x400024) false (fun s => { s with d := pairSwitch s.d }) s)

/-- PAIR_CMD.RESYNC (R560, R565), which a STANDBY takes too (R558). -/
def execResync (s : State) : Host.Outcome State Fault Refusal :=
  .next (hostCmd (0x400024) true (fun s => { s with d := pairResync s.c s.d }) s)

/-- HANDOVER (R556, R557). -/
def execHandover (s : State) : Host.Outcome State Fault Refusal :=
  .next (handover s)

/-- PARTNER_IMAGE_RECEIVED (R560). -/
def execPartnerImageReceived (bytes : List Byte) (s : State) : Host.Outcome State Fault Refusal :=
  .next (partnerImage bytes s)

/-- PARTNER_SYNCED (R553, R560, R561). -/
def execPartnerSynced (keep : Bool) (total : Nat) (s : State) : Host.Outcome State Fault Refusal :=
  .next { s with d := partnerSynced s.c keep total s.d }

/-- COMMIT_PARTNER_RESULT (R560). -/
def execCommitPartnerResult (code : Nat) (s : State) : Host.Outcome State Fault Refusal :=
  .next (commitPartnerResult code s)

/-- THREAD_DONE (R561). -/
def execThreadDone (s : State) : Host.Outcome State Fault Refusal :=
  .next { s with d := threadDone s.d }

/-- WAKE_GRACE_TIMEOUT (R559). -/
def execWakeGraceTimeout (s : State) : Host.Outcome State Fault Refusal :=
  .next (wakeGraceTimeout s)

/-- PARTNER_ANSWER (R552, R553). -/
def execPartnerAnswer (a : RoleAnswer) (s : State) : Host.Outcome State Fault Refusal :=
  .next { s with d := partnerAnswer s.c a s.d }

/-- PAIR_LINK_PACKET (R547, R561). -/
def execPairLinkPacket (pk : LinkPacket) (s : State) : Host.Outcome State Fault Refusal :=
  .next { s with d := linkPacket s.c pk s.d }

end Sys2Proof.Machine
end

