-- ==== Sys2Proof/Machine/ExecPort.lean ====
section
/-! DEFINITION. The commands of the host data port (R511 to R522). -/

namespace Sys2Proof.Machine

open Sys2Proof

/-- DP_READ (R512 to R519). -/
def execDpRead (addr n : Nat) (late : List Nat) (s : State) : Host.Outcome State Fault Refusal :=
  .next { s with d := dpRead false addr n late s.c s.d }

/-- DP_QUAD_READ (R512 to R519). -/
def execDpQuadRead (addr n : Nat) (late : List Nat) (s : State) : Host.Outcome State Fault Refusal :=
  .next { s with d := dpRead true addr n late s.c s.d }

/-- DP_WRITE (R512 to R519). -/
def execDpWrite (addr : Nat) (data : List Byte) (s : State) : Host.Outcome State Fault Refusal :=
  .next { s with d := dpWrite addr data s.c s.d }

/-- DP_QUAD_WRITE (R512 to R519): the same frame on four lanes. -/
def execDpQuadWrite (addr : Nat) (data : List Byte) (s : State) : Host.Outcome State Fault Refusal :=
  .next { s with d := dpWrite addr data s.c s.d }

/-- DP_STATUS (R516). -/
def execDpStatus (n : Nat) (s : State) : Host.Outcome State Fault Refusal :=
  .next { s with d := dpStatus n s.c s.d }

/-- DP_IDENTITY (R517). -/
def execDpIdentity (n : Nat) (s : State) : Host.Outcome State Fault Refusal :=
  .next { s with d := dpIdentity n s.c s.d }

/-- UNKNOWN_COMMAND (R512). -/
def execUnknownCommand (b : Byte) (s : State) : Host.Outcome State Fault Refusal :=
  .next { s with d := unknownCommand b s.d }

/-- LOCK_EXPIRED (R518). -/
def execLockExpired (s : State) : Host.Outcome State Fault Refusal :=
  .next { s with d := lockExpired s.d }

end Sys2Proof.Machine
end

