-- ==== Sys2Proof/Machine/ExecSystem.lean ====
section
/-! DEFINITION. The commands of supplies, resets, BOOT, the state manager and sleep (R18 to R32, R74 to R96). -/

namespace Sys2Proof.Machine

open Sys2Proof

/-- V33_POWER_UP (R18, R77, R91). -/
def execV33PowerUp (s : State) : Host.Outcome State Fault Refusal :=
  .next (v33PowerUp s)

/-- RST_N_LOW (R78). -/
def execRstNLow (s : State) : Host.Outcome State Fault Refusal :=
  .next (rstNLow s)

/-- RST_N_RELEASE (R75). -/
def execRstNRelease (s : State) : Host.Outcome State Fault Refusal :=
  .next (rstNRelease s)

/-- V33_LOSS (R77, R88, R91). -/
def execV33Loss (s : State) : Host.Outcome State Fault Refusal :=
  .next (v33Loss s)

/-- VAO_POWER_ON (R91, R94, R452). -/
def execVaoPowerOn (s : State) : Host.Outcome State Fault Refusal :=
  .next (vaoPowerOn s)

/-- SUPPLY_OUT_OF_RANGE (R74, R75). -/
def execSupplyOutOfRange (which : Supply) (s : State) : Host.Outcome State Fault Refusal :=
  .next (supplyOut which s)

/-- FLASH_DISCOVERY (R98, R99, R110). -/
def execFlashDiscovery (r : FlashReport) (s : State) : Host.Outcome State Fault Refusal :=
  .next { s with d := flashDiscovery s.c r s.d }

/-- CANDIDATE_STREAMED (R110, R111, R113). -/
def execCandidateStreamed (s : State) : Host.Outcome State Fault Refusal :=
  .next (candidateStreamed s)

/-- CHECKPOINT_READ (R534). -/
def execCheckpointRead (r : CpRead) (s : State) : Host.Outcome State Fault Refusal :=
  .next { s with d := checkpointRead s.c r s.d }

/-- BOOT_END (R18, R110, R111, R552). -/
def execBootEnd (seat present : Bool) (s : State) : Host.Outcome State Fault Refusal :=
  .next (bootEnd seat present s)

/-- FRAME_BOUNDARY (R33 to R38). -/
def execFrameBoundary (e : FrameEnv) (s : State) : Host.Outcome State Fault Refusal :=
  .next (frameBoundary e s)

/-- LOOP_DEADLINE (R278, R295). -/
def execLoopDeadline (done : Nat) (s : State) : Host.Outcome State Fault Refusal :=
  .next (loopDeadline done s)

/-- GLB_CMD.GO_DORMANT (R25, R30). -/
def execGoDormant (s : State) : Host.Outcome State Fault Refusal :=
  .next (hostCmd (0x10) false (fun s => { s with d := goDormant s.c false s.d }) s)

/-- GLB_CMD.GO_SAFE (R30). -/
def execGoSafe (s : State) : Host.Outcome State Fault Refusal :=
  .next (hostCmd (0x10) false (fun s => { s with d := goSafe s.d }) s)

/-- GLB_CMD.LEAVE_SAFE (R24, R30). -/
def execLeaveSafe (s : State) : Host.Outcome State Fault Refusal :=
  .next (hostCmd (0x10) false (fun s => { s with d := leaveSafe s.c s.d }) s)

/-- GLB_CMD.RESET (R30), which a STANDBY takes too (R558). -/
def execGlbCmdReset (s : State) : Host.Outcome State Fault Refusal :=
  .next (hostCmd (0x10) true (fun s => glbReset s) s)

/-- DORMANT_ENTRY (R20, R25, R26). -/
def execDormantEntry (s : State) : Host.Outcome State Fault Refusal :=
  .next { s with d := dormantEntry s.c s.d }

/-- SCAN_WAKE (R83, R85). -/
def execScanWake (s : State) : Host.Outcome State Fault Refusal :=
  .next { s with d := scanWake s.c s.d }

/-- TIMED_WAKE (R83, R89). -/
def execTimedWake (s : State) : Host.Outcome State Fault Refusal :=
  .next { s with d := timedWake s.c s.d }

/-- WAKE_PIN (R89). -/
def execWakePin (low : Bool) (s : State) : Host.Outcome State Fault Refusal :=
  .next { s with d := wakePin s.c low s.d }

/-- DIO_WAKE (R89, R382). -/
def execDioWake (k : Nat) (level : Bool) (s : State) : Host.Outcome State Fault Refusal :=
  .next (if k < 64 then { s with d := dioWake s.c k level s.d } else s)

/-- PARTNER_WAKE (R89, R559). -/
def execPartnerWake (s : State) : Host.Outcome State Fault Refusal :=
  .next { s with d := partnerWake s.c s.d }

/-- XT32_STOPPED (R96). -/
def execXt32Stopped (s : State) : Host.Outcome State Fault Refusal :=
  .next { s with d := xt32Stopped s.c s.d }

/-- XT32_RESTARTED (R96). -/
def execXt32Restarted (s : State) : Host.Outcome State Fault Refusal :=
  .next { s with d := xt32Restarted s.d }

/-- XT25_FAIL (R96). -/
def execXt25Fail (s : State) : Host.Outcome State Fault Refusal :=
  .next { s with d := xt25Fail s.c s.d }

/-- FAST_CLOCKS_RUNNING (R82, R83). -/
def execFastClocksRunning (us : Nat) (s : State) : Host.Outcome State Fault Refusal :=
  .next (fastClocksRunning us s)

/-- SCAN_LIST_COMPLETE (R86). -/
def execScanListComplete (s : State) : Host.Outcome State Fault Refusal :=
  .next (scanListComplete s)

/-- BURST_END (R86, R95). -/
def execBurstEnd (s : State) : Host.Outcome State Fault Refusal :=
  .next (burstEnd s)

/-- SLOW_CAL_WINDOW (R81, R94). -/
def execSlowCalWindow (cycles : Nat) (s : State) : Host.Outcome State Fault Refusal :=
  .next { s with d := slowCalWindow s.c cycles s.d }

/-- VAO_LOW (R90, R96). -/
def execVaoLow (level : Nat) (s : State) : Host.Outcome State Fault Refusal :=
  .next { s with d := vaoLow s.c level s.d }

/-- VAO_RESTORED (R96). -/
def execVaoRestored (level : Nat) (s : State) : Host.Outcome State Fault Refusal :=
  .next { s with d := vaoRestored level s.d }

/-- V33A_OUT (R96). -/
def execV33aOut (s : State) : Host.Outcome State Fault Refusal :=
  .next { s with d := v33aOut s.c s.d }

/-- V33A_IN_RANGE (R96, R148). -/
def execV33aInRange (s : State) : Host.Outcome State Fault Refusal :=
  .next { s with d := v33aInRange s.c s.d }

end Sys2Proof.Machine
end

