-- ==== Sys2Proof/Machine/Dispatch.lean ====
section
/-! DEFINITION. The one map from commands to their meanings. -/

namespace Sys2Proof.Machine

open Sys2Proof

/-- The effect of a command on everything but the queue. -/
def exec (i : Instr) (s : State) : Host.Outcome State Fault Refusal :=
  match i with
  | .v33PowerUp => Sys2Proof.Machine.execV33PowerUp s
  | .rstNLow => Sys2Proof.Machine.execRstNLow s
  | .rstNRelease => Sys2Proof.Machine.execRstNRelease s
  | .v33Loss => Sys2Proof.Machine.execV33Loss s
  | .vaoPowerOn => Sys2Proof.Machine.execVaoPowerOn s
  | .flashDiscovery r => Sys2Proof.Machine.execFlashDiscovery r s
  | .candidateStreamed => Sys2Proof.Machine.execCandidateStreamed s
  | .checkpointRead r => Sys2Proof.Machine.execCheckpointRead r s
  | .bootEnd seat present => Sys2Proof.Machine.execBootEnd seat present s
  | .frameBoundary e => Sys2Proof.Machine.execFrameBoundary e s
  | .loopDeadline done => Sys2Proof.Machine.execLoopDeadline done s
  | .stepTimeout draft => Sys2Proof.Machine.execStepTimeout draft s
  | .unitStartTimeout u => Sys2Proof.Machine.execUnitStartTimeout u s
  | .unitStopTimeout u => Sys2Proof.Machine.execUnitStopTimeout u s
  | .unitProofLost u => Sys2Proof.Machine.execUnitProofLost u s
  | .unitTrip1 u => Sys2Proof.Machine.execUnitTrip1 u s
  | .unitTrip2 u => Sys2Proof.Machine.execUnitTrip2 u s
  | .columnStepComplete c => Sys2Proof.Machine.execColumnStepComplete c s
  | .goDormant => Sys2Proof.Machine.execGoDormant s
  | .goSafe => Sys2Proof.Machine.execGoSafe s
  | .leaveSafe => Sys2Proof.Machine.execLeaveSafe s
  | .glbCmdReset => Sys2Proof.Machine.execGlbCmdReset s
  | .dormantEntry => Sys2Proof.Machine.execDormantEntry s
  | .scanWake => Sys2Proof.Machine.execScanWake s
  | .timedWake => Sys2Proof.Machine.execTimedWake s
  | .wakePin low => Sys2Proof.Machine.execWakePin low s
  | .dioWake k level => Sys2Proof.Machine.execDioWake k level s
  | .partnerWake => Sys2Proof.Machine.execPartnerWake s
  | .xt32Stopped => Sys2Proof.Machine.execXt32Stopped s
  | .fastClocksRunning us => Sys2Proof.Machine.execFastClocksRunning us s
  | .xt25Fail => Sys2Proof.Machine.execXt25Fail s
  | .scanListComplete => Sys2Proof.Machine.execScanListComplete s
  | .burstEnd => Sys2Proof.Machine.execBurstEnd s
  | .holdExpiry g => Sys2Proof.Machine.execHoldExpiry g s
  | .fieldWatchdogExpiry g => Sys2Proof.Machine.execFieldWatchdogExpiry g s
  | .slowCalWindow cycles => Sys2Proof.Machine.execSlowCalWindow cycles s
  | .vaoLow level => Sys2Proof.Machine.execVaoLow level s
  | .v33aOut => Sys2Proof.Machine.execV33aOut s
  | .sessionOpen copy => Sys2Proof.Machine.execSessionOpen copy s
  | .stagingFillDone => Sys2Proof.Machine.execStagingFillDone s
  | .sessionClose => Sys2Proof.Machine.execSessionClose s
  | .sessionExpired => Sys2Proof.Machine.execSessionExpired s
  | .stagingWrite addr v => Sys2Proof.Machine.execStagingWrite addr v s
  | .apply => Sys2Proof.Machine.execApply s
  | .store => Sys2Proof.Machine.execStore s
  | .applyStore => Sys2Proof.Machine.execApplyStore s
  | .commitCheckDone => Sys2Proof.Machine.execCommitCheckDone s
  | .writebackComplete e => Sys2Proof.Machine.execWritebackComplete e s
  | .fuseProg => Sys2Proof.Machine.execFuseProg s
  | .fuseProgDone readback => Sys2Proof.Machine.execFuseProgDone readback s
  | .enableWrite addr v => Sys2Proof.Machine.execEnableWrite addr v s
  | .enableCheckDone => Sys2Proof.Machine.execEnableCheckDone s
  | .registerWrite addr v => Sys2Proof.Machine.execRegisterWrite addr v s
  | .guardSlotStart d => Sys2Proof.Machine.execGuardSlotStart d s
  | .visitEnd b m mirror => Sys2Proof.Machine.execVisitEnd b m mirror s
  | .excRetry b => Sys2Proof.Machine.execExcRetry b s
  | .channelStale c => Sys2Proof.Machine.execChannelStale c s
  | .selftest b => Sys2Proof.Machine.execSelftest b s
  | .selftestDone b code1 code2 => Sys2Proof.Machine.execSelftestDone b code1 code2 s
  | .lcommit b => Sys2Proof.Machine.execLcommit b s
  | .sweepComplete n m => Sys2Proof.Machine.execSweepComplete n m s
  | .rtdConversion n raw sense compliance => Sys2Proof.Machine.execRtdConversion n raw sense compliance s
  | .cellStale n => Sys2Proof.Machine.execCellStale n s
  | .calOpen n => Sys2Proof.Machine.execCalOpen n s
  | .calShort n => Sys2Proof.Machine.execCalShort n s
  | .calClear n => Sys2Proof.Machine.execCalClear n s
  | .idResponse n bytes => Sys2Proof.Machine.execIdResponse n bytes s
  | .idAttemptFail n => Sys2Proof.Machine.execIdAttemptFail n s
  | .presencePoll n => Sys2Proof.Machine.execPresencePoll n s
  | .flowQuarter n => Sys2Proof.Machine.execFlowQuarter n s
  | .incrRetry n => Sys2Proof.Machine.execIncrRetry n s
  | .reread n => Sys2Proof.Machine.execReread n s
  | .ctgLineFault n => Sys2Proof.Machine.execCtgLineFault n s
  | .columnRestart c => Sys2Proof.Machine.execColumnRestart c s
  | .batchClear c => Sys2Proof.Machine.execBatchClear c s
  | .kappaReset c => Sys2Proof.Machine.execKappaReset c s
  | .kappaWrite c v => Sys2Proof.Machine.execKappaWrite c v s
  | .modelOpenLoop c => Sys2Proof.Machine.execModelOpenLoop c s
  | .inletLost c => Sys2Proof.Machine.execInletLost c s
  | .loopModeWrite n v => Sys2Proof.Machine.execLoopModeWrite n v s
  | .reinit n => Sys2Proof.Machine.execReinit n s
  | .loopClrCounts n => Sys2Proof.Machine.execLoopClrCounts n s
  | .snap n => Sys2Proof.Machine.execSnap n s
  | .traceArm t => Sys2Proof.Machine.execTraceArm t s
  | .traceStop t => Sys2Proof.Machine.execTraceStop t s
  | .traceForce t => Sys2Proof.Machine.execTraceForce t s
  | .draftHold d => Sys2Proof.Machine.execDraftHold d s
  | .resume d => Sys2Proof.Machine.execResume d s
  | .abort d => Sys2Proof.Machine.execAbort d s
  | .draftReset d => Sys2Proof.Machine.execDraftReset d s
  | .unitRun u => Sys2Proof.Machine.execUnitRun u s
  | .unitStop u => Sys2Proof.Machine.execUnitStop u s
  | .unitAck u => Sys2Proof.Machine.execUnitAck u s
  | .seqFlagset v => Sys2Proof.Machine.execSeqFlagset v s
  | .seqFlagclr v => Sys2Proof.Machine.execSeqFlagclr v s
  | .forwardFrameSet g => Sys2Proof.Machine.execForwardFrameSet g s
  | .returnFrameSet g r => Sys2Proof.Machine.execReturnFrameSet g r s
  | .inputSample g levels => Sys2Proof.Machine.execInputSample g levels s
  | .debouncedChange k => Sys2Proof.Machine.execDebouncedChange k s
  | .inputBreak k => Sys2Proof.Machine.execInputBreak k s
  | .backfed k => Sys2Proof.Machine.execBackfed k s
  | .driverFault k => Sys2Proof.Machine.execDriverFault k s
  | .openLoad k => Sys2Proof.Machine.execOpenLoad k s
  | .outputOverload k => Sys2Proof.Machine.execOutputOverload k s
  | .overloadRetry k => Sys2Proof.Machine.execOverloadRetry k s
  | .overloadRecovered k => Sys2Proof.Machine.execOverloadRecovered k s
  | .dioRestore g => Sys2Proof.Machine.execDioRestore g s
  | .dioClrMin g => Sys2Proof.Machine.execDioClrMin g s
  | .dioGroupClear g => Sys2Proof.Machine.execDioGroupClear g s
  | .dioChannelClear k => Sys2Proof.Machine.execDioChannelClear k s
  | .zero k => Sys2Proof.Machine.execZero k s
  | .dioGoutset g v => Sys2Proof.Machine.execDioGoutset g v s
  | .dioGoutclr g v => Sys2Proof.Machine.execDioGoutclr g v s
  | .fieldSupplySample g mv => Sys2Proof.Machine.execFieldSupplySample g mv s
  | .fieldCut g => Sys2Proof.Machine.execFieldCut g s
  | .groupRestorable g => Sys2Proof.Machine.execGroupRestorable g s
  | .groupRecordClose g => Sys2Proof.Machine.execGroupRecordClose g s
  | .statusFramesBad g => Sys2Proof.Machine.execStatusFramesBad g s
  | .statusRecovered g => Sys2Proof.Machine.execStatusRecovered g s
  | .groupMissing g => Sys2Proof.Machine.execGroupMissing g s
  | .commonFaultLine g line => Sys2Proof.Machine.execCommonFaultLine g line s
  | .partnerOutputMismatch k => Sys2Proof.Machine.execPartnerOutputMismatch k s
  | .listenInputMismatch k => Sys2Proof.Machine.execListenInputMismatch k s
  | .tachEdge n stamp => Sys2Proof.Machine.execTachEdge n stamp s
  | .spinupTimeout n => Sys2Proof.Machine.execSpinupTimeout n s
  | .pauseTimeout n => Sys2Proof.Machine.execPauseTimeout n s
  | .lowSpeedTimeout n => Sys2Proof.Machine.execLowSpeedTimeout n s
  | .outputOpen n => Sys2Proof.Machine.execOutputOpen n s
  | .outputShort n => Sys2Proof.Machine.execOutputShort n s
  | .movClear n => Sys2Proof.Machine.execMovClear n s
  | .movRestore m => Sys2Proof.Machine.execMovRestore m s
  | .movClrMin m => Sys2Proof.Machine.execMovClrMin m s
  | .movGroupClear m => Sys2Proof.Machine.execMovGroupClear m s
  | .leaseExpiry m => Sys2Proof.Machine.execLeaseExpiry m s
  | .partnerDriveMismatch n => Sys2Proof.Machine.execPartnerDriveMismatch n s
  | .guardRelease t => Sys2Proof.Machine.execGuardRelease t s
  | .guardPathFault t => Sys2Proof.Machine.execGuardPathFault t s
  | .guardReset t => Sys2Proof.Machine.execGuardReset t s
  | .guardResetAll => Sys2Proof.Machine.execGuardResetAll s
  | .faultAck => Sys2Proof.Machine.execFaultAck s
  | .faultAckAll => Sys2Proof.Machine.execFaultAckAll s
  | .faultNext => Sys2Proof.Machine.execFaultNext s
  | .faultCopyTaken => Sys2Proof.Machine.execFaultCopyTaken s
  | .eventsMerged => Sys2Proof.Machine.execEventsMerged s
  | .timedActionFire a => Sys2Proof.Machine.execTimedActionFire a s
  | .actionArm a => Sys2Proof.Machine.execActionArm a s
  | .timeStep => Sys2Proof.Machine.execTimeStep s
  | .slew => Sys2Proof.Machine.execSlew s
  | .slewStop => Sys2Proof.Machine.execSlewStop s
  | .slewEnd => Sys2Proof.Machine.execSlewEnd s
  | .canFrameReceived p fr => Sys2Proof.Machine.execCanFrameReceived p fr s
  | .canTxComplete p r => Sys2Proof.Machine.execCanTxComplete p r s
  | .followUpSend p => Sys2Proof.Machine.execFollowUpSend p s
  | .recover p => Sys2Proof.Machine.execRecover p s
  | .busRecovered p => Sys2Proof.Machine.execBusRecovered p s
  | .abortAll p => Sys2Proof.Machine.execAbortAll p s
  | .canClrCounts p => Sys2Proof.Machine.execCanClrCounts p s
  | .txreq p v => Sys2Proof.Machine.execTxreq p v s
  | .txBufferWrite p m dlc data => Sys2Proof.Machine.execTxBufferWrite p m dlc data s
  | .launchArm p l => Sys2Proof.Machine.execLaunchArm p l s
  | .launchDue p l => Sys2Proof.Machine.execLaunchDue p l s
  | .launchWindowClose p l => Sys2Proof.Machine.execLaunchWindowClose p l s
  | .netTimeLost p => Sys2Proof.Machine.execNetTimeLost p s
  | .portBlocked p => Sys2Proof.Machine.execPortBlocked p s
  | .mapRxTimeout k => Sys2Proof.Machine.execMapRxTimeout k s
  | .serviceRead p => Sys2Proof.Machine.execServiceRead p s
  | .serviceWrite p => Sys2Proof.Machine.execServiceWrite p s
  | .serviceWriteReply p => Sys2Proof.Machine.execServiceWriteReply p s
  | .dpRead addr n late => Sys2Proof.Machine.execDpRead addr n late s
  | .dpQuadRead addr n late => Sys2Proof.Machine.execDpQuadRead addr n late s
  | .dpWrite addr data => Sys2Proof.Machine.execDpWrite addr data s
  | .dpQuadWrite addr data => Sys2Proof.Machine.execDpQuadWrite addr data s
  | .dpStatus n => Sys2Proof.Machine.execDpStatus n s
  | .dpIdentity n => Sys2Proof.Machine.execDpIdentity n s
  | .unknownCommand cmd => Sys2Proof.Machine.execUnknownCommand cmd s
  | .lockExpired => Sys2Proof.Machine.execLockExpired s
  | .subpageProgramDone ok => Sys2Proof.Machine.execSubpageProgramDone ok s
  | .bandEraseDone band badBlocks => Sys2Proof.Machine.execBandEraseDone band badBlocks s
  | .flushTimeout r => Sys2Proof.Machine.execFlushTimeout r s
  | .dropSummary => Sys2Proof.Machine.execDropSummary s
  | .arcFlush => Sys2Proof.Machine.execArcFlush s
  | .clearRegion r => Sys2Proof.Machine.execClearRegion r s
  | .shuttleGo => Sys2Proof.Machine.execShuttleGo s
  | .shuttleCancel => Sys2Proof.Machine.execShuttleCancel s
  | .shuttleDone t m => Sys2Proof.Machine.execShuttleDone t m s
  | .mountComplete rebuilt => Sys2Proof.Machine.execMountComplete rebuilt s
  | .sealReceived x => Sys2Proof.Machine.execSealReceived x s
  | .sealMissed => Sys2Proof.Machine.execSealMissed s
  | .takeover => Sys2Proof.Machine.execTakeover s
  | .returnFrameReceived r => Sys2Proof.Machine.execReturnFrameReceived r s
  | .returnFrameMissed => Sys2Proof.Machine.execReturnFrameMissed s
  | .seekTimeout => Sys2Proof.Machine.execSeekTimeout s
  | .fenceInChange active => Sys2Proof.Machine.execFenceInChange active s
  | .partnerJoin j => Sys2Proof.Machine.execPartnerJoin j s
  | .accept => Sys2Proof.Machine.execAccept s
  | .reject => Sys2Proof.Machine.execReject s
  | .switch => Sys2Proof.Machine.execSwitch s
  | .resync => Sys2Proof.Machine.execResync s
  | .handover => Sys2Proof.Machine.execHandover s
  | .partnerImageReceived bytes => Sys2Proof.Machine.execPartnerImageReceived bytes s
  | .partnerSynced keep total => Sys2Proof.Machine.execPartnerSynced keep total s
  | .commitPartnerResult code => Sys2Proof.Machine.execCommitPartnerResult code s
  | .threadDone => Sys2Proof.Machine.execThreadDone s
  | .wakeGraceTimeout => Sys2Proof.Machine.execWakeGraceTimeout s
  | .supplyOutOfRange which => Sys2Proof.Machine.execSupplyOutOfRange which s
  | .v33aInRange => Sys2Proof.Machine.execV33aInRange s
  | .vaoRestored level => Sys2Proof.Machine.execVaoRestored level s
  | .xt32Restarted => Sys2Proof.Machine.execXt32Restarted s
  | .ctgLineRecovered n => Sys2Proof.Machine.execCtgLineRecovered n s
  | .partnerAnswer a => Sys2Proof.Machine.execPartnerAnswer a s
  | .pairLinkPacket pk => Sys2Proof.Machine.execPairLinkPacket pk s
  | .canErrorDetected p e => Sys2Proof.Machine.execCanErrorDetected p e s

end Sys2Proof.Machine
end

