-- ==== Sys2Proof/WellFormed.lean ====
section
/-! DEFINITION. Which commands are well formed: every index lies within the largest variant (R4, R7), every register address is
a word address, and a CAN frame has a length that a frame can have. The meanings take any operand: a command about an object that the
module does not have leaves the state as it is. -/

namespace Sys2Proof

/-- A command whose operands name objects of the hardware. -/
def WellFormed (i : Instr) : Bool :=
  match i with
  | .v33PowerUp | .rstNLow | .rstNRelease | .v33Loss | .vaoPowerOn | .flashDiscovery _ | .candidateStreamed | .checkpointRead _
  | .bootEnd _ _ | .frameBoundary _ | .loopDeadline _ | .goDormant | .goSafe | .leaveSafe | .glbCmdReset | .dormantEntry
  | .scanWake | .timedWake | .wakePin _ | .partnerWake | .xt32Stopped | .fastClocksRunning _ | .xt25Fail | .scanListComplete
  | .burstEnd | .slowCalWindow _ | .vaoLow _ | .v33aOut | .sessionOpen _ | .stagingFillDone | .sessionClose | .sessionExpired
  | .apply | .store | .applyStore | .commitCheckDone | .writebackComplete _ | .fuseProg | .fuseProgDone _ | .enableCheckDone
  | .seqFlagset _ | .seqFlagclr _ | .guardResetAll | .faultAck | .faultAckAll | .faultNext | .faultCopyTaken | .eventsMerged
  | .timeStep | .slew | .slewStop | .slewEnd | .dpStatus _ | .dpIdentity _ | .unknownCommand _ | .lockExpired
  | .subpageProgramDone _ | .dropSummary | .arcFlush | .shuttleGo | .shuttleCancel | .mountComplete _ | .sealReceived _
  | .sealMissed | .takeover | .returnFrameReceived _ | .returnFrameMissed | .seekTimeout | .fenceInChange _ | .partnerJoin _
  | .accept | .reject | .switch | .resync | .handover | .partnerImageReceived _ | .partnerSynced _ _ | .threadDone
  | .wakeGraceTimeout | .supplyOutOfRange _ | .v33aInRange | .vaoRestored _ | .xt32Restarted | .partnerAnswer _
  | .pairLinkPacket _ =>
    true
  | .stepTimeout x | .draftHold x | .resume x | .abort x | .draftReset x | .inputSample x _ | .dioRestore x | .dioClrMin x
  | .dioGroupClear x | .dioGoutset x _ | .dioGoutclr x _ | .canTxComplete x _ | .followUpSend x | .recover x | .busRecovered x
  | .abortAll x | .canClrCounts x | .txreq x _ | .netTimeLost x | .portBlocked x | .serviceRead x | .serviceWrite x
  | .serviceWriteReply x | .canErrorDetected x _ =>
    decide (x < 4)
  | .unitStartTimeout x | .unitStopTimeout x | .unitProofLost x | .unitTrip1 x | .unitTrip2 x | .unitRun x | .unitStop x
  | .unitAck x | .timedActionFire x | .actionArm x =>
    decide (x < 256)
  | .columnStepComplete x | .columnRestart x | .batchClear x | .kappaReset x | .kappaWrite x _ | .modelOpenLoop x | .inletLost x
  | .movRestore x | .movClrMin x | .movGroupClear x | .leaseExpiry x =>
    decide (x < 2)
  | .dioWake x _ | .loopModeWrite x _ | .reinit x | .loopClrCounts x | .debouncedChange x | .inputBreak x | .backfed x
  | .driverFault x | .openLoad x | .outputOverload x | .overloadRetry x | .overloadRecovered x | .dioChannelClear x | .zero x
  | .partnerOutputMismatch x | .listenInputMismatch x | .guardRelease x | .guardPathFault x | .guardReset x =>
    decide (x < 64)
  | .holdExpiry x | .fieldWatchdogExpiry x | .forwardFrameSet x | .returnFrameSet x _ | .fieldSupplySample x _ | .fieldCut x
  | .groupRestorable x | .groupRecordClose x | .statusFramesBad x | .statusRecovered x | .groupMissing x | .flushTimeout x =>
    decide (x < 6)
  | .stagingWrite a _ | .enableWrite a _ | .registerWrite a _ =>
    decide (a < 2 ^ 32) && decide (a % 4 = 0)
  | .guardSlotStart x | .channelStale x =>
    decide (x < 1024)
  | .visitEnd x _ _ | .excRetry x | .selftest x | .selftestDone x _ _ | .lcommit x | .shuttleDone x _ =>
    decide (x < 16)
  | .sweepComplete x _ | .rtdConversion x _ _ _ | .cellStale x | .calOpen x | .calShort x | .calClear x | .idResponse x _
  | .idAttemptFail x | .presencePoll x | .flowQuarter x | .incrRetry x | .reread x | .ctgLineFault x | .traceArm x | .traceStop x
  | .traceForce x | .clearRegion x | .ctgLineRecovered x =>
    decide (x < 8)
  | .snap x | .tachEdge x _ | .spinupTimeout x | .pauseTimeout x | .lowSpeedTimeout x | .outputOpen x | .outputShort x
  | .movClear x | .partnerDriveMismatch x =>
    decide (x < 32)
  | .commonFaultLine x y =>
    decide (x < 6) && decide (y < 4)
  | .canFrameReceived x fr =>
    decide (x < 4) && decide (fr.dlc < 16) && decide (fr.data.length ≤ 64) && decide (fr.id < 2 ^ 29)
  | .txBufferWrite x y dlc data =>
    decide (x < 4) && decide (y < 32) && decide (dlc < 16) && decide (data.length ≤ 64)
  | .launchArm x y | .launchDue x y | .launchWindowClose x y =>
    decide (x < 4) && decide (y < 16)
  | .mapRxTimeout x =>
    decide (x < 128)
  | .dpRead a _ _ | .dpQuadRead a _ _ | .dpWrite a _ | .dpQuadWrite a _ =>
    decide (a < 2 ^ 32)
  | .bandEraseDone x _ =>
    decide (x < 250)
  | .commitPartnerResult x =>
    decide (x < 2 ^ 16)

end Sys2Proof
end

