-- ==== Sys2Proof/Safety.lean ====
section
/-! DEFINITION. The terms in which statements about the module are made: states that differ only in the fault manager's books,
what opening a record leaves, when a host's command is taken, and the canonical form of the register tables. -/

namespace Sys2Proof.Machine

open Sys2Proof

/-- The state with the books of the fault manager blanked: the records, queues and counts, GLB_IRQ, and the requests that a HALT
or, in SCAN, a TRIP leaves (R432 to R439, R522). -/
def Dyn.silent (d : Dyn) : Dyn :=
  { d with flt := Flt.cold, dp := { d.dp with irq := 0 }, glb := { d.glb with haltCause := none }, cfg := { d.cfg with bootHalt := none },
           pwr := { d.pwr with runCond := none } }

/-- Two states that differ at most in those books. A frame reads: the new state, with the block that the command writes put back,
is alike the old one. -/
def Alike (t d : Dyn) : Prop := t.silent = d.silent

/-- Raising `code` on `src` in `d` has opened its record in `t`: where `d` has no open record of the source, `t` holds the new one
(R433, R434); every other source keeps its record, but the fault queue's own (0xD100, R438). -/
def Opened (d t : Dyn) (src code sev a b : Nat) (byAck gone : Bool) : Prop :=
  (d.flt.find src = none → t.flt.find src = some (d.newRec src code sev a b byAck gone)) ∧
  ∀ m, m ≠ src → m ≠ 0xD100 → t.flt.find m = d.flt.find m

/-- The record of `src` with one of `codes` is closed (R434), and every other record stands. -/
def Closed (d t : Dyn) (src : Nat) (codes : List Nat) : Prop :=
  (d.openCode src codes = true → t.flt.find src = none) ∧ (d.openCode src codes = false → t.flt.find src = d.flt.find src) ∧
  ∀ m, m ≠ src → t.flt.find m = d.flt.find m

/-- A command of the host through the register at `a` is taken (R37, R44, R512, R558): the port is up; on a STANDBY, only a command that a
STANDBY takes; at basic level, only an operator command. -/
def HostRuns (a : Nat) (takes : Bool) (s : State) : Prop :=
  s.d.portUp = true ∧ (s.d.standby = false ∨ takes = true) ∧ (s.c.basic = false ∨ cmdIsOp a = true)

/-- The canonical form of a table of register words: addresses rising from `lo`, no word equal to what an unlisted address reads. -/
def wordsOk (lo : Nat) (t : Tbl Word) : Bool :=
  match t with
  | [] => true
  | (a, v) :: r => decide (lo ≤ a) && decide (v ≠ resetWord a) && wordsOk (a + 1) r

/-- The register tables are canonical: as written, in force, and the marks of the present frame. -/
def Regs.ok (r : Regs) : Prop := wordsOk 0 r.w = true ∧ wordsOk 0 r.f = true ∧ twf false 0 r.fresh = true

/-- The end of a transition: the new state, its cause and no request left; the role and device time as before (R20, R22, R29). -/
def Entered (st : DevState) (cause : Nat) (d e : Dyn) : Prop :=
  e.glb.st = st ∧ e.glb.lastCause = cause ∧ e.glb.role = d.glb.role ∧ e.tim.acc = d.tim.acc ∧ e.tim.ofs = d.tim.ofs ∧ e.tim.epoch = d.tim.epoch ∧
  e.glb.runReq = none ∧ e.glb.safeReq = none ∧ e.glb.dormReq = false

/-- What a wake source with `cause` does to the power block (R25, R87, R89): it starts the fast clocks out of DORMANT, is the run condition of a
scan burst that has none, and marks an entry to DORMANT that is under way; in every other state it does nothing. -/
def Woken (cause : Nat) (d : Dyn) (p : Pwr) : Pwr :=
  match d.glb.st with
  | .dormant =>
    match d.pwr.start with
    | none => { p with start := some { toRun := true, cause := cause, at_ := d.tim.acc }, firstAt := none }
    | some x => if x.toRun then p else { p with runCond := some (p.runCond.getD cause) }
  | .scan => { p with runCond := some (p.runCond.getD cause) }
  | .run => if d.glb.dormReq then { p with entryAbort := some (p.entryAbort.getD cause) } else p
  | _ => p

/-- The commands that the host writes to a register of the module: the register's address, and whether a STANDBY takes the command (R37, R499,
R558). An index outside the variant names no register. -/
def hostReg (v : Variant) (i : Instr) : Option (Nat × Bool) :=
  let on : Bool → Nat → Bool → Option (Nat × Bool) := fun b a takes => if b then some (a, takes) else none
  match i with
  | .goDormant | .goSafe | .leaveSafe => some (0x10, false)
  | .glbCmdReset => some (0x10, true)
  | .sessionOpen _ | .sessionClose => some (0x20008, true)
  | .apply | .store | .applyStore => some (0x2000C, true)
  | .fuseProg => some (0x200A0, false)
  | .selftest b | .lcommit b => on (decide (b < v.nBanks)) (bankA b + 0x1C) false
  | .calOpen n | .calShort n | .calClear n => on (decide (n < v.nCells)) (cellA n + 0x180) false
  | .reread n => on (decide (n < v.nCells)) (0x15002C + 0x40 * n) false
  | .columnRestart n | .batchClear n | .kappaReset n => on (decide (n < v.nCols)) (colA n + 0xAC) false
  | .kappaWrite n _ => on (decide (n < v.nCols)) (colA n + 0x94) false
  | .loopModeWrite n _ => on (decide (n < v.nLoops)) (loopA n + 0xA0) false
  | .reinit n | .loopClrCounts n => on (decide (n < v.nLoops)) (loopA n + 0xF0) false
  | .snap n => on (decide (n < v.nGens)) (prfA n + 0x24) false
  | .traceArm t | .traceStop t | .traceForce t => on (decide (t < 8)) (trcA t + 0x18) true
  | .draftHold n | .resume n | .abort n | .draftReset n => on (decide (n < v.nDrafts)) (draftR n 0x10) false
  | .unitRun u | .unitStop u | .unitAck u => on (decide (u < v.nUnits)) (0x1C1008 + 0x10 * u) false
  | .seqFlagset _ => some (0x1C0014, false)
  | .seqFlagclr _ => some (0x1C0018, false)
  | .dioRestore g | .dioClrMin g | .dioGroupClear g => on (decide (g < 4)) (grpA g + 0xC) false
  | .dioChannelClear k | .zero k => on (decide (k < 64)) (0x20020C + k / 16 * 0x1000 + k % 16 * 0x10) false
  | .dioGoutset g _ => on (decide (g < 4)) (grpA g + 0x18) false
  | .dioGoutclr g _ => on (decide (g < 4)) (grpA g + 0x1C) false
  | .movClear n => on (decide (n < 32)) (0x220058 + 0x100 * n) false
  | .movRestore m | .movClrMin m | .movGroupClear m => on (decide (m < 2)) (grpA (4 + m) + 0xC) false
  | .guardReset t => on (decide (t < 64)) 0x50018 false
  | .guardResetAll => some (0x50018, false)
  | .faultAck | .faultAckAll => some (0x40030, false)
  | .faultNext => some (0x40030, true)
  | .timeStep | .slew | .slewStop => some (0x3003C, false)
  | .recover p | .abortAll p | .canClrCounts p => on (decide (p < 4)) (canA p 0x34) false
  | .txreq p _ => on (decide (p < 4)) (canA p 0x38) true
  | .txBufferWrite p m _ _ => on (decide (p < 4) && decide (m < 32)) (canA p 0x2000) true
  | .launchArm p l => on (decide (p < 4) && decide (l < 16)) (launchA p l 0) true
  | .arcFlush => some (0x500018, true)
  | .clearRegion r => on (decide (r < 8)) 0x500018 false
  | .shuttleGo | .shuttleCancel => some (0x50001C, true)
  | .accept | .reject | .switch => some (0x400024, false)
  | .resync => some (0x400024, true)
  | _ => none

/-- The stripes that wait to be rewritten, as items of the program queue (R527). -/
def rewriteItems (r : Nat) (d : Dyn) : List PQ := (d.region r).rewrite.map (fun l => { region := r, recs := l })

/-- What a full stripe puts into the program queue: its parity pages, and the band's index behind them when it is the last (R526, R530). -/
def stripeItems (r b : Nat) (x : Band) : List PQ :=
  { region := r, recs := [], kind := .parity b x.order (x.subs.length / 56) } :: (if bandSubs ≤ x.subs.length + 1 then [{ region := r, recs := [], kind := .index b x.order }] else [])

/-- What a subpage adds to the program queue: nothing but at the end of its stripe. -/
def placedItems (r b : Nat) (x : Band) (d : Dyn) : List PQ := if (x.subs.length + 1) % 56 = 0 then stripeItems r b x ++ rewriteItems r d else []

/-- An open band with one more subpage; `fails` says that its program failed (R525, R527). -/
def Band.placed (x : Band) (rs : List Rec) (fails : Bool) : Band :=
  { x with subs := x.subs ++ [{ recs := rs }], failed := if fails && !x.failed.contains (x.subs.length / 4 % 14) then x.failed ++ [x.subs.length / 4 % 14] else x.failed }

/-- A band after the program of its parity pages (R526, R527). -/
def Band.withParity (x : Band) (st : Nat) (ok : Bool) : Band :=
  { x with parity := x.parity ++ [(st, if ok then 0 else 1)], failed := if ok || x.failed.contains 14 then x.failed else x.failed ++ [14] }

/-- A band after the program of its index (R527, R530). -/
def Band.withIndex (x : Band) (ok : Bool) : Band :=
  if ok then { x with index := some x.mkIndex } else { x with failed := if x.failed.contains 0 then x.failed else x.failed ++ [0] }

/-- What the bands lack, in front of the program queue, after a mount (R526, R530). -/
def Arc.lacking (a : Arc) : List PQ := ((a.bands.filter (fun q => 2 ≤ q.2.cond)).map (fun q => q.2.lacks q.1)).flatten

/-- The archive after a mount that begins with `a` (R534, R535): it is ready, its bands stand, the tags that waited are under way, and what the
bands lack stands in front of the program queue. -/
def Mounted (a x : Arc) : Prop :=
  x.state = 2 ∧ x.waitRecs = [] ∧ x.cpValid = true ∧ x.tagQueue = a.tagQueue ∧ (∃ tl, x.queue = a.lacking ++ a.queue ++ tl) ∧
  (∀ k, tget Band.empty x.bands k = { tget Band.empty a.bands k with moved := [] }) ∧
  ∀ k, tget Tag.empty x.tags k = if (tget Tag.empty a.tags k).state = 1 then { tget Tag.empty a.tags k with state := 2 } else tget Tag.empty a.tags k

end Sys2Proof.Machine
end

