-- ==== Sys2Proof/Certificates/Slice0/Obligations.lean ====
section
/-! DEFINITION. The statements for the provers: what the commands do, the state they leave and what they leave alone. -/

open Sys2Proof Sys2Proof.Machine

/-- Step with a command in front of the queue is that command's meaning on the state with the queue's rest. -/
def Obligations.StepRunsFrontCommand : Prop :=
  ∀ (i : Instr) (rest : List Instr) (s : State), s.pending = i :: rest → step s = exec i { s with pending := rest }

/-- With an empty queue (log entry 2, the model's choice): device time advances by the present tick's increment, network time is device time
plus the offset in force, and every other block stands; outside BOOT and the slow tick the tick does not pass the next frame boundary. -/
def Obligations.IdleTick : Prop :=
  ∀ s : State, s.pending = [] →
    ∃ t, step s = .next { s with d := { s.d with tim := t } } ∧
      t.epoch = s.d.tim.epoch ∧ t.acts = s.d.tim.acts ∧
      (t.acc = (s.d.tim.acc + tickInc s.c s.d) % 2 ^ 80 ∨
        (t = s.d.tim ∧ s.d.pwr.slow = false ∧ s.d.glb.st ≠ .boot ∧ accOfMs (s.d.ms + 1) ≤ s.d.tim.acc + tickInc s.c s.d))

/-- Reset leaves the module in BOOT with the power-on of VAO and of V33 in PWR_RSTCAUSE, no configuration, every register at its reset value,
no command waiting, device time 0, no record open and every output off. The fuses are log entry 3's choice; the record of the
entry to BOOT that waits for the archive is deduced (R22). -/
def Obligations.ResetState : Prop :=
  State.reset.d.glb.st = .boot ∧ State.reset.d.pwr.rst = 3 ∧ State.reset.c.img.ok = false ∧ State.reset.pending = [] ∧
    (∀ a, State.reset.c.w a = resetWord a ∧ State.reset.c.f a = resetWord a) ∧
    State.reset.d.tim.acc = 0 ∧ State.reset.d.ms = 0 ∧ State.reset.d.flt.recs = [] ∧
    (∀ g, (State.reset.d.grp g).applied = 0) ∧ (∀ n, (State.reset.d.mch n).e = 0) ∧ State.reset.d.glb.role = .none ∧
    State.reset.c.fx = Variant.chosen ∧ State.reset.d.arc.waitRecs.length = 1

/-- The canonical form of the register tables (log entry 4) holds at reset. -/
def Obligations.RegisterTablesAtReset : Prop := State.reset.c.reg.ok

/-- From every state, whatever command is in front: a step that answers a next state keeps the canonical form of the register tables
(addresses rise, and no word equals what an unlisted address reads), keeps the fuses of the variant, and takes exactly the front command from
the queue. -/
def Obligations.RegisterTablesKept : Prop :=
  ∀ (s t : State), step s = .next t → (s.c.reg.ok → t.c.reg.ok) ∧ t.c.fx = s.c.fx ∧ t.pending = s.pending.tail

/-- Every command of the table, with every operand and in every state, answers a next state, and leaves the queue to the step. -/
def Obligations.NoCommandStops : Prop := ∀ (i : Instr) (s : State), ∃ t, exec i s = .next t ∧ t.pending = s.pending

/-- A command that the host writes to a register does nothing while the data port is down (BOOT, DORMANT, reset; R512); a STANDBY that does
not take it only reports the refusal (R558); and at basic level a bank command is a locked write: flagged, its address captured when it is the
first (R44, R12). -/
def Obligations.HostCommandsRefused : Prop :=
  ∀ (i : Instr) (a : Nat) (takes : Bool) (s : State), hostReg s.c.fx i = some (a, takes) →
    (s.d.portUp = false → exec i s = .next s) ∧
    (s.d.portUp = true → s.d.standby = true → takes = false → exec i s = .next { s with d := standbyRefuse s.c a s.d }) ∧
    (s.d.portUp = true → s.d.standby = false → s.c.basic = true → 0x100000 ≤ a → a < 0x110000 →
      exec i s = .next { s with d := { s.d with cfg := { s.d.cfg with
        errLocked := true, errAddr := if s.d.cfg.errLocked then s.d.cfg.errAddr else a } } })

/-- RST_N_LOW, SUPPLY_OUT_OF_RANGE, V33_LOSS and VAO_POWER_ON (R51, R74, R75, R77, R78, R80, R88, R91, R452): the logic side loses its records and
engines, every coupler goes dark, the slow tick takes over; what the field dice were told of their groups stands until their watchdogs run out; the
always-on domain keeps device time, the reset causes and TIM_TRIM, and the key fuses and the NAND stand. VAO's return restarts the always-on domain
too. A logic side that is already held only takes the cause up. Log entries 2 and 4 name what the model chose here. -/
def Obligations.ResetHoldsTheLogic : Prop :=
  ∀ (which : Supply) (s : State),
    let held : State → Prop := fun t => t.d.pwr.resetFrom = some s.d.glb.st ∧ t.d.pwr.slow = true ∧
      t.d.flt = Flt.cold ∧ t.d.ctl = Ctl.cold ∧ t.d.seq = Seq.cold ∧
      t.d.mst.cells = [] ∧ t.d.cnv.chans = [] ∧ t.d.can.ports = [] ∧ (∀ g, g < 6 → (t.d.grp g).line = 3) ∧
      t.d.cfg.fuse0 = s.d.cfg.fuse0 ∧ t.d.cfg.fuse1 = s.d.cfg.fuse1 ∧ t.d.arc.bands = s.d.arc.bands
    let supply : Pwr → Pwr := fun p => match which with
      | .v33a => { p with v33a := false }
      | .vio => { p with vio := false }
      | .vao => { p with vaoIn := false, vaoOk := false }
    let lost : Pwr → Pwr := fun p => { p with v33 := false, rst := p.rst ||| (if s.d.glb.st = .dormant then 32 else 4),
                                              scanStopped := p.scanStopped || decide (s.d.glb.st = .dormant) }
    (s.d.pwr.resetFrom = none →
      (∃ t, exec .rstNLow s = .next t ∧ held t ∧ t.c = s.c ∧ t.d.pwr.rst = s.d.pwr.rst ||| 8 ∧ t.d.pwr.rstLow = true ∧ t.d.tim.acc = s.d.tim.acc) ∧
      (∃ t, exec (.supplyOutOfRange which) s = .next t ∧ held t ∧ t.c = s.c ∧ t.d.pwr.rst = s.d.pwr.rst ||| 8 ∧ t.d.pwr.rstLow = s.d.pwr.rstLow ∧
        t.d.pwr.v33a = (supply s.d.pwr).v33a ∧ t.d.pwr.vio = (supply s.d.pwr).vio ∧ t.d.pwr.vaoIn = (supply s.d.pwr).vaoIn ∧
        t.d.pwr.vaoOk = (supply s.d.pwr).vaoOk ∧ t.d.tim.acc = s.d.tim.acc) ∧
      (s.d.pwr.v33 = true →
        ∃ t, exec .v33Loss s = .next t ∧ held t ∧ t.c = s.c ∧ t.d.pwr.v33 = false ∧ t.d.tim.acc = s.d.tim.acc ∧ t.d.pwr.rst = (lost s.d.pwr).rst ∧
          t.d.pwr.scanStopped = (lost s.d.pwr).scanStopped) ∧
      (∃ t, exec .vaoPowerOn s = .next t ∧ held t ∧ t.c.w 0x30030 = 0 ∧ (∀ a, a ≠ 0x30030 → t.c.w a = s.c.w a) ∧ t.d.pwr.rst = 1 ∧ t.d.tim = Tim.cold ∧
        t.d.pwr.vaoIn = true ∧ t.d.pwr.calOfs = 0 ∧ t.d.pwr.calValid = false)) ∧
    (s.d.pwr.resetFrom ≠ none →
      exec .rstNLow s = .next { s with d := { s.d with pwr := { s.d.pwr with rst := s.d.pwr.rst ||| 8, rstLow := true } } } ∧
      exec (.supplyOutOfRange which) s = .next { s with d := { s.d with pwr := { supply s.d.pwr with rst := s.d.pwr.rst ||| 8 } } } ∧
      (s.d.pwr.v33 = true → exec .v33Loss s = .next { s with d := { s.d with pwr := lost s.d.pwr } }) ∧
      (∃ t, exec .vaoPowerOn s = .next t ∧ t.d.pwr.resetFrom = s.d.pwr.resetFrom ∧ t.c.w 0x30030 = 0 ∧ t.d.pwr.rst = 1 ∧ t.d.tim = Tim.cold ∧
        t.d.pwr.vaoIn = true ∧ t.d.pwr.calOfs = 0 ∧ t.d.pwr.calValid = false)) ∧
    (s.d.pwr.v33 = false → exec .v33Loss s = .next s)

/-- RST_N_RELEASE, V33_POWER_UP and GLB_CMD_RESET (R18, R22, R30, R75, R77, R91, R112): the state is BOOT with cause 0, no configuration, registers and records
as after a reset, every field driver off, and the transition recorded; the cause that V33 or the command sets in PWR_RSTCAUSE is added. V33 alone
releases nothing while RST_N is low or another logic supply is out of range. -/
def Obligations.BootBegins : Prop :=
  ∀ (s : State),
    let booted : DevState → State → Prop := fun old t => t.d.glb.st = .boot ∧ t.d.glb.lastCause = 0 ∧ t.d.pwr.resetFrom = none ∧
      t.c.img.ok = false ∧ (∀ a, a ≠ 0x30030 → t.c.w a = resetWord a ∧ t.c.f a = resetWord a) ∧ t.d.flt = Flt.cold ∧ t.d.dp.irq = 0 ∧
      t.d.cfg.found = false ∧ t.d.cfg.accepted = none ∧
      t.d.arc.waitRecs.map (fun r => (r.typ, r.cls, r.body)) = [(1, 0, [leBytes 1 old.num, leBytes 1 0, leBytes 2 0].flatten)] ∧
      (∀ g, g < 6 → (t.d.grp g).line = 1 ∧ (g < 4 → (t.d.grp g).applied = 0)) ∧ (∀ n, n < 32 → (t.d.mch n).e = 0) ∧
      t.d.tim.acc = s.d.tim.acc ∧ t.c.w 0x30030 = s.c.w 0x30030
    let rst1 : Nat := if fld (BitVec.ofNat 32 s.d.pwr.rst) 2 1 = 1 ∨ fld (BitVec.ofNat 32 s.d.pwr.rst) 5 1 = 1 then s.d.pwr.rst else s.d.pwr.rst ||| 2
    (∀ old, s.d.pwr.resetFrom = some old →
      ∃ t, exec .rstNRelease s = .next t ∧ booted old t ∧ t.d.pwr.rst = s.d.pwr.rst ∧ t.d.pwr.v33 = true ∧ t.d.pwr.v33a = true ∧ t.d.pwr.vio = true ∧
        t.d.pwr.vaoIn = true ∧ t.d.pwr.rstLow = false) ∧
    (s.d.pwr.resetFrom = none → exec .rstNRelease s = .next s) ∧
    (s.d.pwr.v33 = false → s.d.pwr.v33a = true → s.d.pwr.vio = true → s.d.pwr.vaoIn = true → s.d.pwr.rstLow = false →
      ∃ t, exec .v33PowerUp s = .next t ∧ booted (s.d.pwr.resetFrom.getD .boot) t ∧ t.d.pwr.v33 = true ∧ t.d.pwr.scanStopped = false ∧ t.d.pwr.rst = rst1) ∧
    (s.d.pwr.v33 = false → (s.d.pwr.v33a = false ∨ s.d.pwr.vio = false ∨ s.d.pwr.vaoIn = false ∨ s.d.pwr.rstLow = true) →
      exec .v33PowerUp s = .next { s with d := { s.d with pwr := { s.d.pwr with v33 := true, scanStopped := false, rst := rst1 } } }) ∧
    (s.d.pwr.v33 = true → exec .v33PowerUp s = .next s) ∧
    (HostRuns 0x10 true s →
      ∃ t, exec .glbCmdReset s = .next t ∧ booted s.d.glb.st t ∧ t.d.pwr.rst = s.d.pwr.rst ||| 16)

/-- FLASH_DISCOVERY, CANDIDATE_STREAMED and CHECKPOINT_READ in BOOT (R98, R99, R110, R111, R123, R534): a flash without the SFDP signature and one of a
refused size leave their codes and no candidate; else the flash is used as its SFDP table says, the slots hold what earlier write-backs left in them, and
the candidates are the slots with a good header, the higher generation first and A first on equal ones; a candidate
that Sage refuses is marked with its code and the next one stands, and an accepted one is the running image; the archive starts, starts without
checkpoint, or goes offline. A step that BOOT has done already is not done again. -/
def Obligations.BootSteps : Prop :=
  ∀ (r : FlashReport) (cp : CpRead) (s : State), s.d.glb.st = .boot → s.d.pwr.resetFrom = none →
    let d0 : Dyn := { s.d with pwr := { s.d.pwr with fast := true } }
    let f := flashOf r.sfdp
    (s.d.cfg.found = true → exec (.flashDiscovery r) s = .next { s with d := d0 }) ∧
    (s.d.cfg.found = false → sfdpOk r.sfdp = false →
      exec (.flashDiscovery r) s = .next { s with d := { d0 with cfg := { s.d.cfg with found := true, firstRefusal := 0x104F } } }) ∧
    (s.d.cfg.found = false → sfdpOk r.sfdp = true → (f.cap < 2 ^ 20 ∨ 2 ^ 26 < f.cap) →
      exec (.flashDiscovery r) s = .next { s with d := { d0 with cfg := { s.d.cfg with found := true, firstRefusal := 0x1050 } } }) ∧
    (s.d.cfg.found = false → sfdpOk r.sfdp = true → 2 ^ 20 ≤ f.cap → f.cap ≤ 2 ^ 26 →
      ∃ t, exec (.flashDiscovery r) s = .next { s with d := t } ∧ t.cfg.found = true ∧ t.cfg.kept = true ∧ t.cfg.flash = f ∧
        t.cfg.slotA = readSlot s.c f.slotLen ((if s.d.cfg.kept = true then s.d.cfg.slotA.bytes else r.slotA).take f.slotLen) ∧
        t.cfg.slotB = readSlot s.c f.slotLen ((if s.d.cfg.kept = true then s.d.cfg.slotB.bytes else r.slotB).take f.slotLen) ∧
        (t.cfg.slotA.state = 1 → t.cfg.slotB.state ≠ 1 → t.cfg.cands = [0]) ∧ (t.cfg.slotB.state = 1 → t.cfg.slotA.state ≠ 1 → t.cfg.cands = [1]) ∧
        (t.cfg.slotA.state = 1 → t.cfg.slotB.state = 1 → t.cfg.cands = if t.cfg.slotA.gen < t.cfg.slotB.gen then [1, 0] else [0, 1]) ∧
        (t.cfg.slotA.state ≠ 1 → t.cfg.slotB.state ≠ 1 → t.cfg.cands = []) ∧
        t.cfg.firstRefusal = (if t.cfg.slotA.state = 3 then t.cfg.slotA.reason else if t.cfg.slotB.state = 3 then t.cfg.slotB.reason else 0x1040) ∧
        Alike { t with cfg := s.d.cfg } d0) ∧
    (∀ i rest b e, s.d.cfg.cands = i :: rest → s.d.cfg.accepted = none →
      (checkImage s.c s.d (i + 1) (imageBytes (s.d.cfg.slot i).bytes)).1 = some (b, e) →
      ∃ t, exec .candidateStreamed s = .next { s with d := t } ∧ t.cfg.cands = rest ∧ t.cfg.accepted = none ∧ t.cfg.tried = s.d.cfg.tried + 1 ∧
        t.cfg.lastReason = b.code ∧ (t.cfg.slot i).state = 3 ∧ (t.cfg.slot i).reason = b.code) ∧
    (∀ i rest, s.d.cfg.cands = i :: rest → s.d.cfg.accepted = none →
      (checkImage s.c s.d (i + 1) (imageBytes (s.d.cfg.slot i).bytes)).1 = none →
      ∃ t, exec .candidateStreamed s = .next t ∧ t.c = (checkImage s.c s.d (i + 1) (imageBytes (s.d.cfg.slot i).bytes)).2 ∧
        t.d.cfg.accepted = some i ∧ t.d.cfg.prot = some i ∧ t.d.cfg.cands = [] ∧ (t.d.cfg.slot i).state = 2 ∧ (t.d.cfg.fallback = true ↔ 0 < s.d.cfg.tried)) ∧
    (s.d.cfg.cands = [] ∨ s.d.cfg.accepted ≠ none → exec .candidateStreamed s = .next s) ∧
    (s.d.cfg.cpDone = false →
      (∃ t, exec (.checkpointRead .valid) s = .next { s with d := t } ∧ t.cfg.cpDone = true ∧ t.arc.state = 1 ∧
        t.arc.bootSeq = s.d.arc.mark) ∧
      (∃ t, exec (.checkpointRead .missing) s = .next { s with d := t } ∧ t.cfg.cpDone = true ∧ t.arc.state = 1 ∧ t.arc.cpValid = false ∧
        (s.d.tim.restart = true → t.tim.epoch = 0)) ∧
      (∃ t, exec (.checkpointRead .noAnswer) s = .next { s with d := t } ∧ t.cfg.cpDone = true ∧ t.arc.state = 3 ∧ t.arc.waitRecs = [] ∧
        Opened s.d t 0xF000 0xF067 2 0 0 false false)) ∧
    (s.d.cfg.cpDone = true → exec (.checkpointRead cp) s = .next s)

/-- BOOT_END (R18, R110, R111, R552): without an accepted image SAFE with the first refusal's code; with one, SAFE where a HALT was raised in BOOT, seeking in a
pair, and else the start state that the image names; device time is at a frame boundary. While a step of BOOT is outstanding it goes on. -/
def Obligations.BootEnds : Prop :=
  ∀ (seat present : Bool) (s : State), s.d.glb.st = .boot → s.d.pwr.resetFrom = none →
    (s.d.cfg.found = false ∨ s.d.cfg.cpDone = false ∨ (s.d.cfg.accepted = none ∧ s.d.cfg.cands ≠ []) → exec (.bootEnd seat present) s = .next s) ∧
    (s.d.cfg.found = true → s.d.cfg.cpDone = true → s.d.cfg.accepted = none → s.d.cfg.cands = [] →
      ∃ t, exec (.bootEnd seat present) s = .next t ∧ t.c = s.c ∧ t.d.glb.st = .safe ∧ t.d.glb.lastCause = s.d.cfg.firstRefusal ∧
        t.d.tim.acc = (s.d.nextFrame s.c).tim.acc) ∧
    (∀ i, s.d.cfg.found = true → s.d.cfg.cpDone = true → s.d.cfg.accepted = some i →
      ∃ t, exec (.bootEnd seat present) s = .next t ∧ t.d.tim.acc = (s.d.nextFrame s.c).tim.acc ∧
        (∀ h, s.d.cfg.bootHalt = some h → t.d.glb.st = .safe ∧ t.d.glb.lastCause = h) ∧
        (s.d.cfg.bootHalt = none → s.c.pairOn = true →
          t.d.glb.st = .run ∧ t.d.glb.role = .standby ∧ t.d.pair.state = 1 ∧ (present = false → t.d.pair.claim = true)) ∧
        (s.d.cfg.bootHalt = none → s.c.pairOn = false → s.c.img.dormant = true → t.d.glb.st = .dormant ∧ t.d.glb.lastCause = 0) ∧
        (s.d.cfg.bootHalt = none → s.c.pairOn = false → s.c.img.dormant = false → t.d.glb.st = .run ∧ t.d.glb.lastCause = 0))

/-- GO_SAFE, LEAVE_SAFE and GO_DORMANT (R24, R25, R30, R96, R559): the request stands until the boundary that takes it, and a request that is not valid in the
present state only sets RESULT. -/
def Obligations.StateCommands : Prop :=
  ∀ (s : State), HostRuns 0x10 false s →
    (s.d.glb.st = .run → exec .goSafe s = .next { s with d := { s.d with glb := { s.d.glb with cmdResult := 0, safeReq := some 0 } } }) ∧
    (s.d.glb.st ≠ .run → exec .goSafe s = .next { s with d := { s.d with glb := { s.d.glb with cmdResult := 0x4A } } }) ∧
    (s.d.glb.st = .safe → s.c.img.ok = true → s.d.haltOpen = false →
      exec .leaveSafe s = .next { s with d := { s.d with glb := { s.d.glb with cmdResult := 0, runReq := some 0, runCommit := false } } }) ∧
    (s.d.glb.st = .safe → s.c.img.ok = true → s.d.haltOpen = true →
      exec .leaveSafe s = .next { s with d := { s.d with glb := { s.d.glb with cmdResult := 0x49 } } }) ∧
    (s.d.glb.st ≠ .safe ∨ s.c.img.ok = false →
      exec .leaveSafe s = .next { s with d := { s.d with glb := { s.d.glb with cmdResult := 0x4A } } }) ∧
    (s.d.glb.st ≠ .run → exec .goDormant s = .next { s with d := { s.d with glb := { s.d.glb with cmdResult := 0x4A } } }) ∧
    (∀ code, s.d.glb.st = .run →
      (s.d.openCode 0 [0x62] = true → code = 0x67) →
      (s.d.openCode 0 [0x62] = false → s.d.pwr.xt32 = false ∨ s.d.openCode 0 [0x61] = true → code = 0x68) →
      (s.d.openCode 0 [0x62] = false → s.d.pwr.xt32 = true → s.d.openCode 0 [0x61] = false →
        (unitsActive s.c s.d = true → code = 0x48) ∧
        (unitsActive s.c s.d = false → s.d.pair.state = 3 → code = 0x3044) ∧
        (unitsActive s.c s.d = false → s.d.pair.state = 4 → code = s.d.pair.partnerDorm) ∧
        (unitsActive s.c s.d = false → s.d.pair.state ≠ 3 → s.d.pair.state ≠ 4 → code = 0)) →
      (code = 0 →
        exec .goDormant s = .next { s with d := { s.d with glb := { s.d.glb with cmdResult := 0, dormReq := true, dormSched := false },
                                                           pwr := { s.d.pwr with entryAbort := none } } }) ∧
      (code ≠ 0 → exec .goDormant s = .next { s with d := { s.d with glb := { s.d.glb with cmdResult := code } } }))

/-- DORMANT_ENTRY, SCAN_WAKE, TIMED_WAKE and FAST_CLOCKS_RUNNING (R20, R21, R25, R26, R82, R83, R85, R86, R87, R89, R95), each for every state. A requested entry
that no HALT, no GO_SAFE and no wake source turns away is DORMANT with cause 0, the slow tick, the schedule and a hold command to every enabled group; one turned
away leaves RUN with a ledger record (its form, from RUN to RUN with the cause, is the model's choice, log entry 40) and the request gone. A scan or a timed
wake begins 4 ms before its boundary; a scan due in the tick in which a wake source has started the clocks takes over and keeps the source as the run
condition. The fast clocks lead to RUN with the wake's cause, or to SCAN with the burst counted, and a start above 3.3 ms or 10 ms raises its record. -/
def Obligations.SleepAndWake : Prop :=
  ∀ (us : Nat) (s : State),
    let level : Option Nat := if s.d.pwr.wakeLow ∧ s.c.pinWake then some 0x81 else if s.d.pwr.xt32 = false then some 0x84 else none
    let off : Nat → State := fun cause => { s with d := { s.d with
      arc := (s.d.ledger 1 0 (leBytes 1 4 ++ leBytes 1 4 ++ leBytes 2 cause)).arc
      glb := { s.d.glb with dormReq := false }
      pwr := { s.d.pwr with entryAbort := none } } }
    (s.d.glb.st = .run → s.d.glb.dormReq = true →
      (s.d.glb.haltCause ≠ none ∨ s.d.glb.safeReq ≠ none → exec .dormantEntry s = .next (off 0)) ∧
      (s.d.glb.haltCause = none → s.d.glb.safeReq = none →
        (∀ cause, (s.d.pwr.entryAbort = some cause ∨ (s.d.pwr.entryAbort = none ∧ level = some cause)) → exec .dormantEntry s = .next (off cause)) ∧
        (s.d.pwr.entryAbort = none → level = none →
          ∃ t, exec .dormantEntry s = .next { s with d := t } ∧ Entered .dormant 0 s.d t ∧ t.pwr.slow = true ∧ t.pwr.start = none ∧ t.pwr.burst = .none ∧
            t.pwr.entryAbort = none ∧ t.pwr.interval = s.c.scanInterval ∧ t.pwr.nextScan.isSome = true ∧
            ∀ g, g < 6 → s.c.grpEn g = true → (t.grp g).holding = true))) ∧
    (s.d.glb.st ≠ .run ∨ s.d.glb.dormReq = false → exec .dormantEntry s = .next s) ∧
    (let due : Nat → Prop := fun t => s.d.glb.st = .dormant ∧ s.d.pwr.scanStopped = false ∧ s.d.pwr.nextScan = some t ∧ ∀ w, s.d.pwr.nextWake = some w → t * 1000 ≤ wakeMs w
     let joins : Nat → Starting → Prop := fun t x => x.toRun = true ∧ x.at_ = s.d.tim.acc ∧ wakeStart s.c s.d (t * 1000) = x.at_ ∧ x.at_ < accOfMs (t * 1000 - 4) + tickInc s.c s.d
     ((∀ t, ¬ due t) → exec .scanWake s = .next s) ∧
     ∀ t, due t →
      (s.d.pwr.start = none → ∃ x, x = s.d.goTo s.c (accOfMs (t * 1000 - 4)) ∧
        exec .scanWake s = .next { s with d := { x with pwr := { s.d.pwr with start := some { toRun := false, cause := 0x80, at_ := x.tim.acc }, firstAt := some (t * 1000) } } }) ∧
      (∀ x, s.d.pwr.start = some x → joins t x →
        exec .scanWake s = .next { s with d := { s.d with pwr := { s.d.pwr with
          start := some { toRun := false, cause := 0x80, at_ := s.d.tim.acc }, firstAt := some (t * 1000), runCond := some (s.d.pwr.runCond.getD x.cause) } } }) ∧
      (∀ x, s.d.pwr.start = some x → ¬ joins t x → exec .scanWake s = .next s)) ∧
    (let due : Nat → Prop := fun w => s.d.glb.st = .dormant ∧ s.d.pwr.start = none ∧ s.d.pwr.nextWake = some w ∧
       ∀ t, s.d.pwr.nextScan = some t → s.d.pwr.scanStopped = false → wakeMs w < t * 1000
     ((∀ w, ¬ due w) → exec .timedWake s = .next s) ∧
     ∀ w, due w → ∃ x, x = s.d.goTo s.c (accOfMs (wakeMs w - 4)) ∧
        exec .timedWake s = .next { s with d := { x with pwr := { s.d.pwr with start := some { toRun := true, cause := 0x82, at_ := x.tim.acc }, firstAt := some (wakeMs w) } } }) ∧
    (s.d.glb.st ≠ .dormant ∨ s.d.pwr.start = none → exec (.fastClocksRunning us) s = .next s) ∧
    (∀ st, s.d.glb.st = .dormant → s.d.pwr.start = some st → st.toRun = true →
      ∃ t, exec (.fastClocksRunning us) s = .next t ∧ Entered .run st.cause (s.d.goTo s.c (st.at_ + us * 2 ^ 48 / 1000000)) t.d ∧
        t.d.pwr.slow = false ∧ t.d.pwr.start = none ∧ t.d.pwr.woke = true) ∧
    (∀ st, s.d.glb.st = .dormant → s.d.pwr.start = some st → st.toRun = false →
      ∃ t, exec (.fastClocksRunning us) s = .next { s with d := t } ∧ t.glb.st = .scan ∧ t.glb.lastCause = st.cause ∧
        t.tim.acc = (s.d.goTo s.c (st.at_ + us * 2 ^ 48 / 1000000)).tim.acc ∧ t.pwr.slow = false ∧ t.pwr.start = none ∧ t.pwr.burst = .scanning ∧
        t.pwr.burstRef = st.at_ ∧ t.pwr.scanCount = (s.d.pwr.scanCount + 1) % 2 ^ 32 ∧
        (s.d.fld.late = [] → s.d.flt.find 0 = none →
          (3300 < us → us ≤ 10000 → ∃ r, t.flt.find 0 = some r ∧ r.code = 0x65 ∧ r.sev = 1) ∧
          (10000 < us → s.d.pwr.xt25 = true → s.d.pwr.resetFrom = none → ∃ r, t.flt.find 0 = some r ∧ r.code = 0x60 ∧ r.sev = 4)))

/-- WAKE_PIN, DIO_WAKE and PARTNER_WAKE (R25, R87, R89, R382, R559): each acts with its cause code where its enable is set (the partner's in a variant with a pair
port), and else leaves the power block but the level of WAKE_N; a DIO change that matches its channel's selection is held in DORMANT for the snapshot. -/
def Obligations.WakeSources : Prop :=
  ∀ (low level : Bool) (k : Nat) (s : State),
    (∃ p, exec (.wakePin low) s = .next { s with d := { s.d with pwr := p } } ∧
      p = (if low = true ∧ s.c.pinWake = true then Woken 0x81 s.d { s.d.pwr with wakeLow := low } else { s.d.pwr with wakeLow := low })) ∧
    (∃ p, exec .partnerWake s = .next { s with d := { s.d with pwr := p } } ∧
      p = if s.c.fx.pair = true ∧ s.c.partnerWakeEn = true then Woken 0x83 s.d s.d.pwr else s.d.pwr) ∧
    (let hit : Prop := k < 64 ∧ s.c.grpEn (k / 16) = true ∧ s.c.isIn k = true ∧ (s.c.dioWake k = 3 ∨ (s.c.dioWake k = 1 ∧ level = true) ∨ (s.c.dioWake k = 2 ∧ level = false))
     (hit → ∃ t p, exec (.dioWake k level) s = .next { s with d := { t with pwr := p } } ∧
        p = (if s.c.dioWakeEn = true then Woken (0x100 + k) s.d s.d.pwr else s.d.pwr) ∧ Alike { t with fld := s.d.fld } s.d ∧
        (s.d.glb.st ≠ .dormant → t = s.d) ∧
        (s.d.glb.st = .dormant → ∀ j, t.dch j = if j = k then { s.d.dch k with level := level, hasState := true, own := level, hasOwn := true } else s.d.dch j)) ∧
     (¬hit → exec (.dioWake k level) s = .next s))

/-- XT32_STOPPED, XT32_RESTARTED, XT25_FAIL, SLOW_CAL_WINDOW, VAO_LOW and VAO_RESTORED (R81, R90, R94, R96): each shows its level, opens its record with the
severity of the table (in DORMANT it waits for the wake) and closes it on its clearing condition; the offset of a window is in parts per billion, truncated toward minus
infinity and limited to its field (the limit is the model's choice, log entry 78), and the calibration is applied out of its range too. -/
def Obligations.ClocksAndSupplies : Prop :=
  ∀ (cycles lv : Nat) (s : State),
    (s.d.pwr.xt32 = true → s.d.glb.st ≠ .dormant → s.d.pwr.resetFrom = none →
      ∃ t, exec .xt32Stopped s = .next { s with d := t } ∧ t.pwr.xt32 = false ∧ Opened s.d t 0 0x61 2 0 0 true false ∧ t.glb.st = s.d.glb.st) ∧
    (s.d.pwr.xt32 = true → s.d.glb.st = .dormant → s.d.pwr.resetFrom = none →
      ∃ p, exec .xt32Stopped s = .next { s with d := { s.d with fld := { s.d.fld with late := s.d.fld.late ++ [(0, 0x61, 2)] }, pwr := p } } ∧
        p = Woken 0x84 s.d { s.d.pwr with xt32 := false }) ∧
    (s.d.pwr.xt32 = false → exec .xt32Stopped s = .next s) ∧
    (s.d.pwr.xt32 = true → exec .xt32Restarted s = .next s) ∧
    (s.d.pwr.xt32 = false →
      ∃ t, exec .xt32Restarted s = .next { s with d := t } ∧ t.pwr.xt32 = true ∧
        (∀ r, s.d.flt.find 0 = some r → r.code = 0x61 → r.acked = true → t.flt.find 0 = none) ∧
        (∀ r, s.d.flt.find 0 = some r → r.code = 0x61 → r.acked = false → t.flt.find 0 = some { r with gone := true }) ∧
        (∀ m, m ≠ 0 → t.flt.find m = s.d.flt.find m) ∧ Alike { t with pwr := s.d.pwr } s.d) ∧
    (s.d.pwr.xt25 = true → s.d.clocked = true →
      ∃ t, exec .xt25Fail s = .next { s with d := t } ∧ t.pwr.xt25 = false ∧ t.pwr.rc = true ∧ Opened s.d t 0 0x60 4 0 0 false false) ∧
    (s.d.pwr.xt25 = false ∨ s.d.clocked = false → exec .xt25Fail s = .next s) ∧
    (s.d.glb.st = .dormant ∨ s.d.pwr.resetFrom ≠ none ∨ cycles = 0 → exec (.slowCalWindow cycles) s = .next s) ∧
    (s.d.glb.st ≠ .dormant → s.d.pwr.resetFrom = none → cycles ≠ 0 →
      ∃ t, exec (.slowCalWindow cycles) s = .next { s with d := t } ∧ t.pwr.calValid = true ∧ t.pwr.xt32 = true ∧
        t.pwr.calOfs = clampI ((781250 - (cycles : Int)) * 10 ^ 9 / cycles) (-8388608) 8388607 ∧
        (t.pwr.calOut = true ↔ 500000 < t.pwr.calOfs.natAbs) ∧
        (t.pwr.calOut = true → Opened s.d t 0 0x66 1 0 0 false false) ∧
        (t.pwr.calOut = false → Closed s.d t 0 [0x66]) ∧ Alike { t with pwr := s.d.pwr } s.d) ∧
    (∃ t, exec (.vaoLow lv) s = .next { s with d := t } ∧ t.pwr.vaoOk = false ∧ t.pwr.vaoLevel = lv % 256 ∧
      (s.d.glb.st ≠ .dormant → s.d.pwr.resetFrom = none → Opened s.d t 0 0x62 1 0 0 false false) ∧
      (s.d.glb.st = .dormant → s.d.pwr.resetFrom = none → t.fld.late = s.d.fld.late ++ [(0, 0x62, 1)]) ∧ Alike { t with pwr := s.d.pwr, fld := s.d.fld } s.d) ∧
    (∃ t, exec (.vaoRestored lv) s = .next { s with d := t } ∧ t.pwr.vaoOk = true ∧ t.pwr.vaoLevel = lv % 256 ∧ Closed s.d t 0 [0x62] ∧
      Alike { t with pwr := s.d.pwr } s.d)

/-- V33A_OUT and V33A_IN_RANGE (R96, R148, R182, R188): the record of severity TRIP opens and every enabled channel and cell is invalid, in DORMANT at the wake; its return
closes the record, and the channels show results again only after their next verdict. -/
def Obligations.AnalogSupply : Prop :=
  ∀ (s : State),
    let waits : Bool := s.d.fld.late.contains (0, 0x63, 3)
    let fld' : Fld := { s.d.fld with late := s.d.fld.late.filter (fun r => r.2.1 != 0x63) }
    (s.d.openCode 0 [0x63] = false → s.d.pwr.resetFrom = none → waits = false → s.d.glb.st ≠ .dormant →
      ∃ t, exec .v33aOut s = .next { s with d := t } ∧
        (s.d.flt.find 0 = none → ∃ r, t.flt.find 0 = some r ∧ r.code = 0x63 ∧ r.sev = 3) ∧
        (∀ k, k < 1024 → s.c.chanEn k = true → (t.chan k).state = 3 ∧ (t.chan k).cause = causeBANK ∧ (t.chan k).filt = false ∧
          (t.chan k).value = (s.d.chan k).value) ∧
        (∀ k, ¬(k < 1024 ∧ s.c.chanEn k = true) → t.chan k = s.d.chan k) ∧
        (∀ n, n < s.c.fx.nCells → s.c.cellEn n = true → (t.cell n).state = 3 ∧ (t.cell n).cause = 12) ∧
        t.fld = s.d.fld ∧ t.cols = s.d.cols ∧ t.seq = s.d.seq) ∧
    (s.d.openCode 0 [0x63] = false → s.d.pwr.resetFrom = none → waits = false → s.d.glb.st = .dormant →
      exec .v33aOut s = .next { s with d := { s.d with fld := { s.d.fld with late := s.d.fld.late ++ [(0, 0x63, 3)] } } }) ∧
    (s.d.openCode 0 [0x63] = true ∨ s.d.pwr.resetFrom ≠ none ∨ waits = true → exec .v33aOut s = .next s) ∧
    (s.d.openCode 0 [0x63] = false → exec .v33aInRange s = .next { s with d := { s.d with fld := fld' } }) ∧
    (s.d.openCode 0 [0x63] = true →
      ∃ t, exec .v33aInRange s = .next { s with d := t } ∧ Closed s.d t 0 [0x63] ∧ t.fld = fld' ∧ Alike { t with afe := s.d.afe, fld := s.d.fld } s.d ∧
        (∀ k, t.desc k = if k / 64 < s.c.fx.nBanks ∧ s.c.bankEn (k / 64) = true ∧ s.c.descEn k = true ∧ s.c.descExc k ≠ 0
          then { s.d.desc k with pending := true } else s.d.desc k))

/-- SCAN_LIST_COMPLETE and BURST_END (R20, R21, R25, R86, R89, R95, R96), each for every state: a HALT of the burst leads to SAFE with its code, a run condition or a wake level that
stands leads to RUN, and a burst without either ends in DORMANT once the archive is drained (it flushes what waits and stays in SCAN until then); however it ends, LAST shows
its length in units of 10 us (its saturation is log entry 78's choice), and a length beyond 2,000 ms counts and raises SCAN_OVERRUN. -/
def Obligations.ScanBurst : Prop :=
  ∀ (s : State),
    let level : Option Nat := if s.d.pwr.wakeLow ∧ s.c.pinWake then some 0x81 else if s.d.pwr.xt32 = false then some 0x84 else none
    let run : Option Nat := if s.d.pwr.runCond = none then level else s.d.pwr.runCond
    let len := min ((s.d.tim.acc - s.d.pwr.burstRef) * 100000 / 2 ^ 48) 1048575
    let done : Dyn → Prop := fun t => t.pwr.burst = .none ∧ t.pwr.burstLast = len ∧ t.pwr.overruns = if 200000 < len then satInc 8 s.d.pwr.overruns else s.d.pwr.overruns
    (s.d.glb.st ≠ .scan ∨ s.d.pwr.burst ≠ .scanning → exec .scanListComplete s = .next s) ∧
    (s.d.glb.st = .scan → s.d.pwr.burst = .scanning →
      ∃ t, exec .scanListComplete s = .next t ∧ t.d.tim.acc = s.d.tim.acc ∧
        ((t.d.glb.st = .scan ∧ t.d.pwr.burst = .listDone ∧ t.c = s.c) ∨ t.d.glb.st = .safe ∨ t.d.glb.st = .run) ∧
        (level ≠ none → t.d.glb.st ≠ .scan) ∧
        (∀ r, s.d.pwr.runCond = some r → (t.d.glb.st = .run ∧ t.d.glb.lastCause = r) ∨ t.d.glb.st = .safe) ∧
        (∀ h, s.d.glb.haltCause = some h → t.d.glb.st = .safe ∧ t.d.glb.lastCause = h)) ∧
    (s.d.glb.st ≠ .scan ∨ s.d.pwr.burst ≠ .holdsSent → exec .burstEnd s = .next s) ∧
    (s.d.glb.st = .scan → s.d.pwr.burst = .holdsSent →
      (∀ h, s.d.glb.haltCause = some h → ∃ t, exec .burstEnd s = .next { s with d := t } ∧ Entered .safe h s.d t ∧ done t) ∧
      (∀ r, s.d.glb.haltCause = none → run = some r → ∃ t, exec .burstEnd s = .next t ∧ Entered .run r s.d t.d ∧ done t.d) ∧
      (s.d.glb.haltCause = none → run = none → arcDrained s.d.arc = true →
        ∃ t, exec .burstEnd s = .next { s with d := t } ∧ Entered .dormant 0 s.d t ∧ done t ∧ t.pwr.slow = true ∧
          (200000 < len → s.d.flt.find 0 = none → ∃ r, t.flt.find 0 = some r ∧ r.code = 0x64 ∧ r.sev = 1)) ∧
      (s.d.glb.haltCause = none → run = none → arcDrained s.d.arc = false → exec .burstEnd s = .next { s with d := { s.d with arc := arcFlushAll s.d.arc } }))

/-- CFG_SESSION.OPEN, STAGING_FILL_DONE, CFG_SESSION.CLOSE, SESSION_EXPIRED and STAGING_WRITE (R44, R117, R118, R515): a session opens in SAFE, and in RUN at expert
level, one at a time; the staging area is the running image or zeros; a write reaches it only while a session is open, byte by byte in little-endian
order; CLOSE and 5 s without access end the session and discard the area. The order of the refusals of OPEN is the model's choice (log entry 60). -/
def Obligations.WriteSessions : Prop :=
  ∀ (copy : Bool) (a : Nat) (v : Word) (s : State),
    (HostRuns 0x20008 true s → s.d.cfg.session = .none → (s.d.glb.st = .safe ∨ (s.d.glb.st = .run ∧ s.c.basic = false)) →
      ∃ t, exec (.sessionOpen copy) s = .next t ∧ t.d = { s.d with cfg := { s.d.cfg with session := .filling copy, staging := [], sesResult := 0, lastAccess := s.d.ms } }) ∧
    (HostRuns 0x20008 true s →
      ∃ t n, exec (.sessionOpen copy) s = .next t ∧ n = openCode s.c s.d ∧ (n ≠ 0 → t.d = { s.d with cfg := { s.d.cfg with sesResult := n, lastAccess := s.d.ms } }) ∧
        (s.d.cfg.session ≠ .none → n = 0x1049) ∧ (s.d.cfg.session = .none → s.d.glb.st = .run → s.c.basic = true → n = 0x1005)) ∧
    (s.d.cfg.session = .filling copy →
      exec .stagingFillDone s = .next { s with d := { s.d with cfg := { s.d.cfg with session := .opened, staging := if copy then bytesTbl s.c.img.bytes else [] } } }) ∧
    ((∀ c, s.d.cfg.session ≠ .filling c) → exec .stagingFillDone s = .next s) ∧
    (HostRuns 0x20008 true s → s.d.cfg.session = .none →
      exec .sessionClose s = .next { s with d := { s.d with cfg := { s.d.cfg with sesResult := 0x1055, lastAccess := s.d.ms } } }) ∧
    (HostRuns 0x20008 true s → s.d.cfg.session ≠ .none →
      exec .sessionClose s = .next { s with d := { s.d with cfg := { s.d.cfg with session := .none, staging := [], sesResult := 0, lastAccess := s.d.ms } } }) ∧
    (s.d.cfg.session ≠ .none → s.d.cfg.lastAccess + 5000 ≤ s.d.ms →
      exec .sessionExpired s = .next { s with d := { s.d with cfg := { s.d.cfg with session := .none, staging := [], sesResult := 0x1048 } } }) ∧
    (s.d.cfg.session = .none ∨ s.d.ms < s.d.cfg.lastAccess + 5000 → exec .sessionExpired s = .next s) ∧
    (0x10000000 ≤ a → a < 0x10200000 → a % 4 = 0 → s.d.portUp = true →
      ∃ t, exec (.stagingWrite a v) s = .next { s with d := t } ∧ Alike { t with cfg := s.d.cfg, dp := s.d.dp } s.d ∧
        (s.d.sessionOn = false → t.cfg = { s.d.cfg with errNoSession := true }) ∧
        (s.d.sessionOn = true → t.cfg.lastAccess = s.d.ms ∧ t.cfg.session = s.d.cfg.session ∧
          ∀ o, tget 0 t.cfg.staging o = if a - 0x10000000 ≤ o ∧ o < a - 0x10000000 + 4 then BitVec.ofNat 8 (v.toNat / 256 ^ (o - (a - 0x10000000))) else tget 0 s.d.cfg.staging o))

/-- CFG_CMD.APPLY, STORE and APPLY_STORE, COMMIT_CHECK_DONE and WRITEBACK_COMPLETE (R113, R118 to R122, R560): the refusals of R119 stand in RESULT; the completion of a
check ends the session and clears the staging area whatever its result; a refused image leaves the configuration; STORE alone leaves it too; a completed write-back
makes its slot valid with the generation and the bytes, and protects it where APPLY was part of the commit. WRITEBACK_COMPLETE is the end of one operation of the flash: the steps of a write-back are the operation `wbStep`, written from
R122 (log entry 80); it ends well where the magic reads back as written and fails after the erase that follows a read-back that differed. -/
def Obligations.Commits : Prop :=
  ∀ (s : State),
    let req : Nat → Instr → Prop := fun mode i => HostRuns 0x2000C true s →
      (s.d.sessionOn = false → exec i s = .next { s with d := { s.d with cfg := { s.d.cfg with cmdResult := 0x1055, lastAccess := s.d.ms } } }) ∧
      (s.d.sessionOn = true → s.d.standby = true → exec i s = .next { s with d := { s.d with cfg := { s.d.cfg with cmdResult := 0x104D, lastAccess := s.d.ms } } }) ∧
      (s.d.sessionOn = true → s.d.standby = false → s.d.cfg.commit.isSome = true →
        exec i s = .next { s with d := { s.d with cfg := { s.d.cfg with cmdResult := 0x100C, lastAccess := s.d.ms } } }) ∧
      (s.d.sessionOn = true → s.d.standby = false → s.d.cfg.commit = none → 2 ≤ mode → s.d.cfg.wb.isSome = true →
        exec i s = .next { s with d := { s.d with cfg := { s.d.cfg with cmdResult := 0x104B, lastAccess := s.d.ms } } }) ∧
      (s.d.sessionOn = true → s.d.standby = false → s.d.cfg.commit = none → (mode = 1 ∨ s.d.cfg.wb = none) →
        ∃ k : Commit, k.mode = mode ∧ k.toPartner = false ∧ exec i s = .next { s with d := { s.d with cfg := { s.d.cfg with commit := some k, lastAccess := s.d.ms } } })
    req 1 .apply ∧ req 2 .store ∧ req 3 .applyStore ∧
    (s.d.cfg.commit = none → exec .commitCheckDone s = .next s) ∧
    (∀ k, s.d.cfg.commit = some k → k.toPartner = true → exec .commitCheckDone s = .next s) ∧
    (∀ k b e, s.d.cfg.commit = some k → k.toPartner = false → (commitCheck s.c s.d k).1 = some (b, e) →
      ∃ t, exec .commitCheckDone s = .next { s with d := t } ∧ t.cfg.commit = none ∧ t.cfg.session = .none ∧ t.cfg.staging = [] ∧
        t.cfg.cmdResult = b.code ∧ t.cfg.lastReason = b.code ∧ t.glb = s.d.glb ∧ t.tim.acc = s.d.tim.acc) ∧
    (∀ k, s.d.cfg.commit = some k → k.toPartner = false → (commitCheck s.c s.d k).1 = none → s.d.glb.role = .active → s.d.pair.state = 4 →
      exec .commitCheckDone s = .next { s with d := { s.d with cfg := { s.d.cfg with commit := some { k with toPartner := true } } } }) ∧
    (∀ k, s.d.cfg.commit = some k → k.toPartner = false → (commitCheck s.c s.d k).1 = none → s.d.pair.state ≠ 4 → k.mode = 2 →
      ∃ t, exec .commitCheckDone s = .next { s with d := t } ∧ t.cfg.commit = none ∧ t.cfg.session = .none ∧ t.cfg.staging = [] ∧ t.cfg.cmdResult = 0 ∧
        t.cfg.wbState = 1 ∧ t.cfg.wbSlot = s.d.cfg.target ∧ t.cfg.prot = s.d.cfg.prot ∧ ∃ w, t.cfg.wb = some w ∧ w.bytes = k.bytes ∧ w.apply = false) ∧
    (∀ k, s.d.cfg.commit = some k → k.toPartner = false → (commitCheck s.c s.d k).1 = none → s.d.pair.state ≠ 4 → k.mode ≠ 2 → s.c.img.ok = true →
      ∃ t, exec .commitCheckDone s = .next t ∧ t.c.img = (commitCheck s.c s.d k).2.img ∧ t.c.reg.w = (commitCheck s.c s.d k).2.reg.w ∧
        t.d.cfg.commit = none ∧ t.d.cfg.session = .none ∧ t.d.cfg.cmdResult = 0 ∧ t.d.cfg.digest = imageDigest t.c.img.bytes ∧ (k.mode = 3 → t.d.cfg.wbState = 1)) ∧
    (∀ k, s.d.cfg.commit = some k → k.toPartner = false → (commitCheck s.c s.d k).1 = none → s.d.pair.state ≠ 4 → k.mode = 1 → s.c.img.ok = false →
      ∃ t, exec .commitCheckDone s = .next t ∧ t.c.img = (commitCheck s.c s.d k).2.img ∧ t.d.glb.st = s.d.glb.st ∧
        (s.d.glb.st = .safe → t.d.glb.runReq = some 0 ∧ t.d.glb.runCommit = true) ∧ (s.d.glb.st ≠ .safe → t.d.glb.runReq = s.d.glb.runReq)) ∧
    (∀ e, s.d.cfg.wb = none → exec (.writebackComplete e) s = .next s) ∧
    (∀ e w, s.d.cfg.wb = some w → let r := wbStep s.d.cfg.flash e (s.d.cfg.slot w.slot).bytes w
      ∃ t, exec (.writebackComplete e) s = .next { s with d := t } ∧
        (r.2.2 = some true ↔ w.stage = .magicCheck ∧ e = .read (w.bytes.take 4)) ∧ (r.2.2 = some false ↔ w.stage = .wipe ∧ e = .erased) ∧
        (r.2.2 = none → t.cfg.wb = some r.2.1 ∧ t.cfg.wbState = r.2.1.num ∧ t.cfg.wbProgress = r.2.1.done ∧
          t.cfg.slot w.slot = { s.d.cfg.slot w.slot with bytes := r.1 } ∧ t.cfg.prot = s.d.cfg.prot ∧ { t with cfg := s.d.cfg } = s.d) ∧
        (r.2.2 = some true → t.cfg.wb = none ∧ t.cfg.wbState = 4 ∧ t.cfg.wbProgress = w.bytes.length / 4096 ∧
          t.cfg.slot w.slot = { state := 1, reason := 0, gen := w.gen, bytes := r.1 } ∧ t.cfg.prot = (if w.apply = true then some w.slot else s.d.cfg.prot) ∧
          t.dp.irq = s.d.dp.irq ||| 8) ∧
        (r.2.2 = some false → t.cfg.wb = none ∧ t.cfg.wbState = 5 ∧ t.cfg.prot = s.d.cfg.prot ∧ t.cfg.slot w.slot = { s.d.cfg.slot w.slot with bytes := r.1 } ∧
          Opened s.d t 0x1000 0x1052 1 0 0 true true))

/-- CFG_FUSECMD.PROG, FUSE_PROG_DONE, REGISTER_WRITE, ENABLE_WRITE and ENABLE_CHECK_DONE (R37, R91, R109, R114, R115, R518): the first unused bank is programmed and becomes valid only on an
equal read-back; a register write changes no command queued, and a flag of PWR_RSTCAUSE or GLB_IRQ clears where a 1 is written; the checks of the enables end in their order,
and a refused one leaves the configuration with its code in LAST_REASON. -/
def Obligations.FusesAndEnables : Prop :=
  ∀ (a rb : Nat) (v : Word) (s : State),
    (HostRuns 0x200A0 false s → s.d.cfg.fuse0.valid = false → s.d.cfg.fuse1.valid = false → s.d.glb.st = .safe → stagedHash s.c ≠ 0 → s.d.cfg.fusing = none →
      (s.d.cfg.fuse0.used = false → exec .fuseProg s = .next { s with d := { s.d with cfg := { s.d.cfg with
        fuse0 := { s.d.cfg.fuse0 with used := true }, fusing := some 0, fuseResult := 0, lastAccess := s.d.ms } } }) ∧
      (s.d.cfg.fuse0.used = true → s.d.cfg.fuse1.used = false → exec .fuseProg s = .next { s with d := { s.d with cfg := { s.d.cfg with
        fuse1 := { s.d.cfg.fuse1 with used := true }, fusing := some 1, fuseResult := 0, lastAccess := s.d.ms } } })) ∧
    (HostRuns 0x200A0 false s → (s.d.cfg.fuse0.valid = true ∨ s.d.cfg.fuse1.valid = true ∨ (s.d.cfg.fuse0.used = true ∧ s.d.cfg.fuse1.used = true) ∨
        s.d.glb.st ≠ .safe ∨ stagedHash s.c = 0 ∨ s.d.cfg.fusing ≠ none) →
      exec .fuseProg s = .next { s with d := { s.d with cfg := { s.d.cfg with fuseResult := 0x1053, lastAccess := s.d.ms } } }) ∧
    (s.d.cfg.fusing = none → exec (.fuseProgDone rb) s = .next s) ∧
    (s.d.cfg.fusing = some 0 → rb = stagedHash s.c → exec (.fuseProgDone rb) s = .next { s with d := { s.d with cfg := { s.d.cfg with
      fusing := none, fuse0 := { used := true, valid := true, hash := rb }, fuseResult := 0 } } }) ∧
    (s.d.cfg.fusing = some 1 → rb = stagedHash s.c → exec (.fuseProgDone rb) s = .next { s with d := { s.d with cfg := { s.d.cfg with
      fusing := none, fuse1 := { used := true, valid := true, hash := rb }, fuseResult := 0 } } }) ∧
    (s.d.cfg.fusing ≠ none → rb ≠ stagedHash s.c → exec (.fuseProgDone rb) s = .next { s with d := { s.d with cfg := { s.d.cfg with fusing := none, fuseResult := 0x1053 } } }) ∧
    (s.d.portUp = false ∨ a % 4 ≠ 0 → exec (.registerWrite a v) s = .next s) ∧
    (∃ t, exec (.registerWrite a v) s = .next t ∧ t.pending = s.pending ∧ t.c.fx = s.c.fx ∧ (s.c.reg.ok → t.c.reg.ok)) ∧
    (s.d.portUp = true → s.d.standby = false →
      ∃ x, exec (.registerWrite 0x10004 v) s = .next { s with d := { s.d with arc := x, tim := { s.d.tim with arming := [] }, pwr := { s.d.pwr with rst := w1c s.d.pwr.rst v.toNat 6 } } }) ∧
    (s.d.portUp = true →
      ∃ x, exec (.registerWrite 0x34 v) s = .next { s with d := { s.d with arc := x, tim := { s.d.tim with arming := [] }, dp := { s.d.dp with irq := w1c s.d.dp.irq v.toNat 8 } } }) ∧
    (isEnableWord s.c a = true → exec (.enableWrite a v) s = exec (.registerWrite a v) s) ∧ (isEnableWord s.c a = false → exec (.enableWrite a v) s = .next s) ∧
    (s.d.cfg.checks = [] → exec .enableCheckDone s = .next s) ∧
    (∀ k rest, s.d.cfg.checks = k :: rest →
      ∃ t, exec .enableCheckDone s = .next t ∧ t.d.cfg.checks = rest ∧ t.c.img = s.c.img ∧ t.c.fx = s.c.fx ∧ (t.d.cfg.lastReason ≠ 0 → t.c = s.c))

/-- GUARD_SLOT_START and VISIT_END (R140, R143, R148, R153, R154, R159, R182, R185): a guard descriptor of a live enabled bank begins its visit in its slot; every visit that
ends is counted; the code and the verdict of a settled visit, on a STANDBY the active's ones, go through the conversion to the channel, and a failing verdict makes it
INVALID at once with that cause; an unsettled visit, and one in which the voltage source was at its limit, delivers nothing: the channel holds, a VALID one as HELD. -/
def Obligations.FrontVisits : Prop :=
  ∀ (b k : Nat) (m : VisitMeas) (mirror : Option MirrorVisit) (s : State),
    (s.d.live s.c = true → s.c.bankEn (k / 64) = true → s.c.descEn k = true → s.c.descGuard k = true → (s.d.bank (k / 64)).visit = none →
      ∃ t v, exec (.guardSlotStart k) s = .next t ∧ (t.d.bank (k / 64)).visit = some v ∧ v.desc = k ∧ v.guard = true ∧ t.c.reg.w = s.c.reg.w ∧
        (t.d.bank (k / 64)).waiting = false ∧ Alike { t.d with afe := s.d.afe } s.d) ∧
    (¬(s.d.live s.c = true ∧ s.c.bankEn (k / 64) = true ∧ s.c.descEn k = true ∧ s.c.descGuard k = true ∧ (s.d.bank (k / 64)).visit = none) →
      exec (.guardSlotStart k) s = .next s) ∧
    ((s.d.bank b).visit = none → exec (.visitEnd b m mirror) s = .next s) ∧
    (∀ v, (s.d.bank b).visit = some v → v.desc / 64 = b →
      let d0 := s.d.setBank b { s.d.bank b with visit := none, visits := ((s.d.bank b).visits + 1) % 2 ^ 32 }
      let verdict := visitVerdict s.c d0 v.desc m
      let done := settle s.c v.desc verdict.1 verdict.2.1 verdict.2.2 m (overloadEnd s.c v.desc m d0)
      let c1 := (loadChan v.desc s).c
      let vs : Prop := s.c.descExc v.desc = 2 ∨ (s.c.descExc v.desc = 4 ∧ (s.d.bank b).contOn = true)
      let bad : Prop := s.c.descExc v.desc ≠ 0 ∧ (v.unsettled = true ∨ (vs ∧ (m.overload = true ∨ m.overloadAny = true)))
      let held : Chan := if s.c.chanEn v.desc = true ∧ (s.d.chan v.desc).state = 1 then { s.d.chan v.desc with state := 2, cause := 1 } else s.d.chan v.desc
      ∃ t, exec (.visitEnd b m mirror) s = .next t ∧ (t.d.bank b).visits = ((s.d.bank b).visits + 1) % 2 ^ 32 ∧ t.c.reg.w = s.c.reg.w ∧
        (s.d.standby = false → ¬bad → t.d.chan v.desc = (convert c1 v.desc done.2 verdict.2.2 s.d.dioLevel done.1).chan v.desc ∧
          (verdict.2.2 ≠ 0 → c1.chanEn v.desc = true →
            (t.d.chan v.desc).state = 3 ∧ (t.d.chan v.desc).cause = verdict.2.2 ∧ (t.d.chan v.desc).value = (s.d.chan v.desc).value)) ∧
        (s.d.standby = false → bad → t.d.chan v.desc = held) ∧
        (∀ mv, s.d.standby = true → mirror = some mv → mv.unsettled = true → t.d.chan v.desc = held) ∧
        (∀ mv, s.d.standby = true → mirror = some mv → mv.unsettled = false →
          (∃ e, e.chan v.desc = s.d.chan v.desc ∧ t.d.chan v.desc = (convert c1 v.desc mv.raw mv.cause s.d.dioLevel e).chan v.desc) ∧
          (mv.cause ≠ 0 → c1.chanEn v.desc = true → (t.d.chan v.desc).state = 3 ∧ (t.d.chan v.desc).cause = mv.cause)) ∧
        (s.d.standby = true → mirror = none → t.d.chan v.desc = held) ∧
        (∀ j, j ≠ v.desc → t.d.chan j = s.d.chan j) ∧ t.d.fld = s.d.fld ∧ t.d.mst = s.d.mst ∧ t.d.ctl = s.d.ctl)

/-- EXC_RETRY, CHANNEL_STALE, AFE_BCMD.SELFTEST, SELFTEST_DONE and AFE_BCMD.LCOMMIT (R114, R140, R148, R157, R162, R166, R186): a source that was switched off is tried again at its
time; a channel without a result for too long raises its WARN record and is INVALID with cause STALE; a self-test fails with a TRIP record where a code is off by more than
0.5 %, with every enabled channel of the bank INVALID, and passes with the record closed; a list commit is checked, or refused with its code. -/
def Obligations.FrontServices : Prop :=
  ∀ (b k : Nat) (e1 e2 : Int) (s : State),
    (∀ t, (s.d.bank b).retryAt = some t → t ≤ s.d.ms → s.d.live s.c = true → s.c.bankEn b = true →
      ∃ u, exec (.excRetry b) s = .next { s with d := u } ∧ (u.bank b).contOn = true ∧ (u.bank b).retryAt = none ∧ (u.bank b).contOver = 2 ∧
        (∀ j, j / 64 = b → s.c.descEn j = true → s.c.descExc j ≠ 0 → s.c.isCont j = true → (u.desc j).pending = true) ∧ Alike { u with afe := s.d.afe } s.d) ∧
    ((s.d.bank b).retryAt = none ∨ (∃ t, (s.d.bank b).retryAt = some t ∧ s.d.ms < t) → exec (.excRetry b) s = .next s) ∧
    (k < 1024 → s.c.chanEn k = true → s.d.glb.st ≠ .dormant → s.d.glb.st ≠ .boot → (s.d.glb.st = .scan → inStorage s.d k = true) →
      staleLimit s.c s.d k < s.d.chanAge k →
      ∃ t, exec (.channelStale k) s = .next { s with d := t } ∧ (t.chan k).stale = true ∧
        (∀ n, (s.d.chan k).noRec = some n → n ≤ s.d.ms → s.d.flt.find (0x5000 + k) = none →
          (t.chan k).noRec = none ∧ ∃ r, t.flt.find (0x5000 + k) = some r ∧ r.code = 0x5066 ∧ r.sev = 1) ∧
        ((s.d.chan k).noRec = none ∨ (∃ n, (s.d.chan k).noRec = some n ∧ s.d.ms < n) →
          t.flt.find (0x5000 + k) = s.d.flt.find (0x5000 + k) ∧ (t.chan k).noRec = (s.d.chan k).noRec) ∧
        ((s.d.chan k).state = 1 ∨ (s.d.chan k).state = 2 → (t.chan k).state = 3 ∧ (t.chan k).cause = causeSTALE) ∧
        ((s.d.chan k).state ≠ 1 → (s.d.chan k).state ≠ 2 → (t.chan k).state = (s.d.chan k).state) ∧ (t.chan k).value = (s.d.chan k).value ∧
        (∀ j, j ≠ k → t.chan j = s.d.chan j)) ∧
    (k < 1024 → (s.c.chanEn k = false ∨ s.d.chanAge k ≤ staleLimit s.c s.d k ∨ s.d.glb.st = .dormant ∨ s.d.glb.st = .boot ∨ (s.d.glb.st = .scan ∧ inStorage s.d k = false)) →
      exec (.channelStale k) s = .next s) ∧
    (1024 ≤ k → exec (.channelStale k) s = .next s) ∧
    (b < s.c.fx.nBanks → HostRuns (bankA b + 0x1C) false s →
      exec (.selftest b) s = .next { s with d := s.d.setBank b { s.d.bank b with selftest := true, cmdResult := 0 } }) ∧
    (b < s.c.fx.nBanks → (s.d.bank b).selftest = true → let ok := selfOk e1 3355443 = true ∧ selfOk e2 3355443 = true
      ∃ t, exec (.selftestDone b e1 e2) s = .next t ∧ (t.d.bank b).selftest = false ∧ ((t.d.bank b).failed = true ↔ ¬ok) ∧ t.c.reg.w = s.c.reg.w ∧
        (ok → Closed s.d t.d (0x4400 + b) [0x4062] ∧ Alike { t.d with afe := s.d.afe } s.d) ∧
        (¬ok → (s.d.flt.find (0x4400 + b) = none → ∃ r, t.d.flt.find (0x4400 + b) = some r ∧ r.code = 0x4062 ∧ r.sev = 3) ∧
          ∀ m, t.d.chan m = if m / 64 = b ∧ s.c.chanEn m = true then { s.d.chan m with state := 3, cause := causeBANK, filt := false } else s.d.chan m)) ∧
    (s.c.fx.nBanks ≤ b ∨ (s.d.bank b).selftest = false → exec (.selftestDone b e1 e2) s = .next (visitStart b s)) ∧
    (b < s.c.fx.nBanks → HostRuns (bankA b + 0x1C) false s →
      (s.d.sessionOn = false → s.d.checkingAt (bankA b + 0x1C) = false → s.c.img.ok = true →
        exec (.lcommit b) s = .next { s with d := { s.d.setBank b { s.d.bank b with cmdResult := 0 } with
          cfg := { s.d.cfg with checks := s.d.cfg.checks ++ [{ addr := bankA b + 0x1C, val := 2 }] } } }) ∧
      (s.d.sessionOn = true → exec (.lcommit b) s = .next { s with d := s.d.setBank b { s.d.bank b with cmdResult := 0x400F } }) ∧
      (s.d.sessionOn = false → s.d.checkingAt (bankA b + 0x1C) = true → exec (.lcommit b) s = .next { s with d := s.d.setBank b { s.d.bank b with cmdResult := 0x400C } }))

/-- SWEEP_COMPLETE (R204, R205, R207, R213, R214, R220, R221): a sweep that ended is counted; it is dropped, or joins the average or the calibration. The last sweep of an
average gives the result: INVALID with the first cause of R220, the values held staying, or VALID with the latest RTD result and its records closed. The sixteenth of a
calibration sets the flag of the module's own set, its time and the terms of its entries; a term beyond its register, and a short one without admittance, has no
value in the spec (log entry 84). A calibration that has not begun leaves the sweep under way to the average. -/
def Obligations.CellSweeps : Prop :=
  ∀ (n : Nat) (m : SweepMeas) (s : State),
    let x := s.d.cell n
    let waits : Prop := ∀ k, x.cal = some k → k.started = false
    let r : SweepRec := { gs := m.gs.take (s.c.cellK n) ++ [m.gref], bs := m.bs.take (s.c.cellK n) ++ [m.bref], drive := m.drive, ovf := m.ovf }
    ((x.sweeping = false ∨ s.c.cellEn n = false ∨ s.d.standby = true ∨ (s.d.glb.st ≠ .run ∧ s.d.glb.st ≠ .safe)) → exec (.sweepComplete n m) s = .next s) ∧
    (x.sweeping = true → s.c.cellEn n = true → s.d.standby = false → (s.d.glb.st = .run ∨ s.d.glb.st = .safe) →
      ∃ t, exec (.sweepComplete n m) s = .next t ∧ (t.d.cell n).sweeping = false ∧ (t.d.cell n).sweeps = (x.sweeps + 1) % 2 ^ 32 ∧
        Alike { t.d with mst := s.d.mst } s.d ∧ (∀ j, j ≠ n → t.d.cell j = s.d.cell j) ∧ (∀ j, t.d.ctg j = s.d.ctg j) ∧
        (x.dropSweep = true → t = { s with d := s.d.setCell n { x with sweeping := false, sweeps := (x.sweeps + 1) % 2 ^ 32, dropSweep := false } }) ∧
        (x.dropSweep = false → waits → x.got.length + 1 < s.c.cellAvg n →
          t = { s with d := s.d.setCell n { x with sweeping := false, sweeps := (x.sweeps + 1) % 2 ^ 32, got := x.got ++ [r] } }) ∧
        (x.dropSweep = false → waits → s.c.cellAvg n ≤ x.got.length + 1 → ∀ g, s.c.grain (s.c.cellCurve n) = some g →
          let got := x.got ++ [r]
          let lost : Prop := ∃ i, i ≤ s.c.cellK n ∧ deembedAt s.c n (ownSet s.c s.d) got i (if i = s.c.cellK n then 8 else i) = none
          let y := t.d.cell n
          t.c = s.c ∧ y.got = [] ∧ (y.state = 1 ∨ y.state = 3) ∧
          ((∃ q ∈ got, q.drive = true) → y.state = 3 ∧ y.cause = 1) ∧
          ((∀ q ∈ got, q.drive = false) → ((∃ q ∈ got, q.ovf = true) ∨ lost) → y.state = 3 ∧ y.cause = 2) ∧
          ((∀ q ∈ got, q.drive = false) → (∀ q ∈ got, q.ovf = false) → ¬lost → (x.ctgChange = true ∨ s.d.ctgOk n = false) → y.state = 3 ∧ y.cause = 3) ∧
          ((∀ q ∈ got, q.drive = false) → (∀ q ∈ got, q.ovf = false) → ¬lost → x.ctgChange = false → s.d.ctgOk n = true →
            (x.rtd = none ∨ x.rtdAt + 100 < s.d.ms) → y.state = 3 ∧ y.cause = 4) ∧
          (y.state = 3 → 1 ≤ y.cause ∧ y.cause ≤ 9 ∧ y.m = x.m ∧ y.rho = x.rho ∧ y.temp = x.temp ∧ y.qual = x.qual ∧ y.at_ = x.at_) ∧
          (y.state = 1 → y.cause = 0 ∧ (∀ q ∈ got, q.drive = false ∧ q.ovf = false) ∧ x.ctgChange = false ∧ s.d.ctgOk n = true ∧ y.at_ = s.d.ms ∧
            x.rtd = some y.temp ∧ s.d.ms ≤ x.rtdAt + 100 ∧ g.tmin ≤ y.temp ∧ y.temp ≤ g.tmax ∧ g.mmin ≤ y.m ∧ y.m ≤ g.mmax ∧
            y.drift.natAbs ≤ s.c.cellRefLim n ∧ Closed s.d t.d (0x6000 + n) [0x6060, 0x6061, 0x6062, 0x6063, 0x6064, 0x6065, 0x6066])) ∧
        (∀ k, x.dropSweep = false → x.cal = some k → k.started = true → k.got.length + 1 < 16 →
          t = { s with d := s.d.setCell n { x with sweeping := false, sweeps := (x.sweeps + 1) % 2 ^ 32, cal := some { k with got := k.got ++ [r] } } }) ∧
        (∀ k, x.dropSweep = false → x.cal = some k → k.started = true → 16 ≤ k.got.length + 1 →
          let st := ownSet s.c s.d
          (t.d.cell n).cal = none ∧ (t.d.cell n).state = 3 ∧ (t.d.cell n).cause = 12 ∧
          t.c.w (cellA n + 0x168 + 8 * st) = BitVec.ofNat 32 s.d.tim.net ∧ t.c.w (cellA n + 0x16C + 8 * st) = BitVec.ofNat 32 (s.d.tim.net / 2 ^ 32) ∧
          (k.kind = 1 → t.c.calOpen n st = true) ∧ (k.kind = 2 → t.c.calShort n st = true) ∧ t.c.img = s.c.img ∧ t.c.fx = s.c.fx ∧
          (∀ e, e < 9 → (e = 8 ∨ e < s.c.cellK n) →
            let gm := avgCol (k.got ++ [r]) false (if e = 8 then s.c.cellK n else e)
            let bm := avgCol (k.got ++ [r]) true (if e = 8 then s.c.cellK n else e)
            let q := gm * gm + bm * bm
            (k.kind = 1 → sat32 gm = gm → t.c.w (calA n st e 0) = wordOf gm) ∧ (k.kind = 1 → sat32 bm = bm → t.c.w (calA n st e 1) = wordOf bm) ∧
            (∀ v, v = rdivI (10 ^ 12 * gm) q.natAbs → k.kind = 2 → q ≠ 0 → sat32 v = v → t.c.w (calA n st e 2) = wordOf v) ∧
            (∀ v, v = rdivI (-(10 ^ 12 * bm)) q.natAbs → k.kind = 2 → q ≠ 0 → sat32 v = v → t.c.w (calA n st e 3) = wordOf v))))

/-- RTD_CONVERSION, CELL_STALE and MST_CCMD (R207, R213, R221, R237): a good conversion is the latest RTD result, a failed one leaves it; past its stale limit a cell is
INVALID with cause STALE, but for one that has no result yet or is being calibrated, and its WARN record is raised once; a calibration command waits for the next sweep start, or is refused with its code. -/
def Obligations.CellServices : Prop :=
  ∀ (n : Nat) (raw sense : Int) (comp : Bool) (s : State),
    let x := s.d.cell n
    let temp := ptTemp (qOhm raw 0 262144000) (rdivI ((((s.d.ctg n).le 0x14 4 : Nat) : Int) * 65536) 1000)
    let runs : Prop := s.c.cellEn n = true ∧ s.d.standby = false ∧ s.d.glb.st ≠ .dormant ∧ s.d.glb.st ≠ .boot
    let fails : Prop := comp = true ∨ sense < 25000 ∨ 2450000 < sense
    (¬runs → exec (.rtdConversion n raw sense comp) s = .next s) ∧ (fails → exec (.rtdConversion n raw sense comp) s = .next s) ∧
    (temp = none → exec (.rtdConversion n raw sense comp) s = .next s) ∧
    (∀ v, runs → ¬fails → temp = some v →
      exec (.rtdConversion n raw sense comp) s = .next { s with d := s.d.setCell n { x with rtd := some v, rtdAt := s.d.ms } }) ∧
    (let stale : Prop := s.c.cellEn n = true ∧ (s.d.glb.st = .run ∨ s.d.glb.st = .safe) ∧ cellStaleLimit s.c n < s.d.ms - x.at_
     let keep : Prop := x.state = 0 ∨ (x.state = 3 ∧ (x.cause = 10 ∨ x.cause = 12))
     (¬stale → exec (.cellStale n) s = .next s) ∧
     (stale → ∃ t, exec (.cellStale n) s = .next { s with d := t } ∧ (t.cell n).staleRec = true ∧
        (keep → (t.cell n).state = x.state ∧ (t.cell n).cause = x.cause) ∧ (¬keep → (t.cell n).state = 3 ∧ (t.cell n).cause = 11) ∧
        (t.cell n).m = x.m ∧ (t.cell n).temp = x.temp ∧ (t.cell n).at_ = x.at_ ∧
        (x.staleRec = true → t.flt = s.d.flt) ∧ (n < s.c.fx.nCells → x.staleRec = false → Opened s.d t (0x6000 + n) 0x6066 1 0 0 false false) ∧
        (∀ j, j ≠ n → t.cell j = s.d.cell j) ∧ (∀ j, t.ctg j = s.d.ctg j) ∧ Alike { t with mst := s.d.mst } s.d)) ∧
    (n < s.c.fx.nCells → HostRuns (cellA n + 0x180) false s →
      let put := fun (y : Cell) => (Host.Outcome.next { s with d := s.d.setCell n y } : Host.Outcome State Fault Refusal)
      (x.cal ≠ none → exec (.calOpen n) s = put { x with calResult := 0x6046 } ∧ exec (.calShort n) s = put { x with calResult := 0x6046 } ∧
        exec (.calClear n) s = put { x with calResult := 0x6046 }) ∧
      (x.cal = none → s.c.cellEn n = false → exec (.calOpen n) s = put { x with calResult := 0x6003 } ∧ exec (.calShort n) s = put { x with calResult := 0x6003 } ∧
        exec (.calClear n) s = put { x with calResult := 0x6003 }) ∧
      (x.cal = none → s.c.cellEn n = true → (s.d.ctg n).state ≠ 0 → exec (.calOpen n) s = put { x with calResult := 0x6044 } ∧
        exec (.calShort n) s = put { x with calResult := 0x6044 }) ∧
      (x.cal = none → s.c.cellEn n = true → (s.d.ctg n).state = 0 →
        exec (.calOpen n) s = put { x with calResult := 0, cal := some { kind := 1, got := [], started := false } } ∧
        exec (.calShort n) s = put { x with calResult := 0, cal := some { kind := 2, got := [], started := false } }) ∧
      (x.cal = none → s.c.cellEn n = true → exec (.calClear n) s = put { x with calResult := 0, calClear := true }))

/-- ID_RESPONSE and ID_ATTEMPT_FAIL (R224, R225, R226, R228, R229, R230): a failed attempt is repeated, the third fails the transaction: a poll or read makes the cartridge absent
and its cell INVALID, a failed INCR or row write waits to be tried again. An answer of wrong length, CRC-32C or STATUS is a failed attempt. A good INCR gives USED_LIFE; a poll
with another serial, or an answer after the cartridge was absent, is a change, which discards the average and the flow; the end of a full read accepts the cartridge or refuses
it with its code. A calibration under way ends with the answer. -/
def Obligations.CartridgeLine : Prop :=
  ∀ (n : Nat) (bytes : List Byte) (s : State),
    let x := s.d.ctg n
    (x.tx = none → exec (.idResponse n bytes) s = .next s ∧ exec (.idAttemptFail n) s = .next s) ∧
    (∀ t, x.tx = some t →
      let len := txLen t
      let data := (bytes.take (1 + len)).drop 1
      let good : Prop := bytes.length = 5 + len ∧ leNat (bytes.drop (1 + len)) = crc32c (bytes.take (1 + len)) ∧ bytes.headD 1 = 0
      let y := s.d.cell n
      let ended : Cell := { y with cal := none, calResult := 0x6044, cause := if y.cause = 10 then 12 else y.cause }
      let back : Ctg := { x with absent := false, acc := 0, pend := 0, wantIncr := false, wantRows := [], retryAt := none, consec := 0, discarded := x.acc + 900000 * x.pend }
      let changed := fun (d : Dyn) => (d.ctg n).state = 1 ∧ (d.ctg n).acc = 0 ∧ (d.ctg n).pend = 0 ∧ (d.ctg n).discarded = x.acc + 900000 * x.pend ∧
        (d.cell n).state = 3 ∧ (d.cell n).cause = 3 ∧ (d.cell n).got = [] ∧ (d.cell n).dropSweep = y.sweeping
      (¬good → exec (.idResponse n bytes) s = exec (.idAttemptFail n) s) ∧
      (t.attempts < 2 → exec (.idAttemptFail n) s =
        .next { s with d := s.d.setCtg n { x with fails := satInc 16 x.fails, tx := some { t with attempts := t.attempts + 1 } } }) ∧
      (2 ≤ t.attempts → ∃ d, exec (.idAttemptFail n) s = .next { s with d := d } ∧ (d.ctg n).fails = satInc 16 x.fails ∧
        (∀ j, j ≠ n → d.ctg j = s.d.ctg j ∧ d.cell j = s.d.cell j) ∧ Alike { d with mst := s.d.mst } s.d ∧
        (3 ≤ t.kind → (d.ctg n).state = 0 ∧ (d.ctg n).absent = true ∧ (d.ctg n).reason = 0x7060 ∧
          ((s.d.cell n).cal = none → (d.cell n).state = 3 ∧ (d.cell n).cause = 3) ∧ ((s.d.cell n).cal ≠ none → d.cell n = s.d.cell n) ∧
          (n < s.c.fx.nCells → x.state ≠ 0 → Opened s.d d (0x7000 + n) 0x7060 2 0 0 false false)) ∧
        (t.kind < 3 → (d.ctg n).state = x.state ∧ d.cell n = s.d.cell n ∧ (d.ctg n).consec = x.consec + 1 ∧
          (d.ctg n).retryAt = some (s.d.ms + (if 10 ≤ x.consec + 1 then 60000 else 1000)) ∧
          (n < s.c.fx.nCells → x.consec + 1 = 10 → Opened s.d d (0x7000 + n) 0x7066 2 0 0 false false))) ∧
      (good → (s.d.cell n).cal ≠ none → exec (.idResponse n bytes) s = exec (.idResponse n bytes) { s with d := s.d.setCell n ended }) ∧
      (good → (s.d.cell n).cal = none → x.absent = true → t.kind = 3 → exec (.idResponse n bytes) s = exec (.idResponse n bytes) { s with d := s.d.setCtg n back }) ∧
      (good → (s.d.cell n).cal = none → x.absent = true → t.kind ≠ 3 → ∃ d, exec (.idResponse n bytes) s = .next { s with d := d } ∧
        (∀ j, j ≠ n → d.ctg j = s.d.ctg j ∧ d.cell j = s.d.cell j) ∧ Alike { d with mst := s.d.mst } s.d ∧ changed d) ∧
      (good → (s.d.cell n).cal = none → x.absent = false →
        ∃ d, exec (.idResponse n bytes) s = .next { s with d := d } ∧ (∀ j, j ≠ n → d.ctg j = s.d.ctg j ∧ d.cell j = s.d.cell j) ∧
          Alike { d with mst := s.d.mst } s.d ∧
          (t.kind = 1 → (d.ctg n).pend = x.pend - 1 ∧ (d.ctg n).consec = 0 ∧ (d.ctg n).retryAt = none ∧ (d.ctg n).wantRows.contains 0x120 = true ∧ (d.ctg n).bytes 0x100 4 = data) ∧
          (t.kind = 4 → leNat data = x.serial → x.state ≠ 0 → (d.ctg n).state = x.state ∧ (d.ctg n).acc = x.acc ∧ (d.ctg n).pend = x.pend ∧ d.cell n = s.d.cell n) ∧
          (t.kind = 4 → (leNat data ≠ x.serial ∨ x.state = 0) → changed d) ∧
          (t.kind = 2 → (d.ctg n).wantRows = x.wantRows.filter (· ≠ t.row) ∧ (d.ctg n).consec = 0 ∧ (d.ctg n).state = x.state ∧ d.cell n = s.d.cell n) ∧
          (t.kind = 3 → t.row + 32 < 0x130 → ∃ u, (d.ctg n).tx = some u ∧ u.kind = 3 ∧ u.row = t.row + 32 ∧ u.data = t.data ++ data ∧ u.attempts = 0 ∧
            (d.ctg n).state = x.state ∧ d.cell n = s.d.cell n) ∧
          (t.kind = 3 → 0x130 ≤ t.row + 32 →
            let now := ({ x with tx := none, mem := [] } : Ctg).write 0 (t.data ++ data)
            let code := ctgCheck s.c n now
            (code ≠ 0 → (d.ctg n).state = 3 ∧ (d.ctg n).reason = code ∧ (d.cell n).state = 3 ∧ (d.cell n).cause = 3) ∧
            (code = 0 → (d.ctg n).state = 2 ∧ (d.ctg n).absent = false ∧
              (now.bytes 0 0x100 ≠ x.bytes 0 0x100 → (d.cell n).got = [] ∧ (d.cell n).dropSweep = y.sweeping) ∧
              (now.bytes 0 0x100 = x.bytes 0 0x100 → (d.cell n).got = y.got ∧ (d.cell n).dropSweep = y.dropSweep) ∧ (d.cell n).state = (s.d.cell n).state ∧ (d.cell n).m = (s.d.cell n).m))))

/-- PRESENCE_POLL, FLOW_QUARTER, INCR_RETRY, CTG_CMD.REREAD, CTG_LINE_FAULT and CTG_LINE_RECOVERED (R224, R225, R228, R240, R242): each transaction starts at once on a free line and else
waits; a quarter of an hour of flow becomes an INCR; a line held low suspends all transactions and makes the cell INVALID; the line's return starts a full read. -/
def Obligations.CartridgeServices : Prop :=
  ∀ (n : Nat) (s : State),
    let x := s.d.ctg n
    let put := fun (y : Ctg) => (Host.Outcome.next { s with d := s.d.setCtg n y } : Host.Outcome State Fault Refusal)
    let free : Prop := x.lineFault = false ∧ x.tx = none ∧ x.wantIncr = false ∧ x.wantRows = []
    let only : State → Prop := fun t => (∀ j, j ≠ n → t.d.ctg j = s.d.ctg j) ∧ (∀ j, j ≠ n → t.d.cell j = s.d.cell j) ∧ Alike { t.d with mst := s.d.mst } s.d ∧ t.c = s.c
    (ctgRuns s.c s.d n = false → exec (.presencePoll n) s = .next s) ∧
    (ctgRuns s.c s.d n = true → free → x.wantRead = false →
      ∃ t, exec (.presencePoll n) s = .next t ∧ t.d.ctg n = { x with wantPoll := false, tx := some { kind := 4, row := 0, attempts := 0, data := [], stale := false } } ∧
        t.d.cell n = s.d.cell n ∧ t.d.flt = s.d.flt ∧ only t) ∧
    (ctgRuns s.c s.d n = true → (x.lineFault = true ∨ x.tx ≠ none) → exec (.presencePoll n) s = put { x with wantPoll := true }) ∧
    ((x.acc < 900000 ∨ s.c.cellEn n = false) → exec (.flowQuarter n) s = .next s) ∧
    (900000 ≤ x.acc → s.c.cellEn n = true →
      ∃ t, exec (.flowQuarter n) s = .next t ∧ (t.d.ctg n).acc = x.acc - 900000 ∧ (t.d.ctg n).pend = min 255 (x.pend + 1) ∧ (t.d.ctg n).wantIncr = true ∧
        (ctgRuns s.c s.d n = true → x.lineFault = false → x.tx = none → x.retryAt = none → x.state = 2 →
          (t.d.ctg n).tx = some { kind := 1, row := 0x100, attempts := 0, data := [], stale := false }) ∧
        t.d.cell n = s.d.cell n ∧ t.d.flt = s.d.flt ∧ only t) ∧
    ((x.retryAt = none ∨ ∃ u, x.retryAt = some u ∧ s.d.ms < u) → exec (.incrRetry n) s = .next s) ∧
    (∀ u, x.retryAt = some u → u ≤ s.d.ms →
      ∃ t, exec (.incrRetry n) s = .next t ∧ (t.d.ctg n).retryAt = none ∧ (t.d.ctg n).pend = x.pend ∧
        (ctgRuns s.c s.d n = true → x.lineFault = false → x.tx = none → x.wantIncr = true → x.state = 2 →
          (t.d.ctg n).tx = some { kind := 1, row := 0x100, attempts := 0, data := [], stale := false }) ∧ t.d.cell n = s.d.cell n ∧ t.d.flt = s.d.flt ∧ only t) ∧
    (n < s.c.fx.nCells → HostRuns (0x15002C + 0x40 * n) false s →
      ∃ t, exec (.reread n) s = .next t ∧ (t.d.ctg n).result = 0 ∧ (t.d.ctg n).state = 1 ∧
        (ctgRuns s.c s.d n = true → x.lineFault = false → x.tx = none →
          (t.d.ctg n).tx = some { kind := 3, row := 0, attempts := 0, data := [], stale := false }) ∧ t.d.cell n = s.d.cell n ∧ t.d.flt = s.d.flt ∧ only t) ∧
    ((s.c.cellEn n = false ∨ s.d.standby = true) → exec (.ctgLineFault n) s = .next s) ∧
    (s.c.cellEn n = true → s.d.standby = false →
      ∃ t, exec (.ctgLineFault n) s = .next t ∧ (t.d.ctg n).lineFault = true ∧ (t.d.ctg n).tx = none ∧ (t.d.ctg n).wantRead = true ∧
        (t.d.cell n).state = 3 ∧ (t.d.cell n).cause = 3 ∧ (n < s.c.fx.nCells → Opened s.d t.d (0x7000 + n) 0x7067 2 0 0 false false) ∧ only t) ∧
    (x.lineFault = false → exec (.ctgLineRecovered n) s = .next s) ∧
    (x.lineFault = true →
      ∃ t, exec (.ctgLineRecovered n) s = .next t ∧ (t.d.ctg n).lineFault = false ∧ (t.d.ctg n).state = 1 ∧
        (ctgRuns s.c s.d n = true → x.tx = none → (t.d.ctg n).tx = some { kind := 3, row := 0, attempts := 0, data := [], stale := false }) ∧
        t.d.cell n = s.d.cell n ∧ t.d.flt = s.d.flt ∧ only t)

/-- COLUMN_STEP_COMPLETE, COL_CMD and COL_KAPPA, MODEL_OPEN_LOOP and INLET_LOST (R258, R263, R267, R273, R274): a running step is marked complete, to be published at the next frame
boundary; RESTART, BATCH_CLEAR and KAPPA_RESET wait for the next step start, BATCH_CLEAR only in batch mode; a correction factor is taken between 0.25 and 4; a column without a
qualifying result, or without a usable inlet, for its time raises its record once, the lost inlet's last moisture dropped from the step under way too. -/
def Obligations.ColumnCommands : Prop :=
  ∀ (n : Nat) (v : Word) (s : State),
    let x := s.d.col n
    let put := fun (y : Col) => (Host.Outcome.next { s with d := s.d.setCol n y } : Host.Outcome State Fault Refusal)
    (x.work = none → exec (.columnStepComplete n) s = .next s) ∧
    (x.work ≠ none → exec (.columnStepComplete n) s = put { x with done := true }) ∧
    (n < s.c.fx.nCols → HostRuns (colA n + 0xAC) false s →
      exec (.columnRestart n) s = put { x with restart := true, cmdResult := 0 } ∧
      exec (.kappaReset n) s = put { x with kReset := true, cmdResult := 0 } ∧
      (s.c.colBatch n = true → exec (.batchClear n) s = put { x with clear := true, cmdResult := 0 }) ∧
      (s.c.colBatch n = false → exec (.batchClear n) s = put { x with cmdResult := 0xB00D })) ∧
    (n < s.c.fx.nCols → HostRuns (colA n + 0x94) false s →
      (16384 ≤ v.toNat ∧ v.toNat ≤ 262144 →
        ∃ a, exec (.kappaWrite n v) s = .next { s with d := { s.d.setCol n { x with kWrite := some (v.toNat : Int) } with arc := a } }) ∧
      (v.toNat < 16384 ∨ 262144 < v.toNat →
        ∃ a, exec (.kappaWrite n v) s = .next { s with d := { s.d.setCol n { x with reason := 0xB001 } with arc := a } })) ∧
    (let late : Prop := s.c.colEn n = true ∧ s.d.glb.st = .run ∧ s.c.colDis n ≠ 0xFF ∧ x.openLoop = false ∧
        x.qualMs + 1000 * s.c.colOlDelay n ≤ s.d.ms
     (¬late → exec (.modelOpenLoop n) s = .next s) ∧
     (late → ∃ t, exec (.modelOpenLoop n) s = .next { s with d := t } ∧ t.col n = { x with openLoop := true } ∧ (∀ j, j ≠ n → t.col j = s.d.col j) ∧
        (n < s.c.fx.nCols → Opened s.d t (0xB000 + n) 0xB062 1 0 0 false false) ∧ Alike { t with cols := s.d.cols } s.d)) ∧
    (let lost : Prop := s.c.colEn n = true ∧ s.d.glb.st = .run ∧ s.c.colInlet n ≠ 0xFF ∧ x.inletLost = false ∧ x.inletMs + 1000 * s.c.colEntryHold n < s.d.ms
     (¬lost → exec (.inletLost n) s = .next s) ∧
     (lost → ∃ t, exec (.inletLost n) s = .next { s with d := t } ∧ t.col n = { x with inletLost := true, core := { x.core with lastIn := none }, work := x.work.map fun k => { k with lastIn := none } } ∧
        (∀ j, j ≠ n → t.col j = s.d.col j) ∧ (n < s.c.fx.nCols → Opened s.d t (0xB000 + n) 0xB063 2 0 0 false false) ∧ Alike { t with cols := s.d.cols } s.d))

/-- LOOP_MODE_WRITE, LOOP_CMD and PRF_CMD (R285, R286, R292, R303, R305, R315, R328): MODE 3, AUTO without a process value and TRACK without a tracked value are refused with their code,
which leaves the register; any other write is stored, for an enabled loop to take at its next sample, and its time kept. REINIT, CLR_COUNTS and SNAP act on their own entry alone. -/
def Obligations.LoopCommands : Prop :=
  ∀ (n : Nat) (v : Word) (s : State),
    let x := s.d.lp n
    (n < s.c.fx.nLoops → HostRuns (loopA n + 0xA0) false s →
      let m := fld v 0 2
      let refused := fun (k : Nat) => ∃ a, exec (.loopModeWrite n v) s = .next { s with d := { s.d.setLp n { x with reason := k } with arc := a } }
      (m = 3 → refused 0xA00A) ∧ (m = 1 → (s.c.loopRef n 3).1 = 0 → refused 0xA045) ∧ (m = 2 → (s.c.loopRef n 6).1 = 0 → refused 0xA045) ∧
      (m ≠ 3 → ¬(m = 1 ∧ (s.c.loopRef n 3).1 = 0) → ¬(m = 2 ∧ (s.c.loopRef n 6).1 = 0) →
        ∃ t a, exec (.loopModeWrite n v) s = .next t ∧ t.d = { s.d.setLp n { x with modeAt := some s.d.ms, reason := if x.reason = 0xA045 then 0 else x.reason } with arc := a } ∧
          t.c.w (loopA n + 0xA0) = v &&& 0x103#32 ∧ (∀ b, b ≠ loopA n + 0xA0 → t.c.w b = s.c.w b ∧ t.c.f b = s.c.f b) ∧
          (s.c.loopEn n = false → t.c.f (loopA n + 0xA0) = v &&& 0x103#32) ∧ (s.c.loopEn n = true → t.c.f (loopA n + 0xA0) = s.c.f (loopA n + 0xA0)) ∧
          t.c.img = s.c.img ∧ t.pending = s.pending)) ∧
    (n < s.c.fx.nLoops → HostRuns (loopA n + 0xF0) false s →
      exec (.reinit n) s = .next { s with d := s.d.setLp n { x with init := true, cmdResult := 0 } } ∧
      exec (.loopClrCounts n) s = .next { s with d := s.d.setLp n { x with total := 0, count := 0, cmdResult := 0 } }) ∧
    (n < s.c.fx.nGens → HostRuns (prfA n + 0x24) false s → exec (.snap n) s = .next { s with d := s.d.setGen n { s.d.gen n with snap := true, cmdResult := 0 } })

/-- TRC_CMD (R114, R321, R323, R324, R325, R327, R558), which a STANDBY takes as well: ARM queues the check of a channel that does not record, and is refused otherwise; the check that
passes lets the channel arm at the next frame boundary, and one that fails leaves its code; STOP ends a recording with cause COMMAND and keeps its
samples; FORCE triggers an armed channel at its next sample instant and is refused otherwise. -/
def Obligations.TraceCommands : Prop :=
  ∀ (k : Nat) (s : State), k < 8 →
    let x := s.d.trc k
    let put := fun (y : Trc) => (Host.Outcome.next { s with d := s.d.setTrc k y } : Host.Outcome State Fault Refusal)
    (HostRuns (trcA k + 0x18) true s →
      (x.state = 2 ∨ x.state = 3 ∨ s.c.img.ok = false → exec (.traceArm k) s = put { x with cmdResult := 0xA00D }) ∧
      (x.state ≠ 2 → x.state ≠ 3 → s.c.img.ok = true → s.d.sessionOn = true → exec (.traceArm k) s = put { x with cmdResult := 0xA00F }) ∧
      (x.state ≠ 2 → x.state ≠ 3 → s.c.img.ok = true → s.d.sessionOn = false → (s.d.checkingAt (trcA k + 0x18) = true ∨ x.arm = true) →
        exec (.traceArm k) s = put { x with cmdResult := 0xA00C }) ∧
      (x.state ≠ 2 → x.state ≠ 3 → s.c.img.ok = true → s.d.sessionOn = false → s.d.checkingAt (trcA k + 0x18) = false → x.arm = false →
        exec (.traceArm k) s = .next { s with d := { s.d.setTrc k { x with cmdResult := 0 } with
          cfg := { s.d.cfg with checks := s.d.cfg.checks ++ [{ addr := trcA k + 0x18, val := 3 }] } } }) ∧
      (x.state = 2 → exec (.traceForce k) s = put { x with force := true, cmdResult := 0 }) ∧
      (x.state ≠ 2 → exec (.traceForce k) s = put { x with cmdResult := 0xA00D }) ∧
      (x.state ≠ 2 → x.state ≠ 3 → exec (.traceStop k) s = put { x with cmdResult := 0 }) ∧
      (x.state = 2 ∨ x.state = 3 →
        ∃ t, exec (.traceStop k) s = .next { s with d := t } ∧ t.trc k = { x with cmdResult := 0, state := 5, cause := 1, force := false } ∧
          (∀ j, j ≠ k → t.trc j = s.d.trc j) ∧ (∀ m, t.flt.find m = s.d.flt.find m) ∧ Alike { t with ctl := s.d.ctl } s.d)) ∧
    (∀ rest, s.d.cfg.checks = { addr := trcA k + 0x18, val := 3 } :: rest →
      let found := armBad (s.c.asWritten none) k
      ∃ t, exec .enableCheckDone s = .next { s with d := t } ∧ t.cfg.checks = rest ∧ (∀ j, j ≠ k → t.trc j = s.d.trc j) ∧
        (found = none → t.trc k = { x with cmdResult := 0, reason := 0, arm := true } ∧ t.cfg.lastReason = 0) ∧
        (∀ y, found = some y → t.trc k = { x with cmdResult := y.code, reason := y.code, arm := y.code == 0 } ∧ t.cfg.lastReason = y.code))

/-- SEQ_DCMD, STEP_TIMEOUT, SEQ_FLAGSET and SEQ_FLAGCLR (R346 to R350, R358, R360): a command is taken at the next pass; HOLD is refused unless the Draft is RUNNING and RESUME unless it
is HELD or a hold is pending; a step whose time reached TIMEOUT with no transition true is left for TO_STEP; a 1 in SET or CLR sets or clears its flag and a 0 has no effect. -/
def Obligations.DraftCommands : Prop :=
  ∀ (n : Nat) (v : Word) (s : State),
    let x := s.d.draft n
    let put := fun (y : Draft) => (Host.Outcome.next { s with d := s.d.setDraft n y } : Host.Outcome State Fault Refusal)
    (n < s.c.fx.nDrafts → HostRuns (draftR n 0x10) false s →
      (s.c.draftEn n = true ∧ s.d.glb.st = .run ∧ x.held = false →
        exec (.draftHold n) s = put { x with cmdResult := 0, wantHold := true, wantResume := false }) ∧
      (¬(s.c.draftEn n = true ∧ s.d.glb.st = .run ∧ x.held = false) → exec (.draftHold n) s = put { x with cmdResult := 0xC00D, reason := 0xC00D }) ∧
      (x.held = true ∨ x.holdPend = true ∨ x.wantHold = true ∨ x.taken.hold = true →
        exec (.resume n) s = put { x with cmdResult := 0, wantResume := true, wantHold := false }) ∧
      (x.held = false → x.holdPend = false → x.wantHold = false → x.taken.hold = false → exec (.resume n) s = put { x with cmdResult := 0xC00D, reason := 0xC00D }) ∧
      exec (.abort n) s = put { x with cmdResult := 0, wantAbort := s.c.draftEn n } ∧
      exec (.draftReset n) s = put { x with cmdResult := 0, wantReset := s.c.draftEn n }) ∧
    (let due : Prop := s.c.draftEn n = true ∧ s.d.glb.st = .run ∧ x.held = false ∧ x.startPend = false ∧
        firstTrans s.c (passNow s.c s.d) n x.step (x.stepTime s.d.ms) = none ∧ 0 < s.c.stepTimeout n x.step ∧ s.c.stepTimeout n x.step ≤ x.stepTime s.d.ms
     (¬due → exec (.stepTimeout n) s = .next s) ∧
     (due → ∃ t, exec (.stepTimeout n) s = .next { s with d := t } ∧ (t.draft n).step = s.c.stepTo n x.step ∧ (t.draft n).prev = x.step ∧ (t.draft n).time = 0 ∧
        (t.draft n).atMs = s.d.ms ∧ (t.draft n).entry = 2 ∧ (t.draft n).aborts = x.aborts ∧
        t = (enterStep s.c (passNow s.c s.d) n (s.c.stepTo n x.step) 2 0 s.d).fault s.c (0xC100 + n) 0xC06A (s.c.stepToSev n x.step) 0 0 false false ∧ (∀ j, j ≠ n → t.draft j = s.d.draft j) ∧
        Alike { t with seq := s.d.seq } s.d)) ∧
    (HostRuns 0x1C0014 false s →
      ∃ t, exec (.seqFlagset v) s = .next { s with d := t } ∧ (∀ j, j < 32 → t.seq.flags.testBit j = (s.d.seq.flags.testBit j || v.toNat.testBit j)) ∧
        t.seq.units = s.d.seq.units ∧ t.seq.drafts = s.d.seq.drafts ∧ { t with seq := s.d.seq, arc := s.d.arc } = s.d) ∧
    (HostRuns 0x1C0018 false s →
      ∃ t, exec (.seqFlagclr v) s = .next { s with d := t } ∧ (∀ j, j < 32 → t.seq.flags.testBit j = (s.d.seq.flags.testBit j && !v.toNat.testBit j)) ∧
        t.seq.units = s.d.seq.units ∧ t.seq.drafts = s.d.seq.drafts ∧ { t with seq := s.d.seq, arc := s.d.arc } = s.d)

/-- UNIT_CMD and the events UNIT_START_TIMEOUT, UNIT_STOP_TIMEOUT, UNIT_PROOF_LOST, UNIT_TRIP1 and UNIT_TRIP2 (R41, R336, R337, R341, R352, R361, R363): RUN and STOP from a source that is not
the commander are refused and counted; a command that meets a running pass waits for its end; ACK acknowledges every unit of the tree in FAULT. A leaf unit that shows the cause, and none that comes
before it, enters FAULT with it: fresh and the acknowledgement are gone and its record is open. -/
def Obligations.UnitCommands : Prop :=
  ∀ (u : Nat) (s : State),
    let x := s.d.unit u
    let put := fun (y : UnitS) => (Host.Outcome.next { s with d := s.d.setUnit u y } : Host.Outcome State Fault Refusal)
    let waits := fun (k : Nat) => (Host.Outcome.next { s with d := { s.d.setUnit u { x with cmdResult := 0 } with
      seq := { (s.d.setUnit u { x with cmdResult := 0 }).seq with defer := s.d.seq.defer ++ [{ unit := u, kind := k }] } } } : Host.Outcome State Fault Refusal)
    (u < s.c.fx.nUnits → HostRuns (0x1C1008 + 0x10 * u) false s →
      (s.c.unitCmdr u ≠ 0 → exec (.unitRun u) s = put { x with cmdResult := 0xC047, refused := satInc 16 x.refused } ∧
        exec (.unitStop u) s = put { x with cmdResult := 0xC047, refused := satInc 16 x.refused }) ∧
      (s.c.unitCmdr u = 0 → s.c.unitEn u = false → exec (.unitRun u) s = put { x with cmdResult := 0 } ∧ exec (.unitStop u) s = put { x with cmdResult := 0 }) ∧
      (s.c.unitCmdr u = 0 → s.c.unitEn u = true → s.d.seq.passMs = none →
        (∃ t, exec (.unitRun u) s = .next { s with d := t } ∧ t.unit u = { x with cmdResult := 0, cmd := true } ∧ (∀ j, j ≠ u → t.unit j = s.d.unit j) ∧ { t with seq := s.d.seq } = s.d) ∧
        (∃ t, exec (.unitStop u) s = .next { s with d := t } ∧ t.unit u = { x with cmdResult := 0, cmd := false } ∧ (∀ j, j ≠ u → t.unit j = s.d.unit j) ∧ { t with seq := s.d.seq } = s.d)) ∧
      (s.c.unitCmdr u = 0 → s.c.unitEn u = true → s.d.seq.passMs ≠ none → exec (.unitRun u) s = waits 1 ∧ exec (.unitStop u) s = waits 2) ∧
      (s.c.unitEn u = false → exec (.unitAck u) s = put { x with cmdResult := 0 }) ∧
      (s.c.unitEn u = true → s.d.seq.passMs ≠ none → exec (.unitAck u) s = waits 3) ∧
      (s.c.unitEn u = true → s.d.seq.passMs = none →
        ∃ t, exec (.unitAck u) s = .next { s with d := t } ∧ { t with seq := s.d.seq } = s.d ∧
          ∀ j, j < s.c.fx.nUnits → (s.c.unitEn j = true → s.c.under u 256 j = true → (s.d.unit j).state = 4 → (t.unit j).acked = true) ∧
            (s.c.under u 256 j = false ∨ (s.d.unit j).state ≠ 4 → (t.unit j).acked = (s.d.unit j).acked) ∧ (t.unit j).state = (s.d.unit j).state ∧ (t.unit j).cmd = (s.d.unit j).cmd)) ∧
    (let i := passNow s.c s.d
     let y := unitSeen s.c i u x
     let sound : Prop := (trippedUnits s.c s.d).contains u = false ∧ unitLatched s.c s.d.frozen u = false
     let trip1 : Prop := heldFor y.trip1At (s.c.fF (unitA u 19) 0 16) s.d.ms = true
     let trip2 : Prop := heldFor y.trip2At (s.c.fF (unitA u 19) 16 16) s.d.ms = true
     let ploss : Prop := heldFor y.plossAt (s.c.fF (unitA u 3) 16 16) s.d.ms = true
     let sw := s.c.fF (unitA u 2) 16 16
     let tw := s.c.fF (unitA u 3) 0 16
     let spec := fun (k : Nat) (cause : Prop) (r : Host.Outcome State Fault Refusal) =>
       (s.c.unitEn u = false ∨ s.d.glb.st ≠ .run → r = .next s) ∧
       (s.c.unitEn u = true → s.d.glb.st = .run → s.c.unitKind u ≠ 6 → x.state ≤ 4 → ¬cause → r = .next s) ∧
       (s.c.unitEn u = true → s.d.glb.st = .run → s.c.unitKind u ≠ 6 → cause →
         ∃ t, r = .next { s with d := t } ∧ (t.unit u).state = 4 ∧ (t.unit u).cause = k ∧ (t.unit u).fresh = false ∧ (t.unit u).acked = false ∧ (t.unit u).isOpen = true ∧
           (t.unit u).newFault = true ∧ (t.unit u).cmd = x.cmd ∧ (t.unit u).enterMs = s.d.ms ∧ (s.d.flt.find (0xC000 + u) = none → ∃ r, t.flt.find (0xC000 + u) = some r ∧ r.code = 0xC05F + k ∧ r.sev = 2 ∧ r.acked = false) ∧
           (∀ m, m ≠ 0xC000 + u → m ≠ 0xD100 → t.flt.find m = s.d.flt.find m) ∧
           (∀ j, j ≠ u → t.unit j = s.d.unit j) ∧ Alike { t with seq := s.d.seq } s.d) ∧
       (s.c.unitEn u = true → s.d.glb.st = .run → s.c.unitKind u = 6 →
         r = .next s ∨ (x.state ≠ 4 ∧ ∃ t, r = .next { s with d := t } ∧ (t.unit u).state = 4 ∧ (t.unit u).cause = k))
     spec 1 (x.state = 1 ∧ sound ∧ ¬trip1 ∧ 0 < sw ∧ unitProof s.c i u = false ∧ x.enterMs + 100 * sw ≤ s.d.ms) (exec (.unitStartTimeout u) s) ∧
     spec 2 (x.state = 3 ∧ sound ∧ 0 < tw ∧ unitRest s.c i u = false ∧ x.enterMs + 100 * tw ≤ s.d.ms) (exec (.unitStopTimeout u) s) ∧
     spec 3 (x.state = 2 ∧ sound ∧ ¬trip1 ∧ ¬trip2 ∧ ploss) (exec (.unitProofLost u) s) ∧
     spec 4 ((x.state = 1 ∨ x.state = 2) ∧ sound ∧ trip1) (exec (.unitTrip1 u) s) ∧
     spec 5 (x.state = 2 ∧ sound ∧ ¬trip1 ∧ trip2) (exec (.unitTrip2 u) s))

/-- BACKFED, DRIVER_FAULT and OPEN_LOAD (R376, R378, R393): the first two latch the channel that owns the output and turn it off, each with its
ALARM record; an open load opens a WARN record and leaves the output on. -/
def Obligations.OutputLatches : Prop :=
  ∀ (k : Nat) (s : State), k < 64 → s.c.grpEn (k / 16) = true → s.c.isOut k = true → s.d.glb.st ≠ .dormant → s.d.pwr.resetFrom = none →
    (s.c.pairOdd k = false → (s.d.grp (k / 16)).line ≠ 2 → 3 ≤ (s.d.dch k).fedCnt → (s.d.dch k).latch = 0 →
      ∃ t, exec (.backfed k) s = .next { s with d := t } ∧ t.dch k = { s.d.dch k with latch := 2, phase := 0 } ∧
        (t.grp (k / 16)).applied.testBit (k % 16) = false ∧ Opened s.d t (0x8000 + k) 0x8069 2 0 0 false false ∧
        Alike t (reapply s.c (k / 16) (s.d.setDch k { s.d.dch k with latch := 2, phase := 0 }))) ∧
    (3 ≤ (s.d.dch k).drvCnt → (s.d.dch (s.c.owner k)).latch = 0 → (s.d.dch (s.c.owner k)).phase = 0 → (s.d.grp (k / 16)).cond = 2 →
      ∃ t, exec (.driverFault k) s = .next { s with d := t } ∧
        t.dch (s.c.owner k) = { s.d.dch (s.c.owner k) with latch := 3, phase := 0 } ∧
        (t.grp (k / 16)).applied.testBit (k % 16) = false ∧ Opened s.d t (0x8000 + s.c.owner k) 0x806A 2 0 0 false false ∧
        Alike t (reapply s.c (k / 16) (s.d.setDch (s.c.owner k) { s.d.dch (s.c.owner k) with latch := 3, phase := 0 }))) ∧
    (s.c.dioOpenChk k = true → (s.d.grp (k / 16)).applied.testBit (k % 16) = true → (s.d.dch k).load < 10 → (s.d.dch k).openLoad = false →
      ∃ t, exec (.openLoad k) s = .next { s with d := t } ∧ Alike t (s.d.setDch k { s.d.dch k with openLoad := true }) ∧
        (t.grp (k / 16)).applied = (s.d.grp (k / 16)).applied ∧ Opened s.d t (0x8000 + k) 0x806B 1 0 0 false false)

/-- OUTPUT_OVERLOAD, OVERLOAD_RETRY and OVERLOAD_RECOVERED (R377, R384), on the channel that owns the output: an overload turns the output off and counts a
retry with a WARN record, the fourth latches it with an ALARM record; a retry turns it on, or waits for the restore of its group; recovery ends the
sequence and closes the record. -/
def Obligations.OutputOverload : Prop :=
  ∀ (k : Nat) (s : State), k < 64 →
    let o := s.c.owner k
    (s.c.grpEn (k / 16) = true → s.c.isOut k = true → s.d.glb.st ≠ .dormant → s.d.pwr.resetFrom = none → (s.d.grp (k / 16)).applied.testBit (k % 16) = true →
      (s.d.dch o).retries < 3 →
      ∃ t, exec (.outputOverload k) s = .next { s with d := t } ∧
        t.dch o = { s.d.dch o with phase := 1, retries := (s.d.dch o).retries + 1 } ∧
        (t.grp (k / 16)).applied.testBit (k % 16) = false ∧ Opened s.d t (0x8000 + o) 0x8067 1 0 0 false false ∧
        Alike t (reapply s.c (k / 16) (s.d.setDch o { s.d.dch o with phase := 1, retries := (s.d.dch o).retries + 1 }))) ∧
    (s.c.grpEn (k / 16) = true → s.c.isOut k = true → s.d.glb.st ≠ .dormant → s.d.pwr.resetFrom = none → (s.d.grp (k / 16)).applied.testBit (k % 16) = true →
      3 ≤ (s.d.dch o).retries →
      ∃ t, exec (.outputOverload k) s = .next { s with d := t } ∧ t.dch o = { s.d.dch o with latch := 1, phase := 0 } ∧
        (t.grp (k / 16)).applied.testBit (k % 16) = false ∧ Opened s.d t (0x8000 + o) 0x8068 2 0 0 false false ∧
        Alike t (reapply s.c (k / 16) (s.d.setDch o { s.d.dch o with latch := 1, phase := 0 }))) ∧
    ((s.d.dch o).phase = 1 → (s.d.grp (k / 16)).latch = 0 →
      exec (.overloadRetry k) s = .next { s with d := reapply s.c (k / 16) (s.d.setDch o { s.d.dch o with phase := 2 }) }) ∧
    ((s.d.dch o).phase = 1 → (s.d.grp (k / 16)).latch ≠ 0 →
      exec (.overloadRetry k) s = .next { s with d := s.d.setDch o { s.d.dch o with phase := 4 } }) ∧
    ((s.d.dch o).phase = 2 ∨ (s.d.dch o).phase = 3 →
      ∃ t, exec (.overloadRecovered k) s = .next { s with d := t } ∧ t.dch o = { s.d.dch o with phase := 0, retries := 0 } ∧
        Closed s.d t (0x8000 + o) [0x8067] ∧
        Alike t (reapply s.c (k / 16) (s.d.setDch o { s.d.dch o with phase := 0, retries := 0 })))

/-- DIO_CCMD.CLEAR and ZERO, and DIO_GCMD (R377, R379, R384, R390): CLEAR ends the latch of the channel that owns the output and closes its record, ZERO
clears a counter, CLR_MIN takes NOW into MIN, RESTORE ends the CUT and GROUP latches of a restorable group and lets the retries that waited for it run.
A RESTORE that comes too early and a ZERO of no counter set RESULT alone. -/
def Obligations.FieldClears : Prop :=
  ∀ (k g : Nat) (s : State), k < 64 → g < 4 →
    let o := s.c.owner k
    (HostRuns (0x20020C + k / 16 * 0x1000 + k % 16 * 0x10) false s →
      ((s.d.dch o).latch ≠ 0 →
        ∃ t, exec (.dioChannelClear k) s = .next { s with d := t } ∧ Closed s.d t (0x8000 + o) [0x8068, 0x8069, 0x806A] ∧
          t.dch o = { s.d.dch o with latch := 0, retries := 0, fedCnt := 0, drvCnt := 0, cmdResult := if o = k then 0 else (s.d.dch o).cmdResult } ∧
          (o ≠ k → t.dch k = { s.d.dch k with cmdResult := 0 }) ∧
          (∀ j, j ≠ k → j ≠ o → t.dch j = s.d.dch j) ∧ (∀ h, t.grp h = s.d.grp h) ∧ Alike { t with fld := s.d.fld } s.d) ∧
      ((s.d.dch o).latch = 0 → exec (.dioChannelClear k) s = .next { s with d := s.d.setDch k { s.d.dch k with cmdResult := 0 } }) ∧
      (s.c.dioMode k = 2 → exec (.zero k) s = .next { s with d := s.d.setDch k { s.d.dch k with count := 0, cmdResult := 0 } }) ∧
      (s.c.dioMode k ≠ 2 → exec (.zero k) s = .next { s with d := s.d.setDch k { s.d.dch k with cmdResult := 0x800D } })) ∧
    (HostRuns (grpA g + 0xC) false s →
      (∃ t, exec (.dioGroupClear g) s = .next { s with d := t } ∧ (t.grp g).cmdResult = 0 ∧
        (∀ j, j / 16 = g → s.c.owner j = j → (t.dch j).latch = 0) ∧ (∀ j, j / 16 ≠ g → t.dch j = s.d.dch j) ∧
        Alike { t with fld := s.d.fld } s.d) ∧
      exec (.dioClrMin g) s = .next { s with d := s.d.setGrp g { s.d.grp g with min := (s.d.grp g).now, cmdResult := 0 } } ∧
      ((s.d.grp g).restorable = true →
        ∃ t, exec (.dioRestore g) s = .next { s with d := t } ∧ Closed s.d t (grpSrc g) [grpCode g 4] ∧
          t.grp g = { s.d.grp g with latch := 0, restorable := false, cond := if (s.d.grp g).cond = 4 then 2 else (s.d.grp g).cond, cmdResult := 0 } ∧
          (∀ h, h ≠ g → t.grp h = s.d.grp h) ∧
          (∀ j, t.dch j = if j / 16 = g ∧ (s.d.dch j).phase = 4 then { s.d.dch j with phase := 2 } else s.d.dch j) ∧ Alike { t with fld := s.d.fld } s.d) ∧
      ((s.d.grp g).restorable = false →
        exec (.dioRestore g) s = .next { s with d := s.d.setGrp g { s.d.grp g with cmdResult := 0x8045 } }))

/-- MOV_CCMD.CLEAR and MOV_GCMD (R384, R405, R415): CLEAR takes a latched fan channel to OFF and closes its record, and of a group, every
channel; CLR_MIN and RESTORE act as on a digital group, with 0x9044 for a RESTORE that comes too early. -/
def Obligations.MoverClears : Prop :=
  ∀ (n m : Nat) (s : State), n < 32 → m < 2 →
    (HostRuns (0x220058 + 0x100 * n) false s → (s.d.mch n).state = 6 →
      ∃ t, exec (.movClear n) s = .next { s with d := t } ∧ (t.mch n).state = 1 ∧ (t.mch n).latch = 0 ∧ (t.mch n).retry = 0 ∧
        (t.mch n).cmdResult = 0 ∧ Closed s.d t (0x9000 + n) [0x9061, 0x9062] ∧
        (∀ j, j / 16 ≠ n / 16 → t.mch j = s.d.mch j) ∧ (∀ j, j ≠ n → (t.mch j).state = (s.d.mch j).state) ∧
        (∀ g, t.grp g = s.d.grp g) ∧ Alike { t with fld := s.d.fld } s.d) ∧
    (HostRuns (0x220058 + 0x100 * n) false s → (s.d.mch n).state ≠ 6 →
      exec (.movClear n) s = .next { s with d := reapplyMov s.c (n / 16) (s.d.setMch n { s.d.mch n with cmdResult := 0 }) }) ∧
    (HostRuns (grpA (4 + m) + 0xC) false s →
      ∃ t, exec (.movGroupClear m) s = .next { s with d := t } ∧ (t.grp (4 + m)).cmdResult = 0 ∧
        (∀ j, j / 16 = m → (t.mch j).state ≠ 6) ∧ (∀ j, j / 16 ≠ m → t.mch j = s.d.mch j) ∧ (∀ k, t.dch k = s.d.dch k) ∧
        Alike { t with fld := s.d.fld } s.d) ∧
    (HostRuns (grpA (4 + m) + 0xC) false s →
      exec (.movClrMin m) s = .next { s with d := s.d.setGrp (4 + m) { s.d.grp (4 + m) with min := (s.d.grp (4 + m)).now, cmdResult := 0 } }) ∧
    (HostRuns (grpA (4 + m) + 0xC) false s → (s.d.grp (4 + m)).restorable = true →
      ∃ t, exec (.movRestore m) s = .next { s with d := t } ∧ Closed s.d t (grpSrc (4 + m)) [grpCode (4 + m) 4] ∧
        t.grp (4 + m) = { s.d.grp (4 + m) with latch := 0, restorable := false, cond := if (s.d.grp (4 + m)).cond = 4 then 2 else (s.d.grp (4 + m)).cond, cmdResult := 0 } ∧
        (∀ h, h ≠ 4 + m → t.grp h = s.d.grp h) ∧ (∀ j, t.mch j = s.d.mch j) ∧ Alike { t with fld := s.d.fld } s.d) ∧
    (HostRuns (grpA (4 + m) + 0xC) false s → (s.d.grp (4 + m)).restorable = false →
      exec (.movRestore m) s = .next { s with d := s.d.setGrp (4 + m) { s.d.grp (4 + m) with cmdResult := 0x9044 } })

/-- INPUT_SAMPLE, DEBOUNCED_CHANGE and INPUT_BREAK (R369 to R373, R393): a sample that agrees with its run lengthens it and any other starts one
at the present network time; a run of the debounce length gives the input its level, with DIO_CHANGE where CHG selects the change, and on a STANDBY only
its own state; a break makes the input invalid, discards the run and opens an ALARM record, and ends no sooner than 50 ms later. -/
def Obligations.InputSampling : Prop :=
  ∀ (g k levels : Nat) (s : State), g < 4 → k < 64 →
    (s.c.grpEn g = true → (s.d.grp g).cond ≠ 5 → (s.d.grp g).cond ≠ 6 →
      ∃ t, exec (.inputSample g levels) s = .next { s with d := t } ∧ (t.grp g).raw = levels % 65536 ∧
        (∀ j, j / 16 = g → (s.d.dch j).run ≠ 0 → levels.testBit (j % 16) = (s.d.dch j).cand →
          t.dch j = { s.d.dch j with run := min ((s.d.dch j).run + 1) 65535 }) ∧
        (∀ j, j / 16 = g → ((s.d.dch j).run = 0 ∨ levels.testBit (j % 16) ≠ (s.d.dch j).cand) →
          t.dch j = { s.d.dch j with cand := levels.testBit (j % 16), run := 1, stamp := s.d.tim.net, stampEp := s.d.tim.epoch }) ∧
        (∀ j, j / 16 ≠ g → t.dch j = s.d.dch j) ∧ t = { s.d with fld := t.fld }) ∧
    (s.c.isIn k = true → s.c.grpEn (k / 16) = true → s.d.standby = false → s.c.debNeed k ≤ (s.d.dch k).run → dioCause s.d k ≠ 3 →
      ((s.d.dch k).brk = true → (s.d.dch k).brkAt + 50 ≤ s.d.ms) →
      ((s.d.dch k).hasState = false ∨ (s.d.dch k).brk = true ∨ (s.d.dch k).cand ≠ (s.d.dch k).level) →
      ∃ t, exec (.debouncedChange k) s = .next { s with d := t } ∧
        t.dch k = { s.d.dch k with own := (s.d.dch k).cand, hasOwn := true, level := (s.d.dch k).cand, hasState := true, brk := false } ∧
        (∀ j, j ≠ k → t.dch j = s.d.dch j) ∧ (s.d.openCode (0x8000 + k) [0x806C] = true → t.flt.find (0x8000 + k) = none) ∧
        (s.c.dioGuard k = false → (s.d.dch k).hasState = true → (s.d.dch k).level = false → (s.d.dch k).cand = true →
          s.d.glb.st = .run → s.c.dioChg k % 2 = 1 → s.d.flt.events.length < 256 →
          ∃ e ∈ t.flt.events, e.r.code = 0x806F ∧ e.r.source = 0x8000 + k ∧ e.r.sev = 0 ∧ e.r.a = 1 ∧ e.r.first = (s.d.dch k).stamp) ∧
        Alike { t with fld := s.d.fld, grd := s.d.grd } s.d) ∧
    (s.c.isIn k = true → s.c.grpEn (k / 16) = true → s.d.standby = true → s.c.debNeed k ≤ (s.d.dch k).run → dioCause s.d k ≠ 3 →
      ((s.d.dch k).brk = true → (s.d.dch k).brkAt + 50 ≤ s.d.ms) →
      ∃ t, exec (.debouncedChange k) s = .next { s with d := t } ∧ t.dch k = { s.d.dch k with own := (s.d.dch k).cand, hasOwn := true } ∧
        (∀ j, j ≠ k → t.dch j = s.d.dch j) ∧ ((s.d.dch k).cand = (s.d.dch k).level → Closed s.d t (0x8000 + k) [0x806D]) ∧
        ((s.d.dch k).cand ≠ (s.d.dch k).level → t.flt = s.d.flt)) ∧
    (s.c.isIn k = true → s.c.grpEn (k / 16) = true → s.c.bF (dioA k 0) 2 = true → (s.d.dch k).brk = true →
      exec (.inputBreak k) s = .next { s with d := s.d.setDch k { s.d.dch k with brkAt := s.d.ms, run := 0, hasOwn := false } }) ∧
    (s.c.isIn k = true → s.c.grpEn (k / 16) = true → s.c.bF (dioA k 0) 2 = true → s.d.glb.st ≠ .dormant → s.d.pwr.resetFrom = none → (s.d.dch k).brk = false →
      ∃ t, exec (.inputBreak k) s = .next { s with d := t } ∧ t.dch k = { s.d.dch k with brk := true, brkAt := s.d.ms, run := 0, hasOwn := false } ∧
        (∀ j, j ≠ k → t.dch j = s.d.dch j) ∧
        (s.d.flt.find (0x8000 + k) = none → t.flt.find (0x8000 + k) = some (s.d.newRec (0x8000 + k) 0x806C 2 0 0 false false)) ∧
        Alike { t with fld := s.d.fld, grd := s.d.grd } s.d)

/-- DIO_GOUTSET and DIO_GOUTCLR (R375): a channel of MODE 3 that no unit names takes the host's level; bits of other channels only count in
REFUSED. -/
def Obligations.HostOutputs : Prop :=
  ∀ (g : Nat) (v : Word) (s : State), g < 4 →
    (HostRuns (grpA g + 0x18) false s →
      ∃ t, exec (.dioGoutset g v) s = .next { s with d := t } ∧
        (∀ k, k / 16 = g → bit v (k % 16) = true → s.c.dioMode k = 3 → unitNamed s.c s.d k = false → t.dch k = { s.d.dch k with host := true }) ∧
        (∀ k, (k / 16 ≠ g ∨ bit v (k % 16) = false ∨ s.c.dioMode k ≠ 3 ∨ unitNamed s.c s.d k = true) → t.dch k = s.d.dch k) ∧
        (v = 0 → t.grp g = s.d.grp g) ∧ (∀ h, h ≠ g → t.grp h = s.d.grp h) ∧ Alike { t with fld := s.d.fld, arc := s.d.arc } s.d) ∧
    (HostRuns (grpA g + 0x1C) false s →
      ∃ t, exec (.dioGoutclr g v) s = .next { s with d := t } ∧
        (∀ k, k / 16 = g → bit v (k % 16) = true → s.c.dioMode k = 3 → unitNamed s.c s.d k = false → t.dch k = { s.d.dch k with host := false }) ∧
        (∀ k, (k / 16 ≠ g ∨ bit v (k % 16) = false ∨ s.c.dioMode k ≠ 3 ∨ unitNamed s.c s.d k = true) → t.dch k = s.d.dch k) ∧
        (v = 0 → t.grp g = s.d.grp g) ∧ (∀ h, h ≠ g → t.grp h = s.d.grp h) ∧ Alike { t with fld := s.d.fld, arc := s.d.arc } s.d)

/-- OUTPUT_OPEN and OUTPUT_SHORT (R399), PARTNER_DRIVE_MISMATCH (R409), PARTNER_OUTPUT_MISMATCH and LISTEN_INPUT_MISMATCH (R386): each opens its
record on the channel; the mismatches are a STANDBY's. -/
def Obligations.ChannelWarnings : Prop :=
  ∀ (n k : Nat) (s : State), n < 32 → k < 64 →
    (s.c.movEn n = true → s.c.movKind n = 3 → (s.d.mch n).outBad ≠ 1 →
      ∃ t, exec (.outputOpen n) s = .next { s with d := t } ∧ Alike t (s.d.setMch n { s.d.mch n with outBad := 1, outAt := s.d.ms }) ∧
        Opened s.d t (0x9000 + n) 0x9065 2 0 0 false false) ∧
    (s.c.movEn n = true → s.c.movKind n = 1 ∨ s.c.movKind n = 2 → (s.d.mch n).outBad ≠ 2 →
      ∃ t, exec (.outputShort n) s = .next { s with d := t } ∧ Alike t (s.d.setMch n { s.d.mch n with outBad := 2, outAt := s.d.ms }) ∧
        Opened s.d t (0x9000 + n) 0x9066 2 0 0 false false) ∧
    (s.d.standby = true → s.c.movEn n = true → s.c.movKind n = 1 ∨ s.c.movKind n = 2 → (s.d.mch n).misAt = none →
      ∃ t, exec (.partnerDriveMismatch n) s = .next { s with d := t } ∧ Alike t (s.d.setMch n { s.d.mch n with misAt := some s.d.ms }) ∧
        Opened s.d t (0x9000 + n) 0x906F 1 0 0 false false) ∧
    (s.d.standby = true → s.c.isOut k = true → 3 ≤ (s.d.dch k).misCnt → s.d.openCode (0x8000 + k) [0x806E] = false →
      ∃ t, exec (.partnerOutputMismatch k) s = .next { s with d := t } ∧ Alike t s.d ∧ Opened s.d t (0x8000 + k) 0x806E 1 0 0 false false) ∧
    (s.d.standby = true → s.c.isIn k = true → (s.d.dch k).own ≠ (s.d.dch k).level → s.d.openCode (0x8000 + k) [0x806D] = false →
      ∃ t, exec (.listenInputMismatch k) s = .next { s with d := t } ∧ Alike t s.d ∧ Opened s.d t (0x8000 + k) 0x806D 1 0 0 false false)

/-- TACH_EDGE (R402) and the windows of R405: a start that ends with the speed unproven and no evidence pauses with STALL_START while retries are
left, and latches with START_FAILED without; a pause ends in the next start; a fan that runs and loses its speed without evidence latches with STALL_RUN. -/
def Obligations.FanSupervision : Prop :=
  ∀ (n stamp : Nat) (s : State), n < 32 → s.c.movEn n = true → s.c.movPlain n = false → s.d.standby = false →
    exec (.tachEdge n stamp) s = .next { s with d := s.d.setMch n { s.d.mch n with stamps := (s.d.mch n).stamps ++ [stamp], lastEdge := some stamp } } ∧
    (s.d.glb.st = .run ∨ s.d.glb.st = .scan → runRequest s.c s.d n = true → MChan.frozen s.c s.d n = false →
      ((s.d.mch n).state = 2 → (s.d.mch n).since + 1000 * s.c.movSpinup n ≤ s.d.ms → (s.d.mch n).speedOk = false → (s.d.mch n).evid = false →
        (s.d.mch n).retry < s.c.movRetries n →
        ∃ t, exec (.spinupTimeout n) s = .next { s with d := t } ∧ (t.mch n).state = 5 ∧ (t.mch n).since = s.d.ms ∧ (t.mch n).retry = (s.d.mch n).retry ∧
          (t.mch n).stalls = satInc 16 (s.d.mch n).stalls ∧ Opened s.d t (0x9000 + n) 0x9060 1 0 0 false false ∧
          (∀ j, j ≠ n → t.mch j = s.d.mch j) ∧ (∀ g, t.grp g = s.d.grp g) ∧ Alike { t with fld := s.d.fld } s.d) ∧
      ((s.d.mch n).state = 2 → (s.d.mch n).since + 1000 * s.c.movSpinup n ≤ s.d.ms → (s.d.mch n).speedOk = false → (s.d.mch n).evid = false →
        s.c.movRetries n ≤ (s.d.mch n).retry →
        ∃ t, exec (.spinupTimeout n) s = .next { s with d := t } ∧ (t.mch n).state = 6 ∧ (t.mch n).latch = 1 ∧
          Opened s.d t (0x9000 + n) 0x9061 2 0 0 false false ∧
          (∀ j, j ≠ n → t.mch j = s.d.mch j) ∧ (∀ g, t.grp g = s.d.grp g) ∧ Alike { t with fld := s.d.fld } s.d) ∧
      ((s.d.mch n).state = 5 → (s.d.mch n).since + 1000 * s.c.movPause n ≤ s.d.ms →
        ∃ t, exec (.pauseTimeout n) s = .next { s with d := t } ∧ (t.mch n).state = 2 ∧ (t.mch n).retry = (s.d.mch n).retry + 1 ∧
          (t.mch n).starts = satInc 16 (s.d.mch n).starts ∧
          (∀ j, j ≠ n → t.mch j = s.d.mch j) ∧ t = { s.d with fld := t.fld }) ∧
      ((s.d.mch n).state = 3 → (s.d.mch n).openIn = true → (s.d.mch n).evid = false →
        ∃ t, exec (.lowSpeedTimeout n) s = .next { s with d := t } ∧ (t.mch n).state = 6 ∧ (t.mch n).latch = 2 ∧
          Opened s.d t (0x9000 + n) 0x9062 3 0 0 false false ∧
          (∀ j, j ≠ n → t.mch j = s.d.mch j) ∧ (∀ g, t.grp g = s.d.grp g) ∧ Alike { t with fld := s.d.fld } s.d))

/-- FIELD_CUT and GROUP_RECORD_CLOSE (R383, R384, R393, R416): the cut latches the group with cause CUT, its outputs are off at once and a
TRIP record opens on the group; the records of the supply close once the group is restored and stands at 19.6 V. -/
def Obligations.FieldSupplyLoss : Prop :=
  ∀ (g : Nat) (s : State), g < 6 →
    (s.c.grpEn g = true → s.d.glb.st ≠ .dormant → (s.d.grp g).cond ≠ 4 → (s.d.grp g).latch ≠ 5 → (s.d.grp g).cond ≠ 5 → (s.d.grp g).cond ≠ 6 →
      ∃ t, exec (.fieldCut g) s = .next { s with d := t } ∧
        (t.grp g).cond = 4 ∧ (t.grp g).latch = 4 ∧ (t.grp g).cfOk = false ∧ (t.grp g).restorable = false ∧
        (g < 4 → (t.grp g).applied = 0) ∧ (∀ n, n < 32 → 4 + n / 16 = g → (t.mch n).e = 0) ∧
        (s.d.pwr.resetFrom = none → Opened s.d t (grpSrc g) (grpCode g 2) 3 0 0 false false) ∧
        Alike t (reapplyG s.c g (s.d.setGrp g { s.d.grp g with cond := 4, latch := 4, cfOk := false, restorable := false }))) ∧
    (s.c.grpEn g = true → (s.d.grp g).cond ≠ 5 → (s.d.grp g).cond ≠ 6 → (s.d.grp g).latch ≠ 0 → (s.d.grp g).cfOk = true → (s.d.grp g).badRun = 0 →
      1800 ≤ (s.d.grp g).now →
      exec (.groupRestorable g) s = .next { s with d := s.d.setGrp g { s.d.grp g with restorable := true } }) ∧
    ((s.d.grp g).latch = 0 → 1960 ≤ (s.d.grp g).now →
      ∃ t, exec (.groupRecordClose g) s = .next { s with d := t } ∧ Alike t s.d ∧
        Closed s.d t (grpSrc g) [grpCode g 0, grpCode g 1, grpCode g 2, grpCode g 3])

/-- FIELD_SUPPLY_SAMPLE (R383): the mean of the last four samples sets NOW, MIN and, between 16.0 V and 19.2 V, FIELD_LOW on a group that is
neither low nor cut; below 12.0 V the group is cut. -/
def Obligations.FieldSupplySample : Prop :=
  ∀ (g mv : Nat) (s : State), g < 6 → s.c.grpEn g = true → s.d.glb.st ≠ .dormant → (s.d.grp g).cond = 2 → (s.d.grp g).latch = 0 →
    let ss := ((s.d.grp g).samples ++ [mv]).drop (((s.d.grp g).samples.length + 1) - 4)
    let mean := ss.foldl (· + ·) 0 / ss.length
    ∃ t, exec (.fieldSupplySample g mv) s = .next { s with d := t } ∧
      (t.grp g).samples = ss ∧ (t.grp g).now = min (mean / 10) 4095 ∧ (t.grp g).min = min (s.d.grp g).min (min (mean / 10) 4095) ∧
      (16000 ≤ mean → (t.grp g).cond = 2 ∧ (t.grp g).latch = 0) ∧
      (16000 ≤ mean → mean < 19200 → (s.d.grp g).low = false → s.d.pwr.resetFrom = none → Opened s.d t (grpSrc g) (grpCode g 0) 1 0 0 false false) ∧
      (mean < 16000 → 12000 ≤ mean → (t.grp g).cond = 3) ∧
      (mean < 12000 → (t.grp g).cond = 4 ∧ (t.grp g).latch = 4) ∧
      (∀ h, h ≠ g → t.grp h = s.d.grp h) ∧ (∀ k, t.dch k = s.d.dch k) ∧ Alike { t with fld := s.d.fld } s.d

/-- STATUS_FRAMES_BAD, GROUP_MISSING and STATUS_RECOVERED (R385): after three failed records, and for a missing group, the outputs
are off with cause GROUP, a TRIP record opens on the group and its digital inputs have no state; 1,000 valid records end the state. -/
def Obligations.StatusRecordsOfAGroup : Prop :=
  ∀ (g : Nat) (s : State), g < 6 →
    (s.c.grpEn g = true → s.d.pwr.resetFrom = none → s.d.glb.st ≠ .dormant → 3 ≤ (s.d.grp g).badRun → (s.d.grp g).cond ≠ 5 → (s.d.grp g).cond ≠ 6 →
      ∃ t, exec (.statusFramesBad g) s = .next { s with d := t } ∧ (t.grp g).cond = 5 ∧ (t.grp g).latch = 5 ∧
        (t.grp g).badCnt = satInc 8 (s.d.grp g).badCnt ∧ (g < 4 → (t.grp g).applied = 0) ∧ (∀ n, n < 32 → 4 + n / 16 = g → (t.mch n).e = 0) ∧
        (∀ k, k / 16 = g → k < 64 → (t.dch k).hasState = false ∧ (t.dch k).run = 0 ∧ (t.dch k).level = (s.d.dch k).level) ∧
        (s.d.flt.find (grpSrc g) = none → ∃ r, t.flt.find (grpSrc g) = some r ∧ r.code = grpCode g 4 ∧ r.sev = 3 ∧ r.occ = 1) ∧
        (∀ h, h ≠ g → t.grp h = s.d.grp h) ∧ (∀ k, k / 16 ≠ g → t.dch k = s.d.dch k) ∧
        Alike { t with fld := s.d.fld, grd := s.d.grd } s.d) ∧
    (s.c.grpEn g = true → s.d.pwr.resetFrom = none → s.d.glb.st ≠ .dormant → (s.d.grp g).cond ≠ 6 →
      ∃ t, exec (.groupMissing g) s = .next { s with d := t } ∧ (t.grp g).cond = 6 ∧ (t.grp g).latch = 5 ∧ (t.grp g).cfOk = false ∧
        (t.grp g).badCnt = (s.d.grp g).badCnt ∧ (g < 4 → (t.grp g).applied = 0) ∧ (∀ n, n < 32 → 4 + n / 16 = g → (t.mch n).e = 0) ∧
        (∀ k, k / 16 = g → k < 64 → (t.dch k).hasState = false) ∧
        (s.d.flt.find (grpSrc g) = none → ∃ r, t.flt.find (grpSrc g) = some r ∧ r.code = grpCode g 3 ∧ r.sev = 3) ∧
        (∀ h, h ≠ g → t.grp h = s.d.grp h) ∧ (∀ k, k / 16 ≠ g → t.dch k = s.d.dch k) ∧
        Alike { t with fld := s.d.fld, grd := s.d.grd } s.d) ∧
    ((s.d.grp g).cond = 5 → 1000 ≤ (s.d.grp g).goodRun →
      exec (.statusRecovered g) s = .next { s with d := s.d.setGrp g { s.d.grp g with cond := 2 } })

/-- COMMON_FAULT_LINE, HOLD_EXPIRY, FIELD_WATCHDOG_EXPIRY and LEASE_EXPIRY (R366, R382, R380, R410, R554): each marks its group and the die drives its
outputs anew; BOOT and FENCE turn every output off, and the
lease parks the drives of the channels that are not latched. -/
def Obligations.CommonFaultAndDieTimers : Prop :=
  ∀ (g line : Nat) (s : State), g < 6 →
    (∃ t, exec (.commonFaultLine g line) s = .next { s with d := t } ∧ (t.grp g).line = line % 4 ∧
      (line % 4 = 1 ∨ line % 4 = 2 → (g < 4 → (t.grp g).applied = 0) ∧ (∀ n, n < 32 → 4 + n / 16 = g → (t.mch n).e = 0)) ∧
      (line % 4 ≠ 2 → Alike t (reapplyG s.c g (s.d.setGrp g { s.d.grp g with line := line % 4 }))) ∧
      (∀ h, h ≠ g → t.grp h = s.d.grp h) ∧ Alike { t with fld := s.d.fld } s.d) ∧
    ((s.d.grp g).holding = true → (s.d.grp g).holdExp = false →
      ∃ t, exec (.holdExpiry g) s = .next { s with d := t } ∧ (t.grp g).holdExp = true ∧
        (s.d.pwr.resetFrom = none → s.d.glb.st ≠ .dormant → Opened s.d t (grpSrc g) (grpCode g 6) 1 0 0 true true) ∧
        (s.d.pwr.resetFrom = none → s.d.glb.st = .dormant → t.flt = s.d.flt ∧ t.fld.late = s.d.fld.late ++ [(grpSrc g, grpCode g 6, 1)]) ∧
        (∀ h, h ≠ g → t.grp h = s.d.grp h) ∧ (∀ k, t.dch k = s.d.dch k) ∧ Alike { t with fld := s.d.fld } s.d) ∧
    (s.c.grpEn g = true → (s.d.grp g).line ≠ 1 → (s.d.grp g).holding = false →
      ∃ t, exec (.fieldWatchdogExpiry g) s = .next { s with d := t } ∧
        t = reapplyG s.c g (s.d.setGrp g { s.d.grp g with wdExp := true })) ∧
    (∀ m, m < 2 → s.d.glb.role = .active →
      ∃ t, exec (.leaseExpiry m) s = .next { s with d := t } ∧ (t.grp (4 + m)).lease = true ∧
        (∀ n, n < 32 → n / 16 = m → (s.d.mch n).state ≠ 6 → (t.mch n).e = 0 ∧
          (s.c.movEn n = true → (s.d.grp (4 + m)).line ≠ 1 → (s.d.grp (4 + m)).latch = 0 → (t.mch n).parked = true)) ∧
        Alike t (reapplyMov s.c m (s.d.setGrp (4 + m) { s.d.grp (4 + m) with lease := true })))

/-- FORWARD_FRAME_SET and RETURN_FRAME_SET (R364, R365, R374, R380, R422): while the module sends and the line is in order, the die of the group holds what is
commanded, with the guard's trip bits, and drives it; a return set with a good status record counts toward recovery and brings levels, readbacks, load
currents and counter edges, and one that fails its check counts as bad. While the line is held or the module sends nothing, nothing changes. -/
def Obligations.FieldFrames : Prop :=
  ∀ (g : Nat) (r : ReturnSet) (s : State),
    (s.d.sends = false ∨ (s.d.grp g).line ≠ 0 ∨ 6 ≤ g → exec (.forwardFrameSet g) s = .next s) ∧
    (g < 4 → s.d.sends = true → (s.d.grp g).line = 0 →
      ∃ t u, exec (.forwardFrameSet g) s = .next t ∧ t.d = reapply t.c g u ∧ t.c.fx = s.c.fx ∧ t.c.img = s.c.img ∧ t.c.reg.w = s.c.reg.w ∧
        (u.grp g).held = (s.d.grp g).cmd ∧ (u.grp g).holding = false ∧ (u.grp g).holdExp = false ∧ (u.grp g).wdExp = false ∧
        (u.grp g).trip = bits16 g (fun k => rank3Do t.c s.d k (t.c.pairOdd k)) ∧ (∀ h, h ≠ g → u.grp h = s.d.grp h) ∧ (∀ n, u.mch n = s.d.mch n) ∧
        Alike { u with fld := s.d.fld } s.d) ∧
    (4 ≤ g → g < 6 → s.d.sends = true → (s.d.grp g).line = 0 →
      ∃ u, exec (.forwardFrameSet g) s = .next { s with d := reapplyMov s.c (g - 4) u } ∧
        (u.grp g).holding = false ∧ (u.grp g).holdExp = false ∧ (u.grp g).wdExp = false ∧ (∀ h, h ≠ g → u.grp h = s.d.grp h) ∧
        (∀ n, u.mch n = if n / 16 = g - 4 ∧ s.c.movEn n = true then { s.d.mch n with held := (s.d.mch n).eCmd, trip := rank3Mv s.c s.d n } else s.d.mch n) ∧
        (∀ k, u.dch k = s.d.dch k) ∧ Alike { u with fld := s.d.fld } s.d) ∧
    (s.c.grpEn g = false ∨ 6 ≤ g → exec (.returnFrameSet g r) s = .next s) ∧
    (g < 6 → s.c.grpEn g = true →
      ∃ t, exec (.returnFrameSet g r) s = .next { s with d := t } ∧ Alike { t with fld := s.d.fld } s.d ∧ (∀ h, h ≠ g → t.grp h = s.d.grp h) ∧
        (r.valid = true → (t.grp g).badRun = 0 ∧ (t.grp g).goodRun = (s.d.grp g).goodRun + 1) ∧
        (r.valid = false → (t.grp g).badRun = (s.d.grp g).badRun + 1 ∧ (t.grp g).goodRun = 0) ∧
        (t.grp g).cond = (if r.valid = true ∧ (s.d.grp g).cond = 6 then 2 else (s.d.grp g).cond) ∧
        (g < 4 → (t.grp g).cond ≠ 5 → (t.grp g).cond ≠ 6 → (t.grp g).raw = r.levels % 65536 ∧ (t.grp g).rb = r.readback % 65536 ∧
          ∀ i, i < 16 → (t.dch (16 * g + i)).load = nth 0 r.load i % 4096 ∧
            (s.d.standby = false → s.c.dioMode (16 * g + i) = 2 → (t.dch (16 * g + i)).count = ((s.d.dch (16 * g + i)).count + nth 0 r.edges i) % 2 ^ 32) ∧
            (s.d.standby = true ∨ s.c.dioMode (16 * g + i) ≠ 2 → (t.dch (16 * g + i)).count % 2 ^ 32 = (s.d.dch (16 * g + i)).count % 2 ^ 32)) ∧
        (4 ≤ g → s.d.standby = false → ∀ i, i < 16 → s.c.movEn (16 * (g - 4) + i) = true → s.c.movPlain (16 * (g - 4) + i) = false →
          (t.mch (16 * (g - 4) + i)).openIn = r.levels.testBit i))

/-- FRAME_BOUNDARY and LOOP_DEADLINE (R33, R35, R37, R83, R278, R295, R431): in BOOT a boundary is a millisecond of device time; a sleeping or reset logic side has
none. In RUN, SAFE and SCAN the frame is the clock, the transitions, the outputs and the input snapshot, the work and the end, in the order of R35: with no loop
left over, outside a STANDBY, the words written in the last frame stand as written and the device time goes to the next whole millisecond; the snapshot holds the
results, cells, columns, field channels, loops, generators and overrides as they stand then; the frame ends with HEALTHY as R431 gives it. At the deadline, for
every number of due loops that have executed, the rest keep u, I and their history, count the miss, show MISSED and fall back at the third in AUTO or TRACK; the
frame ends at 820 us. The bound on the increment is far above every increment that R47 and R49 allow. -/
def Obligations.FramesAndDeadline : Prop :=
  ∀ (e : FrameEnv) (s : State),
    (s.d.pwr.resetFrom.isSome = true ∨ s.d.glb.st = .dormant → exec (.frameBoundary e) s = .next s) ∧
    (s.d.pwr.resetFrom = none → s.d.glb.st = .boot → exec (.frameBoundary e) s = .next { s with d := s.d.nextFrame s.c }) ∧
    (tickInc s.c s.d ≤ 2 ^ 37 → s.d.tim.acc < 2 ^ 79 → (s.d.nextFrame s.c).ms = s.d.ms + 1) ∧
    (s.d.pwr.resetFrom = none → s.d.glb.st ≠ .boot → s.d.glb.st ≠ .dormant →
      ∃ t a b, exec (.frameBoundary e) s = .next t ∧ a = frameClock s ∧ b = frameInputs e (transitions (pairBoundary a)) ∧ t = frameEnds (frameWork e b) ∧
        (s.d.ctl.due = [] → s.d.standby = false → a = { s with c := { s.c with reg := s.c.reg.settle }, d := frameTime s.c s.d } ∧
          (s.d.pair.sealed_ = false → s.d.pwr.firstAt = none → tickInc s.c s.d ≤ 2 ^ 37 → s.d.tim.acc < 2 ^ 79 → a.d.ms = s.d.ms + 1)) ∧
        (b.d.snap.cnv = b.d.cnv ∧ b.d.snap.cells = b.d.mst.cells ∧ b.d.snap.cols = b.d.cols ∧ b.d.snap.fld = b.d.fld ∧ b.d.snap.loops = b.d.ctl.loops ∧
          b.d.snap.gens = b.d.ctl.gens ∧ b.d.snap.ovrs = b.d.ctl.ovrs) ∧
        t.d.flt.healthy = healthyNow t.c t.d ∧ t.d.pair.stream = [] ∧ t.d.pair.sealed_ = false ∧ t.pending = s.pending ∧ t.c.fx = s.c.fx) ∧
    (∀ done, s.d.ctl.due = [] → exec (.loopDeadline done) s = .next s) ∧
    (∀ done, s.d.ctl.due ≠ [] → s.d.ctl.due.Nodup →
      ∃ z t, z = forEach (s.d.ctl.due.take done) s (loopTurn s.d.frozen) ∧ exec (.loopDeadline done) s = .next { z with d := t } ∧
        t.ctl.due = [] ∧ t.ctl.lastEnd = 820 ∧ t.ctl.peakEnd = max z.d.ctl.peakEnd 820 ∧
        ∀ n, (t.lp n).u = (z.d.lp n).u ∧ (t.lp n).i = (z.d.lp n).i ∧
          (¬(n ∈ s.d.ctl.due.drop done ∧ z.c.loopEn n = true) → t.lp n = z.d.lp n) ∧
          (n ∈ s.d.ctl.due.drop done ∧ z.c.loopEn n = true → (t.lp n).missed = true ∧ (t.lp n).total = satInc 16 (z.d.lp n).total ∧
            (t.lp n).consec = min ((z.d.lp n).consec + 1) 255 ∧ (t.lp n).onTime = 0 ∧
            (t.lp n).state = (if (z.d.lp n).consec = 2 ∧ ((z.d.lp n).state = 3 ∨ (z.d.lp n).state = 4) then 5 else (z.d.lp n).state)))

/-- GUARD_RELEASE, GUARD_PATH_FAULT and GRD_CMD (R420, R421, R423, R435, R446, R449): a non-latching trip ends once its term has been false for RELEASE_MS; disagreeing evaluators trip their term with
a HALT; RESET ends the trip of a latched term that is false and is refused for a true one, RESET_ALL resets just the false ones; a reset touches no other term. -/
def Obligations.GuardTerms : Prop :=
  ∀ (n : Nat) (s : State),
    let x := s.d.term n
    let stays : Dyn → Prop := fun t => (∀ j, j ≠ n → t.term j = s.d.term j) ∧ Alike { t with grd := s.d.grd } s.d
    (s.c.fx.nTerms ≤ n → exec (.guardRelease n) s = .next s ∧ exec (.guardPathFault n) s = .next s) ∧
    (n < s.c.fx.nTerms →
      let due : Prop := s.d.live s.c = true ∧ s.c.termEn n = true ∧ s.c.termLatch n = false ∧ x.tripped = true ∧ s.d.termValue n = false ∧ ∃ since, x.relSince = some since ∧ since + s.c.termRelMs n ≤ s.d.ms
      (¬due → exec (.guardRelease n) s = .next s) ∧
      (due → ∃ t, exec (.guardRelease n) s = .next { s with d := t } ∧ t.term n = { x with tripped := false, relSince := none } ∧ Closed s.d t (0xD000 + n) [0xD060] ∧ stays t)) ∧
    (n < s.c.fx.nTerms →
      (¬(s.d.live s.c = true ∧ s.c.termEn n = true) → exec (.guardPathFault n) s = .next s) ∧
      (s.d.live s.c = true → s.c.termEn n = true →
        ∃ t, exec (.guardPathFault n) s = .next { s with d := t } ∧ (t.term n).tripped = true ∧ (t.term n).count = (if x.tripped = true then x.count else satInc 16 x.count) ∧
          t.grd.pathOk = false ∧ n ∈ t.grd.bad ∧ (s.d.flt.find 0xD100 = none → t.glb.haltCause ≠ none ∧ ∃ r, t.flt.find 0xD100 = some r ∧ r.code = 0xD061 ∧ r.sev = 4) ∧ stays t)) ∧
    (n < 64 → HostRuns 0x50018 false s →
      let done := fun (k : Nat) (p : Dyn → Prop) => ∃ t, exec (.guardReset n) s = .next t ∧ t.d.grd.cmdResult = k ∧ fld (t.c.w 0x50018) 2 6 = n ∧
        (∀ a, a ≠ 0x50018 → t.c.w a = s.c.w a ∧ t.c.f a = s.c.f a) ∧ p t.d
      (s.c.img.ok = false → done 0xD00D (fun d => { d with grd := s.d.grd } = s.d ∧ d.grd.terms = s.d.grd.terms)) ∧
      (s.c.img.ok = true → s.c.fx.nTerms ≤ n → done 0xD004 (fun d => { d with grd := s.d.grd } = s.d ∧ d.grd.terms = s.d.grd.terms)) ∧
      (s.c.img.ok = true → n < s.c.fx.nTerms → s.d.termValue n = true → done 0xD044 (fun d => { d with grd := s.d.grd } = s.d ∧ d.grd.terms = s.d.grd.terms)) ∧
      (s.c.img.ok = true → n < s.c.fx.nTerms → s.d.termValue n = false → s.c.termEn n = true → s.c.termLatch n = true → x.tripped = true →
        done 0 (fun d => d.term n = { x with tripped := false, relSince := none } ∧ Closed s.d d (0xD000 + n) [0xD060] ∧ stays d)) ∧
      (s.c.img.ok = true → n < s.c.fx.nTerms → s.d.termValue n = false → (s.c.termEn n = false ∨ s.c.termLatch n = false ∨ x.tripped = false) →
        done 0 (fun d => { d with grd := s.d.grd } = s.d ∧ d.grd.terms = s.d.grd.terms))) ∧
    (HostRuns 0x50018 false s →
      (s.c.img.ok = false → exec .guardResetAll s = .next { s with d := { s.d with grd := { s.d.grd with cmdResult := 0xD00D } } }) ∧
      (s.c.img.ok = true → ∃ t, exec .guardResetAll s = .next { s with d := t } ∧ t.grd.cmdResult = 0 ∧ Alike { t with grd := s.d.grd } s.d ∧
        ((t.term n).tripped = (x.tripped && !(decide (n < s.c.fx.nTerms) && s.c.termEn n && s.c.termLatch n && !s.d.termValue n))) ∧
        (t.term n).value = x.value ∧ (t.term n).hold = x.hold ∧ (t.term n).count = x.count))

/-- FLT_CMD, FAULT_COPY_TAKEN and EVENTS_MERGED (R55, R337, R434, R437, R438, R439, R448): ACK acknowledges the selected source's record, which closes at once where only the acknowledgement was missing,
and is refused without an open record; ACK_ALL does so for every open record; NEXT selects the next source with an open record, wrapping; the archive takes the oldest copy, and a copy that waited enters;
each merge counter becomes one summary event while the event queue has room. -/
def Obligations.FaultCommands : Prop :=
  ∀ (s : State),
    (HostRuns 0x40030 false s →
      (s.d.flt.find s.d.flt.sel = none → exec .faultAck s = .next { s with d := { s.d with flt := { s.d.flt with cmdResult := 0xD046 } } }) ∧
      (∀ r, s.d.flt.find s.d.flt.sel = some r →
        ∃ t, exec .faultAck s = .next { s with d := t } ∧ t.flt.cmdResult = 0 ∧
          (r.byAck = true → r.gone = true → t.flt.find s.d.flt.sel = none) ∧
          (r.byAck = false ∨ r.gone = false → t.flt.find s.d.flt.sel = some { r with acked := true, last := shortOf s.d.tim.net }) ∧
          (∀ m, m ≠ s.d.flt.sel → t.flt.find m = s.d.flt.find m) ∧ Alike { t with seq := s.d.seq } s.d ∧
          (s.d.flt.sel < 0xC000 ∨ 0xC100 ≤ s.d.flt.sel → t.seq = s.d.seq) ∧
          (∀ u, u < s.c.fx.nUnits → s.d.flt.sel = 0xC000 + u → s.d.seq.passMs = none → s.c.unitEn u = true → (s.d.unit u).state = 4 → (t.unit u).acked = true)) ∧
      (∃ t, exec .faultAckAll s = .next { s with d := t } ∧ t.flt.cmdResult = 0 ∧ Alike { t with seq := s.d.seq } s.d ∧
        ∀ m, (s.d.flt.find m = none → t.flt.find m = none) ∧ (∀ r, t.flt.find m = some r → r.acked = true))) ∧
    (HostRuns 0x40030 true s →
      let srcs := s.d.flt.recs.map (·.source)
      ∃ t, exec .faultNext s = .next { s with d := t } ∧ { t with flt := s.d.flt } = s.d ∧ t.flt.recs = s.d.flt.recs ∧ t.flt.cmdResult = 0 ∧
        (srcs = [] → t.flt.sel = s.d.flt.sel) ∧ (srcs ≠ [] → t.flt.sel ∈ srcs) ∧
        ((∃ m ∈ srcs, s.d.flt.sel < m) → s.d.flt.sel < t.flt.sel ∧ (srcs.Pairwise (· < ·) → ∀ m ∈ srcs, s.d.flt.sel < m → t.flt.sel ≤ m)) ∧
        ((∀ m ∈ srcs, m ≤ s.d.flt.sel) → srcs.Pairwise (· < ·) → ∀ m ∈ srcs, t.flt.sel ≤ m)) ∧
    (s.d.flt.queue = [] → s.d.flt.events = [] → exec .faultCopyTaken s = .next s) ∧
    (∀ k q, s.d.flt.queue = k :: q → ∃ a, exec .faultCopyTaken s =
      .next { s with d := { s.d with arc := a, flt := { s.d.flt with queue := q ++ s.d.flt.waiting.take 1, waiting := s.d.flt.waiting.drop 1 } } }) ∧
    (∀ e es, s.d.flt.queue = [] → s.d.flt.events = e :: es → ∃ a, exec .faultCopyTaken s = .next { s with d := { s.d with arc := a, flt := { s.d.flt with events := es } } }) ∧
    (∃ f l, exec .eventsMerged s = .next { s with d := { s.d with flt := f } } ∧ f.events = s.d.flt.events ++ l ∧
      l.length = min s.d.flt.merge.length (256 - s.d.flt.events.length) ∧ f.recs = s.d.flt.recs ∧ f.queue = s.d.flt.queue ∧
      ∀ k ∈ l, k.event = true ∧ k.merged = true ∧ k.isOpen = false ∧ k.r.code = 0xD063 ∧ ∃ p ∈ s.d.flt.merge, k.r.a = p.1 % 2 ^ 32 ∧ k.r.occ = min p.2 65535)

/-- TIM_CMD.STEP, SLEW and SLEW_STOP and SLEW_END (R453, R454, R463, R481): a step adds TIM_STEP to OFS and one to the epoch, marks the pending network-bound entries it passes,
takes the mark from those it goes back before, and ends the network-bound launches whose window it passes; a slew replaces the one that runs; each is refused with its code; the end of a slew leaves rate 0. -/
def Obligations.TimeCommands : Prop :=
  ∀ (s : State),
    let st := s.c.stepVal
    let x := s.d.tim
    let put := fun (y : Tim) => (Host.Outcome.next { s with d := { s.d with tim := y } } : Host.Outcome State Fault Refusal)
    (HostRuns 0x3003C false s →
      (st = 0 → exec .timeStep s = put { x with cmdResult := 1 }) ∧
      (st < 0 → s.c.stepBack = false → exec .timeStep s = put { x with cmdResult := 0x42 }) ∧
      (st ≠ 0 → 0 < st ∨ s.c.stepBack = true → ∃ t, exec .timeStep s = .next { s with d := t } ∧
        t.tim = { x with ofs := sext 64 (x.ofs + st), epoch := (x.epoch + 1) % 256, netSet := true, steps := satInc 16 x.steps, cmdResult := 0, acts := t.tim.acts } ∧
        (∀ a, a < 256 → t.act a = if (s.d.act a).state = 1 ∧ s.c.actBind a = true ∧ (x.net : Int) < actDue s.c a (s.d.act a) (s.d.act a).next ∧
          actDue s.c a (s.d.act a) (s.d.act a).next ≤ (t.tim.net : Int) then { s.d.act a with passed := true }
          else if (s.d.act a).state = 1 ∧ s.c.actBind a = true ∧ (s.d.act a).passed = true ∧ (t.tim.net : Int) < actDue s.c a (s.d.act a) (s.d.act a).next then
            { s.d.act a with passed := false } else s.d.act a) ∧
        (∀ p e, p < 4 → e < 16 → (t.port p).launch e = if ((s.d.port p).launch e).state = 1 ∧ s.c.launchNet p e = true ∧
          ((s.d.port p).launch e).due + s.c.launchWin p e * 2 ^ 32 / 1000000 ≤ t.tim.net then { (s.d.port p).launch e with state := 4, txres := 4 } else (s.d.port p).launch e) ∧
        (∀ m, t.flt.find m = s.d.flt.find m) ∧ Alike { t with tim := x, arc := s.d.arc, can := s.d.can } s.d) ∧
      (let rate := sword (s.c.f 0x30034)
       let ms := (s.c.f 0x30038).toNat
       (-140737 ≤ rate → rate ≤ 140737 → ms ≠ 0 → exec .slew s = put { x with slew := rate, slewLeft := ms, cmdResult := 0 }) ∧
       (rate < -140737 ∨ 140737 < rate ∨ ms = 0 → exec .slew s = put { x with cmdResult := 1 })) ∧
      (∃ t, exec .slewStop s = .next t ∧ t.d = { s.d with tim := { x with slew := 0, slewLeft := 0, cmdResult := 0 } } ∧ t.c.w 0x30038 = 0#32 ∧ t.c.f 0x30038 = 0#32 ∧
        (∀ b, b ≠ 0x30038 → t.c.w b = s.c.w b ∧ t.c.f b = s.c.f b) ∧ t.c.img = s.c.img ∧ t.pending = s.pending)) ∧
    (x.slewLeft = 0 → exec .slewEnd s = put { x with slew := 0 }) ∧ (x.slewLeft ≠ 0 → exec .slewEnd s = .next s)

/-- TIMED_ACTION_FIRE (R456 to R463): only a pending entry fires, and only when its due time has come; one firing stands for the latest occurrence due and counts the others in SKIPPED; a
one-shot is DONE and a cyclic entry pending at the next; WAKE_RUN in SCAN is a run condition, and in RUN it calls off an entry to DORMANT under way; a flag, a write or a request is appended for the next boundary, and a STANDBY appends nothing. -/
def Obligations.ActionFires : Prop :=
  ∀ (a : Nat) (s : State),
    let x := s.d.act a
    let net := s.c.actBind a
    (256 ≤ a ∨ x.state ≠ 1 ∨ s.d.live s.c = false → exec (.timedActionFire a) s = .next s) ∧
    (a < 256 → x.state = 1 → s.d.live s.c = true →
      let d0 := if x.lateNow || x.passed then s.d else s.d.reach s.c net (actDue s.c a x x.next)
      let due := x.lateNow = true ∨ x.passed = true ∨ actDue s.c a x x.next ≤ (d0.bound net : Int)
      (¬due → exec (.timedActionFire a) s = .next { s with d := d0 }) ∧
      (due → ∃ t, exec (.timedActionFire a) s = .next { s with d := t } ∧
        (let y := t.act a
         let k := s.c.actKind a
         (s.c.actCyclic a = false → y.state = 2 ∧ y.next = x.next + 1 ∧ y.skipped = satAdd 8 x.skipped 0 ∧ y.late = (x.lateNow || x.passed)) ∧
         (s.c.actCyclic a = true → y.state = 1 ∧ y.next = max (x.next + 1) (actAfter s.c a x (d0.bound net)) ∧ y.skipped = satAdd 8 x.skipped (y.next - 1 - x.next) ∧ y.late = x.lateNow) ∧
         y.stepped = x.passed ∧ y.firedAt = shortOf (d0.bound net) ∧ y.c0 = x.c0 ∧ y.lateNow = false ∧ y.passed = false ∧
         (2 ≤ k → k ≤ 5 → s.d.standby = false → t.tim.effects = s.d.tim.effects ++
           [{ due := actDue s.c a x (y.next - 1), entry := a, kind := k, index := s.c.actIndex a, addr := (s.c.f (actA a 3)).toNat, val := s.c.f (actA a 4) }]) ∧
         (k < 2 ∨ 5 < k ∨ s.d.standby = true → t.tim.effects = s.d.tim.effects) ∧
         t.pwr = { s.d.pwr with runCond := if k = 1 ∧ s.d.glb.st = .scan then some (s.d.pwr.runCond.getD 0x82) else s.d.pwr.runCond,
                                entryAbort := if k = 1 ∧ s.d.glb.st = .run ∧ s.d.glb.dormReq = true then some (s.d.pwr.entryAbort.getD 0x82) else s.d.pwr.entryAbort } ∧
         t.tim.wakeFired = (s.d.tim.wakeFired || decide (k = 1 ∧ s.d.glb.st = .run))) ∧
        (∀ b, b ≠ a → t.act b = s.d.act b) ∧ (∀ m, t.flt.find m = s.d.flt.find m) ∧ t.tim.ofs = s.d.tim.ofs ∧ t.tim.epoch = s.d.tim.epoch ∧
        Alike { t with tim := s.d.tim, pwr := s.d.pwr } s.d))

/-- ACTION_ARM (R37, R115, R458, R459, R465), for an entry whose EN is 0: without configuration or with a failing check it is refused with that code; a COMPARE further back than LATE_LIMIT is
refused with 0x0041 and leaves EN 0; otherwise EN reads 1 and the entry is pending at C0, which is the binding's time with its low 16 bits clear plus the signed difference, or
fires at the next tick. -/
def Obligations.ActionArming : Prop :=
  ∀ (a : Nat) (s : State), a < 256 → s.d.portUp = true → s.d.standby = false → s.c.reg.ok → bit (s.c.w (actA a 0)) 0 = false →
    let A := actA a 0
    let x := s.d.act a
    let c' : Cfg := { s.c with reg := s.c.reg.putB A (s.c.w A ||| 1#32) }
    let now := s.d.bound (c'.actBind a)
    let dd := shortDiff (c'.actCompare a) (shortOf now)
    let bad := (timedField c' a ++ timedRefs c' a).find? (·.bad)
    ∃ t, exec (.actionArm a) s = .next t ∧
      (let refused := fun (k : Nat) => t.d.act a = { x with result := k } ∧ t.c.w A = s.c.w A
       (s.c.img.ok = false → refused 0xD) ∧
       (s.c.img.ok = true → ∀ k, bad = some k → k.code ≠ 0 → refused k.code) ∧
       (s.c.img.ok = true → bad = none → dd < -(s.c.lateLimit : Int) → refused 0x41) ∧
       (s.c.img.ok = true → bad = none → -(s.c.lateLimit : Int) ≤ dd →
         t.d.act a = { state := 1, c0 := ((now / 2 ^ 16 * 2 ^ 16 : Nat) : Int) + dd * 2 ^ 16, next := 0, late := false, stepped := false, slept := false, skipped := 0, result := 0,
                       lateNow := decide (dd ≤ 0), passed := false, firedAt := 0 } ∧
         t.c.w A = s.c.w A ||| 1#32 ∧ t.c.f A = s.c.w A ||| 1#32)) ∧
      (∀ b, b ≠ a → t.d.act b = s.d.act b) ∧ (∀ b, b ≠ A → t.c.w b = s.c.w b ∧ t.c.f b = s.c.f b) ∧
      { t.d with tim := s.d.tim, arc := s.d.arc } = s.d ∧ { t.d.tim with acts := s.d.tim.acts } = { s.d.tim with arming := [] } ∧
      t.c.img = s.c.img ∧ t.c.fx = s.c.fx ∧ t.pending = s.pending

/-- RECOVER, ABORT_ALL, CAN_CLR_COUNTS, TXREQ and TX_BUFFER_WRITE (R475, R481, R487, R500, R504, R505, R507) on an ACTIVE or unpaired module: RECOVER starts the recovery of a bus-off port
and is refused elsewhere; ABORT_ALL leaves what is on the wire and ends every other pending mailbox and launch with ABORTED; a request makes its mailbox pending; a buffer
takes its content, and writes to mailboxes that do not send, or that a map or a launch owns, are refused with their codes. -/
def Obligations.CanCommands : Prop :=
  ∀ (p m dlc : Nat) (data : List Byte) (s : State), p < 4 → s.d.standby = false →
    let x := s.d.port p
    let put := fun (y : Port) => (Host.Outcome.next { s with d := s.d.setPort p y } : Host.Outcome State Fault Refusal)
    let wired := fun (k : Nat) => ∃ f, x.wire = some (.mailbox k f)
    (HostRuns (canA p 0x34) false s →
      (x.busOff = true → exec (.recover p) s = put { x with recovering := true, ctlResult := 0 }) ∧
      (x.busOff = false → exec (.recover p) s = put { x with ctlResult := 0xE00D }) ∧
      exec (.canClrCounts p) s = put { x with txcnt := 0, rxcnt := 0, fifoDrops := 0, svcDrops := 0, ctlResult := 0 } ∧
      (∃ t, exec (.abortAll p) s = .next { s with d := t } ∧ (t.port p).ctlResult = 0 ∧ (t.port p).wire = x.wire ∧
        (∀ k, k < 32 → ¬wired k → ((t.port p).mb k).pending = false ∧ ((x.mb k).pending = true → ((t.port p).mb k).txres = 5)) ∧
        (∀ k, k < 32 → wired k → (t.port p).mb k = { x.mb k with again := false }) ∧
        (∀ e, e < 16 → (let go := ((x.launch e).state = 1 ∨ (x.launch e).state = 2) ∧ ¬wired (s.c.launchMb p e)
          (go → (t.port p).launch e = { x.launch e with state := 4, txres := 5 }) ∧ (¬go → (t.port p).launch e = x.launch e))) ∧
        (∀ q, q ≠ p → t.port q = s.d.port q) ∧ (∀ k, t.flt.find k = s.d.flt.find k) ∧ Alike { t with can := s.d.can } s.d)) ∧
    (m < 32 → HostRuns (canA p 0x38) true s →
      (let v : Word := BitVec.ofNat 32 (2 ^ m)
       let bad := s.c.mbxEn p m = false ∨ s.c.mbxTx p m = false ∨ s.c.mbxMap p m = true
       (bad → exec (.txreq p v) s = put { x with reason := 0xE047 }) ∧
       (¬bad → (launchOf s.c p x m).isSome = true → exec (.txreq p v) s = put { x with reason := 0xE00D }) ∧
       (¬bad → launchOf s.c p x m = none → ∃ t, exec (.txreq p v) s = .next t ∧ t.c = mbxLoad p m s.c ∧ t.pending = s.pending ∧
         (wired m → t.d = s.d.setPort p (x.setMb m { x.mb m with again := true })) ∧
         (¬wired m → ((t.d.port p).mb m).pending = true ∧ ((t.d.port p).mb m).buf = (x.mb m).buf) ∧
         (∀ k, k ≠ m → (t.d.port p).mb k = x.mb k) ∧ (∀ q, q ≠ p → t.d.port q = s.d.port q) ∧ { t.d with can := s.d.can } = s.d))) ∧
    (m < 32 → HostRuns (canA p 0x2000) true s →
      (s.c.mbxTx p m = false ∨ s.c.mbxMap p m = true → exec (.txBufferWrite p m dlc data) s = put { x with reason := 0xE047 }) ∧
      (s.c.mbxTx p m = true → s.c.mbxMap p m = false → ∃ t, exec (.txBufferWrite p m dlc data) s = .next t ∧ t.c = mbxLoad p m s.c ∧ t.pending = s.pending ∧
        (let y := (t.d.port p).mb m
         y.buf.dlc = dlc % 16 ∧ y.buf.data = data.take 64 ∧ y.buf.esi = false ∧ y.pending = (x.mb m).pending ∧
         y.overwrites = (if (x.mb m).pending = true then satInc 16 (x.mb m).overwrites else (x.mb m).overwrites)) ∧
        (∀ k, k ≠ m → (t.d.port p).mb k = x.mb k) ∧ (∀ q, q ≠ p → t.d.port q = s.d.port q) ∧ { t.d with can := s.d.can } = s.d))

/-- LAUNCH_ARM, LAUNCH_DUE and LAUNCH_WINDOW_CLOSE (R475, R481): arming a waiting entry stores its due time or its refusal; at that time its mailbox becomes pending; when the window
closes without the frame on the wire the entry ends LATE and its mailbox is pending no more. -/
def Obligations.Launches : Prop :=
  ∀ (p e : Nat) (s : State), p < 4 → e < 16 →
    let x := s.d.port p
    let l := x.launch e
    let net := s.c.launchNet p e
    let now := s.d.bound net
    let m := s.c.launchMb p e
    let dd := shortDiff (s.c.f (launchA p e 1)).toNat (shortOf now)
    (HostRuns (launchA p e 0) true s →
      (l.state = 1 ∨ l.state = 2 → exec (.launchArm p e) s = .next s) ∧
      (l.state ≠ 1 → l.state ≠ 2 →
        (∀ k, launchCode s.c s.d p e = k → k ≠ 0 → exec (.launchArm p e) s = .next { s with d := s.d.setPort p { x.setLaunch e { l with reason := k } with reason := k } }) ∧
        (launchCode s.c s.d p e = 0 → (let due := (((now / 2 ^ 16 * 2 ^ 16 : Nat) : Int) + dd * 2 ^ 16).toNat
          exec (.launchArm p e) s = .next { s with d := s.d.setPort p (x.setLaunch e { state := 1, txres := 0, reason := 0, sent := 0, due := due }) })) ∧
        (s.d.standby = false → portOn s.c s.d p = true → 10 ≤ s.c.launchWin p e → s.c.mbxTx p m = true → s.c.mbxMap p m = false → s.c.mbxEn p m = true → launchOf s.c p x m = none → 0 ≤ dd →
          launchCode s.c s.d p e = 0))) ∧
    (l.state ≠ 1 ∨ portOn s.c s.d p = false → exec (.launchDue p e) s = .next s) ∧
    (l.state = 1 → portOn s.c s.d p = true → (s.d.reach s.c net l.due).bound net < l.due → exec (.launchDue p e) s = .next s) ∧
    (l.state = 1 → portOn s.c s.d p = true → l.due ≤ (s.d.reach s.c net l.due).bound net →
      ∃ t, exec (.launchDue p e) s = .next t ∧ t.c = mbxLoad p m s.c ∧ t.pending = s.pending ∧ (t.d.port p).launch e = { l with state := 2 } ∧
        (∀ k, k ≠ e → (t.d.port p).launch k = x.launch k) ∧ ((t.d.port p).mb m).buf = (x.mb m).buf ∧ (((t.d.port p).mb m).pending = true ∨ ((t.d.port p).mb m).again = true) ∧
        (∀ k, k ≠ m → (t.d.port p).mb k = x.mb k) ∧ (∀ q, q ≠ p → t.d.port q = s.d.port q) ∧ { t.d with can := s.d.can, tim := s.d.tim } = s.d) ∧
    (let off := (∃ f, x.wire = some (.mailbox m f)) ∨ (l.state ≠ 1 ∧ l.state ≠ 2)
     let d1 := s.d.reach s.c net ((l.due + s.c.launchWin p e * 2 ^ 32 / 1000000 + 1 : Nat) : Int)
     (off → exec (.launchWindowClose p e) s = .next s) ∧
     (¬off → d1.bound net < l.due + s.c.launchWin p e * 2 ^ 32 / 1000000 → exec (.launchWindowClose p e) s = .next s) ∧
     (¬off → l.due + s.c.launchWin p e * 2 ^ 32 / 1000000 ≤ d1.bound net →
       ∃ t, exec (.launchWindowClose p e) s = .next { s with d := t } ∧ (t.port p).launch e = { l with state := 4, txres := 4 } ∧
         (∀ k, k ≠ e → (t.port p).launch k = x.launch k) ∧ (t.port p).mb m = { x.mb m with pending := false, again := false, txres := 4 } ∧
         (∀ k, k ≠ m → (t.port p).mb k = x.mb k) ∧ (∀ q, q ≠ p → t.port q = s.d.port q) ∧ (∀ k, t.flt.find k = s.d.flt.find k) ∧ t.tim.ofs = s.d.tim.ofs ∧
         Alike { t with can := s.d.can, tim := s.d.tim } s.d))

/-- CAN_ERROR_DETECTED, BUS_RECOVERED, PORT_BLOCKED, NET_TIME_LOST, MAP_RX_TIMEOUT and FOLLOW_UP_SEND (R470, R483 to R488, R494): an error counts, and beyond 255 the port is bus-off with its
record; a recovery clears the counters and the records; a blocked port, a slave without pairs and a map without frames raise theirs once; a follow-up waits behind the frame
on the wire. -/
def Obligations.CanSupervision : Prop :=
  ∀ (p k : Nat) (b : BusError) (s : State), p < 4 →
    let x := s.d.port p
    let src := portSrc p
    let quiet := fun (t : Dyn) => (∀ q, q ≠ p → t.port q = s.d.port q) ∧ Alike { t with can := s.d.can } s.d
    (portOn s.c s.d p = false ∨ portMuted s.c s.d p = true ∨ x.busOff = true → exec (.canErrorDetected p b) s = .next s) ∧
    (portOn s.c s.d p = true → portMuted s.c s.d p = false → x.busOff = false → ∃ t, exec (.canErrorDetected p b) s = .next { s with d := t } ∧ quiet t ∧
      (let y := t.port p
       let tec := if b.rx = true then x.tec else min 511 (x.tec + 8)
       let rcv := if b.rx = true then min 255 (x.rcv + if b.dominantAfter = true then 8 else 1) else x.rcv
       let passive := 127 < tec ∨ 127 < rcv
       y.tec = tec ∧ y.rcv = rcv ∧ y.lec = b.lec ∧ y.busOff = decide (255 < tec) ∧ y.txcnt = x.txcnt ∧ y.rxcnt = x.rxcnt ∧
       (255 < tec → Opened s.d t src 0xE061 2 0 0 false false) ∧
       (tec ≤ 255 → passive → s.d.openCode src [0xE060] = false → Opened s.d t src 0xE060 1 0 0 false false) ∧
       (tec ≤ 255 → passive → s.d.openCode src [0xE060] = true → t.flt = s.d.flt) ∧
       (tec ≤ 255 → ¬passive → Closed s.d t src [0xE060]))) ∧
    (x.busOff = false ∨ x.recovering = false → exec (.busRecovered p) s = .next s) ∧
    (x.busOff = true → x.recovering = true → ∃ t, exec (.busRecovered p) s = .next { s with d := t } ∧ quiet t ∧ Closed s.d t src [0xE060, 0xE061, 0xE062] ∧
      (let y := t.port p
       y.busOff = false ∧ y.recovering = false ∧ y.blocked = false ∧ y.tec = 0 ∧ y.rcv = 0 ∧ y.txcnt = x.txcnt ∧ (∀ m, y.mb m = x.mb m) ∧ ∀ l, y.launch l = x.launch l)) ∧
    (let lost := portOn s.c s.d p = true ∧ s.c.portSync p = 2 ∧ x.lastPair + 3 * s.c.syncPer p ≤ s.d.ms ∧ s.d.openCode src [0xE069] = false
     (¬lost → exec (.netTimeLost p) s = .next s) ∧
     (lost → ∃ t, exec (.netTimeLost p) s = .next { s with d := t } ∧ t.port p = { x with syncOk := false } ∧ quiet t ∧ Opened s.d t src 0xE069 1 0 0 false false)) ∧
    (let old := fun (since : Nat) => since + s.c.blockMs p ≤ s.d.ms
     let waits := (∃ q ∈ x.mbx, q.2.pending = true ∧ old q.2.since) ∨ (∃ i ∈ x.xq, old i.since) ∨ (∃ i, x.wire = some (.extra i) ∧ old i.since)
     let blocks := portSends s.c s.d p = true ∧ waits ∧ x.blocked = false
     (¬blocks → exec (.portBlocked p) s = .next s) ∧
     (blocks → ∃ t, exec (.portBlocked p) s = .next { s with d := t } ∧ t.port p = { x with blocked := true } ∧ quiet t ∧ Opened s.d t src 0xE062 2 0 0 false false)) ∧
    (k < 128 →
      (let late := s.d.live s.c = true ∧ s.c.mapEn k = true ∧ s.c.mapRx k = true ∧ (s.d.mapS k).timedOut = false ∧ (s.d.mapS k).lastRx + s.c.mapPer k ≤ s.d.ms
       (¬late → exec (.mapRxTimeout k) s = .next s) ∧
       (late → ∃ t, exec (.mapRxTimeout k) s = .next { s with d := t } ∧ t.mapS k = { s.d.mapS k with timedOut := true } ∧ (∀ j, j ≠ k → t.mapS j = s.d.mapS j) ∧
         (∀ q, t.port q = s.d.port q) ∧ Alike { t with can := s.d.can } s.d ∧ Opened s.d t (mapSrc k) 0xE066 1 0 0 false false))) ∧
    (x.follow = none ∨ portSends s.c s.d p = false → exec (.followUpSend p) s = .next s) ∧
    (∀ seq ep t1, x.follow = some (seq, ep, t1) → portSends s.c s.d p = true →
      (let i : XItem := { kind := .followUp, since := s.d.ms, frame := { CBuf.empty with dlc := 9, fd := true, ext := (s.c.syncId p).2, id := (s.c.syncId p).1 + 1, data := leBytes 1 seq ++ leBytes 1 ep ++ [0, 0] ++ leBytes 8 t1 } }
       ∃ t, exec (.followUpSend p) s = .next { s with d := t } ∧ (t.port p).follow = none ∧ (∀ m, (t.port p).mb m = x.mb m) ∧ (∀ q, q ≠ p → t.port q = s.d.port q) ∧ { t with can := s.d.can } = s.d ∧
         (x.wire ≠ none ∨ x.busy = true → t.port p = { x with follow := none, xq := x.xq ++ [i] })))

/-- CAN_TX_COMPLETE, CAN_FRAME_RECEIVED, SERVICE_READ, SERVICE_WRITE and SERVICE_WRITE_REPLY (R470, R475 to R482, R496, R497): a sent frame counts, lowers TEC and leaves its stamp in the
mailbox and its launch; a lost arbitration leaves the frame pending, or ends a one-shot; an error sets LEC and raises TEC; a received frame counts, and goes to its receive
mailbox, or to the FIFO where only a filter takes it; the oldest request of the service is answered or handed to the boundary. -/
def Obligations.CanFrames : Prop :=
  ∀ (p m edge lec : Nat) (after : Bool) (f : CBuf) (fr : CanFrame) (s : State), p < 4 →
    let x := s.d.port p
    let quiet := fun (t : Dyn) => (∀ q, q ≠ p → t.port q = s.d.port q) ∧ Alike { t with can := s.d.can } s.d
    let once := s.c.mbxOneshot p m = true
    (portSends s.c s.d p = false → ∀ r, exec (.canTxComplete p r) s = .next s) ∧
    (portSends s.c s.d p = true → x.wire = some (.mailbox m f) →
      (∃ t, exec (.canTxComplete p (.sent edge)) s = .next { s with d := t } ∧ quiet t ∧ (t.port p).txcnt = (x.txcnt + 1) % 2 ^ 32 ∧ (t.port p).tec = x.tec - 1 ∧ (t.port p).rcv = x.rcv ∧
        (let y := (t.port p).mb m
         y.txres = 1 ∧ y.clashes = 0 ∧ y.held = false ∧ y.again = false ∧ y.buf.stamp = txStamp s.c p edge ∧ y.buf.epoch = s.d.tim.epoch) ∧
        (∀ e, launchOf s.c p x m = some e → (t.port p).launch e = { x.launch e with state := 3, txres := 1, sent := shortOf (txStamp s.c p edge) })) ∧
      (launchOf s.c p x m = none →
        ∃ t, exec (.canTxComplete p .arbLost) s = .next { s with d := t } ∧ quiet t ∧ (t.port p).busy = true ∧ (t.port p).wire = none ∧ (t.port p).tec = x.tec ∧
          (¬once → (t.port p).mb m = x.mb m) ∧ (once → ((t.port p).mb m).txres = 2 ∧ ((t.port p).mb m).pending = (x.mb m).again) ∧ ∀ k, k ≠ m → (t.port p).mb k = x.mb k) ∧
      (∃ t, exec (.canTxComplete p (.error lec after)) s = .next { s with d := t } ∧ quiet t ∧ (t.port p).lec = lec ∧ (t.port p).rcv = x.rcv ∧ (t.port p).txcnt = x.txcnt ∧
        (t.port p).tec = if lec = 3 ∧ x.est = 1 then x.tec else min 511 (x.tec + 8))) ∧
    (portOn s.c s.d p = false ∨ x.busOff = true → exec (.canFrameReceived p fr) s = .next s) ∧
    (portOn s.c s.d p = true → x.busOff = false →
      ∃ t, exec (.canFrameReceived p fr) s = .next { s with d := t } ∧ quiet t ∧ (t.port p).rxcnt = (x.rxcnt + 1) % 2 ^ 32 ∧
        (let b := bufOf s.c p s.d.tim.epoch fr
         let box := (List.range 32).find? (fun k => s.c.mbxEn p k && !s.c.mbxTx p k && b.ext == s.c.mbxIde p k && (b.id ^^^ s.c.mbxId p k) &&& s.c.mbxMask p k == 0)
         let plain := s.c.portSync p = 0 ∧ s.c.svcEn p = false
         (plain → box = some m → mapsOf s.c p m = [] → bufLocked s.d (canA p (0x1000 + 0x80 * m)) = false →
           ((t.port p).mb m).buf = b ∧ ((t.port p).mb m).unread = true ∧ ((t.port p).mb m).ovf = ((x.mb m).ovf || (x.mb m).unread)) ∧
         (plain → box = none → x.fifo.length < 32 → ∀ k, k < 16 → s.c.bF (filtA p k 0) 0 = true → b.ext = s.c.bF (filtA p k 0) 1 →
           (b.id ^^^ s.c.fF (filtA p k 1) 0 29) &&& s.c.fF (filtA p k 2) 0 29 = 0 → (t.port p).fifo = x.fifo ++ [b]))) ∧
    (x.svc = [] → exec (.serviceRead p) s = .next s ∧ exec (.serviceWrite p) s = .next s) ∧ (x.replies = [] → exec (.serviceWriteReply p) s = .next s) ∧
    (∀ r rest, x.svc = r :: rest →
      (let replied := fun (e : Instr) (y : Port) (op code : Nat) (v : Word) => ∃ t, exec e s = .next { s with d := t } ∧ { t with can := s.d.can } = s.d ∧
         (t.port p).svc = y.svc ∧ (t.port p).replies = y.replies ∧ (∀ q, q ≠ p → t.port q = s.d.port q) ∧
         (portOn s.c s.d p = true → portMuted s.c s.d p = false → x.wire ≠ none ∨ x.busy = true → (t.port p).xq = x.xq ++ [{ kind := .reply, since := s.d.ms, frame :=
           { CBuf.empty with dlc := 8, ext := (s.c.svcId p).2, id := (s.c.svcId p).1 + 1, data := leBytes 1 op ++ leBytes 2 code ++ [0] ++ leBytes 4 v.toNat } }])
       let y : Port := { x with svc := rest }
       (r.bad = true → replied (.serviceRead p) y r.op 0xE044 r.val ∧ exec (.serviceWrite p) s = .next s) ∧
       (r.bad = false → r.op % 16 = 1 → exec (.serviceWrite p) s = .next s ∧
         (x.lock = none → groupAt s.c (s.d.setPort p y) r.addr = none → replied (.serviceRead p) y r.op 0 (readReg s.c (s.d.setPort p y) r.addr))) ∧
       (r.bad = false → r.op % 16 = 2 → exec (.serviceRead p) s = .next s ∧ (s.c.svcWr p = false → replied (.serviceWrite p) y r.op 0xE00D r.val) ∧
         (s.c.svcWr p = true → exec (.serviceWrite p) s = .next { s with d := (s.d.setPort p y).canWrite r.stamp (.service p r) })))) ∧
    (∀ r rest, x.replies = r :: rest → ∃ t, exec (.serviceWriteReply p) s = .next { s with d := t } ∧ { t with can := s.d.can } = s.d ∧ (t.port p).replies = rest ∧ (t.port p).svc = x.svc)

/-- The receive FIFO (R477), by the operation that puts an accepted frame into it: it holds at most 32 frames; a frame that finds it full is dropped and counted in CANn_DROP.FIFO, and
RX_FIFO_DROP is raised when none was raised in the last second. -/
def Obligations.FifoDrops : Prop :=
  ∀ (c : Cfg) (p : Nat) (b : CBuf) (d : Dyn),
    let x := d.port p
    let t := fifoReceive c p b d
    (x.fifo.length ≤ 32 → (t.port p).fifo.length ≤ 32) ∧
    (x.fifo.length < 32 → t = d.setPort p { x with fifo := x.fifo ++ [b] }) ∧
    (32 ≤ x.fifo.length →
      (t.port p).fifo = x.fifo ∧ (t.port p).fifoDrops = satInc 16 x.fifoDrops ∧ (∀ q, q ≠ p → t.port q = d.port q) ∧ Alike { t with can := d.can } d ∧
      (∀ at_, x.dropAt = some at_ → d.ms < at_ + 1000 → t.flt = d.flt ∧ (t.port p).dropAt = some at_) ∧
      ((∀ at_, x.dropAt = some at_ → at_ + 1000 ≤ d.ms) → Opened d t (portSrc p) 0xE065 1 0 0 true true ∧ (t.port p).dropAt = some d.ms))

/-- DP_IDENTITY (R517): byte 0 is 0xE5, byte 1 is 0x5A, bytes 2 and 3 are bits [15:0] of GLB_VARIANT and bytes 4 to 11 the 64 bits of GLB_ID, each field little-endian; the frame
changes nothing but the lanes, so GLB_ID is not locked. -/
def Obligations.IdentityFrame : Prop :=
  ∀ (n : Nat) (s : State), s.d.portDead = false → 12 ≤ n →
    ∃ out, exec (.dpIdentity n) s = .next { s with d := { s.d with dp := { s.d.dp with out := out, quad := false } } } ∧ out.length = n ∧
      nth 0 out 0 = 0xE5 ∧ nth 0 out 1 = 0x5A ∧ leAt out 2 2 = fld (readReg s.c s.d 0x8) 0 16 ∧
      leAt out 4 8 = (readReg s.c s.d 0x0).toNat + 2 ^ 32 * (readReg s.c s.d 0x4).toNat

/-- DP_READ, DP_QUAD_READ, DP_WRITE, DP_QUAD_WRITE, DP_STATUS, UNKNOWN_COMMAND and LOCK_EXPIRED (R512 to R516, R518, R519, R523): a dead port ignores a frame; in BOOT a read gives
zeros with code 0x2048; an unaligned address is ignored with 0x2041 and reads as 0xFF; a read of live registers gives their bytes in ascending order and changes nothing; a write
puts its words into the queue in order; a command outside the table records 0x2040; a lock that expires goes with 0x2044. -/
def Obligations.PortFrames : Prop :=
  ∀ (addr n m : Nat) (late : List Nat) (data : List Byte) (b : Byte) (s : State),
    let x := s.d.dp
    let lanes := fun (q : Bool) (l : List Byte) (y : Dp) => (Host.Outcome.next { s with d := { s.d with dp := { y with out := l, quad := q } } } : Host.Outcome State Fault Refusal)
    let noted := fun (e : Instr) (code a : Nat) (l : List Byte) => ∃ q t, exec e s = .next { s with d := t } ∧ t.dp.out = l ∧ t.dp.code = code ∧ t.dp.count = satInc 16 x.count ∧
      t.dp.addr = a ∧ t.dp.frameErr = true ∧ t.dp.lock = x.lock ∧ t.dp.queue = x.queue ∧ t.dp.sbuf = x.sbuf ∧ t.dp.quad = q ∧ { t with dp := x } = s.d
    (s.d.portDead = true → exec (.dpRead addr n late) s = .next s ∧ exec (.dpQuadRead addr n late) s = .next s ∧ exec (.dpWrite addr data) s = .next s ∧
      exec (.dpQuadWrite addr data) s = .next s ∧ exec (.dpStatus n) s = .next s ∧ exec (.dpIdentity n) s = .next s ∧ exec (.unknownCommand b) s = .next s) ∧
    (s.d.portDead = false →
      exec (.dpStatus n) s = lanes false (List.replicate n (statusByte s.c s.d)) x ∧
      (b.toNat ∉ [0x0B, 0x6B, 0x02, 0x32, 0x05, 0x9F] → noted (.unknownCommand b) 0x2040 0 []) ∧
      (s.d.glb.st = .boot → noted (.dpRead addr n late) 0x2048 addr (List.replicate n 0) ∧ noted (.dpQuadRead addr n late) 0x2048 addr (List.replicate n 0) ∧
        noted (.dpWrite addr data) 0x2048 addr [] ∧ noted (.dpQuadWrite addr data) 0x2048 addr []) ∧
      (s.d.glb.st ≠ .boot → addr % 4 ≠ 0 → noted (.dpRead addr n late) 0x2041 addr (List.replicate n 0xFF) ∧ noted (.dpQuadRead addr n late) 0x2041 addr (List.replicate n 0xFF) ∧
        noted (.dpWrite addr data) 0x2041 addr [] ∧ noted (.dpQuadWrite addr data) 0x2041 addr []) ∧
      (s.d.glb.st ≠ .boot → addr % 4 = 0 → m ≤ 1024 → x.lock = none →
        (∀ k, k < m → frameAddr s.c addr k < 0x10000000 ∧ cfgAccess (frameAddr s.c addr k) = false ∧ groupAt s.c s.d (frameAddr s.c addr k) = none) →
        (let bytes := ((List.range m).map (fun k => leBytes 4 (readReg s.c s.d (frameAddr s.c addr k)).toNat)).flatten
         exec (.dpRead addr (4 * m) late) s = lanes false bytes x ∧ exec (.dpQuadRead addr (4 * m) late) s = lanes true bytes x)) ∧
      (s.d.glb.st ≠ .boot → addr % 4 = 0 → m ≤ 1024 → data.length = 4 * m → x.queue.length + m ≤ 512 →
        (∀ k, k < m → frameAddr s.c addr k < 0x10000000 ∧ cfgAccess (frameAddr s.c addr k) = false) →
        (let q := x.queue ++ (List.range m).map (fun k => { addr := frameAddr s.c addr k, val := BitVec.ofNat 32 (leAt data (4 * k) 4) })
         exec (.dpWrite addr data) s = lanes false [] { x with queue := q } ∧ exec (.dpQuadWrite addr data) s = lanes false [] { x with queue := q }))) ∧
    (x.lock = none → exec .lockExpired s = .next s) ∧
    (∀ l, x.lock = some l → bufferAt l.first = none → ∃ i,
      exec .lockExpired s = .next { s with d := { s.d with dp := { x with lock := none, code := 0x2044, count := satInc 16 x.count, addr := 0, expired := true, irq := i } } })

/-- SUBPAGE_PROGRAM_DONE, BAND_ERASE_DONE, FLUSH_TIMEOUT, ARC_CMD.FLUSH, DROP_SUMMARY, ARC_CMD.CLEAR_REGION, ARC_SCMD.GO and CANCEL, SHUTTLE_DONE and MOUNT_COMPLETE (R525 to R542).
Each leaves alone all but the archive and the books of the fault manager. The program queue's front item ends: a subpage of records goes into the open band and, at the end of its stripe, the parity pages, the stripes to rewrite and a full band's index wait in front (log entry 88); parity and index go into their band. That a failed block without a spare counts in RETIRED, and that a command which ends at
once leaves no other trace, is how the model reads R527 and R541. -/
def Obligations.ArchiveCommands : Prop :=
  ∀ (ok rebuilt : Bool) (b n r t : Nat) (m : MediaRead) (s : State),
    let a := s.d.arc
    let quiet := fun (u : Dyn) => Alike { u with arc := a } s.d
    let live := (s.d.tag t).state = 1 ∨ (s.d.tag t).state = 2
    let ends := fun (u : Dyn) => u.arc.tagQueue = a.tagQueue.filter (· ≠ t) ∧ (∀ k, k ≠ t → u.tag k = s.d.tag k) ∧ (s.c.bF (tagA t 0) 2 = true → u.dp.irq.testBit 4 = true)
    (a.queue = [] ∨ a.state ≠ 2 → exec (.subpageProgramDone ok) s = .next s) ∧
    (∀ q rest, a.queue = q :: rest → a.state = 2 →
      (q.kind = .data → ∃ u, exec (.subpageProgramDone ok) s = .next { s with d := u } ∧ quiet u ∧
        (∃ front, u.arc.queue = front ++ rest ∨ u.arc.queue = front ++ a.queue) ∧
        ∀ k x, a.openBand q.region = some (k, x) →
          u.arc.queue = placedItems q.region k x s.d ++ (if ok then rest else a.queue) ∧
          ((x.subs.length + 1) % 56 ≠ 0 →
            u = { s.d with arc := { a with queue := if ok then rest else a.queue, bands := tput Band.empty a.bands k (x.placed (if ok then q.recs else []) (!ok)) } })) ∧
      (∀ k o st, q.kind = .parity k o st → exec (.subpageProgramDone ok) s = .next { s with d := { s.d with arc := { a with
        queue := rest, bands := if 2 ≤ (s.d.band k).cond ∧ (s.d.band k).order = o then tput Band.empty a.bands k ((s.d.band k).withParity st ok) else a.bands } } }) ∧
      (∀ k o, q.kind = .index k o → exec (.subpageProgramDone ok) s = .next { s with d := { s.d with arc := { a with
        queue := rest, bands := if 2 ≤ (s.d.band k).cond ∧ (s.d.band k).order = o then tput Band.empty a.bands k ((s.d.band k).withIndex ok) else a.bands } } })) ∧
    ((s.d.band b).cond ≠ 1 → exec (.bandEraseDone b n) s = .next s) ∧
    ((s.d.band b).cond = 1 → ∃ u, exec (.bandEraseDone b n) s = .next { s with d := u } ∧ quiet u ∧ (u.band b).cond = 0 ∧ (u.band b).subs = [] ∧ (u.band b).failed = [] ∧ (∀ k, k ≠ b → u.band k = s.d.band k) ∧
      (let k := min 16 ((s.d.band b).failed.length + n)
       u.arc.spare = a.spare - k ∧ (a.retired ≤ 65535 → u.arc.retired = min 65535 (a.retired + k)) ∧ (u.band b).bad = (s.d.band b).bad + (k - a.spare))) ∧
    (let due := r < 6 ∧ (s.d.region r).partialRecs ≠ [] ∧ (s.d.region r).since + 100 * s.c.arcFlush r ≤ s.d.ms
     (¬due → exec (.flushTimeout r) s = .next s) ∧
     (due → ∃ u, exec (.flushTimeout r) s = .next { s with d := u } ∧ quiet u ∧ u.arc.queue = a.queue ++ [{ region := r, recs := (s.d.region r).partialRecs }] ∧ (u.region r).partialRecs = [] ∧
       ∀ k, k ≠ r → u.region k = s.d.region k)) ∧
    (HostRuns 0x500018 true s → ∃ u, exec .arcFlush s = .next { s with d := u } ∧ quiet u ∧ u.arc.cmdResult = 0 ∧ (∀ k, k < 6 → (u.region k).partialRecs = []) ∧
      u.arc.queue = a.queue ++ ((List.range 6).filter (fun k => decide ((s.d.region k).partialRecs ≠ []))).map (fun k => { region := k, recs := (s.d.region k).partialRecs })) ∧
    (let due := (∃ q, q ∈ a.regions ∧ q.2.full = true) ∧ a.dropTimer + 60000 ≤ s.d.ms
     (¬due → exec .dropSummary s = .next s) ∧
     (due → exec .dropSummary s =
       .next { s with d := { s.d with arc := { (s.d.ledger 9 0 ((List.range 8).map (fun k => leBytes 4 (s.d.region k).drops)).flatten).arc with dropTimer := s.d.ms } } })) ∧
    (HostRuns 0x500018 false s → r < 8 →
      (let kept := keepArg 0x500018 (BitVec.ofNat 32 (4 * r)) s
       (6 ≤ r → exec (.clearRegion r) s = .next { kept with d := { s.d with arc := { a with cmdResult := 0xF004 } } }) ∧
       (r < 6 → ∃ u, exec (.clearRegion r) s = .next { kept with d := u } ∧ quiet u ∧ u.arc.cmdResult = 0 ∧ (u.region r).full = false ∧ Closed s.d u (0xF100 + r) [0xF060] ∧
         (∀ k x, (k, x) ∈ a.bands → 2 ≤ x.cond → x.owner = r → (u.band k).cond = 1 ∧ (u.band k).subs = []) ∧
         (∀ k, (∀ x, (k, x) ∈ a.bands → ¬(2 ≤ x.cond ∧ x.owner = r)) → u.band k = s.d.band k)))) ∧
    (HostRuns 0x50001C true s → t = s.c.ssel →
      (live → exec .shuttleGo s = .next { s with d := { s.d with arc := { a with scmdResult := 0xF042 } } }) ∧
      (let w := s.c.f (tagA t 0)
       (¬live → fld w 0 2 = 0 ∨ fld w 8 8 = 0 → exec .shuttleGo s = .next { s with d := { s.d with arc := { a with scmdResult := 0xF043 } } }) ∧
       (¬live → fld w 0 2 ≠ 0 → fld w 8 8 ≠ 0 → ∃ u, exec .shuttleGo s = .next { s with d := u } ∧ quiet u ∧ u.arc.scmdResult = 0 ∧ u.arc.tagQueue = a.tagQueue ++ [t] ∧
         u.tag t = { Tag.empty with state := if a.state = 2 then 2 else 1, next := (s.d.tag t).next, gones := (List.range 6).map (fun r => (s.d.region r).gone) } ∧ ∀ k, k ≠ t → u.tag k = s.d.tag k)) ∧
      (¬live → exec .shuttleCancel s = .next { s with d := { s.d with arc := { a with scmdResult := 0 } } }) ∧
      (live → ∃ u, exec .shuttleCancel s = .next { s with d := u } ∧ quiet u ∧ u.arc.scmdResult = 0 ∧ (u.tag t).state = 4 ∧ (u.tag t).count = 0 ∧ (u.tag t).bytes = 0 ∧ (u.tag t).buf.length = 4096 ∧ ends u)) ∧
    (¬live ∨ a.state ≠ 2 → exec (.shuttleDone t m) s = .next s) ∧
    (live → a.state = 2 → ∃ u, exec (.shuttleDone t m) s = .next { s with d := u } ∧ quiet u ∧ (u.tag t).state = 3 ∧ (u.tag t).buf.length = (u.tag t).bytes ∧ (u.tag t).bytes ≤ 4096 ∧ ends u ∧
      (m.erased = [] → m.badCrc = [] → fld (s.c.f (tagA t 0)) 0 2 = 1 →
        (let key := (s.c.f (tagA t 1)).toNat + 2 ^ 32 * (s.c.f (tagA t 2)).toNat
         let first := firstRec (fun e => decide (key ≤ e.seq)) ((allRecs a).filter (fun e => (fld (s.c.f (tagA t 0)) 8 8).testBit e.1.cls))
         (first = none → (u.tag t).fin = true ∧ (u.tag t).next = key ∧ (u.tag t).count = 0) ∧
         (∀ e vol, first = some (e, vol, false) → e.size ≤ 4096 → 1 ≤ (u.tag t).count ∧ ∃ more, (u.tag t).buf = e.bytes ++ more)))) ∧
    (let ready := a.state = 1 ∧ s.d.glb.st ≠ .boot ∧ (rebuilt = true ∨ a.cpValid = true)
     (¬ready → exec (.mountComplete rebuilt) s = .next s) ∧
     (ready → ∃ u, exec (.mountComplete rebuilt) s = .next { s with d := u } ∧ Mounted a u.arc ∧
       (a.cpValid = true → quiet u ∧ (rebuilt = true → ∃ v : Dyn, v.tim = s.d.tim ∧ (∀ m, m < 0xF100 → m ≠ 0xD100 → v.flt.find m = s.d.flt.find m) ∧ Opened v u 0xF000 0xF066 1 0 0 true true))))

/-- FENCE_IN_CHANGE, SEEK_TIMEOUT, SEAL_RECEIVED, SEAL_MISSED, RETURN_FRAME_RECEIVED, RETURN_FRAME_MISSED, TAKEOVER, WAKE_GRACE_TIMEOUT, HANDOVER and PAIR_LINK_PACKET (R545 to R566), each
also where nothing is due. What the link brings is an operand (note 55); the frame of a takeover and the second seal before seeking are choices of the model (notes 56 and 58). -/
def Obligations.PairSeals : Prop :=
  ∀ (on : Bool) (x : Seal) (r : ReturnFrame) (pk : LinkPacket) (s : State),
    let p := s.d.pair
    let lines := fun (u : Dyn) => s.d.glb.st ≠ .boot → s.d.pwr.resetFrom.isSome = false → ∀ g, g < 6 → (u.grp g).line = if u.pair.fenced then 2 else 0
    let quiet := fun (u : Dyn) => Alike { u with pair := p } s.d
    let field := fun (u : Dyn) => Alike { u with pair := p, fld := s.d.fld } s.d ∧ lines u
    let seeking : Pair := { p with state := 1, seekAt := s.d.ms, join := none, acceptPend := false, missed := 0, stream := [] }
    let left := fun (q : Pair) (u : Dyn) => Alike { u with glb := s.d.glb, pair := p, afe := s.d.afe, mst := s.d.mst } s.d ∧ u.glb = { s.d.glb with role := .standby } ∧
      u.pair = { q with switchAt := none, thread := if p.thread = 1 then 3 else p.thread } ∧ u.dp.irq.testBit 1 = true ∧ (∀ b, u.bank b = { s.d.bank b with contOn := false, retryAt := none }) ∧
      ∀ n, u.cell n = { s.d.cell n with sweeping := false, dropSweep := false, got := [], cal := none, calClear := false }
    let synced := p.state = 7 ∨ p.state = 8
    let lost := fun (u : Dyn) => field u ∧ u.pair.state = 2 ∧ u.pair.fencing = true ∧ u.pair.join = none ∧ u.pair.acceptPend = false ∧ u.pair.imageOk = false ∧ Opened s.d u 0x3000 0x3060 2 0 0 false false
    let broken := fun (u : Dyn) => quiet u ∧ { u.pair with errs := p.errs } = { p with crcErr := satInc 16 p.crcErr } ∧
      (let k := (p.errs.filter (fun t => decide (s.d.ms < t + 1000))).length
       (k < 99 → u.flt = s.d.flt) ∧ (99 ≤ k → s.d.openCode 0x3000 [0x306B] = false → Opened s.d u 0x3000 0x306B 1 0 0 false false))
    let entered := fun (cause : Nat) (t : State) => t.d.glb.role = .active ∧ t.d.glb.st = s.d.glb.st ∧ t.d.tim = s.d.tim ∧ t.c.reg.w = s.c.reg.w ∧ t.pending = s.pending ∧
      t.d.pair.takes = satInc 16 p.takes ∧ t.d.pair.takeCause = cause ∧ t.d.pair.takeFrame = (s.d.ms + 1) % 2 ^ 32 ∧ t.d.pair.missed = 0 ∧ t.d.pair.stream = [] ∧ t.d.pair.switchAt = none ∧ t.d.pair.wakeAt = none ∧
      ∀ q, q < 4 → (t.d.port q).tec = 0 ∧ (t.d.port q).rcv = 0
    let took := fun (cause : Nat) (t : State) => entered cause t ∧ t.d.pair.state = 2 ∧ t.d.pair.fencing = true ∧ t.d.pair.thread = (if p.thread = 1 then 3 else p.thread) ∧ lines t.d
    (∃ u, exec (.fenceInChange on) s = .next { s with d := u } ∧ field u ∧ u.pair = { p with fenceIn := on && s.c.fx.pair } ∧ u.flt = s.d.flt) ∧
    (let due := p.seekAt + s.c.seekMs ≤ s.d.ms
     (¬due ∨ (p.state = 1 ∧ p.claim = true) ∨ (p.state ≠ 1 ∧ ¬(p.state = 9 ∧ s.d.glb.st = .run)) → exec .seekTimeout s = .next s) ∧
     (due → p.state = 1 → p.claim = false → ∃ u, exec .seekTimeout s = .next { s with d := u } ∧ field u ∧ u.pair = { p with claim := true, fencing := true }) ∧
     (due → p.state = 9 → s.d.glb.st = .run → exec .seekTimeout s = .next { s with d := setRole .standby { s.d with pair := seeking } })) ∧
    (p.state = 7 → exec .sealMissed s = .next { s with d := { s.d with pair := { p with missed := satInc 8 p.missed, state := 8 } } }) ∧
    (p.state = 8 → exec .sealMissed s = .next { s with d := { s.d with pair := { p with missed := satInc 8 p.missed } } }) ∧
    (p.state = 5 ∨ p.state = 6 → exec .sealMissed s = .next { s with d := if 2 ≤ satInc 8 p.missed then setRole .standby { s.d with pair := seeking } else { s.d with pair := { p with missed := satInc 8 p.missed } } }) ∧
    (p.state < 5 ∨ 8 < p.state → exec .sealMissed s = .next s) ∧
    (s.d.glb.role ≠ .standby ∨ p.state = 0 → exec (.sealReceived x) s = .next s) ∧
    (s.d.glb.role = .standby → p.state ≠ 0 → x.crcOk = false → ∃ u, exec (.sealReceived x) s = .next { s with d := u } ∧ broken u) ∧
    (s.d.glb.role = .standby → p.state ≠ 0 → x.crcOk = true → ∃ u, exec (.sealReceived x) s = .next { s with d := u } ∧ u.tim = s.d.tim.to (max x.acc (s.d.tim.acc - 2 ^ 48 / 500)) ∧
      Alike { u with pair := p, tim := s.d.tim } s.d ∧ u.pair.lastRx = some u.tim.us ∧ u.pair.f0 = u.ms ∧ u.pair.missed = 0 ∧ u.pair.wakeAt = none ∧ u.pair.stream = p.stream ++ x.items ∧
      (¬synced → u.pair.state = p.state) ∧ (synced → x.agrees = true → u.pair.state = 7) ∧
      (synced → x.agrees = false → u.pair.state = 6 ∧ u.pair.diverged = satInc 16 p.diverged ∧ u.pair.resyncs = satInc 16 p.resyncs ∧ Opened { s.d with tim := u.tim } u 0x3000 0x3064 2 0 0 false false) ∧
      (synced → x.hand ≠ 0 → u.pair.switchAt = some (u.ms + 1) ∧ u.pair.switchCause = x.hand)) ∧
    (s.d.glb.role ≠ .active ∨ (p.state ≠ 3 ∧ p.state ≠ 4) → exec (.returnFrameReceived r) s = .next s ∧ exec .returnFrameMissed s = .next s) ∧
    (s.d.glb.role = .active → p.state = 3 ∨ p.state = 4 →
      (r.crcOk = false → ∃ u, exec (.returnFrameReceived r) s = .next { s with d := u } ∧ broken u) ∧
      (r.crcOk = true → ∃ u, exec (.returnFrameReceived r) s = .next { s with d := u } ∧ Alike { u with pair := p, arc := s.d.arc, fld := s.d.fld } s.d ∧ u.pair.lastRx = some s.d.tim.us ∧ u.pair.missed = 0 ∧
        u.pair.wakeAt = none ∧ (u.pair.partnerHalt = r.halted ∧ u.pair.partnerDorm = r.dorm) ∧ (p.state = 3 ∨ (r.halted = false ∧ r.diverged = false) → u.pair.state = p.state ∧ u.pair.fencing = p.fencing) ∧
        (p.state = 4 → r.halted = true → u.pair.state = 2 ∧ u.pair.fencing = true) ∧ (p.state = 4 → r.halted = false → r.diverged = true → u.pair.state = 3 ∧ u.pair.fencing = true)) ∧
      (satInc 8 p.missed < 3 → exec .returnFrameMissed s = .next { s with d := { s.d with pair := { p with missed := satInc 8 p.missed } } }) ∧
      (3 ≤ satInc 8 p.missed → ∃ u, exec .returnFrameMissed s = .next { s with d := u } ∧ lost u)) ∧
    (let due := p.state = 8 ∧ 2 ≤ p.missed ∧ p.f0 + 4 ≤ s.d.ms + 1
     (¬due → exec .takeover s = .next s) ∧ (due → ∃ t, exec .takeover s = .next t ∧ took 1 t)) ∧
    (p.wakeAt = none → exec .wakeGraceTimeout s = .next s) ∧
    (∀ t0, p.wakeAt = some t0 →
      (s.d.ms < t0 + s.c.wakeGrace → exec .wakeGraceTimeout s = .next s) ∧
      (t0 + s.c.wakeGrace ≤ s.d.ms →
        (s.d.glb.role = .active → p.state = 2 → exec .wakeGraceTimeout s = .next { s with d := { s.d with pair := { p with wakeAt := none } } }) ∧
        (s.d.glb.role = .active → p.state ≠ 2 → ∃ u, exec .wakeGraceTimeout s = .next { s with d := u } ∧ lost u) ∧
        (s.d.glb.role ≠ .active → synced → ∃ t, exec .wakeGraceTimeout s = .next t ∧ took 4 t) ∧
        (s.d.glb.role ≠ .active → ¬synced → exec .wakeGraceTimeout s = .next { s with d := setRole .standby { s.d with pair := { seeking with wakeAt := none } } }))) ∧
    (p.switchAt = none → exec .handover s = .next s) ∧
    (∀ t0, p.switchAt = some t0 →
      (s.d.ms + 1 < t0 → exec .handover s = .next s) ∧
      (t0 ≤ s.d.ms + 1 →
        (s.d.glb.role = .active → p.switchCause ≠ 3 → ∃ u, exec .handover s = .next { s with d := u } ∧ left { p with state := 7, missed := 0 } u) ∧
        (s.d.glb.role = .active → p.switchCause = 3 → ∃ u, exec .handover s = .next { s with d := u } ∧ left { p with state := 9, seekAt := s.d.ms, claim := false, join := none, acceptPend := false } u) ∧
        (s.d.glb.role ≠ .active → ¬synced → exec .handover s = .next s) ∧
        (s.d.glb.role ≠ .active → synced → p.switchCause = 3 → ∃ t, exec .handover s = .next t ∧ took 3 t) ∧
        (s.d.glb.role ≠ .active → synced → p.switchCause ≠ 3 → ∃ t, exec .handover s = .next t ∧ entered p.switchCause t ∧ t.d.pair.state = 4 ∧ t.d.pair.fencing = p.fencing ∧ t.d.pair.imageOk = true ∧ t.d.pair.thread = if p.thread = 1 then 3 else p.thread))) ∧
    (p.state = 0 ∨ (pk.crcOk = true ∧ ¬(s.d.standby = true ∧ p.thread = 1)) → exec (.pairLinkPacket pk) s = .next s) ∧
    (p.state ≠ 0 → pk.crcOk = false → ∃ u, exec (.pairLinkPacket pk) s = .next { s with d := u } ∧ broken u) ∧
    (p.state ≠ 0 → pk.crcOk = true → s.d.standby = true → p.thread = 1 → ∃ a q, exec (.pairLinkPacket pk) s = .next { s with d := { s.d with arc := a, pair := q } } ∧
      p.threadSeq ≤ q.threadSeq ∧ ∀ r ∈ pk.recs, r.seq < q.threadSeq) ∧
    (∀ q, p.state ≠ 0 → pk.crcOk = true → s.d.standby = true → p.thread = 1 → pk.recs = [q] →
      (q.seq < p.threadSeq → exec (.pairLinkPacket pk) s = .next s) ∧
      (p.threadSeq ≤ q.seq → exec (.pairLinkPacket pk) s = .next { s with d := { s.d with arc := (mirrorRec q s.d).arc, pair := { p with
        threadSeq := q.seq + 1, threadEnd := max p.threadEnd (q.seq + 1), done := p.done + 32 + q.body.length } } }))

/-- PARTNER_ANSWER, PARTNER_JOIN, PAIR_CMD.ACCEPT, REJECT, SWITCH and RESYNC, PARTNER_IMAGE_RECEIVED, PARTNER_SYNCED, COMMIT_PARTNER_RESULT and THREAD_DONE (R544 to R565), each also where
nothing is due. Which of two halves with equal SEAT yields, and what a divergence fences, are choices of the model (notes 56 and 57). -/
def Obligations.PairJoin : Prop :=
  ∀ (a : RoleAnswer) (j : JoinReport) (bytes : List Byte) (keep : Bool) (total code : Nat) (s : State),
    let p := s.d.pair
    let lines := fun (u : Dyn) => s.d.glb.st ≠ .boot → s.d.pwr.resetFrom.isSome = false → ∀ g, g < 6 → (u.grp g).line = if u.pair.fenced then 2 else 0
    let quiet := fun (u : Dyn) => Alike { u with pair := p } s.d
    let field := fun (u : Dyn) => Alike { u with pair := p, fld := s.d.fld } s.d
    let copies := fun (u : Dyn) => u.pair.state = 3 ∧ u.pair.imageOk = true ∧ u.pair.fencing = true ∧ u.pair.resyncs = satInc 16 p.resyncs ∧ lines u
    let admits := fun (j : JoinReport) (u : Dyn) => u.pair.join = some j ∧ u.pair.acceptPend = false ∧ u.pair.missed = 0 ∧ (j.digest = s.d.cfg.digest → copies u) ∧
      (j.digest ≠ s.d.cfg.digest → u.pair.state = 3 ∧ u.pair.imageOk = false ∧ u.pair.fencing = p.fencing)
    let told := fun (code : Nat) => exec (.accept) s = .next { s with d := { s.d with pair := { p with cmdResult := code, reason := code } } }
    let conflict := fun (u : Dyn) => s.d.openCode 0x3000 [0x3065] = false → Opened s.d u 0x3000 0x3065 2 0 0 false false
    (let asks := (p.state = 1 ∧ p.claim = false) ∨ p.state = 5
     (¬asks → exec (.partnerAnswer a) s = .next s) ∧
     (asks → ∃ u, exec (.partnerAnswer a) s = .next { s with d := u } ∧ Alike { u with pair := p, fld := s.d.fld, afe := s.d.afe, mst := s.d.mst, glb := { u.glb with role := s.d.glb.role } } s.d ∧ u.pair.present = true ∧ u.pair.pid = a.id % 2 ^ 64 ∧
       (a.seat = p.seat → conflict u) ∧ (a.seat ≠ p.seat → Closed s.d u 0x3000 [0x3065]) ∧
       (a.active = true ∨ p.state = 5 → (a.seat = p.seat → u.pair.state = 9 ∧ u.glb.role = .standby ∧ u.pair.claim = false) ∧ (a.seat ≠ p.seat → u.pair.state = (if a.hold then 5 else 6) ∧ u.glb.role = s.d.glb.role)) ∧
       (a.active = false → p.state = 1 → (p.seat = true → u.pair.claim = true ∧ u.pair.fencing = true ∧ u.pair.state = 1 ∧ lines u) ∧
         (p.seat = false → a.seat = false → u.pair.state = 9 ∧ u.glb.role = .standby) ∧ (p.seat = false → a.seat = true → u.pair.state = 6)))) ∧
    (let meets := s.d.glb.role = .active ∧ (p.state = 2 ∨ p.state = 3)
     let known := j.id ≠ 0 ∧ ((j.id ≠ s.c.fx.id ∧ (j.id = s.c.known 0 ∨ j.id = s.c.known 1)) ∨ p.accepted.contains j.id = true)
     (¬meets → exec (.partnerJoin j) s = .next s) ∧
     (meets → ∃ u, exec (.partnerJoin j) s = .next { s with d := u } ∧ field u ∧ u.pair.present = true ∧ u.pair.pid = j.id % 2 ^ 64 ∧
       (j.seat = p.seat → u.pair.state = 2 ∧ conflict u) ∧
       (j.seat ≠ p.seat → j.variant % 65536 ≠ s.c.fx.word → u.pair.state = 2 ∧ (s.d.flt.find 0x3000 = none → Opened s.d u 0x3000 0x3063 1 0 0 false false)) ∧
       (j.seat ≠ p.seat → j.variant % 65536 = s.c.fx.word → known → admits j u) ∧
       (j.seat ≠ p.seat → j.variant % 65536 = s.c.fx.word → ¬known → u.pair.state = 3 ∧ u.pair.acceptPend = true ∧ u.pair.join = some j ∧
         (s.d.flt.find 0x3000 = none → Opened s.d u 0x3000 0x3062 1 (j.id % 2 ^ 32) (j.id / 2 ^ 32 % 2 ^ 32) false false)))) ∧
    (HostRuns 0x400024 false s →
      (p.acceptPend = false ∨ p.join = none → told 0x3042) ∧
      (s.d.glb.role = .active → p.acceptPend = true → p.join = some j → ∃ u, exec .accept s = .next { s with d := u } ∧ field u ∧ u.pair.cmdResult = 0 ∧ u.pair.accepted = j.id :: p.accepted ∧ admits j u) ∧
      (p.acceptPend = false → exec .reject s = .next { s with d := { s.d with pair := { p with cmdResult := 0x3042, reason := 0x3042 } } }) ∧
      (p.acceptPend = true → ∃ u, exec .reject s = .next { s with d := u } ∧ quiet u ∧ u.pair = { p with cmdResult := 0, acceptPend := false, join := none, state := 2 } ∧
        (s.d.flt.find 0x3000 = none → Opened s.d u 0x3000 0x3063 1 0 0 false false)) ∧
      (s.d.glb.role ≠ .active → exec .switch s = .next { s with d := { s.d with pair := { p with cmdResult := 0x300D, reason := 0x300D } } }) ∧
      (s.d.glb.role = .active → p.state ≠ 4 ∨ p.partnerHalt = true → exec .switch s = .next { s with d := { s.d with pair := { p with cmdResult := 0x3043, reason := 0x3043 } } }) ∧
      (s.d.glb.role = .active → p.state = 4 → p.partnerHalt = false → exec .switch s = .next { s with d := { s.d with pair := { p with cmdResult := 0, switchAt := some (s.d.ms + 1), switchCause := 2 } } })) ∧
    (HostRuns 0x400024 true s →
      (let joined := p.state = 4 ∨ p.state = 6 ∨ p.state = 7 ∨ (p.state = 3 ∧ p.imageOk = true)
       (¬joined → exec .resync s = .next { s with d := { s.d with pair := { p with cmdResult := 0x300D, reason := 0x300D } } }) ∧
       (joined → s.d.glb.role = .active → ∃ u, exec .resync s = .next { s with d := u } ∧ field u ∧ u.pair.cmdResult = 0 ∧ copies u) ∧
       (joined → s.d.glb.role ≠ .active → exec .resync s = .next { s with d := { s.d with pair := { p with cmdResult := 0, resyncs := satInc 16 p.resyncs, state := 6 } } }))) ∧
    (let joins := (s.d.standby = true ∧ p.state ≠ 0) ∨ (s.d.glb.st = .safe ∧ s.c.img.ok = false ∧ s.c.fx.pair = true)
     let sage := checkImage s.c s.d 3 (imageBytes bytes)
     (¬joins → exec (.partnerImageReceived bytes) s = .next s) ∧
     (joins → ∀ x, sage.1 = some x → ∃ u, exec (.partnerImageReceived bytes) s = .next { s with d := u } ∧ u.cfg.lastReason = x.1.code ∧ (s.d.standby = true → u.pair.state = 9 ∧ u.glb.role = .standby)) ∧
     (joins → sage.1 = none → ∃ t, exec (.partnerImageReceived bytes) s = .next t ∧
       (s.c.img.ok = false → t.c.img = sage.2.img ∧ t.d.glb.st = s.d.glb.st ∧ (s.d.glb.st = .safe → t.d.glb.runReq = some 0 ∧ t.d.glb.runCommit = true) ∧ t.d.glb.role = .standby ∧ t.d.pair.state = 6) ∧
       (s.c.img.ok = true → t.c = applyOver s.c sage.2 ∧ t.d.glb.st = s.d.glb.st ∧ t.d.glb.role = s.d.glb.role ∧ t.d.cfg.digest = imageDigest sage.2.img.bytes))) ∧
    (let act := s.d.glb.role = .active ∧ p.state = 3 ∧ p.imageOk = true
     let stb := s.d.glb.role = .standby ∧ p.state = 6
     (¬act → ¬stb → exec (.partnerSynced keep total) s = .next s) ∧
     (act → ∃ u, exec (.partnerSynced keep total) s = .next { s with d := u } ∧ field u ∧ lines u ∧ u.pair.state = 4 ∧ u.pair.fencing = false ∧ Closed s.d u 0x3000 [0x3060, 0x3064, 0x3066, 0x3067] ∧
       ∀ j, p.join = some j → u.pair.thread = 1 ∧ u.pair.threadSeq = (threadFrom j s.d).1 ∧ u.pair.total = (threadFrom j s.d).2 ∧ u.pair.done = 0 ∧ u.pair.missed = 0) ∧
     (stb → ∃ u, exec (.partnerSynced keep total) s = .next { s with d := u } ∧ Alike { u with pair := p, arc := s.d.arc } s.d ∧ u.pair.state = 7 ∧ u.pair.thread = 1 ∧ u.pair.total = total ∧ u.pair.done = 0 ∧
       Closed s.d u 0x3000 [0x3060, 0x3064, 0x3066, 0x3067] ∧ (keep = true → u.arc = s.d.arc ∧ u.pair.threadSeq = s.d.arc.seq) ∧
       (keep = false → u.arc.queue = [] ∧ u.pair.threadSeq = 0 ∧ ∀ k x, (k, x) ∈ s.d.arc.bands → 2 ≤ x.cond → (u.band k).cond = 1 ∧ (u.band k).subs = []))) ∧
    (∀ k, s.d.cfg.commit = some k →
      (k.toPartner = false → exec (.commitPartnerResult code) s = .next s) ∧
      (k.toPartner = true →
        (let sage := (checkImage s.c s.d 3 k.bytes).2
         let t := commitDo { k with toPartner := false } sage s
         (code = 0 ∨ t.d.pair.state ≠ 4 → exec (.commitPartnerResult code) s = .next t) ∧
         (code ≠ 0 → t.d.pair.state = 4 → ∃ u, exec (.commitPartnerResult code) s = .next { t with d := u } ∧ Alike { u with pair := t.d.pair, fld := t.d.fld } t.d ∧
           u.pair = { t.d.pair with state := 2, imageOk := false, join := none, fencing := true }) ∧
         (k.mode ≠ 2 → s.c.img.ok = true → t.c.img = sage.img ∧ t.c.reg.w = sage.reg.w ∧ t.d.cfg.commit = none ∧ t.d.cfg.session = .none ∧ t.d.cfg.cmdResult = 0 ∧
           t.d.cfg.digest = imageDigest t.c.img.bytes ∧ (k.mode = 3 → t.d.cfg.wbState = 1)))) ∧
      (k.toPartner = true → k.mode = 2 → ∃ u, exec (.commitPartnerResult code) s = .next { s with d := u } ∧ u.cfg.commit = none ∧ u.cfg.session = .none ∧ u.cfg.wbState = 1 ∧
        (code = 0 ∨ p.state ≠ 4 → u.pair = p) ∧ (code ≠ 0 → p.state = 4 → u.pair.state = 2 ∧ u.pair.fencing = true ∧ u.pair.imageOk = false ∧ lines u))) ∧
    (s.d.cfg.commit = none →
      (let sent := s.d.glb.role = .active ∧ p.state = 3 ∧ p.imageOk = false ∧ p.acceptPend = false
       (¬sent → exec (.commitPartnerResult code) s = .next s) ∧
       (sent → ∃ u, exec (.commitPartnerResult code) s = .next { s with d := u } ∧ field u ∧ (code = 0 → copies u) ∧
         (code ≠ 0 → u.pair = { p with state := 2, join := none } ∧ Opened s.d u 0x3000 0x3067 2 0 code false false)))) ∧
    (p.thread ≠ 1 → exec .threadDone s = .next s) ∧
    (p.thread = 1 → ∃ u, exec .threadDone s = .next { s with d := u } ∧ quiet u ∧ u.pair = { p with thread := 2, done := max p.done p.total } ∧ ∀ m, u.flt.find m = s.d.flt.find m)
end

