-- ==== Sys2Proof/Laws/Tables.lean ====
section
/-! SUPPORT. Sparse tables: what a read gives after a write, the canonical form, and folds over numbers. -/

namespace Sys2Proof.Machine

open Sys2Proof

theorem tget_cons (d : α) (j : Nat) (u : α) (r : Tbl α) (m : Nat) : tget d ((j, u) :: r) m = if j = m then u else tget d r m := rfl

theorem tget_tins (d : α) (t : Tbl α) (k m : Nat) (v : α) : tget d (tins k v t) m = if m = k then v else tget d t m := by
  induction t with
  | nil => simp only [tins, tget, eq_comm]
  | cons p r ih =>
    obtain ⟨j, u⟩ := p
    rw [tins]
    split
    · rw [tget_cons, if_congr (eq_comm) rfl rfl]
    · split
      · rename_i hj
        subst hj
        simp only [tget_cons]
        by_cases h : m = j
        · simp [h]
        · simp [h, Ne.symm h]
      · rename_i hj
        simp only [tget_cons, ih]
        by_cases h : m = k
        · subst h; simp [hj]
        · simp [h]

theorem tget_tdel (d : α) (t : Tbl α) (k m : Nat) : tget d (tdel k t) m = if m = k then d else tget d t m := by
  induction t with
  | nil => simp [tdel, tget]
  | cons p r ih =>
    obtain ⟨j, u⟩ := p
    by_cases hj : j = k
    · subst hj
      have : tdel j ((j, u) :: r) = tdel j r := by simp [tdel]
      rw [this, ih, tget_cons]
      by_cases h : m = j
      · simp [h]
      · simp [h, Ne.symm h]
    · have : tdel k ((j, u) :: r) = (j, u) :: tdel k r := by simp [tdel, hj]
      rw [this, tget_cons, tget_cons, ih]
      by_cases h : m = k
      · subst h; simp [hj]
      · simp [h]

/-- A table read after a write (of any value, the default among them). -/
theorem tget_tput [DecidableEq α] (d : α) (t : Tbl α) (k m : Nat) (v : α) :
    tget d (tput d t k v) m = if m = k then v else tget d t m := by
  by_cases h : v = d
  · simp [tput, h, tget_tdel]
  · simp [tput, h, tget_tins]

@[simp] theorem tget_tput_same [DecidableEq α] (d : α) (t : Tbl α) (k : Nat) (v : α) : tget d (tput d t k v) k = v := by
  simp [tget_tput]

@[simp] theorem tget_tput_other [DecidableEq α] (d : α) (t : Tbl α) (k m : Nat) (v : α) (h : m ≠ k) :
    tget d (tput d t k v) m = tget d t m := by
  simp [tget_tput, h]

theorem twf_weaken [DecidableEq α] (d : α) (lo lo' : Nat) (t : Tbl α) (h : lo' ≤ lo) (ht : twf d lo t = true) : twf d lo' t = true := by
  cases t with
  | nil => rfl
  | cons p r =>
    simp only [twf, Bool.and_eq_true, decide_eq_true_eq] at ht ⊢
    exact ⟨⟨le_trans h ht.1.1, ht.1.2⟩, ht.2⟩

/-- What folding keeps: a property that every step keeps. -/
theorem forEach_keeps {σ : Type} (P : σ → Prop) (l : List Nat) (s : σ) (g : Nat → σ → σ) (h : ∀ k s, P s → P (g k s)) (hs : P s) :
    P (forEach l s g) := by
  induction l generalizing s with
  | nil => exact hs
  | cons a r ih => exact ih (g a s) (h a s hs)

/-- The same for a fold over any list. -/
theorem foldl_keeps {σ β : Type} (P : σ → Prop) (l : List β) (s : σ) (g : σ → β → σ) (h : ∀ s b, P s → P (g s b)) (hs : P s) :
    P (l.foldl g s) := by
  induction l generalizing s with
  | nil => exact hs
  | cons a r ih => exact ih (g s a) (h s a hs)

/-- A function of the state that no step of a fold changes. -/
theorem forEach_same {σ τ : Type} (p : σ → τ) (l : List Nat) (s : σ) (g : Nat → σ → σ) (h : ∀ k s, p (g k s) = p s) :
    p (forEach l s g) = p s :=
  forEach_keeps (fun x => p x = p s) l s g (fun k x hx => (h k x).trans hx) rfl

theorem foldl_same {σ β τ : Type} (p : σ → τ) (l : List β) (s : σ) (g : σ → β → σ) (h : ∀ s b, p (g s b) = p s) :
    p (l.foldl g s) = p s :=
  foldl_keeps (fun x => p x = p s) l s g (fun x b hx => (h x b).trans hx) rfl

end Sys2Proof.Machine
end

