-- ==== Sys2Proof/Laws/Faults.lean ====
section
/-! SUPPORT. What raising, closing and acknowledging a record can do: the fault manager, GLB_IRQ, and the requests of a HALT or of a
TRIP in SCAN (R432 to R439). -/

namespace Sys2Proof.Machine

open Sys2Proof

/-- What the fault manager's operations may change of `d`. -/
def FltStep (d e : Dyn) : Prop :=
  ∃ f i h b r, e = { d with flt := f, dp := { d.dp with irq := i }, glb := { d.glb with haltCause := h },
                            cfg := { d.cfg with bootHalt := b }, pwr := { d.pwr with runCond := r } }

theorem FltStep.refl (d : Dyn) : FltStep d d := ⟨_, _, _, _, _, rfl⟩

theorem FltStep.trans {d e g : Dyn} (h1 : FltStep d e) (h2 : FltStep e g) : FltStep d g := by
  obtain ⟨f1, i1, a1, b1, r1, k1⟩ := h1
  obtain ⟨f2, i2, a2, b2, r2, k2⟩ := h2
  exact ⟨f2, i2, a2, b2, r2, k2.trans (by rw [k1])⟩

theorem FltStep.flt {d e : Dyn} (h : FltStep d e) (f : Flt) : FltStep d { e with flt := f } :=
  h.trans ⟨f, _, _, _, _, rfl⟩

/-- A change of the fault manager alone. -/
theorem FltStep.put (d : Dyn) (f : Flt) : FltStep d { d with flt := f } := ⟨f, _, _, _, _, rfl⟩

theorem setIrq_step (d : Dyn) (k : Nat) : FltStep d (d.setIrq k) := ⟨_, _, _, _, _, rfl⟩

theorem sevAction_step (d : Dyn) (sev code : Nat) : FltStep d (d.sevAction sev code) := by
  unfold Dyn.sevAction
  split
  · exact ⟨_, _, _, _, _, rfl⟩
  · split
    · exact ⟨_, _, _, _, _, rfl⟩
    · exact .refl d

theorem copyRec_step (d : Dyn) (k : FCopy) : FltStep d (d.copyRec k).1 := ⟨_, _, _, _, _, rfl⟩

theorem noted_step (d : Dyn) (c : Cfg) (code sev : Nat) : FltStep d (d.noted c code sev) := by
  unfold Dyn.noted
  refine .trans ?_ (sevAction_step _ _ _)
  dsimp only
  split
  · exact (FltStep.put d _).trans (setIrq_step _ _)
  · exact FltStep.put d _

theorem fault1_step (d : Dyn) (c : Cfg) (src code sev a b : Nat) (x y : Bool) : FltStep d (d.fault1 c src code sev a b x y).1 := by
  unfold Dyn.fault1
  split
  · exact ((FltStep.put d _).trans (noted_step _ _ _ _)).trans (copyRec_step _ _)
  · lift_lets
    extract_lets
    split
    · exact ((FltStep.put d _).trans (noted_step _ _ _ _)).trans (copyRec_step _ _)
    · exact FltStep.put d _

theorem fault_step (d : Dyn) (c : Cfg) (src code sev a b : Nat) (x y : Bool) : FltStep d (d.fault c src code sev a b x y) := by
  have h := fault1_step d c src code sev a b x y
  unfold Dyn.fault
  generalize d.fault1 c src code sev a b x y = z at h
  obtain ⟨d1, dropped⟩ := z
  dsimp only
  generalize (dropped && d1.flt.dropDue d1.ms) = due
  cases due
  · exact h
  · exact (h.trans (FltStep.put d1 _)).trans (fault1_step _ _ _ _ _ _ _ _ _)

theorem statusCopy_step (d : Dyn) (r : FRec) (x : Bool) : FltStep d (d.statusCopy r x) := (copyRec_step d _).flt _

theorem dropReport_step (d : Dyn) (c : Cfg) : FltStep d (d.dropReport c) := by
  unfold Dyn.dropReport
  split
  · exact (FltStep.put d _).trans (fault1_step _ _ _ _ _ _ _ _ _)
  · exact .refl d

theorem closeRec_step (d : Dyn) (src : Nat) : FltStep d (d.closeRec src) := by
  unfold Dyn.closeRec
  split
  · exact .refl d
  · exact (FltStep.put d _).trans (statusCopy_step _ _ _)

theorem clears_step (d : Dyn) (src : Nat) (codes : List Nat) : FltStep d (d.clears src codes) := by
  unfold Dyn.clears
  split
  · split
    · exact closeRec_step _ _
    · exact .refl d
  · exact .refl d

theorem causeGone_step (d : Dyn) (src : Nat) (codes : List Nat) : FltStep d (d.causeGone src codes) := by
  unfold Dyn.causeGone
  split
  · split
    · split
      · exact closeRec_step _ _
      · exact ⟨_, _, _, _, _, rfl⟩
    · exact .refl d
  · exact .refl d

theorem ackRec_step (d : Dyn) (src : Nat) : FltStep d (d.ackRec src) := by
  unfold Dyn.ackRec
  split
  · exact .refl d
  · dsimp only
    split <;> exact (FltStep.put d _).trans (statusCopy_step _ _ _)

theorem event_step (d : Dyn) (src code sev a b : Nat) : FltStep d (d.event src code sev a b) := by
  unfold Dyn.event Dyn.eventAt
  dsimp only
  split <;> exact ⟨_, _, _, _, _, rfl⟩

/-- The record a source has after its record is put in place. -/
theorem find_insRec (r : FRec) (l : List FRec) (src : Nat) :
    (insRec r l).find? (fun x => x.source == src) = if src = r.source then some r else l.find? (fun x => x.source == src) := by
  induction l with
  | nil => by_cases h : r.source = src <;> simp [insRec, h, eq_comm (a := src)]
  | cons x l ih =>
    rw [insRec]
    split
    · rename_i hx
      by_cases h : src = r.source
      · subst h; simp
      · have h' : ¬ r.source = src := fun e => h e.symm
        simp [h, hx, h']
    · split
      · by_cases h : src = r.source
        · subst h; simp
        · have h' : ¬ r.source = src := fun e => h e.symm
          simp [h, h']
      · rename_i hx _
        by_cases h : src = r.source
        · subst h; simp [hx, ih]
        · by_cases h2 : x.source = src <;> simp [h2, ih, h]

theorem FltStep.alike {d e : Dyn} (h : FltStep d e) : Alike e d := by
  obtain ⟨_, _, _, _, _, rfl⟩ := h
  rfl

theorem copyRec_recs (d : Dyn) (k : FCopy) : (d.copyRec k).1.flt.recs = d.flt.recs := by
  have h : ∀ (f : Flt), (f.enqueue k).1.recs = f.recs := by
    intro f; unfold Flt.enqueue; repeat' split
    all_goals rfl
  exact h d.flt

theorem noted_recs (d : Dyn) (c : Cfg) (code sev : Nat) : (d.noted c code sev).flt.recs = d.flt.recs := by
  unfold Dyn.noted Dyn.sevAction Dyn.setIrq
  dsimp only
  repeat' split
  all_goals rfl

theorem find_source {f : Flt} {src : Nat} {r : FRec} (h : f.find src = some r) : r.source = src := by
  simpa using List.find?_some h

/-- A fault puts one record in its source's place: the new record where none was open. -/
theorem fault1_recs (d : Dyn) (c : Cfg) (src code sev a b : Nat) (x y : Bool) :
    ∃ r : FRec, r.source = src ∧ (d.fault1 c src code sev a b x y).1.flt.recs = insRec r d.flt.recs ∧
      (d.flt.find src = none → r = d.newRec src code sev a b x y) := by
  unfold Dyn.fault1
  split
  · refine ⟨d.newRec src code sev a b x y, rfl, ?_, fun _ => rfl⟩
    dsimp only
    rw [copyRec_recs, noted_recs]
  · rename_i r0 hs
    have es := find_source hs
    lift_lets
    extract_lets occ r1 esc r2 up r3 f1 d1
    have e3 : r3.source = src := by
      simp only [r3, r2, r1]; repeat' split
      all_goals exact es
    refine ⟨r3, e3, ?_, fun hn => by rw [hn] at hs; cases hs⟩
    split
    · rw [copyRec_recs, noted_recs]
    · rfl

theorem find_of_recs {e : Dyn} {r : FRec} {l : List FRec} (h : e.flt.recs = insRec r l) (m : Nat) :
    e.flt.find m = if m = r.source then some r else l.find? (fun x => x.source == m) := by
  rw [Flt.find, h, find_insRec]

theorem fault1_opened (d : Dyn) (c : Cfg) (src code sev a b : Nat) (x y : Bool) :
    (d.flt.find src = none → (d.fault1 c src code sev a b x y).1.flt.find src = some (d.newRec src code sev a b x y)) ∧
    ∀ m, m ≠ src → (d.fault1 c src code sev a b x y).1.flt.find m = d.flt.find m := by
  obtain ⟨r, hr, h, hn⟩ := fault1_recs d c src code sev a b x y
  refine ⟨fun h0 => ?_, fun m hm => ?_⟩
  · rw [find_of_recs h, hn h0]; simp [Dyn.newRec]
  · rw [find_of_recs h, if_neg (by rw [hr]; exact hm)]; rfl

/-- A fault touches no record of another source but the fault queue's own. -/
theorem fault_find_other (d : Dyn) (c : Cfg) (src code sev a b : Nat) (x y : Bool) (m : Nat) (hm : m ≠ src) (hq : m ≠ 0xD100) :
    (d.fault c src code sev a b x y).flt.find m = d.flt.find m := by
  have h := (fault1_opened d c src code sev a b x y).2 m hm
  unfold Dyn.fault
  generalize d.fault1 c src code sev a b x y = z at h ⊢
  obtain ⟨d1, dropped⟩ := z
  dsimp only at h ⊢
  generalize (dropped && d1.flt.dropDue d1.ms) = due
  cases due
  · exact h
  · exact ((fault1_opened { d1 with flt := { d1.flt with dropAt := some d1.ms } } c 0xD100 0xD062 1 0 0 true true).2 m hq).trans h

/-- A fault opens its record (R434), and touches no other source but the fault queue's own. -/
theorem fault_opened (d : Dyn) (c : Cfg) (src code sev a b : Nat) (x y : Bool) (hs : src ≠ 0xD100) :
    Opened d (d.fault c src code sev a b x y) src code sev a b x y := by
  refine ⟨?_, fun m hm hq => fault_find_other d c src code sev a b x y m hm hq⟩
  have h := (fault1_opened d c src code sev a b x y).1
  unfold Dyn.fault
  generalize d.fault1 c src code sev a b x y = z at h ⊢
  obtain ⟨d1, dropped⟩ := z
  dsimp only at h ⊢
  generalize (dropped && d1.flt.dropDue d1.ms) = due
  cases due
  · exact h
  · exact fun h0 => ((fault1_opened { d1 with flt := { d1.flt with dropAt := some d1.ms } } c 0xD100 0xD062 1 0 0 true true).2 src hs).trans (h h0)

theorem find_filter (l : List FRec) (src m : Nat) :
    (l.filter (fun x => x.source ≠ src)).find? (fun x => x.source == m) = if m = src then none else l.find? (fun x => x.source == m) := by
  induction l with
  | nil => simp
  | cons x l ih =>
    by_cases hx : x.source = src
    · rw [List.filter_cons_of_neg (by simp [hx]), ih]
      by_cases hm : m = src
      · simp [hm]
      · have : ¬ src = m := fun e => hm e.symm
        simp [hm, hx, this]
    · rw [List.filter_cons_of_pos (by simp [hx]), List.find?_cons, List.find?_cons]
      by_cases h2 : x.source = m
      · subst h2; simp [hx]
      · have h3 : (x.source == m) = false := by simpa using h2
        rw [h3]; exact ih

theorem closeRec_find (d : Dyn) (src m : Nat) : (d.closeRec src).flt.find m = if m = src then none else d.flt.find m := by
  unfold Dyn.closeRec
  split
  · rename_i h
    by_cases hm : m = src
    · rw [if_pos hm, hm, h]
    · rw [if_neg hm]
  · show ((Dyn.copyRec _ _).1.flt.recs).find? _ = _
    rw [copyRec_recs]
    exact find_filter _ _ _

/-- The Clears condition of a code closes its record (R434). -/
theorem clears_closed (d : Dyn) (src : Nat) (codes : List Nat) : Closed d (d.clears src codes) src codes := by
  unfold Dyn.clears Closed Dyn.openCode
  split
  · rename_i r h
    simp only [h]
    split
    · rename_i hc
      simp only [hc]
      exact ⟨fun _ => by simp [closeRec_find], fun h => by simp at h, fun m hm => by simp [closeRec_find, hm]⟩
    · rename_i hc
      exact ⟨fun h => absurd h hc, fun _ => h, fun _ _ => rfl⟩
  · rename_i h
    simp [h]

/-- The books do not touch the blocks. -/
theorem FltStep.same {d e : Dyn} (h : FltStep d e) : e.tim = d.tim ∧ e.grd = d.grd ∧ e.arc = d.arc ∧ e.afe = d.afe ∧ e.cnv = d.cnv ∧ e.mst = d.mst ∧
    e.cols = d.cols ∧ e.fld = d.fld ∧ e.ctl = d.ctl ∧ e.snap = d.snap ∧ e.seq = d.seq ∧ e.passSnap = d.passSnap ∧ e.can = d.can ∧ e.pair = d.pair ∧
    e.glb.st = d.glb.st ∧ e.glb.role = d.glb.role := by
  obtain ⟨_, _, _, _, _, rfl⟩ := h
  and_intros <;> rfl

/-- Closing depends on the records alone. -/
theorem Closed.of {d d' t t' : Dyn} {src : Nat} {l : List Nat} (h : Closed d t src l) (h1 : d'.flt = d.flt) (h2 : t'.flt = t.flt) :
    Closed d' t' src l := by
  unfold Closed Dyn.openCode at *
  rw [h1, h2]
  exact h

theorem enqueue_events (f : Flt) (k : FCopy) : (f.enqueue k).1.events = f.events := by
  unfold Flt.enqueue
  repeat' split
  all_goals rfl

/-- Closing a record changes the fault manager alone, and no event. -/
theorem closeRec_flt (d : Dyn) (src : Nat) : ∃ f, d.closeRec src = { d with flt := f } ∧ f.events = d.flt.events := by
  unfold Dyn.closeRec
  split
  · exact ⟨d.flt, rfl, rfl⟩
  · exact ⟨_, rfl, enqueue_events _ _⟩

theorem clears_flt (d : Dyn) (src : Nat) (codes : List Nat) : ∃ f, d.clears src codes = { d with flt := f } ∧ f.events = d.flt.events := by
  unfold Dyn.clears
  split
  · split
    · exact closeRec_flt d src
    · exact ⟨d.flt, rfl, rfl⟩
  · exact ⟨d.flt, rfl, rfl⟩

@[simp] theorem clears_glb (d : Dyn) (src : Nat) (codes : List Nat) : (d.clears src codes).glb = d.glb := by
  obtain ⟨f, h, _⟩ := clears_flt d src codes; rw [h]
@[simp] theorem clears_tim (d : Dyn) (src : Nat) (codes : List Nat) : (d.clears src codes).tim = d.tim := by
  obtain ⟨f, h, _⟩ := clears_flt d src codes; rw [h]
@[simp] theorem clears_fld (d : Dyn) (src : Nat) (codes : List Nat) : (d.clears src codes).fld = d.fld := by
  obtain ⟨f, h, _⟩ := clears_flt d src codes; rw [h]
@[simp] theorem clears_events (d : Dyn) (src : Nat) (codes : List Nat) : (d.clears src codes).flt.events = d.flt.events := by
  obtain ⟨f, h, e⟩ := clears_flt d src codes; rw [h]; exact e

@[simp] theorem fault_tim (d : Dyn) (c : Cfg) (src code sev a b : Nat) (x y : Bool) : (d.fault c src code sev a b x y).tim = d.tim :=
  (fault_step d c src code sev a b x y).same.1
@[simp] theorem fault_grd (d : Dyn) (c : Cfg) (src code sev a b : Nat) (x y : Bool) : (d.fault c src code sev a b x y).grd = d.grd :=
  (fault_step d c src code sev a b x y).same.2.1
@[simp] theorem fault_arc (d : Dyn) (c : Cfg) (src code sev a b : Nat) (x y : Bool) : (d.fault c src code sev a b x y).arc = d.arc :=
  (fault_step d c src code sev a b x y).same.2.2.1
@[simp] theorem fault_afe (d : Dyn) (c : Cfg) (src code sev a b : Nat) (x y : Bool) : (d.fault c src code sev a b x y).afe = d.afe :=
  (fault_step d c src code sev a b x y).same.2.2.2.1
@[simp] theorem fault_cnv (d : Dyn) (c : Cfg) (src code sev a b : Nat) (x y : Bool) : (d.fault c src code sev a b x y).cnv = d.cnv :=
  (fault_step d c src code sev a b x y).same.2.2.2.2.1
@[simp] theorem fault_mst (d : Dyn) (c : Cfg) (src code sev a b : Nat) (x y : Bool) : (d.fault c src code sev a b x y).mst = d.mst :=
  (fault_step d c src code sev a b x y).same.2.2.2.2.2.1
@[simp] theorem fault_cols (d : Dyn) (c : Cfg) (src code sev a b : Nat) (x y : Bool) : (d.fault c src code sev a b x y).cols = d.cols :=
  (fault_step d c src code sev a b x y).same.2.2.2.2.2.2.1
@[simp] theorem fault_fld (d : Dyn) (c : Cfg) (src code sev a b : Nat) (x y : Bool) : (d.fault c src code sev a b x y).fld = d.fld :=
  (fault_step d c src code sev a b x y).same.2.2.2.2.2.2.2.1
@[simp] theorem fault_ctl (d : Dyn) (c : Cfg) (src code sev a b : Nat) (x y : Bool) : (d.fault c src code sev a b x y).ctl = d.ctl :=
  (fault_step d c src code sev a b x y).same.2.2.2.2.2.2.2.2.1
@[simp] theorem fault_snap (d : Dyn) (c : Cfg) (src code sev a b : Nat) (x y : Bool) : (d.fault c src code sev a b x y).snap = d.snap :=
  (fault_step d c src code sev a b x y).same.2.2.2.2.2.2.2.2.2.1
@[simp] theorem fault_seq (d : Dyn) (c : Cfg) (src code sev a b : Nat) (x y : Bool) : (d.fault c src code sev a b x y).seq = d.seq :=
  (fault_step d c src code sev a b x y).same.2.2.2.2.2.2.2.2.2.2.1
@[simp] theorem fault_passSnap (d : Dyn) (c : Cfg) (src code sev a b : Nat) (x y : Bool) : (d.fault c src code sev a b x y).passSnap = d.passSnap :=
  (fault_step d c src code sev a b x y).same.2.2.2.2.2.2.2.2.2.2.2.1
@[simp] theorem fault_can (d : Dyn) (c : Cfg) (src code sev a b : Nat) (x y : Bool) : (d.fault c src code sev a b x y).can = d.can :=
  (fault_step d c src code sev a b x y).same.2.2.2.2.2.2.2.2.2.2.2.2.1
@[simp] theorem fault_pair (d : Dyn) (c : Cfg) (src code sev a b : Nat) (x y : Bool) : (d.fault c src code sev a b x y).pair = d.pair :=
  (fault_step d c src code sev a b x y).same.2.2.2.2.2.2.2.2.2.2.2.2.2.1
@[simp] theorem fault_st (d : Dyn) (c : Cfg) (src code sev a b : Nat) (x y : Bool) : (d.fault c src code sev a b x y).glb.st = d.glb.st :=
  (fault_step d c src code sev a b x y).same.2.2.2.2.2.2.2.2.2.2.2.2.2.2.1
@[simp] theorem fault_role (d : Dyn) (c : Cfg) (src code sev a b : Nat) (x y : Bool) : (d.fault c src code sev a b x y).glb.role = d.glb.role :=
  (fault_step d c src code sev a b x y).same.2.2.2.2.2.2.2.2.2.2.2.2.2.2.2

/-- A fault raised after a change that leaves the books and the time alone. -/
theorem fault_opened_after {d d' : Dyn} (c : Cfg) (src code sev a b : Nat) (x y : Bool) (h1 : d'.flt = d.flt) (h2 : d'.tim = d.tim)
    (hs : src ≠ 0xD100) : Opened d (d'.fault c src code sev a b x y) src code sev a b x y := by
  have h := fault_opened d' c src code sev a b x y hs
  have e : d'.newRec src code sev a b x y = d.newRec src code sev a b x y := by simp [Dyn.newRec, h1, h2]
  unfold Opened at *
  rw [h1, e] at h
  exact h

end Sys2Proof.Machine
end

