-- ==== Sys2Proof/Laws/State.lean ====
section
/-! SUPPORT. The accessors of State: what each table entry reads after an entry is set, and which blocks a set leaves alone. -/

namespace Sys2Proof.Machine

open Sys2Proof

@[simp] theorem setBank_same (d : Dyn) (k : Nat) (x : Bank) : (d.setBank k x).bank k = x := by simp [Dyn.bank, Dyn.setBank]
@[simp] theorem setBank_other (d : Dyn) (k m : Nat) (x : Bank) (h : m ≠ k) : (d.setBank k x).bank m = d.bank m := by simp [Dyn.bank, Dyn.setBank, h]
theorem setBank_get (d : Dyn) (k m : Nat) (x : Bank) : (d.setBank k x).bank m = if m = k then x else d.bank m := by
  simp [Dyn.bank, Dyn.setBank, tget_tput]
@[simp] theorem setBank_glb (d : Dyn) (k : Nat) (x : Bank) : (d.setBank k x).glb = d.glb := rfl
@[simp] theorem setBank_pwr (d : Dyn) (k : Nat) (x : Bank) : (d.setBank k x).pwr = d.pwr := rfl
@[simp] theorem setBank_cfg (d : Dyn) (k : Nat) (x : Bank) : (d.setBank k x).cfg = d.cfg := rfl
@[simp] theorem setBank_tim (d : Dyn) (k : Nat) (x : Bank) : (d.setBank k x).tim = d.tim := rfl
@[simp] theorem setBank_flt (d : Dyn) (k : Nat) (x : Bank) : (d.setBank k x).flt = d.flt := rfl
@[simp] theorem setBank_grd (d : Dyn) (k : Nat) (x : Bank) : (d.setBank k x).grd = d.grd := rfl
@[simp] theorem setBank_arc (d : Dyn) (k : Nat) (x : Bank) : (d.setBank k x).arc = d.arc := rfl
@[simp] theorem setBank_dp (d : Dyn) (k : Nat) (x : Bank) : (d.setBank k x).dp = d.dp := rfl
@[simp] theorem setBank_cnv (d : Dyn) (k : Nat) (x : Bank) : (d.setBank k x).cnv = d.cnv := rfl
@[simp] theorem setBank_mst (d : Dyn) (k : Nat) (x : Bank) : (d.setBank k x).mst = d.mst := rfl
@[simp] theorem setBank_cols (d : Dyn) (k : Nat) (x : Bank) : (d.setBank k x).cols = d.cols := rfl
@[simp] theorem setBank_fld (d : Dyn) (k : Nat) (x : Bank) : (d.setBank k x).fld = d.fld := rfl
@[simp] theorem setBank_ctl (d : Dyn) (k : Nat) (x : Bank) : (d.setBank k x).ctl = d.ctl := rfl
@[simp] theorem setBank_snap (d : Dyn) (k : Nat) (x : Bank) : (d.setBank k x).snap = d.snap := rfl
@[simp] theorem setBank_seq (d : Dyn) (k : Nat) (x : Bank) : (d.setBank k x).seq = d.seq := rfl
@[simp] theorem setBank_passSnap (d : Dyn) (k : Nat) (x : Bank) : (d.setBank k x).passSnap = d.passSnap := rfl
@[simp] theorem setBank_can (d : Dyn) (k : Nat) (x : Bank) : (d.setBank k x).can = d.can := rfl
@[simp] theorem setBank_pair (d : Dyn) (k : Nat) (x : Bank) : (d.setBank k x).pair = d.pair := rfl
@[simp] theorem setBank_desc (d : Dyn) (k m : Nat) (x : Bank) : (d.setBank k x).desc m = d.desc m := rfl

@[simp] theorem setDesc_same (d : Dyn) (k : Nat) (x : Desc) : (d.setDesc k x).desc k = x := by simp [Dyn.desc, Dyn.setDesc]
@[simp] theorem setDesc_other (d : Dyn) (k m : Nat) (x : Desc) (h : m ≠ k) : (d.setDesc k x).desc m = d.desc m := by simp [Dyn.desc, Dyn.setDesc, h]
theorem setDesc_get (d : Dyn) (k m : Nat) (x : Desc) : (d.setDesc k x).desc m = if m = k then x else d.desc m := by
  simp [Dyn.desc, Dyn.setDesc, tget_tput]
@[simp] theorem setDesc_glb (d : Dyn) (k : Nat) (x : Desc) : (d.setDesc k x).glb = d.glb := rfl
@[simp] theorem setDesc_pwr (d : Dyn) (k : Nat) (x : Desc) : (d.setDesc k x).pwr = d.pwr := rfl
@[simp] theorem setDesc_cfg (d : Dyn) (k : Nat) (x : Desc) : (d.setDesc k x).cfg = d.cfg := rfl
@[simp] theorem setDesc_tim (d : Dyn) (k : Nat) (x : Desc) : (d.setDesc k x).tim = d.tim := rfl
@[simp] theorem setDesc_flt (d : Dyn) (k : Nat) (x : Desc) : (d.setDesc k x).flt = d.flt := rfl
@[simp] theorem setDesc_grd (d : Dyn) (k : Nat) (x : Desc) : (d.setDesc k x).grd = d.grd := rfl
@[simp] theorem setDesc_arc (d : Dyn) (k : Nat) (x : Desc) : (d.setDesc k x).arc = d.arc := rfl
@[simp] theorem setDesc_dp (d : Dyn) (k : Nat) (x : Desc) : (d.setDesc k x).dp = d.dp := rfl
@[simp] theorem setDesc_cnv (d : Dyn) (k : Nat) (x : Desc) : (d.setDesc k x).cnv = d.cnv := rfl
@[simp] theorem setDesc_mst (d : Dyn) (k : Nat) (x : Desc) : (d.setDesc k x).mst = d.mst := rfl
@[simp] theorem setDesc_cols (d : Dyn) (k : Nat) (x : Desc) : (d.setDesc k x).cols = d.cols := rfl
@[simp] theorem setDesc_fld (d : Dyn) (k : Nat) (x : Desc) : (d.setDesc k x).fld = d.fld := rfl
@[simp] theorem setDesc_ctl (d : Dyn) (k : Nat) (x : Desc) : (d.setDesc k x).ctl = d.ctl := rfl
@[simp] theorem setDesc_snap (d : Dyn) (k : Nat) (x : Desc) : (d.setDesc k x).snap = d.snap := rfl
@[simp] theorem setDesc_seq (d : Dyn) (k : Nat) (x : Desc) : (d.setDesc k x).seq = d.seq := rfl
@[simp] theorem setDesc_passSnap (d : Dyn) (k : Nat) (x : Desc) : (d.setDesc k x).passSnap = d.passSnap := rfl
@[simp] theorem setDesc_can (d : Dyn) (k : Nat) (x : Desc) : (d.setDesc k x).can = d.can := rfl
@[simp] theorem setDesc_pair (d : Dyn) (k : Nat) (x : Desc) : (d.setDesc k x).pair = d.pair := rfl
@[simp] theorem setDesc_bank (d : Dyn) (k m : Nat) (x : Desc) : (d.setDesc k x).bank m = d.bank m := rfl

@[simp] theorem setChan_same (d : Dyn) (k : Nat) (x : Chan) : (d.setChan k x).chan k = x := by simp [Dyn.chan, Dyn.setChan]
@[simp] theorem setChan_other (d : Dyn) (k m : Nat) (x : Chan) (h : m ≠ k) : (d.setChan k x).chan m = d.chan m := by simp [Dyn.chan, Dyn.setChan, h]
theorem setChan_get (d : Dyn) (k m : Nat) (x : Chan) : (d.setChan k x).chan m = if m = k then x else d.chan m := by
  simp [Dyn.chan, Dyn.setChan, tget_tput]
@[simp] theorem setChan_glb (d : Dyn) (k : Nat) (x : Chan) : (d.setChan k x).glb = d.glb := rfl
@[simp] theorem setChan_pwr (d : Dyn) (k : Nat) (x : Chan) : (d.setChan k x).pwr = d.pwr := rfl
@[simp] theorem setChan_cfg (d : Dyn) (k : Nat) (x : Chan) : (d.setChan k x).cfg = d.cfg := rfl
@[simp] theorem setChan_tim (d : Dyn) (k : Nat) (x : Chan) : (d.setChan k x).tim = d.tim := rfl
@[simp] theorem setChan_flt (d : Dyn) (k : Nat) (x : Chan) : (d.setChan k x).flt = d.flt := rfl
@[simp] theorem setChan_grd (d : Dyn) (k : Nat) (x : Chan) : (d.setChan k x).grd = d.grd := rfl
@[simp] theorem setChan_arc (d : Dyn) (k : Nat) (x : Chan) : (d.setChan k x).arc = d.arc := rfl
@[simp] theorem setChan_dp (d : Dyn) (k : Nat) (x : Chan) : (d.setChan k x).dp = d.dp := rfl
@[simp] theorem setChan_afe (d : Dyn) (k : Nat) (x : Chan) : (d.setChan k x).afe = d.afe := rfl
@[simp] theorem setChan_mst (d : Dyn) (k : Nat) (x : Chan) : (d.setChan k x).mst = d.mst := rfl
@[simp] theorem setChan_cols (d : Dyn) (k : Nat) (x : Chan) : (d.setChan k x).cols = d.cols := rfl
@[simp] theorem setChan_fld (d : Dyn) (k : Nat) (x : Chan) : (d.setChan k x).fld = d.fld := rfl
@[simp] theorem setChan_ctl (d : Dyn) (k : Nat) (x : Chan) : (d.setChan k x).ctl = d.ctl := rfl
@[simp] theorem setChan_snap (d : Dyn) (k : Nat) (x : Chan) : (d.setChan k x).snap = d.snap := rfl
@[simp] theorem setChan_seq (d : Dyn) (k : Nat) (x : Chan) : (d.setChan k x).seq = d.seq := rfl
@[simp] theorem setChan_passSnap (d : Dyn) (k : Nat) (x : Chan) : (d.setChan k x).passSnap = d.passSnap := rfl
@[simp] theorem setChan_can (d : Dyn) (k : Nat) (x : Chan) : (d.setChan k x).can = d.can := rfl
@[simp] theorem setChan_pair (d : Dyn) (k : Nat) (x : Chan) : (d.setChan k x).pair = d.pair := rfl
@[simp] theorem setChan_sw (d : Dyn) (k m : Nat) (x : Chan) : (d.setChan k x).sw m = d.sw m := rfl

@[simp] theorem setSw_same (d : Dyn) (k : Nat) (x : Sw) : (d.setSw k x).sw k = x := by simp [Dyn.sw, Dyn.setSw]
@[simp] theorem setSw_other (d : Dyn) (k m : Nat) (x : Sw) (h : m ≠ k) : (d.setSw k x).sw m = d.sw m := by simp [Dyn.sw, Dyn.setSw, h]
theorem setSw_get (d : Dyn) (k m : Nat) (x : Sw) : (d.setSw k x).sw m = if m = k then x else d.sw m := by
  simp [Dyn.sw, Dyn.setSw, tget_tput]
@[simp] theorem setSw_glb (d : Dyn) (k : Nat) (x : Sw) : (d.setSw k x).glb = d.glb := rfl
@[simp] theorem setSw_pwr (d : Dyn) (k : Nat) (x : Sw) : (d.setSw k x).pwr = d.pwr := rfl
@[simp] theorem setSw_cfg (d : Dyn) (k : Nat) (x : Sw) : (d.setSw k x).cfg = d.cfg := rfl
@[simp] theorem setSw_tim (d : Dyn) (k : Nat) (x : Sw) : (d.setSw k x).tim = d.tim := rfl
@[simp] theorem setSw_flt (d : Dyn) (k : Nat) (x : Sw) : (d.setSw k x).flt = d.flt := rfl
@[simp] theorem setSw_grd (d : Dyn) (k : Nat) (x : Sw) : (d.setSw k x).grd = d.grd := rfl
@[simp] theorem setSw_arc (d : Dyn) (k : Nat) (x : Sw) : (d.setSw k x).arc = d.arc := rfl
@[simp] theorem setSw_dp (d : Dyn) (k : Nat) (x : Sw) : (d.setSw k x).dp = d.dp := rfl
@[simp] theorem setSw_afe (d : Dyn) (k : Nat) (x : Sw) : (d.setSw k x).afe = d.afe := rfl
@[simp] theorem setSw_mst (d : Dyn) (k : Nat) (x : Sw) : (d.setSw k x).mst = d.mst := rfl
@[simp] theorem setSw_cols (d : Dyn) (k : Nat) (x : Sw) : (d.setSw k x).cols = d.cols := rfl
@[simp] theorem setSw_fld (d : Dyn) (k : Nat) (x : Sw) : (d.setSw k x).fld = d.fld := rfl
@[simp] theorem setSw_ctl (d : Dyn) (k : Nat) (x : Sw) : (d.setSw k x).ctl = d.ctl := rfl
@[simp] theorem setSw_snap (d : Dyn) (k : Nat) (x : Sw) : (d.setSw k x).snap = d.snap := rfl
@[simp] theorem setSw_seq (d : Dyn) (k : Nat) (x : Sw) : (d.setSw k x).seq = d.seq := rfl
@[simp] theorem setSw_passSnap (d : Dyn) (k : Nat) (x : Sw) : (d.setSw k x).passSnap = d.passSnap := rfl
@[simp] theorem setSw_can (d : Dyn) (k : Nat) (x : Sw) : (d.setSw k x).can = d.can := rfl
@[simp] theorem setSw_pair (d : Dyn) (k : Nat) (x : Sw) : (d.setSw k x).pair = d.pair := rfl
@[simp] theorem setSw_chan (d : Dyn) (k m : Nat) (x : Sw) : (d.setSw k x).chan m = d.chan m := rfl

@[simp] theorem setRegion_same (d : Dyn) (k : Nat) (x : Region) : (d.setRegion k x).region k = x := by simp [Dyn.region, Dyn.setRegion]
@[simp] theorem setRegion_other (d : Dyn) (k m : Nat) (x : Region) (h : m ≠ k) : (d.setRegion k x).region m = d.region m := by simp [Dyn.region, Dyn.setRegion, h]
theorem setRegion_get (d : Dyn) (k m : Nat) (x : Region) : (d.setRegion k x).region m = if m = k then x else d.region m := by
  simp [Dyn.region, Dyn.setRegion, tget_tput]
@[simp] theorem setRegion_glb (d : Dyn) (k : Nat) (x : Region) : (d.setRegion k x).glb = d.glb := rfl
@[simp] theorem setRegion_pwr (d : Dyn) (k : Nat) (x : Region) : (d.setRegion k x).pwr = d.pwr := rfl
@[simp] theorem setRegion_cfg (d : Dyn) (k : Nat) (x : Region) : (d.setRegion k x).cfg = d.cfg := rfl
@[simp] theorem setRegion_tim (d : Dyn) (k : Nat) (x : Region) : (d.setRegion k x).tim = d.tim := rfl
@[simp] theorem setRegion_flt (d : Dyn) (k : Nat) (x : Region) : (d.setRegion k x).flt = d.flt := rfl
@[simp] theorem setRegion_grd (d : Dyn) (k : Nat) (x : Region) : (d.setRegion k x).grd = d.grd := rfl
@[simp] theorem setRegion_dp (d : Dyn) (k : Nat) (x : Region) : (d.setRegion k x).dp = d.dp := rfl
@[simp] theorem setRegion_afe (d : Dyn) (k : Nat) (x : Region) : (d.setRegion k x).afe = d.afe := rfl
@[simp] theorem setRegion_cnv (d : Dyn) (k : Nat) (x : Region) : (d.setRegion k x).cnv = d.cnv := rfl
@[simp] theorem setRegion_mst (d : Dyn) (k : Nat) (x : Region) : (d.setRegion k x).mst = d.mst := rfl
@[simp] theorem setRegion_cols (d : Dyn) (k : Nat) (x : Region) : (d.setRegion k x).cols = d.cols := rfl
@[simp] theorem setRegion_fld (d : Dyn) (k : Nat) (x : Region) : (d.setRegion k x).fld = d.fld := rfl
@[simp] theorem setRegion_ctl (d : Dyn) (k : Nat) (x : Region) : (d.setRegion k x).ctl = d.ctl := rfl
@[simp] theorem setRegion_snap (d : Dyn) (k : Nat) (x : Region) : (d.setRegion k x).snap = d.snap := rfl
@[simp] theorem setRegion_seq (d : Dyn) (k : Nat) (x : Region) : (d.setRegion k x).seq = d.seq := rfl
@[simp] theorem setRegion_passSnap (d : Dyn) (k : Nat) (x : Region) : (d.setRegion k x).passSnap = d.passSnap := rfl
@[simp] theorem setRegion_can (d : Dyn) (k : Nat) (x : Region) : (d.setRegion k x).can = d.can := rfl
@[simp] theorem setRegion_pair (d : Dyn) (k : Nat) (x : Region) : (d.setRegion k x).pair = d.pair := rfl
@[simp] theorem setRegion_band (d : Dyn) (k m : Nat) (x : Region) : (d.setRegion k x).band m = d.band m := rfl
@[simp] theorem setRegion_tag (d : Dyn) (k m : Nat) (x : Region) : (d.setRegion k x).tag m = d.tag m := rfl

@[simp] theorem setBand_same (d : Dyn) (k : Nat) (x : Band) : (d.setBand k x).band k = x := by simp [Dyn.band, Dyn.setBand]
@[simp] theorem setBand_other (d : Dyn) (k m : Nat) (x : Band) (h : m ≠ k) : (d.setBand k x).band m = d.band m := by simp [Dyn.band, Dyn.setBand, h]
theorem setBand_get (d : Dyn) (k m : Nat) (x : Band) : (d.setBand k x).band m = if m = k then x else d.band m := by
  simp [Dyn.band, Dyn.setBand, tget_tput]
@[simp] theorem setBand_glb (d : Dyn) (k : Nat) (x : Band) : (d.setBand k x).glb = d.glb := rfl
@[simp] theorem setBand_pwr (d : Dyn) (k : Nat) (x : Band) : (d.setBand k x).pwr = d.pwr := rfl
@[simp] theorem setBand_cfg (d : Dyn) (k : Nat) (x : Band) : (d.setBand k x).cfg = d.cfg := rfl
@[simp] theorem setBand_tim (d : Dyn) (k : Nat) (x : Band) : (d.setBand k x).tim = d.tim := rfl
@[simp] theorem setBand_flt (d : Dyn) (k : Nat) (x : Band) : (d.setBand k x).flt = d.flt := rfl
@[simp] theorem setBand_grd (d : Dyn) (k : Nat) (x : Band) : (d.setBand k x).grd = d.grd := rfl
@[simp] theorem setBand_dp (d : Dyn) (k : Nat) (x : Band) : (d.setBand k x).dp = d.dp := rfl
@[simp] theorem setBand_afe (d : Dyn) (k : Nat) (x : Band) : (d.setBand k x).afe = d.afe := rfl
@[simp] theorem setBand_cnv (d : Dyn) (k : Nat) (x : Band) : (d.setBand k x).cnv = d.cnv := rfl
@[simp] theorem setBand_mst (d : Dyn) (k : Nat) (x : Band) : (d.setBand k x).mst = d.mst := rfl
@[simp] theorem setBand_cols (d : Dyn) (k : Nat) (x : Band) : (d.setBand k x).cols = d.cols := rfl
@[simp] theorem setBand_fld (d : Dyn) (k : Nat) (x : Band) : (d.setBand k x).fld = d.fld := rfl
@[simp] theorem setBand_ctl (d : Dyn) (k : Nat) (x : Band) : (d.setBand k x).ctl = d.ctl := rfl
@[simp] theorem setBand_snap (d : Dyn) (k : Nat) (x : Band) : (d.setBand k x).snap = d.snap := rfl
@[simp] theorem setBand_seq (d : Dyn) (k : Nat) (x : Band) : (d.setBand k x).seq = d.seq := rfl
@[simp] theorem setBand_passSnap (d : Dyn) (k : Nat) (x : Band) : (d.setBand k x).passSnap = d.passSnap := rfl
@[simp] theorem setBand_can (d : Dyn) (k : Nat) (x : Band) : (d.setBand k x).can = d.can := rfl
@[simp] theorem setBand_pair (d : Dyn) (k : Nat) (x : Band) : (d.setBand k x).pair = d.pair := rfl
@[simp] theorem setBand_region (d : Dyn) (k m : Nat) (x : Band) : (d.setBand k x).region m = d.region m := rfl
@[simp] theorem setBand_tag (d : Dyn) (k m : Nat) (x : Band) : (d.setBand k x).tag m = d.tag m := rfl

@[simp] theorem setTag_same (d : Dyn) (k : Nat) (x : Tag) : (d.setTag k x).tag k = x := by simp [Dyn.tag, Dyn.setTag]
@[simp] theorem setTag_other (d : Dyn) (k m : Nat) (x : Tag) (h : m ≠ k) : (d.setTag k x).tag m = d.tag m := by simp [Dyn.tag, Dyn.setTag, h]
theorem setTag_get (d : Dyn) (k m : Nat) (x : Tag) : (d.setTag k x).tag m = if m = k then x else d.tag m := by
  simp [Dyn.tag, Dyn.setTag, tget_tput]
@[simp] theorem setTag_glb (d : Dyn) (k : Nat) (x : Tag) : (d.setTag k x).glb = d.glb := rfl
@[simp] theorem setTag_pwr (d : Dyn) (k : Nat) (x : Tag) : (d.setTag k x).pwr = d.pwr := rfl
@[simp] theorem setTag_cfg (d : Dyn) (k : Nat) (x : Tag) : (d.setTag k x).cfg = d.cfg := rfl
@[simp] theorem setTag_tim (d : Dyn) (k : Nat) (x : Tag) : (d.setTag k x).tim = d.tim := rfl
@[simp] theorem setTag_flt (d : Dyn) (k : Nat) (x : Tag) : (d.setTag k x).flt = d.flt := rfl
@[simp] theorem setTag_grd (d : Dyn) (k : Nat) (x : Tag) : (d.setTag k x).grd = d.grd := rfl
@[simp] theorem setTag_dp (d : Dyn) (k : Nat) (x : Tag) : (d.setTag k x).dp = d.dp := rfl
@[simp] theorem setTag_afe (d : Dyn) (k : Nat) (x : Tag) : (d.setTag k x).afe = d.afe := rfl
@[simp] theorem setTag_cnv (d : Dyn) (k : Nat) (x : Tag) : (d.setTag k x).cnv = d.cnv := rfl
@[simp] theorem setTag_mst (d : Dyn) (k : Nat) (x : Tag) : (d.setTag k x).mst = d.mst := rfl
@[simp] theorem setTag_cols (d : Dyn) (k : Nat) (x : Tag) : (d.setTag k x).cols = d.cols := rfl
@[simp] theorem setTag_fld (d : Dyn) (k : Nat) (x : Tag) : (d.setTag k x).fld = d.fld := rfl
@[simp] theorem setTag_ctl (d : Dyn) (k : Nat) (x : Tag) : (d.setTag k x).ctl = d.ctl := rfl
@[simp] theorem setTag_snap (d : Dyn) (k : Nat) (x : Tag) : (d.setTag k x).snap = d.snap := rfl
@[simp] theorem setTag_seq (d : Dyn) (k : Nat) (x : Tag) : (d.setTag k x).seq = d.seq := rfl
@[simp] theorem setTag_passSnap (d : Dyn) (k : Nat) (x : Tag) : (d.setTag k x).passSnap = d.passSnap := rfl
@[simp] theorem setTag_can (d : Dyn) (k : Nat) (x : Tag) : (d.setTag k x).can = d.can := rfl
@[simp] theorem setTag_pair (d : Dyn) (k : Nat) (x : Tag) : (d.setTag k x).pair = d.pair := rfl
@[simp] theorem setTag_region (d : Dyn) (k m : Nat) (x : Tag) : (d.setTag k x).region m = d.region m := rfl
@[simp] theorem setTag_band (d : Dyn) (k m : Nat) (x : Tag) : (d.setTag k x).band m = d.band m := rfl

@[simp] theorem setPort_same (d : Dyn) (k : Nat) (x : Port) : (d.setPort k x).port k = x := by simp [Dyn.port, Dyn.setPort]
@[simp] theorem setPort_other (d : Dyn) (k m : Nat) (x : Port) (h : m ≠ k) : (d.setPort k x).port m = d.port m := by simp [Dyn.port, Dyn.setPort, h]
theorem setPort_get (d : Dyn) (k m : Nat) (x : Port) : (d.setPort k x).port m = if m = k then x else d.port m := by
  simp [Dyn.port, Dyn.setPort, tget_tput]
@[simp] theorem setPort_glb (d : Dyn) (k : Nat) (x : Port) : (d.setPort k x).glb = d.glb := rfl
@[simp] theorem setPort_pwr (d : Dyn) (k : Nat) (x : Port) : (d.setPort k x).pwr = d.pwr := rfl
@[simp] theorem setPort_cfg (d : Dyn) (k : Nat) (x : Port) : (d.setPort k x).cfg = d.cfg := rfl
@[simp] theorem setPort_tim (d : Dyn) (k : Nat) (x : Port) : (d.setPort k x).tim = d.tim := rfl
@[simp] theorem setPort_flt (d : Dyn) (k : Nat) (x : Port) : (d.setPort k x).flt = d.flt := rfl
@[simp] theorem setPort_grd (d : Dyn) (k : Nat) (x : Port) : (d.setPort k x).grd = d.grd := rfl
@[simp] theorem setPort_arc (d : Dyn) (k : Nat) (x : Port) : (d.setPort k x).arc = d.arc := rfl
@[simp] theorem setPort_dp (d : Dyn) (k : Nat) (x : Port) : (d.setPort k x).dp = d.dp := rfl
@[simp] theorem setPort_afe (d : Dyn) (k : Nat) (x : Port) : (d.setPort k x).afe = d.afe := rfl
@[simp] theorem setPort_cnv (d : Dyn) (k : Nat) (x : Port) : (d.setPort k x).cnv = d.cnv := rfl
@[simp] theorem setPort_mst (d : Dyn) (k : Nat) (x : Port) : (d.setPort k x).mst = d.mst := rfl
@[simp] theorem setPort_cols (d : Dyn) (k : Nat) (x : Port) : (d.setPort k x).cols = d.cols := rfl
@[simp] theorem setPort_fld (d : Dyn) (k : Nat) (x : Port) : (d.setPort k x).fld = d.fld := rfl
@[simp] theorem setPort_ctl (d : Dyn) (k : Nat) (x : Port) : (d.setPort k x).ctl = d.ctl := rfl
@[simp] theorem setPort_snap (d : Dyn) (k : Nat) (x : Port) : (d.setPort k x).snap = d.snap := rfl
@[simp] theorem setPort_seq (d : Dyn) (k : Nat) (x : Port) : (d.setPort k x).seq = d.seq := rfl
@[simp] theorem setPort_passSnap (d : Dyn) (k : Nat) (x : Port) : (d.setPort k x).passSnap = d.passSnap := rfl
@[simp] theorem setPort_pair (d : Dyn) (k : Nat) (x : Port) : (d.setPort k x).pair = d.pair := rfl
@[simp] theorem setPort_mapS (d : Dyn) (k m : Nat) (x : Port) : (d.setPort k x).mapS m = d.mapS m := rfl

@[simp] theorem setMapS_same (d : Dyn) (k : Nat) (x : MapS) : (d.setMapS k x).mapS k = x := by simp [Dyn.mapS, Dyn.setMapS]
@[simp] theorem setMapS_other (d : Dyn) (k m : Nat) (x : MapS) (h : m ≠ k) : (d.setMapS k x).mapS m = d.mapS m := by simp [Dyn.mapS, Dyn.setMapS, h]
theorem setMapS_get (d : Dyn) (k m : Nat) (x : MapS) : (d.setMapS k x).mapS m = if m = k then x else d.mapS m := by
  simp [Dyn.mapS, Dyn.setMapS, tget_tput]
@[simp] theorem setMapS_glb (d : Dyn) (k : Nat) (x : MapS) : (d.setMapS k x).glb = d.glb := rfl
@[simp] theorem setMapS_pwr (d : Dyn) (k : Nat) (x : MapS) : (d.setMapS k x).pwr = d.pwr := rfl
@[simp] theorem setMapS_cfg (d : Dyn) (k : Nat) (x : MapS) : (d.setMapS k x).cfg = d.cfg := rfl
@[simp] theorem setMapS_tim (d : Dyn) (k : Nat) (x : MapS) : (d.setMapS k x).tim = d.tim := rfl
@[simp] theorem setMapS_flt (d : Dyn) (k : Nat) (x : MapS) : (d.setMapS k x).flt = d.flt := rfl
@[simp] theorem setMapS_grd (d : Dyn) (k : Nat) (x : MapS) : (d.setMapS k x).grd = d.grd := rfl
@[simp] theorem setMapS_arc (d : Dyn) (k : Nat) (x : MapS) : (d.setMapS k x).arc = d.arc := rfl
@[simp] theorem setMapS_dp (d : Dyn) (k : Nat) (x : MapS) : (d.setMapS k x).dp = d.dp := rfl
@[simp] theorem setMapS_afe (d : Dyn) (k : Nat) (x : MapS) : (d.setMapS k x).afe = d.afe := rfl
@[simp] theorem setMapS_cnv (d : Dyn) (k : Nat) (x : MapS) : (d.setMapS k x).cnv = d.cnv := rfl
@[simp] theorem setMapS_mst (d : Dyn) (k : Nat) (x : MapS) : (d.setMapS k x).mst = d.mst := rfl
@[simp] theorem setMapS_cols (d : Dyn) (k : Nat) (x : MapS) : (d.setMapS k x).cols = d.cols := rfl
@[simp] theorem setMapS_fld (d : Dyn) (k : Nat) (x : MapS) : (d.setMapS k x).fld = d.fld := rfl
@[simp] theorem setMapS_ctl (d : Dyn) (k : Nat) (x : MapS) : (d.setMapS k x).ctl = d.ctl := rfl
@[simp] theorem setMapS_snap (d : Dyn) (k : Nat) (x : MapS) : (d.setMapS k x).snap = d.snap := rfl
@[simp] theorem setMapS_seq (d : Dyn) (k : Nat) (x : MapS) : (d.setMapS k x).seq = d.seq := rfl
@[simp] theorem setMapS_passSnap (d : Dyn) (k : Nat) (x : MapS) : (d.setMapS k x).passSnap = d.passSnap := rfl
@[simp] theorem setMapS_pair (d : Dyn) (k : Nat) (x : MapS) : (d.setMapS k x).pair = d.pair := rfl
@[simp] theorem setMapS_port (d : Dyn) (k m : Nat) (x : MapS) : (d.setMapS k x).port m = d.port m := rfl

@[simp] theorem setCol_same (d : Dyn) (k : Nat) (x : Col) : (d.setCol k x).col k = x := by simp [Dyn.col, Dyn.setCol]
@[simp] theorem setCol_other (d : Dyn) (k m : Nat) (x : Col) (h : m ≠ k) : (d.setCol k x).col m = d.col m := by simp [Dyn.col, Dyn.setCol, h]
theorem setCol_get (d : Dyn) (k m : Nat) (x : Col) : (d.setCol k x).col m = if m = k then x else d.col m := by
  simp [Dyn.col, Dyn.setCol, tget_tput]
@[simp] theorem setCol_glb (d : Dyn) (k : Nat) (x : Col) : (d.setCol k x).glb = d.glb := rfl
@[simp] theorem setCol_pwr (d : Dyn) (k : Nat) (x : Col) : (d.setCol k x).pwr = d.pwr := rfl
@[simp] theorem setCol_cfg (d : Dyn) (k : Nat) (x : Col) : (d.setCol k x).cfg = d.cfg := rfl
@[simp] theorem setCol_tim (d : Dyn) (k : Nat) (x : Col) : (d.setCol k x).tim = d.tim := rfl
@[simp] theorem setCol_flt (d : Dyn) (k : Nat) (x : Col) : (d.setCol k x).flt = d.flt := rfl
@[simp] theorem setCol_grd (d : Dyn) (k : Nat) (x : Col) : (d.setCol k x).grd = d.grd := rfl
@[simp] theorem setCol_arc (d : Dyn) (k : Nat) (x : Col) : (d.setCol k x).arc = d.arc := rfl
@[simp] theorem setCol_dp (d : Dyn) (k : Nat) (x : Col) : (d.setCol k x).dp = d.dp := rfl
@[simp] theorem setCol_afe (d : Dyn) (k : Nat) (x : Col) : (d.setCol k x).afe = d.afe := rfl
@[simp] theorem setCol_cnv (d : Dyn) (k : Nat) (x : Col) : (d.setCol k x).cnv = d.cnv := rfl
@[simp] theorem setCol_mst (d : Dyn) (k : Nat) (x : Col) : (d.setCol k x).mst = d.mst := rfl
@[simp] theorem setCol_fld (d : Dyn) (k : Nat) (x : Col) : (d.setCol k x).fld = d.fld := rfl
@[simp] theorem setCol_ctl (d : Dyn) (k : Nat) (x : Col) : (d.setCol k x).ctl = d.ctl := rfl
@[simp] theorem setCol_snap (d : Dyn) (k : Nat) (x : Col) : (d.setCol k x).snap = d.snap := rfl
@[simp] theorem setCol_seq (d : Dyn) (k : Nat) (x : Col) : (d.setCol k x).seq = d.seq := rfl
@[simp] theorem setCol_passSnap (d : Dyn) (k : Nat) (x : Col) : (d.setCol k x).passSnap = d.passSnap := rfl
@[simp] theorem setCol_can (d : Dyn) (k : Nat) (x : Col) : (d.setCol k x).can = d.can := rfl
@[simp] theorem setCol_pair (d : Dyn) (k : Nat) (x : Col) : (d.setCol k x).pair = d.pair := rfl

@[simp] theorem setGrp_same (d : Dyn) (k : Nat) (x : FGrp) : (d.setGrp k x).grp k = x := by simp [Dyn.grp, Dyn.setGrp]
@[simp] theorem setGrp_other (d : Dyn) (k m : Nat) (x : FGrp) (h : m ≠ k) : (d.setGrp k x).grp m = d.grp m := by simp [Dyn.grp, Dyn.setGrp, h]
theorem setGrp_get (d : Dyn) (k m : Nat) (x : FGrp) : (d.setGrp k x).grp m = if m = k then x else d.grp m := by
  simp [Dyn.grp, Dyn.setGrp, tget_tput]
@[simp] theorem setGrp_glb (d : Dyn) (k : Nat) (x : FGrp) : (d.setGrp k x).glb = d.glb := rfl
@[simp] theorem setGrp_pwr (d : Dyn) (k : Nat) (x : FGrp) : (d.setGrp k x).pwr = d.pwr := rfl
@[simp] theorem setGrp_cfg (d : Dyn) (k : Nat) (x : FGrp) : (d.setGrp k x).cfg = d.cfg := rfl
@[simp] theorem setGrp_tim (d : Dyn) (k : Nat) (x : FGrp) : (d.setGrp k x).tim = d.tim := rfl
@[simp] theorem setGrp_flt (d : Dyn) (k : Nat) (x : FGrp) : (d.setGrp k x).flt = d.flt := rfl
@[simp] theorem setGrp_grd (d : Dyn) (k : Nat) (x : FGrp) : (d.setGrp k x).grd = d.grd := rfl
@[simp] theorem setGrp_arc (d : Dyn) (k : Nat) (x : FGrp) : (d.setGrp k x).arc = d.arc := rfl
@[simp] theorem setGrp_dp (d : Dyn) (k : Nat) (x : FGrp) : (d.setGrp k x).dp = d.dp := rfl
@[simp] theorem setGrp_afe (d : Dyn) (k : Nat) (x : FGrp) : (d.setGrp k x).afe = d.afe := rfl
@[simp] theorem setGrp_cnv (d : Dyn) (k : Nat) (x : FGrp) : (d.setGrp k x).cnv = d.cnv := rfl
@[simp] theorem setGrp_mst (d : Dyn) (k : Nat) (x : FGrp) : (d.setGrp k x).mst = d.mst := rfl
@[simp] theorem setGrp_cols (d : Dyn) (k : Nat) (x : FGrp) : (d.setGrp k x).cols = d.cols := rfl
@[simp] theorem setGrp_ctl (d : Dyn) (k : Nat) (x : FGrp) : (d.setGrp k x).ctl = d.ctl := rfl
@[simp] theorem setGrp_snap (d : Dyn) (k : Nat) (x : FGrp) : (d.setGrp k x).snap = d.snap := rfl
@[simp] theorem setGrp_seq (d : Dyn) (k : Nat) (x : FGrp) : (d.setGrp k x).seq = d.seq := rfl
@[simp] theorem setGrp_passSnap (d : Dyn) (k : Nat) (x : FGrp) : (d.setGrp k x).passSnap = d.passSnap := rfl
@[simp] theorem setGrp_can (d : Dyn) (k : Nat) (x : FGrp) : (d.setGrp k x).can = d.can := rfl
@[simp] theorem setGrp_pair (d : Dyn) (k : Nat) (x : FGrp) : (d.setGrp k x).pair = d.pair := rfl
@[simp] theorem setGrp_dch (d : Dyn) (k m : Nat) (x : FGrp) : (d.setGrp k x).dch m = d.dch m := rfl
@[simp] theorem setGrp_mch (d : Dyn) (k m : Nat) (x : FGrp) : (d.setGrp k x).mch m = d.mch m := rfl
@[simp] theorem setGrp_dtab (d : Dyn) (k m : Nat) (x : FGrp) : (d.setGrp k x).dtab m = d.dtab m := rfl

@[simp] theorem setDch_same (d : Dyn) (k : Nat) (x : DChan) : (d.setDch k x).dch k = x := by simp [Dyn.dch, Dyn.setDch]
@[simp] theorem setDch_other (d : Dyn) (k m : Nat) (x : DChan) (h : m ≠ k) : (d.setDch k x).dch m = d.dch m := by simp [Dyn.dch, Dyn.setDch, h]
theorem setDch_get (d : Dyn) (k m : Nat) (x : DChan) : (d.setDch k x).dch m = if m = k then x else d.dch m := by
  simp [Dyn.dch, Dyn.setDch, tget_tput]
@[simp] theorem setDch_glb (d : Dyn) (k : Nat) (x : DChan) : (d.setDch k x).glb = d.glb := rfl
@[simp] theorem setDch_pwr (d : Dyn) (k : Nat) (x : DChan) : (d.setDch k x).pwr = d.pwr := rfl
@[simp] theorem setDch_cfg (d : Dyn) (k : Nat) (x : DChan) : (d.setDch k x).cfg = d.cfg := rfl
@[simp] theorem setDch_tim (d : Dyn) (k : Nat) (x : DChan) : (d.setDch k x).tim = d.tim := rfl
@[simp] theorem setDch_flt (d : Dyn) (k : Nat) (x : DChan) : (d.setDch k x).flt = d.flt := rfl
@[simp] theorem setDch_grd (d : Dyn) (k : Nat) (x : DChan) : (d.setDch k x).grd = d.grd := rfl
@[simp] theorem setDch_arc (d : Dyn) (k : Nat) (x : DChan) : (d.setDch k x).arc = d.arc := rfl
@[simp] theorem setDch_dp (d : Dyn) (k : Nat) (x : DChan) : (d.setDch k x).dp = d.dp := rfl
@[simp] theorem setDch_afe (d : Dyn) (k : Nat) (x : DChan) : (d.setDch k x).afe = d.afe := rfl
@[simp] theorem setDch_cnv (d : Dyn) (k : Nat) (x : DChan) : (d.setDch k x).cnv = d.cnv := rfl
@[simp] theorem setDch_mst (d : Dyn) (k : Nat) (x : DChan) : (d.setDch k x).mst = d.mst := rfl
@[simp] theorem setDch_cols (d : Dyn) (k : Nat) (x : DChan) : (d.setDch k x).cols = d.cols := rfl
@[simp] theorem setDch_ctl (d : Dyn) (k : Nat) (x : DChan) : (d.setDch k x).ctl = d.ctl := rfl
@[simp] theorem setDch_snap (d : Dyn) (k : Nat) (x : DChan) : (d.setDch k x).snap = d.snap := rfl
@[simp] theorem setDch_seq (d : Dyn) (k : Nat) (x : DChan) : (d.setDch k x).seq = d.seq := rfl
@[simp] theorem setDch_passSnap (d : Dyn) (k : Nat) (x : DChan) : (d.setDch k x).passSnap = d.passSnap := rfl
@[simp] theorem setDch_can (d : Dyn) (k : Nat) (x : DChan) : (d.setDch k x).can = d.can := rfl
@[simp] theorem setDch_pair (d : Dyn) (k : Nat) (x : DChan) : (d.setDch k x).pair = d.pair := rfl
@[simp] theorem setDch_grp (d : Dyn) (k m : Nat) (x : DChan) : (d.setDch k x).grp m = d.grp m := rfl
@[simp] theorem setDch_mch (d : Dyn) (k m : Nat) (x : DChan) : (d.setDch k x).mch m = d.mch m := rfl
@[simp] theorem setDch_dtab (d : Dyn) (k m : Nat) (x : DChan) : (d.setDch k x).dtab m = d.dtab m := rfl

@[simp] theorem setMch_same (d : Dyn) (k : Nat) (x : MChan) : (d.setMch k x).mch k = x := by simp [Dyn.mch, Dyn.setMch]
@[simp] theorem setMch_other (d : Dyn) (k m : Nat) (x : MChan) (h : m ≠ k) : (d.setMch k x).mch m = d.mch m := by simp [Dyn.mch, Dyn.setMch, h]
theorem setMch_get (d : Dyn) (k m : Nat) (x : MChan) : (d.setMch k x).mch m = if m = k then x else d.mch m := by
  simp [Dyn.mch, Dyn.setMch, tget_tput]
@[simp] theorem setMch_glb (d : Dyn) (k : Nat) (x : MChan) : (d.setMch k x).glb = d.glb := rfl
@[simp] theorem setMch_pwr (d : Dyn) (k : Nat) (x : MChan) : (d.setMch k x).pwr = d.pwr := rfl
@[simp] theorem setMch_cfg (d : Dyn) (k : Nat) (x : MChan) : (d.setMch k x).cfg = d.cfg := rfl
@[simp] theorem setMch_tim (d : Dyn) (k : Nat) (x : MChan) : (d.setMch k x).tim = d.tim := rfl
@[simp] theorem setMch_flt (d : Dyn) (k : Nat) (x : MChan) : (d.setMch k x).flt = d.flt := rfl
@[simp] theorem setMch_grd (d : Dyn) (k : Nat) (x : MChan) : (d.setMch k x).grd = d.grd := rfl
@[simp] theorem setMch_arc (d : Dyn) (k : Nat) (x : MChan) : (d.setMch k x).arc = d.arc := rfl
@[simp] theorem setMch_dp (d : Dyn) (k : Nat) (x : MChan) : (d.setMch k x).dp = d.dp := rfl
@[simp] theorem setMch_afe (d : Dyn) (k : Nat) (x : MChan) : (d.setMch k x).afe = d.afe := rfl
@[simp] theorem setMch_cnv (d : Dyn) (k : Nat) (x : MChan) : (d.setMch k x).cnv = d.cnv := rfl
@[simp] theorem setMch_mst (d : Dyn) (k : Nat) (x : MChan) : (d.setMch k x).mst = d.mst := rfl
@[simp] theorem setMch_cols (d : Dyn) (k : Nat) (x : MChan) : (d.setMch k x).cols = d.cols := rfl
@[simp] theorem setMch_ctl (d : Dyn) (k : Nat) (x : MChan) : (d.setMch k x).ctl = d.ctl := rfl
@[simp] theorem setMch_snap (d : Dyn) (k : Nat) (x : MChan) : (d.setMch k x).snap = d.snap := rfl
@[simp] theorem setMch_seq (d : Dyn) (k : Nat) (x : MChan) : (d.setMch k x).seq = d.seq := rfl
@[simp] theorem setMch_passSnap (d : Dyn) (k : Nat) (x : MChan) : (d.setMch k x).passSnap = d.passSnap := rfl
@[simp] theorem setMch_can (d : Dyn) (k : Nat) (x : MChan) : (d.setMch k x).can = d.can := rfl
@[simp] theorem setMch_pair (d : Dyn) (k : Nat) (x : MChan) : (d.setMch k x).pair = d.pair := rfl
@[simp] theorem setMch_grp (d : Dyn) (k m : Nat) (x : MChan) : (d.setMch k x).grp m = d.grp m := rfl
@[simp] theorem setMch_dch (d : Dyn) (k m : Nat) (x : MChan) : (d.setMch k x).dch m = d.dch m := rfl
@[simp] theorem setMch_dtab (d : Dyn) (k m : Nat) (x : MChan) : (d.setMch k x).dtab m = d.dtab m := rfl

@[simp] theorem setDtab_same (d : Dyn) (k : Nat) (x : DTab) : (d.setDtab k x).dtab k = x := by simp [Dyn.dtab, Dyn.setDtab]
@[simp] theorem setDtab_other (d : Dyn) (k m : Nat) (x : DTab) (h : m ≠ k) : (d.setDtab k x).dtab m = d.dtab m := by simp [Dyn.dtab, Dyn.setDtab, h]
theorem setDtab_get (d : Dyn) (k m : Nat) (x : DTab) : (d.setDtab k x).dtab m = if m = k then x else d.dtab m := by
  simp [Dyn.dtab, Dyn.setDtab, tget_tput]
@[simp] theorem setDtab_glb (d : Dyn) (k : Nat) (x : DTab) : (d.setDtab k x).glb = d.glb := rfl
@[simp] theorem setDtab_pwr (d : Dyn) (k : Nat) (x : DTab) : (d.setDtab k x).pwr = d.pwr := rfl
@[simp] theorem setDtab_cfg (d : Dyn) (k : Nat) (x : DTab) : (d.setDtab k x).cfg = d.cfg := rfl
@[simp] theorem setDtab_tim (d : Dyn) (k : Nat) (x : DTab) : (d.setDtab k x).tim = d.tim := rfl
@[simp] theorem setDtab_flt (d : Dyn) (k : Nat) (x : DTab) : (d.setDtab k x).flt = d.flt := rfl
@[simp] theorem setDtab_grd (d : Dyn) (k : Nat) (x : DTab) : (d.setDtab k x).grd = d.grd := rfl
@[simp] theorem setDtab_arc (d : Dyn) (k : Nat) (x : DTab) : (d.setDtab k x).arc = d.arc := rfl
@[simp] theorem setDtab_dp (d : Dyn) (k : Nat) (x : DTab) : (d.setDtab k x).dp = d.dp := rfl
@[simp] theorem setDtab_afe (d : Dyn) (k : Nat) (x : DTab) : (d.setDtab k x).afe = d.afe := rfl
@[simp] theorem setDtab_cnv (d : Dyn) (k : Nat) (x : DTab) : (d.setDtab k x).cnv = d.cnv := rfl
@[simp] theorem setDtab_mst (d : Dyn) (k : Nat) (x : DTab) : (d.setDtab k x).mst = d.mst := rfl
@[simp] theorem setDtab_cols (d : Dyn) (k : Nat) (x : DTab) : (d.setDtab k x).cols = d.cols := rfl
@[simp] theorem setDtab_ctl (d : Dyn) (k : Nat) (x : DTab) : (d.setDtab k x).ctl = d.ctl := rfl
@[simp] theorem setDtab_snap (d : Dyn) (k : Nat) (x : DTab) : (d.setDtab k x).snap = d.snap := rfl
@[simp] theorem setDtab_seq (d : Dyn) (k : Nat) (x : DTab) : (d.setDtab k x).seq = d.seq := rfl
@[simp] theorem setDtab_passSnap (d : Dyn) (k : Nat) (x : DTab) : (d.setDtab k x).passSnap = d.passSnap := rfl
@[simp] theorem setDtab_can (d : Dyn) (k : Nat) (x : DTab) : (d.setDtab k x).can = d.can := rfl
@[simp] theorem setDtab_pair (d : Dyn) (k : Nat) (x : DTab) : (d.setDtab k x).pair = d.pair := rfl
@[simp] theorem setDtab_grp (d : Dyn) (k m : Nat) (x : DTab) : (d.setDtab k x).grp m = d.grp m := rfl
@[simp] theorem setDtab_dch (d : Dyn) (k m : Nat) (x : DTab) : (d.setDtab k x).dch m = d.dch m := rfl
@[simp] theorem setDtab_mch (d : Dyn) (k m : Nat) (x : DTab) : (d.setDtab k x).mch m = d.mch m := rfl

@[simp] theorem setTerm_same (d : Dyn) (k : Nat) (x : GTerm) : (d.setTerm k x).term k = x := by simp [Dyn.term, Dyn.setTerm]
@[simp] theorem setTerm_other (d : Dyn) (k m : Nat) (x : GTerm) (h : m ≠ k) : (d.setTerm k x).term m = d.term m := by simp [Dyn.term, Dyn.setTerm, h]
theorem setTerm_get (d : Dyn) (k m : Nat) (x : GTerm) : (d.setTerm k x).term m = if m = k then x else d.term m := by
  simp [Dyn.term, Dyn.setTerm, tget_tput]
@[simp] theorem setTerm_glb (d : Dyn) (k : Nat) (x : GTerm) : (d.setTerm k x).glb = d.glb := rfl
@[simp] theorem setTerm_pwr (d : Dyn) (k : Nat) (x : GTerm) : (d.setTerm k x).pwr = d.pwr := rfl
@[simp] theorem setTerm_cfg (d : Dyn) (k : Nat) (x : GTerm) : (d.setTerm k x).cfg = d.cfg := rfl
@[simp] theorem setTerm_tim (d : Dyn) (k : Nat) (x : GTerm) : (d.setTerm k x).tim = d.tim := rfl
@[simp] theorem setTerm_flt (d : Dyn) (k : Nat) (x : GTerm) : (d.setTerm k x).flt = d.flt := rfl
@[simp] theorem setTerm_arc (d : Dyn) (k : Nat) (x : GTerm) : (d.setTerm k x).arc = d.arc := rfl
@[simp] theorem setTerm_dp (d : Dyn) (k : Nat) (x : GTerm) : (d.setTerm k x).dp = d.dp := rfl
@[simp] theorem setTerm_afe (d : Dyn) (k : Nat) (x : GTerm) : (d.setTerm k x).afe = d.afe := rfl
@[simp] theorem setTerm_cnv (d : Dyn) (k : Nat) (x : GTerm) : (d.setTerm k x).cnv = d.cnv := rfl
@[simp] theorem setTerm_mst (d : Dyn) (k : Nat) (x : GTerm) : (d.setTerm k x).mst = d.mst := rfl
@[simp] theorem setTerm_cols (d : Dyn) (k : Nat) (x : GTerm) : (d.setTerm k x).cols = d.cols := rfl
@[simp] theorem setTerm_fld (d : Dyn) (k : Nat) (x : GTerm) : (d.setTerm k x).fld = d.fld := rfl
@[simp] theorem setTerm_ctl (d : Dyn) (k : Nat) (x : GTerm) : (d.setTerm k x).ctl = d.ctl := rfl
@[simp] theorem setTerm_snap (d : Dyn) (k : Nat) (x : GTerm) : (d.setTerm k x).snap = d.snap := rfl
@[simp] theorem setTerm_seq (d : Dyn) (k : Nat) (x : GTerm) : (d.setTerm k x).seq = d.seq := rfl
@[simp] theorem setTerm_passSnap (d : Dyn) (k : Nat) (x : GTerm) : (d.setTerm k x).passSnap = d.passSnap := rfl
@[simp] theorem setTerm_can (d : Dyn) (k : Nat) (x : GTerm) : (d.setTerm k x).can = d.can := rfl
@[simp] theorem setTerm_pair (d : Dyn) (k : Nat) (x : GTerm) : (d.setTerm k x).pair = d.pair := rfl

@[simp] theorem setLp_same (d : Dyn) (k : Nat) (x : LoopS) : (d.setLp k x).lp k = x := by simp [Dyn.lp, Dyn.setLp]
@[simp] theorem setLp_other (d : Dyn) (k m : Nat) (x : LoopS) (h : m ≠ k) : (d.setLp k x).lp m = d.lp m := by simp [Dyn.lp, Dyn.setLp, h]
theorem setLp_get (d : Dyn) (k m : Nat) (x : LoopS) : (d.setLp k x).lp m = if m = k then x else d.lp m := by
  simp [Dyn.lp, Dyn.setLp, tget_tput]
@[simp] theorem setLp_glb (d : Dyn) (k : Nat) (x : LoopS) : (d.setLp k x).glb = d.glb := rfl
@[simp] theorem setLp_pwr (d : Dyn) (k : Nat) (x : LoopS) : (d.setLp k x).pwr = d.pwr := rfl
@[simp] theorem setLp_cfg (d : Dyn) (k : Nat) (x : LoopS) : (d.setLp k x).cfg = d.cfg := rfl
@[simp] theorem setLp_tim (d : Dyn) (k : Nat) (x : LoopS) : (d.setLp k x).tim = d.tim := rfl
@[simp] theorem setLp_flt (d : Dyn) (k : Nat) (x : LoopS) : (d.setLp k x).flt = d.flt := rfl
@[simp] theorem setLp_grd (d : Dyn) (k : Nat) (x : LoopS) : (d.setLp k x).grd = d.grd := rfl
@[simp] theorem setLp_arc (d : Dyn) (k : Nat) (x : LoopS) : (d.setLp k x).arc = d.arc := rfl
@[simp] theorem setLp_dp (d : Dyn) (k : Nat) (x : LoopS) : (d.setLp k x).dp = d.dp := rfl
@[simp] theorem setLp_afe (d : Dyn) (k : Nat) (x : LoopS) : (d.setLp k x).afe = d.afe := rfl
@[simp] theorem setLp_cnv (d : Dyn) (k : Nat) (x : LoopS) : (d.setLp k x).cnv = d.cnv := rfl
@[simp] theorem setLp_mst (d : Dyn) (k : Nat) (x : LoopS) : (d.setLp k x).mst = d.mst := rfl
@[simp] theorem setLp_cols (d : Dyn) (k : Nat) (x : LoopS) : (d.setLp k x).cols = d.cols := rfl
@[simp] theorem setLp_fld (d : Dyn) (k : Nat) (x : LoopS) : (d.setLp k x).fld = d.fld := rfl
@[simp] theorem setLp_snap (d : Dyn) (k : Nat) (x : LoopS) : (d.setLp k x).snap = d.snap := rfl
@[simp] theorem setLp_seq (d : Dyn) (k : Nat) (x : LoopS) : (d.setLp k x).seq = d.seq := rfl
@[simp] theorem setLp_passSnap (d : Dyn) (k : Nat) (x : LoopS) : (d.setLp k x).passSnap = d.passSnap := rfl
@[simp] theorem setLp_can (d : Dyn) (k : Nat) (x : LoopS) : (d.setLp k x).can = d.can := rfl
@[simp] theorem setLp_pair (d : Dyn) (k : Nat) (x : LoopS) : (d.setLp k x).pair = d.pair := rfl
@[simp] theorem setLp_gen (d : Dyn) (k m : Nat) (x : LoopS) : (d.setLp k x).gen m = d.gen m := rfl
@[simp] theorem setLp_ovr (d : Dyn) (k m : Nat) (x : LoopS) : (d.setLp k x).ovr m = d.ovr m := rfl
@[simp] theorem setLp_trc (d : Dyn) (k m : Nat) (x : LoopS) : (d.setLp k x).trc m = d.trc m := rfl

@[simp] theorem setGen_same (d : Dyn) (k : Nat) (x : Gen) : (d.setGen k x).gen k = x := by simp [Dyn.gen, Dyn.setGen]
@[simp] theorem setGen_other (d : Dyn) (k m : Nat) (x : Gen) (h : m ≠ k) : (d.setGen k x).gen m = d.gen m := by simp [Dyn.gen, Dyn.setGen, h]
theorem setGen_get (d : Dyn) (k m : Nat) (x : Gen) : (d.setGen k x).gen m = if m = k then x else d.gen m := by
  simp [Dyn.gen, Dyn.setGen, tget_tput]
@[simp] theorem setGen_glb (d : Dyn) (k : Nat) (x : Gen) : (d.setGen k x).glb = d.glb := rfl
@[simp] theorem setGen_pwr (d : Dyn) (k : Nat) (x : Gen) : (d.setGen k x).pwr = d.pwr := rfl
@[simp] theorem setGen_cfg (d : Dyn) (k : Nat) (x : Gen) : (d.setGen k x).cfg = d.cfg := rfl
@[simp] theorem setGen_tim (d : Dyn) (k : Nat) (x : Gen) : (d.setGen k x).tim = d.tim := rfl
@[simp] theorem setGen_flt (d : Dyn) (k : Nat) (x : Gen) : (d.setGen k x).flt = d.flt := rfl
@[simp] theorem setGen_grd (d : Dyn) (k : Nat) (x : Gen) : (d.setGen k x).grd = d.grd := rfl
@[simp] theorem setGen_arc (d : Dyn) (k : Nat) (x : Gen) : (d.setGen k x).arc = d.arc := rfl
@[simp] theorem setGen_dp (d : Dyn) (k : Nat) (x : Gen) : (d.setGen k x).dp = d.dp := rfl
@[simp] theorem setGen_afe (d : Dyn) (k : Nat) (x : Gen) : (d.setGen k x).afe = d.afe := rfl
@[simp] theorem setGen_cnv (d : Dyn) (k : Nat) (x : Gen) : (d.setGen k x).cnv = d.cnv := rfl
@[simp] theorem setGen_mst (d : Dyn) (k : Nat) (x : Gen) : (d.setGen k x).mst = d.mst := rfl
@[simp] theorem setGen_cols (d : Dyn) (k : Nat) (x : Gen) : (d.setGen k x).cols = d.cols := rfl
@[simp] theorem setGen_fld (d : Dyn) (k : Nat) (x : Gen) : (d.setGen k x).fld = d.fld := rfl
@[simp] theorem setGen_snap (d : Dyn) (k : Nat) (x : Gen) : (d.setGen k x).snap = d.snap := rfl
@[simp] theorem setGen_seq (d : Dyn) (k : Nat) (x : Gen) : (d.setGen k x).seq = d.seq := rfl
@[simp] theorem setGen_passSnap (d : Dyn) (k : Nat) (x : Gen) : (d.setGen k x).passSnap = d.passSnap := rfl
@[simp] theorem setGen_can (d : Dyn) (k : Nat) (x : Gen) : (d.setGen k x).can = d.can := rfl
@[simp] theorem setGen_pair (d : Dyn) (k : Nat) (x : Gen) : (d.setGen k x).pair = d.pair := rfl
@[simp] theorem setGen_lp (d : Dyn) (k m : Nat) (x : Gen) : (d.setGen k x).lp m = d.lp m := rfl
@[simp] theorem setGen_ovr (d : Dyn) (k m : Nat) (x : Gen) : (d.setGen k x).ovr m = d.ovr m := rfl
@[simp] theorem setGen_trc (d : Dyn) (k m : Nat) (x : Gen) : (d.setGen k x).trc m = d.trc m := rfl

@[simp] theorem setOvr_same (d : Dyn) (k : Nat) (x : Ovr) : (d.setOvr k x).ovr k = x := by simp [Dyn.ovr, Dyn.setOvr]
@[simp] theorem setOvr_other (d : Dyn) (k m : Nat) (x : Ovr) (h : m ≠ k) : (d.setOvr k x).ovr m = d.ovr m := by simp [Dyn.ovr, Dyn.setOvr, h]
theorem setOvr_get (d : Dyn) (k m : Nat) (x : Ovr) : (d.setOvr k x).ovr m = if m = k then x else d.ovr m := by
  simp [Dyn.ovr, Dyn.setOvr, tget_tput]
@[simp] theorem setOvr_glb (d : Dyn) (k : Nat) (x : Ovr) : (d.setOvr k x).glb = d.glb := rfl
@[simp] theorem setOvr_pwr (d : Dyn) (k : Nat) (x : Ovr) : (d.setOvr k x).pwr = d.pwr := rfl
@[simp] theorem setOvr_cfg (d : Dyn) (k : Nat) (x : Ovr) : (d.setOvr k x).cfg = d.cfg := rfl
@[simp] theorem setOvr_tim (d : Dyn) (k : Nat) (x : Ovr) : (d.setOvr k x).tim = d.tim := rfl
@[simp] theorem setOvr_flt (d : Dyn) (k : Nat) (x : Ovr) : (d.setOvr k x).flt = d.flt := rfl
@[simp] theorem setOvr_grd (d : Dyn) (k : Nat) (x : Ovr) : (d.setOvr k x).grd = d.grd := rfl
@[simp] theorem setOvr_arc (d : Dyn) (k : Nat) (x : Ovr) : (d.setOvr k x).arc = d.arc := rfl
@[simp] theorem setOvr_dp (d : Dyn) (k : Nat) (x : Ovr) : (d.setOvr k x).dp = d.dp := rfl
@[simp] theorem setOvr_afe (d : Dyn) (k : Nat) (x : Ovr) : (d.setOvr k x).afe = d.afe := rfl
@[simp] theorem setOvr_cnv (d : Dyn) (k : Nat) (x : Ovr) : (d.setOvr k x).cnv = d.cnv := rfl
@[simp] theorem setOvr_mst (d : Dyn) (k : Nat) (x : Ovr) : (d.setOvr k x).mst = d.mst := rfl
@[simp] theorem setOvr_cols (d : Dyn) (k : Nat) (x : Ovr) : (d.setOvr k x).cols = d.cols := rfl
@[simp] theorem setOvr_fld (d : Dyn) (k : Nat) (x : Ovr) : (d.setOvr k x).fld = d.fld := rfl
@[simp] theorem setOvr_snap (d : Dyn) (k : Nat) (x : Ovr) : (d.setOvr k x).snap = d.snap := rfl
@[simp] theorem setOvr_seq (d : Dyn) (k : Nat) (x : Ovr) : (d.setOvr k x).seq = d.seq := rfl
@[simp] theorem setOvr_passSnap (d : Dyn) (k : Nat) (x : Ovr) : (d.setOvr k x).passSnap = d.passSnap := rfl
@[simp] theorem setOvr_can (d : Dyn) (k : Nat) (x : Ovr) : (d.setOvr k x).can = d.can := rfl
@[simp] theorem setOvr_pair (d : Dyn) (k : Nat) (x : Ovr) : (d.setOvr k x).pair = d.pair := rfl
@[simp] theorem setOvr_lp (d : Dyn) (k m : Nat) (x : Ovr) : (d.setOvr k x).lp m = d.lp m := rfl
@[simp] theorem setOvr_gen (d : Dyn) (k m : Nat) (x : Ovr) : (d.setOvr k x).gen m = d.gen m := rfl
@[simp] theorem setOvr_trc (d : Dyn) (k m : Nat) (x : Ovr) : (d.setOvr k x).trc m = d.trc m := rfl

@[simp] theorem setTrc_same (d : Dyn) (k : Nat) (x : Trc) : (d.setTrc k x).trc k = x := by simp [Dyn.trc, Dyn.setTrc]
@[simp] theorem setTrc_other (d : Dyn) (k m : Nat) (x : Trc) (h : m ≠ k) : (d.setTrc k x).trc m = d.trc m := by simp [Dyn.trc, Dyn.setTrc, h]
theorem setTrc_get (d : Dyn) (k m : Nat) (x : Trc) : (d.setTrc k x).trc m = if m = k then x else d.trc m := by
  simp [Dyn.trc, Dyn.setTrc, tget_tput]
@[simp] theorem setTrc_glb (d : Dyn) (k : Nat) (x : Trc) : (d.setTrc k x).glb = d.glb := rfl
@[simp] theorem setTrc_pwr (d : Dyn) (k : Nat) (x : Trc) : (d.setTrc k x).pwr = d.pwr := rfl
@[simp] theorem setTrc_cfg (d : Dyn) (k : Nat) (x : Trc) : (d.setTrc k x).cfg = d.cfg := rfl
@[simp] theorem setTrc_tim (d : Dyn) (k : Nat) (x : Trc) : (d.setTrc k x).tim = d.tim := rfl
@[simp] theorem setTrc_flt (d : Dyn) (k : Nat) (x : Trc) : (d.setTrc k x).flt = d.flt := rfl
@[simp] theorem setTrc_grd (d : Dyn) (k : Nat) (x : Trc) : (d.setTrc k x).grd = d.grd := rfl
@[simp] theorem setTrc_arc (d : Dyn) (k : Nat) (x : Trc) : (d.setTrc k x).arc = d.arc := rfl
@[simp] theorem setTrc_dp (d : Dyn) (k : Nat) (x : Trc) : (d.setTrc k x).dp = d.dp := rfl
@[simp] theorem setTrc_afe (d : Dyn) (k : Nat) (x : Trc) : (d.setTrc k x).afe = d.afe := rfl
@[simp] theorem setTrc_cnv (d : Dyn) (k : Nat) (x : Trc) : (d.setTrc k x).cnv = d.cnv := rfl
@[simp] theorem setTrc_mst (d : Dyn) (k : Nat) (x : Trc) : (d.setTrc k x).mst = d.mst := rfl
@[simp] theorem setTrc_cols (d : Dyn) (k : Nat) (x : Trc) : (d.setTrc k x).cols = d.cols := rfl
@[simp] theorem setTrc_fld (d : Dyn) (k : Nat) (x : Trc) : (d.setTrc k x).fld = d.fld := rfl
@[simp] theorem setTrc_snap (d : Dyn) (k : Nat) (x : Trc) : (d.setTrc k x).snap = d.snap := rfl
@[simp] theorem setTrc_seq (d : Dyn) (k : Nat) (x : Trc) : (d.setTrc k x).seq = d.seq := rfl
@[simp] theorem setTrc_passSnap (d : Dyn) (k : Nat) (x : Trc) : (d.setTrc k x).passSnap = d.passSnap := rfl
@[simp] theorem setTrc_can (d : Dyn) (k : Nat) (x : Trc) : (d.setTrc k x).can = d.can := rfl
@[simp] theorem setTrc_pair (d : Dyn) (k : Nat) (x : Trc) : (d.setTrc k x).pair = d.pair := rfl
@[simp] theorem setTrc_lp (d : Dyn) (k m : Nat) (x : Trc) : (d.setTrc k x).lp m = d.lp m := rfl
@[simp] theorem setTrc_gen (d : Dyn) (k m : Nat) (x : Trc) : (d.setTrc k x).gen m = d.gen m := rfl
@[simp] theorem setTrc_ovr (d : Dyn) (k m : Nat) (x : Trc) : (d.setTrc k x).ovr m = d.ovr m := rfl

@[simp] theorem setCell_same (d : Dyn) (k : Nat) (x : Cell) : (d.setCell k x).cell k = x := by simp [Dyn.cell, Dyn.setCell]
@[simp] theorem setCell_other (d : Dyn) (k m : Nat) (x : Cell) (h : m ≠ k) : (d.setCell k x).cell m = d.cell m := by simp [Dyn.cell, Dyn.setCell, h]
theorem setCell_get (d : Dyn) (k m : Nat) (x : Cell) : (d.setCell k x).cell m = if m = k then x else d.cell m := by
  simp [Dyn.cell, Dyn.setCell, tget_tput]
@[simp] theorem setCell_glb (d : Dyn) (k : Nat) (x : Cell) : (d.setCell k x).glb = d.glb := rfl
@[simp] theorem setCell_pwr (d : Dyn) (k : Nat) (x : Cell) : (d.setCell k x).pwr = d.pwr := rfl
@[simp] theorem setCell_cfg (d : Dyn) (k : Nat) (x : Cell) : (d.setCell k x).cfg = d.cfg := rfl
@[simp] theorem setCell_tim (d : Dyn) (k : Nat) (x : Cell) : (d.setCell k x).tim = d.tim := rfl
@[simp] theorem setCell_flt (d : Dyn) (k : Nat) (x : Cell) : (d.setCell k x).flt = d.flt := rfl
@[simp] theorem setCell_grd (d : Dyn) (k : Nat) (x : Cell) : (d.setCell k x).grd = d.grd := rfl
@[simp] theorem setCell_arc (d : Dyn) (k : Nat) (x : Cell) : (d.setCell k x).arc = d.arc := rfl
@[simp] theorem setCell_dp (d : Dyn) (k : Nat) (x : Cell) : (d.setCell k x).dp = d.dp := rfl
@[simp] theorem setCell_afe (d : Dyn) (k : Nat) (x : Cell) : (d.setCell k x).afe = d.afe := rfl
@[simp] theorem setCell_cnv (d : Dyn) (k : Nat) (x : Cell) : (d.setCell k x).cnv = d.cnv := rfl
@[simp] theorem setCell_cols (d : Dyn) (k : Nat) (x : Cell) : (d.setCell k x).cols = d.cols := rfl
@[simp] theorem setCell_fld (d : Dyn) (k : Nat) (x : Cell) : (d.setCell k x).fld = d.fld := rfl
@[simp] theorem setCell_ctl (d : Dyn) (k : Nat) (x : Cell) : (d.setCell k x).ctl = d.ctl := rfl
@[simp] theorem setCell_snap (d : Dyn) (k : Nat) (x : Cell) : (d.setCell k x).snap = d.snap := rfl
@[simp] theorem setCell_seq (d : Dyn) (k : Nat) (x : Cell) : (d.setCell k x).seq = d.seq := rfl
@[simp] theorem setCell_passSnap (d : Dyn) (k : Nat) (x : Cell) : (d.setCell k x).passSnap = d.passSnap := rfl
@[simp] theorem setCell_can (d : Dyn) (k : Nat) (x : Cell) : (d.setCell k x).can = d.can := rfl
@[simp] theorem setCell_pair (d : Dyn) (k : Nat) (x : Cell) : (d.setCell k x).pair = d.pair := rfl
@[simp] theorem setCell_ctg (d : Dyn) (k m : Nat) (x : Cell) : (d.setCell k x).ctg m = d.ctg m := rfl

@[simp] theorem setCtg_same (d : Dyn) (k : Nat) (x : Ctg) : (d.setCtg k x).ctg k = x := by simp [Dyn.ctg, Dyn.setCtg]
@[simp] theorem setCtg_other (d : Dyn) (k m : Nat) (x : Ctg) (h : m ≠ k) : (d.setCtg k x).ctg m = d.ctg m := by simp [Dyn.ctg, Dyn.setCtg, h]
theorem setCtg_get (d : Dyn) (k m : Nat) (x : Ctg) : (d.setCtg k x).ctg m = if m = k then x else d.ctg m := by
  simp [Dyn.ctg, Dyn.setCtg, tget_tput]
@[simp] theorem setCtg_glb (d : Dyn) (k : Nat) (x : Ctg) : (d.setCtg k x).glb = d.glb := rfl
@[simp] theorem setCtg_pwr (d : Dyn) (k : Nat) (x : Ctg) : (d.setCtg k x).pwr = d.pwr := rfl
@[simp] theorem setCtg_cfg (d : Dyn) (k : Nat) (x : Ctg) : (d.setCtg k x).cfg = d.cfg := rfl
@[simp] theorem setCtg_tim (d : Dyn) (k : Nat) (x : Ctg) : (d.setCtg k x).tim = d.tim := rfl
@[simp] theorem setCtg_flt (d : Dyn) (k : Nat) (x : Ctg) : (d.setCtg k x).flt = d.flt := rfl
@[simp] theorem setCtg_grd (d : Dyn) (k : Nat) (x : Ctg) : (d.setCtg k x).grd = d.grd := rfl
@[simp] theorem setCtg_arc (d : Dyn) (k : Nat) (x : Ctg) : (d.setCtg k x).arc = d.arc := rfl
@[simp] theorem setCtg_dp (d : Dyn) (k : Nat) (x : Ctg) : (d.setCtg k x).dp = d.dp := rfl
@[simp] theorem setCtg_afe (d : Dyn) (k : Nat) (x : Ctg) : (d.setCtg k x).afe = d.afe := rfl
@[simp] theorem setCtg_cnv (d : Dyn) (k : Nat) (x : Ctg) : (d.setCtg k x).cnv = d.cnv := rfl
@[simp] theorem setCtg_cols (d : Dyn) (k : Nat) (x : Ctg) : (d.setCtg k x).cols = d.cols := rfl
@[simp] theorem setCtg_fld (d : Dyn) (k : Nat) (x : Ctg) : (d.setCtg k x).fld = d.fld := rfl
@[simp] theorem setCtg_ctl (d : Dyn) (k : Nat) (x : Ctg) : (d.setCtg k x).ctl = d.ctl := rfl
@[simp] theorem setCtg_snap (d : Dyn) (k : Nat) (x : Ctg) : (d.setCtg k x).snap = d.snap := rfl
@[simp] theorem setCtg_seq (d : Dyn) (k : Nat) (x : Ctg) : (d.setCtg k x).seq = d.seq := rfl
@[simp] theorem setCtg_passSnap (d : Dyn) (k : Nat) (x : Ctg) : (d.setCtg k x).passSnap = d.passSnap := rfl
@[simp] theorem setCtg_can (d : Dyn) (k : Nat) (x : Ctg) : (d.setCtg k x).can = d.can := rfl
@[simp] theorem setCtg_pair (d : Dyn) (k : Nat) (x : Ctg) : (d.setCtg k x).pair = d.pair := rfl
@[simp] theorem setCtg_cell (d : Dyn) (k m : Nat) (x : Ctg) : (d.setCtg k x).cell m = d.cell m := rfl

@[simp] theorem setAct_same (d : Dyn) (k : Nat) (x : Act) : (d.setAct k x).act k = x := by simp [Dyn.act, Dyn.setAct]
@[simp] theorem setAct_other (d : Dyn) (k m : Nat) (x : Act) (h : m ≠ k) : (d.setAct k x).act m = d.act m := by simp [Dyn.act, Dyn.setAct, h]
theorem setAct_get (d : Dyn) (k m : Nat) (x : Act) : (d.setAct k x).act m = if m = k then x else d.act m := by
  simp [Dyn.act, Dyn.setAct, tget_tput]
@[simp] theorem setAct_glb (d : Dyn) (k : Nat) (x : Act) : (d.setAct k x).glb = d.glb := rfl
@[simp] theorem setAct_pwr (d : Dyn) (k : Nat) (x : Act) : (d.setAct k x).pwr = d.pwr := rfl
@[simp] theorem setAct_cfg (d : Dyn) (k : Nat) (x : Act) : (d.setAct k x).cfg = d.cfg := rfl
@[simp] theorem setAct_flt (d : Dyn) (k : Nat) (x : Act) : (d.setAct k x).flt = d.flt := rfl
@[simp] theorem setAct_grd (d : Dyn) (k : Nat) (x : Act) : (d.setAct k x).grd = d.grd := rfl
@[simp] theorem setAct_arc (d : Dyn) (k : Nat) (x : Act) : (d.setAct k x).arc = d.arc := rfl
@[simp] theorem setAct_dp (d : Dyn) (k : Nat) (x : Act) : (d.setAct k x).dp = d.dp := rfl
@[simp] theorem setAct_afe (d : Dyn) (k : Nat) (x : Act) : (d.setAct k x).afe = d.afe := rfl
@[simp] theorem setAct_cnv (d : Dyn) (k : Nat) (x : Act) : (d.setAct k x).cnv = d.cnv := rfl
@[simp] theorem setAct_mst (d : Dyn) (k : Nat) (x : Act) : (d.setAct k x).mst = d.mst := rfl
@[simp] theorem setAct_cols (d : Dyn) (k : Nat) (x : Act) : (d.setAct k x).cols = d.cols := rfl
@[simp] theorem setAct_fld (d : Dyn) (k : Nat) (x : Act) : (d.setAct k x).fld = d.fld := rfl
@[simp] theorem setAct_ctl (d : Dyn) (k : Nat) (x : Act) : (d.setAct k x).ctl = d.ctl := rfl
@[simp] theorem setAct_snap (d : Dyn) (k : Nat) (x : Act) : (d.setAct k x).snap = d.snap := rfl
@[simp] theorem setAct_seq (d : Dyn) (k : Nat) (x : Act) : (d.setAct k x).seq = d.seq := rfl
@[simp] theorem setAct_passSnap (d : Dyn) (k : Nat) (x : Act) : (d.setAct k x).passSnap = d.passSnap := rfl
@[simp] theorem setAct_can (d : Dyn) (k : Nat) (x : Act) : (d.setAct k x).can = d.can := rfl
@[simp] theorem setAct_pair (d : Dyn) (k : Nat) (x : Act) : (d.setAct k x).pair = d.pair := rfl

@[simp] theorem setUnit_same (d : Dyn) (k : Nat) (x : UnitS) : (d.setUnit k x).unit k = x := by simp [Dyn.unit, Dyn.setUnit]
@[simp] theorem setUnit_other (d : Dyn) (k m : Nat) (x : UnitS) (h : m ≠ k) : (d.setUnit k x).unit m = d.unit m := by simp [Dyn.unit, Dyn.setUnit, h]
theorem setUnit_get (d : Dyn) (k m : Nat) (x : UnitS) : (d.setUnit k x).unit m = if m = k then x else d.unit m := by
  simp [Dyn.unit, Dyn.setUnit, tget_tput]
@[simp] theorem setUnit_glb (d : Dyn) (k : Nat) (x : UnitS) : (d.setUnit k x).glb = d.glb := rfl
@[simp] theorem setUnit_pwr (d : Dyn) (k : Nat) (x : UnitS) : (d.setUnit k x).pwr = d.pwr := rfl
@[simp] theorem setUnit_cfg (d : Dyn) (k : Nat) (x : UnitS) : (d.setUnit k x).cfg = d.cfg := rfl
@[simp] theorem setUnit_tim (d : Dyn) (k : Nat) (x : UnitS) : (d.setUnit k x).tim = d.tim := rfl
@[simp] theorem setUnit_flt (d : Dyn) (k : Nat) (x : UnitS) : (d.setUnit k x).flt = d.flt := rfl
@[simp] theorem setUnit_grd (d : Dyn) (k : Nat) (x : UnitS) : (d.setUnit k x).grd = d.grd := rfl
@[simp] theorem setUnit_arc (d : Dyn) (k : Nat) (x : UnitS) : (d.setUnit k x).arc = d.arc := rfl
@[simp] theorem setUnit_dp (d : Dyn) (k : Nat) (x : UnitS) : (d.setUnit k x).dp = d.dp := rfl
@[simp] theorem setUnit_afe (d : Dyn) (k : Nat) (x : UnitS) : (d.setUnit k x).afe = d.afe := rfl
@[simp] theorem setUnit_cnv (d : Dyn) (k : Nat) (x : UnitS) : (d.setUnit k x).cnv = d.cnv := rfl
@[simp] theorem setUnit_mst (d : Dyn) (k : Nat) (x : UnitS) : (d.setUnit k x).mst = d.mst := rfl
@[simp] theorem setUnit_cols (d : Dyn) (k : Nat) (x : UnitS) : (d.setUnit k x).cols = d.cols := rfl
@[simp] theorem setUnit_fld (d : Dyn) (k : Nat) (x : UnitS) : (d.setUnit k x).fld = d.fld := rfl
@[simp] theorem setUnit_ctl (d : Dyn) (k : Nat) (x : UnitS) : (d.setUnit k x).ctl = d.ctl := rfl
@[simp] theorem setUnit_snap (d : Dyn) (k : Nat) (x : UnitS) : (d.setUnit k x).snap = d.snap := rfl
@[simp] theorem setUnit_passSnap (d : Dyn) (k : Nat) (x : UnitS) : (d.setUnit k x).passSnap = d.passSnap := rfl
@[simp] theorem setUnit_can (d : Dyn) (k : Nat) (x : UnitS) : (d.setUnit k x).can = d.can := rfl
@[simp] theorem setUnit_pair (d : Dyn) (k : Nat) (x : UnitS) : (d.setUnit k x).pair = d.pair := rfl
@[simp] theorem setUnit_draft (d : Dyn) (k m : Nat) (x : UnitS) : (d.setUnit k x).draft m = d.draft m := rfl

@[simp] theorem setDraft_same (d : Dyn) (k : Nat) (x : Draft) : (d.setDraft k x).draft k = x := by simp [Dyn.draft, Dyn.setDraft]
@[simp] theorem setDraft_other (d : Dyn) (k m : Nat) (x : Draft) (h : m ≠ k) : (d.setDraft k x).draft m = d.draft m := by simp [Dyn.draft, Dyn.setDraft, h]
theorem setDraft_get (d : Dyn) (k m : Nat) (x : Draft) : (d.setDraft k x).draft m = if m = k then x else d.draft m := by
  simp [Dyn.draft, Dyn.setDraft, tget_tput]
@[simp] theorem setDraft_glb (d : Dyn) (k : Nat) (x : Draft) : (d.setDraft k x).glb = d.glb := rfl
@[simp] theorem setDraft_pwr (d : Dyn) (k : Nat) (x : Draft) : (d.setDraft k x).pwr = d.pwr := rfl
@[simp] theorem setDraft_cfg (d : Dyn) (k : Nat) (x : Draft) : (d.setDraft k x).cfg = d.cfg := rfl
@[simp] theorem setDraft_tim (d : Dyn) (k : Nat) (x : Draft) : (d.setDraft k x).tim = d.tim := rfl
@[simp] theorem setDraft_flt (d : Dyn) (k : Nat) (x : Draft) : (d.setDraft k x).flt = d.flt := rfl
@[simp] theorem setDraft_grd (d : Dyn) (k : Nat) (x : Draft) : (d.setDraft k x).grd = d.grd := rfl
@[simp] theorem setDraft_arc (d : Dyn) (k : Nat) (x : Draft) : (d.setDraft k x).arc = d.arc := rfl
@[simp] theorem setDraft_dp (d : Dyn) (k : Nat) (x : Draft) : (d.setDraft k x).dp = d.dp := rfl
@[simp] theorem setDraft_afe (d : Dyn) (k : Nat) (x : Draft) : (d.setDraft k x).afe = d.afe := rfl
@[simp] theorem setDraft_cnv (d : Dyn) (k : Nat) (x : Draft) : (d.setDraft k x).cnv = d.cnv := rfl
@[simp] theorem setDraft_mst (d : Dyn) (k : Nat) (x : Draft) : (d.setDraft k x).mst = d.mst := rfl
@[simp] theorem setDraft_cols (d : Dyn) (k : Nat) (x : Draft) : (d.setDraft k x).cols = d.cols := rfl
@[simp] theorem setDraft_fld (d : Dyn) (k : Nat) (x : Draft) : (d.setDraft k x).fld = d.fld := rfl
@[simp] theorem setDraft_ctl (d : Dyn) (k : Nat) (x : Draft) : (d.setDraft k x).ctl = d.ctl := rfl
@[simp] theorem setDraft_snap (d : Dyn) (k : Nat) (x : Draft) : (d.setDraft k x).snap = d.snap := rfl
@[simp] theorem setDraft_passSnap (d : Dyn) (k : Nat) (x : Draft) : (d.setDraft k x).passSnap = d.passSnap := rfl
@[simp] theorem setDraft_can (d : Dyn) (k : Nat) (x : Draft) : (d.setDraft k x).can = d.can := rfl
@[simp] theorem setDraft_pair (d : Dyn) (k : Nat) (x : Draft) : (d.setDraft k x).pair = d.pair := rfl
@[simp] theorem setDraft_unit (d : Dyn) (k m : Nat) (x : Draft) : (d.setDraft k x).unit m = d.unit m := rfl

@[simp] theorem setMb_same (x : Port) (m : Nat) (b : Mbx) : (x.setMb m b).mb m = b := by simp [Port.mb, Port.setMb]
@[simp] theorem setMb_other (x : Port) (m k : Nat) (b : Mbx) (h : k ≠ m) : (x.setMb m b).mb k = x.mb k := by simp [Port.mb, Port.setMb, h]
@[simp] theorem setMb_launch (x : Port) (m k : Nat) (b : Mbx) : (x.setMb m b).launch k = x.launch k := rfl
@[simp] theorem setLaunch_same (x : Port) (e : Nat) (l : Launch) : (x.setLaunch e l).launch e = l := by simp [Port.launch, Port.setLaunch]
@[simp] theorem setLaunch_other (x : Port) (e k : Nat) (l : Launch) (h : k ≠ e) : (x.setLaunch e l).launch k = x.launch k := by
  simp [Port.launch, Port.setLaunch, h]
@[simp] theorem setLaunch_mb (x : Port) (e k : Nat) (l : Launch) : (x.setLaunch e l).mb k = x.mb k := rfl

end Sys2Proof.Machine
end

