-- ==== Sys2Proof/Laws/Commands.lean ====
section
/-! SUPPORT. When a host's command is taken and when it is not, and what states that are alike have in common. -/

namespace Sys2Proof.Machine

open Sys2Proof

/-- A command that is taken runs its operation. -/
theorem hostCmd_runs {a : Nat} {takes : Bool} {s : State} (h : HostRuns a takes s) (g : State → State) : hostCmd a takes g s = g s := by
  obtain ⟨h1, h2, h3⟩ := h
  unfold hostCmd
  rw [h1]
  rcases h2 with h2 | h2 <;> rcases h3 with h3 | h3 <;> simp [h2, h3]

/-- With the port down nothing comes through. -/
theorem hostCmd_down {s : State} (h : s.d.portUp = false) (a : Nat) (takes : Bool) (g : State → State) : hostCmd a takes g s = s := by
  simp [hostCmd, h]

/-- A STANDBY refuses what it does not take. -/
theorem hostCmd_standby {a : Nat} {s : State} (h1 : s.d.portUp = true) (h2 : s.d.standby = true) (g : State → State) :
    hostCmd a false g s = { s with d := standbyRefuse s.c a s.d } := by
  simp [hostCmd, h1, h2]

theorem Alike.rfl {d : Dyn} : Alike d d := Eq.refl _
theorem Alike.trans {d e g : Dyn} (h1 : Alike d e) (h2 : Alike e g) : Alike d g := Eq.trans h1 h2
theorem Alike.symm {d e : Dyn} (h : Alike d e) : Alike e d := Eq.symm h

/-- Alike states agree outside the books. -/
theorem Alike.blocks {t d : Dyn} (h : Alike t d) : t.tim = d.tim ∧ t.grd = d.grd ∧ t.arc = d.arc ∧ t.afe = d.afe ∧ t.cnv = d.cnv ∧
    t.mst = d.mst ∧ t.cols = d.cols ∧ t.fld = d.fld ∧ t.ctl = d.ctl ∧ t.seq = d.seq ∧ t.can = d.can ∧ t.pair = d.pair ∧
    t.glb.st = d.glb.st ∧ t.glb.role = d.glb.role := by
  unfold Alike Dyn.silent at h
  injection h with h1 h2 h3 h4 h5 h6 h7 h8 h9 h10 h11 h12 h13 h14 h15 h16 h17 h18 h19
  injection h1 with g1 g2
  exact ⟨h4, h6, h7, h9, h10, h11, h12, h13, h14, h16, h18, h19, g1, g2⟩

theorem Alike.resetFrom {t d : Dyn} (h : Alike t d) : t.pwr.resetFrom = d.pwr.resetFrom := by
  have e : t.silent.pwr.resetFrom = d.silent.pwr.resetFrom := by rw [show t.silent = d.silent from h]
  exact e

/-- A record of the ledger changes the archive alone. -/
theorem ledgerRec_arc (d : Dyn) (r : Rec) : ∃ a, d.ledgerRec r = { d with arc := a } := by
  unfold Dyn.ledgerRec
  dsimp only
  repeat' split
  all_goals exact ⟨_, Eq.refl _⟩

theorem ledgerAs_arc (d : Dyn) (typ cls epoch time : Nat) (body : List Byte) : ∃ a, d.ledgerAs typ cls epoch time body = { d with arc := a } := by
  unfold Dyn.ledgerAs
  split
  · exact ⟨d.arc, Eq.refl _⟩
  · exact ledgerRec_arc _ _

theorem ledger_arc (d : Dyn) (typ cls : Nat) (body : List Byte) : ∃ a, d.ledger typ cls body = { d with arc := a } := ledgerAs_arc _ _ _ _ _ _

theorem logWrite_arc (src a : Nat) (old new : Word) (d : Dyn) : ∃ x, logWrite src a old new d = { d with arc := x } := ledger_arc _ _ _ _

/-- A logged write is the write, and perhaps a record in the archive. -/
theorem loggedWrite_spec (src a : Nat) (g : State → State) (s : State) :
    ∃ x, loggedWrite src a g s = { g s with d := { (g s).d with arc := x } } := by
  unfold loggedWrite
  dsimp only
  split
  · obtain ⟨x, h⟩ := logWrite_arc src a (readReg s.c s.d a) (readReg (g s).c (g s).d a) (g s).d
    exact ⟨x, by rw [h]⟩
  · exact ⟨(g s).d.arc, Eq.refl _⟩

theorem hostVal_runs {a : Nat} {s : State} (h : HostRuns a false s) (g : State → State) :
    ∃ x, hostVal a g s = { g s with d := { (g s).d with arc := x } } := by
  unfold hostVal
  rw [hostCmd_runs h]
  exact loggedWrite_spec _ _ _ _

/-- An entry to a device state: the state, its cause and GLB_IRQ, and the record of it in the archive (R22, R29, R522). -/
theorem toState_spec (d : Dyn) (st : DevState) (cause : Nat) :
    ∃ a, d.toState st cause = { d with arc := a, glb := { d.glb with st := st, lastCause := cause }, dp := { d.dp with irq := d.dp.irq ||| 2 ^ 1 } } := by
  unfold Dyn.toState Dyn.setIrq
  obtain ⟨a, h⟩ := ledger_arc d 1 0 (leBytes 1 d.glb.st.num ++ leBytes 1 st.num ++ leBytes 2 cause)
  rw [h]
  exact ⟨a, Eq.refl _⟩

theorem next_dyn {s : State} {a b : Dyn} (h : a = b) : (Host.Outcome.next { s with d := a } : Host.Outcome State Fault Refusal) = .next { s with d := b } := by rw [h]

end Sys2Proof.Machine
end

