-- ==== Sys2Proof/Laws/Guard.lean ====
section
/-! SUPPORT. What delivering a guard source and driving a field die anew can change. -/

namespace Sys2Proof.Machine

open Sys2Proof

/-- A change of the guard terms, and of the books. -/
def GrdStep (d e : Dyn) : Prop := Alike { e with grd := d.grd } d

theorem FltStep.grd {d e : Dyn} (h : FltStep d e) : GrdStep d e := by
  obtain ⟨_, _, _, _, _, rfl⟩ := h
  rfl

theorem GrdStep.put {d e : Dyn} (g : Grd) (h : FltStep { d with grd := g } e) : GrdStep d e := by
  obtain ⟨_, _, _, _, _, rfl⟩ := h
  rfl

theorem GrdStep.trans {d e g : Dyn} (h1 : GrdStep d e) (h2 : GrdStep e g) : GrdStep d g :=
  Eq.trans (b := ({ e.silent with grd := d.grd } : Dyn)) (congrArg (fun x : Dyn => ({ x with grd := d.grd } : Dyn)) h2) h1

theorem evalTerm_step (c : Cfg) (n a b : Nat) (d : Dyn) : GrdStep d (evalTerm c n a b d) := by
  unfold evalTerm
  dsimp only
  split
  · exact .put _ (fault_step _ _ _ _ _ _ _ _ _)
  · exact .put _ (.refl _)

theorem deliverTo_step (c : Cfg) (isDio : Bool) (idx : Nat) (raw valid : Bool) (f : Nat → Nat) (n : Nat) (d : Dyn) :
    GrdStep d (deliverTo c isDio idx raw valid f n d) := by
  unfold deliverTo
  split
  · exact (FltStep.refl d).grd
  · extract_lets hit t t1 d1 w
    split
    · exact (FltStep.refl d).grd
    · exact GrdStep.trans (.put _ (.refl _)) (evalTerm_step _ _ _ _ _)

theorem forEach_grd {g : Nat → Dyn → Dyn} (h : ∀ k d, GrdStep d (g k d)) (l : List Nat) (d : Dyn) : GrdStep d (forEach l d g) :=
  forEach_keeps (GrdStep d) l d g (fun k s hs => hs.trans (h k s)) (FltStep.refl d).grd

/-- Delivering a guard source writes the terms and the books alone. -/
theorem deliverSrc_step (c : Cfg) (isDio : Bool) (idx : Nat) (raw valid : Bool) (f : Nat → Nat) (d : Dyn) :
    GrdStep d (deliverSrc c isDio idx raw valid f d) := by
  unfold deliverSrc
  split
  · exact forEach_grd (deliverTo_step c isDio idx raw valid f) _ _
  · exact (FltStep.refl d).grd

theorem evalTerm_find (c : Cfg) (n a b : Nat) (d : Dyn) (m : Nat) (hm : m < 0xD000) : (evalTerm c n a b d).flt.find m = d.flt.find m := by
  unfold evalTerm
  dsimp only
  split
  · exact fault_find_other _ _ _ _ _ _ _ _ _ _ (by omega) (by omega)
  · rfl

theorem deliverTo_find (c : Cfg) (isDio : Bool) (idx : Nat) (raw valid : Bool) (f : Nat → Nat) (n : Nat) (d : Dyn) (m : Nat)
    (hm : m < 0xD000) : (deliverTo c isDio idx raw valid f n d).flt.find m = d.flt.find m := by
  unfold deliverTo
  split
  · rfl
  · extract_lets hit t t1 d1 w
    split
    · rfl
    · rw [evalTerm_find _ _ _ _ _ _ hm]; rfl

/-- Delivering a guard source opens records of guard terms alone. -/
theorem deliverSrc_find (c : Cfg) (isDio : Bool) (idx : Nat) (raw valid : Bool) (f : Nat → Nat) (d : Dyn) (m : Nat) (hm : m < 0xD000) :
    (deliverSrc c isDio idx raw valid f d).flt.find m = d.flt.find m := by
  unfold deliverSrc
  split
  · exact forEach_same (fun e : Dyn => e.flt.find m) _ _ _ (fun k s => deliverTo_find c isDio idx raw valid f k s m hm)
  · rfl

theorem reapply_flt {d e : Dyn} (c : Cfg) (g : Nat) (h : FltStep d e) : FltStep (reapply c g d) (reapply c g e) := by
  obtain ⟨_, _, _, _, _, rfl⟩ := h
  unfold reapply
  split <;> exact ⟨_, _, _, _, _, rfl⟩

theorem forEach_flt2 {g : Nat → Dyn → Dyn} (hg : ∀ k d e, FltStep d e → FltStep (g k d) (g k e)) (l : List Nat) {d e : Dyn}
    (h : FltStep d e) : FltStep (forEach l d g) (forEach l e g) := by
  induction l generalizing d e with
  | nil => exact h
  | cons a r ih => exact ih (hg a d e h)

theorem reapplyMov_flt {d e : Dyn} (c : Cfg) (m : Nat) (h : FltStep d e) : FltStep (reapplyMov c m d) (reapplyMov c m e) := by
  refine forEach_flt2 ?_ _ h
  intro k d e h
  obtain ⟨_, _, _, _, _, rfl⟩ := h
  exact ⟨_, _, _, _, _, rfl⟩

/-- Driving a die anew commutes with what the books take. -/
theorem reapplyG_flt {d e : Dyn} (c : Cfg) (g : Nat) (h : FltStep d e) : FltStep (reapplyG c g d) (reapplyG c g e) := by
  unfold reapplyG
  split
  · exact reapply_flt c g h
  · exact reapplyMov_flt c _ h

theorem fldFault_step (c : Cfg) (src code sev : Nat) (x y : Bool) (d : Dyn) (h : d.glb.st ≠ .dormant) : FltStep d (fldFault c src code sev x y d) := by
  unfold fldFault
  split
  · exact .refl d
  · exact fault_step _ _ _ _ _ _ _ _ _

theorem fldFault_opened (c : Cfg) (src code sev : Nat) (x y : Bool) (d : Dyn) (h : d.glb.st ≠ .dormant) (hr : d.pwr.resetFrom = none) (hs : src ≠ 0xD100) :
    Opened d (fldFault c src code sev x y d) src code sev 0 0 x y := by
  unfold fldFault
  rw [if_neg (by rw [hr]; exact fun h => by cases h), if_neg h]
  exact fault_opened _ _ _ _ _ _ _ _ _ hs

/-- Opening depends on the records and the time alone. -/
theorem Opened.of {d d' t t' : Dyn} {src code sev a b : Nat} {x y : Bool} (h : Opened d t src code sev a b x y) (h1 : d'.flt = d.flt)
    (h2 : d'.tim = d.tim) (h3 : t'.flt = t.flt) : Opened d' t' src code sev a b x y := by
  have e : d'.newRec src code sev a b x y = d.newRec src code sev a b x y := by simp [Dyn.newRec, h1, h2]
  unfold Opened at *
  rw [h1, h3, e]
  exact h

end Sys2Proof.Machine
end

