-- ==== Sys2Proof/Laws/Field.lean ====
section
/-! SUPPORT. What driving a field die anew leaves: the levels of a digital group, the drives of a mover group, nothing else. -/

namespace Sys2Proof.Machine

open Sys2Proof

@[simp] theorem reapply_dch (c : Cfg) (g k : Nat) (d : Dyn) : (reapply c g d).dch k = d.dch k := by unfold reapply; split <;> rfl
@[simp] theorem reapply_mch (c : Cfg) (g k : Nat) (d : Dyn) : (reapply c g d).mch k = d.mch k := by unfold reapply; split <;> rfl
@[simp] theorem reapply_flt' (c : Cfg) (g : Nat) (d : Dyn) : (reapply c g d).flt = d.flt := by unfold reapply; split <;> rfl
@[simp] theorem reapply_late (c : Cfg) (g : Nat) (d : Dyn) : (reapply c g d).fld.late = d.fld.late := by unfold reapply; split <;> rfl
theorem reapply_alike (c : Cfg) (g : Nat) (d : Dyn) : Alike { reapply c g d with fld := d.fld } d := by unfold reapply; split <;> rfl
theorem reapply_grp (c : Cfg) (g h : Nat) (d : Dyn) :
    (reapply c g d).grp h = if h = g ∧ g < 4 then { d.grp g with applied := bits16 g (dieLevel c d) } else d.grp h := by
  unfold reapply
  by_cases hg : g < 4
  · simp only [hg, if_true, and_true]; rw [setGrp_get]
  · simp [hg]

theorem reapply_none (c : Cfg) (g : Nat) (d : Dyn) (h : 4 ≤ g) : reapply c g d = d := by
  unfold reapply; rw [if_neg (by omega)]

theorem ofBits_false (l : List Bool) (h : ∀ b ∈ l, b = false) : ofBits l = 0 := by
  induction l with
  | nil => rfl
  | cons b r ih =>
    have := h b (by simp)
    subst this
    simp [ofBits, ih (fun x hx => h x (by simp [hx]))]

theorem upFrom_mem (a n k : Nat) : k ∈ upFrom a n ↔ a ≤ k ∧ k < a + n := by
  unfold upFrom
  simp only [List.mem_map, List.mem_range]
  constructor
  · rintro ⟨i, hi, rfl⟩; omega
  · intro h; exact ⟨k - a, by omega, by omega⟩

theorem upFrom_nodup (a n : Nat) : (upFrom a n).Nodup :=
  List.Nodup.map (fun x y h => by simpa using h) List.nodup_range

/-- A die under BOOT or FENCE, or with its group latched, drives nothing. -/
theorem bits16_off (c : Cfg) (g : Nat) (d : Dyn) (h : (d.grp g).line = 1 ∨ (d.grp g).line = 2 ∨ (d.grp g).latch ≠ 0) :
    bits16 g (dieLevel c d) = 0 := by
  apply ofBits_false
  intro b hb
  obtain ⟨k, hk, rfl⟩ := List.mem_map.1 hb
  have hk' : k / 16 = g := by have := (upFrom_mem _ _ _).1 hk; omega
  unfold dieLevel
  rw [hk']
  rcases h with h | h | h <;> simp [h]

theorem dieMov_set (c : Cfg) (d : Dyn) (k n : Nat) (x : MChan) (h : n ≠ k) : dieMov c (d.setMch k x) n = dieMov c d n := by
  unfold dieMov
  simp [Dyn.standby, h]

theorem reapplyMov_loop (c : Cfg) (l : List Nat) (hl : l.Nodup) (d : Dyn) (n : Nat) :
    (forEach l d (fun n d => d.setMch n { d.mch n with e := (dieMov c d n).1, parked := (dieMov c d n).2 })).mch n =
      if n ∈ l then { d.mch n with e := (dieMov c d n).1, parked := (dieMov c d n).2 } else d.mch n := by
  induction l generalizing d with
  | nil => rfl
  | cons a r ih =>
    have ha := List.nodup_cons.1 hl
    refine (ih ha.2 (d.setMch a { d.mch a with e := (dieMov c d a).1, parked := (dieMov c d a).2 })).trans ?_
    by_cases hn : n = a
    · subst hn; simp [ha.1]
    · rw [dieMov_set _ _ _ _ _ hn]; simp [hn]

/-- What the channels of a mover group drive. -/
theorem reapplyMov_mch (c : Cfg) (m n : Nat) (d : Dyn) :
    (reapplyMov c m d).mch n =
      if n / 16 = m then { d.mch n with e := (dieMov c d n).1, parked := (dieMov c d n).2 } else d.mch n := by
  have h : (n ∈ upFrom (16 * m) 16) ↔ n / 16 = m := by rw [upFrom_mem]; omega
  unfold reapplyMov
  rw [reapplyMov_loop c _ (upFrom_nodup _ _), if_congr h rfl rfl]

@[simp] theorem reapplyMov_grp (c : Cfg) (m g : Nat) (d : Dyn) : (reapplyMov c m d).grp g = d.grp g :=
  forEach_same (fun e : Dyn => e.grp g) _ _ _ (fun _ _ => rfl)
@[simp] theorem reapplyMov_dch (c : Cfg) (m k : Nat) (d : Dyn) : (reapplyMov c m d).dch k = d.dch k :=
  forEach_same (fun e : Dyn => e.dch k) _ _ _ (fun _ _ => rfl)
@[simp] theorem reapplyMov_flt' (c : Cfg) (m : Nat) (d : Dyn) : (reapplyMov c m d).flt = d.flt :=
  forEach_same (fun e : Dyn => e.flt) _ _ _ (fun _ _ => rfl)
@[simp] theorem reapplyMov_tim (c : Cfg) (m : Nat) (d : Dyn) : (reapplyMov c m d).tim = d.tim :=
  forEach_same (fun e : Dyn => e.tim) _ _ _ (fun _ _ => rfl)
@[simp] theorem reapplyMov_late (c : Cfg) (m : Nat) (d : Dyn) : (reapplyMov c m d).fld.late = d.fld.late :=
  forEach_same (fun e : Dyn => e.fld.late) _ _ _ (fun _ _ => rfl)
theorem reapplyMov_alike (c : Cfg) (m : Nat) (d : Dyn) : Alike { reapplyMov c m d with fld := d.fld } d :=
  forEach_keeps (fun e : Dyn => Alike { e with fld := d.fld } d) _ _ _ (fun _ _ h => h) rfl

/-- A mover group under BOOT or FENCE, or latched, drives nothing. -/
theorem dieMov_off (c : Cfg) (d : Dyn) (n : Nat) (h : (d.grp (4 + n / 16)).line = 1 ∨ (d.grp (4 + n / 16)).line = 2 ∨ (d.grp (4 + n / 16)).latch ≠ 0) :
    (dieMov c d n).1 = 0 := by
  unfold dieMov
  dsimp only
  split
  · rfl
  · rename_i h1
    split
    · rfl
    · rename_i h2
      rcases h with h | h | h
      · simp [h] at h1
      · simp [h] at h2
      · rw [if_pos h]

/-- A change of the field side, and of the books. -/
def FldStep (d e : Dyn) : Prop := Alike { e with fld := d.fld } d

theorem FltStep.fld {d e : Dyn} (h : FltStep d e) : FldStep d e := by
  obtain ⟨_, _, _, _, _, rfl⟩ := h
  rfl

theorem FldStep.put (d : Dyn) (f : Fld) : FldStep d { d with fld := f } := rfl

theorem FldStep.trans {d e g : Dyn} (h1 : FldStep d e) (h2 : FldStep e g) : FldStep d g :=
  Eq.trans (b := ({ e.silent with fld := d.fld } : Dyn)) (congrArg (fun x : Dyn => ({ x with fld := d.fld } : Dyn)) h2) h1

theorem fldFault_fld (c : Cfg) (src code sev : Nat) (x y : Bool) (d : Dyn) : FldStep d (fldFault c src code sev x y d) := by
  unfold fldFault
  split
  · rfl
  split
  · exact .put _ _
  · exact (fault_step _ _ _ _ _ _ _ _ _).fld

@[simp] theorem fldFault_grp (c : Cfg) (src code sev : Nat) (x y : Bool) (d : Dyn) (g : Nat) : (fldFault c src code sev x y d).grp g = d.grp g := by
  unfold fldFault
  split
  · rfl
  split
  · rfl
  · obtain ⟨_, _, _, _, _, h⟩ := fault_step d c src code sev 0 0 x y
    rw [h]; rfl
@[simp] theorem fldFault_dch (c : Cfg) (src code sev : Nat) (x y : Bool) (d : Dyn) (k : Nat) : (fldFault c src code sev x y d).dch k = d.dch k := by
  unfold fldFault
  split
  · rfl
  split
  · rfl
  · obtain ⟨_, _, _, _, _, h⟩ := fault_step d c src code sev 0 0 x y
    rw [h]; rfl
@[simp] theorem fldFault_mch (c : Cfg) (src code sev : Nat) (x y : Bool) (d : Dyn) (k : Nat) : (fldFault c src code sev x y d).mch k = d.mch k := by
  unfold fldFault
  split
  · rfl
  split
  · rfl
  · obtain ⟨_, _, _, _, _, h⟩ := fault_step d c src code sev 0 0 x y
    rw [h]; rfl

theorem moverG_grp (c : Cfg) (g h : Nat) (d : Dyn) : (moverGroup c g d).grp h = d.grp h := by unfold moverGroup; split <;> simp

theorem moverG_dch (c : Cfg) (g h : Nat) (d : Dyn) : (moverGroup c g d).dch h = d.dch h := by unfold moverGroup; split <;> simp

theorem moverG_flt (c : Cfg) (g : Nat) (d : Dyn) : (moverGroup c g d).flt = d.flt := by unfold moverGroup; split <;> simp

theorem moverG_late (c : Cfg) (g : Nat) (d : Dyn) : (moverGroup c g d).fld.late = d.fld.late := by unfold moverGroup; split <;> simp

theorem moverG_fld (c : Cfg) (g : Nat) (d : Dyn) : FldStep d (moverGroup c g d) := by
  unfold moverGroup; split; rfl; exact reapplyMov_alike _ _ _

theorem reapply_fld (c : Cfg) (g : Nat) (d : Dyn) : FldStep d (reapply c g d) := reapply_alike _ _ _

theorem moverG_reapply (c : Cfg) (g : Nat) (d : Dyn) : moverGroup c g (reapply c g d) = reapplyG c g d := by
  unfold moverGroup reapplyG
  by_cases h : g < 4
  · simp [h]
  · simp only [if_neg h]; rw [reapply_none _ _ _ (by omega)]

theorem reapplyG_flt' (c : Cfg) (g : Nat) (d : Dyn) : (reapplyG c g d).flt = d.flt := by unfold reapplyG; split <;> simp

theorem reapplyG_grp (c : Cfg) (g h : Nat) (d : Dyn) : (reapplyG c g d).grp h =
   if h = g ∧ g < 4 then { d.grp g with applied := bits16 g (dieLevel c d) } else d.grp h := by
  unfold reapplyG
  split
  · exact reapply_grp _ _ _ _
  · rename_i hg; simp [hg]

theorem reapplyG_dch (c : Cfg) (g h : Nat) (d : Dyn) : (reapplyG c g d).dch h = d.dch h := by unfold reapplyG; split <;> simp

theorem reapplyG_fld (c : Cfg) (g : Nat) (d : Dyn) : FldStep d (reapplyG c g d) := by rw [← moverG_reapply]; exact (reapply_fld _ _ _).trans (moverG_fld _ _ _)

theorem reapplyG_late (c : Cfg) (g : Nat) (d : Dyn) : (reapplyG c g d).fld.late = d.fld.late := by unfold reapplyG; split <;> simp

theorem reapplyG_off (c : Cfg) (g : Nat) (hg : g < 6) (d : Dyn) (h : (d.grp g).line = 1 ∨ (d.grp g).line = 2 ∨ (d.grp g).latch ≠ 0) :
    (g < 4 → ((reapplyG c g d).grp g).applied = 0) ∧ (∀ n, n < 32 → 4 + n / 16 = g → ((reapplyG c g d).mch n).e = 0) := by
  constructor
  · intro h4; rw [reapplyG_grp]; simp [h4, bits16_off c g d h]
  · intro n hn e
    unfold reapplyG
    rw [if_neg (by omega), reapplyMov_mch, if_pos (by omega)]
    exact dieMov_off c d n (by rw [e]; exact h)

theorem grpSrc_ne (g : Nat) (h : g < 6) : grpSrc g ≠ 0xD100 ∧ grpSrc g < 0xD000 := by unfold grpSrc; split <;> omega

theorem cut_eq (c : Cfg) (g : Nat) (d : Dyn) (h1 : c.grpEn g = true) (h4 : (d.grp g).cond ≠ 4) :
   moverGroup c g (fieldCut c g d) = reapplyG c g (fldFault c (grpSrc g) (grpCode g 2) 3 false false
     (d.setGrp g { d.grp g with cond := if (d.grp g).cond = 5 ∨ (d.grp g).cond = 6 then (d.grp g).cond else 4, latch := if (d.grp g).latch = 5 then 5 else 4, cfOk := false, restorable := false })) := by
  unfold fieldCut
  simp only [h1, if_true, h4, if_false]
  rw [moverG_reapply]

theorem FldStep.grdfld {d e : Dyn} (h : FldStep d e) : Alike { e with fld := d.fld, grd := d.grd } d :=
  congrArg (fun x : Dyn => ({ x with grd := d.grd } : Dyn)) h

/-- A change of the field side, of the guard terms, and of the books. -/
def FGStep (d e : Dyn) : Prop := Alike { e with fld := d.fld, grd := d.grd } d

theorem FGStep.trans {d e g : Dyn} (h1 : FGStep d e) (h2 : FGStep e g) : FGStep d g :=
  Eq.trans (b := ({ e.silent with fld := d.fld, grd := d.grd } : Dyn)) (congrArg (fun x : Dyn => ({ x with fld := d.fld, grd := d.grd } : Dyn)) h2) h1

theorem GrdStep.fg {d e : Dyn} (h : GrdStep d e) : FGStep d e := congrArg (fun x : Dyn => ({ x with fld := d.fld } : Dyn)) h

theorem GrdStep.fld {d e : Dyn} (h : GrdStep d e) : e.fld = d.fld := (Alike.blocks h).2.2.2.2.2.2.2.1

theorem deliverDio_step (c : Cfg) (k : Nat) (d : Dyn) : GrdStep d (deliverDio c k d) := by
  unfold deliverDio; split; exact deliverSrc_step _ _ _ _ _ _ _; exact (FltStep.refl d).grd

theorem deliverDio_find (c : Cfg) (k : Nat) (d : Dyn) (m : Nat) (h : m < 0xD000) : (deliverDio c k d).flt.find m = d.flt.find m := by
  unfold deliverDio; split; exact deliverSrc_find _ _ _ _ _ _ _ _ h; rfl

theorem deliverDio_dch (c : Cfg) (k : Nat) (d : Dyn) (m : Nat) : (deliverDio c k d).dch m = d.dch m := by
  unfold Dyn.dch; rw [(deliverDio_step c k d).fld]

theorem deliverDio_grp (c : Cfg) (k : Nat) (d : Dyn) (m : Nat) : (deliverDio c k d).grp m = d.grp m := by
  unfold Dyn.grp; rw [(deliverDio_step c k d).fld]

theorem deliverDio_st (c : Cfg) (k : Nat) (d : Dyn) : (deliverDio c k d).glb.st = d.glb.st := (Alike.blocks (deliverDio_step c k d)).2.2.2.2.2.2.2.2.2.2.2.2.1

theorem lost_dch (c : Cfg) (l : List Nat) (hl : l.Nodup) (d : Dyn) (n : Nat) :
    (forEach l d (fun k d => deliverDio c k (d.setDch k { d.dch k with hasState := false, hasOwn := false, run := 0 }))).dch n =
      if n ∈ l then { d.dch n with hasState := false, hasOwn := false, run := 0 } else d.dch n := by
  induction l generalizing d with
  | nil => rfl
  | cons a r ih =>
    have ha := List.nodup_cons.1 hl
    refine (ih ha.2 _).trans ?_
    rw [deliverDio_dch]
    by_cases hn : n = a
    · subst hn; simp [ha.1]
    · simp [hn]

theorem lost_all (c : Cfg) (g : Nat) (d : Dyn) : FGStep d (inputsLost c g d) ∧ (∀ m, (inputsLost c g d).grp m = d.grp m) ∧
    (∀ m, m < 0xD000 → (inputsLost c g d).flt.find m = d.flt.find m) ∧ (inputsLost c g d).glb.st = d.glb.st ∧
    (∀ k, (inputsLost c g d).dch k = if k / 16 = g then { d.dch k with hasState := false, hasOwn := false, run := 0 } else d.dch k) := by
  refine ⟨?_, ?_, ?_, ?_, ?_⟩
  · exact forEach_keeps (FGStep d) _ _ _ (fun k s h => h.trans (FGStep.trans (e := s.setDch k { s.dch k with hasState := false, hasOwn := false, run := 0 }) rfl (deliverDio_step c k _).fg)) rfl
  · intro m; exact forEach_same (fun e : Dyn => e.grp m) _ _ _ (fun k s => by simp [deliverDio_grp])
  · intro m hm; exact forEach_same (fun e : Dyn => e.flt.find m) _ _ _ (fun k s => by rw [deliverDio_find _ _ _ _ hm]; rfl)
  · exact forEach_same (fun e : Dyn => e.glb.st) _ _ _ (fun k s => by rw [deliverDio_st]; rfl)
  · intro k
    have h : (k ∈ upFrom (16 * g) 16) ↔ k / 16 = g := by rw [upFrom_mem]; omega
    unfold inputsLost
    rw [lost_dch c _ (upFrom_nodup _ _), if_congr h rfl rfl]

theorem lost_core (c : Cfg) (g cond code : Nat) (d : Dyn) (hg : g < 6) (hst : d.glb.st ≠ .dormant) (hr : d.pwr.resetFrom = none) :
    let t := moverGroup c g (groupLost c g cond code d)
    let x := d.grp g
    (t.grp g).cond = cond ∧ (t.grp g).latch = 5 ∧ (t.grp g).cfOk = (x.cfOk && cond == 5) ∧
    (t.grp g).badCnt = (if cond = 5 then satInc 8 x.badCnt else x.badCnt) ∧ (g < 4 → (t.grp g).applied = 0) ∧
    (∀ n, n < 32 → 4 + n / 16 = g → (t.mch n).e = 0) ∧
    (∀ k, k / 16 = g → k < 64 → (t.dch k).hasState = false ∧ (t.dch k).run = 0 ∧ (t.dch k).level = (d.dch k).level) ∧
    (d.flt.find (grpSrc g) = none → ∃ r, t.flt.find (grpSrc g) = some r ∧ r.code = code ∧ r.sev = 3 ∧ r.occ = 1) ∧
    (∀ h, h ≠ g → t.grp h = d.grp h) ∧ (∀ k, k / 16 ≠ g → t.dch k = d.dch k) ∧ Alike { t with fld := d.fld, grd := d.grd } d := by
  intro t x
  have hs := grpSrc_ne g hg
  let d1 := d.setGrp g { x with cond := cond, latch := 5, restorable := false, cfOk := x.cfOk && cond == 5, badCnt := if cond = 5 then satInc 8 x.badCnt else x.badCnt, goodRun := 0 }
  let d2 := if g < 4 then inputsLost c g d1 else d1
  let d3 := fldFault c (grpSrc g) code 3 false false d2
  have ht : t = reapplyG c g d3 := moverG_reapply _ _ _
  obtain ⟨L1, L2, L3, L4, L5⟩ := lost_all c g d1
  have g2 : ∀ m, d2.grp m = d1.grp m := by intro m; simp only [d2]; split <;> simp [L2]
  have g3 : ∀ m, d3.grp m = d1.grp m := by intro m; simp [d3, g2]
  have s2 : d2.glb.st ≠ .dormant := by simp only [d2]; split; rw [L4]; exact hst; exact hst
  have r2 : d2.pwr.resetFrom = none := by
    simp only [d2]; split
    · exact (Alike.resetFrom (t := { inputsLost c g d1 with fld := d1.fld, grd := d1.grd }) L1).trans hr
    · exact hr
  have f2 : d2.flt.find (grpSrc g) = d.flt.find (grpSrc g) := by simp only [d2]; split; rw [L3 _ hs.2]; rfl; rfl
  have k2 : ∀ k, d2.dch k = if g < 4 ∧ k / 16 = g then { d.dch k with hasState := false, hasOwn := false, run := 0 } else d.dch k := by
    intro k; simp only [d2]; split
    · rename_i h4; rw [L5]; simp [h4, d1]
    · rename_i h4; simp [h4, d1]
  have k3 : ∀ k, t.dch k = d2.dch k := by intro k; rw [ht, reapplyG_dch]; simp [d3]
  have off := reapplyG_off c g hg d3 (by rw [g3]; simp [d1])
  have A : Alike { t with fld := d.fld, grd := d.grd } d := by
    have h2 : FGStep d1 d2 := by simp only [d2]; split; exact L1; rfl
    have h3 : FGStep d2 t := by rw [ht]; exact ((fldFault_fld _ _ _ _ _ _ _).trans (reapplyG_fld _ _ _)).grdfld
    exact FGStep.trans (e := d1) rfl (h2.trans h3)
  rw [ht] at A ⊢
  refine ⟨?_, ?_, ?_, ?_, off.1, off.2, ?_, ?_, ?_, ?_, A⟩
  · rw [reapplyG_grp]; split <;> simp [g3, d1]
  · rw [reapplyG_grp]; split <;> simp [g3, d1]
  · rw [reapplyG_grp]; split <;> simp [g3, d1]
  · rw [reapplyG_grp]; split <;> simp [g3, d1]
  · intro k hk h64; rw [← ht, k3, k2]; rw [if_pos ⟨by omega, hk⟩]; simp
  · intro hn
    have O := (fldFault_opened c (grpSrc g) code 3 false false d2 s2 r2 hs.1).1 (by rw [f2]; exact hn)
    rw [reapplyG_flt']
    exact ⟨_, O, rfl, rfl, rfl⟩
  · intro h hh; rw [reapplyG_grp]; simp [hh, g3, d1]
  · intro k hk; rw [← ht, k3, k2, if_neg (by omega)]

theorem phase3_loop (l : List Nat) (d : Dyn) : (∀ m, (forEach l d (fun k d => let x := d.dch k; if x.phase = 1 ∨ x.phase = 2 ∨ x.phase = 4 then d.setDch k { x with phase := 3 } else d)).grp m = d.grp m) ∧
   FldStep d (forEach l d (fun k d => let x := d.dch k; if x.phase = 1 ∨ x.phase = 2 ∨ x.phase = 4 then d.setDch k { x with phase := 3 } else d)) := by
  constructor
  · intro m; exact forEach_same (fun e : Dyn => e.grp m) _ _ _ (fun k s => by dsimp only; split <;> rfl)
  · exact forEach_keeps (FldStep d) _ _ _ (fun k s h => h.trans (by dsimp only; split <;> rfl)) rfl

theorem ofBits_testBit (l : List Bool) (i : Nat) : (ofBits l).testBit i = l.getD i false := by
  induction l generalizing i with
  | nil => simp [ofBits]
  | cons b r ih =>
    cases i with
    | zero => cases b <;> simp [ofBits, Nat.testBit_zero] 
    | succ j =>
      simp only [List.getD_cons_succ, ← ih j, ofBits]
      rw [Nat.testBit_succ]; congr 1; cases b <;> (simp; try omega)

/-- Bit `k % 16` of a digital group's levels is the level its die drives on channel `k`. -/
theorem bits16_bit (g k : Nat) (p : Nat → Bool) (h : k / 16 = g) : (bits16 g p).testBit (k % 16) = p k := by
  unfold bits16 upFrom
  rw [ofBits_testBit, List.map_map, List.getD_eq_getElem?_getD, List.getElem?_map, List.getElem?_range (by omega)]
  simp only [Option.map_some, Option.getD_some, Function.comp]
  congr 1; omega

theorem reapply_bit (c : Cfg) (k : Nat) (hk : k < 64) (d : Dyn) (h : dieLevel c d k = false) : ((reapply c (k / 16) d).grp (k / 16)).applied.testBit (k % 16) = false := by
  rw [reapply_grp, if_pos ⟨rfl, by omega⟩]; rw [bits16_bit _ _ _ rfl]; exact h

theorem owner_grp (c : Cfg) (k : Nat) : c.owner k / 16 = k / 16 := by
  unfold Cfg.owner Cfg.pairOdd
  split
  · rename_i h; simp at h; omega
  · rfl

theorem latch_core (c : Cfg) (k o latch code : Nat) (d : Dyn) (hk : k < 64) (ho : c.owner k = o) (hl : latch ≠ 0) (hst : d.glb.st ≠ .dormant) (hr : d.pwr.resetFrom = none) (hg : o / 16 = k / 16) :
    let t := latchOut c o latch code d
    t.dch o = { d.dch o with latch := latch, phase := 0 } ∧ (t.grp (k / 16)).applied.testBit (k % 16) = false ∧ Opened d t (0x8000 + o) code 2 0 0 false false ∧
        Alike t (reapply c (k / 16) (d.setDch o { d.dch o with latch := latch, phase := 0 })) := by
  intro t
  have e : t = reapply c (k / 16) (fldFault c (0x8000 + o) code 2 false false (d.setDch o { d.dch o with latch := latch, phase := 0 })) := by
    simp only [t, latchOut, hg]
  set d1 := d.setDch o { d.dch o with latch := latch, phase := 0 } with hd1
  have hst1 : d1.glb.st ≠ .dormant := hst
  have hr1 : d1.pwr.resetFrom = none := hr
  rw [e]
  refine ⟨by simp [hd1], ?_, ?_, ?_⟩
  · apply reapply_bit _ _ hk
    unfold dieLevel; simp [ho, hd1, hl]
  · exact (fldFault_opened c (0x8000 + o) code 2 false false d1 hst1 hr1 (by omega)).of rfl rfl (by simp)
  · exact (reapply_flt c _ (fldFault_step c (0x8000 + o) code 2 false false d1 hst1)).alike

@[simp] theorem clears_grp (d : Dyn) (src : Nat) (l : List Nat) (g : Nat) : (d.clears src l).grp g = d.grp g := by
  unfold Dyn.grp; rw [(clears_step d src l).same.2.2.2.2.2.2.2.1]
@[simp] theorem clears_dch (d : Dyn) (src : Nat) (l : List Nat) (g : Nat) : (d.clears src l).dch g = d.dch g := by
  unfold Dyn.dch; rw [(clears_step d src l).same.2.2.2.2.2.2.2.1]
@[simp] theorem clears_mch (d : Dyn) (src : Nat) (l : List Nat) (g : Nat) : (d.clears src l).mch g = d.mch g := by
  unfold Dyn.mch; rw [(clears_step d src l).same.2.2.2.2.2.2.2.1]

theorem setGrp_step (d : Dyn) (g : Nat) (x : FGrp) : FldStep d (d.setGrp g x) := rfl
theorem setDch_step (d : Dyn) (k : Nat) (x : DChan) : FldStep d (d.setDch k x) := rfl
theorem setMch_step (d : Dyn) (k : Nat) (x : MChan) : FldStep d (d.setMch k x) := rfl

theorem clearLatch_spec (c : Cfg) (k : Nat) (d : Dyn) : FldStep d (clearLatch c k d) ∧ (∀ g, (clearLatch c k d).grp g = d.grp g) ∧
   (∀ j, j ≠ c.owner k → (clearLatch c k d).dch j = d.dch j) ∧ ((clearLatch c k d).dch (c.owner k)).latch = 0 ∧ (∀ j, (clearLatch c k d).mch j = d.mch j) := by
  unfold clearLatch
  dsimp only
  split
  · exact ⟨rfl, fun _ => rfl, fun _ _ => rfl, by assumption, fun _ => rfl⟩
  · refine ⟨FldStep.trans (e := d.setDch (c.owner k) { d.dch (c.owner k) with latch := 0, retries := 0, fedCnt := 0, drvCnt := 0 }) rfl (clears_step _ _ _).fld, fun g => by simp, fun j hj => by simp [hj], by simp, fun j => by simp⟩

/-- What the waiting overload retries run to (R387). -/
theorem retriesRun_spec (g : Nat) (d : Dyn) : (∃ f, retriesRun g d = { d with fld := f }) ∧ (∀ h, (retriesRun g d).grp h = d.grp h) ∧ (∀ j, (retriesRun g d).mch j = d.mch j) ∧
    (∀ j, (retriesRun g d).dch j = if g < 4 ∧ j / 16 = g ∧ (d.dch j).phase = 4 then { d.dch j with phase := 2 } else d.dch j) := by
  unfold retriesRun
  split
  · rename_i hg
    refine ⟨forEach_keeps (fun e : Dyn => ∃ f, e = { d with fld := f }) _ _ _ (fun k s h => by obtain ⟨f, rfl⟩ := h; exact ⟨_, rfl⟩) ⟨_, rfl⟩,
      fun h => forEach_same (fun e : Dyn => e.grp h) _ _ _ (fun k s => rfl), fun j => forEach_same (fun e : Dyn => e.mch j) _ _ _ (fun k s => rfl), fun j => ?_⟩
    have key : ∀ (l : List Nat) (_ : l.Nodup) (e : Dyn), (forEach l e (fun k d => d.setDch k { d.dch k with phase := 2 })).dch j =
        if j ∈ l then { e.dch j with phase := 2 } else e.dch j := by
      intro l
      induction l with
      | nil => intro _ e; rfl
      | cons a r ih =>
        intro hl e
        have ha := List.nodup_cons.1 hl
        refine (ih ha.2 _).trans ?_
        by_cases hn : j = a
        · subst hn; simp [ha.1]
        · simp [hn]
    rw [key _ (List.Nodup.filter _ (upFrom_nodup _ _))]
    have m : (j ∈ (upFrom (16 * g) 16).filter (fun k => (d.dch k).phase == 4)) ↔ g < 4 ∧ j / 16 = g ∧ (d.dch j).phase = 4 := by
      rw [List.mem_filter, upFrom_mem]; simp; omega
    rw [if_congr m rfl rfl]
  · rename_i hg
    exact ⟨⟨_, rfl⟩, fun _ => rfl, fun _ => rfl, fun j => by rw [if_neg (fun h => hg h.1)]⟩

theorem restore_core (g : Nat) (d : Dyn) :
    let t := (restoreGrp g d).setGrp g { (restoreGrp g d).grp g with cmdResult := 0 }
    Closed d t (grpSrc g) [grpCode g 4] ∧ t.grp g = { d.grp g with latch := 0, restorable := false, cond := if (d.grp g).cond = 4 then 2 else (d.grp g).cond, cmdResult := 0 } ∧
    (∀ h, h ≠ g → t.grp h = d.grp h) ∧
    (∀ j, t.dch j = if g < 4 ∧ j / 16 = g ∧ (d.dch j).phase = 4 then { d.dch j with phase := 2 } else d.dch j) ∧
    (∀ j, t.mch j = d.mch j) ∧ Alike { t with fld := d.fld } d := by
  intro t
  set d1 := d.setGrp g { d.grp g with latch := 0, restorable := false, cond := if (d.grp g).cond = 4 then 2 else (d.grp g).cond } with hd1
  obtain ⟨r1, r2, r3, r4⟩ := retriesRun_spec g d1
  have e : t = ((retriesRun g d1).clears (grpSrc g) [grpCode g 4]).setGrp g { d1.grp g with cmdResult := 0 } := by
    simp only [t, restoreGrp, ← hd1, clears_grp, r2]
  have u : FldStep d (retriesRun g d1) ∧ (retriesRun g d1).flt = d.flt := by obtain ⟨f, h⟩ := r1; rw [h]; exact ⟨rfl, rfl⟩
  rw [e]
  generalize retriesRun g d1 = v at *
  refine ⟨(clears_closed v (grpSrc g) [grpCode g 4]).of u.2.symm rfl, by simp [hd1], fun h hh => by simp [hh, r2, hd1], fun j => by simp [r4, hd1], fun j => by simp [r3, hd1], ?_⟩
  exact u.1.trans (FldStep.trans (clears_step _ (grpSrc g) [grpCode g 4]).fld rfl)

theorem clearLoop (c : Cfg) (l : List Nat) (hl : ∀ j ∈ l, True) (d : Dyn) : FldStep d (forEach l d (clearLatch c)) ∧ (∀ g, (forEach l d (clearLatch c)).grp g = d.grp g) ∧
   (∀ j, (d.dch j).latch = 0 ∨ (j ∈ l ∧ c.owner j = j) → ((forEach l d (clearLatch c)).dch j).latch = 0) ∧
   (∀ j, (∀ k ∈ l, c.owner k ≠ j) → (forEach l d (clearLatch c)).dch j = d.dch j) := by
  induction l generalizing d with
  | nil => exact ⟨rfl, fun _ => rfl, fun j h => by rcases h with h | h; exact h; simp at h, fun _ _ => rfl⟩
  | cons a r ih =>
    obtain ⟨b1, b2, b3, b4, _⟩ := clearLatch_spec c a d
    obtain ⟨i1, i2, i3, i4⟩ := ih (fun _ _ => trivial) (clearLatch c a d)
    refine ⟨b1.trans i1, fun g => (i2 g).trans (b2 g), fun j h => i3 j ?_, fun j h => (i4 j (fun k hk => h k (by simp [hk]))).trans (b3 j (fun e => h a (by simp) e.symm))⟩
    by_cases hj : j = c.owner a
    · left; rw [hj]; exact b4
    · rw [b3 j hj]
      rcases h with h | ⟨h, ho⟩
      · exact .inl h
      · rcases List.mem_cons.1 h with h | h
        · subst h; exact absurd ho.symm hj
        · exact .inr ⟨h, ho⟩

theorem unlatch_spec (n : Nat) (d : Dyn) : FldStep d (movUnlatch n d) ∧ (∀ g, (movUnlatch n d).grp g = d.grp g) ∧
   (∀ j, j ≠ n → (movUnlatch n d).mch j = d.mch j) ∧ ((movUnlatch n d).mch n).state ≠ 6 ∧ (∀ j, (movUnlatch n d).dch j = d.dch j) := by
  unfold movUnlatch
  dsimp only
  split
  · refine ⟨FldStep.trans (e := d.setMch n { (d.mch n).go d.ms 1 with latch := 0, retry := 0 }) rfl (clears_step _ _ _).fld, fun g => by simp, fun j hj => by simp [hj], by simp [MChan.go], fun j => by simp⟩
  · exact ⟨rfl, fun _ => rfl, fun _ _ => rfl, by assumption, fun _ => rfl⟩

theorem unlatchLoop (l : List Nat) (d : Dyn) : FldStep d (forEach l d movUnlatch) ∧ (∀ g, (forEach l d movUnlatch).grp g = d.grp g) ∧
   (∀ j, (d.mch j).state ≠ 6 ∨ j ∈ l → ((forEach l d movUnlatch).mch j).state ≠ 6) ∧
   (∀ j, j ∉ l → (forEach l d movUnlatch).mch j = d.mch j) ∧ (∀ j, (forEach l d movUnlatch).dch j = d.dch j) := by
  induction l generalizing d with
  | nil => exact ⟨rfl, fun _ => rfl, fun j h => by rcases h with h | h; exact h; simp at h, fun _ _ => rfl, fun _ => rfl⟩
  | cons a r ih =>
    obtain ⟨b1, b2, b3, b4, b5⟩ := unlatch_spec a d
    obtain ⟨i1, i2, i3, i4, i5⟩ := ih (movUnlatch a d)
    refine ⟨b1.trans i1, fun g => (i2 g).trans (b2 g), fun j h => i3 j ?_, fun j h => (i4 j (fun k => h (by simp [k]))).trans (b3 j (fun e => h (by simp [e]))), fun j => (i5 j).trans (b5 j)⟩
    by_cases hj : j = a
    · left; rw [hj]; exact b4
    · rw [b3 j hj]
      rcases h with h | h
      · exact .inl h
      · rcases List.mem_cons.1 h with h | h
        · exact absurd h hj
        · exact .inr h

@[simp] theorem fault_grp (d : Dyn) (c : Cfg) (src code sev a b : Nat) (x y : Bool) (k : Nat) : (d.fault c src code sev a b x y).grp k = d.grp k := by
  unfold Dyn.grp; rw [fault_fld]
@[simp] theorem fault_dch (d : Dyn) (c : Cfg) (src code sev a b : Nat) (x y : Bool) (k : Nat) : (d.fault c src code sev a b x y).dch k = d.dch k := by
  unfold Dyn.dch; rw [fault_fld]
@[simp] theorem fault_mch (d : Dyn) (c : Cfg) (src code sev a b : Nat) (x y : Bool) (k : Nat) : (d.fault c src code sev a b x y).mch k = d.mch k := by
  unfold Dyn.mch; rw [fault_fld]
@[simp] theorem fault_dtab (d : Dyn) (c : Cfg) (src code sev a b : Nat) (x y : Bool) (k : Nat) : (d.fault c src code sev a b x y).dtab k = d.dtab k := by
  unfold Dyn.dtab; rw [fault_fld]

def smp (lv : Bool) (net ep : Nat) (x : DChan) : DChan :=
  if x.run ≠ 0 ∧ lv = x.cand then { x with run := min (x.run + 1) 65535 } else { x with cand := lv, run := 1, stamp := net, stampEp := ep }

theorem sampleChan_eq (k : Nat) (lv : Bool) (d : Dyn) : sampleChan k lv d = d.setDch k (smp lv d.tim.net d.tim.epoch (d.dch k)) := by
  unfold sampleChan smp; dsimp only; split <;> rfl

theorem sampleLoop (g levels : Nat) (l : List Nat) (hl : l.Nodup) (hb : ∀ i ∈ l, i < 16) (d : Dyn) :
   (∀ j, (forEach l d (fun i d => sampleChan (16 * g + i) (levels.testBit i) d)).dch j =
     if j / 16 = g ∧ j % 16 ∈ l then smp (levels.testBit (j % 16)) d.tim.net d.tim.epoch (d.dch j) else d.dch j) ∧
   (∀ h, (forEach l d (fun i d => sampleChan (16 * g + i) (levels.testBit i) d)).grp h = d.grp h) ∧
   (∃ f, (forEach l d (fun i d => sampleChan (16 * g + i) (levels.testBit i) d)) = { d with fld := f }) := by
  induction l generalizing d with
  | nil => exact ⟨fun j => by simp [forEach], fun h => rfl, ⟨d.fld, rfl⟩⟩
  | cons a r ih =>
    have ha := List.nodup_cons.1 hl
    have hab := hb a (by simp)
    obtain ⟨i1, i2, f, i3⟩ := ih ha.2 (fun i hi => hb i (by simp [hi])) (sampleChan (16 * g + a) (levels.testBit a) d)
    refine ⟨fun j => (i1 j).trans ?_, fun h => (i2 h).trans ?_, ?_⟩
    · rw [sampleChan_eq]
      by_cases hj : j = 16 * g + a
      · have e1 : j / 16 = g := by omega
        have e2 : j % 16 = a := by omega
        rw [e1, e2, if_neg (by simp [ha.1]), if_pos (by simp), hj]; simp
      · simp only [setDch_other _ _ _ _ hj, setDch_tim]
        have : (j / 16 = g ∧ j % 16 ∈ a :: r) ↔ (j / 16 = g ∧ j % 16 ∈ r) := by
          constructor
          · rintro ⟨h1, h2⟩; refine ⟨h1, ?_⟩; rcases List.mem_cons.1 h2 with h | h; omega; exact h
          · rintro ⟨h1, h2⟩; exact ⟨h1, by simp [h2]⟩
        rw [if_congr this rfl rfl]
    · rw [sampleChan_eq]; rfl
    · refine ⟨f, Eq.trans i3 ?_⟩
      rw [sampleChan_eq]
      rfl

theorem dioChange_event (c : Cfg) (k : Nat) (stamp ep : Nat) (d : Dyn) (h1 : d.glb.st = .run) (h2 : c.dioChg k % 2 = 1) (h3 : d.flt.events.length < 256) :
   ∃ e ∈ (dioChange c k true stamp ep d).flt.events, e.r.code = 0x806F ∧ e.r.source = 0x8000 + k ∧ e.r.sev = 0 ∧ e.r.a = 1 ∧ e.r.first = stamp := by
  unfold dioChange
  have : (c.dioChg k).testBit 0 = true := by simp [Nat.testBit_zero, h2]
  simp only [h1, this, if_true]
  unfold Dyn.eventAt
  simp [h3, Dyn.newRec]

theorem take_spec (c : Cfg) (k : Nat) (lv : Bool) (stamp ep : Nat) (d : Dyn) :
   FGStep d (takeState c k lv stamp ep d) ∧ (∀ j, (takeState c k lv stamp ep d).dch j = if j = k then { d.dch k with level := lv, hasState := true, brk := false } else d.dch j) ∧
   (k < 64 → d.openCode (0x8000 + k) [0x806C] = true → (takeState c k lv stamp ep d).flt.find (0x8000 + k) = none) := by
  unfold takeState
  extract_lets x changed d1 d2
  have h1 : FldStep d d1 := FldStep.trans (e := d.setDch k { x with level := lv, hasState := true, brk := false }) rfl (clears_step _ _ _).fld
  have hev : FltStep d1 d2 := by
    simp only [d2]; split
    · unfold dioChange Dyn.eventAt; dsimp only; repeat' split
      all_goals exact ⟨_, _, _, _, _, rfl⟩
    · exact .refl _
  have hfl : ∀ m, d2.flt.find m = d1.flt.find m := by
    intro m; simp only [d2]; split
    · unfold dioChange Dyn.eventAt; dsimp only; repeat' split
      all_goals rfl
    · rfl
  refine ⟨?_, ?_, ?_⟩
  · exact FGStep.trans h1.grdfld (FGStep.trans hev.fld.grdfld (deliverDio_step c k d2).fg)
  · intro j
    rw [deliverDio_dch]
    have : d2.dch j = d1.dch j := by unfold Dyn.dch; rw [hev.same.2.2.2.2.2.2.2.1]
    rw [this]; simp only [d1, clears_dch]
    rw [setDch_get]
  · intro hk ho
    rw [deliverDio_find _ _ _ _ (by omega), hfl]
    exact (clears_closed _ _ _).1 ho

theorem goutLoop (c : Cfg) (u : Nat → Bool) (on : Bool) (g : Nat) (l : List Nat) (hl : ∀ k ∈ l, k / 16 = g) (d : Dyn) :
    let r := forEach l d (fun k d => if c.dioMode k = 3 ∧ ¬ u k then d.setDch k { d.dch k with host := on } else d.setGrp g { d.grp g with refused := satInc 8 (d.grp g).refused })
    (∀ k, r.dch k = if k ∈ l ∧ c.dioMode k = 3 ∧ u k = false then { d.dch k with host := on } else d.dch k) ∧ (∀ h, h ≠ g → r.grp h = d.grp h) ∧ FldStep d r ∧
    (l = [] → r = d) := by
  induction l generalizing d with
  | nil => exact ⟨fun k => by simp [forEach], fun _ _ => rfl, rfl, fun _ => rfl⟩
  | cons a r ih =>
    intro R
    set d1 := if c.dioMode a = 3 ∧ ¬ u a then d.setDch a { d.dch a with host := on } else d.setGrp g { d.grp g with refused := satInc 8 (d.grp g).refused } with hd1
    obtain ⟨i1, i2, i3, _⟩ := ih (fun k hk => hl k (by simp [hk])) d1
    refine ⟨fun k => (i1 k).trans ?_, fun h hh => (i2 h hh).trans ?_, FldStep.trans ?_ i3, fun h => by simp at h⟩
    · have e : d1.dch k = if k = a ∧ c.dioMode k = 3 ∧ u k = false then { d.dch k with host := on } else d.dch k := by
        rw [hd1]; split
        · rename_i h; rw [setDch_get]; by_cases hk : k = a
          · subst hk; simp [h.1, h.2]
          · simp [hk]
        · rename_i h; simp only [setGrp_dch]; rw [if_neg]; rintro ⟨rfl, h1, h2⟩; exact h ⟨h1, by simp [h2]⟩
      rw [e]
      by_cases h1 : c.dioMode k = 3 ∧ u k = false
      · rcases Classical.em (k = a) with hka | hka <;> rcases Classical.em (k ∈ r) with hkr | hkr
        · have A := eq_true hka; have B := eq_true hkr; simp only [A, B, h1, List.mem_cons, and_self, true_or, if_true]
        · have A := eq_true hka; have B := eq_false hkr; simp only [A, B, h1, List.mem_cons, and_self, true_or, false_and, if_true, if_false]
        · have A := eq_false hka; have B := eq_true hkr; simp only [A, B, h1, List.mem_cons, and_self, or_true, false_and, if_true, if_false]
        · have A := eq_false hka; have B := eq_false hkr; simp only [A, B, h1, List.mem_cons, or_self, false_and, if_false]
      · rw [if_neg (by tauto), if_neg (by tauto), if_neg (by tauto)]
    · rw [hd1]; split
      · rfl
      · simp [hh]
    · rw [hd1]; split <;> rfl

theorem gout_core (on : Bool) (g : Nat) (v : Word) (s : State) (x : Arc) :
    let t := { goutWrite s.c (unitNamed s.c s.d) on g v s.d with arc := x }
    (∀ k, k / 16 = g → bit v (k % 16) = true → s.c.dioMode k = 3 → unitNamed s.c s.d k = false → t.dch k = { s.d.dch k with host := on }) ∧
        (∀ k, (k / 16 ≠ g ∨ bit v (k % 16) = false ∨ s.c.dioMode k ≠ 3 ∨ unitNamed s.c s.d k = true) → t.dch k = s.d.dch k) ∧
        (v = 0 → t.grp g = s.d.grp g) ∧ (∀ h, h ≠ g → t.grp h = s.d.grp h) ∧ Alike { t with fld := s.d.fld, arc := s.d.arc } s.d := by
  intro t
  have hm : ∀ k, k ∈ (upFrom (16 * g) 16).filter (fun k => bit v (k % 16)) ↔ k / 16 = g ∧ bit v (k % 16) = true := by
    intro k; rw [List.mem_filter, upFrom_mem]; constructor
    · rintro ⟨h, h2⟩; exact ⟨by omega, h2⟩
    · rintro ⟨h, h2⟩; exact ⟨by omega, h2⟩
  obtain ⟨i1, i2, i3, i4⟩ := goutLoop s.c (unitNamed s.c s.d) on g ((upFrom (16 * g) 16).filter (fun k => bit v (k % 16))) (fun k hk => ((hm k).1 hk).1) s.d
  refine ⟨?_, ?_, ?_, i2, ?_⟩
  · intro k h1 h2 h3 h4
    exact (i1 k).trans (if_pos ⟨(hm k).2 ⟨h1, h2⟩, h3, h4⟩)
  · intro k h
    refine (i1 k).trans (if_neg ?_)
    rw [hm]; rintro ⟨⟨h1, h2⟩, h3, h4⟩
    rcases h with h | h | h | h
    · exact h h1
    · rw [h] at h2; cases h2
    · exact h h3
    · rw [h] at h4; cases h4
  · intro hv
    have : (upFrom (16 * g) 16).filter (fun k => bit v (k % 16)) = [] := by
      rw [List.filter_eq_nil_iff]; intro k _; subst hv; simp [bit, fld]
    have e := i4 this
    show (goutWrite s.c (unitNamed s.c s.d) on g v s.d).grp g = _
    unfold goutWrite; rw [e]
  · exact congrArg (fun y : Dyn => ({ y with arc := s.d.arc } : Dyn)) i3

theorem fan_fault (c : Cfg) (n : Nat) (x : MChan) (code sev : Nat) (d : Dyn) (hn : n < 32) :
    let t := (d.setMch n x).fault c (0x9000 + n) code sev 0 0 false false
    t.mch n = x ∧ Opened d t (0x9000 + n) code sev 0 0 false false ∧ (∀ j, j ≠ n → t.mch j = d.mch j) ∧ (∀ g, t.grp g = d.grp g) ∧ Alike { t with fld := d.fld } d := by
  intro t
  refine ⟨by simp [t], fault_opened_after _ _ _ _ _ _ _ _ rfl rfl (by omega), fun j hj => by simp [t, hj], fun g => by simp [t], ?_⟩
  exact (setMch_step d n x).trans (fault_step _ _ _ _ _ _ _ _ _).fld

end Sys2Proof.Machine
end

