-- ==== Sys2Proof/Laws/Regs.lean ====
section
/-! SUPPORT. Register words: what a word reads after a write or a load, and the canonical form of the register tables. -/

namespace Sys2Proof.Machine

open Sys2Proof

theorem tget_tins' (d : α) (t : Tbl α) (k m : Nat) (v : α) (h : m ≠ k) : tget d (tins k v t) m = tget d t m := by
  rw [tget_tins, if_neg h]

theorem tget_tdel' (d : α) (t : Tbl α) (k m : Nat) (h : m ≠ k) : tget d (tdel k t) m = tget d t m := by
  rw [tget_tdel, if_neg h]

/-- A word of another address, whatever default it reads with. -/
theorem tget_tput' [DecidableEq α] (d e : α) (t : Tbl α) (k m : Nat) (v : α) (h : m ≠ k) : tget d (tput e t k v) m = tget d t m := by
  unfold tput
  split
  · exact tget_tdel' d t k m h
  · exact tget_tins' d t k m v h

/-- The word as written after a store. -/
theorem putW_w (r : Regs) (a b : Nat) (v : Word) :
    tget (resetWord b) (r.putW a v).w b = if b = a then v else tget (resetWord b) r.w b := by
  by_cases h : b = a
  · subst h; simp [Regs.putW]
  · rw [if_neg h]; exact tget_tput' _ _ _ _ _ _ h

/-- The word in force after a store. -/
theorem putF_f (r : Regs) (a b : Nat) (v : Word) :
    tget (resetWord b) (r.putF a v).f b = if b = a then v else tget (resetWord b) r.f b := by
  by_cases h : b = a
  · subst h; simp [Regs.putF]
  · rw [if_neg h]; exact tget_tput' _ _ _ _ _ _ h

/-- A load of one word. -/
theorem load1_f (r : Regs) (a b : Nat) :
    tget (resetWord b) (r.load1 a).f b = if b = a ∧ tget false r.fresh a = false then tget (resetWord b) r.w b else tget (resetWord b) r.f b := by
  unfold Regs.load1
  by_cases h : tget false r.fresh a = true
  · simp [h]
  · have h' : tget false r.fresh a = false := by simpa using h
    rw [if_neg h, putF_f]
    by_cases hb : b = a
    · subst hb; simp [h']
    · simp [hb]

@[simp] theorem load1_w (r : Regs) (a : Nat) : (r.load1 a).w = r.w := by unfold Regs.load1; split <;> rfl
@[simp] theorem load1_fresh (r : Regs) (a : Nat) : (r.load1 a).fresh = r.fresh := by unfold Regs.load1; split <;> rfl

theorem loads_spec (l : List Nat) (r : Regs) (ad : Nat → Nat) :
    let r' := forEach l r (fun k r => r.load1 (ad k))
    r'.w = r.w ∧ r'.fresh = r.fresh ∧
    ∀ b, tget (resetWord b) r'.f b =
      if (∃ k ∈ l, b = ad k) ∧ tget false r.fresh b = false then tget (resetWord b) r.w b else tget (resetWord b) r.f b := by
  induction l generalizing r with
  | nil => exact ⟨rfl, rfl, fun b => by simp [forEach]⟩
  | cons a l ih =>
    obtain ⟨i1, i2, i3⟩ := ih (r.load1 (ad a))
    refine ⟨i1.trans (load1_w _ _), i2.trans (load1_fresh _ _), fun b => (i3 b).trans ?_⟩
    rw [load1_f, load1_w, load1_fresh]
    by_cases hb : b = ad a
    · subst hb
      by_cases hf : tget false r.fresh (ad a) = false
      · by_cases he : ∃ k ∈ l, ad a = ad k <;> simp [hf, he]
      · simp [hf]
    · by_cases he : ∃ k ∈ l, b = ad k
      · have : ∃ k ∈ a :: l, b = ad k := by obtain ⟨k, h1, h2⟩ := he; exact ⟨k, by simp [h1], h2⟩
        simp [he, hb, this]
      · have : ¬ ∃ k ∈ a :: l, b = ad k := by
          rintro ⟨k, h1, h2⟩
          rcases List.mem_cons.1 h1 with h | h
          · subst h; exact hb h2
          · exact he ⟨k, h, h2⟩
        rw [if_neg (fun h => he h.1), if_neg (fun h => hb h.1), if_neg (fun h => this h.1)]

/-- A load of `n` words from `a`. -/
theorem load_spec (r : Regs) (a n : Nat) :
    (r.load a n).w = r.w ∧ (r.load a n).fresh = r.fresh ∧
    ∀ b, tget (resetWord b) (r.load a n).f b =
      if (∃ k < n, b = a + 4 * k) ∧ tget false r.fresh b = false then tget (resetWord b) r.w b else tget (resetWord b) r.f b := by
  obtain ⟨h1, h2, h3⟩ := loads_spec (List.range n) r (fun k => a + 4 * k)
  refine ⟨h1, h2, fun b => (h3 b).trans ?_⟩
  simp

theorem wordsOk_weaken (lo lo' : Nat) (t : Tbl Word) (h : lo' ≤ lo) (ht : wordsOk lo t = true) : wordsOk lo' t = true := by
  cases t with
  | nil => rfl
  | cons p r =>
    simp only [wordsOk, Bool.and_eq_true, decide_eq_true_eq] at ht ⊢
    exact ⟨⟨le_trans h ht.1.1, ht.1.2⟩, ht.2⟩

theorem wordsOk_tins (lo k : Nat) (v : Word) (t : Tbl Word) (hk : lo ≤ k) (hv : v ≠ resetWord k) (ht : wordsOk lo t = true) :
    wordsOk lo (tins k v t) = true := by
  induction t generalizing lo with
  | nil => simp [tins, wordsOk, hk, hv]
  | cons p r ih =>
    obtain ⟨j, u⟩ := p
    simp only [wordsOk, Bool.and_eq_true, decide_eq_true_eq] at ht
    unfold tins
    split
    · simp [wordsOk, hk, hv, ht.1.2, ht.2]; omega
    · split
      · rename_i h; subst h; simp [wordsOk, hk, hv, ht.2]
      · simp only [wordsOk, Bool.and_eq_true, decide_eq_true_eq]
        exact ⟨ht.1, ih (j + 1) (by omega) ht.2⟩

theorem wordsOk_tdel (lo k : Nat) (t : Tbl Word) (ht : wordsOk lo t = true) : wordsOk lo (tdel k t) = true := by
  induction t generalizing lo with
  | nil => rfl
  | cons p r ih =>
    obtain ⟨j, u⟩ := p
    simp only [wordsOk, Bool.and_eq_true, decide_eq_true_eq] at ht
    have i := ih (j + 1) ht.2
    by_cases h : j = k
    · have e : tdel k ((j, u) :: r) = tdel k r := by simp [tdel, h]
      rw [e]; exact wordsOk_weaken _ _ _ (by omega) i
    · have e : tdel k ((j, u) :: r) = (j, u) :: tdel k r := by simp [tdel, h]
      rw [e]; simp [wordsOk, ht.1.1, ht.1.2, i]

theorem twf_tins [DecidableEq α] (d : α) (lo k : Nat) (v : α) (t : Tbl α) (hk : lo ≤ k) (hv : v ≠ d) (ht : twf d lo t = true) :
    twf d lo (tins k v t) = true := by
  induction t generalizing lo with
  | nil => simp [tins, twf, hk, hv]
  | cons p r ih =>
    obtain ⟨j, u⟩ := p
    simp only [twf, Bool.and_eq_true, decide_eq_true_eq] at ht
    unfold tins
    split
    · simp [twf, hk, hv, ht.1.2, ht.2]; omega
    · split
      · rename_i h; subst h; simp [twf, hk, hv, ht.2]
      · simp only [twf, Bool.and_eq_true, decide_eq_true_eq]
        exact ⟨ht.1, ih (j + 1) (by omega) ht.2⟩

theorem twf_tdel [DecidableEq α] (d : α) (lo k : Nat) (t : Tbl α) (ht : twf d lo t = true) : twf d lo (tdel k t) = true := by
  induction t generalizing lo with
  | nil => rfl
  | cons p r ih =>
    obtain ⟨j, u⟩ := p
    simp only [twf, Bool.and_eq_true, decide_eq_true_eq] at ht
    have i := ih (j + 1) ht.2
    by_cases h : j = k
    · have e : tdel k ((j, u) :: r) = tdel k r := by simp [tdel, h]
      rw [e]; exact twf_weaken _ _ _ _ (by omega) i
    · have e : tdel k ((j, u) :: r) = (j, u) :: tdel k r := by simp [tdel, h]
      rw [e]; simp [twf, ht.1.1, ht.1.2, i]

/-- A write keeps the canonical form of a table. -/
theorem twf_tput [DecidableEq α] (d : α) (k : Nat) (v : α) (t : Tbl α) (ht : twf d 0 t = true) : twf d 0 (tput d t k v) = true := by
  unfold tput
  split
  · exact twf_tdel _ _ _ _ ht
  · exact twf_tins _ _ _ _ _ (by omega) (by assumption) ht

theorem wordsOk_tput (k : Nat) (v : Word) (t : Tbl Word) (ht : wordsOk 0 t = true) : wordsOk 0 (tput (resetWord k) t k v) = true := by
  unfold tput
  split
  · exact wordsOk_tdel _ _ _ ht
  · exact wordsOk_tins _ _ _ _ (by omega) (by assumption) ht

theorem Regs.none_ok : Regs.none.ok := ⟨rfl, rfl, rfl⟩
theorem putW_ok {r : Regs} (a : Nat) (v : Word) (h : r.ok) : (r.putW a v).ok := ⟨wordsOk_tput _ _ _ h.1, h.2.1, h.2.2⟩
theorem putF_ok {r : Regs} (a : Nat) (v : Word) (h : r.ok) : (r.putF a v).ok := ⟨h.1, wordsOk_tput _ _ _ h.2.1, h.2.2⟩
theorem putB_ok {r : Regs} (a : Nat) (v : Word) (h : r.ok) : (r.putB a v).ok := putF_ok _ _ (putW_ok _ _ h)
theorem shadow_ok {r : Regs} (a : Nat) (v : Word) (h : r.ok) : (r.shadow a v).ok := ⟨wordsOk_tput _ _ _ h.1, h.2.1, twf_tput false a true r.fresh h.2.2⟩
theorem settle_ok {r : Regs} (h : r.ok) : r.settle.ok := ⟨h.1, h.2.1, rfl⟩
theorem load1_ok {r : Regs} (a : Nat) (h : r.ok) : (r.load1 a).ok := by
  unfold Regs.load1
  split
  · exact h
  · exact putF_ok _ _ h
theorem load_ok {r : Regs} (a n : Nat) (h : r.ok) : (r.load a n).ok :=
  forEach_keeps (fun r : Regs => r.ok) _ _ _ (fun _ _ h => load1_ok _ h) h
theorem loadIf_ok {r : Regs} (p : Nat → Bool) (h : r.ok) : (r.loadIf p).ok :=
  forEach_keeps (fun r : Regs => r.ok) _ _ _ (fun _ _ h => load1_ok _ h) h

end Sys2Proof.Machine
end

