-- ==== Sys2Proof/Laws/States.lean ====
section
/-! SUPPORT. Entries to the device states: what the starts and stops of the engines keep, and where a transition ends. -/

namespace Sys2Proof.Machine

open Sys2Proof

/-- The power block stands but for a run condition, the scan interval in force, the hold time last commanded and the reset causes. -/
def PKeeps (d e : Dyn) : Prop := ∃ r i h x, e.pwr = { d.pwr with runCond := r, interval := i, holdMs := h, rst := x }

theorem PKeeps.trans {a b c : Dyn} (h : PKeeps a b) (g : PKeeps b c) : PKeeps a c := by
  obtain ⟨_, _, _, _, h⟩ := h
  obtain ⟨_, _, _, _, g⟩ := g
  exact ⟨_, _, _, _, by rw [g, h]⟩

/-- The state manager stands but for a HALT raised on the way, device time stands, and the power block as `PKeeps` says. -/
def GKeeps (d e : Dyn) : Prop :=
  (∃ h, e.glb = { d.glb with haltCause := h }) ∧ e.tim.acc = d.tim.acc ∧ e.tim.ofs = d.tim.ofs ∧ e.tim.epoch = d.tim.epoch ∧ PKeeps d e

theorem GKeeps.of {d e : Dyn} (h : e.glb = d.glb) (g : e.tim = d.tim) (p : e.pwr = d.pwr) : GKeeps d e :=
  ⟨⟨_, h⟩, by rw [g], by rw [g], by rw [g], _, _, _, _, p⟩
theorem GKeeps.pw {d e : Dyn} (h : e.glb = d.glb) (g : e.tim = d.tim) (p : PKeeps d e) : GKeeps d e := ⟨⟨_, h⟩, by rw [g], by rw [g], by rw [g], p⟩
theorem GKeeps.rfl {d : Dyn} : GKeeps d d := GKeeps.of (Eq.refl _) (Eq.refl _) (Eq.refl _)
theorem GKeeps.trans {a b c : Dyn} (h : GKeeps a b) (g : GKeeps b c) : GKeeps a c := by
  obtain ⟨⟨x, hx⟩, h1, h2, h3, h4⟩ := h
  obtain ⟨⟨y, hy⟩, g1, g2, g3, g4⟩ := g
  exact ⟨⟨y, by rw [hy, hx]⟩, g1.trans h1, g2.trans h2, g3.trans h3, h4.trans g4⟩
theorem GKeeps.pwr {d e : Dyn} (h : GKeeps d e) : PKeeps d e := h.2.2.2.2
theorem GKeeps.each {g : Nat → Dyn → Dyn} (l : List Nat) (d : Dyn) (h : ∀ k t, GKeeps t (g k t)) : GKeeps d (forEach l d g) :=
  forEach_keeps (GKeeps d) l d g (fun k s hs => hs.trans (h k s)) GKeeps.rfl
theorem GKeeps.ite {d a b : Dyn} (p : Prop) [Decidable p] (h : GKeeps d a) (g : GKeeps d b) : GKeeps d (if p then a else b) := by
  split
  · exact h
  · exact g
theorem GKeeps.st {d e : Dyn} (h : GKeeps d e) : e.glb.st = d.glb.st := by obtain ⟨⟨x, hx⟩, _⟩ := h; rw [hx]
theorem GKeeps.cause {d e : Dyn} (h : GKeeps d e) : e.glb.lastCause = d.glb.lastCause := by obtain ⟨⟨x, hx⟩, _⟩ := h; rw [hx]
theorem GKeeps.role {d e : Dyn} (h : GKeeps d e) : e.glb.role = d.glb.role := by obtain ⟨⟨x, hx⟩, _⟩ := h; rw [hx]
theorem GKeeps.ms {d e : Dyn} (h : GKeeps d e) : e.ms = d.ms := by
  unfold Dyn.ms Tim.ms
  rw [h.2.1]

theorem Alike.g {d e : Dyn} (h : Alike e d) : GKeeps d e := by
  have ht := h.blocks.1
  unfold Alike Dyn.silent at h
  injection h with h1 h2 h3 h4 h5 h6 h7 h8 h9 h10 h11 h12 h13 h14 h15 h16 h17 h18 h19
  refine ⟨⟨e.glb.haltCause, ?_⟩, by rw [ht], by rw [ht], by rw [ht], e.pwr.runCond, d.pwr.interval, d.pwr.holdMs, d.pwr.rst, ?_⟩
  rotate_left
  · show e.pwr = { d.pwr with runCond := e.pwr.runCond }
    have q : ({ ({ e.pwr with runCond := none } : Pwr) with runCond := e.pwr.runCond } : Pwr) = { ({ d.pwr with runCond := none } : Pwr) with runCond := e.pwr.runCond } := by rw [h2]
    exact q
  generalize e.glb = x at h1
  generalize d.glb = y at h1
  cases x
  cases y
  simp_all

theorem FltStep.g {d e : Dyn} (h : FltStep d e) : GKeeps d e := h.alike.g
theorem FldStep.g {d e : Dyn} (h : FldStep d e) : GKeeps d e :=
  GKeeps.trans (b := { e with fld := d.fld }) (Alike.g h) (GKeeps.of (Eq.refl _) (Eq.refl _) (Eq.refl _))
theorem GrdStep.g {d e : Dyn} (h : GrdStep d e) : GKeeps d e :=
  GKeeps.trans (b := { e with grd := d.grd }) (Alike.g h) (GKeeps.of (Eq.refl _) (Eq.refl _) (Eq.refl _))
theorem fault_g (d : Dyn) (c : Cfg) (src code sev a b : Nat) (x y : Bool) : GKeeps d (d.fault c src code sev a b x y) := (fault_step _ _ _ _ _ _ _ _ _).g
theorem clears_g (d : Dyn) (src : Nat) (codes : List Nat) : GKeeps d (d.clears src codes) := (clears_step _ _ _).g
theorem event_g (d : Dyn) (src code sev a b : Nat) : GKeeps d (d.event src code sev a b) := (event_step _ _ _ _ _ _).g

theorem ledger_g (d : Dyn) (typ cls : Nat) (body : List Byte) : GKeeps d (d.ledger typ cls body) := by
  obtain ⟨a, h⟩ := ledger_arc d typ cls body
  rw [h]
  exact GKeeps.of rfl rfl rfl

theorem setDesc_g (d : Dyn) (k : Nat) (x : Desc) : GKeeps d (d.setDesc k x) := GKeeps.of rfl rfl rfl
theorem setBank_g (d : Dyn) (b : Nat) (x : Bank) : GKeeps d (d.setBank b x) := GKeeps.of rfl rfl rfl
theorem setCell_g (d : Dyn) (n : Nat) (x : Cell) : GKeeps d (d.setCell n x) := GKeeps.of rfl rfl rfl
theorem setTerm_g (d : Dyn) (n : Nat) (x : GTerm) : GKeeps d (d.setTerm n x) := GKeeps.of rfl rfl rfl

theorem evalSwitch_g (c : Cfg) (k : Nat) (level : Nat → Nat) (w : Nat) (d : Dyn) : GKeeps d (evalSwitch c k level w d) := by
  unfold evalSwitch
  split
  · exact GKeeps.rfl
  · generalize c.swCfg w = q
    obtain ⟨a1, a2, a3, a4, a5, a6⟩ := q
    dsimp -zeta only
    extract_lets w0 bad w' d1 d2
    clear_value w'
    have h1 : GKeeps d d1 := GKeeps.of rfl rfl rfl
    clear_value d1
    have h2 : GKeeps d d2 := GKeeps.ite _ (h1.trans (event_g _ _ _ _ _ _)) h1
    clear_value d2
    exact GKeeps.ite _ (h2.trans (deliverSrc_step _ _ _ _ _ _ _).g) h2

theorem evalSwitches_g (c : Cfg) (k : Nat) (level : Nat → Nat) (d : Dyn) : GKeeps d (evalSwitches c k level d) :=
  GKeeps.each _ _ (fun w t => evalSwitch_g c k level w t)

theorem chanWake_g (c : Cfg) (k : Nat) (level : Nat → Nat) (d : Dyn) : GKeeps d (chanWake c k level d) := by
  unfold chanWake
  dsimp only
  split
  · exact GKeeps.of rfl rfl rfl
  · exact GKeeps.trans (b := d.setChan k _) (GKeeps.of rfl rfl rfl) (evalSwitches_g _ _ _ _)

theorem chanStart_g (c : Cfg) (k : Nat) (level : Nat → Nat) (d : Dyn) : GKeeps d (chanStart c k level d) :=
  GKeeps.trans (b := d.setChan k _) (GKeeps.of rfl rfl rfl) (evalSwitches_g _ _ _ _)

theorem setPending_g (c : Cfg) (b : Nat) (p : Nat → Bool) (d : Dyn) : GKeeps d (setPending c b p d) := by
  unfold setPending
  dsimp only
  generalize h : forEach _ d _ = d1
  have h1 : GKeeps d d1 := by
    rw [← h]
    exact GKeeps.each _ _ (fun _ _ => GKeeps.of rfl rfl rfl)
  split
  · split
    · exact h1.trans (GKeeps.of rfl rfl rfl)
    · exact h1
  · exact h1

theorem bankEntry_g (c : Cfg) (scan : Bool) (b : Nat) (d : Dyn) : GKeeps d (bankEntry c scan b d) := by
  unfold bankEntry
  extract_lets d1 x x1
  have h1 : GKeeps d d1 := GKeeps.each _ _ (fun k t => setDesc_g t k _)
  clear_value x1 x d1
  have h2 : GKeeps d1 (d1.setBank b x1) := setBank_g _ _ _
  exact h1.trans (h2.trans (setPending_g _ _ _ _))

theorem ctgNext_g (c : Cfg) (n : Nat) (d : Dyn) : GKeeps d (ctgNext c n d) := by
  unfold ctgNext
  dsimp only
  repeat' split
  all_goals first
    | exact GKeeps.of rfl rfl rfl

theorem ctgRead_g (c : Cfg) (n : Nat) (r : Bool) (d : Dyn) : GKeeps d (ctgRead c n r d) :=
  GKeeps.trans (b := d.setCtg n _) (GKeeps.of rfl rfl rfl) (ctgNext_g _ _ _)

theorem cellEntry_g (c : Cfg) (n : Nat) (d : Dyn) : GKeeps d (cellEntry c n d) := by
  unfold cellEntry
  split
  · exact GKeeps.rfl
  · exact GKeeps.ite _ (GKeeps.of rfl rfl rfl) (GKeeps.trans (b := d.setCell n _) (GKeeps.of rfl rfl rfl) (ctgRead_g _ _ _ _))

theorem measureEntry_g (c : Cfg) (scan : Bool) (d : Dyn) : GKeeps d (measureEntry c scan d) := by
  have h : GKeeps d (forEach ((List.range c.fx.nBanks).filter c.bankEn) d (bankEntry c scan)) := GKeeps.each _ _ (fun b t => bankEntry_g c scan b t)
  exact GKeeps.ite _ h (h.trans (GKeeps.each _ _ (fun n t => cellEntry_g c n t)))

theorem trcNote_g (c : Cfg) (d : Dyn) : GKeeps d (trcNote c d) := by
  unfold trcNote
  extract_lets d1
  have h1 : GKeeps d d1 := GKeeps.each _ _ (fun _ _ => GKeeps.ite _ (GKeeps.of rfl rfl rfl) GKeeps.rfl)
  clear_value d1
  exact h1.trans (GKeeps.of rfl rfl rfl)

theorem trcStart_g (c : Cfg) (d : Dyn) : GKeeps d (trcStart c d) :=
  GKeeps.ite _ ((trcNote_g c d).trans (GKeeps.each _ _ (fun _ _ => GKeeps.ite _ (GKeeps.of rfl rfl rfl) GKeeps.rfl))) GKeeps.rfl

theorem trcLeaveRun_g (d : Dyn) : GKeeps d (trcLeaveRun d) :=
  GKeeps.each _ _ (fun t d => GKeeps.ite _ (GKeeps.trans (b := d.setTrc t _) (GKeeps.of rfl rfl rfl) (event_g _ _ _ _ _ _)) GKeeps.rfl)

theorem loopStart_g (n : Nat) (s : State) : GKeeps s.d (loopStart n s).d := by
  unfold loopStart
  split
  · exact GKeeps.rfl
  · exact GKeeps.of rfl rfl rfl

theorem loopsStart_g (l : List Nat) (s : State) : GKeeps s.d (forEach l s loopStart).d :=
  forEach_keeps (fun t : State => GKeeps s.d t.d) l s loopStart (fun n _ h => h.trans (loopStart_g n _)) GKeeps.rfl

theorem genStart_g (c : Cfg) (z : Dyn) (n : Nat) (d : Dyn) : GKeeps d (genStart c z n d) := by
  unfold genStart
  exact GKeeps.ite _ GKeeps.rfl (GKeeps.of rfl rfl rfl)

theorem ovrSelect_g (c : Cfg) (g : Nat) (d : Dyn) : GKeeps d (ovrSelect c g d) := by
  unfold ovrSelect
  refine GKeeps.ite _ GKeeps.rfl ?_
  split
  · exact GKeeps.rfl
  · extract_lets x u ch d1
    have h1 : GKeeps d d1 := GKeeps.of rfl rfl rfl
    clear_value d1
    exact GKeeps.ite _ (h1.trans (event_g _ _ _ _ _ _)) h1

theorem ovrStart_g (c : Cfg) (n : Nat) (d : Dyn) : GKeeps d (ovrStart c n d) := by
  unfold ovrStart
  have h := ovrSelect_g c n d
  generalize ovrSelect c n d = e at h
  exact GKeeps.ite _ (h.trans (GKeeps.of rfl rfl rfl)) GKeeps.rfl

theorem colStartNow_g (c : Cfg) (n : Nat) (d : Dyn) : GKeeps d (colStartNow c n d) := by
  unfold colStartNow
  dsimp only
  unfold colStart
  exact GKeeps.ite _ GKeeps.rfl (GKeeps.of rfl rfl rfl)

theorem seqStart_g (c : Cfg) (d : Dyn) : GKeeps d (seqStart c d) := by
  unfold seqStart
  extract_lets ms src d1 d2
  have h1 : GKeeps d d1 := GKeeps.each _ _ (fun u t => GKeeps.trans (b := t.setUnit u _) (GKeeps.of rfl rfl rfl) (clears_g _ _ _))
  have h2 : GKeeps d1 d2 := GKeeps.each _ _ (fun u t => GKeeps.trans (b := t.setDraft u _) (GKeeps.of rfl rfl rfl) (clears_g _ _ _))
  exact h1.trans (h2.trans (GKeeps.of rfl rfl rfl))

theorem seqResume_g (d : Dyn) : GKeeps d (seqResume d) := GKeeps.of rfl rfl rfl

theorem seqStop_g (c : Cfg) (d : Dyn) : GKeeps d (seqStop c d) := by
  unfold seqStop
  extract_lets ms d1 d2
  have h1 : GKeeps d d1 := GKeeps.each _ _ (fun u t => GKeeps.ite _ (GKeeps.of rfl rfl rfl) (GKeeps.of rfl rfl rfl))
  have h2 : GKeeps d1 d2 := GKeeps.each _ _ (fun u t => GKeeps.of rfl rfl rfl)
  exact h1.trans (h2.trans (GKeeps.of rfl rfl rfl))

theorem startEngines_g (s : State) : GKeeps s.d (startEngines s).d := by
  unfold startEngines
  extract_lets s1 c d0 d1 d2 d3 d4
  have h0 : GKeeps s.d d0 := (loopsStart_g _ s).trans (GKeeps.of rfl rfl rfl)
  have h1 : GKeeps d0 d1 := GKeeps.each _ _ (fun _ _ => genStart_g _ _ _ _)
  have h2 : GKeeps d1 d2 := GKeeps.each _ _ (fun _ _ => ovrStart_g _ _ _)
  have h3 : GKeeps d2 d3 := GKeeps.each _ _ (fun _ _ => colStartNow_g _ _ _)
  exact h0.trans (h1.trans (h2.trans (h3.trans ((seqStart_g _ _).trans (GKeeps.of rfl rfl rfl)))))

theorem resumeEngines_g (b : Bool) (c : Cfg) (d : Dyn) : GKeeps d (resumeEngines b c d) := by
  unfold resumeEngines
  extract_lets d0 d1 d2
  have h0 : GKeeps d d0 := GKeeps.trans (GKeeps.each _ _ (fun n t => (GKeeps.ite _ (GKeeps.of rfl rfl rfl) GKeeps.rfl : GKeeps t (loopResume c n t)))) (GKeeps.of rfl rfl rfl)
  have h1 : GKeeps d0 d1 := GKeeps.each _ _ (fun _ _ => genStart_g _ _ _ _)
  have h2 : GKeeps d1 d2 := GKeeps.ite _ GKeeps.rfl (GKeeps.each _ _ (fun _ _ => colStartNow_g _ _ _))
  exact h0.trans (h1.trans (h2.trans (seqResume_g _)))

theorem Entered.then {st : DevState} {cause : Nat} {d e g : Dyn} (h : Entered st cause d e) (k : GKeeps e g) : Entered st cause d g := by
  obtain ⟨h1, h2, h3, h4, h5, h6, h7, h8, h9⟩ := h
  obtain ⟨⟨x, hx⟩, k1, k2, k3, _⟩ := k
  exact ⟨by rw [hx]; exact h1, by rw [hx]; exact h2, by rw [hx]; exact h3, k1.trans h4, k2.trans h5, k3.trans h6, by rw [hx]; exact h7,
    by rw [hx]; exact h8, by rw [hx]; exact h9⟩

theorem toState_entered (st : DevState) (cause : Nat) (d e : Dyn) (h : Option Nat)
    (h1 : e.glb = { (d.toState st cause).glb with runReq := none, runCommit := false, safeReq := none, dormReq := false, haltCause := h })
    (h2 : e.tim = (d.toState st cause).tim) : Entered st cause d e := by
  obtain ⟨a, h⟩ := toState_spec d st cause
  rw [h] at h1 h2
  unfold Entered
  rw [h1, h2]
  exact ⟨rfl, rfl, rfl, rfl, rfl, rfl, rfl, rfl, rfl⟩

theorem enterRun_entered (cause : Nat) (s : State) : Entered .run cause s.d (enterRun cause s).d := by
  unfold enterRun
  extract_lets old d0 src src' dz dw d1 s1
  have hz : Entered .run cause s.d dz := toState_entered _ _ _ _ _ rfl rfl
  have hw : GKeeps dz dw := GKeeps.ite _ (GKeeps.each _ _ (fun _ _ => chanWake_g _ _ _ _)) GKeeps.rfl
  have h1 : Entered .run cause s.d d1 := (hz.then hw).then ((measureEntry_g _ _ _).trans (trcStart_g _ _))
  split
  · exact h1.then (startEngines_g s1)
  · exact h1.then (resumeEngines_g _ _ _)

theorem enterSafe_entered (c : Cfg) (cause : Nat) (d : Dyn) : Entered .safe cause d (enterSafe c cause d) := by
  unfold enterSafe
  extract_lets d0 src src' d1 d2 src'' d3
  have h1 : Entered .safe cause d d1 := toState_entered _ _ _ _ _ rfl rfl
  split
  · have h2 : GKeeps d1 d2 := (trcLeaveRun_g _).trans (seqStop_g _ _)
    have h3 : GKeeps d2 d3 := GKeeps.of rfl rfl rfl
    exact h1.then (h2.trans (h3.trans (measureEntry_g _ _ _)))
  · exact h1

/-- A transition to RUN or SAFE ends the burst and the run condition, and leaves the rest of the power block as `PKeeps` says. -/
theorem enterRun_pwr (cause : Nat) (s : State) : ∃ r i h x, (enterRun cause s).d.pwr = { s.d.pwr with burst := .none, runCond := r, interval := i, holdMs := h, rst := x } := by
  unfold enterRun
  extract_lets old d0 src src' dz dw d1 s1
  have hz : dz.pwr = { s.d.pwr with burst := .none, runCond := none } := by
    obtain ⟨a, h⟩ := toState_spec s.d .run cause
    simp only [dz, src', d0, h]
  have hw : GKeeps dz dw := GKeeps.ite _ (GKeeps.each _ _ (fun _ _ => chanWake_g _ _ _ _)) GKeeps.rfl
  have h1 : GKeeps dz d1 := hw.trans ((measureEntry_g _ _ _).trans (trcStart_g _ _))
  have out : ∀ e : Dyn, GKeeps dz e → ∃ r i h x, e.pwr = { s.d.pwr with burst := .none, runCond := r, interval := i, holdMs := h, rst := x } := fun e h => by
    obtain ⟨r, i, h, x, e⟩ := h.pwr
    exact ⟨r, i, h, x, by rw [e, hz]⟩
  split
  · exact out _ (h1.trans (startEngines_g s1))
  · exact out _ (h1.trans (resumeEngines_g _ _ _))

theorem enterSafe_pwr (c : Cfg) (cause : Nat) (d : Dyn) : ∃ r i h x, (enterSafe c cause d).pwr = { d.pwr with burst := .none, runCond := r, interval := i, holdMs := h, rst := x } := by
  unfold enterSafe
  extract_lets d0 src src' d1 d2 src'' d3
  have hz : d1.pwr = { d.pwr with burst := .none, runCond := none } := by
    obtain ⟨a, h⟩ := toState_spec d .safe cause
    simp only [d1, src', d0, h]
  split
  · have h2 : GKeeps d1 d2 := (trcLeaveRun_g _).trans (seqStop_g _ _)
    have h3 : GKeeps d2 d3 := GKeeps.of rfl rfl rfl
    obtain ⟨r, i, h, x, e⟩ := (h2.trans (h3.trans (measureEntry_g c false d3))).pwr
    exact ⟨r, i, h, x, by rw [e, hz]⟩
  · exact ⟨_, _, _, _, hz⟩

theorem sendHolds_g (c : Cfg) (d : Dyn) : GKeeps d (sendHolds c d) := by
  unfold sendHolds
  extract_lets t w ms src d1
  exact GKeeps.trans (b := d1) (GKeeps.pw rfl rfl ⟨_, _, _, _, rfl⟩) (GKeeps.each _ _ (fun _ _ => GKeeps.ite _ (GKeeps.pw rfl rfl ⟨_, _, _, _, rfl⟩) GKeeps.rfl))

theorem heldOutputs_g (d : Dyn) : GKeeps d (heldOutputs d) :=
  GKeeps.trans (GKeeps.each _ _ (fun n t => (GKeeps.of rfl rfl rfl : GKeeps t (t.setLp n _))))
    (GKeeps.each _ _ (fun g t => (GKeeps.of rfl rfl rfl : GKeeps t (t.setOvr g _))))

/-- A wake source changes the power block alone, as `Woken` says. -/
theorem wakeSource_spec (cause : Nat) (d : Dyn) : wakeSource cause d = { d with pwr := Woken cause d d.pwr } := by
  unfold wakeSource Woken
  cases d.glb.st <;> dsimp only
  case dormant =>
    cases h : d.pwr.start with
    | none => rfl
    | some x => cases hx : x.toRun <;> simp [Option.isNone, h, hx, runCondition]
  case run => split <;> rfl
  all_goals rfl

/-- Levels looked at change the power block alone: a start, a run condition or a note for the entry, as for any wake source. -/
theorem wakeLevels_spec (c : Cfg) (d : Dyn) : ∃ st fa rc ea, wakeLevels c d = { d with pwr := { d.pwr with start := st, firstAt := fa, runCond := rc, entryAbort := ea } } ∧
    (d.glb.st = .dormant → ea = d.pwr.entryAbort) ∧ (levelCause c d = none → st = d.pwr.start) := by
  unfold wakeLevels
  split
  · rename_i x h
    rw [wakeSource_spec]
    unfold Woken
    have no : levelCause c d ≠ none := by rw [h]; exact nofun
    cases hs : d.glb.st <;> dsimp only
    case dormant =>
      cases d.pwr.start with
      | none => exact ⟨_, _, _, _, rfl, fun _ => rfl, fun e => absurd e no⟩
      | some y =>
        dsimp only
        split
        · exact ⟨_, _, _, _, rfl, fun _ => rfl, fun e => absurd e no⟩
        · exact ⟨_, _, _, _, rfl, fun _ => rfl, fun e => absurd e no⟩
    case run => split <;> exact ⟨_, _, _, _, rfl, nofun, fun e => absurd e no⟩
    all_goals exact ⟨_, _, _, _, rfl, fun _ => rfl, fun e => absurd e no⟩
  · exact ⟨_, _, _, _, rfl, fun _ => rfl, fun _ => rfl⟩

theorem cellsStop_g (d : Dyn) : GKeeps d (cellsStop d) := GKeeps.of rfl rfl rfl

theorem enterDormant_entered (c : Cfg) (cause : Nat) (d : Dyn) : Entered .dormant cause d (enterDormant c cause d) := by
  have h0 : GKeeps d (cellsStop (trcLeaveRun (sendHolds c (if d.glb.st = .run then heldOutputs d else d)))) :=
    (GKeeps.ite _ (heldOutputs_g d) GKeeps.rfl).trans ((sendHolds_g _ _).trans ((trcLeaveRun_g _).trans (cellsStop_g _)))
  unfold enterDormant
  generalize cellsStop (trcLeaveRun (sendHolds c (if d.glb.st = .run then heldOutputs d else d))) = e0 at *
  extract_lets d0 d1 _ _ _ _ _ _ d2 cols _ p
  obtain ⟨a, h⟩ := toState_spec e0 .dormant cause
  have e1 : d1.glb = { e0.glb with st := .dormant, lastCause := cause } := by simp only [d1, d0, h]
  have e2 : d1.tim = e0.tim := by simp only [d1, d0, h]
  clear_value p cols
  have g : d2.glb = { d1.glb with runReq := none, runCommit := false, safeReq := none, dormReq := false, haltCause := none } := rfl
  have t : d2.tim = { d1.tim with incS := incS c d1 } := rfl
  clear_value d2
  obtain ⟨_, _, _, _, hq, _⟩ := wakeLevels_spec c { d2 with pwr := p, cols := cols }
  rw [hq]
  unfold Entered
  dsimp only
  rw [g, t, e1, e2]
  exact ⟨rfl, rfl, h0.role, h0.2.1, h0.2.2.1, h0.2.2.2.1, rfl, rfl, rfl⟩

theorem commonLine_spec (c : Cfg) (g line : Nat) (d : Dyn) : FldStep d (commonLine c g line d) ∧
    ∀ h, ((commonLine c g line d).grp h).line = if h = g then line % 4 else (d.grp h).line := by
  set d1 := d.setGrp g { d.grp g with line := line % 4 } with hd1
  obtain ⟨d2, e, G, F⟩ : ∃ d2, commonLine c g line d = reapplyG c g d2 ∧ (∀ m, d2.grp m = d1.grp m) ∧ FldStep d1 d2 := by
    unfold commonLine reapplyG
    by_cases h4 : g < 4
    · simp only [h4, if_true]
      unfold commonLineDio
      refine ⟨_, rfl, ?_, ?_⟩
      · intro m; split; exact (phase3_loop _ _).1 m; rfl
      · split; exact (phase3_loop _ _).2; rfl
    · simp only [h4, if_false]
      exact ⟨d1, rfl, fun _ => rfl, rfl⟩
  refine ⟨?_, fun h => ?_⟩
  · rw [e]; exact FldStep.trans (e := d1) rfl (F.trans (reapplyG_fld _ _ _))
  · rw [e, reapplyG_grp]
    by_cases hh : h = g
    · subst hh; split <;> simp [G, hd1]
    · simp [G, hd1, hh]

theorem fenceLines_fld (c : Cfg) (d : Dyn) : FldStep d (fenceLines c d) := by
  unfold fenceLines
  split
  · rfl
  · exact forEach_keeps (FldStep d) _ _ _ (fun g s hs => hs.trans (commonLine_spec c g _ s).1) rfl

/-! The start of an accepted configuration. -/

theorem canBegin_g (c : Cfg) (p : Nat) (d : Dyn) : GKeeps d (canBegin c p d) := by
  unfold canBegin
  dsimp only
  repeat' split
  all_goals exact GKeeps.of rfl rfl rfl

theorem mbxRequest_g (c : Cfg) (p m : Nat) (d : Dyn) : GKeeps d (mbxRequest c p m d) := by
  unfold mbxRequest
  extract_lets x b onWire b'
  split
  · exact GKeeps.of rfl rfl rfl
  · exact GKeeps.trans (b := d.setPort p _) (GKeeps.of rfl rfl rfl) (canBegin_g _ _ _)

theorem txreqBit_g (p m : Nat) (s : State) : GKeeps s.d (txreqBit p m s).d := by
  unfold txreqBit
  split
  · exact GKeeps.of rfl rfl rfl
  · split
    · exact GKeeps.of rfl rfl rfl
    · exact mbxRequest_g _ _ _ _

theorem txreqWrite_g (p : Nat) (v : Word) (s : State) : GKeeps s.d (txreqWrite p v s).d := by
  unfold txreqWrite
  split
  · exact GKeeps.of rfl rfl rfl
  · exact forEach_keeps (fun t : State => GKeeps s.d t.d) _ s (txreqBit p) (fun n _ h => h.trans (txreqBit_g p n _)) GKeeps.rfl

theorem txBufferPut_g (p m dlc : Nat) (data : List Byte) (s : State) : GKeeps s.d (txBufferPut p m dlc data s).d := by
  unfold txBufferPut
  split
  · exact GKeeps.of rfl rfl rfl
  · split
    · exact GKeeps.of rfl rfl rfl
    · exact GKeeps.of rfl rfl rfl

theorem bufferWord_g (p m j : Nat) (v : Word) (s : State) : GKeeps s.d (bufferWord p m j v s).d := by
  unfold bufferWord
  dsimp only
  split
  · exact txBufferPut_g _ _ _ _ _
  · split
    · exact txBufferPut_g _ _ _ _ _
    · exact GKeeps.rfl

theorem loopModeWrite_g (n : Nat) (v : Word) (s : State) : GKeeps s.d (loopModeWrite n v s).d := by
  unfold loopModeWrite
  split
  · exact GKeeps.rfl
  · dsimp only
    split
    · exact GKeeps.of rfl rfl rfl
    · exact GKeeps.of rfl rfl rfl

theorem goutWrite_g (c : Cfg) (u : Nat → Bool) (on : Bool) (g : Nat) (v : Word) (d : Dyn) : GKeeps d (goutWrite c u on g v d) :=
  GKeeps.each _ _ (fun _ _ => GKeeps.ite _ (GKeeps.of rfl rfl rfl) (GKeeps.of rfl rfl rfl))

theorem kappaWrite_g (c : Cfg) (n : Nat) (v : Word) (d : Dyn) : GKeeps d (kappaWrite c n v d) :=
  GKeeps.ite _ GKeeps.rfl (GKeeps.ite _ (GKeeps.of rfl rfl rfl) (GKeeps.of rfl rfl rfl))

theorem liveWrite_g (a : Nat) (v : Word) (s : State) (r : State × Nat) (h : liveWrite a v s = some r) : GKeeps s.d r.1.d := by
  unfold liveWrite at h
  extract_lets c put at h
  have hput : ∀ g q, (∀ d, GKeeps d (g d)) → put g = some q → GKeeps s.d q.1.d := fun g q k e => by cases e; exact k s.d
  repeat' split at h
  all_goals first
    | exact hput _ _ (fun _ => GKeeps.of rfl rfl rfl) h
    | exact hput _ _ (fun _ => goutWrite_g _ _ _ _ _ _) h
    | (cases h; exact txreqWrite_g _ _ _)
    | (cases h; exact loopModeWrite_g _ _ _)
    | (cases h; exact bufferWord_g _ _ _ _ _)
    | (cases h; exact kappaWrite_g _ _ _ _)
    | (cases h; exact GKeeps.of rfl rfl rfl)
    | (cases h; exact GKeeps.pw rfl rfl ⟨_, _, _, _, rfl⟩)
    | cases h

theorem livePresets_g (s : State) : GKeeps s.d (livePresets s).d := by
  unfold livePresets
  generalize s.c.img.presets = l
  induction l generalizing s with
  | nil => exact GKeeps.rfl
  | cons x l ih =>
    refine GKeeps.trans ?_ (ih _)
    dsimp only
    rcases h : liveWrite x.1 x.2 s with _ | r
    · exact GKeeps.rfl
    · exact liveWrite_g _ _ _ _ h

theorem deliverTo_g (c : Cfg) (isDio : Bool) (idx : Nat) (raw valid : Bool) (dataOf : Nat → Nat) (n : Nat) (d : Dyn) :
    GKeeps d (deliverTo c isDio idx raw valid dataOf n d) := (deliverTo_step _ _ _ _ _ _ _ _).g

theorem termStart_g (c : Cfg) (n : Nat) (d : Dyn) : GKeeps d (termStart c n d) := by
  unfold termStart
  extract_lets d0
  have h0 : GKeeps d d0 := GKeeps.ite _ (GKeeps.trans (b := d.setTerm n _) (GKeeps.of rfl rfl rfl) (clears_g _ _ _)) GKeeps.rfl
  clear_value d0
  refine GKeeps.ite _ (h0.trans (GKeeps.of rfl rfl rfl)) (h0.trans (GKeeps.trans (b := d0.setTerm n _) (GKeeps.of rfl rfl rfl) (GKeeps.each _ _ (fun i t => ?_))))
  dsimp only
  exact GKeeps.ite _ (GKeeps.ite _ (deliverTo_g _ _ _ _ _ _ _ _) GKeeps.rfl) (GKeeps.ite _ (deliverTo_g _ _ _ _ _ _ _ _) GKeeps.rfl)

theorem cellStart_g (c : Cfg) (n : Nat) (d : Dyn) : GKeeps d (cellStart c n d) := by
  have h : ∀ st (e : Dyn), GKeeps e (cellUncal c st n e) := fun st e =>
    GKeeps.ite _ (setCell_g _ _ _) ((setCell_g _ _ _).trans (fault_g _ _ _ _ _ _ _ _ _))
  exact (setCell_g d n _).trans (h _ _)

theorem measureStart_g (c : Cfg) (d : Dyn) : GKeeps d (measureStart c d) := by
  unfold measureStart
  dsimp only
  exact (GKeeps.each _ _ (fun _ _ => chanStart_g _ _ _ _)).trans (GKeeps.each _ _ (fun n e => (setCell_g e n _).trans (cellStart_g c n _)))

theorem bankFigures_g (c : Cfg) (b : Nat) (d : Dyn) : GKeeps d (bankFigures c b d) := by
  unfold bankFigures
  dsimp only
  exact (setBank_g _ _ _).trans (GKeeps.each _ _ (fun k t => setDesc_g t k _))

theorem bankLists_g (c : Cfg) (b : Nat) (now : Bool) (d : Dyn) : GKeeps d (bankLists c b now d) :=
  (bankFigures_g c b d).trans (setBank_g _ _ _)

theorem groupStart_fld (g : Nat) (d : Dyn) : FldStep d (groupStart g d) := by
  unfold groupStart
  dsimp only
  have h : FldStep d (grpStart g d) := by
    unfold grpStart
    extract_lets x src d1
    have h1 : FldStep d d1 := rfl
    split
    · exact h1.trans (forEach_keeps (FldStep d1) _ _ _ (fun _ _ k => k.trans rfl) rfl)
    · exact h1
  split
  · exact h
  · exact h.trans (forEach_keeps (FldStep (grpStart g d)) _ _ _ (fun _ _ k => k.trans rfl) rfl)

theorem canStart_g (c : Cfg) (d : Dyn) : GKeeps d (canStart c d) := by
  unfold canStart
  extract_lets d1
  have h1 : GKeeps d d1 := GKeeps.each _ _ (fun _ _ => GKeeps.ite _ (GKeeps.of rfl rfl rfl) GKeeps.rfl)
  exact h1.trans (GKeeps.each _ _ (fun _ _ => GKeeps.ite _ (GKeeps.of rfl rfl rfl) GKeeps.rfl))

theorem setAct_g (a : Nat) (x : Act) (d : Dyn) : GKeeps d (d.setAct a x) := ⟨⟨_, rfl⟩, rfl, rfl, rfl, ⟨_, _, _, _, rfl⟩⟩

theorem armAction_g (c : Cfg) (host : Bool) (a : Nat) (d : Dyn) : GKeeps d (armAction c host a d).1 := by
  unfold armAction
  dsimp only
  repeat' split
  all_goals exact setAct_g _ _ _

theorem armAll_g (c : Cfg) (d : Dyn) : GKeeps d (armAll c d) := by
  unfold armAll
  refine GKeeps.each _ _ (fun a t => ?_)
  split
  · exact armAction_g c false a t
  · exact setAct_g _ _ _

theorem figures_g (c : Cfg) (d : Dyn) : GKeeps d (figures c d) := by
  unfold figures
  generalize c.worstLoad = w
  generalize c.passCost = p
  exact GKeeps.of rfl rfl rfl

theorem configure_g (s : State) : GKeeps s.d (configure s).d := by
  unfold configure
  extract_lets c d1 d2 d3 src d4
  have h1 : GKeeps s.d d1 := GKeeps.each _ _ (fun g t => (groupStart_fld g t).g)
  have h2 : GKeeps d1 d2 := (measureStart_g c d1).trans (GKeeps.each _ _ (fun n t => termStart_g c n t))
  have h3 : GKeeps d2 d3 := GKeeps.each _ _ (fun b t => bankLists_g c b true t)
  have h4 : GKeeps s.d d4 := h1.trans (h2.trans (h3.trans (GKeeps.pw rfl rfl ⟨_, _, _, _, rfl⟩)))
  clear_value d4
  have h5 := h4.trans (figures_g c d4)
  generalize figures c d4 = e4 at h5
  have h6 := h5.trans (armAll_g c e4)
  generalize armAll c e4 = d5 at h6
  have h7 := h6.trans (canStart_g c d5)
  generalize canStart c d5 = d6 at h7
  have h8 := h7.trans (fenceLines_fld c d6).g
  generalize fenceLines c d6 = d7 at h8
  exact GKeeps.trans h8 (livePresets_g { s with d := d7 })

end Sys2Proof.Machine
end

