-- ==== Sys2Proof/Laws/Analog.lean ====
section
/-! SUPPORT. What evaluating switches and making channels invalid changes: the channels, the switches, the guard terms and the books of the
fault manager, nothing else. -/

namespace Sys2Proof.Machine

open Sys2Proof

/-- What evaluating switches changes: the switches, the guard terms and the fault manager's books. -/
def SwStep (d e : Dyn) : Prop := Alike { e with grd := d.grd, cnv := { e.cnv with sws := d.cnv.sws } } d

theorem SwStep.refl (d : Dyn) : SwStep d d := rfl
theorem SwStep.trans {d e g : Dyn} (h1 : SwStep d e) (h2 : SwStep e g) : SwStep d g := by
  unfold SwStep Alike at *
  have h := congrArg (fun x : Dyn => ({ x with grd := d.grd, cnv := { x.cnv with sws := d.cnv.sws } } : Dyn)) h2
  exact h.trans h1
theorem GrdStep.sw {d e : Dyn} (h : GrdStep d e) : SwStep d e :=
  congrArg (fun x : Dyn => ({ x with cnv := { x.cnv with sws := d.cnv.sws } } : Dyn)) h
theorem SwStep.put (d : Dyn) (k : Nat) (x : Sw) : SwStep d (d.setSw k x) := rfl
theorem SwStep.silent {d e : Dyn} (h : SwStep d e) : ({ e with grd := d.grd, cnv := { e.cnv with sws := d.cnv.sws } } : Dyn).silent = d.silent := h
theorem SwStep.chan {d e : Dyn} (h : SwStep d e) (k : Nat) : e.chan k = d.chan k := by
  have g := (Alike.blocks h.silent).2.2.2.2.1
  have : e.cnv.chans = d.cnv.chans := by rw [← g]
  unfold Dyn.chan
  rw [this]

theorem event_find (d : Dyn) (src code sev a b m : Nat) : (d.event src code sev a b).flt.find m = d.flt.find m := by
  unfold Dyn.event Dyn.eventAt
  dsimp only
  repeat' split
  all_goals rfl

theorem evalSwitch_step (c : Cfg) (k : Nat) (level : Nat → Nat) (w : Nat) (d : Dyn) : SwStep d (evalSwitch c k level w d) ∧
    ∀ m, m < 0xD000 → (evalSwitch c k level w d).flt.find m = d.flt.find m := by
  unfold evalSwitch
  split
  · exact ⟨SwStep.refl d, fun _ _ => rfl⟩
  · generalize c.swCfg w = q
    obtain ⟨a1, a2, a3, a4, a5, a6⟩ := q
    dsimp -zeta only
    extract_lets w0 bad w' d1 d2
    clear_value w'
    have h1 : SwStep d d1 ∧ ∀ m, d1.flt.find m = d.flt.find m := ⟨SwStep.put d w w', fun _ => rfl⟩
    clear_value d1
    have h2 : SwStep d d2 ∧ ∀ m, d2.flt.find m = d.flt.find m := by
      simp only [d2]
      split
      · exact ⟨h1.1.trans (event_step _ _ _ _ _ _).grd.sw, fun m => (event_find _ _ _ _ _ _ m).trans (h1.2 m)⟩
      · exact h1
    clear_value d2
    split
    · exact ⟨h2.1.trans (deliverSrc_step _ _ _ _ _ _ _).sw, fun m hm => (deliverSrc_find _ _ _ _ _ _ _ m hm).trans (h2.2 m)⟩
    · exact ⟨h2.1, fun m _ => h2.2 m⟩

theorem evalSwitches_step (c : Cfg) (k : Nat) (level : Nat → Nat) (d : Dyn) : SwStep d (evalSwitches c k level d) ∧
    ∀ m, m < 0xD000 → (evalSwitches c k level d).flt.find m = d.flt.find m :=
  ⟨forEach_keeps (SwStep d) _ _ _ (fun w t h => h.trans (evalSwitch_step c k level w t).1) (SwStep.refl d),
    fun m hm => forEach_same (fun e : Dyn => e.flt.find m) _ _ _ (fun w t => (evalSwitch_step c k level w t).2 m hm)⟩

/-- What delivering a result to a channel changes: the channels, the switches, the guard terms and the fault manager's books. -/
def CnvStep (d e : Dyn) : Prop := Alike { e with grd := d.grd, cnv := d.cnv } d
theorem CnvStep.refl (d : Dyn) : CnvStep d d := rfl
theorem CnvStep.trans {d e g : Dyn} (h1 : CnvStep d e) (h2 : CnvStep e g) : CnvStep d g :=
  (congrArg (fun x : Dyn => ({ x with grd := d.grd, cnv := d.cnv } : Dyn)) h2).trans h1
theorem SwStep.cnv {d e : Dyn} (h : SwStep d e) : CnvStep d e := congrArg (fun x : Dyn => ({ x with cnv := d.cnv } : Dyn)) h
theorem FltStep.cnv {d e : Dyn} (h : FltStep d e) : CnvStep d e := h.grd.sw.cnv
theorem CnvStep.put (d : Dyn) (k : Nat) (x : Chan) : CnvStep d (d.setChan k x) := rfl

theorem invalidate_step (c : Cfg) (k cause : Nat) (level : Nat → Nat) (d : Dyn) : CnvStep d (invalidate c k cause level d) ∧
    (∀ m, (invalidate c k cause level d).chan m = if m = k then { d.chan k with state := 3, cause := cause, filt := false } else d.chan m) ∧
    ∀ m, m < 0xD000 → (causeFault cause = none ∨ m ≠ 0x5000 + k) → (invalidate c k cause level d).flt.find m = d.flt.find m := by
  unfold invalidate
  extract_lets x same d1 d2
  have h1 : CnvStep d d1 := CnvStep.put d k _
  have c1 : ∀ m, d1.chan m = if m = k then { d.chan k with state := 3, cause := cause, filt := false } else d.chan m := fun m => setChan_get _ _ _ _
  have f1 : d1.flt = d.flt := rfl
  have h2 : CnvStep d1 d2 ∧ (∀ m, d2.chan m = d1.chan m) ∧ ∀ m, m < 0xD000 → (causeFault cause = none ∨ m ≠ 0x5000 + k) → d2.flt.find m = d1.flt.find m := by
    dsimp only [d2]
    rcases causeFault cause with _ | ⟨code, sev⟩
    · exact ⟨CnvStep.refl _, fun _ => rfl, fun _ _ _ => rfl⟩
    · dsimp only
      split
      · exact ⟨CnvStep.refl _, fun _ => rfl, fun _ _ _ => rfl⟩
      · have f := fault_step d1 c (0x5000 + k) code sev 0 0 false false
        exact ⟨f.cnv, fun m => f.grd.sw.chan m, fun m hm hk => fault_find_other _ _ _ _ _ _ _ _ _ m (by simpa using hk) (by omega)⟩
  have h3 := evalSwitches_step c k level d2
  exact ⟨h1.trans (h2.1.trans h3.1.cnv), fun m => ((h3.1.chan m).trans (h2.2.1 m)).trans (c1 m),
    fun m hm hk => (h3.2 m hm).trans ((h2.2.2 m hm hk).trans (by rw [f1]))⟩

theorem forEach_invalid (c : Cfg) (cause : Nat) (lev : Dyn → Nat → Nat) (l : List Nat) (d : Dyn) (g : Nat → Dyn → Dyn) (hg : g = fun k d => invalidate c k cause (lev d) d) :
    CnvStep d (forEach l d g) ∧ (∀ m, (forEach l d g).chan m = if m ∈ l then { d.chan m with state := 3, cause := cause, filt := false } else d.chan m) ∧
    (causeFault cause = none → ∀ m, m < 0xD000 → (forEach l d g).flt.find m = d.flt.find m) := by
  have st : ∀ k t, CnvStep t (g k t) ∧ (∀ m, (g k t).chan m = if m = k then { t.chan k with state := 3, cause := cause, filt := false } else t.chan m) ∧
      (causeFault cause = none → ∀ m, m < 0xD000 → (g k t).flt.find m = t.flt.find m) := by
    intro k t
    rw [hg]
    have h := invalidate_step c k cause (lev t) t
    exact ⟨h.1, h.2.1, fun hc m hm => h.2.2 m hm (Or.inl hc)⟩
  clear hg
  refine ⟨forEach_keeps (CnvStep d) l d g (fun k t h => h.trans (st k t).1) (CnvStep.refl d), ?_,
    fun h m hm => forEach_same (fun e : Dyn => e.flt.find m) l d g (fun k t => (st k t).2.2 h m hm)⟩
  induction l generalizing d with
  | nil => exact fun _ => rfl
  | cons a r ih =>
    intro m
    refine (ih (g a d) m).trans ?_
    have h := (st a d).2.1 m
    by_cases hm : m ∈ r
    · rw [if_pos hm, if_pos (List.mem_cons_of_mem _ hm), h]
      split
      · rename_i e; rw [e]
      · rfl
    · rw [if_neg hm, h]
      by_cases e : m = a
      · rw [if_pos e, if_pos (by simp [e]), e]
      · rw [if_neg e, if_neg (by simp [e, hm])]

end Sys2Proof.Machine
end

