-- ==== Sys2Proof/Laws/Keeps.lean ====
section
/-! SUPPORT. What every command keeps: the queue, the variant with its fuses, and the canonical form of the register tables. -/

namespace Sys2Proof.Machine

open Sys2Proof

/-- A configuration after another: the same variant, and canonical register tables where they were. -/
def CKeeps (c c' : Cfg) : Prop := c'.fx = c.fx ∧ (c.reg.ok → c'.reg.ok)

/-- A state after another: the same queue, and the configuration keeps what it must. -/
def Keeps (s t : State) : Prop := t.pending = s.pending ∧ CKeeps s.c t.c

theorem CKeeps.rfl {c : Cfg} : CKeeps c c := ⟨Eq.refl _, id⟩
theorem CKeeps.trans {a b c : Cfg} (h : CKeeps a b) (g : CKeeps b c) : CKeeps a c := ⟨g.1.trans h.1, fun k => g.2 (h.2 k)⟩
theorem CKeeps.reg {c : Cfg} {r : Regs} (h : c.reg.ok → r.ok) : CKeeps c { c with reg := r } := ⟨Eq.refl _, h⟩
theorem Keeps.rfl {s : State} : Keeps s s := ⟨Eq.refl _, CKeeps.rfl⟩
theorem Keeps.dyn {s : State} (d : Dyn) : Keeps s { s with d := d } := ⟨Eq.refl _, CKeeps.rfl⟩
theorem Keeps.cfg {s : State} {c : Cfg} (d : Dyn) (h : CKeeps s.c c) : Keeps s { s with c := c, d := d } := ⟨Eq.refl _, h⟩
theorem Keeps.trans {a b c : State} (h : Keeps a b) (g : Keeps b c) : Keeps a c := ⟨g.1.trans h.1, h.2.trans g.2⟩
theorem Keeps.thenDyn {a b : State} (d : Dyn) (h : Keeps a b) : Keeps a { b with d := d } := h
theorem Keeps.thenCfg {a b : State} {c : Cfg} (d : Dyn) (h : Keeps a b) (g : CKeeps b.c c) : Keeps a { b with c := c, d := d } :=
  ⟨h.1, h.2.trans g⟩
theorem Keeps.fromDyn {a b : State} {d : Dyn} (h : Keeps { a with d := d } b) : Keeps a b := h
theorem Keeps.each (l : List Nat) (s : State) (g : Nat → State → State) (h : ∀ k t, Keeps t (g k t)) : Keeps s (forEach l s g) := by
  unfold forEach
  induction l generalizing s with
  | nil => exact Keeps.rfl
  | cons a l ih => exact (h a s).trans (ih _)
theorem Keeps.fold {α : Type} (l : List α) (s : State) (g : State → α → State) (h : ∀ k t, Keeps t (g t k)) : Keeps s (l.foldl g s) := by
  induction l generalizing s with
  | nil => exact Keeps.rfl
  | cons a l ih => exact (h a s).trans (ih _)
theorem CKeeps.each (l : List Nat) (s : Cfg) (g : Nat → Cfg → Cfg) (h : ∀ k t, CKeeps t (g k t)) : CKeeps s (forEach l s g) := by
  unfold forEach
  induction l generalizing s with
  | nil => exact CKeeps.rfl
  | cons a l ih => exact (h a s).trans (ih _)
theorem CKeeps.fold {α : Type} (l : List α) (s : Cfg) (g : Cfg → α → Cfg) (h : ∀ k t, CKeeps t (g t k)) : CKeeps s (l.foldl g s) := by
  induction l generalizing s with
  | nil => exact CKeeps.rfl
  | cons a l ih => exact (h a s).trans (ih _)
theorem regs_each (l : List Nat) (r : Regs) (g : Nat → Regs → Regs) (h : ∀ k t, t.ok → (g k t).ok) : r.ok → (forEach l r g).ok :=
  forEach_keeps (fun r : Regs => r.ok) _ _ _ h

theorem wordsOk_filter (lo : Nat) (p : Nat × Word → Bool) (t : Tbl Word) (h : wordsOk lo t = true) : wordsOk lo (t.filter p) = true := by
  induction t generalizing lo with
  | nil => rfl
  | cons x r ih =>
    obtain ⟨j, u⟩ := x
    simp only [wordsOk, Bool.and_eq_true, decide_eq_true_eq] at h
    have i := ih (j + 1) h.2
    rw [List.filter_cons]
    split
    · simp [wordsOk, h.1.1, h.1.2, i]
    · exact wordsOk_weaken _ _ _ (by omega) i

/-! The configuration: images and Sage's placements. -/

theorem puts_ok (l : List (Nat × Word)) (r : Regs) (h : r.ok) : (r.puts l).ok := by
  unfold Regs.puts
  induction l generalizing r with
  | nil => exact h
  | cons a l ih => exact ih _ (putB_ok _ _ h)

theorem presetPut_keeps (c : Cfg) (x : Nat × Word) : CKeeps c (presetPut c x) := by
  unfold presetPut
  dsimp only
  split
  · exact CKeeps.reg (putB_ok _ _)
  · exact CKeeps.rfl

theorem loopDefaults_ok (c : Cfg) (r : Regs) (h : r.ok) : (loopDefaults c r).ok := by
  refine regs_each _ _ _ (fun n r h => ?_) h
  dsimp only
  split
  · exact h
  · exact puts_ok _ _ h

theorem loadImage_keeps (c : Cfg) (i : Image) : CKeeps c (loadImage c i) := by
  refine ⟨rfl, fun h => ?_⟩
  unfold loadImage
  dsimp only
  have h0 : ({ w := c.reg.w.filter (fun x => keptReg c.fx x.1), f := c.reg.f.filter (fun x => keptReg c.fx x.1), fresh := [] } : Regs).ok :=
    ⟨wordsOk_filter _ _ _ h.1, wordsOk_filter _ _ _ h.2.1, rfl⟩
  have h1 : ∀ (l : List Sect) (r : Regs), r.ok → (l.foldl (fun r x => r.puts (sectLoads c.fx x i.bytes)) r).ok := by
    intro l
    induction l with
    | nil => exact fun _ h => h
    | cons a l ih => exact fun r h => ih _ (puts_ok _ _ h)
  have h2 : (if i.sects.any (fun x => x.typ == 0xF00) then ({ w := c.reg.w.filter (fun x => keptReg c.fx x.1), f := c.reg.f.filter (fun x => keptReg c.fx x.1), fresh := [] } : Regs)
      else ({ w := c.reg.w.filter (fun x => keptReg c.fx x.1), f := c.reg.f.filter (fun x => keptReg c.fx x.1), fresh := [] } : Regs).puts arcDefaults).ok := by
    split
    · exact h0
    · exact puts_ok _ _ h0
  clear h0
  split
  · exact loopDefaults_ok _ _ (h1 _ _ h2)
  · exact h1 _ _ h2

theorem candidate_keeps (c : Cfg) (source : Nat) (l : List Byte) : CKeeps c (candidate c source l) :=
  (loadImage_keeps c _).trans (CKeeps.fold _ _ _ (fun x c => presetPut_keeps c x))

theorem putPhase_keeps (n ph : Nat) (c : Cfg) : CKeeps c (putPhase n ph c) := CKeeps.reg (putB_ok _ _)
theorem putPlace_keeps (k ph ofs : Nat) (c : Cfg) : CKeeps c (putPlace k ph ofs c) := CKeeps.reg (putB_ok _ _)

theorem placeLoops_keeps (c : Cfg) : CKeeps c (placeLoops c) := by
  unfold placeLoops
  split
  · exact CKeeps.rfl
  · have : ∀ (l : List Nat) (a : Cfg × List Nat),
        CKeeps a.1 (l.foldl (fun (a : Cfg × List Nat) n => (putPhase n ((placeLoop a.1 a.2 n).getD 0) a.1, a.2 ++ [n])) a).1 := by
      intro l
      induction l with
      | nil => exact fun _ => CKeeps.rfl
      | cons n l ih => exact fun a => (putPhase_keeps _ _ _).trans (ih _)
    exact this _ _

theorem placeOneLoop_keeps (n : Nat) (c : Cfg) : CKeeps c (placeOneLoop n c) := by
  unfold placeOneLoop
  split
  · exact CKeeps.rfl
  · exact putPhase_keeps _ _ _

theorem placeAll_keeps (c : Cfg) : CKeeps c (placeAll c) := by
  unfold placeAll
  split
  · exact CKeeps.rfl
  · refine CKeeps.each _ _ _ (fun b c => ?_)
    have : ∀ (l : List Nat) (a : Cfg × List (Int × Nat × Nat)), CKeeps a.1 (l.foldl (fun (a : Cfg × List (Int × Nat × Nat)) k =>
        let q := (placeGuard a.1 k a.2).getD (0, 0)
        let c' := putPlace k q.1 q.2 a.1
        (c', a.2 ++ [(c'.slotStart k, c'.slotLen k, c'.descGPer k * 128000)])) a).1 := by
      intro l
      induction l with
      | nil => exact fun _ => CKeeps.rfl
      | cons n l ih => exact fun a => (putPlace_keeps _ _ _ _).trans (ih _)
    exact this _ _

theorem placeOne_keeps (k : Nat) (c : Cfg) : CKeeps c (placeOne k c) := by
  unfold placeOne
  split
  · exact CKeeps.rfl
  · exact putPlace_keeps _ _ _ _

theorem sageWhole_keeps (c : Cfg) : CKeeps c (sageWhole c).2 := by
  unfold sageWhole
  split
  · exact CKeeps.rfl
  · split
    · exact CKeeps.rfl
    · exact (placeAll_keeps c).trans (placeLoops_keeps _)

theorem checkImage_keeps (c : Cfg) (d : Dyn) (source : Nat) (l : List Byte) : CKeeps c (checkImage c d source l).2 := by
  unfold checkImage
  split
  · exact CKeeps.rfl
  · dsimp only
    have h := (candidate_keeps c source l).trans (sageWhole_keeps (candidate c source l))
    generalize sageWhole (candidate c source l) = q at h
    obtain ⟨_ | x, c2⟩ := q
    · exact h
    · exact h

theorem commitCheck_keeps (c : Cfg) (d : Dyn) (k : Commit) : CKeeps c (commitCheck c d k).2 := by
  unfold commitCheck
  split
  · exact CKeeps.rfl
  · split
    · exact CKeeps.rfl
    · have h := checkImage_keeps c d 3 k.bytes
      generalize checkImage c d 3 k.bytes = q at h
      obtain ⟨_ | x, c2⟩ := q
      · exact h
      · exact h

theorem cfgReset_keeps (c : Cfg) : CKeeps c (cfgReset c) := ⟨rfl, fun _ => putB_ok _ _ Regs.none_ok⟩
theorem applyOver_keeps (c c' : Cfg) (h : CKeeps c c') : CKeeps c (applyOver c c') :=
  ⟨h.1, fun k => loadIf_ok _ ⟨(h.2 k).1, k.2.1, rfl⟩⟩
theorem seqLoad_keeps (c : Cfg) : CKeeps c (seqLoad c) := CKeeps.reg (loadIf_ok _)
theorem mbxLoad_keeps (p m : Nat) (c : Cfg) : CKeeps c (mbxLoad p m c) := CKeeps.reg (load_ok _ _)
theorem colLoad_keeps (n : Nat) (c : Cfg) : CKeeps c (colLoad n c) := by
  refine CKeeps.reg (fun h => ?_)
  refine regs_each _ _ _ (fun z r h => ?_) (load_ok _ _ (load_ok _ _ h))
  split
  · exact load_ok _ _ h
  · exact h

/-! The operations that write registers, bottom up. -/

theorem txreqBit_keeps (p m : Nat) (s : State) : Keeps s (txreqBit p m s) := by
  unfold txreqBit
  split
  · exact Keeps.dyn _
  · split
    · exact Keeps.dyn _
    · exact Keeps.cfg _ (mbxLoad_keeps _ _ _)

theorem txreqWrite_keeps (p : Nat) (v : Word) (s : State) : Keeps s (txreqWrite p v s) := by
  unfold txreqWrite
  split
  · exact Keeps.dyn _
  · exact Keeps.each _ _ _ (txreqBit_keeps p)

theorem txBufferPut_keeps (p m dlc : Nat) (data : List Byte) (s : State) : Keeps s (txBufferPut p m dlc data s) := by
  unfold txBufferPut
  split
  · exact Keeps.dyn _
  · split
    · exact Keeps.cfg _ (mbxLoad_keeps _ _ _)
    · exact Keeps.dyn _

theorem launchDue_keeps (p e : Nat) (s : State) : Keeps s (launchDue p e s) := by
  unfold launchDue
  dsimp only
  split
  · split
    · exact Keeps.cfg _ (mbxLoad_keeps _ _ _)
    · exact Keeps.rfl
  · exact Keeps.rfl

theorem mapLoadMb_keeps (p m k : Nat) (s : State) : Keeps s (mapLoadMb p m k s) := Keeps.cfg _ (mbxLoad_keeps _ _ _)

theorem mapSend_keeps (c : Cfg) (k : Nat) (alt : Bool) (s : State) : Keeps s (mapSend c k alt s) := by
  unfold mapSend
  dsimp only
  split
  · exact mapLoadMb_keeps _ _ _ _
  · split
    · exact (mapLoadMb_keeps _ _ _ _).trans (mapLoadMb_keeps _ _ _ _)
    · exact mapLoadMb_keeps _ _ _ _

theorem mapLoad_keeps (k : Nat) (s : State) : Keeps s (mapLoad k s) := by
  unfold mapLoad
  split
  · exact Keeps.trans (Keeps.cfg _ (CKeeps.reg (load_ok _ _))) (mapSend_keeps _ _ _ _)
  · exact Keeps.rfl

theorem colBegin_keeps (n : Nat) (mk : Cfg → Nat → Int → Option Qual → ColIn) (s : State) : Keeps s (colBegin n mk s) := Keeps.cfg _ (colLoad_keeps _ _)

theorem columnStep_keeps (n : Nat) (mk : Cfg → Nat → Int → Option Qual → ColIn) (s : State) : Keeps s (columnStep n mk s) := by
  unfold columnStep
  dsimp only
  split
  · exact colBegin_keeps _ _ _
  · split
    · exact Keeps.fromDyn (colBegin_keeps _ _ _)
    · exact Keeps.dyn _

theorem dioLoad_keeps (g : Nat) (s : State) : Keeps s (dioLoad g s) :=
  Keeps.cfg _ (CKeeps.reg (fun h => regs_each _ _ _ (fun _ _ h => load_ok _ _ h) (load_ok _ _ h)))

theorem forwardDio_keeps (g : Nat) (s : State) : Keeps s (forwardDio g s) := by
  unfold forwardDio
  split
  · extract_lets t c d1 x x1
    exact Keeps.thenDyn _ (dioLoad_keeps g s)
  · exact Keeps.rfl

theorem loopStart_keeps (n : Nat) (s : State) : Keeps s (loopStart n s) := by
  unfold loopStart
  split
  · exact Keeps.rfl
  · extract_lets r0 c0 im mode r1 x
    exact Keeps.cfg _ (CKeeps.reg (fun h => putB_ok _ _ (putB_ok _ _ (putB_ok _ _ (load_ok _ _ h)))))

theorem ite_ok (p : Prop) [Decidable p] (r q : Regs) (h : r.ok) (g : q.ok) : (if p then r else q).ok := by
  split
  · exact h
  · exact g

theorem loopStore_ok (n : Nat) (sp : Option Int) (man : Option (Word × Bool)) (r : Regs) (h : r.ok) : (loopStore n sp man r).ok := by
  have h1 : (match sp with
      | some v => if tget false r.fresh (loopA n + 0xA4) then r.putF (loopA n + 0xA4) (wordOf v) else r.putB (loopA n + 0xA4) (wordOf v)
      | none => r).ok := by
    split
    · exact ite_ok _ _ _ (putF_ok _ _ h) (putB_ok _ _ h)
    · exact h
  unfold loopStore
  dsimp only
  split
  · exact putB_ok _ _ h1
  · exact putF_ok _ _ h1
  · exact h1

theorem loopSample_ok (z : Dyn) (n : Nat) (s : State) (h : s.c.reg.ok) : (loopSample z n s).c.reg.ok := by
  unfold loopSample
  extract_lets g1 c
  have hc : c.reg.ok := (CKeeps.reg (fun h => load_ok (loopA n) 43 h) : CKeeps s.c c).2 h
  clear_value c
  exact loopStore_ok n _ _ _ hc

theorem loopSample_keeps (z : Dyn) (n : Nat) (s : State) : Keeps s (loopSample z n s) := ⟨rfl, rfl, loopSample_ok z n s⟩

theorem loopModeWrite_keeps (n : Nat) (v : Word) (s : State) : Keeps s (loopModeWrite n v s) := by
  unfold loopModeWrite
  split
  · exact Keeps.rfl
  · dsimp only
    split
    · exact Keeps.dyn _
    · refine Keeps.cfg _ (CKeeps.reg (fun h => ?_))
      split
      · exact shadow_ok _ _ h
      · exact putB_ok _ _ h

theorem sweepStart_keeps (st n : Nat) (s : State) : Keeps s (sweepStart st n s) := by
  unfold sweepStart
  extract_lets x r0 u src c1 v c2 keep cal x1 d1 uncal d2
  have h1 : CKeeps s.c c1 := CKeeps.reg (fun h => by
    split
    · exact load_ok _ _ (load_ok _ _ h)
    · exact load_ok _ _ h)
  refine Keeps.cfg _ (h1.trans ?_)
  show CKeeps c1 (if _ then _ else _)
  split
  · exact CKeeps.reg (putB_ok _ _)
  · exact CKeeps.rfl

theorem calDone_keeps (st n : Nat) (k : CalRun) (s : State) : Keeps s (calDone st n k s) := by
  unfold calDone
  extract_lets kk col pair j entries r1 v r2 t r3 c' x d1 d2
  refine Keeps.cfg _ (CKeeps.reg (fun h => ?_))
  exact putB_ok _ _ (putB_ok _ _ (putB_ok _ _ (regs_each _ _ _ (fun _ _ h => putB_ok _ _ (putB_ok _ _ h)) h)))

theorem sweepComplete_keeps (st n : Nat) (m : SweepMeas) (s : State) : Keeps s (sweepComplete st n m s) := by
  unfold sweepComplete
  dsimp only
  split
  · exact Keeps.rfl
  · split
    · exact Keeps.dyn _
    · split
      · split
        · exact Keeps.fromDyn (calDone_keeps _ _ _ _)
        · exact Keeps.dyn _
      · split
        · exact Keeps.dyn _
        · exact Keeps.dyn _

theorem loadDesc_keeps (k : Nat) (s : State) : Keeps s (loadDesc k s) := by
  unfold loadDesc
  dsimp only
  split
  · exact Keeps.cfg _ (CKeeps.reg (load_ok _ _))
  · exact ⟨rfl, CKeeps.reg (load_ok _ _)⟩

theorem loadChan_keeps (k : Nat) (s : State) : Keeps s (loadChan k s) := by
  unfold loadChan
  extract_lets r1 r2 u r3
  refine ⟨rfl, CKeeps.reg (fun h => ?_)⟩
  have h2 : r2.ok := regs_each _ _ _ (fun i r h => by
    split
    · exact load_ok _ _ h
    · exact h) (load_ok _ _ h)
  show (if _ then _ else _ : Regs).ok
  split
  · exact load_ok _ _ h2
  · exact h2

theorem beginVisit_keeps (k : Nat) (guard : Bool) (s : State) : Keeps s (beginVisit k guard s) := Keeps.thenDyn _ (loadDesc_keeps k s)

theorem visitStart_keeps (b : Nat) (s : State) : Keeps s (visitStart b s) := by
  unfold visitStart
  extract_lets d s0 x
  split
  · exact Keeps.dyn _
  · split
    · exact Keeps.dyn _
    · extract_lets k now s1 d1 w s2 s3
      split
      · split
        · exact Keeps.thenDyn _ (Keeps.fromDyn (beginVisit_keeps k false s0))
        · exact Keeps.dyn _
      · exact Keeps.thenDyn _ (Keeps.fromDyn (beginVisit_keeps k false s0))

theorem guardSlotStart_keeps (k : Nat) (s : State) : Keeps s (guardSlotStart k s) := by
  unfold guardSlotStart
  split
  · exact beginVisit_keeps _ _ _
  · exact Keeps.rfl

theorem deliverVisit_keeps (k : Nat) (raw : Int) (cause : Nat) (unsettled : Bool) (level : Nat → Nat) (s : State) :
    Keeps s (deliverVisit k raw cause unsettled level s) := by
  unfold deliverVisit
  split
  · exact Keeps.dyn _
  · exact Keeps.thenDyn _ (loadChan_keeps k s)

theorem endVisit_keeps (k : Nat) (v : Visit) (m : VisitMeas) (mirror : Option MirrorVisit) (level : Nat → Nat) (s : State) :
    Keeps s (endVisit k v m mirror level s) := by
  unfold endVisit
  dsimp only
  split
  · exact Keeps.fromDyn (deliverVisit_keeps _ _ _ _ _ _)
  · exact Keeps.dyn _
  · split
    · exact Keeps.dyn _
    · exact Keeps.fromDyn (deliverVisit_keeps _ _ _ _ _ _)

theorem visitEnd_keeps (b : Nat) (m : VisitMeas) (mirror : Option MirrorVisit) (level : Nat → Nat) (s : State) : Keeps s (visitEnd b m mirror level s) := by
  unfold visitEnd
  split
  · exact Keeps.rfl
  · exact (endVisit_keeps _ _ _ _ _ _).trans (visitStart_keeps _ _)

theorem selftestEnd_keeps (b : Nat) (code1 code2 : Int) (level : Nat → Nat) (s : State) : Keeps s (selftestEnd b code1 code2 level s) := Keeps.fromDyn (visitStart_keeps _ _)

theorem slewStopCmd_keeps (s : State) : Keeps s (slewStopCmd s) := by
  unfold slewStopCmd
  split
  · exact Keeps.dyn _
  · exact Keeps.cfg _ (CKeeps.reg (putB_ok _ _))

theorem toBoot_keeps (old : DevState) (s : State) : Keeps s (toBoot old s) := Keeps.cfg _ (cfgReset_keeps s.c)

theorem holdReset_keeps (s : State) : Keeps s (holdReset s) := by
  unfold holdReset
  split
  · exact Keeps.rfl
  · exact Keeps.dyn _

theorem v33PowerUp_keeps (s : State) : Keeps s (v33PowerUp s) := by
  unfold v33PowerUp
  split
  · exact Keeps.rfl
  · dsimp only
    split
    · exact Keeps.fromDyn (toBoot_keeps _ _)
    · exact Keeps.dyn _

theorem v33Loss_keeps (s : State) : Keeps s (v33Loss s) := by
  unfold v33Loss
  split
  · exact Keeps.fromDyn (holdReset_keeps _)
  · exact Keeps.rfl

theorem rstNLow_keeps (s : State) : Keeps s (rstNLow s) := Keeps.fromDyn (holdReset_keeps _)

theorem rstNRelease_keeps (s : State) : Keeps s (rstNRelease s) := by
  unfold rstNRelease
  split
  · exact Keeps.fromDyn (toBoot_keeps _ _)
  · exact Keeps.rfl

theorem supplyOut_keeps (which : Supply) (s : State) : Keeps s (supplyOut which s) := Keeps.fromDyn (holdReset_keeps _)

theorem vaoPowerOn_keeps (s : State) : Keeps s (vaoPowerOn s) := Keeps.thenCfg _ (holdReset_keeps s) (CKeeps.reg (putB_ok _ _))

theorem glbReset_keeps (s : State) : Keeps s (glbReset s) := by
  unfold glbReset
  split
  · exact Keeps.dyn _
  · exact Keeps.fromDyn (toBoot_keeps _ _)

theorem startEngines_keeps (s : State) : Keeps s (startEngines s) := Keeps.thenDyn _ (Keeps.each _ _ _ loopStart_keeps)

theorem enterRun_keeps (cause : Nat) (s : State) : Keeps s (enterRun cause s) := by
  have key : ∀ (p : Prop) [Decidable p] (d e : Dyn), Keeps s (if p then startEngines { s with d := d } else { s with d := e }) := fun p _ d e => by
    split
    · exact Keeps.fromDyn (startEngines_keeps _)
    · exact Keeps.dyn _
  exact key _ _ _

theorem fastClocksRunning_keeps (us : Nat) (s : State) : Keeps s (fastClocksRunning us s) := by
  unfold fastClocksRunning
  split
  · extract_lets c d0 d1 d2 d3 rc d4 d5 d6
    split
    · exact Keeps.fromDyn (enterRun_keeps _ _)
    · exact Keeps.dyn _
  · exact Keeps.rfl

theorem burstExit_keeps (s t : State) (h : burstExit s = some t) : Keeps s t := by
  unfold burstExit at h
  dsimp only at h
  split at h
  · cases h; exact Keeps.dyn _
  · cases h; exact Keeps.dyn _
  · cases h; exact Keeps.fromDyn (enterRun_keeps _ _)
  · cases h

theorem scanListComplete_keeps (s : State) : Keeps s (scanListComplete s) := by
  unfold scanListComplete
  split
  · have key : ∀ s1 : State, Keeps s s1 → Keeps s ((burstExit s1).getD s1) := fun s1 h1 => by
      rcases h : burstExit s1 with _ | t
      · exact h1
      · exact h1.trans (burstExit_keeps _ _ h)
    exact key _ (Keeps.dyn _)
  · exact Keeps.rfl

theorem burstEnd_keeps (s : State) : Keeps s (burstEnd s) := by
  unfold burstEnd
  split
  · split
    · rename_i h
      exact burstExit_keeps _ _ h
    · split
      · exact Keeps.dyn _
      · exact Keeps.dyn _
  · exact Keeps.rfl

theorem takeInputs_keeps (s : State) : Keeps s (takeInputs s) :=
  Keeps.thenDyn _ (Keeps.fromDyn (Keeps.each _ _ _ visitStart_keeps))

theorem takeRole_keeps (cause : Nat) (s : State) : Keeps s (takeRole cause s) := Keeps.fromDyn (takeInputs_keeps _)

theorem takeover_keeps (s : State) : Keeps s (takeover s) := by
  unfold takeover
  split
  · exact takeRole_keeps _ _
  · exact Keeps.rfl

theorem wakeGraceTimeout_keeps (s : State) : Keeps s (wakeGraceTimeout s) := by
  unfold wakeGraceTimeout
  split
  · split
    · extract_lets s1
      split
      · exact Keeps.dyn _
      · split
        · exact Keeps.fromDyn (takeRole_keeps _ _)
        · exact Keeps.dyn _
    · exact Keeps.rfl
  · exact Keeps.rfl

theorem handover_keeps (s : State) : Keeps s (handover s) := by
  unfold handover
  split
  · split
    · dsimp only
      split
      · exact Keeps.dyn _
      · split
        · exact Keeps.dyn _
        · split
          · split
            · exact takeRole_keeps _ _
            · exact Keeps.fromDyn (takeInputs_keeps _)
          · exact Keeps.rfl
    · exact Keeps.rfl
  · exact Keeps.rfl

theorem pairBoundary_keeps (s : State) : Keeps s (pairBoundary s) := by
  unfold pairBoundary
  extract_lets c p d0 active sync pk dn d1 d2
  split
  · exact Keeps.rfl
  · split
    · exact Keeps.dyn _
    · split
      · exact Keeps.fromDyn ((startEngines_keeps _).trans (takeInputs_keeps _))
      · exact Keeps.dyn _

/-! Register writes. -/

theorem keepArg_keeps (a : Nat) (v : Word) (s : State) : Keeps s (keepArg a v s) := by
  unfold keepArg
  split
  · exact Keeps.rfl
  · exact ⟨rfl, CKeeps.reg (putB_ok _ _)⟩

theorem Keeps.ite {s a b : State} (p : Prop) [Decidable p] (h : Keeps s a) (g : Keeps s b) : Keeps s (if p then a else b) := by
  split
  · exact h
  · exact g

theorem commandRun_keeps (a k : Nat) (v : Word) (s : State) : Keeps s (commandRun a k v s) := by
  unfold commandRun
  extract_lets c on
  have hon : ∀ g, Keeps s (on g) := fun g => Keeps.dyn _
  clear_value on
  repeat' (first | exact hon _ | exact glbReset_keeps s | exact slewStopCmd_keeps s | apply Keeps.ite | split)

theorem commandWrite_keeps (a : Nat) (v : Word) (s : State) : Keeps s (commandWrite a v s) := by
  unfold commandWrite
  split
  · exact Keeps.dyn _
  · split
    · exact Keeps.dyn _
    · dsimp only
      split
      · exact (commandRun_keeps _ _ _ _).trans (keepArg_keeps _ _ _)
      · exact Keeps.dyn _

theorem bufferWord_keeps (p m j : Nat) (v : Word) (s : State) : Keeps s (bufferWord p m j v s) := by
  unfold bufferWord
  dsimp only
  split
  · exact txBufferPut_keeps _ _ _ _ _
  · split
    · exact txBufferPut_keeps _ _ _ _ _
    · exact Keeps.rfl

theorem liveWrite_keeps (a : Nat) (v : Word) (s : State) (r : State × Nat) (h : liveWrite a v s = some r) : Keeps s r.1 := by
  unfold liveWrite at h
  extract_lets c put at h
  have hput : ∀ g q, put g = some q → Keeps s q.1 := fun g q e => by cases e; exact Keeps.dyn _
  repeat' split at h
  all_goals first
    | exact hput _ _ h
    | (cases h; exact txreqWrite_keeps _ _ _)
    | (cases h; exact loopModeWrite_keeps _ _ _)
    | (cases h; exact bufferWord_keeps _ _ _ _ _)
    | (cases h; exact Keeps.dyn _)
    | cases h

theorem storeWord_keeps (c : Cfg) (a : Nat) (f : Fields) (on : Bool) (v : Word) : CKeeps c (storeWord c a f on v) := by
  unfold storeWord
  extract_lets now sh r r1
  refine CKeeps.reg (fun h => ?_)
  have h1 : r1.ok := putF_ok _ _ (putW_ok _ _ h)
  have h2 : ({ r1 with fresh := tput false r1.fresh a true } : Regs).ok := ⟨h1.1, h1.2.1, twf_tput false a true _ h1.2.2⟩
  exact ite_ok _ _ _ h2 h1

theorem actionEnable_keeps (a : Nat) (s : State) : Keeps s (actionEnable a s).1 := by
  unfold actionEnable
  extract_lets cand code
  split
  · exact Keeps.cfg _ (CKeeps.reg (putB_ok _ _))
  · exact Keeps.dyn _

theorem armOne_keeps (a : Nat) (s : State) : Keeps s (armOne a s) := by
  unfold armOne
  dsimp only
  split
  · exact Keeps.dyn _
  · exact Keeps.cfg _ (CKeeps.reg (putB_ok _ _))

theorem armWaiting_keeps (s : State) : Keeps s (armWaiting s) := Keeps.fromDyn (Keeps.each _ _ _ armOne_keeps)
theorem actionDisable_keeps (a : Nat) (s : State) : Keeps s (actionDisable a s) := Keeps.cfg _ (CKeeps.reg (putB_ok _ _))

theorem enableWrite_keeps (x : Area) (i a : Nat) (on : Bool) (s : State) : Keeps s (enableWrite x i a on s).1 := by
  unfold enableWrite
  split
  · exact Keeps.dyn _
  · split
    · split
      · exact actionEnable_keeps _ _
      · exact actionDisable_keeps _ _
    · extract_lets e code
      split
      · exact Keeps.dyn _
      · exact Keeps.dyn _

theorem fieldWrite_keeps (src : Nat) (x : Area) (i : Nat) (f : Fields) (a : Nat) (v : Word) (s : State) : Keeps s (fieldWrite src x i f a v s).1 := by
  unfold fieldWrite
  extract_lets c old aw en0 hasEn base ask level v1 lock v2 denied d1 on vc code v3 c1 d2 d3 s1 want r
  have h1 : Keeps s s1 := Keeps.cfg _ (storeWord_keeps _ _ _ _ _)
  split
  · exact Keeps.dyn _
  · split
    · exact h1.trans (enableWrite_keeps _ _ _ _ _)
    · exact h1

theorem loggedWrite_keeps (src a : Nat) (g : State → State) (s : State) (h : Keeps s (g s)) : Keeps s (loggedWrite src a g s) := by
  unfold loggedWrite
  dsimp only
  split
  · exact Keeps.thenDyn _ h
  · exact h

theorem applyWrite_keeps (src a : Nat) (v : Word) (s : State) : Keeps s (applyWrite src a v s).1 := by
  unfold applyWrite
  extract_lets c s1 b m r
  have hr : Keeps s r.1 := by
    show Keeps s (match liveWrite a v s with | some r => r | none => _ : State × Nat).1
    rcases h : liveWrite a v s with _ | q
    · dsimp only
      split
      · exact fieldWrite_keeps _ _ _ _ _ _ _
      · exact Keeps.rfl
    · exact liveWrite_keeps _ _ _ _ h
  clear_value r
  split
  · exact Keeps.dyn _
  · split
    · exact Keeps.rfl
    · split
      · split
        · exact Keeps.dyn _
        · exact commandWrite_keeps _ _ _
      · exact loggedWrite_keeps src a (fun _ => r.1) s hr

theorem hostWrite_keeps (a : Nat) (v : Word) (s : State) : Keeps s (hostWrite a v s) := by
  unfold hostWrite
  extract_lets s1
  have h : Keeps s s1 := by
    show Keeps s (if _ then _ else _)
    split
    · exact Keeps.dyn _
    · exact Keeps.rfl
  exact h.trans (applyWrite_keeps _ _ _ _)

theorem registerWrite_keeps (a : Nat) (v : Word) (s : State) : Keeps s (registerWrite a v s) := by
  unfold registerWrite
  split
  · exact Keeps.fromDyn ((hostWrite_keeps a v { s with d := { s.d with tim := { s.d.tim with arming := [] } } }).trans (armWaiting_keeps _))
  · exact Keeps.rfl

theorem mirrorWrite_keeps (a : Nat) (v : Word) (s : State) : Keeps s (mirrorWrite a v s) :=
  Keeps.thenDyn _ (Keeps.fromDyn (applyWrite_keeps _ _ _ _))

/-! The configuration loader. -/

theorem livePresets_keeps (s : State) : Keeps s (livePresets s) := by
  refine Keeps.fold _ _ _ (fun x t => ?_)
  rcases h : liveWrite x.1 x.2 t with _ | r
  · exact Keeps.rfl
  · exact liveWrite_keeps _ _ _ _ h

theorem configure_keeps (s : State) : Keeps s (configure s) := Keeps.fromDyn (livePresets_keeps _)

theorem candidateStreamed_keeps (s : State) : Keeps s (candidateStreamed s) := by
  unfold candidateStreamed
  dsimp only
  split
  · rename_i i rest _ _ _
    have h := checkImage_keeps s.c s.d (i + 1) (imageBytes (s.d.cfg.slot i).bytes)
    generalize checkImage s.c s.d (i + 1) (imageBytes (s.d.cfg.slot i).bytes) = q at h
    obtain ⟨_ | ⟨b, e⟩, c'⟩ := q
    · exact Keeps.cfg _ h
    · exact Keeps.dyn _
  · exact Keeps.rfl

theorem bootEnd_keeps (seat present : Bool) (s : State) : Keeps s (bootEnd seat present s) := by
  unfold bootEnd
  extract_lets x d0 g1 g2 d1 d2 s1 c d3 d4 d5 g3 s2
  have h1 : Keeps s s1 := Keeps.fromDyn (configure_keeps _)
  split
  · exact Keeps.rfl
  · split
    · exact Keeps.dyn _
    · split
      · exact Keeps.thenDyn _ h1
      · split
        · exact Keeps.thenDyn _ h1
        · split
          · exact Keeps.thenDyn _ h1
          · exact Keeps.thenDyn _ (h1.trans (enterRun_keeps _ _))

theorem applyImage_keeps (c' : Cfg) (s : State) (h : CKeeps s.c c') : Keeps s (applyImage c' s) := by
  unfold applyImage
  extract_lets d1 g1 d2 c1 g2 s1
  split
  · exact Keeps.cfg _ (applyOver_keeps _ _ h)
  · have h1 : Keeps s s1 := Keeps.trans (b := { s with c := c', d := d2 }) (Keeps.cfg _ h) (configure_keeps _)
    exact Keeps.thenDyn _ h1

theorem commitDo_keeps (k : Commit) (c' : Cfg) (s : State) (h : CKeeps s.c c') : Keeps s (commitDo k c' s) := by
  unfold commitDo
  extract_lets d1 s1
  have h1 : Keeps s s1 := by
    show Keeps s (if _ then _ else _)
    split
    · exact Keeps.dyn _
    · exact Keeps.fromDyn (applyImage_keeps _ _ h)
  split
  · exact h1
  · exact Keeps.thenDyn _ h1

theorem commitCheckDone_keeps (s : State) : Keeps s (commitCheckDone s) := by
  unfold commitCheckDone
  split
  · exact Keeps.rfl
  · rename_i k _
    split
    · exact Keeps.rfl
    · have h := commitCheck_keeps s.c s.d k
      generalize commitCheck s.c s.d k = q at h
      obtain ⟨_ | ⟨b, e⟩, c'⟩ := q
      · dsimp only
        split
        · exact Keeps.dyn _
        · exact commitDo_keeps _ _ _ h
      · exact Keeps.dyn _

theorem commitPartnerResult_keeps (code : Nat) (s : State) : Keeps s (commitPartnerResult code s) := by
  unfold commitPartnerResult
  split
  · split
    · extract_lets c' s1
      have h1 : Keeps s s1 := commitDo_keeps _ _ _ (checkImage_keeps _ _ _ _)
      split
      · exact h1
      · exact Keeps.thenDyn _ h1
    · exact Keeps.rfl
  · split
    · exact Keeps.dyn _
    · exact Keeps.rfl

theorem partnerImage_keeps (l0 : List Byte) (s : State) : Keeps s (partnerImage l0 s) := by
  unfold partnerImage
  extract_lets l joins
  split
  · exact Keeps.rfl
  · have h := checkImage_keeps s.c s.d 3 l
    generalize checkImage s.c s.d 3 l = q at h
    obtain ⟨_ | ⟨b, e⟩, c'⟩ := q
    · exact Keeps.thenDyn _ (applyImage_keeps _ _ h)
    · exact Keeps.dyn _

theorem listsChecked_keeps (b : Nat) (s : State) : Keeps s (listsChecked b s) := by
  unfold listsChecked
  dsimp only
  split
  · exact Keeps.dyn _
  · exact Keeps.cfg _ (CKeeps.reg (loadIf_ok _))

theorem enableChecked_keeps (x : Area) (i : Nat) (k : Check) (s : State) : Keeps s (enableChecked x i k s) := by
  unfold enableChecked
  extract_lets e on word cand0 cand
  generalize (if on then _ else _ : Nat × Cfg) = q
  obtain ⟨code, c1⟩ := q
  dsimp only
  split
  · exact Keeps.dyn _
  · exact Keeps.cfg _ (CKeeps.reg (fun h => regs_each _ _ _ (fun _ _ h => putB_ok _ _ h) (putW_ok _ _ h)))

theorem armChecked_keeps (t : Nat) (s : State) : Keeps s (armChecked t s) := Keeps.dyn _

theorem enableCheckDone_keeps (s : State) : Keeps s (enableCheckDone s) := by
  unfold enableCheckDone
  split
  · exact Keeps.rfl
  · extract_lets s1
    split
    · exact Keeps.fromDyn (listsChecked_keeps _ _)
    · split
      · exact Keeps.fromDyn (armChecked_keeps _ _)
      · split
        · exact Keeps.fromDyn (enableChecked_keeps _ _ _ _)
        · exact Keeps.dyn _

/-! The frame. -/

theorem commitBoundary_keeps (old : Cfg) (s : State) : Keeps s (commitBoundary old s) := Keeps.fromDyn (livePresets_keeps _)

theorem frameLoad_keeps (s : State) : Keeps s (frameLoad s) := by
  unfold frameLoad
  extract_lets c take moves s1 s2
  have h1 : Keeps s s1 := ⟨rfl, CKeeps.reg (loadIf_ok _)⟩
  have h2 : Keeps s s2 := by
    show Keeps s (if _ then _ else _)
    split
    · exact h1.trans (commitBoundary_keeps _ _)
    · exact h1
  exact Keeps.thenDyn _ h2

theorem loopTurn_keeps (z : Dyn) (n : Nat) (s : State) : Keeps s (loopTurn z n s) := by
  unfold loopTurn
  extract_lets src c'
  have h : CKeeps s.c c' := CKeeps.reg (fun h => load_ok (loopA n) 43 h)
  split
  · exact ⟨rfl, h⟩
  · refine Keeps.trans ?_ (loopSample_keeps _ _ _)
    split
    · exact Keeps.rfl
    · exact Keeps.trans (b := { s with c := c' }) ⟨rfl, h⟩ (loopStart_keeps _ _)

theorem columnTurn_keeps (n : Nat) (s : State) : Keeps s (columnTurn n s) := by
  unfold columnTurn
  extract_lets aw k c' src d1
  split
  · exact Keeps.rfl
  · split
    · exact columnStep_keeps _ _ _
    · split
      · exact Keeps.cfg _ (colLoad_keeps _ _)
      · exact Keeps.trans (b := { s with c := c', d := d1 }) (Keeps.cfg _ (colLoad_keeps _ _)) (columnStep_keeps _ _ _)

theorem passWords_keeps (s : State) : Keeps s (passWords s) := Keeps.cfg _ (seqLoad_keeps _)
theorem loopsEnd_keeps (endUs : Nat) (s : State) : Keeps s (loopsEnd endUs s) := Keeps.dyn _

theorem loopDeadline_keeps (done : Nat) (s : State) : Keeps s (loopDeadline done s) := by
  unfold loopDeadline
  extract_lets due s1 d1
  split
  · exact Keeps.rfl
  · exact Keeps.thenDyn _ (Keeps.each _ _ _ (loopTurn_keeps _))

theorem loopsRun_keeps (e : FrameEnv) (s : State) : Keeps s (loopsRun e s) := by
  unfold loopsRun
  extract_lets due g1 g2 s0 s1 left
  have h1 : Keeps s s1 := Keeps.fromDyn (Keeps.each _ s0 _ (loopTurn_keeps _))
  split
  · exact Keeps.rfl
  · split
    · exact h1.trans (loopsEnd_keeps _ _)
    · exact Keeps.thenDyn _ h1

theorem loopAdopt_keeps (i : StreamItem) (s : State) : Keeps s (loopAdopt i s) := by
  unfold loopAdopt
  split
  · dsimp only
    refine Keeps.thenDyn _ ?_
    split
    · exact Keeps.dyn _
    · split
      · exact Keeps.fromDyn (loopTurn_keeps _ _ _)
      · exact Keeps.rfl
  · exact Keeps.rfl

theorem loopsAdopt_keeps (s : State) : Keeps s (loopsAdopt s) := by
  unfold loopsAdopt
  split
  · exact Keeps.fold _ _ _ (fun i t => loopAdopt_keeps i t)
  · exact Keeps.rfl

theorem transitions_keeps (s : State) : Keeps s (transitions s) := by
  unfold transitions
  dsimp only
  repeat' split
  all_goals first
    | exact Keeps.dyn _
    | exact enterRun_keeps _ _

theorem effectDo_keeps (e : Effect) (s : State) : Keeps s (effectDo e s) := by
  unfold effectDo
  extract_lets g1 g2 flag d g3 r
  have hr : Keeps s r.1 := by
    show Keeps s (match e.kind with | 2 => _ | 3 => _ | 4 => _ | _ => _ : State × Nat).1
    split
    · split
      · exact Keeps.rfl
      · exact Keeps.dyn _
    · exact Keeps.dyn _
    · exact Keeps.dyn _
    · exact applyWrite_keeps _ _ _ _
  split
  · exact hr
  · exact Keeps.thenDyn _ hr

theorem canWriteDo_keeps (w : CanWrite) (s : State) : Keeps s (canWriteDo w s) := by
  unfold canWriteDo
  split
  · exact Keeps.rfl
  · split
    · exact Keeps.thenDyn _ (applyWrite_keeps _ _ _ _)
    · exact applyWrite_keeps _ _ _ _
    · extract_lets u reg src c d1
      refine Keeps.cfg _ (CKeeps.reg (fun h => ?_))
      exact ite_ok _ _ _ (putB_ok _ _ (putB_ok _ _ h)) (putB_ok _ _ (putB_ok _ _ h))

theorem frameWrites_keeps (s : State) : Keeps s (frameWrites s) := by
  unfold frameWrites
  extract_lets d effects a1 a2 a3 a4 clean s1 s2 s3 s4 s5
  have h1 : Keeps s s1 := Keeps.fromDyn (Keeps.fold _ _ _ (fun e t => effectDo_keeps e t))
  have h2 : Keeps s s2 := h1.trans (Keeps.fold _ _ _ (fun q t => hostWrite_keeps _ _ t))
  have h3 : Keeps s s3 := h2.trans (Keeps.fold _ _ _ (fun q t => canWriteDo_keeps _ t))
  have h4 : Keeps s s4 := by
    show Keeps s (if _ then _ else _)
    split
    · exact h3.trans (Keeps.fold _ _ _ (fun q t => mirrorWrite_keeps _ _ t))
    · exact h3
  have h5 : Keeps s s5 := h4.trans (Keeps.fold _ _ _ (fun q t => applyWrite_keeps _ _ _ t))
  exact h5.trans (armWaiting_keeps _)

theorem frameOutputs_keeps (e : FrameEnv) (s : State) : Keeps s (frameOutputs e s) := Keeps.dyn _
theorem frameColumns_keeps (s : State) : Keeps s (frameColumns s) := Keeps.fromDyn (Keeps.each _ _ _ columnTurn_keeps)

theorem frameCells_keeps (s : State) : Keeps s (frameCells s) := by
  unfold frameCells
  extract_lets run st s1 c
  have h1 : Keeps s s1 := by
    show Keeps s (if _ then _ else _)
    split
    · refine Keeps.each _ _ _ (fun n t => ?_)
      split
      · exact sweepStart_keeps _ _ _
      · exact Keeps.rfl
    · exact Keeps.rfl
  exact Keeps.thenDyn _ h1

theorem frameCan_keeps (s : State) : Keeps s (frameCan s) := Keeps.thenDyn _ (Keeps.fromDyn (Keeps.each _ _ _ mapLoad_keeps))

theorem frameClock_keeps (s : State) : Keeps s (frameClock s) := by
  unfold frameClock
  exact (Keeps.trans (Keeps.ite _ Keeps.rfl (loopDeadline_keeps _ _)) (loopsAdopt_keeps _)).thenCfg _ (CKeeps.reg settle_ok)

theorem frameInputs_keeps (e : FrameEnv) (s : State) : Keeps s (frameInputs e s) := by
  unfold frameInputs
  exact Keeps.thenDyn _ (frameOutputs_keeps e s)

theorem frameWork_keeps (e : FrameEnv) (s : State) : Keeps s (frameWork e s) := by
  unfold frameWork
  extract_lets s4w s4 s5 run d5 s6 t s7 s8 s9
  have h4 : Keeps s s4 := Keeps.thenDyn _ ((frameLoad_keeps _).trans (frameWrites_keeps _))
  have h5 : Keeps s s5 := h4.trans (loopsRun_keeps _ _)
  have h6 : Keeps s s6 := Keeps.thenDyn _ h5
  have ht : Keeps s t := Keeps.ite _ (h6.trans (passWords_keeps _)) h6
  have h7 : Keeps s s7 := Keeps.ite _ (Keeps.thenDyn _ ht) h6
  have h8 : Keeps s s8 := Keeps.ite _ (h7.trans (frameColumns_keeps _)) h7
  have h9 : Keeps s s9 := h8.trans ((frameCells_keeps _).trans (Keeps.each _ _ _ (fun b t => Keeps.ite _ (visitStart_keeps _ _) Keeps.rfl)))
  exact h9.trans (frameCan_keeps _)

theorem frameRun_keeps (e : FrameEnv) (s : State) : Keeps s (frameRun e s) :=
  Keeps.thenDyn _ ((frameClock_keeps s).trans ((pairBoundary_keeps _).trans ((transitions_keeps _).trans ((frameInputs_keeps e _).trans (frameWork_keeps e _)))))

theorem frameBoundary_keeps (e : FrameEnv) (s : State) : Keeps s (frameBoundary e s) := by
  unfold frameBoundary
  split
  · exact Keeps.rfl
  · split
    · exact Keeps.dyn _
    · exact Keeps.rfl
    · exact frameRun_keeps _ _

/-! Commands of the host. -/

theorem hostCmd_keeps (a : Nat) (takes : Bool) (g : State → State) (s : State) (h : ∀ s, Keeps s (g s)) : Keeps s (hostCmd a takes g s) := by
  unfold hostCmd
  split
  · exact Keeps.rfl
  · split
    · exact Keeps.dyn _
    · split
      · exact Keeps.dyn _
      · exact h s

theorem hostVal_keeps (a : Nat) (g : State → State) (s : State) (h : ∀ s, Keeps s (g s)) : Keeps s (hostVal a g s) :=
  hostCmd_keeps _ _ _ _ (fun s => loggedWrite_keeps _ _ _ _ (h s))

theorem hostDyn_keeps (a : Nat) (takes : Bool) (g : State → Dyn) (s : State) : Keeps s (hostCmd a takes (fun s => { s with d := g s }) s) :=
  hostCmd_keeps _ _ _ _ (fun _ => Keeps.dyn _)

end Sys2Proof.Machine
end

