-- ==== Sys2Proof/Laws/Boot.lean ====
section
/-! SUPPORT. What the resets, BOOT and the loader's operations leave: the lines of the groups, the registers, the configuration's words and the archive. -/

namespace Sys2Proof.Machine

open Sys2Proof

theorem setLines_spec (c : Cfg) (line : Nat) (d : Dyn) : FldStep d (setLines c line d) ∧ ∀ g, g < 6 → ((setLines c line d).grp g).line = line % 4 := by
  unfold setLines
  have key : ∀ (l : List Nat) (d : Dyn), FldStep d (forEach l d (fun g d => commonLine c g line d)) ∧
      ∀ g, ((forEach l d (fun g d => commonLine c g line d)).grp g).line = if g ∈ l then line % 4 else (d.grp g).line := by
    intro l
    induction l with
    | nil => exact fun d => ⟨rfl, fun g => by simp [forEach]⟩
    | cons a l ih =>
      intro d
      obtain ⟨i1, i2⟩ := ih (commonLine c a line d)
      obtain ⟨h1, h2⟩ := commonLine_spec c a line d
      refine ⟨h1.trans i1, fun g => (i2 g).trans ?_⟩
      rw [h2]
      by_cases hg : g = a
      · subst hg; simp
      · simp [hg]
  obtain ⟨h1, h2⟩ := key (List.range 6) d
  exact ⟨h1, fun g hg => by rw [h2]; simp [hg]⟩

theorem FldStep.parts {d e : Dyn} (h : FldStep d e) : e.tim = d.tim ∧ e.grd = d.grd ∧ e.arc = d.arc ∧ e.afe = d.afe ∧ e.cnv = d.cnv ∧
    e.mst = d.mst ∧ e.cols = d.cols ∧ e.ctl = d.ctl ∧ e.seq = d.seq ∧ e.can = d.can ∧ e.pair = d.pair ∧ e.glb.st = d.glb.st ∧ e.glb.role = d.glb.role := by
  have := Alike.blocks h
  exact ⟨this.1, this.2.1, this.2.2.1, this.2.2.2.1, this.2.2.2.2.1, this.2.2.2.2.2.1, this.2.2.2.2.2.2.1, this.2.2.2.2.2.2.2.2.1,
    this.2.2.2.2.2.2.2.2.2.1, this.2.2.2.2.2.2.2.2.2.2.1, this.2.2.2.2.2.2.2.2.2.2.2.1, this.2.2.2.2.2.2.2.2.2.2.2.2.1, this.2.2.2.2.2.2.2.2.2.2.2.2.2⟩

/-- Driving the lines changes the field side alone. -/
theorem commonLine_only (c : Cfg) (g line : Nat) (d : Dyn) : ∃ f, commonLine c g line d = { d with fld := f } := by
  have hr : ∀ (d : Dyn) g, ∃ f, reapply c g d = { d with fld := f } := fun d g => by
    unfold reapply
    split
    · exact ⟨_, rfl⟩
    · exact ⟨d.fld, rfl⟩
  have hloop : ∀ (l : List Nat) (P : Nat → Dyn → Dyn) (d : Dyn), (∀ k d, ∃ f, P k d = { d with fld := f }) → ∃ f, forEach l d P = { d with fld := f } := by
    intro l P d h
    exact forEach_keeps (fun e : Dyn => ∃ f, e = { d with fld := f }) l d P (fun k e ⟨f, hf⟩ => by
      obtain ⟨f', hf'⟩ := h k e
      rw [hf', hf]
      exact ⟨f', rfl⟩) ⟨d.fld, rfl⟩
  have hm : ∀ (d : Dyn) m, ∃ f, reapplyMov c m d = { d with fld := f } := fun d m => by
    unfold reapplyMov
    exact hloop _ _ _ (fun k d => ⟨_, rfl⟩)
  unfold commonLine
  split
  · unfold commonLineDio
    extract_lets src d1 d2
    have h1 : ∃ f, d1 = { d with fld := f } := ⟨_, rfl⟩
    have h2 : ∃ f, d2 = { d with fld := f } := by
      obtain ⟨f, hf⟩ := h1
      obtain ⟨f', hf'⟩ := hloop (upFrom (16 * g) 16) (fun k d => let x := d.dch k; if x.phase = 1 ∨ x.phase = 2 ∨ x.phase = 4 then d.setDch k { x with phase := 3 } else d) d1
        (fun k d => by dsimp only; split; exact ⟨_, rfl⟩; exact ⟨d.fld, rfl⟩)
      by_cases hl : line % 4 = 2
      · exact ⟨f', (if_pos hl).trans (by rw [hf', hf])⟩
      · exact ⟨f, (if_neg hl).trans hf⟩
    obtain ⟨f, hf⟩ := h2
    obtain ⟨f', hf'⟩ := hr d2 g
    exact ⟨f', by rw [hf', hf]⟩
  · obtain ⟨f', hf'⟩ := hm (d.setGrp g { d.grp g with line := line % 4 }) (g - 4)
    exact ⟨f', by rw [hf']; rfl⟩

theorem setLines_only (c : Cfg) (line : Nat) (d : Dyn) : ∃ f, setLines c line d = { d with fld := f } := by
  unfold setLines
  exact forEach_keeps (fun e : Dyn => ∃ f, e = { d with fld := f }) _ d _ (fun g e ⟨f, hf⟩ => by
    obtain ⟨f', hf'⟩ := commonLine_only c g line e
    exact ⟨f', by rw [hf', hf]⟩) ⟨d.fld, rfl⟩

theorem cfgReset_w (c : Cfg) (a : Nat) : (cfgReset c).w a = (if a = 0x30030 then c.w 0x30030 else resetWord a) ∧
    (cfgReset c).f a = (if a = 0x30030 then c.w 0x30030 else resetWord a) := by
  constructor
  · unfold cfgReset Cfg.w Regs.putB
    show tget (resetWord a) ((Regs.none.putW _ _).putF _ _).w a = _
    have := putW_w Regs.none 0x30030 a (tget (resetWord 0x30030) c.reg.w 0x30030)
    exact this
  · unfold cfgReset Cfg.f Regs.putB
    exact putF_f (Regs.none.putW 0x30030 (c.w 0x30030)) 0x30030 a (c.w 0x30030)

/-- What a reset holds. -/
theorem holdReset_spec (s : State) (h : s.d.pwr.resetFrom = none) :
    ∃ f, holdReset s = { s with d := { logicReset s.d with
      pwr := { (logicReset s.d).pwr with resetFrom := some s.d.glb.st, slow := true }
      tim := { (logicReset s.d).tim with incS := if s.d.pwr.slow then (logicReset s.d).tim.incS else incS s.c s.d }
      fld := f } } ∧ (∀ g, g < 6 → (tget FGrp.empty f.grps g).line = 3) := by
  unfold holdReset
  rw [h]
  dsimp only
  set e : Dyn := { logicReset s.d with
      pwr := { (logicReset s.d).pwr with resetFrom := some s.d.glb.st, slow := true }
      tim := { (logicReset s.d).tim with incS := if s.d.pwr.slow then (logicReset s.d).tim.incS else incS s.c s.d } } with he
  obtain ⟨f, hf⟩ := setLines_only s.c 3 e
  have h2 := (setLines_spec s.c 3 e).2
  refine ⟨f, ?_, fun g hg => ?_⟩
  · rw [hf]
  · have := h2 g hg
    rw [hf] at this
    exact this

theorem rstNLow_spec (s : State) (h : s.d.pwr.resetFrom = none) :
    ∃ f, rstNLow s = { s with d := { logicReset s.d with
      pwr := { (logicReset s.d).pwr with rst := s.d.pwr.rst ||| 8, resetFrom := some s.d.glb.st, rstLow := true, slow := true }
      tim := { (logicReset s.d).tim with incS := if s.d.pwr.slow then (logicReset s.d).tim.incS else incS s.c s.d }
      fld := f } } ∧ (∀ g, g < 6 → (tget FGrp.empty f.grps g).line = 3) := by
  obtain ⟨f, hf, hl⟩ := holdReset_spec { s with d := { s.d with pwr := { s.d.pwr with rst := s.d.pwr.rst ||| 8, rstLow := true } } } h
  refine ⟨f, ?_, hl⟩
  unfold rstNLow
  rw [hf]
  rfl

theorem setLines_off (c : Cfg) (d : Dyn) : (∀ g, g < 4 → ((setLines c 1 d).grp g).applied = 0) ∧ (∀ n, n < 32 → ((setLines c 1 d).mch n).e = 0) := by
  -- one group driven off, and the others left as they are
  have one : ∀ (g : Nat) (d : Dyn), g < 6 → (g < 4 → ((commonLine c g 1 d).grp g).applied = 0) ∧ (∀ n, n < 32 → 4 + n / 16 = g → ((commonLine c g 1 d).mch n).e = 0) ∧
      (∀ h, h ≠ g → ((commonLine c g 1 d).grp h).applied = (d.grp h).applied) ∧ (∀ n, n < 32 → 4 + n / 16 ≠ g → ((commonLine c g 1 d).mch n).e = (d.mch n).e) := by
    intro g d hg
    have e : commonLine c g 1 d = reapplyG c g (d.setGrp g { d.grp g with line := 1 }) := by
      unfold commonLine reapplyG commonLineDio
      split
      · dsimp only
        rw [if_neg (by decide)]
      · rfl
    rw [e]
    have off := reapplyG_off c g hg (d.setGrp g { d.grp g with line := 1 }) (by simp)
    refine ⟨off.1, off.2, fun h hh => ?_, fun n hn hh => ?_⟩
    · rw [reapplyG_grp]; simp [hh]
    · unfold reapplyG
      split
      · unfold reapply; split <;> rfl
      · rw [reapplyMov_mch]; rw [if_neg (by omega)]; simp
  have key : ∀ (l : List Nat) (d : Dyn), (∀ g ∈ l, g < 6) →
      (∀ g, (g ∈ l ∨ (d.grp g).applied = 0) → g < 4 → ((forEach l d (fun g d => commonLine c g 1 d)).grp g).applied = 0) ∧
      (∀ n, n < 32 → (4 + n / 16 ∈ l ∨ (d.mch n).e = 0) → ((forEach l d (fun g d => commonLine c g 1 d)).mch n).e = 0) := by
    intro l
    induction l with
    | nil => exact fun d _ => ⟨fun g h _ => by simpa [forEach] using h, fun n _ h => by simpa [forEach] using h⟩
    | cons a l ih =>
      intro d hl
      obtain ⟨o1, o2, o3, o4⟩ := one a d (hl a (by simp))
      obtain ⟨i1, i2⟩ := ih (commonLine c a 1 d) (fun g hg => hl g (by simp [hg]))
      refine ⟨fun g h h4 => i1 g ?_ h4, fun n hn h => i2 n hn ?_⟩
      · by_cases hga : g = a
        · subst hga; exact .inr (o1 h4)
        · rcases h with h | h
          · exact .inl (by simpa [hga] using h)
          · exact .inr (by rw [o3 g hga]; exact h)
      · by_cases hga : 4 + n / 16 = a
        · exact .inr (o2 n hn hga)
        · rcases h with h | h
          · exact .inl (by simpa [hga] using h)
          · exact .inr (by rw [o4 n hn hga]; exact h)
  obtain ⟨k1, k2⟩ := key (List.range 6) d (by simp)
  refine ⟨fun g h4 => k1 g (.inl (by simp; omega)) h4, fun n hn => k2 n hn (.inl (by simp; omega))⟩

/-- No region that the ledger remembers over a BOOT reads full before its mount. -/
theorem remembered_full (a : Arc) (k : Nat) : (tget Region.empty a.remembered k).full = false := by
  unfold Arc.remembered
  have key : ∀ l : Tbl Region, (∀ q ∈ l, q.2.full = false) → (tget Region.empty l k).full = false := by
    intro l
    induction l with
    | nil => exact fun _ => rfl
    | cons q r ih =>
      obtain ⟨j, u⟩ := q
      intro h
      rw [tget_cons]
      split
      · exact h (j, u) (by simp)
      · exact ih (fun q hq => h q (List.mem_cons_of_mem _ hq))
  refine key _ (fun q hq => ?_)
  obtain ⟨h, _⟩ := List.mem_filter.1 hq
  obtain ⟨q', _, rfl⟩ := List.mem_map.1 h
  rfl

theorem toBoot_spec (old : DevState) (s : State) :
    ∃ a f, toBoot old s = { s with c := cfgReset s.c, d := { logicReset s.d with
      glb := { (logicReset s.d).glb with st := .boot, lastCause := 0 }
      pwr := { (logicReset s.d).pwr with resetFrom := none }
      arc := a
      dp := { (logicReset s.d).dp with irq := 0 }
      fld := f } } ∧ a.waitRecs.map (fun r => (r.typ, r.cls, r.body)) = [(1, 0, [leBytes 1 old.num, leBytes 1 0, leBytes 2 0].flatten)] ∧
      (∀ g, g < 6 → (tget FGrp.empty f.grps g).line = 1 ∧ (g < 4 → (tget FGrp.empty f.grps g).applied = 0)) ∧ (∀ n, n < 32 → (tget MChan.empty f.mov n).e = 0) := by
  unfold toBoot
  dsimp only
  set d2 : Dyn := { logicReset s.d with glb := { (logicReset s.d).glb with st := old }, pwr := { (logicReset s.d).pwr with resetFrom := none } } with hd2
  obtain ⟨a, ha⟩ := toState_spec d2 .boot 0
  have hw : (d2.toState .boot 0).arc.waitRecs.map (fun r => (r.typ, r.cls, r.body)) = [(1, 0, [leBytes 1 old.num, leBytes 1 0, leBytes 2 0].flatten)] := by
    have hf : (tget Region.empty d2.arc.regions 0).full = false := remembered_full s.d.arc 0
    have he : d2.pair.state = 0 ∧ d2.arc.state = 0 ∧ d2.arc.waitRecs = [] ∧ d2.glb.st = old := ⟨rfl, rfl, rfl, rfl⟩
    unfold Dyn.toState Dyn.setIrq Dyn.ledger Dyn.ledgerAs Dyn.ledgerRec
    rw [if_neg (by rw [he.1]; decide)]
    simp [hf, he.2.1, he.2.2.1, he.2.2.2]
    rfl
  have harc : (d2.toState .boot 0).arc = a := by rw [ha]
  set d3 := d2.toState .boot 0 with hd3
  obtain ⟨f, hf⟩ := setLines_only (cfgReset s.c) 1 d3
  refine ⟨a, f, ?_, ?_, ?_, ?_⟩
  · rw [hf, ha]
  · rw [← harc]; exact hw
  · intro g hg
    have h1 := (setLines_spec (cfgReset s.c) 1 d3).2 g hg
    rw [hf] at h1
    refine ⟨h1, fun h4 => ?_⟩
    have h2 := setLines_off (cfgReset s.c) d3
    rw [hf] at h2
    exact h2.1 g h4
  · intro n hn
    have h2 := setLines_off (cfgReset s.c) d3
    rw [hf] at h2
    exact h2.2 n hn

theorem blockReason_cfg (e : Ent) (code : Nat) (d : Dyn) : (blockReason e code d).cfg = d.cfg := by
  unfold blockReason
  dsimp only
  repeat' split
  all_goals rfl

theorem refuseImage_cfg (b : Bad) (e : Option Ent) (d : Dyn) :
    (refuseImage b e d).cfg = { d.cfg with lastReason := b.code, locType := b.typ, locEntry := b.entry, errOff := b.off } := by
  unfold refuseImage
  dsimp only
  cases e with
  | none => rfl
  | some e => exact blockReason_cfg _ _ _

theorem headerRefused_spec (c : Cfg) (len : Nat) (l : List Byte) (d : Dyn) : ∃ a b e f, headerRefused c len l d =
    { d with cfg := { d.cfg with lastReason := a, locType := b, locEntry := e, errOff := f } } := by
  unfold headerRefused
  split
  · exact ⟨d.cfg.lastReason, d.cfg.locType, d.cfg.locEntry, d.cfg.errOff, rfl⟩
  · split
    · exact ⟨_, _, _, _, rfl⟩
    · exact ⟨d.cfg.lastReason, d.cfg.locType, d.cfg.locEntry, d.cfg.errOff, rfl⟩

theorem forEach_cfg (l : List Nat) (d : Dyn) (g : Nat → Dyn → Dyn) (h : ∀ k e, (g k e).cfg = e.cfg) : (forEach l d g).cfg = d.cfg :=
  forEach_keeps (fun e : Dyn => e.cfg = d.cfg) l d g (fun k e he => (h k e).trans he) rfl

theorem clearReasons_cfg (d : Dyn) : (clearReasons d).cfg = d.cfg := by
  unfold clearReasons
  extract_lets s1 s2 s3 s4 s5 s6 d1 d2 d3 d4 d5 d6 d7
  have h1 : d1.cfg = d.cfg := rfl
  have h2 : d2.cfg = d1.cfg := forEach_cfg _ d1 _ (fun _ _ => rfl)
  have h3 : d3.cfg = d2.cfg := forEach_cfg _ d2 _ (fun _ _ => rfl)
  have h4 : d4.cfg = d3.cfg := forEach_cfg _ d3 _ (fun _ _ => rfl)
  have h5 : d5.cfg = d4.cfg := forEach_cfg _ d4 _ (fun _ _ => rfl)
  have h6 : d6.cfg = d5.cfg := forEach_cfg _ d5 _ (fun _ _ => rfl)
  have h7 : d7.cfg = d6.cfg := forEach_cfg _ d6 _ (fun _ _ => rfl)
  have h8 := forEach_cfg (List.range 256) d7 (fun n d => d.setUnit n { d.unit n with reason := 0 }) (fun _ _ => rfl)
  exact h8.trans (h7.trans (h6.trans (h5.trans (h4.trans (h3.trans (h2.trans h1))))))

theorem acceptImage_cfg (i : Image) (d : Dyn) : (acceptImage i d).cfg = { d.cfg with digest := imageDigest i.bytes, lastReason := 0 } := by
  unfold acceptImage
  extract_lets g d0 src d1
  obtain ⟨a, h⟩ := ledger_arc d1 2 0 (leBytes 4 i.gen ++ leBytes 1 i.source ++ [0, 0, 0] ++ (leBytes 32 g).reverse)
  rw [h]
  show ({ d0.cfg with digest := g, lastReason := 0 } : CfgSt) = _
  have : d0.cfg = d.cfg := clearReasons_cfg d
  rw [this]

theorem fault_cfg (d : Dyn) (c : Cfg) (src code sev a b : Nat) (x y : Bool) : ∃ h, (d.fault c src code sev a b x y).cfg = { d.cfg with bootHalt := h } := by
  obtain ⟨_, _, _, h, _, e⟩ := fault_step d c src code sev a b x y
  exact ⟨h, by rw [e]⟩

/-- A record leaves the state of the archive and the SEQ of its mount. -/
theorem ledger_kept (d : Dyn) (typ cls : Nat) (body : List Byte) : ∃ x, d.ledger typ cls body = { d with arc := x } ∧ x.state = d.arc.state ∧ x.bootSeq = d.arc.bootSeq := by
  have pack : ∀ (a : Arc) ms r, (a.pack ms r).state = a.state ∧ (a.pack ms r).bootSeq = a.bootSeq := fun a ms r => by
    unfold Arc.pack
    dsimp only
    split <;> exact ⟨rfl, rfl⟩
  have marked : ∀ (a : Arc) e, (a.marked e).state = a.state ∧ (a.marked e).bootSeq = a.bootSeq := fun a e => by
    unfold Arc.marked
    split <;> exact ⟨rfl, rfl⟩
  unfold Dyn.ledger Dyn.ledgerAs
  split
  · exact ⟨d.arc, rfl, rfl, rfl⟩
  · unfold Dyn.ledgerRec
    dsimp only
    repeat' split
    all_goals
      refine ⟨_, rfl, ?_⟩
      first
        | exact ⟨rfl, rfl⟩
        | exact ⟨(marked _ _).1.trans (pack _ _ _).1, (marked _ _).2.trans (pack _ _ _).2⟩
        | exact marked _ _

theorem timeRecord_arc (a b e f k : Nat) (d : Dyn) : ∃ x, timeRecord a b e f k d = { d with arc := x } ∧ x.state = d.arc.state ∧ x.bootSeq = d.arc.bootSeq := by
  obtain ⟨x, h1, h2, h3⟩ := ledger_kept d 3 0 (leBytes 8 a ++ leBytes 8 b ++ leBytes 1 e ++ leBytes 1 f ++ leBytes 1 k ++ [0])
  unfold timeRecord
  rw [h1]
  unfold Dyn.checkpoint
  split
  · exact ⟨x, rfl, h2, h3⟩
  · exact ⟨_, rfl, h2, h3⟩

theorem liveWrite_img (a : Nat) (v : Word) (s : State) (r : State × Nat) (h : liveWrite a v s = some r) : r.1.c.img = s.c.img ∧ r.1.c.fx = s.c.fx := by
  have bit : ∀ p m (s : State), (txreqBit p m s).c.img = s.c.img ∧ (txreqBit p m s).c.fx = s.c.fx := fun p m s => by
    unfold txreqBit
    split
    · exact ⟨rfl, rfl⟩
    · split <;> exact ⟨rfl, rfl⟩
  have req : ∀ p v (s : State), (txreqWrite p v s).c.img = s.c.img ∧ (txreqWrite p v s).c.fx = s.c.fx := fun p v s => by
    unfold txreqWrite
    split
    · exact ⟨rfl, rfl⟩
    · exact forEach_keeps (fun t : State => t.c.img = s.c.img ∧ t.c.fx = s.c.fx) _ s (txreqBit p) (fun n t h => ⟨(bit p n t).1.trans h.1, (bit p n t).2.trans h.2⟩) ⟨rfl, rfl⟩
  have put : ∀ p m dlc data (s : State), (txBufferPut p m dlc data s).c.img = s.c.img ∧ (txBufferPut p m dlc data s).c.fx = s.c.fx := fun p m dlc data s => by
    unfold txBufferPut
    split
    · exact ⟨rfl, rfl⟩
    · split <;> exact ⟨rfl, rfl⟩
  have buf : ∀ p m j v (s : State), (bufferWord p m j v s).c.img = s.c.img ∧ (bufferWord p m j v s).c.fx = s.c.fx := fun p m j v s => by
    unfold bufferWord
    dsimp only
    split
    · exact put _ _ _ _ _
    · split
      · exact put _ _ _ _ _
      · exact ⟨rfl, rfl⟩
  have mode : ∀ n v (s : State), (loopModeWrite n v s).c.img = s.c.img ∧ (loopModeWrite n v s).c.fx = s.c.fx := fun n v s => by
    unfold loopModeWrite
    split
    · exact ⟨rfl, rfl⟩
    · dsimp only
      split <;> exact ⟨rfl, rfl⟩
  unfold liveWrite at h
  extract_lets c put at h
  have hput : ∀ g q, put g = some q → q.1.c.img = s.c.img ∧ q.1.c.fx = s.c.fx := fun g q e => by cases e; exact ⟨rfl, rfl⟩
  repeat' split at h
  all_goals first
    | exact hput _ _ h
    | (cases h; exact req _ _ _)
    | (cases h; exact mode _ _ _)
    | (cases h; exact buf _ _ _ _ _)
    | (cases h; exact ⟨rfl, rfl⟩)
    | cases h

theorem configure_img (s : State) : (configure s).c.img = s.c.img ∧ (configure s).c.fx = s.c.fx := by
  have key : ∀ (l : List (Nat × Word)) (s : State), (l.foldl (fun s x => match liveWrite x.1 x.2 s with | some r => r.1 | none => s) s).c.img = s.c.img ∧
      (l.foldl (fun s x => match liveWrite x.1 x.2 s with | some r => r.1 | none => s) s).c.fx = s.c.fx := by
    intro l
    induction l with
    | nil => exact fun _ => ⟨rfl, rfl⟩
    | cons x l ih =>
      intro s
      have h1 : (match liveWrite x.1 x.2 s with | some r => r.1 | none => s).c.img = s.c.img ∧ (match liveWrite x.1 x.2 s with | some r => r.1 | none => s).c.fx = s.c.fx := by
        rcases h : liveWrite x.1 x.2 s with _ | r
        · exact ⟨rfl, rfl⟩
        · exact liveWrite_img _ _ _ _ h
      exact ⟨(ih _).1.trans h1.1, (ih _).2.trans h1.2⟩
  unfold configure livePresets
  dsimp only
  exact key _ _

end Sys2Proof.Machine
end

