-- ==== Sys2Proof/Laws/Sleep.lean ====
section
/-! SUPPORT. What sleep, wake and a scan burst leave: the transitions, the first cause, the descriptors and the moisture cells. -/

namespace Sys2Proof.Machine

open Sys2Proof

theorem CnvStep.g {d e : Dyn} (h : CnvStep d e) : GKeeps d e :=
  GKeeps.trans (b := { e with grd := d.grd, cnv := d.cnv }) (Alike.g h) (GKeeps.of rfl rfl rfl)

theorem v33aFlag_g (c : Cfg) (d : Dyn) : GKeeps d (v33aFlag c d) := by
  unfold v33aFlag
  extract_lets d2
  have h : GKeeps d d2 := (forEach_invalid c causeBANK Dyn.dioLevel ((List.range 1024).filter c.chanEn) d _ rfl).1.g
  clear_value d2
  exact h.trans (GKeeps.each _ _ (fun n e => setCell_g e n _))

theorem raiseLate_g (c : Cfg) (d : Dyn) : GKeeps d (raiseLate c d) := by
  unfold raiseLate
  extract_lets l
  generalize l = l
  have : GKeeps d { d with fld := { d.fld with late := [] } } := GKeeps.of rfl rfl rfl
  revert this
  generalize ({ d with fld := { d.fld with late := [] } } : Dyn) = e
  intro this
  induction l generalizing e with
  | nil => exact this
  | cons a r ih =>
    refine ih _ (this.trans ?_)
    dsimp only
    exact GKeeps.ite _ ((fault_g _ _ _ _ _ _ _ _ _).trans (v33aFlag_g _ _)) (fault_g _ _ _ _ _ _ _ _ _)

/-- What a failed or late start of the fast clocks leaves (R82): the state manager but for a HALT, device time, and the power block but for the crystal. -/
theorem startLate_facts (c : Cfg) (us : Nat) (d : Dyn) : (∃ h, (startLate c us d).glb = { d.glb with haltCause := h }) ∧ (startLate c us d).tim = d.tim ∧
    (∃ r a b, (startLate c us d).pwr = { d.pwr with runCond := r, xt25 := a, rc := b }) ∧ (startLate c us d).afe = d.afe ∧
    (d.flt.find 0 = none → (us ≤ 3300 → (startLate c us d).flt.find 0 = none) ∧
      (3300 < us → us ≤ 10000 → ∃ r, (startLate c us d).flt.find 0 = some r ∧ r.code = 0x65 ∧ r.sev = 1) ∧
      (10000 < us → d.pwr.xt25 = true → d.clocked = true → ∃ r, (startLate c us d).flt.find 0 = some r ∧ r.code = 0x60 ∧ r.sev = 4)) := by
  unfold startLate
  split
  · rename_i h1
    unfold xt25Fail
    split
    · have o := fault_opened ({ d with pwr := { d.pwr with xt25 := false, rc := true } } : Dyn) c 0 0x60 4 0 0 false false (by decide)
      obtain ⟨_, _, _, _, _, e⟩ := fault_step ({ d with pwr := { d.pwr with xt25 := false, rc := true } } : Dyn) c 0 0x60 4 0 0 false false
      rw [e] at o ⊢
      exact ⟨⟨_, rfl⟩, rfl, ⟨_, _, _, rfl⟩, rfl, fun hf => ⟨fun h => absurd h1 (by omega), fun _ h => absurd h1 (by omega), fun _ _ _ => ⟨_, o.1 hf, rfl, rfl⟩⟩⟩
    · rename_i hx
      exact ⟨⟨_, rfl⟩, rfl, ⟨_, _, _, rfl⟩, rfl, fun _ => ⟨fun h => absurd h1 (by omega), fun _ h => absurd h1 (by omega), fun _ a b => absurd (by simp [a, b]) hx⟩⟩
  · rename_i h1
    split
    · rename_i h2
      have o := fault_opened d c 0 0x65 1 0 0 true true (by decide)
      obtain ⟨_, _, _, _, _, e⟩ := fault_step d c 0 0x65 1 0 0 true true
      rw [e] at o ⊢
      exact ⟨⟨_, rfl⟩, rfl, ⟨_, _, _, rfl⟩, rfl, fun hf => ⟨fun h => absurd h2 (by omega), fun _ _ => ⟨_, o.1 hf, rfl, rfl⟩, fun h => absurd h h1⟩⟩
    · rename_i h2
      exact ⟨⟨_, rfl⟩, rfl, ⟨_, _, _, rfl⟩, rfl, fun hf => ⟨fun _ => hf, fun h => absurd h h2, fun h => absurd h h1⟩⟩

theorem levelCause_eq (s : State) : levelCause s.c s.d = if s.d.pwr.wakeLow ∧ s.c.pinWake then some 0x81 else if s.d.pwr.xt32 = false then some 0x84 else none := by
  unfold levelCause
  simp

theorem discard_arc (cause : Nat) (d : Dyn) : discard cause d = { d with arc := (d.ledger 1 0 (leBytes 1 d.glb.st.num ++ leBytes 1 d.glb.st.num ++ leBytes 2 cause)).arc } := by
  obtain ⟨x, hx⟩ := ledger_arc d 1 0 (leBytes 1 d.glb.st.num ++ leBytes 1 d.glb.st.num ++ leBytes 2 cause)
  unfold discard
  rw [hx]

/-- The three ends of DORMANT_ENTRY under a request (R20, R21, R25): turned away by a HALT or GO_SAFE, by a wake source, or carried out. -/
theorem dormantEntry_cases (s : State) (h1 : s.d.glb.st = .run) (h2 : s.d.glb.dormReq = true) :
    let off := fun cause => ({ s.d with arc := (s.d.ledger 1 0 (leBytes 1 4 ++ leBytes 1 4 ++ leBytes 2 cause)).arc, glb := { s.d.glb with dormReq := false }, pwr := { s.d.pwr with entryAbort := none } } : Dyn)
    let src := s.d.pwr.entryAbort.orElse (fun _ => levelCause s.c s.d)
    (s.d.glb.haltCause ≠ none ∨ s.d.glb.safeReq ≠ none → dormantEntry s.c s.d = off 0) ∧
    (s.d.glb.haltCause = none → s.d.glb.safeReq = none → (∀ cause, src = some cause → dormantEntry s.c s.d = off cause) ∧
      (src = none → dormantEntry s.c s.d = enterDormant s.c 0 s.d)) := by
  intro off src
  have hd : ∀ cause, discard cause s.d = { s.d with arc := (s.d.ledger 1 0 (leBytes 1 4 ++ leBytes 1 4 ++ leBytes 2 cause)).arc } := fun cause => by
    rw [discard_arc, h1]; rfl
  unfold dormantEntry
  rw [if_pos ⟨h1, h2⟩]
  refine ⟨fun h => ?_, fun a b => ⟨fun cause h => ?_, fun h => ?_⟩⟩
  · rw [if_pos (by rcases h with h | h; exact .inl (Option.isSome_iff_ne_none.2 h); exact .inr (Option.isSome_iff_ne_none.2 h))]
    unfold dropDorm
    rw [if_pos h2, hd]
  · rw [if_neg (by simp [a, b]), show s.d.pwr.entryAbort.orElse (fun _ => levelCause s.c s.d) = some cause from h]
    dsimp only
    rw [hd]
  · rw [if_neg (by simp [a, b]), show s.d.pwr.entryAbort.orElse (fun _ => levelCause s.c s.d) = none from h]

/-- A scheduled scan that no earlier timed wake precedes (R83, R86). -/
def ScanNext (s : State) (t : Nat) : Prop :=
  s.d.glb.st = .dormant ∧ s.d.pwr.scanStopped = false ∧ s.d.pwr.nextScan = some t ∧ ∀ w, s.d.pwr.nextWake = some w → t * 1000 ≤ wakeMs w

theorem scanWake_cases (s : State) :
    ((∀ t, ¬ ScanNext s t) → scanWake s.c s.d = s.d) ∧
    ∀ t, ScanNext s t →
      (s.d.pwr.start = none → scanWake s.c s.d = startClocks false 0x80 (some (t * 1000)) (s.d.goTo s.c (accOfMs (t * 1000 - 4)))) ∧
      ∀ x, s.d.pwr.start = some x →
        let joins := x.toRun = true ∧ x.at_ = s.d.tim.acc ∧ wakeStart s.c s.d (t * 1000) = x.at_ ∧ x.at_ < accOfMs (t * 1000 - 4) + tickInc s.c s.d
        (joins → scanWake s.c s.d = runCondition x.cause (startClocks false 0x80 (some (t * 1000)) s.d)) ∧ (¬ joins → scanWake s.c s.d = s.d) := by
  unfold scanWake
  rcases ht : s.d.pwr.nextScan with _ | n
  · exact ⟨fun _ => rfl, fun t h => by have := h.2.2.1; rw [ht] at this; cases this⟩
  dsimp only
  have hk : (s.d.glb.st == .dormant && !s.d.pwr.scanStopped && !wakeBefore s.d n) = true ↔ ScanNext s n := by
    unfold ScanNext wakeBefore
    rcases hw : s.d.pwr.nextWake with _ | w <;> simp [ht, and_assoc]
  refine ⟨fun h => if_neg (fun x => h n (hk.1 x)), fun t h => ?_⟩
  have e : t = n := by have := h.2.2.1; rw [ht] at this; cases this; rfl
  subst e
  rw [if_pos (hk.2 h)]
  refine ⟨fun e => by rw [e], fun x e => ?_⟩
  rw [e]
  dsimp only
  have hj : ((x.toRun && x.at_ == s.d.tim.acc && wakeStart s.c s.d (t * 1000) == x.at_ && decide (x.at_ < accOfMs (t * 1000 - 4) + tickInc s.c s.d)) = true) ↔
    (x.toRun = true ∧ x.at_ = s.d.tim.acc ∧ wakeStart s.c s.d (t * 1000) = x.at_ ∧ x.at_ < accOfMs (t * 1000 - 4) + tickInc s.c s.d) := by
      simp [and_assoc]
  exact ⟨fun j => if_pos (hj.2 j), fun j => if_neg (fun x => j (hj.1 x))⟩

/-- A timed wake that no scheduled scan precedes or meets (R87). -/
def WakeNext (s : State) (w : Nat) : Prop :=
  s.d.glb.st = .dormant ∧ s.d.pwr.start = none ∧ s.d.pwr.nextWake = some w ∧
    ∀ t, s.d.pwr.nextScan = some t → s.d.pwr.scanStopped = false → wakeMs w < t * 1000

theorem timedWake_cases (s : State) :
    ((∀ w, ¬ WakeNext s w) → timedWake s.c s.d = s.d) ∧
    ∀ w, WakeNext s w → timedWake s.c s.d = startClocks true 0x82 (some (wakeMs w)) (s.d.goTo s.c (accOfMs (wakeMs w - 4))) := by
  unfold timedWake
  rcases hw : s.d.pwr.nextWake with _ | n
  · exact ⟨fun _ => rfl, fun w h => by have := h.2.2.1; rw [hw] at this; cases this⟩
  dsimp only
  have hk : (s.d.glb.st == .dormant && s.d.pwr.start.isNone && !scanBy s.d (wakeMs n)) = true ↔ WakeNext s n := by
    unfold WakeNext scanBy
    rcases hs : s.d.pwr.nextScan with _ | t
    · simp [hw]
    · cases s.d.pwr.scanStopped <;> simp [hw, and_assoc]
  refine ⟨fun h => if_neg (fun x => h n (hk.1 x)), fun w h => ?_⟩
  have e : w = n := by have := h.2.2.1; rw [hw] at this; cases this; rfl
  subst e
  exact if_pos (hk.2 h)

theorem dioWoke_fld (c : Cfg) (d : Dyn) : ∃ f, dioWoke c d = { d with fld := f } := by
  have loop : ∀ (l : List Nat) (g : Nat → Dyn → Dyn) (e : Dyn), (∃ f, e = { d with fld := f }) → (∀ k e, ∃ f, g k e = { e with fld := f }) →
      ∃ f, forEach l e g = { d with fld := f } := fun l g e he h =>
    forEach_keeps (fun e : Dyn => ∃ f, e = { d with fld := f }) l e g (fun k e ⟨f, hf⟩ => by
      obtain ⟨f', hf'⟩ := h k e
      exact ⟨f', by rw [hf', hf]⟩) he
  have grp : ∀ (e : Dyn) g x, ∃ f, e.setGrp g x = { e with fld := f } := fun e g x => ⟨_, rfl⟩
  have dch : ∀ (e : Dyn) k x, ∃ f, e.setDch k x = { e with fld := f } := fun e k x => ⟨_, rfl⟩
  unfold dioWoke
  exact loop _ _ _ (loop _ _ _ ⟨d.fld, rfl⟩ (fun g e => grp e g _)) (fun k e => dch e k _)

theorem startClocks_eq (r : Bool) (cause : Nat) (f : Option Nat) (d x : Dyn) (h : x.pwr = d.pwr) :
    startClocks r cause f x = { x with pwr := { d.pwr with start := some { toRun := r, cause := cause, at_ := x.tim.acc }, firstAt := f } } := by
  unfold startClocks
  rw [h]

theorem setPending_desc (c : Cfg) (b : Nat) (d : Dyn) (m : Nat) : (setPending c b (fun _ => true) d).desc m =
    if m / 64 = b ∧ c.descEn m = true ∧ c.descExc m ≠ 0 then { d.desc m with pending := true } else d.desc m := by
  unfold setPending
  dsimp only
  generalize hks : (upFrom (64 * b) 64).filter (fun k => c.descEn k && decide (c.descExc k ≠ 0) && true) = ks
  have hm : m ∈ ks ↔ m / 64 = b ∧ c.descEn m = true ∧ c.descExc m ≠ 0 := by
    rw [← hks, List.mem_filter, upFrom_mem]
    simp
    intro _ _
    omega
  clear hks
  have h1 : (forEach ks d (fun k d => d.setDesc k { d.desc k with pending := true })).desc m = if m ∈ ks then { d.desc m with pending := true } else d.desc m := by
    clear hm
    induction ks generalizing d with
    | nil => rfl
    | cons a r ih =>
      refine (ih (d.setDesc a { d.desc a with pending := true })).trans ?_
      by_cases e : m = a
      · subst e; simp
      · rw [setDesc_other _ _ _ _ e]; simp [e]
  generalize forEach ks d (fun k d => d.setDesc k { d.desc k with pending := true }) = d1 at h1
  have h2 : d1.desc m = if m / 64 = b ∧ c.descEn m = true ∧ c.descExc m ≠ 0 then { d.desc m with pending := true } else d.desc m := by
    rw [h1, if_congr hm rfl rfl]
  split
  · split
    · exact h2
    · exact h2
  · exact h2

theorem setPending_alike (c : Cfg) (b : Nat) (p : Nat → Bool) (d : Dyn) : ∃ a, setPending c b p d = { d with afe := a } := by
  unfold setPending
  dsimp only
  generalize (upFrom (64 * b) 64).filter (fun k => c.descEn k && decide (c.descExc k ≠ 0) && p k) = ks
  have h : ∃ a, forEach ks d (fun k d => d.setDesc k { d.desc k with pending := true }) = { d with afe := a } :=
    forEach_keeps (fun e : Dyn => ∃ a, e = { d with afe := a }) ks d _ (fun k e he => by obtain ⟨a, rfl⟩ := he; exact ⟨_, rfl⟩) ⟨d.afe, rfl⟩
  obtain ⟨a, h⟩ := h
  rw [h]
  split
  · split
    · exact ⟨_, rfl⟩
    · exact ⟨a, rfl⟩
  · exact ⟨a, rfl⟩

theorem pendingAll (c : Cfg) (l : List Nat) (d : Dyn) : (∃ a, forEach l d (fun b d => setPending c b (fun _ => true) d) = { d with afe := a }) ∧
    ∀ m, (forEach l d (fun b d => setPending c b (fun _ => true) d)).desc m =
      if m / 64 ∈ l ∧ c.descEn m = true ∧ c.descExc m ≠ 0 then { d.desc m with pending := true } else d.desc m := by
  induction l generalizing d with
  | nil => exact ⟨⟨d.afe, rfl⟩, fun m => by simp [forEach]⟩
  | cons b r ih =>
    obtain ⟨⟨a, ha⟩, h⟩ := ih (setPending c b (fun _ => true) d)
    refine ⟨?_, fun m => (h m).trans ?_⟩
    · obtain ⟨a', ha'⟩ := setPending_alike c b (fun _ => true) d
      exact ⟨a, ha.trans (by rw [ha'])⟩
    · rw [setPending_desc]
      by_cases h1 : c.descEn m = true ∧ c.descExc m ≠ 0
      · by_cases h2 : m / 64 = b
        · by_cases h3 : m / 64 ∈ r
          · rw [if_pos ⟨h3, h1⟩, if_pos ⟨h2, h1⟩, if_pos ⟨List.mem_cons_of_mem _ h3, h1⟩]
          · rw [if_neg (fun h => h3 h.1), if_pos ⟨h2, h1⟩, if_pos ⟨by simp [h2], h1⟩]
        · rw [if_neg (c := m / 64 = b ∧ _) (fun h => h2 h.1)]
          exact if_congr (by simp [h2]) rfl rfl
      · rw [if_neg (fun h => h1 h.2), if_neg (fun h => h1 h.2), if_neg (fun h => h1 h.2)]

/-- The start of the fast clocks (R82, R85): up to the late records and a late or failed start, what comes before the entry. -/
theorem awake_facts (c : Cfg) (us : Nat) (d : Dyn) :
    let e := startLate c us (raiseLate c d)
    (∃ h, e.glb = { d.glb with haltCause := h }) ∧ e.tim.acc = d.tim.acc ∧ e.tim.ofs = d.tim.ofs ∧ e.tim.epoch = d.tim.epoch ∧
      ∃ r i h x a b, e.pwr = { d.pwr with runCond := r, interval := i, holdMs := h, rst := x, xt25 := a, rc := b } := by
  intro e
  obtain ⟨⟨h, hg⟩, a, o, ep, ⟨r, i, hm, x, hp⟩⟩ := raiseLate_g c d
  obtain ⟨⟨h', hg'⟩, ht, ⟨r', x25, rc, hp'⟩, _⟩ := startLate_facts c us (raiseLate c d)
  exact ⟨⟨h', by rw [hg', hg]⟩, by rw [ht]; exact a, by rw [ht]; exact o, by rw [ht]; exact ep, r', i, hm, x, x25, rc, by rw [hp', hp]⟩

theorem Entered.from {st : DevState} {cause : Nat} {d e g : Dyn} (hg : ∃ h, e.glb = { d.glb with haltCause := h }) (ha : e.tim.acc = d.tim.acc)
    (ho : e.tim.ofs = d.tim.ofs) (hp : e.tim.epoch = d.tim.epoch) (k : Entered st cause e g) : Entered st cause d g := by
  obtain ⟨h, hg⟩ := hg
  exact ⟨k.1, k.2.1, k.2.2.1.trans (by rw [hg]), k.2.2.2.1.trans ha, k.2.2.2.2.1.trans ho, k.2.2.2.2.2.1.trans hp, k.2.2.2.2.2.2⟩

theorem dioWoke_late (c : Cfg) (d : Dyn) : (dioWoke c d).fld.late = d.fld.late := by
  unfold dioWoke
  refine (forEach_same (fun e : Dyn => e.fld.late) _ _ _ (fun k e => ?_)).trans (forEach_same (fun e : Dyn => e.fld.late) _ _ _ (fun g e => ?_))
  · rfl
  · rfl

theorem goTo_same (c : Cfg) (d : Dyn) (n : Nat) : (d.goTo c n).glb = d.glb ∧ (d.goTo c n).pwr = d.pwr ∧ (d.goTo c n).fld = d.fld ∧ (d.goTo c n).flt = d.flt :=
  ⟨rfl, rfl, rfl, rfl⟩

theorem clocksUp_facts (c : Cfg) (us : Nat) (st : Starting) (d d0 : Dyn) (h : d.goTo c (st.at_ + us * 2 ^ 48 / 1000000) = d0) :
    ∃ f p fa, clocksUp c us st d = { d0 with fld := f, pair := p, pwr := { d0.pwr with slow := false, woke := true, firstAt := fa } } ∧ f.late = d0.fld.late := by
  obtain ⟨f, hf⟩ := dioWoke_fld c d0
  have hl := dioWoke_late c d0
  rw [hf] at hl
  unfold clocksUp
  rw [h]
  dsimp only
  rw [hf]
  exact ⟨_, _, _, rfl, hl⟩

/-- Out of DORMANT into RUN (R82, R85, R87). -/
theorem awake_run (us : Nat) (s : State) (st : Starting) (d0 : Dyn) (h0 : s.d.goTo s.c (st.at_ + us * 2 ^ 48 / 1000000) = d0)
    (h1 : s.d.glb.st = .dormant) (h2 : s.d.pwr.start = some st) (h3 : st.toRun = true) :
    let t := (fastClocksRunning us s).d
    Entered .run st.cause d0 t ∧ t.pwr.slow = false ∧ t.pwr.start = none ∧ t.pwr.woke = true := by
  unfold fastClocksRunning
  rw [h1, h2]
  dsimp only
  rw [if_pos h3]
  obtain ⟨f, p, fa, e, _⟩ := clocksUp_facts s.c us st s.d d0 h0
  have hp : (clocksUp s.c us st s.d).pwr = { d0.pwr with slow := false, woke := true, firstAt := fa } := by rw [e]
  have hg : (clocksUp s.c us st s.d).glb = d0.glb ∧ (clocksUp s.c us st s.d).tim = d0.tim := by rw [e]; exact ⟨rfl, rfl⟩
  generalize clocksUp s.c us st s.d = d1 at *
  clear e
  obtain ⟨⟨h, a⟩, b, o, ep, r, i, hm, x, x25, rc, q⟩ := awake_facts s.c us d1
  generalize startLate s.c us (raiseLate s.c d1) = d2 at *
  have k := enterRun_entered st.cause { s with d := { d2 with pwr := { d2.pwr with start := none } } }
  obtain ⟨r', i', h', x', w⟩ := enterRun_pwr st.cause { s with d := { d2 with pwr := { d2.pwr with start := none } } }
  generalize enterRun st.cause { s with d := { d2 with pwr := { d2.pwr with start := none } } } = z at k w ⊢
  refine ⟨Entered.from (e := { d2 with pwr := { d2.pwr with start := none } }) ⟨h, by rw [← hg.1]; exact a⟩
    (b.trans (by rw [hg.2])) (o.trans (by rw [hg.2])) (ep.trans (by rw [hg.2])) k, ?_, ?_, ?_⟩
  · rw [w]; show d2.pwr.slow = false; rw [q, hp]
  · rw [w]
  · rw [w]; show d2.pwr.woke = true; rw [q, hp]

theorem measureEntry_scan (c : Cfg) (d : Dyn) : ∃ a, measureEntry c true d = { d with afe := a } := by
  have loop : ∀ (l : List Nat) (g : Nat → Dyn → Dyn) (e : Dyn), (∀ k e, ∃ a, g k e = { e with afe := a }) → ∃ a, forEach l e g = { e with afe := a } := fun l g e h =>
    forEach_keeps (fun x : Dyn => ∃ a, x = { e with afe := a }) l e g (fun k x ⟨f, hf⟩ => by
      obtain ⟨f', hf'⟩ := h k x
      exact ⟨f', by rw [hf', hf]⟩) ⟨e.afe, rfl⟩
  refine loop _ _ _ (fun b e => ?_)
  unfold bankEntry
  extract_lets d1 x x1
  obtain ⟨a, ha⟩ : ∃ a, d1 = { e with afe := a } := loop _ _ _ (fun k e => ⟨_, rfl⟩)
  clear_value x1 x d1
  obtain ⟨a', h'⟩ := setPending_alike c b (fun _ => true) (d1.setBank b x1)
  exact ⟨a', h'.trans (by rw [ha]; rfl)⟩

/-- Out of DORMANT into a scan burst (R82, R85, R86, R95). -/
theorem awake_scan (us : Nat) (s : State) (st : Starting) (d0 : Dyn) (h0 : s.d.goTo s.c (st.at_ + us * 2 ^ 48 / 1000000) = d0)
    (h1 : s.d.glb.st = .dormant) (h2 : s.d.pwr.start = some st) (h3 : st.toRun = false) :
    ∃ t, fastClocksRunning us s = { s with d := t } ∧ t.glb.st = .scan ∧ t.glb.lastCause = st.cause ∧
      t.tim.acc = d0.tim.acc ∧ t.pwr.slow = false ∧ t.pwr.start = none ∧ t.pwr.burst = .scanning ∧
      t.pwr.burstRef = st.at_ ∧ t.pwr.scanCount = (s.d.pwr.scanCount + 1) % 2 ^ 32 ∧
      (s.d.fld.late = [] → s.d.flt.find 0 = none → (3300 < us → us ≤ 10000 → ∃ r, t.flt.find 0 = some r ∧ r.code = 0x65 ∧ r.sev = 1) ∧
        (10000 < us → s.d.pwr.xt25 = true → s.d.pwr.resetFrom = none → ∃ r, t.flt.find 0 = some r ∧ r.code = 0x60 ∧ r.sev = 4)) := by
  obtain ⟨f, p, fa, e, hl⟩ := clocksUp_facts s.c us st s.d d0 h0
  have z : d0.glb = s.d.glb ∧ d0.pwr = s.d.pwr ∧ d0.fld = s.d.fld ∧ d0.flt = s.d.flt := by rw [← h0]; exact goTo_same _ _ _
  clear h0
  generalize hsc : (s.d.pwr.scanCount + 1) % 2 ^ 32 = sc
  unfold fastClocksRunning
  rw [h1, h2]
  dsimp only
  rw [if_neg (by simp [h3])]
  have hp : (clocksUp s.c us st s.d).pwr = { s.d.pwr with slow := false, woke := true, firstAt := fa } := by rw [e, z.2.1]
  have hg : (clocksUp s.c us st s.d).glb = s.d.glb ∧ (clocksUp s.c us st s.d).tim = d0.tim ∧ (clocksUp s.c us st s.d).fld.late = s.d.fld.late ∧
      (clocksUp s.c us st s.d).flt = s.d.flt := by
    rw [e]; exact ⟨z.1, rfl, hl.trans (by rw [z.2.2.1]), z.2.2.2⟩
  generalize clocksUp s.c us st s.d = d1 at *
  clear e
  unfold burstBegin
  extract_lets d2 src d3 d4 src' d5
  obtain ⟨x, hx⟩ := toState_spec d1 .scan st.cause
  have p3 : d3.pwr = { s.d.pwr with slow := false, woke := true, firstAt := fa, burst := .scanning, burstRef := st.at_, start := none, scanCount := sc } := by
    simp only [d3, src, d2, hx, hp, hsc]
  have g3 : d3.glb.st = .scan ∧ d3.glb.lastCause = st.cause ∧ d3.tim = d1.tim ∧ d3.fld = d1.fld ∧ d3.flt = d1.flt := by
    simp only [d3, d2, hx]; exact ⟨trivial, trivial, trivial, trivial, trivial⟩
  clear_value d3
  have A := awake_facts s.c us d3
  have F := (startLate_facts s.c us (raiseLate s.c d3)).2.2.2.2
  have hr : d3.fld.late = [] → (raiseLate s.c d3).flt = d3.flt ∧ (raiseLate s.c d3).pwr = d3.pwr ∧ (raiseLate s.c d3).glb = d3.glb := fun h => by
    unfold raiseLate
    simp only [h, List.foldl_nil, and_self]
  have h4 : d4 = startLate s.c us (raiseLate s.c d3) := rfl
  obtain ⟨⟨h, a⟩, b, o, ep, r, i, hm, xx, x25, rc, q⟩ := A
  rw [← h4] at F a b o ep q
  clear_value d4
  obtain ⟨af, ha⟩ := measureEntry_scan s.c d5
  have h5 : d5.pwr = d4.pwr ∧ d5.glb = d4.glb ∧ d5.tim = d4.tim ∧ d5.flt = d4.flt := ⟨rfl, rfl, rfl, rfl⟩
  clear_value d5
  refine ⟨measureEntry s.c true d5, rfl, ?_⟩
  rw [ha]
  dsimp only
  rw [h5.1, h5.2.1, h5.2.2.1, h5.2.2.2, q, a, p3]
  refine ⟨g3.1, g3.2.1, by rw [b, g3.2.2.1, hg.2.1], rfl, rfl, rfl, rfl, rfl, fun n1 n2 => ?_⟩
  have l3 : d3.fld.late = [] := by rw [g3.2.2.2.1, hg.2.2.1]; exact n1
  obtain ⟨r1, r2, r3⟩ := hr l3
  have F := F (by rw [r1, g3.2.2.2.2, hg.2.2.2]; exact n2)
  refine ⟨F.2.1, fun u v w => F.2.2 u (by rw [r2, p3]; exact v) ?_⟩
  unfold Dyn.clocked
  rw [r2, r3, p3, g3.1]
  simp [w]

theorem cellsOut (l : List Nat) (d : Dyn) (g : Nat → Dyn → Dyn) (hg : g = fun n d => d.setCell n { d.cell n with state := 3, cause := 12, got := [], dropSweep := (d.cell n).sweeping }) :
    (∃ a, forEach l d g = { d with mst := a }) ∧ ∀ n ∈ l, ((forEach l d g).cell n).state = 3 ∧ ((forEach l d g).cell n).cause = 12 := by
  have st : ∀ k t, (∃ a, g k t = { t with mst := a }) ∧ ∀ m, (g k t).cell m = if m = k then { t.cell k with state := 3, cause := 12, got := [], dropSweep := (t.cell k).sweeping } else t.cell m := by
    intro k t
    rw [hg]
    exact ⟨⟨_, rfl⟩, fun m => setCell_get _ _ _ _⟩
  clear hg
  refine ⟨forEach_keeps (fun e : Dyn => ∃ a, e = { d with mst := a }) l d g (fun k e he => by
    obtain ⟨a, rfl⟩ := he; obtain ⟨⟨b, hb⟩, _⟩ := st k { d with mst := a }; exact ⟨b, hb⟩) ⟨d.mst, rfl⟩, ?_⟩
  have pres : ∀ (l : List Nat) (d : Dyn) n, (d.cell n).state = 3 ∧ (d.cell n).cause = 12 → ((forEach l d g).cell n).state = 3 ∧ ((forEach l d g).cell n).cause = 12 := by
    intro l d n h
    exact forEach_keeps (fun e : Dyn => (e.cell n).state = 3 ∧ (e.cell n).cause = 12) l d g (fun k e he => by
      rw [(st k e).2 n]; split
      · exact ⟨rfl, rfl⟩
      · exact he) h
  induction l generalizing d with
  | nil => exact fun n hn => by cases hn
  | cons a r ih =>
    intro n hn
    rcases List.mem_cons.1 hn with rfl | hn
    · exact pres r (g n d) n (by rw [(st n d).2 n, if_pos rfl]; exact ⟨rfl, rfl⟩)
    · exact ih (g a d) n hn

theorem v33aOut_eq (s : State) (h : s.d.openCode 0 [0x63] = false) (hr : s.d.pwr.resetFrom = none) (hl : s.d.fld.late.contains (0, 0x63, 3) = false) :
    v33aOut s.c s.d = if s.d.glb.st = .dormant then { s.d with fld := { s.d.fld with late := s.d.fld.late ++ [(0, 0x63, 3)] } }
      else v33aFlag s.c (s.d.fault s.c 0 0x63 3 0 0 false false) := by
  unfold v33aOut
  rw [if_neg (by rw [h, hr, hl]; decide)]
  unfold fldFault
  by_cases hd : s.d.glb.st = .dormant <;> simp [hr, hd]

theorem v33aFlag_spec (s : State) (h2 : s.d.openCode 0 [0x63] = false) :
    let t := v33aFlag s.c (s.d.fault s.c 0 0x63 3 0 0 false false)
    (s.d.flt.find 0 = none → ∃ r, t.flt.find 0 = some r ∧ r.code = 0x63 ∧ r.sev = 3) ∧
    (∀ k, t.chan k = if k < 1024 ∧ s.c.chanEn k = true then { s.d.chan k with state := 3, cause := causeBANK, filt := false } else s.d.chan k) ∧
    (∀ n, n < s.c.fx.nCells → s.c.cellEn n = true → (t.cell n).state = 3 ∧ (t.cell n).cause = 12) ∧
    t.fld = s.d.fld ∧ t.cols = s.d.cols ∧ t.seq = s.d.seq := by
  have f1 := fault_step s.d s.c 0 0x63 3 0 0 false false
  have o1 := fault_opened s.d s.c 0 0x63 3 0 0 false false (by decide)
  generalize s.d.fault s.c 0 0x63 3 0 0 false false = d1 at *
  unfold v33aFlag
  extract_lets d2 t
  obtain ⟨c2, ch2, ff2⟩ := forEach_invalid s.c causeBANK Dyn.dioLevel ((List.range 1024).filter s.c.chanEn) d1 _ rfl
  obtain ⟨⟨a, ea⟩, ce⟩ := cellsOut ((List.range s.c.fx.nCells).filter s.c.cellEn) d2 _ rfl
  have ce : ∀ n, n < s.c.fx.nCells → s.c.cellEn n = true → (t.cell n).state = 3 ∧ (t.cell n).cause = 12 := fun n h1 h2 => ce n (by simp [h1, h2])
  have ht : t = { d2 with mst := a } := ea
  clear_value t
  have b1 := Alike.blocks (t := { d1 with }) f1.alike
  have cc : ∀ k, d1.chan k = s.d.chan k := fun k => f1.grd.sw.chan k
  refine ⟨fun h0 => ?_, fun k => ?_, fun n h1 h2 => ?_, ?_⟩
  · have e := (ff2 (by decide) 0 (by decide)).trans (o1.1 h0)
    refine ⟨_, (show t.flt.find 0 = d2.flt.find 0 by rw [ht]).trans e, rfl, rfl⟩
  · have e : t.chan k = d2.chan k := by
      rw [ht]
      clear * -
      generalize d2 = y
      rfl
    rw [e]
    refine (ch2 k).trans ?_
    rw [cc k]
    exact if_congr (by simp) rfl rfl
  · exact ce n h1 h2
  · have b2 := Alike.blocks c2
    rw [ht]
    exact ⟨b2.2.2.2.2.2.2.2.1.trans b1.2.2.2.2.2.2.2.1, b2.2.2.2.2.2.2.1.trans b1.2.2.2.2.2.2.1, b2.2.2.2.2.2.2.2.2.2.1.trans b1.2.2.2.2.2.2.2.2.2.1⟩

/-- The first cause stands (R20, R89): a HALT that has been raised and a run condition that has been found are kept. -/
def Req (d e : Dyn) : Prop := (∀ h, d.glb.haltCause = some h → e.glb.haltCause = some h) ∧ ∀ r, d.pwr.runCond = some r → e.pwr.runCond = some r

theorem Req.of {d e : Dyn} (h : e.glb = d.glb) (g : e.pwr = d.pwr) : Req d e := ⟨fun _ k => by rw [h]; exact k, fun _ k => by rw [g]; exact k⟩

theorem Req.trans {a b c : Dyn} (h : Req a b) (g : Req b c) : Req a c := ⟨fun x k => g.1 x (h.1 x k), fun x k => g.2 x (h.2 x k)⟩

theorem sevAction_req (d : Dyn) (sev code : Nat) : Req d (d.sevAction sev code) := by
  unfold Dyn.sevAction
  split
  · exact ⟨fun h k => by simp [k], fun _ k => k⟩
  · split
    · exact ⟨fun _ k => k, fun h k => by simp [k]⟩
    · exact Req.of rfl rfl

theorem Req.put (d : Dyn) (f : Flt) : Req d { d with flt := f } := Req.of rfl rfl

theorem noted_req (d : Dyn) (c : Cfg) (code sev : Nat) : Req d (d.noted c code sev) := by
  unfold Dyn.noted
  refine .trans ?_ (sevAction_req _ _ _)
  dsimp only
  split
  · exact Req.of rfl rfl
  · exact Req.put d _

theorem fault1_req (d : Dyn) (c : Cfg) (src code sev a b : Nat) (x y : Bool) : Req d (d.fault1 c src code sev a b x y).1 := by
  unfold Dyn.fault1
  split
  · exact ((Req.put d _).trans (noted_req _ _ _ _)).trans (Req.put _ _)
  · lift_lets
    extract_lets
    split
    · exact ((Req.put d _).trans (noted_req _ _ _ _)).trans (Req.put _ _)
    · exact Req.put d _

theorem fault_req (d : Dyn) (c : Cfg) (src code sev a b : Nat) (x y : Bool) : Req d (d.fault c src code sev a b x y) := by
  have h := fault1_req d c src code sev a b x y
  unfold Dyn.fault
  generalize d.fault1 c src code sev a b x y = z at h
  obtain ⟨d1, dropped⟩ := z
  dsimp only
  split
  · exact (h.trans (Req.put d1 _)).trans (fault1_req _ _ _ _ _ _ _ _ _)
  · exact h

theorem clears_req (d : Dyn) (src : Nat) (l : List Nat) : Req d (d.clears src l) := by
  obtain ⟨f, h, _⟩ := clears_flt d src l
  rw [h]; exact Req.of rfl rfl

theorem Req.each {g : Nat → Dyn → Dyn} (l : List Nat) (d : Dyn) (h : ∀ k t, Req t (g k t)) : Req d (forEach l d g) :=
  forEach_keeps (Req d) l d g (fun k s hs => hs.trans (h k s)) (Req.of rfl rfl)

theorem setDtab_parts (d : Dyn) (t : Nat) (x : DTab) : GKeeps d (d.setDtab t x) ∧ Req d (d.setDtab t x) := ⟨GKeeps.of rfl rfl rfl, Req.of rfl rfl⟩

theorem tableEval_keeps (c : Cfg) (src : Nat → Nat → Option Int) (t : Nat) (d : Dyn) : GKeeps d (tableEval c src t d) ∧ Req d (tableEval c src t d) := by
  unfold tableEval
  extract_lets nn ra rb a b y
  generalize a = a'
  generalize b = b'
  split
  · extract_lets
    have h := fun x => setDtab_parts d t x
    exact ⟨(h _).1.trans (clears_g _ _ _), (h _).2.trans (clears_req _ _ _)⟩
  · have h := setDtab_parts d t { y with lost := true }
    exact ⟨h.1.trans (fault_g _ _ _ _ _ _ _ _ _), h.2.trans (fault_req _ _ _ _ _ _ _ _ _)⟩

theorem tablesEval_keeps (c : Cfg) (src : Nat → Nat → Option Int) (d : Dyn) : GKeeps d (tablesEval c src d) ∧ Req d (tablesEval c src d) :=
  ⟨GKeeps.each _ _ (fun t e => (tableEval_keeps c src t e).1), Req.each _ _ (fun t e => (tableEval_keeps c src t e).2)⟩

theorem scanRecords_arc (c : Cfg) (d : Dyn) : ∃ x, scanRecords c d = { d with arc := x } := by
  have go : ∀ (entry : Nat → List Byte) (n : Nat) (l : List Nat) (d : Dyn), ∃ x, scanRecords.go entry n l d = { d with arc := x } := by
    intro entry n
    induction n with
    | zero => exact fun _ d => ⟨d.arc, rfl⟩
    | succ n ih =>
      intro l d
      unfold scanRecords.go
      split
      · exact ⟨d.arc, rfl⟩
      · dsimp only
        obtain ⟨x, hx⟩ := ledger_arc d 6 3 (leBytes 2 (l.take 507).length ++ [0, 0] ++ ((l.take 507).map entry).flatten)
        obtain ⟨y, hy⟩ := ih (l.drop 507) (d.ledger 6 3 (leBytes 2 (l.take 507).length ++ [0, 0] ++ ((l.take 507).map entry).flatten))
        exact ⟨y, hy.trans (by rw [hx])⟩
  unfold scanRecords
  exact go _ _ _ _

/-- The end of a burst's measurement: its length, the count of overruns and their record (R86, R95, R96). -/
theorem burstDone_facts (c : Cfg) (d : Dyn) :
    let len := min ((d.tim.acc - d.pwr.burstRef) * 100000 / 2 ^ 48) 1048575
    let t := burstDone c d
    (∃ h, t.glb = { d.glb with haltCause := h }) ∧ t.tim = d.tim ∧
    (∃ r, t.pwr = { d.pwr with burstLast := len, overruns := if 200000 < len then satInc 8 d.pwr.overruns else d.pwr.overruns, runCond := r }) ∧
    (200000 < len → d.flt.find 0 = none → ∃ r, t.flt.find 0 = some r ∧ r.code = 0x64 ∧ r.sev = 1) := by
  intro len t
  have hl : burstLen d = len := rfl
  have e : t = burstDone c d := rfl
  unfold burstDone at e
  rw [hl] at e
  clear_value t len
  dsimp only at e
  by_cases h : 200000 < len
  · rw [if_pos (by simpa using h), if_pos (by simpa using h)] at e
    have o := fault_opened ({ d with pwr := { d.pwr with burstLast := len, overruns := satInc 8 d.pwr.overruns } } : Dyn) c 0 0x64 1 0 0 true true (by decide)
    obtain ⟨_, _, _, _, _, w⟩ := fault_step ({ d with pwr := { d.pwr with burstLast := len, overruns := satInc 8 d.pwr.overruns } } : Dyn) c 0 0x64 1 0 0 true true
    rw [w] at o e
    rw [e, if_pos h]
    exact ⟨⟨_, rfl⟩, rfl, ⟨_, rfl⟩, fun _ hf => ⟨_, o.1 hf, rfl, rfl⟩⟩
  · rw [if_neg (by simpa using h), if_neg (by simpa using h)] at e
    rw [e, if_neg h]
    exact ⟨⟨_, rfl⟩, rfl, ⟨_, rfl⟩, fun x => absurd x h⟩

/-- What is common to the ends of a burst in SAFE, RUN and DORMANT: the entry, and the burst's length and the overruns of the burst. -/
def BurstOver (st : DevState) (cause : Nat) (d t : Dyn) : Prop :=
  let len := min ((d.tim.acc - d.pwr.burstRef) * 100000 / 2 ^ 48) 1048575
  Entered st cause d t ∧ t.pwr.burst = .none ∧ t.pwr.burstLast = len ∧ t.pwr.overruns = if 200000 < len then satInc 8 d.pwr.overruns else d.pwr.overruns

theorem burstSafe (c : Cfg) (h : Nat) (d e : Dyn) (he : e = burstDone c d ∨ ∃ r, e = discard r (burstDone c d)) : BurstOver .safe h d (enterSafe c h e) := by
  obtain ⟨⟨x, hx⟩, ht, ⟨r, hp⟩, _⟩ := burstDone_facts c d
  have g : (∃ x, e.glb = { d.glb with haltCause := x }) ∧ e.tim = d.tim ∧ e.pwr = (burstDone c d).pwr := by
    rcases he with he | ⟨q, he⟩
    · rw [he]; exact ⟨⟨x, hx⟩, ht, rfl⟩
    · rw [he, discard_arc]; exact ⟨⟨x, hx⟩, ht, rfl⟩
  have k := enterSafe_entered c h e
  obtain ⟨_, _, _, _, p⟩ := enterSafe_pwr c h e
  exact ⟨Entered.from g.1 (by rw [g.2.1]) (by rw [g.2.1]) (by rw [g.2.1]) k, by rw [p], by rw [p, g.2.2, hp], by rw [p, g.2.2, hp]⟩

theorem burstRun (r : Nat) (s : State) : BurstOver .run r s.d (enterRun r { s with d := burstDone s.c s.d }).d := by
  obtain ⟨g, ht, ⟨q, hp⟩, _⟩ := burstDone_facts s.c s.d
  have k := enterRun_entered r { s with d := burstDone s.c s.d }
  obtain ⟨_, _, _, _, p⟩ := enterRun_pwr r { s with d := burstDone s.c s.d }
  dsimp only at p
  rw [hp] at p
  refine ⟨Entered.from (e := burstDone s.c s.d) g (by rw [ht]) (by rw [ht]) (by rw [ht]) k, by rw [p], by rw [p], by rw [p]⟩

theorem burstExit_cases (s : State) :
    let run := s.d.pwr.runCond.orElse (fun _ => levelCause s.c s.d)
    (∀ h, s.d.glb.haltCause = some h → ∃ t, burstExit s = some { s with d := t } ∧ BurstOver .safe h s.d t) ∧
    (∀ r, s.d.glb.haltCause = none → run = some r → ∃ t, burstExit s = some t ∧ BurstOver .run r s.d t.d) ∧
    (s.d.glb.haltCause = none → run = none → burstExit s = none) := by
  intro run
  refine ⟨fun h e => ?_, fun r e q => ?_, fun e q => ?_⟩
  · rcases q : run with _ | r
    · refine ⟨enterSafe s.c h (burstDone s.c s.d), ?_, burstSafe s.c h s.d _ (.inl rfl)⟩
      unfold burstExit; dsimp only; rw [e, show s.d.pwr.runCond.orElse (fun _ => levelCause s.c s.d) = none from q]
    · refine ⟨enterSafe s.c h (discard r (burstDone s.c s.d)), ?_, burstSafe s.c h s.d _ (.inr ⟨r, rfl⟩)⟩
      unfold burstExit; dsimp only; rw [e, show s.d.pwr.runCond.orElse (fun _ => levelCause s.c s.d) = some r from q]
  · refine ⟨enterRun r { s with d := burstDone s.c s.d }, ?_, burstRun r s⟩
    unfold burstExit; dsimp only; rw [e, show s.d.pwr.runCond.orElse (fun _ => levelCause s.c s.d) = some r from q]
  · unfold burstExit; dsimp only; rw [e, show s.d.pwr.runCond.orElse (fun _ => levelCause s.c s.d) = none from q]

theorem scanListComplete_spec (s : State) (h1 : s.d.glb.st = .scan) (h2 : s.d.pwr.burst = .scanning) :
    let t := scanListComplete s
    t.d.tim.acc = s.d.tim.acc ∧ ((t.d.glb.st = .scan ∧ t.d.pwr.burst = .listDone ∧ t.c = s.c) ∨ t.d.glb.st = .safe ∨ t.d.glb.st = .run) ∧
    (levelCause s.c s.d ≠ none → t.d.glb.st ≠ .scan) ∧
    (∀ r, s.d.pwr.runCond = some r → (t.d.glb.st = .run ∧ t.d.glb.lastCause = r) ∨ t.d.glb.st = .safe) ∧
    (∀ h, s.d.glb.haltCause = some h → t.d.glb.st = .safe ∧ t.d.glb.lastCause = h) := by
  unfold scanListComplete
  rw [if_pos ⟨h1, h2⟩]
  extract_lets c d0 d1 trip src d2 src' d3 src'' s1 t
  have k0 : GKeeps s.d d0 ∧ Req s.d d0 := ⟨GKeeps.of rfl rfl rfl, Req.of rfl rfl⟩
  have k1 : GKeeps d0 d1 ∧ Req d0 d1 := by
    have h := tablesEval_keeps c (srcVal c d0.frozen) d0
    obtain ⟨x, hx⟩ := scanRecords_arc c (tablesEval c (srcVal c d0.frozen) d0)
    have e : d1 = { tablesEval c (srcVal c d0.frozen) d0 with arc := x } := hx
    rw [e]
    exact ⟨h.1.trans (GKeeps.of rfl rfl rfl), h.2.trans (Req.of rfl rfl)⟩
  have put : ∀ (d : Dyn) (b : Bool) n, GKeeps d (if (b && d.pwr.runCond.isNone) = true then { d with pwr := { d.pwr with runCond := some n } } else d) ∧
      Req d (if (b && d.pwr.runCond.isNone) = true then { d with pwr := { d.pwr with runCond := some n } } else d) := fun d b n => by
    split
    · rename_i hb
      refine ⟨GKeeps.pw rfl rfl ⟨_, _, _, _, rfl⟩, fun _ k => k, fun r k => ?_⟩
      rw [k] at hb
      simp at hb
    · exact ⟨GKeeps.rfl, Req.of rfl rfl⟩
  have k2 : GKeeps d1 d2 ∧ Req d1 d2 := put d1 trip 0xD060
  have k3 : GKeeps d2 d3 ∧ Req d2 d3 := put d2 (fanDisagrees c d2) 0x85
  have k : GKeeps s.d d3 ∧ Req s.d d3 := ⟨((k0.1.trans k1.1).trans k2.1).trans k3.1, ((k0.2.trans k1.2).trans k2.2).trans k3.2⟩
  clear k0 k1 k2 k3 put
  have hs : s1.c = s.c ∧ s1.d.glb = d3.glb ∧ s1.d.tim = d3.tim ∧ s1.d.pwr.runCond = d3.pwr.runCond ∧ s1.d.pwr.burst = .listDone ∧
      s1.d.pwr.wakeLow = d3.pwr.wakeLow ∧ s1.d.pwr.xt32 = d3.pwr.xt32 := ⟨rfl, rfl, rfl, rfl, rfl, rfl, rfl⟩
  have ht : t = (burstExit s1).getD s1 := rfl
  clear_value t s1 d3
  have hlev : levelCause s1.c s1.d = levelCause s.c s.d := by
    obtain ⟨_, _, _, _, q⟩ := k.1.pwr
    unfold levelCause
    rw [hs.1, hs.2.2.2.2.2.1, hs.2.2.2.2.2.2, q]
  have acc : s1.d.tim.acc = s.d.tim.acc := by rw [hs.2.2.1]; exact k.1.2.1
  have hst : s1.d.glb.st = .scan := by rw [hs.2.1]; exact k.1.st.trans h1
  have kh : ∀ h, s.d.glb.haltCause = some h → s1.d.glb.haltCause = some h := fun h e => by rw [hs.2.1]; exact k.2.1 h e
  have kr : ∀ r, s.d.pwr.runCond = some r → s1.d.pwr.runCond = some r := fun r e => by rw [hs.2.2.2.1]; exact k.2.2 r e
  obtain ⟨x1, x2, x3⟩ := burstExit_cases s1
  rcases hh : s1.d.glb.haltCause with _ | h
  · have noh : ∀ h, s.d.glb.haltCause ≠ some h := fun h e => by have := kh h e; rw [hh] at this; cases this
    rcases hr : s1.d.pwr.runCond.orElse (fun _ => levelCause s1.c s1.d) with _ | r
    · rw [ht, x3 hh hr]
      have hz : s1.d.pwr.runCond = none ∧ levelCause s1.c s1.d = none := by
        rcases e : s1.d.pwr.runCond with _ | y
        · rw [e] at hr; exact ⟨rfl, hr⟩
        · rw [e] at hr; cases hr
      refine ⟨acc, Or.inl ⟨hst, hs.2.2.2.2.1, hs.1⟩, fun e => absurd (hlev.symm.trans hz.2) e, fun r e => ?_, fun h e => absurd e (noh h)⟩
      have := kr r e
      rw [hz.1] at this
      cases this
    · obtain ⟨z, q, e⟩ := x2 r hh hr
      rw [ht, q]
      refine ⟨e.1.2.2.2.1.trans acc, Or.inr (Or.inr e.1.1), fun _ => ?_, fun r' w => Or.inl ⟨e.1.1, ?_⟩, fun h e => absurd e (noh h)⟩
      · show z.d.glb.st ≠ _
        rw [e.1.1]; decide
      · have := kr r' w
        rw [this] at hr
        cases hr
        exact e.1.2.1
  · obtain ⟨z, q, e⟩ := x1 h hh
    rw [ht, q]
    refine ⟨e.1.2.2.2.1.trans acc, Or.inr (Or.inl e.1.1), fun _ => ?_, fun _ _ => Or.inr e.1.1, fun h' w => ?_⟩
    · show z.glb.st ≠ _
      rw [e.1.1]; decide
    · have := kh h' w
      rw [hh] at this
      cases this
      exact ⟨e.1.1, e.1.2.1⟩

theorem trcLeaveRun_fld (d : Dyn) : (trcLeaveRun d).fld = d.fld ∧ (trcLeaveRun d).flt.find 0 = d.flt.find 0 := by
  unfold trcLeaveRun
  refine forEach_keeps (fun e : Dyn => e.fld = d.fld ∧ e.flt.find 0 = d.flt.find 0) _ _ _ (fun k e he => ?_) ⟨rfl, rfl⟩
  split
  · unfold trcStop
    have h1 : (e.setTrc k { e.trc k with state := 5, cause := 2, force := false }).fld = e.fld ∧ (e.setTrc k { e.trc k with state := 5, cause := 2, force := false }).flt = e.flt := ⟨rfl, rfl⟩
    generalize e.setTrc k { e.trc k with state := 5, cause := 2, force := false } = y at h1
    refine ⟨((event_step y _ _ _ _ _).same.2.2.2.2.2.2.2.1.trans h1.1).trans he.1, (event_find y _ _ _ _ _ 0).trans (by rw [h1.2]; exact he.2)⟩
  · exact he

theorem sendHolds_grp (c : Cfg) (d : Dyn) (g : Nat) (hg : g < 6) (he : c.grpEn g = true) : ((sendHolds c d).grp g).holding = true := by
  unfold sendHolds
  extract_lets t w ms src d1
  clear_value d1
  have key : ∀ (l : List Nat) (e : Dyn), (g ∈ l ∨ (e.grp g).holding = true) →
      ((forEach l e (fun g d => if c.grpEn g then d.setGrp g { d.grp g with holding := true } else d)).grp g).holding = true := by
    intro l
    induction l with
    | nil => exact fun e h => h.resolve_left (by simp)
    | cons a r ih =>
      intro e h
      refine ih _ ?_
      by_cases ha : g = a
      · right; subst ha; simp [he]
      · rcases h with h | h
        · exact .inl ((List.mem_cons.1 h).resolve_left ha)
        · right
          dsimp only
          split
          · simp [ha, h]
          · exact h
  exact key _ _ (.inl (by simp; omega))

theorem heldOutputs_same (d : Dyn) : (heldOutputs d).pwr = d.pwr ∧ (heldOutputs d).flt = d.flt := by
  have loop : ∀ (l : List Nat) (g : Nat → Dyn → Dyn) (e : Dyn), (∀ k e, (g k e).pwr = e.pwr ∧ (g k e).flt = e.flt) →
      (forEach l e g).pwr = e.pwr ∧ (forEach l e g).flt = e.flt := fun l g e h =>
    forEach_keeps (fun x : Dyn => x.pwr = e.pwr ∧ x.flt = e.flt) l e g (fun k x hx => ⟨(h k x).1.trans hx.1, (h k x).2.trans hx.2⟩) ⟨rfl, rfl⟩
  have lp : ∀ (e : Dyn) n x, (e.setLp n x).pwr = e.pwr ∧ (e.setLp n x).flt = e.flt := fun e n x => ⟨rfl, rfl⟩
  have ovr : ∀ (e : Dyn) n x, (e.setOvr n x).pwr = e.pwr ∧ (e.setOvr n x).flt = e.flt := fun e n x => ⟨rfl, rfl⟩
  have h1 := loop (List.range 64) (fun n e => e.setLp n { e.lp n with u := (tget LoopS.empty d.snap.loops n).u }) d (fun k e => lp e k _)
  have h2 := loop (List.range 8) (fun g e => e.setOvr g { e.ovr g with u := (tget Ovr.empty d.snap.ovrs g).u })
    (forEach (List.range 64) d (fun n e => e.setLp n { e.lp n with u := (tget LoopS.empty d.snap.loops n).u })) (fun k e => ovr e k _)
  exact ⟨h2.1.trans h1.1, h2.2.trans h1.2⟩

/-- What an entry to DORMANT leaves beside the transition (R26, R83, R86, R432): the slow tick, no start and no burst, the schedule, the hold commands and the
levels looked at. `p` is the power block before. -/
theorem dormant_facts (c : Cfg) (d : Dyn) :
    let t := enterDormant c 0 d
    t.pwr.slow = true ∧ t.pwr.burst = .none ∧ t.pwr.entryAbort = none ∧ t.pwr.interval = c.scanInterval ∧ t.pwr.nextScan.isSome = true ∧
    (levelCause c d = none → t.pwr.start = none) ∧ t.pwr.burstLast = d.pwr.burstLast ∧ t.pwr.overruns = d.pwr.overruns ∧
    (∀ g, g < 6 → c.grpEn g = true → (t.grp g).holding = true) ∧ t.flt.find 0 = d.flt.find 0 := by
  intro t
  have ht : t = enterDormant c 0 d := rfl
  unfold enterDormant at ht
  clear_value t
  generalize hz : (if d.glb.st = .run then heldOutputs d else d) = z at ht
  have z1 : z.pwr = d.pwr ∧ z.flt = d.flt := by
    rw [← hz]; split
    · exact heldOutputs_same d
    · exact ⟨rfl, rfl⟩
  have sh : ∀ g, g < 6 → c.grpEn g = true → ((sendHolds c z).grp g).holding = true := sendHolds_grp c z
  have sp := (sendHolds_g c z).pwr
  have sf : (sendHolds c z).flt = z.flt := by
    unfold sendHolds
    extract_lets t w ms src d1
    exact (forEach_same (fun e : Dyn => e.flt) _ _ _ (fun k e => by dsimp only; split <;> rfl))
  generalize sendHolds c z = y at ht sh sp sf
  have lf := trcLeaveRun_fld y
  have lp := (trcLeaveRun_g y).pwr
  generalize trcLeaveRun y = x at ht lf lp
  have cs : (cellsStop x).fld = x.fld ∧ (cellsStop x).pwr = x.pwr ∧ (cellsStop x).flt = x.flt := ⟨rfl, rfl, rfl⟩
  generalize cellsStop x = w at ht cs
  have hw : PKeeps d w := by
    obtain ⟨r, i, h, q, e⟩ := sp.trans lp
    exact ⟨r, i, h, q, by rw [cs.2.1, e, z1.1]⟩
  have ff : ∀ g, g < 6 → c.grpEn g = true → (w.grp g).holding = true := fun g h1 h2 => by
    unfold Dyn.grp
    rw [cs.1, lf.1]
    exact sh g h1 h2
  have fn : w.flt.find 0 = d.flt.find 0 := by rw [cs.2.2, lf.2, sf, z1.2]
  clear sh sp sf lf lp cs hz z1
  obtain ⟨a, ha⟩ := toState_spec w .dormant 0
  obtain ⟨r, i, h, q, hp⟩ := hw
  extract_lets d0 d1 _ _ _ _ _ _ d2 cols _ p at ht
  have e1 : d1.pwr = w.pwr ∧ d1.fld = w.fld ∧ d1.flt = w.flt := by simp only [d1, d0, ha, and_self]
  have e2 : d2.pwr = d1.pwr ∧ d2.fld = d1.fld ∧ d2.flt = d1.flt := ⟨rfl, rfl, rfl⟩
  obtain ⟨p1, p2, p3, p4, p5, p6, p7, p8, p9, p10⟩ : p.slow = true ∧ p.burst = .none ∧ p.entryAbort = none ∧ p.interval = c.scanInterval ∧ p.nextScan.isSome = true ∧ p.start = none ∧
      p.burstLast = d1.pwr.burstLast ∧ p.overruns = d1.pwr.overruns ∧ p.wakeLow = d1.pwr.wakeLow ∧ p.xt32 = d1.pwr.xt32 := by and_intros <;> rfl
  have hd : d2.glb.st = .dormant := by
    show d1.glb.st = _
    simp only [d1, d0, ha]
  clear_value p cols d2 d1 d0
  obtain ⟨st, fa, rc, ea, hv, hea, hst⟩ := wakeLevels_spec c { d2 with pwr := p, cols := cols }
  have hea : ea = p.entryAbort := hea hd
  have hst : levelCause c { d2 with pwr := p, cols := cols } = none → st = p.start := hst
  have lev : levelCause c { d2 with pwr := p, cols := cols } = levelCause c d := by
    unfold levelCause
    dsimp only
    rw [p9, p10, e1.1, hp]
  have q1 : d1.pwr.burstLast = d.pwr.burstLast ∧ d1.pwr.overruns = d.pwr.overruns := by rw [e1.1, hp]; exact ⟨rfl, rfl⟩
  rw [ht, hv, hea]
  refine ⟨p1, p2, p3, p4, p5, fun hl => (hst (lev.trans hl)).trans p6, p7.trans q1.1, p8.trans q1.2, fun g h1 h2 => ?_, ?_⟩
  · show (tget FGrp.empty d2.fld.grps g).holding = true
    rw [e2.2.1, e1.2.1]
    exact ff g h1 h2
  · show d2.flt.find 0 = _
    rw [e2.2.2, e1.2.2]
    exact fn

end Sys2Proof.Machine
end

