-- ==== Sys2Proof/Laws/Config.lean ====
section
/-! SUPPORT. What the write sessions, commits, write-backs, fuses and register writes leave. -/

namespace Sys2Proof.Machine

open Sys2Proof

theorem keepArg_d (a : Nat) (v : Word) (s : State) : (keepArg a v s).d = s.d := by unfold keepArg; split <;> rfl

theorem leByte4 (v : Word) : leBytes 4 v.toNat = [BitVec.ofNat 8 (v.toNat / 256 ^ 0), BitVec.ofNat 8 (v.toNat / 256 ^ 1), BitVec.ofNat 8 (v.toNat / 256 ^ 2), BitVec.ofNat 8 (v.toNat / 256 ^ 3)] := by
  simp only [leBytes, Nat.div_div_eq_div_mul, Nat.pow_zero, Nat.div_one]
  norm_num

theorem staged4 (b : Nat) (v : Word) (t : Tbl Byte) (o : Nat) : tget 0 (((leBytes 4 v.toNat).zipIdx).foldl (fun t p => tput 0 t (b + p.2) p.1) t) o =
    if b ≤ o ∧ o < b + 4 then BitVec.ofNat 8 (v.toNat / 256 ^ (o - b)) else tget 0 t o := by
  rw [leByte4]
  simp only [List.zipIdx, List.foldl_cons, List.foldl_nil, tget_tput]
  by_cases h : b ≤ o ∧ o < b + 4
  · rw [if_pos h]
    have : o = b + 0 ∨ o = b + 1 ∨ o = b + 2 ∨ o = b + 3 := by omega
    rcases this with rfl | rfl | rfl | rfl <;> simp
  · rw [if_neg h, if_neg (by omega), if_neg (by omega), if_neg (by omega), if_neg (by omega)]

theorem stagingPut_spec (a : Nat) (v : Word) (d d1 : Dyn) (h : d1 = { d with dp := { d.dp with sbuf := d.dp.sbuf.erase { addr := a, val := v } } }) :
    Alike { stagingPut a v d1 with cfg := d.cfg, dp := d.dp } d ∧ (d.sessionOn = false → (stagingPut a v d1).cfg = { d.cfg with errNoSession := true }) ∧
    (d.sessionOn = true → (stagingPut a v d1).cfg.lastAccess = d.ms ∧ (stagingPut a v d1).cfg.session = d.cfg.session ∧
      ∀ o, tget 0 (stagingPut a v d1).cfg.staging o = if a - 0x10000000 ≤ o ∧ o < a - 0x10000000 + 4 then BitVec.ofNat 8 (v.toNat / 256 ^ (o - (a - 0x10000000))) else tget 0 d.cfg.staging o) := by
  have hs : d1.sessionOn = d.sessionOn := by rw [h]; rfl
  unfold stagingPut
  rw [hs]
  generalize a - 0x10000000 = b
  cases ho : d.sessionOn
  · rw [if_neg (by simp)]
    refine ⟨?_, fun _ => ?_, nofun⟩
    · rw [h]; rfl
    · rw [h]
  · rw [if_pos rfl]
    dsimp only
    refine ⟨?_, nofun, fun _ => ⟨?_, ?_, fun o => ?_⟩⟩
    · rw [h]; rfl
    · rw [h]; rfl
    · rw [h]; rfl
    · rw [h]; exact staged4 b v d.cfg.staging o

theorem commitCmd_spec (mode : Nat) (s : State) :
    (s.d.sessionOn = false → commitCmd mode s.d = cfgResult 0x1055 s.d) ∧
    (s.d.sessionOn = true → s.d.standby = true → commitCmd mode s.d = cfgResult 0x104D s.d) ∧
    (s.d.sessionOn = true → s.d.standby = false → s.d.cfg.commit.isSome = true → commitCmd mode s.d = cfgResult 0x100C s.d) ∧
    (s.d.sessionOn = true → s.d.standby = false → s.d.cfg.commit = none → 2 ≤ mode → s.d.cfg.wb.isSome = true → commitCmd mode s.d = cfgResult 0x104B s.d) ∧
    (s.d.sessionOn = true → s.d.standby = false → s.d.cfg.commit = none → (mode < 2 ∨ s.d.cfg.wb = none) →
      ∃ k : Commit, k.mode = mode ∧ k.toPartner = false ∧ commitCmd mode s.d = { s.d with cfg := { s.d.cfg with commit := some k } }) := by
  unfold commitCmd
  refine ⟨fun h => by simp [h], fun h g => by simp [h, g], fun h hst g => by simp [hst, h, g], fun h hst g a b => by simp [hst, h, g, a, b], fun h hst g a => ?_⟩
  have : ¬(2 ≤ mode ∧ s.d.cfg.wb.isSome = true) := by
    rintro ⟨x, y⟩
    rcases a with a | a
    · omega
    · rw [a] at y; cases y
  refine ⟨{ mode := mode, bytes := s.d.cfg.staged (max 256 (min (imageLen (s.d.cfg.staged 16)) (2 ^ 21))), toPartner := false }, rfl, rfl, ?_⟩
  simp only [hst, h, g, this]
  rfl

theorem endCommit_spec (code : Nat) (d : Dyn) : endCommit code d =
    { d with cfg := { d.cfg with commit := none, session := .none, staging := [], lastReason := code, cmdResult := code }, dp := { d.dp with irq := d.dp.irq ||| 2 ^ 2 } } := rfl

theorem blockReason_st (e : Ent) (code : Nat) (d : Dyn) : (blockReason e code d).glb = d.glb ∧ (blockReason e code d).tim.acc = d.tim.acc := by
  unfold blockReason
  dsimp only
  repeat' split
  all_goals exact ⟨rfl, rfl⟩

theorem refuseImage_st (b : Bad) (e : Option Ent) (d : Dyn) : (refuseImage b e d).glb = d.glb ∧ (refuseImage b e d).tim.acc = d.tim.acc := by
  unfold refuseImage
  dsimp only
  cases e with
  | none => exact ⟨rfl, rfl⟩
  | some e => exact blockReason_st _ _ _

theorem slot_put (x : CfgSt) (i : Nat) (s : Slot) : (x.putSlot i s).slot i = s := by unfold CfgSt.putSlot CfgSt.slot; split <;> rfl

theorem putSlot_rest (x : CfgSt) (i : Nat) (s : Slot) : ∃ a b, x.putSlot i s = { x with slotA := a, slotB := b } := by
  unfold CfgSt.putSlot
  split
  · exact ⟨s, x.slotB, rfl⟩
  · exact ⟨x.slotA, s, rfl⟩

/-- What each end of a flash operation makes of a write-back (R122, R131). -/
theorem writebackStep (s : State) (e : FlashEvent) (w : WriteBack) (hw : s.d.cfg.wb = some w) :
    let r := wbStep s.d.cfg.flash e (s.d.cfg.slot w.slot).bytes w
    let t := writebackComplete s.c e s.d
    (r.2.2 = none → t.cfg.wb = some r.2.1 ∧ t.cfg.wbState = r.2.1.num ∧ t.cfg.wbProgress = r.2.1.done ∧ t.cfg.slot w.slot = { s.d.cfg.slot w.slot with bytes := r.1 } ∧
      t.cfg.prot = s.d.cfg.prot ∧ { t with cfg := s.d.cfg } = s.d) ∧
    (r.2.2 = some true → t.cfg.wb = none ∧ t.cfg.wbState = 4 ∧ t.cfg.wbProgress = w.bytes.length / 4096 ∧
      t.cfg.slot w.slot = { state := 1, reason := 0, gen := w.gen, bytes := r.1 } ∧ t.cfg.prot = (if w.apply = true then some w.slot else s.d.cfg.prot) ∧
      t.dp.irq = s.d.dp.irq ||| 8) ∧
    (r.2.2 = some false → t.cfg.wb = none ∧ t.cfg.wbState = 5 ∧ t.cfg.prot = s.d.cfg.prot ∧ t.cfg.slot w.slot = { s.d.cfg.slot w.slot with bytes := r.1 } ∧
      Opened s.d t 0x1000 0x1052 1 0 0 true true) := by
  unfold writebackComplete
  rw [hw]
  dsimp only
  generalize wbStep s.d.cfg.flash e (s.d.cfg.slot w.slot).bytes w = r
  refine ⟨fun h => ?_, fun h => ?_, fun h => ?_⟩ <;> rw [h] <;> dsimp only
  · have h1 := slot_put s.d.cfg w.slot { s.d.cfg.slot w.slot with bytes := r.1 }
    obtain ⟨a, b, h2⟩ := putSlot_rest s.d.cfg w.slot { s.d.cfg.slot w.slot with bytes := r.1 }
    generalize s.d.cfg.putSlot w.slot { s.d.cfg.slot w.slot with bytes := r.1 } = z at h1 h2
    exact ⟨rfl, rfl, rfl, h1, by show z.prot = _; rw [h2], rfl⟩
  · have h1 := slot_put s.d.cfg w.slot { state := 1, reason := 0, gen := w.gen, bytes := r.1 }
    generalize s.d.cfg.putSlot w.slot { state := 1, reason := 0, gen := w.gen, bytes := r.1 } = z at h1
    exact ⟨rfl, rfl, rfl, h1, rfl, rfl⟩
  · have h1 := slot_put s.d.cfg w.slot { s.d.cfg.slot w.slot with bytes := r.1 }
    obtain ⟨a, b, h2⟩ := putSlot_rest s.d.cfg w.slot { s.d.cfg.slot w.slot with bytes := r.1 }
    generalize s.d.cfg.putSlot w.slot { s.d.cfg.slot w.slot with bytes := r.1 } = z at h1 h2
    set d1 : Dyn := ({ s.d with cfg := { z with wb := none, wbState := 5 } } : Dyn).setIrq 3 with hd1
    obtain ⟨g, k⟩ := fault_cfg d1 s.c 0x1000 0x1052 1 0 0 true true
    have o : Opened s.d (d1.fault s.c 0x1000 0x1052 1 0 0 true true) 0x1000 0x1052 1 0 0 true true := fault_opened_after s.c 0x1000 0x1052 1 0 0 true true rfl rfl (by decide)
    have kz : d1.cfg = { z with wb := none, wbState := 5 } := rfl
    rw [kz] at k
    refine ⟨?_, ?_, ?_, ?_, o⟩
    · rw [k]
    · rw [k]
    · rw [k]; show z.prot = _; rw [h2]
    · rw [k]; exact h1

/-- What ends a write-back: the magic read back as written, or the erase after a read-back that differed. -/
theorem wbStep_end (f : Flash) (e : FlashEvent) (l : List Byte) (w : WriteBack) : ((wbStep f e l w).2.2 = some true ↔ w.stage = .magicCheck ∧ e = .read (w.bytes.take 4)) ∧
    ((wbStep f e l w).2.2 = some false ↔ w.stage = .wipe ∧ e = .erased) := by
  unfold wbStep
  rcases hs : w.stage <;> cases e <;> simp <;> split <;> simp_all

theorem target_cfg (d : Dyn) (code : Nat) : (endCommit code d).cfg.target = d.cfg.target := rfl

theorem commitStore (s : State) (k : Commit) (c' : Cfg) (hm : k.mode = 2) : ∃ t, commitDo k c' s = { s with d := t } ∧ t.cfg.commit = none ∧ t.cfg.session = .none ∧ t.cfg.staging = [] ∧
    t.cfg.cmdResult = 0 ∧ t.cfg.wbState = 1 ∧ t.cfg.wbSlot = s.d.cfg.target ∧ t.cfg.prot = s.d.cfg.prot ∧ ∃ w, t.cfg.wb = some w ∧ w.bytes = k.bytes ∧ w.apply = false := by
  have E : commitDo k c' s = { s with d := startWriteBack k.bytes false (endCommit 0 s.d) } := by
    unfold commitDo
    simp [hm]
  refine ⟨_, E, ?_⟩
  clear E
  unfold startWriteBack
  dsimp only
  generalize hx : (endCommit 0 s.d).cfg = x
  have h : x.commit = none ∧ x.session = .none ∧ x.staging = [] ∧ x.cmdResult = 0 ∧ x.prot = s.d.cfg.prot ∧ x.target = s.d.cfg.target := by
    rw [← hx]; exact ⟨rfl, rfl, rfl, rfl, rfl, rfl⟩
  clear hx
  exact ⟨h.1, h.2.1, h.2.2.1, h.2.2.2.1, rfl, h.2.2.2.2.2, h.2.2.2.2.1, _, rfl, rfl, rfl⟩

theorem forEach_glb (l : List Nat) (d : Dyn) (g : Nat → Dyn → Dyn) (h : ∀ k e, (g k e).glb = e.glb) : (forEach l d g).glb = d.glb :=
  forEach_keeps (fun e : Dyn => e.glb = d.glb) l d g (fun k e he => (h k e).trans he) rfl

theorem clearReasons_glb (d : Dyn) : (clearReasons d).glb = d.glb := by
  unfold clearReasons
  extract_lets s1 s2 s3 s4 s5 s6 d1 d2 d3 d4 d5 d6 d7
  have h1 : d1.glb = d.glb := rfl
  have h2 : d2.glb = d1.glb := forEach_glb _ d1 _ (fun _ _ => rfl)
  have h3 : d3.glb = d2.glb := forEach_glb _ d2 _ (fun _ _ => rfl)
  have h4 : d4.glb = d3.glb := forEach_glb _ d3 _ (fun _ _ => rfl)
  have h5 : d5.glb = d4.glb := forEach_glb _ d4 _ (fun _ _ => rfl)
  have h6 : d6.glb = d5.glb := forEach_glb _ d5 _ (fun _ _ => rfl)
  have h7 : d7.glb = d6.glb := forEach_glb _ d6 _ (fun _ _ => rfl)
  have h8 := forEach_glb (List.range 256) d7 (fun n d => d.setUnit n { d.unit n with reason := 0 }) (fun _ _ => rfl)
  exact h8.trans (h7.trans (h6.trans (h5.trans (h4.trans (h3.trans (h2.trans h1))))))

theorem acceptImage_glb (i : Image) (d : Dyn) : (acceptImage i d).glb = d.glb := by
  have k := clearReasons_glb d
  unfold acceptImage
  generalize clearReasons d = d0 at k
  dsimp only
  obtain ⟨a, h⟩ := ledger_arc { d0 with cfg := { d0.cfg with digest := imageDigest i.bytes, lastReason := 0 } } 2 0 (leBytes 4 i.gen ++ leBytes 1 i.source ++ [0, 0, 0] ++ (leBytes 32 (imageDigest i.bytes)).reverse)
  rw [h]
  exact k

theorem armAll_cfg (c : Cfg) (d : Dyn) : (armAll c d).cfg = d.cfg := by
  unfold armAll
  refine forEach_cfg _ _ _ (fun a d => ?_)
  split
  · unfold armAction
    extract_lets
    repeat' split
    all_goals rfl
  · rfl

theorem applyOver_w (c c' : Cfg) : (applyOver c c').reg.w = c'.reg.w :=
  forEach_keeps (fun r : Regs => r.w = c'.reg.w) _ _ _ (fun k r h => (load1_w r k).trans h) rfl

theorem armAll_glb (c : Cfg) (d : Dyn) : (armAll c d).glb = d.glb := by
  unfold armAll
  refine forEach_glb _ _ _ (fun a d => ?_)
  split
  · unfold armAction
    extract_lets
    repeat' split
    all_goals rfl
  · rfl

/-- With no configuration to replace, the accepted image is configured, and in SAFE the way to RUN is asked for (R24, R119, R120). -/
theorem applyImage_first (s : State) (c' : Cfg) (ho : s.c.img.ok = false) :
    let t := applyImage c' s
    t.c.img = c'.img ∧ (t.d.glb.st = s.d.glb.st) ∧ (s.d.glb.st = .safe → t.d.glb.runReq = some 0 ∧ t.d.glb.runCommit = true) ∧ (s.d.glb.st ≠ .safe → t.d.glb.runReq = s.d.glb.runReq) := by
  obtain ⟨c, d0, q⟩ := s
  unfold applyImage
  dsimp only at ho ⊢
  rw [if_neg (by simp [ho])]
  have h1 : (acceptImage c'.img d0).glb = d0.glb := acceptImage_glb _ _
  generalize acceptImage c'.img d0 = d1 at h1
  obtain ⟨f, h2, _⟩ := clears_flt d1 0x1000 [0x1043]
  rw [h2]
  have k1 := configure_img ⟨c', { d1 with flt := f, cfg := { d1.cfg with checks := [] } }, q⟩
  have k2 := configure_g ⟨c', { d1 with flt := f, cfg := { d1.cfg with checks := [] } }, q⟩
  have k3 : ({ d1 with flt := f, cfg := { d1.cfg with checks := [] } } : Dyn).glb = d0.glb := h1
  dsimp only at k1 k2 ⊢
  generalize ({ d1 with flt := f, cfg := { d1.cfg with checks := [] } } : Dyn) = d2 at k1 k2 k3
  generalize configure ⟨c', d2, q⟩ = u at k1 k2
  have k4 : u.d.glb.st = d0.glb.st := by rw [k2.st, k3]
  obtain ⟨⟨x, hx⟩, _⟩ := k2
  rw [k3] at hx
  refine ⟨k1.1, ?_, fun h => ?_, fun h => ?_⟩
  · split
    · exact k4
    · exact k4
  · rw [if_pos (k4.trans h)]
    exact ⟨rfl, rfl⟩
  · rw [if_neg (by rw [k4]; exact h), hx]

theorem applyFirst (s : State) (k : Commit) (c' : Cfg) (h1 : k.mode = 1) (ho : s.c.img.ok = false) :
    let t := commitDo k c' s
    t.c.img = c'.img ∧ (t.d.glb.st = s.d.glb.st) ∧ (s.d.glb.st = .safe → t.d.glb.runReq = some 0 ∧ t.d.glb.runCommit = true) ∧ (s.d.glb.st ≠ .safe → t.d.glb.runReq = s.d.glb.runReq) := by
  unfold commitDo
  simp only [h1, if_true]
  rw [if_neg (by decide)]
  exact applyImage_first { s with d := endCommit 0 s.d } c' ho

theorem commitApply (s : State) (k : Commit) (c' : Cfg) (hm : k.mode ≠ 2) (ho : s.c.img.ok = true) :
    let t := commitDo k c' s
    t.c.img = c'.img ∧ t.c.reg.w = c'.reg.w ∧ t.d.cfg.commit = none ∧ t.d.cfg.session = .none ∧ t.d.cfg.cmdResult = 0 ∧ t.d.cfg.digest = imageDigest t.c.img.bytes ∧
    (k.mode = 3 → t.d.cfg.wbState = 1) := by
  have key : let u := applyImage c' { s with d := endCommit 0 s.d }
      u.c.img = c'.img ∧ u.c.reg.w = c'.reg.w ∧ u.d.cfg.commit = none ∧ u.d.cfg.session = .none ∧ u.d.cfg.cmdResult = 0 ∧ u.d.cfg.digest = imageDigest c'.img.bytes := by
    unfold applyImage
    generalize hd : endCommit 0 s.d = d0
    have h0 : d0.cfg.commit = none ∧ d0.cfg.session = .none ∧ d0.cfg.cmdResult = 0 := by rw [← hd]; exact ⟨rfl, rfl, rfl⟩
    clear hd
    dsimp only
    rw [if_pos ho]
    have h1 := acceptImage_cfg c'.img d0
    generalize acceptImage c'.img d0 = d1 at h1
    obtain ⟨f, h2, _⟩ := clears_flt d1 0x1000 [0x1043]
    rw [h2]
    refine ⟨rfl, applyOver_w s.c c', ?_⟩
    rw [armAll_cfg]
    dsimp only
    rw [h1]
    exact ⟨h0.1, h0.2.1, h0.2.2, rfl⟩
  have E : commitDo k c' s = if k.mode = 1 then applyImage c' { s with d := endCommit 0 s.d } else
      { applyImage c' { s with d := endCommit 0 s.d } with d := startWriteBack k.bytes (k.mode == 3) (applyImage c' { s with d := endCommit 0 s.d }).d } := by
    unfold commitDo
    simp only [hm, if_false]
  rw [E]
  clear E
  generalize applyImage c' { s with d := endCommit 0 s.d } = u at key
  dsimp only at key ⊢
  obtain ⟨k1, k2, k3, k4, k5, k6⟩ := key
  split
  · rename_i h1
    exact ⟨k1, k2, k3, k4, k5, k6.trans (by rw [k1]), fun h => by omega⟩
  · unfold startWriteBack
    dsimp only
    exact ⟨k1, k2, k3, k4, k5, k6.trans (by rw [k1]), fun _ => rfl⟩

theorem fuse_refuse (s : State) (h : s.d.cfg.fuse0.valid = true ∨ s.d.cfg.fuse1.valid = true ∨ (s.d.cfg.fuse0.used = true ∧ s.d.cfg.fuse1.used = true) ∨ s.d.glb.st ≠ .safe ∨ stagedHash s.c = 0 ∨ s.d.cfg.fusing ≠ none) :
    fuseProg s.c s.d = fuseResult 0x1053 s.d := by
  unfold fuseProg
  dsimp only
  rw [if_pos]
  rw [Option.isSome_iff_ne_none]
  exact h

theorem fuse_first (s : State) (h0 : s.d.cfg.fuse0.valid = false) (h1 : s.d.cfg.fuse1.valid = false) (hs : s.d.glb.st = .safe) (hh : stagedHash s.c ≠ 0) (hf : s.d.cfg.fusing = none)
    (hu : ¬(s.d.cfg.fuse0.used = true ∧ s.d.cfg.fuse1.used = true)) :
    fuseProg s.c s.d = if s.d.cfg.fuse0.used = true then fuseResult 0 { s.d with cfg := { s.d.cfg with fuse1 := { s.d.cfg.fuse1 with used := true }, fusing := some 1 } }
      else fuseResult 0 { s.d with cfg := { s.d.cfg with fuse0 := { s.d.cfg.fuse0 with used := true }, fusing := some 0 } } := by
  unfold fuseProg
  dsimp only
  rw [if_neg]
  rw [h0, h1, hs, hf]
  simp [hh]
  intro a
  simpa [a] using hu

theorem loggedPut_spec (src a : Nat) (g : Dyn → Dyn) (s : State) : ∃ x, loggedWrite src a (fun _ => { s with d := g s.d }) s = { s with d := { g s.d with arc := x } } :=
  loggedWrite_spec src a (fun _ => { s with d := g s.d }) s

theorem applyLive_spec (a : Nat) (v : Word) (s : State) (g : Dyn → Dyn) (h1 : ¬(s.d.standby = true ∧ (!standbyTakes a v) = true)) (h2 : isCommand s.c.fx a = false)
    (h3 : liveWrite a v s = some ({ s with d := g s.d }, 0)) : ∃ x, (applyWrite 0 a v s).1 = { s with d := { g s.d with arc := x } } := by
  obtain ⟨x, hx⟩ := loggedPut_spec 0 a g s
  refine ⟨x, ?_⟩
  unfold applyWrite
  dsimp only
  rw [if_neg (by rintro ⟨_, q⟩; exact h1 q), if_neg (by rintro ⟨q, _⟩; cases q), if_neg (by simp [h2]), h3]
  exact hx

theorem command_irq (v : Variant) : isCommand v 0x34 = false := by
  unfold isCommand
  simp

theorem command_rst (v : Variant) : isCommand v 0x10004 = false := by
  unfold isCommand
  simp

theorem armWaiting_none (s : State) (h : s.d.tim.arming = []) : armWaiting s = s := by
  have : s.d.tim = { s.d.tim with arming := [] } := by rw [← h]
  unfold armWaiting
  rw [h]
  show ({ s with d := { s.d with tim := { s.d.tim with arming := [] } } } : State) = s
  rw [← this]

theorem bankFigures_cfg (c : Cfg) (b : Nat) (d : Dyn) : (bankFigures c b d).cfg = d.cfg := by
  unfold bankFigures
  dsimp only
  exact forEach_cfg _ _ _ (fun _ _ => rfl)

theorem bankLists_cfg (c : Cfg) (b : Nat) (now : Bool) (d : Dyn) : (bankLists c b now d).cfg = d.cfg := by
  unfold bankLists
  extract_lets d1
  have h : ∀ x, (d1.setBank b x).cfg = d1.cfg := fun _ => setBank_cfg _ _ _
  have h1 : d1.cfg = d.cfg := bankFigures_cfg c b d
  rw [← h1]
  clear_value d1
  exact h _

theorem figures_cfg (c : Cfg) (d : Dyn) : (figures c d).cfg = d.cfg := by
  unfold figures
  generalize c.worstLoad = w
  generalize c.passCost = p
  rfl

theorem listsChecked_spec (b : Nat) (s : State) : (listsChecked b s).d.cfg.checks = s.d.cfg.checks ∧ (listsChecked b s).c.img = s.c.img ∧ (listsChecked b s).c.fx = s.c.fx ∧
    ((listsChecked b s).d.cfg.lastReason ≠ 0 → (listsChecked b s).c = s.c) := by
  unfold listsChecked
  dsimp only
  rcases listsBad (s.c.asWritten none) (s.c.asWritten (some b)) b with _ | x
  · dsimp only
    refine ⟨?_, rfl, rfl, fun h => absurd ?_ h⟩
    · rw [bankLists_cfg]; rfl
    · rw [bankLists_cfg]; rfl
  · exact ⟨rfl, rfl, rfl, fun _ => rfl⟩

theorem enableChecked_spec (x : Area) (i : Nat) (k : Check) (s : State) : (enableChecked x i k s).d.cfg.checks = s.d.cfg.checks ∧ (enableChecked x i k s).c.img = s.c.img ∧ (enableChecked x i k s).c.fx = s.c.fx ∧
    ((enableChecked x i k s).d.cfg.lastReason ≠ 0 → (enableChecked x i k s).c = s.c) := by
  unfold enableChecked
  extract_lets e on word cand0 cand
  generalize (if on = true then (match sageEntry cand0 cand e with | (some y, c1) => (y.code, c1) | (none, c1) => (0, c1)) else (disableCode cand s.d e, cand)) = r
  obtain ⟨code, c1⟩ := r
  dsimp only
  have h1 : (lastReason code (blockReason e code s.d)).cfg = { s.d.cfg with lastReason := code } := by
    unfold lastReason
    dsimp only
    rw [blockReason_cfg]
  generalize lastReason code (blockReason e code s.d) = d1 at h1
  have h2 : (if x.typ = 0x400 then bankFigures c1 x.inst d1 else d1).cfg = d1.cfg := by
    split
    · exact bankFigures_cfg _ _ _
    · rfl
  generalize (if x.typ = 0x400 then bankFigures c1 x.inst d1 else d1) = d2 at h2
  have h3 : (if x.typ = 0xA00 ∨ x.typ = 0xC00 ∨ x.typ = 0xC01 then figures c1 d2 else d2).cfg = d2.cfg := by
    split
    · exact figures_cfg _ _
    · rfl
  generalize (if x.typ = 0xA00 ∨ x.typ = 0xC00 ∨ x.typ = 0xC01 then figures c1 d2 else d2) = d3 at h3
  by_cases hc : code ≠ 0
  · rw [if_pos hc]
    exact ⟨by dsimp only; rw [h1], rfl, rfl, fun _ => rfl⟩
  · rw [if_neg hc]
    refine ⟨by dsimp only; rw [h3, h2, h1], rfl, rfl, fun h => absurd ?_ h⟩
    dsimp only
    rw [h3, h2, h1]
    simpa using hc

end Sys2Proof.Machine
end

