-- ==== Sys2Proof/Laws/Frames2.lean ====
section
/-! SUPPORT. What a forward and a return frame set of a group leave. -/

namespace Sys2Proof.Machine

open Sys2Proof

theorem markSeen_spec (c : Cfg) (g : Nat) (d : Dyn) : FldStep d (markSeen c g d) ∧
    (∀ h, (markSeen c g d).grp h = if h = g ∧ (d.grp g).wdExp = true then { d.grp g with wdExp := false, wdCnt := satInc 8 (d.grp g).wdCnt } else d.grp h) ∧
    (∀ k, (markSeen c g d).dch k = d.dch k) ∧ (∀ k, (markSeen c g d).mch k = d.mch k) := by
  unfold markSeen
  extract_lets x
  by_cases hw : x.wdExp = true
  · rw [if_pos hw]
    set d1 := d.setGrp g { x with wdExp := false, wdCnt := satInc 8 x.wdCnt } with hd1
    have f := fault_step d1 c (grpSrc g) (grpCode g 5) 2 0 0 true true
    have ff : (d1.fault c (grpSrc g) (grpCode g 5) 2 0 0 true true).fld = d1.fld := f.same.2.2.2.2.2.2.2.1
    refine ⟨FldStep.trans (e := d1) rfl f.fld, fun h => ?_, fun k => ?_, fun k => ?_⟩
    · have : (d1.fault c (grpSrc g) (grpCode g 5) 2 0 0 true true).grp h = d1.grp h := by unfold Dyn.grp; rw [ff]
      rw [this, hd1, setGrp_get]
      by_cases e : h = g
      · rw [if_pos e, if_pos ⟨e, hw⟩]
      · rw [if_neg e, if_neg (fun q => e q.1)]
    · have : (d1.fault c (grpSrc g) (grpCode g 5) 2 0 0 true true).dch k = d1.dch k := by unfold Dyn.dch; rw [ff]
      exact this
    · have : (d1.fault c (grpSrc g) (grpCode g 5) 2 0 0 true true).mch k = d1.mch k := by unfold Dyn.mch; rw [ff]
      exact this
  · rw [if_neg hw]
    exact ⟨rfl, fun h => by rw [if_neg (fun q => hw q.2)], fun _ => rfl, fun _ => rfl⟩

theorem load_w (r : Regs) (a n : Nat) : (r.load a n).w = r.w := (load_spec r a n).1

theorem dioLoad_spec (g : Nat) (s : State) : (dioLoad g s).c.fx = s.c.fx ∧ (dioLoad g s).c.img = s.c.img ∧ (dioLoad g s).c.reg.w = s.c.reg.w ∧ (dioLoad g s).pending = s.pending ∧
    FldStep s.d (dioLoad g s).d ∧ (∀ h, (dioLoad g s).d.grp h = s.d.grp h) ∧ (∀ n, (dioLoad g s).d.mch n = s.d.mch n) ∧ (dioLoad g s).d.grd = s.d.grd := by
  unfold dioLoad
  extract_lets r1 r2 src c2
  have hw : r2.w = s.c.reg.w := forEach_keeps (fun r : Regs => r.w = s.c.reg.w) _ r1 _ (fun k r h => (load_w r (dioA k 0) 3).trans h) (load_w s.c.reg (grpA g) 1)
  have hd : ∀ l d, FldStep d (forEach l d (fun k d => if c2.dioWin k ≠ s.c.dioWin k then d.setDch k { d.dch k with hist := [] } else d)) ∧
      (∀ h, (forEach l d (fun k d => if c2.dioWin k ≠ s.c.dioWin k then d.setDch k { d.dch k with hist := [] } else d)).grp h = d.grp h) ∧
      (∀ h, (forEach l d (fun k d => if c2.dioWin k ≠ s.c.dioWin k then d.setDch k { d.dch k with hist := [] } else d)).mch h = d.mch h) := fun l d =>
    ⟨forEach_keeps (FldStep d) l d _ (fun k e h => by dsimp only; split; exact h.trans rfl; exact h) rfl,
      fun h => forEach_same (fun e : Dyn => e.grp h) l d _ (fun k e => by dsimp only; split <;> rfl),
      fun h => forEach_same (fun e : Dyn => e.mch h) l d _ (fun k e => by dsimp only; split <;> rfl)⟩
  obtain ⟨h1, h2, h3⟩ := hd (upFrom (16 * g) 16) s.d
  have hc : c2.fx = s.c.fx ∧ c2.img = s.c.img ∧ c2.reg.w = s.c.reg.w := ⟨rfl, rfl, hw⟩
  clear_value c2
  generalize forEach (upFrom (16 * g) 16) s.d (fun k d => if c2.dioWin k ≠ s.c.dioWin k then d.setDch k { d.dch k with hist := [] } else d) = e at h1 h2 h3
  exact ⟨hc.1, hc.2.1, hc.2.2, rfl, h1, h2, h3, (Alike.blocks h1).2.1⟩

theorem rank3Do_grd (c : Cfg) (d e : Dyn) (k : Nat) (p : Bool) (h : e.grd = d.grd) : rank3Do c e k p = rank3Do c d k p := by
  unfold rank3Do Dyn.term
  rw [h]

theorem rank3Mv_grd (c : Cfg) (d e : Dyn) (k : Nat) (h : e.grd = d.grd) : rank3Mv c e k = rank3Mv c d k := by
  unfold rank3Mv Dyn.term
  rw [h]

theorem forwardDio_spec (g : Nat) (s : State) (hs : s.d.sends = true) (hl : (s.d.grp g).line = 0) : ∃ u, (forwardDio g s).d = reapply (forwardDio g s).c g u ∧
    (forwardDio g s).c.fx = s.c.fx ∧ (forwardDio g s).c.img = s.c.img ∧ (forwardDio g s).c.reg.w = s.c.reg.w ∧
    (u.grp g).held = (s.d.grp g).cmd ∧ (u.grp g).holding = false ∧ (u.grp g).holdExp = false ∧ (u.grp g).wdExp = false ∧
    (u.grp g).trip = bits16 g (fun k => rank3Do (forwardDio g s).c s.d k ((forwardDio g s).c.pairOdd k)) ∧ (∀ h, h ≠ g → u.grp h = s.d.grp h) ∧ (∀ n, u.mch n = s.d.mch n) ∧
    Alike { u with fld := s.d.fld } s.d := by
  obtain ⟨l1, l2, l3, l4, l5, l6, l7, l8⟩ := dioLoad_spec g s
  have E : forwardDio g s = { dioLoad g s with d := reapply (dioLoad g s).c g ((markSeen (dioLoad g s).c g (dioLoad g s).d).setGrp g
      { (markSeen (dioLoad g s).c g (dioLoad g s).d).grp g with held := ((markSeen (dioLoad g s).c g (dioLoad g s).d).grp g).cmd, trip := bits16 g (fun k => rank3Do (dioLoad g s).c (markSeen (dioLoad g s).c g (dioLoad g s).d) k ((dioLoad g s).c.pairOdd k)), holding := false, holdExp := false, safeHeld := bits16 g (fun k => (dioLoad g s).c.isOut k && (dioLoad g s).c.safeOn ((dioLoad g s).c.owner k) && !(dioLoad g s).c.img.pairOn) }) } := by
    unfold forwardDio
    rw [if_pos (by simp [hs, hl])]
  have ec : (forwardDio g s).c = (dioLoad g s).c := by rw [E]
  rw [ec]
  generalize dioLoad g s = t at *
  obtain ⟨m1, m2, m3, m4⟩ := markSeen_spec t.c g t.d
  have mg : (markSeen t.c g t.d).grd = s.d.grd := ((Alike.blocks m1).2.1).trans l8
  generalize markSeen t.c g t.d = d1 at *
  refine ⟨_, by rw [E], l1, l2, l3, ?_, ?_, ?_, ?_, ?_, fun h hh => ?_, fun n => ?_, ?_⟩
  · rw [setGrp_same]
    show (d1.grp g).cmd = _
    rw [m2 g]
    split
    · show (t.d.grp g).cmd = _
      rw [l6 g]
    · rw [l6 g]
  · rw [setGrp_same]
  · rw [setGrp_same]
  · rw [setGrp_same]
    show (d1.grp g).wdExp = _
    rw [m2 g]
    split
    · rfl
    · rename_i q
      simpa using q
  · rw [setGrp_same]
    show bits16 g (fun k => rank3Do t.c d1 k (t.c.pairOdd k)) = _
    congr 1
    funext k
    exact rank3Do_grd _ _ _ _ _ mg
  · rw [setGrp_other _ _ _ _ hh, m2 h, if_neg (fun q => hh q.1), l6 h]
  · exact (m4 n).trans (l7 n)
  · exact l5.trans (m1.trans (FldStep.put d1 _))

theorem drive_loop (c : Cfg) (m : Nat) (l : List Nat) (hl : l.Nodup) (d : Dyn) (f : Nat → Dyn → Dyn)
    (hf : f = fun n d => if c.movEn n then d.setMch n { d.mch n with held := (d.mch n).eCmd, trip := rank3Mv c d n } else d) :
    FldStep d (forEach l d f) ∧ (∀ h, (forEach l d f).grp h = d.grp h) ∧ (∀ h, (forEach l d f).dch h = d.dch h) ∧
    ∀ n, (forEach l d f).mch n = if n ∈ l ∧ c.movEn n = true then { d.mch n with held := (d.mch n).eCmd, trip := rank3Mv c d n } else d.mch n := by
  have st : ∀ n d, FldStep d (f n d) ∧ (∀ h, (f n d).grp h = d.grp h) ∧ (∀ h, (f n d).dch h = d.dch h) ∧ (f n d).grd = d.grd ∧
      ∀ j, (f n d).mch j = if j = n ∧ c.movEn n = true then { d.mch n with held := (d.mch n).eCmd, trip := rank3Mv c d n } else d.mch j := by
    intro n d
    rw [hf]
    dsimp only
    by_cases h : c.movEn n = true
    · rw [if_pos h]
      refine ⟨rfl, fun _ => rfl, fun _ => rfl, rfl, fun j => ?_⟩
      rw [setMch_get]
      simp [h]
    · rw [if_neg h]
      exact ⟨rfl, fun _ => rfl, fun _ => rfl, rfl, fun j => by rw [if_neg (fun q => h q.2)]⟩
  clear hf
  refine ⟨forEach_keeps (FldStep d) l d f (fun n e h => h.trans (st n e).1) rfl, fun h => forEach_same (fun e : Dyn => e.grp h) l d f (fun n e => (st n e).2.1 h),
    fun h => forEach_same (fun e : Dyn => e.dch h) l d f (fun n e => (st n e).2.2.1 h), ?_⟩
  induction l generalizing d with
  | nil => intro n; simp [forEach]
  | cons a r ih =>
    obtain ⟨ha, hr⟩ := List.nodup_cons.1 hl
    intro n
    refine (ih hr (f a d) n).trans ?_
    obtain ⟨_, _, _, s4, s5⟩ := st a d
    rw [rank3Mv_grd c d (f a d) n s4, s5 n]
    by_cases e : n = a
    · subst e; simp [ha]
    · simp [e]

theorem forwardMov_spec (c : Cfg) (m : Nat) (d : Dyn) (hs : d.sends = true) (hl : (d.grp (4 + m)).line = 0) : ∃ u, forwardMov c m d = reapplyMov c m u ∧
    (u.grp (4 + m)).holding = false ∧ (u.grp (4 + m)).holdExp = false ∧ (u.grp (4 + m)).wdExp = false ∧ (∀ h, h ≠ 4 + m → u.grp h = d.grp h) ∧
    (∀ n, u.mch n = if n / 16 = m ∧ c.movEn n = true then { d.mch n with held := (d.mch n).eCmd, trip := rank3Mv c d n } else d.mch n) ∧
    (∀ k, u.dch k = d.dch k) ∧ Alike { u with fld := d.fld } d := by
  unfold forwardMov
  extract_lets g d1 src d2 d3
  rw [if_pos (by simp [g, hs, hl])]
  obtain ⟨m1, m2, m3, m4⟩ := markSeen_spec c g d
  have h2 : FldStep d1 d2 := FldStep.put d1 _
  have g2 : ∀ h, d2.grp h = if h = g then { d1.grp g with holding := false, holdExp := false, lease := (d1.grp g).lease && d1.glb.role == .standby } else d1.grp h := fun h => setGrp_get _ _ _ _
  have k2 : (∀ k, d2.dch k = d1.dch k) ∧ (∀ k, d2.mch k = d1.mch k) := ⟨fun _ => rfl, fun _ => rfl⟩
  obtain ⟨h3, g3, k3, n3⟩ := drive_loop c m (upFrom (16 * m) 16) (upFrom_nodup _ _) d2 _ rfl
  have gd : d2.grd = d.grd := (Alike.blocks (m1.trans h2)).2.1
  have e1 : d1 = markSeen c g d := rfl
  rw [← e1] at m1 m2 m3 m4
  clear_value d2
  have e3 : d3 = forEach (upFrom (16 * m) 16) d2 (fun n d => if c.movEn n then d.setMch n { d.mch n with held := (d.mch n).eCmd, trip := rank3Mv c d n } else d) := rfl
  rw [← e3] at h3 g3 k3 n3
  clear_value d3
  clear_value d1
  refine ⟨d3, rfl, ?_, ?_, ?_, fun h hh => ?_, fun n => ?_, fun k => ?_, (m1.trans h2).trans h3⟩
  · rw [g3, g2, if_pos rfl]
  · rw [g3, g2, if_pos rfl]
  · rw [g3, g2, if_pos rfl]
    show (d1.grp g).wdExp = _
    rw [m2 g]
    split
    · rfl
    · rename_i q; simpa using q
  · rw [g3, g2, if_neg hh, m2 h, if_neg (fun q => hh q.1)]
  · rw [n3 n, k2.2 n, m4 n, rank3Mv_grd c d d2 n gd]
    refine if_congr ?_ rfl rfl
    rw [upFrom_mem]
    constructor
    · rintro ⟨a, b⟩; exact ⟨by omega, b⟩
    · rintro ⟨a, b⟩; exact ⟨by omega, b⟩
  · rw [k3 k, k2.1 k, m3 k]

theorem returnStatus_spec (g : Nat) (ok : Bool) (d : Dyn) : FldStep d (returnStatus g ok d) ∧ (∀ h, h ≠ g → (returnStatus g ok d).grp h = d.grp h) ∧
    (∀ k, (returnStatus g ok d).dch k = d.dch k) ∧ (∀ k, (returnStatus g ok d).mch k = d.mch k) ∧
    (ok = true → ((returnStatus g ok d).grp g).badRun = 0 ∧ ((returnStatus g ok d).grp g).goodRun = (d.grp g).goodRun + 1) ∧
    (ok = false → ((returnStatus g ok d).grp g).badRun = (d.grp g).badRun + 1 ∧ ((returnStatus g ok d).grp g).goodRun = 0) ∧
    ((returnStatus g ok d).grp g).cond = (if ok = true ∧ (d.grp g).cond = 6 then 2 else (d.grp g).cond) ∧ (returnStatus g ok d).glb = d.glb := by
  unfold returnStatus
  cases ok
  · rw [if_neg (by simp)]
    refine ⟨rfl, fun h hh => setGrp_other _ _ _ _ hh, fun _ => rfl, fun _ => rfl, nofun, fun _ => ?_, ?_, rfl⟩
    · rw [setGrp_same]; exact ⟨rfl, rfl⟩
    · rw [setGrp_same]; simp
  · rw [if_pos rfl]
    refine ⟨rfl, fun h hh => setGrp_other _ _ _ _ hh, fun _ => rfl, fun _ => rfl, fun _ => ?_, nofun, ?_, rfl⟩
    · rw [setGrp_same]; exact ⟨rfl, rfl⟩
    · rw [setGrp_same]; simp

theorem return_loop (g : Nat) (ld ed : Nat → Nat) (sb woke : Bool) (l : List Nat) (hl : l.Nodup) (d : Dyn) (f : Nat → Dyn → Dyn)
    (hf : f = fun i d => returnChan (16 * g + i) (ld i) (ed i) d.standby woke d) (hsb : d.standby = sb) :
    FldStep d (forEach l d f) ∧ (∀ h, (forEach l d f).grp h = d.grp h) ∧
    ∀ i ∈ l, (forEach l d f).dch (16 * g + i) = (if sb = true then { d.dch (16 * g + i) with load := ld i } else
      { d.dch (16 * g + i) with load := ld i, count := ((d.dch (16 * g + i)).count + ed i) % 2 ^ 32, edges := if woke then (d.dch (16 * g + i)).edges else (d.dch (16 * g + i)).edges + ed i }) := by
  have st : ∀ i d, d.standby = sb → (f i d).standby = sb ∧ FldStep d (f i d) ∧ (∀ h, (f i d).grp h = d.grp h) ∧ ∀ k, (f i d).dch k = if k = 16 * g + i then (if sb = true then { d.dch (16 * g + i) with load := ld i } else
      { d.dch (16 * g + i) with load := ld i, count := ((d.dch (16 * g + i)).count + ed i) % 2 ^ 32, edges := if woke then (d.dch (16 * g + i)).edges else (d.dch (16 * g + i)).edges + ed i }) else d.dch k := by
    intro i d hb
    rw [hf]
    dsimp only
    rw [hb]
    unfold returnChan
    dsimp only
    cases sb
    · exact ⟨hb, rfl, fun _ => rfl, fun k => setDch_get _ _ _ _⟩
    · exact ⟨hb, rfl, fun _ => rfl, fun k => setDch_get _ _ _ _⟩
  clear hf
  have all : ∀ (l : List Nat) (d : Dyn), d.standby = sb → FldStep d (forEach l d f) ∧ (∀ h, (forEach l d f).grp h = d.grp h) := by
    intro l
    induction l with
    | nil => exact fun d _ => ⟨rfl, fun _ => rfl⟩
    | cons a r ih => exact fun d hb => ⟨(st a d hb).2.1.trans (ih (f a d) (st a d hb).1).1, fun h => ((ih (f a d) (st a d hb).1).2 h).trans ((st a d hb).2.2.1 h)⟩
  refine ⟨(all l d hsb).1, (all l d hsb).2, ?_⟩
  induction l generalizing d with
  | nil => intro i hi; cases hi
  | cons a r ih =>
    obtain ⟨ha, hr⟩ := List.nodup_cons.1 hl
    intro i hi
    have other : ∀ (l : List Nat) (d : Dyn) k, d.standby = sb → (∀ j ∈ l, k ≠ 16 * g + j) → (forEach l d f).dch k = d.dch k := by
      intro l
      induction l with
      | nil => exact fun _ _ _ _ => rfl
      | cons b q ihq => exact fun d k hb h => (ihq (f b d) k (st b d hb).1 (fun j hj => h j (List.mem_cons_of_mem _ hj))).trans (by rw [(st b d hb).2.2.2 k, if_neg (h b (by simp))])
    rcases List.mem_cons.1 hi with rfl | hi
    · refine (other r (f i d) (16 * g + i) (st i d hsb).1 (fun j hj e => ?_)).trans ?_
      · have : i = j := by omega
        exact ha (this ▸ hj)
      · rw [(st i d hsb).2.2.2, if_pos rfl]
    · refine (ih hr (f a d) (st a d hsb).1 i hi).trans ?_
      have hne : 16 * g + i ≠ 16 * g + a := fun e => ha ((by omega : i = a) ▸ hi)
      rw [(st a d hsb).2.2.2, if_neg hne]

theorem open_loop (c : Cfg) (m lv : Nat) (l : List Nat) (hl : l.Nodup) (d : Dyn) (f : Nat → Dyn → Dyn)
    (hf : f = fun i d => if c.movEn (16 * m + i) ∧ ¬ c.movPlain (16 * m + i) then d.setMch (16 * m + i) { d.mch (16 * m + i) with openIn := lv.testBit i } else d) :
    FldStep d (forEach l d f) ∧ (∀ h, (forEach l d f).grp h = d.grp h) ∧
    ∀ i ∈ l, c.movEn (16 * m + i) = true → c.movPlain (16 * m + i) = false → ((forEach l d f).mch (16 * m + i)).openIn = lv.testBit i := by
  have st : ∀ i d, FldStep d (f i d) ∧ (∀ h, (f i d).grp h = d.grp h) ∧ (∀ k, k ≠ 16 * m + i → (f i d).mch k = d.mch k) ∧
      (c.movEn (16 * m + i) = true → c.movPlain (16 * m + i) = false → ((f i d).mch (16 * m + i)).openIn = lv.testBit i) := by
    intro i d
    rw [hf]
    dsimp only
    by_cases h : c.movEn (16 * m + i) = true ∧ ¬ c.movPlain (16 * m + i) = true
    · rw [if_pos h]
      exact ⟨rfl, fun _ => rfl, fun k hk => setMch_other _ _ _ _ hk, fun _ _ => by rw [setMch_same]⟩
    · rw [if_neg h]
      exact ⟨rfl, fun _ => rfl, fun _ _ => rfl, fun a b => absurd ⟨a, by simp [b]⟩ h⟩
  clear hf
  refine ⟨forEach_keeps (FldStep d) l d f (fun n e h => h.trans (st n e).1) rfl, fun h => forEach_same (fun e : Dyn => e.grp h) l d f (fun n e => (st n e).2.1 h), ?_⟩
  induction l generalizing d with
  | nil => intro i hi; cases hi
  | cons a r ih =>
    obtain ⟨ha, hr⟩ := List.nodup_cons.1 hl
    intro i hi h1 h2
    have other : ∀ (l : List Nat) (d : Dyn) k, (∀ j ∈ l, k ≠ 16 * m + j) → (forEach l d f).mch k = d.mch k := by
      intro l
      induction l with
      | nil => exact fun _ _ _ => rfl
      | cons b q ihq => exact fun d k h => (ihq (f b d) k (fun j hj => h j (List.mem_cons_of_mem _ hj))).trans ((st b d).2.2.1 k (h b (by simp)))
    rcases List.mem_cons.1 hi with rfl | hi
    · have := other r (f i d) (16 * m + i) (fun j hj e => ha ((by omega : i = j) ▸ hj))
      exact (congrArg MChan.openIn this).trans ((st i d).2.2.2 h1 h2)
    · exact ih hr (f a d) i hi h1 h2

end Sys2Proof.Machine
end

