-- ==== Sys2Proof/Laws/Front.lean ====
section
/-! SUPPORT. What visits, verdicts, self-tests and stale channels leave. -/

namespace Sys2Proof.Machine

open Sys2Proof

/-- What the start of a visit changes: the front end alone, and of a bank not its counts, its self-test and its results. -/
def AfeStep (d e : Dyn) : Prop := (∃ a, e = { d with afe := a }) ∧ ∀ m, (e.bank m).visits = (d.bank m).visits ∧ (e.bank m).failed = (d.bank m).failed ∧
  (e.bank m).selftest = (d.bank m).selftest ∧ (e.bank m).cmdResult = (d.bank m).cmdResult

theorem AfeStep.refl (d : Dyn) : AfeStep d d := ⟨⟨d.afe, rfl⟩, fun _ => ⟨rfl, rfl, rfl, rfl⟩⟩

theorem AfeStep.trans {d e g : Dyn} (h : AfeStep d e) (k : AfeStep e g) : AfeStep d g := by
  obtain ⟨⟨a, ha⟩, h2⟩ := h
  obtain ⟨⟨b, hb⟩, k2⟩ := k
  refine ⟨⟨b, by rw [hb, ha]⟩, fun m => ?_⟩
  obtain ⟨x1, x2, x3, x4⟩ := h2 m
  obtain ⟨y1, y2, y3, y4⟩ := k2 m
  exact ⟨y1.trans x1, y2.trans x2, y3.trans x3, y4.trans x4⟩

theorem AfeStep.bank (d : Dyn) (b : Nat) (x : Bank) (h : x.visits = (d.bank b).visits ∧ x.failed = (d.bank b).failed ∧ x.selftest = (d.bank b).selftest ∧ x.cmdResult = (d.bank b).cmdResult) :
    AfeStep d (d.setBank b x) := by
  refine ⟨⟨_, rfl⟩, fun m => ?_⟩
  rw [setBank_get]
  split
  · rename_i e; subst e; exact h
  · exact ⟨rfl, rfl, rfl, rfl⟩

theorem AfeStep.desc (d : Dyn) (k : Nat) (x : Desc) : AfeStep d (d.setDesc k x) := ⟨⟨_, rfl⟩, fun _ => ⟨rfl, rfl, rfl, rfl⟩⟩

theorem AfeStep.each {g : Nat → Dyn → Dyn} (l : List Nat) (d : Dyn) (h : ∀ k t, AfeStep t (g k t)) : AfeStep d (forEach l d g) :=
  forEach_keeps (AfeStep d) l d g (fun k s hs => hs.trans (h k s)) (AfeStep.refl d)

theorem AfeStep.alike {d e : Dyn} (h : AfeStep d e) : Alike { e with afe := d.afe } d := by obtain ⟨⟨a, ha⟩, _⟩ := h; rw [ha]; rfl

theorem setPending_afe (c : Cfg) (b : Nat) (p : Nat → Bool) (d : Dyn) : AfeStep d (setPending c b p d) := by
  unfold setPending
  extract_lets ks d1
  have h1 : AfeStep d d1 := AfeStep.each _ _ (fun k t => AfeStep.desc _ _ _)
  clear_value d1
  split
  · split
    · exact h1.trans (AfeStep.bank _ _ _ ⟨rfl, rfl, rfl, rfl⟩)
    · exact h1
  · exact h1

theorem cycleEnd_afe (b : Nat) (d : Dyn) : AfeStep d (cycleEnd b d) := by
  unfold cycleEnd
  extract_lets x
  split
  · exact AfeStep.refl d
  · split
    · exact AfeStep.bank _ _ _ ⟨rfl, rfl, rfl, rfl⟩
    · split
      · exact AfeStep.bank _ _ _ ⟨rfl, rfl, rfl, rfl⟩
      · exact AfeStep.bank _ _ _ ⟨rfl, rfl, rfl, rfl⟩

theorem chopStep_afe (c : Cfg) (k : Nat) (d : Dyn) : AfeStep d (chopStep c k d) := by
  unfold chopStep
  extract_lets b x bk pol d1
  have on : AfeStep d d1 := AfeStep.bank d b _ ⟨rfl, rfl, rfl, rfl⟩
  have off : AfeStep d (d.setBank b { bk with contPol := false }) := AfeStep.bank d b _ ⟨rfl, rfl, rfl, rfl⟩
  clear_value d1
  repeat' split
  all_goals first | exact AfeStep.refl d | exact AfeStep.desc _ _ _ | exact on.trans (setPending_afe _ _ _ _) | exact off.trans (setPending_afe _ _ _ _)

/-- What beginning visits leaves: the registers as written, and the front end's step. -/
def Vis (s t : State) : Prop := t.c.reg.w = s.c.reg.w ∧ t.c.fx = s.c.fx ∧ t.c.img = s.c.img ∧ t.pending = s.pending ∧ AfeStep s.d t.d

theorem Vis.refl (s : State) : Vis s s := ⟨rfl, rfl, rfl, rfl, AfeStep.refl _⟩

theorem Vis.trans {a b c : State} (h : Vis a b) (k : Vis b c) : Vis a c := ⟨k.1.trans h.1, k.2.1.trans h.2.1, k.2.2.1.trans h.2.2.1, k.2.2.2.1.trans h.2.2.2.1, h.2.2.2.2.trans k.2.2.2.2⟩

theorem Vis.dyn {s t : State} {d : Dyn} (h : Vis s t) (k : AfeStep t.d d) : Vis s { t with d := d } := ⟨h.1, h.2.1, h.2.2.1, h.2.2.2.1, h.2.2.2.2.trans k⟩

theorem loadDesc_vis (k : Nat) (s : State) : Vis s (loadDesc k s) := by
  unfold loadDesc
  extract_lets old src c' d0 b p
  have h0 : AfeStep s.d d0 := by dsimp only [d0]; split; exact AfeStep.desc _ _ _; exact AfeStep.refl _
  have hc : c'.reg.w = s.c.reg.w ∧ c'.fx = s.c.fx ∧ c'.img = s.c.img := ⟨load_w _ _ _, rfl, rfl⟩
  clear_value d0 c'
  split
  · exact ⟨hc.1, hc.2.1, hc.2.2, rfl, h0.trans (setPending_afe _ _ _ _)⟩
  · exact ⟨hc.1, hc.2.1, hc.2.2, rfl, h0⟩

theorem beginVisit_vis (k : Nat) (g : Bool) (s : State) : Vis s (beginVisit k g s) := by
  unfold beginVisit
  extract_lets s1 b d0 bk on x v
  have h1 : Vis s s1 := loadDesc_vis k s
  have h2 : AfeStep s1.d d0 := chopStep_afe _ _ _
  have h3 : AfeStep d0 (d0.setDesc k { x with pol := polOf s1.c d0 k }) := AfeStep.desc _ _ _
  have h4 : AfeStep (d0.setDesc k { x with pol := polOf s1.c d0 k }) ((d0.setDesc k { x with pol := polOf s1.c d0 k }).setBank b { bk with visit := some v, contOn := bk.contOn || on, waiting := false }) :=
    AfeStep.bank _ _ _ ⟨rfl, rfl, rfl, rfl⟩
  exact h1.dyn ((h2.trans h3).trans h4)

theorem beginVisit_visit (k : Nat) (g : Bool) (s : State) : ∃ v, ((beginVisit k g s).d.bank (k / 64)).visit = some v ∧ v.desc = k ∧ v.guard = g ∧ ((beginVisit k g s).d.bank (k / 64)).waiting = false := by
  unfold beginVisit
  extract_lets s1 b d0 bk on x v
  refine ⟨v, ?_, rfl, rfl, ?_⟩
  · show ((Dyn.setBank _ _ _).bank b).visit = _
    rw [setBank_get, if_pos rfl]
  · show ((Dyn.setBank _ _ _).bank b).waiting = _
    rw [setBank_get, if_pos rfl]

theorem visitStart_vis (b : Nat) (s : State) : Vis s (visitStart b s) := by
  unfold visitStart
  extract_lets d s0 x
  have h0 : Vis s s0 := (Vis.refl s).dyn (cycleEnd_afe b s.d)
  have hd : s0.d = d := rfl
  have go : ∀ k, Vis s { beginVisit k false s0 with d := (beginVisit k false s0).d.setBank b { (beginVisit k false s0).d.bank b with pos := x.pos + 1 } } := fun k =>
    (h0.trans (beginVisit_vis k false s0)).dyn (AfeStep.bank _ _ _ ⟨rfl, rfl, rfl, rfl⟩)
  have wt : Vis s { s0 with d := d.setBank b { x with waiting := true } } := h0.dyn (by rw [hd]; exact AfeStep.bank _ _ _ ⟨rfl, rfl, rfl, rfl⟩)
  clear_value s0
  split
  · exact h0
  · split
    · exact h0
    · extract_lets k now s1 d1 w s2
      split
      · split
        · exact go k
        · exact wt
      · exact go k

theorem guardSlotStart_on (k : Nat) (s : State) (h : (s.d.live s.c && s.c.bankEn (k / 64) && s.c.descEn k && s.c.descGuard k && (s.d.bank (k / 64)).visit.isNone) = true) : guardSlotStart k s = beginVisit k true s := by
  unfold guardSlotStart; rw [if_pos h]

/-- What the end of a visit changes besides its channel. -/
def EndStep (k : Nat) (d e : Dyn) : Prop := (∀ m, (e.bank m).visits = (d.bank m).visits) ∧ (∀ j, j ≠ k → e.chan j = d.chan j) ∧ e.fld = d.fld ∧ e.mst = d.mst ∧ e.ctl = d.ctl

theorem EndStep.refl (k : Nat) (d : Dyn) : EndStep k d d := ⟨fun _ => rfl, fun _ _ => rfl, rfl, rfl, rfl⟩

theorem EndStep.trans {k : Nat} {d e g : Dyn} (h : EndStep k d e) (i : EndStep k e g) : EndStep k d g :=
  ⟨fun m => (i.1 m).trans (h.1 m), fun j hj => (i.2.1 j hj).trans (h.2.1 j hj), i.2.2.1.trans h.2.2.1, i.2.2.2.1.trans h.2.2.2.1, i.2.2.2.2.trans h.2.2.2.2⟩

theorem FltStep.ends {d e : Dyn} (k : Nat) (h : FltStep d e) : EndStep k d e := by
  have s := h.same
  refine ⟨fun m => ?_, fun j _ => ?_, s.2.2.2.2.2.2.2.1, s.2.2.2.2.2.1, s.2.2.2.2.2.2.2.2.1⟩
  · unfold Dyn.bank; rw [s.2.2.2.1]
  · unfold Dyn.chan; rw [s.2.2.2.2.1]

theorem AfeStep.ends {d e : Dyn} (k : Nat) (h : AfeStep d e) : EndStep k d e ∧ e.chan k = d.chan k := by
  obtain ⟨⟨a, ha⟩, h2⟩ := h
  refine ⟨⟨fun m => (h2 m).1, fun j _ => ?_, ?_, ?_, ?_⟩, ?_⟩ <;> rw [ha] <;> rfl

theorem SwStep.ends {d e : Dyn} (k : Nat) (h : SwStep d e) : EndStep k d e := by
  have b := Alike.blocks h
  refine ⟨fun m => ?_, fun j _ => h.chan j, b.2.2.2.2.2.2.2.1, b.2.2.2.2.2.1, b.2.2.2.2.2.2.2.2.1⟩
  unfold Dyn.bank; rw [← b.2.2.2.1]

theorem EndStep.chan (k : Nat) (d : Dyn) (x : Chan) : EndStep k d (d.setChan k x) := ⟨fun _ => rfl, fun j hj => setChan_other _ _ _ _ hj, rfl, rfl, rfl⟩

theorem invalidate_ends (c : Cfg) (k cause : Nat) (level : Nat → Nat) (d : Dyn) : EndStep k d (invalidate c k cause level d) ∧
    (invalidate c k cause level d).chan k = { d.chan k with state := 3, cause := cause, filt := false } := by
  obtain ⟨h1, h2, _⟩ := invalidate_step c k cause level d
  generalize invalidate c k cause level d = e at *
  have b := Alike.blocks h1
  refine ⟨⟨fun m => ?_, fun j hj => ?_, b.2.2.2.2.2.2.2.1, b.2.2.2.2.2.1, b.2.2.2.2.2.2.2.2.1⟩, ?_⟩
  · unfold Dyn.bank; rw [← b.2.2.2.1]
  · rw [h2 j, if_neg hj]
  · rw [h2 k, if_pos rfl]

theorem acceptValue_ends (c : Cfg) (k : Nat) (x : Int) (lim : Bool) (level : Nat → Nat) (d : Dyn) : EndStep k d (acceptValue c k x lim level d) := by
  unfold acceptValue
  extract_lets ch fs y d2
  have h2 : EndStep k d d2 := EndStep.chan _ _ _
  clear_value d2
  exact (h2.trans ((clears_step _ _ _).ends k)).trans ((evalSwitches_step _ _ _ _).1.ends k)

theorem convert_ends (c : Cfg) (k : Nat) (raw : Int) (cause : Nat) (level : Nat → Nat) (d : Dyn) : EndStep k d (convert c k raw cause level d) ∧
    (c.chanEn k = true → cause ≠ 0 → ((convert c k raw cause level d).chan k).state = 3 ∧ ((convert c k raw cause level d).chan k).cause = cause ∧
      ((convert c k raw cause level d).chan k).value = (d.chan k).value) := by
  unfold convert
  by_cases he : c.chanEn k = true
  · rw [if_neg (by simp [he])]
    extract_lets src d1 src' bad
    have h1 : EndStep k d d1 ∧ (d1.chan k).value = (d.chan k).value := by
      dsimp only [d1]
      split
      · exact ⟨EndStep.chan _ _ _, by rw [setChan_same]⟩
      · exact ⟨EndStep.refl _ _, rfl⟩
    have hb : ∀ cs, EndStep k d (bad cs) ∧ ((bad cs).chan k).state = 3 ∧ ((bad cs).chan k).cause = cs ∧ ((bad cs).chan k).value = (d.chan k).value := by
      intro cs
      obtain ⟨i1, i2⟩ := invalidate_ends c k cs level (d1.setChan k { d1.chan k with limit := false })
      have e : bad cs = invalidate c k cs level (d1.setChan k { d1.chan k with limit := false }) := rfl
      rw [e, i2, setChan_same]
      exact ⟨(h1.1.trans (EndStep.chan _ _ _)).trans i1, rfl, rfl, h1.2⟩
    clear_value bad d1
    by_cases hc : cause ≠ 0
    · rw [if_pos hc]
      exact ⟨(hb cause).1, fun _ _ => (hb cause).2⟩
    · rw [if_neg hc]
      refine ⟨?_, fun _ h => absurd h hc⟩
      split
      · exact h1.1.trans (acceptValue_ends _ _ _ _ _ _)
      · exact (hb _).1
  · rw [if_pos (by simpa using he)]
    exact ⟨EndStep.refl _ _, fun h => absurd h he⟩

theorem loadChan_parts (k : Nat) (s : State) : (loadChan k s).c.reg.w = s.c.reg.w ∧ (loadChan k s).d = s.d ∧ (loadChan k s).pending = s.pending := by
  unfold loadChan
  extract_lets r1 r2 u r3
  have h2 : r2.w = s.c.reg.w := forEach_keeps (fun r : Regs => r.w = s.c.reg.w) _ r1 _ (fun i r h => by split; exact (load_w _ _ _).trans h; exact h) (load_w _ _ _)
  have h3 : r3.w = s.c.reg.w := by
    dsimp only [r3]
    split
    · exact (load_w _ _ _).trans h2
    · exact h2
  clear_value r3
  exact ⟨h3, rfl, rfl⟩

theorem holdChan_ends (c : Cfg) (k : Nat) (d : Dyn) : EndStep k d (holdChan c k d) ∧
    (holdChan c k d).chan k = (if c.chanEn k = true ∧ (d.chan k).state = 1 then { d.chan k with state := 2, cause := 1 } else d.chan k) := by
  unfold holdChan
  dsimp only
  by_cases h : c.chanEn k = true ∧ (d.chan k).state = 1
  · rw [if_pos (by simp [h]), if_pos h]
    exact ⟨EndStep.chan _ _ _, by rw [setChan_same]⟩
  · rw [if_neg (by simpa using h), if_neg h]
    exact ⟨EndStep.refl _ _, rfl⟩

theorem deliver_ends (k : Nat) (raw : Int) (cause : Nat) (u : Bool) (level : Nat → Nat) (s : State) : EndStep k s.d (deliverVisit k raw cause u level s).d ∧
    (deliverVisit k raw cause u level s).c.reg.w = s.c.reg.w ∧
    (u = false → cause ≠ 0 → (loadChan k s).c.chanEn k = true → ((deliverVisit k raw cause u level s).d.chan k).state = 3 ∧
      ((deliverVisit k raw cause u level s).d.chan k).cause = cause ∧ ((deliverVisit k raw cause u level s).d.chan k).value = (s.d.chan k).value) := by
  unfold deliverVisit
  cases u
  · rw [if_neg (by simp)]
    extract_lets s1
    have h := loadChan_parts k s
    have e : s1 = loadChan k s := rfl
    rw [← e] at h ⊢
    clear_value s1
    have k1 := convert_ends s1.c k raw cause level s1.d
    rw [h.2.1] at k1 ⊢
    exact ⟨k1.1, h.1, fun _ hc he => k1.2 he hc⟩
  · rw [if_pos rfl]
    exact ⟨(holdChan_ends _ _ _).1, rfl, nofun⟩

/-- What the end of a visit changes besides its channel, the channel kept. -/
def EndKeep (k : Nat) (d e : Dyn) : Prop := EndStep k d e ∧ e.chan k = d.chan k

theorem EndKeep.refl (k : Nat) (d : Dyn) : EndKeep k d d := ⟨EndStep.refl _ _, rfl⟩
theorem EndKeep.trans {k : Nat} {a b c : Dyn} (h : EndKeep k a b) (i : EndKeep k b c) : EndKeep k a c := ⟨h.1.trans i.1, i.2.trans h.2⟩
theorem EndKeep.ite {k : Nat} {d a b : Dyn} (p : Prop) [Decidable p] (h : EndKeep k d a) (g : EndKeep k d b) : EndKeep k d (if p then a else b) := by split <;> assumption
theorem FltStep.keep {d e : Dyn} (h : FltStep d e) (k : Nat) : EndKeep k d e := ⟨h.ends k, by unfold Dyn.chan; rw [h.same.2.2.2.2.1]⟩
theorem AfeStep.keep {d e : Dyn} (h : AfeStep d e) (k : Nat) : EndKeep k d e := h.ends k

theorem vReport_afe (c : Cfg) (k : Nat) (m : VisitMeas) (d : Dyn) : AfeStep d (vReport c k m d) := by
  unfold vReport
  exact AfeStep.bank _ _ _ ⟨rfl, rfl, rfl, rfl⟩

theorem overloadEnd_ends (c : Cfg) (k : Nat) (m : VisitMeas) (d : Dyn) : EndKeep k d (overloadEnd c k m d) := by
  unfold overloadEnd
  extract_lets b on d0 bk uses d1 n src d2 d3
  have h0 : EndKeep k d d0 := (vReport_afe c k m d).keep k
  have h1 : EndKeep k d d1 := by
    dsimp only [d1]
    exact EndKeep.ite _ h0 (h0.trans ((setPending_afe _ _ _ _).keep k))
  have h2 : EndKeep k d d2 := h1.trans (AfeStep.keep (AfeStep.bank d1 b { d1.bank b with contOver := n } ⟨rfl, rfl, rfl, rfl⟩) k)
  have h3 : EndKeep k d d3 := by
    dsimp only [d3]
    exact EndKeep.ite _ h2 (h2.trans ((fault_step _ _ _ _ _ _ _ _ _).keep k))
  have h4 : EndKeep k d (d0.setBank b { bk with contOver := 0 }) := h0.trans (AfeStep.keep (AfeStep.bank d0 b { bk with contOver := 0 } ⟨rfl, rfl, rfl, rfl⟩) k)
  have h5 : ∀ x : Bank, x.visits = (d3.bank b).visits → x.failed = (d3.bank b).failed → x.selftest = (d3.bank b).selftest → x.cmdResult = (d3.bank b).cmdResult →
      EndKeep k d (d3.setBank b x) := fun x a1 a2 a3 a4 => h3.trans (AfeStep.keep (AfeStep.bank _ _ _ ⟨a1, a2, a3, a4⟩) k)
  clear_value d3 d2 d1 d0
  exact EndKeep.ite _ (EndKeep.ite _ (h4.trans ((clears_step _ _ _).keep k)) h0) (EndKeep.ite _ (EndKeep.ite _ (h5 _ rfl rfl rfl rfl) h3) h2)

theorem unsettle_ends (c : Cfg) (k : Nat) (o : Bool) (m : VisitMeas) (d : Dyn) : EndStep k d (unsettle c k o m d) ∧ (unsettle c k o m d).chan k = d.chan k := by
  unfold unsettle
  extract_lets x n d1
  have h1 : EndStep k d d1 ∧ d1.chan k = d.chan k := ⟨⟨fun _ => rfl, fun _ _ => rfl, rfl, rfl, rfl⟩, rfl⟩
  clear_value d1
  split
  · have f := fault_step d1 c (0x4000 + k) 0x4060 2 0 0 false false
    exact ⟨h1.1.trans (f.ends k), (show _ = d1.chan k by unfold Dyn.chan; rw [f.same.2.2.2.2.1]).trans h1.2⟩
  · exact h1

theorem settle_ends (c : Cfg) (k : Nat) (rp : Int) (o : Bool) (cause : Nat) (m : VisitMeas) (d : Dyn) : EndStep k d (settle c k rp o cause m d).1 ∧ (settle c k rp o cause m d).1.chan k = d.chan k := by
  unfold settle
  extract_lets x raw hold x1
  have h1 : EndStep k d (d.setDesc k x1) ∧ (d.setDesc k x1).chan k = d.chan k := ⟨⟨fun _ => rfl, fun _ _ => rfl, rfl, rfl, rfl⟩, rfl⟩
  generalize d.setDesc k x1 = d1 at h1
  have f := clears_step d1 (0x4000 + k) [0x4060]
  exact ⟨h1.1.trans (f.ends k), (show _ = d1.chan k by unfold Dyn.chan; rw [f.same.2.2.2.2.1]).trans h1.2⟩

theorem listenVisit_ends (c : Cfg) (k : Nat) (rp : Int) (o : Bool) (mv : MirrorVisit) (m : VisitMeas) (d : Dyn) : EndKeep k d (listenVisit c k rp o mv m d).1 := by
  unfold listenVisit
  split
  · exact ⟨⟨fun _ => rfl, fun _ _ => rfl, rfl, rfl, rfl⟩, rfl⟩
  · exact settle_ends _ _ _ _ _ _ _

theorem crossFault_ends (c : Cfg) (k code call : Nat) (d : Dyn) : EndKeep k d (crossFault c k code call d) := by
  unfold crossFault
  exact EndKeep.ite _ ((fault_step _ _ _ _ _ _ _ _ _).keep k) (EndKeep.ite _ ((clears_step _ _ _).keep k) (EndKeep.refl _ _))

theorem listenCheck_ends (c : Cfg) (k : Nat) (a b : Int) (mv : MirrorVisit) (d : Dyn) : EndKeep k d (listenCheck c k a b mv d) := by
  unfold listenCheck
  extract_lets b' tol x r d1 y r2
  have ds : ∀ (e : Dyn) (z : Desc), EndKeep k e (e.setDesc k z) := fun e z => (AfeStep.desc e k z).keep k
  have h1 : EndKeep k d d1 := by
    dsimp only [d1]
    exact EndKeep.ite _ (EndKeep.refl _ _) ((ds _ _).trans (crossFault_ends _ _ _ _ _))
  clear_value d1
  exact EndKeep.ite _ (h1.trans ((ds _ _).trans (crossFault_ends _ _ _ _ _))) h1

/-- A settled visit's conversion: the descriptor's books and the code handed to the channel. -/
abbrev visitBad (c : Cfg) (d : Dyn) (v : Visit) (m : VisitMeas) : Prop :=
  c.descExc v.desc ≠ 0 ∧ (v.unsettled = true ∨ ((c.descExc v.desc = 2 ∨ (c.descExc v.desc = 4 ∧ (d.bank (v.desc / 64)).contOn = true)) ∧ (m.overload = true ∨ m.overloadAny = true)))

theorem endVisit_spec (v : Visit) (m : VisitMeas) (mirror : Option MirrorVisit) (level : Nat → Nat) (s : State) (d0 : Dyn)
    (hd : d0 = s.d.setBank (v.desc / 64) { s.d.bank (v.desc / 64) with visit := none, visits := ((s.d.bank (v.desc / 64)).visits + 1) % 2 ^ 32 }) :
    let t := endVisit v.desc v m mirror level s
    let r := visitVerdict s.c d0 v.desc m
    let q := settle s.c v.desc r.1 r.2.1 r.2.2 m (overloadEnd s.c v.desc m d0)
    let hold : Chan := if s.c.chanEn v.desc = true ∧ (s.d.chan v.desc).state = 1 then { s.d.chan v.desc with state := 2, cause := 1 } else s.d.chan v.desc
    EndStep v.desc d0 t.d ∧ t.c.reg.w = s.c.reg.w ∧
    (s.d.standby = false → ¬visitBad s.c s.d v m → t.d = convert (loadChan v.desc s).c v.desc q.2 r.2.2 level q.1 ∧
      (r.2.2 ≠ 0 → (loadChan v.desc s).c.chanEn v.desc = true →
        (t.d.chan v.desc).state = 3 ∧ (t.d.chan v.desc).cause = r.2.2 ∧ (t.d.chan v.desc).value = (s.d.chan v.desc).value)) ∧
    (s.d.standby = false → visitBad s.c s.d v m → t.d.chan v.desc = hold) ∧
    (∀ mv, s.d.standby = true → mirror = some mv → mv.unsettled = true → t.d.chan v.desc = hold) ∧
    (∀ mv, s.d.standby = true → mirror = some mv → mv.unsettled = false →
      (∃ e, EndKeep v.desc d0 e ∧ t.d = convert (loadChan v.desc s).c v.desc mv.raw mv.cause level e) ∧
      (mv.cause ≠ 0 → (loadChan v.desc s).c.chanEn v.desc = true → (t.d.chan v.desc).state = 3 ∧ (t.d.chan v.desc).cause = mv.cause)) ∧
    (s.d.standby = true → mirror = none → t.d.chan v.desc = hold) := by
  have hch : d0.chan v.desc = s.d.chan v.desc := by rw [hd]; rfl
  have hon : (d0.bank (v.desc / 64)).contOn = (s.d.bank (v.desc / 64)).contOn := by rw [hd, setBank_get, if_pos rfl]
  have lc : ∀ e : Dyn, (loadChan v.desc { s with d := e }).c = (loadChan v.desc s).c := fun _ => rfl
  have lv : ∀ (raw : Int) (cause : Nat) (e : Dyn), (deliverVisit v.desc raw cause false level { s with d := e }).d = convert (loadChan v.desc s).c v.desc raw cause level e := by
    intro raw cause e
    unfold deliverVisit
    rw [if_neg (by simp)]
    dsimp only
    rw [lc, (loadChan_parts v.desc { s with d := e }).2.1]
  unfold visitBad
  rw [← hon]
  unfold endVisit
  dsimp only
  rw [← hd]
  generalize visitVerdict s.c d0 v.desc m = r
  cases hs : s.d.standby
  · dsimp only
    have o := overloadEnd_ends s.c v.desc m d0
    generalize overloadEnd s.c v.desc m d0 = d1 at o ⊢
    by_cases hb : s.c.descExc v.desc ≠ 0 ∧ (v.unsettled = true ∨ ((s.c.descExc v.desc = 2 ∨ (s.c.descExc v.desc = 4 ∧ (d0.bank (v.desc / 64)).contOn = true)) ∧ (m.overload = true ∨ m.overloadAny = true)))
    · rw [if_pos hb]
      have u := unsettle_ends s.c v.desc r.2.1 m d1
      generalize unsettle s.c v.desc r.2.1 m d1 = d2 at u ⊢
      have h := holdChan_ends s.c v.desc d2
      have e : d2.chan v.desc = s.d.chan v.desc := (u.2.trans o.2).trans hch
      rw [e] at h
      exact ⟨(o.1.trans u.1).trans h.1, rfl, fun _ n => absurd hb n, fun _ _ => h.2, fun _ => nofun, fun _ => nofun, nofun⟩
    · rw [if_neg hb]
      have q := settle_ends s.c v.desc r.1 r.2.1 r.2.2 m d1
      generalize settle s.c v.desc r.1 r.2.1 r.2.2 m d1 = q1 at q ⊢
      have dl := deliver_ends v.desc q1.2 r.2.2 false level { s with d := q1.1 }
      have cv := lv q1.2 r.2.2 q1.1
      generalize deliverVisit v.desc q1.2 r.2.2 false level { s with d := q1.1 } = t at dl cv ⊢
      have e : q1.1.chan v.desc = s.d.chan v.desc := (q.2.trans o.2).trans hch
      refine ⟨(o.1.trans q.1).trans dl.1, dl.2.1, fun _ _ => ⟨cv, fun hc hen => ?_⟩, fun _ h => absurd h hb, fun _ => nofun, fun _ => nofun, nofun⟩
      have z := dl.2.2 rfl hc (by rw [lc]; exact hen)
      exact ⟨z.1, z.2.1, z.2.2.trans (by rw [e])⟩
  · have vr : EndKeep v.desc d0 (vReport s.c v.desc m d0) := (vReport_afe _ _ _ _).keep _
    rcases mirror with _ | mv
    · dsimp only
      generalize vReport s.c v.desc m d0 = d1 at vr ⊢
      have h := holdChan_ends s.c v.desc d1
      rw [vr.2.trans hch] at h
      exact ⟨vr.1.trans h.1, rfl, nofun, nofun, fun _ _ => nofun, fun _ _ => nofun, fun _ _ => h.2⟩
    · dsimp only
      generalize vReport s.c v.desc m d0 = d1 at vr ⊢
      have l0 := listenVisit_ends s.c v.desc r.1 r.2.1 mv m d1
      generalize listenVisit s.c v.desc r.1 r.2.1 mv m d1 = q at l0 ⊢
      have l := listenCheck_ends s.c v.desc q.2 (senseNorm (d0.desc v.desc).pol m.sense) mv q.1
      generalize listenCheck s.c v.desc q.2 (senseNorm (d0.desc v.desc).pol m.sense) mv q.1 = d2 at l ⊢
      have l2 := (vr.trans l0).trans l
      cases hu : mv.unsettled
      · have dl := deliver_ends v.desc mv.raw mv.cause false level { s with d := d2 }
        have cv := lv mv.raw mv.cause d2
        generalize deliverVisit v.desc mv.raw mv.cause false level { s with d := d2 } = t at dl cv ⊢
        refine ⟨l2.1.trans dl.1, dl.2.1, nofun, nofun, fun mv' _ hm hu' => ?_, fun mv' _ hm _ => ?_, fun _ => nofun⟩
        · cases hm; rw [hu] at hu'; cases hu'
        · cases hm
          exact ⟨⟨d2, l2, cv⟩, fun hc hen => ⟨(dl.2.2 rfl hc (by rw [lc]; exact hen)).1, (dl.2.2 rfl hc (by rw [lc]; exact hen)).2.1⟩⟩
      · unfold deliverVisit
        rw [if_pos rfl]
        have h := holdChan_ends s.c v.desc d2
        rw [l2.2.trans hch] at h
        refine ⟨l2.1.trans h.1, rfl, nofun, nofun, fun mv' _ _ _ => h.2, fun mv' _ hm hu' => ?_, fun _ => nofun⟩
        cases hm; rw [hu] at hu'; cases hu'

theorem setPending_pend (c : Cfg) (b : Nat) (p : Nat → Bool) (d : Dyn) (j : Nat) (h1 : j / 64 = b) (h2 : c.descEn j = true) (h3 : c.descExc j ≠ 0) (h4 : p j = true) :
    ((setPending c b p d).desc j).pending = true := by
  unfold setPending
  dsimp only
  generalize hks : (upFrom (64 * b) 64).filter (fun k => c.descEn k && decide (c.descExc k ≠ 0) && p k) = ks
  have hm : j ∈ ks := by
    rw [← hks, List.mem_filter, upFrom_mem]
    refine ⟨by omega, by simp [h2, h3, h4]⟩
  have pres : ∀ (l : List Nat) (d : Dyn), (d.desc j).pending = true → ((forEach l d (fun k d => d.setDesc k { d.desc k with pending := true })).desc j).pending = true := fun l d h =>
    forEach_keeps (fun e : Dyn => (e.desc j).pending = true) l d _ (fun k e he => by
      by_cases e' : j = k
      · subst e'; rw [setDesc_same]
      · rw [setDesc_other _ _ _ _ e']; exact he) h
  have h1 : ((forEach ks d (fun k d => d.setDesc k { d.desc k with pending := true })).desc j).pending = true := by
    clear hks
    induction ks generalizing d with
    | nil => cases hm
    | cons a r ih =>
      rcases List.mem_cons.1 hm with rfl | hm
      · exact pres r _ (by rw [setDesc_same])
      · exact ih _ hm
  generalize forEach ks d (fun k d => d.setDesc k { d.desc k with pending := true }) = d1 at h1
  split
  · split
    · exact h1
    · exact h1
  · exact h1

theorem setPending_banks (c : Cfg) (b : Nat) (p : Nat → Bool) (d : Dyn) : ((setPending c b p d).bank b).contOn = (d.bank b).contOn ∧ ((setPending c b p d).bank b).retryAt = (d.bank b).retryAt ∧
    ((setPending c b p d).bank b).contOver = (d.bank b).contOver := by
  unfold setPending
  extract_lets ks d1
  have h1 : d1.bank b = d.bank b := forEach_same (fun e : Dyn => e.bank b) _ _ _ (fun k s => rfl)
  rw [← h1]
  clear_value d1
  split
  · split
    · rw [setBank_same]; exact ⟨rfl, rfl, rfl⟩
    · exact ⟨rfl, rfl, rfl⟩
  · exact ⟨rfl, rfl, rfl⟩

theorem excRetry_spec (c : Cfg) (b : Nat) (d : Dyn) (t : Nat) (h1 : (d.bank b).retryAt = some t) (h2 : t ≤ d.ms) (h3 : d.live c = true) (h4 : c.bankEn b = true) :
    let u := excRetry c b d
    (u.bank b).contOn = true ∧ (u.bank b).retryAt = none ∧ (u.bank b).contOver = 2 ∧
    (∀ j, j / 64 = b → c.descEn j = true → c.descExc j ≠ 0 → c.isCont j = true → (u.desc j).pending = true) ∧ Alike { u with afe := d.afe } d := by
  unfold excRetry
  dsimp only
  rw [h1]
  dsimp only
  rw [if_pos ⟨h2, h3, h4⟩]
  generalize hd : d.setBank b { d.bank b with contOn := true, retryAt := none, contOver := 2 } = d1
  have hb : d1.bank b = { d.bank b with contOn := true, retryAt := none, contOver := 2 } := by rw [← hd, setBank_same]
  have ha : ∃ a, d1 = { d with afe := a } := ⟨_, hd.symm⟩
  clear hd
  obtain ⟨k1, k2, k3⟩ := setPending_banks c b c.isCont d1
  obtain ⟨⟨a, e⟩, _⟩ := setPending_afe c b c.isCont d1
  refine ⟨by rw [k1, hb], by rw [k2, hb], by rw [k3, hb], fun j j1 j2 j3 j4 => setPending_pend c b _ d1 j j1 j2 j3 j4, ?_⟩
  obtain ⟨a', e'⟩ := ha
  rw [e, e']
  rfl

/-- A channel with no result beyond its limit (R186): STALE at once, INVALID where it was usable, and the record where its time for one has come. -/
theorem channelStale_spec (c : Cfg) (k : Nat) (level : Nat → Nat) (d : Dyn) (h1 : c.chanEn k = true) (h2 : d.glb.st ≠ .dormant) (h3 : d.glb.st ≠ .boot) (h4 : d.glb.st = .scan → inStorage d k = true)
    (h5 : staleLimit c d k < d.chanAge k) (hk : k < 1024) :
    let t := channelStale c k level d
    (t.chan k).stale = true ∧
    (∀ n, (d.chan k).noRec = some n → n ≤ d.ms → d.flt.find (0x5000 + k) = none →
      (t.chan k).noRec = none ∧ ∃ r, t.flt.find (0x5000 + k) = some r ∧ r.code = 0x5066 ∧ r.sev = 1) ∧
    ((d.chan k).noRec = none ∨ (∃ n, (d.chan k).noRec = some n ∧ d.ms < n) → t.flt.find (0x5000 + k) = d.flt.find (0x5000 + k) ∧ (t.chan k).noRec = (d.chan k).noRec) ∧
    ((d.chan k).state = 1 ∨ (d.chan k).state = 2 → (t.chan k).state = 3 ∧ (t.chan k).cause = causeSTALE) ∧
    ((d.chan k).state ≠ 1 → (d.chan k).state ≠ 2 → (t.chan k).state = (d.chan k).state) ∧ (t.chan k).value = (d.chan k).value ∧ (∀ j, j ≠ k → t.chan j = d.chan j) := by
  unfold channelStale
  rw [if_neg (by simp [h1, h2, h3]), if_neg (by simpa using h4), if_neg (by omega)]
  obtain ⟨n0, a1, a2, a3, a4⟩ : ∃ n0, ((staleRecord c k d).chan k = { d.chan k with noRec := n0 }) ∧ (∀ j, j ≠ k → (staleRecord c k d).chan j = d.chan j) ∧
      (∀ n, (d.chan k).noRec = some n → n ≤ d.ms → n0 = none ∧ (d.flt.find (0x5000 + k) = none → ∃ r, (staleRecord c k d).flt.find (0x5000 + k) = some r ∧ r.code = 0x5066 ∧ r.sev = 1)) ∧
      ((d.chan k).noRec = none ∨ (∃ n, (d.chan k).noRec = some n ∧ d.ms < n) → (staleRecord c k d).flt.find (0x5000 + k) = d.flt.find (0x5000 + k) ∧ n0 = (d.chan k).noRec) := by
    have hx : ∀ n, (d.chan k).noRec = n → d.chan k = { d.chan k with noRec := n } := fun n h => by subst h; rfl
    unfold staleRecord
    rcases hn : (d.chan k).noRec with _ | n
    · exact ⟨none, hx _ hn, fun _ _ => rfl, nofun, fun _ => ⟨rfl, rfl⟩⟩
    · dsimp only
      by_cases hm : n ≤ d.ms
      · rw [if_pos hm]
        generalize hd : d.setChan k { d.chan k with noRec := none } = d1
        have c1 : ∀ j, d1.chan j = if j = k then { d.chan k with noRec := none } else d.chan j := fun j => by rw [← hd, setChan_get]
        have f1 : d1.flt = d.flt := by rw [← hd]; rfl
        clear hd
        have o := (fault_opened d1 c (0x5000 + k) 0x5066 1 0 0 false false (by omega)).1
        have q : ∀ j, (d1.fault c (0x5000 + k) 0x5066 1 0 0 false false).chan j = d1.chan j := fun j => by
          unfold Dyn.chan; rw [(fault_step d1 c (0x5000 + k) 0x5066 1 0 0 false false).same.2.2.2.2.1]
        generalize d1.fault c (0x5000 + k) 0x5066 1 0 0 false false = d2 at o q ⊢
        refine ⟨none, by rw [q, c1, if_pos rfl], fun j hj => by rw [q, c1, if_neg hj], fun n' hn' _ => ⟨rfl, fun h0 => ⟨_, o (by rw [f1]; exact h0), rfl, rfl⟩⟩, fun h => ?_⟩
        rcases h with h | ⟨n', h, h'⟩
        · cases h
        · cases h; omega
      · rw [if_neg hm]
        exact ⟨some n, hx _ hn, fun _ _ => rfl, fun n' h h' => by cases h; exact absurd h' hm, fun _ => ⟨rfl, rfl⟩⟩
  generalize staleRecord c k d = d2 at a1 a2 a3 a4 ⊢
  unfold staleFlag
  dsimp only
  have hst : (d2.chan k).state = (d.chan k).state := by rw [a1]
  by_cases hs : (d.chan k).state = 1 ∨ (d.chan k).state = 2
  · rw [if_pos (by rw [hst]; exact hs), setChan_same]
    generalize hd : (d2.setChan k { d2.chan k with stale := true }).setChan k { d2.chan k with stale := true, state := 3, cause := causeSTALE, filt := false } = d3
    have c4 : d3.chan k = { d2.chan k with stale := true, state := 3, cause := causeSTALE, filt := false } := by rw [← hd, setChan_same]
    have c5 : ∀ j, j ≠ k → d3.chan j = d2.chan j := fun j hj => by rw [← hd, setChan_other _ _ _ _ hj, setChan_other _ _ _ _ hj]
    have f3 : d3.flt = d2.flt := by rw [← hd]; rfl
    clear hd
    obtain ⟨s1, s2⟩ := evalSwitches_step c k level d3
    generalize evalSwitches c k level d3 = t at s1 s2 ⊢
    have tk : t.chan k = { d2.chan k with stale := true, state := 3, cause := causeSTALE, filt := false } := by rw [s1.chan, c4]
    have tf : t.flt.find (0x5000 + k) = d2.flt.find (0x5000 + k) := (s2 _ (by omega)).trans (by rw [f3])
    rw [tf, tk, a1]
    refine ⟨rfl, fun n hn hm h0 => ⟨(a3 n hn hm).1, (a3 n hn hm).2 h0⟩, a4, fun _ => ⟨rfl, rfl⟩, fun a b => ?_, rfl, fun j hj => by rw [s1.chan, c5 j hj, a2 j hj]⟩
    rcases hs with hs | hs
    · exact absurd hs a
    · exact absurd hs b
  · rw [if_neg (by rw [hst]; exact hs)]
    have tk : (d2.setChan k { d2.chan k with stale := true }).chan k = { d2.chan k with stale := true } := setChan_same _ _ _
    rw [tk, a1]
    exact ⟨rfl, fun n hn hm h0 => ⟨(a3 n hn hm).1, (a3 n hn hm).2 h0⟩, a4, fun h => absurd h hs, fun _ _ => rfl, rfl, fun j hj => by rw [setChan_other _ _ _ _ hj, a2 j hj]⟩

theorem visitStart_flt (b : Nat) (s : State) : (visitStart b s).d.flt = s.d.flt ∧ (visitStart b s).d.tim = s.d.tim := by
  obtain ⟨⟨a, e⟩, _⟩ := (visitStart_vis b s).2.2.2.2
  rw [e]; exact ⟨rfl, rfl⟩

theorem Opened.to {d t t' : Dyn} {src code sev a b : Nat} {x y : Bool} (h : Opened d t src code sev a b x y) (h2 : t'.flt = t.flt) : Opened d t' src code sev a b x y := by
  unfold Opened at *; rw [h2]; exact h

/-- The end of a self-test under way (R162): passed with the record closed, or failed with the record open and every enabled channel of the bank INVALID. -/
theorem selftest_spec (b : Nat) (e1 e2 : Int) (level : Nat → Nat) (s : State) (hb : b < s.c.fx.nBanks) (hr : (s.d.bank b).selftest = true) :
    let t := selftestEnd b e1 e2 level s
    let ok := selfOk e1 3355443 = true ∧ selfOk e2 3355443 = true
    (t.d.bank b).selftest = false ∧ ((t.d.bank b).failed = true ↔ ¬ok) ∧ t.c.reg.w = s.c.reg.w ∧
    (ok → Closed s.d t.d (0x4400 + b) [0x4062] ∧ Alike { t.d with afe := s.d.afe } s.d) ∧
    (¬ok → (s.d.flt.find (0x4400 + b) = none → ∃ r, t.d.flt.find (0x4400 + b) = some r ∧ r.code = 0x4062 ∧ r.sev = 3) ∧
      ∀ m, t.d.chan m = if m / 64 = b ∧ s.c.chanEn m = true then { s.d.chan m with state := 3, cause := causeBANK, filt := false } else s.d.chan m) := by
  have hbl : b < 16 := by
    have : s.c.fx.nBanks ≤ 16 := by unfold Variant.nBanks; split; omega; split <;> omega
    omega
  obtain ⟨ok, hok⟩ : ∃ ok : Bool, ok = (selfOk e1 3355443 && selfOk e2 3355443) := ⟨_, rfl⟩
  have hko : ok = true ↔ (selfOk e1 3355443 = true ∧ selfOk e2 3355443 = true) := by rw [hok, Bool.and_eq_true]
  obtain ⟨d1, hd⟩ : ∃ d1, d1 = s.d.setBank b { s.d.bank b with selftest := false, failed := !ok } := ⟨_, rfl⟩
  have hk : d1.bank b = { s.d.bank b with selftest := false, failed := !ok } := by rw [hd, setBank_same]
  have hf : d1.flt = s.d.flt ∧ d1.tim = s.d.tim ∧ d1.cnv = s.d.cnv := by rw [hd]; exact ⟨rfl, rfl, rfl⟩
  have ha : Alike { d1 with afe := s.d.afe } s.d := by rw [hd]; rfl
  have E : selftestDone s.c b e1 e2 level s.d = if ok = true then d1.clears (0x4400 + b) [0x4062] else
      forEach ((upFrom (64 * b) 64).filter s.c.chanEn) (d1.fault s.c (0x4400 + b) 0x4062 3 0 0 false false) (fun k d => invalidate s.c k causeBANK level d) := by
    unfold selftestDone
    rw [if_neg (by simp [hr]; omega)]
    dsimp only
    rw [← hok, ← hd]
  clear hd
  unfold selftestEnd
  rw [E]
  clear E
  rw [← hko]
  generalize hx : (if ok = true then d1.clears (0x4400 + b) [0x4062] else forEach ((upFrom (64 * b) 64).filter s.c.chanEn) (d1.fault s.c (0x4400 + b) 0x4062 3 0 0 false false) (fun k d => invalidate s.c k causeBANK level d)) = d2
  have w := visitStart_vis b { s with d := d2 }
  have vf := visitStart_flt b { s with d := d2 }
  generalize visitStart b { s with d := d2 } = t at w vf ⊢
  dsimp only at w vf ⊢
  have q : d2.afe = d1.afe → (t.d.bank b).selftest = false ∧ (t.d.bank b).failed = !ok := by
    intro e
    have eb : d2.bank b = d1.bank b := by unfold Dyn.bank; rw [e]
    obtain ⟨_, x2, x3, _⟩ := w.2.2.2.2.2 b
    dsimp only at x2 x3
    rw [eb, hk] at x2 x3
    exact ⟨x3, x2⟩
  obtain ⟨⟨a, ea⟩, _⟩ := w.2.2.2.2
  dsimp only at ea
  cases ok
  · rw [if_neg (by simp)] at hx
    have f := fault_step d1 s.c (0x4400 + b) 0x4062 3 0 0 false false
    have o := (fault_opened d1 s.c (0x4400 + b) 0x4062 3 0 0 false false (by omega)).1
    generalize d1.fault s.c (0x4400 + b) 0x4062 3 0 0 false false = e1 at f o hx
    obtain ⟨i1, i2, i3⟩ := forEach_invalid s.c causeBANK (fun _ => level) ((upFrom (64 * b) 64).filter s.c.chanEn) e1 _ rfl
    rw [hx] at i1 i2 i3
    have hafe : d2.afe = d1.afe := (Alike.blocks i1).2.2.2.1.trans f.same.2.2.2.1
    refine ⟨(q hafe).1, ?_, w.1, nofun, fun _ => ⟨fun h0 => ?_, fun m => ?_⟩⟩
    · rw [(q hafe).2]; simp
    · rw [vf.1, i3 rfl _ (by omega)]
      exact ⟨_, o (by rw [hf.1]; exact h0), rfl, rfl⟩
    · have tc : t.d.chan m = d2.chan m := by rw [ea]; rfl
      have ec : e1.chan m = s.d.chan m := by unfold Dyn.chan; rw [f.same.2.2.2.2.1, hf.2.2]
      rw [tc, i2 m, ec]
      refine if_congr ?_ rfl rfl
      rw [List.mem_filter, upFrom_mem]
      refine and_congr_left' ?_
      omega
  · rw [if_pos rfl] at hx
    have f := clears_step d1 (0x4400 + b) [0x4062]
    have cl := clears_closed d1 (0x4400 + b) [0x4062]
    rw [hx] at f cl
    have hafe : d2.afe = d1.afe := f.same.2.2.2.1
    refine ⟨(q hafe).1, ?_, w.1, fun _ => ⟨cl.of hf.1.symm vf.1, ?_⟩, fun h => absurd rfl h⟩
    · rw [(q hafe).2]; simp
    · rw [ea]
      have := congrArg (fun z : Dyn => ({ z with afe := s.d.afe } : Dyn)) f.alike
      exact Eq.trans this ha

/-- The end of a self-test where none runs, or of a bank the module does not have: nothing ends; the bank goes on where it is free. -/
theorem selftest_none (b : Nat) (e1 e2 : Int) (level : Nat → Nat) (s : State) (h : s.c.fx.nBanks ≤ b ∨ (s.d.bank b).selftest = false) : selftestEnd b e1 e2 level s = visitStart b s := by
  unfold selftestEnd selftestDone
  rw [if_pos (by rcases h with h | h; exact Or.inl h; exact Or.inr (by simp [h]))]

end Sys2Proof.Machine
end

