-- ==== Sys2Proof/Laws/Moisture.lean ====
section
/-! SUPPORT. What the sweeps, calibrations and services of a moisture cell can do (R204 to R221). -/

namespace Sys2Proof.Machine

open Sys2Proof

/-- A change of one cell and its cartridge, and of the books. -/
def MStep (n : Nat) (d e : Dyn) : Prop :=
  Alike { e with mst := d.mst } d ∧ (∀ j, j ≠ n → e.cell j = d.cell j) ∧ ∀ j, j ≠ n → e.ctg j = d.ctg j

theorem MStep.refl (n : Nat) (d : Dyn) : MStep n d d := ⟨rfl, fun _ _ => rfl, fun _ _ => rfl⟩

theorem MStep.trans {n : Nat} {d e g : Dyn} (h : MStep n d e) (k : MStep n e g) : MStep n d g :=
  ⟨Eq.trans (congrArg (fun x : Dyn => ({ x with mst := d.mst } : Dyn)) k.1) h.1, fun j hj => (k.2.1 j hj).trans (h.2.1 j hj),
    fun j hj => (k.2.2 j hj).trans (h.2.2 j hj)⟩

theorem FltStep.mcell {d e : Dyn} (n : Nat) (h : FltStep d e) : MStep n d e := by
  have hm := h.same.2.2.2.2.2.1
  refine ⟨?_, fun j _ => by unfold Dyn.cell; rw [hm], fun j _ => by unfold Dyn.ctg; rw [hm]⟩
  obtain ⟨f, i, a, b, k, rfl⟩ := h
  rfl

theorem FltStep.cell {d e : Dyn} (h : FltStep d e) (j : Nat) : e.cell j = d.cell j := by unfold Dyn.cell; rw [h.same.2.2.2.2.2.1]

theorem FltStep.ctg {d e : Dyn} (h : FltStep d e) (j : Nat) : e.ctg j = d.ctg j := by unfold Dyn.ctg; rw [h.same.2.2.2.2.2.1]

theorem MStep.cell (n : Nat) (d : Dyn) (x : Cell) : MStep n d (d.setCell n x) :=
  ⟨rfl, fun j hj => by rw [setCell_get, if_neg hj], fun _ _ => rfl⟩

theorem MStep.ctg (n : Nat) (d : Dyn) (x : Ctg) : MStep n d (d.setCtg n x) :=
  ⟨rfl, fun _ _ => rfl, fun j hj => by rw [setCtg_get, if_neg hj]⟩

/-- A cell made INVALID: its state and cause, and perhaps a record. -/
theorem cellInvalid_spec (c : Cfg) (n k : Nat) (d : Dyn) :
    MStep n d (cellInvalid c n k d) ∧ (∀ j, (cellInvalid c n k d).ctg j = d.ctg j) ∧
    (cellInvalid c n k d).cell n = { d.cell n with state := 3, cause := k } := by
  unfold cellInvalid
  extract_lets x same d1
  have h1 : MStep n d d1 ∧ (∀ j, d1.ctg j = d.ctg j) ∧ d1.cell n = { d.cell n with state := 3, cause := k } :=
    ⟨MStep.cell _ _ _, fun _ => rfl, by simp [d1, x, setCell_get]⟩
  clear_value d1
  split
  · split
    · exact h1
    · rename_i code sev _ _
      have f := fault_step d1 c (0x6000 + n) code sev 0 0 false false
      exact ⟨h1.1.trans (f.mcell n), fun j => (f.ctg j).trans (h1.2.1 j), (f.cell n).trans h1.2.2⟩
  · exact h1

theorem cellInvalid_opened (c : Cfg) (n k : Nat) (d : Dyn) (code sev : Nat) (h : (d.cell n).state ≠ 3) (hc : cellFault k = some (code, sev))
    (hn : 0x6000 + n ≠ 0xD100) : Opened d (cellInvalid c n k d) (0x6000 + n) code sev 0 0 false false := by
  unfold cellInvalid
  simp only [hc]
  rw [if_neg (by simp [h])]
  exact fault_opened_after c _ _ _ _ _ _ _ rfl rfl hn

theorem putB_get (r : Regs) (a b : Nat) (v : Word) : tget (resetWord b) (r.putB a v).w b = if b = a then v else tget (resetWord b) r.w b := by
  unfold Regs.putB
  show tget (resetWord b) (r.putW a v).w b = _
  exact putW_w r a b v

theorem putB_fget (r : Regs) (a b : Nat) (v : Word) : tget (resetWord b) (r.putB a v).f b = if b = a then v else tget (resetWord b) r.f b := by
  unfold Regs.putB
  exact putF_f (r.putW a v) a b v

/-- Two words written for each entry of a list without repeats: each reads back, and nothing else changed. -/
theorem forEach_puts (l : List Nat) (hl : l.Nodup) (A B : Nat → Nat) (V W : Nat → Word) (r : Regs)
    (hAB : ∀ i j, A i ≠ B j) (hA : ∀ i j, A i = A j → i = j) (hB : ∀ i j, B i = B j → i = j) :
    let r' := forEach l r (fun e r => (r.putB (A e) (V e)).putB (B e) (W e))
    (∀ e ∈ l, tget (resetWord (A e)) r'.w (A e) = V e ∧ tget (resetWord (B e)) r'.w (B e) = W e) ∧
    (∀ a, (∀ e ∈ l, a ≠ A e ∧ a ≠ B e) → tget (resetWord a) r'.w a = tget (resetWord a) r.w a) := by
  induction l generalizing r with
  | nil => exact ⟨fun e h => absurd h List.not_mem_nil, fun a _ => rfl⟩
  | cons e l ih =>
    obtain ⟨hn, hl⟩ := List.nodup_cons.mp hl
    obtain ⟨i1, i2⟩ := ih hl ((r.putB (A e) (V e)).putB (B e) (W e))
    refine ⟨fun k hk => ?_, fun a ha => ?_⟩
    · rcases List.mem_cons.mp hk with rfl | hk
      · have x1 := i2 (A k) (fun j hj => ⟨fun hh => by rw [hA _ _ hh] at hn; exact hn hj, hAB _ _⟩)
        have x2 := i2 (B k) (fun j hj => ⟨fun hh => hAB _ _ hh.symm, fun hh => by rw [hB _ _ hh] at hn; exact hn hj⟩)
        refine ⟨x1.trans ?_, x2.trans ?_⟩
        · rw [putB_get, if_neg (hAB _ _), putB_get, if_pos rfl]
        · rw [putB_get, if_pos rfl]
      · exact i1 k hk
    · have x := i2 a (fun j hj => ha j (List.mem_cons_of_mem _ hj))
      obtain ⟨h1, h2⟩ := ha e List.mem_cons_self
      refine x.trans ?_
      rw [putB_get, if_neg h2, putB_get, if_neg h1]

theorem bit_or_pow (v : Word) (k : Nat) (hk : k < 32) : bit (v ||| BitVec.ofNat 32 (2 ^ k)) k = true := by
  have h : ((v ||| BitVec.ofNat 32 (2 ^ k)).toNat >>> k) % 2 = 1 := by
    rw [BitVec.toNat_or, BitVec.toNat_ofNat, Nat.mod_eq_of_lt (Nat.pow_lt_pow_right (by omega) hk)]
    have x : (v.toNat ||| 2 ^ k).testBit k = true := by simp [Nat.testBit_two_pow_self]
    simpa [Nat.testBit, Nat.one_and_eq_mod_two] using x
  simpa [bit, fld] using h

theorem calStored_some (n e w : Nat) (v : Int) (h : sat32 v = v) : calStored n e w (some v) = wordOf v := if_pos h

/-- The sixteenth sweep of a calibration (R213): the set's flag, its time and every entry of the set; an entry without a value the spec gives, or beyond
the register, is a free value (log entry 84). -/
theorem calDone_spec (st n : Nat) (k : CalRun) (s : State) (hst : st ≤ 1) :
    ∀ t, calDone st n k s = t → MStep n s.d t.d ∧ (∀ j, t.d.ctg j = s.d.ctg j) ∧
    (t.d.cell n).cal = none ∧ (t.d.cell n).state = 3 ∧ (t.d.cell n).cause = 12 ∧ (t.d.cell n).sweeping = (s.d.cell n).sweeping ∧
    (t.d.cell n).sweeps = (s.d.cell n).sweeps ∧ (t.d.cell n).got = [] ∧
    t.c.w (cellA n + 0x168 + 8 * st) = BitVec.ofNat 32 s.d.tim.net ∧ t.c.w (cellA n + 0x16C + 8 * st) = BitVec.ofNat 32 (s.d.tim.net / 2 ^ 32) ∧
    (k.kind = 1 → t.c.calOpen n st = true) ∧ (k.kind = 2 → t.c.calShort n st = true) ∧ t.c.img = s.c.img ∧ t.c.fx = s.c.fx ∧
    (∀ e, e < 9 → (e = 8 ∨ e < s.c.cellK n) →
      let gm := avgCol k.got false (if e = 8 then s.c.cellK n else e)
      let bm := avgCol k.got true (if e = 8 then s.c.cellK n else e)
      let q := gm * gm + bm * bm
      (k.kind = 1 → sat32 gm = gm → t.c.w (calA n st e 0) = wordOf gm) ∧ (k.kind = 1 → sat32 bm = bm → t.c.w (calA n st e 1) = wordOf bm) ∧
      (∀ v, v = rdivI (10 ^ 12 * gm) q.natAbs → k.kind = 2 → q ≠ 0 → sat32 v = v → t.c.w (calA n st e 2) = wordOf v) ∧
      (∀ v, v = rdivI (-(10 ^ 12 * bm)) q.natAbs → k.kind = 2 → q ≠ 0 → sat32 v = v → t.c.w (calA n st e 3) = wordOf v)) := by
  intro t ht
  unfold calDone at ht
  extract_lets j pair r1 v r2 t0 r3 _ c' x d1 d2 at ht
  have P := forEach_puts (List.range 9) List.nodup_range (fun e => calA n st e j) (fun e => calA n st e (j + 1))
    (fun e => calStored n e j ((pair e).map (·.1))) (fun e => calStored n e (j + 1) ((pair e).map (·.2))) s.c.reg (fun i k => by unfold calA; omega) (fun i k => by unfold calA; omega) (fun i k => by unfold calA; omega)
  have hj : j = 0 ∨ j = 2 := by show ite _ _ _ = _ ∨ ite _ _ _ = _; split <;> simp
  have W : ∀ e, e < 9 → c'.w (calA n st e j) = calStored n e j ((pair e).map (·.1)) ∧ c'.w (calA n st e (j + 1)) = calStored n e (j + 1) ((pair e).map (·.2)) := by
    intro e h1
    obtain ⟨p1, p2⟩ := P.1 e (by simp [h1])
    have q : ∀ b, cellA n + 0x40 ≤ b → b < cellA n + 0x160 → c'.w b = tget (resetWord b) r1.w b := by
      intro b hb1 hb2
      show tget (resetWord b) r3.w b = _
      rw [show r3 = (r2.putB _ _).putB _ _ from rfl, putB_get, if_neg (by omega), putB_get, if_neg (by omega), show r2 = r1.putB _ _ from rfl, putB_get, if_neg (by omega)]
    refine ⟨(q _ ?_ ?_).trans p1, (q _ ?_ ?_).trans p2⟩ <;> (unfold calA; omega)
  have F : c'.f (cellA n + 0x160) = v ||| BitVec.ofNat 32 (2 ^ (8 * st + (k.kind - 1))) := by
    show tget (resetWord _) r3.f _ = _
    rw [show r3 = (r2.putB _ _).putB _ _ from rfl, putB_fget, if_neg (by omega), putB_fget, if_neg (by omega), show r2 = r1.putB _ _ from rfl, putB_fget, if_pos rfl]
  have d1h : MStep n s.d d1 ∧ (∀ j, d1.ctg j = s.d.ctg j) ∧ (d1.cell n).cal = none ∧ (d1.cell n).state = 3 ∧ (d1.cell n).cause = 12 ∧
      (d1.cell n).sweeping = (s.d.cell n).sweeping ∧ (d1.cell n).sweeps = (s.d.cell n).sweeps ∧ (d1.cell n).got = [] := by
    refine ⟨MStep.cell _ _ _, fun _ => rfl, ?_⟩
    rw [show d1 = s.d.setCell n _ from rfl, setCell_get, if_pos rfl]
    exact ⟨rfl, rfl, rfl, rfl, rfl, rfl⟩
  have f : FltStep d1 (if c'.calOpen n st && c'.calShort n st then d2.clears (0x6000 + n) [0x6067] else d2) := by
    have f1 : FltStep d1 d2 := event_step _ _ _ _ _ _
    split
    · exact f1.trans (clears_step _ _ _)
    · exact f1
  generalize (if c'.calOpen n st && c'.calShort n st then d2.clears (0x6000 + n) [0x6067] else d2) = e at *
  obtain ⟨g1, g2, g3⟩ := d1h
  have tc : t.c = c' := by rw [← ht]
  have td : t.d = e := by rw [← ht]
  rw [tc, td]
  clear ht tc td
  refine ⟨g1.trans (f.mcell n), fun j => (f.ctg j).trans (g2 j), ?_⟩
  rw [f.cell n]
  refine ⟨g3.1, g3.2.1, g3.2.2.1, g3.2.2.2.1, g3.2.2.2.2.1, g3.2.2.2.2.2, ?_, ?_, ?_, ?_, rfl, rfl, fun e h1 h2 => ?_⟩
  · show tget (resetWord _) r3.w _ = _
    rw [show r3 = (r2.putB _ _).putB _ _ from rfl, putB_get, if_neg (by omega), putB_get, if_pos rfl]
  · show tget (resetWord _) r3.w _ = _
    rw [show r3 = (r2.putB _ _).putB _ _ from rfl, putB_get, if_pos rfl]
  · intro h
    show bit (c'.f _) _ = true
    rw [F, h]
    exact bit_or_pow v (8 * st) (by omega)
  · intro h
    show bit (c'.f _) _ = true
    rw [F, h]
    exact bit_or_pow v (8 * st + 1) (by omega)
  · obtain ⟨w1, w2⟩ := W e h1
    have hp : pair e = if k.kind = 1 then some (avgCol k.got false (if e = 8 then s.c.cellK n else e), avgCol k.got true (if e = 8 then s.c.cellK n else e))
        else if avgCol k.got false (if e = 8 then s.c.cellK n else e) * avgCol k.got false (if e = 8 then s.c.cellK n else e) +
          avgCol k.got true (if e = 8 then s.c.cellK n else e) * avgCol k.got true (if e = 8 then s.c.cellK n else e) = 0 then none
        else some (rdivI (10 ^ 12 * avgCol k.got false (if e = 8 then s.c.cellK n else e)) (avgCol k.got false (if e = 8 then s.c.cellK n else e) * avgCol k.got false (if e = 8 then s.c.cellK n else e) +
          avgCol k.got true (if e = 8 then s.c.cellK n else e) * avgCol k.got true (if e = 8 then s.c.cellK n else e)).natAbs,
          rdivI (-(10 ^ 12 * avgCol k.got true (if e = 8 then s.c.cellK n else e))) (avgCol k.got false (if e = 8 then s.c.cellK n else e) * avgCol k.got false (if e = 8 then s.c.cellK n else e) +
          avgCol k.got true (if e = 8 then s.c.cellK n else e) * avgCol k.got true (if e = 8 then s.c.cellK n else e)).natAbs) := by
      show calPair s.c n e k = _
      unfold calPair
      dsimp only
      rw [if_neg (by rcases h2 with h2 | h2 <;> omega)]
    clear_value pair
    generalize avgCol k.got false (if e = 8 then s.c.cellK n else e) = gm at hp ⊢
    generalize avgCol k.got true (if e = 8 then s.c.cellK n else e) = bm at hp ⊢
    dsimp only
    have j0 : k.kind = 1 → j = 0 := fun h => by show ite _ _ _ = _; rw [if_pos h]
    have j2 : k.kind = 2 → j = 2 := fun h => by show ite _ _ _ = _; rw [if_neg (by omega)]
    refine ⟨fun h hs => ?_, fun h hs => ?_, fun v hv h hq hs => ?_, fun v hv h hq hs => ?_⟩
    · rw [hp, if_pos h, j0 h] at w1
      exact w1.trans (calStored_some _ _ _ _ hs)
    · rw [hp, if_pos h, j0 h] at w2
      exact w2.trans (calStored_some _ _ _ _ hs)
    · rw [hp, if_neg (by omega), if_neg hq, j2 h, ← hv] at w1
      exact w1.trans (calStored_some _ _ _ _ hs)
    · rw [hp, if_neg (by omega), if_neg hq, j2 h, ← hv] at w2
      exact w2.trans (calStored_some _ _ _ _ hs)

theorem usableRtd_none (x : Cell) (ms : Nat) (h : x.rtd = none ∨ x.rtdAt + 100 < ms) : x.usableRtd ms = none := by
  unfold Cell.usableRtd
  rcases h with h | h
  · rw [h]; split <;> rfl
  · rw [if_neg (by omega)]

theorem usableRtd_some {x : Cell} {ms : Nat} {v : Int} (h : x.usableRtd ms = some v) : x.rtd = some v ∧ ms ≤ x.rtdAt + 100 := by
  unfold Cell.usableRtd at h
  split at h
  · exact ⟨h, by omega⟩
  · cases h

/-- What an INVALID result keeps. -/
def CellKept (x y : Cell) : Prop := y.m = x.m ∧ y.rho = x.rho ∧ y.temp = x.temp ∧ y.qual = x.qual ∧ y.at_ = x.at_

/-- What the last sweep of an average leaves of the cell. -/
def CellResult (c : Cfg) (n : Nat) (g : GrainCurve) (ds : Dyn) (got : List SweepRec) (lost : Prop) (x : Cell) (d : Dyn) (t : Dyn) : Prop :=
  let y := t.cell n
  MStep n d t ∧ (∀ j, t.ctg j = d.ctg j) ∧ y.sweeping = x.sweeping ∧ y.sweeps = x.sweeps ∧ y.got = [] ∧ (y.state = 1 ∨ y.state = 3) ∧
  ((∃ q ∈ got, q.drive = true) → y.state = 3 ∧ y.cause = 1) ∧
  ((∀ q ∈ got, q.drive = false) → ((∃ q ∈ got, q.ovf = true) ∨ lost) → y.state = 3 ∧ y.cause = 2) ∧
  ((∀ q ∈ got, q.drive = false) → (∀ q ∈ got, q.ovf = false) → ¬lost → (x.ctgChange = true ∨ ds.ctgOk n = false) → y.state = 3 ∧ y.cause = 3) ∧
  ((∀ q ∈ got, q.drive = false) → (∀ q ∈ got, q.ovf = false) → ¬lost → x.ctgChange = false → ds.ctgOk n = true →
    (x.rtd = none ∨ x.rtdAt + 100 < ds.ms) → y.state = 3 ∧ y.cause = 4) ∧
  (y.state = 3 → 1 ≤ y.cause ∧ y.cause ≤ 9 ∧ CellKept x y) ∧
  (y.state = 1 → y.cause = 0 ∧ (∀ q ∈ got, q.drive = false ∧ q.ovf = false) ∧ x.ctgChange = false ∧ ds.ctgOk n = true ∧ y.at_ = ds.ms ∧
    x.rtd = some y.temp ∧ ds.ms ≤ x.rtdAt + 100 ∧ g.tmin ≤ y.temp ∧ y.temp ≤ g.tmax ∧ g.mmin ≤ y.m ∧ y.m ≤ g.mmax ∧
    y.drift.natAbs ≤ c.cellRefLim n ∧ Closed ds t (0x6000 + n) [0x6060, 0x6061, 0x6062, 0x6063, 0x6064, 0x6065, 0x6066])

/-- An INVALID verdict at its place in the order of R220. -/
theorem CellResult.invalid (c : Cfg) (n : Nat) (g : GrainCurve) (ds : Dyn) (got : List SweepRec) (lost : Prop) (x : Cell) (d d' : Dyn) (k : Nat)
    (h1 : MStep n d d') (h2 : ∀ j, d'.ctg j = d.ctg j) (h3 : (d'.cell n).sweeping = x.sweeping) (h4 : (d'.cell n).sweeps = x.sweeps) (h5 : (d'.cell n).got = [])
    (h6 : CellKept x (d'.cell n)) (k1 : 1 ≤ k) (k9 : k ≤ 9)
    (a1 : (∃ q ∈ got, q.drive = true) → k = 1)
    (a2 : (∀ q ∈ got, q.drive = false) → ((∃ q ∈ got, q.ovf = true) ∨ lost) → k = 2)
    (a3 : (∀ q ∈ got, q.drive = false) → (∀ q ∈ got, q.ovf = false) → ¬lost → (x.ctgChange = true ∨ ds.ctgOk n = false) → k = 3)
    (a4 : (∀ q ∈ got, q.drive = false) → (∀ q ∈ got, q.ovf = false) → ¬lost → x.ctgChange = false → ds.ctgOk n = true →
      (x.rtd = none ∨ x.rtdAt + 100 < ds.ms) → k = 4) :
    CellResult c n g ds got lost x d (cellInvalid c n k d') := by
  obtain ⟨i1, i2, i3⟩ := cellInvalid_spec c n k d'
  unfold CellResult
  rw [i3]
  exact ⟨h1.trans i1, fun j => (i2 j).trans (h2 j), h3, h4, h5, Or.inr rfl, fun h => ⟨rfl, a1 h⟩, fun h h' => ⟨rfl, a2 h h'⟩, fun h h' h'' h3 => ⟨rfl, a3 h h' h'' h3⟩,
    fun p1 p2 p3 p4 p5 p6 => ⟨rfl, a4 p1 p2 p3 p4 p5 p6⟩, fun _ => ⟨k1, k9, h6⟩, fun h => absurd h (show (3 : Nat) ≠ 1 by decide)⟩

theorem moistureResult_spec (c : Cfg) (n st : Nat) (got : List SweepRec) (ds d : Dyn) (g : GrainCurve) (hg : c.grain (c.cellCurve n) = some g)
    (f1 : d.flt = ds.flt) (f2 : d.ctgOk n = ds.ctgOk n) (f3 : d.ms = ds.ms) :
    CellResult c n g ds got (∃ i, i ≤ c.cellK n ∧ deembedAt c n st got i (if i = c.cellK n then 8 else i) = none) (d.cell n) d (moistureResult c n st got d) := by
  unfold moistureResult
  extract_lets src x0 change d0 kk de
  have ha : ∀ p : SweepRec → Bool, got.any p = true ↔ ∃ q ∈ got, p q = true := fun p => by simp
  have hde : de.any (·.isNone) = true ↔ ∃ i, i ≤ c.cellK n ∧ deembedAt c n st got i (if i = c.cellK n then 8 else i) = none := by
    simp [de, kk, Nat.lt_succ_iff]
  have d0h : MStep n d d0 ∧ (∀ j, d0.ctg j = d.ctg j) ∧ d0.cell n = x0 ∧ d0.flt = ds.flt := ⟨MStep.cell _ _ _, fun _ => rfl, by simp [d0, setCell_get], f1⟩
  have x0h : x0.sweeping = (d.cell n).sweeping ∧ x0.sweeps = (d.cell n).sweeps ∧ x0.got = [] ∧ CellKept (d.cell n) x0 ∧ x0.rtd = (d.cell n).rtd ∧ x0.rtdAt = (d.cell n).rtdAt :=
    ⟨rfl, rfl, rfl, ⟨rfl, rfl, rfl, rfl, rfl⟩, rfl, rfl⟩
  have hch : change = (d.cell n).ctgChange := rfl
  clear_value src x0 change d0 de kk
  rw [hg]
  dsimp only
  generalize (c.spotAt n g.fa).getD 0 = a
  generalize (c.spotAt n g.fb).getD 0 = b
  obtain ⟨u0, u1, u2, u3⟩ := d0h
  obtain ⟨y1, y2, y3, y4, y5, y6⟩ := x0h
  obtain ⟨x1, hx1⟩ : ∃ x1, x1 = cellFigures c n a b de (d.ctg n) x0 := ⟨_, rfl⟩
  have x1h : x1.sweeping = (d.cell n).sweeping ∧ x1.sweeps = (d.cell n).sweeps ∧ x1.got = [] ∧ CellKept (d.cell n) x1 := by
    rw [hx1]
    unfold cellFigures
    exact ⟨y1, y2, y3, y4⟩
  rw [← hx1]
  clear hx1
  obtain ⟨d1, hd1⟩ : ∃ d1, d1 = d0.setCell n x1 := ⟨_, rfl⟩
  have d1h : MStep n d d1 ∧ (∀ j, d1.ctg j = d.ctg j) ∧ d1.cell n = x1 ∧ d1.flt = ds.flt := by
    rw [hd1]; exact ⟨u0.trans (MStep.cell _ _ _), u1, by simp [setCell_get], u3⟩
  rw [← hd1]
  clear hd1 u0 u1 u2 u3 y1 y2 y3 y4
  obtain ⟨z1, z2, z3, z4⟩ := d1h
  obtain ⟨y1, y2, y3, y4⟩ := x1h
  split
  · rename_i h
    rw [ha] at h
    exact CellResult.invalid _ _ _ _ _ _ _ _ _ _ z1 z2 (by rw [z3, y1]) (by rw [z3, y2]) (by rw [z3, y3]) (by rw [z3]; exact y4) (by omega) (by omega)
      (fun _ => rfl) (fun h' => by obtain ⟨q, q1, q2⟩ := h; simp [h' q q1] at q2) (fun h' => by obtain ⟨q, q1, q2⟩ := h; simp [h' q q1] at q2)
      (fun h' => by obtain ⟨q, q1, q2⟩ := h; simp [h' q q1] at q2)
  rename_i hd
  rw [ha] at hd
  split
  · rename_i h
    rw [Bool.or_eq_true, ha, hde] at h
    have bad : (∀ q ∈ got, q.ovf = false) → ¬ (∃ i, i ≤ c.cellK n ∧ deembedAt c n st got i (if i = c.cellK n then 8 else i) = none) → False := by
      intro p q
      rcases h with ⟨r, r1, r2⟩ | h
      · simp [p r r1] at r2
      · exact q h
    exact CellResult.invalid _ _ _ _ _ _ _ _ _ _ z1 z2 (by rw [z3, y1]) (by rw [z3, y2]) (by rw [z3, y3]) (by rw [z3]; exact y4) (by omega) (by omega)
      (fun h' => absurd h' hd) (fun _ _ => rfl) (fun _ p q => (bad p q).elim) (fun _ p q => (bad p q).elim)
  rename_i ho
  rw [Bool.or_eq_true, ha, hde] at ho
  split
  · rename_i h
    have bad : change = false → ds.ctgOk n = true → False := by
      intro p q
      rw [p, f2, q] at h
      simp at h
    exact CellResult.invalid _ _ _ _ _ _ _ _ _ _ z1 z2 (by rw [z3, y1]) (by rw [z3, y2]) (by rw [z3, y3]) (by rw [z3]; exact y4) (by omega) (by omega)
      (fun h' => absurd h' hd) (fun _ h' => absurd h' ho) (fun _ _ _ _ => rfl) (fun _ _ _ p q => (bad (hch.trans p) q).elim)
  rename_i hc
  have hc1 : (d.cell n).ctgChange = false := by rw [← hch]; simp at hc; exact hc.1
  have hc2 : ds.ctgOk n = true := by rw [← f2]; simp at hc; exact hc.2
  have nc : ((d.cell n).ctgChange = true ∨ ds.ctgOk n = false) → False := by rintro (h | h); simp [hc1] at h; simp [hc2] at h
  split
  · exact CellResult.invalid _ _ _ _ _ _ _ _ _ _ z1 z2 (by rw [z3, y1]) (by rw [z3, y2]) (by rw [z3, y3]) (by rw [z3]; exact y4) (by omega) (by omega)
      (fun h' => absurd h' hd) (fun _ h' => absurd h' ho) (fun _ _ _ p => (nc p).elim) (fun _ _ _ _ _ _ => rfl)
  rename_i temp ht
  obtain ⟨u1, u2⟩ := usableRtd_some ht
  rw [y5] at u1
  rw [y6, f3] at u2
  have nt : ((d.cell n).rtd = none ∨ (d.cell n).rtdAt + 100 < ds.ms) → False := by
    rintro (h | h)
    · rw [h] at u1; cases u1
    · omega
  generalize sat32 (nth 0 x1.eps1 a - 65536) = dd
  have inv : ∀ k, 5 ≤ k → k ≤ 9 → CellResult c n g ds got (∃ i, i ≤ c.cellK n ∧ deembedAt c n st got i (if i = c.cellK n then 8 else i) = none) (d.cell n) d (cellInvalid c n k d1) :=
    fun k k5 k9 => CellResult.invalid _ _ _ _ _ _ _ _ _ _ z1 z2 (by rw [z3, y1]) (by rw [z3, y2]) (by rw [z3, y3]) (by rw [z3]; exact y4) (by omega) k9
      (fun h' => absurd h' hd) (fun _ h' => absurd h' ho) (fun _ _ _ p => (nc p).elim) (fun _ _ _ _ _ p => (nt p).elim)
  split
  · exact inv 5 (by omega) (by omega)
  rename_i hr
  split
  · exact inv 6 (by omega) (by omega)
  split
  · exact inv 7 (by omega) (by omega)
  generalize moistureOf g (nth 0 x1.eps1 a) (nth 0 x1.eps1 b) (nth 0 x1.eps2 b) temp = mr
  split
  · exact inv 8 (by omega) (by omega)
  rename_i hT
  split
  · exact inv 9 (by omega) (by omega)
  rename_i hM
  have key : ∀ x2 : Cell, x2.sweeping = (d.cell n).sweeping → x2.sweeps = (d.cell n).sweeps → x2.got = [] → x2.state = 1 → x2.cause = 0 → x2.m = mr.1 →
      x2.temp = temp → x2.at_ = d.ms → x2.drift = x1.drift → CellResult c n g ds got (∃ i, i ≤ c.cellK n ∧ deembedAt c n st got i (if i = c.cellK n then 8 else i) = none)
        (d.cell n) d ((d1.setCell n x2).clears (0x6000 + n) [0x6060, 0x6061, 0x6062, 0x6063, 0x6064, 0x6065, 0x6066]) := by
    intro x2 b1 b2 b3 b4 b5 b6 b7 b8 b9
    have fs := clears_step (d1.setCell n x2) (0x6000 + n) [0x6060, 0x6061, 0x6062, 0x6063, 0x6064, 0x6065, 0x6066]
    have cl := clears_closed (d1.setCell n x2) (0x6000 + n) [0x6060, 0x6061, 0x6062, 0x6063, 0x6064, 0x6065, 0x6066]
    generalize Dyn.clears _ _ _ = e at *
    have ec : e.cell n = x2 := (fs.cell n).trans (by rw [setCell_get, if_pos rfl])
    have em := (z1.trans (MStep.cell n d1 _)).trans (fs.mcell n)
    unfold CellResult
    dsimp only
    rw [ec, b4, b5, b6, b7, b8, b9]
    exact ⟨em, fun j => (fs.ctg j).trans (z2 j), b1, b2, b3, Or.inl rfl, fun h' => absurd h' hd, fun _ h' => absurd h' ho, fun _ _ _ p => (nc p).elim,
      fun _ _ _ _ _ p => (nt p).elim, fun h => absurd h (show (1 : Nat) ≠ 3 by decide), fun _ => ⟨rfl, fun p hp => ⟨by
        by_contra hh
        exact hd ⟨p, hp, by simpa using hh⟩, by
        by_contra hh
        exact ho (Or.inl ⟨p, hp, by simpa using hh⟩)⟩, hc1, hc2, f3, u1, u2, by omega, by omega, by omega, by omega, by omega, cl.of z4.symm rfl⟩⟩
  exact key _ y1 y2 y3 rfl rfl rfl rfl rfl rfl

end Sys2Proof.Machine
end

