-- ==== Sys2Proof/Laws/Control.lean ====
section
/-! SUPPORT. What writes to LOOP_MODE and a trace channel's commands can do (R285, R303, R324). -/

namespace Sys2Proof.Machine

open Sys2Proof

theorem shadow_w (r : Regs) (a b : Nat) (v : Word) : tget (resetWord b) (r.shadow a v).w b = if b = a then v else tget (resetWord b) r.w b := putW_w r a b v

theorem shadow_f (r : Regs) (a : Nat) (v : Word) : (r.shadow a v).f = r.f := rfl

theorem FltStep.trc {d e : Dyn} (h : FltStep d e) (j : Nat) : e.trc j = d.trc j := by unfold Dyn.trc; rw [h.same.2.2.2.2.2.2.2.2.1]

end Sys2Proof.Machine
end

