-- ==== Sys2Proof/Laws/Seq.lean ====
section
/-! SUPPORT. What the commands of Drafts and units, a step's entry and a unit's fault can do (R336 to R350). -/

namespace Sys2Proof.Machine

open Sys2Proof

/-- What an entry action of Draft `n`, and the end of a step entry, leave alone. -/
def DrStep (n : Nat) (d e : Dyn) : Prop :=
  Alike { e with seq := d.seq } d ∧ (∀ j, j ≠ n → e.draft j = d.draft j) ∧
  (e.draft n).step = (d.draft n).step ∧ (e.draft n).prev = (d.draft n).prev ∧ (e.draft n).time = (d.draft n).time ∧ (e.draft n).atMs = (d.draft n).atMs ∧
  (e.draft n).entry = (d.draft n).entry ∧ (e.draft n).aborts = (d.draft n).aborts

theorem DrStep.refl (n : Nat) (d : Dyn) : DrStep n d d := ⟨rfl, fun _ _ => rfl, rfl, rfl, rfl, rfl, rfl, rfl⟩

theorem DrStep.trans {n : Nat} {d e g : Dyn} (h : DrStep n d e) (k : DrStep n e g) : DrStep n d g := by
  obtain ⟨h0, h1, h2, h3, h4, h5, h6, h7⟩ := h
  obtain ⟨k0, k1, k2, k3, k4, k5, k6, k7⟩ := k
  exact ⟨Eq.trans (congrArg (fun x : Dyn => ({ x with seq := d.seq } : Dyn)) k0) h0, fun j hj => (k1 j hj).trans (h1 j hj), k2.trans h2, k3.trans h3, k4.trans h4,
    k5.trans h5, k6.trans h6, k7.trans h7⟩

theorem FltStep.draft {d e : Dyn} (h : FltStep d e) (j : Nat) : e.draft j = d.draft j := by unfold Dyn.draft; rw [h.same.2.2.2.2.2.2.2.2.2.2.1]

theorem FltStep.unit {d e : Dyn} (h : FltStep d e) (j : Nat) : e.unit j = d.unit j := by unfold Dyn.unit; rw [h.same.2.2.2.2.2.2.2.2.2.2.1]

theorem FltStep.seqAlike {d e : Dyn} (h : FltStep d e) : Alike { e with seq := d.seq } d := by
  obtain ⟨f, i, a, b, k, rfl⟩ := h
  rfl

theorem FltStep.dr {d e : Dyn} (n : Nat) (h : FltStep d e) : DrStep n d e := by
  have k := h.draft n
  exact ⟨h.seqAlike, fun j _ => h.draft j, by rw [k], by rw [k], by rw [k], by rw [k], by rw [k], by rw [k]⟩

/-- A change of the sequencer outside the Drafts. -/
theorem DrStep.of {n : Nat} {d e : Dyn} (h : { e with seq := d.seq } = d) (k : e.seq.drafts = d.seq.drafts) : DrStep n d e := by
  have g : ∀ j, e.draft j = d.draft j := fun j => by unfold Dyn.draft; rw [k]
  exact ⟨congrArg Dyn.silent h, fun j _ => g j, by rw [g], by rw [g], by rw [g], by rw [g], by rw [g], by rw [g]⟩

theorem DrStep.put (n : Nat) (d : Dyn) (x : Draft) (h : x.step = (d.draft n).step ∧ x.prev = (d.draft n).prev ∧ x.time = (d.draft n).time ∧ x.atMs = (d.draft n).atMs ∧
    x.entry = (d.draft n).entry ∧ x.aborts = (d.draft n).aborts) : DrStep n d (d.setDraft n x) := by
  have k : (d.setDraft n x).draft n = x := by rw [setDraft_get, if_pos rfl]
  refine ⟨rfl, fun j hj => by rw [setDraft_get, if_neg hj], ?_⟩
  rw [k]
  exact h

theorem DrStep.each {n : Nat} {g : Nat → Dyn → Dyn} (l : List Nat) (d : Dyn) (h : ∀ k t, DrStep n t (g k t)) : DrStep n d (forEach l d g) :=
  forEach_keeps (DrStep n d) l d g (fun k _ hs => hs.trans (h k _)) (DrStep.refl n d)

theorem ackUnit_dr (n v : Nat) (d : Dyn) : DrStep n d (ackUnit v d) := by
  unfold ackUnit
  dsimp only
  split
  · exact DrStep.of rfl rfl
  · exact DrStep.refl _ _

theorem ackTree_dr (c : Cfg) (n u : Nat) (d : Dyn) : DrStep n d (ackTree c u d) := by
  refine DrStep.each _ _ (fun k t => ?_)
  split
  · exact ackUnit_dr _ _ _
  · exact DrStep.refl _ _

theorem flags_dr (n : Nat) (d : Dyn) (f : Nat) : DrStep n d { d with seq := { d.seq with flags := f } } := DrStep.of rfl rfl

theorem DrStep.refs (n : Nat) (d : Dyn) (l : List (Nat × Nat)) : DrStep n d (d.setDraft n { d.draft n with lostRefs := l }) := DrStep.put n d _ ⟨rfl, rfl, rfl, rfl, rfl, rfl⟩

theorem lostRef_dr (n : Nat) (p : Nat × Nat) (d : Dyn) : DrStep n d (lostRef n p d) := DrStep.refs n d _

theorem foundRef_dr (n : Nat) (p : Nat × Nat) (d : Dyn) : DrStep n d (foundRef n p d) := by
  unfold foundRef
  extract_lets x d1
  have h1 : DrStep n d d1 := DrStep.refs n d _
  clear_value d1
  split
  · split
    · exact h1.trans ((clears_step _ _ _).dr n)
    · exact h1
  · exact DrStep.refl _ _

theorem runAction_dr (c : Cfg) (i : PassIn) (n a : Nat) (d : Dyn) : DrStep n d (runAction c i n a d) := by
  unfold runAction
  generalize c.f (draftA n (0x1020 + 12 * a)) = w
  generalize c.f (draftA n (0x1028 + 12 * a)) = rf
  generalize c.f (draftA n (0x1024 + 12 * a)) = w1
  dsimp only
  generalize sword w1 = v
  generalize fld w 16 16 = idx
  generalize fld w 0 8 = op
  split
  · exact DrStep.of rfl rfl
  · exact DrStep.of rfl rfl
  · exact ackTree_dr _ _ _ _
  · exact flags_dr _ _ _
  · exact (event_step _ _ _ _ _ _).dr n
  · generalize fld rf 0 8 = r1
    generalize fld rf 16 16 = r2
    generalize ((op == 4 || op == 6 || op == 7 || op == 9) && r1 != 0) = useRef
    generalize (if useRef = true then _ else _ : Option Int) = val
    cases val with
    | none => exact (lostRef_dr _ _ _).trans ((fault_step _ _ _ _ _ _ _ _ _).dr n)
    | some y =>
      dsimp only
      have h1 : DrStep n d (if useRef = true then foundRef n (r1, r2) d else d) := by
        split
        · exact foundRef_dr _ _ _
        · exact DrStep.refl _ _
      generalize (if useRef = true then foundRef n (r1, r2) d else d) = d1 at h1 ⊢
      generalize actWrite op idx y = q
      cases q with
      | none => exact h1
      | some q => exact h1.trans (DrStep.of rfl rfl)

theorem enterStep_spec (c : Cfg) (i : PassIn) (n s entry tr : Nat) (d : Dyn) : ∀ e, enterStep c i n s entry tr d = e →
    Alike { e with seq := d.seq } d ∧ (∀ j, j ≠ n → e.draft j = d.draft j) ∧ (e.draft n).step = s ∧ (e.draft n).prev = (d.draft n).step ∧ (e.draft n).time = 0 ∧
    (e.draft n).atMs = i.ms ∧ (e.draft n).entry = entry ∧ (e.draft n).aborts = (d.draft n).aborts := by
  intro e he
  unfold enterStep at he
  extract_lets d0 x d1 d2 y d3 at he
  have f0 : FltStep d d0 := clears_step _ _ _
  have x0 : x = d.draft n := f0.draft n
  have h1 : Alike { d1 with seq := d.seq } d ∧ (∀ j, j ≠ n → d1.draft j = d.draft j) ∧ d1.draft n = { x with prev := x.step, step := s, time := 0, atMs := i.ms, entry := entry, trans := tr, entries := satInc 16 x.entries } := by
    refine ⟨?_, fun j hj => ?_, by rw [show d1 = d0.setDraft n _ from rfl, setDraft_get, if_pos rfl]⟩
    · exact f0.seqAlike
    · rw [show d1 = d0.setDraft n _ from rfl, setDraft_get, if_neg hj]
      exact f0.draft j
  have h2 : DrStep n d1 d2 := DrStep.each _ _ (fun k t => runAction_dr c i n k t)
  have h3 : DrStep n d2 d3 := by
    show DrStep n d2 (ite _ _ _)
    split
    · exact DrStep.put n d2 _ ⟨rfl, rfl, rfl, rfl, rfl, rfl⟩
    · exact DrStep.refl _ _
  have h4 : DrStep n d3 e := by
    split at he <;> subst he
    · exact (event_step _ _ _ _ _ _).dr n
    · exact DrStep.refl _ _
  clear_value d3 y d2 d1 x d0
  obtain ⟨a0, a1, a2, a3, a4, a5, a6, a7⟩ := (h2.trans h3).trans h4
  obtain ⟨b0, b1, b2⟩ := h1
  rw [b2] at a2 a3 a4 a5 a6 a7
  exact ⟨Eq.trans (congrArg (fun x : Dyn => ({ x with seq := d.seq } : Dyn)) a0) b0, fun j hj => (a1 j hj).trans (b1 j hj), a2, by rw [a3, x0], a4, a5, a6, by rw [a7, x0]⟩

theorem setUnit_self (d : Dyn) (n : Nat) (x : UnitS) : (d.setUnit n x).unit n = x := by rw [setUnit_get, if_pos rfl]

/-- A change of one unit, and of the books. -/
def UnStep (u : Nat) (d e : Dyn) : Prop := Alike { e with seq := d.seq } d ∧ ∀ j, j ≠ u → e.unit j = d.unit j

theorem UnStep.trans {u : Nat} {d e g : Dyn} (h : UnStep u d e) (k : UnStep u e g) : UnStep u d g :=
  ⟨Eq.trans (congrArg (fun x : Dyn => ({ x with seq := d.seq } : Dyn)) k.1) h.1, fun j hj => (k.2 j hj).trans (h.2 j hj)⟩

theorem UnStep.put (u : Nat) (d : Dyn) (x : UnitS) : UnStep u d (d.setUnit u x) := ⟨rfl, fun j hj => by rw [setUnit_get, if_neg hj]⟩

theorem FltStep.un {d e : Dyn} (u : Nat) (h : FltStep d e) : UnStep u d e := ⟨h.seqAlike, fun j _ => h.unit j⟩

theorem putUnit_spec (c : Cfg) (u old : Nat) (x : UnitS) (d : Dyn) : UnStep u d (putUnit c u old x d) ∧ (putUnit c u old x d).unit u = x ∧
    (putUnit c u old x d).tim = d.tim ∧ ∀ m, (putUnit c u old x d).flt.find m = d.flt.find m := by
  unfold putUnit
  dsimp only
  split
  · have f := event_step (d.setUnit u x) (0xC000 + u) 0xC068 0 u old
    exact ⟨(UnStep.put u d x).trans (f.un u), (f.unit u).trans (setUnit_self _ _ _), f.same.1, fun m => event_find _ _ _ _ _ _ m⟩
  · exact ⟨UnStep.put u d x, setUnit_self _ _ _, rfl, fun _ => rfl⟩

theorem unitFault_spec (c : Cfg) (u cause ms : Nat) (d : Dyn) (hu : u < 256) : ∀ e, unitFault c u cause ms d = e →
    UnStep u d e ∧ (e.unit u).state = 4 ∧ (e.unit u).cause = cause ∧ (e.unit u).fresh = false ∧ (e.unit u).acked = false ∧ (e.unit u).isOpen = true ∧
    (e.unit u).newFault = true ∧ (e.unit u).cmd = (d.unit u).cmd ∧ (e.unit u).enterMs = ms ∧
    (d.flt.find (0xC000 + u) = none → ∃ r, e.flt.find (0xC000 + u) = some r ∧ r.code = 0xC05F + cause ∧ r.sev = 2 ∧ r.acked = false) ∧
    (∀ m, m ≠ 0xC000 + u → m ≠ 0xD100 → e.flt.find m = d.flt.find m) := by
  intro e he
  unfold unitFault at he
  extract_lets x src y at he
  obtain ⟨p1, p2, p3, p4⟩ := putUnit_spec c u x.state y d
  have f := fault_step (putUnit c u x.state y d) c (0xC000 + u) (0xC05F + cause) 2 0 0 false false
  have o := fault_opened (putUnit c u x.state y d) c (0xC000 + u) (0xC05F + cause) 2 0 0 false false (by omega)
  have yh : y.state = 4 ∧ y.cause = cause ∧ y.fresh = false ∧ y.acked = false ∧ y.isOpen = true ∧ y.newFault = true ∧ y.cmd = (d.unit u).cmd ∧ y.enterMs = ms := ⟨rfl, rfl, rfl, rfl, rfl, rfl, rfl, rfl⟩
  clear_value y src x
  generalize putUnit c u x.state y d = d1 at *
  have fu := (f.unit u).trans p2
  rw [he] at f o fu
  rw [fu]
  obtain ⟨y1, y2, y3, y4, y5, y6, y7, y8⟩ := yh
  refine ⟨p1.trans (f.un u), y1, y2, y3, y4, y5, y6, y7, y8, fun h => ?_, fun m m1 m2 => (o.2 m m1 m2).trans (p4 m)⟩
  exact ⟨_, o.1 ((p4 _).trans h), rfl, rfl, rfl⟩

/-- What gives a leaf unit its cause, in the order of R336. -/
theorem unitCause_iff (c : Cfg) (u : Nat) (i : PassIn) (y : UnitS) :
    let sound : Prop := i.trips.contains u = false ∧ unitLatched c i.z u = false
    let trip1 : Prop := heldFor y.trip1At (c.fF (unitA u 19) 0 16) i.ms = true
    let trip2 : Prop := heldFor y.trip2At (c.fF (unitA u 19) 16 16) i.ms = true
    let ploss : Prop := heldFor y.plossAt (c.fF (unitA u 3) 16 16) i.ms = true
    let sw := c.fF (unitA u 2) 16 16
    let tw := c.fF (unitA u 3) 0 16
    (unitCause c i u y = 1 ↔ y.state = 1 ∧ sound ∧ ¬trip1 ∧ 0 < sw ∧ unitProof c i u = false ∧ y.enterMs + 100 * sw ≤ i.ms) ∧
    (unitCause c i u y = 2 ↔ y.state = 3 ∧ sound ∧ 0 < tw ∧ unitRest c i u = false ∧ y.enterMs + 100 * tw ≤ i.ms) ∧
    (unitCause c i u y = 3 ↔ y.state = 2 ∧ sound ∧ ¬trip1 ∧ ¬trip2 ∧ ploss) ∧
    (unitCause c i u y = 4 ↔ ((y.state = 1 ∨ y.state = 2) ∧ sound ∧ trip1) ∨ (3 < y.state ∧ y.state ≠ 4 ∧ sound ∧ trip1)) ∧
    (unitCause c i u y = 5 ↔ y.state = 2 ∧ sound ∧ ¬trip1 ∧ trip2) := by
  unfold unitCause
  dsimp only
  generalize y.state = q
  generalize i.trips.contains u = a
  generalize unitLatched c i.z u = b
  generalize heldFor _ _ _ = t1
  generalize heldFor y.trip2At _ _ = t2
  generalize heldFor y.plossAt _ _ = t3
  generalize unitProof c i u = p
  generalize unitRest c i u = r
  generalize c.fF (unitA u 2) 16 16 = sw
  generalize c.fF (unitA u 3) 0 16 = tw
  generalize y.enterMs = em
  by_cases q0 : q = 0 ∨ q = 4
  · rw [if_pos q0]
    and_intros <;> constructor <;> intro h <;> omega
  rw [if_neg q0]
  cases a
  · cases b
    · cases t1 <;> cases t2 <;> cases t3 <;> cases p <;> cases r <;> simp <;> (repeat' split) <;> simp <;> omega
    · simp
  · simp

theorem unitCmd_do (c : Cfg) (u kind : Nat) (d : Dyn) (h1 : u < c.fx.nUnits) (h2 : kind = 3 ∨ c.unitCmdr u = 0) (h3 : c.unitEn u = true) :
    unitCmd c u kind d = unitDo c u kind (d.setUnit u { d.unit u with cmdResult := 0 }) := by
  unfold unitCmd
  rw [if_neg (by omega), if_neg (by omega)]
  exact if_pos h3

theorem unitDo_wait (c : Cfg) (u kind : Nat) (d : Dyn) (h : d.seq.passMs ≠ none) :
    unitDo c u kind d = { d with seq := { d.seq with defer := d.seq.defer ++ [{ unit := u, kind := kind }] } } :=
  if_pos (Option.isSome_iff_ne_none.mpr h)

theorem unitDo_now (c : Cfg) (u kind : Nat) (d : Dyn) (h : d.seq.passMs = none) :
    unitDo c u kind d = if kind = 3 then ackTree c u d else setCmd u (kind == 1) d :=
  if_neg (by rw [h]; decide)

theorem ackUnit_unit (v j : Nat) (d : Dyn) : ((ackUnit v d).unit j).state = (d.unit j).state ∧ ((ackUnit v d).unit j).cmd = (d.unit j).cmd ∧
    ((ackUnit v d).unit j).acked = (if j = v ∧ (d.unit j).state = 4 then true else (d.unit j).acked) ∧ { ackUnit v d with seq := d.seq } = d := by
  unfold ackUnit
  dsimp only
  by_cases h : (d.unit v).state = 4
  · rw [if_pos h]
    by_cases hj : j = v
    · subst hj
      rw [setUnit_self, if_pos ⟨rfl, h⟩]
      exact ⟨rfl, rfl, rfl, rfl⟩
    · rw [setUnit_get, if_neg hj, if_neg (fun k => hj k.1)]
      exact ⟨rfl, rfl, rfl, rfl⟩
  · rw [if_neg h]
    refine ⟨rfl, rfl, ?_, rfl⟩
    rw [if_neg]
    rintro ⟨rfl, k⟩
    exact h k

/-- An acknowledgement of a list of units (R337): those of the tree in FAULT, and nothing else. -/
theorem ackList (c : Cfg) (u : Nat) (l : List Nat) (d : Dyn) (j : Nat) :
    let t := forEach l d (fun v d => if c.under u 256 v then ackUnit v d else d)
    (t.unit j).state = (d.unit j).state ∧ (t.unit j).cmd = (d.unit j).cmd ∧
    (t.unit j).acked = (if j ∈ l ∧ c.under u 256 j = true ∧ (d.unit j).state = 4 then true else (d.unit j).acked) ∧ { t with seq := d.seq } = d := by
  induction l generalizing d with
  | nil => exact ⟨rfl, rfl, by simp [forEach], rfl⟩
  | cons v l ih =>
    have i := ih (if c.under u 256 v then ackUnit v d else d)
    have a := ackUnit_unit v j d
    have e : forEach (v :: l) d (fun v d => if c.under u 256 v then ackUnit v d else d) = forEach l (if c.under u 256 v then ackUnit v d else d) (fun v d => if c.under u 256 v then ackUnit v d else d) := rfl
    intro t
    have et : t = _ := e
    rw [et]
    generalize forEach l _ _ = t' at *
    obtain ⟨i1, i2, i3, i4⟩ := i
    by_cases hv : c.under u 256 v = true
    · rw [if_pos hv] at i1 i2 i3 i4
      obtain ⟨a1, a2, a3, a4⟩ := a
      refine ⟨i1.trans a1, i2.trans a2, ?_, ?_⟩
      · rw [i3, a1, a3]
        by_cases hs : (d.unit j).state = 4
        · by_cases hj : j = v
          · subst hj
            simp [hs, hv]
          · simp [hj, hs]
        · simp [hs]
      · calc ({ t' with seq := d.seq } : Dyn) = { ({ t' with seq := (ackUnit v d).seq } : Dyn) with seq := d.seq } := rfl
          _ = { ackUnit v d with seq := d.seq } := by rw [i4]
          _ = d := a4
    · rw [if_neg hv] at i1 i2 i3 i4
      refine ⟨i1, i2, ?_, i4⟩
      rw [i3]
      by_cases hj : j = v
      · subst hj
        simp [hv]
      · simp [hj]

theorem unitEv_leaf (c : Cfg) (u k : Nat) (d : Dyn) (hk : k ≠ 0) : 
    (c.unitEn u = false ∨ d.glb.st ≠ .run → unitCauseEv c u k d = d) ∧
    (c.unitEn u = true → d.glb.st = .run → c.unitKind u ≠ 6 → unitCause c (passNow c d) u (unitSeen c (passNow c d) u (d.unit u)) ≠ k → unitCauseEv c u k d = d) ∧
    (c.unitEn u = true → d.glb.st = .run → c.unitKind u ≠ 6 → unitCause c (passNow c d) u (unitSeen c (passNow c d) u (d.unit u)) = k →
      unitCauseEv c u k d = unitFault c u k d.ms (d.setUnit u (unitSeen c (passNow c d) u (d.unit u)))) ∧
    (c.unitEn u = true → d.glb.st = .run → c.unitKind u = 6 → unitCauseEv c u k d = d ∨ ((d.unit u).state ≠ 4 ∧ ((unitCauseEv c u k d).unit u).state = 4 ∧
      ((unitCauseEv c u k d).unit u).cause = k)) := by
  unfold unitCauseEv
  dsimp only
  refine ⟨fun h => if_neg (by rcases h with h | h <;> simp [h]), fun h1 h2 h3 h4 => ?_, fun h1 h2 h3 h4 => ?_, fun h1 h2 h3 => ?_⟩
  · rw [if_pos (by simp [h1, h2]), if_neg h3, if_neg h4]
  · rw [if_pos (by simp [h1, h2]), if_neg h3, if_pos h4]
    rfl
  · rw [if_pos (by simp [h1, h2]), if_pos h3]
    split
    · rename_i h
      exact Or.inr ⟨h.1, h.2.2, h.2.1⟩
    · exact Or.inl rfl

end Sys2Proof.Machine
end

