-- ==== Sys2Proof/Laws/Time.lean ====
section
/-! SUPPORT. What steps and slews of network time and the timed actions can do (R453 to R463), and a write to a table of words. -/

namespace Sys2Proof.Machine

open Sys2Proof

theorem FltStep.act {d e : Dyn} (h : FltStep d e) (j : Nat) : e.act j = d.act j := by unfold Dyn.act; rw [h.same.1]

theorem FltStep.port {d e : Dyn} (h : FltStep d e) (j : Nat) : e.port j = d.port j := by
  obtain ⟨f, i, a, b, k, rfl⟩ := h
  rfl

theorem event_pwr (d : Dyn) (src code sev a b : Nat) : (d.event src code sev a b).pwr = d.pwr := by
  unfold Dyn.event Dyn.eventAt
  dsimp only
  repeat' split
  all_goals rfl

/-- A change of the ports, and of the books other than the records. -/
def CanStep (d e : Dyn) : Prop := e.tim = d.tim ∧ e.arc = d.arc ∧ (∀ m, e.flt.find m = d.flt.find m) ∧ Alike { e with can := d.can } d

theorem CanStep.refl (d : Dyn) : CanStep d d := ⟨rfl, rfl, fun _ => rfl, rfl⟩

theorem CanStep.trans {d e g : Dyn} (h : CanStep d e) (k : CanStep e g) : CanStep d g := by
  obtain ⟨h1, h2, h3, h4⟩ := h
  obtain ⟨k1, k2, k3, k4⟩ := k
  exact ⟨k1.trans h1, k2.trans h2, fun m => (k3 m).trans (h3 m), Eq.trans (congrArg (fun x : Dyn => ({ x with can := d.can } : Dyn)) k4) h4⟩

theorem CanStep.put (d : Dyn) (p : Nat) (x : Port) : CanStep d (d.setPort p x) := ⟨rfl, rfl, fun _ => rfl, rfl⟩

theorem event_can (d : Dyn) (src code sev a b : Nat) : CanStep d (d.event src code sev a b) := by
  have h := event_step d src code sev a b
  refine ⟨h.same.1, h.same.2.2.1, fun m => event_find _ _ _ _ _ _ m, ?_⟩
  obtain ⟨f, i, x, y, k, e⟩ := h
  rw [e]
  rfl

theorem launchFail_spec (c : Cfg) (p e res : Nat) (d : Dyn) : CanStep d (launchFail c p e res d) ∧
    (∀ q, q ≠ p → (launchFail c p e res d).port q = d.port q) ∧
    ∀ k, ((launchFail c p e res d).port p).launch k = if k = e then { (d.port p).launch e with state := 4, txres := res } else (d.port p).launch k := by
  unfold launchFail
  dsimp only
  unfold txFailed
  have f : ∀ y : Port, FltStep (d.setPort p y) ((d.setPort p y).event (mbxSrc p (c.launchMb p e)) 0xE067 0 (c.launchMb p e) res) := fun y => event_step _ _ _ _ _ _
  refine ⟨(CanStep.put d p _).trans (event_can _ _ _ _ _ _), fun q hq => ((f _).port q).trans (setPort_other _ _ _ _ hq), fun k => ?_⟩
  rw [(f _).port, setPort_same, setMb_launch]
  by_cases h : k = e
  · subst h; rw [setLaunch_same, if_pos rfl]
  · rw [setLaunch_other _ _ _ _ h, if_neg h]

theorem launchClosed_of (c : Cfg) (d : Dyn) (p e : Nat) (h : c.launchNet p e = true) : launchClosed c d p e = decide (((d.port p).launch e).due + c.launchWin p e * 2 ^ 32 / 1000000 ≤ d.tim.net) := by
  unfold launchClosed Dyn.bound
  dsimp only
  rw [h, if_pos rfl]

/-- What a fold over numbers makes of the things it visits one by one. -/
theorem forEach_point {σ β : Type} (R : σ → σ → Prop) (hr : ∀ s, R s s) (ht : ∀ a b c, R a b → R b c → R a c) (get : σ → Nat → β) (step : Nat → σ → σ) (val : Nat → σ → β)
    (h1 : ∀ k s, R s (step k s)) (h2 : ∀ k s j, get (step k s) j = if j = k then val k s else get s j)
    (h3 : ∀ s t k, R s t → get t k = get s k → val k t = val k s) :
    ∀ (l : List Nat) (s : σ), l.Nodup → R s (forEach l s step) ∧ ∀ j, get (forEach l s step) j = if j ∈ l then val j s else get s j := by
  intro l
  induction l with
  | nil => intro s _; exact ⟨hr s, fun j => by simp [forEach]⟩
  | cons a l ih =>
    intro s hl
    obtain ⟨ha, hl'⟩ := List.nodup_cons.mp hl
    obtain ⟨g1, g2⟩ := ih (step a s) hl'
    refine ⟨ht _ _ _ (h1 a s) g1, fun j => ?_⟩
    have e := g2 j
    show get (forEach l (step a s) step) j = _
    rw [e]
    by_cases hj : j = a
    · subst hj
      rw [if_neg ha, h2, if_pos rfl, if_pos List.mem_cons_self]
    · by_cases hm : j ∈ l
      · rw [if_pos hm, if_pos (List.mem_cons_of_mem _ hm)]
        exact h3 _ _ _ (h1 a s) (by rw [h2, if_neg hj])
      · rw [if_neg hm, h2, if_neg hj, if_neg (by simp [hj, hm])]

/-- One launch entry after a step of network time. -/
def steppedLaunch (c : Cfg) (net p e : Nat) (l : Launch) : Launch :=
  if l.state = 1 ∧ c.launchNet p e = true ∧ l.due + c.launchWin p e * 2 ^ 32 / 1000000 ≤ net then { l with state := 4, txres := 4 } else l

theorem canStep_one (c : Cfg) (p k : Nat) (s : Dyn) : ∀ g, (if ((s.port p).launch k).state = 1 ∧ c.launchNet p k = true ∧ launchClosed c s p k = true then launchFail c p k 4 s else s) = g →
    CanStep s g ∧ (∀ q, q ≠ p → g.port q = s.port q) ∧ ∀ j, (g.port p).launch j = if j = k then steppedLaunch c s.tim.net p k ((s.port p).launch k) else (s.port p).launch j := by
  intro g hg
  by_cases h : ((s.port p).launch k).state = 1 ∧ c.launchNet p k = true ∧ launchClosed c s p k = true
  · rw [if_pos h] at hg
    subst hg
    obtain ⟨h1, h2, h3⟩ := launchFail_spec c p k 4 s
    refine ⟨h1, h2, fun j => (h3 j).trans ?_⟩
    have hc := h.2.2
    rw [launchClosed_of c s p k h.2.1, decide_eq_true_eq] at hc
    have e : steppedLaunch c s.tim.net p k ((s.port p).launch k) = { (s.port p).launch k with state := 4, txres := 4 } := if_pos ⟨h.1, h.2.1, hc⟩
    rw [e]
  · rw [if_neg h] at hg
    subst hg
    refine ⟨CanStep.refl _, fun _ _ => rfl, fun j => ?_⟩
    have : steppedLaunch c s.tim.net p k ((s.port p).launch k) = (s.port p).launch k := by
      unfold steppedLaunch
      rw [if_neg]
      rintro ⟨a, b, e⟩
      exact h ⟨a, b, by rw [launchClosed_of c s p k b, decide_eq_true_eq]; exact e⟩
    rw [this]
    split
    · next h => rw [h]
    · rfl

theorem canStep_port (c : Cfg) (p : Nat) (s : Dyn) : ∀ g, forEach (List.range 16) s (fun e d =>
      if ((d.port p).launch e).state = 1 ∧ c.launchNet p e ∧ launchClosed c d p e then launchFail c p e 4 d else d) = g →
    CanStep s g ∧ (∀ q, q ≠ p → g.port q = s.port q) ∧ ∀ j, j < 16 → (g.port p).launch j = steppedLaunch c s.tim.net p j ((s.port p).launch j) := by
  intro g hg
  have k := forEach_point (fun a b => CanStep a b ∧ ∀ q, q ≠ p → b.port q = a.port q) (fun s => ⟨CanStep.refl s, fun _ _ => rfl⟩)
    (fun a b e h1 h2 => ⟨h1.1.trans h2.1, fun q hq => (h2.2 q hq).trans (h1.2 q hq)⟩) (fun d j => (d.port p).launch j)
    (fun e d => if ((d.port p).launch e).state = 1 ∧ c.launchNet p e ∧ launchClosed c d p e then launchFail c p e 4 d else d)
    (fun e d => steppedLaunch c d.tim.net p e ((d.port p).launch e))
    (fun k s => ⟨(canStep_one c p k s _ rfl).1, (canStep_one c p k s _ rfl).2.1⟩) (fun k s j => (canStep_one c p k s _ rfl).2.2 j)
    (fun s t k h1 h2 => by have h2' : (t.port p).launch k = (s.port p).launch k := h2; show steppedLaunch c t.tim.net p k ((t.port p).launch k) = _; rw [h2', h1.1.1]) (List.range 16) s List.nodup_range
  subst hg
  refine ⟨k.1.1, k.1.2, fun j hj => ?_⟩
  have := k.2 j
  rw [if_pos (List.mem_range.mpr hj)] at this
  exact this

theorem canStep_spec (c : Cfg) (s : Dyn) : CanStep s (canStep c s) ∧
    ∀ p e, p < 4 → e < 16 → ((canStep c s).port p).launch e = steppedLaunch c s.tim.net p e ((s.port p).launch e) := by
  unfold canStep
  have k := forEach_point CanStep CanStep.refl (fun _ _ _ => CanStep.trans) (fun d p => fun j => if j < 16 then (d.port p).launch j else Launch.empty)
    (fun p d => forEach (List.range 16) d (fun e d => if ((d.port p).launch e).state = 1 ∧ c.launchNet p e ∧ launchClosed c d p e then launchFail c p e 4 d else d))
    (fun p d => fun j => if j < 16 then steppedLaunch c d.tim.net p j ((d.port p).launch j) else Launch.empty)
    (fun p s => (canStep_port c p s _ rfl).1)
    (fun p s q => by
      obtain ⟨_, h2, h3⟩ := canStep_port c p s _ rfl
      by_cases h : q = p
      · subst h
        rw [if_pos rfl]
        funext j
        by_cases hj : j < 16
        · rw [if_pos hj, if_pos hj, h3 j hj]
        · rw [if_neg hj, if_neg hj]
      · rw [if_neg h, h2 q h])
    (fun s t p h1 h2 => by
      funext j
      have := congrFun h2 j
      by_cases hj : j < 16
      · have e : (t.port p).launch j = (s.port p).launch j := by simpa [hj] using this
        show ite _ _ _ = ite _ _ _
        rw [if_pos hj, if_pos hj, e, h1.1]
      · show ite _ _ _ = ite _ _ _
        rw [if_neg hj, if_neg hj]) (List.range 4) s List.nodup_range
  refine ⟨k.1, fun p e hp he => ?_⟩
  have := congrFun (k.2 p) e
  rw [if_pos (List.mem_range.mpr hp)] at this
  simpa [he] using this

theorem stepDo_spec (c : Cfg) (st : Int) (d : Dyn) : ∀ t, stepDo c st d = t →
    t.tim = { d.tim with ofs := sext 64 (d.tim.ofs + st), epoch := (d.tim.epoch + 1) % 256, netSet := true, steps := satInc 16 d.tim.steps, acts := t.tim.acts } ∧
    (∀ a, a < 256 → t.act a = if (d.act a).state = 1 ∧ c.actBind a = true ∧ (d.tim.net : Int) < actDue c a (d.act a) (d.act a).next ∧
      actDue c a (d.act a) (d.act a).next ≤ (t.tim.net : Int) then { d.act a with passed := true }
      else if (d.act a).state = 1 ∧ c.actBind a = true ∧ (d.act a).passed = true ∧ (t.tim.net : Int) < actDue c a (d.act a) (d.act a).next then { d.act a with passed := false } else d.act a) ∧
    (∀ p, t.port p = d.port p) ∧ (∀ m, t.flt.find m = d.flt.find m) ∧ Alike { t with tim := d.tim, arc := d.arc } d := by
  intro t ht
  unfold stepDo at ht
  extract_lets old oldE t0 d1 d2 u d3 at ht
  obtain ⟨x, hx, _⟩ := timeRecord_arc old d1.tim.net oldE d1.tim.epoch 0 d1
  have e2 : d2 = { d1 with arc := x } := hx
  have f3 : FltStep d2 d3 := (event_step _ _ _ _ _ _).trans (setIrq_step _ _)
  have fd3 : ∀ m, d3.flt.find m = d.flt.find m := fun m => (event_find d2 _ _ _ _ _ m).trans (by rw [e2])
  have t3 : d3.tim = d1.tim := f3.same.1.trans (by rw [e2])
  have a3 : Alike { d3 with tim := d.tim, arc := d.arc } d := by
    clear_value d3
    obtain ⟨f, i, y, z, k, rfl⟩ := f3
    rw [e2]
    rfl
  have p3 : ∀ p, d3.port p = d.port p := fun p => (f3.port p).trans (by rw [e2]; rfl)
  have ac3 : ∀ a, d3.act a = d.act a := fun a => (f3.act a).trans (by rw [e2]; rfl)
  have tn : t0 = d.tim := rfl
  have d1t : d1.tim = { d.tim with ofs := sext 64 (d.tim.ofs + st), epoch := (d.tim.epoch + 1) % 256, netSet := true, steps := satInc 16 d.tim.steps } := rfl
  have ho : old = d.tim.net := rfl
  clear_value d3 d2 d1 t0 old
  have k := forEach_point (fun a b : Dyn => { b with tim := a.tim } = a ∧ b.tim = { a.tim with acts := b.tim.acts }) (fun s => ⟨rfl, rfl⟩)
    (fun a b e h1 h2 => ⟨(congrArg (fun x : Dyn => ({ x with tim := a.tim } : Dyn)) h2.1).trans h1.1, h2.2.trans (by rw [h1.2])⟩) (fun d j => d.act j)
    (stepAction c old d1.tim.net)
    (fun a s => if (s.act a).state = 1 ∧ c.actBind a = true ∧ (old : Int) < actDue c a (s.act a) (s.act a).next ∧ actDue c a (s.act a) (s.act a).next ≤ (d1.tim.net : Int)
      then { s.act a with passed := true }
      else if (s.act a).state = 1 ∧ c.actBind a = true ∧ (s.act a).passed = true ∧ (d1.tim.net : Int) < actDue c a (s.act a) (s.act a).next then { s.act a with passed := false } else s.act a)
    (fun a s => by unfold stepAction; dsimp only; split; exact ⟨rfl, rfl⟩; split <;> exact ⟨rfl, rfl⟩)
    (fun a s j => by
      unfold stepAction
      dsimp only
      by_cases h : (s.act a).state = 1 ∧ c.actBind a = true ∧ (old : Int) < actDue c a (s.act a) (s.act a).next ∧ actDue c a (s.act a) (s.act a).next ≤ (d1.tim.net : Int)
      · rw [if_pos (by simpa [and_assoc] using h), if_pos h, setAct_get]
      · rw [if_neg (by simpa [and_assoc] using h), if_neg h]
        by_cases h' : (s.act a).state = 1 ∧ c.actBind a = true ∧ (s.act a).passed = true ∧ (d1.tim.net : Int) < actDue c a (s.act a) (s.act a).next
        · rw [if_pos (by simpa [and_assoc] using h'), if_pos h', setAct_get]
        · rw [if_neg (by simpa [and_assoc] using h'), if_neg h']
          split
          · next q => rw [q]
          · rfl)
    (fun s t a _ h => by dsimp only at h ⊢; rw [h]) (List.range 256) d3 List.nodup_range
  rw [ht] at k
  obtain ⟨⟨k1, k2⟩, k3⟩ := k
  have nt : t.tim.net = d1.tim.net := by rw [k2, t3]; rfl
  refine ⟨?_, fun a ha => ?_, fun p => ?_, fun m => ?_, ?_⟩
  · rw [k2, t3, d1t]
  · have := k3 a
    rw [if_pos (List.mem_range.mpr ha), ac3] at this
    rw [this, nt, ho]
  · exact (congrArg (fun x : Dyn => x.port p) k1).trans (p3 p)
  · exact (congrArg (fun x : Dyn => x.flt.find m) k1).trans (fd3 m)
  · exact (congrArg (fun x : Dyn => ({ x with tim := d.tim, arc := d.arc } : Dyn).silent) k1).trans a3

theorem slewCmd_to (r : Int) (m k : Nat) (d : Dyn) (h : slewCode d r m = k) :
    (slewCmd r m d).1 = if k = 0 then { d with tim := { d.tim with slew := r, slewLeft := m, cmdResult := 0 } } else { d with tim := { d.tim with cmdResult := k } } := by
  unfold slewCmd
  dsimp only
  rw [h]
  split <;> rfl

theorem reach_tim (c : Cfg) (net : Bool) (due : Int) (d : Dyn) : ∀ e, d.reach c net due = e →
    { e with tim := d.tim } = d ∧ e.tim.ofs = d.tim.ofs ∧ e.tim.epoch = d.tim.epoch ∧ e.tim.acts = d.tim.acts ∧ e.tim.effects = d.tim.effects ∧ e.tim.wakeFired = d.tim.wakeFired := by
  intro e he
  unfold Dyn.reach at he
  extract_lets d' at he
  split at he <;> subst he <;> exact ⟨rfl, rfl, rfl, rfl, rfl, rfl⟩

/-- What an event, after others, leaves. -/
def EvStep (d e : Dyn) : Prop := FltStep d e ∧ e.pwr = d.pwr ∧ ∀ m, e.flt.find m = d.flt.find m

theorem EvStep.refl (d : Dyn) : EvStep d d := ⟨.refl d, rfl, fun _ => rfl⟩

theorem EvStep.trans {d e g : Dyn} (h : EvStep d e) (k : EvStep e g) : EvStep d g := ⟨h.1.trans k.1, k.2.1.trans h.2.1, fun m => (k.2.2 m).trans (h.2.2 m)⟩

theorem EvStep.event (d : Dyn) (src code sev a b : Nat) : EvStep d (d.event src code sev a b) := ⟨event_step _ _ _ _ _ _, event_pwr _ _ _ _ _ _, fun m => event_find _ _ _ _ _ _ m⟩

theorem EvStep.ite {d e : Dyn} (p : Prop) [Decidable p] (h : EvStep d e) : EvStep d (if p then e else d) := by
  split
  · exact h
  · exact .refl d

theorem fireEffect_spec (c : Cfg) (a : Nat) (due : Int) (d : Dyn) : ∀ e, fireEffect c a due d = e →
    (let k := c.actKind a
     (2 ≤ k → k ≤ 5 → d.standby = false → e.tim.effects = d.tim.effects ++
       [{ due := due, entry := a, kind := k, index := c.actIndex a, addr := (c.f (actA a 3)).toNat, val := c.f (actA a 4) }]) ∧
     (k < 2 ∨ 5 < k ∨ d.standby = true → e.tim.effects = d.tim.effects) ∧
     (e.pwr = { d.pwr with runCond := if k = 1 ∧ d.glb.st = .scan then some (d.pwr.runCond.getD 0x82) else d.pwr.runCond,
                           entryAbort := if k = 1 ∧ d.glb.st = .run ∧ d.glb.dormReq = true then some (d.pwr.entryAbort.getD 0x82) else d.pwr.entryAbort }) ∧
     (e.tim.wakeFired = (d.tim.wakeFired || decide (k = 1 ∧ d.glb.st = .run)))) ∧
    e.tim.acts = d.tim.acts ∧ e.tim.ofs = d.tim.ofs ∧ e.tim.epoch = d.tim.epoch ∧ (∀ m, e.flt.find m = d.flt.find m) ∧ Alike { e with tim := d.tim, pwr := d.pwr } d := by
  intro e he
  unfold fireEffect at he
  extract_lets k v at he
  have hk : c.actKind a = k := rfl
  have hv : c.f (actA a 4) = v := rfl
  clear_value k v
  dsimp only
  rw [hk, hv]
  by_cases k1 : k = 1
  · rw [if_pos k1] at he
    by_cases sc : d.glb.st = .scan
    · rw [if_pos sc] at he
      subst he
      refine ⟨⟨fun q => absurd q (by omega), fun _ => rfl, ?_, ?_⟩, rfl, rfl, rfl, fun _ => rfl, rfl⟩
      · rw [if_pos ⟨k1, sc⟩, if_neg (by rw [sc]; rintro ⟨_, q, _⟩; cases q)]
      · simp [sc]
    · rw [if_neg sc] at he
      by_cases sr : d.glb.st = .run
      · rw [if_pos sr] at he
        subst he
        refine ⟨⟨fun q => absurd q (by omega), fun _ => rfl, ?_, ?_⟩, rfl, rfl, rfl, fun _ => rfl, rfl⟩
        · have n1 : ¬(k = 1 ∧ d.glb.st = .scan) := fun h => sc h.2
          have e2 : (if k = 1 ∧ d.glb.st = .run ∧ d.glb.dormReq = true then some (d.pwr.entryAbort.getD 0x82) else d.pwr.entryAbort) =
              if d.glb.dormReq = true then some (d.pwr.entryAbort.getD 0x82) else d.pwr.entryAbort := if_congr (by simp [k1, sr]) rfl rfl
          rw [if_neg n1, e2]
          dsimp only
          split <;> rfl
        · simp [sr, k1]
      · rw [if_neg sr] at he
        subst he
        refine ⟨⟨fun q => absurd q (by omega), fun _ => rfl, ?_, ?_⟩, rfl, rfl, rfl, fun _ => rfl, rfl⟩
        · rw [if_neg (fun q => sc q.2), if_neg (fun q => sr q.2.1)]
        · simp [sr]
  · rw [if_neg k1] at he
    rw [if_neg (fun q => k1 q.1), if_neg (fun q => k1 q.1), decide_eq_false (fun q => k1 q.1), Bool.or_false]
    by_cases k6 : k = 6
    · rw [if_pos k6] at he
      have f : EvStep d e := he ▸ EvStep.event d 0 0x6F 0 a v.toNat
      obtain ⟨f1, f2, f3⟩ := f
      have ft := f1.same.1
      refine ⟨⟨fun _ q => absurd q (by omega), fun _ => by rw [ft], f2, by rw [ft]⟩, by rw [ft], by rw [ft], by rw [ft], f3, ?_⟩
      obtain ⟨f, i, y, z, r, e⟩ := f1
      rw [e]
      rfl
    · rw [if_neg k6] at he
      split at he
      · next q =>
        subst he
        refine ⟨⟨fun _ _ _ => rfl, fun g => ?_, rfl, rfl⟩, rfl, rfl, rfl, fun _ => rfl, rfl⟩
        rcases g with g | g | g
        · omega
        · omega
        · simp [g] at q
      · next q =>
        subst he
        exact ⟨⟨fun g1 g2 g3 => absurd ⟨g1, g2, by simp [g3]⟩ q, fun _ => rfl, rfl, rfl⟩, rfl, rfl, rfl, fun _ => rfl, rfl⟩

theorem Dyn.standby_of {d e : Dyn} (h : Alike { e with tim := d.tim } d) : e.standby = d.standby ∧ e.glb.st = d.glb.st := by
  have b := h.blocks
  have h1 : e.glb.st = d.glb.st := b.2.2.2.2.2.2.2.2.2.2.2.2.1
  have h2 : e.glb.role = d.glb.role := b.2.2.2.2.2.2.2.2.2.2.2.2.2
  unfold Dyn.standby
  rw [h2]
  exact ⟨rfl, h1⟩

theorem actIsDue_iff (c : Cfg) (d : Dyn) (a : Nat) (h : (d.act a).state = 1) :
    actIsDue c d a = true ↔ (d.act a).lateNow = true ∨ (d.act a).passed = true ∨ actDue c a (d.act a) (d.act a).next ≤ (d.bound (c.actBind a) : Int) := by
  unfold actIsDue
  simp [h, or_assoc]

theorem fireAction_spec (c : Cfg) (a : Nat) (d : Dyn) (hd : actIsDue c d a = true) : ∀ t, fireAction c false a d = t →
    (let x := d.act a
     let y := t.act a
     let k := c.actKind a
     (c.actCyclic a = false → y.state = 2 ∧ y.next = x.next + 1 ∧ y.skipped = satAdd 8 x.skipped 0 ∧ y.late = (x.lateNow || x.passed)) ∧
     (c.actCyclic a = true → y.state = 1 ∧ y.next = max (x.next + 1) (actAfter c a x (d.bound (c.actBind a))) ∧ y.skipped = satAdd 8 x.skipped (y.next - 1 - x.next) ∧ y.late = x.lateNow) ∧
     y.stepped = x.passed ∧ y.firedAt = shortOf (d.bound (c.actBind a)) ∧ y.c0 = x.c0 ∧ y.lateNow = false ∧ y.passed = false ∧
     (2 ≤ k → k ≤ 5 → d.standby = false → t.tim.effects = d.tim.effects ++
       [{ due := actDue c a x (y.next - 1), entry := a, kind := k, index := c.actIndex a, addr := (c.f (actA a 3)).toNat, val := c.f (actA a 4) }]) ∧
     (k < 2 ∨ 5 < k ∨ d.standby = true → t.tim.effects = d.tim.effects) ∧
     (t.pwr = { d.pwr with runCond := if k = 1 ∧ d.glb.st = .scan then some (d.pwr.runCond.getD 0x82) else d.pwr.runCond,
                           entryAbort := if k = 1 ∧ d.glb.st = .run ∧ d.glb.dormReq = true then some (d.pwr.entryAbort.getD 0x82) else d.pwr.entryAbort }) ∧
     (t.tim.wakeFired = (d.tim.wakeFired || decide (k = 1 ∧ d.glb.st = .run)))) ∧
    (∀ b, b ≠ a → t.act b = d.act b) ∧ (∀ m, t.flt.find m = d.flt.find m) ∧ t.tim.ofs = d.tim.ofs ∧ t.tim.epoch = d.tim.epoch ∧ Alike { t with tim := d.tim, pwr := d.pwr } d := by
  intro t ht
  unfold fireAction at ht
  extract_lets x now cyc aft skipped late x' dd d1 d2 d3 d4 at ht
  rw [if_pos hd] at ht
  have hx : d.act a = x := rfl
  have hc : c.actCyclic a = cyc := rfl
  have ha : (if cyc then max (x.next + 1) (actAfter c a x (d.bound (c.actBind a))) else x.next + 1) = aft := rfl
  have q2 : EvStep d1 d2 := EvStep.ite _ (EvStep.event _ _ _ _ _ _)
  have q3 : EvStep d1 d3 := q2.trans (EvStep.ite _ (EvStep.event _ _ _ _ _ _))
  have p4 := fireEffect_spec c a (actDue c a x (aft - 1)) d3 d4 rfl
  have p5 : EvStep d4 t := by
    split at ht
    · exact ht ▸ EvStep.event _ _ _ _ _ _
    · exact ht ▸ EvStep.refl _
  have e1 : d1 = d.setAct a x' := rfl
  have hx' : x' = { x with state := if cyc then 1 else 2, next := aft, late := late, stepped := x.passed, slept := false, skipped := satAdd 8 x.skipped skipped, lateNow := false, passed := false, firedAt := shortOf (d.bound (c.actBind a)) } := rfl
  have hsk : skipped = aft - 1 - x.next := rfl
  have hl : late = (x.lateNow || (x.passed && !cyc)) := rfl
  clear_value d4 d3 d2 d1 dd x' late skipped aft cyc now x
  obtain ⟨p41, p42, p43, p44, p45, p46⟩ := p4
  have a3 : d3.tim = d1.tim := q3.1.same.1
  have at' : t.tim = d4.tim := p5.1.same.1
  have acts : ∀ b, t.act b = d1.act b := fun b => by
    have : t.tim.acts = d1.tim.acts := by rw [at', p42, a3]
    unfold Dyn.act
    rw [this]
  have sg : d3.standby = d.standby ∧ d3.glb.st = d.glb.st ∧ d3.glb.dormReq = d.glb.dormReq := by
    have : Alike { d3 with tim := d.tim } d := by
      have q := q3.1
      rw [e1] at q
      obtain ⟨f, i, y, z, r, e⟩ := q
      rw [e]
      rfl
    refine ⟨(Dyn.standby_of this).1, (Dyn.standby_of this).2, ?_⟩
    exact (congrArg (fun z : Dyn => z.glb.dormReq) (a₁ := Dyn.silent _) (a₂ := Dyn.silent _) this : _)
  have pw : d3.pwr = d.pwr := by rw [q3.2.1, e1]; rfl
  have pt : t.pwr = d4.pwr := p5.2.1
  have ef : d3.tim.effects = d.tim.effects ∧ d3.tim.wakeFired = d.tim.wakeFired := by rw [a3, e1]; exact ⟨rfl, rfl⟩
  have ya : t.act a = x' := by rw [acts, e1, setAct_same]
  obtain ⟨r1, r2, r3, r4⟩ := p41
  dsimp only
  rw [ya, hx, hc, at', pt, hx']
  rw [sg.1, ef.1] at r1 r2
  rw [sg.2.1, sg.2.2, pw] at r3
  rw [sg.2.1, ef.2] at r4
  refine ⟨⟨fun g => ?_, fun g => ?_, rfl, rfl, rfl, rfl, rfl, r1, r2, r3, r4⟩, fun b hb => by rw [acts, e1, setAct_other _ _ _ _ hb], fun m => ?_, ?_, ?_, ?_⟩
  · subst g
    have aa : aft = x.next + 1 := ha.symm
    refine ⟨rfl, aa, ?_, by rw [hl]; simp⟩
    show satAdd 8 x.skipped skipped = _
    rw [hsk, aa, Nat.add_sub_cancel, Nat.sub_self]
  · subst g
    refine ⟨rfl, ha.symm, ?_, by rw [hl]; simp⟩
    show satAdd 8 x.skipped skipped = _
    rw [hsk]
  · rw [p5.2.2 m, p45 m, q3.2.2 m, e1]; rfl
  · rw [p43, a3, e1]; rfl
  · rw [p44, a3, e1]; rfl
  · have b1 : Alike { t with tim := d.tim, pwr := d.pwr } { d4 with tim := d.tim, pwr := d.pwr } := by
      obtain ⟨f, i, y, z, r, e⟩ := p5.1
      rw [e]
      rfl
    have b2 : Alike { d4 with tim := d.tim, pwr := d.pwr } { d3 with tim := d.tim } := by
      rw [← pw]
      exact congrArg (fun z : Dyn => ({ z with tim := d.tim } : Dyn)) p46
    have b3 : Alike { d3 with tim := d.tim } d := by
      have q := q3.1
      rw [e1] at q
      obtain ⟨f, i, y, z, r, e⟩ := q
      rw [e]
      rfl
    exact (b1.trans b2).trans b3

theorem tins_tins {α : Type} (k : Nat) (u v : α) (t : Tbl α) : tins k v (tins k u t) = tins k v t := by
  induction t with
  | nil => simp [tins]
  | cons p r ih =>
    obtain ⟨j, w⟩ := p
    rw [tins]
    split
    · next h => simp [tins, h]
    · next h =>
      split
      · next g => subst g; simp [tins]
      · next g => simp [tins, h, g, ih]

theorem wordsOk_del (lo k : Nat) (t : Tbl Word) (h : wordsOk lo t = true) (hk : k < lo) : tdel k t = t := by
  induction t generalizing lo with
  | nil => rfl
  | cons p r ih =>
    obtain ⟨j, w⟩ := p
    simp only [wordsOk, Bool.and_eq_true, decide_eq_true_eq] at h
    have := ih (j + 1) h.2 (by omega)
    unfold tdel at this ⊢
    rw [List.filter_cons_of_pos (by simp; omega), this]

theorem tins_below (lo k : Nat) (v : Word) (t : Tbl Word) (h : wordsOk lo t = true) (hk : k < lo) : tins k v t = (k, v) :: t := by
  cases t with
  | nil => rfl
  | cons p r =>
    obtain ⟨j, w⟩ := p
    simp only [wordsOk, Bool.and_eq_true, decide_eq_true_eq] at h
    rw [tins, if_pos (by omega)]

theorem tins_tdel (lo k : Nat) (v : Word) (t : Tbl Word) (h : wordsOk lo t = true) : tins k v (tdel k t) = tins k v t := by
  induction t generalizing lo with
  | nil => rfl
  | cons p r ih =>
    obtain ⟨j, w⟩ := p
    simp only [wordsOk, Bool.and_eq_true, decide_eq_true_eq] at h
    by_cases e : j = k
    · subst e
      have q : tdel j ((j, w) :: r) = r := by
        have := wordsOk_del (j + 1) j r h.2 (by omega)
        unfold tdel at this ⊢
        rw [List.filter_cons_of_neg (by simp), this]
      rw [q]
      rw [tins_below (j + 1) j v r h.2 (by omega)]
      simp [tins]
    · have q : tdel k ((j, w) :: r) = (j, w) :: tdel k r := by unfold tdel; rw [List.filter_cons_of_pos (by simpa using e)]
      rw [q]
      simp only [tins, ih (j + 1) h.2]
      split
      · next g =>
        have := wordsOk_del (j + 1) k r h.2 (by omega)
        rw [this]
      · rfl

theorem tdel_tins (k : Nat) (v : Word) (t : Tbl Word) : tdel k (tins k v t) = tdel k t := by
  induction t with
  | nil => simp [tins, tdel]
  | cons p r ih =>
    obtain ⟨j, w⟩ := p
    unfold tdel at ih ⊢
    rw [tins]
    split
    · simp
    · split
      · next g => subst g; simp
      · next g => simp [List.filter_cons, ih]

theorem tdel_tdel (k : Nat) (t : Tbl Word) : tdel k (tdel k t) = tdel k t := by
  unfold tdel
  rw [List.filter_filter]
  simp

/-- The last of two writes to one address counts. -/
theorem tput_tput (lo k : Nat) (d u v : Word) (t : Tbl Word) (h : wordsOk lo t = true) : tput d (tput d t k u) k v = tput d t k v := by
  unfold tput
  split
  · split
    · exact tdel_tdel k t
    · exact tdel_tins k u t
  · split
    · exact tins_tdel lo k v t h
    · exact tins_tins k u v t

def actArea : Area := area 0 0 1 0x31000 0x20 256 16 24 actWords

theorem regAt_act (v : Variant) (a : Nat) (h : a < 256) : regAt v (actA a 0) = some (actArea, a, 0) := by
  have e : actA a 0 = 0x31000 + 0x20 * a := by unfold actA; omega
  rw [e]
  have hs : secAt (0x31000 + 0x20 * a) = [(0, 0)] := by
    unfold secAt
    rw [if_neg (by omega), if_neg (by omega), if_pos (by omega)]
  have hf : actArea.find (0x31000 + 0x20 * a) = some (a, 0) := by
    unfold Area.find actArea area
    dsimp only
    rw [if_neg (by omega), if_neg (show ¬(0x20 : Nat) = 0 by decide)]
    have e1 : (0x31000 + 0x20 * a - 0x31000) / 0x20 = a := by omega
    rw [e1]
    have e2 : (0x31000 + 0x20 * a - 0x31000 - a * 0x20) / 4 = 0 := by omega
    rw [e2, if_pos ⟨h, by decide⟩]
  unfold regAt
  rw [hs]
  have hx : ∀ l : List Area, ([actArea] ++ l).findSome? (fun x => (x.find (0x31000 + 0x20 * a)).map (fun ij => (x, ij))) = some (actArea, a, 0) := by
    intro l
    rw [List.singleton_append, List.findSome?_cons, hf]
    rfl
  have hi : instOk v (0, 0).1 (0, 0).2 = true := rfl
  have ha : secAreas v false (fun _ => 0) (0, 0).1 (0, 0).2 = [actArea] := rfl
  rw [List.findSome?_cons, hi, if_pos rfl, ha, hx]

def actWord0 : Fields := nth fNil actWords 0

theorem fieldsAt_act (c : Cfg) (a : Nat) (h : a < 256) : fieldsAt c (actA a 0) = some (actArea, a, actWord0) := by
  unfold fieldsAt
  rw [regAt_act c.fx a h]
  have g : guardEntry c actArea a = false := rfl
  dsimp only
  rw [g]
  rfl

theorem command_act (v : Variant) (a : Nat) (h : a < 256) : isCommand v (actA a 0) = false := by
  have e : actA a 0 = 0x31000 + 0x20 * a := by unfold actA; omega
  rw [e]
  unfold isCommand
  simp
  omega

theorem live_act (a : Nat) (v : Word) (s : State) (h : a < 256) : liveWrite (actA a 0) v s = none := by
  have e : actA a 0 = 0x31000 + 0x20 * a := by unfold actA; omega
  rw [e]
  have ne : ∀ b st n o, 0x34000 ≤ b → entryOf (0x31000 + 0x20 * a) b st n o = none := by
    intro b st n o hb
    unfold entryOf
    rw [if_neg (by omega)]
  have nb : bufAt (0x31000 + 0x20 * a) = none := by
    unfold bufAt
    rw [if_pos (by omega)]
  unfold liveWrite
  dsimp only
  repeat rw [if_neg (by omega)]
  repeat rw [ne _ _ _ _ (by decide)]
  rw [nb]
  dsimp only
  rw [if_neg (by omega)]

theorem value_act (a : Nat) (v : Word) (h : a < 256) : valueCode (actA a 0) v = 0 := by
  have e : actA a 0 = 0x31000 + 0x20 * a := by unfold actA; omega
  rw [e]
  unfold valueCode
  repeat rw [if_neg (by omega)]

theorem bit_lsb (w : Word) (k : Nat) : bit w k = w.getLsbD k := by
  unfold bit fld BitVec.getLsbD
  rw [Nat.testBit_eq_decide_div_mod_eq, Nat.shiftRight_eq_div_pow]
  rfl

/-- The bits of a word of a timed action that a write can change, EN among them. -/
theorem enBits (w : Word) (h : bit w 0 = false) : let v := mix w 1 (maskAt 0 1)
    bit (mix w v (BitVec.ofNat 32 actWord0.all)) 0 = true ∧ mix (mix w v (BitVec.ofNat 32 actWord0.all)) w (maskAt 0 1) = w ∧ mix w 1 (maskAt 0 1) = w ||| 1#32 ∧
    mix (w ||| 1#32) 0 (maskAt 0 1) = w ∧ mix w w (BitVec.ofNat 32 actWord0.all) = w := by
  have ha : BitVec.ofNat 32 actWord0.all = 0xFFFFFF0F#32 := by decide
  have hm : maskAt 0 1 = 1#32 := by decide
  have h1 : ∀ i, i < 32 → (1#32 : Word).getLsbD i = decide (i = 0) := by decide
  have h1' : ∀ i, i < 32 → (1 : Word).getLsbD i = decide (i = 0) := h1
  have h0' : ∀ i, (0 : Word).getLsbD i = false := fun i => BitVec.getLsbD_zero
  have h2 : ∀ i, i < 32 → (0xFFFFFF0F#32 : Word).getLsbD i = (decide (i < 4) || decide (8 ≤ i)) := by decide
  rw [bit_lsb] at h
  intro v
  have hv : v = mix w 1 (maskAt 0 1) := rfl
  clear_value v
  subst hv
  rw [ha, hm, bit_lsb]
  unfold mix
  refine ⟨?_, ?_, ?_, ?_, ?_⟩
  · simp
  all_goals
    apply BitVec.eq_of_getLsbD_eq
    intro i hi
    simp only [BitVec.getLsbD_or, BitVec.getLsbD_and, BitVec.getLsbD_not, h1 i hi, h1' i hi, h0', h2 i hi, hi, decide_true, Bool.true_and]
    by_cases e : i = 0
    · subst e; rw [h]; simp
    · have e' : decide (i = 0) = false := by simpa using e
      try rw [e']
      cases w.getLsbD i <;> cases decide (i < 4) <;> cases decide (8 ≤ i) <;> rfl

theorem storeOff (c : Cfg) (a : Nat) (f : Fields) (v : Word) :
    storeWord c a f false v = { c with reg := (c.reg.putW a (mix (c.w a) v (BitVec.ofNat 32 f.all))).putF a (mix (c.f a) v (BitVec.ofNat 32 f.all)) } := by
  unfold storeWord
  dsimp only
  rw [if_neg (by rintro ⟨q, _⟩; cases q)]
  rfl

theorem fieldWrite_act (a : Nat) (s : State) (ha : a < 256) (hb : bit (s.c.w (actA a 0)) 0 = false) : ∃ y,
    fieldWrite 0 actArea a actWord0 (actA a 0) (mix (s.c.w (actA a 0)) 1 (maskAt 0 1)) s =
      enableWrite actArea a (actA a 0) true { s with c := { s.c with reg := (s.c.reg.putW (actA a 0) (s.c.w (actA a 0))).putF (actA a 0) y } } := by
  obtain ⟨b1, b2, b3, b4, b5⟩ := enBits _ hb
  refine ⟨mix (s.c.f (actA a 0)) (s.c.w (actA a 0)) (BitVec.ofNat 32 actWord0.all), ?_⟩
  have eo : entryOf (actA a 0) 0x180000 0x100 s.c.fx.nLoops 0xA8 = none := by
    unfold entryOf actA
    rw [if_neg (by omega)]
  have pos : actArea.base + a * actArea.stride = actA a 0 := by
    unfold actA actArea area
    dsimp only
    omega
  have off : (actA a 0 - actArea.base - a * actArea.stride == 0) = true := by
    rw [Nat.sub_sub, pos, Nat.sub_self]
    rfl
  have on0 : areaOn s.c.asW actArea a = false := by
    show (actArea.en && s.c.asW.bF (actArea.base + a * actArea.stride) 0) = false
    rw [pos]
    show (true && bit (s.c.w (actA a 0)) 0) = false
    rw [hb]
    rfl
  have lk0 : areaLocked s.c.asW s.d actArea a = false := by
    show (if actArea.en then s.c.asW.bF (actArea.base + a * actArea.stride) 0 else false) = false
    rw [pos]
    show (if true then bit (s.c.w (actA a 0)) 0 else false) = false
    rw [hb]
    rfl
  have en0 : enableNow s.c s.d actArea a (actA a 0) = false := hb
  have opm : BitVec.ofNat 32 actWord0.op = 0xFFFFFFFF#32 := by decide
  have rwb : bit (BitVec.ofNat 32 actWord0.rw) 0 = true := by decide
  have vz := fun v => value_act a v ha
  have so := storeOff s.c (actA a 0) actWord0
  unfold fieldWrite
  extract_lets c old aw en hasEn base ask level v1 lock v2 denied d1 on vc code v3 c1 d2 d3 s1 want r
  have h1 : en = false := en0
  have h2 : hasEn = true := by
    show (actArea.en && (actA a 0 - actArea.base - a * actArea.stride == 0) && bit (BitVec.ofNat 32 actWord0.rw) 0) = true
    rw [off, rwb]
    rfl
  have h3 : base = old := if_neg (by rw [h1]; simp)
  have h4 : level = false := by
    show (c.basic && decide ((0 : Nat) ≤ 2) && ((base ^^^ ask) &&& BitVec.ofNat 32 actWord0.all &&& ~~~(BitVec.ofNat 32 actWord0.op)) != 0#32) = false
    rw [opm]
    simp
  have h5 : v1 = ask := if_neg (by rw [h4]; simp)
  have h6 : lock = false := by
    show (areaLocked s.c.asW s.d actArea a && _) = false
    rw [lk0]
    rfl
  have h7 : v2 = ask := (if_neg (by rw [h6]; simp)).trans h5
  have h8 : denied = 0 := (if_neg (by rw [h4]; simp)).trans (if_neg (by rw [h6]; simp))
  have h9 : d1 = s.d := if_neg (by rw [h4, h6]; simp)
  have h10 : on = false := on0
  have na : ¬(actA a 0 = 0x1000C) := by unfold actA; omega
  have h0 : vc = 0 := (if_neg (fun q => na q.1)).trans (vz _)
  have h11 : code = 0 := (if_neg (fun q => q h0)).trans (if_neg (by rw [show decide (actWord0.rws ≠ 0) = false by decide]; simp))
  have hask : ask = mix old (mix (s.c.w (actA a 0)) 1 (maskAt 0 1)) (BitVec.ofNat 32 actWord0.all) := by
    show mix base _ _ = _
    rw [h3]
  have h12 : v3 = s.c.w (actA a 0) := by
    refine (if_pos h2).trans ?_
    rw [h7, hask]
    exact b2
  have h13 : want = true := by
    show bit v2 0 = true
    rw [h7, hask]
    exact b1
  have h14 : d2 = s.d := by
    refine Eq.trans ?_ h9
    show (match entryOf (actA a 0) 0x180000 0x100 s.c.fx.nLoops 0xA8 with | some n => _ | none => d1) = d1
    rw [eo]
  have h15 : c1 = { s.c with reg := (s.c.reg.putW (actA a 0) (s.c.w (actA a 0))).putF (actA a 0) (mix (s.c.f (actA a 0)) (s.c.w (actA a 0)) (BitVec.ofNat 32 actWord0.all)) } := by
    show storeWord s.c (actA a 0) actWord0 on v3 = _
    rw [h10, h12, so, b5]
  have h16 : d3 = d2 := if_neg (fun q => absurd q.1 (by decide))
  have hs1 : s1 = { s with c := c1, d := d2 } := by
    show ({ s with c := c1, d := if actA a 0 = 0x1000C then wakeLevels c1 d3 else d3 } : State) = _
    rw [if_neg na, h16]
  have hr : r = enableWrite actArea a (actA a 0) want s1 := rfl
  rw [if_neg (fun q => q h11), if_pos ⟨h2, by rw [h4]; simp, by rw [h13, h1]; simp⟩, if_neg (fun q => q h8), hr, hs1, h13, h14, h15]

theorem actionEnable_spec (a : Nat) (s : State) (y : Word) (hok : s.c.reg.ok) (hb : bit (s.c.w (actA a 0)) 0 = false) :
    let A := actA a 0
    let c' : Cfg := { s.c with reg := s.c.reg.putB A (s.c.w A ||| 1#32) }
    let c1 : Cfg := { s.c with reg := (s.c.reg.putW A (s.c.w A)).putF A y }
    let code := if !s.c.img.ok then 0xD else match (timedField c' a ++ timedRefs c' a).find? (·.bad) with | some k => k.code | none => 0
    actionEnable a { s with c := c1 } = if code = 0 then ({ s with c := c', d := { s.d with tim := { s.d.tim with arming := s.d.tim.arming ++ [a] } } }, 0)
      else ({ s with c := c1, d := s.d.setAct a { s.d.act a with result := code } }, code) := by
  intro A c' c1 code
  obtain ⟨_, _, b3, _, _⟩ := enBits _ hb
  have w1 : c1.w A = s.c.w A := by
    show tget (resetWord A) (tput (resetWord A) s.c.reg.w A (s.c.w A)) A = _
    rw [tget_tput_same]
  have cand : ({ c1 with reg := c1.reg.putB A (mix (c1.w A) 1 (maskAt 0 1)) } : Cfg) = c' := by
    rw [w1, b3]
    show ({ s.c with reg := ((s.c.reg.putW A (s.c.w A)).putF A y).putB A (s.c.w A ||| 1#32) } : Cfg) = { s.c with reg := s.c.reg.putB A (s.c.w A ||| 1#32) }
    have : ((s.c.reg.putW A (s.c.w A)).putF A y).putB A (s.c.w A ||| 1#32) = s.c.reg.putB A (s.c.w A ||| 1#32) := by
      unfold Regs.putB Regs.putW Regs.putF
      dsimp only
      rw [tput_tput 0 A _ _ _ _ hok.1, tput_tput 0 A _ _ _ _ hok.2.1]
    rw [this]
  unfold actionEnable
  dsimp only
  rw [show ({ fx := c1.fx, reg := c1.reg.putB (actA a 0) (mix (c1.w (actA a 0)) 1 (maskAt 0 1)), img := c1.img } : Cfg) = c' from cand]
  all_goals rfl

theorem armOne_spec (a : Nat) (s : State) : ∀ t, armOne a s = t →
    (let now := s.d.bound (s.c.actBind a)
     let dd := shortDiff (s.c.actCompare a) (shortOf now)
     (dd < -(s.c.lateLimit : Int) → t = { s with c := { s.c with reg := s.c.reg.putB (actA a 0) (mix (s.c.w (actA a 0)) 0 (maskAt 0 1)) }, d := s.d.setAct a { s.d.act a with result := 0x41 } }) ∧
     (-(s.c.lateLimit : Int) ≤ dd → t = { s with d := s.d.setAct a { Act.empty with c0 := ((now / 2 ^ 16 * 2 ^ 16 : Nat) : Int) + dd * 2 ^ 16, state := 1, lateNow := decide (dd ≤ 0) } })) := by
  intro t ht now dd
  unfold armOne armAction at ht
  dsimp only at ht
  refine ⟨fun h => ?_, fun h => ?_⟩
  · rw [if_neg (show ¬(-(s.c.lateLimit : Int) ≤ dd) by omega), if_pos rfl] at ht
    rw [if_neg (show ¬(0x41 : Nat) = 0 by decide)] at ht
    exact ht.symm
  · rw [if_pos h, if_pos rfl] at ht
    exact ht.symm

end Sys2Proof.Machine
end

