-- ==== Sys2Proof/Laws/PortLaws.lean ====
section
/-! SUPPORT. What frames of the data port can do (R512 to R523). -/

namespace Sys2Proof.Machine

open Sys2Proof

theorem leNat_leBytes (n x : Nat) : leNat (leBytes n x) = x % 256 ^ n := by
  induction n generalizing x with
  | zero => simp [leBytes, leNat, Nat.mod_one]
  | succ k ih =>
    show (BitVec.ofNat 8 x).toNat + 256 * leNat (leBytes k (x / 256)) = _
    have e : x % 256 ^ (k + 1) = x % 256 + 256 * (x / 256 % 256 ^ k) := by rw [pow_succ', Nat.mod_mul]
    rw [ih, BitVec.toNat_ofNat, e]

theorem leBytes_length (n x : Nat) : (leBytes n x).length = n := by
  induction n generalizing x with
  | zero => rfl
  | succ k ih => simp [leBytes, ih]

theorem dpCode_spec (code a : Nat) (d : Dyn) : ∃ i, dpCode code a d = { d with dp := { (if code = 0x2044 ∨ code = 0x2045 then { d.dp with expired := true }
    else if code = 0x2046 then { d.dp with underrun := true } else if code = 0x2047 then { d.dp with overrun := true } else { d.dp with frameErr := true } : Dp) with
      code := code, count := satInc 16 d.dp.count, addr := a, irq := i } } := by
  unfold dpCode
  extract_lets x x1 x2 rose d1
  have h : x2 = { (if code = 0x2044 ∨ code = 0x2045 then { d.dp with expired := true }
    else if code = 0x2046 then { d.dp with underrun := true } else if code = 0x2047 then { d.dp with overrun := true } else { d.dp with frameErr := true } : Dp) with
      code := code, count := satInc 16 d.dp.count, addr := a, irq := d.dp.irq } := by
    show ite _ _ _ = _
    repeat' split
    all_goals rfl
  have h1 : d1 = { d with dp := x2 } := rfl
  rw [h] at h1
  clear_value d1 x2 rose
  subst h1
  split
  · exact ⟨_, rfl⟩
  · exact ⟨_, rfl⟩

theorem dpCode_noted (code a : Nat) (q : Bool) (l : List Byte) (d : Dyn) (h : code ≠ 0x2044 ∧ code ≠ 0x2045 ∧ code ≠ 0x2046 ∧ code ≠ 0x2047) :
    ∀ t, dpOut q l (dpCode code a d) = t → t.dp.out = l ∧ t.dp.code = code ∧ t.dp.count = satInc 16 d.dp.count ∧ t.dp.addr = a ∧ t.dp.frameErr = true ∧
      t.dp.lock = d.dp.lock ∧ t.dp.queue = d.dp.queue ∧ t.dp.sbuf = d.dp.sbuf ∧ t.dp.quad = q ∧ { t with dp := d.dp } = d := by
  intro t ht
  obtain ⟨h1, h2, h3, h4⟩ := h
  obtain ⟨i, e⟩ := dpCode_spec code a d
  rw [if_neg (show ¬(code = 0x2044 ∨ code = 0x2045) by omega), if_neg h3, if_neg h4] at e
  rw [e] at ht
  subst ht
  and_intros <;> rfl

/-- A fold that leaves its second part alone. -/
theorem forEach_reads {σ : Type} (step : Nat → List Byte × σ → List Byte × σ) (out : Nat → List Byte) (d : σ) (l : List Nat) (acc : List Byte)
    (h : ∀ k ∈ l, ∀ a, step k (a, d) = (a ++ out k, d)) : forEach l (acc, d) step = (acc ++ (l.map out).flatten, d) := by
  induction l generalizing acc with
  | nil => simp [forEach]
  | cons k r ih =>
    show forEach r (step k (acc, d)) step = _
    rw [h k List.mem_cons_self, ih _ (fun j hj => h j (List.mem_cons_of_mem _ hj))]
    simp

theorem readStep_plain (c : Cfg) (addr k : Nat) (late : List Nat) (d : Dyn) (acc : List Byte) (h : d.dp.lock = none) (h1 : frameAddr c addr k < 0x10000000)
    (h2 : cfgAccess (frameAddr c addr k) = false) (h3 : groupAt c d (frameAddr c addr k) = none) :
    readStep c addr 4 late k (acc, d) = (acc ++ leBytes 4 (readReg c d (frameAddr c addr k)).toNat, d) := by
  unfold readStep
  dsimp only
  rw [if_neg (show ¬(cfgAccess (frameAddr c addr k) = true) by rw [h2]; simp), if_pos h1, if_pos rfl]
  have f : fetchWord c addr (frameAddr c addr k) d = (readReg c d (frameAddr c addr k), d) := by
    unfold fetchWord
    rw [h3]
    dsimp only
    rw [h]
  have w : wordSent (frameAddr c addr k) d = d := by unfold wordSent; rw [h]
  rw [f]
  dsimp only
  rw [w, List.take_of_length_le (by rw [leBytes_length])]

theorem dpRead_plain (q : Bool) (addr m : Nat) (late : List Nat) (c : Cfg) (d : Dyn) (hd : d.portDead = false) (hb : d.glb.st ≠ .boot) (ha : addr % 4 = 0) (hm : m ≤ 1024)
    (hl : d.dp.lock = none) (h : ∀ k, k < m → frameAddr c addr k < 0x10000000 ∧ cfgAccess (frameAddr c addr k) = false ∧ groupAt c d (frameAddr c addr k) = none) :
    dpRead q addr (4 * m) late c d = dpOut q ((List.range m).map (fun k => leBytes 4 (readReg c d (frameAddr c addr k)).toNat)).flatten d := by
  unfold dpRead
  rw [if_neg (by simp [hd]), if_neg hb, if_neg (by simp [ha])]
  have e1 : min (4 * m) 4096 = 4 * m := by omega
  have e2 : (4 * m + 3) / 4 = m := by omega
  dsimp only
  rw [e1, e2]
  have f := forEach_reads (fun k r => readStep c addr (min 4 (4 * m - 4 * k)) late k r) (fun k => leBytes 4 (readReg c d (frameAddr c addr k)).toNat) d (List.range m) []
    (fun k hk a => by
      have hk' := List.mem_range.mp hk
      have := h k hk'
      show readStep c addr (min 4 (4 * m - 4 * k)) late k (a, d) = _
      rw [show min 4 (4 * m - 4 * k) = 4 by omega]
      exact readStep_plain c addr k late d a hl this.1 this.2.1 this.2.2)
  rw [f]
  dsimp only
  rw [if_neg (by omega), List.nil_append, Nat.sub_self]
  simp

theorem forEach_queue (c : Cfg) (addr : Nat) (data : List Byte) (l : List Nat) (d : Dyn) (hq : d.dp.queue.length + l.length ≤ 512)
    (h : ∀ k ∈ l, frameAddr c addr k < 0x10000000 ∧ cfgAccess (frameAddr c addr k) = false) :
    forEach l d (fun k d => queueWord c addr (frameAddr c addr k) (BitVec.ofNat 32 (leAt data (4 * k) 4)) d) =
      { d with dp := { d.dp with queue := d.dp.queue ++ l.map (fun k => { addr := frameAddr c addr k, val := BitVec.ofNat 32 (leAt data (4 * k) 4) }) } } := by
  induction l generalizing d with
  | nil => simp [forEach]
  | cons k r ih =>
    obtain ⟨h1, h2⟩ := h k List.mem_cons_self
    simp only [List.length_cons] at hq
    have q : queueWord c addr (frameAddr c addr k) (BitVec.ofNat 32 (leAt data (4 * k) 4)) d =
        { d with dp := { d.dp with queue := d.dp.queue ++ [{ addr := frameAddr c addr k, val := BitVec.ofNat 32 (leAt data (4 * k) 4) }] } } := by
      unfold queueWord
      dsimp only
      rw [if_neg (show ¬(cfgAccess (frameAddr c addr k) = true) by rw [h2]; simp), if_pos h1, if_pos (by omega)]
    show forEach r (queueWord c addr (frameAddr c addr k) (BitVec.ofNat 32 (leAt data (4 * k) 4)) d) _ = _
    rw [q, ih _ (by simp; omega) (fun j hj => h j (List.mem_cons_of_mem _ hj))]
    simp

theorem dpWrite_plain (addr m : Nat) (data : List Byte) (c : Cfg) (d : Dyn) (hd : d.portDead = false) (hb : d.glb.st ≠ .boot) (ha : addr % 4 = 0) (hm : m ≤ 1024)
    (hn : data.length = 4 * m) (hq : d.dp.queue.length + m ≤ 512) (h : ∀ k, k < m → frameAddr c addr k < 0x10000000 ∧ cfgAccess (frameAddr c addr k) = false) :
    dpWrite addr data c d = dpOut false [] { d with dp := { d.dp with queue := d.dp.queue ++ (List.range m).map (fun k => { addr := frameAddr c addr k, val := BitVec.ofNat 32 (leAt data (4 * k) 4) }) } } := by
  unfold dpWrite
  rw [if_neg (by simp [hd]), if_neg hb, if_neg (by simp [ha])]
  have e1 : data.take 4096 = data := List.take_of_length_le (by omega)
  dsimp only
  rw [e1, if_neg (by omega), if_neg (by omega), show data.length / 4 = m by omega, forEach_queue c addr data (List.range m) d (by simpa using hq) (fun k hk => h k (List.mem_range.mp hk))]

end Sys2Proof.Machine
end

