-- ==== Sys2Proof/Laws/CanLaws.lean ====
section
/-! SUPPORT. What the host's commands to a CAN port, mailbox requests and launches can do (R475 to R505). -/

namespace Sys2Proof.Machine

open Sys2Proof

theorem Port.onWire (x : Port) (m : Nat) : (match x.wire with | some (.mailbox k _) => k == m | _ => false) = true ↔ ∃ f, x.wire = some (.mailbox m f) := by
  rcases h : x.wire with _ | w
  · simp
  · cases w with
    | mailbox k f => simp
    | extra i => simp

theorem canBegin_spec (c : Cfg) (p : Nat) (d : Dyn) : ∃ w q, canBegin c p d = d.setPort p { d.port p with wire := w, xq := q } ∨ canBegin c p d = d := by
  unfold canBegin
  dsimp only
  split
  · split
    · exact ⟨_, _, Or.inl rfl⟩
    · exact ⟨none, [], Or.inr rfl⟩
  · exact ⟨none, [], Or.inr rfl⟩

/-- What a beginning transmission leaves alone. -/
theorem canBegin_port (c : Cfg) (p : Nat) (d : Dyn) : ∀ e, canBegin c p d = e → { e with can := d.can } = d ∧ (∀ q, q ≠ p → e.port q = d.port q) ∧ (∀ m, (e.port p).mb m = (d.port p).mb m) ∧
    (∀ l, (e.port p).launch l = (d.port p).launch l) ∧ { e.port p with wire := (d.port p).wire, xq := (d.port p).xq } = d.port p := by
  intro e he
  obtain ⟨w, q, h | h⟩ := canBegin_spec c p d
  · rw [h] at he
    subst he
    exact ⟨rfl, fun q hq => setPort_other _ _ _ _ hq, fun m => by rw [setPort_same]; rfl, fun l => by rw [setPort_same]; rfl, by rw [setPort_same]⟩
  · rw [h] at he
    subst he
    exact ⟨rfl, fun _ _ => rfl, fun _ => rfl, fun _ => rfl, rfl⟩

theorem mbxRequest_spec (c : Cfg) (p m : Nat) (d : Dyn) : ∀ t, mbxRequest c p m d = t →
    ((∃ f, (d.port p).wire = some (.mailbox m f)) → t = d.setPort p ((d.port p).setMb m { (d.port p).mb m with again := true })) ∧
    (¬(∃ f, (d.port p).wire = some (.mailbox m f)) → ((t.port p).mb m).pending = true ∧ ((t.port p).mb m).buf = ((d.port p).mb m).buf) ∧
    (∀ k, k ≠ m → (t.port p).mb k = (d.port p).mb k) ∧ (∀ l, (t.port p).launch l = (d.port p).launch l) ∧ (∀ q, q ≠ p → t.port q = d.port q) ∧ { t with can := d.can } = d := by
  intro t ht
  unfold mbxRequest at ht
  extract_lets x b onWire b' at ht
  have ow : onWire = true ↔ ∃ f, (d.port p).wire = some (.mailbox m f) := Port.onWire (d.port p) m
  clear_value onWire
  split at ht
  · next h =>
    have h' := ow.mp h
    subst ht
    refine ⟨fun _ => rfl, fun q => absurd h' q, fun k hk => ?_, fun l => ?_, fun q hq => setPort_other _ _ _ _ hq, rfl⟩
    · rw [setPort_same, setMb_other _ _ _ _ hk]
    · rw [setPort_same, setMb_launch]
  · next h =>
    obtain ⟨a1, a2, a3, a4, _⟩ := canBegin_port c p _ t ht
    refine ⟨fun q => absurd (ow.mpr q) h, fun _ => ?_, fun k hk => ?_, fun l => ?_, fun q hq => ?_, (by have z := congrArg (fun z : Dyn => ({ z with can := d.can } : Dyn)) a1; exact z)⟩
    · rw [a3, setPort_same, setMb_same]; exact ⟨rfl, rfl⟩
    · rw [a3, setPort_same, setMb_other _ _ _ _ hk]
    · rw [a4, setPort_same, setMb_launch]
    · rw [a2 q hq, setPort_other _ _ _ _ hq]

theorem launchFail_mb (c : Cfg) (p e res : Nat) (d : Dyn) : ((launchFail c p e res d).port p).mb (c.launchMb p e) = { (d.port p).mb (c.launchMb p e) with pending := false, again := false, txres := res } ∧
    (∀ k, k ≠ c.launchMb p e → ((launchFail c p e res d).port p).mb k = (d.port p).mb k) ∧ ((launchFail c p e res d).port p).wire = (d.port p).wire ∧
    ((launchFail c p e res d).port p).ctlResult = (d.port p).ctlResult := by
  unfold launchFail
  dsimp only
  unfold txFailed
  have f : ∀ y : Port, FltStep (d.setPort p y) ((d.setPort p y).event (mbxSrc p (c.launchMb p e)) 0xE067 0 (c.launchMb p e) res) := fun y => event_step _ _ _ _ _ _
  rw [(f _).port, setPort_same]
  exact ⟨by rw [setMb_same], fun k hk => by rw [setMb_other _ _ _ _ hk, setLaunch_mb], rfl, rfl⟩

theorem Port.wiredAt (x : Port) (m : Nat) : (match x.wire with | some (.mailbox k _) => some k | _ => none) = some m ↔ ∃ f, x.wire = some (.mailbox m f) := by
  rcases h : x.wire with _ | w
  · simp
  · cases w with
    | mailbox k f => simp
    | extra i => simp

/-- What the launches of an ABORT_ALL leave of the mailboxes. -/
def AbStep (p : Nat) (on : Option Nat) (d e : Dyn) : Prop :=
  CanStep d e ∧ (∀ q, q ≠ p → e.port q = d.port q) ∧ (e.port p).wire = (d.port p).wire ∧ (e.port p).ctlResult = (d.port p).ctlResult ∧
  (∀ k, on = some k → (e.port p).mb k = (d.port p).mb k) ∧
  (∀ k, (e.port p).mb k = (d.port p).mb k ∨ (((e.port p).mb k).pending = false ∧ ((e.port p).mb k).txres = 5))

theorem AbStep.refl (p : Nat) (on : Option Nat) (d : Dyn) : AbStep p on d d := ⟨CanStep.refl d, fun _ _ => rfl, rfl, rfl, fun _ _ => rfl, fun _ => Or.inl rfl⟩

theorem AbStep.trans {p : Nat} {on : Option Nat} {d e g : Dyn} (h : AbStep p on d e) (k : AbStep p on e g) : AbStep p on d g := by
  obtain ⟨h1, h2, h3, h4, h5, h6⟩ := h
  obtain ⟨k1, k2, k3, k4, k5, k6⟩ := k
  refine ⟨h1.trans k1, fun q hq => (k2 q hq).trans (h2 q hq), k3.trans h3, k4.trans h4, fun j hj => (k5 j hj).trans (h5 j hj), fun j => ?_⟩
  rcases k6 j with q | q
  · rw [q]; exact h6 j
  · exact Or.inr q

theorem abortLaunches (c : Cfg) (p : Nat) (on : Option Nat) (d : Dyn) : ∀ t, forEach (List.range 16) d (fun e d =>
      if (((d.port p).launch e).state = 1 ∨ ((d.port p).launch e).state = 2) ∧ on ≠ some (c.launchMb p e) then launchFail c p e 5 d else d) = t →
    AbStep p on d t ∧ ∀ e, e < 16 → (let go := (((d.port p).launch e).state = 1 ∨ ((d.port p).launch e).state = 2) ∧ on ≠ some (c.launchMb p e)
      (go → (t.port p).launch e = { (d.port p).launch e with state := 4, txres := 5 }) ∧ (¬go → (t.port p).launch e = (d.port p).launch e)) := by
  intro t ht
  have one : ∀ (k : Nat) (s : Dyn), ∀ g, (if (((s.port p).launch k).state = 1 ∨ ((s.port p).launch k).state = 2) ∧ on ≠ some (c.launchMb p k) then launchFail c p k 5 s else s) = g →
      AbStep p on s g ∧ ∀ j, (g.port p).launch j = if j = k then (if (((s.port p).launch k).state = 1 ∨ ((s.port p).launch k).state = 2) ∧ on ≠ some (c.launchMb p k)
        then { (s.port p).launch k with state := 4, txres := 5 } else (s.port p).launch k) else (s.port p).launch j := by
    intro k s g hg
    by_cases h : (((s.port p).launch k).state = 1 ∨ ((s.port p).launch k).state = 2) ∧ on ≠ some (c.launchMb p k)
    · rw [if_pos h] at hg
      subst hg
      obtain ⟨a1, a2, a3⟩ := launchFail_spec c p k 5 s
      obtain ⟨b1, b2, b3, b4⟩ := launchFail_mb c p k 5 s
      refine ⟨⟨a1, a2, b3, b4, fun j hj => b2 j ?_, fun j => ?_⟩, fun j => ?_⟩
      · intro e; subst e; exact h.2 hj
      · by_cases e : j = c.launchMb p k
        · subst e; rw [b1]; exact Or.inr ⟨rfl, rfl⟩
        · exact Or.inl (b2 j e)
      · rw [a3, if_pos h]
    · rw [if_neg h] at hg
      subst hg
      refine ⟨AbStep.refl _ _ _, fun j => ?_⟩
      rw [if_neg h]
      split
      · next e => rw [e]
      · rfl
  have k := forEach_point (AbStep p on) (AbStep.refl p on) (fun _ _ _ => AbStep.trans) (fun d j => (d.port p).launch j)
    (fun e d => if (((d.port p).launch e).state = 1 ∨ ((d.port p).launch e).state = 2) ∧ on ≠ some (c.launchMb p e) then launchFail c p e 5 d else d)
    (fun k s => if (((s.port p).launch k).state = 1 ∨ ((s.port p).launch k).state = 2) ∧ on ≠ some (c.launchMb p k) then { (s.port p).launch k with state := 4, txres := 5 } else (s.port p).launch k)
    (fun k s => (one k s _ rfl).1) (fun k s j => (one k s _ rfl).2 j)
    (fun s t k _ h => by
      have h' : (t.port p).launch k = (s.port p).launch k := h
      show ite _ _ _ = ite _ _ _
      rw [h']) (List.range 16) d List.nodup_range
  rw [ht] at k
  refine ⟨k.1, fun e he => ⟨fun h => ?_, fun h => ?_⟩⟩
  · have := k.2 e
    rw [if_pos (List.mem_range.mpr he), if_pos h] at this
    exact this
  · have := k.2 e
    rw [if_pos (List.mem_range.mpr he), if_neg h] at this
    exact this

/-- What the mailboxes of an ABORT_ALL leave. -/
def AbMb (p : Nat) (d e : Dyn) : Prop :=
  CanStep d e ∧ (∀ q, q ≠ p → e.port q = d.port q) ∧ (e.port p).wire = (d.port p).wire ∧ (e.port p).ctlResult = (d.port p).ctlResult ∧ (∀ l, (e.port p).launch l = (d.port p).launch l)

theorem AbMb.trans {p : Nat} {d e g : Dyn} (h : AbMb p d e) (k : AbMb p e g) : AbMb p d g := by
  obtain ⟨h1, h2, h3, h4, h5⟩ := h
  obtain ⟨k1, k2, k3, k4, k5⟩ := k
  exact ⟨h1.trans k1, fun q hq => (k2 q hq).trans (h2 q hq), k3.trans h3, k4.trans h4, fun l => (k5 l).trans (h5 l)⟩

theorem abortMbs (p : Nat) (on : Option Nat) (d : Dyn) : ∀ t, forEach (List.range 32) d (fun m d =>
      if on = some m then d.setPort p ((d.port p).setMb m { (d.port p).mb m with again := false })
      else if ((d.port p).mb m).pending then d.setPort p ((d.port p).setMb m { (d.port p).mb m with pending := false, txres := 5, held := false }) else d) = t →
    AbMb p d t ∧ ∀ m, m < 32 → (t.port p).mb m = if on = some m then { (d.port p).mb m with again := false }
      else if ((d.port p).mb m).pending then { (d.port p).mb m with pending := false, txres := 5, held := false } else (d.port p).mb m := by
  intro t ht
  have one : ∀ (k : Nat) (s : Dyn) (b : Mbx), AbMb p s (s.setPort p ((s.port p).setMb k b)) ∧ ∀ j, ((s.setPort p ((s.port p).setMb k b)).port p).mb j = if j = k then b else (s.port p).mb j := by
    intro k s b
    refine ⟨⟨CanStep.put _ _ _, fun q hq => setPort_other _ _ _ _ hq, by rw [setPort_same]; rfl, by rw [setPort_same]; rfl, fun l => by rw [setPort_same, setMb_launch]⟩, fun j => ?_⟩
    rw [setPort_same]
    by_cases h : j = k
    · subst h; rw [setMb_same, if_pos rfl]
    · rw [setMb_other _ _ _ _ h, if_neg h]
  have hr : ∀ s, AbMb p s s := fun s => ⟨CanStep.refl s, fun _ _ => rfl, rfl, rfl, fun _ => rfl⟩
  have k := forEach_point (AbMb p) hr (fun _ _ _ => AbMb.trans) (fun d j => (d.port p).mb j)
    (fun m d => if on = some m then d.setPort p ((d.port p).setMb m { (d.port p).mb m with again := false })
      else if ((d.port p).mb m).pending then d.setPort p ((d.port p).setMb m { (d.port p).mb m with pending := false, txres := 5, held := false }) else d)
    (fun m d => if on = some m then { (d.port p).mb m with again := false }
      else if ((d.port p).mb m).pending then { (d.port p).mb m with pending := false, txres := 5, held := false } else (d.port p).mb m)
    (fun k s => by
      dsimp only
      split
      · exact (one k s _).1
      · split
        · exact (one k s _).1
        · exact hr s)
    (fun k s j => by
      dsimp only
      split
      · exact (one k s _).2 j
      · split
        · exact (one k s _).2 j
        · split
          · next e => rw [e]
          · rfl)
    (fun s t k _ h => by
      have h' : (t.port p).mb k = (s.port p).mb k := h
      show ite _ _ _ = ite _ _ _
      rw [h']) (List.range 32) d List.nodup_range
  rw [ht] at k
  refine ⟨k.1, fun m hm => ?_⟩
  have := k.2 m
  rw [if_pos (List.mem_range.mpr hm)] at this
  exact this

theorem abortAll_spec (c : Cfg) (p : Nat) (d : Dyn) (hs : d.standby = false) : ∀ t, abortAll c p d = t →
    (let x := d.port p
     let wired := fun (k : Nat) => ∃ f, x.wire = some (.mailbox k f)
     (t.port p).ctlResult = 0 ∧ (t.port p).wire = x.wire ∧
        (∀ k, k < 32 → ¬wired k → ((t.port p).mb k).pending = false ∧ ((x.mb k).pending = true → ((t.port p).mb k).txres = 5)) ∧
        (∀ k, k < 32 → wired k → (t.port p).mb k = { x.mb k with again := false }) ∧
        (∀ e, e < 16 → (let go := ((x.launch e).state = 1 ∨ (x.launch e).state = 2) ∧ ¬wired (c.launchMb p e)
          (go → (t.port p).launch e = { x.launch e with state := 4, txres := 5 }) ∧ (¬go → (t.port p).launch e = x.launch e))) ∧
        (∀ q, q ≠ p → t.port q = d.port q) ∧ (∀ k, t.flt.find k = d.flt.find k) ∧ Alike { t with can := d.can } d) := by
  intro t ht
  unfold abortAll at ht
  rw [hs, if_neg (by decide)] at ht
  extract_lets x on d1 d2 at ht
  have hon : ∀ k, on = some k ↔ ∃ f, x.wire = some (.mailbox k f) := fun k => Port.wiredAt x k
  obtain ⟨⟨a1, a2, a3, a4, a5, a6⟩, a7⟩ := abortLaunches c p on d1 d2 rfl
  obtain ⟨⟨b1, b2, b3, b4, b5⟩, b6⟩ := abortMbs p on d2 t ht
  have p1 : d1.port p = { x with ctlResult := 0 } := setPort_same _ _ _
  have q1 : ∀ q, q ≠ p → d1.port q = d.port q := fun q hq => setPort_other _ _ _ _ hq
  have s1 : CanStep d d1 := CanStep.put _ _ _
  have m1 : ∀ k, (d1.port p).mb k = x.mb k := fun k => by rw [p1]; rfl
  have l1 : ∀ k, (d1.port p).launch k = x.launch k := fun k => by rw [p1]; rfl
  clear_value d2 d1
  dsimp only
  obtain ⟨c1, c2, c3, c4⟩ := (s1.trans a1).trans b1
  refine ⟨by rw [b4, a4, p1], by rw [b3, a3, p1], fun k hk hw => ?_, fun k hk hw => ?_, fun e he => ?_, fun q hq => (b2 q hq).trans ((a2 q hq).trans (q1 q hq)), c3, c4⟩
  · have hn : ¬on = some k := fun q => hw ((hon k).mp q)
    have q := b6 k hk
    rw [if_neg hn] at q
    rcases a6 k with g | g
    · rw [g, m1] at q
      cases hp : (x.mb k).pending with
      | true => rw [hp, if_pos rfl] at q; rw [q]; exact ⟨rfl, fun _ => rfl⟩
      | false => rw [hp, if_neg (by decide)] at q; rw [q]; exact ⟨hp, fun h => Bool.noConfusion h⟩
    · rw [g.1, if_neg (by decide)] at q
      rw [q]
      exact ⟨g.1, fun _ => g.2⟩
  · have hn : on = some k := (hon k).mpr hw
    rw [b6 k hk, if_pos hn, a5 k hn, m1]
  · obtain ⟨u1, u2⟩ := a7 e he
    rw [l1] at u1 u2
    refine ⟨fun h => (b5 e).trans (u1 ⟨h.1, fun q => h.2 ((hon _).mp q)⟩), fun h => (b5 e).trans (u2 (fun q => h ⟨q.1, fun z => q.2 ((hon _).mpr z)⟩))⟩

theorem bit_pow (m k : Nat) (hm : m < 32) (hk : k < 32) : bit (BitVec.ofNat 32 (2 ^ m)) k = decide (k = m) := by
  rw [bit_lsb, BitVec.getLsbD_ofNat, Nat.testBit_two_pow]
  simp [hk, eq_comm]

theorem txBits (m : Nat) (hm : m < 32) : (List.range 32).filter (fun k => bit (BitVec.ofNat 32 (2 ^ m)) k) = [m] := by
  revert hm
  revert m
  decide

end Sys2Proof.Machine
end

