-- ==== Sys2Proof/Laws/Archive.lean ====
section
/-! SUPPORT. What the commands of the ledger and of Shuttle can do (R523 to R543). -/

namespace Sys2Proof.Machine

open Sys2Proof

/-- What a command of the archive leaves alone. -/
def ArcStep (d e : Dyn) : Prop := Alike { e with arc := d.arc } d

theorem ArcStep.refl (d : Dyn) : ArcStep d d := rfl

theorem ArcStep.trans {d e g : Dyn} (h : ArcStep d e) (k : ArcStep e g) : ArcStep d g := by
  have k' : ({ g with arc := e.arc } : Dyn).silent = e.silent := k
  exact Eq.trans (by have w := congrArg (fun x : Dyn => ({ x with arc := d.arc } : Dyn)) k'; exact w) h

theorem ArcStep.put (d : Dyn) (x : Arc) : ArcStep d { d with arc := x } := rfl

theorem FltStep.arc {d e : Dyn} (h : FltStep d e) : ArcStep d e ∧ e.arc = d.arc := by
  obtain ⟨f, i, x, y, k, rfl⟩ := h
  exact ⟨rfl, rfl⟩

theorem ArcStep.band (d : Dyn) (b : Nat) (x : Band) : ArcStep d (d.setBand b x) := rfl

theorem ArcStep.region (d : Dyn) (b : Nat) (x : Region) : ArcStep d (d.setRegion b x) := rfl

theorem checkpoint_arc (d : Dyn) : ArcStep d d.checkpoint ∧ d.checkpoint.arc.queue = d.arc.queue ∧ d.checkpoint.arc.state = d.arc.state ∧ d.checkpoint.arc.bands = d.arc.bands ∧
    d.checkpoint.arc.regions = d.arc.regions ∧ d.checkpoint.arc.waitRecs = d.arc.waitRecs ∧ d.checkpoint.flt = d.flt ∧ d.checkpoint.tim = d.tim ∧ (d.arc.cpValid = true → d.checkpoint.arc.cpValid = true) := by
  unfold Dyn.checkpoint
  split
  · exact ⟨rfl, rfl, rfl, rfl, rfl, rfl, rfl, rfl, id⟩
  · exact ⟨rfl, rfl, rfl, rfl, rfl, rfl, rfl, rfl, fun _ => rfl⟩

/-- Nothing but the archive and the books, and the program queue stands. -/
def QueueStep (d e : Dyn) : Prop := ArcStep d e ∧ e.arc.queue = d.arc.queue

theorem QueueStep.refl (d : Dyn) : QueueStep d d := ⟨rfl, rfl⟩

theorem QueueStep.trans {d e g : Dyn} (h : QueueStep d e) (k : QueueStep e g) : QueueStep d g := ⟨h.1.trans k.1, k.2.trans h.2⟩

theorem QueueStep.band (d : Dyn) (b : Nat) (x : Band) : QueueStep d (d.setBand b x) := ⟨rfl, rfl⟩

theorem QueueStep.region (d : Dyn) (b : Nat) (x : Region) : QueueStep d (d.setRegion b x) := ⟨rfl, rfl⟩

theorem FltStep.queue {d e : Dyn} (h : FltStep d e) : QueueStep d e := ⟨h.arc.1, by rw [h.arc.2]⟩

theorem checkpoint_queue (d : Dyn) : QueueStep d d.checkpoint := ⟨(checkpoint_arc d).1, (checkpoint_arc d).2.1⟩

theorem QueueStep.mark {d e : Dyn} (h : QueueStep d e) : QueueStep d e.checkpoint := h.trans (checkpoint_queue e)

theorem regionFull_queue (c : Cfg) (r : Nat) (d : Dyn) : QueueStep d (regionFull c r d) := by
  unfold regionFull
  dsimp only
  split
  · exact QueueStep.refl d
  · exact (QueueStep.region d r _).trans (fault_step _ _ _ _ _ _ _ _ _).queue

theorem takeBand_queue (r : Nat) (d : Dyn) : QueueStep d (takeBand r d) := by
  unfold takeBand
  split
  · exact QueueStep.mark ⟨rfl, rfl⟩
  · exact QueueStep.refl d

theorem eraseBand_queue (r b : Nat) (d : Dyn) : QueueStep d (eraseBand r b d) := ⟨rfl, rfl⟩

theorem bandChange_queue (c : Cfg) (r : Nat) (d : Dyn) : QueueStep d (bandChange c r d) := by
  unfold bandChange
  extract_lets d1 d2
  have h1 : QueueStep d d1 := by
    show QueueStep d (match d.arc.openBand r with | some (b, x) => (d.setBand b { x with cond := 3 }).checkpoint | none => d)
    split
    · exact (QueueStep.band d _ _).trans (checkpoint_queue _)
    · exact QueueStep.refl d
  have h2 : QueueStep d d2 := h1.trans (takeBand_queue r d1)
  clear_value d2 d1
  split
  · split
    · exact h2.trans (regionFull_queue c 1 d2)
    · exact h2
  · split
    · exact h1.trans (regionFull_queue c r d1)
    · split
      · exact (h1.trans (eraseBand_queue _ _ _)).trans (takeBand_queue _ _)
      · exact h1.trans (takeBand_queue _ _)

theorem withOpen_queue (c : Cfg) (r : Nat) (d : Dyn) : QueueStep d (withOpen c r d) := by
  unfold withOpen
  split
  · exact bandChange_queue c r d
  · exact QueueStep.refl d

theorem withOpen_some (c : Cfg) (r : Nat) (d : Dyn) (p : Nat × Band) (h : d.arc.openBand r = some p) : withOpen c r d = d := by
  unfold withOpen
  rw [h]
  exact if_neg Bool.false_ne_true

theorem queueFront_step (l : List PQ) (d : Dyn) : ArcStep d (queueFront l d) ∧ (queueFront l d).arc.queue = l ++ d.arc.queue := ⟨rfl, rfl⟩

theorem rewriteNow_step (r : Nat) (d : Dyn) : ArcStep d (rewriteNow r d) ∧ (rewriteNow r d).arc.queue = rewriteItems r d ++ d.arc.queue := by
  unfold rewriteNow rewriteItems
  dsimp only
  split
  · next h => rw [h]; exact ⟨ArcStep.refl d, rfl⟩
  · exact ⟨rfl, rfl⟩

theorem stripeClosed_step (c : Cfg) (r b : Nat) (x : Band) (d : Dyn) : ArcStep d (stripeClosed c r b x d) ∧
    (stripeClosed c r b x d).arc.queue = stripeItems r b x ++ (rewriteItems r d ++ d.arc.queue) := by
  obtain ⟨h, hq⟩ := rewriteNow_step r d
  unfold stripeClosed stripeItems
  dsimp only
  by_cases hb : bandSubs ≤ x.subs.length + 1
  · rw [if_pos hb, if_pos hb]
    have k := bandChange_queue c r (rewriteNow r d)
    exact ⟨(h.trans k.1).trans (queueFront_step _ _).1, by rw [(queueFront_step _ _).2, k.2, hq]⟩
  · rw [if_neg hb, if_neg hb]
    exact ⟨h.trans (queueFront_step _ _).1, by rw [(queueFront_step _ _).2, hq]⟩

theorem placeSub_step (c : Cfg) (r b : Nat) (x : Band) (rs : List Rec) (fails : Bool) (d : Dyn) : ArcStep d (placeSub c r b x rs fails d) ∧
    (placeSub c r b x rs fails d).arc.queue = placedItems r b x d ++ d.arc.queue ∧
    ((x.subs.length + 1) % 56 ≠ 0 → placeSub c r b x rs fails d = d.setBand b (x.placed rs fails)) := by
  have e : placeSub c r b x rs fails d = if (x.subs.length + 1) % 56 = 0 then stripeClosed c r b x (d.setBand b (x.placed rs fails)) else d.setBand b (x.placed rs fails) := rfl
  rw [e]
  unfold placedItems
  by_cases h : (x.subs.length + 1) % 56 = 0
  · rw [if_pos h, if_pos h]
    obtain ⟨k1, k2⟩ := stripeClosed_step c r b x (d.setBand b (x.placed rs fails))
    exact ⟨(ArcStep.band d b _).trans k1, k2.trans (List.append_assoc _ _ _).symm, fun q => absurd h q⟩
  · rw [if_neg h, if_neg h]
    exact ⟨ArcStep.band d b _, rfl, fun _ => rfl⟩

/-- A region that keeps its open band places the subpage there; one that can take no band drops the records when it is full, and waits otherwise. -/
theorem dataDone_spec (c : Cfg) (ok : Bool) (q : PQ) (rest : List PQ) (d : Dyn) (hq : d.arc.queue = q :: rest) :
    (ArcStep d (dataDone c ok q rest d) ∧ ∃ front, (dataDone c ok q rest d).arc.queue = front ++ rest ∨ (dataDone c ok q rest d).arc.queue = front ++ d.arc.queue) ∧
    (∀ b x, d.arc.openBand q.region = some (b, x) →
      (dataDone c ok q rest d).arc.queue = placedItems q.region b x d ++ (if ok then rest else d.arc.queue) ∧
      ((x.subs.length + 1) % 56 ≠ 0 → dataDone c ok q rest d =
        { d with arc := { d.arc with queue := if ok then rest else d.arc.queue, bands := tput Band.empty d.arc.bands b (x.placed (if ok then q.recs else []) (!ok)) } })) := by
  have k0 := withOpen_queue c q.region d
  refine ⟨?_, fun b x hb => ?_⟩
  · unfold dataDone
    generalize withOpen c q.region d = d1 at k0
    dsimp only
    split
    · next b x _ =>
      cases ok with
      | true =>
        rw [if_pos rfl]
        obtain ⟨k1, k2, -⟩ := placeSub_step c q.region b x q.recs false { d1 with arc := { d1.arc with queue := rest } }
        exact ⟨(k0.1.trans (ArcStep.put d1 _)).trans k1, _, Or.inl k2⟩
      | false =>
        rw [if_neg Bool.false_ne_true]
        obtain ⟨k1, k2, -⟩ := placeSub_step c q.region b x [] true d1
        exact ⟨k0.1.trans k1, _, Or.inr (by rw [k2, k0.2])⟩
    · split
      · exact ⟨k0.1.trans rfl, [], Or.inl rfl⟩
      · exact ⟨k0.1, [], Or.inr (by rw [k0.2, List.nil_append])⟩
  · have e : dataDone c ok q rest d = if ok then placeSub c q.region b x q.recs false { d with arc := { d.arc with queue := rest } } else placeSub c q.region b x [] true d := by
      unfold dataDone
      rw [withOpen_some c q.region d _ hb]
      dsimp only
      rw [hb]
    rw [e]
    cases ok with
    | true =>
      rw [if_pos rfl, if_pos rfl, if_pos rfl]
      obtain ⟨-, k2, k3⟩ := placeSub_step c q.region b x q.recs false { d with arc := { d.arc with queue := rest } }
      exact ⟨k2, fun h => k3 h⟩
    | false =>
      rw [if_neg Bool.false_ne_true, if_neg Bool.false_ne_true, if_neg Bool.false_ne_true]
      obtain ⟨-, k2, k3⟩ := placeSub_step c q.region b x [] true d
      exact ⟨k2, fun h => k3 h⟩

theorem parityDone_eq (ok : Bool) (b order st : Nat) (d : Dyn) :
    parityDone ok b order st d = if 2 ≤ (d.band b).cond ∧ (d.band b).order = order then d.setBand b ((d.band b).withParity st ok) else d := by
  unfold parityDone Band.withParity
  dsimp only
  split
  · split <;> rfl
  · rfl

theorem indexDone_eq (ok : Bool) (b order : Nat) (d : Dyn) :
    indexDone ok b order d = if 2 ≤ (d.band b).cond ∧ (d.band b).order = order then d.setBand b ((d.band b).withIndex ok) else d := rfl

theorem programDone_eq (c : Cfg) (ok : Bool) (d : Dyn) (q : PQ) (rest : List PQ) (h1 : d.arc.queue = q :: rest) (h2 : d.arc.state = 2) :
    subpageProgramDone c ok d = match q.kind with
      | .data => dataDone c ok q rest d
      | .parity b order st => parityDone ok b order st { d with arc := { d.arc with queue := rest } }
      | .index b order => indexDone ok b order { d with arc := { d.arc with queue := rest } } := by
  unfold subpageProgramDone
  split
  · next q' rest' h =>
    rw [h1] at h
    injection h with e1 e2
    subst e1 e2
    rw [if_neg (by simp [h2])]
    all_goals rfl
  · next h => rw [h1] at h; cases h

theorem retireBlock_spec (c : Cfg) (b : Nat) (d : Dyn) : ∀ t, retireBlock c b d = t → ArcStep d t ∧ t.arc.retired = satInc 16 d.arc.retired ∧ t.arc.spare = d.arc.spare - 1 ∧
    (t.band b).bad = (d.band b).bad + (1 - d.arc.spare) ∧ (t.band b).cond = (d.band b).cond ∧ (t.band b).subs = (d.band b).subs ∧ (t.band b).failed = (d.band b).failed ∧
    ∀ k, k ≠ b → t.band k = d.band k := by
  intro t ht
  unfold retireBlock at ht
  extract_lets a d0 d1 at ht
  have s1 := event_step d0 0xF000 0xF063 0 0 0
  have a1 : d1.arc = { a with retired := satInc 16 a.retired, spare := a.spare - 1 } := s1.arc.2
  have k1 : ArcStep d d1 := (ArcStep.put d _).trans s1.arc.1
  have b1 : ∀ k, d1.band k = d.band k := fun k => by unfold Dyn.band; rw [a1]
  have ha : a = d.arc := rfl
  clear_value d1 a
  split at ht
  · next hs =>
    have key : ArcStep d t ∧ t.arc = d1.arc := by
      split at ht
      · have s2 := fault_step d1 c 0xF000 0xF064 1 0 0 false false
        rw [ht] at s2
        exact ⟨k1.trans s2.arc.1, s2.arc.2⟩
      · subst ht; exact ⟨k1, rfl⟩
    obtain ⟨k2, a2⟩ := key
    have b2 : ∀ k, t.band k = d.band k := fun k => by rw [← b1 k]; unfold Dyn.band; rw [a2]
    rw [ha] at a1 hs
    refine ⟨k2, by rw [a2, a1], by rw [a2, a1], ?_, by rw [b2], by rw [b2], by rw [b2], fun k _ => b2 k⟩
    rw [b2, show 1 - d.arc.spare = 0 by omega]
    rfl
  · next hs =>
    have s2 := fault_step (d1.setBand b { d1.band b with bad := (d1.band b).bad + 1 }) c 0xF000 0xF065 2 0 0 true true
    rw [ht] at s2
    have b2 : ∀ k, t.band k = (d1.setBand b { d1.band b with bad := (d1.band b).bad + 1 }).band k := fun k => by
      have := s2.arc.2
      generalize d1.setBand b { d1.band b with bad := (d1.band b).bad + 1 } = e at this
      unfold Dyn.band; rw [this]
    have a2 : t.arc.retired = d1.arc.retired ∧ t.arc.spare = d1.arc.spare := by rw [s2.arc.2]; exact ⟨rfl, rfl⟩
    have k2 : ArcStep d t := (k1.trans (ArcStep.band d1 b _)).trans s2.arc.1
    rw [ha] at a1 hs
    refine ⟨k2, by rw [a2.1, a1], by rw [a2.2, a1], ?_, ?_, ?_, ?_, fun k hk => ?_⟩
    · rw [b2, setBand_same, b1, show 1 - d.arc.spare = 1 by omega]
    · rw [b2, setBand_same, b1]
    · rw [b2, setBand_same, b1]
    · rw [b2, setBand_same, b1]
    · rw [b2, setBand_other _ _ _ _ hk, b1]

theorem retireAll_spec (c : Cfg) (b : Nat) : ∀ (l : List Nat) (d : Dyn), ∀ t, forEach l d (fun _ d => retireBlock c b d) = t → ArcStep d t ∧ (d.arc.retired ≤ 65535 → t.arc.retired = min 65535 (d.arc.retired + l.length)) ∧
    t.arc.spare = d.arc.spare - l.length ∧ (t.band b).bad = (d.band b).bad + (l.length - d.arc.spare) ∧ (t.band b).cond = (d.band b).cond ∧ (t.band b).subs = (d.band b).subs ∧
    (t.band b).failed = (d.band b).failed ∧ ∀ k, k ≠ b → t.band k = d.band k := by
  intro l
  induction l with
  | nil =>
    intro d t ht
    subst ht
    refine ⟨ArcStep.refl d, fun h => ?_, rfl, ?_, rfl, rfl, rfl, fun _ _ => rfl⟩
    · show d.arc.retired = min 65535 (d.arc.retired + 0); omega
    · show (d.band b).bad = (d.band b).bad + (0 - d.arc.spare); omega
  | cons x l ih =>
    intro d t ht
    obtain ⟨r0, r1, r2, r3, r4, r5, r6, r7⟩ := retireBlock_spec c b d _ rfl
    obtain ⟨i0, i1, i2, i3, i4, i5, i6, i7⟩ := ih (retireBlock c b d) t ht
    rw [List.length_cons]
    refine ⟨r0.trans i0, fun h => ?_, by rw [i2, r2]; omega, by rw [i3, r3, r2]; omega, i4.trans r4, i5.trans r5, i6.trans r6, fun k hk => (i7 k hk).trans (r7 k hk)⟩
    have e : satInc 16 d.arc.retired = min 65535 (d.arc.retired + 1) := by unfold satInc; split <;> omega
    rw [i1 (by rw [r1, e]; omega), r1, e]
    omega

/-- Only the archive itself, the regions, the program queue and its peak change. -/
theorem flushRegion_spec (r : Nat) (d : Dyn) : ∃ p, flushRegion r d = { d with arc := { d.arc with
      regions := tput Region.empty d.arc.regions r { d.region r with partialRecs := [], since := (if (d.region r).partialRecs = [] then (d.region r).since else 0) },
      queue := d.arc.queue ++ (if (d.region r).partialRecs = [] then [] else [{ region := r, recs := (d.region r).partialRecs }]), peak := p } } ∨
    ((d.region r).partialRecs = [] ∧ flushRegion r d = d) := by
  by_cases h : (d.region r).partialRecs = []
  · exact ⟨0, Or.inr ⟨h, if_pos h⟩⟩
  · unfold flushRegion
    rw [if_neg h, if_neg h, if_neg h]
    exact ⟨_, Or.inl rfl⟩

theorem flushRegion_fields (r : Nat) (d : Dyn) : ∀ t, flushRegion r d = t → ArcStep d t ∧ (t.region r).partialRecs = [] ∧ (∀ k, k ≠ r → t.region k = d.region k) ∧
    t.arc.queue = d.arc.queue ++ (if (d.region r).partialRecs = [] then [] else [{ region := r, recs := (d.region r).partialRecs }]) := by
  intro t ht
  obtain ⟨p, h | ⟨h, e⟩⟩ := flushRegion_spec r d
  · rw [h] at ht
    subst ht
    refine ⟨rfl, ?_, fun k hk => ?_, rfl⟩
    · show (tget Region.empty (tput Region.empty d.arc.regions r _) r).partialRecs = []
      rw [tget_tput_same]
    · show tget Region.empty (tput Region.empty d.arc.regions r _) k = _
      rw [tget_tput_other _ _ _ _ _ hk]
      rfl
  · rw [e] at ht
    subst ht
    exact ⟨ArcStep.refl d, h, fun _ _ => rfl, by rw [if_pos h, List.append_nil]⟩

theorem flushAll_spec : ∀ (l : List Nat) (d : Dyn), l.Nodup → ∀ t, forEach l d flushRegion = t → ArcStep d t ∧ (∀ k, k ∈ l → (t.region k).partialRecs = []) ∧
    (∀ k, k ∉ l → t.region k = d.region k) ∧
    t.arc.queue = d.arc.queue ++ (l.filter (fun k => decide ((d.region k).partialRecs ≠ []))).map (fun k => { region := k, recs := (d.region k).partialRecs }) := by
  intro l
  induction l with
  | nil => intro d _ t ht; subst ht; exact ⟨ArcStep.refl d, fun k h => (by cases h), fun _ _ => rfl, (List.append_nil _).symm⟩
  | cons x l ih =>
    intro d hl t ht
    obtain ⟨hx, hl'⟩ := List.nodup_cons.mp hl
    obtain ⟨r0, r1, r2, r3⟩ := flushRegion_fields x d _ rfl
    obtain ⟨i0, i1, i2, i3⟩ := ih (flushRegion x d) hl' t ht
    refine ⟨r0.trans i0, fun k hk => ?_, fun k hk => ?_, ?_⟩
    · rcases List.mem_cons.mp hk with h | h
      · rw [h, i2 x hx, r1]
      · exact i1 k h
    · rw [List.mem_cons, not_or] at hk
      rw [i2 k hk.2, r2 k hk.1]
    · rw [i3, r3, List.append_assoc]
      congr 1
      have e : ∀ k, k ∈ l → (flushRegion x d).region k = d.region k := fun k hk => r2 k (fun q => hx (q ▸ hk))
      have f : (l.filter (fun k => decide (((flushRegion x d).region k).partialRecs ≠ []))) = l.filter (fun k => decide ((d.region k).partialRecs ≠ [])) :=
        List.filter_congr (fun k hk => by rw [e k hk])
      rw [f]
      have g : (l.filter (fun k => decide ((d.region k).partialRecs ≠ []))).map (fun k => ({ region := k, recs := ((flushRegion x d).region k).partialRecs } : PQ)) =
          (l.filter (fun k => decide ((d.region k).partialRecs ≠ []))).map (fun k => { region := k, recs := (d.region k).partialRecs }) :=
        List.map_congr_left (fun k hk => by rw [e k (List.mem_filter.mp hk).1])
      rw [g]
      by_cases h : (d.region x).partialRecs = []
      · rw [if_pos h, List.filter_cons_of_neg (by simp [h]), List.nil_append]
      · rw [if_neg h, List.filter_cons_of_pos (by simp [h]), List.map_cons]
        rfl

theorem pack_fields (a : Arc) (ms : Nat) (r : Rec) : (a.pack ms r).state = a.state ∧ (a.pack ms r).bands = a.bands ∧
    (∀ k, (tget Region.empty (a.pack ms r).regions k).full = (tget Region.empty a.regions k).full) ∧ (a.pack ms r).cpValid = a.cpValid ∧ (a.pack ms r).waitRecs = a.waitRecs := by
  have f : ∀ ps si k, (tget Region.empty (tput Region.empty a.regions r.cls { tget Region.empty a.regions r.cls with partialRecs := ps, since := si }) k).full = (tget Region.empty a.regions k).full := by
    intro ps si k
    rw [tget_tput]
    split
    · next h => rw [h]
    · rfl
  unfold Arc.pack
  dsimp only
  split
  · exact ⟨rfl, rfl, f _ _, rfl, rfl⟩
  · exact ⟨rfl, rfl, f [r] ms, rfl, rfl⟩

theorem marked_fields (a : Arc) (e : Nat) : (a.marked e).state = a.state ∧ (a.marked e).bands = a.bands ∧ (a.marked e).regions = a.regions ∧ (a.marked e).waitRecs = a.waitRecs ∧
    (a.cpValid = true → (a.marked e).cpValid = true) := by
  unfold Arc.marked
  split
  · exact ⟨rfl, rfl, rfl, rfl, fun _ => rfl⟩
  · exact ⟨rfl, rfl, rfl, rfl, id⟩

theorem ledgerRec_fields (d : Dyn) (r : Rec) : ∃ x, d.ledgerRec r = { d with arc := x } ∧ x.state = d.arc.state ∧ x.bands = d.arc.bands ∧
    (∀ k, (tget Region.empty x.regions k).full = (tget Region.empty d.arc.regions k).full) ∧ (d.arc.cpValid = true → x.cpValid = true) ∧ (d.arc.state = 2 → x.waitRecs = d.arc.waitRecs) := by
  have f : ∀ g : Region, g.full = (tget Region.empty d.arc.regions r.cls).full → ∀ k, (tget Region.empty (tput Region.empty d.arc.regions r.cls g) k).full = (tget Region.empty d.arc.regions k).full := by
    intro g hg k
    rw [tget_tput]
    split
    · next h => rw [h, hg]
    · rfl
  obtain ⟨p1, p2, p3, p4, p5⟩ := pack_fields { d.arc with seq := (r.seq + 1) % 2 ^ 64 } d.ms r
  unfold Dyn.ledgerRec
  dsimp only at p1 p2 p3 p4 p5 ⊢
  have mk : ∀ x : Arc, x.state = d.arc.state ∧ x.bands = d.arc.bands ∧ (∀ k, (tget Region.empty x.regions k).full = (tget Region.empty d.arc.regions k).full) ∧
      (d.arc.cpValid = true → x.cpValid = true) ∧ (d.arc.state = 2 → x.waitRecs = d.arc.waitRecs) → ∃ y, ({ d with arc := x.marked d.tim.epoch } : Dyn) = { d with arc := y } ∧ y.state = d.arc.state ∧ y.bands = d.arc.bands ∧
      (∀ k, (tget Region.empty y.regions k).full = (tget Region.empty d.arc.regions k).full) ∧ (d.arc.cpValid = true → y.cpValid = true) ∧ (d.arc.state = 2 → y.waitRecs = d.arc.waitRecs) := by
    intro x ⟨h1, h2, h3, h4, h5⟩
    obtain ⟨m1, m2, m3, m4, m5⟩ := marked_fields x d.tim.epoch
    exact ⟨_, rfl, m1.trans h1, m2.trans h2, fun k => by rw [m3]; exact h3 k, fun h => m5 (h4 h), fun h => m4.trans (h5 h)⟩
  repeat' split
  all_goals
    first
      | exact ⟨_, rfl, rfl, rfl, fun _ => rfl, id, fun h => absurd (‹d.arc.state = 3›.symm.trans h) (by decide)⟩
      | exact ⟨_, rfl, rfl, rfl, fun _ => rfl, id, fun h => absurd h ‹¬d.arc.state = 2›⟩
      | (refine mk _ ?_
         first
           | exact ⟨p1, p2, p3, fun h => p4.trans h, fun _ => p5⟩
           | exact ⟨rfl, rfl, f _ (by rfl), id, fun _ => rfl⟩)

/-- A record entering the ledger changes SEQ, its region, the program queue and the checkpoint, nothing else of the archive. -/
theorem ledger_fields (d : Dyn) (typ cls : Nat) (body : List Byte) : ∀ t, d.ledger typ cls body = t → { t with arc := d.arc } = d ∧ t.arc.state = d.arc.state ∧ t.arc.bands = d.arc.bands ∧
    (∀ k, (t.region k).full = (d.region k).full) ∧ (d.arc.cpValid = true → t.arc.cpValid = true) ∧ (d.arc.state = 2 → t.arc.waitRecs = d.arc.waitRecs) := by
  intro t ht
  unfold Dyn.ledger Dyn.ledgerAs at ht
  split at ht
  · subst ht; exact ⟨rfl, rfl, rfl, fun _ => rfl, id, fun _ => rfl⟩
  · obtain ⟨x, hx, h1, h2, h3, h4, h5⟩ := ledgerRec_fields d _
    rw [hx] at ht
    subst ht
    exact ⟨rfl, h1, h2, h3, h4, h5⟩

theorem ledger_step (d : Dyn) (typ cls : Nat) (body : List Byte) : ArcStep d (d.ledger typ cls body) ∧ (d.ledger typ cls body).flt = d.flt ∧ (d.ledger typ cls body).tim = d.tim := by
  have h := (ledger_fields d typ cls body _ rfl).1
  exact ⟨by show Dyn.silent _ = Dyn.silent _; rw [h], by have w := congrArg Dyn.flt h; exact w, by have w := congrArg Dyn.tim h; exact w⟩

/-- The bands of a region that CLEAR_REGION erases. -/
theorem eraseAll_spec (r : Nat) : ∀ (l : List (Nat × Band)) (d : Dyn), ∀ t, l.foldl (fun d q => eraseBand r q.1 d) d = t → ArcStep d t ∧ t.flt = d.flt ∧ t.tim = d.tim ∧
    (∀ k, (∃ x, (k, x) ∈ l) → (t.band k).cond = 1 ∧ (t.band k).subs = []) ∧ (∀ k, (∀ x, (k, x) ∉ l) → t.band k = d.band k) := by
  intro l
  induction l with
  | nil => intro d t ht; subst ht; exact ⟨rfl, rfl, rfl, fun k h => (by obtain ⟨x, h⟩ := h; cases h), fun _ _ => rfl⟩
  | cons q l ih =>
    intro d t ht
    obtain ⟨i0, i1, i2, i3, i4⟩ := ih (eraseBand r q.1 d) t ht
    have b : ∀ k, (eraseBand r q.1 d).band k = if k = q.1 then (d.band q.1).wiped 1 else d.band k := fun k => by
      show (((d.setBand q.1 _).setRegion r _).band k) = _
      rw [setRegion_band, setBand_get]
    have e0 : ArcStep d (eraseBand r q.1 d) := rfl
    refine ⟨e0.trans i0, i1, i2, fun k hk => ?_, fun k hk => ?_⟩
    · by_cases h : ∃ x, (k, x) ∈ l
      · exact i3 k h
      · rw [i4 k (fun x hx => h ⟨x, hx⟩), b k]
        obtain ⟨x, hx⟩ := hk
        rcases List.mem_cons.mp hx with hq | hq
        · rw [if_pos (by rw [← hq])]; exact ⟨rfl, rfl⟩
        · exact absurd ⟨x, hq⟩ h
    · rw [i4 k (fun x hx => hk x (List.mem_cons_of_mem _ hx)), b k, if_neg (fun h => hk q.2 (by rw [h]; exact List.mem_cons_self))]

theorem clearRegion_rest (r : Nat) (bs : List (Nat × Band)) (body : List Byte) (d : Dyn) : ∀ t,
    (let d1 := bs.foldl (fun d q => eraseBand r q.1 d) d
     arcResult 0 (((d1.setRegion r { d1.region r with full := false }).clears (0xF100 + r) [0xF060]).ledger 11 0 body).checkpoint) = t → ArcStep d t ∧ t.arc.cmdResult = 0 ∧ (t.region r).full = false ∧
    Closed d t (0xF100 + r) [0xF060] ∧ (∀ k, (∃ x, (k, x) ∈ bs) → (t.band k).cond = 1 ∧ (t.band k).subs = []) ∧ (∀ k, (∀ x, (k, x) ∉ bs) → t.band k = d.band k) := by
  intro t ht
  dsimp only at ht
  obtain ⟨e0, e1, e2, e3, e4⟩ := eraseAll_spec r bs d _ rfl
  generalize bs.foldl (fun d q => eraseBand r q.1 d) d = d1 at ht e0 e1 e2 e3 e4
  have s2 := clears_step (d1.setRegion r { d1.region r with full := false }) (0xF100 + r) [0xF060]
  have cl := Closed.of (clears_closed (d1.setRegion r { d1.region r with full := false }) (0xF100 + r) [0xF060]) (d' := d) e1.symm rfl
  have k2 := (e0.trans (ArcStep.region d1 r { d1.region r with full := false })).trans s2.arc.1
  have a2 := s2.arc.2
  generalize (d1.setRegion r { d1.region r with full := false }).clears (0xF100 + r) [0xF060] = d2 at ht s2 cl k2 a2
  have f2 : (d2.region r).full = false := by
    unfold Dyn.region; rw [a2]
    show (tget Region.empty (tput Region.empty d1.arc.regions r _) r).full = false
    rw [tget_tput_same]
  have b2 : d2.arc.bands = d1.arc.bands := by rw [a2]; rfl
  obtain ⟨l1, l2, l3, l4, -⟩ := ledger_fields d2 11 0 body _ rfl
  obtain ⟨ls, lf, lt⟩ := ledger_step d2 11 0 body
  generalize d2.ledger 11 0 body = d3 at ht l1 l2 l3 l4 ls lf lt
  obtain ⟨c1, c2, c3, c4, c5, c6, c7, c8, -⟩ := checkpoint_arc d3
  generalize d3.checkpoint = d4 at ht c1 c2 c3 c4 c5 c6 c7 c8
  have bt : ∀ k, t.band k = d1.band k := fun k => by
    rw [← ht]
    show tget Band.empty d4.arc.bands k = _
    rw [c4, l3, b2]
    rfl
  refine ⟨?_, by rw [← ht]; rfl, ?_, ?_, fun k h => ?_, fun k h => ?_⟩
  · rw [← ht]; exact ((k2.trans ls).trans c1).trans (ArcStep.put d4 _)
  · rw [← ht]
    show (tget Region.empty d4.arc.regions r).full = false
    rw [c5]
    exact (l4 r).trans f2
  · refine Closed.of cl rfl ?_
    rw [← ht]
    exact (c7.trans lf)
  · rw [bt]
    exact e3 k h
  · rw [bt]
    exact e4 k h

theorem clearRegion_spec (r : Nat) (d : Dyn) (hs : d.standby = false) (hr : r < 6) : ∀ t, clearRegion r d = t → ArcStep d t ∧ t.arc.cmdResult = 0 ∧ (t.region r).full = false ∧
    Closed d t (0xF100 + r) [0xF060] ∧ (∀ k x, (k, x) ∈ d.arc.bands → 2 ≤ x.cond → x.owner = r → (t.band k).cond = 1 ∧ (t.band k).subs = []) ∧
    (∀ k, (∀ x, (k, x) ∈ d.arc.bands → ¬(2 ≤ x.cond ∧ x.owner = r)) → t.band k = d.band k) := by
  intro t ht
  unfold clearRegion at ht
  rw [if_neg (by simp [hs]), if_neg (by omega)] at ht
  obtain ⟨h1, h2, h3, h4, h5, h6⟩ := clearRegion_rest r _ _ d t ht
  refine ⟨h1, h2, h3, h4, fun k x q1 q2 q3 => h5 k ⟨x, by simp [q1, q2, q3]⟩, fun k h => h6 k (fun x hx => ?_)⟩
  rw [List.mem_filter] at hx
  exact h x hx.1 (by simpa using hx.2)

theorem satBytes (b : List Byte) (r : Rec) : (b ++ r.bytes).length = b.length + r.size := by
  have : r.bytes.length = r.size := by
    unfold Rec.bytes Rec.size
    simp only [List.length_append, leBytes_length, List.length_cons, List.length_nil]
    try omega
  rw [List.length_append, this]

/-- What filling a buffer keeps: what stands in it, and its length. -/
theorem shuttleFill_spec (l : List (Rec × Bool × Bool)) : ∀ (n k : Nat) (x : Tag), x.buf.length = x.bytes → x.bytes ≤ 4096 →
    (shuttleFill l n k x).state = x.state ∧ (shuttleFill l n k x).buf.length = (shuttleFill l n k x).bytes ∧ (shuttleFill l n k x).bytes ≤ 4096 ∧ x.count ≤ (shuttleFill l n k x).count ∧
    ∃ more, (shuttleFill l n k x).buf = x.buf ++ more := by
  intro n
  induction n with
  | zero => intro k x h1 h2; exact ⟨rfl, h1, h2, Nat.le_refl _, [], (List.append_nil _).symm⟩
  | succ n ih =>
    intro k x h1 h2
    unfold shuttleFill
    split
    · exact ⟨rfl, h1, h2, Nat.le_refl _, [], (List.append_nil _).symm⟩
    · next r vol lost _ =>
      split
      · exact ih _ { x with lost := true } h1 h2
      · split
        · exact ⟨rfl, h1, h2, Nat.le_refl _, [], (List.append_nil _).symm⟩
        · next hb =>
          obtain ⟨i1, i2, i3, i4, more, i5⟩ := ih (r.seq + 1) { x with buf := x.buf ++ r.bytes, bytes := x.bytes + r.size, count := x.count + 1, volatil := x.volatil || vol }
            (by rw [satBytes, h1]) (by show x.bytes + r.size ≤ 4096; omega)
          refine ⟨i1, i2, i3, Nat.le_trans (Nat.le_succ x.count) i4, r.bytes ++ more, ?_⟩
          rw [i5, List.append_assoc]

def TagStep (d e : Dyn) : Prop := ArcStep d e ∧ e.arc.tags = d.arc.tags ∧ e.arc.tagQueue = d.arc.tagQueue

theorem TagStep.refl (d : Dyn) : TagStep d d := ⟨rfl, rfl, rfl⟩

theorem TagStep.trans {d e g : Dyn} (h : TagStep d e) (k : TagStep e g) : TagStep d g := ⟨h.1.trans k.1, k.2.1.trans h.2.1, k.2.2.trans h.2.2⟩

theorem FltStep.tags {d e : Dyn} (h : FltStep d e) : TagStep d e := ⟨h.arc.1, by rw [h.arc.2], by rw [h.arc.2]⟩

theorem TagStep.thenFlt {d e g : Dyn} (h : TagStep d e) (k : FltStep e g) : TagStep d g := h.trans k.tags

theorem event_tags (d : Dyn) : TagStep d (d.event 0xF000 0xF061 0 0 0) := (event_step _ _ _ _ _ _).tags

theorem rewriteNow_tags (r : Nat) (d : Dyn) : TagStep d (rewriteNow r d) := by
  refine ⟨(rewriteNow_step r d).1, ?_, ?_⟩ <;> (unfold rewriteNow; dsimp only; split <;> rfl)

theorem rewriteStripe_tags (b st : Nat) (d : Dyn) : TagStep d (rewriteStripe b st d) := by
  unfold rewriteStripe
  dsimp only
  split
  · split
    · refine TagStep.trans ?_ (rewriteNow_tags _ _)
      exact ⟨rfl, rfl, rfl⟩
    · exact ⟨rfl, rfl, rfl⟩
  · refine TagStep.trans ?_ (rewriteNow_tags _ _)
    exact ⟨rfl, rfl, rfl⟩

theorem loseStripe_tags (c : Cfg) (b st : Nat) (d : Dyn) : TagStep d (loseStripe c b st d) := by
  unfold loseStripe
  dsimp only
  split
  · exact TagStep.refl d
  · refine TagStep.trans ?_ (fault_step _ _ _ _ _ _ _ _ _).tags
    exact ⟨rfl, rfl, rfl⟩

theorem stripeMet_tags (c : Cfg) (b st : Nat) (pages : List Nat) (d : Dyn) : TagStep d (stripeMet c b st pages d) := by
  unfold stripeMet
  dsimp only
  split
  · exact TagStep.refl d
  · split
    · exact loseStripe_tags c b st d
    · split
      · refine TagStep.trans ?_ (rewriteStripe_tags _ _ _)
        refine forEach_keeps (TagStep d) _ _ _ (fun _ s h => h.trans (event_tags s)) ?_
        exact ⟨rfl, rfl, rfl⟩
      · exact TagStep.refl d

theorem mediaMet_spec (c : Cfg) (m : MediaRead) (d : Dyn) : TagStep d (mediaMet c m d) :=
  foldl_keeps (TagStep d) _ _ _ (fun s e h => h.trans (stripeMet_tags c e.1 e.2.1 e.2.2 s)) (TagStep.refl d)

theorem shuttleEnd_spec (c : Cfg) (t : Nat) (x : Tag) (d : Dyn) : ∀ u, shuttleEnd c t x d = u → ArcStep d u ∧ u.tag t = x ∧ u.arc.tagQueue = d.arc.tagQueue.filter (· ≠ t) ∧
    (∀ k, k ≠ t → u.tag k = d.tag k) ∧ (c.bF (tagA t 0) 2 = true → u.dp.irq.testBit 4 = true) := by
  intro u hu
  have base : ∀ i, u = { d with arc := { d.arc with tags := tput Tag.empty d.arc.tags t x, tagQueue := d.arc.tagQueue.filter (· ≠ t) }, dp := { d.dp with irq := i } } →
      ArcStep d u ∧ u.tag t = x ∧ u.arc.tagQueue = d.arc.tagQueue.filter (· ≠ t) ∧ (∀ k, k ≠ t → u.tag k = d.tag k) := by
    intro i h
    subst h
    refine ⟨rfl, ?_, rfl, fun k hk => ?_⟩
    · show tget Tag.empty (tput Tag.empty d.arc.tags t x) t = x
      rw [tget_tput_same]
    · show tget Tag.empty (tput Tag.empty d.arc.tags t x) k = _
      rw [tget_tput_other _ _ _ _ _ hk]
      rfl
  unfold shuttleEnd at hu
  dsimp only at hu
  by_cases hn : c.bF (tagA t 0) 2 = true
  · rw [if_pos hn] at hu
    obtain ⟨b1, b2, b3, b4⟩ := base (d.dp.irq ||| 2 ^ 4) hu.symm
    refine ⟨b1, b2, b3, b4, fun _ => ?_⟩
    rw [← hu]
    show (d.dp.irq ||| 2 ^ 4).testBit 4 = true
    rw [Nat.testBit_or, show Nat.testBit (2 ^ 4) 4 = true by decide, Bool.or_true]
  · rw [if_neg hn] at hu
    obtain ⟨b1, b2, b3, b4⟩ := base d.dp.irq hu.symm
    exact ⟨b1, b2, b3, b4, fun h => absurd h hn⟩

theorem tget_map {α : Type} (z : α) (f : α → α) (hz : f z = z) (t : Tbl α) (k : Nat) : tget z (t.map (fun q => (q.1, f q.2))) k = f (tget z t k) := by
  induction t with
  | nil => exact hz.symm
  | cons p r ih =>
    rw [List.map_cons, tget_cons]
    obtain ⟨j, u⟩ := p
    rw [tget_cons]
    split
    · rfl
    · exact ih

/-- What an archive that takes a record keeps: its state, bands and tags, and what stands in the program queue. -/
def Grows (a x : Arc) : Prop := x.state = a.state ∧ x.bands = a.bands ∧ x.tags = a.tags ∧ x.tagQueue = a.tagQueue ∧ ∃ tl, x.queue = a.queue ++ tl

theorem Grows.refl (a : Arc) : Grows a a := ⟨rfl, rfl, rfl, rfl, [], (List.append_nil _).symm⟩

theorem Grows.trans {a x y : Arc} (h : Grows a x) (k : Grows x y) : Grows a y := by
  obtain ⟨h1, h2, h3, h4, tl, h5⟩ := h
  obtain ⟨k1, k2, k3, k4, tk, k5⟩ := k
  exact ⟨k1.trans h1, k2.trans h2, k3.trans h3, k4.trans h4, tl ++ tk, by rw [k5, h5, List.append_assoc]⟩

theorem pack_grows (a : Arc) (ms : Nat) (r : Rec) : Grows a (a.pack ms r) := by
  unfold Arc.pack
  dsimp only
  split
  · exact Grows.refl a
  · exact ⟨rfl, rfl, rfl, rfl, _, rfl⟩

theorem marked_grows (a : Arc) (e : Nat) : Grows a (a.marked e) := by
  unfold Arc.marked
  split <;> exact ⟨rfl, rfl, rfl, rfl, [], (List.append_nil _).symm⟩

theorem checkpoint_grows (d : Dyn) : Grows d.arc d.checkpoint.arc := by
  unfold Dyn.checkpoint
  split <;> exact ⟨rfl, rfl, rfl, rfl, [], (List.append_nil _).symm⟩

theorem ledgerRec_grows (d : Dyn) (r : Rec) : Grows d.arc (d.ledgerRec r).arc := by
  have k : ∀ x e, Grows d.arc x → Grows d.arc (x.marked e) := fun x e h => h.trans (marked_grows x e)
  have p : Grows d.arc _ := (show Grows d.arc { d.arc with seq := (r.seq + 1) % 2 ^ 64 } from ⟨rfl, rfl, rfl, rfl, [], (List.append_nil _).symm⟩).trans (pack_grows _ d.ms r)
  unfold Dyn.ledgerRec
  dsimp only at p ⊢
  repeat' split
  all_goals
    first
      | exact ⟨rfl, rfl, rfl, rfl, [], (List.append_nil _).symm⟩
      | (refine k _ _ ?_
         first
           | exact p
           | exact ⟨rfl, rfl, rfl, rfl, [], (List.append_nil _).symm⟩)

theorem ledger_grows (d : Dyn) (typ cls : Nat) (body : List Byte) : Grows d.arc (d.ledger typ cls body).arc := by
  unfold Dyn.ledger Dyn.ledgerAs
  split
  · exact Grows.refl _
  · exact ledgerRec_grows d _

theorem FltStep.grows {d e : Dyn} (h : FltStep d e) : Grows d.arc e.arc := by rw [h.arc.2]; exact Grows.refl _

/-- What the REGION_FULL records of a mount leave alone. -/
def FullStep (d e : Dyn) : Prop :=
  ArcStep d e ∧ Grows d.arc e.arc ∧ e.arc.waitRecs = d.arc.waitRecs ∧ e.arc.cpValid = d.arc.cpValid ∧ e.tim = d.tim ∧ ∀ m, m < 0xF100 → m ≠ 0xD100 → e.flt.find m = d.flt.find m

theorem FullStep.refl (d : Dyn) : FullStep d d := ⟨ArcStep.refl d, Grows.refl _, rfl, rfl, rfl, fun _ _ _ => rfl⟩

theorem FullStep.trans {d e g : Dyn} (h : FullStep d e) (k : FullStep e g) : FullStep d g := by
  obtain ⟨h1, h2, h3, h4, h5, h6⟩ := h
  obtain ⟨k1, k2, k3, k4, k5, k6⟩ := k
  exact ⟨h1.trans k1, h2.trans k2, k3.trans h3, k4.trans h4, k5.trans h5, fun m a b => (k6 m a b).trans (h6 m a b)⟩

theorem FltStep.tim {d e : Dyn} (h : FltStep d e) : e.tim = d.tim := by
  obtain ⟨f, i, x, y, k, rfl⟩ := h
  rfl

theorem fullAtMount_step (c : Cfg) (r : Nat) (d : Dyn) : FullStep d (fullAtMount c r d) := by
  unfold fullAtMount
  split
  · unfold regionFull
    dsimp only
    split
    · exact FullStep.refl d
    · have h := fault_step (d.setRegion r { d.region r with full := true }) c (0xF100 + r) 0xF060 1 0 0 false false
      have o := fault_opened (d.setRegion r { d.region r with full := true }) c (0xF100 + r) 0xF060 1 0 0 false false (by omega)
      refine ⟨(ArcStep.region d r _).trans h.arc.1, Grows.trans (Grows.refl _) h.grows, by rw [h.arc.2]; rfl, by rw [h.arc.2]; rfl, h.tim, fun m a b => o.2 m (by omega) b⟩
  · exact FullStep.refl d

theorem timeRestarted_grows (c : Cfg) (d : Dyn) : Grows d.arc (timeRestarted c d).arc ∧ (d.arc.cpValid = true → (timeRestarted c d).arc.cpValid = true) := by
  unfold timeRestarted
  split
  · unfold timeRecord
    dsimp only
    have f := fault_step ({ d with tim := { d.tim with epoch := if d.arc.holds = true then (d.arc.cpEpoch + 1) % 256 else 0, restart := false } } : Dyn) c 0 0x6D 1 0 0 true true
    generalize ({ d with tim := { d.tim with epoch := if d.arc.holds = true then (d.arc.cpEpoch + 1) % 256 else 0, restart := false } } : Dyn).fault c 0 0x6D 1 0 0 true true = e at f
    refine ⟨(f.grows.trans (ledger_grows e 3 0 _)).trans (checkpoint_grows _), fun h => (checkpoint_arc _).2.2.2.2.2.2.2.2 ((ledger_fields e 3 0 _ _ rfl).2.2.2.2.1 ?_)⟩
    rw [f.arc.2]
    exact h
  · exact ⟨Grows.refl _, id⟩

theorem packAll_grows : ∀ (ws : List Rec) (e : Dyn), ∃ x, ws.foldl (fun d r => ({ d with arc := d.arc.pack d.ms r } : Dyn)) e = { e with arc := x } ∧ Grows e.arc x ∧ x.waitRecs = e.arc.waitRecs ∧ x.cpValid = e.arc.cpValid := by
  intro ws
  induction ws with
  | nil => intro e; exact ⟨e.arc, rfl, Grows.refl _, rfl, rfl⟩
  | cons w ws ih =>
    intro e
    obtain ⟨-, -, -, p4, p5⟩ := pack_fields e.arc e.ms w
    obtain ⟨x, hx, x1, x2, x3⟩ := ih { e with arc := e.arc.pack e.ms w }
    exact ⟨x, hx, (pack_grows e.arc e.ms w).trans x1, x2.trans p5, x3.trans p4⟩

theorem mounted_of {a b x : Arc} (h : Grows a b) (hv : b.cpValid = true) (k : Grows b.mounted x) (hw : x.waitRecs = b.mounted.waitRecs) (hc : x.cpValid = b.mounted.cpValid) : Mounted a x := by
  obtain ⟨h1, h2, h3, h4, tl, h5⟩ := h
  obtain ⟨k1, k2, k3, k4, tk, k5⟩ := k
  refine ⟨k1, hw, hc.trans hv, k4.trans h4, ⟨tl ++ tk, ?_⟩, fun j => ?_, fun j => ?_⟩
  · rw [k5]
    show (b.lacking ++ b.queue) ++ tk = _
    rw [h5]
    unfold Arc.lacking
    rw [h2]
    simp only [List.append_assoc]
  · rw [k2]
    show tget Band.empty (b.bands.map (fun q => (q.1, { q.2 with moved := [] }))) j = _
    rw [h2]
    exact tget_map Band.empty (fun y => { y with moved := [] }) rfl a.bands j
  · rw [k3]
    show tget Tag.empty (b.tags.map (fun p => (p.1, if p.2.state = 1 then { p.2 with state := 2 } else p.2))) j = _
    rw [h3]
    exact tget_map Tag.empty (fun y => if y.state = 1 then { y with state := 2 } else y) rfl a.tags j

theorem mount_spec (c : Cfg) (rebuilt : Bool) (d : Dyn) (h1 : d.arc.state = 1) (h2 : d.glb.st ≠ .boot) (h3 : rebuilt = true ∨ d.arc.cpValid = true) : ∀ u, mountComplete c rebuilt d = u →
    Mounted d.arc u.arc ∧ (d.arc.cpValid = true → ArcStep d u ∧ (rebuilt = true →
      ∃ v : Dyn, v.tim = d.tim ∧ (∀ m, m < 0xF100 → m ≠ 0xD100 → v.flt.find m = d.flt.find m) ∧ Opened v u 0xF000 0xF066 1 0 0 true true)) := by
  intro u hu
  unfold mountComplete at hu
  rw [if_neg (by
    intro q
    rcases q with q | q | q
    · exact q h1
    · exact h2 q
    · rcases h3 with h | h <;> simp [h] at q)] at hu
  obtain ⟨d0, hd0, hg, hv, hk⟩ : ∃ d0 : Dyn, d0 = (if d.arc.cpValid then d else timeRestarted c { d with arc := { renumber (d.arc.bands.foldl (fun a q => max a q.2.top) 0) d.arc with cpValid := true } }) ∧
      Grows d.arc d0.arc ∧ d0.arc.cpValid = true ∧ (d.arc.cpValid = true → d0 = d) := by
    refine ⟨_, rfl, ?_⟩
    by_cases h : d.arc.cpValid = true
    · rw [if_pos h]; exact ⟨Grows.refl _, h, fun _ => rfl⟩
    · rw [if_neg h]
      have g := timeRestarted_grows c { d with arc := { renumber (d.arc.bands.foldl (fun a q => max a q.2.top) 0) d.arc with cpValid := true } }
      exact ⟨(show Grows d.arc _ from ⟨rfl, rfl, rfl, rfl, [], (List.append_nil _).symm⟩).trans g.1, g.2 rfl, fun q => absurd q h⟩
  dsimp only at hu
  rw [← hd0] at hu
  have fs : FullStep ({ d0 with arc := d0.arc.mounted } : Dyn) (forEach (List.range 6) ({ d0 with arc := d0.arc.mounted } : Dyn) (fullAtMount c)) :=
    forEach_keeps (FullStep _) _ _ _ (fun k s h => h.trans (fullAtMount_step c k s)) (FullStep.refl _)
  generalize forEach (List.range 6) ({ d0 with arc := d0.arc.mounted } : Dyn) (fullAtMount c) = d1 at hu fs
  obtain ⟨f1, f2, f3, f4, f5, f6⟩ := fs
  obtain ⟨x, hx, x1, x2, x3⟩ := packAll_grows d0.arc.waitRecs d1
  rw [hx] at hu
  generalize leBytes 2 (if rebuilt = true then 1 else 0) ++ [0, 0] ++ leBytes 8 d0.arc.bootSeq = body at hu
  have m1 : Mounted d.arc x := mounted_of hg hv (f2.trans x1) (x2.trans f3) (x3.trans f4)
  have hx' : ArcStep d0 ({ d1 with arc := x } : Dyn) := ((ArcStep.put d0 _).trans f1).trans (ArcStep.put d1 x)
  obtain ⟨-, -, -, -, l5, l6⟩ := ledger_fields ({ d1 with arc := x } : Dyn) 10 0 body _ rfl
  obtain ⟨ls, lf, lt⟩ := ledger_step ({ d1 with arc := x } : Dyn) 10 0 body
  have lg := ledger_grows ({ d1 with arc := x } : Dyn) 10 0 body
  generalize ({ d1 with arc := x } : Dyn).ledger 10 0 body = d3 at hu l5 l6 ls lf lt lg
  obtain ⟨c1, -, -, -, -, c6, c7, c8, c9⟩ := checkpoint_arc d3
  have cg := checkpoint_grows d3
  generalize d3.checkpoint = d4 at hu c1 c6 c7 c8 c9 cg
  have s4 : ArcStep d0 d4 := (hx'.trans ls).trans c1
  have m4 : Mounted d.arc d4.arc := by
    obtain ⟨a1, a2, a3, a4, ⟨tl, a5⟩, a6, a7⟩ := m1
    obtain ⟨b1, b2, b3, b4, tk, b5⟩ := lg.trans cg
    exact ⟨b1.trans a1, (c6.trans (l6 a1)).trans a2, c9 (l5 a3), b4.trans a4, ⟨tl ++ tk, by rw [b5]; show x.queue ++ tk = _; rw [a5, List.append_assoc]⟩, fun k => by rw [b2]; exact a6 k, fun k => by rw [b3]; exact a7 k⟩
  have hu4 : ArcStep d4 u ∧ u.arc = d4.arc ∧ (rebuilt = true → Opened d1 u 0xF000 0xF066 1 0 0 true true) := by
    cases hr : rebuilt with
    | true =>
      rw [hr, if_pos rfl] at hu
      have s5 := fault_step d4 c 0xF000 0xF066 1 0 0 true true
      have o5 := fault_opened_after (d := d1) (d' := d4) c 0xF000 0xF066 1 0 0 true true (c7.trans lf) (c8.trans lt) (by decide)
      rw [hu] at s5 o5
      exact ⟨s5.arc.1, s5.arc.2, fun _ => o5⟩
    | false =>
      rw [hr, if_neg (by decide)] at hu
      subst hu
      exact ⟨ArcStep.refl _, rfl, fun h => (by cases h)⟩
  obtain ⟨u1, u2, u3⟩ := hu4
  refine ⟨by rw [u2]; exact m4, fun h => ?_⟩
  rw [← hk h]
  exact ⟨s4.trans u1, fun hr => ⟨d1, f5, f6, u3 hr⟩⟩

theorem shuttleDone_spec (c : Cfg) (t : Nat) (m : MediaRead) (d0 : Dyn) (h1 : (d0.tag t).state = 1 ∨ (d0.tag t).state = 2) (h2 : d0.arc.state = 2) : ∀ u, shuttleDone c t m d0 = u →
    ArcStep d0 u ∧ (u.tag t).state = 3 ∧ (u.tag t).buf.length = (u.tag t).bytes ∧ (u.tag t).bytes ≤ 4096 ∧
    (u.arc.tagQueue = d0.arc.tagQueue.filter (· ≠ t) ∧ (∀ k, k ≠ t → u.tag k = d0.tag k) ∧ (c.bF (tagA t 0) 2 = true → u.dp.irq.testBit 4 = true)) ∧
    (m.erased = [] → m.badCrc = [] → fld (c.f (tagA t 0)) 0 2 = 1 →
        (let key := (c.f (tagA t 1)).toNat + 2 ^ 32 * (c.f (tagA t 2)).toNat
         let first := firstRec (fun e => decide (key ≤ e.seq)) ((allRecs d0.arc).filter (fun e => (fld (c.f (tagA t 0)) 8 8).testBit e.1.cls))
         (first = none → (u.tag t).fin = true ∧ (u.tag t).next = key ∧ (u.tag t).count = 0) ∧
         (∀ e vol, first = some (e, vol, false) → e.size ≤ 4096 → 1 ≤ (u.tag t).count ∧ ∃ more, (u.tag t).buf = e.bytes ++ more))) := by
  intro u hu
  have mm := mediaMet_spec c m d0
  have me : m.erased = [] → mediaMet c m d0 = d0 := fun h => by unfold mediaMet; rw [h]; rfl
  obtain ⟨k, l, ov, e, hl, hk⟩ : ∃ k l ov, shuttleDone c t m d0 = shuttleEnd c t (shuttleFill l (l.length + 1) k { Tag.empty with state := 3, overtaken := ov }) (mediaMet c m d0) ∧
      (readRecs m (mediaMet c m d0).arc).filter (fun r => (fld (c.f (tagA t 0)) 8 8).testBit r.1.cls) = l ∧
      (fld (c.f (tagA t 0)) 0 2 = 1 → k = (c.f (tagA t 1)).toNat + 2 ^ 32 * (c.f (tagA t 2)).toNat) := by
    unfold shuttleDone
    rw [if_pos ⟨h1, h2⟩]
    refine ⟨_, _, _, rfl, rfl, fun h => ?_⟩
    unfold shuttleStart
    dsimp only
    rw [h]
    rfl
  rw [e] at hu
  clear e
  generalize mediaMet c m d0 = d at hu mm me hl
  obtain ⟨f1, f2, f3, -, -⟩ := shuttleFill_spec l (l.length + 1) k { Tag.empty with state := 3, overtaken := ov } rfl (Nat.zero_le _)
  obtain ⟨e1, e2, e3, e4, e5⟩ := shuttleEnd_spec c t _ d u hu
  refine ⟨mm.1.trans e1, by rw [e2, f1], by rw [e2, f2], by rw [e2]; exact f3, ⟨by rw [e3, mm.2.2], fun j hj => ?_, e5⟩, fun hm hb ho => ?_⟩
  · rw [e4 j hj]; unfold Dyn.tag; rw [mm.2.1]
  · rw [me hm] at hl
    unfold readRecs at hl
    rw [if_pos ⟨hm, hb⟩] at hl
    rw [e2]
    dsimp only
    rw [hl, ← hk ho]
    refine ⟨fun hf => ?_, fun e vol hf hs => ?_⟩
    · unfold shuttleFill
      rw [hf]
      exact ⟨rfl, rfl, rfl⟩
    · unfold shuttleFill
      rw [hf]
      dsimp only
      rw [if_neg (by decide), if_neg (by show ¬ 4096 < 0 + e.size; omega)]
      obtain ⟨-, -, -, g4, more, g5⟩ := shuttleFill_spec l l.length (e.seq + 1)
        { Tag.empty with state := 3, overtaken := ov, buf := [] ++ e.bytes, bytes := 0 + e.size, count := 0 + 1, volatil := false || vol }
        (by rw [satBytes]; rfl) (by show 0 + e.size ≤ 4096; omega)
      exact ⟨g4, more, g5⟩

end Sys2Proof.Machine
end

