-- ==== Sys2Proof/Laws/CanErrors.lean ====
section
/-! SUPPORT. What errors and the supervision of a CAN port can do (R470 to R494). -/

namespace Sys2Proof.Machine

open Sys2Proof

theorem errState_spec (c : Cfg) (p : Nat) (d : Dyn) : ∀ t, errState c p d = t →
    (let x := d.port p
     let y := t.port p
     (∀ q, q ≠ p → t.port q = d.port q) ∧ Alike { t with can := d.can } d ∧ t.tim = d.tim ∧ y.tec = x.tec ∧ y.rcv = x.rcv ∧ y.lec = x.lec ∧ y.txcnt = x.txcnt ∧ y.rxcnt = x.rxcnt ∧
     y.fifo = x.fifo ∧ y.svc = x.svc ∧ y.blocked = x.blocked ∧ y.lock = x.lock ∧
     (∀ l, y.launch l = x.launch l) ∧ (∀ m, (y.mb m).buf = (x.mb m).buf ∧ (y.mb m).unread = (x.mb m).unread ∧ (y.mb m).ovf = (x.mb m).ovf) ∧
     (255 < x.tec → x.busOff = false → y.busOff = true ∧ Opened d t (portSrc p) 0xE061 2 0 0 false false) ∧
     (x.tec ≤ 255 ∨ x.busOff = true → y = x) ∧
     (x.tec ≤ 255 → x.est = 1 → d.openCode (portSrc p) [0xE060] = false → Opened d t (portSrc p) 0xE060 1 0 0 false false) ∧
     (x.tec ≤ 255 → x.est = 1 → d.openCode (portSrc p) [0xE060] = true → t.flt = d.flt) ∧
     (x.tec ≤ 255 → x.est = 0 → Closed d t (portSrc p) [0xE060])) := by
  intro t ht
  have hsrc : portSrc p ≠ 0xD100 := by unfold portSrc; omega
  unfold errState at ht
  extract_lets x x1 at ht
  split at ht
  · next h =>
    simp only [Bool.and_eq_true, decide_eq_true_eq, Bool.not_eq_true'] at h
    have mbs : ∀ m, (x1.mb m).buf = (x.mb m).buf ∧ (x1.mb m).unread = (x.mb m).unread ∧ (x1.mb m).ovf = (x.mb m).ovf := by
      intro m
      unfold Port.mb
      show (tget Mbx.empty (x.mbx.map _) m).buf = _ ∧ (tget Mbx.empty (x.mbx.map _) m).unread = _ ∧ (tget Mbx.empty (x.mbx.map _) m).ovf = _
      generalize x.mbx = l
      induction l with
      | nil => exact ⟨rfl, rfl, rfl⟩
      | cons a r ih =>
        obtain ⟨j, b⟩ := a
        cases hb : b.pending with
        | true =>
          have e : (List.map (fun q : Nat × Mbx => (q.1, if q.2.pending = true then ({ q.2 with txres := 6, held := true, again := false } : Mbx) else q.2)) ((j, b) :: r)) =
              (j, { b with txres := 6, held := true, again := false }) :: List.map (fun q : Nat × Mbx => (q.1, if q.2.pending = true then ({ q.2 with txres := 6, held := true, again := false } : Mbx) else q.2)) r := by
            rw [List.map_cons]; simp [hb]
          rw [e, tget_cons, tget_cons]
          by_cases hj : j = m
          · rw [if_pos hj, if_pos hj]; exact ⟨rfl, rfl, rfl⟩
          · rw [if_neg hj, if_neg hj]; exact ih
        | false =>
          have e : (List.map (fun q : Nat × Mbx => (q.1, if q.2.pending = true then ({ q.2 with txres := 6, held := true, again := false } : Mbx) else q.2)) ((j, b) :: r)) =
              (j, b) :: List.map (fun q : Nat × Mbx => (q.1, if q.2.pending = true then ({ q.2 with txres := 6, held := true, again := false } : Mbx) else q.2)) r := by
            rw [List.map_cons]; simp [hb]
          rw [e, tget_cons, tget_cons]
          by_cases hj : j = m
          · rw [if_pos hj, if_pos hj]; exact ⟨rfl, rfl, rfl⟩
          · rw [if_neg hj, if_neg hj]; exact ih
    have fs := fault_step (d.setPort p x1) c (portSrc p) 0xE061 2 0 0 false false
    have fo : Opened d ((d.setPort p x1).fault c (portSrc p) 0xE061 2 0 0 false false) (portSrc p) 0xE061 2 0 0 false false := fault_opened_after c _ _ _ _ _ _ _ rfl rfl hsrc
    rw [ht] at fs fo
    have yp : t.port p = x1 := (fs.port p).trans (setPort_same _ _ _)
    dsimp only
    rw [yp]
    refine ⟨fun q hq => (fs.port q).trans (setPort_other _ _ _ _ hq), ?_, fs.same.1, rfl, rfl, rfl, rfl, rfl, rfl, rfl, rfl, rfl, fun _ => rfl, mbs, fun _ _ => ⟨rfl, fo⟩, fun q => ?_, fun q => ?_, fun q => ?_, fun q => ?_⟩
    · obtain ⟨f, i, y, z, r, e⟩ := fs
      rw [e]; rfl
    · rcases q with q | q
      · exact absurd h.1 (Nat.not_lt.mpr q)
      · exact absurd (h.2.symm.trans q) (by decide)
    all_goals exact absurd h.1 (Nat.not_lt.mpr q)
  · next h =>
    have nb : ¬(255 < x.tec ∧ x.busOff = false) := by simpa using h
    have base : ∀ e, FltStep d e → (∀ q, q ≠ p → e.port q = d.port q) ∧ Alike { e with can := d.can } d ∧ e.tim = d.tim ∧ e.port p = x := by
      intro e fe
      refine ⟨fun q _ => fe.port q, ?_, fe.same.1, fe.port p⟩
      obtain ⟨f, i, y, z, r, e⟩ := fe
      rw [e]; rfl
    have fin : ∀ e, FltStep d e → e = t → ((x.tec ≤ 255 → x.est = 1 → d.openCode (portSrc p) [0xE060] = false → Opened d t (portSrc p) 0xE060 1 0 0 false false) ∧
     (x.tec ≤ 255 → x.est = 1 → d.openCode (portSrc p) [0xE060] = true → t.flt = d.flt) ∧
     (x.tec ≤ 255 → x.est = 0 → Closed d t (portSrc p) [0xE060])) →
      (let x := d.port p
     let y := t.port p
     (∀ q, q ≠ p → t.port q = d.port q) ∧ Alike { t with can := d.can } d ∧ t.tim = d.tim ∧ y.tec = x.tec ∧ y.rcv = x.rcv ∧ y.lec = x.lec ∧ y.txcnt = x.txcnt ∧ y.rxcnt = x.rxcnt ∧
     y.fifo = x.fifo ∧ y.svc = x.svc ∧ y.blocked = x.blocked ∧ y.lock = x.lock ∧
     (∀ l, y.launch l = x.launch l) ∧ (∀ m, (y.mb m).buf = (x.mb m).buf ∧ (y.mb m).unread = (x.mb m).unread ∧ (y.mb m).ovf = (x.mb m).ovf) ∧
     (255 < x.tec → x.busOff = false → y.busOff = true ∧ Opened d t (portSrc p) 0xE061 2 0 0 false false) ∧
     (x.tec ≤ 255 ∨ x.busOff = true → y = x) ∧
     (x.tec ≤ 255 → x.est = 1 → d.openCode (portSrc p) [0xE060] = false → Opened d t (portSrc p) 0xE060 1 0 0 false false) ∧
     (x.tec ≤ 255 → x.est = 1 → d.openCode (portSrc p) [0xE060] = true → t.flt = d.flt) ∧
     (x.tec ≤ 255 → x.est = 0 → Closed d t (portSrc p) [0xE060])) := by
      intro e fe he k
      subst he
      obtain ⟨b1, b2, b3, b4⟩ := base e fe
      dsimp only
      rw [b4]
      exact ⟨b1, b2, b3, rfl, rfl, rfl, rfl, rfl, rfl, rfl, rfl, rfl, fun _ => rfl, fun _ => ⟨rfl, rfl, rfl⟩, fun q q2 => absurd ⟨q, q2⟩ nb, fun _ => rfl, k⟩
    split at ht
    · next h1 =>
      split at ht
      · next h2 =>
        refine fin d (FltStep.refl d) ht ⟨fun _ _ q => absurd (h2.symm.trans q) (by decide), fun _ _ _ => by rw [← ht], fun _ q => absurd (h1.symm.trans q) (by decide)⟩
      · next h2 =>
        refine fin _ (fault_step _ _ _ _ _ _ _ _ _) ht ⟨fun _ _ _ => ?_, fun _ _ q => absurd q h2, fun _ q => absurd (h1.symm.trans q) (by decide)⟩
        rw [← ht]
        exact fault_opened_after c _ _ _ _ _ _ _ rfl rfl hsrc
    · next h1 =>
      split at ht
      · next h2 =>
        refine fin _ (clears_step _ _ _) ht ⟨fun _ q => absurd q h1, fun _ q => absurd q h1, fun _ _ => ?_⟩
        rw [← ht]
        exact clears_closed _ _ _
      · next h2 => exact fin d (FltStep.refl d) ht ⟨fun _ q => absurd q h1, fun _ q => absurd q h1, fun _ q => absurd q h2⟩

theorem est_cases (x : Port) (h : x.busOff = false) : (x.est = 1 ↔ 127 < x.tec ∨ 127 < x.rcv) ∧ (x.est = 0 ↔ ¬(127 < x.tec ∨ 127 < x.rcv)) := by
  unfold Port.est
  rw [if_neg (by simp [h])]
  split
  · next g => exact ⟨⟨fun _ => g, fun _ => rfl⟩, ⟨fun q => absurd q (by decide), fun q => absurd g q⟩⟩
  · next g => exact ⟨⟨fun q => absurd q (by decide), fun q => absurd q g⟩, ⟨fun _ => g, fun _ => rfl⟩⟩

end Sys2Proof.Machine
end

