-- ==== Sys2Proof/Laws/CanFrames.lean ====
section
/-! SUPPORT. What frames and the register service of a CAN port can do (R470 to R497). -/

namespace Sys2Proof.Machine

open Sys2Proof

/-- What an outcome or a frame at port `p` leaves alone. -/
def PoStep (p : Nat) (d e : Dyn) : Prop := (∀ q, q ≠ p → e.port q = d.port q) ∧ e.tim = d.tim ∧ Alike { e with can := d.can } d

theorem PoStep.refl (p : Nat) (d : Dyn) : PoStep p d d := ⟨fun _ _ => rfl, rfl, rfl⟩

theorem PoStep.trans {p : Nat} {d e g : Dyn} (h : PoStep p d e) (k : PoStep p e g) : PoStep p d g :=
  ⟨fun q hq => (k.1 q hq).trans (h.1 q hq), k.2.1.trans h.2.1, Eq.trans (congrArg (fun x : Dyn => ({ x with can := d.can } : Dyn)) k.2.2) h.2.2⟩

theorem PoStep.put (p : Nat) (d : Dyn) (x : Port) : PoStep p d (d.setPort p x) := ⟨fun q hq => setPort_other _ _ _ _ hq, rfl, rfl⟩

theorem FltStep.po {d e : Dyn} (p : Nat) (h : FltStep d e) : PoStep p d e := by
  refine ⟨fun q _ => h.port q, h.same.1, ?_⟩
  obtain ⟨f, i, x, y, k, rfl⟩ := h
  rfl

theorem canBegin_po (c : Cfg) (p : Nat) (d : Dyn) : PoStep p d (canBegin c p d) := by
  obtain ⟨c1, c2, _, _, _⟩ := canBegin_port c p d _ rfl
  exact ⟨c2, by have w := congrArg Dyn.tim c1; exact w, by have w := congrArg Dyn.silent c1; exact w⟩

theorem errState_po (c : Cfg) (p : Nat) (d : Dyn) : PoStep p d (errState c p d) := by
  obtain ⟨a1, a2, a3, -⟩ := errState_spec c p d _ rfl
  exact ⟨a1, a3, a2⟩

theorem launchOf_congr (c : Cfg) (p m : Nat) (x y : Port) (h : ∀ l, x.launch l = y.launch l) : launchOf c p x m = launchOf c p y m := by
  unfold launchOf
  simp only [h]

theorem mbxSent_spec (c : Cfg) (p m stamp : Nat) (f : CBuf) (d : Dyn) : ∀ t, mbxSent c p m stamp f d = t →
    PoStep p d t ∧ (t.port p).txcnt = (d.port p).txcnt ∧ (t.port p).tec = (d.port p).tec ∧ (t.port p).rcv = (d.port p).rcv ∧
    (let y := (t.port p).mb m
     y.txres = 1 ∧ y.clashes = 0 ∧ y.held = false ∧ y.again = false ∧ y.buf.stamp = stamp ∧ y.buf.epoch = d.tim.epoch) ∧
    (∀ e, launchOf c p (d.port p) m = some e → (t.port p).launch e = { (d.port p).launch e with state := 3, txres := 1, sent := shortOf stamp }) := by
  intro t ht
  unfold mbxSent at ht
  extract_lets x b b' x1 x2 at ht
  have hl : launchOf c p x m = launchOf c p (d.port p) m := rfl
  have hx1 : ∀ l, x1.launch l = (d.port p).launch l := fun l => setMb_launch _ _ _ _
  have hx2 : x2.txcnt = (d.port p).txcnt ∧ x2.tec = (d.port p).tec ∧ x2.rcv = (d.port p).rcv ∧ x2.mb m = b' ∧
      (∀ e, launchOf c p (d.port p) m = some e → x2.launch e = { (d.port p).launch e with state := 3, txres := 1, sent := shortOf stamp }) := by
    show (match launchOf c p x m with | some e => x1.setLaunch e { x1.launch e with state := 3, txres := 1, sent := shortOf stamp } | none => x1).txcnt = _ ∧
      (match launchOf c p x m with | some e => x1.setLaunch e { x1.launch e with state := 3, txres := 1, sent := shortOf stamp } | none => x1).tec = _ ∧
      (match launchOf c p x m with | some e => x1.setLaunch e { x1.launch e with state := 3, txres := 1, sent := shortOf stamp } | none => x1).rcv = _ ∧
      (match launchOf c p x m with | some e => x1.setLaunch e { x1.launch e with state := 3, txres := 1, sent := shortOf stamp } | none => x1).mb m = _ ∧
      (∀ e, _ → (match launchOf c p x m with | some e => x1.setLaunch e { x1.launch e with state := 3, txres := 1, sent := shortOf stamp } | none => x1).launch e = _)
    rw [hl]
    cases launchOf c p (d.port p) m with
    | none => exact ⟨rfl, rfl, rfl, setMb_same _ _ _, fun e h => by cases h⟩
    | some e0 =>
      refine ⟨rfl, rfl, rfl, ?_, fun e h => ?_⟩
      · show (x1.setLaunch e0 _).mb m = _
        rw [setLaunch_mb]
        exact setMb_same _ _ _
      · cases h
        show (x1.setLaunch e0 _).launch e0 = _
        rw [setLaunch_same, hx1]
  have hb : b'.txres = 1 ∧ b'.clashes = 0 ∧ b'.held = false ∧ b'.again = false ∧ b'.buf.stamp = stamp ∧ b'.buf.epoch = d.tim.epoch := ⟨rfl, rfl, rfl, rfl, rfl, rfl⟩
  clear_value x2 b'
  have fs := clears_step (d.setPort p x2) (mbxSrc p m) [0xE063]
  rw [ht] at fs
  have yp : t.port p = x2 := (fs.port p).trans (setPort_same _ _ _)
  refine ⟨(PoStep.put p d x2).trans (fs.po p), ?_⟩
  dsimp only
  rw [yp]
  obtain ⟨g1, g2, g3, g4, g5⟩ := hx2
  rw [g4]
  exact ⟨g1, g2, g3, hb, g5⟩

/-- The counters of a port. -/
def SameCnt (p : Nat) (d e : Dyn) : Prop :=
  PoStep p d e ∧ (e.port p).lec = (d.port p).lec ∧ (e.port p).tec = (d.port p).tec ∧ (e.port p).rcv = (d.port p).rcv ∧ (e.port p).txcnt = (d.port p).txcnt ∧ (e.port p).rxcnt = (d.port p).rxcnt ∧
  (e.port p).busy = (d.port p).busy ∧ (e.port p).wire = (d.port p).wire

theorem SameCnt.refl (p : Nat) (d : Dyn) : SameCnt p d d := ⟨PoStep.refl p d, rfl, rfl, rfl, rfl, rfl, rfl, rfl⟩

theorem SameCnt.trans {p : Nat} {d e g : Dyn} (h : SameCnt p d e) (k : SameCnt p e g) : SameCnt p d g := by
  obtain ⟨h0, h1, h2, h3, h4, h5, h6, h7⟩ := h
  obtain ⟨k0, k1, k2, k3, k4, k5, k6, k7⟩ := k
  exact ⟨h0.trans k0, k1.trans h1, k2.trans h2, k3.trans h3, k4.trans h4, k5.trans h5, k6.trans h6, k7.trans h7⟩

theorem SameCnt.put (p : Nat) (d : Dyn) (x : Port) (h : x.lec = (d.port p).lec ∧ x.tec = (d.port p).tec ∧ x.rcv = (d.port p).rcv ∧ x.txcnt = (d.port p).txcnt ∧ x.rxcnt = (d.port p).rxcnt ∧
    x.busy = (d.port p).busy ∧ x.wire = (d.port p).wire) : SameCnt p d (d.setPort p x) := by
  refine ⟨PoStep.put p d x, ?_⟩
  rw [setPort_same]
  exact h

theorem SameCnt.putThen {p : Nat} {d e : Dyn} {x : Port} (h : x.lec = (d.port p).lec ∧ x.tec = (d.port p).tec ∧ x.rcv = (d.port p).rcv ∧ x.txcnt = (d.port p).txcnt ∧ x.rxcnt = (d.port p).rxcnt ∧
    x.busy = (d.port p).busy ∧ x.wire = (d.port p).wire) (k : SameCnt p (d.setPort p x) e) : SameCnt p d e := (SameCnt.put p d x h).trans k

theorem FltStep.cnt {d e : Dyn} (p : Nat) (h : FltStep d e) : SameCnt p d e := by
  have k := h.port p
  exact ⟨h.po p, by rw [k], by rw [k], by rw [k], by rw [k], by rw [k], by rw [k], by rw [k]⟩

theorem launchFail_cnt (c : Cfg) (p e res : Nat) (d : Dyn) : SameCnt p d (launchFail c p e res d) := by
  unfold launchFail
  dsimp only
  unfold txFailed
  refine SameCnt.putThen ?_ ((event_step _ _ _ _ _ _).cnt p)
  exact ⟨rfl, rfl, rfl, rfl, rfl, rfl, rfl⟩

theorem mbxFailed_cnt (c : Cfg) (p m res : Nat) (d : Dyn) : SameCnt p d (mbxFailed c p m res d) := by
  unfold mbxFailed
  dsimp only
  split
  · split
    · exact launchFail_cnt _ _ _ _ _
    · split
      · exact launchFail_cnt _ _ _ _ _
      · exact SameCnt.refl _ _
  · split
    · unfold txFailed
      refine SameCnt.putThen ?_ ((event_step _ _ _ _ _ _).cnt p)
      exact ⟨rfl, rfl, rfl, rfl, rfl, rfl, rfl⟩
    · exact SameCnt.refl _ _

theorem clashCount_cnt (c : Cfg) (p m : Nat) (d : Dyn) : SameCnt p d (clashCount c p m d) := by
  unfold clashCount
  extract_lets x b n d1
  have h : SameCnt p d d1 := SameCnt.put p d _ ⟨rfl, rfl, rfl, rfl, rfl, rfl, rfl⟩
  split
  · exact h.trans ((fault_step _ _ _ _ _ _ _ _ _).cnt p)
  · exact h

theorem txWire (c : Cfg) (p m : Nat) (f : CBuf) (d : Dyn) (h2 : (d.port p).wire = some (.mailbox m f)) :
    canBegin c p (d.setPort p { d.port p with busy := false }) = d.setPort p { d.port p with busy := false } := by
  unfold canBegin
  dsimp only
  rw [setPort_same, if_neg]
  rw [show ({ d.port p with busy := false } : Port).wire = some (.mailbox m f) from h2]
  simp

/-- The transmit outcomes of one port. -/
theorem txSent_spec (c : Cfg) (p m edge : Nat) (f : CBuf) (d : Dyn) (h1 : portSends c d p = true) (h2 : (d.port p).wire = some (.mailbox m f)) : ∀ t, canTxComplete c p (.sent edge) d = t →
    PoStep p d t ∧ (t.port p).txcnt = ((d.port p).txcnt + 1) % 2 ^ 32 ∧ (t.port p).tec = (d.port p).tec - 1 ∧ (t.port p).rcv = (d.port p).rcv ∧
    (let y := (t.port p).mb m
     y.txres = 1 ∧ y.clashes = 0 ∧ y.held = false ∧ y.again = false ∧ y.buf.stamp = txStamp c p edge ∧ y.buf.epoch = d.tim.epoch) ∧
    (∀ e, launchOf c p (d.port p) m = some e → (t.port p).launch e = { (d.port p).launch e with state := 3, txres := 1, sent := shortOf (txStamp c p edge) }) := by
  intro t ht
  unfold canTxComplete at ht
  rw [if_neg (by simp [h1]), txWire c p m f d h2] at ht
  obtain ⟨y, hy⟩ : ∃ y, y = ({ d.port p with busy := false } : Port) := ⟨_, rfl⟩
  rw [← hy] at ht
  dsimp only at ht
  rw [setPort_same, show y.wire = some (.mailbox m f) by rw [hy]; exact h2] at ht
  dsimp only at ht
  obtain ⟨x1, hx1⟩ : ∃ x1, ({ y with wire := none, tec := y.tec - 1, txcnt := (y.txcnt + 1) % 2 ^ 32, blocked := false } : Port) = x1 := ⟨_, rfl⟩
  have ht' : canBegin c p (mbxSent c p m (txStamp c p edge) f (errState c p (((d.setPort p y).setPort p x1).clears (portSrc p) [0xE062]))) = t := by
    rw [← hx1]; exact ht
  rw [hy] at hx1
  clear ht
  rename' ht' => ht
  generalize hd1 : (d.setPort p y).setPort p x1 = d1 at ht
  have p1 : d1.port p = x1 := by rw [← hd1, setPort_same]
  have s1 : PoStep p d d1 := by rw [← hd1]; exact (PoStep.put p d _).trans (PoStep.put p _ x1)
  have fs := clears_step d1 (portSrc p) [0xE062]
  generalize d1.clears (portSrc p) [0xE062] = d2 at ht fs
  have p2 : d2.port p = x1 := (fs.port p).trans p1
  obtain ⟨-, -, -, a4, a5, -, a7, -, -, -, -, -, al, -⟩ := errState_spec c p d2 _ rfl
  have s3 := errState_po c p d2
  generalize errState c p d2 = d3 at ht a4 a5 a7 al s3
  rw [p2] at a4 a5 a7 al
  obtain ⟨m0, m1, m2, m3, m4, m5⟩ := mbxSent_spec c p m (txStamp c p edge) f d3 _ rfl
  generalize mbxSent c p m (txStamp c p edge) f d3 = d4 at ht m0 m1 m2 m3 m4 m5
  obtain ⟨c1, c2, c3, c4, c5⟩ := canBegin_port c p d4 t ht
  have s5 : PoStep p d4 t := ht ▸ canBegin_po c p d4
  have st : PoStep p d d3 := (s1.trans (fs.po p)).trans s3
  refine ⟨(st.trans m0).trans s5, ?_, ?_, ?_, ?_, fun e he => ?_⟩
  · have w := congrArg Port.txcnt c5
    refine Eq.trans (show (t.port p).txcnt = (d4.port p).txcnt from w) ?_
    rw [m1, a7, ← hx1]
  · have w := congrArg Port.tec c5
    refine Eq.trans (show (t.port p).tec = (d4.port p).tec from w) ?_
    rw [m2, a4, ← hx1]
  · have w := congrArg Port.rcv c5
    refine Eq.trans (show (t.port p).rcv = (d4.port p).rcv from w) ?_
    rw [m3, a5, ← hx1]
  · dsimp only
    rw [c3]
    have te : d3.tim.epoch = d.tim.epoch := by rw [st.2.1]
    rw [te] at m4
    exact m4
  · have lo : launchOf c p (d3.port p) m = launchOf c p (d.port p) m := launchOf_congr c p m _ _ (fun l => (al l).trans (by rw [← hx1]; rfl))
    rw [c4, m5 e (lo.trans he)]
    have : (d3.port p).launch e = (d.port p).launch e := (al e).trans (by rw [← hx1]; rfl)
    rw [this]

theorem txLost_spec (c : Cfg) (p m : Nat) (f : CBuf) (d : Dyn) (h1 : portSends c d p = true) (h2 : (d.port p).wire = some (.mailbox m f)) (h3 : launchOf c p (d.port p) m = none) : ∀ t,
    canTxComplete c p .arbLost d = t → PoStep p d t ∧ (t.port p).busy = true ∧ (t.port p).wire = none ∧ (t.port p).tec = (d.port p).tec ∧
      (¬(c.mbxOneshot p m = true) → (t.port p).mb m = (d.port p).mb m) ∧ (c.mbxOneshot p m = true → ((t.port p).mb m).txres = 2 ∧ ((t.port p).mb m).pending = ((d.port p).mb m).again) ∧
      ∀ k, k ≠ m → (t.port p).mb k = (d.port p).mb k := by
  intro t ht
  unfold canTxComplete at ht
  rw [if_neg (by simp [h1]), txWire c p m f d h2] at ht
  obtain ⟨y, hy⟩ : ∃ y, y = ({ d.port p with busy := false } : Port) := ⟨_, rfl⟩
  rw [← hy] at ht
  dsimp only at ht
  rw [setPort_same, show y.wire = some (.mailbox m f) by rw [hy]; exact h2] at ht
  dsimp only at ht
  obtain ⟨x1, hx1⟩ : ∃ x1, ({ y with busy := true, wire := none } : Port) = x1 := ⟨_, rfl⟩
  have ht' : mbxFailed c p m 2 ((d.setPort p y).setPort p x1) = t := by
    rw [← hx1]; exact ht
  rw [hy] at hx1
  clear ht
  rename' ht' => ht
  generalize hd1 : (d.setPort p y).setPort p x1 = d1 at ht
  have p1 : d1.port p = x1 := by rw [← hd1, setPort_same]
  have s1 : PoStep p d d1 := by rw [← hd1]; exact (PoStep.put p d _).trans (PoStep.put p _ x1)
  have k := mbxFailed_cnt c p m 2 d1
  rw [ht] at k
  obtain ⟨k0, -, k2, -, -, -, k6, k7⟩ := k
  have lo : launchOf c p x1 m = none := by rw [← h3, ← hx1]; rfl
  have xm : ∀ j, x1.mb j = (d.port p).mb j := fun j => by rw [← hx1]; rfl
  have body : (¬(c.mbxOneshot p m = true) → (t.port p).mb m = (d.port p).mb m) ∧ (c.mbxOneshot p m = true → ((t.port p).mb m).txres = 2 ∧ ((t.port p).mb m).pending = ((d.port p).mb m).again) ∧
      ∀ k, k ≠ m → (t.port p).mb k = (d.port p).mb k := by
    unfold mbxFailed at ht
    dsimp only at ht
    rw [p1, lo] at ht
    dsimp only at ht
    by_cases ho : c.mbxOneshot p m = true
    · rw [if_pos ho] at ht
      unfold txFailed at ht
      have fs := event_step (d1.setPort p (x1.setMb m { x1.mb m with pending := (x1.mb m).again, again := false, txres := 2, since := if (x1.mb m).again = true then d1.ms else (x1.mb m).since })) (mbxSrc p m) 0xE067 0 m 2
      rw [ht] at fs
      have yp : t.port p = x1.setMb m { x1.mb m with pending := (x1.mb m).again, again := false, txres := 2, since := if (x1.mb m).again = true then d1.ms else (x1.mb m).since } := (fs.port p).trans (setPort_same _ _ _)
      rw [yp]
      refine ⟨fun h => absurd ho h, fun _ => ?_, fun j hj => (setMb_other _ _ _ _ hj).trans (xm j)⟩
      rw [setMb_same]
      exact ⟨rfl, by rw [← xm m]⟩
    · rw [if_neg ho] at ht
      subst ht
      rw [p1]
      exact ⟨fun _ => xm m, fun h => absurd h ho, fun j _ => xm j⟩
  refine ⟨s1.trans k0, by rw [k6, p1, ← hx1], by rw [k7, p1, ← hx1], by rw [k2, p1, ← hx1], body⟩

theorem txErr_spec (c : Cfg) (p m lec : Nat) (after : Bool) (f : CBuf) (d : Dyn) (h1 : portSends c d p = true) (h2 : (d.port p).wire = some (.mailbox m f)) : ∀ t,
    canTxComplete c p (.error lec after) d = t → PoStep p d t ∧ (t.port p).lec = lec ∧ (t.port p).rcv = (d.port p).rcv ∧ (t.port p).txcnt = (d.port p).txcnt ∧
      (t.port p).tec = if lec = 3 ∧ (d.port p).est = 1 then (d.port p).tec else min 511 ((d.port p).tec + 8) := by
  intro t ht
  unfold canTxComplete at ht
  rw [if_neg (by simp [h1]), txWire c p m f d h2] at ht
  obtain ⟨y, hy⟩ : ∃ y, y = ({ d.port p with busy := false } : Port) := ⟨_, rfl⟩
  rw [← hy] at ht
  dsimp only at ht
  rw [setPort_same, show y.wire = some (.mailbox m f) by rw [hy]; exact h2] at ht
  dsimp only at ht
  obtain ⟨x1, hx1⟩ : ∃ x1, txError lec ({ y with wire := none } : Port) = x1 := ⟨_, rfl⟩
  have ht' : canBegin c p (errState c p (mbxFailed c p m 3 (if after then clashCount c p m ((d.setPort p y).setPort p x1)
      else (d.setPort p y).setPort p x1))) = t := by
    rw [← hx1]; exact ht
  rw [hy] at hx1
  clear ht
  rename' ht' => ht
  have e1 : x1.lec = lec ∧ x1.rcv = (d.port p).rcv ∧ x1.txcnt = (d.port p).txcnt ∧ x1.tec = if lec = 3 ∧ (d.port p).est = 1 then (d.port p).tec else min 511 ((d.port p).tec + 8) := by
    rw [← hx1]; exact ⟨rfl, rfl, rfl, rfl⟩
  clear hx1
  generalize hd1 : (d.setPort p y).setPort p x1 = d1 at ht
  have p1 : d1.port p = x1 := by rw [← hd1, setPort_same]
  have s1 : PoStep p d d1 := by rw [← hd1]; exact (PoStep.put p d _).trans (PoStep.put p _ x1)
  have k : SameCnt p d1 (mbxFailed c p m 3 (if after then clashCount c p m d1 else d1)) := by
    refine SameCnt.trans ?_ (mbxFailed_cnt _ _ _ _ _)
    split
    · exact clashCount_cnt _ _ _ _
    · exact SameCnt.refl _ _
  generalize mbxFailed c p m 3 (if after then clashCount c p m d1 else d1) = d2 at ht k
  obtain ⟨k0, kl, k2, k3, k4, -, -, -⟩ := k
  obtain ⟨-, -, -, a4, a5, a6, a7, -⟩ := errState_spec c p d2 _ rfl
  have s3 := errState_po c p d2
  generalize errState c p d2 = d3 at ht a4 a5 a6 a7 s3
  obtain ⟨c1, c2, c3, c4, c5⟩ := canBegin_port c p d3 t ht
  have s5 : PoStep p d3 t := ht ▸ canBegin_po c p d3
  obtain ⟨g1, g2, g3, g4⟩ := e1
  refine ⟨((s1.trans k0).trans s3).trans s5, ?_, ?_, ?_, ?_⟩
  · have w := congrArg Port.lec c5
    refine Eq.trans (show (t.port p).lec = (d3.port p).lec from w) ?_
    rw [a6, kl, p1, g1]
  · have w := congrArg Port.rcv c5
    refine Eq.trans (show (t.port p).rcv = (d3.port p).rcv from w) ?_
    rw [a5, k3, p1, g2]
  · have w := congrArg Port.txcnt c5
    refine Eq.trans (show (t.port p).txcnt = (d3.port p).txcnt from w) ?_
    rw [a7, k4, p1, g3]
  · have w := congrArg Port.tec c5
    refine Eq.trans (show (t.port p).tec = (d3.port p).tec from w) ?_
    rw [a4, k2, p1, g4]

/-- What counting a received frame leaves: the receive side of the port. -/
def SameRx (p : Nat) (d e : Dyn) : Prop :=
  PoStep p d e ∧ (e.port p).rxcnt = (d.port p).rxcnt ∧ (e.port p).fifo = (d.port p).fifo ∧ (e.port p).lock = (d.port p).lock ∧
  ∀ m, ((e.port p).mb m).buf = ((d.port p).mb m).buf ∧ ((e.port p).mb m).unread = ((d.port p).mb m).unread ∧ ((e.port p).mb m).ovf = ((d.port p).mb m).ovf

theorem SameRx.refl (p : Nat) (d : Dyn) : SameRx p d d := ⟨PoStep.refl p d, rfl, rfl, rfl, fun _ => ⟨rfl, rfl, rfl⟩⟩

theorem SameRx.trans {p : Nat} {d e g : Dyn} (h : SameRx p d e) (k : SameRx p e g) : SameRx p d g := by
  obtain ⟨h0, h1, h2, h3, h4⟩ := h
  obtain ⟨k0, k1, k2, k3, k4⟩ := k
  refine ⟨h0.trans k0, k1.trans h1, k2.trans h2, k3.trans h3, fun m => ?_⟩
  obtain ⟨a, b, e⟩ := h4 m
  obtain ⟨a', b', e'⟩ := k4 m
  exact ⟨a'.trans a, b'.trans b, e'.trans e⟩

theorem SameRx.of {p : Nat} {d e : Dyn} (h : PoStep p d e) (k : (e.port p).rxcnt = (d.port p).rxcnt ∧ (e.port p).fifo = (d.port p).fifo ∧ (e.port p).lock = (d.port p).lock ∧ (e.port p).mbx = (d.port p).mbx) : SameRx p d e := by
  obtain ⟨k1, k2, k3, k4⟩ := k
  have q : ∀ m, (e.port p).mb m = (d.port p).mb m := fun m => by unfold Port.mb; rw [k4]
  exact ⟨h, k1, k2, k3, fun m => by rw [q]; exact ⟨rfl, rfl, rfl⟩⟩

theorem SameRx.put (p : Nat) (d : Dyn) (x : Port) (k : x.rxcnt = (d.port p).rxcnt ∧ x.fifo = (d.port p).fifo ∧ x.lock = (d.port p).lock ∧ x.mbx = (d.port p).mbx) : SameRx p d (d.setPort p x) :=
  SameRx.of (PoStep.put p d x) (by rw [setPort_same]; exact k)

theorem FltStep.rx {d e : Dyn} (p : Nat) (h : FltStep d e) : SameRx p d e := by
  have k := h.port p
  exact SameRx.of (h.po p) (by rw [k]; exact ⟨rfl, rfl, rfl, rfl⟩)

theorem errState_rx (c : Cfg) (p : Nat) (d : Dyn) : SameRx p d (errState c p d) := by
  obtain ⟨-, -, -, -, -, -, -, a8, a9, -, -, a12, -, a14, -⟩ := errState_spec c p d _ rfl
  exact ⟨errState_po c p d, a8, a9, a12, a14⟩

theorem rxGood_rx (c : Cfg) (p : Nat) (d : Dyn) : SameRx p d (rxGood c p d) := by
  unfold rxGood
  dsimp only
  split
  · exact SameRx.refl p d
  · split
    · have h : SameRx p d { d with can := { d.can with free := d.can.free + 1 } } := SameRx.of ⟨fun _ _ => rfl, rfl, rfl⟩ ⟨rfl, rfl, rfl, rfl⟩
      refine h.trans (SameRx.trans ?_ (errState_rx _ _ _))
      exact SameRx.put _ _ _ ⟨rfl, rfl, rfl, rfl⟩
    · exact SameRx.put _ _ _ ⟨rfl, rfl, rfl, rfl⟩

theorem foreignId_rx (c : Cfg) (p : Nat) (f : CanFrame) (d : Dyn) : SameRx p d (foreignId c p f d) := by
  unfold foreignId
  split
  · extract_lets x k tt
    split
    · have h : SameRx p d (d.setPort p { x with foreign := tput 0 x.foreign k (d.ms + 1) }) := SameRx.put _ _ _ ⟨rfl, rfl, rfl, rfl⟩
      generalize d.setPort p { x with foreign := tput 0 x.foreign k (d.ms + 1) } = e at h
      exact h.trans (FltStep.rx p (fault_step e c (portSrc p) 0xE064 1 f.id 0 true true))
    · exact SameRx.refl p d
  · exact SameRx.refl p d

/-- What any handling of a received frame keeps. -/
def KeepRx (p : Nat) (d e : Dyn) : Prop := PoStep p d e ∧ (e.port p).rxcnt = (d.port p).rxcnt

theorem KeepRx.refl (p : Nat) (d : Dyn) : KeepRx p d d := ⟨PoStep.refl p d, rfl⟩

theorem KeepRx.trans {p : Nat} {d e g : Dyn} (h : KeepRx p d e) (k : KeepRx p e g) : KeepRx p d g := ⟨h.1.trans k.1, k.2.trans h.2⟩

theorem KeepRx.put (p : Nat) (d : Dyn) (x : Port) (k : x.rxcnt = (d.port p).rxcnt) : KeepRx p d (d.setPort p x) := ⟨PoStep.put p d x, by rw [setPort_same]; exact k⟩

theorem SameRx.keep {p : Nat} {d e : Dyn} (h : SameRx p d e) : KeepRx p d e := ⟨h.1, h.2.1⟩

theorem canWrite_keep (p : Nat) (d : Dyn) (stamp : Nat) (w : CanWrite) : KeepRx p d (d.canWrite stamp w) := ⟨⟨fun _ _ => rfl, rfl, rfl⟩, rfl⟩

theorem netPair_keep (c : Cfg) (p t1 r1 stamp : Nat) (d : Dyn) : KeepRx p d (netPair c p t1 r1 stamp d) := by
  unfold netPair
  extract_lets err lim x d1 u d2
  have h : KeepRx p d d2 := by
    refine KeepRx.trans (KeepRx.trans (KeepRx.put p d { x with neterr := sat32 err, syncOk := true, lastPair := d.ms, rxSync := none } rfl) ?_) ((event_step _ _ _ _ _ _).rx p).keep
    exact ((clears_step _ _ _).rx p).keep
  split
  · exact h
  · split
    · exact h.trans (canWrite_keep _ _ _ _)
    · split
      · exact h.trans (canWrite_keep _ _ _ _)
      · exact h.trans (canWrite_keep _ _ _ _)

theorem exchangeFrame_keep (c : Cfg) (p : Nat) (b : CBuf) (fo : Bool) (d : Dyn) : KeepRx p d (exchangeFrame c p b fo d) := by
  unfold exchangeFrame
  dsimp only
  split
  · exact KeepRx.refl p d
  · split
    · split
      · exact KeepRx.put _ _ _ rfl
      · exact KeepRx.refl p d
    · split
      · split
        · split
          · exact netPair_keep _ _ _ _ _ _
          · exact KeepRx.refl p d
        · exact KeepRx.refl p d
      · exact KeepRx.refl p d

theorem svcRequest_keep (p : Nat) (b : CBuf) (d : Dyn) : KeepRx p d (svcRequest p b d) := by
  unfold svcRequest
  dsimp only
  split
  · exact KeepRx.refl p d
  · split
    · exact KeepRx.put _ _ _ rfl
    · exact KeepRx.put _ _ _ rfl

theorem mbxReceive_keep (p m : Nat) (b : CBuf) (d : Dyn) : KeepRx p d (mbxReceive p m b d) := by
  unfold mbxReceive
  dsimp only
  split
  · exact KeepRx.put _ _ _ rfl
  · exact KeepRx.put _ _ _ rfl

theorem forEach_keep (p : Nat) (f : Nat → Dyn → Dyn) (h : ∀ a d, KeepRx p d (f a d)) (l : List Nat) (d : Dyn) : KeepRx p d (forEach l d f) := by
  induction l generalizing d with
  | nil => exact KeepRx.refl p d
  | cons a r ih => exact (h a d).trans (ih _)

theorem mapDecode_keep (c : Cfg) (p k : Nat) (f : CBuf) (d : Dyn) : KeepRx p d (mapDecode c k f d) := by
  unfold mapDecode
  refine forEach_keep p _ (fun s d => ?_) _ _
  dsimp only
  split
  · exact canWrite_keep _ _ _ _
  · exact KeepRx.refl p d

theorem mapsReceive_keep (c : Cfg) (p m : Nat) (f : CBuf) (d : Dyn) : KeepRx p d (mapsReceive c p m f d) := by
  unfold mapsReceive
  refine forEach_keep p _ (fun k d => ?_) _ _
  dsimp only
  refine KeepRx.trans (KeepRx.trans (?_ : KeepRx p d (d.setMapS k _)) ((clears_step _ _ _).rx p).keep) (mapDecode_keep c p k f _)
  exact ⟨⟨fun _ _ => rfl, rfl, rfl⟩, rfl⟩

theorem fifoReceive_keep (c : Cfg) (p : Nat) (b : CBuf) (d : Dyn) : KeepRx p d (fifoReceive c p b d) := by
  unfold fifoReceive
  extract_lets x due d1
  split
  · exact KeepRx.put _ _ _ rfl
  · have h : KeepRx p d d1 := KeepRx.put _ _ _ rfl
    split
    · exact h.trans ((fault_step _ _ _ _ _ _ _ _ _).rx p).keep
    · exact h

theorem PoStep.locked {p : Nat} {d e : Dyn} (h : PoStep p d e) (k : (e.port p).lock = (d.port p).lock) (a : Nat) : bufLocked e a = bufLocked d a := by
  have z : ({ e with can := d.can } : Dyn).silent = d.silent := h.2.2
  have l : e.dp.lock = d.dp.lock := by have w := congrArg (fun x : Dyn => x.dp.lock) z; exact w
  have q : ∀ q, (e.port q).lock = (d.port q).lock := fun q => by
    by_cases hq : q = p
    · rw [hq]; exact k
    · rw [h.1 q hq]
  unfold bufLocked
  simp only [l, q]

theorem rx_spec (c : Cfg) (p m : Nat) (fr : CanFrame) (d : Dyn) (h1 : portOn c d p = true) (h2 : (d.port p).busOff = false) : ∀ t, canFrameReceived c p fr d = t →
    PoStep p d t ∧ (t.port p).rxcnt = ((d.port p).rxcnt + 1) % 2 ^ 32 ∧
        (let b := bufOf c p d.tim.epoch fr
         let box := (List.range 32).find? (fun k => c.mbxEn p k && !c.mbxTx p k && b.ext == c.mbxIde p k && (b.id ^^^ c.mbxId p k) &&& c.mbxMask p k == 0)
         let plain := c.portSync p = 0 ∧ c.svcEn p = false
         (plain → box = some m → mapsOf c p m = [] → bufLocked d (canA p (0x1000 + 0x80 * m)) = false →
           ((t.port p).mb m).buf = b ∧ ((t.port p).mb m).unread = true ∧ ((t.port p).mb m).ovf = (((d.port p).mb m).ovf || ((d.port p).mb m).unread)) ∧
         (plain → box = none → (d.port p).fifo.length < 32 → ∀ k, k < 16 → c.bF (filtA p k 0) 0 = true → b.ext = c.bF (filtA p k 0) 1 →
           (b.id ^^^ c.fF (filtA p k 1) 0 29) &&& c.fF (filtA p k 2) 0 29 = 0 → (t.port p).fifo = (d.port p).fifo ++ [b])) := by
  intro t ht
  unfold canFrameReceived at ht
  rw [if_pos (by simp [h1, h2])] at ht
  extract_lets x0 d1 d2 b is d3 at ht
  have s1 : PoStep p d d1 := PoStep.put p d _
  have r1 : (d1.port p).rxcnt = ((d.port p).rxcnt + 1) % 2 ^ 32 ∧ (d1.port p).fifo = (d.port p).fifo ∧ (d1.port p).lock = (d.port p).lock ∧ ∀ k, (d1.port p).mb k = (d.port p).mb k := by
    show ((d.setPort p _).port p).rxcnt = _ ∧ ((d.setPort p _).port p).fifo = _ ∧ ((d.setPort p _).port p).lock = _ ∧ ∀ k, ((d.setPort p _).port p).mb k = _
    rw [setPort_same]
    exact ⟨rfl, rfl, rfl, fun _ => rfl⟩
  have s2 : SameRx p d1 d2 := (rxGood_rx c p d1).trans (foreignId_rx c p fr _)
  have hb : b = bufOf c p d.tim.epoch fr := by
    show bufOf c p d2.tim.epoch fr = _
    have : d2.tim.epoch = d.tim.epoch := by rw [s2.1.2.1, s1.2.1]
    rw [this]
  have s3 : KeepRx p d2 d3 := by
    show KeepRx p d2 (if _ then _ else if _ then _ else if _ then _ else if _ then _ else _)
    split
    · exact exchangeFrame_keep _ _ _ _ _
    · split
      · exact exchangeFrame_keep _ _ _ _ _
      · split
        · exact svcRequest_keep _ _ _
        · split
          · exact KeepRx.refl _ _
          · split
            · exact (mbxReceive_keep _ _ _ _).trans (mapsReceive_keep _ _ _ _ _)
            · split
              · exact fifoReceive_keep _ _ _ _
              · exact KeepRx.refl _ _
  have box3 : c.portSync p = 0 ∧ c.svcEn p = false → d3 = match (List.range 32).find? (fun m => c.mbxEn p m && !c.mbxTx p m && b.ext == c.mbxIde p m &&
            (b.id ^^^ c.mbxId p m) &&& c.mbxMask p m == 0) with
        | some m => mapsReceive c p m b (mbxReceive p m b d2)
        | none =>
          if (List.range 16).any (fun k => c.bF (filtA p k 0) 0 && b.ext == c.bF (filtA p k 0) 1 &&
              (b.id ^^^ c.fF (filtA p k 1) 0 29) &&& c.fF (filtA p k 2) 0 29 == 0) then fifoReceive c p b d2
          else d2 := by
    intro hp
    show (if _ then _ else if _ then _ else if _ then _ else if _ then _ else _) = _
    rw [if_neg (by simp [hp.1]), if_neg (by simp [hp.1]), if_neg (by simp [hp.2]), if_neg (by simp [hp.2])]
    all_goals rfl
  clear_value d3 d2 d1
  obtain ⟨c1, c2, c3, c4, c5⟩ := canBegin_port c p d3 t ht
  have s5 : PoStep p d3 t := ht ▸ canBegin_po c p d3
  obtain ⟨p2, e2, f2, l2, m2⟩ := s2
  obtain ⟨ra, rb, rc, rd⟩ := r1
  have cf : ∀ {α : Type} (g : Port → α), g { t.port p with wire := (d3.port p).wire, xq := (d3.port p).xq } = g (d3.port p) := fun g => congrArg g c5
  refine ⟨((s1.trans p2).trans s3.1).trans s5, ?_, ?_⟩
  · have w := cf Port.rxcnt
    refine Eq.trans (show (t.port p).rxcnt = (d3.port p).rxcnt from w) ?_
    rw [s3.2, e2, ra]
  · dsimp only
    rw [← hb]
    refine ⟨fun hp hbox hm hl => ?_, fun hp hbox hn k hk k1 k2 k3 => ?_⟩
    · have e3 := box3 hp
      rw [hbox] at e3
      dsimp only at e3
      have em : mapsReceive c p m b (mbxReceive p m b d2) = mbxReceive p m b d2 := by
        unfold mapsReceive
        rw [hm]
        rfl
      rw [em] at e3
      unfold mbxReceive at e3
      dsimp only at e3
      rw [if_neg (by rw [(s1.trans p2).locked (l2.trans rc), hl]; decide)] at e3
      rw [c3 m, e3, setPort_same, setMb_same]
      obtain ⟨q1, q2, q3⟩ := m2 m
      rw [rd m] at q2 q3
      exact ⟨rfl, rfl, by rw [← q2, ← q3]⟩
    · have e3 := box3 hp
      rw [hbox] at e3
      dsimp only at e3
      rw [if_pos (by
        rw [List.any_eq_true]
        exact ⟨k, List.mem_range.mpr hk, by simp [k1, k2, k3]⟩)] at e3
      unfold fifoReceive at e3
      dsimp only at e3
      rw [if_pos (by rw [f2, rb]; exact hn)] at e3
      have w := cf Port.fifo
      refine Eq.trans (show (t.port p).fifo = (d3.port p).fifo from w) ?_
      rw [e3, setPort_same]
      show (d2.port p).fifo ++ [b] = _
      rw [f2, rb]

/-- What an answer of the register service does. -/
theorem svcReply_spec (c : Cfg) (p op code : Nat) (v : Word) (d : Dyn) (y : Port) : ∀ t, svcReply c p op code v (d.setPort p y) = t →
    { t with can := d.can } = d ∧ (t.port p).svc = y.svc ∧ (t.port p).replies = y.replies ∧ (∀ q, q ≠ p → t.port q = d.port q) ∧
      (portOn c d p = true → portMuted c d p = false → y.wire ≠ none ∨ y.busy = true → (t.port p).xq = y.xq ++ [{ kind := .reply, since := d.ms, frame :=
         { CBuf.empty with dlc := 8, ext := (c.svcId p).2, id := (c.svcId p).1 + 1, data := leBytes 1 op ++ leBytes 2 code ++ [0] ++ leBytes 4 v.toNat } }]) := by
  intro t ht
  have hp : (d.setPort p y).port p = y := setPort_same _ _ _
  have ho : portOn c (d.setPort p y) p = portOn c d p := rfl
  have hm : portMuted c (d.setPort p y) p = portMuted c d p := rfl
  have hms : (d.setPort p y).ms = d.ms := rfl
  have hq : ∀ q, q ≠ p → (d.setPort p y).port q = d.port q := fun q h => setPort_other _ _ _ _ h
  have hc : ({ d.setPort p y with can := d.can } : Dyn) = d := rfl
  generalize d.setPort p y = e at ht hp ho hm hms hq hc
  unfold svcReply at ht
  by_cases hs : (portOn c e p && !portMuted c e p) = true
  · rw [if_pos hs] at ht
    dsimp only at ht
    unfold sendExtra at ht
    dsimp only at ht
    rw [hp, hms] at ht
    generalize hi : ({ kind := .reply, frame := _, since := d.ms } : XItem) = i at ht
    have e2p : (e.setPort p { y with xq := y.xq ++ [i] }).port p = { y with xq := y.xq ++ [i] } := setPort_same _ _ _
    have e2q : ∀ q, q ≠ p → (e.setPort p { y with xq := y.xq ++ [i] }).port q = d.port q := fun q h => by rw [setPort_other _ _ _ _ h, hq q h]
    have e2c : ({ e.setPort p { y with xq := y.xq ++ [i] } with can := d.can } : Dyn) = d := hc
    generalize e.setPort p { y with xq := y.xq ++ [i] } = e2 at ht e2p e2q e2c
    have bz : y.wire ≠ none ∨ y.busy = true → canBegin c p e2 = e2 := by
      intro h
      unfold canBegin
      dsimp only
      rw [e2p, if_neg]
      intro q
      rw [Bool.and_eq_true, Bool.and_eq_true] at q
      rcases h with h | h
      · exact h (eq_of_beq q.2)
      · rw [show ({ y with xq := y.xq ++ [i] } : Port).busy = true from h] at q
        exact Bool.noConfusion q.1.2
    obtain ⟨c1, c2, c3, c4, c5⟩ := canBegin_port c p e2 t ht
    rw [e2p] at c5
    refine ⟨?_, by have w := congrArg Port.svc c5; exact w, by have w := congrArg Port.replies c5; exact w, fun q h => (c2 q h).trans (e2q q h), fun _ _ hb => ?_⟩
    · have z := congrArg (fun z : Dyn => ({ z with can := d.can } : Dyn)) c1; exact z.trans e2c
    · rw [← ht, bz hb, e2p, ← hi]
  · rw [if_neg hs] at ht
    subst ht
    refine ⟨hc, by rw [hp], by rw [hp], hq, fun h1 h2 => absurd ?_ hs⟩
    rw [ho, hm, h1, h2]
    rfl

end Sys2Proof.Machine
end

