-- ==== Sys2Proof/Laws/Cartridge.lean ====
section
/-! SUPPORT. What answers, failures and services of a cartridge's identity line can do (R224 to R230). -/

namespace Sys2Proof.Machine

open Sys2Proof

/-- What starting the next transaction of a line changes. -/
def NStep (n : Nat) (d e : Dyn) : Prop :=
  MStep n d e ∧ e.cell n = d.cell n ∧ e.flt = d.flt ∧ ∃ tx r p, e.ctg n = { d.ctg n with tx := tx, wantRead := r, wantPoll := p }

theorem NStep.tx (n : Nat) (d : Dyn) (tx : Option CtgTx) (r p : Bool) : NStep n d (d.setCtg n { d.ctg n with tx := tx, wantRead := r, wantPoll := p }) :=
  ⟨MStep.ctg _ _ _, rfl, rfl, tx, r, p, by rw [setCtg_get, if_pos rfl]⟩

theorem ctgNext_step (c : Cfg) (n : Nat) (d : Dyn) : NStep n d (ctgNext c n d) := by
  unfold ctgNext
  extract_lets x mk
  have h0 : NStep n d d := ⟨MStep.refl _ _, rfl, rfl, (d.ctg n).tx, (d.ctg n).wantRead, (d.ctg n).wantPoll, rfl⟩
  split
  · exact h0
  split
  · exact NStep.tx _ _ _ _ _
  split
  · exact NStep.tx _ _ _ _ _
  split
  · exact NStep.tx _ _ _ _ _
  split
  · exact NStep.tx _ _ _ _ _
  · exact h0

theorem ctgNext_read (c : Cfg) (n : Nat) (d : Dyn) (h1 : ctgRuns c d n = true) (h2 : (d.ctg n).lineFault = false) (h3 : (d.ctg n).tx = none) (h4 : (d.ctg n).state ≠ 2)
    (h5 : (d.ctg n).wantRead = true) : ((ctgNext c n d).ctg n).tx = some { kind := 3, row := 0, attempts := 0, data := [], stale := false } := by
  unfold ctgNext
  extract_lets x mk
  rw [if_neg (by simp [h1, x, h2, h3]), if_neg (by simp [x, h4]), if_neg (by simp [x, h4]), if_pos h5, setCtg_get, if_pos rfl]

theorem ctgNext_incr (c : Cfg) (n : Nat) (d : Dyn) (h1 : ctgRuns c d n = true) (h2 : (d.ctg n).lineFault = false) (h3 : (d.ctg n).tx = none) (h4 : (d.ctg n).state = 2)
    (h5 : (d.ctg n).wantIncr = true) (h6 : (d.ctg n).retryAt = none) : ((ctgNext c n d).ctg n).tx = some { kind := 1, row := 0x100, attempts := 0, data := [], stale := false } := by
  unfold ctgNext
  extract_lets x mk
  rw [if_neg (by simp [h1, x, h2, h3]), if_pos (by simp [x, h4, h5, h6]), setCtg_get, if_pos rfl]

theorem ctgRuns_ctg (c : Cfg) (n : Nat) (d : Dyn) (x : Ctg) : ctgRuns c (d.setCtg n x) n = ctgRuns c d n := rfl

theorem setCtg_self (d : Dyn) (n : Nat) (x : Ctg) : (d.setCtg n x).ctg n = x := by rw [setCtg_get, if_pos rfl]

theorem setCell_self (d : Dyn) (n : Nat) (x : Cell) : (d.setCell n x).cell n = x := by rw [setCell_get, if_pos rfl]

/-- A start of the next transaction after a change of the cartridge's own entry. -/
theorem next_after (c : Cfg) (n : Nat) (d : Dyn) (x : Ctg) :
    let e := ctgNext c n (d.setCtg n x)
    MStep n d e ∧ e.cell n = d.cell n ∧ e.flt = d.flt ∧ ∃ tx r p, e.ctg n = { x with tx := tx, wantRead := r, wantPoll := p } := by
  obtain ⟨a, b, f, tx, r, p, h⟩ := ctgNext_step c n (d.setCtg n x)
  rw [setCtg_self] at h
  exact ⟨(MStep.ctg n d x).trans a, b, f, tx, r, p, h⟩

theorem ctgCell_lt {v : Variant} {n : Nat} (h : n < v.nCells) : n < 8 := by
  unfold Variant.nCells at h
  split at h <;> omega

theorem ctgAbsent_spec (c : Cfg) (n : Nat) (d : Dyn) :
    ∀ e, ctgAbsent c n d = e → MStep n d e ∧ (e.ctg n).state = 0 ∧ (e.ctg n).absent = true ∧ (e.ctg n).reason = 0x7060 ∧ (e.ctg n).fails = (d.ctg n).fails ∧
    ((d.cell n).cal = none → (e.cell n).state = 3 ∧ (e.cell n).cause = 3) ∧ ((d.cell n).cal ≠ none → e.cell n = d.cell n) ∧
    (n < 8 → (d.ctg n).state ≠ 0 → Opened d e (0x7000 + n) 0x7060 2 0 0 false false) := by
  intro e he
  unfold ctgAbsent at he
  extract_lets x d1 d2 at he
  have f1 : FltStep d1 d2 := by
    show FltStep d1 (if _ then _ else _)
    split
    · exact FltStep.refl _
    · exact fault_step _ _ _ _ _ _ _ _ _
  have o : n < 8 → (d.ctg n).state ≠ 0 → Opened d d2 (0x7000 + n) 0x7060 2 0 0 false false := by
    intro h1 h2
    have e : d2 = d1.fault c (0x7000 + n) 0x7060 2 0 0 false false := if_neg (by simp [x, h2])
    rw [e]
    exact fault_opened_after c _ _ _ _ _ _ _ rfl rfl (by omega)
  have m1 : MStep n d d1 := MStep.ctg _ _ _
  have k1 : d1.ctg n = { x with state := 0, absent := true, reason := 0x7060 } := setCtg_self _ _ _
  have k2 : d1.cell n = d.cell n := rfl
  have x0 : x.fails = (d.ctg n).fails := rfl
  clear_value d2 d1 x
  have c2 := (f1.cell n).trans k2
  have g2 := (f1.ctg n).trans k1
  have m2 := m1.trans (f1.mcell n)
  split at he <;> subst he
  · rename_i h
    rw [c2] at h
    refine ⟨m2, by rw [g2], by rw [g2], by rw [g2], by rw [g2]; exact x0, fun h' => by rw [h'] at h; simp at h, fun _ => c2, o⟩
  · rename_i h
    rw [c2] at h
    obtain ⟨i1, i2, i3⟩ := cellInvalid_spec c n 3 d2
    have hf : (cellInvalid c n 3 d2).flt = d2.flt := rfl
    refine ⟨m2.trans i1, by rw [i2, g2], by rw [i2, g2], by rw [i2, g2], by rw [i2, g2]; exact x0, fun _ => by rw [i3]; exact ⟨rfl, rfl⟩,
      fun h' => by simp at h; exact absurd h h', fun h1 h2 => (o h1 h2).to hf⟩

theorem ctgTxFail_step (c : Cfg) (n : Nat) (t : CtgTx) (d : Dyn) :
    ∀ e, ctgTxFail c n t d = e → MStep n d e ∧ (e.ctg n).fails = (d.ctg n).fails ∧
    (3 ≤ t.kind → (e.ctg n).state = 0 ∧ (e.ctg n).absent = true ∧ (e.ctg n).reason = 0x7060 ∧
      ((d.cell n).cal = none → (e.cell n).state = 3 ∧ (e.cell n).cause = 3) ∧ ((d.cell n).cal ≠ none → e.cell n = d.cell n) ∧
      (n < 8 → (d.ctg n).state ≠ 0 → Opened d e (0x7000 + n) 0x7060 2 0 0 false false)) ∧
    (t.kind < 3 → (e.ctg n).state = (d.ctg n).state ∧ e.cell n = d.cell n ∧ (e.ctg n).consec = (d.ctg n).consec + 1 ∧
      (e.ctg n).retryAt = some (d.ms + (if 10 ≤ (d.ctg n).consec + 1 then 60000 else 1000)) ∧
      (n < 8 → (d.ctg n).consec + 1 = 10 → Opened d e (0x7000 + n) 0x7066 2 0 0 false false)) := by
  intro e he
  unfold ctgTxFail at he
  extract_lets x d0 k src d1 at he
  have h0 : MStep n d d0 ∧ d0.ctg n = { x with tx := none } ∧ d0.cell n = d.cell n ∧ d0.flt = d.flt ∧ d0.tim = d.tim :=
    ⟨MStep.ctg _ _ _, setCtg_self _ _ _, rfl, rfl, rfl⟩
  have hx : x = d.ctg n := rfl
  have hk : k = x.consec + 1 := rfl
  have h1 : d1 = d0.setCtg n { d0.ctg n with consec := k, retryAt := some (d.ms + (if 10 ≤ k then 60000 else 1000)) } := rfl
  clear_value d1 src k d0 x
  obtain ⟨a1, a2, a3, a4, a5⟩ := h0
  split at he
  · rename_i h
    obtain ⟨b1, b2, b3, b4, b5, b6, b7, b8⟩ := ctgAbsent_spec c n d0 e he
    rw [a3] at b6 b7
    rw [a2, hx] at b5 b8
    exact ⟨a1.trans b1, b5, fun _ => ⟨b2, b3, b4, b6, b7, fun h1 h2 => (b8 h1 h2)|>.of a4.symm a5.symm rfl⟩, fun h' => absurd h (by omega)⟩
  · rename_i h
    have c1 : d1.ctg n = { x with tx := none, consec := k, retryAt := some (d.ms + (if 10 ≤ k then 60000 else 1000)) } := by rw [h1, setCtg_self, a2]
    have m1 : MStep n d d1 := by rw [h1]; exact a1.trans (MStep.ctg _ _ _)
    have c2 : d1.cell n = d.cell n := by rw [h1]; exact a3
    have c3 : d1.flt = d.flt ∧ d1.tim = d.tim := by rw [h1]; exact ⟨a4, a5⟩
    split at he <;> subst he
    · rename_i h10
      have fs := fault_step (d1.setCtg n { d1.ctg n with reason := 0x7066 }) c (0x7000 + n) 0x7066 2 0 0 false false
      have fo := fun hn => fault_opened_after (d := d) (d' := d1.setCtg n { d1.ctg n with reason := 0x7066 }) c (0x7000 + n) 0x7066 2 0 0 false false c3.1 c3.2 hn
      generalize Dyn.fault _ _ _ _ _ _ _ _ _ = e at *
      have ge : e.ctg n = { d1.ctg n with reason := 0x7066 } := (fs.ctg n).trans (setCtg_self _ _ _)
      have ce : e.cell n = d.cell n := (fs.cell n).trans c2
      rw [c1] at ge
      refine ⟨(m1.trans (MStep.ctg _ _ _)).trans (fs.mcell n), by rw [ge, hx], fun h' => absurd h' h, fun _ => ⟨by rw [ge, hx], ce, by rw [ge, hk, hx], by rw [ge, hk, hx],
        fun hn _ => fo (by omega)⟩⟩
    · rename_i h10
      refine ⟨m1, by rw [c1, hx], fun h' => absurd h' h, fun _ => ⟨by rw [c1, hx], c2, by rw [c1, hk, hx], by rw [c1, hk, hx], fun _ h' => absurd h' (by rw [hk, hx] at h10; exact h10)⟩⟩

theorem ctgLife_step (c : Cfg) (n : Nat) (d : Dyn) : ∀ e, ctgLife c n d = e → MStep n d e ∧ e.cell n = d.cell n ∧
    ∃ a b r, e.ctg n = { d.ctg n with lifeWarn := a, expired := b, reason := r } := by
  intro e he
  unfold ctgLife at he
  extract_lets x warn exp d1 at he
  have h1 : MStep n d d1 ∧ d1.cell n = d.cell n ∧ ∃ a b r, d1.ctg n = { d.ctg n with lifeWarn := a, expired := b, reason := r } := by
    by_cases w : (warn && !x.lifeWarn) = true
    · rw [show d1 = _ from if_pos w]
      have f := fault_step (d.setCtg n { x with lifeWarn := true, reason := 0x7063 }) c (0x7000 + n) 0x7063 1 0 0 false false
      exact ⟨(MStep.ctg _ _ _).trans (f.mcell n), f.cell n, true, x.expired, 0x7063, (f.ctg n).trans (setCtg_self _ _ _)⟩
    · rw [show d1 = _ from if_neg w]
      exact ⟨MStep.refl _ _, rfl, (d.ctg n).lifeWarn, (d.ctg n).expired, (d.ctg n).reason, rfl⟩
  clear_value d1
  split at he <;> subst he
  · have f := fault_step (d1.setCtg n { d1.ctg n with expired := true, reason := 0x7064 }) c (0x7000 + n) 0x7064 2 0 0 false false
    obtain ⟨m1, c1, a, b, r, g1⟩ := h1
    refine ⟨(m1.trans (MStep.ctg _ _ _)).trans (f.mcell n), (f.cell n).trans c1, a, true, 0x7064, (f.ctg n).trans ((setCtg_self _ _ _).trans ?_)⟩
    rw [g1]
  · exact h1

theorem ctgChanged_step (c : Cfg) (n : Nat) (d : Dyn) : ∀ e, ctgChanged c n d = e → MStep n d e ∧ (e.ctg n).state = 1 ∧ (e.ctg n).acc = 0 ∧ (e.ctg n).pend = 0 ∧
    (e.ctg n).discarded = (d.ctg n).acc + 900000 * (d.ctg n).pend ∧ (e.cell n).state = 3 ∧ (e.cell n).cause = 3 ∧ (e.cell n).got = [] ∧
    (e.cell n).dropSweep = (d.cell n).sweeping := by
  intro e he
  unfold ctgChanged at he
  extract_lets x y d1 d2 at he
  subst he
  obtain ⟨i1, i2, i3⟩ := cellInvalid_spec c n 3 d2
  have g : d2.ctg n = _ := setCtg_self d1 n _
  have k : d2.cell n = _ := setCell_self d n _
  rw [i2, i3, g, k]
  exact ⟨((MStep.cell n d _).trans (MStep.ctg n d1 _)).trans i1, rfl, rfl, rfl, rfl, rfl, rfl, rfl, rfl⟩

theorem fullRead_step (c : Cfg) (partner n : Nat) (bytes : List Byte) (d : Dyn) : ∀ e, fullRead c partner n bytes d = e → MStep n d e ∧
    let code := ctgCheck c n (({ d.ctg n with tx := none, mem := [] } : Ctg).write 0 bytes)
    (code ≠ 0 → (e.ctg n).state = 3 ∧ (e.ctg n).reason = code ∧ (e.cell n).state = 3 ∧ (e.cell n).cause = 3) ∧
    (code = 0 → (e.ctg n).state = 2 ∧ (e.ctg n).absent = false ∧
      ((({ d.ctg n with tx := none, mem := [] } : Ctg).write 0 bytes).bytes 0 0x100 ≠ (d.ctg n).bytes 0 0x100 → (e.cell n).got = [] ∧ (e.cell n).dropSweep = (d.cell n).sweeping) ∧
      ((({ d.ctg n with tx := none, mem := [] } : Ctg).write 0 bytes).bytes 0 0x100 = (d.ctg n).bytes 0 0x100 → (e.cell n).got = (d.cell n).got ∧ (e.cell n).dropSweep = (d.cell n).dropSweep) ∧
      (e.cell n).state = (d.cell n).state ∧ (e.cell n).m = (d.cell n).m) := by
  intro e he
  unfold fullRead at he
  extract_lets x x1 code d1 serial newIn badCrc cnt yy zz x2 same x3 y new d1' d2 d3 at he
  by_cases h : code ≠ 0
  · rw [if_pos h] at he
    subst he
    obtain ⟨i1, i2, i3⟩ := cellInvalid_spec c n 3 d1
    have f : FltStep (d.setCtg n { x with tx := none, state := 3, reason := code }) d1 := fault_step _ _ _ _ _ _ _ _ _
    have g : d1.ctg n = _ := (f.ctg n).trans (setCtg_self d n _)
    refine ⟨((MStep.ctg n d _).trans (f.mcell n)).trans i1, fun _ => ?_, fun h' => absurd h' h⟩
    rw [i2, i3, g]
    exact ⟨rfl, rfl, rfl, rfl⟩
  · rw [if_neg h] at he
    obtain ⟨y', hy'⟩ : ∃ y', y' = if new then { y with got := [], dropSweep := y.sweeping } else y := ⟨_, rfl⟩
    have hd1 : d1' = (d.setCtg n x3).setCell n y' := by rw [hy']
    have m1 : MStep n d d1' ∧ d1'.ctg n = x3 ∧ d1'.cell n = y' := by
      rw [hd1]
      exact ⟨(MStep.ctg n d x3).trans (MStep.cell n _ _), setCtg_self d n x3, setCell_self _ n _⟩
    have yn : (new → y'.got = [] ∧ y'.dropSweep = y.sweeping) ∧ (¬new → y'.got = y.got ∧ y'.dropSweep = y.dropSweep) ∧ y'.state = y.state ∧ y'.m = y.m := by
      by_cases q : new
      · rw [if_pos q] at hy'
        rw [hy']
        exact ⟨fun _ => ⟨rfl, rfl⟩, fun h => absurd q h, rfl, rfl⟩
      · rw [if_neg q] at hy'
        rw [hy']
        exact ⟨fun h => absurd h q, fun _ => ⟨rfl, rfl⟩, rfl, rfl⟩
    have hn : new ↔ x1.bytes 0 0x100 ≠ x.bytes 0 0x100 := Iff.rfl
    clear hd1 hy'
    have f2 : FltStep d1' d2 := by
      show FltStep d1' (if _ then _ else _)
      split
      · exact event_step _ _ _ _ _ _
      · exact FltStep.refl _
    have f3 : FltStep d1' d3 := f2.trans (clears_step _ _ _)
    have q : x3.state = 2 ∧ x3.absent = false := ⟨rfl, rfl⟩
    have hy : y = d.cell n := rfl
    clear_value d3 d2 d1' y new x3 same x2 zz yy cnt badCrc newIn serial d1
    obtain ⟨l1, l2, a, b, r, l3⟩ := ctgLife_step c n d3 e he
    refine ⟨(m1.1.trans (f3.mcell n)).trans l1, fun h' => absurd h' h, fun _ => ?_⟩
    rw [l3, l2, f3.cell n, f3.ctg n, m1.2.1, m1.2.2]
    rw [hy] at yn
    exact ⟨q.1, q.2, fun h => yn.1 (hn.2 h), fun h => yn.2.1 (fun k => hn.1 k h), yn.2.2.1, yn.2.2.2⟩

theorem length_leBytes (n x : Nat) : (leBytes n x).length = n := by
  induction n generalizing x with
  | zero => rfl
  | succ k ih => simp [leBytes, ih]

theorem write_low (x : Ctg) (o a : Nat) (l : List Byte) (h : a < o) : tget 0 (x.write o l).mem a = tget 0 x.mem a := by
  unfold Ctg.write
  dsimp only
  have key : ∀ (q : List (Nat × Byte)) (m : Tbl Byte), tget 0 (q.foldl (fun m p => tput 0 m (o + p.1) p.2) m) a = tget 0 m a := by
    intro q
    induction q with
    | nil => intro m; rfl
    | cons p q ih => intro m; rw [List.foldl_cons, ih, tget_tput_other _ _ _ _ _ (by omega)]
  exact key _ _

theorem write4 (x : Ctg) (o : Nat) (l : List Byte) (h : l.length = 4) : (x.write o l).bytes o 4 = l := by
  match l, h with
  | [a, b, c, d], _ => simp [Ctg.bytes, Ctg.write, upFrom, List.range, List.range.loop, tget_tput]

theorem idGood1 (c : Cfg) (partner n : Nat) (t : CtgTx) (data : List Byte) (d : Dyn) (ht : t.kind = 1) (hl : data.length = 4) : ∀ e, idGood c partner n t data d = e →
    MStep n d e ∧ (e.ctg n).pend = (d.ctg n).pend - 1 ∧ (e.ctg n).consec = 0 ∧ (e.ctg n).retryAt = none ∧ (e.ctg n).wantRows.contains 0x120 = true ∧
    (e.ctg n).bytes 0x100 4 = data := by
  intro e he
  unfold idGood at he
  rw [ht] at he
  dsimp only at he
  generalize hx : d.ctg n = x at *
  generalize hy : ({ x with tx := none, pend := x.pend - 1, wantIncr := decide (1 < x.pend), consec := 0, retryAt := none } : Ctg).write 0x100 data = y at he
  have y1 : y.pend = x.pend - 1 ∧ y.consec = 0 ∧ y.retryAt = none ∧ y.bytes 0x100 4 = data := by
    rw [← hy]
    exact ⟨rfl, rfl, rfl, write4 _ _ _ hl⟩
  clear hy
  have yb : ∀ v w, ((y.write 0x124 v).write 0x12C w).bytes 0x100 4 = y.bytes 0x100 4 := by
    intro v w
    unfold Ctg.bytes
    refine List.map_congr_left fun a ha => ?_
    have : a < 0x104 := by simp [upFrom] at ha; omega
    rw [write_low _ _ _ _ (by omega), write_low _ _ _ _ (by omega)]
  obtain ⟨l1, l2, a, b, r, l3⟩ := ctgLife_step c n _ e he
  generalize hv : leBytes 4 (u32 (d.cell n).drift) = v at *
  generalize hw : leBytes 4 (crc32c ((y.write 0x124 v).bytes 0x110 0x1C)) = w at *
  generalize hr : (if x.wantRows.contains 0x120 then x.wantRows else x.wantRows ++ [0x120]) = rows at *
  have hrows : rows.contains 0x120 = true := by
    rw [← hr]
    split
    · assumption
    · simp
  generalize hz : ({ (y.write 0x124 v).write 0x12C w with wantRows := rows } : Ctg) = z at *
  have fs := clears_step (d.setCtg n z) (0x7000 + n) [0x7066]
  have k : _ = z := (fs.ctg n).trans (setCtg_self d n z)
  rw [l3, k]
  have z1 : z.pend = x.pend - 1 ∧ z.consec = 0 ∧ z.retryAt = none ∧ z.wantRows = rows ∧ z.bytes 0x100 4 = data := by
    rw [← hz]
    exact ⟨y1.1, y1.2.1, y1.2.2.1, rfl, (yb v w).trans y1.2.2.2⟩
  exact ⟨((MStep.ctg n d z).trans (fs.mcell n)).trans l1, z1.1, z1.2.1, z1.2.2.1, by rw [z1.2.2.2.1]; exact hrows, z1.2.2.2.2⟩

theorem idFail_more (c : Cfg) (n : Nat) (d : Dyn) (t : CtgTx) (h : (d.ctg n).tx = some t) (h2 : t.attempts < 2) :
    idFail c n d = d.setCtg n { d.ctg n with fails := satInc 16 (d.ctg n).fails, tx := some { t with attempts := t.attempts + 1 } } := by
  unfold idFail
  dsimp only
  rw [h]
  exact if_neg (by omega)

theorem idFail_last (c : Cfg) (n : Nat) (d : Dyn) (t : CtgTx) (h : (d.ctg n).tx = some t) (h2 : 2 ≤ t.attempts) :
    idFail c n d = ctgNext c n (ctgTxFail c n t (d.setCtg n { d.ctg n with fails := satInc 16 (d.ctg n).fails, tx := some { t with attempts := t.attempts + 1 } })) := by
  unfold idFail
  dsimp only
  rw [h]
  exact if_pos h2

/-- The answer's form (R224). -/
def goodAnswer (t : CtgTx) (bytes : List Byte) : Prop :=
  bytes.length = 5 + txLen t ∧ leNat (bytes.drop (1 + txLen t)) = crc32c (bytes.take (1 + txLen t)) ∧ bytes.headD 1 = 0

theorem idResponse_bad (c : Cfg) (partner n : Nat) (bytes : List Byte) (d : Dyn) (t : CtgTx) (h : (d.ctg n).tx = some t) (hg : ¬goodAnswer t bytes) :
    idResponse c partner n bytes d = idFail c n d := by
  unfold idResponse
  rw [h]
  dsimp only
  exact if_pos hg

theorem idResponse_good (c : Cfg) (partner n : Nat) (bytes : List Byte) (d : Dyn) (t : CtgTx) (h : (d.ctg n).tx = some t) (hg : goodAnswer t bytes)
    (h1 : (d.cell n).cal = none) (h2 : (d.ctg n).absent = false) :
    idResponse c partner n bytes d = ctgNext c n (idGood c partner n t ((bytes.take (1 + txLen t)).drop 1) d) := by
  unfold idResponse
  rw [h]
  dsimp only
  refine (if_neg (not_not.mpr hg)).trans ?_
  rw [h1]
  simp [h2]

/-- A calibration under way ends with the answer, which then acts as without it (R213, R224). -/
theorem idResponse_cal (c : Cfg) (partner n : Nat) (bytes : List Byte) (d : Dyn) (t : CtgTx) (h : (d.ctg n).tx = some t) (hg : goodAnswer t bytes) (h1 : (d.cell n).cal ≠ none) :
    idResponse c partner n bytes d = idResponse c partner n bytes (d.setCell n { d.cell n with cal := none, calResult := 0x6044, cause := if (d.cell n).cause = 10 then 12 else (d.cell n).cause }) := by
  have hs : (d.cell n).cal.isSome = true := Option.isSome_iff_ne_none.mpr h1
  unfold idResponse
  rw [show (d.setCell n { d.cell n with cal := none, calResult := 0x6044, cause := if (d.cell n).cause = 10 then 12 else (d.cell n).cause }).ctg n = d.ctg n from rfl, h]
  dsimp only
  refine (if_neg (not_not.mpr hg)).trans (Eq.trans ?_ (if_neg (not_not.mpr hg)).symm)
  rw [if_pos hs, setCell_self]
  rfl

/-- An absent cartridge that answers a poll or a write is a change (R225, R228). -/
theorem idResponse_back (c : Cfg) (partner n : Nat) (bytes : List Byte) (d : Dyn) (t : CtgTx) (h : (d.ctg n).tx = some t) (hg : goodAnswer t bytes)
    (h1 : (d.cell n).cal = none) (h2 : (d.ctg n).absent = true) :
    (t.kind ≠ 3 → idResponse c partner n bytes d = ctgNext c n (ctgChanged c n d)) ∧
    (t.kind = 3 → idResponse c partner n bytes d = idResponse c partner n bytes (d.setCtg n { d.ctg n with absent := false, acc := 0, pend := 0, wantIncr := false, wantRows := [], retryAt := none, consec := 0, discarded := (d.ctg n).acc + 900000 * (d.ctg n).pend })) := by
  refine ⟨fun hk => ?_, fun hk => ?_⟩
  · unfold idResponse
    rw [h]
    dsimp only
    refine (if_neg (not_not.mpr hg)).trans ?_
    rw [h1]
    simp [h2, hk]
  · rw [idResponse_good c partner n bytes (d.setCtg n _) t (by rw [setCtg_self]; exact h) hg h1 (by rw [setCtg_self])]
    unfold idResponse
    rw [h]
    dsimp only
    refine (if_neg (not_not.mpr hg)).trans ?_
    rw [h1]
    simp [h2, hk]

theorem NStep.parts {n : Nat} {d e : Dyn} (h : NStep n d e) : (e.ctg n).state = (d.ctg n).state ∧ (e.ctg n).absent = (d.ctg n).absent ∧ (e.ctg n).reason = (d.ctg n).reason ∧
    (e.ctg n).fails = (d.ctg n).fails ∧ (e.ctg n).consec = (d.ctg n).consec ∧ (e.ctg n).retryAt = (d.ctg n).retryAt ∧ (e.ctg n).pend = (d.ctg n).pend ∧
    (e.ctg n).acc = (d.ctg n).acc ∧ (e.ctg n).wantRows = (d.ctg n).wantRows ∧ (e.ctg n).mem = (d.ctg n).mem ∧ (e.ctg n).discarded = (d.ctg n).discarded := by
  obtain ⟨_, _, _, a, b, c, h⟩ := h
  rw [h]
  and_intros <;> rfl

theorem idGood3 (c : Cfg) (partner n : Nat) (t : CtgTx) (data : List Byte) (d : Dyn) (ht : t.kind = 3) :
    idGood c partner n t data d = if t.row + 32 < 0x130 then d.setCtg n { d.ctg n with tx := some { t with row := t.row + 32, data := t.data ++ data, attempts := 0 } }
      else fullRead c partner n (t.data ++ data) d := by
  unfold idGood
  rw [ht]
  rfl

theorem idGood4 (c : Cfg) (partner n : Nat) (t : CtgTx) (data : List Byte) (d : Dyn) (ht : t.kind = 4) (h2 : (d.ctg n).absent = false) :
    idGood c partner n t data d = if leNat data = (d.ctg n).serial ∧ (d.ctg n).state ≠ 0 then d.setCtg n { d.ctg n with tx := none }
      else ctgChanged c n (d.setCtg n { d.ctg n with tx := none }) := by
  have e : idGood c partner n t data d = if (d.ctg n).absent || (d.ctg n).state == 0 || leNat data != (d.ctg n).serial then
      ctgChanged c n (d.setCtg n { d.ctg n with tx := none }) else d.setCtg n { d.ctg n with tx := none } := by
    unfold idGood
    rw [ht]
    rfl
  rw [e, h2]
  by_cases h : leNat data = (d.ctg n).serial ∧ (d.ctg n).state ≠ 0
  · rw [if_pos h, if_neg (by simp [h.1, h.2])]
  · rw [if_neg h, if_pos]
    rw [not_and_or, not_not] at h
    rcases h with h | h <;> simp [h]

theorem idGood2 (c : Cfg) (partner n : Nat) (t : CtgTx) (data : List Byte) (d : Dyn) (ht : t.kind = 2) : MStep n d (idGood c partner n t data d) := by
  unfold idGood
  rw [ht]
  exact MStep.ctg _ _ _

theorem idGood_step (c : Cfg) (partner n : Nat) (t : CtgTx) (data : List Byte) (d : Dyn) : MStep n d (idGood c partner n t data d) := by
  unfold idGood
  dsimp only
  split
  · obtain ⟨l1, _⟩ := ctgLife_step c n _ _ rfl
    exact ((MStep.ctg n d _).trans ((clears_step _ _ _).mcell n)).trans l1
  · exact MStep.ctg _ _ _
  · split
    · exact MStep.ctg _ _ _
    · exact (fullRead_step c partner n _ d _ rfl).1
  · split
    · exact (MStep.ctg n d _).trans (ctgChanged_step c n _ _ rfl).1
    · exact MStep.ctg _ _ _

end Sys2Proof.Machine
end

