-- ==== Sys2Proof/Laws/Column.lean ====
section
/-! SUPPORT. What the commands and records of a column can do (R258, R263, R273). -/

namespace Sys2Proof.Machine

open Sys2Proof

theorem openCode_none (d : Dyn) (src : Nat) (l : List Nat) (h : d.flt.find src = none) : d.openCode src l = false := by
  unfold Dyn.openCode
  rw [h]

/-- A column record raised: it is open afterwards, and only the books changed. -/
theorem colFlag_on (c : Cfg) (n code sev : Nat) (d : Dyn) (hn : n < 2) :
    Opened d (colFlag c n code sev true d) (0xB000 + n) code sev 0 0 false false := by
  unfold colFlag
  rw [if_pos rfl]
  split
  · rename_i h
    refine ⟨fun h' => ?_, fun _ _ _ => rfl⟩
    rw [openCode_none d _ _ h'] at h
    cases h
  · exact fault_opened d c _ _ _ _ _ _ _ (by omega)

theorem colFlag_step (c : Cfg) (n code sev : Nat) (on : Bool) (d : Dyn) : FltStep d (colFlag c n code sev on d) := by
  unfold colFlag
  split
  · split
    · exact FltStep.refl _
    · exact fault_step _ _ _ _ _ _ _ _ _
  · exact clears_step _ _ _

theorem FltStep.col {d e : Dyn} (h : FltStep d e) (j : Nat) : e.col j = d.col j := by unfold Dyn.col; rw [h.same.2.2.2.2.2.2.1]

theorem nCols_lt {v : Variant} {n : Nat} (h : n < v.nCols) : n < 2 := by
  unfold Variant.nCols at h
  split at h <;> omega

/-- A column's own entry put, then its record raised. -/
theorem col_raise (c : Cfg) (n code sev : Nat) (d : Dyn) (y : Col) :
    let t := colFlag c n code sev true (d.setCol n y)
    t.col n = y ∧ (∀ j, j ≠ n → t.col j = d.col j) ∧ (n < c.fx.nCols → Opened d t (0xB000 + n) code sev 0 0 false false) ∧ Alike { t with cols := d.cols } d := by
  have f := colFlag_step c n code sev true (d.setCol n y)
  have o := fun hn => colFlag_on c n code sev (d.setCol n y) hn
  refine ⟨(f.col n).trans (by rw [setCol_get, if_pos rfl]), fun j hj => (f.col j).trans (by rw [setCol_get, if_neg hj]), fun hn => (o (nCols_lt hn)).of rfl rfl rfl, ?_⟩
  obtain ⟨a, b, k, g, q, h⟩ := f
  rw [h]
  rfl

end Sys2Proof.Machine
end

