-- ==== Sys2Proof/Laws/Frames.lean ====
section
/-! SUPPORT. What the loop deadline and the end of a frame leave of the loops. -/

namespace Sys2Proof.Machine

open Sys2Proof

def missLoop (x : LoopS) : LoopS :=
  let k := min (x.consec + 1) 255
  let fb := decide (k = 3) && (x.state == 3 || x.state == 4)
  { x with missed := true, total := satInc 16 x.total, consec := k, onTime := 0, overrun := x.overrun || decide (k = 3), state := if fb then 5 else x.state, fbCause := if fb then 2 else x.fbCause, modeAt := if fb then none else x.modeAt }

/-- What the frame's end keeps of the loops. -/
def LKeep (d e : Dyn) : Prop := e.ctl.loops = d.ctl.loops ∧ e.ctl.due = d.ctl.due ∧ e.ctl.lastEnd = d.ctl.lastEnd ∧ e.ctl.peakEnd = d.ctl.peakEnd

theorem LKeep.of {d e : Dyn} (h : e.ctl = d.ctl) : LKeep d e := by unfold LKeep; rw [h]; exact ⟨rfl, rfl, rfl, rfl⟩

theorem LKeep.trans {a b c : Dyn} (h : LKeep a b) (g : LKeep b c) : LKeep a c := ⟨g.1.trans h.1, g.2.1.trans h.2.1, g.2.2.1.trans h.2.2.1, g.2.2.2.trans h.2.2.2⟩

theorem FltStep.lk {d e : Dyn} (h : FltStep d e) : LKeep d e := LKeep.of h.same.2.2.2.2.2.2.2.2.1

theorem LKeep.each {g : Nat → Dyn → Dyn} (l : List Nat) (d : Dyn) (h : ∀ k t, LKeep t (g k t)) : LKeep d (forEach l d g) :=
  forEach_keeps (LKeep d) l d g (fun k s hs => hs.trans (h k s)) (LKeep.of rfl)

theorem LKeep.trc (d : Dyn) (t : Nat) (x : Trc) : LKeep d (d.setTrc t x) := ⟨rfl, rfl, rfl, rfl⟩

theorem LKeep.gen (d : Dyn) (n : Nat) (x : Gen) : LKeep d (d.setGen n x) := ⟨rfl, rfl, rfl, rfl⟩

theorem LKeep.ite {d a b : Dyn} (p : Prop) [Decidable p] (h : LKeep d a) (g : LKeep d b) : LKeep d (if p then a else b) := by split <;> assumption

theorem ovrSelect_lk (c : Cfg) (g : Nat) (d : Dyn) : LKeep d (ovrSelect c g d) := by
  unfold ovrSelect
  refine LKeep.ite _ (LKeep.of rfl) ?_
  split
  · exact LKeep.of rfl
  · extract_lets x u ch d1
    have h1 : LKeep d d1 := ⟨rfl, rfl, rfl, rfl⟩
    clear_value d1
    exact LKeep.ite _ (h1.trans (event_step _ _ _ _ _ _).lk) h1

theorem genStep_lk (c : Cfg) (n : Nat) (d : Dyn) : LKeep d (genStep c n d) := by
  unfold genStep
  refine LKeep.ite _ (LKeep.of rfl) ?_
  extract_lets x vf af p r beyond
  exact LKeep.gen _ _ _

theorem trcStop_lk (t st cause : Nat) (d : Dyn) : LKeep d (trcStop t st cause d) := (LKeep.trc _ _ _).trans (event_step _ _ _ _ _ _).lk

theorem trcSample_lk (c : Cfg) (z : Dyn) (t : Nat) (d : Dyn) : LKeep d (trcSample c z t d) := by
  unfold trcSample
  extract_lets x sw v pre full tw r kept y d1 d2 src y'
  clear_value v r full
  split
  · split
    · have h1 : LKeep d d1 := LKeep.trc _ _ _
      have h2 : LKeep d1 d2 := LKeep.each _ _ (fun j e => LKeep.ite _ (LKeep.trc _ _ _) (LKeep.of rfl))
      exact LKeep.ite _ ((h1.trans h2).trans (trcStop_lk _ _ _ _)) (h1.trans h2)
    · exact LKeep.trc _ _ _
  · split
    · exact LKeep.ite _ ((LKeep.trc _ _ _).trans (trcStop_lk _ _ _ _)) (LKeep.trc _ _ _)
    · exact LKeep.of rfl

theorem afterLoops_lk (c : Cfg) (d : Dyn) : LKeep d (afterLoops c d) := by
  unfold afterLoops
  exact (LKeep.each _ d (ovrSelect_lk c)).trans (LKeep.each _ _ (genStep_lk c))

theorem trcFrame_lk (c : Cfg) (z : Dyn) (q : Nat) (e : Dyn) : LKeep e (trcFrame c z q e) := by
  unfold trcFrame
  refine LKeep.each _ e (fun t e => ?_)
  split
  · exact trcSample_lk c z t e
  · exact LKeep.of rfl

theorem trcNote_lk (c : Cfg) (e : Dyn) : LKeep e (trcNote c e) := by
  unfold trcNote
  extract_lets d1
  have h : LKeep e d1 := by
    refine LKeep.each _ e (fun t e => ?_)
    dsimp only
    split
    · exact LKeep.trc _ _ _
    · exact LKeep.of rfl
  clear_value d1
  exact h

theorem frameTail_lk (c : Cfg) (z : Dyn) (q : Nat) (d : Dyn) : LKeep d (trcFrame c z q (trcNote c (afterLoops c d))) :=
  ((afterLoops_lk c d).trans (trcNote_lk c _)).trans (trcFrame_lk c z q _)

theorem loopsEnd_spec (u : Nat) (s : State) : ∃ t, loopsEnd u s = { s with d := t } ∧ t.ctl.loops = s.d.ctl.loops ∧ t.ctl.due = [] ∧ t.ctl.lastEnd = u ∧
    t.ctl.peakEnd = max s.d.ctl.peakEnd u := by
  unfold loopsEnd
  extract_lets c z k src d1
  have h1 : d1.ctl.loops = s.d.ctl.loops ∧ d1.ctl.due = [] ∧ d1.ctl.lastEnd = u ∧ d1.ctl.peakEnd = max s.d.ctl.peakEnd u := ⟨rfl, rfl, rfl, rfl⟩
  clear_value z
  clear_value d1
  have h := frameTail_lk c z s.d.sched d1
  generalize trcFrame c z s.d.sched (trcNote c (afterLoops c d1)) = t at h
  exact ⟨t, rfl, h.1.trans h1.1, h.2.1.trans h1.2.1, h.2.2.1.trans h1.2.2.1, h.2.2.2.trans h1.2.2.2⟩

theorem loopMiss_spec (c : Cfg) (n : Nat) (d : Dyn) : (∀ m, (loopMiss c n d).lp m = if m = n then missLoop (d.lp n) else d.lp m) ∧ (loopMiss c n d).ctl.peakEnd = d.ctl.peakEnd := by
  unfold loopMiss
  extract_lets x k fb x1 d1 src d2
  have h1 : d1.ctl = (d.setLp n x1).ctl := (event_step (d.setLp n x1) (0xA000 + n) 0xA065 0 0 0).same.2.2.2.2.2.2.2.2.1
  have h2 : d2.ctl.loops = (d.setLp n x1).ctl.loops ∧ d2.ctl.peakEnd = d.ctl.peakEnd := by
    show ({ d1.ctl with anyMiss := true } : Ctl).loops = _ ∧ ({ d1.ctl with anyMiss := true } : Ctl).peakEnd = _
    rw [h1]
    exact ⟨rfl, rfl⟩
  have hx : x1 = missLoop (d.lp n) := rfl
  have key : ∀ e : Dyn, e.ctl.loops = (d.setLp n x1).ctl.loops → ∀ m, e.lp m = if m = n then missLoop (d.lp n) else d.lp m := by
    intro e he m
    have : e.lp m = (d.setLp n x1).lp m := by unfold Dyn.lp; rw [he]
    rw [this, setLp_get, hx]
  split
  · have q := (fault_step d2 c (0xA000 + n) 0xA060 2 0 0 false false).same.2.2.2.2.2.2.2.2.1
    exact ⟨key _ (by rw [q]; exact h2.1), by rw [q]; exact h2.2⟩
  · exact ⟨key _ h2.1, h2.2⟩

theorem loopMiss_each (c : Cfg) (l : List Nat) (hl : l.Nodup) (d : Dyn) : (∀ m, (forEach l d (loopMiss c)).lp m = if m ∈ l then missLoop (d.lp m) else d.lp m) ∧
    (forEach l d (loopMiss c)).ctl.peakEnd = d.ctl.peakEnd := by
  induction l generalizing d with
  | nil => exact ⟨fun _ => rfl, rfl⟩
  | cons a r ih =>
    obtain ⟨ha, hr⟩ := List.nodup_cons.1 hl
    obtain ⟨i1, i2⟩ := ih hr (loopMiss c a d)
    obtain ⟨m1, m2⟩ := loopMiss_spec c a d
    refine ⟨fun m => (i1 m).trans ?_, i2.trans m2⟩
    rw [m1 m]
    by_cases e : m = a
    · subst e; simp [ha]
    · simp [e]

theorem frameRun_ends (e : FrameEnv) (s : State) : (frameRun e s).d.flt.healthy = healthyNow (frameRun e s).c (frameRun e s).d ∧ (frameRun e s).d.pair.stream = [] ∧
    (frameRun e s).d.pair.sealed_ = false := by
  unfold frameRun
  generalize frameWork e _ = s
  unfold frameEnds
  have key : ∀ (c : Cfg) (x : Dyn) (p : Pair), ({ healthyUpdate c x with pair := p } : Dyn).flt.healthy = healthyNow c { healthyUpdate c x with pair := p } := fun c x p => by
    unfold healthyUpdate healthyNow
    rfl
  generalize (frameBurst s.c (sampleLists s.c s.d)).dropReport s.c = x
  exact ⟨key s.c x _, rfl, rfl⟩

theorem reach_ms (a i m T K L : Nat) (hK : K = 281474976710656) (hL : L = 1208925819614629174706176) (hi : 0 < i) (h : i ≤ 137438953472)
    (ha : a < 604462909807314587353088) (hm : a * 1000 / K = m) (hT : T = ((m + 1) * K + 999) / 1000) : reachAcc i a T % L * 1000 / K = m + 1 := by
  have hTa : a < T := by subst hK hL; omega
  have q1 : (T - a + i - 1) / i * i ≤ T - a + i - 1 := Nat.div_mul_le_self _ _
  have q2 : T - a + i - 1 < (T - a + i - 1) / i * i + i := Nat.lt_div_mul_add hi
  have q3 : reachAcc i a T = a + (T - a + i - 1) / i * i := by unfold reachAcc; exact if_neg (Nat.not_le.2 hTa)
  obtain ⟨x, hx⟩ : ∃ x, x = (T - a + i - 1) / i * i := ⟨_, rfl⟩
  rw [← hx] at q1 q2 q3
  obtain ⟨v, hv⟩ : ∃ v, v = reachAcc i a T := ⟨_, rfl⟩
  rw [← hv] at q3 ⊢
  clear hx hv
  have r1 : a + x < L := by subst hK hL; omega
  have r2 : (a + x) * 1000 / K = m + 1 := by
    have s1 : (m + 1) * K ≤ (a + x) * 1000 := by subst hK; omega
    have s2 : (a + x) * 1000 < (m + 2) * K := by subst hK; omega
    exact Nat.div_eq_of_lt_le s1 s2
  exact (congrArg (fun y => y * 1000 / K) ((congrArg (· % L) q3).trans (Nat.mod_eq_of_lt r1))).trans r2

/-- The accumulator at a frame boundary (R33): the first tick at or after the next whole millisecond, which is that millisecond. -/
theorem nextFrame_ms (c : Cfg) (d : Dyn) (h : tickInc c d ≤ 2 ^ 37) (ha : d.tim.acc < 2 ^ 79) : (d.nextFrame c).ms = d.ms + 1 := by
  have hi : 0 < tickInc c d := Nat.lt_of_lt_of_le Nat.zero_lt_one (Nat.le_max_left _ _)
  have e0 : (d.nextFrame c).tim.acc = reachAcc (tickInc c d) d.tim.acc (accOfMs (d.tim.ms + 1)) % 2 ^ 80 := by
    unfold Dyn.nextFrame Dyn.goTo Tim.to Dyn.ms
    generalize accOfMs (d.tim.ms + 1) = n
    generalize (2 ^ 80 : Nat) = k
    rfl
  have k := reach_ms d.tim.acc (tickInc c d) _ _ (2 ^ 48) (2 ^ 80) (by norm_num) (by norm_num) hi (by norm_num at h; exact h) (by norm_num at ha; exact ha) rfl rfl
  unfold accOfMs at e0
  unfold Dyn.ms Tim.ms at *
  exact (congrArg (fun v => v * 1000 / 2 ^ 48) e0).trans k

/-- The beginning of a frame with no loop left over from the last one, on a module that is not a STANDBY (R33, R37, R83). -/
theorem frameClock_spec (s : State) (h : s.d.ctl.due = []) (hs : s.d.standby = false) :
    frameClock s = { s with c := { s.c with reg := s.c.reg.settle }, d := frameTime s.c s.d } ∧
    (s.d.pair.sealed_ = false → s.d.pwr.firstAt = none → tickInc s.c s.d ≤ 2 ^ 37 → s.d.tim.acc < 2 ^ 79 → (frameClock s).d.ms = s.d.ms + 1) := by
  have e : frameClock s = { s with c := { s.c with reg := s.c.reg.settle }, d := frameTime s.c s.d } := by
    unfold frameClock loopsAdopt
    rw [if_pos h, hs]
    rfl
  refine ⟨e, fun h1 h2 h3 h4 => ?_⟩
  rw [e]
  have : frameTime s.c s.d = ({ s.d with pwr := { s.d.pwr with firstAt := none } } : Dyn).nextFrame s.c := by
    unfold frameTime
    rw [h1, h2]
    rfl
  show (frameTime s.c s.d).ms = _
  rw [this]
  exact nextFrame_ms s.c { s.d with pwr := { s.d.pwr with firstAt := none } } h3 h4

/-- The snapshot is what stands at its moment (R35). -/
theorem frameInputs_snap (e : FrameEnv) (s : State) : let t := frameInputs e s
    t.d.snap.cnv = t.d.cnv ∧ t.d.snap.cells = t.d.mst.cells ∧ t.d.snap.cols = t.d.cols ∧ t.d.snap.fld = t.d.fld ∧ t.d.snap.loops = t.d.ctl.loops ∧
    t.d.snap.gens = t.d.ctl.gens ∧ t.d.snap.ovrs = t.d.ctl.ovrs := by
  unfold frameInputs
  dsimp only
  generalize (if enginesRun _ = true then _ else _ : Dyn) = x
  exact ⟨rfl, rfl, rfl, rfl, rfl, rfl, rfl⟩

theorem range_drop_nodup {l : List Nat} (h : l.Nodup) (k : Nat) : (l.drop k).Nodup := h.sublist (List.drop_sublist k l)

/-- The deadline after `k` of the due loops have executed (R278, R295). -/
theorem loopDeadline_spec (k : Nat) (s : State) (h1 : s.d.ctl.due ≠ []) (h2 : s.d.ctl.due.Nodup) :
    let z := forEach (s.d.ctl.due.take k) s (loopTurn s.d.frozen)
    ∃ t, loopDeadline k s = { z with d := t } ∧ t.ctl.due = [] ∧ t.ctl.lastEnd = 820 ∧ t.ctl.peakEnd = max z.d.ctl.peakEnd 820 ∧
      ∀ n, (n ∈ s.d.ctl.due.drop k ∧ z.c.loopEn n = true → t.lp n = missLoop (z.d.lp n)) ∧ (¬(n ∈ s.d.ctl.due.drop k ∧ z.c.loopEn n = true) → t.lp n = z.d.lp n) := by
  intro z
  have E : loopDeadline k s = loopsEnd 820 { z with d := forEach ((s.d.ctl.due.drop k).filter z.c.loopEn) z.d (loopMiss z.c) } := by
    unfold loopDeadline
    rw [if_neg h1]
  clear_value z
  obtain ⟨m1, m2⟩ := loopMiss_each z.c ((s.d.ctl.due.drop k).filter z.c.loopEn) ((range_drop_nodup h2 k).filter _) z.d
  generalize forEach ((s.d.ctl.due.drop k).filter z.c.loopEn) z.d (loopMiss z.c) = d1 at E m1 m2
  obtain ⟨t, ht, l1, l2, l3, l4⟩ := loopsEnd_spec 820 { z with d := d1 }
  refine ⟨t, E.trans ht, l2, l3, l4.trans (by rw [m2]), fun n => ?_⟩
  have ln : t.lp n = d1.lp n := by unfold Dyn.lp; rw [l1]
  have hm : n ∈ (s.d.ctl.due.drop k).filter z.c.loopEn ↔ n ∈ s.d.ctl.due.drop k ∧ z.c.loopEn n = true := List.mem_filter
  rw [ln, m1 n]
  exact ⟨fun h => if_pos (hm.2 h), fun h => if_neg (fun q => h (hm.1 q))⟩

end Sys2Proof.Machine
end

