-- ==== Sys2Proof/Laws/GuardFaults.lean ====
section
/-! SUPPORT. What the resets of guard terms, acknowledgements and the copies the archive takes can do (R420 to R439). -/

namespace Sys2Proof.Machine

open Sys2Proof

theorem setTerm_self (d : Dyn) (n : Nat) (x : GTerm) : (d.setTerm n x).term n = x := by rw [setTerm_get, if_pos rfl]

theorem FltStep.term {d e : Dyn} (h : FltStep d e) (j : Nat) : e.term j = d.term j := by unfold Dyn.term; rw [h.same.2.1]

theorem FltStep.grdAlike {d e : Dyn} (h : FltStep d e) (g : Grd) : Alike { e with grd := g } { d with grd := g } := by
  obtain ⟨f, i, a, b, k, rfl⟩ := h
  rfl

/-- The end of a trip (R420, R423): the term, and its record closed. -/
theorem endTrip_spec (n : Nat) (d : Dyn) : ∀ e, endTrip n d = e → e.term n = { d.term n with tripped := false, relSince := none } ∧ (∀ j, j ≠ n → e.term j = d.term j) ∧
    Alike { e with grd := d.grd } d ∧ Closed d e (0xD000 + n) [0xD060] ∧ e.grd.bad = d.grd.bad ∧ e.grd.cmdResult = d.grd.cmdResult := by
  intro e he
  unfold endTrip at he
  have f := clears_step (d.setTerm n { d.term n with tripped := false, relSince := none }) (0xD000 + n) [0xD060]
  have c := clears_closed (d.setTerm n { d.term n with tripped := false, relSince := none }) (0xD000 + n) [0xD060]
  rw [he] at f c
  exact ⟨(f.term n).trans (setTerm_self _ _ _), fun j hj => (f.term j).trans (by rw [setTerm_get, if_neg hj]), f.grdAlike d.grd, c.of rfl rfl, (congrArg Grd.bad f.same.2.1).trans rfl, (congrArg Grd.cmdResult f.same.2.1).trans rfl⟩

/-- A lower severity on a source with an open record repeats it: code and severity stand (R434). -/
theorem fault1_lower (d : Dyn) (c : Cfg) (src code sev a b : Nat) (x y : Bool) (r0 : FRec) (h : d.flt.find src = some r0) (hs : sev < r0.sev)
    (hr : repeatRule (src / 4096) = none) : ∃ r, (d.fault1 c src code sev a b x y).1.flt.find src = some r ∧ r.code = r0.code ∧ r.sev = r0.sev := by
  have es := find_source h
  unfold Dyn.fault1
  rw [h, hr]
  dsimp only
  have e1 : (decide (r0.sev < sev) || decide (sev = r0.sev) && decide (code ≠ r0.code)) = false := by
    have : ¬ r0.sev < sev := by omega
    have : ¬ sev = r0.sev := by omega
    simp [*]
  rw [e1]
  rw [if_neg (by decide), if_neg (by decide), if_neg (by decide)]
  refine ⟨_, (find_insRec _ _ _).trans (if_pos ?_), ?_, ?_⟩
  · split <;> exact es.symm
  · split <;> rfl
  · split <;> rfl

/-- A fault of the fault manager's own source that outranks FAULT_QUEUE_DROP opens its record. -/
theorem fault_own (d : Dyn) (c : Cfg) (code sev a b : Nat) (x y : Bool) (h : d.flt.find 0xD100 = none) (hs : 1 < sev) :
    ∃ r, (d.fault c 0xD100 code sev a b x y).flt.find 0xD100 = some r ∧ r.code = code ∧ r.sev = sev := by
  have k := (fault1_opened d c 0xD100 code sev a b x y).1 h
  unfold Dyn.fault
  generalize d.fault1 c 0xD100 code sev a b x y = z at *
  obtain ⟨d1, dropped⟩ := z
  dsimp only at k ⊢
  generalize (dropped && d1.flt.dropDue d1.ms) = due
  cases due
  · exact ⟨_, k, rfl, rfl⟩
  · exact fault1_lower { d1 with flt := { d1.flt with dropAt := some d1.ms } } c 0xD100 0xD062 1 0 0 true true _ k hs rfl

theorem sevAction_halt (d : Dyn) (code : Nat) : (d.sevAction 4 code).glb.haltCause ≠ none := by
  unfold Dyn.sevAction
  rw [if_pos rfl]
  simp

theorem noted_halt (d : Dyn) (c : Cfg) (code : Nat) : (d.noted c code 4).glb.haltCause ≠ none := sevAction_halt _ _

theorem haltKept_noted (d : Dyn) (c : Cfg) (code sev : Nat) (h : d.glb.haltCause ≠ none) : (d.noted c code sev).glb.haltCause ≠ none := by
  unfold Dyn.noted Dyn.sevAction
  dsimp only
  repeat' split
  all_goals first
    | exact h
    | simp

theorem haltKept_fault1 (d : Dyn) (c : Cfg) (src code sev a b : Nat) (x y : Bool) (h : d.glb.haltCause ≠ none) : (d.fault1 c src code sev a b x y).1.glb.haltCause ≠ none := by
  unfold Dyn.fault1
  split
  · exact haltKept_noted { d with flt := { d.flt with recs := _, seq := _ } } _ _ _ h
  · lift_lets
    extract_lets occ r1 esc r2 up r3 f1 d1
    split
    · exact haltKept_noted d1 _ _ _ h
    · exact h

theorem fault_halt (d : Dyn) (c : Cfg) (src code a b : Nat) (x y : Bool) (h : d.glb.haltCause ≠ none ∨ d.flt.find src = none) : (d.fault c src code 4 a b x y).glb.haltCause ≠ none := by
  have k : (d.fault1 c src code 4 a b x y).1.glb.haltCause ≠ none := by
    rcases h with h | h
    · exact haltKept_fault1 _ _ _ _ _ _ _ _ _ h
    · unfold Dyn.fault1
      rw [h]
      exact noted_halt _ _ _
  unfold Dyn.fault
  generalize d.fault1 c src code 4 a b x y = z at *
  obtain ⟨d1, dropped⟩ := z
  dsimp only at k ⊢
  generalize (dropped && d1.flt.dropDue d1.ms) = due
  cases due
  · exact k
  · exact haltKept_fault1 { d1 with flt := { d1.flt with dropAt := some d1.ms } } _ _ _ _ _ _ _ _ k

theorem termArg (n : Nat) (h : n < 64) : fld (BitVec.ofNat 32 (4 * n) &&& cmdArg 0x50018) 2 6 = n := by
  have e : cmdArg 0x50018 = 0xFC#32 := by decide
  rw [e]
  revert n
  decide

theorem keepArg_guard (n : Nat) (s : State) (h : n < 64) : 
    (keepArg 0x50018 (BitVec.ofNat 32 (4 * n)) s).d = s.d ∧ fld ((keepArg 0x50018 (BitVec.ofNat 32 (4 * n)) s).c.w 0x50018) 2 6 = n ∧
    ∀ a, a ≠ 0x50018 → (keepArg 0x50018 (BitVec.ofNat 32 (4 * n)) s).c.w a = s.c.w a ∧ (keepArg 0x50018 (BitVec.ofNat 32 (4 * n)) s).c.f a = s.c.f a := by
  have h0 : ¬ cmdArg 0x50018 = 0 := by decide
  have k := termArg n h
  unfold keepArg
  rw [if_neg h0]
  generalize BitVec.ofNat 32 (4 * n) &&& cmdArg 0x50018 = v at *
  refine ⟨rfl, ?_, fun a ha => ⟨?_, ?_⟩⟩
  · rw [show ∀ c : Cfg, c.w 0x50018 = tget (resetWord 0x50018) c.reg.w 0x50018 from fun _ => rfl]
    dsimp only
    rw [putB_get, if_pos rfl]
    exact k
  · exact (putB_get _ _ _ _).trans (if_neg ha)
  · exact (putB_fget _ _ _ _).trans (if_neg ha)

/-- The resets of RESET_ALL, term by term (R423). -/
theorem resetAll_spec (c : Cfg) (l : List Nat) (d : Dyn) (n : Nat) :
    let t := forEach l d (fun n d => if c.termEn n && c.termLatch n && (d.term n).tripped && !d.termValue n then endTrip n d else d)
    Alike { t with grd := d.grd } d ∧ t.grd.bad = d.grd.bad ∧ (t.term n).value = (d.term n).value ∧ (t.term n).hold = (d.term n).hold ∧ (t.term n).count = (d.term n).count ∧
    (t.term n).tripped = ((d.term n).tripped && !(decide (n ∈ l) && c.termEn n && c.termLatch n && !d.termValue n)) := by
  induction l generalizing d with
  | nil => exact ⟨rfl, rfl, rfl, rfl, rfl, by simp [forEach]⟩
  | cons v l ih =>
    have i := ih (if c.termEn v && c.termLatch v && (d.term v).tripped && !d.termValue v then endTrip v d else d)
    intro t
    have et : t = forEach l (if c.termEn v && c.termLatch v && (d.term v).tripped && !d.termValue v then endTrip v d else d)
        (fun n d => if c.termEn n && c.termLatch n && (d.term n).tripped && !d.termValue n then endTrip n d else d) := rfl
    rw [et]
    generalize forEach l _ _ = t' at *
    obtain ⟨i1, i2, i3, i4, i5, i6⟩ := i
    by_cases hv : (c.termEn v && c.termLatch v && (d.term v).tripped && !d.termValue v) = true
    · rw [if_pos hv] at i1 i2 i3 i4 i5 i6
      obtain ⟨a1, a2, a3, _, a5, _⟩ := endTrip_spec v d _ rfl
      generalize endTrip v d = d1 at *
      have tv : d1.termValue n = d.termValue n := by
        unfold Dyn.termValue
        rw [a5]
        by_cases hn : n = v
        · subst hn; rw [a1]
        · rw [a2 n hn]
      refine ⟨Eq.trans (congrArg (fun x : Dyn => ({ x with grd := d.grd } : Dyn)) i1) a3, i2.trans a5, ?_, ?_, ?_, ?_⟩
      · rw [i3]; by_cases hn : n = v
        · subst hn; rw [a1]
        · rw [a2 n hn]
      · rw [i4]; by_cases hn : n = v
        · subst hn; rw [a1]
        · rw [a2 n hn]
      · rw [i5]; by_cases hn : n = v
        · subst hn; rw [a1]
        · rw [a2 n hn]
      · rw [i6, tv]
        by_cases hn : n = v
        · subst hn
          rw [a1]
          simp at hv
          simp [hv]
        · rw [a2 n hn]
          simp [hn]
    · rw [if_neg hv] at i1 i2 i3 i4 i5 i6
      refine ⟨i1, i2, i3, i4, i5, ?_⟩
      rw [i6]
      by_cases hn : n = v
      · subst hn
        cases h1 : (d.term n).tripped
        · simp
        · rw [h1] at hv
          cases h2 : c.termEn n <;> cases h3 : c.termLatch n <;> cases h4 : d.termValue n <;> simp_all
      · simp [hn]

theorem ackRec_find (d : Dyn) (src m : Nat) : (d.ackRec src).flt.find m = if m = src then
    (match d.flt.find src with | none => none | some r => if r.byAck && r.gone then none else some { r with acked := true, last := shortOf d.tim.net }) else d.flt.find m := by
  unfold Dyn.ackRec
  cases h : d.flt.find src with
  | none =>
    dsimp only
    split
    · rename_i hm; rw [hm, h]
    · rfl
  | some r =>
    have es := find_source h
    dsimp only
    by_cases hb : (r.byAck && r.gone) = true
    · rw [if_pos hb, if_pos hb]
      unfold Dyn.statusCopy
      rw [Flt.find, copyRec_recs]
      exact find_filter _ _ _
    · rw [if_neg hb, if_neg hb]
      unfold Dyn.statusCopy
      rw [Flt.find, copyRec_recs]
      refine (find_insRec _ _ _).trans ?_
      by_cases hm : m = src
      · rw [if_pos hm, if_pos (by rw [hm]; exact es.symm)]
      · rw [if_neg hm, if_neg (by rw [show (({ r with acked := true, last := shortOf d.tim.net } : FRec).source) = src from es]; exact hm)]
        rfl

theorem ackTree_eq (c : Cfg) (u : Nat) (d : Dyn) (j : Nat) : { ackTree c u d with seq := d.seq } = d := (ackList c u ((List.range c.fx.nUnits).filter (c.unitEn)) d j).2.2.2

theorem unitDo_flt (c : Cfg) (u : Nat) (d : Dyn) : { unitDo c u 3 d with seq := d.seq } = d := by
  unfold unitDo
  split
  · rfl
  · exact ackTree_eq c u d 0

theorem ackSource_spec (c : Cfg) (src : Nat) (d : Dyn) : ∀ e, ackSource c src d = e → (∀ m, e.flt.find m = (d.ackRec src).flt.find m) ∧ Alike { e with seq := d.seq } d ∧
    (src < 0xC000 ∨ 0xC100 ≤ src → e.seq = d.seq) := by
  intro e he
  unfold ackSource at he
  extract_lets d1 at he
  have f : FltStep d d1 := ackRec_step d src
  split at he <;> subst he
  · have k := unitDo_flt c (src - 0xC000) d1
    have k1 := congrArg Dyn.flt k
    refine ⟨fun m => congrArg (fun q : Flt => q.find m) k1, ?_, fun h => by omega⟩
    have k2 := congrArg (fun x : Dyn => ({ x with seq := d.seq } : Dyn).silent) k
    exact Eq.trans k2 f.seqAlike
  · exact ⟨fun _ => rfl, f.seqAlike, fun _ => f.same.2.2.2.2.2.2.2.2.2.2.1⟩

theorem ackAll_spec (c : Cfg) (l : List Nat) (d : Dyn) :
    let t := l.foldl (fun d s => ackSource c s d) d
    Alike { t with seq := d.seq } d ∧ ∀ m, (d.flt.find m = none → t.flt.find m = none) ∧ ((∀ r, d.flt.find m = some r → r.acked = true) → ∀ r, t.flt.find m = some r → r.acked = true) ∧
      (m ∈ l → ∀ r, t.flt.find m = some r → r.acked = true) := by
  induction l generalizing d with
  | nil => exact ⟨rfl, fun m => ⟨fun h => h, fun h => h, fun h => absurd h List.not_mem_nil⟩⟩
  | cons v l ih =>
    obtain ⟨i1, i2⟩ := ih (ackSource c v d)
    intro t
    have et : t = l.foldl (fun d s => ackSource c s d) (ackSource c v d) := rfl
    rw [et]
    generalize l.foldl (fun d s => ackSource c s d) (ackSource c v d) = t' at *
    obtain ⟨a1, a2, a3⟩ := ackSource_spec c v d _ rfl
    generalize ackSource c v d = d1 at *
    refine ⟨Eq.trans (congrArg (fun x : Dyn => ({ x with seq := d.seq } : Dyn)) i1) a2, fun m => ?_⟩
    obtain ⟨j1, j2, j3⟩ := i2 m
    have am := a1 m
    rw [ackRec_find] at am
    have none1 : d.flt.find m = none → d1.flt.find m = none := by
      intro h
      rw [am]
      split
      · rename_i hm; rw [← hm, h]
      · exact h
    have own : m = v → ∀ r, d1.flt.find m = some r → r.acked = true := by
      intro hm r hr
      rw [am, if_pos hm] at hr
      cases hq : d.flt.find v with
      | none => rw [hq] at hr; cases hr
      | some q =>
        rw [hq] at hr
        dsimp only at hr
        split at hr
        · cases hr
        · injection hr with hr; rw [← hr]
    refine ⟨fun h => j1 (none1 h), fun h => j2 (fun r hr => ?_), fun h => ?_⟩
    · by_cases hm : m = v
      · exact own hm r hr
      · rw [am, if_neg hm] at hr
        exact h r hr
    · by_cases hm : m = v
      · exact j2 (own hm)
      · rcases List.mem_cons.mp h with h | h
        · exact absurd h hm
        · exact j3 h

theorem find_isSome_mem {f : Flt} {m : Nat} {r : FRec} (h : f.find m = some r) : m ∈ f.recs.map (·.source) := by
  have hs := find_source h
  unfold Flt.find at h
  have hm := List.mem_of_find?_eq_some h
  rw [← hs]
  exact List.mem_map_of_mem hm

theorem merged_spec (l : List (Nat × Nat)) (d : Dyn) :
    ∃ f k, l.foldl (fun d p =>
      if d.flt.events.length < 256 then
        let r := { d.newRec 0xD100 0xD063 0 p.1 0 false true with occ := min p.2 65535 }
        { d with flt := { d.flt with events := d.flt.events ++ [{ r := r, isOpen := false, closed := false, event := true, merged := true }]
                                     seq := (d.flt.seq + 1) % 65536, merge := tput 0 d.flt.merge p.1 0 } }
      else d) d = { d with flt := f } ∧ f.events = d.flt.events ++ k ∧ k.length = min l.length (256 - d.flt.events.length) ∧ f.recs = d.flt.recs ∧ f.queue = d.flt.queue ∧
      ∀ x ∈ k, x.event = true ∧ x.merged = true ∧ x.isOpen = false ∧ x.r.code = 0xD063 ∧ ∃ p ∈ l, x.r.a = p.1 % 2 ^ 32 ∧ x.r.occ = min p.2 65535 := by
  induction l generalizing d with
  | nil => exact ⟨d.flt, [], rfl, by simp, by simp, rfl, rfl, fun x h => absurd h List.not_mem_nil⟩
  | cons p l ih =>
    rw [List.foldl_cons]
    by_cases h : d.flt.events.length < 256
    · rw [if_pos h]
      dsimp only
      generalize hr : ({ d.newRec 0xD100 0xD063 0 p.1 0 false true with occ := min p.2 65535 } : FRec) = r
      have hr1 : r.code = 0xD063 ∧ r.a = p.1 % 2 ^ 32 ∧ r.occ = min p.2 65535 := by rw [← hr]; exact ⟨rfl, rfl, rfl⟩
      obtain ⟨f, k, e1, e2, e3, e4, e5, e6⟩ := ih { d with flt := { d.flt with events := d.flt.events ++ [{ r := r, isOpen := false, closed := false, event := true, merged := true }], seq := (d.flt.seq + 1) % 65536, merge := tput 0 d.flt.merge p.1 0 } }
      refine ⟨f, { r := r, isOpen := false, closed := false, event := true, merged := true } :: k, ?_, ?_, ?_, e4, e5, ?_⟩
      · rw [← hr] at e1 ⊢
        exact e1
      · rw [e2]; simp
      · rw [List.length_cons, List.length_cons, e3]; simp; omega
      · intro x hx
        rcases List.mem_cons.mp hx with rfl | hx
        · exact ⟨rfl, rfl, rfl, hr1.1, p, List.mem_cons_self, hr1.2.1, hr1.2.2⟩
        · obtain ⟨a, b, c, q, p', hp, hp'⟩ := e6 x hx
          exact ⟨a, b, c, q, p', List.mem_cons_of_mem _ hp, hp'⟩
    · rw [if_neg h]
      obtain ⟨f, k, e1, e2, e3, e4, e5, e6⟩ := ih d
      refine ⟨f, k, e1, e2, ?_, e4, e5, fun x hx => ?_⟩
      · rw [e3, List.length_cons]; omega
      · obtain ⟨a, b, c, q, p', hp, hp'⟩ := e6 x hx
        exact ⟨a, b, c, q, p', List.mem_cons_of_mem _ hp, hp'⟩

theorem find_first {l : List Nat} {k m : Nat} (h : l.find? (fun s => decide (k < s)) = some m) : m ∈ l ∧ k < m ∧ (l.Pairwise (· < ·) → ∀ j ∈ l, k < j → m ≤ j) := by
  refine ⟨List.mem_of_find?_eq_some h, by simpa using List.find?_some h, fun hp => ?_⟩
  induction l with
  | nil => intro j hj; cases hj
  | cons x l ih =>
    intro j hj hk
    obtain ⟨p1, p2⟩ := List.pairwise_cons.mp hp
    by_cases hx : k < x
    · rw [List.find?_cons_of_pos (by simpa using hx)] at h
      injection h with h
      subst h
      rcases List.mem_cons.mp hj with rfl | hj
      · exact Nat.le_refl _
      · exact Nat.le_of_lt (p1 j hj)
    · rw [List.find?_cons_of_neg (by simpa using hx)] at h
      rcases List.mem_cons.mp hj with rfl | hj
      · exact absurd hk hx
      · exact ih h p2 j hj hk

end Sys2Proof.Machine
end

