-- ==== Sys2Proof/Laws/PairLaws.lean ====
section
/-! SUPPORT. What the link, the fences and the passing of the role in a pair can do (R544 to R566). -/

namespace Sys2Proof.Machine

open Sys2Proof

theorem lines_each (c : Cfg) (line : Nat) : ∀ (l : List Nat) (d : Dyn), ∃ f, forEach l d (fun g d => commonLine c g line d) = { d with fld := f } ∧
    ∀ g, ((forEach l d (fun g d => commonLine c g line d)).grp g).line = if g ∈ l then line % 4 else (d.grp g).line := by
  intro l
  induction l with
  | nil => exact fun d => ⟨d.fld, rfl, fun g => by simp [forEach]⟩
  | cons a l ih =>
    intro d
    obtain ⟨f, i1, i2⟩ := ih (commonLine c a line d)
    obtain ⟨-, h2⟩ := commonLine_spec c a line d
    obtain ⟨f', h1⟩ := commonLine_only c a line d
    refine ⟨f, ?_, fun g => (i2 g).trans ?_⟩
    · have : ({ commonLine c a line d with fld := f } : Dyn) = { d with fld := f } := by rw [h1]
      exact i1.trans this
    · rw [h2]
      by_cases hg : g = a
      · subst hg; simp
      · simp [hg]

/-- What driving the fence lines leaves. -/
theorem fenceLines_spec (c : Cfg) (d : Dyn) : ∀ t, fenceLines c d = t → ∃ f, t = { d with fld := f } ∧
    (d.glb.st ≠ .boot → d.pwr.resetFrom.isSome = false → ∀ g, g < 6 → (t.grp g).line = if t.pair.fenced then 2 else 0) := by
  intro t ht
  unfold fenceLines at ht
  split at ht
  · next h =>
    subst ht
    refine ⟨d.fld, rfl, fun h1 h2 => ?_⟩
    rcases h with h | h
    · exact absurd h h1
    · rw [h2] at h; exact Bool.noConfusion h
  · obtain ⟨f, h1, h2⟩ := lines_each c (if d.pair.fenced then 2 else 0) ((List.range 6).filter (fun g => decide ((d.grp g).line ≠ if d.pair.fenced then 2 else 0))) d
    dsimp only at ht
    rw [ht] at h1 h2
    have hp : t.pair = d.pair := by rw [h1]
    refine ⟨f, h1, fun _ _ g hg => ?_⟩
    rw [h2, hp]
    have hv : (if d.pair.fenced then 2 else 0) % 4 = if d.pair.fenced then 2 else 0 := by split <;> rfl
    rw [hv]
    generalize (if d.pair.fenced then 2 else 0) = v
    by_cases hm : g ∈ (List.range 6).filter (fun g => decide ((d.grp g).line ≠ v))
    · exact if_pos hm
    · rw [if_neg hm]
      by_contra z
      exact hm (List.mem_filter.mpr ⟨List.mem_range.mpr hg, by simpa using z⟩)

theorem setFence_spec (c : Cfg) (on : Bool) (d : Dyn) : ∀ t, setFence c on d = t → ∃ f, t = { d with fld := f, pair := { d.pair with fencing := on } } ∧
    (d.glb.st ≠ .boot → d.pwr.resetFrom.isSome = false → ∀ g, g < 6 → (t.grp g).line = if t.pair.fenced then 2 else 0) := by
  intro t ht
  obtain ⟨f, h1, h2⟩ := fenceLines_spec c { d with pair := { d.pair with fencing := on } } t ht
  exact ⟨f, h1, h2⟩

/-- A packet that fails its CRC. -/
theorem linkError_spec (c : Cfg) (d : Dyn) : ∀ u, linkError c d = u → Alike { u with pair := d.pair } d ∧ { u.pair with errs := d.pair.errs } = { d.pair with crcErr := satInc 16 d.pair.crcErr } ∧
      (let k := (d.pair.errs.filter (fun t => decide (d.ms < t + 1000))).length
       (k < 99 → u.flt = d.flt) ∧ (99 ≤ k → d.openCode 0x3000 [0x306B] = false → Opened d u 0x3000 0x306B 1 0 0 false false)) := by
  intro u hu
  unfold linkError at hu
  dsimp only at hu
  rw [List.length_append] at hu
  have e1 : ({ d with pair := { d.pair with crcErr := satInc 16 d.pair.crcErr, errs := (d.pair.errs.filter (fun t => decide (d.ms < t + 1000)) ++ [d.ms]).drop ((d.pair.errs.filter (fun t => decide (d.ms < t + 1000))).length + [d.ms].length - 100) } } : Dyn).flt = d.flt := rfl
  split at hu
  · next h =>
    unfold pairFault at hu
    have fs := fault_step { d with pair := { d.pair with crcErr := satInc 16 d.pair.crcErr, errs := (d.pair.errs.filter (fun t => decide (d.ms < t + 1000)) ++ [d.ms]).drop ((d.pair.errs.filter (fun t => decide (d.ms < t + 1000))).length + [d.ms].length - 100) } } c 0x3000 0x306B 1 0 0 false false
    have fo := fault_opened_after (d := d) (d' := { d with pair := { d.pair with crcErr := satInc 16 d.pair.crcErr, errs := (d.pair.errs.filter (fun t => decide (d.ms < t + 1000)) ++ [d.ms]).drop ((d.pair.errs.filter (fun t => decide (d.ms < t + 1000))).length + [d.ms].length - 100) } }) c 0x3000 0x306B 1 0 0 false false rfl rfl (by decide)
    rw [hu] at fs fo
    obtain ⟨f, i, y, z, k, e⟩ := fs
    refine ⟨by rw [e]; rfl, by rw [e], fun hk => ?_, fun _ _ => fo⟩
    simp only [List.length_cons, List.length_nil] at h
    omega
  · next h =>
    subst hu
    refine ⟨rfl, rfl, fun _ => rfl, fun hk ho => absurd ⟨?_, ?_⟩ h⟩
    · simp only [List.length_cons, List.length_nil]; omega
    · have : d.openCode 0x3000 [0x306B] = false := ho
      have w : ({ d with pair := { d.pair with crcErr := satInc 16 d.pair.crcErr, errs := (d.pair.errs.filter (fun t => decide (d.ms < t + 1000)) ++ [d.ms]).drop ((d.pair.errs.filter (fun t => decide (d.ms < t + 1000))).length + [d.ms].length - 100) } } : Dyn).openCode 0x3000 [0x306B] = false := ho
      simp [ho]

/-- A partner that is lost. -/
theorem partnerLost_spec (c : Cfg) (d : Dyn) : ∀ u, partnerLost c d = u → (Alike { u with pair := d.pair, fld := d.fld } d ∧
      (d.glb.st ≠ .boot → d.pwr.resetFrom.isSome = false → ∀ g, g < 6 → (u.grp g).line = if u.pair.fenced then 2 else 0)) ∧
    u.pair = { d.pair with state := 2, join := none, acceptPend := false, switchAt := none, wakeAt := none, imageOk := false, thread := if d.pair.thread = 1 then 3 else d.pair.thread, fencing := true } ∧
    Opened d u 0x3000 0x3060 2 0 0 false false := by
  intro u hu
  unfold partnerLost pairFault at hu
  dsimp only at hu
  obtain ⟨f, h1, h2⟩ := setFence_spec c true _ _ rfl
  rw [h1] at hu
  generalize hd1 : ({ d with fld := f, pair := { d.pair with state := 2, join := none, acceptPend := false, switchAt := none, wakeAt := none, imageOk := false, thread := if d.pair.thread = 1 then 3 else d.pair.thread, fencing := true } } : Dyn) = d1 at hu h1
  have fs := fault_step d1 c 0x3000 0x3060 2 0 0 false false
  have fo := fault_opened_after (d := d) (d' := d1) c 0x3000 0x3060 2 0 0 false false (by rw [← hd1]) (by rw [← hd1]) (by decide)
  have hu' : d1.fault c 0x3000 0x3060 2 0 0 false false = u := hu
  rw [hu'] at fs fo
  obtain ⟨f', i, y, z, k, e⟩ := fs
  refine ⟨⟨?_, fun g1 g2 g hg => ?_⟩, ?_, fo⟩
  · rw [e, ← hd1]; rfl
  · have l := h2 g1 g2 g hg
    rw [h1] at l
    rw [e]
    exact l
  · rw [e, ← hd1]

/-- The cartridge line starts its next transaction: the moisture side alone. -/
theorem ctgNext_only (c : Cfg) (n : Nat) (d : Dyn) : ∃ m, ctgNext c n d = { d with mst := m } := by
  unfold ctgNext
  dsimp only
  repeat' split
  all_goals exact ⟨_, rfl⟩

theorem ctgRead_only (c : Cfg) (n : Nat) (r : Bool) (d : Dyn) : ∃ m, ctgRead c n r d = { d with mst := m } := by
  unfold ctgRead
  dsimp only
  obtain ⟨m, h⟩ := ctgNext_only c n (d.setCtg n { d.ctg n with wantRead := true, state := if r then 1 else (d.ctg n).state })
  exact ⟨m, by rw [h]; rfl⟩

theorem setPending_only (c : Cfg) (b : Nat) (p : Nat → Bool) (d : Dyn) : ∃ a, setPending c b p d = { d with afe := a } := by
  unfold setPending
  extract_lets ks d1
  have h : ∃ a, d1 = { d with afe := a } := forEach_keeps (fun e : Dyn => ∃ a, e = { d with afe := a }) _ d _ (fun k e h => by obtain ⟨a, rfl⟩ := h; exact ⟨_, rfl⟩) ⟨d.afe, rfl⟩
  clear_value d1
  obtain ⟨a, rfl⟩ := h
  split
  · split
    · exact ⟨_, rfl⟩
    · exact ⟨a, rfl⟩
  · exact ⟨a, rfl⟩

/-- The CAN ports leave restricted operation (R499). -/
theorem canTakeover_spec (c : Cfg) (d : Dyn) : ∀ t, canTakeover c d = t → { t with can := d.can } = d ∧ ∀ q, q < 4 → (t.port q).tec = 0 ∧ (t.port q).rcv = 0 := by
  intro t ht
  unfold canTakeover at ht
  have one : ∀ (p : Nat) (d : Dyn), { canBegin c p (d.setPort p { d.port p with tec := 0, rcv := 0, busy := false }) with can := d.can } = d ∧
      (∀ q, q ≠ p → (canBegin c p (d.setPort p { d.port p with tec := 0, rcv := 0, busy := false })).port q = d.port q) ∧
      ((canBegin c p (d.setPort p { d.port p with tec := 0, rcv := 0, busy := false })).port p).tec = 0 ∧ ((canBegin c p (d.setPort p { d.port p with tec := 0, rcv := 0, busy := false })).port p).rcv = 0 := by
    intro p d
    obtain ⟨c1, c2, -, -, c5⟩ := canBegin_port c p (d.setPort p { d.port p with tec := 0, rcv := 0, busy := false }) _ rfl
    generalize canBegin c p (d.setPort p { d.port p with tec := 0, rcv := 0, busy := false }) = e at c1 c2 c5
    rw [setPort_same] at c5
    refine ⟨?_, fun q hq => (c2 q hq).trans (setPort_other _ _ _ _ hq), by have w := congrArg Port.tec c5; exact w, by have w := congrArg Port.rcv c5; exact w⟩
    have z := congrArg (fun x : Dyn => ({ x with can := d.can } : Dyn)) c1
    exact z
  have all : ∀ (l : List Nat) (d t : Dyn), forEach l d (fun p d => canBegin c p (d.setPort p { d.port p with tec := 0, rcv := 0, busy := false })) = t →
      { t with can := d.can } = d ∧ ∀ q, (q ∈ l ∨ ((d.port q).tec = 0 ∧ (d.port q).rcv = 0)) → (t.port q).tec = 0 ∧ (t.port q).rcv = 0 := by
    intro l
    induction l with
    | nil => intro d t ht; subst ht; exact ⟨rfl, fun q h => h.resolve_left (by simp)⟩
    | cons a l ih =>
      intro d t ht
      obtain ⟨o1, o2, o3, o4⟩ := one a d
      obtain ⟨i1, i2⟩ := ih _ t ht
      refine ⟨?_, fun q hq => i2 q ?_⟩
      · have z := congrArg (fun x : Dyn => ({ x with can := d.can } : Dyn)) i1
        exact Eq.trans z o1
      · by_cases h : q = a
        · subst h; exact Or.inr ⟨o3, o4⟩
        · rcases hq with hq | hq
          · exact Or.inl ((List.mem_cons.mp hq).resolve_left h)
          · rw [o2 q h]; exact Or.inr hq
  obtain ⟨a1, a2⟩ := all _ d t ht
  exact ⟨a1, fun q hq => a2 q (Or.inl (List.mem_range.mpr hq))⟩

theorem takeState_grp (c : Cfg) (k : Nat) (lv : Bool) (stamp ep : Nat) (d : Dyn) (g : Nat) : (takeState c k lv stamp ep d).grp g = d.grp g := by
  unfold takeState
  extract_lets x changed d1 d2
  rw [deliverDio_grp]
  have h1 : d1.grp g = d.grp g := by simp only [d1, clears_grp, setDch_grp]
  refine Eq.trans ?_ h1
  show (if changed = true then dioChange c k lv stamp ep d1 else d1).grp g = _
  split
  · unfold dioChange Dyn.eventAt
    dsimp only
    repeat' split
    all_goals rfl
  · rfl

/-- An input evaluated from the module's own samples: the field side, the guard terms and the books. -/
theorem ownInput_spec (c : Cfg) (k : Nat) (d : Dyn) : FGStep d (ownInput c k d) ∧ ∀ g, (ownInput c k d).grp g = d.grp g := by
  unfold ownInput
  dsimp only
  split
  · split
    · exact ⟨rfl, fun _ => rfl⟩
    · exact ⟨(take_spec c k _ _ _ d).1, fun g => takeState_grp c k _ _ _ d g⟩
  · exact ⟨FGStep.trans (e := d.setDch k { d.dch k with hasState := false }) rfl (deliverDio_step c k _).fg, fun g => by rw [deliverDio_grp, setDch_grp]⟩

/-- What taking the inputs leaves alone: the visits, the cells, the CAN ports, the digital inputs and the guard's terms change, nothing else (R499,
R558, R560). -/
theorem takeInputs_spec (s : State) : ∀ t, takeInputs s = t → t.c.reg.w = s.c.reg.w ∧ t.pending = s.pending ∧
    Alike { t.d with afe := s.d.afe, mst := s.d.mst, can := s.d.can, fld := s.d.fld, grd := s.d.grd } s.d ∧ (∀ g, t.d.grp g = s.d.grp g) ∧
    ∀ q, q < 4 → (t.d.port q).tec = 0 ∧ (t.d.port q).rcv = 0 := by
  intro t ht
  unfold takeInputs at ht
  extract_lets c bs d1 s1 d2 d3 at ht
  have h1 : ∃ a, d1 = { s.d with afe := a } := by
    refine forEach_keeps (fun e : Dyn => ∃ a, e = { s.d with afe := a }) _ s.d _ (fun b e ⟨a, ha⟩ => ?_) ⟨s.d.afe, rfl⟩
    obtain ⟨a', h'⟩ := setPending_only c b (fun k => c.descExc k != 0) (e.setBank b { e.bank b with visit := none, contOn := decide (c.contDescs b ≠ []), retryAt := none })
    exact ⟨a', h'.trans (by rw [ha]; rfl)⟩
  have h2 : Vis { s with d := d1 } s1 := forEach_keeps (Vis { s with d := d1 }) _ _ _ (fun b e he => he.trans (visitStart_vis b e)) (Vis.refl _)
  have h3 : ∃ m, d2 = { s1.d with mst := m } := by
    refine forEach_keeps (fun e : Dyn => ∃ m, e = { s1.d with mst := m }) _ s1.d _ (fun n e ⟨m, hm⟩ => ?_) ⟨s1.d.mst, rfl⟩
    dsimp only
    obtain ⟨m', h'⟩ := ctgRead_only c n false (e.setCell n { e.cell n with state := if ((e.cell n).sweeping || (e.cell n).got != []) && (e.cell n).state == 1 then 2 else (e.cell n).state, got := [], sweeping := false, dropSweep := false })
    exact ⟨m', h'.trans (by rw [hm]; rfl)⟩
  have h4 : FGStep d2 d3 ∧ ∀ g, d3.grp g = d2.grp g :=
    forEach_keeps (fun e : Dyn => FGStep d2 e ∧ ∀ g, e.grp g = d2.grp g) _ d2 _ (fun k e h => ⟨h.1.trans (ownInput_spec c k e).1, fun g => ((ownInput_spec c k e).2 g).trans (h.2 g)⟩) ⟨rfl, fun _ => rfl⟩
  clear_value d3 d2 s1 d1
  obtain ⟨a1, rfl⟩ := h1
  obtain ⟨v1, v2, v3, v4, ⟨a2, v5⟩, -⟩ := h2
  obtain ⟨m, rfl⟩ := h3
  obtain ⟨f1, f2⟩ := h4
  obtain ⟨k1, k2⟩ := canTakeover_spec s1.c d3 _ rfl
  generalize canTakeover s1.c d3 = e at ht k1 k2
  subst ht
  refine ⟨v1, v4, ?_, fun g => ?_, k2⟩
  · have z1 : ({ e with can := d3.can } : Dyn) = d3 := k1
    have z2 := congrArg (fun x : Dyn => ({ x with afe := s.d.afe, mst := s.d.mst, can := s.d.can, fld := s.d.fld, grd := s.d.grd } : Dyn).silent) z1
    have z3 := congrArg (fun x : Dyn => ({ x with afe := s.d.afe, mst := s.d.mst, can := s.d.can, fld := s.d.fld, grd := s.d.grd } : Dyn)) f1
    have z4 : (({ s1.d with mst := m } : Dyn)) = { s.d with afe := a2, mst := m } := by rw [v5]
    rw [z4] at z3
    exact Eq.trans z2 z3
  · have w : e.grp g = d3.grp g := by rw [← k1]; rfl
    rw [w, f2]
    show s1.d.grp g = _
    rw [v5]
    rfl

theorem FltStep.role {d e : Dyn} (h : FltStep d e) (r : Role) : FltStep (setRole r d) (setRole r e) := by
  obtain ⟨f, i, x, y, k, rfl⟩ := h
  unfold setRole Dyn.setIrq
  split
  · exact ⟨f, i, x, y, k, rfl⟩
  · exact ⟨f, i ||| 2 ^ 1, x, y, k, rfl⟩

theorem FltStep.fence {d e : Dyn} (h : FltStep d e) (f : Fld) (on : Bool) : FltStep { d with fld := f, pair := { d.pair with fencing := on } } { e with fld := f, pair := { e.pair with fencing := on } } := by
  obtain ⟨g, i, x, y, k, rfl⟩ := h
  exact ⟨g, i, x, y, k, rfl⟩

/-- The pair's registers at an entry to ACTIVE. -/
def Pair.entered (p : Pair) (frame cause : Nat) : Pair :=
  { p with takes := satInc 16 p.takes, takeCause := cause, takeFrame := frame % 2 ^ 32, claim := false, switchAt := none, wakeAt := none, missed := 0, stream := [], join := none, state := 2 }

theorem activeEntry_spec (frame cause : Nat) (d : Dyn) : FltStep { d with glb := { d.glb with role := .active }, pair := d.pair.entered frame cause } (activeEntry frame cause d) := by
  unfold activeEntry
  dsimp only
  have h := (clears_step { d with pair := d.pair.entered frame cause } 0x3000 [0x3066]).role .active
  refine FltStep.trans ?_ (h.trans (event_step _ _ _ _ _ _))
  unfold setRole Dyn.setIrq
  split
  · next q => exact ⟨d.flt, d.dp.irq, d.glb.haltCause, d.cfg.bootHalt, d.pwr.runCond, by rw [← q]⟩
  · exact ⟨d.flt, d.dp.irq ||| 2 ^ 1, d.glb.haltCause, d.cfg.bootHalt, d.pwr.runCond, rfl⟩

theorem threadEnds_spec (c : Cfg) (d : Dyn) : ∃ a, FltStep { d with arc := a, pair := { d.pair with thread := if d.pair.thread = 1 then 3 else d.pair.thread } } (threadEnds c d) := by
  unfold threadEnds
  split
  · next h =>
    refine ⟨{ d.arc with seq := max d.arc.seq d.pair.threadEnd }, ?_⟩
    exact fault_step _ _ _ _ _ _ _ _ _
  · next h =>
    refine ⟨d.arc, ?_⟩
    exact FltStep.refl d

theorem takeRole_spec (cause : Nat) (s : State) : ∀ t, takeRole cause s = t → t.c.reg.w = s.c.reg.w ∧ t.pending = s.pending ∧
    t.d.pair = { s.d.pair.entered (s.d.ms + 1) cause with fencing := true, thread := if s.d.pair.thread = 1 then 3 else s.d.pair.thread } ∧ t.d.glb.role = .active ∧ t.d.glb.st = s.d.glb.st ∧ t.d.tim = s.d.tim ∧
    (∀ q, q < 4 → (t.d.port q).tec = 0 ∧ (t.d.port q).rcv = 0) ∧
    (s.d.glb.st ≠ .boot → s.d.pwr.resetFrom.isSome = false → ∀ g, g < 6 → (t.d.grp g).line = if t.d.pair.fenced then 2 else 0) := by
  intro t ht
  unfold takeRole at ht
  dsimp only at ht
  have h0 := activeEntry_spec (s.d.ms + 1) cause s.d
  obtain ⟨f, h1, h2⟩ := setFence_spec s.c true (activeEntry (s.d.ms + 1) cause s.d) _ rfl
  generalize activeEntry (s.d.ms + 1) cause s.d = d0 at h0 h1 h2 ht
  obtain ⟨g, i, x, y, k, rfl⟩ := h0
  generalize setFence s.c true _ = d1 at h1 h2 ht
  have h3 : FltStep d1 (pairFault s.c 0x3060 2 0 0 false d1) := fault_step _ _ _ _ _ _ _ _ _
  generalize pairFault s.c 0x3060 2 0 0 false d1 = d2 at h3 ht
  obtain ⟨a, h4⟩ := threadEnds_spec s.c d2
  generalize threadEnds s.c d2 = d3 at h4 ht
  obtain ⟨t1, t2, t3, t5, t4⟩ := takeInputs_spec { s with d := d3 } t ht
  obtain ⟨b1, -, -, -, -, -, -, -, -, -, -, b12, b13, b14⟩ := Alike.blocks t3
  have c1 : t.d.tim = d3.tim := b1
  have c2 : t.d.pair = d3.pair := b12
  have c3 : t.d.glb.st = d3.glb.st := b13
  have c4 : t.d.glb.role = d3.glb.role := b14
  obtain ⟨g', i', x', y', k', rfl⟩ := h3
  obtain ⟨g'', i'', x'', y'', k'', rfl⟩ := h4
  have hp : t.d.pair = { s.d.pair.entered (s.d.ms + 1) cause with fencing := true, thread := if s.d.pair.thread = 1 then 3 else s.d.pair.thread } := by
    rw [c2, h1]; rfl
  refine ⟨t1, t2, hp, by rw [c4, h1], by rw [c3, h1], by rw [c1, h1], t4, fun q1 q2 g hg => ?_⟩
  have l := h2 q1 q2 g hg
  have e1 : t.d.grp g = d1.grp g := t5 g
  have e2 : t.d.pair.fenced = d1.pair.fenced := by rw [c2]; rfl
  rw [e1, e2]
  exact l

/-- A record that the standby raised enters the ledger. -/
theorem returnRecords_spec : ∀ (l : List (Nat × Nat × Nat × Nat × Nat)) (d : Dyn), ∃ f a, l.foldl (fun d q =>
      let k := (d.newRec q.2.1 q.1 q.2.2.1 q.2.2.2.1 q.2.2.2.2 false false)
      let d' : Dyn := { d with flt := { d.flt with seq := (d.flt.seq + 1) % 65536 } }
      d'.ledger 4 1 k.copy.bytes) d = { d with flt := f, arc := a } := by
  intro l
  induction l with
  | nil => exact fun d => ⟨d.flt, d.arc, rfl⟩
  | cons q l ih =>
    intro d
    rw [List.foldl_cons]
    dsimp only
    obtain ⟨a, h⟩ := ledger_arc { d with flt := { d.flt with seq := (d.flt.seq + 1) % 65536 } } 4 1 (d.newRec q.2.1 q.1 q.2.2.1 q.2.2.2.1 q.2.2.2.2 false false).copy.bytes
    rw [h]
    obtain ⟨f', a', h'⟩ := ih { d with flt := { d.flt with seq := (d.flt.seq + 1) % 65536 }, arc := a }
    exact ⟨f', a', h'⟩

theorem copyStart_active (c : Cfg) (d : Dyn) (h : d.glb.role = .active) : ∀ u, copyStart c d = u → ∃ f, u = { d with fld := f, pair := { d.pair with resyncs := satInc 16 d.pair.resyncs, imageOk := true, state := 3, fencing := true } } ∧
    (d.glb.st ≠ .boot → d.pwr.resetFrom.isSome = false → ∀ g, g < 6 → (u.grp g).line = if u.pair.fenced then 2 else 0) := by
  intro u hu
  unfold copyStart at hu
  dsimp only at hu
  rw [if_pos h] at hu
  obtain ⟨f, h1, h2⟩ := setFence_spec c true _ u hu
  exact ⟨f, h1, h2⟩

theorem copyStart_standby (c : Cfg) (d : Dyn) (h : d.glb.role ≠ .active) : copyStart c d = { d with pair := { d.pair with resyncs := satInc 16 d.pair.resyncs, state := 6 } } := by
  unfold copyStart
  dsimp only
  rw [if_neg h]
  rfl

/-- A seal that arrives intact. -/
theorem seal_spec (c : Cfg) (x : Seal) (d : Dyn) (h1 : d.glb.role = .standby) (h2 : d.pair.state ≠ 0) (h3 : x.crcOk = true) : ∀ u, sealReceived c x d = u →
    u.tim = d.tim.to (max x.acc (d.tim.acc - 2 ^ 48 / 500)) ∧ Alike { u with pair := d.pair, tim := d.tim } d ∧ u.pair.lastRx = some u.tim.us ∧ u.pair.f0 = u.ms ∧ u.pair.missed = 0 ∧ u.pair.wakeAt = none ∧
      u.pair.stream = d.pair.stream ++ x.items ∧
      (¬(d.pair.state = 7 ∨ d.pair.state = 8) → u.pair.state = d.pair.state) ∧ ((d.pair.state = 7 ∨ d.pair.state = 8) → x.agrees = true → u.pair.state = 7) ∧
      ((d.pair.state = 7 ∨ d.pair.state = 8) → x.agrees = false → u.pair.state = 6 ∧ u.pair.diverged = satInc 16 d.pair.diverged ∧ u.pair.resyncs = satInc 16 d.pair.resyncs ∧
        Opened { d with tim := u.tim } u 0x3000 0x3064 2 0 0 false false) ∧
      ((d.pair.state = 7 ∨ d.pair.state = 8) → x.hand ≠ 0 → u.pair.switchAt = some (u.ms + 1) ∧ u.pair.switchCause = x.hand) := by
  intro u hu
  unfold sealReceived at hu
  rw [if_neg (by intro q; rcases q with q | q; exact q h1; exact h2 q), if_neg (by simp [h3])] at hu
  unfold sealTime at hu
  dsimp only at hu
  generalize d.tim.to (max x.acc (d.tim.acc - 2 ^ 48 / 500)) = tm at hu
  have hand : (d.pair.state = 7 ∨ d.pair.state = 8) → x.hand ≠ 0 → (decide (x.hand ≠ 0) && (d.pair.state == 7 || d.pair.state == 8)) = true := by
    intro a b
    rcases a with a | a <;> simp [a, b]
  generalize hb : (decide (x.hand ≠ 0) && (d.pair.state == 7 || d.pair.state == 8)) = hd at hu hand
  by_cases hs : d.pair.state = 7 ∨ d.pair.state = 8
  · rw [if_pos hs] at hu
    by_cases ha : x.agrees = true
    · rw [if_pos ha] at hu
      subst hu
      refine ⟨rfl, rfl, rfl, rfl, rfl, rfl, rfl, fun h => absurd hs h, fun _ _ => rfl, fun _ h => (by rw [ha] at h; cases h), fun a b => ?_⟩
      rw [hand a b]
      exact ⟨rfl, rfl⟩
    · rw [if_neg ha] at hu
      let P : Pair := ({ d.pair with lastRx := some tm.us, missed := 0, f0 := tm.ms, wakeAt := none, present := true, sealed_ := true, stream := d.pair.stream ++ x.items, switchAt := if hd then some (tm.ms + 1) else d.pair.switchAt, switchCause := if hd then x.hand else d.pair.switchCause, diverged := satInc 16 d.pair.diverged } : Pair)
      have hf : ∃ g i y z k, u = { d with tim := tm, flt := g, dp := { d.dp with irq := i }, glb := { d.glb with haltCause := y }, cfg := { d.cfg with bootHalt := z }, pwr := { d.pwr with runCond := k }, pair := { P with resyncs := satInc 16 P.resyncs, state := 6 } } ∧ Opened { d with tim := tm } u 0x3000 0x3064 2 0 0 false false := by
        generalize he : ({ d with tim := tm, pair := P } : Dyn) = e
        have hu' : copyStart c (e.fault c 0x3000 0x3064 2 0 0 false false) = u := by rw [← he]; exact hu
        have fs := fault_step e c 0x3000 0x3064 2 0 0 false false
        have fo := fault_opened_after (d := { d with tim := tm }) (d' := e) c 0x3000 0x3064 2 0 0 false false (by rw [← he]) (by rw [← he]) (by decide)
        generalize e.fault c 0x3000 0x3064 2 0 0 false false = v at hu' fs fo
        obtain ⟨g, i, y, z, k, rfl⟩ := fs
        rw [copyStart_standby] at hu'
        · refine ⟨g, i, y, z, k, ?_, ?_⟩
          · rw [← hu', ← he]
          · rw [← hu']; exact fo
        · rw [← he]
          show d.glb.role ≠ .active
          rw [h1]; decide
      obtain ⟨g, i, y, z, k, e, fo⟩ := hf
      refine ⟨by rw [e], by rw [e]; rfl, by rw [e], by rw [e]; rfl, by rw [e], by rw [e], by rw [e], fun h => absurd hs h, fun _ h => absurd h ha, fun _ _ => ⟨by rw [e], by rw [e], by rw [e], ?_⟩, fun a b => ?_⟩
      · have : u.tim = tm := by rw [e]
        rw [this]; exact fo
      · rw [e]
        show (if hd = true then some (tm.ms + 1) else d.pair.switchAt) = _ ∧ (if hd = true then x.hand else d.pair.switchCause) = _
        rw [if_pos (hand a b), if_pos (hand a b)]
        exact ⟨rfl, rfl⟩
  · rw [if_neg hs] at hu
    subst hu
    exact ⟨rfl, rfl, rfl, rfl, rfl, rfl, rfl, fun _ => rfl, fun h => absurd h hs, fun h => absurd h hs, fun h => absurd h hs⟩

theorem return_spec (c : Cfg) (r : ReturnFrame) (d : Dyn) (h1 : d.glb.role = .active) (h2 : d.pair.state = 3 ∨ d.pair.state = 4) (h3 : r.crcOk = true) : ∀ u, returnFrameReceived c r d = u →
    Alike { u with pair := d.pair, arc := d.arc, fld := d.fld } d ∧ u.pair.lastRx = some d.tim.us ∧ u.pair.missed = 0 ∧
        u.pair.wakeAt = none ∧ (u.pair.partnerHalt = r.halted ∧ u.pair.partnerDorm = r.dorm) ∧ (d.pair.state = 3 ∨ (r.halted = false ∧ r.diverged = false) → u.pair.state = d.pair.state ∧ u.pair.fencing = d.pair.fencing) ∧
        (d.pair.state = 4 → r.halted = true → u.pair.state = 2 ∧ u.pair.fencing = true) ∧ (d.pair.state = 4 → r.halted = false → r.diverged = true → u.pair.state = 3 ∧ u.pair.fencing = true) := by
  intro u hu
  unfold returnFrameReceived at hu
  rw [if_neg (by intro q; rcases q with q | q; exact q h1; rcases h2 with h | h; exact q.1 h; exact q.2 h), if_neg (by simp [h3])] at hu
  dsimp only at hu
  obtain ⟨f, a, h⟩ := returnRecords_spec r.records { d with pair := { d.pair with lastRx := some d.tim.us, missed := 0, wakeAt := none, partnerHalt := r.halted, partnerDorm := r.dorm, present := true } }
  dsimp only at h
  rw [h] at hu
  clear h
  by_cases c1 : r.halted = true ∧ d.pair.state = 4
  · rw [if_pos c1] at hu
    obtain ⟨⟨k1, -⟩, k2, -⟩ := partnerLost_spec c _ u hu
    refine ⟨?_, by rw [k2], by rw [k2], by rw [k2], ⟨by rw [k2], by rw [k2]⟩, fun q => ?_, fun _ _ => ⟨by rw [k2], by rw [k2]⟩, fun _ q => (by rw [c1.1] at q; cases q)⟩
    · unfold Alike at k1 ⊢
      have w := congrArg (fun z : Dyn => ({ z with pair := d.pair, arc := d.arc } : Dyn)) k1
      exact w
    · rcases q with q | q
      · rw [c1.2] at q; exact absurd q (by decide)
      · rw [c1.1] at q; exact absurd q.1 (by decide)
  · rw [if_neg c1] at hu
    by_cases c2 : r.diverged = true ∧ d.pair.state = 4
    · rw [if_pos c2] at hu
      obtain ⟨f', k1, -⟩ := copyStart_active c { d with flt := f, arc := a, pair := { d.pair with lastRx := some d.tim.us, missed := 0, wakeAt := none, partnerHalt := r.halted, partnerDorm := r.dorm, present := true, diverged := satInc 16 d.pair.diverged } } h1 u hu
      refine ⟨by rw [k1]; rfl, by rw [k1], by rw [k1], by rw [k1], ⟨by rw [k1], by rw [k1]⟩, fun q => ?_, fun q q' => absurd ⟨q', q⟩ c1, fun _ _ _ => ⟨by rw [k1], by rw [k1]⟩⟩
      rcases q with q | q
      · rw [c2.2] at q; exact absurd q (by decide)
      · rw [c2.1] at q; exact absurd q.2 (by decide)
    · rw [if_neg c2] at hu
      subst hu
      exact ⟨rfl, rfl, rfl, rfl, ⟨rfl, rfl⟩, fun _ => ⟨rfl, rfl⟩, fun q q' => absurd ⟨q', q⟩ c1, fun q _ q' => absurd ⟨q', q⟩ c2⟩

theorem seekStart_eq (d : Dyn) : seekStart d = setRole .standby { d with pair := { d.pair with state := 1, seekAt := d.ms, join := none, acceptPend := false, missed := 0, stream := [] } } := by
  unfold seekStart setRole
  dsimp only
  split
  · next h => exact (if_pos h).symm
  · next h => exact (if_neg h).symm

theorem threadLeft_eq (d : Dyn) (h : d.glb.role = .active) : threadLeft d = { d with pair := { d.pair with thread := if d.pair.thread = 1 then 3 else d.pair.thread } } := by
  unfold threadLeft
  split
  · next q => rw [if_pos q.2]
  · next q => rw [if_neg (fun w => q ⟨h, w⟩)]

/-- Giving the role up: no source and no sweep runs on, and no calibration or read waits (R159, R230). -/
theorem standDown_spec (p : Pair) (d : Dyn) (h : d.glb.role = .active) : ∀ u, cellsOff (sourcesOff (setRole .standby { d with pair := p })) = u →
    Alike { u with glb := d.glb, pair := d.pair, afe := d.afe, mst := d.mst } d ∧ u.glb = { d.glb with role := .standby } ∧ u.pair = p ∧ u.dp.irq.testBit 1 = true ∧
    (∀ b, u.bank b = { d.bank b with contOn := false, retryAt := none }) ∧
    ∀ n, u.cell n = { d.cell n with sweeping := false, dropSweep := false, got := [], cal := none, calClear := false } := by
  intro u hu
  subst hu
  have hs : setRole .standby { d with pair := p } = { d with pair := p, glb := { d.glb with role := .standby }, dp := { d.dp with irq := d.dp.irq ||| 2 ^ 1 } } := by
    unfold setRole
    rw [if_neg (by show ¬ d.glb.role = .standby; rw [h]; decide)]
    rfl
  rw [hs]
  refine ⟨rfl, rfl, rfl, ?_, fun b => ?_, fun n => ?_⟩
  · show (d.dp.irq ||| 2 ^ 1).testBit 1 = true
    rw [Nat.testBit_or, show Nat.testBit (2 ^ 1) 1 = true by decide, Bool.or_true]
  · exact tget_map Bank.empty (fun y => { y with contOn := false, retryAt := none }) rfl d.afe.banks b
  · show tget Cell.empty ((d.mst.cells.map _).map _) n = _
    refine (tget_map Cell.empty (fun y => { y with cal := none, calClear := false }) rfl _ n).trans ?_
    have k := tget_map Cell.empty (fun y => { y with sweeping := false, dropSweep := false, got := [] }) rfl d.mst.cells n
    rw [k]
    rfl

theorem setRole_pair (r : Role) (p : Pair) (d : Dyn) : ({ setRole r d with pair := p } : Dyn) = setRole r { d with pair := p } := by
  unfold setRole Dyn.setIrq
  dsimp only
  split <;> rfl

theorem setRole_fields (r : Role) (d : Dyn) : (setRole r d).pair = d.pair ∧ (setRole r d).ms = d.ms := by
  unfold setRole Dyn.setIrq
  split <;> exact ⟨rfl, rfl⟩

/-- The pair of a module that stands by after a hand-over, or withdraws (R556, R586). -/
def Pair.leaves (p : Pair) (wd : Bool) (ms : Nat) : Pair :=
  let q : Pair := { p with switchAt := none, thread := if p.thread = 1 then 3 else p.thread }
  if wd then { q with state := 9, seekAt := ms, claim := false, join := none, acceptPend := false } else { q with state := 7, missed := 0 }

theorem handover_active (s : State) (t0 : Nat) (h0 : s.d.pair.switchAt = some t0) (h : t0 ≤ s.d.ms + 1) (ha : s.d.glb.role = .active) :
    handover s = { s with d := cellsOff (sourcesOff (setRole .standby { s.d with pair := s.d.pair.leaves (decide (s.d.pair.switchCause = 3)) s.d.ms })) } := by
  unfold handover
  rw [h0]
  dsimp only
  rw [if_pos h]
  by_cases hc : s.d.pair.switchCause = 3
  · rw [if_pos ⟨ha, hc⟩, hc]
    unfold withdrawn
    rw [threadLeft_eq s.d ha]
    dsimp only
    obtain ⟨e1, e2⟩ := setRole_fields .standby (pairState 9 { s.d with pair := { s.d.pair with thread := if s.d.pair.thread = 1 then 3 else s.d.pair.thread } })
    rw [e1, e2, setRole_pair]
    rfl
  · rw [if_neg (fun q => hc q.2), if_pos ha, decide_eq_false hc, threadLeft_eq s.d ha]
    dsimp only
    obtain ⟨e1, -⟩ := setRole_fields .standby (pairState 7 { s.d with pair := { s.d.pair with thread := if s.d.pair.thread = 1 then 3 else s.d.pair.thread } })
    rw [e1, setRole_pair]
    rfl

/-- Records that the threads of the ACTIVE bring one after another (R550, R564). -/
theorem packets_spec : ∀ (l : List MirrorRec) (d : Dyn), ∃ a p, l.foldl (fun d r =>
      if d.pair.threadSeq ≤ r.seq then
        let d1 := mirrorRec r d
        { d1 with pair := { d1.pair with threadSeq := r.seq + 1, threadEnd := max d1.pair.threadEnd (r.seq + 1), done := d1.pair.done + 32 + r.body.length } }
      else d) d = { d with arc := a, pair := p } ∧ d.pair.threadSeq ≤ p.threadSeq ∧ ∀ r ∈ l, r.seq < p.threadSeq := by
  intro l
  induction l with
  | nil => exact fun d => ⟨d.arc, d.pair, rfl, Nat.le_refl _, fun r h => by cases h⟩
  | cons r l ih =>
    intro d
    rw [List.foldl_cons]
    by_cases h : d.pair.threadSeq ≤ r.seq
    · rw [if_pos h]
      dsimp only
      obtain ⟨a, ha⟩ : ∃ a, mirrorRec r d = { d with arc := a } := ledgerRec_arc _ _
      rw [ha]
      obtain ⟨a', p', h', k, m⟩ := ih { d with arc := a, pair := { d.pair with threadSeq := r.seq + 1, threadEnd := max d.pair.threadEnd (r.seq + 1), done := d.pair.done + 32 + r.body.length } }
      have k' : r.seq + 1 ≤ p'.threadSeq := k
      refine ⟨a', p', h', by omega, fun q hq => ?_⟩
      rcases List.mem_cons.mp hq with w | w
      · rw [w]; omega
      · exact m q w
    · rw [if_neg h]
      obtain ⟨a', p', h', k, m⟩ := ih d
      refine ⟨a', p', h', k, fun q hq => ?_⟩
      rcases List.mem_cons.mp hq with w | w
      · rw [w]; omega
      · exact m q w

end Sys2Proof.Machine
end

