-- ==== Sys2Proof/Laws/JoinLaws.lean ====
section
/-! SUPPORT. What joining, copying and re-threading can do in a pair (R552 to R565). -/

namespace Sys2Proof.Machine

open Sys2Proof

theorem seatCheck_spec (c : Cfg) (seat : Bool) (d : Dyn) : ∀ q, seatCheck c seat d = q → FltStep d q.1 ∧ (seat = d.pair.seat → q.2 = true ∧ (d.openCode 0x3000 [0x3065] = false → Opened d q.1 0x3000 0x3065 2 0 0 false false)) ∧
    (seat ≠ d.pair.seat → q.2 = false ∧ Closed d q.1 0x3000 [0x3065] ∧ (d.flt.find 0x3000 = none → q.1 = d)) := by
  intro q hq
  unfold seatCheck at hq
  by_cases h : seat = d.pair.seat
  · rw [if_pos h] at hq
    subst hq
    refine ⟨?_, fun _ => ⟨rfl, fun ho => ?_⟩, fun n => absurd h n⟩
    · show FltStep d (if d.openCode 0x3000 [0x3065] then d else pairFault c 0x3065 2 0 0 false d)
      split
      · exact FltStep.refl d
      · exact fault_step _ _ _ _ _ _ _ _ _
    · show Opened d (if d.openCode 0x3000 [0x3065] then d else pairFault c 0x3065 2 0 0 false d) 0x3000 0x3065 2 0 0 false false
      rw [if_neg (by rw [ho]; decide)]
      exact fault_opened d c 0x3000 0x3065 2 0 0 false false (by decide)
  · rw [if_neg h] at hq
    subst hq
    refine ⟨clears_step _ _ _, fun n => absurd n h, fun _ => ⟨rfl, clears_closed _ _ _, fun hn => ?_⟩⟩
    show d.clears 0x3000 [0x3065] = d
    unfold Dyn.clears
    rw [hn]

/-- Withdrawing: the module stands by, its sources are off and no sweep runs on (R556). -/
theorem withdrawn_spec (d : Dyn) : ∀ u, withdrawn d = u → (∃ r i a m, u = { d with glb := { d.glb with role := r }, dp := { d.dp with irq := i }, afe := a, mst := m, pair := u.pair }) ∧
    u.glb.role = .standby ∧ u.pair = { d.pair with state := 9, seekAt := d.ms, claim := false, join := none, acceptPend := false, switchAt := none, thread := if d.glb.role = .active ∧ d.pair.thread = 1 then 3 else d.pair.thread } := by
  intro u hu
  have ht : threadLeft d = { d with pair := { d.pair with thread := if d.glb.role = .active ∧ d.pair.thread = 1 then 3 else d.pair.thread } } := by
    unfold threadLeft
    by_cases h : d.glb.role = .active ∧ d.pair.thread = 1
    · simp only [if_pos h]
    · simp only [if_neg h]
  have hs : ∀ e : Dyn, ∃ i, setRole .standby e = { e with glb := { e.glb with role := .standby }, dp := { e.dp with irq := i } } := by
    intro e
    unfold setRole Dyn.setIrq
    split
    · next h => exact ⟨e.dp.irq, by rw [← h]⟩
    · exact ⟨e.dp.irq ||| 2 ^ 1, rfl⟩
  unfold withdrawn at hu
  rw [ht] at hu
  obtain ⟨i, hi⟩ := hs (pairState 9 { d with pair := { d.pair with thread := if d.glb.role = .active ∧ d.pair.thread = 1 then 3 else d.pair.thread } })
  dsimp only at hu
  rw [hi] at hu
  subst hu
  exact ⟨⟨.standby, i, _, _, rfl⟩, rfl, rfl⟩

theorem FltStep.pairUp {d e : Dyn} (h : FltStep d e) : Alike { e with pair := d.pair } d ∧ e.pair = d.pair ∧ e.glb.role = d.glb.role ∧ e.glb.st = d.glb.st ∧ e.tim = d.tim ∧ e.cfg.digest = d.cfg.digest ∧ e.pwr.resetFrom = d.pwr.resetFrom := by
  obtain ⟨f, i, x, y, k, rfl⟩ := h
  exact ⟨rfl, rfl, rfl, rfl, rfl, rfl, rfl⟩

/-- The other fields of a step in the books of the fault manager, under another pair. -/
theorem FltStep.withPair {d e : Dyn} (h : FltStep d e) (p q : Pair) : Alike { e with pair := q } { d with pair := q } ∧ Alike { e with pair := p } { d with pair := p } := by
  obtain ⟨f, i, x, y, k, rfl⟩ := h
  exact ⟨rfl, rfl⟩

theorem answer_spec (c : Cfg) (a : RoleAnswer) (d : Dyn) (h : (d.pair.state = 1 ∧ d.pair.claim = false) ∨ d.pair.state = 5) : ∀ u, partnerAnswer c a d = u →
    Alike { u with pair := d.pair, fld := d.fld, afe := d.afe, mst := d.mst, glb := { u.glb with role := d.glb.role } } d ∧ u.pair.present = true ∧ u.pair.pid = a.id % 2 ^ 64 ∧
       (a.seat = d.pair.seat → d.openCode 0x3000 [0x3065] = false → Opened d u 0x3000 0x3065 2 0 0 false false) ∧ (a.seat ≠ d.pair.seat → Closed d u 0x3000 [0x3065]) ∧
       (a.active = true ∨ d.pair.state = 5 → (a.seat = d.pair.seat → u.pair.state = 9 ∧ u.glb.role = .standby ∧ u.pair.claim = false) ∧ (a.seat ≠ d.pair.seat → u.pair.state = (if a.hold then 5 else 6) ∧ u.glb.role = d.glb.role)) ∧
       (a.active = false → d.pair.state = 1 → (d.pair.seat = true → u.pair.claim = true ∧ u.pair.fencing = true ∧ u.pair.state = 1 ∧
           (d.glb.st ≠ .boot → d.pwr.resetFrom.isSome = false → ∀ g, g < 6 → (u.grp g).line = if u.pair.fenced then 2 else 0)) ∧
         (d.pair.seat = false → a.seat = false → u.pair.state = 9 ∧ u.glb.role = .standby) ∧ (d.pair.seat = false → a.seat = true → u.pair.state = 6)) := by
  intro u hu
  unfold partnerAnswer at hu
  rw [if_pos (by rcases h with h | h; exact Or.inl ⟨h.1, by simp [h.2]⟩; exact Or.inr h)] at hu
  dsimp only at hu
  obtain ⟨s1, s2, s3⟩ := seatCheck_spec c a.seat { d with pair := { d.pair with present := true, pid := a.id % 2 ^ 64 } } _ rfl
  generalize seatCheck c a.seat { d with pair := { d.pair with present := true, pid := a.id % 2 ^ 64 } } = q at hu s1 s2 s3
  obtain ⟨d1, ok⟩ := q
  dsimp only at hu s1 s2 s3
  obtain ⟨f, i, x, y, k, rfl⟩ := s1
  have o : ∀ v : Dyn, v.flt = f → (a.seat = d.pair.seat → d.openCode 0x3000 [0x3065] = false → Opened d v 0x3000 0x3065 2 0 0 false false) ∧ (a.seat ≠ d.pair.seat → Closed d v 0x3000 [0x3065]) := by
    intro v hv
    refine ⟨fun e ho => ?_, fun e => Closed.of (s3 e).2.1 rfl hv⟩
    have := (s2 e).2 ho
    unfold Opened at this ⊢
    rw [hv]
    exact this
  by_cases c1 : a.active = true ∨ d.pair.state = 5
  · rw [if_pos c1] at hu
    have c2 : ∀ P : Prop, a.active = false → d.pair.state = 1 → P := by
      intro P h1 h2
      rcases c1 with c1 | c1
      · rw [h1] at c1; cases c1
      · rw [h2] at c1; exact absurd c1 (by decide)
    by_cases e : a.seat = d.pair.seat
    · rw [if_pos (s2 e).1] at hu
      obtain ⟨⟨r', i', a', m', w1⟩, w2, w3⟩ := withdrawn_spec _ u hu
      have wf : u.flt = f := by rw [w1]
      exact ⟨by rw [w1]; rfl, by rw [w3], by rw [w3], (o _ wf).1, (o _ wf).2, fun _ => ⟨fun _ => ⟨by rw [w3], w2, by rw [w3]⟩, fun n => absurd e n⟩, fun h1 h2 => c2 _ h1 h2⟩
    · rw [if_neg (by rw [(s3 e).1]; decide)] at hu
      subst hu
      exact ⟨rfl, rfl, rfl, (o _ rfl).1, (o _ rfl).2, fun _ => ⟨fun n => absurd n e, fun _ => ⟨rfl, rfl⟩⟩, fun h1 h2 => c2 _ h1 h2⟩
  · rw [if_neg c1] at hu
    by_cases e1 : d.pair.seat = true
    · rw [if_pos e1] at hu
      unfold claimStart at hu
      obtain ⟨f', k1, k2⟩ := setFence_spec c true _ u hu
      have kf : u.flt = f := by rw [k1]
      exact ⟨by rw [k1]; rfl, by rw [k1], by rw [k1], (o _ kf).1, (o _ kf).2, fun n => absurd n c1, fun _ h2 => ⟨fun _ => ⟨by rw [k1], by rw [k1], by rw [k1]; exact h2, k2⟩, fun n => (by rw [e1] at n; cases n), fun n => (by rw [e1] at n; cases n)⟩⟩
    · have e1' : d.pair.seat = false := Bool.eq_false_iff.mpr e1
      rw [if_neg e1] at hu
      by_cases e : a.seat = d.pair.seat
      · rw [if_pos (s2 e).1] at hu
        obtain ⟨⟨r', i', a', m', w1⟩, w2, w3⟩ := withdrawn_spec _ u hu
        have wf : u.flt = f := by rw [w1]
        exact ⟨by rw [w1]; rfl, by rw [w3], by rw [w3], (o _ wf).1, (o _ wf).2, fun n => absurd n c1, fun _ _ => ⟨fun n => absurd n e1, fun _ _ => ⟨by rw [w3], w2⟩, fun _ n => (by rw [e, e1'] at n; cases n)⟩⟩
      · rw [if_neg (by rw [(s3 e).1]; decide)] at hu
        subst hu
        exact ⟨rfl, rfl, rfl, (o _ rfl).1, (o _ rfl).2, fun n => absurd n c1, fun _ _ => ⟨fun n => absurd n e1, fun _ n => absurd (n.trans e1'.symm) e, fun _ _ => rfl⟩⟩

/-- An admission: the dynamic state is copied where the images agree. -/
theorem letIn_spec (c : Cfg) (j : JoinReport) (d : Dyn) (h : d.glb.role = .active) : ∀ u, letIn c j d = u → Alike { u with pair := d.pair, fld := d.fld } d ∧ u.pair.join = some j ∧ u.pair.acceptPend = false ∧ u.pair.missed = 0 ∧
    u.pair.present = d.pair.present ∧ u.pair.pid = d.pair.pid ∧ u.pair.cmdResult = d.pair.cmdResult ∧ u.pair.accepted = d.pair.accepted ∧
    (j.digest = d.cfg.digest → u.pair.state = 3 ∧ u.pair.imageOk = true ∧ u.pair.fencing = true ∧ u.pair.resyncs = satInc 16 d.pair.resyncs ∧
      (d.glb.st ≠ .boot → d.pwr.resetFrom.isSome = false → ∀ g, g < 6 → (u.grp g).line = if u.pair.fenced then 2 else 0)) ∧
    (j.digest ≠ d.cfg.digest → u.pair.state = 3 ∧ u.pair.imageOk = false ∧ u.pair.fencing = d.pair.fencing) := by
  intro u hu
  unfold letIn at hu
  have s1 := clears_step d 0x3000 [0x3062, 0x3063]
  dsimp only at hu
  generalize d.clears 0x3000 [0x3062, 0x3063] = d1 at hu s1
  obtain ⟨f, i, x, y, k, rfl⟩ := s1
  by_cases e : j.digest = d.cfg.digest
  · rw [if_pos e] at hu
    obtain ⟨f', k1, k2⟩ := copyStart_active c _ (by exact h) u hu
    exact ⟨by rw [k1]; rfl, by rw [k1], by rw [k1], by rw [k1], by rw [k1], by rw [k1], by rw [k1], by rw [k1], fun _ => ⟨by rw [k1], by rw [k1], by rw [k1], by rw [k1], k2⟩, fun n => absurd e n⟩
  · rw [if_neg e] at hu
    subst hu
    exact ⟨rfl, rfl, rfl, rfl, rfl, rfl, rfl, rfl, fun n => absurd n e, fun _ => ⟨rfl, rfl, rfl⟩⟩

theorem FltStep.copies {d e : Dyn} (h : FltStep d e) : e.pair = d.pair ∧ (∀ g, e.grp g = d.grp g) ∧ ∀ p f, Alike { e with pair := p, fld := f } { d with pair := p, fld := f } := by
  obtain ⟨f, i, x, y, k, rfl⟩ := h
  exact ⟨rfl, fun _ => rfl, fun _ _ => rfl⟩

theorem find_none_clears (d : Dyn) (src : Nat) (l : List Nat) (h : d.flt.find src = none) : d.clears src l = d := by
  unfold Dyn.clears
  rw [h]

theorem join_spec (c : Cfg) (j : JoinReport) (d : Dyn) (h1 : d.glb.role = .active) (h2 : d.pair.state = 2 ∨ d.pair.state = 3) : ∀ u, partnerJoin c j d = u →
    Alike { u with pair := d.pair, fld := d.fld } d ∧ u.pair.present = true ∧ u.pair.pid = j.id % 2 ^ 64 ∧
       (j.seat = d.pair.seat → u.pair.state = 2 ∧ (d.openCode 0x3000 [0x3065] = false → Opened d u 0x3000 0x3065 2 0 0 false false)) ∧
       (j.seat ≠ d.pair.seat → j.variant % 65536 ≠ c.fx.word → u.pair.state = 2 ∧ (d.flt.find 0x3000 = none → Opened d u 0x3000 0x3063 1 0 0 false false)) ∧
       (j.seat ≠ d.pair.seat → j.variant % 65536 = c.fx.word → (j.id ≠ 0 ∧ ((j.id ≠ c.fx.id ∧ (j.id = c.known 0 ∨ j.id = c.known 1)) ∨ d.pair.accepted.contains j.id = true)) →
         u.pair.join = some j ∧ u.pair.acceptPend = false ∧ u.pair.missed = 0 ∧
         (j.digest = d.cfg.digest → u.pair.state = 3 ∧ u.pair.imageOk = true ∧ u.pair.fencing = true ∧ u.pair.resyncs = satInc 16 d.pair.resyncs ∧
           (d.glb.st ≠ .boot → d.pwr.resetFrom.isSome = false → ∀ g, g < 6 → (u.grp g).line = if u.pair.fenced then 2 else 0)) ∧
         (j.digest ≠ d.cfg.digest → u.pair.state = 3 ∧ u.pair.imageOk = false ∧ u.pair.fencing = d.pair.fencing)) ∧
       (j.seat ≠ d.pair.seat → j.variant % 65536 = c.fx.word → ¬(j.id ≠ 0 ∧ ((j.id ≠ c.fx.id ∧ (j.id = c.known 0 ∨ j.id = c.known 1)) ∨ d.pair.accepted.contains j.id = true)) →
         u.pair.state = 3 ∧ u.pair.acceptPend = true ∧ u.pair.join = some j ∧
         (d.flt.find 0x3000 = none → Opened d u 0x3000 0x3062 1 (j.id % 2 ^ 32) (j.id / 2 ^ 32 % 2 ^ 32) false false)) := by
  intro u hu
  unfold partnerJoin at hu
  rw [if_pos ⟨h1, h2⟩] at hu
  dsimp only at hu
  obtain ⟨s1, s2, s3⟩ := seatCheck_spec c j.seat { d with pair := { d.pair with present := true, pid := j.id % 2 ^ 64 } } _ rfl
  generalize seatCheck c j.seat { d with pair := { d.pair with present := true, pid := j.id % 2 ^ 64 } } = q at hu s1 s2 s3
  obtain ⟨d1, ok⟩ := q
  dsimp only at hu s1 s2 s3
  by_cases e : j.seat = d.pair.seat
  · rw [if_pos (s2 e).1] at hu
    have so := (s2 e).2
    obtain ⟨f, i, x, y, k, rfl⟩ := s1
    subst hu
    exact ⟨rfl, rfl, rfl, fun _ => ⟨rfl, so⟩, fun n => absurd e n, fun n => absurd e n, fun n => absurd e n⟩
  · rw [if_neg (by rw [(s3 e).1]; decide)] at hu
    have sn : d.flt.find 0x3000 = none → d1 = { d with pair := { d.pair with present := true, pid := j.id % 2 ^ 64 } } := (s3 e).2.2
    by_cases e1 : j.variant % 65536 ≠ c.fx.word
    · rw [if_pos e1] at hu
      have fs := fault_step (pairState 2 d1) c 0x3000 0x3063 1 0 0 false false
      have fo : d.flt.find 0x3000 = none → Opened d u 0x3000 0x3063 1 0 0 false false := by
        intro hn
        rw [← hu, sn hn]
        exact fault_opened_after (d := d) c 0x3000 0x3063 1 0 0 false false rfl rfl (by decide)
      have hu' : (pairState 2 d1).fault c 0x3000 0x3063 1 0 0 false false = u := hu
      rw [hu'] at fs
      obtain ⟨f, i, x, y, k, rfl⟩ := s1
      obtain ⟨k1, -, k3⟩ := fs.copies
      exact ⟨k3 d.pair d.fld, by rw [k1]; rfl, by rw [k1]; rfl, fun n => absurd n e, fun _ _ => ⟨by rw [k1]; rfl, fo⟩, fun _ n => absurd n e1, fun _ n => absurd n e1⟩
    · rw [if_neg e1] at hu
      by_cases e2 : j.id ≠ 0 ∧ ((j.id ≠ c.fx.id ∧ (j.id = c.known 0 ∨ j.id = c.known 1)) ∨ d.pair.accepted.contains j.id = true)
      · rw [if_pos e2] at hu
        obtain ⟨f, i, x, y, k, rfl⟩ := s1
        obtain ⟨l1, l2, l3, l4, l5, l6, l7, l8, l9, l10⟩ := letIn_spec c j _ (by exact h1) u hu
        refine ⟨?_, l5, l6, fun n => absurd n e, fun _ n => absurd n e1, fun _ _ _ => ⟨l2, l3, l4, l9, l10⟩, fun _ _ n => absurd e2 n⟩
        have w := congrArg (fun z : Dyn => ({ z with pair := d.pair } : Dyn)) l1
        exact w
      · rw [if_neg e2] at hu
        have fs := fault_step { d1 with pair := { d1.pair with join := some j, acceptPend := true, state := 3 } } c 0x3000 0x3062 1 (j.id % 2 ^ 32) (j.id / 2 ^ 32 % 2 ^ 32) false false
        have fo : d.flt.find 0x3000 = none → Opened d u 0x3000 0x3062 1 (j.id % 2 ^ 32) (j.id / 2 ^ 32 % 2 ^ 32) false false := by
          intro hn
          rw [← hu, sn hn]
          exact fault_opened_after (d := d) c 0x3000 0x3062 1 (j.id % 2 ^ 32) (j.id / 2 ^ 32 % 2 ^ 32) false false rfl rfl (by decide)
        have hu' : ({ d1 with pair := { d1.pair with join := some j, acceptPend := true, state := 3 } } : Dyn).fault c 0x3000 0x3062 1 (j.id % 2 ^ 32) (j.id / 2 ^ 32 % 2 ^ 32) false false = u := hu
        rw [hu'] at fs
        obtain ⟨f, i, x, y, k, rfl⟩ := s1
        obtain ⟨k1, -, k3⟩ := fs.copies
        exact ⟨k3 d.pair d.fld, by rw [k1], by rw [k1], fun n => absurd n e, fun _ n => absurd n e1, fun _ _ n => absurd n e2, fun _ _ _ => ⟨by rw [k1], by rw [k1], by rw [k1], fo⟩⟩

theorem reject_spec (c : Cfg) (d : Dyn) (hs : d.standby = false) (h : d.pair.acceptPend = true) : ∀ u, pairReject c d = u → Alike { u with pair := d.pair } d ∧
    u.pair = { d.pair with cmdResult := 0, acceptPend := false, join := none, state := 2 } ∧ (d.flt.find 0x3000 = none → Opened d u 0x3000 0x3063 1 0 0 false false) := by
  intro u hu
  unfold pairReject at hu
  rw [if_neg (by rw [hs]; decide), if_pos h] at hu
  dsimp only at hu
  have s1 := clears_step (pairResult 0 d) 0x3000 [0x3062]
  have sn : d.flt.find 0x3000 = none → (pairResult 0 d).clears 0x3000 [0x3062] = pairResult 0 d := fun hn => find_none_clears _ _ _ hn
  generalize (pairResult 0 d).clears 0x3000 [0x3062] = d1 at hu s1 sn
  have fs := fault_step { d1 with pair := { d1.pair with acceptPend := false, join := none, state := 2 } } c 0x3000 0x3063 1 0 0 false false
  have fo : d.flt.find 0x3000 = none → Opened d u 0x3000 0x3063 1 0 0 false false := by
    intro hn
    rw [← hu, sn hn]
    exact fault_opened_after (d := d) c 0x3000 0x3063 1 0 0 false false rfl rfl (by decide)
  have hu' : ({ d1 with pair := { d1.pair with acceptPend := false, join := none, state := 2 } } : Dyn).fault c 0x3000 0x3063 1 0 0 false false = u := hu
  rw [hu'] at fs
  obtain ⟨f, i, x, y, k, rfl⟩ := s1
  obtain ⟨f', i', x', y', k', rfl⟩ := fs
  exact ⟨rfl, rfl, fo⟩

theorem eraseAll_own : ∀ (l : List (Nat × Band)) (d : Dyn), ∀ t, l.foldl (fun d q => eraseBand q.2.owner q.1 d) d = t → ArcStep d t ∧ t.flt = d.flt ∧ t.tim = d.tim ∧ t.pair = d.pair ∧
    (∀ k, ((∃ x, (k, x) ∈ l) ∨ ((d.band k).cond = 1 ∧ (d.band k).subs = [])) → (t.band k).cond = 1 ∧ (t.band k).subs = []) := by
  intro l
  induction l with
  | nil => intro d t ht; subst ht; exact ⟨rfl, rfl, rfl, rfl, fun k h => h.resolve_left (fun ⟨x, h⟩ => (by cases h))⟩
  | cons q l ih =>
    intro d t ht
    obtain ⟨i0, i1, i2, i3, i4⟩ := ih (eraseBand q.2.owner q.1 d) t ht
    have b : ∀ k, (eraseBand q.2.owner q.1 d).band k = if k = q.1 then (d.band q.1).wiped 1 else d.band k := fun k => by
      show (((d.setBand q.1 _).setRegion q.2.owner _).band k) = _
      rw [setRegion_band, setBand_get]
    have e0 : ArcStep d (eraseBand q.2.owner q.1 d) := rfl
    refine ⟨e0.trans i0, i1, i2, i3, fun k hk => i4 k ?_⟩
    by_cases hq : k = q.1
    · right; rw [b, if_pos hq]; exact ⟨rfl, rfl⟩
    · rcases hk with ⟨x, hx⟩ | hk
      · rcases List.mem_cons.mp hx with h | h
        · exact absurd (by rw [← h]) hq
        · exact Or.inl ⟨x, h⟩
      · right; rw [b, if_neg hq]; exact hk

theorem eraseLedger_spec (d : Dyn) : (eraseLedger d).flt = d.flt ∧ (eraseLedger d).arc.queue = [] ∧
    (∀ k x, (k, x) ∈ d.arc.bands → 2 ≤ x.cond → ((eraseLedger d).band k).cond = 1 ∧ ((eraseLedger d).band k).subs = []) ∧ ArcStep d (eraseLedger d) := by
  obtain ⟨a1, a2, a3, a4, a5⟩ := eraseAll_own (d.arc.bands.filter (fun q => decide (2 ≤ q.2.cond))) d _ rfl
  exact ⟨a2, rfl, fun k x hx hc => a5 k (Or.inl ⟨x, List.mem_filter.mpr ⟨hx, by simpa using hc⟩⟩), a1.trans (ArcStep.put _ _)⟩

theorem synced_active (c : Cfg) (keep : Bool) (total : Nat) (d : Dyn) (h1 : d.glb.role = .active) (h2 : d.pair.state = 3) (h3 : d.pair.imageOk = true) : ∀ u, partnerSynced c keep total d = u →
    Alike { u with pair := d.pair, fld := d.fld } d ∧ (d.glb.st ≠ .boot → d.pwr.resetFrom.isSome = false → ∀ g, g < 6 → (u.grp g).line = if u.pair.fenced then 2 else 0) ∧ u.pair.state = 4 ∧ u.pair.fencing = false ∧
    Closed d u 0x3000 [0x3060, 0x3064, 0x3066, 0x3067] ∧
       ∀ j, d.pair.join = some j → u.pair.thread = 1 ∧ u.pair.threadSeq = (threadFrom j d).1 ∧ u.pair.total = (threadFrom j d).2 ∧ u.pair.done = 0 ∧ u.pair.missed = 0 := by
  intro u hu
  unfold partnerSynced at hu
  rw [if_pos ⟨h1, h2, h3⟩] at hu
  cases hj : d.pair.join with
  | none =>
    rw [hj] at hu
    dsimp only at hu
    obtain ⟨f, k1, k2⟩ := setFence_spec c false (pairState 4 d) _ rfl
    generalize setFence c false (pairState 4 d) = d1 at hu k1 k2
    have cs := clears_step d1 0x3000 [0x3060, 0x3064, 0x3066, 0x3067]
    have cc := clears_closed d1 0x3000 [0x3060, 0x3064, 0x3066, 0x3067]
    rw [hu] at cs cc
    obtain ⟨m1, m2, m3⟩ := cs.copies
    refine ⟨?_, fun a b g hg => ?_, by rw [m1, k1]; rfl, by rw [m1, k1], Closed.of cc (by rw [k1]; rfl) rfl, fun j h => (by cases h)⟩
    · have := m3 d.pair d.fld
      rw [k1] at this
      exact this
    · rw [m2, m1]; exact k2 a b g hg
  | some j =>
    rw [hj] at hu
    dsimp only at hu
    obtain ⟨f, k1, k2⟩ := setFence_spec c false { d with pair := { d.pair with state := 4, join := none, missed := 0, thread := 1, threadSeq := (threadFrom j d).1, total := (threadFrom j d).2, done := 0 } } _ rfl
    generalize setFence c false { d with pair := { d.pair with state := 4, join := none, missed := 0, thread := 1, threadSeq := (threadFrom j d).1, total := (threadFrom j d).2, done := 0 } } = d1 at hu k1 k2
    have cs := clears_step d1 0x3000 [0x3060, 0x3064, 0x3066, 0x3067]
    have cc := clears_closed d1 0x3000 [0x3060, 0x3064, 0x3066, 0x3067]
    generalize d1.clears 0x3000 [0x3060, 0x3064, 0x3066, 0x3067] = d2 at hu cs cc
    have ev := event_step d2 0x3000 0x306A 0 (d.pair.pid % 2 ^ 32) (d.pair.pid / 2 ^ 32)
    have ef := event_find d2 0x3000 0x306A 0 (d.pair.pid % 2 ^ 32) (d.pair.pid / 2 ^ 32)
    rw [hu] at ev ef
    obtain ⟨m1, m2, m3⟩ := (cs.trans ev).copies
    refine ⟨?_, fun a b g hg => ?_, by rw [m1, k1], by rw [m1, k1], ?_, fun j' h => ?_⟩
    · have := m3 d.pair d.fld
      rw [k1] at this
      exact this
    · rw [m2, m1]; exact k2 a b g hg
    · have c0 : Closed d d2 0x3000 [0x3060, 0x3064, 0x3066, 0x3067] := Closed.of cc (by rw [k1]) rfl
      unfold Closed at c0 ⊢
      rw [ef]
      exact ⟨c0.1, c0.2.1, fun m hm => (ef m).trans (c0.2.2 m hm)⟩
    · cases h
      rw [m1, k1]
      exact ⟨rfl, rfl, rfl, rfl, rfl⟩

theorem synced_standby (c : Cfg) (keep : Bool) (total : Nat) (d : Dyn) (h1 : d.glb.role = .standby) (h2 : d.pair.state = 6) : ∀ u, partnerSynced c keep total d = u →
    Alike { u with pair := d.pair, arc := d.arc } d ∧ u.pair.state = 7 ∧ u.pair.thread = 1 ∧ u.pair.total = total ∧ u.pair.done = 0 ∧
       Closed d u 0x3000 [0x3060, 0x3064, 0x3066, 0x3067] ∧ (keep = true → u.arc = d.arc ∧ u.pair.threadSeq = d.arc.seq) ∧
       (keep = false → u.arc.queue = [] ∧ u.pair.threadSeq = 0 ∧ ∀ k x, (k, x) ∈ d.arc.bands → 2 ≤ x.cond → (u.band k).cond = 1 ∧ (u.band k).subs = []) := by
  intro u hu
  unfold partnerSynced at hu
  rw [if_neg (by rw [h1]; rintro ⟨q, -⟩; cases q), if_pos ⟨h1, h2⟩] at hu
  dsimp only at hu
  cases keep with
  | true =>
    rw [if_pos rfl, if_pos rfl] at hu
    have cs := clears_step { d with pair := { d.pair with state := 7, missed := 0, thread := 1, threadSeq := d.arc.seq, threadEnd := d.arc.seq, total := total, done := 0 } } 0x3000 [0x3060, 0x3064, 0x3066, 0x3067]
    have cc := clears_closed { d with pair := { d.pair with state := 7, missed := 0, thread := 1, threadSeq := d.arc.seq, threadEnd := d.arc.seq, total := total, done := 0 } } 0x3000 [0x3060, 0x3064, 0x3066, 0x3067]
    rw [hu] at cs cc
    have cz : Closed d u 0x3000 [0x3060, 0x3064, 0x3066, 0x3067] := Closed.of cc rfl rfl
    clear cc hu
    obtain ⟨f, i, x, y, k, rfl⟩ := cs
    exact ⟨rfl, rfl, rfl, rfl, rfl, cz, fun _ => ⟨rfl, rfl⟩, fun n => (by cases n)⟩
  | false =>
    rw [if_neg (by decide), if_neg (by decide)] at hu
    obtain ⟨w1, w2, w3, w4⟩ := eraseLedger_spec d
    generalize eraseLedger d = w at hu w1 w2 w3 w4
    have cs := clears_step { w with pair := { w.pair with state := 7, missed := 0, thread := 1, threadSeq := 0, threadEnd := 0, total := total, done := 0 } } 0x3000 [0x3060, 0x3064, 0x3066, 0x3067]
    have cc := clears_closed { w with pair := { w.pair with state := 7, missed := 0, thread := 1, threadSeq := 0, threadEnd := 0, total := total, done := 0 } } 0x3000 [0x3060, 0x3064, 0x3066, 0x3067]
    rw [hu] at cs cc
    have cz : Closed d u 0x3000 [0x3060, 0x3064, 0x3066, 0x3067] := Closed.of cc w1.symm rfl
    clear cc hu
    obtain ⟨f, i, x, y, k, rfl⟩ := cs
    refine ⟨?_, rfl, rfl, rfl, rfl, cz, fun n => (by cases n), fun _ => ⟨w2, rfl, fun k x hx hc => ?_⟩⟩
    · have z := congrArg (fun x : Dyn => ({ x with pair := d.pair } : Dyn)) w4
      exact z
    · exact w3 k x hx hc

theorem startWriteBack_only (l : List Byte) (b : Bool) (d : Dyn) : ∃ x, startWriteBack l b d = { d with cfg := x } ∧ x.digest = d.cfg.digest ∧ x.lastReason = d.cfg.lastReason := ⟨_, rfl, rfl, rfl⟩

theorem image_refused (l : List Byte) (s : State) (h : (s.d.standby = true ∧ s.d.pair.state ≠ 0) ∨ (s.d.glb.st = .safe ∧ s.c.img.ok = false ∧ s.c.fx.pair = true)) (x : Bad × Option Ent)
    (hx : (checkImage s.c s.d 3 (imageBytes l)).1 = some x) : ∃ u, partnerImage l s = { s with d := u } ∧ u.cfg.lastReason = x.1.code ∧ (s.d.standby = true → u.pair.state = 9 ∧ u.glb.role = .standby) := by
  unfold partnerImage
  dsimp only
  rw [if_neg (by
    rcases h with h | h
    · simp [h.1, h.2]
    · simp [h.1, h.2.1, h.2.2])]
  generalize checkImage s.c s.d 3 (imageBytes l) = q at hx
  obtain ⟨q1, q2⟩ := q
  dsimp only at hx
  subst hx
  obtain ⟨b, e⟩ := x
  have k := refuseImage_cfg b e s.d
  refine ⟨_, rfl, ?_, fun hs => ?_⟩
  · split
    · obtain ⟨⟨r', i', a', m', w1⟩, -, -⟩ := withdrawn_spec (refuseImage b e s.d) _ rfl
      rw [w1]
      show (refuseImage b e s.d).cfg.lastReason = _
      rw [k]
    · show (refuseImage b e s.d).cfg.lastReason = _
      rw [k]
  · rw [if_pos hs]
    obtain ⟨-, w2, w3⟩ := withdrawn_spec (refuseImage b e s.d) _ rfl
    exact ⟨by rw [w3], w2⟩

theorem image_taken (l : List Byte) (s : State) (h : (s.d.standby = true ∧ s.d.pair.state ≠ 0) ∨ (s.d.glb.st = .safe ∧ s.c.img.ok = false ∧ s.c.fx.pair = true))
    (hx : (checkImage s.c s.d 3 (imageBytes l)).1 = none) : ∀ t, partnerImage l s = t →
       (s.c.img.ok = false → t.c.img = (checkImage s.c s.d 3 (imageBytes l)).2.img ∧ t.d.glb.st = s.d.glb.st ∧ (s.d.glb.st = .safe → t.d.glb.runReq = some 0 ∧ t.d.glb.runCommit = true) ∧ t.d.glb.role = .standby ∧ t.d.pair.state = 6) ∧
       (s.c.img.ok = true → t.c = applyOver s.c (checkImage s.c s.d 3 (imageBytes l)).2 ∧ t.d.glb.st = s.d.glb.st ∧ t.d.glb.role = s.d.glb.role ∧ t.d.cfg.digest = imageDigest (checkImage s.c s.d 3 (imageBytes l)).2.img.bytes) := by
  intro t ht
  unfold partnerImage at ht
  dsimp only at ht
  rw [if_neg (by
    rcases h with h | h
    · simp [h.1, h.2]
    · simp [h.1, h.2.1, h.2.2])] at ht
  generalize checkImage s.c s.d 3 (imageBytes l) = q at hx ht
  obtain ⟨q1, c'⟩ := q
  dsimp only at hx
  subst hx
  dsimp only at ht
  refine ⟨fun ho => ?_, fun ho => ?_⟩
  · rw [ho] at ht
    simp only [Bool.false_eq_true, if_false] at ht
    obtain ⟨a1, a2, a3, -⟩ := applyImage_first s c' ho
    have hs : ∀ e : Dyn, (setRole .standby e).glb = { e.glb with role := .standby } ∧ (setRole .standby e).pair = e.pair := by
      intro e
      unfold setRole Dyn.setIrq
      split
      · next h => exact ⟨by rw [← h], rfl⟩
      · exact ⟨rfl, rfl⟩
    obtain ⟨r1, r2⟩ := hs (pairState 6 (applyImage c' s).d)
    subst ht
    dsimp only
    generalize setRole .standby (pairState 6 (applyImage c' s).d) = d1 at r1 r2
    have key : ∀ P : Bool, ((if P = true then startWriteBack (imageBytes l) true d1 else d1).glb = d1.glb ∧ (if P = true then startWriteBack (imageBytes l) true d1 else d1).pair = d1.pair) := by
      intro P
      split <;> exact ⟨rfl, rfl⟩
    rw [(key _).1, (key _).2, r1, r2]
    exact ⟨a1, a2, a3, rfl, rfl⟩
  · rw [ho] at ht
    simp only [if_true] at ht
    have e1 : (applyImage c' s).c = applyOver s.c c' := by unfold applyImage; dsimp only; rw [if_pos ho]
    have e2 : (applyImage c' s).d.glb.st = s.d.glb.st ∧ (applyImage c' s).d.glb.role = s.d.glb.role ∧ (applyImage c' s).d.cfg.digest = imageDigest c'.img.bytes := by
      unfold applyImage
      dsimp only
      rw [if_pos ho]
      dsimp only
      rw [armAll_glb, armAll_cfg]
      have h := clears_step (acceptImage c'.img s.d) 0x1000 [0x1043]
      refine ⟨?_, ?_, ?_⟩
      · show ((acceptImage c'.img s.d).clears 0x1000 [0x1043]).glb.st = _
        rw [h.pairUp.2.2.2.1, acceptImage_glb]
      · show ((acceptImage c'.img s.d).clears 0x1000 [0x1043]).glb.role = _
        rw [h.pairUp.2.2.1, acceptImage_glb]
      · show ((acceptImage c'.img s.d).clears 0x1000 [0x1043]).cfg.digest = _
        rw [h.pairUp.2.2.2.2.2.1, acceptImage_cfg]
    generalize applyImage c' s = t1 at ht e1 e2
    subst ht
    dsimp only
    have key : ∀ P : Bool, ((if P = true then startWriteBack (imageBytes l) true t1.d else t1.d).glb = t1.d.glb ∧ (if P = true then startWriteBack (imageBytes l) true t1.d else t1.d).cfg.digest = t1.d.cfg.digest) := by
      intro P
      split <;> exact ⟨rfl, rfl⟩
    rw [(key _).1, (key _).2]
    exact ⟨e1, e2⟩

theorem commitStore_pair (s : State) (k : Commit) (c' : Cfg) (hm : k.mode = 2) : ∃ t, commitDo k c' s = { s with d := t } ∧ t.cfg.commit = none ∧ t.cfg.session = .none ∧ t.cfg.wbState = 1 ∧ t.pair = s.d.pair ∧ t.glb = s.d.glb ∧
    t.pwr = s.d.pwr := by
  obtain ⟨t, h1, h2, h3, -, -, h4, -⟩ := commitStore s k c' hm
  refine ⟨t, h1, h2, h3, h4, ?_⟩
  have E : commitDo k c' s = { s with d := startWriteBack k.bytes false (endCommit 0 s.d) } := by
    unfold commitDo
    simp [hm]
  rw [E] at h1
  have e : startWriteBack k.bytes false (endCommit 0 s.d) = t := by have w := congrArg State.d h1; exact w
  obtain ⟨x, hx, -⟩ := startWriteBack_only k.bytes false (endCommit 0 s.d)
  rw [hx] at e
  rw [← e]
  exact ⟨rfl, rfl, rfl⟩

end Sys2Proof.Machine
end

