-- ==== Sys2Proof/Tests/Slice0.lean ====
section
/-! SUPPORT. Tests: an ill-formed command for each check of WellFormed, single steps, and witnesses for the hypotheses of the statements. -/

namespace Sys2Proof.Tests

open Sys2Proof Sys2Proof.Machine

set_option Elab.async false

/-! Ill-formed commands: each check of WellFormed refuses one, and takes the last that it allows. -/

theorem test_wf_port : WellFormed (.recover 4) = false ∧ WellFormed (.recover 3) = true := by decide
theorem test_wf_unit : WellFormed (.unitRun 256) = false ∧ WellFormed (.unitRun 255) = true := by decide
theorem test_wf_column : WellFormed (.batchClear 2) = false ∧ WellFormed (.batchClear 1) = true := by decide
theorem test_wf_loop : WellFormed (.reinit 64) = false ∧ WellFormed (.reinit 63) = true := by decide
theorem test_wf_group : WellFormed (.fieldCut 6) = false ∧ WellFormed (.fieldCut 5) = true := by decide
theorem test_wf_address_range : WellFormed (.registerWrite 0x100000000 0) = false ∧ WellFormed (.registerWrite 0xFFFFFFFC 0) = true := by decide
theorem test_wf_address_word : WellFormed (.registerWrite 0x12 0) = false ∧ WellFormed (.enableWrite 0x12 0) = false := by decide
theorem test_wf_channel : WellFormed (.channelStale 1024) = false ∧ WellFormed (.guardSlotStart 1023) = true := by decide
theorem test_wf_bank : WellFormed (.selftest 16) = false ∧ WellFormed (.selftest 15) = true := by decide
theorem test_wf_cell : WellFormed (.calOpen 8) = false ∧ WellFormed (.calOpen 7) = true := by decide
theorem test_wf_fan : WellFormed (.movClear 32) = false ∧ WellFormed (.movClear 31) = true := by decide
theorem test_wf_common_group : WellFormed (.commonFaultLine 6 0) = false ∧ WellFormed (.commonFaultLine 5 3) = true := by decide
theorem test_wf_common_line : WellFormed (.commonFaultLine 0 4) = false := by decide
theorem test_wf_buffer_port : WellFormed (.txBufferWrite 4 0 0 []) = false ∧ WellFormed (.txBufferWrite 3 31 15 []) = true := by decide
theorem test_wf_buffer_mailbox : WellFormed (.txBufferWrite 0 32 0 []) = false := by decide
theorem test_wf_buffer_length : WellFormed (.txBufferWrite 0 0 16 []) = false := by decide
theorem test_wf_buffer_data : WellFormed (.txBufferWrite 0 0 0 (List.replicate 65 0)) = false := by decide
theorem test_wf_launch_port : WellFormed (.launchArm 4 0) = false ∧ WellFormed (.launchArm 3 15) = true := by decide
theorem test_wf_launch_entry : WellFormed (.launchDue 0 16) = false := by decide
theorem test_wf_map : WellFormed (.mapRxTimeout 128) = false ∧ WellFormed (.mapRxTimeout 127) = true := by decide
theorem test_wf_read_address : WellFormed (.dpRead 0x100000000 0 []) = false ∧ WellFormed (.dpRead 0xFFFFFFFF 0 []) = true := by decide
theorem test_wf_band : WellFormed (.bandEraseDone 250 0) = false ∧ WellFormed (.bandEraseDone 249 0) = true := by decide
theorem test_wf_code : WellFormed (.commitPartnerResult 0x10000) = false ∧ WellFormed (.commitPartnerResult 0xFFFF) = true := by decide

/-! Small states for the witnesses below: the module in a device state, on an accepted image at expert level, with the given register
words written and in force, and with one part of it changed. -/

def inState (st : DevState) (words : List (Nat × Word)) : State :=
  { State.reset with
    c := { fx := Variant.chosen, reg := Regs.none.puts words, img := { Image.none with ok := true, expert := true } },
    d := { State.reset.d with glb := { Glb.boot with st := st } } }
def inRun (words : List (Nat × Word)) : State := inState .run words
def withD (f : Dyn → Dyn) (s : State) : State := { s with d := f s.d }
def withImg (f : Image → Image) (s : State) : State := { s with c := { s.c with img := f s.c.img } }
def onGlb (f : Glb → Glb) (s : State) : State := withD (fun d => { d with glb := f d.glb }) s
def onPwr (f : Pwr → Pwr) (s : State) : State := withD (fun d => { d with pwr := f d.pwr }) s
def onCfg (f : CfgSt → CfgSt) (s : State) : State := withD (fun d => { d with cfg := f d.cfg }) s
def onTim (f : Tim → Tim) (s : State) : State := withD (fun d => { d with tim := f d.tim }) s
def onArc (f : Arc → Arc) (s : State) : State := withD (fun d => { d with arc := f d.arc }) s
def onPair (f : Pair → Pair) (s : State) : State := withD (fun d => { d with pair := f d.pair }) s
def onFlt (f : Flt → Flt) (s : State) : State := withD (fun d => { d with flt := f d.flt }) s
def onSeq (f : Seq → Seq) (s : State) : State := withD (fun d => { d with seq := f d.seq }) s
def atMs (ms : Nat) (s : State) : State := onTim (fun t => { t with acc := accOfMs ms }) s
def standbyOf (s : State) : State := onGlb (fun g => { g with role := .standby }) s
def activeOf (s : State) : State := onGlb (fun g => { g with role := .active }) s
def aRec (src code sev : Nat) (acked byAck gone : Bool) : FRec :=
  { code := code, sev := sev, acked := acked, escalated := false, source := src, occ := 1, first := 0, last := 0, epoch := 0, firstSev := sev, seq := 0,
    a := 0, b := 0, byAck := byAck, gone := gone }
def withRec (r : FRec) (s : State) : State := onFlt (fun f => { f with recs := [r] }) s

/-! Witnesses: for each statement with hypotheses, a concrete state and operands that meet those of each of its clauses together. -/

theorem witness_StepRunsFrontCommand : ({ State.reset with pending := [.apply, .store] } : State).pending = .apply :: [.store] := by decide
theorem witness_IdleTick : State.reset.pending = [] := by decide
theorem witness_RegisterTablesKept : (∃ t, step State.reset = .next t) ∧ State.reset.c.reg.ok := ⟨⟨_, rfl⟩, by unfold Regs.ok; decide⟩

theorem witness_HostCommandsRefused :
    (hostReg State.reset.c.fx .apply = some (0x2000C, true) ∧ State.reset.d.portUp = false) ∧
    (hostReg (standbyOf (inRun [])).c.fx .fuseProg = some (0x200A0, false) ∧ (standbyOf (inRun [])).d.portUp = true ∧ (standbyOf (inRun [])).d.standby = true) ∧
    (let s := withImg (fun i => { i with expert := false }) (inRun [])
     hostReg s.c.fx (.lcommit 15) = some (0x10F01C, false) ∧ s.d.portUp = true ∧ s.d.standby = false ∧ s.c.basic = true ∧ 0x100000 ≤ 0x10F01C ∧ 0x10F01C < 0x110000) := by decide

theorem witness_ResetHoldsTheLogic :
    ((inRun []).d.pwr.resetFrom = none ∧ (inRun []).d.pwr.v33 = true) ∧
    ((inState .dormant []).d.pwr.resetFrom = none ∧ (inState .dormant []).d.pwr.v33 = true ∧ (inState .dormant []).d.glb.st = .dormant) ∧
    (let s := onPwr (fun p => { p with resetFrom := some .run }) (inState .boot [])
     s.d.pwr.resetFrom ≠ none ∧ s.d.pwr.v33 = true) ∧
    (onPwr (fun p => { p with v33 := false }) (inRun [])).d.pwr.v33 = false := by decide

theorem witness_BootBegins :
    ((onPwr (fun p => { p with resetFrom := some .run }) (inRun [])).d.pwr.resetFrom = some .run ∧ (inRun []).d.pwr.resetFrom = none) ∧
    (let s := onPwr (fun p => { p with v33 := false }) (inRun [])
     s.d.pwr.v33 = false ∧ s.d.pwr.v33a = true ∧ s.d.pwr.vio = true ∧ s.d.pwr.vaoIn = true ∧ s.d.pwr.rstLow = false) ∧
    (let s := onPwr (fun p => { p with v33 := false, rstLow := true }) (inRun [])
     s.d.pwr.v33 = false ∧ s.d.pwr.rstLow = true) ∧
    (inRun []).d.pwr.v33 = true ∧ HostRuns 0x10 true (standbyOf (inRun [])) := by unfold HostRuns; decide

/-- An SFDP space (R98; log entry 79) with one parameter table, of two words, whose second gives the capacity in bits less 1. -/
def sfdp (sig bits : Nat) : List Byte :=
  leBytes 4 sig ++ leBytes 4 0 ++ [0, 0, 0, 2] ++ leBytes 3 16 ++ [0xFF] ++ leBytes 4 0 ++ leBytes 4 (bits - 1)

theorem witness_BootSteps :
    (State.reset.d.glb.st = .boot ∧ State.reset.d.pwr.resetFrom = none ∧ State.reset.d.cfg.found = false ∧ State.reset.d.cfg.cpDone = false ∧
      State.reset.d.cfg.kept = false ∧ State.reset.d.cfg.cands = []) ∧
    (sfdpOk (sfdp 0 (2 ^ 23)) = false ∧ sfdpOk (sfdp 0x50444653 (2 ^ 23)) = true) ∧
    ((flashOf (sfdp 0x50444653 (2 ^ 23 - 8))).cap < 2 ^ 20 ∧ 2 ^ 26 < (flashOf (sfdp 0x50444653 (2 ^ 29 + 8))).cap) ∧
    ((flashOf (sfdp 0x50444653 (2 ^ 23))).cap = 2 ^ 20 ∧ (flashOf (sfdp 0x50444653 (2 ^ 29))).cap = 2 ^ 26) ∧
    (let s := onCfg (fun x => { x with found := true, kept := true, cpDone := true }) State.reset
     s.d.glb.st = .boot ∧ s.d.pwr.resetFrom = none ∧ s.d.cfg.found = true ∧ s.d.cfg.kept = true ∧ s.d.cfg.cpDone = true) ∧
    (let s := onCfg (fun x => { x with cands := [1, 0] }) State.reset
     s.d.glb.st = .boot ∧ s.d.cfg.cands = 1 :: [0] ∧ s.d.cfg.accepted = none ∧
       (checkImage s.c s.d 2 (imageBytes (s.d.cfg.slot 1).bytes)).1.isSome = true) := by decide +kernel

theorem witness_BootEnds :
    (State.reset.d.cfg.found = false ∧ State.reset.d.cfg.cpDone = false ∧
      (let s := onCfg (fun x => { x with cands := [0] }) State.reset; s.d.cfg.accepted = none ∧ s.d.cfg.cands ≠ [])) ∧
    (let s := onCfg (fun x => { x with found := true, cpDone := true }) State.reset
     s.d.glb.st = .boot ∧ s.d.pwr.resetFrom = none ∧ s.d.cfg.found = true ∧ s.d.cfg.cpDone = true ∧ s.d.cfg.accepted = none ∧ s.d.cfg.cands = []) ∧
    (let s := onCfg (fun x => { x with found := true, cpDone := true, accepted := some 1, bootHalt := some 0x60 }) (inState .boot [])
     s.d.glb.st = .boot ∧ s.d.pwr.resetFrom = none ∧ s.d.cfg.found = true ∧ s.d.cfg.cpDone = true ∧ s.d.cfg.accepted = some 1 ∧ s.d.cfg.bootHalt = some 0x60) ∧
    (let s := withImg (fun i => { i with pairOn := true }) (onCfg (fun x => { x with found := true, cpDone := true, accepted := some 0 }) (inState .boot []))
     s.d.glb.st = .boot ∧ s.d.pwr.resetFrom = none ∧ s.d.cfg.found = true ∧ s.d.cfg.cpDone = true ∧ s.d.cfg.accepted = some 0 ∧ s.d.cfg.bootHalt = none ∧
       s.c.pairOn = true) ∧
    (let s := withImg (fun i => { i with dormant := true }) (onCfg (fun x => { x with found := true, cpDone := true, accepted := some 0 }) (inState .boot []))
     s.d.cfg.accepted = some 0 ∧ s.d.cfg.bootHalt = none ∧ s.c.pairOn = false ∧ s.c.img.dormant = true) ∧
    (let s := onCfg (fun x => { x with found := true, cpDone := true, accepted := some 0 }) (inState .boot [])
     s.d.cfg.accepted = some 0 ∧ s.d.cfg.bootHalt = none ∧ s.c.pairOn = false ∧ s.c.img.dormant = false) := by decide

theorem witness_StateCommands :
    (HostRuns 0x10 false (inRun []) ∧ (inRun []).d.glb.st = .run ∧ (inRun []).d.openCode 0 [0x62] = false ∧ (inRun []).d.openCode 0 [0x61] = false ∧
      (inRun []).d.pwr.xt32 = true ∧ unitsActive (inRun []).c (inRun []).d = false ∧ (inRun []).d.pair.state ≠ 3 ∧ (inRun []).d.pair.state ≠ 4) ∧
    (HostRuns 0x10 false (inState .safe []) ∧ (inState .safe []).d.glb.st = .safe ∧ (inState .safe []).c.img.ok = true ∧ (inState .safe []).d.haltOpen = false) ∧
    (let s := withRec (aRec 0 0x60 4 false false false) (inState .safe [])
     HostRuns 0x10 false s ∧ s.d.glb.st = .safe ∧ s.c.img.ok = true ∧ s.d.haltOpen = true) ∧
    (let s := withRec (aRec 0 0x62 1 false false false) (inRun [])
     HostRuns 0x10 false s ∧ s.d.glb.st = .run ∧ s.d.openCode 0 [0x62] = true) ∧
    (let s := onPwr (fun p => { p with xt32 := false }) (inRun [])
     HostRuns 0x10 false s ∧ s.d.glb.st = .run ∧ s.d.openCode 0 [0x62] = false ∧ s.d.pwr.xt32 = false) := by unfold HostRuns; decide +kernel

theorem witness_StateCommands_dormant :
    (let s := withD (fun d => d.setUnit 255 { d.unit 255 with pubState := 2 }) (inRun [(unitA 255 0, 1)])
     HostRuns 0x10 false s ∧ s.d.glb.st = .run ∧ s.d.openCode 0 [0x62] = false ∧ s.d.pwr.xt32 = true ∧ s.d.openCode 0 [0x61] = false ∧ unitsActive s.c s.d = true) ∧
    (let s := onPair (fun p => { p with state := 3 }) (inRun [])
     HostRuns 0x10 false s ∧ s.d.glb.st = .run ∧ unitsActive s.c s.d = false ∧ s.d.pair.state = 3) ∧
    (let s := onPair (fun p => { p with state := 4, partnerDorm := 0x48 }) (inRun [])
     HostRuns 0x10 false s ∧ s.d.glb.st = .run ∧ unitsActive s.c s.d = false ∧ s.d.pair.state = 4 ∧ s.d.pair.partnerDorm ≠ 0) := by unfold HostRuns; decide +kernel

def dormReq (s : State) : State := onGlb (fun g => { g with dormReq := true }) s

theorem witness_SleepAndWake :
    (let s := onPwr (fun p => { p with entryAbort := some 0x81 }) (dormReq (inRun []))
     s.d.glb.st = .run ∧ s.d.glb.dormReq = true ∧ s.d.pwr.entryAbort = some 0x81) ∧
    (let s := onPwr (fun p => { p with wakeLow := true }) (dormReq (inRun [(0x1000C, 1)]))
     s.d.glb.st = .run ∧ s.d.glb.dormReq = true ∧ s.d.pwr.entryAbort = none ∧ s.d.pwr.wakeLow = true ∧ s.c.pinWake = true) ∧
    (let s := onPwr (fun p => { p with xt32 := false }) (dormReq (inRun []))
     s.d.glb.st = .run ∧ s.d.glb.dormReq = true ∧ s.d.pwr.entryAbort = none ∧ s.d.pwr.wakeLow = false ∧ s.d.pwr.xt32 = false) ∧
    (let s := withD (fun d => d.setUnit 255 { d.unit 255 with pubState := 2 }) (dormReq (inRun [(unitA 255 0, 1)]))
     s.d.glb.st = .run ∧ s.d.glb.dormReq = true ∧ s.d.pwr.entryAbort = none ∧ s.d.pwr.wakeLow = false ∧ s.d.pwr.xt32 = true ∧ unitsActive s.c s.d = true) ∧
    (let s := dormReq (inRun [])
     s.d.glb.st = .run ∧ s.d.glb.dormReq = true ∧ s.d.pwr.entryAbort = none ∧ s.d.pwr.wakeLow = false ∧ s.d.pwr.xt32 = true ∧ unitsActive s.c s.d = false) ∧
    ((inRun []).d.glb.dormReq = false ∧ (inState .scan []).d.glb.st ≠ .run) ∧
    (let s := onPwr (fun p => { p with nextScan := some 60 }) (inState .dormant [])
     s.d.glb.st = .dormant ∧ s.d.pwr.start = none ∧ s.d.pwr.scanStopped = false ∧ s.d.pwr.nextScan = some 60 ∧ s.d.pwr.nextWake = none) ∧
    (let s := onPwr (fun p => { p with nextWake := some (60 * 2 ^ 32) }) (inState .dormant [])
     s.d.glb.st = .dormant ∧ s.d.pwr.start = none ∧ s.d.pwr.nextScan = none ∧ s.d.pwr.nextWake = some (60 * 2 ^ 32)) ∧
    (let s := onPwr (fun p => { p with nextScan := some 60, nextWake := some (60 * 2 ^ 32) }) (inState .dormant [])
     s.d.glb.st = .dormant ∧ s.d.pwr.start = none ∧ s.d.pwr.scanStopped = false ∧ s.d.pwr.nextScan = some 60 ∧ 60 * 1000 ≤ wakeMs (60 * 2 ^ 32) ∧
       ¬wakeMs (60 * 2 ^ 32) < 60 * 1000) ∧
    (let st : Starting := { toRun := true, cause := 0x81, at_ := 0 }
     let s := onPwr (fun p => { p with start := some st }) (inState .dormant [])
     s.d.glb.st = .dormant ∧ s.d.pwr.start = some st ∧ st.toRun = true) ∧
    (let st : Starting := { toRun := false, cause := 0x80, at_ := 0 }
     let s := onPwr (fun p => { p with start := some st }) (inState .dormant [])
     s.d.glb.st = .dormant ∧ s.d.pwr.start = some st ∧ st.toRun = false) := by decide +kernel

theorem witness_SleepAndWake_more :
    (let s := onGlb (fun g => { g with haltCause := some 0x60 }) (dormReq (inRun []))
     s.d.glb.st = .run ∧ s.d.glb.dormReq = true ∧ s.d.glb.haltCause ≠ none) ∧
    (let s := onGlb (fun g => { g with safeReq := some 0 }) (dormReq (inRun []))
     s.d.glb.st = .run ∧ s.d.glb.dormReq = true ∧ s.d.glb.safeReq ≠ none) ∧
    ((dormReq (inRun [])).d.glb.haltCause = none ∧ (dormReq (inRun [])).d.glb.safeReq = none) ∧
    (let x : Starting := { toRun := true, cause := 0x81, at_ := accOfMs 59996 }
     let s := onPwr (fun p => { p with nextScan := some 60, start := some x }) (atMs 59996 (onPwr (fun p => { p with slow := true }) (inState .dormant [])))
     s.d.glb.st = .dormant ∧ s.d.pwr.scanStopped = false ∧ s.d.pwr.nextScan = some 60 ∧ s.d.pwr.nextWake = none ∧ s.d.pwr.start = some x ∧ x.toRun = true ∧
       x.at_ = s.d.tim.acc ∧ wakeStart s.c s.d (60 * 1000) = x.at_ ∧ x.at_ < accOfMs (60 * 1000 - 4) + tickInc s.c s.d) ∧
    (let x : Starting := { toRun := true, cause := 0x82, at_ := 5 }
     let s := onPwr (fun p => { p with nextScan := some 60, start := some x }) (inState .dormant [])
     s.d.pwr.nextScan = some 60 ∧ s.d.pwr.start = some x ∧ ¬x.at_ = s.d.tim.acc) ∧
    ((inState .dormant []).d.fld.late = [] ∧ (inState .dormant []).d.flt.find 0 = none ∧ (3300 < 3301 ∧ 3301 ≤ 10000) ∧ 10000 < 10001 ∧
      (inState .dormant []).d.pwr.xt25 = true ∧ (inState .dormant []).d.pwr.resetFrom = none) := by decide +kernel

theorem witness_WakeSources :
    (let s := inRun [(grpA 3, 1), (dioA 63 0, 0xC000101)]
     63 < 64 ∧ s.c.grpEn (63 / 16) = true ∧ s.c.isIn 63 = true ∧ s.c.dioWake 63 = 3 ∧ s.d.glb.st ≠ .dormant) ∧
    (let s := inState .dormant [(grpA 0, 1), (dioA 0 0, 0x4000101)]
     s.c.grpEn (0 / 16) = true ∧ s.c.isIn 0 = true ∧ s.c.dioWake 0 = 1 ∧ s.d.glb.st = .dormant) ∧
    (let s := inState .dormant [(grpA 0, 1), (dioA 0 0, 0x8000101)]
     s.c.grpEn (0 / 16) = true ∧ s.c.isIn 0 = true ∧ s.c.dioWake 0 = 2) ∧ ¬(64 : Nat) < 64 := by decide

theorem witness_ClocksAndSupplies :
    ((inRun []).d.pwr.xt32 = true ∧ (inRun []).d.glb.st ≠ .dormant ∧ (inRun []).d.pwr.xt25 = true) ∧
    ((inState .dormant []).d.pwr.xt32 = true ∧ (inState .dormant []).d.glb.st = .dormant) ∧
    (let s := withRec (aRec 0 0x61 2 true true false) (onPwr (fun p => { p with xt32 := false, xt25 := false }) (inRun []))
     s.d.pwr.xt32 = false ∧ s.d.pwr.xt25 = false ∧ s.d.flt.find 0 = some (aRec 0 0x61 2 true true false)) ∧
    (let s := withRec (aRec 0 0x61 2 false true false) (onPwr (fun p => { p with xt32 := false }) (inRun []))
     s.d.pwr.xt32 = false ∧ s.d.flt.find 0 = some (aRec 0 0x61 2 false true false)) ∧
    ((inRun []).d.openCode 0 [0x66] = false ∧ (inRun []).d.openCode 0 [0x62] = false ∧ (781250 : Nat) ≠ 0) := by decide

theorem witness_AnalogSupply :
    (let s := inRun [(chanA 0 0, 1), (chanA 1023 0, 1), (cellA 7, 1)]
     s.d.openCode 0 [0x63] = false ∧ s.d.flt.find 0 = none ∧ s.c.chanEn 0 = true ∧ s.c.chanEn 1023 = true ∧ s.c.chanEn 1 = false ∧ 7 < s.c.fx.nCells ∧
       s.c.cellEn 7 = true) ∧
    (withRec (aRec 0 0x63 3 false false false) (inRun [])).d.openCode 0 [0x63] = true := by decide

theorem witness_ScanBurst :
    ((inRun []).d.glb.st ≠ .scan) ∧
    (let s := onPwr (fun p => { p with burst := .scanning, runCond := some 0x82 }) (inState .scan [])
     s.d.glb.st = .scan ∧ s.d.pwr.burst = .scanning ∧ s.d.glb.haltCause = none ∧ s.d.pwr.runCond = some 0x82) ∧
    (let s := onGlb (fun g => { g with haltCause := some 0x60 }) (onPwr (fun p => { p with burst := .scanning }) (inState .scan []))
     s.d.glb.st = .scan ∧ s.d.pwr.burst = .scanning ∧ s.d.glb.haltCause = some 0x60) ∧
    (let s := onGlb (fun g => { g with haltCause := some 0x60 }) (onPwr (fun p => { p with burst := .holdsSent }) (inState .scan []))
     s.d.glb.st = .scan ∧ s.d.pwr.burst = .holdsSent ∧ s.d.glb.haltCause = some 0x60) ∧
    (let s := onPwr (fun p => { p with burst := .holdsSent, runCond := some 0x82 }) (inState .scan [])
     s.d.glb.st = .scan ∧ s.d.pwr.burst = .holdsSent ∧ s.d.glb.haltCause = none ∧ s.d.pwr.runCond = some 0x82) ∧
    (let s := onPwr (fun p => { p with burst := .holdsSent }) (inState .scan [])
     s.d.glb.st = .scan ∧ s.d.pwr.burst = .holdsSent ∧ s.d.glb.haltCause = none ∧ s.d.pwr.runCond = none ∧ s.d.arc.queue = []) ∧
    (let s := onArc (fun a => { a with queue := [{ region := 0, recs := [] }], state := 2 }) (onPwr (fun p => { p with burst := .holdsSent }) (inState .scan []))
     s.d.glb.st = .scan ∧ s.d.pwr.burst = .holdsSent ∧ s.d.glb.haltCause = none ∧ s.d.pwr.runCond = none ∧ s.d.arc.queue ≠ [] ∧ s.d.arc.state = 2) := by decide

def withCommit (k : Commit) (s : State) : State := onCfg (fun x => { x with session := .opened, commit := some k }) s
def aCommit (mode : Nat) (toPartner : Bool) : Commit := { mode := mode, bytes := [], toPartner := toPartner }

theorem witness_WriteSessions :
    (HostRuns 0x20008 true (inState .safe []) ∧ (inState .safe []).d.cfg.session = .none ∧ (inState .safe []).d.glb.st = .safe) ∧
    (HostRuns 0x20008 true (inRun []) ∧ (inRun []).d.cfg.session = .none ∧ (inRun []).d.glb.st = .run ∧ (inRun []).c.basic = false ∧
      ∀ c, (inRun []).d.cfg.session ≠ .filling c) ∧
    (let s := withImg (fun i => { i with expert := false }) (inRun [])
     HostRuns 0x20008 true s ∧ s.d.cfg.session = .none ∧ s.d.glb.st = .run ∧ s.c.basic = true) ∧
    (let s := onCfg (fun x => { x with session := .filling true }) (inRun [])
     HostRuns 0x20008 true s ∧ s.d.cfg.session = .filling true) ∧
    (let s := atMs 5000 (onCfg (fun x => { x with session := .opened }) (inRun []))
     s.d.cfg.session ≠ .none ∧ s.d.cfg.lastAccess + 5000 ≤ s.d.ms ∧ s.d.sessionOn = true ∧ s.d.portUp = true) ∧
    (let s := atMs 4999 (onCfg (fun x => { x with session := .opened }) (inRun []))
     s.d.ms < s.d.cfg.lastAccess + 5000) ∧
    (0x10000000 ≤ 0x101FFFFC ∧ 0x101FFFFC < 0x10200000 ∧ 0x101FFFFC % 4 = 0 ∧ (inRun []).d.portUp = true ∧ (inRun []).d.sessionOn = false) := by
  unfold HostRuns; decide +kernel

def withWb (st : WbStage) (s : State) : State :=
  onCfg (fun x => { x with session := .opened, wb := some { slot := 1, bytes := [1, 2, 3, 4, 5], gen := 7, apply := true, stage := st, pos := 0 } }) s

theorem witness_Commits :
    (HostRuns 0x2000C true (inRun []) ∧ (inRun []).d.sessionOn = false ∧ (inRun []).d.cfg.commit = none ∧ (inRun []).d.cfg.wb = none) ∧
    (let s := standbyOf (onCfg (fun x => { x with session := .opened }) (inRun []))
     HostRuns 0x2000C true s ∧ s.d.sessionOn = true ∧ s.d.standby = true) ∧
    (let s := withCommit (aCommit 1 false) (inRun [])
     HostRuns 0x2000C true s ∧ s.d.sessionOn = true ∧ s.d.standby = false ∧ s.d.cfg.commit.isSome = true ∧ s.d.cfg.commit = some (aCommit 1 false) ∧
       (aCommit 1 false).toPartner = false ∧ (commitCheck s.c s.d (aCommit 1 false)).1.isSome = true) ∧
    (let s := withWb .clear (inRun [])
     HostRuns 0x2000C true s ∧ s.d.sessionOn = true ∧ s.d.standby = false ∧ s.d.cfg.commit = none ∧ s.d.cfg.wb.isSome = true) ∧
    (let s := onCfg (fun x => { x with session := .opened }) (inRun [])
     HostRuns 0x2000C true s ∧ s.d.sessionOn = true ∧ s.d.standby = false ∧ s.d.cfg.commit = none ∧ s.d.cfg.wb = none) ∧
    (let s := withCommit (aCommit 3 true) (inRun [])
     s.d.cfg.commit = some (aCommit 3 true) ∧ (aCommit 3 true).toPartner = true) ∧
    (∃ w, (withWb .magicCheck (inRun [])).d.cfg.wb = some w ∧ w.stage = .magicCheck ∧ w.bytes.take 4 = [1, 2, 3, 4]) ∧
    (∃ w, (withWb .wipe (inRun [])).d.cfg.wb = some w ∧ w.stage = .wipe) ∧
    ∃ w, (withWb .erase (inRun [])).d.cfg.wb = some w ∧ (wbStep (inRun []).d.cfg.flash .erased [] w).2.2 = none := by
  unfold HostRuns; refine ⟨by decide +kernel, by decide +kernel, by decide +kernel, by decide +kernel, by decide +kernel, by decide +kernel, ⟨_, rfl, rfl, rfl⟩, ⟨_, rfl, rfl⟩, _, rfl, by decide +kernel⟩

/-- An image of 512 bytes, made by hand from R101 to R106 with CRC-32C and SHA-256 from another program: at expert level, generation 7, for 4 banks and
tier S, with one preset section that sets PWR_SCAN.INTERVAL = 10 (R104). -/
def smallImage : List Byte :=
  leBytes 24 0x100000100000000000007000002000100000149434C5A ++ List.replicate 228 0 ++ leBytes 4 0x549ABEED ++ leBytes 24 0xA0001000868009D2E000000080000011000000100 ++ List.replicate 200 0 ++
    leBytes 32 0x90A9D1672532DF87A2C6350B0596119F875435C790DC64F0B2F2D6A8F98320F

/-- A module of the smallest variant with a pair function, and the state given on it. -/
def smallOne : Variant := { banks := 0, tierD := false, pair := true, rev := 3, id := 1 }
def onSmall (s : State) : State := { s with c := { s.c with fx := smallOne } }
/-- The configuration that the image leaves there. -/
def smallCfg : Cfg := candidate (onSmall (inRun [])).c 3 smallImage

/-! The image is accepted there: its envelope and the three phases (R113), each by evaluation, but for the loop budget of a module whose loops are all
disabled. -/

theorem small_envelope : envelopeBad smallOne (2 ^ 21) none smallImage = none := by decide +kernel

theorem small_load : smallCfg.worstLoad = (0, 0) := by
  have g : ∀ l : List Nat, l.foldl (fun (m : Nat × Nat) i => let x := smallCfg.loopLoad [] i; if m.1 < x then (x, i) else m) (0, 0) = (0, 0) := by
    intro l
    induction l with
    | nil => rfl
    | cons x xs ih => exact ih
  unfold Cfg.worstLoad
  rw [show smallCfg.loopsOn = [] by decide +kernel]
  exact g _

theorem small_phase3 : phaseBad smallCfg 3 = none := by decide +kernel
theorem small_phase4 : phaseBad smallCfg 4 = none := by decide +kernel
theorem loops_pass (c : Cfg) (h : c.worstLoad = (0, 0)) : firstBad (phaseChk c true 0xA047 5 (0xA00, 0)) = none := by
  have e : loopBudget c = [] := by
    rw [loopBudget, h]
    exact if_pos (Nat.zero_le 8000)
  rw [phaseChk, if_pos rfl]
  simp only [sectBudget, e, firstBad, List.foldl_nil]

theorem small_rest : ∀ k ∈ (sectOrder smallCfg).filter (fun k => decide (k ≠ (0xA00, 0))), firstBad (phaseChk smallCfg true 0xA047 5 k) = none := by decide +kernel

theorem phase_of (c : Cfg) (w : c.worstLoad = (0, 0)) (h : ∀ k ∈ (sectOrder c).filter (fun k => decide (k ≠ (0xA00, 0))), firstBad (phaseChk c true 0xA047 5 k) = none) :
    phaseBad c 5 = none :=
  List.findSome?_eq_none_iff.mpr fun k hk => by
    by_cases e : k = (0xA00, 0)
    · rw [e]; exact loops_pass c w
    · exact h k (List.mem_filter.mpr ⟨hk, decide_eq_true e⟩)

theorem small_phase5 : phaseBad smallCfg 5 = none := phase_of smallCfg small_load small_rest

theorem small_candidate (c : Cfg) (hf : c.fx = smallOne) (hr : c.reg = Regs.none) : candidate c 3 smallImage = smallCfg := by
  have n : (mkImage 3 smallImage).sects.any (fun x => x.typ == 0xA00) = false := by decide +kernel
  have e : ∀ (c c' : Cfg) (i : Image), c.fx = c'.fx → c.reg = c'.reg → i.sects.any (fun x => x.typ == 0xA00) = false → loadImage c i = loadImage c' i := by
    intro c c' i f r h
    simp only [loadImage, f, r, h, Bool.false_eq_true, ↓reduceIte]
  rw [smallCfg, candidate, candidate, e c (onSmall (inRun [])).c _ hf hr n]

theorem small_passes (c : Cfg) (d : Dyn) (hf : c.fx = smallOne) (hr : c.reg = Regs.none) (hs : d.cfg.slotLen = 2 ^ 21) (hk : d.cfg.keyHash = none) :
    checkImage c d 3 smallImage = (none, smallCfg) := by
  have v : envelopeBad c.fx d.cfg.slotLen d.cfg.keyHash smallImage = none := by rw [hf, hs, hk]; exact small_envelope
  have x : smallCfg.img.expert = true := by decide +kernel
  simp only [checkImage, v, small_candidate c hf hr, sageWhole, small_phase3, small_phase4, placeAll, placeLoops, x, ↓reduceIte, small_phase5]

/-- A commit of it is accepted where nothing stands against the change (R119, R120). -/
theorem small_commit (c : Cfg) (d : Dyn) (k : Commit) (hf : c.fx = smallOne) (hr : c.reg = Regs.none) (hs : d.cfg.slotLen = 2 ^ 21) (hk : d.cfg.keyHash = none)
    (hb : k.bytes = smallImage) (hc : boundBad c smallImage = none) (h : commitBad c k = none) : (commitCheck c d k).1 = none := by
  have v : envelopeBad c.fx d.cfg.slotLen d.cfg.keyHash smallImage = none := by rw [hf, hs, hk]; exact small_envelope
  simp only [commitCheck, hb, v, hc, small_passes c d hf hr hs hk, h, Option.map_none]

def smallCommit (mode : Nat) : Commit := { mode := mode, bytes := smallImage, toPartner := false }

theorem witness_Commits_accepted :
    (let s := activeOf (onPair (fun p => { p with state := 4 }) (withCommit (smallCommit 2) (onSmall (inRun []))))
     s.d.cfg.commit = some (smallCommit 2) ∧ (smallCommit 2).toPartner = false ∧ (commitCheck s.c s.d (smallCommit 2)).1 = none ∧ s.d.glb.role = .active ∧ s.d.pair.state = 4) ∧
    (let s := withCommit (smallCommit 2) (onSmall (inRun []))
     s.d.cfg.commit = some (smallCommit 2) ∧ (commitCheck s.c s.d (smallCommit 2)).1 = none ∧ s.d.pair.state ≠ 4 ∧ (smallCommit 2).mode = 2) ∧
    (let s := withCommit (smallCommit 3) (onSmall (inRun []))
     s.d.cfg.commit = some (smallCommit 3) ∧ (commitCheck s.c s.d (smallCommit 3)).1 = none ∧ s.d.pair.state ≠ 4 ∧ (smallCommit 3).mode ≠ 2 ∧ s.c.img.ok = true ∧
       (smallCommit 3).mode = 3) ∧
    (let s := withImg (fun i => { i with ok := false }) (withCommit (smallCommit 1) (onSmall (inState .safe [])))
     s.d.cfg.commit = some (smallCommit 1) ∧ (commitCheck s.c s.d (smallCommit 1)).1 = none ∧ s.d.pair.state ≠ 4 ∧ (smallCommit 1).mode = 1 ∧ s.c.img.ok = false ∧
       s.d.glb.st = .safe) := by
  refine ⟨⟨rfl, rfl, ?_, rfl, rfl⟩, ⟨rfl, ?_, by decide, rfl⟩, ⟨rfl, ?_, by decide, by decide, rfl, rfl⟩, rfl, ?_, by decide, rfl, rfl, rfl⟩ <;>
    exact small_commit _ _ _ rfl rfl (by decide) (by decide) rfl (by decide +kernel) (by decide +kernel)

theorem witness_BootSteps_accepted :
    let s : State := onCfg (fun x => { x with cands := [2], slotB := { x.slotB with bytes := smallImage ++ [0xFF] } }) (onSmall (inState .boot []))
    s.d.glb.st = .boot ∧ s.d.pwr.resetFrom = none ∧ s.d.cfg.cands = 2 :: [] ∧ s.d.cfg.accepted = none ∧
      (checkImage s.c s.d 3 (imageBytes (s.d.cfg.slot 2).bytes)).1 = none := by
  have e : imageBytes (smallImage ++ [0xFF]) = smallImage := by decide +kernel
  exact ⟨rfl, rfl, rfl, rfl, congrArg Prod.fst ((congrArg (checkImage _ _ 3) e).trans (small_passes _ _ rfl rfl (by decide) (by decide)))⟩

def fuse (used valid : Bool) : FuseBank := { used := used, valid := valid, hash := 0 }

theorem witness_FusesAndEnables :
    (let s := inState .safe [(0x20080, 5)]
     HostRuns 0x200A0 false s ∧ s.d.cfg.fuse0.valid = false ∧ s.d.cfg.fuse1.valid = false ∧ s.d.glb.st = .safe ∧ stagedHash s.c ≠ 0 ∧ s.d.cfg.fusing = none ∧
       s.d.cfg.fuse0.used = false) ∧
    (let s := onCfg (fun x => { x with fuse0 := fuse true false }) (inState .safe [(0x2009C, 1)])
     HostRuns 0x200A0 false s ∧ s.d.cfg.fuse0.valid = false ∧ s.d.cfg.fuse1.valid = false ∧ s.d.glb.st = .safe ∧ stagedHash s.c ≠ 0 ∧ s.d.cfg.fusing = none ∧
       s.d.cfg.fuse0.used = true ∧ s.d.cfg.fuse1.used = false) ∧
    (let s := onCfg (fun x => { x with fuse0 := fuse true false, fuse1 := fuse true false }) (inState .safe [(0x20080, 5)])
     HostRuns 0x200A0 false s ∧ s.d.cfg.fuse0.used = true ∧ s.d.cfg.fuse1.used = true) ∧
    (HostRuns 0x200A0 false (inState .safe []) ∧ stagedHash (inState .safe []).c = 0) ∧
    (let s := onCfg (fun x => { x with fusing := some 0 }) (inState .safe [(0x20080, 0x05000000)])
     s.d.cfg.fusing = some 0 ∧ s.d.cfg.fusing ≠ none) ∧
    ((onCfg (fun x => { x with fusing := some 1 }) (inState .safe [])).d.cfg.fusing = some 1 ∧ stagedHash (inState .safe []).c = 0 ∧ (1 : Nat) ≠ stagedHash (inState .safe []).c) ∧
    ((inRun []).d.portUp = true ∧ (inRun []).d.standby = false ∧ State.reset.d.portUp = false) ∧
    isEnableWord (inRun []).c 0x10F01C = true ∧ isEnableWord (inRun []).c 0x10004 = false ∧
    (let k : Check := { addr := 0x10F01C, val := 2 }
     (onCfg (fun x => { x with checks := [k] }) (inRun [])).d.cfg.checks = k :: []) := by
  unfold HostRuns; decide +kernel


/-- A channel whose enable is 1 as written and in force stays enabled as its words are brought into force. -/
theorem loadChan_enabled (k : Nat) (s : State) (h : s.c.w (chanA k 0) = s.c.f (chanA k 0)) : (loadChan k s).c.chanEn k = s.c.chanEn k := by
  let P : Regs → Prop := fun r => tget (resetWord (chanA k 0)) r.f (chanA k 0) = s.c.f (chanA k 0) ∧ tget (resetWord (chanA k 0)) r.w (chanA k 0) = s.c.f (chanA k 0)
  have one : ∀ a r, P r → P (r.load1 a) := fun a r q => ⟨by rw [load1_f]; split; exacts [q.2, q.1], by rw [load1_w]; exact q.2⟩
  have many : ∀ a n r, P r → P (r.load a n) := fun a n r q => forEach_keeps P _ _ _ (fun i r q => one _ r q) q
  have all : P (loadChan k s).c.reg := by
    unfold loadChan
    have h1 : P (s.c.reg.load (chanA k 0) 8) := many _ _ _ ⟨rfl, h⟩
    have h2 := forEach_keeps P (List.range 512) _ (fun i r => if fld (tget 0 r.w (swA i 0)) 16 16 = k then r.load (swA i 0) 4 else r)
      (fun i r q => by split; exacts [many _ _ _ q, q]) h1
    dsimp only
    split
    · exact many _ _ _ h2
    · exact h2
  show bit ((loadChan k s).c.f (chanA k 0)) 0 = bit (s.c.f (chanA k 0)) 0
  rw [show (loadChan k s).c.f (chanA k 0) = s.c.f (chanA k 0) from all.1]

def aVisit (k : Nat) (uns : Bool) : Visit := { desc := k, guard := false, ext := false, unsettled := uns }
def visiting (k : Nat) (uns : Bool) (s : State) : State := withD (fun d => d.setBank (k / 64) { d.bank (k / 64) with visit := some (aVisit k uns) }) s
def aMeas : VisitMeas :=
  { vin := [], vref := 0, sense := 0, probe := 0, compliance := false, overload := false, overloadAny := true, vcurr := 0, winIn := true, winSn := false }

theorem witness_FrontVisits :
    (let s := inRun [(bankA 15, 1), (descA 1023 0, 3)]
     s.d.live s.c = true ∧ s.c.bankEn (1023 / 64) = true ∧ s.c.descEn 1023 = true ∧ s.c.descGuard 1023 = true ∧ (s.d.bank (1023 / 64)).visit = none) ∧
    (let s := visiting 1023 false (inRun [(chanA 1023 0, 1), (descA 1023 1, 2)])
     (s.d.bank 15).visit = some (aVisit 1023 false) ∧ (aVisit 1023 false).desc / 64 = 15 ∧ s.d.standby = false ∧ s.c.descExc 1023 = 2 ∧ aMeas.overloadAny = true) ∧
    (let s := visiting 0 true (inRun [(chanA 0 0, 1), (descA 0 1, 1)])
     (s.d.bank 0).visit = some (aVisit 0 true) ∧ s.d.standby = false ∧ s.c.descExc 0 ≠ 0 ∧ (aVisit 0 true).unsettled = true) ∧
    (let s := visiting 0 false (inRun [(chanA 0 0, 1)])
     (s.d.bank 0).visit = some (aVisit 0 false) ∧ s.d.standby = false ∧ s.c.descExc 0 = 0 ∧
       (visitVerdict s.c (s.d.setBank 0 { s.d.bank 0 with visit := none, visits := ((s.d.bank 0).visits + 1) % 2 ^ 32 }) 0 aMeas).2.2 ≠ 0) ∧
    (let s := standbyOf (visiting 0 false (inRun [(chanA 0 0, 1)]))
     (s.d.bank 0).visit = some (aVisit 0 false) ∧ s.d.standby = true) := by decide +kernel

theorem witness_FrontVisits_enabled : (loadChan 0 (visiting 0 false (inRun [(chanA 0 0, 1)]))).c.chanEn 0 = true :=
  (loadChan_enabled 0 _ (by decide)).trans (by decide)

theorem witness_FrontServices :
    (let s := atMs 60000 (withD (fun d => d.setBank 15 { d.bank 15 with retryAt := some 60000 }) (inRun [(bankA 15, 1)]))
     (s.d.bank 15).retryAt = some 60000 ∧ 60000 ≤ s.d.ms ∧ s.d.live s.c = true ∧ s.c.bankEn 15 = true) ∧
    (let s := atMs 59999 (withD (fun d => d.setBank 15 { d.bank 15 with retryAt := some 60000 }) (inRun [(bankA 15, 1)]))
     (s.d.bank 15).retryAt = some 60000 ∧ s.d.ms < 60000) ∧
    (let s := atMs 11 (withD (fun d => d.setChan 1023 { d.chan 1023 with state := 1, noRec := some 11 }) (inRun [(chanA 1023 0, 1), (chanA 1023 6, 0xA0000)]))
     (1023 : Nat) < 1024 ∧ s.c.chanEn 1023 = true ∧ s.d.glb.st ≠ .dormant ∧ s.d.glb.st ≠ .boot ∧ s.d.glb.st ≠ .scan ∧ staleLimit s.c s.d 1023 < s.d.chanAge 1023 ∧
       (s.d.chan 1023).noRec = some 11 ∧ 11 ≤ s.d.ms ∧ s.d.flt.find (0x5000 + 1023) = none ∧ (s.d.chan 1023).state = 1) ∧
    (let s := atMs 11 (withD (fun d => d.setChan 1023 { d.chan 1023 with state := 3, noRec := none }) (inRun [(chanA 1023 0, 1), (chanA 1023 6, 0xA0000)]))
     s.c.chanEn 1023 = true ∧ staleLimit s.c s.d 1023 < s.d.chanAge 1023 ∧ (s.d.chan 1023).noRec = none ∧ (s.d.chan 1023).state = 3) ∧
    (let s := atMs 10 (inRun [(chanA 1023 0, 1), (chanA 1023 6, 0xA0000)])
     s.d.chanAge 1023 ≤ staleLimit s.c s.d 1023) ∧
    (((inRun []).d.bank 15).selftest = true ∧ ((withD (fun d => d.setBank 15 { d.bank 15 with selftest := false }) (inRun [])).d.bank 15).selftest = false) ∧
    (15 < (inRun []).c.fx.nBanks ∧ HostRuns (bankA 15 + 0x1C) false (inRun []) ∧ selfOk 3372220 3355443 = true ∧ selfOk 3372221 3355443 = false) ∧
    ((inRun []).d.sessionOn = false ∧ (inRun []).d.checkingAt (bankA 15 + 0x1C) = false ∧ (inRun []).c.img.ok = true) := by
  unfold HostRuns; decide +kernel

theorem witness_FrontServices_lists :
    (let s := onCfg (fun x => { x with checks := [{ addr := bankA 15 + 0x1C, val := 2 }] }) (inRun [])
     HostRuns (bankA 15 + 0x1C) false s ∧ s.d.sessionOn = false ∧ s.d.checkingAt (bankA 15 + 0x1C) = true) ∧
    (let s := onCfg (fun x => { x with session := .opened }) (inRun [])
     HostRuns (bankA 15 + 0x1C) false s ∧ s.d.sessionOn = true) := by
  unfold HostRuns; decide +kernel

def withCell (n : Nat) (f : Cell → Cell) (s : State) : State := withD (fun d => d.setCell n (f (d.cell n))) s
def withCtg (n : Nat) (f : Ctg → Ctg) (s : State) : State := withD (fun d => d.setCtg n (f (d.ctg n))) s
def aSweep (drive ovf : Bool) : SweepRec := { gs := [], bs := [], drive := drive, ovf := ovf }
/-- Cell 7 enabled, with the average of 2 sweeps, one spot and grain curve 1, a sweep under way. -/
def sweeping (f : Cell → Cell) : State := withCell 7 f (withCell 7 (fun x => { x with sweeping := true }) (inRun [(cellA 7, 0x02010101)]))

theorem witness_CellSweeps :
    ((withCell 7 (fun x => x) (inRun [])).d.cell 7).sweeping = false ∧ (inRun []).c.cellEn 7 = false ∧ (standbyOf (inRun [])).d.standby = true ∧
    (let s := sweeping (fun x => { x with dropSweep := true })
     (s.d.cell 7).sweeping = true ∧ s.c.cellEn 7 = true ∧ s.d.standby = false ∧ (s.d.cell 7).dropSweep = true) ∧
    (let s := sweeping (fun x => x)
     (s.d.cell 7).sweeping = true ∧ s.c.cellEn 7 = true ∧ s.d.standby = false ∧ (s.d.cell 7).dropSweep = false ∧ (s.d.cell 7).cal = none ∧
       (s.d.cell 7).got.length + 1 < s.c.cellAvg 7) ∧
    (let s := sweeping (fun x => { x with got := [aSweep true false] })
     (s.d.cell 7).sweeping = true ∧ s.c.cellEn 7 = true ∧ s.d.standby = false ∧ (s.d.cell 7).dropSweep = false ∧ (s.d.cell 7).cal = none ∧
       s.c.cellAvg 7 ≤ (s.d.cell 7).got.length + 1 ∧ (s.c.grain (s.c.cellCurve 7)).isSome = true ∧ ∃ q ∈ (s.d.cell 7).got, q.drive = true) ∧
    (let s := sweeping (fun x => { x with got := [aSweep false true] })
     s.c.cellAvg 7 ≤ (s.d.cell 7).got.length + 1 ∧ (∀ q ∈ (s.d.cell 7).got, q.drive = false) ∧ ∃ q ∈ (s.d.cell 7).got, q.ovf = true) ∧
    (let s := sweeping (fun x => { x with got := [aSweep false false], ctgChange := true })
     s.c.cellAvg 7 ≤ (s.d.cell 7).got.length + 1 ∧ (∀ q ∈ (s.d.cell 7).got, q.drive = false) ∧ (∀ q ∈ (s.d.cell 7).got, q.ovf = false) ∧
       (s.d.cell 7).ctgChange = true) ∧
    (let s := withCtg 7 (fun x => { x with state := 2 }) (sweeping (fun x => { x with got := [aSweep false false] }))
     s.c.cellAvg 7 ≤ (s.d.cell 7).got.length + 1 ∧ (s.d.cell 7).ctgChange = false ∧ s.d.ctgOk 7 = true ∧ (s.d.cell 7).rtd = none) ∧
    (let k : CalRun := { kind := 1, got := List.replicate 14 (aSweep false false), started := true }
     let s := sweeping (fun x => { x with cal := some k })
     (s.d.cell 7).dropSweep = false ∧ (s.d.cell 7).cal = some k ∧ k.started = true ∧ k.got.length + 1 < 16) ∧
    (let k : CalRun := { kind := 2, got := List.replicate 15 (aSweep false false), started := true }
     let s := sweeping (fun x => { x with cal := some k })
     (s.d.cell 7).dropSweep = false ∧ (s.d.cell 7).cal = some k ∧ k.started = true ∧ 16 ≤ k.got.length + 1 ∧ k.kind = 2) := by decide +kernel

theorem witness_CellServices :
    (let s := withCtg 7 (fun x => x.write 0x14 (leBytes 4 1000000)) (inRun [(cellA 7, 0x01010101)])
     s.c.cellEn 7 = true ∧ s.d.standby = false ∧ s.d.glb.st ≠ .dormant ∧ s.d.glb.st ≠ .boot ∧ ¬((25000 : Int) < 25000 ∨ (2450000 : Int) < 25000) ∧
       ptTemp (qOhm 2097152 0 262144000) (rdivI ((((s.d.ctg 7).le 0x14 4 : Nat) : Int) * 65536) 1000) = some 0) ∧
    ptTemp (qOhm (-1) 0 262144000) (rdivI 65536000 1000) = none ∧
    (let s := atMs 101 (withCell 7 (fun x => { x with state := 1 }) (inRun [(cellA 7, 0x01010101), (cellA 7 + 0x10, 1)]))
     s.c.cellEn 7 = true ∧ cellUsable s.c s.d 7 = true ∧ cellStaleLimit s.c 7 < s.d.ms - (s.d.cell 7).at_ ∧ 7 < s.c.fx.nCells ∧ (s.d.cell 7).state ≠ 3) ∧
    (let s := inRun [(cellA 7, 0x01010101)]
     HostRuns (cellA 7 + 0x180) false s ∧ (s.d.cell 7).cal = none ∧ s.c.cellEn 7 = true ∧ (s.d.ctg 7).state = 0) ∧
    (let s := withCtg 7 (fun x => { x with state := 2 }) (inRun [(cellA 7, 0x01010101)])
     HostRuns (cellA 7 + 0x180) false s ∧ (s.d.cell 7).cal = none ∧ s.c.cellEn 7 = true ∧ (s.d.ctg 7).state ≠ 0) ∧
    (HostRuns (cellA 7 + 0x180) false (inRun []) ∧ ((inRun []).d.cell 7).cal = none ∧ (inRun []).c.cellEn 7 = false) ∧
    (let s := withCell 7 (fun x => { x with cal := some { kind := 1, got := [], started := false } }) (inRun [])
     HostRuns (cellA 7 + 0x180) false s ∧ (s.d.cell 7).cal ≠ none) := by unfold HostRuns; decide +kernel

def aTx (kind row attempts : Nat) : CtgTx := { kind := kind, row := row, attempts := attempts, data := [], stale := false }
def answer (data : List Byte) : List Byte := let l := (0 : Byte) :: data; l ++ leBytes 4 (crc32c l)
def goodAnswer (t : CtgTx) (bytes : List Byte) : Bool :=
  bytes.length == 5 + txLen t && leNat (bytes.drop (1 + txLen t)) == crc32c (bytes.take (1 + txLen t)) && bytes.headD 1 == 0

theorem witness_CartridgeLine :
    ((inRun []).d.ctg 7).tx = none ∧
    (let s := withCtg 7 (fun x => { x with tx := some (aTx 4 0 1) }) (inRun [])
     (s.d.ctg 7).tx = some (aTx 4 0 1) ∧ (aTx 4 0 1).attempts < 2 ∧ goodAnswer (aTx 4 0 1) [] = false) ∧
    (let s := withCtg 7 (fun x => { x with tx := some (aTx 3 0 2), state := 2 }) (inRun [])
     (s.d.ctg 7).tx = some (aTx 3 0 2) ∧ 2 ≤ (aTx 3 0 2).attempts ∧ 3 ≤ (aTx 3 0 2).kind ∧ (s.d.cell 7).cal = none ∧ 7 < s.c.fx.nCells ∧ (s.d.ctg 7).state ≠ 0) ∧
    (let s := withCtg 7 (fun x => { x with tx := some (aTx 2 0x100 2), consec := 9 }) (inRun [])
     (s.d.ctg 7).tx = some (aTx 2 0x100 2) ∧ 2 ≤ (aTx 2 0x100 2).attempts ∧ (aTx 2 0x100 2).kind < 3 ∧ (s.d.ctg 7).consec + 1 = 10 ∧ 7 < s.c.fx.nCells) ∧
    (let s := withCtg 7 (fun x => { x with tx := some (aTx 1 0x100 0) }) (inRun [])
     (s.d.ctg 7).tx = some (aTx 1 0x100 0) ∧ goodAnswer (aTx 1 0x100 0) (answer [1, 0, 0, 0]) = true ∧ (s.d.cell 7).cal = none ∧ (s.d.ctg 7).absent = false) ∧
    (let s := withCtg 7 (fun x => { x with tx := some (aTx 4 0 0), serial := 5, state := 2 }) (inRun [])
     goodAnswer (aTx 4 0 0) (answer [5, 0, 0, 0, 0, 0]) = true ∧ leNat [5, 0, 0, 0, 0, (0 : Byte)] = (s.d.ctg 7).serial ∧ (s.d.ctg 7).state ≠ 0 ∧
       goodAnswer (aTx 4 0 0) (answer [6, 0, 0, 0, 0, 0]) = true ∧ leNat [6, 0, 0, 0, 0, (0 : Byte)] ≠ (s.d.ctg 7).serial) ∧
    (goodAnswer (aTx 3 0xE0 0) (answer (List.replicate 32 0)) = true ∧ (aTx 3 0xE0 0).row + 32 < 0x130 ∧
      goodAnswer (aTx 3 0x120 0) (answer (List.replicate 16 0)) = true ∧ 0x130 ≤ (aTx 3 0x120 0).row + 32 ∧
      ctgCheck (inRun []).c 7 (({ (inRun []).d.ctg 7 with tx := none, mem := [] } : Ctg).write 0 (List.replicate 304 0)) ≠ 0) := by decide +kernel

theorem witness_CartridgeServices :
    (ctgRuns (inRun []).c (inRun []).d 7 = false ∧ (inRun []).c.cellEn 7 = false ∧ ((inRun []).d.ctg 7).retryAt = none ∧ ((inRun []).d.ctg 7).lineFault = false) ∧
    (let s := inRun [(cellA 7, 1)]
     ctgRuns s.c s.d 7 = true ∧ (s.d.ctg 7).lineFault = false ∧ (s.d.ctg 7).tx = none ∧ (s.d.ctg 7).wantIncr = false ∧ (s.d.ctg 7).wantRows = [] ∧
       (s.d.ctg 7).wantRead = false ∧ s.d.standby = false ∧ HostRuns (0x15002C + 0x40 * 7) false s ∧ 7 < s.c.fx.nCells) ∧
    (let s := withCtg 7 (fun x => { x with lineFault := true }) (inRun [(cellA 7, 1)])
     ctgRuns s.c s.d 7 = true ∧ (s.d.ctg 7).lineFault = true ∧ (s.d.ctg 7).tx = none) ∧
    (let s := withCtg 7 (fun x => { x with acc := 900000, state := 2 }) (inRun [(cellA 7, 1)])
     900000 ≤ (s.d.ctg 7).acc ∧ s.c.cellEn 7 = true ∧ ctgRuns s.c s.d 7 = true ∧ (s.d.ctg 7).lineFault = false ∧ (s.d.ctg 7).tx = none ∧
       (s.d.ctg 7).retryAt = none ∧ (s.d.ctg 7).state = 2) ∧
    (let s := atMs 1000 (withCtg 7 (fun x => { x with retryAt := some 1000, wantIncr := true, state := 2 }) (inRun [(cellA 7, 1)]))
     (s.d.ctg 7).retryAt = some 1000 ∧ 1000 ≤ s.d.ms ∧ ctgRuns s.c s.d 7 = true ∧ (s.d.ctg 7).tx = none ∧ (s.d.ctg 7).wantIncr = true ∧ (s.d.ctg 7).state = 2) ∧
    (let s := atMs 999 (withCtg 7 (fun x => { x with retryAt := some 1000 }) (inRun []))
     (s.d.ctg 7).retryAt = some 1000 ∧ s.d.ms < 1000) := by unfold HostRuns; decide +kernel

def withCol (n : Nat) (f : Col → Col) (s : State) : State := withD (fun d => d.setCol n (f (d.col n))) s

theorem witness_ColumnCommands :
    (((inRun []).d.col 1).work = none ∧ ((withCol 1 (fun x => { x with work := some ColCore.empty }) (inRun [])).d.col 1).work ≠ none) ∧
    (1 < (inRun []).c.fx.nCols ∧ HostRuns (colA 1 + 0xAC) false (inRun []) ∧ (inRun []).c.colBatch 1 = false ∧ (inRun [(colA 1, 2)]).c.colBatch 1 = true) ∧
    (HostRuns (colA 1 + 0x94) false (inRun []) ∧ (16384 ≤ (16384#32 : Word).toNat ∧ (16384#32 : Word).toNat ≤ 262144) ∧ (16384 ≤ (262144#32 : Word).toNat ∧ (262144#32 : Word).toNat ≤ 262144) ∧
      (16383#32 : Word).toNat < 16384 ∧ 262144 < (262145#32 : Word).toNat) ∧
    (let s := atMs 60000 (inRun [(colA 1, 1), (colA 1 + 0x34, 0x3C0000), (colA 1 + 0x3C, 0)])
     s.c.colEn 1 = true ∧ s.d.glb.st = .run ∧ s.c.colBatch 1 = false ∧ s.c.colDis 1 ≠ 0xFF ∧ (s.d.col 1).openLoop = false ∧
       (s.d.col 1).qualMs + 1000 * s.c.colOlDelay 1 ≤ s.d.ms) ∧
    (let s := atMs 60001 (inRun [(colA 1, 1), (colA 1 + 0x40, 60)])
     s.c.colEn 1 = true ∧ s.d.glb.st = .run ∧ s.c.colInlet 1 ≠ 0xFF ∧ (s.d.col 1).inletLost = false ∧ (s.d.col 1).inletMs + 1000 * s.c.colEntryHold 1 < s.d.ms) := by
  unfold HostRuns; decide +kernel

theorem witness_LoopCommands :
    (63 < (inRun []).c.fx.nLoops ∧ HostRuns (loopA 63 + 0xA0) false (inRun []) ∧ fld (3#32 : Word) 0 2 = 3 ∧ fld (1#32 : Word) 0 2 = 1 ∧ ((inRun []).c.loopRef 63 3).1 = 0 ∧
      fld (2#32 : Word) 0 2 = 2 ∧ ((inRun []).c.loopRef 63 6).1 = 0 ∧ (inRun []).c.loopEn 63 = false) ∧
    (let s := inRun [(loopA 63, 1), (loopA 63 + 12, 1), (loopA 63 + 24, 1)]
     HostRuns (loopA 63 + 0xA0) false s ∧ (s.c.loopRef 63 3).1 ≠ 0 ∧ (s.c.loopRef 63 6).1 ≠ 0 ∧ s.c.loopEn 63 = true) ∧
    HostRuns (loopA 63 + 0xF0) false (inRun []) ∧ 31 < (inRun []).c.fx.nGens ∧ HostRuns (prfA 31 + 0x24) false (inRun []) := by unfold HostRuns; decide +kernel

def withTrc (k : Nat) (st : Nat) (s : State) : State := withD (fun d => d.setTrc k { d.trc k with state := st }) s

theorem witness_TraceCommands :
    ((7 : Nat) < 8 ∧ HostRuns (trcA 7 + 0x18) true (standbyOf (inRun [])) ∧ ((inRun []).d.trc 7).state ≠ 2 ∧ ((inRun []).d.trc 7).state ≠ 3 ∧ (inRun []).c.img.ok = true) ∧
    (HostRuns (trcA 7 + 0x18) true (withTrc 7 2 (inRun [])) ∧ ((withTrc 7 2 (inRun [])).d.trc 7).state = 2) ∧
    (HostRuns (trcA 7 + 0x18) true (withTrc 7 3 (inRun [])) ∧ ((withTrc 7 3 (inRun [])).d.trc 7).state = 3) ∧
    (let s := withImg (fun i => { i with ok := false }) (inRun [])
     HostRuns (trcA 7 + 0x18) true s ∧ s.c.img.ok = false) := by unfold HostRuns; decide +kernel

def withDraft (n : Nat) (f : Draft → Draft) (s : State) : State := withD (fun d => d.setDraft n (f (d.draft n))) s
def withUnit (u : Nat) (f : UnitS → UnitS) (s : State) : State := withD (fun d => d.setUnit u (f (d.unit u))) s

theorem witness_DraftCommands :
    (let s := inRun [(draftA 3 0, 1)]
     3 < s.c.fx.nDrafts ∧ HostRuns (draftR 3 0x10) false s ∧ s.c.draftEn 3 = true ∧ s.d.glb.st = .run ∧ (s.d.draft 3).held = false ∧
       (s.d.draft 3).holdPend = false ∧ (s.d.draft 3).wantHold = false ∧ (s.d.draft 3).taken.hold = false) ∧
    (let s := withDraft 3 (fun x => { x with held := true }) (inRun [(draftA 3 0, 1)])
     HostRuns (draftR 3 0x10) false s ∧ (s.d.draft 3).held = true) ∧
    (let s := atMs 500 (withDraft 3 (fun x => { x with startPend := false }) (inRun [(draftA 3 0, 1), (stepA 3 0 0, 0x100), (stepA 3 0 8, 500)]))
     s.c.draftEn 3 = true ∧ s.d.glb.st = .run ∧ (s.d.draft 3).held = false ∧ (s.d.draft 3).startPend = false ∧
       firstTrans s.c (passNow s.c s.d) 3 (s.d.draft 3).step ((s.d.draft 3).stepTime s.d.ms) = none ∧ 0 < s.c.stepTimeout 3 (s.d.draft 3).step ∧
       s.c.stepTimeout 3 (s.d.draft 3).step ≤ (s.d.draft 3).stepTime s.d.ms) ∧
    (let s := atMs 499 (withDraft 3 (fun x => { x with startPend := false }) (inRun [(draftA 3 0, 1), (stepA 3 0 8, 500)]))
     ¬s.c.stepTimeout 3 (s.d.draft 3).step ≤ (s.d.draft 3).stepTime s.d.ms) ∧
    HostRuns 0x1C0014 false (inRun []) ∧ HostRuns 0x1C0018 false (inRun []) := by unfold HostRuns; decide +kernel

theorem witness_UnitCommands :
    (255 < (inRun []).c.fx.nUnits ∧ HostRuns (0x1C1008 + 0x10 * 255) false (inRun []) ∧ (inRun []).c.unitCmdr 255 = 0 ∧ (inRun []).c.unitEn 255 = false) ∧
    ((inRun [(unitA 255 0, 0x10000)]).c.unitCmdr 255 ≠ 0) ∧
    (let s := inRun [(unitA 255 0, 1)]
     HostRuns (0x1C1008 + 0x10 * 255) false s ∧ s.c.unitCmdr 255 = 0 ∧ s.c.unitEn 255 = true ∧ s.d.seq.passMs = none) ∧
    (let s := onSeq (fun x => { x with passMs := some 0 }) (inRun [(unitA 255 0, 1)])
     HostRuns (0x1C1008 + 0x10 * 255) false s ∧ s.c.unitCmdr 255 = 0 ∧ s.c.unitEn 255 = true ∧ s.d.seq.passMs ≠ none) ∧
    (let s := withUnit 255 (fun x => { x with state := 4 }) (inRun [(unitA 255 0, 1)])
     s.c.under 255 256 255 = true ∧ (s.d.unit 255).state = 4) := by unfold HostRuns; decide +kernel

/-- An enabled leaf unit (KIND 1) in a state since 0 ms, with its timers all at 5 (START_TO and STOP_TO in 0.1 s, as the trip times), whose
outputs name no channel. -/
def leafUnit (st ms : Nat) (words : List (Nat × Word)) (f : UnitS → UnitS) : State :=
  atMs ms (withUnit 255 (fun x => f { x with state := st }) (inRun ([(unitA 255 0, 0x101), (unitA 255 1, 0xFFFF0000), (unitA 255 2, 0x5FFFF), (unitA 255 3, 0x50005), (unitA 255 19, 0x50005)] ++ words)))

theorem witness_UnitEvents :
    (let s := leafUnit 1 500 [(unitA 255 4, 0x101)] (fun x => x)
     s.c.unitEn 255 = true ∧ s.d.glb.st = .run ∧ s.c.unitKind 255 ≠ 6 ∧ (s.d.unit 255).state = 1 ∧ (trippedUnits s.c s.d).contains 255 = false ∧ unitLatched s.c s.d.frozen 255 = false ∧ heldFor (unitSeen s.c (passNow s.c s.d) 255 (s.d.unit 255)).trip1At (s.c.fF (unitA 255 19) 0 16) s.d.ms = false ∧ 0 < s.c.fF (unitA 255 2) 16 16 ∧
       unitProof s.c (passNow s.c s.d) 255 = false ∧ (s.d.unit 255).enterMs + 100 * s.c.fF (unitA 255 2) 16 16 ≤ s.d.ms) ∧
    (let s := leafUnit 3 500 [(unitA 255 7, 0x101)] (fun x => x)
     s.c.unitEn 255 = true ∧ s.d.glb.st = .run ∧ s.c.unitKind 255 ≠ 6 ∧ (s.d.unit 255).state = 3 ∧ (trippedUnits s.c s.d).contains 255 = false ∧ unitLatched s.c s.d.frozen 255 = false ∧ 0 < s.c.fF (unitA 255 3) 0 16 ∧ unitRest s.c (passNow s.c s.d) 255 = false ∧
       (s.d.unit 255).enterMs + 100 * s.c.fF (unitA 255 3) 0 16 ≤ s.d.ms) ∧
    (let s := leafUnit 2 500 [(unitA 255 4, 0x101)] (fun x => { x with plossAt := some 0 })
     s.c.unitEn 255 = true ∧ s.d.glb.st = .run ∧ s.c.unitKind 255 ≠ 6 ∧ (s.d.unit 255).state = 2 ∧ (trippedUnits s.c s.d).contains 255 = false ∧ unitLatched s.c s.d.frozen 255 = false ∧ heldFor (unitSeen s.c (passNow s.c s.d) 255 (s.d.unit 255)).trip1At (s.c.fF (unitA 255 19) 0 16) s.d.ms = false ∧ heldFor (unitSeen s.c (passNow s.c s.d) 255 (s.d.unit 255)).trip2At (s.c.fF (unitA 255 19) 16 16) s.d.ms = false ∧
       heldFor (unitSeen s.c (passNow s.c s.d) 255 (s.d.unit 255)).plossAt (s.c.fF (unitA 255 3) 16 16) s.d.ms = true) ∧
    (let s := leafUnit 1 500 [(unitA 255 13, 1)] (fun x => { x with trip1At := some 0 })
     s.c.unitEn 255 = true ∧ s.d.glb.st = .run ∧ s.c.unitKind 255 ≠ 6 ∧ (s.d.unit 255).state = 1 ∧ (trippedUnits s.c s.d).contains 255 = false ∧ unitLatched s.c s.d.frozen 255 = false ∧ heldFor (unitSeen s.c (passNow s.c s.d) 255 (s.d.unit 255)).trip1At (s.c.fF (unitA 255 19) 0 16) s.d.ms = true) ∧
    (let s := leafUnit 2 500 [(unitA 255 16, 1)] (fun x => { x with trip2At := some 0 })
     s.c.unitEn 255 = true ∧ s.d.glb.st = .run ∧ s.c.unitKind 255 ≠ 6 ∧ (s.d.unit 255).state = 2 ∧ (trippedUnits s.c s.d).contains 255 = false ∧ unitLatched s.c s.d.frozen 255 = false ∧ heldFor (unitSeen s.c (passNow s.c s.d) 255 (s.d.unit 255)).trip1At (s.c.fF (unitA 255 19) 0 16) s.d.ms = false ∧ heldFor (unitSeen s.c (passNow s.c s.d) 255 (s.d.unit 255)).trip2At (s.c.fF (unitA 255 19) 16 16) s.d.ms = true) ∧
    (let s := inRun [(unitA 255 0, 0x601)]
     s.c.unitEn 255 = true ∧ s.d.glb.st = .run ∧ s.c.unitKind 255 = 6) ∧ (inRun []).c.unitEn 255 = false := by decide +kernel

def withGrp (g : Nat) (f : FGrp → FGrp) (s : State) : State := withD (fun d => d.setGrp g (f (d.grp g))) s
def withDch (k : Nat) (f : DChan → DChan) (s : State) : State := withD (fun d => d.setDch k (f (d.dch k))) s
def withMch (n : Nat) (f : MChan → MChan) (s : State) : State := withD (fun d => d.setMch n (f (d.mch n))) s
/-- Digital group 3 enabled, and channel 63 in MODE 3 (an output of the host) or another MODE. -/
def dig (mode : Nat) : List (Nat × Word) := [(grpA 3, 1), (dioA 63 0, BitVec.ofNat 32 (256 * mode + 1))]

theorem witness_OutputLatches :
    (let s := withDch 63 (fun x => { x with fedCnt := 3, drvCnt := 3 }) (inRun (dig 3))
     (63 : Nat) < 64 ∧ s.c.grpEn (63 / 16) = true ∧ s.c.isOut 63 = true ∧ s.d.glb.st ≠ .dormant ∧ s.c.pairOdd 63 = false ∧ (s.d.grp (63 / 16)).line ≠ 2 ∧
       3 ≤ (s.d.dch 63).fedCnt ∧ (s.d.dch 63).latch = 0 ∧ 3 ≤ (s.d.dch 63).drvCnt ∧ (s.d.dch (s.c.owner 63)).latch = 0) ∧
    (let s := withGrp 3 (fun x => { x with applied := 2 ^ 15 }) (inRun [(grpA 3, 1), (dioA 63 0, 0x309)])
     s.c.grpEn (63 / 16) = true ∧ s.c.isOut 63 = true ∧ s.c.dioOpenChk 63 = true ∧ (s.d.grp (63 / 16)).applied.testBit (63 % 16) = true ∧ (s.d.dch 63).load < 10 ∧
       (s.d.dch 63).openLoad = false) := by decide +kernel

theorem witness_OutputOverload :
    (let s := withGrp 3 (fun x => { x with applied := 2 ^ 15 }) (inRun (dig 3))
     (63 : Nat) < 64 ∧ s.c.owner 63 = 63 ∧ s.c.grpEn (63 / 16) = true ∧ s.c.isOut 63 = true ∧ s.d.glb.st ≠ .dormant ∧
       (s.d.grp (63 / 16)).applied.testBit (63 % 16) = true ∧ (s.d.dch 63).retries < 3) ∧
    (let s := withDch 63 (fun x => { x with retries := 3 }) (withGrp 3 (fun x => { x with applied := 2 ^ 15 }) (inRun (dig 3)))
     s.c.owner 63 = 63 ∧ (s.d.grp (63 / 16)).applied.testBit (63 % 16) = true ∧ (s.d.dch 63).retries = 3) ∧
    (let s := withDch 63 (fun x => { x with phase := 1 }) (inRun (dig 3))
     s.c.owner 63 = 63 ∧ (s.d.dch 63).phase = 1 ∧ (s.d.grp (63 / 16)).latch = 0) ∧
    ((withDch 63 (fun x => { x with phase := 3 }) (inRun [])).d.dch 63).phase = 3 := by decide +kernel

theorem witness_FieldClears :
    (let s := withDch 63 (fun x => { x with latch := 1 }) (inRun (dig 2))
     (63 : Nat) < 64 ∧ s.c.owner 63 = 63 ∧ (3 : Nat) < 4 ∧ HostRuns (0x20020C + 63 / 16 * 0x1000 + 63 % 16 * 0x10) false s ∧ (s.d.dch 63).latch ≠ 0 ∧ s.c.dioMode 63 = 2) ∧
    (HostRuns (grpA 3 + 0xC) false (inRun []) ∧ ((inRun []).d.grp 3).restorable = false) ∧
    (let s := withGrp 3 (fun x => { x with restorable := true, latch := 4, cond := 4 }) (inRun [])
     HostRuns (grpA 3 + 0xC) false s ∧ (s.d.grp 3).restorable = true) := by unfold HostRuns; decide +kernel

theorem witness_MoverClears :
    (let s := withMch 31 (fun x => { x with state := 6 }) (inRun [])
     (31 : Nat) < 32 ∧ (1 : Nat) < 2 ∧ HostRuns (0x220058 + 0x100 * 31) false s ∧ (s.d.mch 31).state = 6) ∧
    (HostRuns (grpA (4 + 1) + 0xC) false (inRun []) ∧ ((inRun []).d.grp (4 + 1)).restorable = false) ∧
    (let s := withGrp 5 (fun x => { x with restorable := true }) (inRun [])
     HostRuns (grpA (4 + 1) + 0xC) false s ∧ (s.d.grp (4 + 1)).restorable = true) := by unfold HostRuns; decide +kernel

theorem witness_InputSampling :
    (let s := withDch 63 (fun x => { x with run := 5, cand := true }) (inRun (dig 1))
     (3 : Nat) < 4 ∧ (63 : Nat) < 64 ∧ s.c.grpEn 3 = true ∧ (s.d.grp 3).cond ≠ 5 ∧ (s.d.grp 3).cond ≠ 6 ∧ 63 / 16 = 3 ∧ (s.d.dch 63).run ≠ 0 ∧
       (0x8000 : Nat).testBit (63 % 16) = (s.d.dch 63).cand ∧ (0 : Nat).testBit (63 % 16) ≠ (s.d.dch 63).cand ∧ (s.d.dch 48).run = 0) ∧
    (let s := withDch 63 (fun x => { x with run := 16, cand := true, hasState := true }) (inRun [(grpA 3, 1), (dioA 63 0, 0x1010101)])
     s.c.isIn 63 = true ∧ s.c.grpEn (63 / 16) = true ∧ s.d.standby = false ∧ s.c.debNeed 63 ≤ (s.d.dch 63).run ∧ dioCause s.d 63 ≠ 3 ∧
       (s.d.dch 63).cand ≠ (s.d.dch 63).level ∧ s.c.dioGuard 63 = false ∧ (s.d.dch 63).hasState = true ∧ (s.d.dch 63).level = false ∧ (s.d.dch 63).cand = true ∧
       s.d.glb.st = .run ∧ s.c.dioChg 63 % 2 = 1 ∧ s.d.flt.events.length < 256) ∧
    (let s := inRun [(grpA 3, 1), (dioA 63 0, 0x105)]
     s.c.isIn 63 = true ∧ s.c.grpEn (63 / 16) = true ∧ s.c.bF (dioA 63 0) 2 = true ∧ s.d.glb.st ≠ .dormant ∧ s.d.flt.find (0x8000 + 63) = none) := by decide +kernel

theorem witness_HostOutputs :
    (let s := inRun (dig 3)
     (3 : Nat) < 4 ∧ HostRuns (grpA 3 + 0x18) false s ∧ HostRuns (grpA 3 + 0x1C) false s ∧ 63 / 16 = 3 ∧ bit (0x8000#32 : Word) (63 % 16) = true ∧ s.c.dioMode 63 = 3 ∧
       unitNamed s.c s.d 63 = false) := by unfold HostRuns; decide +kernel

/-- Mover group 1 enabled, and channel 31 of a KIND, with SPINUP 5 s, RETRIES 2 and PAUSE 7 s. -/
def mover (kind : Nat) : List (Nat × Word) :=
  [(grpA 5, 1), (movA 31 0, BitVec.ofNat 32 (256 * kind + 1)), (movA 31 5, 0x50200), (movA 31 6, 7), (unitA 0 0, 0x201), (unitA 0 1, 0x1F0000)]
def running (st ms : Nat) (f : MChan → MChan) : State :=
  atMs ms (withMch 31 (fun x => f { x with state := st }) (withUnit 0 (fun x => { x with pubState := 2 }) (inRun (mover 0))))

theorem witness_ChannelWarnings :
    (let s := inRun (mover 3)
     (31 : Nat) < 32 ∧ (63 : Nat) < 64 ∧ s.c.movEn 31 = true ∧ s.c.movKind 31 = 3 ∧ (s.d.mch 31).outBad ≠ 1) ∧
    (let s := standbyOf (inRun (mover 1))
     s.c.movEn 31 = true ∧ s.c.movKind 31 = 1 ∧ (s.d.mch 31).outBad ≠ 2 ∧ s.d.standby = true ∧ (s.d.mch 31).misAt = none) ∧
    (let s := standbyOf (withDch 63 (fun x => { x with misCnt := 3 }) (inRun (dig 3)))
     s.d.standby = true ∧ s.c.isOut 63 = true ∧ 3 ≤ (s.d.dch 63).misCnt ∧ s.d.openCode (0x8000 + 63) [0x806E] = false) ∧
    (let s := standbyOf (withDch 63 (fun x => { x with own := true }) (inRun (dig 1)))
     s.d.standby = true ∧ s.c.isIn 63 = true ∧ (s.d.dch 63).own ≠ (s.d.dch 63).level ∧ s.d.openCode (0x8000 + 63) [0x806D] = false) := by decide +kernel

theorem witness_FanSupervision :
    (let s := running 2 5000 (fun x => x)
     (31 : Nat) < 32 ∧ s.c.movEn 31 = true ∧ s.c.movPlain 31 = false ∧ s.d.standby = false ∧ s.d.glb.st = .run ∧ runRequest s.c s.d 31 = true ∧
       MChan.frozen s.c s.d 31 = false ∧ (s.d.mch 31).state = 2 ∧ (s.d.mch 31).since + 1000 * s.c.movSpinup 31 ≤ s.d.ms ∧ (s.d.mch 31).speedOk = false ∧
       (s.d.mch 31).evid = false ∧ (s.d.mch 31).retry < s.c.movRetries 31) ∧
    (let s := running 2 5000 (fun x => { x with retry := 2 })
     (s.d.mch 31).state = 2 ∧ (s.d.mch 31).since + 1000 * s.c.movSpinup 31 ≤ s.d.ms ∧ s.c.movRetries 31 ≤ (s.d.mch 31).retry) ∧
    (let s := running 5 7000 (fun x => x)
     (s.d.mch 31).state = 5 ∧ (s.d.mch 31).since + 1000 * s.c.movPause 31 ≤ s.d.ms) ∧
    (let s := running 3 0 (fun x => { x with openIn := true })
     (s.d.mch 31).state = 3 ∧ (s.d.mch 31).openIn = true ∧ (s.d.mch 31).evid = false) := by decide +kernel

theorem witness_FieldSupplyLoss :
    (let s := inRun [(grpA 5, 1)]
     (5 : Nat) < 6 ∧ s.c.grpEn 5 = true ∧ s.d.glb.st ≠ .dormant ∧ (s.d.grp 5).cond ≠ 4 ∧ (s.d.grp 5).latch ≠ 5 ∧ (s.d.grp 5).cond ≠ 5 ∧ (s.d.grp 5).cond ≠ 6) ∧
    (let s := withGrp 5 (fun x => { x with latch := 4, cfOk := true, badRun := 0, now := 1800 }) (inRun [(grpA 5, 1)])
     s.c.grpEn 5 = true ∧ (s.d.grp 5).cond ≠ 5 ∧ (s.d.grp 5).cond ≠ 6 ∧ (s.d.grp 5).latch ≠ 0 ∧ (s.d.grp 5).cfOk = true ∧ (s.d.grp 5).badRun = 0 ∧ 1800 ≤ (s.d.grp 5).now) ∧
    (let s := withGrp 5 (fun x => { x with now := 1960 }) (inRun [(grpA 5, 1)])
     (s.d.grp 5).latch = 0 ∧ 1960 ≤ (s.d.grp 5).now) := by decide +kernel

theorem witness_FieldSupplySample :
    (let s := inRun [(grpA 5, 1)]
     (5 : Nat) < 6 ∧ s.c.grpEn 5 = true ∧ s.d.glb.st ≠ .dormant ∧ (s.d.grp 5).cond = 2 ∧ (s.d.grp 5).latch = 0 ∧ (s.d.grp 5).samples = [] ∧ (s.d.grp 5).low = false) := by decide +kernel

theorem witness_StatusRecordsOfAGroup :
    (let s := withGrp 5 (fun x => { x with badRun := 3 }) (inRun [(grpA 5, 1)])
     (5 : Nat) < 6 ∧ s.c.grpEn 5 = true ∧ s.d.glb.st ≠ .dormant ∧ 3 ≤ (s.d.grp 5).badRun ∧ (s.d.grp 5).cond ≠ 5 ∧ (s.d.grp 5).cond ≠ 6 ∧ s.d.flt.find (grpSrc 5) = none) ∧
    (let s := withGrp 0 (fun x => { x with cond := 5, goodRun := 1000 }) (inRun [(grpA 0, 1)])
     (s.d.grp 0).cond = 5 ∧ 1000 ≤ (s.d.grp 0).goodRun) := by decide +kernel

theorem witness_CommonFaultAndDieTimers :
    (let s := withGrp 5 (fun x => { x with holding := true }) (inRun [(grpA 5, 1)])
     (5 : Nat) < 6 ∧ (s.d.grp 5).holding = true ∧ (s.d.grp 5).holdExp = false ∧ s.d.glb.st ≠ .dormant) ∧
    ((withGrp 5 (fun x => { x with holding := true }) (inState .dormant [])).d.grp 5).holding = true ∧
    (let s := activeOf (withGrp 5 (fun x => { x with line := 0 }) (inRun (mover 0)))
     s.c.grpEn 5 = true ∧ (s.d.grp 5).line ≠ 1 ∧ (s.d.grp 5).holding = false ∧ (1 : Nat) < 2 ∧ s.d.glb.role = .active ∧ 31 / 16 = 1 ∧ (s.d.mch 31).state ≠ 6 ∧
       s.c.movEn 31 = true ∧ (s.d.grp (4 + 1)).latch = 0) := by decide +kernel

theorem witness_FieldFrames :
    ((inState .boot []).d.sends = false ∧ ((inRun []).d.grp 3).line ≠ 0 ∧ (inRun []).c.grpEn 3 = false) ∧
    (let s := withGrp 3 (fun x => { x with line := 0 }) (inRun (dig 2))
     (3 : Nat) < 4 ∧ s.d.sends = true ∧ (s.d.grp 3).line = 0 ∧ s.c.grpEn 3 = true ∧ (s.d.grp 3).cond ≠ 5 ∧ (s.d.grp 3).cond ≠ 6 ∧ s.d.standby = false ∧
       s.c.dioMode (16 * 3 + 15) = 2) ∧
    (let s := withGrp 5 (fun x => { x with line := 0, cond := 6 }) (inRun (mover 0))
     (4 : Nat) ≤ 5 ∧ (5 : Nat) < 6 ∧ s.d.sends = true ∧ (s.d.grp 5).line = 0 ∧ s.c.grpEn 5 = true ∧ (s.d.grp 5).cond = 6 ∧ s.d.standby = false ∧
       s.c.movEn (16 * (5 - 4) + 15) = true ∧ s.c.movPlain (16 * (5 - 4) + 15) = false) := by decide +kernel

def withLoop (n : Nat) (f : LoopS → LoopS) (s : State) : State := withD (fun d => d.setLp n (f (d.lp n))) s
def withDue (l : List Nat) (s : State) : State := withD (fun d => { d with ctl := { d.ctl with due := l } }) s

theorem witness_FramesAndDeadline :
    ((inState .dormant []).d.glb.st = .dormant ∧ State.reset.d.pwr.resetFrom = none ∧ State.reset.d.glb.st = .boot) ∧
    ((inRun []).d.pwr.resetFrom = none ∧ (inRun []).d.glb.st ≠ .boot ∧ (inRun []).d.glb.st ≠ .dormant ∧ (inRun []).d.ctl.due = []) ∧
    (let s := withDue [0, 63] (withLoop 63 (fun x => { x with consec := 2, state := 3 }) (inRun [(loopA 63, 1)]))
     s.d.ctl.due ≠ [] ∧ s.d.ctl.due.Nodup ∧ 63 ∈ s.d.ctl.due ∧ s.c.loopEn 63 = true ∧ (s.d.lp 63).consec = 2 ∧ (s.d.lp 63).state = 3 ∧ s.c.loopEn 0 = false) := by decide +kernel

def withTerm (n : Nat) (f : GTerm → GTerm) (s : State) : State := withD (fun d => d.setTerm n (f (d.term n))) s

theorem witness_GuardTerms :
    ((inRun []).c.fx.nTerms ≤ 64) ∧
    (let s := atMs 500 (withTerm 63 (fun x => { x with tripped := true, relSince := some 0 }) (inRun [(termA 63 0, 0x1F40001)]))
     63 < s.c.fx.nTerms ∧ s.c.termEn 63 = true ∧ s.c.termLatch 63 = false ∧ (s.d.term 63).tripped = true ∧ s.d.termValue 63 = false ∧
       (s.d.term 63).relSince = some 0 ∧ 0 + s.c.termRelMs 63 ≤ s.d.ms ∧ s.c.img.ok = true ∧ s.d.flt.find 0xD100 = none) ∧
    ((63 : Nat) < 64 ∧ HostRuns 0x50018 false (inRun []) ∧ (inRun []).c.img.ok = true ∧ 63 < (inRun []).c.fx.nTerms ∧ (inRun []).d.termValue 63 = false ∧ (inRun []).c.termEn 63 = false) ∧
    (let s := withImg (fun i => { i with ok := false }) (inRun [])
     HostRuns 0x50018 false s ∧ s.c.img.ok = false) ∧
    (let s : State := { inRun [] with c := { (inRun []).c with fx := { Variant.chosen with tierD := false } } }
     HostRuns 0x50018 false s ∧ s.c.img.ok = true ∧ s.c.fx.nTerms ≤ 32) ∧
    (let s := withTerm 63 (fun x => { x with value := true }) (inRun [])
     HostRuns 0x50018 false s ∧ s.d.termValue 63 = true) ∧
    (let s := withTerm 63 (fun x => { x with tripped := true }) (inRun [(termA 63 0, 3)])
     HostRuns 0x50018 false s ∧ s.d.termValue 63 = false ∧ s.c.termEn 63 = true ∧ s.c.termLatch 63 = true ∧ (s.d.term 63).tripped = true) := by
  unfold HostRuns; decide +kernel

theorem witness_FaultCommands :
    (HostRuns 0x40030 false (inRun []) ∧ (inRun []).d.flt.find (inRun []).d.flt.sel = none ∧ (inRun []).d.flt.queue = [] ∧ (inRun []).d.flt.events = []) ∧
    (let s := withRec (aRec 0 0x61 2 false true true) (inRun [])
     HostRuns 0x40030 false s ∧ HostRuns 0x40030 true s ∧ s.d.flt.find s.d.flt.sel = some (aRec 0 0x61 2 false true true) ∧ s.d.flt.recs.map (·.source) ≠ [] ∧
       ((s.d.flt.recs.map (·.source)).Pairwise (· < ·))) ∧
    (let s := onFlt (fun f => { f with sel := 0xC0FF }) (withUnit 255 (fun x => { x with state := 4 }) (withRec (aRec 0xC0FF 0xC060 2 false false false) (inRun [(unitA 255 0, 1)])))
     HostRuns 0x40030 false s ∧ s.d.flt.find s.d.flt.sel = some (aRec 0xC0FF 0xC060 2 false false false) ∧ 255 < s.c.fx.nUnits ∧ s.d.flt.sel = 0xC000 + 255 ∧ s.d.seq.passMs = none ∧
       s.c.unitEn 255 = true ∧ (s.d.unit 255).state = 4) ∧
    (let s := onFlt (fun f => { f with recs := [aRec 3 0x61 2 false true true, aRec 7 0x61 2 false true true], sel := 3 }) (inRun [])
     HostRuns 0x40030 true s ∧ (∃ m ∈ s.d.flt.recs.map (·.source), s.d.flt.sel < m) ∧ ((s.d.flt.recs.map (·.source)).Pairwise (· < ·))) ∧
    (let s := onFlt (fun f => { f with recs := [aRec 3 0x61 2 false true true, aRec 7 0x61 2 false true true], sel := 7 }) (inRun [])
     HostRuns 0x40030 true s ∧ (∀ m ∈ s.d.flt.recs.map (·.source), m ≤ s.d.flt.sel)) ∧
    (let k := (aRec 0 0x61 2 false true true).copy
     (onFlt (fun f => { f with queue := [k] }) (inRun [])).d.flt.queue = k :: [] ∧ (onFlt (fun f => { f with events := [k] }) (inRun [])).d.flt.queue = [] ∧
       (onFlt (fun f => { f with events := [k] }) (inRun [])).d.flt.events = k :: []) := by unfold HostRuns; decide +kernel

theorem witness_TimeCommands :
    (HostRuns 0x3003C false (inRun []) ∧ (inRun []).c.stepVal = 0 ∧ (inRun []).d.tim.slewLeft = 0) ∧
    (let s := inRun [(0x3002C, 0xFFFFFFFF), (0x30028, 0xFFFFFFFF)]
     HostRuns 0x3003C false s ∧ s.c.stepVal < 0 ∧ s.c.stepBack = false) ∧
    (let s := inRun [(0x30024, 1), (0x3002C, 0xFFFFFFFF), (0x30028, 0xFFFFFFFF)]
     HostRuns 0x3003C false s ∧ s.c.stepVal ≠ 0 ∧ s.c.stepBack = true) ∧
    (let s := withD (fun d => d.setAct 255 { d.act 255 with state := 1, c0 := 1 }) (inRun [(actA 255 0, 3), (0x30028, 1)])
     HostRuns 0x3003C false s ∧ 0 < s.c.stepVal ∧ (s.d.act 255).state = 1 ∧ s.c.actBind 255 = true ∧ (s.d.tim.net : Int) < actDue s.c 255 (s.d.act 255) (s.d.act 255).next) ∧
    (let s := inRun [(0x30034, 140737), (0x30038, 1)]
     sword (s.c.f 0x30034) = 140737 ∧ (s.c.f 0x30038).toNat ≠ 0 ∧ (-140737 : Int) ≤ 140737) ∧
    (let s := inRun [(0x30034, 140738), (0x30038, 1)]
     (140737 : Int) < sword (s.c.f 0x30034)) ∧ sword (((-140737 : Int) : Word)) = -140737 ∧
    (onTim (fun t => { t with slewLeft := 1 }) (inRun [])).d.tim.slewLeft ≠ 0 := by unfold HostRuns; decide +kernel

theorem witness_ActionFires :
    (((inRun []).d.act 255).state ≠ 1 ∧ (255 : Nat) < 256) ∧
    (let s := withD (fun d => d.setAct 255 { d.act 255 with state := 1, lateNow := true }) (inRun [(actA 255 0, 0x301)])
     (s.d.act 255).state = 1 ∧ s.d.live s.c = true ∧ (s.d.act 255).lateNow = true ∧ s.c.actCyclic 255 = false ∧ s.c.actKind 255 = 3 ∧ s.d.standby = false) ∧
    (let s := withD (fun d => d.setAct 255 { d.act 255 with state := 1, passed := true }) (inRun [(actA 255 0, 0x305), (actA 255 2, 10)])
     (s.d.act 255).state = 1 ∧ s.d.live s.c = true ∧ (s.d.act 255).passed = true ∧ s.c.actCyclic 255 = true) ∧
    (let s := withD (fun d => d.setAct 255 { d.act 255 with state := 1, lateNow := true }) (inState .scan [(actA 255 0, 0x101)])
     s.d.live s.c = true ∧ s.c.actKind 255 = 1 ∧ s.d.glb.st = .scan) ∧
    (let s := withD (fun d => d.setAct 255 { d.act 255 with state := 1, c0 := 2 ^ 40 }) (inRun [(actA 255 0, 0x301)])
     (s.d.act 255).state = 1 ∧ s.d.live s.c = true ∧ (s.d.act 255).lateNow = false ∧ (s.d.act 255).passed = false ∧
       ¬actDue s.c 255 (s.d.act 255) (s.d.act 255).next ≤ ((s.d.reach s.c false (actDue s.c 255 (s.d.act 255) (s.d.act 255).next)).bound false : Int)) := by decide +kernel

def armed (a : Nat) (c : Cfg) : Cfg := { c with reg := c.reg.putB (actA a 0) (c.w (actA a 0) ||| 1#32) }
def armBad (a : Nat) (c : Cfg) : Option Chk := (timedField (armed a c) a ++ timedRefs (armed a c) a).find? (·.bad)
def armDiff (a : Nat) (s : State) : Int := shortDiff ((armed a s.c).actCompare a) (shortOf (s.d.bound ((armed a s.c).actBind a)))

theorem witness_ActionArming :
    (let s := inRun [(actA 255 0, 0x100)]
     (255 : Nat) < 256 ∧ s.d.portUp = true ∧ s.d.standby = false ∧ s.c.reg.ok ∧ bit (s.c.w (actA 255 0)) 0 = false ∧ s.c.img.ok = true ∧ armBad 255 s.c = none ∧
       -(s.c.lateLimit : Int) ≤ armDiff 255 s) ∧
    (let s := atMs 2000 (inRun [(actA 255 0, 0x100)])
     s.c.img.ok = true ∧ armBad 255 s.c = none ∧ armDiff 255 s < -(s.c.lateLimit : Int)) ∧
    (let s := inRun [(actA 255 0, 0)]
     s.c.img.ok = true ∧ ∃ k ∈ armBad 255 s.c, k.code ≠ 0) ∧
    (withImg (fun i => { i with ok := false }) (inRun [])).c.img.ok = false := by unfold Regs.ok; decide +kernel

def withPort (p : Nat) (f : Port → Port) (s : State) : State := withD (fun d => d.setPort p (f (d.port p))) s
/-- Port 3 enabled, BLOCK 50 ms, and more bits of its first word. -/
def can (bits : Nat) : List (Nat × Word) := [(canA 3 0, BitVec.ofNat 32 (0x320001 + bits))]
def txBox : List (Nat × Word) := can 0 ++ [(mbxA 3 31 0, 3)]
def withLaunch (l : Launch) (s : State) : State := withPort 3 (fun x => x.setLaunch 15 l) s
/-- Launch entry 15 of port 3 on mailbox 31, with a window of 10 µs. -/
def launchBox : List (Nat × Word) := txBox ++ [(launchA 3 15 0, 0xA1F00)]
def aLaunch (st due : Nat) : Launch := { state := st, txres := 0, reason := 0, due := due, sent := 0 }

theorem witness_CanCommands :
    (let s := inRun txBox
     (3 : Nat) < 4 ∧ (31 : Nat) < 32 ∧ s.d.standby = false ∧ HostRuns (canA 3 0x34) false s ∧ HostRuns (canA 3 0x38) true s ∧ HostRuns (canA 3 0x2000) true s ∧
       (s.d.port 3).busOff = false ∧ s.c.mbxEn 3 31 = true ∧ s.c.mbxTx 3 31 = true ∧ s.c.mbxMap 3 31 = false ∧ launchOf s.c 3 (s.d.port 3) 31 = none ∧
       (s.d.port 3).wire ≠ some (.mailbox 31 CBuf.empty)) ∧
    (withPort 3 (fun x => { x with busOff := true }) (inRun [])).d.port 3 = { Port.empty with busOff := true } ∧
    (let s := withPort 3 (fun x => { x with wire := some (.mailbox 31 CBuf.empty) }) (inRun txBox)
     HostRuns (canA 3 0x38) true s ∧ (s.d.port 3).wire = some (.mailbox 31 CBuf.empty)) ∧
    (let s := withLaunch (aLaunch 1 0) (inRun launchBox)
     HostRuns (canA 3 0x38) true s ∧ s.c.mbxEn 3 31 = true ∧ (launchOf s.c 3 (s.d.port 3) 31).isSome = true) ∧
    (HostRuns (canA 3 0x2000) true (inRun []) ∧ (inRun []).c.mbxTx 3 31 = false) := by unfold HostRuns; decide +kernel

theorem witness_Launches :
    (let s := inRun launchBox
     (3 : Nat) < 4 ∧ (15 : Nat) < 16 ∧ HostRuns (launchA 3 15 0) true s ∧ ((s.d.port 3).launch 15).state ≠ 1 ∧ ((s.d.port 3).launch 15).state ≠ 2 ∧ portOn s.c s.d 3 = true ∧
       launchCode s.c s.d 3 15 = 0 ∧ s.d.standby = false ∧ 10 ≤ s.c.launchWin 3 15 ∧ s.c.mbxTx 3 (s.c.launchMb 3 15) = true ∧ s.c.mbxMap 3 (s.c.launchMb 3 15) = false ∧
       s.c.mbxEn 3 (s.c.launchMb 3 15) = true ∧ launchOf s.c 3 (s.d.port 3) (s.c.launchMb 3 15) = none ∧
       0 ≤ shortDiff (s.c.f (launchA 3 15 1)).toNat (shortOf (s.d.bound (s.c.launchNet 3 15)))) ∧
    (let s := inRun (can 0 ++ [(launchA 3 15 0, 0x91F00)])
     HostRuns (launchA 3 15 0) true s ∧ ((s.d.port 3).launch 15).state ≠ 1 ∧ ((s.d.port 3).launch 15).state ≠ 2 ∧ portOn s.c s.d 3 = true ∧ launchCode s.c s.d 3 15 = 0xE001) ∧
    (let s := withLaunch (aLaunch 1 0) (inRun launchBox)
     ((s.d.port 3).launch 15).state = 1 ∧ portOn s.c s.d 3 = true ∧ ((s.d.port 3).launch 15).due ≤ (s.d.reach s.c (s.c.launchNet 3 15) ((s.d.port 3).launch 15).due).bound (s.c.launchNet 3 15)) ∧
    (let s := withLaunch (aLaunch 1 (2 ^ 40)) (inRun launchBox)
     ((s.d.port 3).launch 15).state = 1 ∧ portOn s.c s.d 3 = true ∧ (s.d.reach s.c (s.c.launchNet 3 15) ((s.d.port 3).launch 15).due).bound (s.c.launchNet 3 15) < ((s.d.port 3).launch 15).due) ∧
    (let s := atMs 1 (withLaunch (aLaunch 2 0) (inRun launchBox))
     ((s.d.port 3).launch 15).state = 2 ∧ (s.d.port 3).wire = none ∧
       ((s.d.port 3).launch 15).due + s.c.launchWin 3 15 * 2 ^ 32 / 1000000 ≤
         (s.d.reach s.c (s.c.launchNet 3 15) ((((s.d.port 3).launch 15).due + s.c.launchWin 3 15 * 2 ^ 32 / 1000000 + 1 : Nat) : Int)).bound (s.c.launchNet 3 15)) ∧
    (let s := withLaunch (aLaunch 2 (2 ^ 40)) (inRun launchBox)
     ((s.d.port 3).launch 15).state = 2 ∧
       (s.d.reach s.c (s.c.launchNet 3 15) ((((s.d.port 3).launch 15).due + s.c.launchWin 3 15 * 2 ^ 32 / 1000000 + 1 : Nat) : Int)).bound (s.c.launchNet 3 15) <
         ((s.d.port 3).launch 15).due + s.c.launchWin 3 15 * 2 ^ 32 / 1000000) := by unfold HostRuns; decide +kernel

theorem witness_CanSupervision :
    (portOn (inRun []).c (inRun []).d 3 = false ∧ ((inRun []).d.port 3).busOff = false ∧ ((inRun []).d.port 3).follow = none) ∧
    (let s := inRun (can 0)
     portOn s.c s.d 3 = true ∧ portMuted s.c s.d 3 = false ∧ (s.d.port 3).busOff = false ∧ (s.d.port 3).tec + 8 ≤ 255 ∧ s.d.openCode (portSrc 3) [0xE060] = false) ∧
    (let s := withPort 3 (fun x => { x with tec := 248 }) (inRun (can 0))
     portOn s.c s.d 3 = true ∧ portMuted s.c s.d 3 = false ∧ (s.d.port 3).busOff = false ∧ 255 < (s.d.port 3).tec + 8) ∧
    (let s := withRec (aRec (portSrc 3) 0xE060 1 false false false) (withPort 3 (fun x => { x with tec := 120 }) (inRun (can 0)))
     portOn s.c s.d 3 = true ∧ portMuted s.c s.d 3 = false ∧ (s.d.port 3).busOff = false ∧ 127 < (s.d.port 3).tec + 8 ∧ s.d.openCode (portSrc 3) [0xE060] = true) ∧
    (let s := withPort 3 (fun x => { x with busOff := true, recovering := true }) (inRun (can 0))
     (s.d.port 3).busOff = true ∧ (s.d.port 3).recovering = true) ∧
    (let s := atMs 300 (inRun (can 0x80 ++ [(canA 3 0x14, 100)]))
     portOn s.c s.d 3 = true ∧ s.c.portSync 3 = 2 ∧ (s.d.port 3).lastPair + 3 * s.c.syncPer 3 ≤ s.d.ms ∧ s.d.openCode (portSrc 3) [0xE069] = false) ∧
    (let s := atMs 50 (withPort 3 (fun x => x.setMb 31 { Mbx.empty with pending := true, txres := 1 }) (inRun txBox))
     portSends s.c s.d 3 = true ∧ (∃ q ∈ (s.d.port 3).mbx, q.2.pending = true ∧ q.2.since + s.c.blockMs 3 ≤ s.d.ms) ∧ (s.d.port 3).blocked = false) ∧
    (let s := atMs 20 (inRun [(mapA 127 0, 3), (mapA 127 4, 0x140000)])
     (127 : Nat) < 128 ∧ s.d.live s.c = true ∧ s.c.mapEn 127 = true ∧ s.c.mapRx 127 = true ∧ (s.d.mapS 127).timedOut = false ∧ (s.d.mapS 127).lastRx + s.c.mapPer 127 ≤ s.d.ms) ∧
    (let s := withPort 3 (fun x => { x with follow := some (1, 2, 3), busy := true }) (inRun (can 0))
     (s.d.port 3).follow = some (1, 2, 3) ∧ portSends s.c s.d 3 = true ∧ (s.d.port 3).busy = true) := by decide +kernel

def aFrame (id : Nat) : CanFrame := { ext := false, id := id, fd := false, brs := false, esi := false, rtr := false, dlc := 1, data := [7], edge := 0 }
def aReq (op : Nat) : SvcReq := { op := op, dlc := 8, addr := 0x10004, val := 0, stamp := 0, code := 0 }
def boxOf (c : Cfg) (b : CBuf) : Option Nat :=
  (List.range 32).find? (fun k => c.mbxEn 3 k && !c.mbxTx 3 k && b.ext == c.mbxIde 3 k && (b.id ^^^ c.mbxId 3 k) &&& c.mbxMask 3 k == 0)

theorem witness_CanFrames :
    ((3 : Nat) < 4 ∧ portSends (inRun []).c (inRun []).d 3 = false ∧ ((inRun []).d.port 3).svc = [] ∧ ((inRun []).d.port 3).replies = []) ∧
    (let s := withPort 3 (fun x => { x with wire := some (.mailbox 31 CBuf.empty) }) (inRun txBox)
     portSends s.c s.d 3 = true ∧ (s.d.port 3).wire = some (.mailbox 31 CBuf.empty) ∧ launchOf s.c 3 (s.d.port 3) 31 = none ∧ s.c.mbxOneshot 3 31 = false) ∧
    (let s := withLaunch (aLaunch 2 0) (withPort 3 (fun x => { x with wire := some (.mailbox 31 CBuf.empty) }) (inRun (can 0 ++ [(mbxA 3 31 0, 11), (launchA 3 15 0, 0xA1F00)])))
     portSends s.c s.d 3 = true ∧ (s.d.port 3).wire = some (.mailbox 31 CBuf.empty) ∧ launchOf s.c 3 (s.d.port 3) 31 = some 15 ∧ s.c.mbxOneshot 3 31 = true) ∧
    (let s := inRun (can 0 ++ [(mbxA 3 31 0, 1)])
     portOn s.c s.d 3 = true ∧ (s.d.port 3).busOff = false ∧ s.c.portSync 3 = 0 ∧ s.c.svcEn 3 = false ∧
       boxOf s.c (bufOf s.c 3 s.d.tim.epoch (aFrame 0)) = some 31 ∧ mapsOf s.c 3 31 = [] ∧ bufLocked s.d (canA 3 (0x1000 + 0x80 * 31)) = false) ∧
    (let s := inRun (can 0 ++ [(filtA 3 15 0, 1), (filtA 3 15 1, 5), (filtA 3 15 2, 0x7FF)])
     portOn s.c s.d 3 = true ∧ (s.d.port 3).busOff = false ∧ boxOf s.c (bufOf s.c 3 s.d.tim.epoch (aFrame 5)) = none ∧ (s.d.port 3).fifo.length < 32 ∧ (15 : Nat) < 16 ∧
       s.c.bF (filtA 3 15 0) 0 = true ∧ (bufOf s.c 3 s.d.tim.epoch (aFrame 5)).ext = s.c.bF (filtA 3 15 0) 1 ∧
       ((bufOf s.c 3 s.d.tim.epoch (aFrame 5)).id ^^^ s.c.fF (filtA 3 15 1) 0 29) &&& s.c.fF (filtA 3 15 2) 0 29 = 0) ∧
    (let s := withPort 3 (fun x => { x with svc := [aReq 1], busy := true }) (inRun (can 0x30))
     (s.d.port 3).svc = aReq 1 :: [] ∧ (aReq 1).bad = false ∧ (aReq 1).op % 16 = 1 ∧ (s.d.port 3).lock = none ∧
       groupAt s.c (s.d.setPort 3 { s.d.port 3 with svc := [] }) (aReq 1).addr = none ∧ portMuted s.c s.d 3 = false ∧ (s.d.port 3).busy = true ∧ s.c.svcWr 3 = true) ∧
    ((aReq 2).bad = false ∧ (aReq 2).op % 16 = 2 ∧ (aReq 3).bad = true ∧ (inRun []).c.svcWr 3 = false) ∧
    ((withPort 3 (fun x => { x with replies := [aReq 2] }) (inRun [])).d.port 3).replies = aReq 2 :: [] := by decide +kernel

theorem witness_FifoDrops :
    (let s := withPort 3 (fun x => { x with fifo := List.replicate 31 CBuf.empty }) (inRun [])
     (s.d.port 3).fifo.length ≤ 32 ∧ (s.d.port 3).fifo.length < 32) ∧
    (let s := atMs 999 (withPort 3 (fun x => { x with fifo := List.replicate 32 CBuf.empty, dropAt := some 0 }) (inRun []))
     (s.d.port 3).fifo.length ≤ 32 ∧ 32 ≤ (s.d.port 3).fifo.length ∧ (s.d.port 3).dropAt = some 0 ∧ s.d.ms < 0 + 1000) ∧
    (let s := atMs 1000 (withPort 3 (fun x => { x with fifo := List.replicate 32 CBuf.empty, dropAt := some 0 }) (inRun []))
     32 ≤ (s.d.port 3).fifo.length ∧ (s.d.port 3).dropAt = some 0 ∧ 0 + 1000 ≤ s.d.ms) := by decide +kernel

theorem witness_IdentityFrame : State.reset.d.portDead = false ∧ 12 ≤ 12 := by decide

def withDp (f : Dp → Dp) (s : State) : State := withD (fun d => { d with dp := f d.dp }) s

theorem witness_PortFrames :
    ((inState .dormant []).d.portDead = true ∧ State.reset.d.portDead = false ∧ State.reset.d.glb.st = .boot ∧ (0xFF#8 : Byte).toNat ∉ [0x0B, 0x6B, 0x02, 0x32, 0x05, 0x9F]) ∧
    ((inRun []).d.portDead = false ∧ (inRun []).d.glb.st ≠ .boot ∧ (0x10006 : Nat) % 4 ≠ 0) ∧
    (let s := inRun []
     (0x10004 : Nat) % 4 = 0 ∧ 2 ≤ 1024 ∧ s.d.dp.lock = none ∧ ∀ k, k < 2 → frameAddr s.c 0x10004 k < 0x10000000 ∧ cfgAccess (frameAddr s.c 0x10004 k) = false ∧
       groupAt s.c s.d (frameAddr s.c 0x10004 k) = none) ∧
    (let s := withDp (fun x => { x with queue := List.replicate 510 { addr := 0, val := 0 } }) (inRun [])
     s.d.glb.st ≠ .boot ∧ (List.replicate 8 (0 : Byte)).length = 4 * 2 ∧ s.d.dp.queue.length + 2 ≤ 512) ∧
    (let l : Lock := { first := 0x10004, last := 0x10008, words := [0, 0] }
     (withDp (fun x => { x with lock := some l }) (inRun [])).d.dp.lock = some l ∧ bufferAt l.first = none) := by decide +kernel

def aLedgerRec (seq : Nat) : Rec := { typ := 4, cls := 1, epoch := 0, seq := seq, time := 0, devt := 0, body := [] }
def withRegion (r : Nat) (f : Region → Region) (s : State) : State := withD (fun d => d.setRegion r (f (d.region r))) s
def withBand (b cond owner : Nat) (s : State) : State := withD (fun d => d.setBand b { Band.empty with cond := cond, owner := owner }) s
def withTag (t st : Nat) (s : State) : State := withD (fun d => d.setTag t { d.tag t with state := st }) s
def aPQ : PQ := { region := 1, recs := [aLedgerRec 5] }

theorem witness_ArchiveCommands :
    ((inRun []).d.arc.queue = [] ∧ ((inRun []).d.band 249).cond ≠ 1 ∧ ((inRun []).d.tag 127).state = 0) ∧
    (let s := withBand 249 2 1 (onArc (fun a => { a with queue := [aPQ], state := 2 }) (inRun []))
     s.d.arc.queue = aPQ :: [] ∧ s.d.arc.state = 2 ∧ s.d.arc.openBand aPQ.region = some (249, { Band.empty with cond := 2, owner := 1 }) ∧
       ({ Band.empty with cond := 2, owner := 1 } : Band).subs.length + 1 < bandSubs) ∧
    (((withBand 249 1 0 (inRun [])).d.band 249).cond = 1 ∧ (inRun []).d.arc.retired ≤ 65535) ∧
    (let s := atMs 5000 (withRegion 5 (fun x => { x with partialRecs := [aLedgerRec 5] }) (inRun [(arcRegA 5, 0x320000)]))
     (5 : Nat) < 6 ∧ (s.d.region 5).partialRecs ≠ [] ∧ (s.d.region 5).since + 100 * s.c.arcFlush 5 ≤ s.d.ms) ∧
    (let s := atMs 60000 (withRegion 5 (fun x => { x with full := true }) (inRun []))
     (∃ q, q ∈ s.d.arc.regions ∧ q.2.full = true) ∧ s.d.arc.dropTimer + 60000 ≤ s.d.ms) ∧
    (HostRuns 0x500018 false (inRun []) ∧ HostRuns 0x500018 true (standbyOf (inRun [])) ∧ (6 : Nat) ≤ 7 ∧ (7 : Nat) < 8) ∧
    (let s := inRun [(0x500020, 127)]
     HostRuns 0x50001C true s ∧ s.c.ssel = 127 ∧ (s.d.tag 127).state = 0 ∧ fld (s.c.f (tagA 127 0)) 0 2 = 0) ∧
    (let s := inRun [(0x500020, 127), (tagA 127 0, 0x201)]
     HostRuns 0x50001C true s ∧ s.c.ssel = 127 ∧ fld (s.c.f (tagA 127 0)) 0 2 ≠ 0 ∧ fld (s.c.f (tagA 127 0)) 8 8 ≠ 0) ∧
    (let s := onArc (fun a => { a with state := 2 }) (withTag 127 2 (inRun [(tagA 127 0, 0x201)]))
     (s.d.tag 127).state = 2 ∧ s.d.arc.state = 2 ∧ fld (s.c.f (tagA 127 0)) 0 2 = 1 ∧
       firstRec (fun e => decide (0 ≤ e.seq)) ((allRecs s.d.arc).filter (fun e => (fld (s.c.f (tagA 127 0)) 8 8).testBit e.1.cls)) = none) ∧
    (let s := withRegion 1 (fun x => { x with partialRecs := [aLedgerRec 5] }) (onArc (fun a => { a with state := 2 }) (withTag 127 2 (inRun [(tagA 127 0, 0x201)])))
     firstRec (fun e => decide (0 ≤ e.seq)) ((allRecs s.d.arc).filter (fun e => (fld (s.c.f (tagA 127 0)) 8 8).testBit e.1.cls)) = some (aLedgerRec 5, true, false) ∧
       (aLedgerRec 5).size ≤ 4096) ∧
    (let s := onArc (fun a => { a with state := 1 }) (inRun [])
     s.d.arc.state = 1 ∧ s.d.glb.st ≠ .boot ∧ s.d.arc.cpValid = true) := by unfold HostRuns; decide +kernel

def inPair (st : Nat) (s : State) : State := onPair (fun p => { p with state := st }) s
def aSeal (crcOk agrees : Bool) (hand : Nat) : Seal := { crcOk := crcOk, frame := 0, acc := 0, agrees := agrees, hand := hand, items := [] }

theorem witness_PairSeals :
    (let s := atMs 3000 (inPair 1 (inRun [(0x400028, 3000)]))
     s.d.pair.seekAt + s.c.seekMs ≤ s.d.ms ∧ s.d.pair.state = 1 ∧ s.d.pair.claim = false) ∧
    (let s := atMs 3000 (inPair 9 (inRun [(0x400028, 3000)]))
     s.d.pair.seekAt + s.c.seekMs ≤ s.d.ms ∧ s.d.pair.state = 9 ∧ s.d.glb.st = .run) ∧
    (¬((inPair 1 (inRun [(0x400028, 3000)])).d.pair.seekAt + (inPair 1 (inRun [(0x400028, 3000)])).c.seekMs ≤ (inPair 1 (inRun [(0x400028, 3000)])).d.ms)) ∧
    ((inPair 7 (inRun [])).d.pair.state = 7 ∧ (inPair 8 (inRun [])).d.pair.state = 8 ∧ (inPair 5 (inRun [])).d.pair.state = 5 ∧ (inPair 4 (inRun [])).d.pair.state < 5 ∧
      8 < (inPair 9 (inRun [])).d.pair.state ∧ (inRun []).d.pair.state = 0 ∧ (inRun []).d.glb.role ≠ .standby) ∧
    (let s := standbyOf (inPair 7 (inRun []))
     s.d.glb.role = .standby ∧ s.d.pair.state ≠ 0 ∧ (aSeal false true 0).crcOk = false ∧ (aSeal true true 3).crcOk = true ∧ (aSeal true true 3).agrees = true ∧
       (aSeal true true 3).hand ≠ 0 ∧ (aSeal true false 0).agrees = false) ∧
    (let s := activeOf (inPair 4 (inRun []))
     s.d.glb.role = .active ∧ s.d.pair.state = 4 ∧ satInc 8 s.d.pair.missed < 3) ∧
    (let s := onPair (fun p => { p with missed := 2 }) (activeOf (inPair 3 (inRun [])))
     s.d.glb.role = .active ∧ s.d.pair.state = 3 ∧ 3 ≤ satInc 8 s.d.pair.missed) ∧
    (let s := atMs 3 (onPair (fun p => { p with missed := 2 }) (inPair 8 (inRun [])))
     s.d.pair.state = 8 ∧ 2 ≤ s.d.pair.missed ∧ s.d.pair.f0 + 4 ≤ s.d.ms + 1) ∧
    (let s := atMs 100 (onPair (fun p => { p with wakeAt := some 0 }) (activeOf (inPair 2 (inRun [(0x400028, 0x640000)]))))
     s.d.pair.wakeAt = some 0 ∧ 0 + s.c.wakeGrace ≤ s.d.ms ∧ s.d.glb.role = .active ∧ s.d.pair.state = 2) ∧
    (let s := atMs 99 (onPair (fun p => { p with wakeAt := some 0 }) (activeOf (inPair 3 (inRun [(0x400028, 0x640000)]))))
     s.d.pair.wakeAt = some 0 ∧ s.d.ms < 0 + s.c.wakeGrace ∧ s.d.glb.role = .active ∧ s.d.pair.state ≠ 2) ∧
    (let s := onPair (fun p => { p with wakeAt := some 0, switchAt := some 1, switchCause := 3 }) (standbyOf (inPair 8 (inRun [])))
     s.d.pair.wakeAt = some 0 ∧ 0 + s.c.wakeGrace ≤ s.d.ms ∧ s.d.glb.role ≠ .active ∧ s.d.pair.state = 8 ∧ s.d.pair.switchAt = some 1 ∧ 1 ≤ s.d.ms + 1 ∧ s.d.pair.switchCause = 3) ∧
    (let s := onPair (fun p => { p with switchAt := some 2, switchCause := 2 }) (standbyOf (inPair 6 (inRun [])))
     s.d.pair.switchAt = some 2 ∧ s.d.ms + 1 < 2 ∧ s.d.pair.switchCause ≠ 3 ∧ s.d.pair.wakeAt = none) ∧
    (let q : MirrorRec := { typ := 4, cls := 1, epoch := 0, seq := 5, time := 0, devt := 0, body := [] }
     let s := standbyOf (onPair (fun p => { p with thread := 1, threadSeq := 5 }) (inPair 7 (inRun [])))
     s.d.pair.state ≠ 0 ∧ s.d.standby = true ∧ s.d.pair.thread = 1 ∧ s.d.pair.threadSeq ≤ q.seq ∧ ¬q.seq < s.d.pair.threadSeq) := by decide +kernel

def aJoin (id : Nat) (seat : Bool) : JoinReport := { id := id, digest := 0, variant := Variant.chosen.word, seat := seat, lastSeq := none, sameCrc := false }

theorem witness_PairJoin :
    ((inPair 1 (inRun [])).d.pair.state = 1 ∧ (inPair 1 (inRun [])).d.pair.claim = false ∧ (inPair 5 (inRun [])).d.pair.state = 5 ∧ (inRun []).d.pair.seat = false) ∧
    (let s := activeOf (inPair 2 (inRun [(0x400030, 9)]))
     s.d.glb.role = .active ∧ s.d.pair.state = 2 ∧ (aJoin 9 true).id ≠ 0 ∧ (aJoin 9 true).id = s.c.known 0 ∧ (aJoin 9 true).seat ≠ s.d.pair.seat ∧
       (aJoin 9 true).variant % 65536 = s.c.fx.word ∧ (aJoin 9 true).digest = s.d.cfg.digest ∧ s.d.flt.find 0x3000 = none) ∧
    (let s := activeOf (inPair 3 (inRun []))
     s.d.glb.role = .active ∧ s.d.pair.state = 3 ∧ (aJoin 9 false).seat = s.d.pair.seat ∧ (aJoin 9 true).variant % 65536 = s.c.fx.word ∧
       ¬((aJoin 9 true).id = s.c.known 0 ∨ (aJoin 9 true).id = s.c.known 1 ∨ s.d.pair.accepted.contains (aJoin 9 true).id = true) ∧
       ({ aJoin 9 true with variant := 0 } : JoinReport).variant % 65536 ≠ s.c.fx.word) ∧
    (HostRuns 0x400024 false (inRun []) ∧ (inRun []).d.pair.acceptPend = false ∧ (inRun []).d.glb.role ≠ .active) ∧
    (let s := onPair (fun p => { p with acceptPend := true, join := some (aJoin 9 true) }) (activeOf (inPair 3 (inRun [])))
     HostRuns 0x400024 false s ∧ s.d.glb.role = .active ∧ s.d.pair.acceptPend = true ∧ s.d.pair.join = some (aJoin 9 true) ∧ s.d.pair.state ≠ 4) ∧
    (let s := activeOf (inPair 4 (inRun []))
     HostRuns 0x400024 false s ∧ HostRuns 0x400024 true s ∧ s.d.glb.role = .active ∧ s.d.pair.state = 4 ∧ s.d.pair.partnerHalt = false) ∧
    (let s := standbyOf (inPair 7 (inRun []))
     HostRuns 0x400024 true s ∧ s.d.pair.state = 7 ∧ s.d.glb.role ≠ .active ∧ s.d.standby = true ∧ (checkImage s.c s.d 3 (imageBytes [])).1.isSome = true) := by unfold HostRuns; decide +kernel

theorem witness_PairJoin_synced :
    (let s := withImg (fun i => { i with ok := false }) (inState .safe [])
     s.d.glb.st = .safe ∧ s.c.img.ok = false ∧ s.c.fx.pair = true) ∧
    (let s := onPair (fun p => { p with imageOk := true, join := some (aJoin 9 true) }) (activeOf (inPair 3 (inRun [])))
     s.d.glb.role = .active ∧ s.d.pair.state = 3 ∧ s.d.pair.imageOk = true ∧ s.d.pair.join = some (aJoin 9 true)) ∧
    (let s := withBand 249 2 1 (standbyOf (inPair 6 (inRun [])))
     s.d.glb.role = .standby ∧ s.d.pair.state = 6 ∧ (249, { Band.empty with cond := 2, owner := 1 }) ∈ s.d.arc.bands) ∧
    (let s := activeOf (inPair 4 (withCommit (aCommit 2 true) (inRun [])))
     s.d.cfg.commit = some (aCommit 2 true) ∧ (aCommit 2 true).toPartner = true ∧ (aCommit 2 true).mode = 2 ∧ s.d.pair.state = 4) ∧
    (let s := activeOf (inPair 3 (inRun []))
     s.d.cfg.commit = none ∧ s.d.glb.role = .active ∧ s.d.pair.state = 3 ∧ s.d.pair.imageOk = false ∧ s.d.pair.acceptPend = false) ∧
    ((inRun []).d.pair.thread ≠ 1 ∧ (onPair (fun p => { p with thread := 1 }) (inRun [])).d.pair.thread = 1) := by decide +kernel

/-! Further clauses of the statements above. -/

theorem witness_AnalogSupply_more :
    ((inState .dormant []).d.openCode 0 [0x63] = false ∧ (inState .dormant []).d.fld.late.contains (0, 0x63, 3) = false ∧ (inState .dormant []).d.glb.st = .dormant) ∧
    (let s := withD (fun d => { d with fld := { d.fld with late := [(0, 0x63, 3)] } }) (inState .dormant [])
     s.d.openCode 0 [0x63] = false ∧ s.d.pwr.resetFrom = none ∧ s.d.fld.late.contains (0, 0x63, 3) = true) := by decide +kernel

theorem witness_ScanBurst_more :
    (let s := onPwr (fun p => { p with burst := .holdsSent, wakeLow := true }) (inState .scan [(0x1000C, 1)])
     s.d.glb.st = .scan ∧ s.d.pwr.burst = .holdsSent ∧ s.d.glb.haltCause = none ∧ s.d.pwr.runCond = none ∧ s.d.pwr.wakeLow = true ∧ s.c.pinWake = true) ∧
    (let s := onPwr (fun p => { p with burst := .scanning, wakeLow := true }) (inState .scan [(0x1000C, 1)])
     s.d.glb.st = .scan ∧ s.d.pwr.burst = .scanning ∧ s.d.pwr.wakeLow = true ∧ s.c.pinWake = true) ∧
    (let s := onArc (fun a => { a with state := 2 }) (onPwr (fun p => { p with burst := .holdsSent }) (inState .scan []))
     s.d.pwr.wakeLow = false ∧ s.d.pwr.xt32 = true ∧ arcDrained s.d.arc = true) ∧
    (let s := onArc (fun a => { a with queue := [{ region := 0, recs := [] }], state := 2 }) (onPwr (fun p => { p with burst := .holdsSent }) (inState .scan []))
     s.d.pwr.wakeLow = false ∧ s.d.pwr.xt32 = true ∧ arcDrained s.d.arc = false) ∧
    (let s := atMs 2001 (onPwr (fun p => { p with burst := .holdsSent, burstRef := 0 }) (inState .scan []))
     200000 < min ((s.d.tim.acc - s.d.pwr.burstRef) * 100000 / 2 ^ 48) 1048575 ∧ s.d.flt.find 0 = none) := by decide +kernel

theorem witness_FrontServices_more :
    (let s := atMs 7202001 (withD (fun d => d.setBank 15 { d.bank 15 with scanList := [63] }) (inState .scan [(chanA 1023 0, 1), (chanA 1023 6, 0xA0000)]))
     s.c.chanEn 1023 = true ∧ s.d.glb.st = .scan ∧ inStorage s.d 1023 = true ∧ staleLimit s.c s.d 1023 < s.d.chanAge 1023 ∧ (s.d.chan 1023).state ≠ 1 ∧ (s.d.chan 1023).state ≠ 2) ∧
    (let s := inState .scan [(chanA 1023 0, 1)]
     s.d.glb.st = .scan ∧ inStorage s.d 1023 = false) := by decide +kernel

theorem witness_CellSweeps_more :
    (let k : CalRun := { kind := 1, got := [], started := false }
     let s := sweeping (fun x => { x with cal := some k })
     (s.d.cell 7).dropSweep = false ∧ (s.d.cell 7).cal = some k ∧ k.started = false ∧ (s.d.cell 7).got.length + 1 < s.c.cellAvg 7) ∧
    ((inState .scan []).d.glb.st ≠ .run ∧ (inState .scan []).d.glb.st ≠ .safe) ∧
    (let s := atMs 101 (withCtg 7 (fun x => { x with state := 2 }) (sweeping (fun x => { x with rtd := some 0, rtdAt := 0 })))
     s.d.ctgOk 7 = true ∧ (s.d.cell 7).rtd = some 0 ∧ (s.d.cell 7).rtdAt + 100 < s.d.ms) ∧
    (let c := (inRun [(cellA 7, 0x02010101), (cellA 7 + 0x160, 0x0202), (calA 7 0 0 2, 1000000), (calA 7 1 0 2, 1000000)]).c
     let one : SweepRec := { gs := [1000000], bs := [0], drive := false, ovf := false }
     c.cellK 7 = 1 ∧ deembedAt c 7 0 [one, one] 0 0 = none ∧ deembedAt c 7 1 [one, one] 0 0 = none) := by decide +kernel

theorem witness_CellServices_more :
    (let s := atMs 101 (withCell 7 (fun x => { x with state := 3, cause := 10, staleRec := true }) (inRun [(cellA 7, 0x01010101), (cellA 7 + 0x10, 1)]))
     s.c.cellEn 7 = true ∧ s.d.glb.st = .run ∧ cellStaleLimit s.c 7 < s.d.ms - (s.d.cell 7).at_ ∧ (s.d.cell 7).staleRec = true ∧ (s.d.cell 7).state = 3 ∧ (s.d.cell 7).cause = 10) ∧
    (let s := withCell 7 (fun x => { x with state := 1 }) (inRun [(cellA 7, 0x01010101), (cellA 7 + 0x10, 1)])
     ¬cellStaleLimit s.c 7 < s.d.ms - (s.d.cell 7).at_ ∧ (s.d.cell 7).staleRec = false) := by decide +kernel

/-- A cartridge memory that passes every check of R226: type 1, K = 1000, its CRC-32C from another program. -/
def goodMemory : List Byte := leBytes 28 0x1000F4240000003E8000003E801010000000000000154435A ++ List.replicate 224 0 ++ leBytes 4 0x4F45CC6B ++ List.replicate 48 0

theorem witness_CartridgeLine_more :
    (let s := withCell 7 (fun x => { x with cal := some { kind := 1, got := [], started := true } }) (withCtg 7 (fun x => { x with tx := some (aTx 4 0 0) }) (inRun []))
     goodAnswer (aTx 4 0 0) (answer [5, 0, 0, 0, 0, 0]) = true ∧ (s.d.cell 7).cal ≠ none) ∧
    (let s := withCell 7 (fun x => { x with cal := some { kind := 1, got := [], started := true } }) (withCtg 7 (fun x => { x with tx := some (aTx 4 0 2) }) (inRun []))
     (s.d.ctg 7).tx = some (aTx 4 0 2) ∧ 2 ≤ (aTx 4 0 2).attempts ∧ 3 ≤ (aTx 4 0 2).kind ∧ (s.d.cell 7).cal ≠ none) ∧
    (let s := withCtg 7 (fun x => { x with tx := some (aTx 3 0 0), absent := true }) (inRun [])
     (s.d.ctg 7).tx = some (aTx 3 0 0) ∧ (s.d.ctg 7).absent = true ∧ (aTx 3 0 0).kind = 3 ∧ (s.d.cell 7).cal = none ∧ goodAnswer (aTx 3 0 0) (answer (List.replicate 32 0)) = true) ∧
    (let s := withCtg 7 (fun x => { x with tx := some (aTx 4 0 0), absent := true }) (inRun [])
     (s.d.ctg 7).absent = true ∧ (aTx 4 0 0).kind ≠ 3 ∧ (s.d.ctg 7).state = 0) ∧
    (let s := withCtg 7 (fun x => { x with tx := some (aTx 2 0x100 0) }) (inRun [])
     (s.d.ctg 7).tx = some (aTx 2 0x100 0) ∧ goodAnswer (aTx 2 0x100 0) (answer []) = true ∧ (s.d.ctg 7).absent = false) ∧
    (let s := inRun [(cellA 7, 1), (cellA 7 + 0x14, 2)]
     ctgCheck s.c 7 (({ s.d.ctg 7 with tx := none, mem := [] } : Ctg).write 0 goodMemory) = 0 ∧
       (({ s.d.ctg 7 with tx := none, mem := [] } : Ctg).write 0 goodMemory).bytes 0 0x100 ≠ (s.d.ctg 7).bytes 0 0x100) := by decide +kernel

theorem witness_TraceCommands_more :
    (let s := onCfg (fun x => { x with session := .opened }) (inRun [])
     (s.d.trc 7).state ≠ 2 ∧ (s.d.trc 7).state ≠ 3 ∧ s.c.img.ok = true ∧ s.d.sessionOn = true) ∧
    (let s := withD (fun d => d.setTrc 7 { d.trc 7 with arm := true }) (inRun [])
     s.d.sessionOn = false ∧ (s.d.trc 7).arm = true) ∧
    ((inRun []).d.sessionOn = false ∧ (inRun []).d.checkingAt (trcA 7 + 0x18) = false ∧ ((inRun []).d.trc 7).arm = false) ∧
    (let s := onCfg (fun x => { x with checks := [{ addr := trcA 7 + 0x18, val := 3 }] }) (inRun [])
     s.d.cfg.checks = { addr := trcA 7 + 0x18, val := 3 } :: [] ∧ (Machine.armBad (s.c.asWritten none) 7).isSome = true) ∧
    (let s := inRun [(chanA 0 0, 1), (trcA 7, 1), (trcA 7 + 8, 1)]
     Machine.armBad (s.c.asWritten none) 7 = none) := by decide +kernel

theorem witness_Outputs_more :
    (let s := withGrp 3 (fun x => { x with cond := 2 }) (withDch 63 (fun x => { x with drvCnt := 3 }) (inRun (dig 3)))
     3 ≤ (s.d.dch 63).drvCnt ∧ (s.d.dch (s.c.owner 63)).latch = 0 ∧ (s.d.dch (s.c.owner 63)).phase = 0 ∧ (s.d.grp (63 / 16)).cond = 2) ∧
    (let s := withGrp 3 (fun x => { x with latch := 4 }) (withDch 63 (fun x => { x with phase := 1 }) (inRun (dig 3)))
     (s.d.dch (s.c.owner 63)).phase = 1 ∧ (s.d.grp (63 / 16)).latch ≠ 0) ∧
    (let s := withDch 62 (fun x => { x with latch := 1, phase := 4 }) (inRun [(grpA 3, 1), (dioA 62 0, 0x311), (dioA 63 0, 0x301)])
     s.c.owner 63 = 62 ∧ HostRuns (0x20020C + 63 / 16 * 0x1000 + 63 % 16 * 0x10) false s ∧ (s.d.dch (s.c.owner 63)).latch ≠ 0 ∧ 62 / 16 = 3 ∧ (s.d.dch 62).phase = 4) ∧
    (HostRuns (0x20020C + 63 / 16 * 0x1000 + 63 % 16 * 0x10) false (inRun (dig 3)) ∧ ((inRun (dig 3)).d.dch 63).latch = 0 ∧ (inRun (dig 3)).c.dioMode 63 ≠ 2) := by
  unfold HostRuns; decide +kernel

theorem witness_InputSampling_more :
    (let s := standbyOf (withDch 63 (fun x => { x with run := 16, cand := true }) (inRun [(grpA 3, 1), (dioA 63 0, 0x1010101)]))
     s.c.isIn 63 = true ∧ s.c.grpEn (63 / 16) = true ∧ s.d.standby = true ∧ s.c.debNeed 63 ≤ (s.d.dch 63).run ∧ dioCause s.d 63 ≠ 3 ∧ (s.d.dch 63).brk = false ∧
       (s.d.dch 63).cand ≠ (s.d.dch 63).level) ∧
    (let s := standbyOf (withDch 63 (fun x => { x with run := 16 }) (inRun [(grpA 3, 1), (dioA 63 0, 0x1010101)]))
     s.d.standby = true ∧ s.c.debNeed 63 ≤ (s.d.dch 63).run ∧ (s.d.dch 63).cand = (s.d.dch 63).level) ∧
    (let s := atMs 50 (withDch 63 (fun x => { x with run := 16, brk := true, hasState := true }) (inRun [(grpA 3, 1), (dioA 63 0, 0x1010105)]))
     s.d.standby = false ∧ s.c.debNeed 63 ≤ (s.d.dch 63).run ∧ dioCause s.d 63 ≠ 3 ∧ (s.d.dch 63).brk = true ∧ (s.d.dch 63).brkAt + 50 ≤ s.d.ms ∧ s.c.isIn 63 = true ∧
       s.c.grpEn (63 / 16) = true ∧ s.c.bF (dioA 63 0) 2 = true) := by decide +kernel

theorem witness_GuardTerms_more :
    (let s := inRun [(termA 63 0, 0x1F40001)]
     s.d.live s.c = true ∧ s.c.termEn 63 = true ∧ 63 < s.c.fx.nTerms ∧ s.d.flt.find 0xD100 = none) ∧
    (inRun []).d.live { (inRun []).c with img := Image.none } = false := by decide +kernel

theorem witness_TimeCommands_more :
    (let s := withD (fun d => d.setAct 255 { d.act 255 with state := 1, passed := true, c0 := 2 ^ 40 }) (inRun [(0x30024, 1), (actA 255 0, 3), (0x3002C, 0xFFFFFFFF), (0x30028, 0xFFFFFFFF)])
     HostRuns 0x3003C false s ∧ s.c.stepVal ≠ 0 ∧ s.c.stepBack = true ∧ (s.d.act 255).state = 1 ∧ s.c.actBind 255 = true ∧ (s.d.act 255).passed = true) ∧
    (let s := withLaunch (aLaunch 1 0) (inRun (launchBox ++ [(0x3002C, 1), (launchA 3 15 0, 0x100A1F00)]))
     HostRuns 0x3003C false s ∧ 0 < s.c.stepVal ∧ ((s.d.port 3).launch 15).state = 1) := by unfold HostRuns; decide +kernel

theorem witness_Archive_items :
    (let q : PQ := { region := 1, recs := [], kind := .parity 249 3 0 }
     let s := withD (fun d => d.setBand 249 { Band.empty with cond := 2, owner := 1, order := 3 }) (onArc (fun a => { a with queue := [q], state := 2 }) (inRun []))
     s.d.arc.queue = q :: [] ∧ s.d.arc.state = 2 ∧ q.kind = .parity 249 3 0 ∧ 2 ≤ (s.d.band 249).cond ∧ (s.d.band 249).order = 3) ∧
    (let q : PQ := { region := 1, recs := [], kind := .index 249 3 }
     let s := withD (fun d => d.setBand 249 { Band.empty with cond := 3, owner := 1, order := 3 }) (onArc (fun a => { a with queue := [q], state := 2 }) (inRun []))
     s.d.arc.queue = q :: [] ∧ s.d.arc.state = 2 ∧ q.kind = .index 249 3 ∧ 2 ≤ (s.d.band 249).cond ∧ (s.d.band 249).order = 3) ∧
    (let s := withBand 249 2 1 (onArc (fun a => { a with queue := [aPQ], state := 2 }) (inRun []))
     aPQ.kind = .data ∧ (s.d.band 249).subs.length + 1 ≠ 56) ∧
    (let s := onArc (fun a => { a with state := 1, cpValid := false }) (inRun [])
     s.d.arc.state = 1 ∧ s.d.glb.st ≠ .boot ∧ s.d.arc.cpValid = false) := by decide +kernel

theorem witness_Takes_partner_image :
    (let s := standbyOf (onPair (fun p => { p with state := 7 }) (onSmall (inRun [])))
     s.d.standby = true ∧ s.d.pair.state ≠ 0 ∧ s.c.img.ok = true ∧ (checkImage s.c s.d 3 (imageBytes smallImage)).1 = none) ∧
    (let s := withImg (fun i => { i with ok := false }) (onSmall (inState .safe []))
     s.d.glb.st = .safe ∧ s.c.img.ok = false ∧ s.c.fx.pair = true ∧ (checkImage s.c s.d 3 (imageBytes smallImage)).1 = none) := by
  have e : imageBytes smallImage = smallImage := by decide +kernel
  refine ⟨⟨rfl, by decide, rfl, ?_⟩, rfl, rfl, rfl, ?_⟩ <;>
    exact congrArg Prod.fst ((congrArg (checkImage _ _ 3) e).trans (small_passes _ _ rfl rfl (by decide) (by decide)))

/-! Single steps and published check values. -/

def after (i : Instr) (s : State) : State := match step { s with pending := [i] } with | .next t => t | _ => s

/-- The check value of CRC-32C over "123456789". -/
theorem test_crc32c : crc32c [0x31, 0x32, 0x33, 0x34, 0x35, 0x36, 0x37, 0x38, 0x39] = 0xE3069283 := by decide +kernel
/-- FIPS 180-4: the digest of "abc". -/
theorem test_sha256_abc : sha256 [0x61, 0x62, 0x63] = 0xBA7816BF8F01CFEA414140DE5DAE2223B00361A396177A9CB410FF61F20015AD := by decide +kernel
/-- R94: 781,250 cycles in a window are no offset; 391 cycles more are beyond 500 ppm. -/
theorem test_slow_cal : (after (.slowCalWindow 781250) (inRun [])).d.pwr.calOfs = 0 ∧ (after (.slowCalWindow 781641) (inRun [])).d.pwr.calOfs = -500230 ∧
    (after (.slowCalWindow 781641) (inRun [])).d.pwr.calOut = true ∧ (after (.slowCalWindow 781640) (inRun [])).d.pwr.calOut = false := by decide +kernel
/-- R91: a 1 written to a flag of PWR_RSTCAUSE clears that flag alone. -/
theorem test_rstcause : (after (.registerWrite 0x10004 1) (inRun [])).d.pwr.rst = 2 ∧ (after (.registerWrite 0x10004 2) (inRun [])).d.pwr.rst = 1 := by decide +kernel
/-- R513: an unaligned read shows 0xFF and is noted with its code and address. -/
theorem test_unaligned_read : (after (.dpRead 0x10006 3 []) (inRun [])).d.dp.out = [0xFF, 0xFF, 0xFF] ∧ (after (.dpRead 0x10006 3 []) (inRun [])).d.dp.code = 0x2041 ∧
    (after (.dpRead 0x10006 3 []) (inRun [])).d.dp.addr = 0x10006 := by decide +kernel
/-- R517: the first bytes of an identity frame. -/
theorem test_identity : (after (.dpIdentity 2) State.reset).d.dp.out = [0xE5, 0x5A] := by decide +kernel
/-- R30: GO_SAFE waits for the boundary in RUN and is refused in SAFE. -/
theorem test_go_safe : (after .goSafe (inRun [])).d.glb.safeReq = some 0 ∧ (after .goSafe (inRun [])).d.glb.st = .run ∧
    (after .goSafe (inState .safe [])).d.glb.cmdResult = 0x4A := by decide +kernel
/-- R470: a transmit error adds 8, and the port is bus-off beyond 255; a receive error adds 1, or 8 with a dominant bit after the flag. -/
theorem test_can_errors :
    ((after (.canErrorDetected 3 { rx := false, dominantAfter := false, lec := 5 }) (withPort 3 (fun x => { x with tec := 247 }) (inRun (can 0)))).d.port 3).busOff = false ∧
    ((after (.canErrorDetected 3 { rx := false, dominantAfter := false, lec := 5 }) (withPort 3 (fun x => { x with tec := 248 }) (inRun (can 0)))).d.port 3).busOff = true ∧
    ((after (.canErrorDetected 3 { rx := true, dominantAfter := true, lec := 5 }) (inRun (can 0))).d.port 3).rcv = 8 ∧
    ((after (.canErrorDetected 3 { rx := true, dominantAfter := false, lec := 5 }) (inRun (can 0))).d.port 3).rcv = 1 := by decide +kernel
/-- R273: the bounds of a correction factor, in Q16.16. -/
theorem test_kappa : ((after (.kappaWrite 1 16384) (inRun [])).d.col 1).kWrite = some 16384 ∧ ((after (.kappaWrite 1 262145) (inRun [])).d.col 1).reason = 0xB001 := by decide +kernel
/-- R228: a quarter of an hour of flow is taken from the clock of the flow and waits as an increment. -/
theorem test_flow_quarter : let s := after (.flowQuarter 7) (withCtg 7 (fun x => { x with acc := 900001 }) (inRun [(cellA 7, 1)]))
    (s.d.ctg 7).acc = 1 ∧ (s.d.ctg 7).pend = 1 := by decide +kernel
/-- R377: the fourth overload latches. -/
theorem test_overload : let s := withGrp 3 (fun x => { x with applied := 2 ^ 15 }) (inRun (dig 3))
    ((after (.outputOverload 63) s).d.dch 63).retries = 1 ∧
    ((after (.outputOverload 63) (withDch 63 (fun x => { x with retries := 3 }) s)).d.dch 63).latch = 1 := by decide +kernel
/-- R454: a step adds to the offset and to the epoch; one of 0 is refused. -/
theorem test_time_step : (after .timeStep (inRun [(0x30028, 5)])).d.tim.ofs = 5 ∧ (after .timeStep (inRun [(0x30028, 5)])).d.tim.epoch = 1 ∧
    (after .timeStep (inRun [])).d.tim.cmdResult = 1 := by decide +kernel

/-- R113, step 1: one changed byte in its section fails the envelope of `smallImage` with 0x1042. -/
theorem test_envelope_crc : (crcBad (smallImage.set 0x114 11)).map (fun b => (b.code, b.off)) = some (0x1042, 0x110) := by decide +kernel

end Sys2Proof.Tests
end

section
/-! The register tables, the fuses and the queue under every command, and that every command answers a next state (R4, R12, R16). -/

namespace Sys2Proof.Machine

open Sys2Proof

/-- An operation made only where its operands name something that exists. -/
theorem Keeps.when {s t : State} (p : Prop) [Decidable p] (h : Keeps s t) : Keeps s (if p then t else s) := Keeps.ite p h Keeps.rfl

/-- A host's write of a value that reaches the dynamic state alone. -/
theorem hostVal_dyn_keeps (a : Nat) (g : State → Dyn) (s : State) : Keeps s (hostVal a (fun s => { s with d := g s }) s) :=
  hostVal_keeps _ _ _ (fun _ => Keeps.dyn _)

/-- A host's command that stores its argument and else reaches the dynamic state alone. -/
theorem hostCmd_keepArg_keeps (a : Nat) (takes : Bool) (r : Nat) (v : Word) (g : State → Dyn) (s : State) :
    Keeps s (hostCmd a takes (fun s => keepArg r v { s with d := g s }) s) :=
  hostCmd_keeps _ _ _ _ (fun _ => Keeps.fromDyn (keepArg_keeps _ _ _))

/-- What every command does: it answers a next state, with the queue and the fuses as they are and canonical register tables where they were.
The cases are sorted by what a command reaches: the dynamic state alone (events, then commands of the host), or register words too. -/
theorem exec_keeps (i : Instr) (s : State) : ∃ t, exec i s = .next t ∧ Keeps s t := by
  cases i with
  | flashDiscovery | checkpointRead | stepTimeout | unitStartTimeout | unitStopTimeout | unitProofLost | unitTrip1 | unitTrip2
  | columnStepComplete | dormantEntry | scanWake | timedWake | wakePin | partnerWake | xt32Stopped | xt25Fail | slowCalWindow | vaoLow
  | v33aOut | stagingFillDone | sessionExpired | stagingWrite | writebackComplete | fuseProgDone | excRetry | rtdConversion | cellStale
  | idResponse | idAttemptFail | presencePoll | flowQuarter | incrRetry | ctgLineFault | modelOpenLoop | inletLost | returnFrameSet
  | faultCopyTaken | eventsMerged | timedActionFire | slewEnd | dpRead | dpQuadRead | dpWrite | dpQuadWrite | dpStatus | dpIdentity
  | unknownCommand | lockExpired | subpageProgramDone | bandEraseDone | flushTimeout | dropSummary | shuttleDone | mountComplete
  | sealReceived | sealMissed | returnFrameReceived | returnFrameMissed | seekTimeout | fenceInChange | partnerJoin | partnerSynced
  | threadDone | v33aInRange | vaoRestored | xt32Restarted | ctgLineRecovered | partnerAnswer | pairLinkPacket =>
    exact ⟨_, rfl, Keeps.dyn _⟩
  | dioWake | holdExpiry | fieldWatchdogExpiry | channelStale | inputSample | debouncedChange | inputBreak | backfed | driverFault
  | openLoad | outputOverload | overloadRetry | overloadRecovered | fieldSupplySample | fieldCut | groupRestorable | groupRecordClose
  | statusFramesBad | statusRecovered | groupMissing | commonFaultLine | partnerOutputMismatch | listenInputMismatch | tachEdge
  | spinupTimeout | pauseTimeout | lowSpeedTimeout | outputOpen | outputShort | leaseExpiry | partnerDriveMismatch | guardRelease
  | guardPathFault | canFrameReceived | canTxComplete | followUpSend | busRecovered | launchWindowClose | netTimeLost | portBlocked
  | mapRxTimeout | serviceRead | serviceWrite | serviceWriteReply | canErrorDetected =>
    exact ⟨_, rfl, Keeps.when _ (Keeps.dyn _)⟩
  | goDormant | goSafe | leaveSafe | sessionClose | apply | store | applyStore | fuseProg | guardResetAll | faultAck | faultAckAll
  | faultNext | timeStep | slew | arcFlush | shuttleGo | shuttleCancel | accept | reject | switch | resync =>
    exact ⟨_, rfl, hostDyn_keeps _ _ _ s⟩
  | selftest | lcommit | calOpen | calShort | calClear | reread | columnRestart | batchClear | kappaReset | reinit | loopClrCounts | snap
  | traceArm | traceStop | traceForce | draftHold | resume | abort | draftReset | unitRun | unitStop | unitAck | dioRestore | dioClrMin
  | dioGroupClear | dioChannelClear | zero | movClear | movRestore | movClrMin | movGroupClear | recover | abortAll | canClrCounts
  | launchArm =>
    exact ⟨_, rfl, Keeps.when _ (hostDyn_keeps _ _ _ s)⟩
  | seqFlagset | seqFlagclr =>
    exact ⟨_, rfl, hostVal_dyn_keeps _ _ s⟩
  | kappaWrite | dioGoutset | dioGoutclr =>
    exact ⟨_, rfl, Keeps.when _ (hostVal_dyn_keeps _ _ s)⟩
  | v33PowerUp => exact ⟨_, rfl, v33PowerUp_keeps s⟩
  | rstNLow => exact ⟨_, rfl, rstNLow_keeps s⟩
  | rstNRelease => exact ⟨_, rfl, rstNRelease_keeps s⟩
  | v33Loss => exact ⟨_, rfl, v33Loss_keeps s⟩
  | vaoPowerOn => exact ⟨_, rfl, vaoPowerOn_keeps s⟩
  | candidateStreamed => exact ⟨_, rfl, candidateStreamed_keeps s⟩
  | bootEnd => exact ⟨_, rfl, bootEnd_keeps _ _ s⟩
  | frameBoundary => exact ⟨_, rfl, frameBoundary_keeps _ s⟩
  | loopDeadline => exact ⟨_, rfl, loopDeadline_keeps _ s⟩
  | fastClocksRunning => exact ⟨_, rfl, fastClocksRunning_keeps _ s⟩
  | scanListComplete => exact ⟨_, rfl, scanListComplete_keeps s⟩
  | burstEnd => exact ⟨_, rfl, burstEnd_keeps s⟩
  | commitCheckDone => exact ⟨_, rfl, commitCheckDone_keeps s⟩
  | enableCheckDone => exact ⟨_, rfl, enableCheckDone_keeps s⟩
  | registerWrite => exact ⟨_, rfl, registerWrite_keeps _ _ s⟩
  | guardSlotStart => exact ⟨_, rfl, guardSlotStart_keeps _ s⟩
  | visitEnd => exact ⟨_, rfl, visitEnd_keeps _ _ _ _ s⟩
  | selftestDone => exact ⟨_, rfl, selftestEnd_keeps _ _ _ _ s⟩
  | sweepComplete => exact ⟨_, rfl, sweepComplete_keeps _ _ _ s⟩
  | takeover => exact ⟨_, rfl, takeover_keeps s⟩
  | handover => exact ⟨_, rfl, handover_keeps s⟩
  | partnerImageReceived => exact ⟨_, rfl, partnerImage_keeps _ s⟩
  | commitPartnerResult => exact ⟨_, rfl, commitPartnerResult_keeps _ s⟩
  | wakeGraceTimeout => exact ⟨_, rfl, wakeGraceTimeout_keeps s⟩
  | supplyOutOfRange => exact ⟨_, rfl, supplyOut_keeps _ s⟩
  | forwardFrameSet g => exact ⟨_, rfl, Keeps.ite _ (forwardDio_keeps g s) (Keeps.when _ (Keeps.dyn _))⟩
  | launchDue p l => exact ⟨_, rfl, Keeps.when _ (launchDue_keeps p l s)⟩
  | enableWrite => exact ⟨_, rfl, Keeps.when _ (registerWrite_keeps _ _ s)⟩
  | actionArm => exact ⟨_, rfl, Keeps.when _ (registerWrite_keeps _ _ s)⟩
  | glbCmdReset => exact ⟨_, rfl, hostCmd_keeps _ _ _ s glbReset_keeps⟩
  | slewStop => exact ⟨_, rfl, hostCmd_keeps _ _ _ s slewStopCmd_keeps⟩
  | txreq p v => exact ⟨_, rfl, Keeps.when _ (hostCmd_keeps _ _ _ s (txreqWrite_keeps p v))⟩
  | txBufferWrite p m dlc data => exact ⟨_, rfl, Keeps.when _ (hostCmd_keeps _ _ _ s (txBufferPut_keeps p m dlc data))⟩
  | loopModeWrite n v => exact ⟨_, rfl, Keeps.when _ (hostVal_keeps _ _ s (loopModeWrite_keeps n v))⟩
  | sessionOpen => exact ⟨_, rfl, hostCmd_keepArg_keeps _ _ _ _ _ s⟩
  | guardReset | clearRegion => exact ⟨_, rfl, Keeps.when _ (hostCmd_keepArg_keeps _ _ _ _ _ s)⟩

/-- One step on any queue: the configuration keeps what it must, and the front command alone has left the queue. -/
theorem step_keeps (s t : State) (h : step s = .next t) : CKeeps s.c t.c ∧ t.pending = s.pending.tail := by
  unfold step at h
  split at h
  case h_1 idle =>
    cases h
    exact ⟨CKeeps.rfl, by simp [idle]⟩
  case h_2 i rest front =>
    obtain ⟨u, hu, hq, hc⟩ := exec_keeps i { s with pending := rest }
    cases h.symm.trans hu
    exact ⟨hc, by simpa [front] using hq⟩

/-- Settles O4: at reset no table lists a word. -/
theorem registerTablesAtReset : Obligations.RegisterTablesAtReset := by
  unfold Obligations.RegisterTablesAtReset
  exact Regs.none_ok

/-- Settles O6, by what every command does. -/
theorem noCommandStops : Obligations.NoCommandStops := by
  unfold Obligations.NoCommandStops
  intro i s
  obtain ⟨t, ht, hq, -⟩ := exec_keeps i s
  exact ⟨t, ht, hq⟩

/-- Settles O5: each command keeps the tables and the fuses, and the idle tick leaves the configuration alone. -/
theorem registerTablesKept : Obligations.RegisterTablesKept := by
  unfold Obligations.RegisterTablesKept
  intro s t h
  obtain ⟨⟨hfuses, htables⟩, hqueue⟩ := step_keeps s t h
  exact ⟨htables, hfuses, hqueue⟩

end Sys2Proof.Machine
end

section
/-! The step, the reset state, and where a command of the host is not taken (R4, R16, R18, R44, R512, R558). -/

namespace Sys2Proof.Machine

open Sys2Proof

/-- Settles O1: the step looks at the queue's front alone. -/
theorem stepRunsFrontCommand : Obligations.StepRunsFrontCommand := by
  unfold Obligations.StepRunsFrontCommand
  intro i rest s h
  unfold step
  rw [h]

/-- Settles O3: the reset state is closed, and a table without entries reads its default at every index. -/
theorem resetState : Obligations.ResetState := by
  unfold Obligations.ResetState
  exact ⟨rfl, rfl, rfl, rfl, fun _ => ⟨rfl, rfl⟩, rfl, rfl, rfl, fun _ => rfl, fun _ => rfl, rfl, rfl, rfl⟩

/-- A register of one entry is a register only where the entry exists. -/
theorem ite_some_eq {b : Bool} {p q : Nat × Bool} (h : (if b then some p else none) = some q) : b = true ∧ p = q := by
  cases b with
  | false => simp at h
  | true => exact ⟨rfl, Option.some.inj h⟩

/-- A bank command is no operator command (R44). -/
theorem cmdIsOp_bank {a : Nat} (h1 : 0x100000 ≤ a) (h2 : a < 0x110000) : cmdIsOp a = false := by
  simp [cmdIsOp, h1, h2]

/-- Every command that the host writes to a register goes through `hostCmd` at that register. -/
theorem exec_hostReg {i : Instr} {a : Nat} {takes : Bool} {s : State} (h : hostReg s.c.fx i = some (a, takes)) :
    ∃ g, exec i s = .next (hostCmd a takes g s) := by
  cases i with
  | goDormant | goSafe | leaveSafe | glbCmdReset | sessionOpen | sessionClose | apply | store | applyStore | fuseProg | seqFlagset
  | seqFlagclr | guardResetAll | faultAck | faultAckAll | faultNext | timeStep | slew | slewStop | arcFlush | shuttleGo | shuttleCancel
  | accept | reject | switch | resync =>
    cases h
    exact ⟨_, rfl⟩
  | selftest | lcommit | calOpen | calShort | calClear | reread | columnRestart | batchClear | kappaReset | kappaWrite | loopModeWrite
  | reinit | loopClrCounts | snap | traceArm | traceStop | traceForce | draftHold | resume | abort | draftReset | unitRun | unitStop
  | unitAck | dioRestore | dioClrMin | dioGroupClear | dioChannelClear | zero | dioGoutset | dioGoutclr | movClear | movRestore
  | movClrMin | movGroupClear | guardReset | recover | abortAll | canClrCounts | txreq | clearRegion =>
    obtain ⟨hin, hreg⟩ := ite_some_eq h
    cases hreg
    exact ⟨_, congrArg Host.Outcome.next (if_pos (of_decide_eq_true hin))⟩
  | txBufferWrite | launchArm =>
    obtain ⟨hin, hreg⟩ := ite_some_eq h
    cases hreg
    rw [Bool.and_eq_true, decide_eq_true_eq, decide_eq_true_eq] at hin
    exact ⟨_, congrArg Host.Outcome.next (if_pos hin)⟩
  | _ => cases h

/-- Settles O7, by what `hostCmd` does before it runs a command. -/
theorem hostCommandsRefused : Obligations.HostCommandsRefused := by
  unfold Obligations.HostCommandsRefused
  intro i a takes s h
  obtain ⟨g, hg⟩ := exec_hostReg h
  refine ⟨fun hdown => ?_, fun hup hstb htakes => ?_, fun hup hstb hbasic hlo hhi => ?_⟩
  · rw [hg, hostCmd_down hdown]
  · subst htakes
    rw [hg, hostCmd_standby hup hstb]
  · rw [hg]
    simp [hostCmd, hup, hstb, hbasic, cmdIsOp_bank hlo hhi, lockedWrite]

end Sys2Proof.Machine
end

section
/-! The wake sources (R25, R87, R89, R382, R559). -/

namespace Sys2Proof.Machine

open Sys2Proof

theorem wakePin_spec (c : Cfg) (low : Bool) (d : Dyn) : wakePin c low d =
    { d with pwr := if low = true ∧ c.pinWake = true then Woken 0x81 d { d.pwr with wakeLow := low } else { d.pwr with wakeLow := low } } := by
  unfold wakePin
  by_cases h : low = true ∧ c.pinWake = true
  · obtain ⟨hlow, hpin⟩ := h
    simp only [hlow, hpin, Bool.and_self, if_true, and_self, wakeSource_spec]
    rfl
  · rw [if_neg h, if_neg (by simpa using h)]

theorem partnerWake_spec (c : Cfg) (d : Dyn) : partnerWake c d =
    { d with pwr := if c.fx.pair = true ∧ c.partnerWakeEn = true then Woken 0x83 d d.pwr else d.pwr } := by
  unfold partnerWake
  by_cases h : c.fx.pair = true ∧ c.partnerWakeEn = true
  · rw [if_pos h, if_pos (by simpa using h), wakeSource_spec]
  · rw [if_neg h, if_neg (by simpa using h)]

/-- A change of input `k` to `level` is one that the WAKE field of the channel selects (R382). -/
def DioHit (c : Cfg) (k : Nat) (level : Bool) : Prop :=
  k < 64 ∧ c.grpEn (k / 16) = true ∧ c.isIn k = true ∧ (c.dioWake k = 3 ∨ (c.dioWake k = 1 ∧ level = true) ∨ (c.dioWake k = 2 ∧ level = false))

/-- What a wake keeps of the change for the first snapshot after it: in DORMANT the new level (R382). -/
def dioHeld (k : Nat) (level : Bool) (d : Dyn) : Dyn :=
  if d.glb.st = .dormant then d.setDch k { d.dch k with level := level, hasState := true, own := level, hasOwn := true } else d

theorem dioHeld_alike (k : Nat) (level : Bool) (d : Dyn) : Alike { dioHeld k level d with fld := d.fld } d := by
  unfold dioHeld
  split <;> rfl

theorem dioHeld_dormant (k : Nat) (level : Bool) (d : Dyn) (h : d.glb.st = .dormant) (j : Nat) :
    (dioHeld k level d).dch j = if j = k then { d.dch k with level := level, hasState := true, own := level, hasOwn := true } else d.dch j := by
  rw [dioHeld, if_pos h, setDch_get]

theorem dioWake_hit {c : Cfg} {k : Nat} {level : Bool} (h : DioHit c k level) (d : Dyn) : dioWake c k level d =
    { dioHeld k level d with pwr := if c.dioWakeEn = true then Woken (0x100 + k) d d.pwr else d.pwr } := by
  obtain ⟨hk, hen, hin, hsel⟩ := h
  have hit : (decide (k < 64) && c.grpEn (k / 16) && c.isIn k && (c.dioWake k == 3 || (c.dioWake k == 1 && level) || (c.dioWake k == 2 && !level))) = true := by
    simpa [hk, hen, hin, or_assoc] using hsel
  have held : (if (d.glb.st == .dormant) = true then d.setDch k { d.dch k with level := level, hasState := true, own := level, hasOwn := true } else d) =
      dioHeld k level d := by simp [dioHeld]
  unfold dioWake
  simp only [hit, Bool.and_true, Bool.true_and, held, wakeSource_spec]
  unfold dioHeld
  by_cases hd : d.glb.st = .dormant <;> by_cases hw : c.dioWakeEn = true <;> simp only [hd, hw, if_true, if_false] <;> rfl

theorem dioWake_miss {c : Cfg} {k : Nat} {level : Bool} (h : ¬DioHit c k level) (d : Dyn) : dioWake c k level d = d := by
  have miss : (decide (k < 64) && c.grpEn (k / 16) && c.isIn k && (c.dioWake k == 3 || (c.dioWake k == 1 && level) || (c.dioWake k == 2 && !level))) = false := by
    rw [← Bool.not_eq_true]
    exact fun hit => h (by simpa [DioHit, and_assoc, or_assoc] using hit)
  simp [dioWake, miss]

/-- Settles O14, by the spec of each source. -/
theorem wakeSources : Obligations.WakeSources := by
  unfold Obligations.WakeSources
  intro low level k s
  refine ⟨⟨_, next_dyn (wakePin_spec s.c low s.d), rfl⟩, ⟨_, next_dyn (partnerWake_spec s.c s.d), rfl⟩, fun hit => ?_, fun miss => ?_⟩
  · refine ⟨dioHeld k level s.d, _, ?_, rfl, dioHeld_alike k level s.d, fun hawake => if_neg hawake, dioHeld_dormant k level s.d⟩
    exact congrArg Host.Outcome.next ((if_pos hit.1).trans (congrArg (fun d => { s with d := d }) (dioWake_hit hit s.d)))
  · refine congrArg Host.Outcome.next ?_
    rw [dioWake_miss miss, ite_self]

end Sys2Proof.Machine
end

section
/-! The logic side held in reset, and the entries to BOOT (R18, R22, R30, R74 to R80, R88, R91, R112, R452). -/

namespace Sys2Proof.Machine

open Sys2Proof

/-- The logic side of `t` is held in reset, and `d` is what it was before (R75, R77, R78). -/
def LogicHeld (d : Dyn) (t : State) : Prop :=
  t.d.pwr.resetFrom = some d.glb.st ∧ t.d.pwr.slow = true ∧ t.d.flt = Flt.cold ∧ t.d.ctl = Ctl.cold ∧ t.d.seq = Seq.cold ∧
  t.d.mst.cells = [] ∧ t.d.cnv.chans = [] ∧ t.d.can.ports = [] ∧ (∀ g, g < 6 → (t.d.grp g).line = 3) ∧
  t.d.cfg.fuse0 = d.cfg.fuse0 ∧ t.d.cfg.fuse1 = d.cfg.fuse1 ∧ t.d.arc.bands = d.arc.bands

/-- A reset of a running logic side holds it, and keeps the registers, device time and what the always-on domain has of the power block. -/
theorem holdReset_held {s : State} (h : s.d.pwr.resetFrom = none) :
    LogicHeld s.d (holdReset s) ∧ (holdReset s).c = s.c ∧ (holdReset s).d.tim.acc = s.d.tim.acc ∧
      (holdReset s).d.pwr = { (logicReset s.d).pwr with resetFrom := some s.d.glb.st, slow := true } := by
  obtain ⟨f, hs, hline⟩ := holdReset_spec s h
  rw [hs]
  exact ⟨⟨rfl, rfl, rfl, rfl, rfl, rfl, rfl, rfl, hline, rfl, rfl, rfl⟩, rfl, rfl, rfl⟩

/-- A logic side that is held stays as it is. -/
theorem holdReset_again {s : State} (h : s.d.pwr.resetFrom ≠ none) : holdReset s = s := by
  obtain ⟨old, hold⟩ := Option.ne_none_iff_exists'.mp h
  simp [holdReset, hold]

theorem v33Loss_absent {s : State} (h : s.d.pwr.v33 = false) : v33Loss s = s := by simp [v33Loss, h]

/-- What V33_LOSS notes before the reset (R77, R88, R91). -/
def v33Lost (s : State) : Pwr :=
  { s.d.pwr with v33 := false, rst := s.d.pwr.rst ||| (if s.d.glb.st = .dormant then 32 else 4),
                 scanStopped := s.d.pwr.scanStopped || decide (s.d.glb.st = .dormant) }

theorem v33Loss_present {s : State} (h : s.d.pwr.v33 = true) : v33Loss s = holdReset { s with d := { s.d with pwr := v33Lost s } } := by
  have asleep : (s.d.glb.st == .dormant) = decide (s.d.glb.st = .dormant) := rfl
  simp only [v33Loss, h, if_true, asleep, decide_eq_true_eq, v33Lost]

/-- The supply that SUPPLY_OUT_OF_RANGE reports is out of range (R74). -/
def supplyGone (which : Supply) (p : Pwr) : Pwr :=
  match which with
  | .v33a => { p with v33a := false }
  | .vio => { p with vio := false }
  | .vao => { p with vaoIn := false, vaoOk := false }

theorem supplyOut_eq (which : Supply) (s : State) :
    supplyOut which s = holdReset { s with d := { s.d with pwr := { supplyGone which s.d.pwr with rst := s.d.pwr.rst ||| 8 } } } := by
  cases which <;> rfl

theorem supplyGone_resetFrom (which : Supply) (p : Pwr) : (supplyGone which p).resetFrom = p.resetFrom := by cases which <;> rfl
theorem supplyGone_rstLow (which : Supply) (p : Pwr) : (supplyGone which p).rstLow = p.rstLow := by cases which <;> rfl

/-- Clearing TIM_TRIM changes no other word. -/
theorem clearTrim_w (c : Cfg) (a : Nat) : ({ c with reg := c.reg.putB 0x30030 0 } : Cfg).w a = if a = 0x30030 then 0 else c.w a := putW_w c.reg 0x30030 a 0

/-- The return of VAO restarts the always-on domain (R91, R94, R452). -/
theorem vaoPowerOn_restarts (s : State) :
    let t := vaoPowerOn s
    t.c.w 0x30030 = 0 ∧ (∀ a, a ≠ 0x30030 → t.c.w a = (holdReset s).c.w a) ∧ t.d.pwr.resetFrom = (holdReset s).d.pwr.resetFrom ∧ t.d.pwr.rst = 1 ∧
      t.d.tim = Tim.cold ∧ t.d.pwr.vaoIn = true ∧ t.d.pwr.calOfs = 0 ∧ t.d.pwr.calValid = false :=
  ⟨(clearTrim_w _ _).trans (if_pos rfl), fun a ha => (clearTrim_w _ a).trans (if_neg ha), rfl, rfl, rfl, rfl, rfl, rfl⟩

/-- Settles O8: each of the four notes its cause and holds the logic side; one that is held already takes the cause alone. -/
theorem resetHoldsTheLogic : Obligations.ResetHoldsTheLogic := by
  unfold Obligations.ResetHoldsTheLogic
  intro which s
  refine ⟨fun running => ⟨?_, ?_, fun hv => ?_, ?_⟩, fun held => ⟨?_, ?_, fun hv => ?_, ?_⟩, fun hv => congrArg Host.Outcome.next (v33Loss_absent hv)⟩
  · obtain ⟨hheld, hc, hacc, hp⟩ := holdReset_held (s := { s with d := { s.d with pwr := { s.d.pwr with rst := s.d.pwr.rst ||| 8, rstLow := true } } }) running
    exact ⟨_, rfl, hheld, hc, (congrArg Pwr.rst hp).trans rfl, congrArg Pwr.rstLow hp, hacc⟩
  · obtain ⟨hheld, hc, hacc, hp⟩ := holdReset_held (s := { s with d := { s.d with pwr := { supplyGone which s.d.pwr with rst := s.d.pwr.rst ||| 8 } } })
      ((supplyGone_resetFrom which s.d.pwr).trans running)
    exact ⟨_, congrArg Host.Outcome.next (supplyOut_eq which s), hheld, hc, (congrArg Pwr.rst hp).trans rfl, (congrArg Pwr.rstLow hp).trans (supplyGone_rstLow which s.d.pwr),
      (congrArg Pwr.v33a hp).trans rfl, (congrArg Pwr.vio hp).trans rfl, (congrArg Pwr.vaoIn hp).trans rfl, (congrArg Pwr.vaoOk hp).trans rfl, hacc⟩
  · obtain ⟨hheld, hc, hacc, hp⟩ := holdReset_held (s := { s with d := { s.d with pwr := v33Lost s } }) running
    exact ⟨_, congrArg Host.Outcome.next (v33Loss_present hv), hheld, hc, (congrArg Pwr.v33 hp).trans rfl, hacc, (congrArg Pwr.rst hp).trans rfl, (congrArg Pwr.scanStopped hp).trans rfl⟩
  · obtain ⟨hheld, hc, -, -⟩ := holdReset_held running
    obtain ⟨htrim, hwords, -, hrest⟩ := vaoPowerOn_restarts s
    exact ⟨_, rfl, hheld, htrim, fun a ha => (hwords a ha).trans (by rw [hc]), hrest⟩
  · exact congrArg Host.Outcome.next (holdReset_again held)
  · exact congrArg Host.Outcome.next ((supplyOut_eq which s).trans (holdReset_again (by rw [supplyGone_resetFrom]; exact held)))
  · exact congrArg Host.Outcome.next ((v33Loss_present hv).trans (holdReset_again held))
  · obtain ⟨htrim, -, hfrom, hrest⟩ := vaoPowerOn_restarts s
    exact ⟨_, rfl, hfrom.trans (by rw [holdReset_again held]), htrim, hrest⟩

/-- `t` is at the beginning of BOOT after the state `old`, and `s` is what it was before (R18, R22, R112). -/
def Booted (old : DevState) (s t : State) : Prop :=
  t.d.glb.st = .boot ∧ t.d.glb.lastCause = 0 ∧ t.d.pwr.resetFrom = none ∧ t.c.img.ok = false ∧
  (∀ a, a ≠ 0x30030 → t.c.w a = resetWord a ∧ t.c.f a = resetWord a) ∧ t.d.flt = Flt.cold ∧ t.d.dp.irq = 0 ∧
  t.d.cfg.found = false ∧ t.d.cfg.accepted = none ∧
  t.d.arc.waitRecs.map (fun r => (r.typ, r.cls, r.body)) = [(1, 0, [leBytes 1 old.num, leBytes 1 0, leBytes 2 0].flatten)] ∧
  (∀ g, g < 6 → (t.d.grp g).line = 1 ∧ (g < 4 → (t.d.grp g).applied = 0)) ∧ (∀ n, n < 32 → (t.d.mch n).e = 0) ∧
  t.d.tim.acc = s.d.tim.acc ∧ t.c.w 0x30030 = s.c.w 0x30030

/-- An entry to BOOT begins it, and keeps what the always-on domain has of the power block. -/
theorem toBoot_booted (old : DevState) (s : State) :
    Booted old s (toBoot old s) ∧ (toBoot old s).d.pwr = { (logicReset s.d).pwr with resetFrom := none } := by
  obtain ⟨a, f, ht, hrec, hgrps, hmov⟩ := toBoot_spec old s
  have hwords : ∀ b, b ≠ 0x30030 → (cfgReset s.c).w b = resetWord b ∧ (cfgReset s.c).f b = resetWord b := fun b hb =>
    ⟨(cfgReset_w s.c b).1.trans (if_neg hb), (cfgReset_w s.c b).2.trans (if_neg hb)⟩
  rw [ht]
  exact ⟨⟨rfl, rfl, rfl, rfl, hwords, rfl, rfl, rfl, rfl, hrec, hgrps, hmov, rfl, (cfgReset_w s.c 0x30030).1.trans (if_pos rfl)⟩, rfl⟩

/-- What V33_POWER_UP notes before BOOT (R75, R77, R91). -/
def v33Back (p : Pwr) : Pwr :=
  { p with v33 := true, scanStopped := false, rst := if fld (BitVec.ofNat 32 p.rst) 2 1 = 1 ∨ fld (BitVec.ofNat 32 p.rst) 5 1 = 1 then p.rst else p.rst ||| 2 }

theorem v33PowerUp_eq {s : State} (h : s.d.pwr.v33 = false) : v33PowerUp s =
    if (s.d.pwr.v33a && s.d.pwr.vio && s.d.pwr.vaoIn && !s.d.pwr.rstLow) = true then
      toBoot (s.d.pwr.resetFrom.getD .boot) { s with d := { s.d with pwr := v33Back s.d.pwr } }
    else { s with d := { s.d with pwr := v33Back s.d.pwr } } := by
  unfold v33PowerUp
  rw [h]
  rfl

/-- While the data port is up the module does not sleep and is not held in reset (R512). -/
theorem portUp_awake {d : Dyn} (h : d.portUp = true) : ¬(d.glb.st = .dormant ∨ d.pwr.resetFrom.isSome) := by
  simp only [Dyn.portUp, Bool.and_eq_true, bne_iff_ne, Option.isNone_iff_eq_none] at h
  obtain ⟨⟨-, hst⟩, hr⟩ := h
  simp [hst, hr]

/-- Settles O9: RST_N_RELEASE, V33_POWER_UP and GLB_CMD.RESET end in an entry to BOOT. -/
theorem bootBegins : Obligations.BootBegins := by
  unfold Obligations.BootBegins
  intro s
  refine ⟨fun old hold => ?_, fun hrun => ?_, fun hv ha hio hao hlow => ?_, fun hv hstay => ?_, fun hv => ?_, fun hhost => ?_⟩
  · let s1 : State := { s with d := { s.d with pwr := { s.d.pwr with v33 := true, v33a := true, vio := true, vaoIn := true, rstLow := false } } }
    have hrel : rstNRelease s = toBoot old s1 := by simp only [rstNRelease, hold, s1]
    obtain ⟨hboot, hp⟩ := toBoot_booted old s1
    exact ⟨_, congrArg Host.Outcome.next hrel, hboot, (congrArg Pwr.rst hp).trans rfl, (congrArg Pwr.v33 hp).trans rfl, (congrArg Pwr.v33a hp).trans rfl,
      (congrArg Pwr.vio hp).trans rfl, (congrArg Pwr.vaoIn hp).trans rfl, (congrArg Pwr.rstLow hp).trans rfl⟩
  · exact congrArg Host.Outcome.next (by simp only [rstNRelease, hrun])
  · have hup := (v33PowerUp_eq hv).trans (if_pos (by simp [ha, hio, hao, hlow]))
    obtain ⟨hboot, hp⟩ := toBoot_booted (s.d.pwr.resetFrom.getD .boot) { s with d := { s.d with pwr := v33Back s.d.pwr } }
    exact ⟨_, congrArg Host.Outcome.next hup, hboot, (congrArg Pwr.v33 hp).trans rfl, (congrArg Pwr.scanStopped hp).trans rfl, (congrArg Pwr.rst hp).trans rfl⟩
  · refine congrArg Host.Outcome.next ((v33PowerUp_eq hv).trans (if_neg ?_))
    rcases hstay with h | h | h | h <;> simp [h]
  · exact congrArg Host.Outcome.next (if_pos hv)
  · have hup := hhost.1
    let s1 : State := { s with d := { s.d with pwr := { s.d.pwr with rst := s.d.pwr.rst ||| 16 } } }
    have hreset : glbReset s = toBoot s.d.glb.st s1 := if_neg (portUp_awake hup)
    obtain ⟨hboot, hp⟩ := toBoot_booted s.d.glb.st s1
    exact ⟨_, congrArg Host.Outcome.next ((hostCmd_runs hhost _).trans hreset), hboot, (congrArg Pwr.rst hp).trans rfl⟩

end Sys2Proof.Machine
end

section
/-! The end of BOOT (R18, R20, R110, R111, R552). -/

namespace Sys2Proof.Machine

open Sys2Proof

theorem bankEntry_pair (c : Cfg) (scan : Bool) (b : Nat) (d : Dyn) : (bankEntry c scan b d).pair = d.pair := by
  unfold bankEntry
  extract_lets d1 x x1
  have h1 : d1.pair = d.pair := forEach_same Dyn.pair _ _ _ (fun _ _ => rfl)
  clear_value x1 x d1
  obtain ⟨a, ha⟩ := setPending_alike c b (fun _ => true) (d1.setBank b x1)
  rw [ha]
  exact h1

theorem ctgNext_pair (c : Cfg) (n : Nat) (d : Dyn) : (ctgNext c n d).pair = d.pair := by
  unfold ctgNext
  dsimp only
  repeat' split
  all_goals rfl

theorem cellEntry_pair (c : Cfg) (n : Nat) (d : Dyn) : (cellEntry c n d).pair = d.pair := by
  unfold cellEntry
  dsimp only
  split
  · rfl
  · split
    · rfl
    · exact ctgNext_pair _ _ _

theorem measureEntry_pair (c : Cfg) (scan : Bool) (d : Dyn) : (measureEntry c scan d).pair = d.pair := by
  have hbanks := forEach_same Dyn.pair ((List.range c.fx.nBanks).filter c.bankEn) d (bankEntry c scan) (fun b e => bankEntry_pair c scan b e)
  unfold measureEntry
  dsimp only
  split
  · exact hbanks
  · exact (forEach_same Dyn.pair _ _ _ (fun n e => cellEntry_pair c n e)).trans hbanks

theorem trcNote_pair (c : Cfg) (d : Dyn) : (trcNote c d).pair = d.pair := by
  unfold trcNote
  extract_lets d1
  have h1 : d1.pair = d.pair := forEach_same Dyn.pair _ _ _ (fun t e => by dsimp only; split <;> rfl)
  clear_value d1
  exact h1

theorem trcStart_pair (c : Cfg) (d : Dyn) : (trcStart c d).pair = d.pair := by
  unfold trcStart
  split
  · exact (forEach_same Dyn.pair _ _ _ (fun t e => by split <;> rfl)).trans (trcNote_pair c d)
  · rfl

/-- Seeking is a STANDBY in the first substate (R552). -/
theorem seekStart_seeks (d : Dyn) : (seekStart d).glb.role = .standby ∧ (seekStart d).pair.state = 1 ∧ (seekStart d).glb.st = d.glb.st ∧ (seekStart d).tim = d.tim := by
  rw [seekStart_eq, setRole]
  split
  · rename_i h
    exact ⟨h, rfl, rfl, rfl⟩
  · exact ⟨rfl, rfl, rfl, rfl⟩

/-- A claim is marked in the pair's block; the lines of the groups follow (R552). -/
theorem claimStart_step (c : Cfg) (d : Dyn) : FldStep { d with pair := { d.pair with claim := true, fencing := true } } (claimStart c d) := fenceLines_fld _ _

/-- The first frame after BOOT, with what the pins of the pair say (R33, R552). -/
def bootFrame (seat present : Bool) (s : State) : Dyn :=
  let d0 := s.d.nextFrame s.c
  { d0 with pair := { d0.pair with seat := seat, present := present }, pwr := { d0.pwr with firstAt := some d0.ms } }

/-- The module with the accepted image at that frame. -/
def bootConfigured (seat present : Bool) (s : State) : State := configure { s with d := bootFrame seat present s }

theorem bootEnd_waits {seat present : Bool} {s : State}
    (h : s.d.cfg.found = false ∨ s.d.cfg.cpDone = false ∨ (s.d.cfg.accepted = none ∧ s.d.cfg.cands ≠ [])) : bootEnd seat present s = s := by
  rcases h with h | h | ⟨h, hc⟩
  · simp [bootEnd, h]
  · simp [bootEnd, h]
  · simp [bootEnd, h, hc]

theorem bootEnd_refused {seat present : Bool} {s : State} (hb : s.d.booting = true) (hf : s.d.cfg.found = true) (hcp : s.d.cfg.cpDone = true)
    (ha : s.d.cfg.accepted = none) (hc : s.d.cfg.cands = []) :
    bootEnd seat present s = { s with d := fenceLines s.c (enterSafe s.c s.d.cfg.firstRefusal (bootFrame seat present s)) } := by
  simp [bootEnd, hb, hf, hcp, ha, hc, bootFrame]

/-- The state after BOOT of a configured module: what HALT, the pair and the image choose (R18, R552). -/
def bootStart (present : Bool) (halt : Option Nat) (s : State) : State :=
  match halt with
  | some h => { s with d := fenceLines s.c (enterSafe s.c h s.d) }
  | none =>
    if s.c.pairOn then
      let seeking := fenceLines s.c (trcStart s.c (measureEntry s.c false (seekStart (s.d.toState .run 0))))
      { s with d := if present then seeking else claimStart s.c seeking }
    else if s.c.img.dormant then
      let d := enterDormant s.c 0 s.d
      { s with d := fenceLines s.c { d with seq := { d.seq with bootStart := true } } }
    else { enterRun 0 s with d := fenceLines s.c (enterRun 0 s).d }

theorem bootEnd_accepted {seat present : Bool} {s : State} {i : Nat} (hb : s.d.booting = true) (hf : s.d.cfg.found = true) (hcp : s.d.cfg.cpDone = true)
    (ha : s.d.cfg.accepted = some i) : bootEnd seat present s = bootStart present s.d.cfg.bootHalt (bootConfigured seat present s) := by
  have hgo : (!s.d.booting || !s.d.cfg.found || !s.d.cfg.cpDone || (s.d.cfg.accepted.isNone && !s.d.cfg.cands.isEmpty)) = false := by simp [hb, hf, hcp, ha]
  have hsome : s.d.cfg.accepted.isNone = false := by simp [ha]
  unfold bootEnd bootConfigured bootFrame
  dsimp only
  rw [if_neg (by rw [hgo]; decide), if_neg (by rw [hsome]; decide)]
  generalize configure _ = s1
  unfold bootStart
  cases s.d.cfg.bootHalt <;> rfl

theorem booting_of {d : Dyn} (h1 : d.glb.st = .boot) (h2 : d.pwr.resetFrom = none) : d.booting = true := by simp [Dyn.booting, h1, h2]

/-- Sage's part of the start neither moves device time nor changes the image. -/
theorem bootConfigured_kept (seat present : Bool) (s : State) :
    GKeeps (bootFrame seat present s) (bootConfigured seat present s).d ∧ (bootConfigured seat present s).c.img = s.c.img ∧
      (bootConfigured seat present s).c.pairOn = s.c.pairOn := by
  obtain ⟨himg, hfx⟩ := configure_img { s with d := bootFrame seat present s }
  refine ⟨configure_g _, himg, ?_⟩
  unfold Cfg.pairOn bootConfigured
  rw [himg, hfx]

theorem FldStep.acc {d e : Dyn} (h : FldStep d e) : e.tim.acc = d.tim.acc := h.g.2.1

/-- In a pair BOOT ends in RUN, seeking; without a partner on the link the module claims at once (R552). -/
theorem bootStart_pair (present : Bool) (s : State) (hp : s.c.pairOn = true) :
    let t := (bootStart present none s).d
    t.glb.st = .run ∧ t.glb.role = .standby ∧ t.pair.state = 1 ∧ (present = false → t.pair.claim = true) ∧ t.tim.acc = s.d.tim.acc := by
  let d1 := seekStart (s.d.toState .run 0)
  let d2 := trcStart s.c (measureEntry s.c false d1)
  let seeking := fenceLines s.c d2
  have hrun : (bootStart present none s).d = if present then seeking else claimStart s.c seeking := by simp only [bootStart, hp, if_true, seeking, d2, d1]
  obtain ⟨hrole, hstate, hst, htim⟩ := seekStart_seeks (s.d.toState .run 0)
  obtain ⟨a, hto⟩ := toState_spec s.d .run 0
  have hg : GKeeps d1 d2 := (measureEntry_g s.c false d1).trans (trcStart_g s.c _)
  have hpair : d2.pair = d1.pair := (trcStart_pair s.c _).trans (measureEntry_pair s.c false d1)
  have hf : FldStep d2 seeking := fenceLines_fld s.c d2
  obtain ⟨-, -, -, -, -, -, -, -, -, -, hfpair, -, -⟩ := hf.parts
  have hst2 : seeking.glb.st = .run := (hf.g.st.trans hg.st).trans (hst.trans (by rw [hto]))
  have hrole2 : seeking.glb.role = .standby := (hf.g.role.trans hg.role).trans hrole
  have hpair2 : seeking.pair.state = 1 := by rw [hfpair, hpair]; exact hstate
  have hacc : seeking.tim.acc = s.d.tim.acc := (hf.g.2.1.trans hg.2.1).trans ((congrArg Tim.acc htim).trans (by rw [hto]))
  intro t
  have ht : t = if present then seeking else claimStart s.c seeking := hrun
  clear_value t seeking
  subst ht
  cases present with
  | true => exact ⟨hst2, hrole2, hpair2, fun h => (Bool.noConfusion h), hacc⟩
  | false =>
    have hc := claimStart_step s.c seeking
    obtain ⟨-, -, -, -, -, -, -, -, -, -, hcpair, -, -⟩ := hc.parts
    refine ⟨hc.g.st.trans hst2, hc.g.role.trans hrole2, ?_, fun _ => ?_, hc.g.2.1.trans hacc⟩
    · exact (congrArg Pair.state hcpair).trans hpair2
    · exact (congrArg Pair.claim hcpair).trans rfl

/-- Without a pair BOOT ends in the start state that the image names (R18). -/
theorem bootStart_alone (present : Bool) (s : State) (hp : s.c.pairOn = false) :
    Entered (if s.c.img.dormant = true then .dormant else .run) 0 s.d (bootStart present none s).d := by
  simp only [bootStart, hp, Bool.false_eq_true, if_false]
  split
  · have hd := enterDormant_entered s.c 0 s.d
    generalize enterDormant s.c 0 s.d = d at hd ⊢
    have hseq : GKeeps d { d with seq := { d.seq with bootStart := true } } := GKeeps.of rfl rfl rfl
    exact hd.then (hseq.trans (fenceLines_fld s.c _).g)
  · exact (enterRun_entered 0 s).then (fenceLines_fld s.c _).g

/-- Settles O11, by the cases of `bootEnd` and the entries to the device states. -/
theorem bootEnds : Obligations.BootEnds := by
  unfold Obligations.BootEnds
  intro seat present s hst hrf
  have hb := booting_of hst hrf
  refine ⟨fun h => congrArg Host.Outcome.next (bootEnd_waits h), fun hf hcp ha hc => ?_, fun i hf hcp ha => ?_⟩
  · have he := enterSafe_entered s.c s.d.cfg.firstRefusal (bootFrame seat present s)
    obtain ⟨hsafe, hcause, -, hacc, -⟩ := he.then (fenceLines_fld s.c _).g
    exact ⟨_, congrArg Host.Outcome.next (bootEnd_refused hb hf hcp ha hc), rfl, hsafe, hcause, hacc⟩
  · obtain ⟨hg, himg, hpair⟩ := bootConfigured_kept seat present s
    refine ⟨_, congrArg Host.Outcome.next (bootEnd_accepted hb hf hcp ha), ?_⟩
    generalize bootConfigured seat present s = s1 at hg himg hpair
    have hacc1 : s1.d.tim.acc = (s.d.nextFrame s.c).tim.acc := hg.2.1
    cases hh : s.d.cfg.bootHalt with
    | some h =>
      obtain ⟨hsafe, hcause, -, hacc, -⟩ := (enterSafe_entered s1.c h s1.d).then (fenceLines_fld s1.c _).g
      refine ⟨hacc.trans hacc1, fun k hk => ?_, by simp, by simp, by simp⟩
      cases hk
      exact ⟨hsafe, hcause⟩
    | none =>
      by_cases hp : s1.c.pairOn = true
      · obtain ⟨hrun, hrole, hseek, hclaim, hacc⟩ := bootStart_pair present s1 hp
        rw [← hpair]
        exact ⟨hacc.trans hacc1, by simp, fun _ _ => ⟨hrun, hrole, hseek, hclaim⟩, by simp [hp], by simp [hp]⟩
      · have hp' : s1.c.pairOn = false := by simpa using hp
        obtain ⟨hst1, hcause, -, hacc, -⟩ := bootStart_alone present s1 hp'
        rw [← hpair, hp', ← himg]
        exact ⟨hacc.trans hacc1, by simp, by simp, fun _ _ hd => ⟨hst1.trans (if_pos hd), hcause⟩, fun _ _ hd => ⟨hst1.trans (if_neg (by simp [hd])), hcause⟩⟩

end Sys2Proof.Machine
end

section
/-! Sleep, wake and the scan burst (R20, R21, R25, R26, R82 to R89, R95, R96). -/

namespace Sys2Proof.Machine

open Sys2Proof

/-- The first cause of a wake or of an entry's end: a noted one, else the level that stands (R25, R89). -/
theorem orElse_level_some {o l : Option Nat} {cause : Nat} (h : o = some cause ∨ (o = none ∧ l = some cause)) : o.orElse (fun _ => l) = some cause := by
  rcases h with h | ⟨h, hl⟩
  · rw [h]; rfl
  · rw [h, hl]; rfl

theorem dormantEntry_idle {s : State} (h : s.d.glb.st ≠ .run ∨ s.d.glb.dormReq = false) : dormantEntry s.c s.d = s.d := by
  unfold dormantEntry
  refine if_neg (fun ⟨hrun, hreq⟩ => ?_)
  rcases h with h | h
  · exact h hrun
  · rw [h] at hreq; cases hreq

theorem fastClocksRunning_idle {us : Nat} {s : State} (h : s.d.glb.st ≠ .dormant ∨ s.d.pwr.start = none) : fastClocksRunning us s = s := by
  unfold fastClocksRunning
  split
  · rename_i st hst hstart
    rcases h with h | h
    · exact absurd hst h
    · rw [h] at hstart; cases hstart
  · rfl

/-- An entry to DORMANT that no level turns away (R25, R26, R80, R85). -/
theorem enterDormant_sleeps (c : Cfg) (d : Dyn) (h : levelCause c d = none) :
    let t := enterDormant c 0 d
    Entered .dormant 0 d t ∧ t.pwr.slow = true ∧ t.pwr.start = none ∧ t.pwr.burst = .none ∧ t.pwr.entryAbort = none ∧ t.pwr.interval = c.scanInterval ∧
      t.pwr.nextScan.isSome = true ∧ ∀ g, g < 6 → c.grpEn g = true → (t.grp g).holding = true := by
  obtain ⟨hslow, hburst, habort, hint, hscan, hstart, -, -, hhold, -⟩ := dormant_facts c d
  exact ⟨enterDormant_entered c 0 d, hslow, hstart h, hburst, habort, hint, hscan, hhold⟩

/-- Settles O13, by the cases of each of the four events. -/
theorem sleepAndWake : Obligations.SleepAndWake := by
  unfold Obligations.SleepAndWake
  intro us s level off
  have hlevel : levelCause s.c s.d = level := levelCause_eq s
  refine ⟨fun hrun hreq => ?_, fun h => next_dyn (dormantEntry_idle h), ?_, ?_, fun h => congrArg Host.Outcome.next (fastClocksRunning_idle h),
    fun st hst hstart htoRun => ?_, fun st hst hstart htoScan => ?_⟩
  · obtain ⟨houtranked, hfree⟩ := dormantEntry_cases s hrun hreq
    refine ⟨fun h => next_dyn (houtranked h), fun hhalt hsafe => ⟨fun cause h => ?_, fun habort hl => ?_⟩⟩
    · exact next_dyn ((hfree hhalt hsafe).1 cause (orElse_level_some (hlevel ▸ h)))
    · refine ⟨_, next_dyn ((hfree hhalt hsafe).2 (by rw [habort, hlevel, hl]; rfl)), ?_⟩
      exact enterDormant_sleeps s.c s.d (hlevel.trans hl)
  · intro due joins
    obtain ⟨hnone, hdue⟩ := scanWake_cases s
    refine ⟨fun h => next_dyn (hnone h), fun t ht => ⟨fun hidle => ?_, fun x hx hj => ?_, fun x hx hj => ?_⟩⟩
    · exact ⟨_, rfl, next_dyn (((hdue t ht).1 hidle).trans (startClocks_eq _ _ _ s.d _ (goTo_same _ _ _).2.1))⟩
    · exact next_dyn (((hdue t ht).2 x hx).1 hj)
    · exact next_dyn (((hdue t ht).2 x hx).2 hj)
  · intro due
    obtain ⟨hnone, hdue⟩ := timedWake_cases s
    exact ⟨fun h => next_dyn (hnone h), fun w hw => ⟨_, rfl, next_dyn ((hdue w hw).trans (startClocks_eq _ _ _ s.d _ (goTo_same _ _ _).2.1))⟩⟩
  · exact ⟨_, rfl, awake_run us s st _ rfl hst hstart htoRun⟩
  · obtain ⟨t, ht, hscan⟩ := awake_scan us s st _ rfl hst hstart htoScan
    exact ⟨t, congrArg Host.Outcome.next ht, hscan⟩

theorem orElse_level (o l : Option Nat) : o.orElse (fun _ => l) = if o = none then l else o := by
  cases o <;> rfl

/-- The end of a burst with a cause is the exit that the cause has (R20, R86). -/
theorem burstEnd_exit {s t : State} (h1 : s.d.glb.st = .scan) (h2 : s.d.pwr.burst = .holdsSent) (h : burstExit s = some t) : burstEnd s = t := by
  unfold burstEnd
  rw [if_pos ⟨h1, h2⟩, h]

/-- Without a cause the archive decides: the module sleeps, or flushes what waits (R86, R533). -/
theorem burstEnd_quiet {s : State} (h1 : s.d.glb.st = .scan) (h2 : s.d.pwr.burst = .holdsSent) (h : burstExit s = none) :
    burstEnd s = if arcDrained s.d.arc = true then { s with d := enterDormant s.c 0 (burstDone s.c s.d) } else { s with d := { s.d with arc := arcFlushAll s.d.arc } } := by
  unfold burstEnd
  rw [if_pos ⟨h1, h2⟩, h]

/-- A burst that ends in DORMANT (R86, R95, R96). -/
theorem burstSleeps (c : Cfg) (d : Dyn) :
    let len := min ((d.tim.acc - d.pwr.burstRef) * 100000 / 2 ^ 48) 1048575
    let t := enterDormant c 0 (burstDone c d)
    BurstOver .dormant 0 d t ∧ t.pwr.slow = true ∧ (200000 < len → d.flt.find 0 = none → ∃ r, t.flt.find 0 = some r ∧ r.code = 0x64 ∧ r.sev = 1) := by
  obtain ⟨hglb, htim, ⟨r, hpwr⟩, hrec⟩ := burstDone_facts c d
  obtain ⟨hslow, hburst, -, -, -, -, hlast, hover, -, hfind⟩ := dormant_facts c (burstDone c d)
  have hsleep := enterDormant_entered c 0 (burstDone c d)
  dsimp only
  generalize enterDormant c 0 (burstDone c d) = t at *
  generalize burstDone c d = e at *
  have hent : Entered .dormant 0 d t := Entered.from hglb (by rw [htim]) (by rw [htim]) (by rw [htim]) hsleep
  exact ⟨⟨hent, hburst, hlast.trans (congrArg Pwr.burstLast hpwr), hover.trans (congrArg Pwr.overruns hpwr)⟩, hslow, fun hl hf => hfind.symm ▸ hrec hl hf⟩

/-- Settles O17, by the exits of a burst. -/
theorem scanBurst : Obligations.ScanBurst := by
  unfold Obligations.ScanBurst
  intro s level run len done
  have hlevel : levelCause s.c s.d = level := levelCause_eq s
  have hrun : s.d.pwr.runCond.orElse (fun _ => levelCause s.c s.d) = run := by rw [orElse_level, hlevel]
  refine ⟨fun h => congrArg Host.Outcome.next (if_neg (by tauto)), fun hst hburst => ⟨_, rfl, ?_⟩, fun h => congrArg Host.Outcome.next (if_neg (by tauto)),
    fun hst hburst => ?_⟩
  · rw [← hlevel]
    exact scanListComplete_spec s hst hburst
  · obtain ⟨hhalt, hcond, hquiet⟩ := burstExit_cases s
    refine ⟨fun h hh => ?_, fun r hh hr => ?_, fun hh hr hdry => ?_, fun hh hr hwet => ?_⟩
    · obtain ⟨t, ht, hover⟩ := hhalt h hh
      exact ⟨t, congrArg Host.Outcome.next (burstEnd_exit hst hburst ht), hover⟩
    · obtain ⟨t, ht, hover⟩ := hcond r hh (hrun.trans hr)
      exact ⟨t, congrArg Host.Outcome.next (burstEnd_exit hst hburst ht), hover⟩
    · have hend := (burstEnd_quiet hst hburst (hquiet hh (hrun.trans hr))).trans (if_pos hdry)
      obtain ⟨⟨hent, hdone⟩, hslow, hrec⟩ := burstSleeps s.c s.d
      exact ⟨_, congrArg Host.Outcome.next hend, hent, hdone, hslow, hrec⟩
    · exact congrArg Host.Outcome.next ((burstEnd_quiet hst hburst (hquiet hh (hrun.trans hr))).trans (if_neg (by simp [hwet])))

end Sys2Proof.Machine
end

section
/-! The write sessions (R44, R117, R118, R515). -/

namespace Sys2Proof.Machine

open Sys2Proof

theorem openCode_free {c : Cfg} {d : Dyn} (h : d.cfg.session = .none) (hst : d.glb.st = .safe ∨ (d.glb.st = .run ∧ c.basic = false)) : openCode c d = 0 := by
  simp only [openCode, h, ne_eq, not_true_eq_false, if_false]
  exact if_pos (by simpa using hst)

theorem openCode_busy {c : Cfg} {d : Dyn} (h : d.cfg.session ≠ .none) : openCode c d = 0x1049 := if_pos h

theorem openCode_basic {c : Cfg} {d : Dyn} (h : d.cfg.session = .none) (hst : d.glb.st = .run) (hb : c.basic = true) : openCode c d = 0x1005 := by
  simp [openCode, h, hst, hb]

/-- OPEN on a module that takes it: the staging area is being filled (R117). -/
theorem sessionOpen_accepted {copy : Bool} {c : Cfg} {d : Dyn} (h : openCode c d = 0) :
    cfgTouch (sessionOpen copy c d) = { d with cfg := { d.cfg with session := .filling copy, staging := [], sesResult := 0, lastAccess := d.ms } } := by
  unfold sessionOpen
  rw [h]
  rfl

/-- OPEN on a module that refuses it: the code alone is shown. -/
theorem sessionOpen_refused {copy : Bool} {c : Cfg} {d : Dyn} (h : openCode c d ≠ 0) :
    cfgTouch (sessionOpen copy c d) = { d with cfg := { d.cfg with sesResult := openCode c d, lastAccess := d.ms } } := by
  unfold sessionOpen
  rw [if_neg h]
  rfl

/-- The dynamic state that an OPEN which is taken leaves. -/
theorem exec_sessionOpen {copy : Bool} {s : State} (h : HostRuns 0x20008 true s) :
    ∃ t, exec (.sessionOpen copy) s = .next t ∧ t.d = cfgTouch (sessionOpen copy s.c s.d) :=
  ⟨_, congrArg Host.Outcome.next (hostCmd_runs h _), keepArg_d _ _ _⟩

theorem exec_sessionClose {s : State} (h : HostRuns 0x20008 true s) : exec .sessionClose s = .next { s with d := cfgTouch (sessionClose s.d) } :=
  congrArg Host.Outcome.next (hostCmd_runs h _)

theorem sessionClose_without {d : Dyn} (h : d.cfg.session = .none) :
    cfgTouch (sessionClose d) = { d with cfg := { d.cfg with sesResult := 0x1055, lastAccess := d.ms } } := by
  unfold sessionClose
  rw [if_pos h]
  rfl

theorem sessionClose_open {d : Dyn} (h : d.cfg.session ≠ .none) :
    cfgTouch (sessionClose d) = { d with cfg := { d.cfg with session := .none, staging := [], sesResult := 0, lastAccess := d.ms } } := by
  unfold sessionClose
  rw [if_neg h]
  rfl

theorem stagingFillDone_filling {c : Cfg} {d : Dyn} {copy : Bool} (h : d.cfg.session = .filling copy) :
    stagingFillDone c d = { d with cfg := { d.cfg with session := .opened, staging := if copy then bytesTbl c.img.bytes else [] } } := by
  simp only [stagingFillDone, h]

theorem stagingFillDone_idle {c : Cfg} {d : Dyn} (h : ∀ b, d.cfg.session ≠ .filling b) : stagingFillDone c d = d := by
  unfold stagingFillDone
  split
  · rename_i b hb
    exact absurd hb (h b)
  · rfl

theorem sessionExpired_due {d : Dyn} (h1 : d.cfg.session ≠ .none) (h2 : d.cfg.lastAccess + 5000 ≤ d.ms) :
    sessionExpired d = { d with cfg := { d.cfg with session := .none, staging := [], sesResult := 0x1048 } } := if_pos ⟨h1, h2⟩

theorem sessionExpired_early {d : Dyn} (h : d.cfg.session = .none ∨ d.ms < d.cfg.lastAccess + 5000) : sessionExpired d = d := by
  refine if_neg (fun ⟨hon, hdue⟩ => ?_)
  rcases h with h | h
  · exact hon h
  · omega

/-- Settles O18, by the cases of each command. -/
theorem writeSessions : Obligations.WriteSessions := by
  unfold Obligations.WriteSessions
  intro copy a v s
  refine ⟨fun hhost hnone hst => ?_, fun hhost => ?_, fun hfill => next_dyn (stagingFillDone_filling hfill), fun hidle => next_dyn (stagingFillDone_idle hidle),
    fun hhost hnone => ?_, fun hhost hopen => ?_, fun hon hdue => next_dyn (sessionExpired_due hon hdue), fun hearly => next_dyn (sessionExpired_early hearly),
    fun hlo hhi halign hup => ?_⟩
  · obtain ⟨t, ht, hd⟩ := exec_sessionOpen (copy := copy) hhost
    exact ⟨t, ht, hd.trans (sessionOpen_accepted (openCode_free hnone hst))⟩
  · obtain ⟨t, ht, hd⟩ := exec_sessionOpen (copy := copy) hhost
    exact ⟨t, _, ht, rfl, fun hcode => hd.trans (sessionOpen_refused hcode), openCode_busy, openCode_basic⟩
  · exact (exec_sessionClose hhost).trans (next_dyn (sessionClose_without hnone))
  · exact (exec_sessionClose hhost).trans (next_dyn (sessionClose_open hopen))
  · exact ⟨_, next_dyn (if_pos ⟨hlo, hhi, halign, hup⟩), stagingPut_spec a v s.d _ rfl⟩

end Sys2Proof.Machine
end

section
/-! The commands of a unit and the causes of a FAULT (R41, R336, R337, R341, R352, R361, R363). -/

namespace Sys2Proof.Machine

open Sys2Proof

theorem exec_unitRun {u : Nat} {s : State} (hu : u < s.c.fx.nUnits) (h : HostRuns (0x1C1008 + 0x10 * u) false s) :
    exec (.unitRun u) s = .next { s with d := unitCmd s.c u 1 s.d } := congrArg Host.Outcome.next ((if_pos hu).trans (hostCmd_runs h _))

theorem exec_unitStop {u : Nat} {s : State} (hu : u < s.c.fx.nUnits) (h : HostRuns (0x1C1008 + 0x10 * u) false s) :
    exec (.unitStop u) s = .next { s with d := unitCmd s.c u 2 s.d } := congrArg Host.Outcome.next ((if_pos hu).trans (hostCmd_runs h _))

theorem exec_unitAck {u : Nat} {s : State} (hu : u < s.c.fx.nUnits) (h : HostRuns (0x1C1008 + 0x10 * u) false s) :
    exec (.unitAck u) s = .next { s with d := unitCmd s.c u 3 s.d } := congrArg Host.Outcome.next ((if_pos hu).trans (hostCmd_runs h _))

/-- RUN or STOP from a host that is not the commander (R337, R352). -/
theorem unitCmd_refused {c : Cfg} {u kind : Nat} (d : Dyn) (hu : u < c.fx.nUnits) (hk : kind ≠ 3) (hc : c.unitCmdr u ≠ 0) :
    unitCmd c u kind d = d.setUnit u { d.unit u with cmdResult := 0xC047, refused := satInc 16 (d.unit u).refused } :=
  (if_neg (by omega)).trans (if_pos ⟨hk, hc⟩)

theorem unitCmd_disabled {c : Cfg} {u kind : Nat} (d : Dyn) (hu : u < c.fx.nUnits) (hc : kind = 3 ∨ c.unitCmdr u = 0) (he : c.unitEn u = false) :
    unitCmd c u kind d = d.setUnit u { d.unit u with cmdResult := 0 } :=
  (if_neg (by omega)).trans ((if_neg (by omega)).trans (if_neg (by simp [he])))

/-- A command that meets a running pass waits for its end (R361). -/
theorem unitCmd_waits {c : Cfg} {u kind : Nat} (d : Dyn) (hu : u < c.fx.nUnits) (hc : kind = 3 ∨ c.unitCmdr u = 0) (he : c.unitEn u = true)
    (hp : d.seq.passMs ≠ none) :
    unitCmd c u kind d = { d.setUnit u { d.unit u with cmdResult := 0 } with
      seq := { (d.setUnit u { d.unit u with cmdResult := 0 }).seq with defer := d.seq.defer ++ [{ unit := u, kind := kind }] } } :=
  (unitCmd_do c u kind d hu hc he).trans (unitDo_wait c u kind (d.setUnit u _) hp)

/-- RUN or STOP between passes (R337). -/
theorem unitCmd_sets {c : Cfg} {u kind : Nat} (d : Dyn) (hu : u < c.fx.nUnits) (hk : kind ≠ 3) (hc : c.unitCmdr u = 0) (he : c.unitEn u = true)
    (hp : d.seq.passMs = none) :
    (unitCmd c u kind d).unit u = { d.unit u with cmdResult := 0, cmd := kind == 1 } ∧ (∀ j, j ≠ u → (unitCmd c u kind d).unit j = d.unit j) ∧
      { unitCmd c u kind d with seq := d.seq } = d := by
  have h : unitCmd c u kind d = setCmd u (kind == 1) (d.setUnit u { d.unit u with cmdResult := 0 }) :=
    (unitCmd_do c u kind d hu (.inr hc) he).trans ((unitDo_now c u kind (d.setUnit u _) hp).trans (if_neg hk))
  rw [h]
  exact ⟨(setUnit_same _ _ _).trans (by rw [setUnit_same]), fun j hj => (setUnit_other _ _ _ _ hj).trans (setUnit_other _ _ _ _ hj), rfl⟩

/-- ACK between passes acknowledges the tree (R337). -/
theorem unitCmd_acks {c : Cfg} {u : Nat} (d : Dyn) (hu : u < c.fx.nUnits) (he : c.unitEn u = true) (hp : d.seq.passMs = none) :
    { unitCmd c u 3 d with seq := d.seq } = d ∧
      ∀ j, j < c.fx.nUnits → (c.unitEn j = true → c.under u 256 j = true → (d.unit j).state = 4 → ((unitCmd c u 3 d).unit j).acked = true) ∧
        (c.under u 256 j = false ∨ (d.unit j).state ≠ 4 → ((unitCmd c u 3 d).unit j).acked = (d.unit j).acked) ∧
        ((unitCmd c u 3 d).unit j).state = (d.unit j).state ∧ ((unitCmd c u 3 d).unit j).cmd = (d.unit j).cmd := by
  have h : unitCmd c u 3 d = ackTree c u (d.setUnit u { d.unit u with cmdResult := 0 }) :=
    (unitCmd_do c u 3 d hu (.inl rfl) he).trans ((unitDo_now c u 3 (d.setUnit u _) hp).trans (if_pos rfl))
  have hsame : ∀ j, ((d.setUnit u { d.unit u with cmdResult := 0 }).unit j).state = (d.unit j).state ∧
      ((d.setUnit u { d.unit u with cmdResult := 0 }).unit j).cmd = (d.unit j).cmd ∧
      ((d.setUnit u { d.unit u with cmdResult := 0 }).unit j).acked = (d.unit j).acked := fun j => by
    rw [setUnit_get]
    split
    · rename_i hj
      subst hj
      exact ⟨rfl, rfl, rfl⟩
    · exact ⟨rfl, rfl, rfl⟩
  have hlist := ackList c u ((List.range c.fx.nUnits).filter (c.unitEn)) (d.setUnit u { d.unit u with cmdResult := 0 })
  rw [h]
  refine ⟨(congrArg (fun e : Dyn => { e with seq := d.seq }) (hlist 0).2.2.2).trans rfl, fun j hj => ?_⟩
  obtain ⟨hstate, hcmd, hacked, -⟩ := hlist j
  obtain ⟨sstate, scmd, sacked⟩ := hsame j
  rw [sstate] at hstate
  rw [scmd] at hcmd
  rw [sstate, sacked] at hacked
  have hmem : c.unitEn j = true → j ∈ (List.range c.fx.nUnits).filter (c.unitEn) := fun hen => List.mem_filter.mpr ⟨List.mem_range.mpr hj, hen⟩
  refine ⟨fun hen hunder hfault => hacked.trans (if_pos ⟨hmem hen, hunder, hfault⟩), fun hnot => hacked.trans (if_neg ?_), hstate, hcmd⟩
  rintro ⟨-, hunder, hfault⟩
  rcases hnot with hn | hn
  · rw [hn] at hunder; cases hunder
  · exact hn hfault

/-- `r` is what the event of cause `k` leaves for unit `u`, where `p` says that a leaf unit shows that cause first (R336, R341). -/
def CauseEnters (u k : Nat) (s : State) (p : Prop) (r : Host.Outcome State Fault Refusal) : Prop :=
  (s.c.unitEn u = false ∨ s.d.glb.st ≠ .run → r = .next s) ∧
  (s.c.unitEn u = true → s.d.glb.st = .run → s.c.unitKind u ≠ 6 → (s.d.unit u).state ≤ 4 → ¬p → r = .next s) ∧
  (s.c.unitEn u = true → s.d.glb.st = .run → s.c.unitKind u ≠ 6 → p →
    ∃ t, r = .next { s with d := t } ∧ (t.unit u).state = 4 ∧ (t.unit u).cause = k ∧ (t.unit u).fresh = false ∧ (t.unit u).acked = false ∧ (t.unit u).isOpen = true ∧
      (t.unit u).newFault = true ∧ (t.unit u).cmd = (s.d.unit u).cmd ∧ (t.unit u).enterMs = s.d.ms ∧
      (s.d.flt.find (0xC000 + u) = none → ∃ r, t.flt.find (0xC000 + u) = some r ∧ r.code = 0xC05F + k ∧ r.sev = 2 ∧ r.acked = false) ∧
      (∀ m, m ≠ 0xC000 + u → m ≠ 0xD100 → t.flt.find m = s.d.flt.find m) ∧
      (∀ j, j ≠ u → t.unit j = s.d.unit j) ∧ Alike { t with seq := s.d.seq } s.d) ∧
  (s.c.unitEn u = true → s.d.glb.st = .run → s.c.unitKind u = 6 →
    r = .next s ∨ ((s.d.unit u).state ≠ 4 ∧ ∃ t, r = .next { s with d := t } ∧ (t.unit u).state = 4 ∧ (t.unit u).cause = k))

/-- A unit that is enabled exists. -/
theorem unitEn_lt {c : Cfg} {u : Nat} (h : c.unitEn u = true) : u < 256 := by
  have hu : u < c.fx.nUnits := by
    simp only [Cfg.unitEn, Bool.and_eq_true, decide_eq_true_eq] at h
    exact h.1.1
  unfold Variant.nUnits at hu
  split at hu <;> omega

/-- The event of cause `k` does what the statement says of it, for any `p` that is the cause's condition on a unit in one of the states of R40. -/
theorem unitCauseEv_enters {u k : Nat} {s : State} {p : Prop} (hk : k ≠ 0)
    (hp : (unitCause s.c (passNow s.c s.d) u (unitSeen s.c (passNow s.c s.d) u (s.d.unit u)) = k → (s.d.unit u).state ≤ 4 → p) ∧
      (p → unitCause s.c (passNow s.c s.d) u (unitSeen s.c (passNow s.c s.d) u (s.d.unit u)) = k)) :
    CauseEnters u k s p (.next { s with d := unitCauseEv s.c u k s.d }) := by
  obtain ⟨hidle, hmiss, hhit, hgroup⟩ := unitEv_leaf s.c u k s.d hk
  refine ⟨fun h => next_dyn (hidle h), fun hen hrun hleaf hst hnot => next_dyn (hmiss hen hrun hleaf (fun hc => hnot (hp.1 hc hst))),
    fun hen hrun hleaf hcause => ?_, fun hen hrun hkind => ?_⟩
  · refine ⟨_, next_dyn (hhit hen hrun hleaf (hp.2 hcause)), ?_⟩
    obtain ⟨hstep, hstate, hcau, hfresh, hacked, hopen, hnew, hcmd, hms, hrec, hfind⟩ :=
      unitFault_spec s.c u k s.d.ms (s.d.setUnit u (unitSeen s.c (passNow s.c s.d) u (s.d.unit u))) (unitEn_lt hen) _ rfl
    obtain ⟨halike, hother⟩ := (UnStep.put u s.d _).trans hstep
    exact ⟨hstate, hcau, hfresh, hacked, hopen, hnew, hcmd.trans (by rw [setUnit_same]; rfl), hms, hrec, hfind, hother, halike⟩
  · rcases hgroup hen hrun hkind with h | ⟨hst, hstate, hcause⟩
    · exact .inl (next_dyn h)
    · exact .inr ⟨hst, _, rfl, hstate, hcause⟩

/-- Settles O31: the commands by their cases, the events by the one lemma about a cause. -/
theorem unitCommands : Obligations.UnitCommands := by
  unfold Obligations.UnitCommands
  intro u s x put waits
  refine ⟨fun hu hhost => ⟨fun hc => ⟨?_, ?_⟩, fun hc he => ⟨?_, ?_⟩, fun hc he hp => ⟨?_, ?_⟩, fun hc he hp => ⟨?_, ?_⟩, fun he => ?_, fun he hp => ?_, fun he hp => ?_⟩, ?_⟩
  · exact (exec_unitRun hu hhost).trans (next_dyn (unitCmd_refused s.d hu (by decide) hc))
  · exact (exec_unitStop hu hhost).trans (next_dyn (unitCmd_refused s.d hu (by decide) hc))
  · exact (exec_unitRun hu hhost).trans (next_dyn (unitCmd_disabled s.d hu (.inr hc) he))
  · exact (exec_unitStop hu hhost).trans (next_dyn (unitCmd_disabled s.d hu (.inr hc) he))
  · exact ⟨_, exec_unitRun hu hhost, unitCmd_sets s.d hu (by decide) hc he hp⟩
  · exact ⟨_, exec_unitStop hu hhost, unitCmd_sets s.d hu (by decide) hc he hp⟩
  · exact (exec_unitRun hu hhost).trans (next_dyn (unitCmd_waits s.d hu (.inr hc) he hp))
  · exact (exec_unitStop hu hhost).trans (next_dyn (unitCmd_waits s.d hu (.inr hc) he hp))
  · exact (exec_unitAck hu hhost).trans (next_dyn (unitCmd_disabled s.d hu (.inl rfl) he))
  · exact (exec_unitAck hu hhost).trans (next_dyn (unitCmd_waits s.d hu (.inl rfl) he hp))
  · exact ⟨_, exec_unitAck hu hhost, unitCmd_acks s.d hu he hp⟩
  · obtain ⟨h1, h2, h3, h4, h5⟩ := unitCause_iff s.c u (passNow s.c s.d) (unitSeen s.c (passNow s.c s.d) u (s.d.unit u))
    exact ⟨unitCauseEv_enters (by decide) ⟨fun h _ => h1.1 h, h1.2⟩, unitCauseEv_enters (by decide) ⟨fun h _ => h2.1 h, h2.2⟩,
      unitCauseEv_enters (by decide) ⟨fun h _ => h3.1 h, h3.2⟩,
      unitCauseEv_enters (by decide) ⟨fun h hst => (h4.1 h).resolve_right (fun hbad => hbad.2.1 (Nat.le_antisymm hst hbad.1)), fun h => h4.2 (.inl h)⟩,
      unitCauseEv_enters (by decide) ⟨fun h _ => h5.1 h, h5.2⟩⟩

end Sys2Proof.Machine
end

section
/-! Acknowledgement, selection and the copies of the fault records (R437, R438, R439, R448). -/

namespace Sys2Proof.Machine

open Sys2Proof

/-- A unit counts as below itself (R337). -/
theorem under_self (c : Cfg) (u f : Nat) : c.under u f u = true := by
  cases f <;> simp [Cfg.under]

/-- A variant has at most 256 units. -/
theorem nUnits_le (v : Variant) : v.nUnits ≤ 256 := by
  unfold Variant.nUnits
  split <;> decide

/-- A record is acknowledged (R437) where it still waits for its condition to go, and closes else. -/
theorem ackSource_own {d : Dyn} {r : FRec} (c : Cfg) (src : Nat) (h : d.flt.find src = some r) :
    (r.byAck = true → r.gone = true → (ackSource c src d).flt.find src = none) ∧
      (r.byAck = false ∨ r.gone = false → (ackSource c src d).flt.find src = some { r with acked := true, last := shortOf d.tim.net }) := by
  have hfind := ((ackSource_spec c src d _ rfl).1 src).trans (ackRec_find d src src)
  rw [if_pos rfl, h] at hfind
  dsimp only at hfind
  refine ⟨fun hb hg => ?_, fun hbg => ?_⟩
  · rw [hb, hg] at hfind
    exact hfind
  · rw [show (r.byAck && r.gone) = false by rcases hbg with hb | hg <;> simp [*]] at hfind
    exact hfind

/-- Records of other sources stand. -/
theorem ackSource_other (c : Cfg) (src : Nat) (d : Dyn) {m : Nat} (hm : m ≠ src) : (ackSource c src d).flt.find m = d.flt.find m :=
  ((ackSource_spec c src d _ rfl).1 m).trans ((ackRec_find d src m).trans (if_neg hm))

/-- The acknowledgement of a unit's record between passes acknowledges the unit (R337). -/
theorem ackSource_unit {c : Cfg} {d : Dyn} {u : Nat} (hu : u < c.fx.nUnits) (hp : d.seq.passMs = none) (he : c.unitEn u = true)
    (hfault : (d.unit u).state = 4) : ((ackSource c (0xC000 + u) d).unit u).acked = true := by
  have hle := nUnits_le c.fx
  have hstep := ackRec_step d (0xC000 + u)
  have hp' : (d.ackRec (0xC000 + u)).seq.passMs = none := (congrArg Seq.passMs hstep.same.2.2.2.2.2.2.2.2.2.2.1).trans hp
  have hrun : ackSource c (0xC000 + u) d = ackTree c u (d.ackRec (0xC000 + u)) := by
    refine (if_pos ⟨by omega, by omega⟩).trans ?_
    rw [Nat.add_sub_cancel_left, unitDo_now c u 3 _ hp']
    rfl
  obtain ⟨-, -, hacked, -⟩ := ackList c u ((List.range c.fx.nUnits).filter (c.unitEn)) (d.ackRec (0xC000 + u)) u
  rw [hrun]
  refine hacked.trans (if_pos ⟨List.mem_filter.mpr ⟨List.mem_range.mpr hu, he⟩, under_self c u 256, ?_⟩)
  rw [hstep.unit u]
  exact hfault

/-- NEXT's choice in a list of sources (R448): the first one above the selection, or the list's first one. -/
def nextSource (sel : Nat) (srcs : List Nat) : Nat :=
  match srcs.find? (fun s => decide (sel < s)) with
  | some s => s
  | none => srcs.headD sel

theorem faultNext_eq (d : Dyn) : faultNext d = fltResult 0 { d with flt := { d.flt with sel := nextSource d.flt.sel (d.flt.recs.map (·.source)) } } := rfl

theorem nextSource_above {sel m : Nat} {srcs : List Nat} (h : srcs.find? (fun s => decide (sel < s)) = some m) : nextSource sel srcs = m := by
  unfold nextSource
  rw [h]

theorem nextSource_wraps {sel : Nat} {srcs : List Nat} (h : srcs.find? (fun s => decide (sel < s)) = none) : nextSource sel srcs = srcs.headD sel := by
  unfold nextSource
  rw [h]

theorem nextSource_nil (sel : Nat) : nextSource sel [] = sel := rfl

theorem nextSource_mem (sel : Nat) {srcs : List Nat} (h : srcs ≠ []) : nextSource sel srcs ∈ srcs := by
  cases hf : srcs.find? (fun s => decide (sel < s)) with
  | some m =>
    rw [nextSource_above hf]
    exact List.mem_of_find?_eq_some hf
  | none =>
    rw [nextSource_wraps hf]
    cases srcs with
    | nil => exact absurd rfl h
    | cons x l => exact List.mem_cons_self

/-- With a source above the selection, the choice is the least one above it. -/
theorem nextSource_least {sel : Nat} {srcs : List Nat} (h : ∃ m ∈ srcs, sel < m) :
    sel < nextSource sel srcs ∧ (srcs.Pairwise (· < ·) → ∀ m ∈ srcs, sel < m → nextSource sel srcs ≤ m) := by
  obtain ⟨m, hm, hlt⟩ := h
  cases hf : srcs.find? (fun s => decide (sel < s)) with
  | some k =>
    rw [nextSource_above hf]
    exact (find_first hf).2
  | none => exact absurd (decide_eq_true hlt) (by simpa using List.find?_eq_none.mp hf m hm)

/-- With none above it, the choice is the least source. -/
theorem nextSource_head {sel : Nat} {srcs : List Nat} (h : ∀ m ∈ srcs, m ≤ sel) (hs : srcs.Pairwise (· < ·)) : ∀ m ∈ srcs, nextSource sel srcs ≤ m := by
  have hf : srcs.find? (fun s => decide (sel < s)) = none :=
    List.find?_eq_none.mpr fun m hm => by simpa using h m hm
  rw [nextSource_wraps hf]
  cases srcs with
  | nil => intro m hm; cases hm
  | cons x l =>
    intro m hm
    rcases List.mem_cons.mp hm with rfl | hm
    · exact Nat.le_refl _
    · exact Nat.le_of_lt ((List.pairwise_cons.mp hs).1 m hm)

/-- The archive takes the oldest copy, and a copy that waited enters the queue (R438). -/
theorem faultCopyTaken_queue {d : Dyn} {k : FCopy} {q : List FCopy} (h : d.flt.queue = k :: q) :
    ∃ a, faultCopyTaken d = { d with arc := a, flt := { d.flt with queue := q ++ d.flt.waiting.take 1, waiting := d.flt.waiting.drop 1 } } := by
  obtain ⟨a, ha⟩ := ledger_arc d 4 1 k.bytes
  refine ⟨a, ?_⟩
  unfold faultCopyTaken
  rw [h]
  dsimp only
  rw [ha]
  cases d.flt.waiting <;> simp

/-- With no copy left the archive takes the oldest event (R439). -/
theorem faultCopyTaken_event {d : Dyn} {e : FCopy} {es : List FCopy} (hq : d.flt.queue = []) (he : d.flt.events = e :: es) :
    ∃ a, faultCopyTaken d = { d with arc := a, flt := { d.flt with events := es } } := by
  obtain ⟨a, ha⟩ := ledger_arc d 5 2 e.bytes
  refine ⟨a, ?_⟩
  unfold faultCopyTaken
  rw [hq, he]
  dsimp only
  rw [ha]

theorem faultCopyTaken_empty {d : Dyn} (hq : d.flt.queue = []) (he : d.flt.events = []) : faultCopyTaken d = d := by
  unfold faultCopyTaken
  rw [hq, he]

/-- FLT_CMD.ACK on a module that is no STANDBY (R437). -/
theorem faultAck_some {c : Cfg} {d : Dyn} {r : FRec} (hs : d.standby = false) (h : d.flt.find d.flt.sel = some r) :
    faultAck c d = fltResult 0 (ackSource c d.flt.sel d) := by
  have hsrc := find_source h
  unfold faultAck
  rw [hs, h]
  dsimp only
  rw [hsrc]
  rfl

theorem faultAck_none {c : Cfg} {d : Dyn} (hs : d.standby = false) (h : d.flt.find d.flt.sel = none) : faultAck c d = fltResult 0xD046 d := by
  unfold faultAck
  rw [hs, h]
  rfl

/-- ACK_ALL acknowledges every source's record (R437). -/
theorem faultAckAll_acks (c : Cfg) {d : Dyn} (hs : d.standby = false) :
    ∃ t, faultAckAll c d = t ∧ t.flt.cmdResult = 0 ∧ Alike { t with seq := d.seq } d ∧
      ∀ m, (d.flt.find m = none → t.flt.find m = none) ∧ (∀ r, t.flt.find m = some r → r.acked = true) := by
  obtain ⟨halike, hrecs⟩ := ackAll_spec c (d.flt.recs.map (·.source)) d
  have hrun : faultAckAll c d = fltResult 0 ((d.flt.recs.map (·.source)).foldl (fun d s => ackSource c s d) d) := if_neg (by rw [hs]; decide)
  generalize (d.flt.recs.map (·.source)).foldl (fun d s => ackSource c s d) d = e at *
  refine ⟨fltResult 0 e, hrun, rfl, halike, fun m => ⟨(hrecs m).1, fun r hr => ?_⟩⟩
  change e.flt.find m = some r at hr
  cases hm : d.flt.find m with
  | none => rw [(hrecs m).1 hm] at hr; cases hr
  | some q => exact (hrecs m).2.2 (find_isSome_mem hm) r hr

/-- Settles O47, by what an acknowledgement does to each source's record, and by the choice that NEXT makes. -/
theorem faultCommands : Obligations.FaultCommands := by
  unfold Obligations.FaultCommands
  intro s
  refine ⟨fun hhost => ?_, fun hhost => ?_, fun hq he => next_dyn (faultCopyTaken_empty hq he), fun k q hq => ?_, fun e es hq he => ?_, ?_⟩
  · have hstb : s.d.standby = false := by simpa using hhost.2.1
    refine ⟨fun hnone => ?_, fun r hr => ?_, ?_⟩
    · exact (congrArg Host.Outcome.next (hostCmd_runs hhost _)).trans (next_dyn (faultAck_none hstb hnone))
    · obtain ⟨-, halike, hseq⟩ := ackSource_spec s.c s.d.flt.sel s.d _ rfl
      obtain ⟨hclosed, hkept⟩ := ackSource_own s.c s.d.flt.sel hr
      refine ⟨fltResult 0 (ackSource s.c s.d.flt.sel s.d), ?_, rfl, hclosed, hkept, fun m hm => ackSource_other s.c _ s.d hm, halike, hseq,
        fun u hu hsel hp hen hfault => ?_⟩
      · exact (congrArg Host.Outcome.next (hostCmd_runs hhost _)).trans (next_dyn (faultAck_some hstb hr))
      · rw [hsel]
        exact ackSource_unit hu hp hen hfault
    · obtain ⟨t, ht, hresult, halike, hrecs⟩ := faultAckAll_acks s.c hstb
      exact ⟨t, (congrArg Host.Outcome.next (hostCmd_runs hhost _)).trans (next_dyn ht), hresult, halike, hrecs⟩
  · intro srcs
    exact ⟨faultNext s.d, congrArg Host.Outcome.next (hostCmd_runs hhost _), rfl, rfl, rfl, fun h => (congrArg (nextSource s.d.flt.sel) h).trans (nextSource_nil _),
      nextSource_mem s.d.flt.sel, nextSource_least, nextSource_head⟩
  · obtain ⟨a, ha⟩ := faultCopyTaken_queue hq
    exact ⟨a, next_dyn ha⟩
  · obtain ⟨a, ha⟩ := faultCopyTaken_event hq he
    exact ⟨a, next_dyn ha⟩
  · obtain ⟨f, l, hf, hevents, hlen, hrecs, hqueue, hl⟩ := merged_spec s.d.flt.merge s.d
    exact ⟨f, l, next_dyn hf, hevents, hlen, hrecs, hqueue, hl⟩

end Sys2Proof.Machine
end

section
/-! A host's write of EN of a timed action: the checks, then the arming of the boundary (R115, R458). -/

namespace Sys2Proof.Machine

open Sys2Proof

/-- The configuration with EN of entry `a` set. -/
def Cfg.actOn (c : Cfg) (a : Nat) : Cfg := { c with reg := c.reg.putB (actA a 0) (c.w (actA a 0) ||| 1#32) }

/-- The first failing check of entry `a` once its EN is set (R115). -/
def Cfg.actBad (c : Cfg) (a : Nat) : Option Chk := (timedField (c.actOn a) a ++ timedRefs (c.actOn a) a).find? (·.bad)

/-- The configuration as a write that only asks for EN leaves it: the word as it stands, `y` in force. -/
def Cfg.actAsked (c : Cfg) (a : Nat) (y : Word) : Cfg := { c with reg := (c.reg.putW (actA a 0) (c.w (actA a 0))).putF (actA a 0) y }

/-- The module with no entry waiting to be armed and the archive `z`. -/
def Dyn.armsNone (d : Dyn) (z : Arc) : Dyn := { d with arc := z, tim := { d.tim with arming := [] } }

theorem actOn_w (c : Cfg) (a b : Nat) : (c.actOn a).w b = if b = actA a 0 then c.w (actA a 0) ||| 1#32 else c.w b := putB_get _ _ _ _

theorem actOn_f (c : Cfg) (a b : Nat) : (c.actOn a).f b = if b = actA a 0 then c.w (actA a 0) ||| 1#32 else c.f b := putB_fget _ _ _ _

theorem actOn_lateLimit (c : Cfg) (a : Nat) : (c.actOn a).lateLimit = c.lateLimit := by
  have hne : ¬(0x30024 = actA a 0) := by unfold actA; omega
  show fld ((c.actOn a).f 0x30024) 16 16 = fld (c.f 0x30024) 16 16
  rw [actOn_f, if_neg hne]

theorem actAsked_w (c : Cfg) (a b : Nat) (y : Word) : (c.actAsked a y).w b = c.w b := by
  show tget (resetWord b) (tput (resetWord (actA a 0)) c.reg.w (actA a 0) (c.w (actA a 0))) b = c.w b
  by_cases hb : b = actA a 0
  · subst hb
    exact tget_tput_same _ _ _ _
  · exact tget_tput' _ _ _ _ _ _ hb

theorem actAsked_f (c : Cfg) {a b : Nat} (y : Word) (hb : b ≠ actA a 0) : (c.actAsked a y).f b = c.f b := by
  show tget (resetWord b) (tput (resetWord (actA a 0)) c.reg.f (actA a 0) y) b = c.f b
  exact tget_tput' _ _ _ _ _ _ hb

/-- An accepted enable sets EN and waits for the boundary's arming (R458). -/
theorem actionEnable_taken {a : Nat} {s : State} (y : Word) (hok : s.c.reg.ok) (hb : bit (s.c.w (actA a 0)) 0 = false) (himg : s.c.img.ok = true)
    (hbad : ∀ k, s.c.actBad a = some k → k.code = 0) :
    (actionEnable a { s with c := s.c.actAsked a y }).1 =
      { s with c := s.c.actOn a, d := { s.d with tim := { s.d.tim with arming := s.d.tim.arming ++ [a] } } } := by
  have h := actionEnable_spec a s y hok hb
  dsimp only at h
  rw [himg] at h
  refine (congrArg Prod.fst h).trans ?_
  cases hf : (timedField (s.c.actOn a) a ++ timedRefs (s.c.actOn a) a).find? (·.bad) with
  | none =>
    unfold Cfg.actOn at hf
    rw [hf]
    rfl
  | some k =>
    have hk := hbad k hf
    unfold Cfg.actOn at hf
    rw [hf]
    exact congrArg Prod.fst (if_pos hk)

/-- A refused enable leaves the entry but its RESULT (R115). -/
theorem actionEnable_refused {a k : Nat} {s : State} (y : Word) (hok : s.c.reg.ok) (hb : bit (s.c.w (actA a 0)) 0 = false)
    (h : s.c.img.ok = false ∧ k = 0xD ∨ s.c.img.ok = true ∧ ∃ j, s.c.actBad a = some j ∧ j.code = k ∧ k ≠ 0) :
    (actionEnable a { s with c := s.c.actAsked a y }).1 =
      { s with c := s.c.actAsked a y, d := s.d.setAct a { s.d.act a with result := k } } := by
  have he := actionEnable_spec a s y hok hb
  dsimp only at he
  refine (congrArg Prod.fst he).trans ?_
  rcases h with ⟨himg, rfl⟩ | ⟨himg, j, hj, rfl, hne⟩
  · rw [himg]
    rfl
  · unfold Cfg.actBad Cfg.actOn at hj
    rw [himg, hj]
    exact congrArg Prod.fst (if_neg hne)

theorem aliasOf_act {a : Nat} (ha : a < 256) : aliasOf (actA a 0) = actA a 0 := by
  unfold aliasOf
  exact if_neg (by unfold actA; omega)

/-- A host's write that asks for EN of an entry whose EN is 0 is the entry's enable, and at most a WRITE record. -/
theorem hostWrite_act {a : Nat} {s : State} (ha : a < 256) (hstb : s.d.standby = false) (hb : bit (s.c.w (actA a 0)) 0 = false) :
    ∃ y z, hostWrite (actA a 0) (mix (s.c.w (actA a 0)) 1 (maskAt 0 1)) s =
      { (actionEnable a { s with c := s.c.actAsked a y }).1 with d := { (actionEnable a { s with c := s.c.actAsked a y }).1.d with arc := z } } := by
  obtain ⟨y, hy⟩ := fieldWrite_act a s ha hb
  have hcfg : ¬(0x20000 ≤ actA a 0 ∧ actA a 0 < 0x30000) := by unfold actA; omega
  have henable : fieldWrite 0 actArea a actWord0 (actA a 0) (mix (s.c.w (actA a 0)) 1 (maskAt 0 1)) s = actionEnable a { s with c := s.c.actAsked a y } := hy
  obtain ⟨z, hz⟩ := loggedWrite_spec 0 (actA a 0) (fun _ => (actionEnable a { s with c := s.c.actAsked a y }).1) s
  refine ⟨y, z, Eq.trans ?_ hz⟩
  unfold hostWrite
  rw [if_neg hcfg]
  unfold applyWrite
  dsimp only
  rw [if_neg (by simp [hstb]), if_neg (by omega), if_neg (by rw [command_act s.c.fx a ha]; decide), live_act a _ s ha, aliasOf_act ha]
  dsimp only
  rw [fieldsAt_act s.c a ha]
  dsimp only
  rw [if_pos rfl, ← henable]
  rfl

/-- The command with the port up: this write's arming follows the write. -/
theorem exec_actionArm {a : Nat} {s : State} (ha : a < 256) (hup : s.d.portUp = true) :
    exec (.actionArm a) s = .next (armWaiting (hostWrite (actA a 0) (mix (s.c.w (actA a 0)) 1 (maskAt 0 1)) { s with d := s.d.armsNone s.d.arc })) := by
  have halign : actA a 0 % 4 = 0 := by unfold actA; omega
  refine congrArg Host.Outcome.next ((if_pos ha).trans ?_)
  exact if_pos (by rw [hup, halign]; rfl)

/-- A refused enable arms nothing. -/
theorem exec_actionArm_refused {a k : Nat} {s : State} (ha : a < 256) (hup : s.d.portUp = true) (hstb : s.d.standby = false) (hok : s.c.reg.ok)
    (hb : bit (s.c.w (actA a 0)) 0 = false)
    (h : s.c.img.ok = false ∧ k = 0xD ∨ s.c.img.ok = true ∧ ∃ j, s.c.actBad a = some j ∧ j.code = k ∧ k ≠ 0) :
    ∃ y z, exec (.actionArm a) s = .next { s with c := s.c.actAsked a y, d := (s.d.armsNone z).setAct a { s.d.act a with result := k } } := by
  obtain ⟨y, z, hw⟩ := hostWrite_act (s := { s with d := s.d.armsNone s.d.arc }) ha hstb hb
  refine ⟨y, z, (exec_actionArm ha hup).trans (congrArg Host.Outcome.next ?_)⟩
  refine (congrArg armWaiting hw).trans ?_
  rw [actionEnable_refused (s := { s with d := s.d.armsNone s.d.arc }) y hok hb h]
  exact armWaiting_none _ rfl

/-- An accepted enable arms the entry alone. -/
theorem exec_actionArm_taken {a : Nat} {s : State} (ha : a < 256) (hup : s.d.portUp = true) (hstb : s.d.standby = false) (hok : s.c.reg.ok)
    (hb : bit (s.c.w (actA a 0)) 0 = false) (himg : s.c.img.ok = true) (hbad : ∀ k, s.c.actBad a = some k → k.code = 0) :
    ∃ z, exec (.actionArm a) s = .next (armOne a { s with c := s.c.actOn a, d := s.d.armsNone z }) := by
  obtain ⟨y, z, hw⟩ := hostWrite_act (s := { s with d := s.d.armsNone s.d.arc }) ha hstb hb
  refine ⟨z, (exec_actionArm ha hup).trans (congrArg Host.Outcome.next ?_)⟩
  refine (congrArg armWaiting hw).trans ?_
  rw [actionEnable_taken (s := { s with d := s.d.armsNone s.d.arc }) y hok hb himg hbad]
  rfl

/-- Settles O50, by the command's two outcomes and by `armOne` for an accepted enable. -/
theorem actionArming : Obligations.ActionArming := by
  unfold Obligations.ActionArming
  intro a s ha hup hstb hok hb A x c' now dd bad
  have hrefused : ∀ k, (s.c.img.ok = false ∧ k = 0xD ∨ s.c.img.ok = true ∧ ∃ j, s.c.actBad a = some j ∧ j.code = k ∧ k ≠ 0) → ∃ t,
      exec (.actionArm a) s = .next t ∧ (t.d.act a = { x with result := k } ∧ t.c.w A = s.c.w A) ∧
      (∀ b, b ≠ a → t.d.act b = s.d.act b) ∧ (∀ b, b ≠ A → t.c.w b = s.c.w b ∧ t.c.f b = s.c.f b) ∧
      { t.d with tim := s.d.tim, arc := s.d.arc } = s.d ∧ { t.d.tim with acts := s.d.tim.acts } = { s.d.tim with arming := [] } ∧
      t.c.img = s.c.img ∧ t.c.fx = s.c.fx ∧ t.pending = s.pending := fun k hk => by
    obtain ⟨y, z, hrun⟩ := exec_actionArm_refused ha hup hstb hok hb hk
    exact ⟨_, hrun, ⟨setAct_same _ _ _, actAsked_w _ _ _ _⟩, fun b hne => setAct_other _ _ _ _ hne,
      fun b hne => ⟨actAsked_w _ _ _ _, actAsked_f _ _ hne⟩, rfl, rfl, rfl, rfl, rfl⟩
  cases himg : s.c.img.ok with
  | false =>
    obtain ⟨t, hrun, href, hrest⟩ := hrefused 0xD (.inl ⟨himg, rfl⟩)
    exact ⟨t, hrun, ⟨fun _ => href, fun h => absurd h (by decide), fun h => absurd h (by decide), fun h => absurd h (by decide)⟩, hrest⟩
  | true =>
    by_cases hbad : ∃ k, bad = some k ∧ k.code ≠ 0
    · obtain ⟨k, hk, hcode⟩ := hbad
      obtain ⟨t, hrun, href, hrest⟩ := hrefused k.code (.inr ⟨himg, k, hk, rfl, hcode⟩)
      refine ⟨t, hrun, ⟨fun h => absurd h (by decide), fun _ j hj _ => ?_, fun _ h => ?_, fun _ h => ?_⟩, hrest⟩
      · rw [hk] at hj
        cases hj
        exact href
      · rw [hk] at h
        cases h
      · rw [hk] at h
        cases h
    · obtain ⟨z, hrun⟩ := exec_actionArm_taken ha hup hstb hok hb himg (fun k hk => Decidable.of_not_not fun hne => hbad ⟨k, hk, hne⟩)
      obtain ⟨hlate, htake⟩ := armOne_spec a { s with c := s.c.actOn a, d := s.d.armsNone z } _ rfl
      rw [actOn_lateLimit] at hlate htake
      have hcode : ∀ k, bad = some k → k.code ≠ 0 → False := fun k hk hne => hbad ⟨k, hk, hne⟩
      rcases Int.lt_or_le dd (-(s.c.lateLimit : Int)) with hdd | hdd
      · refine ⟨_, hrun.trans (congrArg Host.Outcome.next (hlate hdd)), ⟨fun h => absurd h (by decide), fun _ k hk hne => (hcode k hk hne).elim,
          fun _ _ _ => ⟨setAct_same _ _ _, ?_⟩, fun _ _ h => absurd h (by omega)⟩, fun b hne => setAct_other _ _ _ _ hne, fun b hne => ⟨?_, ?_⟩, rfl, rfl, rfl, rfl, rfl⟩
        · exact (putB_get _ _ _ _).trans ((if_pos rfl).trans (by rw [actOn_w, if_pos rfl]; exact (enBits _ hb).2.2.2.1))
        · exact (putB_get _ _ _ _).trans ((if_neg hne).trans ((actOn_w _ _ _).trans (if_neg hne)))
        · exact (putB_fget _ _ _ _).trans ((if_neg hne).trans ((actOn_f _ _ _).trans (if_neg hne)))
      · refine ⟨_, hrun.trans (congrArg Host.Outcome.next (htake hdd)), ⟨fun h => absurd h (by decide), fun _ k hk hne => (hcode k hk hne).elim,
          fun _ _ h => absurd h (by omega), fun _ _ _ => ⟨setAct_same _ _ _, ?_, ?_⟩⟩, fun b hne => setAct_other _ _ _ _ hne, fun b hne => ⟨?_, ?_⟩, rfl, rfl, rfl, rfl, rfl⟩
        · exact (actOn_w _ _ _).trans (if_pos rfl)
        · exact (actOn_f _ _ _).trans (if_pos rfl)
        · exact (actOn_w _ _ _).trans (if_neg hne)
        · exact (actOn_f _ _ _).trans (if_neg hne)

end Sys2Proof.Machine
end

section
/-! Line, hold, watchdog and lease of one field group: what each marks, and the die that follows (R366, R380, R382, R410, R554). -/

namespace Sys2Proof.Machine

open Sys2Proof

/-- The group takes the line up, FENCE ends its channels' retries, and its die drives anew (R366, R387). -/
theorem commonLine_reapplies (c : Cfg) (g line : Nat) (d : Dyn) :
    ∃ d2, commonLine c g line d = reapplyG c g d2 ∧ FldStep d d2 ∧
      (∀ h, d2.grp h = (d.setGrp g { d.grp g with line := line % 4 }).grp h) ∧
      (line % 4 ≠ 2 → d2 = d.setGrp g { d.grp g with line := line % 4 }) := by
  unfold commonLine reapplyG
  by_cases h4 : g < 4
  · rw [if_pos h4]
    unfold commonLineDio
    dsimp only
    by_cases hfence : line % 4 = 2
    · rw [if_pos hfence]
      obtain ⟨hgrp, hstep⟩ := phase3_loop (upFrom (16 * g) 16) (d.setGrp g { d.grp g with line := line % 4 })
      exact ⟨_, (if_pos h4).symm, FldStep.trans (setGrp_step d g _) hstep, hgrp, fun h => absurd hfence h⟩
    · rw [if_neg hfence]
      exact ⟨_, (if_pos h4).symm, setGrp_step d g _, fun _ => rfl, fun _ => rfl⟩
  · rw [if_neg h4]
    exact ⟨_, (if_neg h4).symm, setGrp_step d g _, fun _ => rfl, fun _ => rfl⟩

theorem reapplyG_other (c : Cfg) {g h : Nat} (d : Dyn) (hh : h ≠ g) : (reapplyG c g d).grp h = d.grp h :=
  (reapplyG_grp c g h d).trans (if_neg fun q => hh q.1)

/-- Driving a group anew changes its levels alone. -/
theorem reapplyG_own (c : Cfg) (g : Nat) (d : Dyn) : { (reapplyG c g d).grp g with applied := (d.grp g).applied } = d.grp g := by
  rw [reapplyG_grp]
  split <;> rfl

theorem reapplyG_line (c : Cfg) (g : Nat) (d : Dyn) : ((reapplyG c g d).grp g).line = (d.grp g).line :=
  (congrArg FGrp.line (reapplyG_own c g d)).trans rfl

theorem reapplyG_holdExp (c : Cfg) (g : Nat) (d : Dyn) : ((reapplyG c g d).grp g).holdExp = (d.grp g).holdExp :=
  (congrArg FGrp.holdExp (reapplyG_own c g d)).trans rfl

/-- A hold that runs out (R382): the mark, the record, and the die. -/
theorem holdExpiry_eq {c : Cfg} {g : Nat} {d : Dyn} (h1 : (d.grp g).holding = true) (h2 : (d.grp g).holdExp = false) :
    moverGroup c g (holdExpiry c g d) =
      reapplyG c g (fldFault c (grpSrc g) (grpCode g 6) 1 true true (d.setGrp g { d.grp g with holdExp := true })) :=
  (congrArg (moverGroup c g) (if_pos ⟨h1, by rw [h2]; decide⟩)).trans (moverG_reapply c g _)

/-- A field watchdog that runs out (R380). -/
theorem fieldWatchdog_eq {c : Cfg} {g : Nat} {d : Dyn} (h1 : c.grpEn g = true) (h2 : (d.grp g).line ≠ 1) (h3 : (d.grp g).holding = false) :
    moverGroup c g (fieldWatchdog c g d) = reapplyG c g (d.setGrp g { d.grp g with wdExp := true }) :=
  (congrArg (moverGroup c g) (if_pos ⟨h1, h2, by rw [h3]; decide⟩)).trans (moverG_reapply c g _)

/-- In DORMANT a fault of the field side is kept for the wake (R382). -/
theorem fldFault_dormant (c : Cfg) (src code sev : Nat) (x y : Bool) {d : Dyn} (hr : d.pwr.resetFrom = none) (hs : d.glb.st = .dormant) :
    fldFault c src code sev x y d = { d with fld := { d.fld with late := d.fld.late ++ [(src, code, sev)] } } := by
  unfold fldFault
  rw [if_neg (by rw [hr]; decide), if_pos hs]

/-- Without its lease a die parks the drives that no latch, trip or line holds (R410, R554). -/
theorem dieMov_lease {c : Cfg} {d : Dyn} {n : Nat} (hlease : (d.grp (4 + n / 16)).lease = true) (hst : (d.mch n).state ≠ 6) :
    (dieMov c d n).1 = 0 ∧
      (c.movEn n = true → (d.grp (4 + n / 16)).line ≠ 1 → (d.grp (4 + n / 16)).latch = 0 → (dieMov c d n).2 = true) := by
  by_cases hoff : (d.grp (4 + n / 16)).line = 1 ∨ (d.grp (4 + n / 16)).line = 2 ∨ (d.grp (4 + n / 16)).latch ≠ 0
  · refine ⟨dieMov_off c d n hoff, fun hen hline hlatch => ?_⟩
    have hfence : (d.grp (4 + n / 16)).line = 2 := by omega
    simp [dieMov, hen, hfence]
  · obtain ⟨hline, hfence, hlatch⟩ : (d.grp (4 + n / 16)).line ≠ 1 ∧ (d.grp (4 + n / 16)).line ≠ 2 ∧ (d.grp (4 + n / 16)).latch = 0 := by omega
    cases hen : c.movEn n with
    | false => exact ⟨by simp [dieMov, hen], fun h => by cases h⟩
    | true => simp [dieMov, hen, hline, hfence, hlatch, hst, hlease]

/-- Settles O43, by what each event marks in its group before the die drives anew. -/
theorem commonFaultAndDieTimers : Obligations.CommonFaultAndDieTimers := by
  unfold Obligations.CommonFaultAndDieTimers
  intro g line s hg
  refine ⟨?_, fun hhold hexp => ?_, fun hen hline hhold => ?_, fun m hm hrole => ?_⟩
  · obtain ⟨d2, hrun, hstep, hgrp, hsame⟩ := commonLine_reapplies s.c g line s.d
    have hmark : (d2.grp g).line = line % 4 := by rw [hgrp, setGrp_same]
    refine ⟨reapplyG s.c g d2, (congrArg Host.Outcome.next (if_pos hg)).trans (next_dyn hrun), (reapplyG_line _ _ _).trans hmark, fun hoff => ?_,
      fun hne => by rw [hsame hne]; exact Alike.rfl, fun h hh => ?_, hstep.trans (reapplyG_fld _ _ _)⟩
    · exact reapplyG_off s.c g hg d2 (by rw [hmark]; omega)
    · rw [reapplyG_other _ _ hh, hgrp, setGrp_other _ _ _ _ hh]
  · refine ⟨_, (congrArg Host.Outcome.next (if_pos hg)).trans (next_dyn (holdExpiry_eq hhold hexp)), ?_, fun hreset hst => ?_, fun hreset hst => ⟨?_, ?_⟩,
      fun h hh => ?_, fun k => ?_, ?_⟩
    · rw [reapplyG_holdExp, fldFault_grp, setGrp_same]
    · exact (fldFault_opened s.c (grpSrc g) (grpCode g 6) 1 true true (s.d.setGrp g _) hst hreset (grpSrc_ne g hg).1).of rfl rfl (reapplyG_flt' _ _ _)
    · rw [reapplyG_flt', fldFault_dormant _ _ _ _ _ _ (d := s.d.setGrp g _) hreset hst]
      rfl
    · rw [reapplyG_late, fldFault_dormant _ _ _ _ _ _ (d := s.d.setGrp g _) hreset hst]
      rfl
    · rw [reapplyG_other _ _ hh, fldFault_grp, setGrp_other _ _ _ _ hh]
    · rw [reapplyG_dch, fldFault_dch, setGrp_dch]
    · exact ((setGrp_step s.d g _).trans (fldFault_fld _ _ _ _ _ _ _)).trans (reapplyG_fld _ _ _)
  · exact ⟨_, (congrArg Host.Outcome.next (if_pos hg)).trans (next_dyn (fieldWatchdog_eq hen hline hhold)), rfl⟩
  · refine ⟨reapplyMov s.c m (s.d.setGrp (4 + m) { s.d.grp (4 + m) with lease := true }),
      (congrArg Host.Outcome.next (if_pos hm)).trans (next_dyn (if_pos hrole)), ?_, fun n _ hnm hst => ?_, Alike.rfl⟩
    · rw [reapplyMov_grp, setGrp_same]
    · obtain ⟨hzero, hpark⟩ := dieMov_lease (c := s.c) (d := s.d.setGrp (4 + m) { s.d.grp (4 + m) with lease := true }) (n := n)
        (by rw [hnm, setGrp_same]) hst
      rw [hnm, setGrp_same] at hpark
      rw [reapplyMov_mch, if_pos hnm]
      exact ⟨hzero, hpark⟩

end Sys2Proof.Machine
end

section
/-! The frame boundary and the loop deadline (R33, R35, R278, R295, R431). -/

namespace Sys2Proof.Machine

open Sys2Proof

/-- In reset and in DORMANT there are no frames (R33). -/
theorem frameBoundary_asleep (e : FrameEnv) {s : State} (h : s.d.pwr.resetFrom.isSome = true ∨ s.d.glb.st = .dormant) : frameBoundary e s = s := by
  unfold frameBoundary
  rcases h with h | h
  · exact if_pos h
  · rw [h]
    split <;> rfl

/-- In BOOT a boundary is a millisecond of device time (R33). -/
theorem frameBoundary_boot (e : FrameEnv) {s : State} (hr : s.d.pwr.resetFrom = none) (hs : s.d.glb.st = .boot) :
    frameBoundary e s = { s with d := s.d.nextFrame s.c } := by
  unfold frameBoundary
  rw [hr, hs]
  rfl

/-- In RUN, SAFE and SCAN a boundary runs the frame (R35). -/
theorem frameBoundary_runs (e : FrameEnv) {s : State} (hr : s.d.pwr.resetFrom = none) (hb : s.d.glb.st ≠ .boot) (hd : s.d.glb.st ≠ .dormant) :
    frameBoundary e s = frameRun e s := by
  unfold frameBoundary
  rw [hr]
  cases hs : s.d.glb.st with
  | boot => exact absurd hs hb
  | dormant => exact absurd hs hd
  | run => rfl
  | safe => rfl
  | scan => rfl

/-- A loop that misses its sample keeps u and I, counts the miss, and falls back at the third one in AUTO or TRACK (R278, R295). -/
theorem missLoop_counts (x : LoopS) : (missLoop x).u = x.u ∧ (missLoop x).i = x.i ∧ (missLoop x).missed = true ∧ (missLoop x).total = satInc 16 x.total ∧
    (missLoop x).consec = min (x.consec + 1) 255 ∧ (missLoop x).onTime = 0 ∧
    (missLoop x).state = (if x.consec = 2 ∧ (x.state = 3 ∨ x.state = 4) then 5 else x.state) := by
  have hthird : (decide (min (x.consec + 1) 255 = 3) && (x.state == 3 || x.state == 4)) = true ↔ x.consec = 2 ∧ (x.state = 3 ∨ x.state = 4) := by
    rw [Bool.and_eq_true, decide_eq_true_iff, Bool.or_eq_true, beq_iff_eq, beq_iff_eq]
    omega
  exact ⟨rfl, rfl, rfl, rfl, rfl, rfl, if_congr hthird rfl rfl⟩

/-- Settles O45, by the frame's stages and by what a loop's miss leaves of it. -/
theorem framesAndDeadline : Obligations.FramesAndDeadline := by
  unfold Obligations.FramesAndDeadline
  intro e s
  refine ⟨fun h => congrArg Host.Outcome.next (frameBoundary_asleep e h), fun hr hs => congrArg Host.Outcome.next (frameBoundary_boot e hr hs),
    nextFrame_ms s.c s.d, fun hr hb hd => ?_, fun done hdue => congrArg Host.Outcome.next (if_pos hdue), fun done hdue hnodup => ?_⟩
  · have hrun := frameBoundary_runs e hr hb hd
    obtain ⟨hpending, hfx, -⟩ := frameBoundary_keeps e s
    rw [hrun] at hpending hfx
    obtain ⟨hhealthy, hstream, hsealed⟩ := frameRun_ends e s
    exact ⟨frameRun e s, frameClock s, frameInputs e (transitions (pairBoundary (frameClock s))), congrArg Host.Outcome.next hrun, rfl, rfl, rfl,
      frameClock_spec s, frameInputs_snap e _, hhealthy, hstream, hsealed, hpending, hfx⟩
  · obtain ⟨t, hrun, hleft, hlast, hpeak, hloops⟩ := loopDeadline_spec done s hdue hnodup
    refine ⟨_, t, rfl, congrArg Host.Outcome.next hrun, hleft, hlast, hpeak, fun n => ?_⟩
    generalize forEach (s.d.ctl.due.take done) s (loopTurn s.d.frozen) = z at hloops ⊢
    obtain ⟨hmiss, hdone⟩ := hloops n
    by_cases hn : n ∈ s.d.ctl.due.drop done ∧ z.c.loopEn n = true
    · obtain ⟨hu, hi, hcounts⟩ := missLoop_counts (z.d.lp n)
      rw [hmiss hn]
      exact ⟨hu, hi, fun h => absurd hn h, fun _ => hcounts⟩
    · rw [hdone hn]
      exact ⟨rfl, rfl, fun _ => rfl, fun h => absurd h hn⟩

end Sys2Proof.Machine
end

section
/-! The crystals, the calibration window and the supplies (R81, R90, R94, R96, R148, R182, R188). -/

namespace Sys2Proof.Machine

open Sys2Proof

/-- Where the books alone change after a write of the power block, the block stands as written but for the run condition, and nothing else moves. -/
theorem FltStep.powered {d t : Dyn} {p : Pwr} (h : FltStep { d with pwr := p } t) :
    (∃ r, t.pwr = { p with runCond := r }) ∧ Alike { t with pwr := d.pwr } d := by
  obtain ⟨f, i, a, b, r, rfl⟩ := h
  exact ⟨⟨r, rfl⟩, rfl⟩

/-- A record of the field side, raised or kept for the wake, changes the books and the list of late records alone. -/
theorem fldFault_books (c : Cfg) (src code sev : Nat) (x y : Bool) (d : Dyn) :
    ∃ e f, FltStep d e ∧ fldFault c src code sev x y d = { e with fld := f } := by
  unfold fldFault
  split
  · exact ⟨d, d.fld, .refl d, rfl⟩
  · split
    · exact ⟨d, _, .refl d, rfl⟩
    · exact ⟨_, _, fault_step d c src code sev 0 0 x y, rfl⟩

/-- The end of a record's cause concerns the record of its source alone. -/
theorem causeGone_other (d : Dyn) {src m : Nat} (codes : List Nat) (hm : m ≠ src) : (d.causeGone src codes).flt.find m = d.flt.find m := by
  unfold Dyn.causeGone
  cases hr : d.flt.find src with
  | none => rfl
  | some r =>
    dsimp only
    split
    · split
      · rw [closeRec_find, if_neg hm]
      · exact (find_insRec _ _ _).trans (if_neg (by rw [find_source hr]; exact hm))
    · rfl

/-- An acknowledged record closes with the end of its cause (R434). -/
theorem causeGone_acked {d : Dyn} {src : Nat} {codes : List Nat} {r : FRec} (hr : d.flt.find src = some r) (hc : codes.contains r.code = true)
    (ha : r.acked = true) : (d.causeGone src codes).flt.find src = none := by
  unfold Dyn.causeGone
  rw [hr]
  dsimp only
  rw [if_pos hc, if_pos ha, closeRec_find, if_pos rfl]

/-- A record without an acknowledgement waits for it, its cause marked as gone (R434). -/
theorem causeGone_unacked {d : Dyn} {src : Nat} {codes : List Nat} {r : FRec} (hr : d.flt.find src = some r) (hc : codes.contains r.code = true)
    (ha : r.acked = false) : (d.causeGone src codes).flt.find src = some { r with gone := true } := by
  unfold Dyn.causeGone
  rw [hr]
  dsimp only
  rw [if_pos hc, if_neg (by rw [ha]; decide)]
  exact (find_insRec _ _ _).trans (if_pos (find_source hr).symm)

/-- No wake source moves the level of a crystal. -/
theorem woken_xt32 (cause : Nat) (d : Dyn) (p : Pwr) : (Woken cause d p).xt32 = p.xt32 := by
  unfold Woken
  repeat' split
  all_goals rfl

/-- The module with XT32 running or stopped. -/
def Dyn.withXt32 (d : Dyn) (on : Bool) : Dyn := { d with pwr := { d.pwr with xt32 := on } }

/-- The module with VAO in range or low, at level `lv` (R90). -/
def Dyn.withVao (d : Dyn) (ok : Bool) (lv : Nat) : Dyn := { d with pwr := { d.pwr with vaoOk := ok, vaoLevel := lv % 256, vaoAt := d.ms / 1000 } }

/-- XT32 that stops has its record raised before it acts as a wake source (R89, R96). -/
theorem xt32Stopped_running (c : Cfg) {d : Dyn} (hx : d.pwr.xt32 = true) :
    xt32Stopped c d = wakeSource 0x84 (fldFault c 0 0x61 2 true false (d.withXt32 false)) := if_pos hx

/-- XT32 that stops out of DORMANT opens its record, and is a wake source (R89, R96). -/
theorem xt32Stopped_awake (c : Cfg) {d : Dyn} (hx : d.pwr.xt32 = true) (hst : d.glb.st ≠ .dormant) (hr : d.pwr.resetFrom = none) :
    (xt32Stopped c d).pwr.xt32 = false ∧ Opened d (xt32Stopped c d) 0 0x61 2 0 0 true false ∧ (xt32Stopped c d).glb.st = d.glb.st := by
  have hstep := fldFault_step c 0 0x61 2 true false (d.withXt32 false) hst
  have hopen := fldFault_opened c 0 0x61 2 true false (d.withXt32 false) hst hr (by decide)
  rw [xt32Stopped_running c hx, wakeSource_spec]
  generalize fldFault c 0 0x61 2 true false (d.withXt32 false) = e at hstep hopen
  obtain ⟨⟨r, hpwr⟩, halike⟩ := hstep.powered
  obtain ⟨-, -, -, -, -, -, -, -, -, -, -, -, hglb, -⟩ := halike.blocks
  exact ⟨(woken_xt32 _ _ _).trans (by rw [hpwr]), hopen.of rfl rfl rfl, hglb⟩

/-- XT32 that stops in DORMANT wakes the module, and its record waits for the wake (R89, R382). -/
theorem xt32Stopped_dormant (c : Cfg) {d : Dyn} (hx : d.pwr.xt32 = true) (hst : d.glb.st = .dormant) (hr : d.pwr.resetFrom = none) :
    xt32Stopped c d = { d with fld := { d.fld with late := d.fld.late ++ [(0, 0x61, 2)] }, pwr := Woken 0x84 d { d.pwr with xt32 := false } } := by
  rw [xt32Stopped_running c hx, fldFault_dormant c 0 0x61 2 true false (d := d.withXt32 false) hr hst, wakeSource_spec]
  rfl

/-- XT32 that runs again shows it; its record ends as `causeGone` says (R96). -/
theorem xt32Restarted_stopped {d : Dyn} (hx : d.pwr.xt32 = false) :
    xt32Restarted d = (d.withXt32 true).causeGone 0 [0x61] :=
  if_neg (by rw [hx]; decide)

theorem xt25Fail_running (c : Cfg) {d : Dyn} (hx : d.pwr.xt25 = true) (hc : d.clocked = true) :
    xt25Fail c d = ({ d with pwr := { d.pwr with xt25 := false, rc := true } } : Dyn).fault c 0 0x60 4 0 0 false false :=
  if_pos (by rw [hx, hc]; rfl)

theorem xt25Fail_idle (c : Cfg) {d : Dyn} (h : d.pwr.xt25 = false ∨ d.clocked = false) : xt25Fail c d = d :=
  if_neg (by rcases h with h | h <;> simp [h])

/-- The offset that a window of `cycles` shows, in parts per billion (R10, R94). -/
def windowOfs (cycles : Nat) : Int := clampI ((781250 - (cycles : Int)) * 10 ^ 9 / cycles) (-8388608) 8388607

/-- The module with the calibration of a window of `cycles` in force (R81, R94). -/
def Dyn.calibrated (d : Dyn) (cycles : Nat) : Dyn :=
  { d with pwr := { d.pwr with calOfs := windowOfs cycles, calValid := true, calOut := decide (500000 < (windowOfs cycles).natAbs), xt32 := true } }

theorem slowCalWindow_idle (c : Cfg) {cycles : Nat} {d : Dyn} (h : d.glb.st = .dormant ∨ d.pwr.resetFrom ≠ none ∨ cycles = 0) : slowCalWindow c cycles d = d :=
  if_pos (by simpa [Option.isSome_iff_ne_none] using h)

/-- A window calibrates; out of range its record opens, and in range the record closes (R81, R94, R96). -/
theorem slowCalWindow_counts (c : Cfg) {cycles : Nat} {d : Dyn} (hst : d.glb.st ≠ .dormant) (hr : d.pwr.resetFrom = none) (hc : cycles ≠ 0) :
    slowCalWindow c cycles d =
      if 500000 < (windowOfs cycles).natAbs then (d.calibrated cycles).fault c 0 0x66 1 0 0 false false else (d.calibrated cycles).clears 0 [0x66] := by
  refine (if_neg (by simp [hst, hr, hc])).trans ?_
  exact if_congr decide_eq_true_iff rfl rfl

/-- A window leaves the calibration in the power block, and moves nothing besides but the books. -/
theorem slowCalWindow_step (c : Cfg) {cycles : Nat} {d : Dyn} (hst : d.glb.st ≠ .dormant) (hr : d.pwr.resetFrom = none) (hc : cycles ≠ 0) :
    FltStep (d.calibrated cycles) (slowCalWindow c cycles d) := by
  rw [slowCalWindow_counts c hst hr hc]
  split
  · exact fault_step _ _ _ _ _ _ _ _ _
  · exact clears_step _ _ _

theorem vaoLow_raises (c : Cfg) (lv : Nat) (d : Dyn) : vaoLow c lv d = fldFault c 0 0x62 1 false false (d.withVao false lv) := rfl

/-- VAO that is low shows its level; the rest of the module stands but for the books and the list of late records (R90, R96). -/
theorem vaoLow_shows (c : Cfg) (lv : Nat) (d : Dyn) :
    (vaoLow c lv d).pwr.vaoOk = false ∧ (vaoLow c lv d).pwr.vaoLevel = lv % 256 ∧ Alike { vaoLow c lv d with pwr := d.pwr, fld := d.fld } d := by
  obtain ⟨e, f, hstep, hrun⟩ := fldFault_books c 0 0x62 1 false false (d.withVao false lv)
  rw [vaoLow_raises, hrun]
  obtain ⟨_, _, _, _, _, rfl⟩ := hstep
  exact ⟨rfl, rfl, rfl⟩

/-- Settles O15, event by event: the level that each shows, and its record. -/
theorem clocksAndSupplies : Obligations.ClocksAndSupplies := by
  unfold Obligations.ClocksAndSupplies
  intro cycles lv s
  refine ⟨fun hx hst hr => ⟨_, rfl, xt32Stopped_awake s.c hx hst hr⟩, fun hx hst hr => ⟨_, next_dyn (xt32Stopped_dormant s.c hx hst hr), rfl⟩,
    fun hx => next_dyn (if_neg (by rw [hx]; decide)), fun hx => next_dyn (if_pos hx), fun hx => ?_, fun hx hc => ?_,
    fun h => next_dyn (xt25Fail_idle s.c h), fun h => next_dyn (slowCalWindow_idle s.c h), fun hst hr hc => ?_, ?_, ?_⟩
  · obtain ⟨⟨r, hpwr⟩, halike⟩ := (causeGone_step (s.d.withXt32 true) 0 [0x61]).powered
    refine ⟨_, next_dyn (xt32Restarted_stopped hx), congrArg Pwr.xt32 hpwr, fun r hr hcode hack => ?_, fun r hr hcode hack => ?_, fun m hm => causeGone_other _ _ hm, halike⟩
    · exact causeGone_acked (d := s.d.withXt32 true) hr (by rw [hcode]; rfl) hack
    · exact causeGone_unacked (d := s.d.withXt32 true) hr (by rw [hcode]; rfl) hack
  · obtain ⟨⟨r, hpwr⟩, -⟩ := (fault_step { s.d with pwr := { s.d.pwr with xt25 := false, rc := true } } s.c 0 0x60 4 0 0 false false).powered
    exact ⟨_, next_dyn (xt25Fail_running s.c hx hc), congrArg Pwr.xt25 hpwr, congrArg Pwr.rc hpwr, fault_opened_after s.c 0 0x60 4 0 0 false false rfl rfl (by decide)⟩
  · obtain ⟨⟨r, hpwr⟩, halike⟩ := (slowCalWindow_step s.c hst hr hc).powered
    have hrun := slowCalWindow_counts s.c hst hr hc
    have hout : (slowCalWindow s.c cycles s.d).pwr.calOut = decide (500000 < (windowOfs cycles).natAbs) := congrArg Pwr.calOut hpwr
    refine ⟨_, rfl, congrArg Pwr.calValid hpwr, congrArg Pwr.xt32 hpwr, congrArg Pwr.calOfs hpwr, ?_, fun h => ?_, fun h => ?_, halike⟩
    · rw [hpwr]
      exact decide_eq_true_iff
    · rw [hrun, if_pos (of_decide_eq_true (hout.symm.trans h))]
      exact fault_opened_after s.c 0 0x66 1 0 0 false false rfl rfl (by decide)
    · rw [hrun, if_neg (of_decide_eq_false (hout.symm.trans h))]
      exact (clears_closed (s.d.calibrated cycles) 0 [0x66]).of rfl rfl
  · obtain ⟨hok, hlevel, halike⟩ := vaoLow_shows s.c lv s.d
    refine ⟨_, rfl, hok, hlevel, fun hst hr => ?_, fun hst hr => ?_, halike⟩
    · exact (fldFault_opened s.c 0 0x62 1 false false (s.d.withVao false lv) hst hr (by decide)).of rfl rfl rfl
    · rw [vaoLow_raises, fldFault_dormant s.c 0 0x62 1 false false (d := s.d.withVao false lv) hr hst]
      rfl
  · obtain ⟨⟨r, hpwr⟩, halike⟩ := (clears_step (s.d.withVao true lv) 0 [0x62]).powered
    exact ⟨(s.d.withVao true lv).clears 0 [0x62], rfl, congrArg Pwr.vaoOk hpwr, congrArg Pwr.vaoLevel hpwr,
      (clears_closed (s.d.withVao true lv) 0 [0x62]).of rfl rfl, halike⟩

/-- The module without a late record of V33A. -/
def Dyn.v33aNotLate (d : Dyn) : Dyn := { d with fld := { d.fld with late := d.fld.late.filter (fun r => r.2.1 != 0x63) } }

/-- V33A in range again closes its record, and the excited descriptors of every enabled bank settle anew (R96, R148). -/
theorem v33aInRange_open (c : Cfg) {d : Dyn} (h : d.openCode 0 [0x63] = true) :
    v33aInRange c d = forEach ((List.range c.fx.nBanks).filter c.bankEn) (d.v33aNotLate.clears 0 [0x63]) (fun b d => setPending c b (fun _ => true) d) :=
  if_pos h

/-- Without an open record only a late one is withdrawn. -/
theorem v33aInRange_closed (c : Cfg) {d : Dyn} (h : d.openCode 0 [0x63] = false) : v33aInRange c d = d.v33aNotLate :=
  if_neg (fun hopen => Bool.false_ne_true (h.symm.trans hopen))

/-- V33A that is out already, or in reset, or noted for the wake, changes nothing. -/
theorem v33aOut_idle (c : Cfg) {d : Dyn} (h : d.openCode 0 [0x63] = true ∨ d.pwr.resetFrom ≠ none ∨ d.fld.late.contains (0, 0x63, 3) = true) : v33aOut c d = d :=
  if_pos (by rwa [Option.isSome_iff_ne_none])

/-- Settles O16, by the invalid marks of V33A_OUT and by the settle-pending marks of V33A_IN_RANGE. -/
theorem analogSupply : Obligations.AnalogSupply := by
  unfold Obligations.AnalogSupply
  intro s waits fld'
  refine ⟨fun hopen hr hw hst => ?_, fun hopen hr hw hst => next_dyn ((v33aOut_eq s hopen hr hw).trans (if_pos hst)), fun h => next_dyn (v33aOut_idle s.c h),
    fun hopen => next_dyn (v33aInRange_closed s.c hopen), fun hopen => ?_⟩
  · obtain ⟨hrec, hchan, hcell, hkept⟩ := v33aFlag_spec s hopen
    refine ⟨_, next_dyn ((v33aOut_eq s hopen hr hw).trans (if_neg hst)), hrec, fun k hk hen => ?_, fun k hk => (hchan k).trans (if_neg hk), hcell, hkept⟩
    rw [hchan, if_pos ⟨hk, hen⟩]
    exact ⟨rfl, rfl, rfl, rfl⟩
  · obtain ⟨⟨a, hall⟩, hdesc⟩ := pendingAll s.c ((List.range s.c.fx.nBanks).filter s.c.bankEn) (s.d.v33aNotLate.clears 0 [0x63])
    obtain ⟨f, hclears, -⟩ := clears_flt s.d.v33aNotLate 0 [0x63]
    refine ⟨_, next_dyn (v33aInRange_open s.c hopen), ?_, ?_, ?_, fun k => ?_⟩
    · exact (clears_closed s.d.v33aNotLate 0 [0x63]).of rfl (by rw [hall])
    · rw [hall, hclears]
      rfl
    · rw [hall, hclears]
      rfl
    · have hsame : (s.d.v33aNotLate.clears 0 [0x63]).desc k = s.d.desc k := by rw [hclears]; rfl
      rw [hdesc, hsame]
      exact if_congr (by simp [and_assoc]) rfl rfl

end Sys2Proof.Machine
end

section
/-! The steps of BOOT: the flash, the candidates and the checkpoint (R98, R99, R110, R111, R123, R534). -/

namespace Sys2Proof.Machine

open Sys2Proof

theorem clocksRun_boot {d : Dyn} (hst : d.glb.st = .boot) (hr : d.pwr.resetFrom = none) : clocksRun d = { d with pwr := { d.pwr with fast := true } } :=
  if_pos ⟨hst, by rw [hr]; rfl⟩

@[simp] theorem clocksRun_cfg (d : Dyn) : (clocksRun d).cfg = d.cfg := by unfold clocksRun; split <;> rfl

@[simp] theorem clocksRun_booting (d : Dyn) : (clocksRun d).booting = d.booting := by unfold clocksRun; split <;> rfl

theorem flashDiscovery_again (c : Cfg) (r : FlashReport) {d : Dyn} (h : d.cfg.found = true) : flashDiscovery c r d = clocksRun d := by
  simp [flashDiscovery, h]

/-- A flash without the signature (R98). -/
theorem flashDiscovery_unsigned (c : Cfg) {r : FlashReport} {d : Dyn} (hb : d.booting = true) (h : d.cfg.found = false) (hs : sfdpOk r.sfdp = false) :
    flashDiscovery c r d = { clocksRun d with cfg := { d.cfg with found := true, firstRefusal := 0x104F } } := by
  simp [flashDiscovery, h, hb, hs]

theorem outN_iff (x lo hi : Nat) : outN x lo hi = true ↔ x < lo ∨ hi < x := by simp [outN]

/-- A flash of a size that R98 refuses. -/
theorem flashDiscovery_size (c : Cfg) {r : FlashReport} {d : Dyn} (hb : d.booting = true) (h : d.cfg.found = false) (hs : sfdpOk r.sfdp = true)
    (hsize : outN (flashOf r.sfdp).cap (2 ^ 20) (2 ^ 26) = true) :
    flashDiscovery c r d = { clocksRun d with cfg := { d.cfg with found := true, firstRefusal := 0x1050 } } := by
  simp only [flashDiscovery, clocksRun_booting, clocksRun_cfg, hb, h, hs, hsize]
  rfl

/-- The bytes of a slot: what the module knows of it from before, or what the flash was delivered with (log entry 80). -/
def slotBytes (kept : Bool) (len : Nat) (old : Slot) (delivered : List Byte) : List Byte := (if kept = true then old.bytes else delivered).take len

/-- The candidates: the slots with a good header, the higher generation first, A first on equal ones (R110). -/
def candidateOrder (a b : Slot) : List Nat := (if a.gen < b.gen then [1, 0] else [0, 1]).filter (fun i => (if i = 0 then a.state else b.state) == 1)

theorem candidateOrder_first {a b : Slot} (ha : a.state = 1) (hb : b.state ≠ 1) : candidateOrder a b = [0] := by
  unfold candidateOrder
  split <;> simp [ha, hb]

theorem candidateOrder_second {a b : Slot} (hb : b.state = 1) (ha : a.state ≠ 1) : candidateOrder a b = [1] := by
  unfold candidateOrder
  split <;> simp [ha, hb]

theorem candidateOrder_both {a b : Slot} (ha : a.state = 1) (hb : b.state = 1) : candidateOrder a b = if a.gen < b.gen then [1, 0] else [0, 1] := by
  unfold candidateOrder
  split <;> simp [ha, hb]

theorem candidateOrder_neither {a b : Slot} (ha : a.state ≠ 1) (hb : b.state ≠ 1) : candidateOrder a b = [] := by
  unfold candidateOrder
  split <;> simp [ha, hb]

/-- A flash that is used: its slots are read and the candidates stand; a header that is refused leaves its code and place (R98, R99, R110). -/
theorem flashDiscovery_slots (c : Cfg) {r : FlashReport} {d : Dyn} (hb : d.booting = true) (h : d.cfg.found = false) (hs : sfdpOk r.sfdp = true)
    (hsize : outN (flashOf r.sfdp).cap (2 ^ 20) (2 ^ 26) = false) :
    ∃ code typ entry off a b, a = readSlot c (flashOf r.sfdp).slotLen (slotBytes d.cfg.kept (flashOf r.sfdp).slotLen d.cfg.slotA r.slotA) ∧
      b = readSlot c (flashOf r.sfdp).slotLen (slotBytes d.cfg.kept (flashOf r.sfdp).slotLen d.cfg.slotB r.slotB) ∧
      flashDiscovery c r d = { clocksRun d with cfg := { d.cfg with
        lastReason := code, locType := typ, locEntry := entry, errOff := off, found := true, kept := true, slotA := a, slotB := b, cands := candidateOrder a b,
        firstRefusal := if a.state = 3 then a.reason else if b.state = 3 then b.reason else 0x1040, flash := flashOf r.sfdp } } := by
  simp only [flashDiscovery, clocksRun_booting, clocksRun_cfg, hb, h, hs, hsize]
  obtain ⟨c1, t1, e1, o1, h1⟩ := headerRefused_spec c (flashOf r.sfdp).slotLen (if d.cfg.kept then d.cfg.slotA.bytes else r.slotA) (clocksRun d)
  rw [h1]
  obtain ⟨c2, t2, e2, o2, h2⟩ := headerRefused_spec c (flashOf r.sfdp).slotLen (if d.cfg.kept then d.cfg.slotB.bytes else r.slotB)
    { clocksRun d with cfg := { (clocksRun d).cfg with lastReason := c1, locType := t1, locEntry := e1, errOff := o1 } }
  rw [h2, clocksRun_cfg]
  exact ⟨c2, t2, e2, o2, _, _, rfl, rfl, rfl⟩

@[simp] theorem putSlot_accepted (x : CfgSt) (i : Nat) (s : Slot) : (x.putSlot i s).accepted = x.accepted := by unfold CfgSt.putSlot; split <;> rfl

/-- The front candidate is refused: it is marked with its code, and the next one stands (R110). -/
theorem candidateStreamed_refused {s : State} {i : Nat} {rest : List Nat} {b : Bad} {e : Option Ent} (hboot : s.d.booting = true)
    (hc : s.d.cfg.cands = i :: rest) (ha : s.d.cfg.accepted = none)
    (hbad : (checkImage s.c s.d (i + 1) (imageBytes (s.d.cfg.slot i).bytes)).1 = some (b, e)) :
    candidateStreamed s = { s with d := refuseImage b e { s.d with cfg := { s.d.cfg.putSlot i { s.d.cfg.slot i with state := 3, reason := b.code } with
      cands := rest, tried := s.d.cfg.tried + 1, firstRefusal := if s.d.cfg.tried = 0 then b.code else s.d.cfg.firstRefusal } } } := by
  unfold candidateStreamed
  dsimp only
  rw [hboot, ha, hc]
  dsimp only
  generalize checkImage s.c s.d (i + 1) (imageBytes (s.d.cfg.slot i).bytes) = x at hbad ⊢
  obtain ⟨verdict, c'⟩ := x
  cases hbad
  rfl

/-- A fault raised unless a condition holds leaves the words of the configuration but for a HALT in BOOT. -/
theorem fault_unless_cfg (p : Prop) [Decidable p] (d : Dyn) (c : Cfg) (src code sev a b : Nat) (x y : Bool) :
    ∃ h, (if p then d else d.fault c src code sev a b x y).cfg = { d.cfg with bootHalt := h } := by
  split
  · exact ⟨_, rfl⟩
  · exact fault_cfg d c src code sev a b x y

/-- The front candidate is accepted: it is the running image, and its slot the protected one (R110, R121). -/
theorem candidateStreamed_accepted {s : State} {i : Nat} {rest : List Nat} (hboot : s.d.booting = true)
    (hc : s.d.cfg.cands = i :: rest) (ha : s.d.cfg.accepted = none)
    (hok : (checkImage s.c s.d (i + 1) (imageBytes (s.d.cfg.slot i).bytes)).1 = none) :
    (candidateStreamed s).c = (checkImage s.c s.d (i + 1) (imageBytes (s.d.cfg.slot i).bytes)).2 ∧
    ∃ g h, (candidateStreamed s).d.cfg = { s.d.cfg.putSlot i { s.d.cfg.slot i with state := 2, reason := 0 } with
      accepted := some i, prot := some i, cands := [], tried := s.d.cfg.tried + 1, fallback := decide (0 < s.d.cfg.tried), digest := g, lastReason := 0, bootHalt := h } := by
  unfold candidateStreamed
  dsimp only
  rw [hboot, ha, hc]
  dsimp only
  generalize checkImage s.c s.d (i + 1) (imageBytes (s.d.cfg.slot i).bytes) = x at hok ⊢
  obtain ⟨verdict, c'⟩ := x
  cases hok
  refine ⟨rfl, ?_⟩
  dsimp only
  obtain ⟨h3, e3⟩ := fault_unless_cfg (c'.img.boundOk c'.fx.id = true) _ c' 0x1000 0x1043 4 0 0 false false
  obtain ⟨h2, e2⟩ := fault_unless_cfg (s.d.cfg.tried = 0) _ c' 0x1000 0x1051 1 0 0 true true
  rw [e3, e2, acceptImage_cfg]
  exact ⟨_, _, rfl⟩

theorem candidateStreamed_idle {s : State} (h : s.d.cfg.cands = [] ∨ s.d.cfg.accepted ≠ none) : candidateStreamed s = s := by
  unfold candidateStreamed
  dsimp only
  split
  · rename_i hacc hcands
    rcases h with h | h
    · rw [h] at hcands; cases hcands
    · exact absurd hacc h
  · rfl

/-- Raising TIME_RESTARTED with its record leaves the state of the archive, the SEQ of its mount and the end of the checkpoint read (R534). -/
theorem timeRaised_kept (c : Cfg) (d : Dyn) (a b e f : Nat) : let t := timeRecord a b e f 1 (d.fault c 0 0x6D 1 0 0 true true)
    t.arc.state = d.arc.state ∧ t.arc.bootSeq = d.arc.bootSeq ∧ t.cfg.cpDone = d.cfg.cpDone := by
  obtain ⟨x, hx, hst, hseq⟩ := timeRecord_arc a b e f 1 (d.fault c 0 0x6D 1 0 0 true true)
  obtain ⟨h, hcfg⟩ := fault_cfg d c 0 0x6D 1 0 0 true true
  rw [fault_arc] at hst hseq
  rw [hx]
  exact ⟨hst, hseq, (congrArg CfgSt.cpDone hcfg :)⟩

theorem timeRestarted_kept (c : Cfg) (d : Dyn) : (timeRestarted c d).arc.state = d.arc.state ∧ (timeRestarted c d).arc.bootSeq = d.arc.bootSeq ∧
    (timeRestarted c d).cfg.cpDone = d.cfg.cpDone := by
  unfold timeRestarted
  split
  · exact timeRaised_kept c _ _ _ _ _
  · exact ⟨rfl, rfl, rfl⟩

/-- The checkpoint read of a BOOT that has not made it (R534). -/
theorem checkpointRead_due {d : Dyn} (hst : d.glb.st = .boot) (hr : d.pwr.resetFrom = none) (hcp : d.cfg.cpDone = false) :
    ¬(d.glb.st ≠ .boot ∨ d.cfg.cpDone = true ∨ d.pwr.resetFrom.isSome = true) := by simp [hst, hr, hcp]

/-- The end of the checkpoint read, with the archive that it leaves. -/
def Dyn.cpEnded (d : Dyn) (a : Arc) : Dyn := { d with cfg := { d.cfg with cpDone := true }, arc := a }

theorem checkpointRead_valid (c : Cfg) {d : Dyn} (hst : d.glb.st = .boot) (hr : d.pwr.resetFrom = none) (hcp : d.cfg.cpDone = false) :
    checkpointRead c .valid d = timeRestarted c (d.cpEnded { renumber d.arc.mark d.arc with state := 1, cpValid := true }) :=
  if_neg (checkpointRead_due hst hr hcp)

theorem checkpointRead_missing (c : Cfg) {d : Dyn} (hst : d.glb.st = .boot) (hr : d.pwr.resetFrom = none) (hcp : d.cfg.cpDone = false) :
    checkpointRead c .missing d =
      { d.cpEnded { d.arc with state := 1, cpValid := false } with tim := if d.tim.restart = true then { d.tim with epoch := 0 } else d.tim } :=
  if_neg (checkpointRead_due hst hr hcp)

theorem checkpointRead_noAnswer (c : Cfg) {d : Dyn} (hst : d.glb.st = .boot) (hr : d.pwr.resetFrom = none) (hcp : d.cfg.cpDone = false) :
    checkpointRead c .noAnswer d =
      (d.cpEnded { d.arc with state := 3, waitRecs := [], offline := satAdd 16 d.arc.offline d.arc.waitRecs.length }).fault c 0xF000 0xF067 2 0 0 false false :=
  if_neg (checkpointRead_due hst hr hcp)

theorem checkpointRead_again (c : Cfg) (r : CpRead) {d : Dyn} (h : d.cfg.cpDone = true) : checkpointRead c r d = d := if_pos (.inr (.inl h))

/-- Settles O10, by the cases of each step of BOOT. -/
theorem bootSteps : Obligations.BootSteps := by
  unfold Obligations.BootSteps
  intro r cp s hst hr d0 f
  have hboot : s.d.booting = true := booting_of hst hr
  have hd0 : clocksRun s.d = d0 := clocksRun_boot hst hr
  refine ⟨fun hfound => next_dyn ((flashDiscovery_again s.c r hfound).trans hd0), fun hfound hsig => ?_, fun hfound hsig hcap => ?_, fun hfound hsig hlo hhi => ?_,
    fun i rest b e hc ha hbad => ?_, fun i rest hc ha hok => ?_, fun hidle => congrArg Host.Outcome.next (candidateStreamed_idle hidle), fun hcp => ⟨?_, ?_, ?_⟩,
    fun hcp => next_dyn (checkpointRead_again s.c cp hcp)⟩
  · exact next_dyn ((flashDiscovery_unsigned s.c hboot hfound hsig).trans (by rw [hd0]))
  · exact next_dyn ((flashDiscovery_size s.c hboot hfound hsig ((outN_iff _ _ _).2 hcap)).trans (by rw [hd0]))
  · have hsize : outN f.cap (2 ^ 20) (2 ^ 26) = false := by
      rw [Bool.eq_false_iff, ne_eq, outN_iff]
      omega
    obtain ⟨code, typ, entry, off, a, b, hreadA, hreadB, hflash⟩ := flashDiscovery_slots s.c (r := r) hboot hfound hsig hsize
    rw [hd0] at hflash
    exact ⟨_, next_dyn hflash, rfl, rfl, rfl, hreadA, hreadB, candidateOrder_first, candidateOrder_second, candidateOrder_both, candidateOrder_neither, rfl, rfl⟩
  · refine ⟨_, congrArg Host.Outcome.next (candidateStreamed_refused hboot hc ha hbad), ?_⟩
    rw [refuseImage_cfg]
    have hslot := slot_put s.d.cfg i { s.d.cfg.slot i with state := 3, reason := b.code }
    exact ⟨rfl, (putSlot_accepted _ _ _).trans ha, rfl, rfl, congrArg Slot.state hslot, congrArg Slot.reason hslot⟩
  · obtain ⟨himg, g, h, hcfg⟩ := candidateStreamed_accepted hboot hc ha hok
    refine ⟨_, rfl, himg, ?_⟩
    rw [hcfg]
    exact ⟨rfl, rfl, rfl, congrArg Slot.state (slot_put s.d.cfg i { s.d.cfg.slot i with state := 2, reason := 0 }), decide_eq_true_iff⟩
  · obtain ⟨hstate, hseq, hdone⟩ := timeRestarted_kept s.c (s.d.cpEnded { renumber s.d.arc.mark s.d.arc with state := 1, cpValid := true })
    exact ⟨_, next_dyn (checkpointRead_valid s.c hst hr hcp), hdone, hstate, hseq⟩
  · exact ⟨_, next_dyn (checkpointRead_missing s.c hst hr hcp), rfl, rfl, rfl, fun hrestart => by rw [if_pos hrestart]⟩
  · obtain ⟨h, hcfg⟩ := fault_cfg (s.d.cpEnded { s.d.arc with state := 3, waitRecs := [], offline := satAdd 16 s.d.arc.offline s.d.arc.waitRecs.length }) s.c 0xF000 0xF067 2 0 0 false false
    refine ⟨_, next_dyn (checkpointRead_noAnswer s.c hst hr hcp), ?_, ?_, ?_, fault_opened_after s.c _ _ _ _ _ _ _ rfl rfl (by decide)⟩
    · rw [hcfg]
      rfl
    · rw [fault_arc]
      rfl
    · rw [fault_arc]
      rfl

end Sys2Proof.Machine
end

section
/-! Commits and write-backs (R113, R118 to R122, R560). -/

namespace Sys2Proof.Machine

open Sys2Proof

/-- A command that, where the host's write is taken, asks for a commit in a mode (R119). -/
def CommitRequest (s : State) (mode : Nat) (i : Instr) : Prop :=
  HostRuns 0x2000C true s → exec i s = .next { s with d := cfgTouch (commitCmd mode s.d) }

theorem exec_apply (s : State) : CommitRequest s 1 .apply := fun h => congrArg Host.Outcome.next (hostCmd_runs h _)
theorem exec_store (s : State) : CommitRequest s 2 .store := fun h => congrArg Host.Outcome.next (hostCmd_runs h _)
theorem exec_applyStore (s : State) : CommitRequest s 3 .applyStore := fun h => congrArg Host.Outcome.next (hostCmd_runs h _)

theorem commitCheckDone_none {s : State} (h : s.d.cfg.commit = none) : commitCheckDone s = s := by simp only [commitCheckDone, h]

theorem commitCheckDone_atPartner {s : State} {k : Commit} (h : s.d.cfg.commit = some k) (hp : k.toPartner = true) : commitCheckDone s = s := by
  simp only [commitCheckDone, h]
  exact if_pos hp

/-- A commit whose check fails: the session ends with the code, and nothing is applied (R113, R119). -/
theorem commitCheckDone_refused {s : State} {k : Commit} {b : Bad} {e : Option Ent} (h : s.d.cfg.commit = some k) (hp : k.toPartner = false)
    (hbad : (commitCheck s.c s.d k).1 = some (b, e)) : commitCheckDone s = { s with d := endCommit b.code (refuseImage b e s.d) } := by
  simp only [commitCheckDone, h, hp]
  generalize commitCheck s.c s.d k = x at hbad ⊢
  obtain ⟨verdict, c'⟩ := x
  cases hbad
  rfl

/-- A commit whose check passes goes to the partner of an ACTIVE in SYNC, and else it is done (R120, R560). -/
theorem commitCheckDone_passed {s : State} {k : Commit} (h : s.d.cfg.commit = some k) (hp : k.toPartner = false) (hok : (commitCheck s.c s.d k).1 = none) :
    commitCheckDone s = if s.d.glb.role = .active ∧ s.d.pair.state = 4 then { s with d := { s.d with cfg := { s.d.cfg with commit := some { k with toPartner := true } } } }
      else commitDo k (commitCheck s.c s.d k).2 s := by
  simp only [commitCheckDone, h, hp]
  generalize commitCheck s.c s.d k = x at hok ⊢
  obtain ⟨verdict, c'⟩ := x
  cases hok
  rfl

theorem commitCheckDone_solo {s : State} {k : Commit} (h : s.d.cfg.commit = some k) (hp : k.toPartner = false) (hok : (commitCheck s.c s.d k).1 = none)
    (hpair : s.d.pair.state ≠ 4) : exec .commitCheckDone s = .next (commitDo k (commitCheck s.c s.d k).2 s) :=
  congrArg Host.Outcome.next ((commitCheckDone_passed h hp hok).trans (if_neg (fun hsync => hpair hsync.2)))

theorem writebackComplete_none (c : Cfg) (e : FlashEvent) {d : Dyn} (h : d.cfg.wb = none) : writebackComplete c e d = d := by
  simp only [writebackComplete, h]

/-- A commit command, by the refusals of R119 in their order, or taken. -/
theorem commitRequest_cases {s : State} {mode : Nat} {i : Instr} (hrun : CommitRequest s mode i) (hhost : HostRuns 0x2000C true s) :
    (s.d.sessionOn = false → exec i s = .next { s with d := { s.d with cfg := { s.d.cfg with cmdResult := 0x1055, lastAccess := s.d.ms } } }) ∧
    (s.d.sessionOn = true → s.d.standby = true → exec i s = .next { s with d := { s.d with cfg := { s.d.cfg with cmdResult := 0x104D, lastAccess := s.d.ms } } }) ∧
    (s.d.sessionOn = true → s.d.standby = false → s.d.cfg.commit.isSome = true →
      exec i s = .next { s with d := { s.d with cfg := { s.d.cfg with cmdResult := 0x100C, lastAccess := s.d.ms } } }) ∧
    (s.d.sessionOn = true → s.d.standby = false → s.d.cfg.commit = none → 2 ≤ mode → s.d.cfg.wb.isSome = true →
      exec i s = .next { s with d := { s.d with cfg := { s.d.cfg with cmdResult := 0x104B, lastAccess := s.d.ms } } }) ∧
    (s.d.sessionOn = true → s.d.standby = false → s.d.cfg.commit = none → (mode = 1 ∨ s.d.cfg.wb = none) →
      ∃ k : Commit, k.mode = mode ∧ k.toPartner = false ∧ exec i s = .next { s with d := { s.d with cfg := { s.d.cfg with commit := some k, lastAccess := s.d.ms } } }) := by
  obtain ⟨hclosed, hstandby, hbusy, hwriting, htaken⟩ := commitCmd_spec mode s
  rw [hrun hhost]
  refine ⟨fun hses => by rw [hclosed hses]; rfl, fun hses hst => by rw [hstandby hses hst]; rfl, fun hses hst hk => by rw [hbusy hses hst hk]; rfl,
    fun hses hst hk hm hw => by rw [hwriting hses hst hk hm hw]; rfl, fun hses hst hk hfree => ?_⟩
  obtain ⟨k, hkm, hkp, hcmd⟩ := htaken hses hst hk (hfree.imp_left (by omega))
  exact ⟨k, hkm, hkp, by rw [hcmd]; rfl⟩

/-- Settles O19, by the refusals of a commit command, the outcome of a commit's check and the steps of a write-back. -/
theorem commits : Obligations.Commits := by
  unfold Obligations.Commits
  intro s req
  refine ⟨commitRequest_cases (exec_apply s), commitRequest_cases (exec_store s), commitRequest_cases (exec_applyStore s),
    fun h => congrArg Host.Outcome.next (commitCheckDone_none h), fun k h hp => congrArg Host.Outcome.next (commitCheckDone_atPartner h hp),
    fun k b e h hp hbad => ?_, fun k h hp hok hrole hpair => ?_, fun k h hp hok hpair hmode => ?_, fun k h hp hok hpair hmode himg => ?_,
    fun k h hp hok hpair hmode himg => ?_, fun e h => next_dyn (writebackComplete_none s.c e h), fun e w hw => ?_⟩
  · obtain ⟨hglb, hacc⟩ := refuseImage_st b e s.d
    exact ⟨_, congrArg Host.Outcome.next (commitCheckDone_refused h hp hbad), rfl, rfl, rfl, rfl, rfl, hglb, hacc⟩
  · exact congrArg Host.Outcome.next ((commitCheckDone_passed h hp hok).trans (if_pos ⟨hrole, hpair⟩))
  · obtain ⟨t, hdo, hleft⟩ := commitStore s k (commitCheck s.c s.d k).2 hmode
    exact ⟨t, (commitCheckDone_solo h hp hok hpair).trans (congrArg Host.Outcome.next hdo), hleft⟩
  · exact ⟨_, commitCheckDone_solo h hp hok hpair, commitApply s k _ hmode himg⟩
  · exact ⟨_, commitCheckDone_solo h hp hok hpair, applyFirst s k _ hmode himg⟩
  · intro r
    obtain ⟨hgood, hfailed⟩ := wbStep_end s.d.cfg.flash e (s.d.cfg.slot w.slot).bytes w
    exact ⟨_, rfl, hgood, hfailed, writebackStep s e w hw⟩

end Sys2Proof.Machine
end

section
/-! Excitation retries, stale channels, self-tests and list commits (R114, R140, R148, R157, R162, R166, R186). -/

namespace Sys2Proof.Machine

open Sys2Proof

/-- A retry whose time has not come, or that nothing asked for, changes nothing (R140). -/
theorem excRetry_early (c : Cfg) {b : Nat} {d : Dyn} (h : (d.bank b).retryAt = none ∨ ∃ t, (d.bank b).retryAt = some t ∧ d.ms < t) : excRetry c b d = d := by
  unfold excRetry
  rcases h with h | ⟨t, h, hearly⟩
  · simp only [h]
  · simp only [h]
    exact if_neg (by omega)

/-- A channel that is not enabled, not watched in the present state or within its limit (R186). -/
theorem channelStale_idle {c : Cfg} {k : Nat} (level : Nat → Nat) {d : Dyn}
    (h : c.chanEn k = false ∨ d.chanAge k ≤ staleLimit c d k ∨ d.glb.st = .dormant ∨ d.glb.st = .boot ∨ (d.glb.st = .scan ∧ inStorage d k = false)) :
    channelStale c k level d = d := by
  unfold channelStale
  by_cases hoff : (!c.chanEn k || d.glb.st == .dormant || d.glb.st == .boot) = true
  · exact if_pos hoff
  · rw [if_neg hoff]
    by_cases hscan : (d.glb.st == .scan && !inStorage d k) = true
    · exact if_pos hscan
    · rw [if_neg hscan]
      refine if_pos ?_
      rcases h with h | h | h | h | ⟨h, h'⟩
      · exact absurd (by simp [h]) hoff
      · exact h
      · exact absurd (by simp [h]) hoff
      · exact absurd (by simp [h]) hoff
      · exact absurd (by simp [h, h']) hscan

/-- A host's command that a STANDBY does not take runs on a module that is none. -/
theorem HostRuns.solo {a : Nat} {s : State} (h : HostRuns a false s) : s.d.standby = false := h.2.1.resolve_right Bool.false_ne_true

theorem exec_selftest {b : Nat} {s : State} (hb : b < s.c.fx.nBanks) (h : HostRuns (bankA b + 0x1C) false s) :
    exec (.selftest b) s = .next { s with d := selftestCmd s.c b s.d } := congrArg Host.Outcome.next ((if_pos hb).trans (hostCmd_runs h _))

theorem exec_lcommit {b : Nat} {s : State} (hb : b < s.c.fx.nBanks) (h : HostRuns (bankA b + 0x1C) false s) :
    exec (.lcommit b) s = .next { s with d := lcommitCmd s.c b s.d } := congrArg Host.Outcome.next ((if_pos hb).trans (hostCmd_runs h _))

theorem selftestCmd_starts {c : Cfg} {b : Nat} {d : Dyn} (hb : b < c.fx.nBanks) (hs : d.standby = false) :
    selftestCmd c b d = d.setBank b { d.bank b with selftest := true, cmdResult := 0 } :=
  (if_neg (by omega)).trans (if_neg (by simp [hs]))

/-- The code with which LCOMMIT is refused, 0 for none: a session that is open, a check of the bank that waits, no configuration (R114, R157). -/
def lcommitCode (c : Cfg) (b : Nat) (d : Dyn) : Nat :=
  if d.sessionOn then 0x400F else if d.checkingAt (bankA b + 0x1C) then 0x400C else if !c.img.ok then 0x400D else 0

theorem lcommitCmd_eq (c : Cfg) {b : Nat} (d : Dyn) (hb : b < c.fx.nBanks) :
    lcommitCmd c b d = if lcommitCode c b d = 0 then
        { d.setBank b { d.bank b with cmdResult := lcommitCode c b d } with cfg := { d.cfg with checks := d.cfg.checks ++ [{ addr := bankA b + 0x1C, val := 2 }] } }
      else d.setBank b { d.bank b with cmdResult := lcommitCode c b d } := if_neg (by omega)

/-- LCOMMIT that is refused shows its code and changes nothing else. -/
theorem lcommitCmd_refused {c : Cfg} {b n : Nat} {d : Dyn} (hb : b < c.fx.nBanks) (h : lcommitCode c b d = n) (hn : n ≠ 0) :
    lcommitCmd c b d = d.setBank b { d.bank b with cmdResult := n } := by
  rw [lcommitCmd_eq c d hb, h, if_neg hn]

/-- LCOMMIT that is taken queues the check of the lists behind the others (R114). -/
theorem lcommitCmd_queued {c : Cfg} {b : Nat} {d : Dyn} (hb : b < c.fx.nBanks) (h : lcommitCode c b d = 0) :
    lcommitCmd c b d = { d.setBank b { d.bank b with cmdResult := 0 } with cfg := { d.cfg with checks := d.cfg.checks ++ [{ addr := bankA b + 0x1C, val := 2 }] } } := by
  rw [lcommitCmd_eq c d hb, h, if_pos rfl]

/-- Settles O22, by the cases of each event and command of the front end. -/
theorem frontServices : Obligations.FrontServices := by
  unfold Obligations.FrontServices
  intro b k e1 e2 s
  refine ⟨fun t hretry hdue hlive hbank => ⟨_, rfl, excRetry_spec s.c b s.d t hretry hdue hlive hbank⟩, fun hearly => next_dyn (excRetry_early s.c hearly),
    fun hk hen hdorm hboot hscan hage => ?_, fun hk hidle => ?_, fun hk => congrArg Host.Outcome.next (if_neg (by omega)), fun hb hhost => ?_,
    fun hb hrun => ⟨_, rfl, selftest_spec b e1 e2 s.d.dioLevel s hb hrun⟩, fun hnone => congrArg Host.Outcome.next (selftest_none b e1 e2 s.d.dioLevel s hnone),
    fun hb hhost => ⟨fun hses hfree hok => ?_, fun hses => ?_, fun hses hbusy => ?_⟩⟩
  · exact ⟨_, congrArg Host.Outcome.next (if_pos hk), channelStale_spec s.c k s.d.dioLevel s.d hen hdorm hboot hscan hage hk⟩
  · exact congrArg Host.Outcome.next ((if_pos hk).trans (by rw [channelStale_idle s.d.dioLevel hidle]))
  · exact (exec_selftest hb hhost).trans (next_dyn (selftestCmd_starts hb hhost.solo))
  · exact (exec_lcommit hb hhost).trans (next_dyn (lcommitCmd_queued hb (by simp [lcommitCode, hses, hfree, hok])))
  · exact (exec_lcommit hb hhost).trans (next_dyn (lcommitCmd_refused hb (if_pos hses) (by decide)))
  · exact (exec_lcommit hb hhost).trans (next_dyn (lcommitCmd_refused hb (by simp [lcommitCode, hses, hbusy]) (by decide)))

end Sys2Proof.Machine
end

section
/-! The commands of a trace channel (R114, R321, R323, R324, R325, R327, R558). -/

namespace Sys2Proof.Machine

open Sys2Proof

theorem exec_traceArm {k : Nat} {s : State} (hk : k < 8) (h : HostRuns (trcA k + 0x18) true s) :
    exec (.traceArm k) s = .next { s with d := traceArm s.c k s.d } := congrArg Host.Outcome.next ((if_pos hk).trans (hostCmd_runs h _))

theorem exec_traceStop {k : Nat} {s : State} (hk : k < 8) (h : HostRuns (trcA k + 0x18) true s) :
    exec (.traceStop k) s = .next { s with d := traceStop k s.d } := congrArg Host.Outcome.next ((if_pos hk).trans (hostCmd_runs h _))

theorem exec_traceForce {k : Nat} {s : State} (hk : k < 8) (h : HostRuns (trcA k + 0x18) true s) :
    exec (.traceForce k) s = .next { s with d := traceForce k s.d } := congrArg Host.Outcome.next ((if_pos hk).trans (hostCmd_runs h _))

/-- The code with which ARM is refused, 0 for none: a channel that records, a session that is open, a check that waits (R114, R323). -/
def armCode (c : Cfg) (k : Nat) (d : Dyn) : Nat :=
  if (d.trc k).state = 2 ∨ (d.trc k).state = 3 ∨ !c.img.ok then 0xA00D else if d.sessionOn then 0xA00F
  else if d.checkingAt (trcA k + 0x18) || (d.trc k).arm then 0xA00C else 0

theorem armCode_recording {c : Cfg} {k : Nat} {d : Dyn} (h : (d.trc k).state = 2 ∨ (d.trc k).state = 3 ∨ c.img.ok = false) : armCode c k d = 0xA00D :=
  if_pos (by simpa using h)

theorem armCode_idle {c : Cfg} {k : Nat} {d : Dyn} (h2 : (d.trc k).state ≠ 2) (h3 : (d.trc k).state ≠ 3) (hok : c.img.ok = true) :
    armCode c k d = if d.sessionOn then 0xA00F else if d.checkingAt (trcA k + 0x18) || (d.trc k).arm then 0xA00C else 0 :=
  if_neg (by simp [h2, h3, hok])

theorem traceArm_eq (c : Cfg) {k : Nat} (d : Dyn) (hk : k < 8) :
    traceArm c k d = if armCode c k d = 0 then
        { d.setTrc k { d.trc k with cmdResult := armCode c k d } with cfg := { d.cfg with checks := d.cfg.checks ++ [{ addr := trcA k + 0x18, val := 3 }] } }
      else d.setTrc k { d.trc k with cmdResult := armCode c k d } := if_neg (by omega)

/-- ARM that is refused shows its code and changes nothing else. -/
theorem traceArm_refused {c : Cfg} {k n : Nat} {d : Dyn} (hk : k < 8) (h : armCode c k d = n) (hn : n ≠ 0) :
    traceArm c k d = d.setTrc k { d.trc k with cmdResult := n } := by
  rw [traceArm_eq c d hk, h, if_neg hn]

/-- ARM that is taken queues the check of the channel behind the others (R114, log entry 86). -/
theorem traceArm_queued {c : Cfg} {k : Nat} {d : Dyn} (hk : k < 8) (h : armCode c k d = 0) :
    traceArm c k d = { d.setTrc k { d.trc k with cmdResult := 0 } with cfg := { d.cfg with checks := d.cfg.checks ++ [{ addr := trcA k + 0x18, val := 3 }] } } := by
  rw [traceArm_eq c d hk, h, if_pos rfl]

theorem traceForce_armed {k : Nat} {d : Dyn} (hk : k < 8) (h : (d.trc k).state = 2) : traceForce k d = d.setTrc k { d.trc k with force := true, cmdResult := 0 } :=
  (if_neg (by omega)).trans (if_pos h)

theorem traceForce_refused {k : Nat} {d : Dyn} (hk : k < 8) (h : (d.trc k).state ≠ 2) : traceForce k d = d.setTrc k { d.trc k with cmdResult := 0xA00D } :=
  (if_neg (by omega)).trans (if_neg h)

theorem traceStop_idle {k : Nat} {d : Dyn} (hk : k < 8) (h2 : (d.trc k).state ≠ 2) (h3 : (d.trc k).state ≠ 3) :
    traceStop k d = d.setTrc k { d.trc k with cmdResult := 0 } := (if_neg (by omega)).trans (if_neg (by simp [h2, h3]))

theorem traceStop_recording {k : Nat} {d : Dyn} (hk : k < 8) (h : (d.trc k).state = 2 ∨ (d.trc k).state = 3) :
    traceStop k d = trcStop k 5 1 (d.setTrc k { d.trc k with cmdResult := 0 }) := (if_neg (by omega)).trans (if_pos h)

/-- The end of a recording: its state and its cause, the samples kept, an event and no record (R324). -/
theorem trcStop_spec (k st cause : Nat) (d : Dyn) :
    (trcStop k st cause d).trc k = { d.trc k with state := st, cause := cause, force := false } ∧ (∀ j, j ≠ k → (trcStop k st cause d).trc j = d.trc j) ∧
      (∀ m, (trcStop k st cause d).flt.find m = d.flt.find m) ∧ Alike { trcStop k st cause d with ctl := d.ctl } d := by
  have hstep := event_step (d.setTrc k { d.trc k with state := st, cause := cause, force := false }) (0xA300 + k) 0xA067 0 k cause
  refine ⟨(hstep.trc k).trans (setTrc_same _ _ _), fun j hj => (hstep.trc j).trans (setTrc_other _ _ _ _ hj), fun m => event_find _ _ _ _ _ _ m, ?_⟩
  exact congrArg (fun e : Dyn => ({ e with ctl := d.ctl } : Dyn)) hstep.alike

/-- The front check is the ARM of a channel (R114). -/
theorem enableCheckDone_arm {k : Nat} {rest : List Check} {s : State} (hk : k < 8) (h : s.d.cfg.checks = { addr := trcA k + 0x18, val := 3 } :: rest) :
    enableCheckDone s = armChecked k { s with d := { s.d with cfg := { s.d.cfg with checks := rest } } } := by
  have haddr : trcA k + 0x18 = 0x1A2018 + k * 0x40 := by unfold trcA; omega
  have hidx : (0x1A2018 + k * 0x40 - 0x1A2000) / 0x40 = k := by omega
  unfold enableCheckDone
  rw [h]
  dsimp only
  rw [haddr, if_neg (by omega), if_pos (by omega), hidx]

/-- What the end of an ARM's check leaves: the code of what Sage found, and the channel to arm where it found nothing. -/
theorem armChecked_code {k n : Nat} {s : State} (h : ((armBad (s.c.asWritten none) k).map (·.code)).getD 0 = n) :
    armChecked k s = { s with d := lastReason n (s.d.setTrc k { s.d.trc k with cmdResult := n, reason := n, arm := n == 0 }) } := by
  subst h
  rfl

/-- Settles O29, by the state of the channel that each command meets, and by what Sage finds at the end of ARM's check. -/
theorem traceCommands : Obligations.TraceCommands := by
  unfold Obligations.TraceCommands
  intro k s hk x put
  refine ⟨fun hhost => ⟨fun hrec => ?_, fun h2 h3 hok hses => ?_, fun h2 h3 hok hses hbusy => ?_, fun h2 h3 hok hses hfree harm => ?_, fun harmed => ?_, fun hst => ?_,
    fun h2 h3 => ?_, fun hrec => ?_⟩, fun rest hchecks => ?_⟩
  · exact (exec_traceArm hk hhost).trans (next_dyn (traceArm_refused hk (armCode_recording hrec) (by decide)))
  · exact (exec_traceArm hk hhost).trans (next_dyn (traceArm_refused hk ((armCode_idle h2 h3 hok).trans (if_pos hses)) (by decide)))
  · have hcode : armCode s.c k s.d = 0xA00C := (armCode_idle h2 h3 hok).trans ((if_neg (by simp [hses])).trans (if_pos (by simpa using hbusy)))
    exact (exec_traceArm hk hhost).trans (next_dyn (traceArm_refused hk hcode (by decide)))
  · have hcode : armCode s.c k s.d = 0 := (armCode_idle h2 h3 hok).trans ((if_neg (by simp [hses])).trans (if_neg (by simpa using ⟨hfree, harm⟩)))
    exact (exec_traceArm hk hhost).trans (next_dyn (traceArm_queued hk hcode))
  · exact (exec_traceForce hk hhost).trans (next_dyn (traceForce_armed hk harmed))
  · exact (exec_traceForce hk hhost).trans (next_dyn (traceForce_refused hk hst))
  · exact (exec_traceStop hk hhost).trans (next_dyn (traceStop_idle hk h2 h3))
  · obtain ⟨hsame, hother, hfind, halike⟩ := trcStop_spec k 5 1 (s.d.setTrc k { x with cmdResult := 0 })
    refine ⟨_, (exec_traceStop hk hhost).trans (next_dyn (traceStop_recording hk hrec)), hsame.trans (by rw [setTrc_same]),
      fun j hj => (hother j hj).trans (setTrc_other _ _ _ _ hj), hfind, ?_⟩
    exact congrArg (fun e : Dyn => ({ e with ctl := s.d.ctl } : Dyn)) halike
  · intro found
    have hdone : exec .enableCheckDone s = .next (armChecked k { s with d := { s.d with cfg := { s.d.cfg with checks := rest } } }) :=
      congrArg Host.Outcome.next (enableCheckDone_arm hk hchecks)
    obtain ⟨n, hn⟩ : ∃ n, (found.map (·.code)).getD 0 = n := ⟨_, rfl⟩
    refine ⟨_, hdone.trans (congrArg Host.Outcome.next (armChecked_code hn)), rfl, fun j hj => setTrc_other _ _ _ _ hj, fun hnone => ?_, fun y hy => ?_⟩
    · rw [hnone] at hn
      cases hn
      exact ⟨setTrc_same _ _ _, rfl⟩
    · rw [hy] at hn
      cases hn
      exact ⟨setTrc_same _ _ _, rfl⟩

end Sys2Proof.Machine
end

section
/-! Guard slots and the ends of visits (R140, R143, R148, R153, R154, R159, R182, R185). -/

namespace Sys2Proof.Machine

open Sys2Proof

/-- Where a guard slot begins a visit (R153): a guard descriptor, enabled, of a live enabled bank that is in no visit. -/
theorem guardSlot_begins_iff (k : Nat) (s : State) :
    (s.d.live s.c && s.c.bankEn (k / 64) && s.c.descEn k && s.c.descGuard k && (s.d.bank (k / 64)).visit.isNone) = true ↔
      s.d.live s.c = true ∧ s.c.bankEn (k / 64) = true ∧ s.c.descEn k = true ∧ s.c.descGuard k = true ∧ (s.d.bank (k / 64)).visit = none := by
  simp [and_assoc]

theorem guardSlotStart_idle {k : Nat} {s : State}
    (h : ¬(s.d.live s.c = true ∧ s.c.bankEn (k / 64) = true ∧ s.c.descEn k = true ∧ s.c.descGuard k = true ∧ (s.d.bank (k / 64)).visit = none)) :
    guardSlotStart k s = s := if_neg (mt (guardSlot_begins_iff k s).1 h)

theorem visitEnd_none {b : Nat} (m : VisitMeas) (mirror : Option MirrorVisit) (level : Nat → Nat) {s : State} (h : (s.d.bank b).visit = none) :
    visitEnd b m mirror level s = s := by
  simp only [visitEnd, h]

theorem visitEnd_visit {b : Nat} {v : Visit} (m : VisitMeas) (mirror : Option MirrorVisit) (level : Nat → Nat) {s : State} (h : (s.d.bank b).visit = some v) :
    visitEnd b m mirror level s = visitStart b (endVisit v.desc v m mirror level s) := by
  simp only [visitEnd, h]

/-- The scheduler's next visit leaves the registers as written, the channels and the counts of the visit that ended (R154). -/
theorem visitStart_keep (b k : Nat) (s : State) : (visitStart b s).c.reg.w = s.c.reg.w ∧ EndKeep k s.d (visitStart b s).d := by
  obtain ⟨hreg, -, -, -, hafe⟩ := visitStart_vis b s
  exact ⟨hreg, hafe.keep k⟩

/-- Settles O21: a guard slot by `beginVisit`; the end of a visit by what `endVisit` leaves, which the scheduler's next visit keeps. -/
theorem frontVisits : Obligations.FrontVisits := by
  unfold Obligations.FrontVisits
  intro b k m mirror s
  refine ⟨fun hlive hbank hen hguard hfree => ?_, fun hidle => congrArg Host.Outcome.next (guardSlotStart_idle hidle),
    fun hnone => congrArg Host.Outcome.next (visitEnd_none m mirror s.d.dioLevel hnone), fun v hvisit hdesc => ?_⟩
  · have hon : guardSlotStart k s = beginVisit k true s := guardSlotStart_on k s ((guardSlot_begins_iff k s).2 ⟨hlive, hbank, hen, hguard, hfree⟩)
    obtain ⟨v, hv, hk, hg, hwait⟩ := beginVisit_visit k true s
    obtain ⟨hreg, -, -, -, hafe⟩ := beginVisit_vis k true s
    exact ⟨_, v, congrArg Host.Outcome.next hon, hv, hk, hg, hreg, hwait, hafe.alike⟩
  · subst hdesc
    intro d0 verdict done c1 vs bad held
    obtain ⟨hstep, hreg, hsettled, hbad, hmirrorHeld, hmirror, hnoMirror⟩ := endVisit_spec v m mirror s.d.dioLevel s d0 rfl
    obtain ⟨hregNext, hstepNext, hchan⟩ := visitStart_keep (v.desc / 64) v.desc (endVisit v.desc v m mirror s.d.dioLevel s)
    obtain ⟨hvisits, hother, hfld, hmst, hctl⟩ := hstep.trans hstepNext
    have hcount : (d0.bank (v.desc / 64)).visits = ((s.d.bank (v.desc / 64)).visits + 1) % 2 ^ 32 := congrArg Bank.visits (setBank_same s.d (v.desc / 64) _)
    refine ⟨_, congrArg Host.Outcome.next (visitEnd_visit m mirror s.d.dioLevel hvisit), (hvisits _).trans hcount, hregNext.trans hreg, ?_⟩
    rw [hchan]
    refine ⟨fun hactive hgood => ?_, hbad, hmirrorHeld, fun mv hstandby hmv huns => ?_, hnoMirror, hother, hfld, hmst, hctl⟩
    · obtain ⟨hconv, hinvalid⟩ := hsettled hactive hgood
      exact ⟨congrArg (fun d : Dyn => d.chan v.desc) hconv, hinvalid⟩
    · obtain ⟨⟨e, he, hconv⟩, hinvalid⟩ := hmirror mv hstandby hmv huns
      exact ⟨⟨e, he.2, congrArg (fun d : Dyn => d.chan v.desc) hconv⟩, hinvalid⟩

end Sys2Proof.Machine
end

section
/-! The RTD conversion, the stale limit and the calibration commands of a moisture cell (R206, R207, R213, R221, R237). -/

namespace Sys2Proof.Machine

open Sys2Proof

/-- Where a cell's RTD conversion counts: the cell is enabled and the module, no STANDBY, measures (R207, R231). -/
def RtdRuns (c : Cfg) (n : Nat) (d : Dyn) : Prop := c.cellEn n = true ∧ d.standby = false ∧ d.glb.st ≠ .dormant ∧ d.glb.st ≠ .boot

/-- Where a conversion of the RTD fails by itself (R207). -/
def RtdFails (sense : Int) (comp : Bool) : Prop := comp = true ∨ sense < 25000 ∨ 2450000 < sense

/-- The temperature of a conversion with the sensor's resistance at 0 °C that the cartridge holds (R207). -/
def rtdTemp (n : Nat) (raw : Int) (d : Dyn) : Option Int := ptTemp (qOhm raw 0 262144000) (rdivI ((((d.ctg n).le 0x14 4 : Nat) : Int) * 65536) 1000)

theorem rtdRuns_guard (c : Cfg) (n : Nat) (d : Dyn) : (!c.cellEn n || d.standby || d.glb.st == .dormant || d.glb.st == .boot) = false ↔ RtdRuns c n d := by
  simp [RtdRuns, and_assoc]

theorem rtdConversion_idle {c : Cfg} {n : Nat} (raw sense : Int) (comp : Bool) {d : Dyn} (h : ¬RtdRuns c n d) : rtdConversion c n raw sense comp d = d :=
  if_pos (Bool.of_not_eq_false (mt (rtdRuns_guard c n d).1 h))

theorem rtdConversion_runs {c : Cfg} {n : Nat} {raw sense : Int} {comp : Bool} {d : Dyn} (hrun : RtdRuns c n d) (hok : ¬RtdFails sense comp) :
    rtdConversion c n raw sense comp d = (rtdTemp n raw d).elim d (fun v => d.setCell n { d.cell n with rtd := some v, rtdAt := d.ms }) := by
  unfold RtdFails at hok
  unfold rtdConversion rtdTemp
  rw [if_neg (ne_true_of_eq_false ((rtdRuns_guard c n d).2 hrun))]
  dsimp only
  rw [if_neg hok]
  cases ptTemp _ _ <;> rfl

theorem rtdConversion_failed (c : Cfg) (n : Nat) (raw : Int) {sense : Int} {comp : Bool} (d : Dyn) (h : RtdFails sense comp) : rtdConversion c n raw sense comp d = d := by
  unfold RtdFails at h
  unfold rtdConversion
  split <;> rfl

/-- A conversion without a temperature leaves the latest result (R207). -/
theorem rtdConversion_none (c : Cfg) {n : Nat} {raw : Int} (sense : Int) (comp : Bool) {d : Dyn} (h : rtdTemp n raw d = none) : rtdConversion c n raw sense comp d = d := by
  by_cases hrun : RtdRuns c n d
  · by_cases hfail : RtdFails sense comp
    · exact rtdConversion_failed c n raw d hfail
    · rw [rtdConversion_runs hrun hfail, h, Option.elim_none]
  · exact rtdConversion_idle raw sense comp hrun

theorem rtdConversion_some {c : Cfg} {n : Nat} {raw sense v : Int} {comp : Bool} {d : Dyn} (hrun : RtdRuns c n d) (hok : ¬RtdFails sense comp)
    (h : rtdTemp n raw d = some v) : rtdConversion c n raw sense comp d = d.setCell n { d.cell n with rtd := some v, rtdAt := d.ms } := by
  rw [rtdConversion_runs hrun hok, h, Option.elim_some]

/-- A cell past its stale limit (R221). -/
def CellPastLimit (c : Cfg) (n : Nat) (d : Dyn) : Prop :=
  c.cellEn n = true ∧ (d.glb.st = .run ∨ d.glb.st = .safe) ∧ cellStaleLimit c n < d.ms - (d.cell n).at_

/-- A cell that keeps its state past the limit: without a result yet, or being calibrated (R206, R213, log entry 92). -/
def Cell.outlasts (x : Cell) : Prop := x.state = 0 ∨ (x.state = 3 ∧ (x.cause = 10 ∨ x.cause = 12))

/-- A cell marked stale, with the state and the cause given. -/
def Cell.marked (x : Cell) (state cause : Nat) : Cell := { x with state := state, cause := cause, staleRec := true }

theorem cellStaleEv_idle {c : Cfg} {n : Nat} {d : Dyn} (h : ¬CellPastLimit c n d) : cellStaleEv c n d = d :=
  if_neg (by simpa [CellPastLimit, and_assoc] using h)

/-- Past the limit the mark is set, the verdict is STALE but for a cell that outlasts it, and the record is raised where the mark was not set (R221). -/
theorem cellStaleEv_past {c : Cfg} {n : Nat} {d : Dyn} (h : CellPastLimit c n d) :
    ∃ state cause, ((d.cell n).outlasts → state = (d.cell n).state ∧ cause = (d.cell n).cause) ∧ (¬(d.cell n).outlasts → state = 3 ∧ cause = 11) ∧
      cellStaleEv c n d = if (d.cell n).staleRec = true then d.setCell n ((d.cell n).marked state cause)
        else (d.setCell n ((d.cell n).marked state cause)).fault c (0x6000 + n) 0x6066 1 0 0 false false :=
  ⟨_, _, fun hkeep => ⟨if_pos hkeep, if_pos hkeep⟩, fun hkeep => ⟨if_neg hkeep, if_neg hkeep⟩, if_pos (by simpa [CellPastLimit, and_assoc] using h)⟩

/-- A stale cell changes alone; the books hold one more record, where its mark was not set. -/
theorem cellStaleEv_marked {c : Cfg} {n : Nat} {d : Dyn} (h : CellPastLimit c n d) :
    ∃ state cause, ((d.cell n).outlasts → state = (d.cell n).state ∧ cause = (d.cell n).cause) ∧ (¬(d.cell n).outlasts → state = 3 ∧ cause = 11) ∧
      (cellStaleEv c n d).cell n = (d.cell n).marked state cause ∧ FltStep (d.setCell n ((d.cell n).marked state cause)) (cellStaleEv c n d) ∧
      ((d.cell n).staleRec = true → (cellStaleEv c n d).flt = d.flt) ∧
      (n < 8 → (d.cell n).staleRec = false → Opened d (cellStaleEv c n d) (0x6000 + n) 0x6066 1 0 0 false false) := by
  obtain ⟨state, cause, hkeep, hstale, heq⟩ := cellStaleEv_past h
  refine ⟨state, cause, hkeep, hstale, ?_⟩
  rw [heq]
  by_cases hmark : (d.cell n).staleRec = true
  · rw [if_pos hmark]
    exact ⟨setCell_same _ _ _, FltStep.refl _, fun _ => rfl, fun _ hnot => by rw [hmark] at hnot; cases hnot⟩
  · rw [if_neg hmark]
    have hbooks := fault_step (d.setCell n ((d.cell n).marked state cause)) c (0x6000 + n) 0x6066 1 0 0 false false
    exact ⟨(hbooks.cell n).trans (setCell_same _ _ _), hbooks, fun hnot => absurd hnot hmark, fun hn _ => fault_opened_after c _ _ _ _ _ _ _ rfl rfl (by omega)⟩

/-! The commands of a cell's calibration: each names the code of its refusal, 0 for none. -/

theorem exec_calOpen {n : Nat} {s : State} (hn : n < s.c.fx.nCells) (h : HostRuns (cellA n + 0x180) false s) :
    exec (.calOpen n) s = .next { s with d := calCmd s.c n 0 s.d } := congrArg Host.Outcome.next ((if_pos hn).trans (hostCmd_runs h _))

theorem exec_calShort {n : Nat} {s : State} (hn : n < s.c.fx.nCells) (h : HostRuns (cellA n + 0x180) false s) :
    exec (.calShort n) s = .next { s with d := calCmd s.c n 1 s.d } := congrArg Host.Outcome.next ((if_pos hn).trans (hostCmd_runs h _))

theorem exec_calClear {n : Nat} {s : State} (hn : n < s.c.fx.nCells) (h : HostRuns (cellA n + 0x180) false s) :
    exec (.calClear n) s = .next { s with d := calClearCmd s.c n s.d } := congrArg Host.Outcome.next ((if_pos hn).trans (hostCmd_runs h _))

theorem calCode_running {c : Cfg} {d : Dyn} {n : Nat} (calib : Bool) (h : (d.cell n).cal ≠ none) : calCode c d n calib = 0x6046 :=
  if_pos (Option.isSome_iff_ne_none.2 h)

theorem calCode_free {c : Cfg} {d : Dyn} {n : Nat} (calib : Bool) (h : (d.cell n).cal = none) (hs : d.standby = false) :
    calCode c d n calib = if c.cellEn n = false then 0x6003 else if calib = true ∧ (d.ctg n).state ≠ 0 then 0x6044 else 0 := by
  simp [calCode, h, hs]

theorem calCmd_refused {c : Cfg} {n k : Nat} (kind : Nat) {d : Dyn} (hn : n < c.fx.nCells) (h : calCode c d n true = k) (hk : k ≠ 0) :
    calCmd c n kind d = d.setCell n { d.cell n with calResult := k } := by
  subst h
  exact (if_neg (by omega)).trans (if_neg hk)

theorem calCmd_taken {c : Cfg} {n : Nat} (kind : Nat) {d : Dyn} (hn : n < c.fx.nCells) (h : calCode c d n true = 0) :
    calCmd c n kind d = d.setCell n { d.cell n with calResult := 0, cal := some { kind := kind + 1, got := [], started := false } } :=
  (if_neg (by omega)).trans (if_pos h)

theorem calClearCmd_eq {c : Cfg} {n k : Nat} {d : Dyn} (hn : n < c.fx.nCells) (h : calCode c d n false = k) :
    calClearCmd c n d = d.setCell n { d.cell n with calResult := k, calClear := (d.cell n).calClear || k == 0 } := by
  subst h
  exact if_neg (by omega)

theorem calClearCmd_refused {c : Cfg} {n k : Nat} {d : Dyn} (hn : n < c.fx.nCells) (h : calCode c d n false = k) (hk : k ≠ 0) :
    calClearCmd c n d = d.setCell n { d.cell n with calResult := k } := by
  rw [calClearCmd_eq hn h, beq_false_of_ne hk, Bool.or_false]

theorem calClearCmd_taken {c : Cfg} {n : Nat} {d : Dyn} (hn : n < c.fx.nCells) (h : calCode c d n false = 0) :
    calClearCmd c n d = d.setCell n { d.cell n with calResult := 0, calClear := true } := by
  rw [calClearCmd_eq hn h, beq_self_eq_true, Bool.or_true]

/-- Settles O24: the conversion and the limit by their cases, each calibration command by the code of its refusal. -/
theorem cellServices : Obligations.CellServices := by
  unfold Obligations.CellServices
  intro n raw sense comp s x temp runs fails
  refine ⟨fun h => next_dyn (rtdConversion_idle raw sense comp h), fun h => next_dyn (rtdConversion_failed s.c n raw s.d h),
    fun h => next_dyn (rtdConversion_none s.c sense comp h), fun v hrun hok hv => next_dyn (rtdConversion_some hrun hok hv), ?_, ?_⟩
  · intro stale keep
    refine ⟨fun h => next_dyn (cellStaleEv_idle h), fun h => ?_⟩
    obtain ⟨state, cause, hkeep, hverdict, hcell, hbooks, hsame, hopened⟩ := cellStaleEv_marked h
    obtain ⟨halike, hcells, -⟩ := (MStep.cell n s.d _).trans (hbooks.mcell n)
    refine ⟨_, rfl, ?_⟩
    rw [hcell]
    exact ⟨rfl, hkeep, hverdict, rfl, rfl, rfl, hsame, fun hn => hopened (ctgCell_lt hn), hcells, hbooks.ctg, halike⟩
  · intro hn hhost put
    have free := fun calib hcal => calCode_free (c := s.c) (d := s.d) (n := n) calib hcal hhost.solo
    rw [exec_calOpen hn hhost, exec_calShort hn hhost, exec_calClear hn hhost]
    refine ⟨fun hcal => ?_, fun hcal hen => ?_, fun hcal hen hctg => ?_, fun hcal hen hctg => ?_, fun hcal hen => ?_⟩
    · exact ⟨next_dyn (calCmd_refused 0 hn (calCode_running true hcal) (by decide)), next_dyn (calCmd_refused 1 hn (calCode_running true hcal) (by decide)),
        next_dyn (calClearCmd_refused hn (calCode_running false hcal) (by decide))⟩
    · have hcode : ∀ calib, calCode s.c s.d n calib = 0x6003 := fun calib => (free calib hcal).trans (if_pos hen)
      exact ⟨next_dyn (calCmd_refused 0 hn (hcode true) (by decide)), next_dyn (calCmd_refused 1 hn (hcode true) (by decide)),
        next_dyn (calClearCmd_refused hn (hcode false) (by decide))⟩
    · have hcode : calCode s.c s.d n true = 0x6044 := by rw [free true hcal]; simp [hen, hctg]
      exact ⟨next_dyn (calCmd_refused 0 hn hcode (by decide)), next_dyn (calCmd_refused 1 hn hcode (by decide))⟩
    · have hcode : calCode s.c s.d n true = 0 := by rw [free true hcal]; simp [hen, hctg]
      exact ⟨next_dyn (calCmd_taken 0 hn hcode), next_dyn (calCmd_taken 1 hn hcode)⟩
    · have hcode : calCode s.c s.d n false = 0 := by rw [free false hcal]; simp [hen]
      exact next_dyn (calClearCmd_taken hn hcode)

end Sys2Proof.Machine
end

section
/-! Sweeps of a moisture cell (R204, R205, R207, R213, R214, R220, R221). -/

namespace Sys2Proof.Machine

open Sys2Proof

/-- Where a sweep that ends counts: one is under way on an enabled cell, and the module, no STANDBY, is in RUN or SAFE (R204). -/
def SweepEnds (c : Cfg) (n : Nat) (d : Dyn) : Prop :=
  (d.cell n).sweeping = true ∧ c.cellEn n = true ∧ d.standby = false ∧ (d.glb.st = .run ∨ d.glb.st = .safe)

/-- The cell with its sweep counted (R204). -/
def Cell.swept (x : Cell) : Cell := { x with sweeping := false, sweeps := (x.sweeps + 1) % 2 ^ 32 }

/-- What a sweep of cell `n` delivers: the spots in use and the reference (R205). -/
def sweepRec (c : Cfg) (n : Nat) (m : SweepMeas) : SweepRec :=
  { gs := m.gs.take (c.cellK n) ++ [m.gref], bs := m.bs.take (c.cellK n) ++ [m.bref], drive := m.drive, ovf := m.ovf }

/-- No calibration has begun, so that a sweep belongs to the average (R213). -/
def Cell.averages (x : Cell) : Prop := ∀ k, x.cal = some k → k.started = false

/-- A sweep that ends is counted, and goes on to `t`. -/
def SweptTo (n : Nat) (d t : Dyn) : Prop :=
  (t.cell n).sweeping = false ∧ (t.cell n).sweeps = ((d.cell n).sweeps + 1) % 2 ^ 32 ∧ MStep n d t ∧ ∀ j, t.ctg j = d.ctg j

theorem sweptTo_setCell {n : Nat} {d : Dyn} {y : Cell} (h1 : y.sweeping = false) (h2 : y.sweeps = ((d.cell n).sweeps + 1) % 2 ^ 32) : SweptTo n d (d.setCell n y) := by
  unfold SweptTo
  rw [setCell_same]
  exact ⟨h1, h2, MStep.cell n d y, fun j => rfl⟩

/-- What acts on the cell with its sweep counted, and keeps the count. -/
theorem SweptTo.of {n : Nat} {d t : Dyn} (h1 : MStep n (d.setCell n (d.cell n).swept) t) (h2 : ∀ j, t.ctg j = d.ctg j)
    (h3 : (t.cell n).sweeping = false) (h4 : (t.cell n).sweeps = (d.cell n).swept.sweeps) : SweptTo n d t :=
  ⟨h3, h4, (MStep.cell n d _).trans h1, h2⟩

theorem sweepEnds_iff (c : Cfg) (n : Nat) (d : Dyn) :
    (!(d.cell n).sweeping || !c.cellEn n || d.standby || !(d.glb.st == .run || d.glb.st == .safe)) = false ↔ SweepEnds c n d := by
  simp [SweepEnds, and_assoc, or_iff_not_imp_left]

theorem sweepComplete_idle (st : Nat) {n : Nat} (m : SweepMeas) {s : State} (h : ¬SweepEnds s.c n s.d) : sweepComplete st n m s = s :=
  if_pos (Bool.of_not_eq_false (mt (sweepEnds_iff s.c n s.d).1 h))

theorem SweepEnds.guard {c : Cfg} {n : Nat} {d : Dyn} (h : SweepEnds c n d) :
    ¬(!(d.cell n).sweeping || !c.cellEn n || d.standby || !(d.glb.st == .run || d.glb.st == .safe)) = true :=
  ne_true_of_eq_false ((sweepEnds_iff c n d).2 h)

theorem sweepComplete_dropped (st : Nat) {n : Nat} (m : SweepMeas) {s : State} (h : SweepEnds s.c n s.d) (hd : (s.d.cell n).dropSweep = true) :
    sweepComplete st n m s = { s with d := s.d.setCell n { (s.d.cell n).swept with dropSweep := false } } :=
  (if_neg h.guard).trans (if_pos hd)

/-- A sweep of a calibration that has begun joins it; the sixteenth ends it (R213). -/
theorem sweepComplete_calibrates (st : Nat) {n : Nat} (m : SweepMeas) {s : State} {k : CalRun} (h : SweepEnds s.c n s.d) (hd : (s.d.cell n).dropSweep = false)
    (hk : (s.d.cell n).cal = some k) (hstarted : k.started = true) :
    sweepComplete st n m s = if 16 ≤ k.got.length + 1 then calDone st n { k with got := k.got ++ [sweepRec s.c n m] } { s with d := s.d.setCell n (s.d.cell n).swept }
      else { s with d := s.d.setCell n { (s.d.cell n).swept with cal := some { k with got := k.got ++ [sweepRec s.c n m] } } } := by
  obtain ⟨kind, got, started⟩ := k
  subst hstarted
  unfold sweepComplete
  extract_lets x run x1 r
  rw [if_neg h.guard, if_neg (by simp [x, hd]), show x.cal = _ from hk]
  dsimp only
  rw [List.length_append]
  rfl

/-- A sweep without a calibration that has begun joins the average; the last gives the result (R205). -/
theorem sweepComplete_averages (st : Nat) {n : Nat} (m : SweepMeas) {s : State} (h : SweepEnds s.c n s.d) (hd : (s.d.cell n).dropSweep = false)
    (hw : (s.d.cell n).averages) :
    sweepComplete st n m s = if s.c.cellAvg n ≤ (s.d.cell n).got.length + 1 then
        { s with d := moistureResult s.c n st ((s.d.cell n).got ++ [sweepRec s.c n m]) (s.d.setCell n (s.d.cell n).swept) }
      else { s with d := s.d.setCell n { (s.d.cell n).swept with got := (s.d.cell n).got ++ [sweepRec s.c n m] } } := by
  unfold sweepComplete
  extract_lets x run x1 r
  rw [if_neg h.guard, if_neg (by simp [x, hd])]
  split
  next kind l hcal => exact absurd (hw _ hcal) (by simp)
  next =>
    rw [List.length_append]
    rfl

theorem moistureResult_swept (c : Cfg) (n st : Nat) (got : List SweepRec) (d : Dyn) :
    SweptTo n d (moistureResult c n st got (d.setCell n (d.cell n).swept)) := by
  cases hg : c.grain (c.cellCurve n) with
  | none =>
    have hnone : moistureResult c n st got (d.setCell n (d.cell n).swept) =
        (d.setCell n (d.cell n).swept).setCell n { (d.cell n).swept with got := [], ctgChange := false } := by
      unfold moistureResult
      rw [hg, setCell_same]
    rw [hnone]
    exact SweptTo.of (MStep.cell _ _ _) (fun j => rfl) (by rw [setCell_same]; rfl) (by rw [setCell_same])
  | some g =>
    have hres := moistureResult_spec c n st got d (d.setCell n (d.cell n).swept) g hg rfl rfl rfl
    rw [setCell_same] at hres
    obtain ⟨hstep, hctg, hsweeping, hsweeps, -⟩ := hres
    exact SweptTo.of hstep hctg hsweeping hsweeps

theorem ownSet_le (c : Cfg) (d : Dyn) : ownSet c d ≤ 1 := by
  unfold ownSet
  split <;> omega

theorem calDone_swept {st : Nat} (hst : st ≤ 1) (n : Nat) (k : CalRun) (s : State) :
    SweptTo n s.d (calDone st n k { s with d := s.d.setCell n (s.d.cell n).swept }).d := by
  obtain ⟨hstep, hctg, -, -, -, hsweeping, hsweeps, -⟩ := calDone_spec st n k { s with d := s.d.setCell n (s.d.cell n).swept } hst _ rfl
  rw [setCell_same] at hsweeping hsweeps
  exact SweptTo.of hstep hctg hsweeping hsweeps

theorem Cell.averages_or (x : Cell) : x.averages ∨ ∃ k, x.cal = some k ∧ k.started = true := by
  by_cases h : x.averages
  · exact .inl h
  · unfold Cell.averages at h
    push Not at h
    obtain ⟨k, hk, hstarted⟩ := h
    exact .inr ⟨k, hk, Bool.eq_true_of_not_eq_false hstarted⟩

/-- Wherever it goes, a sweep that ends is counted, and touches its own cell and the books alone (R204). -/
theorem sweepComplete_swept {st n : Nat} (hst : st ≤ 1) (m : SweepMeas) {s : State} (h : SweepEnds s.c n s.d) : SweptTo n s.d (sweepComplete st n m s).d := by
  cases hd : (s.d.cell n).dropSweep with
  | true =>
    rw [sweepComplete_dropped st m h hd]
    exact sweptTo_setCell rfl rfl
  | false =>
    rcases (s.d.cell n).averages_or with hw | ⟨k, hk, hstarted⟩
    · rw [sweepComplete_averages st m h hd hw]
      split
      · exact moistureResult_swept _ _ _ _ _
      · exact sweptTo_setCell rfl rfl
    · rw [sweepComplete_calibrates st m h hd hk hstarted]
      split
      · exact calDone_swept hst _ _ _
      · exact sweptTo_setCell rfl rfl

/-- Settles O23: the sweep is counted wherever it goes; the average's result by the order of its causes, the calibration's end by what it stores. -/
theorem cellSweeps : Obligations.CellSweeps := by
  unfold Obligations.CellSweeps
  intro n m s x waits r
  refine ⟨fun h => congrArg Host.Outcome.next (sweepComplete_idle _ m ?_), fun hsweep hen hstandby hrun => ?_⟩
  · rintro ⟨hsweep, hen, hstandby, hrun⟩
    rcases h with h | h | h | ⟨hnotRun, hnotSafe⟩
    · exact Bool.noConfusion (hsweep.symm.trans h)
    · exact Bool.noConfusion (hen.symm.trans h)
    · exact Bool.noConfusion (h.symm.trans hstandby)
    · exact hrun.elim hnotRun hnotSafe
  · have hends : SweepEnds s.c n s.d := ⟨hsweep, hen, hstandby, hrun⟩
    obtain ⟨hsweeping, hsweeps, ⟨halike, hcells, -⟩, hctgs⟩ := sweepComplete_swept (ownSet_le s.c s.d) m hends
    refine ⟨_, rfl, hsweeping, hsweeps, halike, hcells, hctgs, fun hd => sweepComplete_dropped _ m hends hd, fun hd hw hlen => ?_, fun hd hw hlen g hg => ?_,
      fun k hd hk hstarted hlen => ?_, fun k hd hk hstarted hlen => ?_⟩
    · exact (sweepComplete_averages _ m hends hd hw).trans (if_neg (Nat.not_le.2 hlen))
    · rw [(sweepComplete_averages _ m hends hd hw).trans (if_pos hlen)]
      obtain ⟨-, -, -, -, hgot, hstate, hdrive, hovf, hctg, hrtd, hinvalid, hvalid⟩ :=
        moistureResult_spec s.c n (ownSet s.c s.d) ((s.d.cell n).got ++ [sweepRec s.c n m]) s.d (s.d.setCell n (s.d.cell n).swept) g hg rfl rfl rfl
      rw [setCell_same] at hctg hrtd hinvalid hvalid
      exact ⟨rfl, hgot, hstate, hdrive, hovf, hctg, hrtd, hinvalid, hvalid⟩
    · exact (sweepComplete_calibrates _ m hends hd hk hstarted).trans (if_neg (by omega))
    · rw [(sweepComplete_calibrates _ m hends hd hk hstarted).trans (if_pos hlen)]
      obtain ⟨-, -, hcal, hstate, hcause, -, -, -, hwords⟩ := calDone_spec (ownSet s.c s.d) n { k with got := k.got ++ [sweepRec s.c n m] }
        { s with d := s.d.setCell n (s.d.cell n).swept } (ownSet_le s.c s.d) _ rfl
      exact ⟨hcal, hstate, hcause, hwords⟩

end Sys2Proof.Machine
end

section
/-! Polls, quarters of flow, retries, rereads and faults of a cartridge's identity line (R224, R225, R228, R240, R242). -/

namespace Sys2Proof.Machine

open Sys2Proof

/-- A transaction of `kind` at its start (R224). -/
def startTx (kind row : Nat) : Option CtgTx := some { kind := kind, row := row, attempts := 0, data := [], stale := false }

/-- The entry of a line with a poll that waits (R225). -/
def Ctg.polled (x : Ctg) : Ctg := { x with wantPoll := true }

/-- The entry of a line whose cartridge has seen another quarter of an hour of flow (R228). -/
def Ctg.quartered (x : Ctg) : Ctg := { x with acc := x.acc - 900000, pend := min 255 (x.pend + 1), wantIncr := true }

theorem Ctg.quartered_line (x : Ctg) : x.quartered.lineFault = x.lineFault ∧ x.quartered.tx = x.tx ∧ x.quartered.state = x.state ∧ x.quartered.retryAt = x.retryAt := by
  unfold Ctg.quartered
  exact ⟨rfl, rfl, rfl, rfl⟩

/-- The entry of a line whose time for a retry has come (R228). -/
def Ctg.retried (x : Ctg) : Ctg := { x with retryAt := none }

/-- The entry of a line with a full read that waits, the cartridge not accepted until it ends (R225). -/
def Ctg.reading (x : Ctg) : Ctg := { x with wantRead := true, state := 1 }

/-- The entry of a line held low (R242). -/
def Ctg.heldLow (x : Ctg) : Ctg := { x with lineFault := true, tx := none, reason := 0x7067, wantRead := true }

/-- The line's entry is `y`, from which a transaction may have started; the rest, and the cell, are as before. -/
def LineTo (n : Nat) (d : Dyn) (y : Ctg) (t : Dyn) : Prop :=
  MStep n d t ∧ t.cell n = d.cell n ∧ t.flt = d.flt ∧ ∃ tx r p, t.ctg n = { y with tx := tx, wantRead := r, wantPoll := p }

theorem LineTo.entry {n : Nat} {d t : Dyn} {y : Ctg} (h : LineTo n d y t) : (t.ctg n).state = y.state ∧ (t.ctg n).acc = y.acc ∧ (t.ctg n).pend = y.pend ∧
    (t.ctg n).wantIncr = y.wantIncr ∧ (t.ctg n).retryAt = y.retryAt ∧ (t.ctg n).lineFault = y.lineFault ∧ (t.ctg n).result = y.result := by
  obtain ⟨-, -, -, tx, r, p, h⟩ := h
  rw [h]
  and_intros <;> rfl

theorem LineTo.frame {n : Nat} {d t : Dyn} {y : Ctg} (h : LineTo n d y t) :
    t.cell n = d.cell n ∧ t.flt = d.flt ∧ (∀ j, j ≠ n → t.ctg j = d.ctg j) ∧ (∀ j, j ≠ n → t.cell j = d.cell j) ∧ Alike { t with mst := d.mst } d := by
  obtain ⟨⟨halike, hcells, hctgs⟩, hcell, hflt, -⟩ := h
  exact ⟨hcell, hflt, hctgs, hcells, halike⟩

/-- A line that is held low, or busy, starts nothing (R224, R242). -/
theorem ctgNext_busy (c : Cfg) {n : Nat} {d : Dyn} (h : (d.ctg n).lineFault = true ∨ (d.ctg n).tx ≠ none) : ctgNext c n d = d :=
  if_pos (by rcases h with h | h <;> simp [h, Option.isSome_iff_ne_none])

/-- With nothing else to do, a line polls (R225). -/
theorem ctgNext_put_poll {c : Cfg} {n : Nat} {d : Dyn} {y : Ctg} (hrun : ctgRuns c d n = true) (hline : y.lineFault = false) (htx : y.tx = none)
    (hincr : y.wantIncr = false) (hrows : y.wantRows = []) (hread : y.wantRead = false) (hpoll : y.wantPoll = true) :
    (ctgNext c n (d.setCtg n y)).ctg n = { y with wantPoll := false, tx := startTx 4 0 } := by
  unfold ctgNext
  rw [setCtg_same]
  extract_lets x mk
  rw [if_neg (by simp [ctgRuns_ctg, hrun, x, hline, htx]), if_neg (by simp [x, hincr]), if_neg (by simp [x, hrows]), if_neg (by simp [x, hread]), if_pos hpoll, setCtg_same]
  rfl

/-- An INCR that waits for no retry, of an accepted cartridge, starts first (R224, R228). -/
theorem ctgNext_put_incr {c : Cfg} {n : Nat} {d : Dyn} {y : Ctg} (hrun : ctgRuns c d n = true) (hline : y.lineFault = false) (htx : y.tx = none)
    (hst : y.state = 2) (hincr : y.wantIncr = true) (hretry : y.retryAt = none) : ((ctgNext c n (d.setCtg n y)).ctg n).tx = startTx 1 0x100 := by
  have hy : (d.setCtg n y).ctg n = y := setCtg_same _ _ _
  exact ctgNext_incr c n _ hrun (by rw [hy, hline]) (by rw [hy, htx]) (by rw [hy, hst]) (by rw [hy, hincr]) (by rw [hy, hretry])

/-- A full read that waits on a cartridge that is not accepted starts on a free line (R224, R225). -/
theorem ctgNext_put_read {c : Cfg} {n : Nat} {d : Dyn} {y : Ctg} (hrun : ctgRuns c d n = true) (hline : y.lineFault = false) (htx : y.tx = none)
    (hst : y.state ≠ 2) (hread : y.wantRead = true) : ((ctgNext c n (d.setCtg n y)).ctg n).tx = startTx 3 0 := by
  have hy : (d.setCtg n y).ctg n = y := setCtg_same _ _ _
  exact ctgNext_read c n _ hrun (by rw [hy, hline]) (by rw [hy, htx]) (by rwa [hy]) (by rw [hy, hread])

theorem presencePoll_idle {c : Cfg} {n : Nat} {d : Dyn} (h : ctgRuns c d n = false) : presencePoll c n d = d := if_neg (by simp [h])

theorem presencePoll_runs {c : Cfg} {n : Nat} {d : Dyn} (h : ctgRuns c d n = true) : presencePoll c n d = ctgNext c n (d.setCtg n (d.ctg n).polled) := if_pos h

theorem flowQuarter_idle {c : Cfg} {n : Nat} {d : Dyn} (h : (d.ctg n).acc < 900000 ∨ c.cellEn n = false) : flowQuarter c n d = d := if_pos (by simpa using h)

theorem flowQuarter_counts {c : Cfg} {n : Nat} {d : Dyn} (hacc : 900000 ≤ (d.ctg n).acc) (hen : c.cellEn n = true) :
    flowQuarter c n d = ctgNext c n (d.setCtg n (d.ctg n).quartered) := if_neg (by simp [hacc, hen])

theorem incrRetry_early (c : Cfg) {n : Nat} {d : Dyn} (h : (d.ctg n).retryAt = none ∨ ∃ u, (d.ctg n).retryAt = some u ∧ d.ms < u) : incrRetry c n d = d := by
  unfold incrRetry
  rcases h with h | ⟨u, h, hearly⟩
  · simp only [h]
  · simp only [h]
    exact if_neg (by omega)

theorem incrRetry_due (c : Cfg) {n u : Nat} {d : Dyn} (h : (d.ctg n).retryAt = some u) (hdue : u ≤ d.ms) :
    incrRetry c n d = ctgNext c n (d.setCtg n (d.ctg n).retried) := by
  unfold incrRetry
  dsimp only
  rw [h]
  exact if_pos hdue

/-- A full read that is queued after a change of the line's own entry (R225). -/
theorem ctgRead_put (c : Cfg) (n : Nat) (d : Dyn) (y : Ctg) : ctgRead c n true (d.setCtg n y) = ctgNext c n ((d.setCtg n y).setCtg n y.reading) := by
  unfold ctgRead
  rw [setCtg_same]
  rfl

/-- What a queued full read leaves: the cartridge reads as not accepted, and a free line starts it (R225). -/
theorem ctgRead_line (c : Cfg) (n : Nat) (d : Dyn) (y : Ctg) :
    LineTo n d y.reading (ctgRead c n true (d.setCtg n y)) ∧
    (ctgRuns c d n = true → y.lineFault = false → y.tx = none → ((ctgRead c n true (d.setCtg n y)).ctg n).tx = startTx 3 0) := by
  rw [ctgRead_put]
  obtain ⟨hstep, hkept⟩ := next_after c n (d.setCtg n y) y.reading
  exact ⟨⟨(MStep.ctg n d y).trans hstep, hkept⟩, fun hrun hline htx => ctgNext_put_read hrun hline htx (show (1 : Nat) ≠ 2 by decide) rfl⟩

theorem exec_reread {n : Nat} {s : State} (hn : n < s.c.fx.nCells) (h : HostRuns (0x15002C + 0x40 * n) false s) :
    exec (.reread n) s = .next { s with d := reread s.c n s.d } := congrArg Host.Outcome.next ((if_pos hn).trans (hostCmd_runs h _))

theorem reread_reads {c : Cfg} {n : Nat} {d : Dyn} (hn : n < c.fx.nCells) (hs : d.standby = false) :
    reread c n d = ctgRead c n true (d.setCtg n { d.ctg n with result := 0 }) := (if_neg (by omega)).trans (if_neg (by simp [hs]))

theorem ctgLineFault_idle {c : Cfg} {n : Nat} {d : Dyn} (h : c.cellEn n = false ∨ d.standby = true) : ctgLineFault c n d = d :=
  if_pos (by rcases h with h | h <;> simp [h])

theorem ctgLineFault_held {c : Cfg} {n : Nat} {d : Dyn} (hen : c.cellEn n = true) (hs : d.standby = false) :
    ctgLineFault c n d = cellInvalid c n 3 ((d.setCtg n (d.ctg n).heldLow).fault c (0x7000 + n) 0x7067 2 0 0 false false) := if_neg (by simp [hen, hs])

/-- A line held low: its entry, the cell INVALID with cause CTG, and the record (R242). -/
theorem ctgLineFault_spec {c : Cfg} {n : Nat} {d : Dyn} (hen : c.cellEn n = true) (hs : d.standby = false) :
    (ctgLineFault c n d).ctg n = (d.ctg n).heldLow ∧ (ctgLineFault c n d).cell n = { d.cell n with state := 3, cause := 3 } ∧
    (n < 8 → Opened d (ctgLineFault c n d) (0x7000 + n) 0x7067 2 0 0 false false) ∧ MStep n d (ctgLineFault c n d) := by
  rw [ctgLineFault_held hen hs]
  have hbooks := fault_step (d.setCtg n (d.ctg n).heldLow) c (0x7000 + n) 0x7067 2 0 0 false false
  have hopened := fun hn => fault_opened_after (d := d) (d' := d.setCtg n (d.ctg n).heldLow) c (0x7000 + n) 0x7067 2 0 0 false false rfl rfl hn
  generalize Dyn.fault _ _ _ _ _ _ _ _ _ = e at hbooks hopened ⊢
  obtain ⟨hstep, hctg, hcell⟩ := cellInvalid_spec c n 3 e
  refine ⟨(hctg n).trans ((hbooks.ctg n).trans (setCtg_same _ _ _)), hcell.trans ?_, fun hn => (hopened (by omega)).to rfl, ((MStep.ctg n d _).trans (hbooks.mcell n)).trans hstep⟩
  rw [hbooks.cell n]
  rfl

theorem ctgLineOk_idle (c : Cfg) {n : Nat} {d : Dyn} (h : (d.ctg n).lineFault = false) : ctgLineOk c n d = d := if_neg (by simp [h])

theorem ctgLineOk_reads (c : Cfg) {n : Nat} {d : Dyn} (h : (d.ctg n).lineFault = true) :
    ctgLineOk c n d = ctgRead c n true (d.setCtg n { d.ctg n with lineFault := false }) := if_pos h

/-- Settles O26: each service changes the line's own entry, and the line then starts its next transaction in the order of R224. -/
theorem cartridgeServices : Obligations.CartridgeServices := by
  unfold Obligations.CartridgeServices
  intro n s x put free only
  have only_of {d : Dyn} {y : Ctg} (h : LineTo n s.d y d) : d.cell n = s.d.cell n ∧ d.flt = s.d.flt ∧ only { s with d := d } := by
    obtain ⟨hcell, hflt, hctgs, hcells, halike⟩ := h.frame
    exact ⟨hcell, hflt, hctgs, hcells, halike, rfl⟩
  refine ⟨fun h => next_dyn (presencePoll_idle h), fun hrun ⟨hline, htx, hincr, hrows⟩ hread => ?_, fun hrun hbusy => ?_, fun h => next_dyn (flowQuarter_idle h),
    fun hacc hen => ?_, fun h => next_dyn (incrRetry_early s.c h), fun u hretry hdue => ?_, fun hn hhost => ?_, fun h => next_dyn (ctgLineFault_idle h),
    fun hen hs => ?_, fun h => next_dyn (ctgLineOk_idle s.c h), fun hline => ?_⟩
  · exact ⟨_, next_dyn (presencePoll_runs hrun), ctgNext_put_poll (y := x.polled) hrun hline htx hincr hrows hread rfl, only_of (next_after s.c n s.d x.polled)⟩
  · exact next_dyn ((presencePoll_runs hrun).trans (ctgNext_busy s.c (by rw [setCtg_same]; exact hbusy)))
  · have hto : LineTo n s.d x.quartered (ctgNext s.c n (s.d.setCtg n x.quartered)) := next_after s.c n s.d x.quartered
    obtain ⟨-, hless, hpend, hincr, -⟩ := hto.entry
    obtain ⟨eline, etx, est, eretry⟩ := x.quartered_line
    refine ⟨_, next_dyn (flowQuarter_counts hacc hen), hless, hpend, hincr, fun hrun hline htx hretry hst => ?_, only_of hto⟩
    exact ctgNext_put_incr hrun (eline.trans hline) (etx.trans htx) (est.trans hst) rfl (eretry.trans hretry)
  · have hto : LineTo n s.d x.retried (ctgNext s.c n (s.d.setCtg n x.retried)) := next_after s.c n s.d x.retried
    obtain ⟨-, -, hpend, -, hdone, -⟩ := hto.entry
    exact ⟨_, next_dyn (incrRetry_due s.c hretry hdue), hdone, hpend, fun hrun hline htx hincr hst => ctgNext_put_incr (y := x.retried) hrun hline htx hst hincr rfl,
      only_of hto⟩
  · obtain ⟨hto, hstart⟩ := ctgRead_line s.c n s.d { x with result := 0 }
    obtain ⟨hst, -, -, -, -, -, hresult⟩ := hto.entry
    exact ⟨_, (exec_reread hn hhost).trans (next_dyn (reread_reads hn hhost.solo)), hresult, hst, hstart, only_of hto⟩
  · obtain ⟨hctg, hcell, hopened, halike, hcells, hctgs⟩ := ctgLineFault_spec hen hs
    refine ⟨_, rfl, ?_⟩
    rw [hctg, hcell]
    exact ⟨rfl, rfl, rfl, rfl, rfl, fun hn => hopened (ctgCell_lt hn), hctgs, hcells, halike, rfl⟩
  · obtain ⟨hto, hstart⟩ := ctgRead_line s.c n s.d { x with lineFault := false }
    obtain ⟨hst, -, -, -, -, hfree, -⟩ := hto.entry
    exact ⟨_, next_dyn (ctgLineOk_reads s.c hline), hfree, hst, fun hrun htx => hstart hrun rfl htx, only_of hto⟩

end Sys2Proof.Machine
end

section
/-! Answers on a cartridge's identity line, and attempts that failed (R213, R224, R225, R226, R228, R229, R230). -/

namespace Sys2Proof.Machine

open Sys2Proof

theorem idFail_none (c : Cfg) {n : Nat} {d : Dyn} (h : (d.ctg n).tx = none) : idFail c n d = d := by
  unfold idFail
  dsimp only
  rw [h]

theorem idResponse_none (c : Cfg) (partner : Nat) {n : Nat} (bytes : List Byte) {d : Dyn} (h : (d.ctg n).tx = none) : idResponse c partner n bytes d = d := by
  unfold idResponse
  rw [h]

/-- The entry of a line after an attempt at `t` that failed (R224). -/
def Ctg.failed (x : Ctg) (t : CtgTx) : Ctg := { x with fails := satInc 16 x.fails, tx := some { t with attempts := t.attempts + 1 } }

/-- The third failed attempt fails the transaction (R224): a poll or a full read makes the cartridge absent and its cell INVALID (R225, log entry 36); an INCR or
a row write waits to be tried again (R228). -/
theorem idFail_third (c : Cfg) {n : Nat} {d : Dyn} {t : CtgTx} (h : (d.ctg n).tx = some t) (h2 : 2 ≤ t.attempts) :
    let e := idFail c n d
    (e.ctg n).fails = satInc 16 (d.ctg n).fails ∧ MStep n d e ∧
    (3 ≤ t.kind → (e.ctg n).state = 0 ∧ (e.ctg n).absent = true ∧ (e.ctg n).reason = 0x7060 ∧
      ((d.cell n).cal = none → (e.cell n).state = 3 ∧ (e.cell n).cause = 3) ∧ ((d.cell n).cal ≠ none → e.cell n = d.cell n) ∧
      (n < 8 → (d.ctg n).state ≠ 0 → Opened d e (0x7000 + n) 0x7060 2 0 0 false false)) ∧
    (t.kind < 3 → (e.ctg n).state = (d.ctg n).state ∧ e.cell n = d.cell n ∧ (e.ctg n).consec = (d.ctg n).consec + 1 ∧
      (e.ctg n).retryAt = some (d.ms + (if 10 ≤ (d.ctg n).consec + 1 then 60000 else 1000)) ∧
      (n < 8 → (d.ctg n).consec + 1 = 10 → Opened d e (0x7000 + n) 0x7066 2 0 0 false false)) := by
  intro e
  have heq : e = ctgNext c n (ctgTxFail c n t (d.setCtg n ((d.ctg n).failed t))) := idFail_last c n d t h h2
  obtain ⟨hstep, hfails, hgone, hwaits⟩ := ctgTxFail_step c n t (d.setCtg n ((d.ctg n).failed t)) _ rfl
  rw [setCtg_same] at hfails hgone hwaits
  generalize ctgTxFail c n t (d.setCtg n ((d.ctg n).failed t)) = f at heq hstep hfails hgone hwaits
  have hnext := ctgNext_step c n f
  rw [← heq] at hnext
  obtain ⟨est, eabsent, ereason, efails, econsec, eretry, -⟩ := hnext.parts
  obtain ⟨hmove, ecell, eflt, -⟩ := hnext
  rw [est, eabsent, ereason, efails, econsec, eretry, ecell]
  refine ⟨hfails, ((MStep.ctg n d _).trans hstep).trans hmove, fun hkind => ?_, fun hkind => ?_⟩
  · obtain ⟨hst, habsent, hreason, hinvalid, hcal, hopened⟩ := hgone hkind
    exact ⟨hst, habsent, hreason, hinvalid, hcal, fun hn hpresent => (hopened hn hpresent).of rfl rfl eflt⟩
  · obtain ⟨hst, hcell, hconsec, hretry, hopened⟩ := hwaits hkind
    exact ⟨hst, hcell, hconsec, hretry, fun hn hten => (hopened hn hten).of rfl rfl eflt⟩

/-- A changed cartridge (R225, R228, R230): it is read again, its flow and its cell's average are discarded, and the cell is INVALID with cause CTG. -/
def CtgReplaced (n : Nat) (x : Ctg) (y : Cell) (d : Dyn) : Prop :=
  (d.ctg n).state = 1 ∧ (d.ctg n).acc = 0 ∧ (d.ctg n).pend = 0 ∧ (d.ctg n).discarded = x.acc + 900000 * x.pend ∧
  (d.cell n).state = 3 ∧ (d.cell n).cause = 3 ∧ (d.cell n).got = [] ∧ (d.cell n).dropSweep = y.sweeping

theorem NStep.replaced {n : Nat} {d e : Dyn} {x : Ctg} {y : Cell} (h : NStep n d e) (hd : CtgReplaced n x y d) : CtgReplaced n x y e := by
  obtain ⟨est, -, -, -, -, -, epend, eacc, -, -, ediscarded⟩ := h.parts
  obtain ⟨-, ecell, -⟩ := h
  unfold CtgReplaced
  rw [est, epend, eacc, ediscarded, ecell]
  exact hd

theorem ctgChanged_replaced (c : Cfg) (n : Nat) (d : Dyn) : CtgReplaced n (d.ctg n) (d.cell n) (ctgChanged c n d) := (ctgChanged_step c n d _ rfl).2

/-- A poll answered by another cartridge than the one known is a change (R225). -/
theorem idGood_poll_replaced (c : Cfg) (partner : Nat) {n : Nat} {t : CtgTx} {data : List Byte} {d : Dyn} (ht : t.kind = 4) (h2 : (d.ctg n).absent = false)
    (h : leNat data ≠ (d.ctg n).serial ∨ (d.ctg n).state = 0) : CtgReplaced n (d.ctg n) (d.cell n) (idGood c partner n t data d) := by
  have hchanged := ctgChanged_replaced c n (d.setCtg n { d.ctg n with tx := none })
  rw [setCtg_same] at hchanged
  rw [idGood4 c partner n t data d ht h2, if_neg (by tauto)]
  exact hchanged

theorem idGood_poll_same (c : Cfg) (partner : Nat) {n : Nat} {t : CtgTx} {data : List Byte} {d : Dyn} (ht : t.kind = 4) (h2 : (d.ctg n).absent = false)
    (hserial : leNat data = (d.ctg n).serial) (hst : (d.ctg n).state ≠ 0) : idGood c partner n t data d = d.setCtg n { d.ctg n with tx := none } :=
  (idGood4 c partner n t data d ht h2).trans (if_pos ⟨hserial, hst⟩)

theorem idGood_row (c : Cfg) (partner n : Nat) {t : CtgTx} (data : List Byte) (d : Dyn) (ht : t.kind = 2) :
    idGood c partner n t data d = d.setCtg n { d.ctg n with tx := none, wantRows := (d.ctg n).wantRows.filter (· ≠ t.row), consec := 0 } := by
  simp only [idGood, ht]

/-- A full read that has not come to its end goes on with the next row (R225), and the line stays busy. -/
theorem idGood_more_read (c : Cfg) (partner n : Nat) {t : CtgTx} (data : List Byte) (d : Dyn) (ht : t.kind = 3) (hrow : t.row + 32 < 0x130) :
    ctgNext c n (idGood c partner n t data d) = d.setCtg n { d.ctg n with tx := some { t with row := t.row + 32, data := t.data ++ data, attempts := 0 } } := by
  rw [idGood3 c partner n t data d ht, if_pos hrow]
  exact ctgNext_busy c (.inr (by rw [setCtg_same]; exact Option.some_ne_none _))

theorem idGood_last_read (c : Cfg) (partner n : Nat) {t : CtgTx} (data : List Byte) (d : Dyn) (ht : t.kind = 3) (hrow : 0x130 ≤ t.row + 32) :
    idGood c partner n t data d = fullRead c partner n (t.data ++ data) d := (idGood3 c partner n t data d ht).trans (if_neg (by omega))

/-- The data of a good answer (R224). -/
def answerData (t : CtgTx) (bytes : List Byte) : List Byte := (bytes.take (1 + txLen t)).drop 1

theorem answerData_length {t : CtgTx} {bytes : List Byte} (h : goodAnswer t bytes) : (answerData t bytes).length = txLen t := by
  obtain ⟨hlen, -, -⟩ := h
  simp only [answerData, List.length_drop, List.length_take]
  omega

/-- What the answers to each kind of transaction leave behind (R225 to R229), `x` and `y` being the line's entry and its cell before. -/
theorem idGood_next_spec (c : Cfg) (partner : Nat) {n : Nat} {t : CtgTx} {data : List Byte} {d : Dyn} (h2 : (d.ctg n).absent = false) (hlen : data.length = txLen t) :
    let x := d.ctg n
    let y := d.cell n
    let e := ctgNext c n (idGood c partner n t data d)
    (t.kind = 1 → (e.ctg n).pend = x.pend - 1 ∧ (e.ctg n).consec = 0 ∧ (e.ctg n).retryAt = none ∧ (e.ctg n).wantRows.contains 0x120 = true ∧ (e.ctg n).bytes 0x100 4 = data) ∧
    (t.kind = 4 → leNat data = x.serial → x.state ≠ 0 → (e.ctg n).state = x.state ∧ (e.ctg n).acc = x.acc ∧ (e.ctg n).pend = x.pend ∧ e.cell n = y) ∧
    (t.kind = 4 → (leNat data ≠ x.serial ∨ x.state = 0) → CtgReplaced n x y e) ∧
    (t.kind = 2 → (e.ctg n).wantRows = x.wantRows.filter (· ≠ t.row) ∧ (e.ctg n).consec = 0 ∧ (e.ctg n).state = x.state ∧ e.cell n = y) ∧
    (t.kind = 3 → t.row + 32 < 0x130 → ∃ u, (e.ctg n).tx = some u ∧ u.kind = 3 ∧ u.row = t.row + 32 ∧ u.data = t.data ++ data ∧ u.attempts = 0 ∧
      (e.ctg n).state = x.state ∧ e.cell n = y) ∧
    (t.kind = 3 → 0x130 ≤ t.row + 32 →
      let now := ({ x with tx := none, mem := [] } : Ctg).write 0 (t.data ++ data)
      let code := ctgCheck c n now
      (code ≠ 0 → (e.ctg n).state = 3 ∧ (e.ctg n).reason = code ∧ (e.cell n).state = 3 ∧ (e.cell n).cause = 3) ∧
      (code = 0 → (e.ctg n).state = 2 ∧ (e.ctg n).absent = false ∧
        (now.bytes 0 0x100 ≠ x.bytes 0 0x100 → (e.cell n).got = [] ∧ (e.cell n).dropSweep = y.sweeping) ∧
        (now.bytes 0 0x100 = x.bytes 0 0x100 → (e.cell n).got = y.got ∧ (e.cell n).dropSweep = y.dropSweep) ∧ (e.cell n).state = y.state ∧ (e.cell n).m = y.m)) := by
  intro x y e
  have hnext : NStep n (idGood c partner n t data d) e := ctgNext_step c n _
  obtain ⟨est, eabsent, ereason, -, econsec, eretry, epend, eacc, erows, emem, -⟩ := hnext.parts
  have ecell := hnext.2.1
  have ebytes : (e.ctg n).bytes 0x100 4 = ((idGood c partner n t data d).ctg n).bytes 0x100 4 := by unfold Ctg.bytes; rw [emem]
  refine ⟨fun ht => ?_, fun ht hserial hst => ?_, fun ht hnew => hnext.replaced (idGood_poll_replaced c partner ht h2 hnew), fun ht => ?_, fun ht hrow => ?_, fun ht hrow => ?_⟩
  · obtain ⟨-, hincr⟩ := idGood1 c partner n t data d ht (by simp only [hlen, txLen, ht]) _ rfl
    rw [epend, econsec, eretry, erows, ebytes]
    exact hincr
  · rw [est, eacc, epend, ecell, idGood_poll_same c partner ht h2 hserial hst, setCtg_same]
    exact ⟨rfl, rfl, rfl, rfl⟩
  · rw [erows, econsec, est, ecell, idGood_row c partner n data d ht, setCtg_same]
    exact ⟨rfl, rfl, rfl, rfl⟩
  · rw [show e = _ from idGood_more_read c partner n data d ht hrow, setCtg_same]
    exact ⟨_, rfl, ht, rfl, rfl, rfl, rfl, rfl⟩
  · obtain ⟨-, hread⟩ := fullRead_step c partner n (t.data ++ data) d _ rfl
    rw [est, eabsent, ereason, ecell, idGood_last_read c partner n data d ht hrow]
    exact hread

/-- Settles O25: a failed attempt by its count, a good answer by the kind of its transaction; what starts next on the line leaves both. -/
theorem cartridgeLine : Obligations.CartridgeLine := by
  unfold Obligations.CartridgeLine
  intro n bytes s x
  refine ⟨fun h => ⟨next_dyn (idResponse_none s.c _ bytes h), next_dyn (idFail_none s.c h)⟩, fun t h => ?_⟩
  intro len data good y ended back changed
  refine ⟨fun hbad => next_dyn (idResponse_bad s.c _ n bytes s.d t h hbad), fun hmore => next_dyn (idFail_more s.c n s.d t h hmore), fun hlast => ?_,
    fun hgood hcal => next_dyn (idResponse_cal s.c _ n bytes s.d t h hgood hcal),
    fun hgood hcal habsent hkind => next_dyn ((idResponse_back s.c _ n bytes s.d t h hgood hcal habsent).2 hkind),
    fun hgood hcal habsent hkind => ?_, fun hgood hcal hpresent => ?_⟩
  · obtain ⟨hfails, ⟨halike, hcells, hctgs⟩, hgone, hwaits⟩ := idFail_third s.c h hlast
    refine ⟨_, rfl, hfails, fun j hj => ⟨hctgs j hj, hcells j hj⟩, halike, fun hkind => ?_, fun hkind => ?_⟩
    · obtain ⟨hst, habsent, hreason, hinvalid, hcal, hopened⟩ := hgone hkind
      exact ⟨hst, habsent, hreason, hinvalid, hcal, fun hn => hopened (ctgCell_lt hn)⟩
    · obtain ⟨hst, hcell, hconsec, hretry, hopened⟩ := hwaits hkind
      exact ⟨hst, hcell, hconsec, hretry, fun hn => hopened (ctgCell_lt hn)⟩
  · have hnext := ctgNext_step s.c n (ctgChanged s.c n s.d)
    obtain ⟨halike, hcells, hctgs⟩ := (ctgChanged_step s.c n s.d _ rfl).1.trans hnext.1
    exact ⟨_, next_dyn ((idResponse_back s.c _ n bytes s.d t h hgood hcal habsent).1 hkind), fun j hj => ⟨hctgs j hj, hcells j hj⟩, halike,
      hnext.replaced (ctgChanged_replaced s.c n s.d)⟩
  · obtain ⟨halike, hcells, hctgs⟩ := (idGood_step s.c s.d.pair.pid n t data s.d).trans (ctgNext_step s.c n _).1
    exact ⟨_, next_dyn (idResponse_good s.c _ n bytes s.d t h hgood hcal hpresent), fun j hj => ⟨hctgs j hj, hcells j hj⟩, halike,
      idGood_next_spec s.c s.d.pair.pid hpresent (answerData_length hgood)⟩

end Sys2Proof.Machine
end

section
/-! Commands and events of a column (R258, R263, R267, R273, R274). -/

namespace Sys2Proof.Machine

open Sys2Proof

theorem columnDone_idle {n : Nat} {d : Dyn} (h : (d.col n).work = none) : columnDone n d = d :=
  if_neg (by simp [h])

theorem columnDone_running {n : Nat} {d : Dyn} (h : (d.col n).work ≠ none) : columnDone n d = d.setCol n { d.col n with done := true } :=
  if_pos (Option.isSome_iff_ne_none.2 h)

theorem columnRestart_eq {c : Cfg} {n : Nat} (d : Dyn) (hn : n < c.fx.nCols) :
    columnRestart c n d = d.setCol n { d.col n with restart := true, cmdResult := 0 } := if_neg hn.not_ge

theorem kappaReset_eq {c : Cfg} {n : Nat} (d : Dyn) (hn : n < c.fx.nCols) :
    kappaReset c n d = d.setCol n { d.col n with kReset := true, cmdResult := 0 } := if_neg hn.not_ge

theorem batchClear_batch {c : Cfg} {n : Nat} (d : Dyn) (hn : n < c.fx.nCols) (h : c.colBatch n = true) :
    batchClear c n d = d.setCol n { d.col n with clear := true, cmdResult := 0 } := (if_neg hn.not_ge).trans (if_pos h)

theorem batchClear_continuous {c : Cfg} {n : Nat} (d : Dyn) (hn : n < c.fx.nCols) (h : c.colBatch n = false) :
    batchClear c n d = d.setCol n { d.col n with cmdResult := 0xB00D } := (if_neg hn.not_ge).trans (if_neg (by simp [h]))

/-- COL_KAPPA runs from 0.25 to 4 in Q16.16 (R273). -/
theorem kappaWrite_taken {c : Cfg} {n : Nat} {v : Word} (d : Dyn) (hn : n < c.fx.nCols) (h : 16384 ≤ v.toNat ∧ v.toNat ≤ 262144) :
    kappaWrite c n v d = d.setCol n { d.col n with kWrite := some (v.toNat : Int) } := (if_neg hn.not_ge).trans (if_pos h)

theorem kappaWrite_refused {c : Cfg} {n : Nat} {v : Word} (d : Dyn) (hn : n < c.fx.nCols) (h : v.toNat < 16384 ∨ 262144 < v.toNat) :
    kappaWrite c n v d = d.setCol n { d.col n with reason := 0xB001 } := (if_neg hn.not_ge).trans (if_neg (by omega))

theorem exec_columnRestart {n : Nat} {s : State} (hn : n < s.c.fx.nCols) (h : HostRuns (colA n + 0xAC) false s) :
    exec (.columnRestart n) s = .next { s with d := columnRestart s.c n s.d } := congrArg Host.Outcome.next ((if_pos hn).trans (hostCmd_runs h _))

theorem exec_batchClear {n : Nat} {s : State} (hn : n < s.c.fx.nCols) (h : HostRuns (colA n + 0xAC) false s) :
    exec (.batchClear n) s = .next { s with d := batchClear s.c n s.d } := congrArg Host.Outcome.next ((if_pos hn).trans (hostCmd_runs h _))

theorem exec_kappaReset {n : Nat} {s : State} (hn : n < s.c.fx.nCols) (h : HostRuns (colA n + 0xAC) false s) :
    exec (.kappaReset n) s = .next { s with d := kappaReset s.c n s.d } := congrArg Host.Outcome.next ((if_pos hn).trans (hostCmd_runs h _))

/-- A write to COL_KAPPA may leave its WRITE record in the archive (R37, R529). -/
theorem exec_kappaWrite {n : Nat} {s : State} (v : Word) (hn : n < s.c.fx.nCols) (h : HostRuns (colA n + 0x94) false s) :
    ∃ a, exec (.kappaWrite n v) s = .next { s with d := { kappaWrite s.c n v s.d with arc := a } } := by
  obtain ⟨a, ha⟩ := hostVal_runs h fun s => { s with d := kappaWrite s.c n v s.d }
  exact ⟨a, congrArg Host.Outcome.next ((if_pos hn).trans ha)⟩

theorem modelOpenLoop_eq (c : Cfg) (n : Nat) (d : Dyn) :
    modelOpenLoop c n d =
      if c.colEn n = true ∧ d.glb.st = .run ∧ c.colDis n ≠ 0xFF ∧ (d.col n).openLoop = false ∧ (d.col n).qualMs + 1000 * c.colOlDelay n ≤ d.ms then
        colFlag c n 0xB062 1 true (d.setCol n { d.col n with openLoop := true })
      else d := by
  simp only [modelOpenLoop, Bool.not_eq_true]

/-- The column with the last moisture of its inlet dropped, from the step under way too (R267). -/
def Col.inletGone (x : Col) : Col :=
  { x with inletLost := true, core := { x.core with lastIn := none }, work := x.work.map fun k => { k with lastIn := none } }

theorem inletLostEv_eq (c : Cfg) (n : Nat) (d : Dyn) :
    inletLostEv c n d =
      if c.colEn n = true ∧ d.glb.st = .run ∧ c.colInlet n ≠ 0xFF ∧ (d.col n).inletLost = false ∧ (d.col n).inletMs + 1000 * c.colEntryHold n < d.ms then
        colFlag c n 0xB063 2 true (d.setCol n (d.col n).inletGone)
      else d := by
  simp only [inletLostEv, Col.inletGone, Bool.not_eq_true]

/-- Settles O27: the step and the commands by their cases, the two lost readings by the one lemma about a column's record. -/
theorem columnCommands : Obligations.ColumnCommands := by
  unfold Obligations.ColumnCommands
  intro n v s x put
  refine ⟨fun hidle => next_dyn (columnDone_idle hidle), fun hrun => next_dyn (columnDone_running hrun), fun hn hhost => ?_, fun hn hhost => ?_, ?_, ?_⟩
  · exact ⟨(exec_columnRestart hn hhost).trans (next_dyn (columnRestart_eq s.d hn)), (exec_kappaReset hn hhost).trans (next_dyn (kappaReset_eq s.d hn)),
      fun hbatch => (exec_batchClear hn hhost).trans (next_dyn (batchClear_batch s.d hn hbatch)),
      fun hcont => (exec_batchClear hn hhost).trans (next_dyn (batchClear_continuous s.d hn hcont))⟩
  · obtain ⟨a, hexec⟩ := exec_kappaWrite v hn hhost
    refine ⟨fun hin => ⟨a, ?_⟩, fun hout => ⟨a, ?_⟩⟩
    · rw [hexec, kappaWrite_taken s.d hn hin]
    · rw [hexec, kappaWrite_refused s.d hn hout]
  · intro late
    refine ⟨fun hsoon => next_dyn ((modelOpenLoop_eq s.c n s.d).trans (if_neg hsoon)), fun hlate => ?_⟩
    exact ⟨_, next_dyn ((modelOpenLoop_eq s.c n s.d).trans (if_pos hlate)), col_raise s.c n 0xB062 1 s.d _⟩
  · intro lost
    refine ⟨fun hheld => next_dyn ((inletLostEv_eq s.c n s.d).trans (if_neg hheld)), fun hlost => ?_⟩
    exact ⟨_, next_dyn ((inletLostEv_eq s.c n s.d).trans (if_pos hlost)), col_raise s.c n 0xB063 2 s.d x.inletGone⟩

end Sys2Proof.Machine
end

section
/-! Writes to LOOP_MODE, and the commands of a loop and of a generator (R285, R286, R292, R303, R305, R315, R328). -/

namespace Sys2Proof.Machine

open Sys2Proof

theorem loopModeCode_mode3 (c : Cfg) (n : Nat) {v : Word} (h : fld v 0 2 = 3) : loopModeCode c n v = 0xA00A := if_pos h

/-- AUTO needs a process value (R285). -/
theorem loopModeCode_auto {c : Cfg} {n : Nat} {v : Word} (hm : fld v 0 2 = 1) (href : (c.loopRef n 3).1 = 0) : loopModeCode c n v = 0xA045 :=
  (if_neg (by omega)).trans (if_pos ⟨hm, href⟩)

/-- TRACK needs a tracked value (R285). -/
theorem loopModeCode_track {c : Cfg} {n : Nat} {v : Word} (hm : fld v 0 2 = 2) (href : (c.loopRef n 6).1 = 0) : loopModeCode c n v = 0xA045 :=
  (if_neg (by omega)).trans ((if_neg (by omega)).trans (if_pos ⟨hm, href⟩))

theorem loopModeCode_taken {c : Cfg} {n : Nat} {v : Word} (h3 : fld v 0 2 ≠ 3) (hauto : ¬(fld v 0 2 = 1 ∧ (c.loopRef n 3).1 = 0))
    (htrack : ¬(fld v 0 2 = 2 ∧ (c.loopRef n 6).1 = 0)) : loopModeCode c n v = 0 :=
  (if_neg h3).trans ((if_neg hauto).trans (if_neg htrack))

/-- The configuration after an accepted write to LOOP_MODE: the word of an enabled loop waits for its next sample, any other is in force at once (R12, R303). -/
def Cfg.storeLoopMode (c : Cfg) (n : Nat) (v : Word) : Cfg :=
  { c with reg := if c.loopEn n then c.reg.shadow (loopA n + 0xA0) (v &&& 0x103#32) else c.reg.putB (loopA n + 0xA0) (v &&& 0x103#32) }

/-- The loop after an accepted write to LOOP_MODE: its time is kept for a latched FALLBACK (R292), and SOURCE_REQUIRED is over. -/
def LoopS.modeTaken (x : LoopS) (ms : Nat) : LoopS := { x with modeAt := some ms, reason := if x.reason = 0xA045 then 0 else x.reason }

theorem storeLoopMode_enabled {c : Cfg} {n : Nat} (v : Word) (h : c.loopEn n = true) :
    c.storeLoopMode n v = { c with reg := c.reg.shadow (loopA n + 0xA0) (v &&& 0x103#32) } := by
  simp only [Cfg.storeLoopMode, if_pos h]

theorem storeLoopMode_disabled {c : Cfg} {n : Nat} (v : Word) (h : c.loopEn n = false) :
    c.storeLoopMode n v = { c with reg := c.reg.putB (loopA n + 0xA0) (v &&& 0x103#32) } := by
  simp only [Cfg.storeLoopMode, h, if_neg Bool.false_ne_true]

theorem storeLoopMode_w (c : Cfg) (n b : Nat) (v : Word) :
    (c.storeLoopMode n v).w b = if b = loopA n + 0xA0 then v &&& 0x103#32 else c.w b := by
  cases h : c.loopEn n
  case false => rw [storeLoopMode_disabled v h]; exact putB_get _ _ _ _
  case true => rw [storeLoopMode_enabled v h]; exact shadow_w _ _ _ _

theorem storeLoopMode_f_enabled {c : Cfg} {n : Nat} (b : Nat) (v : Word) (h : c.loopEn n = true) : (c.storeLoopMode n v).f b = c.f b := by
  rw [storeLoopMode_enabled v h]; exact congrArg (tget (resetWord b) · b) (shadow_f _ _ _)

theorem storeLoopMode_f_disabled {c : Cfg} {n : Nat} (b : Nat) (v : Word) (h : c.loopEn n = false) :
    (c.storeLoopMode n v).f b = if b = loopA n + 0xA0 then v &&& 0x103#32 else c.f b := by
  rw [storeLoopMode_disabled v h]; exact putB_fget _ _ _ _

theorem storeLoopMode_f_other {c : Cfg} {n b : Nat} (v : Word) (hb : b ≠ loopA n + 0xA0) : (c.storeLoopMode n v).f b = c.f b := by
  cases h : c.loopEn n
  case false => exact (storeLoopMode_f_disabled b v h).trans (if_neg hb)
  case true => exact storeLoopMode_f_enabled b v h

theorem loopModeWrite_refused {n : Nat} {v : Word} {s : State} (hn : n < s.c.fx.nLoops) (h : loopModeCode s.c n v ≠ 0) :
    loopModeWrite n v s = { s with d := s.d.setLp n { s.d.lp n with reason := loopModeCode s.c n v } } := (if_neg hn.not_ge).trans (if_pos h)

theorem loopModeWrite_taken {n : Nat} {v : Word} {s : State} (hn : n < s.c.fx.nLoops) (h : loopModeCode s.c n v = 0) :
    loopModeWrite n v s = { s with c := s.c.storeLoopMode n v, d := s.d.setLp n ((s.d.lp n).modeTaken s.d.ms) } :=
  (if_neg hn.not_ge).trans (if_neg (not_not.2 h))

/-- A write to LOOP_MODE may leave its WRITE record in the archive (R37, R529). -/
theorem exec_loopModeWrite {n : Nat} {s : State} (v : Word) (hn : n < s.c.fx.nLoops) (h : HostRuns (loopA n + 0xA0) false s) :
    ∃ a, exec (.loopModeWrite n v) s = .next { loopModeWrite n v s with d := { (loopModeWrite n v s).d with arc := a } } := by
  obtain ⟨a, ha⟩ := hostVal_runs h (loopModeWrite n v)
  exact ⟨a, congrArg Host.Outcome.next ((if_pos hn).trans ha)⟩

theorem exec_loopModeWrite_refused {n k : Nat} {v : Word} {s : State} (hn : n < s.c.fx.nLoops) (h : HostRuns (loopA n + 0xA0) false s)
    (hcode : loopModeCode s.c n v = k) (hk : k ≠ 0) :
    ∃ a, exec (.loopModeWrite n v) s = .next { s with d := { s.d.setLp n { s.d.lp n with reason := k } with arc := a } } := by
  subst hcode
  obtain ⟨a, hexec⟩ := exec_loopModeWrite v hn h
  rw [loopModeWrite_refused hn hk] at hexec
  exact ⟨a, hexec⟩

theorem exec_loopModeWrite_taken {n : Nat} {v : Word} {s : State} (hn : n < s.c.fx.nLoops) (h : HostRuns (loopA n + 0xA0) false s)
    (hcode : loopModeCode s.c n v = 0) :
    ∃ a, exec (.loopModeWrite n v) s =
      .next { s with c := s.c.storeLoopMode n v, d := { s.d.setLp n ((s.d.lp n).modeTaken s.d.ms) with arc := a } } := by
  obtain ⟨a, hexec⟩ := exec_loopModeWrite v hn h
  rw [loopModeWrite_taken hn hcode] at hexec
  exact ⟨a, hexec⟩

theorem reinit_eq {c : Cfg} {n : Nat} (d : Dyn) (hn : n < c.fx.nLoops) : reinit c n d = d.setLp n { d.lp n with init := true, cmdResult := 0 } :=
  if_neg hn.not_ge

theorem loopClrCounts_eq {c : Cfg} {n : Nat} (d : Dyn) (hn : n < c.fx.nLoops) :
    loopClrCounts c n d = d.setLp n { d.lp n with total := 0, count := 0, cmdResult := 0 } := if_neg hn.not_ge

theorem snapCmd_eq {c : Cfg} {n : Nat} (d : Dyn) (hn : n < c.fx.nGens) : snapCmd c n d = d.setGen n { d.gen n with snap := true, cmdResult := 0 } :=
  if_neg hn.not_ge

theorem exec_reinit {n : Nat} {s : State} (hn : n < s.c.fx.nLoops) (h : HostRuns (loopA n + 0xF0) false s) :
    exec (.reinit n) s = .next { s with d := reinit s.c n s.d } := congrArg Host.Outcome.next ((if_pos hn).trans (hostCmd_runs h _))

theorem exec_loopClrCounts {n : Nat} {s : State} (hn : n < s.c.fx.nLoops) (h : HostRuns (loopA n + 0xF0) false s) :
    exec (.loopClrCounts n) s = .next { s with d := loopClrCounts s.c n s.d } := congrArg Host.Outcome.next ((if_pos hn).trans (hostCmd_runs h _))

theorem exec_snap {n : Nat} {s : State} (hn : n < s.c.fx.nGens) (h : HostRuns (prfA n + 0x24) false s) :
    exec (.snap n) s = .next { s with d := snapCmd s.c n s.d } := congrArg Host.Outcome.next ((if_pos hn).trans (hostCmd_runs h _))

/-- Settles O28: a write to LOOP_MODE by the code of its refusal, and by the word that an accepted write stores; each command changes its own entry. -/
theorem loopCommands : Obligations.LoopCommands := by
  unfold Obligations.LoopCommands
  intro n v s x
  refine ⟨fun hn hhost => ?_, fun hn hhost => ?_, fun hn hhost => (exec_snap hn hhost).trans (next_dyn (snapCmd_eq s.d hn))⟩
  · intro m refused
    refine ⟨fun hm => ?_, fun hm href => ?_, fun hm href => ?_, fun h3 hauto htrack => ?_⟩
    · exact exec_loopModeWrite_refused hn hhost (loopModeCode_mode3 s.c n hm) (by decide)
    · exact exec_loopModeWrite_refused hn hhost (loopModeCode_auto hm href) (by decide)
    · exact exec_loopModeWrite_refused hn hhost (loopModeCode_track hm href) (by decide)
    · obtain ⟨a, hexec⟩ := exec_loopModeWrite_taken hn hhost (loopModeCode_taken h3 hauto htrack)
      refine ⟨_, a, hexec, rfl, (storeLoopMode_w s.c n _ v).trans (if_pos rfl), fun b hb => ?_, fun hoff => ?_, fun hon => ?_, rfl, rfl⟩
      · exact ⟨(storeLoopMode_w s.c n b v).trans (if_neg hb), storeLoopMode_f_other v hb⟩
      · exact (storeLoopMode_f_disabled _ v hoff).trans (if_pos rfl)
      · exact storeLoopMode_f_enabled _ v hon
  · exact ⟨(exec_reinit hn hhost).trans (next_dyn (reinit_eq s.d hn)), (exec_loopClrCounts hn hhost).trans (next_dyn (loopClrCounts_eq s.d hn))⟩

end Sys2Proof.Machine
end

section
/-! The commands of a Draft, the timeout of its step and the flags of the sequencer (R346 to R350, R358, R360). -/

namespace Sys2Proof.Machine

open Sys2Proof

/-- What the four command bits of SEQ_DCMD share: a command that is taken reaches its Draft (R360). -/
theorem draftCmd_runs {n : Nat} {s : State} (hn : n < s.c.fx.nDrafts) (h : HostRuns (draftR n 0x10) false s) (kind : Nat) :
    (if n < s.c.fx.nDrafts then hostCmd (draftR n 0x10) false (fun s => { s with d := draftCmd s.c n kind s.d }) s else s) =
      { s with d := draftCmd s.c n kind s.d } := (if_pos hn).trans (hostCmd_runs h _)

theorem exec_draftHold {n : Nat} {s : State} (hn : n < s.c.fx.nDrafts) (h : HostRuns (draftR n 0x10) false s) :
    exec (.draftHold n) s = .next { s with d := draftCmd s.c n 1 s.d } := congrArg Host.Outcome.next (draftCmd_runs hn h 1)

theorem exec_resume {n : Nat} {s : State} (hn : n < s.c.fx.nDrafts) (h : HostRuns (draftR n 0x10) false s) :
    exec (.resume n) s = .next { s with d := draftCmd s.c n 2 s.d } := congrArg Host.Outcome.next (draftCmd_runs hn h 2)

theorem exec_abort {n : Nat} {s : State} (hn : n < s.c.fx.nDrafts) (h : HostRuns (draftR n 0x10) false s) :
    exec (.abort n) s = .next { s with d := draftCmd s.c n 4 s.d } := congrArg Host.Outcome.next (draftCmd_runs hn h 4)

theorem exec_draftReset {n : Nat} {s : State} (hn : n < s.c.fx.nDrafts) (h : HostRuns (draftR n 0x10) false s) :
    exec (.draftReset n) s = .next { s with d := draftCmd s.c n 3 s.d } := congrArg Host.Outcome.next (draftCmd_runs hn h 3)

/-- The Draft is RUNNING (R348). -/
def DraftRunning (c : Cfg) (n : Nat) (d : Dyn) : Prop := c.draftEn n = true ∧ d.glb.st = .run ∧ (d.draft n).held = false

/-- The Draft is HELD, or a HOLD waits for its pass or for a step without NO_HOLD (R348, R360). -/
def HoldKnown (x : Draft) : Prop := x.held = true ∨ x.holdPend = true ∨ x.wantHold = true ∨ x.taken.hold = true

theorem draftCmd_hold_running {c : Cfg} {n : Nat} {d : Dyn} (hn : n < c.fx.nDrafts) (h : DraftRunning c n d) :
    draftCmd c n 1 d = d.setDraft n { d.draft n with cmdResult := 0, wantHold := true, wantResume := false } := by
  obtain ⟨hen, hst, hheld⟩ := h
  exact (if_neg hn.not_ge).trans (if_pos (by simp [hen, hst, hheld]))

theorem draftCmd_hold_refused {c : Cfg} {n : Nat} {d : Dyn} (hn : n < c.fx.nDrafts) (h : ¬DraftRunning c n d) :
    draftCmd c n 1 d = d.setDraft n { d.draft n with cmdResult := 0xC00D, reason := 0xC00D } :=
  (if_neg hn.not_ge).trans (if_neg (by simpa [DraftRunning, and_assoc] using h))

theorem draftCmd_resume_known {c : Cfg} {n : Nat} {d : Dyn} (hn : n < c.fx.nDrafts) (h : HoldKnown (d.draft n)) :
    draftCmd c n 2 d = d.setDraft n { d.draft n with cmdResult := 0, wantResume := true, wantHold := false } :=
  (if_neg hn.not_ge).trans (if_pos h)

theorem draftCmd_resume_refused {c : Cfg} {n : Nat} {d : Dyn} (hn : n < c.fx.nDrafts) (h : ¬HoldKnown (d.draft n)) :
    draftCmd c n 2 d = d.setDraft n { d.draft n with cmdResult := 0xC00D, reason := 0xC00D } :=
  (if_neg hn.not_ge).trans (if_neg h)

theorem draftCmd_abort {c : Cfg} {n : Nat} (d : Dyn) (hn : n < c.fx.nDrafts) :
    draftCmd c n 4 d = d.setDraft n { d.draft n with cmdResult := 0, wantAbort := c.draftEn n } := if_neg hn.not_ge

theorem draftCmd_reset {c : Cfg} {n : Nat} (d : Dyn) (hn : n < c.fx.nDrafts) :
    draftCmd c n 3 d = d.setDraft n { d.draft n with cmdResult := 0, wantReset := c.draftEn n } := if_neg hn.not_ge

/-- The step of a RUNNING Draft has reached its TIMEOUT and no transition is true (R347). -/
def StepDue (c : Cfg) (n : Nat) (d : Dyn) : Prop :=
  c.draftEn n = true ∧ d.glb.st = .run ∧ (d.draft n).held = false ∧ (d.draft n).startPend = false ∧
    firstTrans c (passNow c d) n (d.draft n).step ((d.draft n).stepTime d.ms) = none ∧
    0 < c.stepTimeout n (d.draft n).step ∧ c.stepTimeout n (d.draft n).step ≤ (d.draft n).stepTime d.ms

theorem stepTimeoutEv_early {c : Cfg} {n : Nat} {d : Dyn} (h : ¬StepDue c n d) : stepTimeoutEv c n d = d :=
  if_neg (by simpa [StepDue, and_assoc] using h)

theorem stepTimeoutEv_due {c : Cfg} {n : Nat} {d : Dyn} (h : StepDue c n d) : stepTimeoutEv c n d = stepTimeout c (passNow c d) n d :=
  if_pos (by simpa [StepDue, and_assoc] using h)

/-- A timeout enters TO_STEP; the fault it raises leaves every Draft as the entry has put it (R347). -/
theorem stepTimeout_enters (c : Cfg) (i : PassIn) (n : Nat) (d : Dyn) :
    let t := stepTimeout c i n d
    (t.draft n).step = c.stepTo n (d.draft n).step ∧ (t.draft n).prev = (d.draft n).step ∧ (t.draft n).time = 0 ∧ (t.draft n).atMs = i.ms ∧
      (t.draft n).entry = 2 ∧ (t.draft n).aborts = (d.draft n).aborts ∧ (∀ j, j ≠ n → t.draft j = d.draft j) ∧ Alike { t with seq := d.seq } d := by
  intro t
  have hraise : FltStep (enterStep c i n (c.stepTo n (d.draft n).step) 2 0 d) t := fault_step _ _ _ _ _ _ _ _ _
  obtain ⟨hframe, hothers, hstep, hprev, htime, hat, hentry, haborts⟩ := enterStep_spec c i n (c.stepTo n (d.draft n).step) 2 0 d _ rfl
  rw [hraise.draft n]
  refine ⟨hstep, hprev, htime, hat, hentry, haborts, fun j hj => (hraise.draft j).trans (hothers j hj), ?_⟩
  exact (congrArg (fun e : Dyn => ({ e with seq := d.seq } : Dyn)) hraise.alike).trans hframe

theorem flagSet_testBit (v : Word) (d : Dyn) {j : Nat} (hj : j < 32) :
    (flagSet v d).seq.flags.testBit j = (d.seq.flags.testBit j || v.toNat.testBit j) := by
  simp only [flagSet, BitVec.testBit_toNat, BitVec.getLsbD_or, BitVec.getLsbD_ofNat, hj, decide_true, Bool.true_and]

theorem flagClr_testBit (v : Word) (d : Dyn) {j : Nat} (hj : j < 32) :
    (flagClr v d).seq.flags.testBit j = (d.seq.flags.testBit j && !v.toNat.testBit j) := by
  simp only [flagClr, BitVec.testBit_toNat, BitVec.getLsbD_and, BitVec.getLsbD_not, BitVec.getLsbD_ofNat, hj, decide_true, Bool.true_and]

/-- A value that the host writes may leave its WRITE record in the archive (R37, R529). -/
theorem hostVal_dyn_runs {a : Nat} {s : State} (h : HostRuns a false s) (f : Dyn → Dyn) :
    ∃ x, hostVal a (fun s => { s with d := f s.d }) s = { s with d := { f s.d with arc := x } } := hostVal_runs h _

/-- Settles O30: each command by what its Draft is doing, the timeout by the entry into TO_STEP, the flags bit by bit. -/
theorem draftCommands : Obligations.DraftCommands := by
  unfold Obligations.DraftCommands
  intro n v s x put
  refine ⟨fun hn hhost => ?_, ?_, fun hhost => ?_, fun hhost => ?_⟩
  · refine ⟨fun hrun => (exec_draftHold hn hhost).trans (next_dyn (draftCmd_hold_running hn hrun)),
      fun hrun => (exec_draftHold hn hhost).trans (next_dyn (draftCmd_hold_refused hn hrun)),
      fun hknown => (exec_resume hn hhost).trans (next_dyn (draftCmd_resume_known hn hknown)), fun hheld hpend hwant htaken => ?_,
      (exec_abort hn hhost).trans (next_dyn (draftCmd_abort s.d hn)), (exec_draftReset hn hhost).trans (next_dyn (draftCmd_reset s.d hn))⟩
    have hnone : ¬HoldKnown x := by simp [HoldKnown, hheld, hpend, hwant, htaken]
    exact (exec_resume hn hhost).trans (next_dyn (draftCmd_resume_refused hn hnone))
  · intro due
    refine ⟨fun hearly => next_dyn (stepTimeoutEv_early hearly), fun hdue => ⟨_, next_dyn (stepTimeoutEv_due hdue), ?_⟩⟩
    obtain ⟨hstep, hprev, htime, hat, hentry, haborts, hothers, hframe⟩ := stepTimeout_enters s.c (passNow s.c s.d) n s.d
    exact ⟨hstep, hprev, htime, hat, hentry, haborts, rfl, hothers, hframe⟩
  · obtain ⟨a, hwrite⟩ := hostVal_dyn_runs hhost (flagSet v)
    exact ⟨_, congrArg Host.Outcome.next hwrite, fun _ hj => flagSet_testBit v s.d hj, rfl, rfl, rfl⟩
  · obtain ⟨a, hwrite⟩ := hostVal_dyn_runs hhost (flagClr v)
    exact ⟨_, congrArg Host.Outcome.next hwrite, fun _ hj => flagClr_testBit v s.d hj, rfl, rfl, rfl⟩

end Sys2Proof.Machine
end

section
/-! Outputs that latch, and the faults that a channel only reports (R376, R378, R386, R399, R409). -/

namespace Sys2Proof.Machine

open Sys2Proof

/-- A channel that is no odd half of a parallel pair holds its own state (R378). -/
theorem owner_self {c : Cfg} {k : Nat} (h : c.pairOdd k = false) : c.owner k = k := if_neg (by rw [h]; decide)

theorem backfed_latches {c : Cfg} {k : Nat} {d : Dyn} (hen : c.grpEn (k / 16) = true) (hout : c.isOut k = true) (hodd : c.pairOdd k = false)
    (hline : (d.grp (k / 16)).line ≠ 2) (hcnt : 3 ≤ (d.dch k).fedCnt) (hlatch : (d.dch k).latch = 0) : backfed c k d = latchOut c k 2 0x8069 d :=
  if_pos (by simp [fedUp, hen, hout, hodd, hline, hcnt, hlatch])

theorem driverFault_latches {c : Cfg} {k : Nat} {d : Dyn} (hen : c.grpEn (k / 16) = true) (hout : c.isOut k = true) (hcnt : 3 ≤ (d.dch k).drvCnt)
    (hlatch : (d.dch (c.owner k)).latch = 0) (hphase : (d.dch (c.owner k)).phase = 0) (hcond : (d.grp (k / 16)).cond = 2) :
    driverFault c k d = latchOut c (c.owner k) 3 0x806A d :=
  if_pos (by simp [fedUp, hen, hout, hcnt, hlatch, hphase, hcond])

theorem openLoad_reports {c : Cfg} {k : Nat} {d : Dyn} (hen : c.grpEn (k / 16) = true) (hout : c.isOut k = true) (hchk : c.dioOpenChk k = true)
    (hon : (d.grp (k / 16)).applied.testBit (k % 16) = true) (hload : (d.dch k).load < 10) (hnew : (d.dch k).openLoad = false) :
    openLoad c k d = fldFault c (0x8000 + k) 0x806B 1 false false (d.setDch k { d.dch k with openLoad := true }) :=
  if_pos (by simp [hen, hout, hchk, hon, hload, hnew])

/-- Settles O32: the two latches by `latch_core` on the channel that owns the output, the open load by its record alone. -/
theorem outputLatches : Obligations.OutputLatches := by
  unfold Obligations.OutputLatches
  intro k s hk hen hout hst hreset
  refine ⟨fun hodd hline hcnt hlatch => ?_, fun hcnt hlatch hphase hcond => ?_, fun hchk hon hload hnew => ?_⟩
  · exact ⟨_, (congrArg Host.Outcome.next (if_pos hk)).trans (next_dyn (backfed_latches hen hout hodd hline hcnt hlatch)),
      latch_core s.c k k 2 0x8069 s.d hk (owner_self hodd) (by decide) hst hreset rfl⟩
  · exact ⟨_, (congrArg Host.Outcome.next (if_pos hk)).trans (next_dyn (driverFault_latches hen hout hcnt hlatch hphase hcond)),
      latch_core s.c k (s.c.owner k) 3 0x806A s.d hk rfl (by decide) hst hreset (owner_grp s.c k)⟩
  · refine ⟨_, (congrArg Host.Outcome.next (if_pos hk)).trans (next_dyn (openLoad_reports hen hout hchk hon hload hnew)), ?_, ?_, ?_⟩
    · exact (fldFault_step s.c (0x8000 + k) 0x806B 1 false false (s.d.setDch k _) hst).alike
    · rw [fldFault_grp, setDch_grp]
    · exact (fldFault_opened s.c (0x8000 + k) 0x806B 1 false false (s.d.setDch k _) hst hreset (by omega)).of rfl rfl rfl

/-- A record raised after a mark outside the books opens, and moves the books alone. -/
theorem fault_reports {d e : Dyn} (c : Cfg) {src : Nat} (code sev : Nat) (hflt : e.flt = d.flt) (htim : e.tim = d.tim) (hsrc : src < 0xD100) :
    Alike (e.fault c src code sev 0 0 false false) e ∧ Opened d (e.fault c src code sev 0 0 false false) src code sev 0 0 false false :=
  ⟨(fault_step e c src code sev 0 0 false false).alike, fault_opened_after c src code sev 0 0 false false hflt htim (by omega)⟩

theorem outputOpen_reports {c : Cfg} {n : Nat} {d : Dyn} (hen : c.movEn n = true) (hkind : c.movKind n = 3) (hnew : (d.mch n).outBad ≠ 1) :
    outputOpen c n d = (d.setMch n { d.mch n with outBad := 1, outAt := d.ms }).fault c (0x9000 + n) 0x9065 2 0 0 false false :=
  (if_pos ⟨hen, hkind⟩).trans (if_neg hnew)

theorem outputShort_reports {c : Cfg} {n : Nat} {d : Dyn} (hen : c.movEn n = true) (hkind : c.movKind n = 1 ∨ c.movKind n = 2) (hnew : (d.mch n).outBad ≠ 2) :
    outputShort c n d = (d.setMch n { d.mch n with outBad := 2, outAt := d.ms }).fault c (0x9000 + n) 0x9066 2 0 0 false false :=
  (if_pos ⟨hen, hkind⟩).trans (if_neg hnew)

theorem partnerDriveMismatch_reports {c : Cfg} {n : Nat} {d : Dyn} (hsb : d.standby = true) (hen : c.movEn n = true) (hkind : c.movKind n = 1 ∨ c.movKind n = 2)
    (hnew : (d.mch n).misAt = none) :
    partnerDriveMismatch c n d = (d.setMch n { d.mch n with misAt := some d.ms }).fault c (0x9000 + n) 0x906F 1 0 0 false false :=
  (if_pos ⟨hsb, hen, hkind⟩).trans (if_neg (by rw [hnew]; decide))

theorem partnerOutputMismatch_reports {c : Cfg} {k : Nat} {d : Dyn} (hsb : d.standby = true) (hout : c.isOut k = true) (hcnt : 3 ≤ (d.dch k).misCnt)
    (hnew : d.openCode (0x8000 + k) [0x806E] = false) : partnerOutputMismatch c k d = d.fault c (0x8000 + k) 0x806E 1 0 0 false false :=
  if_pos (by simp [hsb, hout, hcnt, hnew])

theorem listenInputMismatch_reports {c : Cfg} {k : Nat} {d : Dyn} (hsb : d.standby = true) (hin : c.isIn k = true) (hne : (d.dch k).own ≠ (d.dch k).level)
    (hnew : d.openCode (0x8000 + k) [0x806D] = false) : listenInputMismatch c k d = d.fault c (0x8000 + k) 0x806D 1 0 0 false false :=
  if_pos (by simp [hsb, hin, hne, hnew])

/-- Settles O38: each event is its mark on the channel and a record. -/
theorem channelWarnings : Obligations.ChannelWarnings := by
  unfold Obligations.ChannelWarnings
  intro n k s hn hk
  refine ⟨fun hen hkind hnew => ?_, fun hen hkind hnew => ?_, fun hsb hen hkind hnew => ?_, fun hsb hout hcnt hnew => ?_, fun hsb hin hne hnew => ?_⟩
  · exact ⟨_, (congrArg Host.Outcome.next (if_pos hn)).trans (next_dyn (outputOpen_reports hen hkind hnew)), fault_reports s.c _ _ rfl rfl (by omega)⟩
  · exact ⟨_, (congrArg Host.Outcome.next (if_pos hn)).trans (next_dyn (outputShort_reports hen hkind hnew)), fault_reports s.c _ _ rfl rfl (by omega)⟩
  · exact ⟨_, (congrArg Host.Outcome.next (if_pos hn)).trans (next_dyn (partnerDriveMismatch_reports hsb hen hkind hnew)), fault_reports s.c _ _ rfl rfl (by omega)⟩
  · exact ⟨_, (congrArg Host.Outcome.next (if_pos hk)).trans (next_dyn (partnerOutputMismatch_reports hsb hout hcnt hnew)), fault_reports s.c _ _ rfl rfl (by omega)⟩
  · exact ⟨_, (congrArg Host.Outcome.next (if_pos hk)).trans (next_dyn (listenInputMismatch_reports hsb hin hne hnew)), fault_reports s.c _ _ rfl rfl (by omega)⟩

end Sys2Proof.Machine
end

section
/-! The clears of the field side: channel latches, MIN and the restore of a group (R377, R379, R384, R390, R405, R415). -/

namespace Sys2Proof.Machine

open Sys2Proof

theorem exec_dioChannelClear {k : Nat} {s : State} (hk : k < 64) (h : HostRuns (0x20020C + k / 16 * 0x1000 + k % 16 * 0x10) false s) :
    exec (.dioChannelClear k) s = .next { s with d := dioChannelClear s.c k s.d } :=
  congrArg Host.Outcome.next ((if_pos hk).trans (hostCmd_runs h _))

theorem exec_zero {k : Nat} {s : State} (hk : k < 64) (h : HostRuns (0x20020C + k / 16 * 0x1000 + k % 16 * 0x10) false s) :
    exec (.zero k) s = .next { s with d := dioZero s.c k s.d } :=
  congrArg Host.Outcome.next ((if_pos hk).trans (hostCmd_runs h _))

theorem exec_movClear {n : Nat} {s : State} (hn : n < 32) (h : HostRuns (0x220058 + 0x100 * n) false s) :
    exec (.movClear n) s = .next { s with d := reapplyMov s.c (n / 16) (movClear n s.d) } :=
  congrArg Host.Outcome.next ((if_pos hn).trans (hostCmd_runs h _))

/-- What the three bits of a group's command register share: a command that is taken reaches its group (R390, R415). -/
theorem groupCmd_runs {p : Prop} [Decidable p] {g : Nat} {s : State} (hp : p) (h : HostRuns (grpA g + 0xC) false s) (kind : Nat) :
    (if p then hostCmd (grpA g + 0xC) false (fun s => { s with d := groupCmd s.c g kind s.d }) s else s) = { s with d := groupCmd s.c g kind s.d } :=
  (if_pos hp).trans (hostCmd_runs h _)

/-- A channel without its latch, and with the counts that led to it at 0 (R379). -/
def DChan.unlatched (x : DChan) : DChan := { x with latch := 0, retries := 0, fedCnt := 0, drvCnt := 0 }

/-- CLEAR on a latched channel ends the latch on the channel that owns the output, and closes its record (R379). -/
theorem clearLatch_latched {c : Cfg} {k : Nat} {d : Dyn} (h : (d.dch (c.owner k)).latch ≠ 0) :
    clearLatch c k d = (d.setDch (c.owner k) (d.dch (c.owner k)).unlatched).clears (0x8000 + c.owner k) [0x8068, 0x8069, 0x806A] := if_neg h

theorem clearLatch_unlatched {c : Cfg} {k : Nat} {d : Dyn} (h : (d.dch (c.owner k)).latch = 0) : clearLatch c k d = d := if_pos h

/-- CLEAR of a latched channel, RESULT included (R379, R390). -/
theorem dioChannelClear_latched {c : Cfg} {k : Nat} {d : Dyn} (h : (d.dch (c.owner k)).latch ≠ 0) :
    let o := c.owner k
    let t := dioChannelClear c k d
    Closed d t (0x8000 + o) [0x8068, 0x8069, 0x806A] ∧
      t.dch o = { d.dch o with latch := 0, retries := 0, fedCnt := 0, drvCnt := 0, cmdResult := if o = k then 0 else (d.dch o).cmdResult } ∧
      (o ≠ k → t.dch k = { d.dch k with cmdResult := 0 }) ∧ (∀ j, j ≠ k → j ≠ o → t.dch j = d.dch j) ∧ (∀ h, t.grp h = d.grp h) ∧
      Alike { t with fld := d.fld } d := by
  intro o t
  obtain ⟨hstep, hgrp, hother, -, -⟩ := clearLatch_spec c k d
  have hown : (clearLatch c k d).dch o = (d.dch o).unlatched := by rw [clearLatch_latched h, clears_dch, setDch_same]
  have hclosed : Closed d (clearLatch c k d) (0x8000 + o) [0x8068, 0x8069, 0x806A] := by
    rw [clearLatch_latched h]
    exact (clears_closed (d.setDch o (d.dch o).unlatched) _ _).of rfl rfl
  refine ⟨hclosed.of rfl rfl, ?_, fun hne => ?_, fun j hk ho => ?_, hgrp, hstep.trans (setDch_step _ k _)⟩
  · refine (setDch_get _ k o _).trans ?_
    by_cases he : o = k
    · have hk : (clearLatch c k d).dch k = (d.dch o).unlatched := (congrArg _ he.symm).trans hown
      rw [if_pos he, if_pos he, hk]
      rfl
    · rw [if_neg he, if_neg he, hown]
      rfl
  · exact (setDch_same _ k _).trans (by rw [hother k (Ne.symm hne)])
  · exact (setDch_other _ k j _ hk).trans (hother j ho)

/-- CLEAR of a channel without a latch sets RESULT alone. -/
theorem dioChannelClear_unlatched {c : Cfg} {k : Nat} {d : Dyn} (h : (d.dch (c.owner k)).latch = 0) :
    dioChannelClear c k d = d.setDch k { d.dch k with cmdResult := 0 } :=
  congrArg (fun e : Dyn => e.setDch k { e.dch k with cmdResult := 0 }) (clearLatch_unlatched h)

/-- CLEAR of a digital group ends the latch of every channel that holds its own state (R379). -/
theorem dioGroupClear_clears (c : Cfg) (g : Nat) (d : Dyn) :
    let t := dioGroupClear c g d
    (t.grp g).cmdResult = 0 ∧ (∀ j, j / 16 = g → c.owner j = j → (t.dch j).latch = 0) ∧ (∀ j, j / 16 ≠ g → t.dch j = d.dch j) ∧ Alike { t with fld := d.fld } d := by
  obtain ⟨hstep, -, hcleared, hother⟩ := clearLoop c (upFrom (16 * g) 16) (fun _ _ => trivial) d
  unfold dioGroupClear
  generalize forEach (upFrom (16 * g) 16) d (clearLatch c) = e at hstep hcleared hother
  refine ⟨congrArg FGrp.cmdResult (setGrp_same _ g _), fun j hj ho => ?_, fun j hj => ?_, hstep.trans (setGrp_step _ g _)⟩
  · exact hcleared j (.inr ⟨(upFrom_mem _ _ _).2 (by omega), ho⟩)
  · refine hother j fun k hk ho => ?_
    have hgrp := owner_grp c k
    rw [upFrom_mem] at hk
    rw [ho] at hgrp
    omega

theorem dioZero_counter {c : Cfg} {k : Nat} {d : Dyn} (h : c.dioMode k = 2) : dioZero c k d = d.setDch k { d.dch k with count := 0, cmdResult := 0 } := if_pos h

theorem dioZero_refused {c : Cfg} {k : Nat} {d : Dyn} (h : c.dioMode k ≠ 2) : dioZero c k d = d.setDch k { d.dch k with cmdResult := 0x800D } := if_neg h

/-- A RESTORE of a restorable group is the restore of R384, with RESULT 0. -/
theorem grpRestore_restores {g : Nat} {d : Dyn} (h : (d.grp g).restorable = true) :
    grpRestore g d = (restoreGrp g d).setGrp g { (restoreGrp g d).grp g with cmdResult := 0 } := if_pos h

/-- A RESTORE that comes too early sets RESULT alone (R384). -/
theorem grpRestore_early {g : Nat} {d : Dyn} (h : (d.grp g).restorable = false) :
    grpRestore g d = d.setGrp g { d.grp g with cmdResult := if g < 4 then 0x8045 else 0x9044 } := if_neg (by rw [h]; decide)

/-- Settles O34, command by command: `dioChannelClear_latched` for a latch, `clearLoop` for a group's latches, `restore_core` for a restore. -/
theorem fieldClears : Obligations.FieldClears := by
  unfold Obligations.FieldClears
  intro k g s hk hg o
  refine ⟨fun hhost => ⟨fun hlatch => ?_, fun hlatch => ?_, fun hmode => ?_, fun hmode => ?_⟩, fun hhost => ⟨?_, ?_, fun hrest => ?_, fun hrest => ?_⟩⟩
  · exact ⟨_, exec_dioChannelClear hk hhost, dioChannelClear_latched hlatch⟩
  · exact (exec_dioChannelClear hk hhost).trans (next_dyn (dioChannelClear_unlatched hlatch))
  · exact (exec_zero hk hhost).trans (next_dyn (dioZero_counter hmode))
  · exact (exec_zero hk hhost).trans (next_dyn (dioZero_refused hmode))
  · exact ⟨_, (congrArg Host.Outcome.next (groupCmd_runs hg hhost 2)).trans (next_dyn (if_pos hg)), dioGroupClear_clears s.c g s.d⟩
  · exact congrArg Host.Outcome.next (groupCmd_runs hg hhost 1)
  · obtain ⟨hclosed, hgrp, hgrps, hdch, -, hframe⟩ := restore_core g s.d
    refine ⟨_, (congrArg Host.Outcome.next (groupCmd_runs hg hhost 0)).trans (next_dyn (grpRestore_restores hrest)), hclosed, hgrp, hgrps, fun j => ?_, hframe⟩
    exact (hdch j).trans (if_congr (and_iff_right hg) rfl rfl)
  · refine (congrArg Host.Outcome.next (groupCmd_runs hg hhost 0)).trans (next_dyn ((grpRestore_early hrest).trans ?_))
    rw [if_pos hg]

/-- Driving a mover group anew leaves the states, latches, retries and results of its channels. -/
theorem reapplyMov_keeps (c : Cfg) (m n : Nat) (d : Dyn) :
    ((reapplyMov c m d).mch n).state = (d.mch n).state ∧ ((reapplyMov c m d).mch n).latch = (d.mch n).latch ∧
      ((reapplyMov c m d).mch n).retry = (d.mch n).retry ∧ ((reapplyMov c m d).mch n).cmdResult = (d.mch n).cmdResult := by
  rw [reapplyMov_mch]
  split <;> exact ⟨rfl, rfl, rfl, rfl⟩

theorem reapplyMov_state (c : Cfg) (m n : Nat) (d : Dyn) : ((reapplyMov c m d).mch n).state = (d.mch n).state := (reapplyMov_keeps c m n d).1

theorem reapplyMov_other (c : Cfg) {m n : Nat} (d : Dyn) (h : n / 16 ≠ m) : (reapplyMov c m d).mch n = d.mch n :=
  (reapplyMov_mch c m n d).trans (if_neg h)

/-- CLEAR takes a latched fan channel to OFF and closes its record (R405). -/
theorem movUnlatch_latched {n : Nat} {d : Dyn} (h : (d.mch n).state = 6) :
    movUnlatch n d = (d.setMch n { (d.mch n).go d.ms 1 with latch := 0, retry := 0 }).clears (0x9000 + n) [0x9061, 0x9062] := if_pos h

/-- CLEAR of a channel that is not latched sets RESULT alone. -/
theorem movClear_unlatched {n : Nat} {d : Dyn} (h : (d.mch n).state ≠ 6) : movClear n d = d.setMch n { d.mch n with cmdResult := 0 } :=
  congrArg (fun e : Dyn => e.setMch n { e.mch n with cmdResult := 0 }) (if_neg h)

theorem movClear_latched {n : Nat} {d : Dyn} (h : (d.mch n).state = 6) :
    let t := movClear n d
    t.mch n = { (d.mch n).go d.ms 1 with latch := 0, retry := 0, cmdResult := 0 } ∧ Closed d t (0x9000 + n) [0x9061, 0x9062] ∧
      (∀ j, j ≠ n → t.mch j = d.mch j) ∧ (∀ g, t.grp g = d.grp g) ∧ FldStep d t := by
  intro t
  obtain ⟨hstep, hgrp, hother, -, -⟩ := unlatch_spec n d
  have hclosed : Closed d (movUnlatch n d) (0x9000 + n) [0x9061, 0x9062] := by
    rw [movUnlatch_latched h]
    exact (clears_closed (d.setMch n _) _ _).of rfl rfl
  have hown : (movUnlatch n d).mch n = { (d.mch n).go d.ms 1 with latch := 0, retry := 0 } := by
    rw [movUnlatch_latched h, clears_mch, setMch_same]
  refine ⟨(setMch_same _ n _).trans (by rw [hown]), hclosed.of rfl rfl, fun j hj => ?_, hgrp, hstep.trans (setMch_step _ n _)⟩
  exact (setMch_other _ n j _ hj).trans (hother j hj)

/-- CLEAR of a mover group leaves none of its channels latched (R405), and its die drives anew. -/
theorem movGroupClear_clears (c : Cfg) (m : Nat) (d : Dyn) :
    let t := reapplyMov c m (movGroupClear m d)
    (t.grp (4 + m)).cmdResult = 0 ∧ (∀ j, j / 16 = m → (t.mch j).state ≠ 6) ∧ (∀ j, j / 16 ≠ m → t.mch j = d.mch j) ∧ (∀ k, t.dch k = d.dch k) ∧
      Alike { t with fld := d.fld } d := by
  obtain ⟨hstep, -, hcleared, hother, hdch⟩ := unlatchLoop (upFrom (16 * m) 16) d
  unfold movGroupClear
  generalize forEach (upFrom (16 * m) 16) d movUnlatch = e at hstep hcleared hother hdch
  refine ⟨?_, fun j hj => ?_, fun j hj => ?_, fun k => ?_, (hstep.trans (setGrp_step _ (4 + m) _)).trans (reapplyMov_alike c m _)⟩
  · rw [reapplyMov_grp]
    exact congrArg FGrp.cmdResult (setGrp_same _ (4 + m) _)
  · rw [reapplyMov_state]
    exact hcleared j (.inr ((upFrom_mem _ _ _).2 (by omega)))
  · rw [reapplyMov_other c _ hj]
    exact hother j (by rw [upFrom_mem]; omega)
  · rw [reapplyMov_dch]
    exact hdch k

/-- CLEAR of a group of the mover side reaches the mover channels. -/
theorem groupCmd_movClear (c : Cfg) (m : Nat) (d : Dyn) : groupCmd c (4 + m) 2 d = reapplyMov c m (movGroupClear m d) := by
  show (if 4 + m < 4 then _ else moverGroup c (4 + m) (movGroupClear (4 + m - 4) d)) = _
  rw [if_neg (by omega), moverGroup, if_neg (by omega), Nat.add_sub_cancel_left]

/-- Settles O35: the channel's clear by `movClear_latched`, the group's by `unlatchLoop`, the restore by `restore_core` as on a digital group. -/
theorem moverClears : Obligations.MoverClears := by
  unfold Obligations.MoverClears
  intro n m s hn hm
  refine ⟨fun hhost hst => ?_, fun hhost hst => ?_, fun hhost => ?_, fun hhost => ?_, fun hhost hrest => ?_, fun hhost hrest => ?_⟩
  · obtain ⟨hown, hclosed, hother, hgrp, hstep⟩ := movClear_latched hst
    obtain ⟨hstate, hlatch, hretry, hresult⟩ := reapplyMov_keeps s.c (n / 16) n (movClear n s.d)
    rw [hown] at hstate hlatch hretry hresult
    refine ⟨_, exec_movClear hn hhost, hstate, hlatch, hretry, hresult,
      hclosed.of rfl (reapplyMov_flt' _ _ _), fun j hj => ?_, fun j hj => ?_, fun g => ?_, hstep.trans (reapplyMov_alike _ _ _)⟩
    · rw [reapplyMov_other _ _ hj, hother j (fun he => hj (by rw [he]))]
    · rw [reapplyMov_state, hother j hj]
    · rw [reapplyMov_grp, hgrp]
  · exact (exec_movClear hn hhost).trans (next_dyn (congrArg (reapplyMov s.c (n / 16)) (movClear_unlatched hst)))
  · exact ⟨_, (congrArg Host.Outcome.next (groupCmd_runs hm hhost 2)).trans (next_dyn (groupCmd_movClear s.c m s.d)), movGroupClear_clears s.c m s.d⟩
  · exact congrArg Host.Outcome.next (groupCmd_runs hm hhost 1)
  · obtain ⟨hclosed, hgrp, hgrps, -, hmch, hframe⟩ := restore_core (4 + m) s.d
    exact ⟨_, (congrArg Host.Outcome.next (groupCmd_runs hm hhost 0)).trans (next_dyn (grpRestore_restores hrest)), hclosed, hgrp, hgrps, hmch, hframe⟩
  · refine (congrArg Host.Outcome.next (groupCmd_runs hm hhost 0)).trans (next_dyn ((grpRestore_early hrest).trans ?_))
    rw [if_neg (by omega)]

end Sys2Proof.Machine
end

section
/-! The digital inputs: samples, debounced states and breaks (R369 to R373, R386). -/

namespace Sys2Proof.Machine

open Sys2Proof

/-- The group after its levels were sampled, before its channels take their samples (R369). -/
def Dyn.sampled (d : Dyn) (g levels : Nat) : Dyn := d.setGrp g { d.grp g with raw := levels % 65536 }

theorem inputSample_samples {c : Cfg} {g : Nat} (levels : Nat) {d : Dyn} (hg : g < 4) (hen : c.grpEn g = true) (h5 : (d.grp g).cond ≠ 5) (h6 : (d.grp g).cond ≠ 6) :
    inputSample c g levels d = forEach (List.range 16) (d.sampled g levels) (fun i d => sampleChan (16 * g + i) (levels.testBit i) d) :=
  if_pos ⟨hg, hen, h5, h6⟩

/-- A sample that agrees with its run lengthens it (R369). -/
theorem smp_agrees {lv : Bool} (net ep : Nat) {x : DChan} (hrun : x.run ≠ 0) (hlv : lv = x.cand) : smp lv net ep x = { x with run := min (x.run + 1) 65535 } :=
  if_pos ⟨hrun, hlv⟩

/-- Any other sample starts a run at its own time (R369). -/
theorem smp_starts {lv : Bool} (net ep : Nat) {x : DChan} (h : x.run = 0 ∨ lv ≠ x.cand) : smp lv net ep x = { x with cand := lv, run := 1, stamp := net, stampEp := ep } :=
  if_neg fun ⟨hrun, hlv⟩ => h.elim hrun (absurd hlv)

/-- The run of channel `k` has the debounce length, and neither its group nor a break holds the state back (R369 to R371). -/
def Debounced (c : Cfg) (k : Nat) (d : Dyn) : Prop :=
  c.isIn k = true ∧ c.grpEn (k / 16) = true ∧ c.debNeed k ≤ (d.dch k).run ∧ dioCause d k ≠ 3 ∧ ((d.dch k).brk = true → (d.dch k).brkAt + 50 ≤ d.ms)

theorem Debounced.holds {c : Cfg} {k : Nat} {d : Dyn} (h : Debounced c k d) :
    (c.isIn k && c.grpEn (k / 16) && decide (c.debNeed k ≤ (d.dch k).run) && dioCause d k != 3 && !brkHeld d k) = true := by
  obtain ⟨hin, hen, hrun, hcause, hbrk⟩ := h
  have hfree : brkHeld d k = false := by
    cases hb : (d.dch k).brk with
    | false => simp [brkHeld, hb]
    | true => simp [brkHeld, hbrk hb]
  simp [hin, hen, hrun, hcause, hfree]

/-- The module's own debounced state of channel `k`, taken from its run. -/
def Dyn.ownTaken (d : Dyn) (k : Nat) : Dyn := d.setDch k { d.dch k with own := (d.dch k).cand, hasOwn := true }

/-- The module takes a debounced state that is new (R369, R371). -/
theorem debouncedChange_takes {c : Cfg} {k : Nat} {d : Dyn} (h : Debounced c k d) (hsb : d.standby = false)
    (hnew : (d.dch k).hasState = false ∨ (d.dch k).brk = true ∨ (d.dch k).cand ≠ (d.dch k).level) :
    debouncedChange c k d = takeState c k (d.dch k).cand (d.dch k).stamp (d.dch k).stampEp (d.ownTaken k) :=
  (if_pos h.holds).trans ((if_neg (by rw [hsb]; decide)).trans (if_pos (by simpa [or_assoc] using hnew)))

/-- A STANDBY compares the state with the mirror (R386). -/
theorem debouncedChange_listens {c : Cfg} {k : Nat} {d : Dyn} (h : Debounced c k d) (hsb : d.standby = true) :
    debouncedChange c k d = listenAgree k (d.ownTaken k) := (if_pos h.holds).trans (if_pos hsb)

/-- A rise that CHG selects brings DIO_CHANGE with the time stamp of its run (R372). -/
theorem takeState_event {c : Cfg} {k : Nat} (stamp ep : Nat) {d : Dyn} (hguard : c.dioGuard k = false) (hstate : (d.dch k).hasState = true)
    (hlevel : (d.dch k).level = false) (hst : d.glb.st = .run) (hchg : c.dioChg k % 2 = 1) (hroom : d.flt.events.length < 256) :
    ∃ e ∈ (takeState c k true stamp ep d).flt.events, e.r.code = 0x806F ∧ e.r.source = 0x8000 + k ∧ e.r.sev = 0 ∧ e.r.a = 1 ∧ e.r.first = stamp := by
  have htake : takeState c k true stamp ep d =
      dioChange c k true stamp ep ((d.setDch k { d.dch k with level := true, hasState := true, brk := false }).clears (0x8000 + k) [0x806C]) := by
    simp [takeState, deliverDio, hguard, hstate, hlevel]
  rw [htake]
  exact dioChange_event c k stamp ep _ (by rw [clears_glb]; exact hst) hchg (by rw [clears_events]; exact hroom)

theorem listenAgree_dch (k j : Nat) (d : Dyn) : (listenAgree k d).dch j = d.dch j := by
  unfold listenAgree
  dsimp only
  split
  · exact clears_dch _ _ _ _
  · rfl

theorem listenAgree_agrees {k : Nat} {d : Dyn} (h : (d.dch k).own = (d.dch k).level) : listenAgree k d = d.clears (0x8000 + k) [0x806D] := if_pos h

theorem listenAgree_differs {k : Nat} {d : Dyn} (h : (d.dch k).own ≠ (d.dch k).level) : listenAgree k d = d := if_neg h

/-- The channel with its wire broken: its run is discarded (R371). -/
def Dyn.broken (d : Dyn) (k : Nat) : Dyn := d.setDch k { d.dch k with brk := true, brkAt := d.ms, run := 0, hasOwn := false }

theorem inputBreak_breaks {c : Cfg} {k : Nat} {d : Dyn} (hin : c.isIn k = true) (hen : c.grpEn (k / 16) = true) (hchk : c.bF (dioA k 0) 2 = true) :
    inputBreak c k d = if (d.dch k).brk then d.broken k else deliverDio c k (fldFault c (0x8000 + k) 0x806C 2 false false (d.broken k)) :=
  if_pos (by simp [hin, hen, hchk])

/-- While the channel is INVALID for a break, another one starts its 50 ms anew (R371). -/
theorem inputBreak_again {c : Cfg} {k : Nat} {d : Dyn} (hin : c.isIn k = true) (hen : c.grpEn (k / 16) = true) (hchk : c.bF (dioA k 0) 2 = true)
    (hbrk : (d.dch k).brk = true) : inputBreak c k d = d.setDch k { d.dch k with brkAt := d.ms, run := 0, hasOwn := false } := by
  rw [inputBreak_breaks hin hen hchk, if_pos hbrk, Dyn.broken, ← hbrk]

/-- A first break opens its record and reaches the guard terms that name the channel (R371, R373). -/
theorem inputBreak_first {c : Cfg} {k : Nat} {d : Dyn} (hin : c.isIn k = true) (hen : c.grpEn (k / 16) = true) (hchk : c.bF (dioA k 0) 2 = true)
    (hbrk : (d.dch k).brk = false) : inputBreak c k d = deliverDio c k (fldFault c (0x8000 + k) 0x806C 2 false false (d.broken k)) := by
  rw [inputBreak_breaks hin hen hchk, if_neg (by rw [hbrk]; decide)]

/-- Settles O36: a sample by `sampleLoop` and `smp`, a debounced state by what taking it or comparing it does, a break by its record. -/
theorem inputSampling : Obligations.InputSampling := by
  unfold Obligations.InputSampling
  intro g k levels s hg hk
  refine ⟨fun hen h5 h6 => ?_, fun hin hen hsb hrun hcause hbrk hnew => ?_, fun hin hen hsb hrun hcause hbrk => ?_, fun hin hen hchk hbrk => ?_,
    fun hin hen hchk hst hreset hbrk => ?_⟩
  · obtain ⟨hdch, hgrp, f, hfld⟩ := sampleLoop g levels (List.range 16) List.nodup_range (fun i hi => List.mem_range.1 hi) (s.d.sampled g levels)
    have hmem : ∀ j, j % 16 ∈ List.range 16 := fun j => List.mem_range.2 (by omega)
    refine ⟨_, (congrArg Host.Outcome.next (if_pos hg)).trans (next_dyn (inputSample_samples levels hg hen h5 h6)), ?_, fun j hj hrun hlv => ?_,
      fun j hj hstart => ?_, fun j hj => ?_, ?_⟩
    · rw [hgrp, Dyn.sampled, setGrp_same]
    · exact (hdch j).trans ((if_pos ⟨hj, hmem j⟩).trans (smp_agrees _ _ hrun hlv))
    · exact (hdch j).trans ((if_pos ⟨hj, hmem j⟩).trans (smp_starts _ _ hstart))
    · exact (hdch j).trans (if_neg fun h => hj h.1)
    · rw [hfld]
      rfl
  · obtain ⟨hstep, hdch, hclosed⟩ := take_spec s.c k (s.d.dch k).cand (s.d.dch k).stamp (s.d.dch k).stampEp (s.d.ownTaken k)
    have hown : (s.d.ownTaken k).dch k = { s.d.dch k with own := (s.d.dch k).cand, hasOwn := true } := setDch_same _ _ _
    refine ⟨_, (congrArg Host.Outcome.next (if_pos hk)).trans (next_dyn (debouncedChange_takes ⟨hin, hen, hrun, hcause, hbrk⟩ hsb hnew)), ?_, fun j hj => ?_,
      hclosed hk, fun hguard hstate hlevel hcand hst hchg hroom => ?_, FGStep.trans (setDch_step s.d k _).grdfld hstep⟩
    · rw [hdch, if_pos rfl, hown]
    · rw [hdch, if_neg hj]
      exact setDch_other _ _ _ _ hj
    · rw [hcand]
      exact takeState_event _ _ hguard (by rw [hown]; exact hstate) (by rw [hown]; exact hlevel) hst hchg hroom
  · have hown : (s.d.ownTaken k).dch k = { s.d.dch k with own := (s.d.dch k).cand, hasOwn := true } := setDch_same _ _ _
    refine ⟨_, (congrArg Host.Outcome.next (if_pos hk)).trans (next_dyn (debouncedChange_listens ⟨hin, hen, hrun, hcause, hbrk⟩ hsb)), ?_, fun j hj => ?_,
      fun hagree => ?_, fun hdiffer => ?_⟩
    · rw [listenAgree_dch, hown]
    · rw [listenAgree_dch]
      exact setDch_other _ _ _ _ hj
    · rw [listenAgree_agrees (by rw [hown]; exact hagree)]
      exact (clears_closed (s.d.ownTaken k) _ _).of rfl rfl
    · rw [listenAgree_differs (by rw [hown]; exact hdiffer)]
      rfl
  · exact (congrArg Host.Outcome.next (if_pos hk)).trans (next_dyn (inputBreak_again hin hen hchk hbrk))
  · have hopen := fldFault_opened s.c (0x8000 + k) 0x806C 2 false false (s.d.broken k) hst hreset (by omega)
    have hfault := fldFault_step s.c (0x8000 + k) 0x806C 2 false false (s.d.broken k) hst
    refine ⟨_, (congrArg Host.Outcome.next (if_pos hk)).trans (next_dyn (inputBreak_first hin hen hchk hbrk)), ?_, fun j hj => ?_, fun hnone => ?_, ?_⟩
    · rw [deliverDio_dch, fldFault_dch]
      exact setDch_same _ _ _
    · rw [deliverDio_dch, fldFault_dch]
      exact setDch_other _ _ _ _ hj
    · rw [deliverDio_find _ _ _ _ (by omega)]
      exact hopen.1 hnone
    · exact FGStep.trans (((setDch_step s.d k _).trans hfault.fld).grdfld) (deliverDio_step s.c k _).fg

end Sys2Proof.Machine
end

section
/-! The supply of a field group, and its status records (R383, R384, R385). -/

namespace Sys2Proof.Machine

open Sys2Proof

/-- The group at its cut (R383). -/
def Dyn.cutOff (d : Dyn) (g : Nat) : Dyn := d.setGrp g { d.grp g with cond := 4, latch := 4, cfOk := false, restorable := false }

/-- A cut of a group that is neither cut nor lost latches it with cause CUT, and its die drives anew (R383). -/
theorem fieldCut_latches {c : Cfg} {g : Nat} {d : Dyn} (hen : c.grpEn g = true) (h4 : (d.grp g).cond ≠ 4) (hl : (d.grp g).latch ≠ 5) (h5 : (d.grp g).cond ≠ 5)
    (h6 : (d.grp g).cond ≠ 6) : moverGroup c g (fieldCut c g d) = reapplyG c g (fldFault c (grpSrc g) (grpCode g 2) 3 false false (d.cutOff g)) := by
  rw [cut_eq c g d hen h4, if_neg (by omega), if_neg hl, Dyn.cutOff]

/-- What such a cut leaves: its marks on the group, every other group and every digital channel as before (R383). -/
theorem fieldCut_marks {c : Cfg} {g : Nat} {d : Dyn} (hen : c.grpEn g = true) (h4 : (d.grp g).cond ≠ 4) (hl : (d.grp g).latch ≠ 5) (h5 : (d.grp g).cond ≠ 5)
    (h6 : (d.grp g).cond ≠ 6) :
    let t := moverGroup c g (fieldCut c g d)
    { t.grp g with applied := (d.grp g).applied } = { d.grp g with cond := 4, latch := 4, cfOk := false, restorable := false } ∧
      (∀ h, h ≠ g → t.grp h = d.grp h) ∧ (∀ k, t.dch k = d.dch k) ∧ FldStep d t := by
  have hcut : (d.cutOff g).grp g = { d.grp g with cond := 4, latch := 4, cfOk := false, restorable := false } := setGrp_same _ _ _
  have hown := reapplyG_own c g (fldFault c (grpSrc g) (grpCode g 2) 3 false false (d.cutOff g))
  rw [fldFault_grp, hcut] at hown
  rw [fieldCut_latches hen h4 hl h5 h6]
  refine ⟨hown, fun h hh => ?_, fun k => ?_, ((setGrp_step d g _).trans (fldFault_fld _ _ _ _ _ _ _)).trans (reapplyG_fld c g _)⟩
  · rw [reapplyG_other _ _ hh, fldFault_grp]
    exact setGrp_other _ _ _ _ hh
  · rw [reapplyG_dch, fldFault_dch]
    rfl

theorem groupRestorable_marks {c : Cfg} {g : Nat} {d : Dyn} (hen : c.grpEn g = true) (h5 : (d.grp g).cond ≠ 5) (h6 : (d.grp g).cond ≠ 6) (hl : (d.grp g).latch ≠ 0)
    (hok : (d.grp g).cfOk = true) (hbad : (d.grp g).badRun = 0) (hnow : 1800 ≤ (d.grp g).now) :
    groupRestorable c g d = d.setGrp g { d.grp g with restorable := true } :=
  if_pos (by simp [hen, h5, h6, hl, hok, hbad, hnow])

theorem groupRecordClose_closes {g : Nat} {d : Dyn} (hl : (d.grp g).latch = 0) (hnow : 1960 ≤ (d.grp g).now) :
    groupRecordClose g d = d.clears (grpSrc g) [grpCode g 0, grpCode g 1, grpCode g 2, grpCode g 3] := if_pos ⟨hl, hnow⟩

/-- Settles O40: the cut by `fieldCut_latches` and the die that a latched group has, the records of the supply by `clears_closed`. -/
theorem fieldSupplyLoss : Obligations.FieldSupplyLoss := by
  unfold Obligations.FieldSupplyLoss
  intro g s hg
  refine ⟨fun hen hst h4 hl h5 h6 => ?_, fun hen h5 h6 hl hok hbad hnow => ?_, fun hl hnow => ?_⟩
  · have hcut : (s.d.cutOff g).grp g = { s.d.grp g with cond := 4, latch := 4, cfOk := false, restorable := false } := setGrp_same _ _ _
    obtain ⟨hown, -, -, -⟩ := fieldCut_marks hen h4 hl h5 h6
    rw [fieldCut_latches hen h4 hl h5 h6] at hown
    obtain ⟨hoff, hdrive⟩ := reapplyG_off s.c g hg (fldFault s.c (grpSrc g) (grpCode g 2) 3 false false (s.d.cutOff g))
      (by rw [fldFault_grp, hcut]; exact .inr (.inr (show (4 : Nat) ≠ 0 by decide)))
    refine ⟨_, (congrArg Host.Outcome.next (if_pos hg)).trans (next_dyn (fieldCut_latches hen h4 hl h5 h6)), (congrArg FGrp.cond hown).trans rfl,
      (congrArg FGrp.latch hown).trans rfl, (congrArg FGrp.cfOk hown).trans rfl, (congrArg FGrp.restorable hown).trans rfl, hoff, hdrive, fun hreset => ?_, ?_⟩
    · exact (fldFault_opened s.c (grpSrc g) (grpCode g 2) 3 false false (s.d.cutOff g) hst hreset (grpSrc_ne g hg).1).of rfl rfl (reapplyG_flt' _ _ _)
    · exact (reapplyG_flt s.c g (fldFault_step s.c (grpSrc g) (grpCode g 2) 3 false false (s.d.cutOff g) hst)).alike
  · exact (congrArg Host.Outcome.next (if_pos hg)).trans (next_dyn (groupRestorable_marks hen h5 h6 hl hok hbad hnow))
  · exact ⟨_, (congrArg Host.Outcome.next (if_pos hg)).trans (next_dyn (groupRecordClose_closes hl hnow)), (clears_step _ _ _).alike, clears_closed _ _ _⟩

/-- The last four samples of a group's supply, the new one among them (R383). -/
def supplyLast (x : FGrp) (mv : Nat) : List Nat := (x.samples ++ [mv]).drop ((x.samples.length + 1) - 4)

/-- Their mean, in mV. -/
def supplyMean (x : FGrp) (mv : Nat) : Nat := (supplyLast x mv).foldl (· + ·) 0 / (supplyLast x mv).length

/-- A group that was neither low nor cut, after a sample of its supply (R383). -/
def supplied (x : FGrp) (mv : Nat) : FGrp :=
  { x with samples := supplyLast x mv, now := min (supplyMean x mv / 10) 4095, min := min x.min (min (supplyMean x mv / 10) 4095),
           low := decide (supplyMean x mv < 19200) || (x.low && decide (supplyMean x mv < 19600)),
           restorable := x.restorable && decide (18000 < supplyMean x mv),
           cfOk := decide (12400 ≤ supplyMean x mv) || (x.cfOk && decide (12000 ≤ supplyMean x mv)), cond := if supplyMean x mv < 16000 then 3 else 2 }

/-- A change outside the groups and the digital channels: of the books, and of the late records. -/
def FieldKept (d e : Dyn) : Prop := FldStep d e ∧ (∀ g, e.grp g = d.grp g) ∧ ∀ k, e.dch k = d.dch k

theorem FieldKept.refl (d : Dyn) : FieldKept d d := ⟨rfl, fun _ => rfl, fun _ => rfl⟩

theorem FieldKept.trans {d e f : Dyn} (h1 : FieldKept d e) (h2 : FieldKept e f) : FieldKept d f :=
  ⟨h1.1.trans h2.1, fun g => (h2.2.1 g).trans (h1.2.1 g), fun k => (h2.2.2 k).trans (h1.2.2 k)⟩

theorem fldFault_kept (c : Cfg) (src code sev : Nat) (x y : Bool) (d : Dyn) : FieldKept d (fldFault c src code sev x y d) :=
  ⟨fldFault_fld c src code sev x y d, fldFault_grp c src code sev x y d, fldFault_dch c src code sev x y d⟩

/-- A mover group that drives anew moves its channels alone. -/
theorem moverGroup_kept (c : Cfg) (g : Nat) (d : Dyn) : FieldKept d (moverGroup c g d) :=
  ⟨moverG_fld c g d, fun h => moverG_grp c g h d, fun k => moverG_dch c g k d⟩

/-- FIELD_LOW, where it is new (R383). -/
def lowReport (c : Cfg) (g mv : Nat) (x : FGrp) (d : Dyn) : Dyn :=
  if (supplied x mv).low && !x.low then fldFault c (grpSrc g) (grpCode g 0) 1 false false d else d

/-- FIELD_UNDER (R383). -/
def underReport (c : Cfg) (g mv : Nat) (x : FGrp) (d : Dyn) : Dyn :=
  if supplyMean x mv < 16000 then fldFault c (grpSrc g) (grpCode g 1) 2 false false d else d

theorem lowReport_kept (c : Cfg) (g mv : Nat) (x : FGrp) (d : Dyn) : FieldKept d (lowReport c g mv x d) := by
  unfold lowReport
  split
  · exact fldFault_kept _ _ _ _ _ _ _
  · exact .refl d

theorem underReport_kept (c : Cfg) (g mv : Nat) (x : FGrp) (d : Dyn) : FieldKept d (underReport c g mv x d) := by
  unfold underReport
  split
  · exact fldFault_kept _ _ _ _ _ _ _
  · exact .refl d

/-- A group that was neither low nor cut, with the reports of its supply after a sample. -/
def supplyReports (c : Cfg) (g mv : Nat) (d : Dyn) : Dyn :=
  underReport c g mv (d.grp g) (lowReport c g mv (d.grp g) (d.setGrp g (supplied (d.grp g) mv)))

theorem supplyReports_kept (c : Cfg) (g mv : Nat) (d : Dyn) : FieldKept (d.setGrp g (supplied (d.grp g) mv)) (supplyReports c g mv d) :=
  (lowReport_kept c g mv (d.grp g) _).trans (underReport_kept c g mv (d.grp g) _)

/-- Between FIELD_UNDER and FIELD_LOW the one report is that of FIELD_LOW. -/
theorem supplyReports_low (c : Cfg) {g mv : Nat} {d : Dyn} (hunder : 16000 ≤ supplyMean (d.grp g) mv) (hlow : supplyMean (d.grp g) mv < 19200)
    (hnew : (d.grp g).low = false) :
    supplyReports c g mv d = fldFault c (grpSrc g) (grpCode g 0) 1 false false (d.setGrp g (supplied (d.grp g) mv)) :=
  (if_neg (by omega)).trans (if_pos (by simp [supplied, hlow, hnew]))

/-- The supply state of such a group reads UNDER below 16.0 V, and never CUT. -/
theorem supplied_under_iff (x : FGrp) (mv : Nat) : (supplied x mv).cond = 3 ↔ supplyMean x mv < 16000 := by
  unfold supplied
  dsimp only
  split <;> simp [*]

theorem supplied_not_cut (x : FGrp) (mv : Nat) : ((supplied x mv).cond != 4) = true := by
  unfold supplied
  dsimp only
  split <;> rfl

/-- What a sample of the supply does to a group that was neither low nor cut (R383). -/
theorem fieldSupplySample_eq {c : Cfg} {g : Nat} (mv : Nat) {d : Dyn} (hen : c.grpEn g = true) (hcond : (d.grp g).cond = 2) :
    fieldSupplySample c g mv d = if supplyMean (d.grp g) mv < 12000 then fieldCut c g (supplyReports c g mv d) else supplyReports c g mv d := by
  unfold fieldSupplySample
  extract_lets x ss mean nw low under x1 d1 d2 d3
  have hx : x.cond = 2 := hcond
  have hunder : under = decide (mean < 16000) := by simp [under, hx]
  have hx1 : x1 = supplied x mv := by simp [x1, hunder, hx, supplied, ss, mean, nw, low, supplyMean, supplyLast]
  have hd2 : d2 = lowReport c g mv x d1 := by
    refine if_congr ?_ rfl rfl
    rw [hx1, supplied_not_cut, Bool.and_true]
    exact Iff.rfl
  have hd3 : d3 = supplyReports c g mv d := by
    refine (if_congr ?_ (congrArg _ hd2) hd2).trans (congrArg (fun y => underReport c g mv x (lowReport c g mv x (d.setGrp g y))) hx1)
    rw [hx1, supplied_under_iff, and_iff_left hx]
  rw [if_pos (by simp [hen, hcond]), hd3]
  exact if_congr (by rw [hx]; exact and_iff_left ⟨by decide, by decide⟩) rfl rfl

/-- At 12.0 V and above a sample is its marks and its reports (R383). -/
theorem fieldSupplySample_above {c : Cfg} {g mv : Nat} {d : Dyn} (hen : c.grpEn g = true) (hcond : (d.grp g).cond = 2) (h : 12000 ≤ supplyMean (d.grp g) mv) :
    FieldKept (d.setGrp g (supplied (d.grp g) mv)) (moverGroup c g (fieldSupplySample c g mv d)) := by
  rw [fieldSupplySample_eq mv hen hcond, if_neg (by omega)]
  exact (supplyReports_kept c g mv d).trans (moverGroup_kept c g _)

/-- Below 12.0 V the group is cut besides (R383). -/
theorem fieldSupplySample_below {c : Cfg} {g mv : Nat} {d : Dyn} (hen : c.grpEn g = true) (hcond : (d.grp g).cond = 2) (hlatch : (d.grp g).latch = 0)
    (h : supplyMean (d.grp g) mv < 12000) :
    let t := moverGroup c g (fieldSupplySample c g mv d)
    { t.grp g with applied := (d.grp g).applied } = { supplied (d.grp g) mv with cond := 4, latch := 4, cfOk := false, restorable := false } ∧
      (∀ h, h ≠ g → t.grp h = d.grp h) ∧ (∀ k, t.dch k = d.dch k) ∧ FldStep d t := by
  obtain ⟨hstep, hgrps, hdchs⟩ := supplyReports_kept c g mv d
  have hgrp : (supplyReports c g mv d).grp g = supplied (d.grp g) mv := (hgrps g).trans (setGrp_same _ _ _)
  have hunder : (supplied (d.grp g) mv).cond = 3 := (supplied_under_iff _ _).2 (by omega)
  obtain ⟨hown, hother, hdch, hcut⟩ := fieldCut_marks (c := c) (g := g) (d := supplyReports c g mv d) hen (by rw [hgrp, hunder]; decide)
    (by rw [hgrp]; exact fun h5 => absurd (hlatch.symm.trans h5) (by decide)) (by rw [hgrp, hunder]; decide) (by rw [hgrp, hunder]; decide)
  rw [hgrp] at hown
  rw [fieldSupplySample_eq mv hen hcond, if_pos h]
  exact ⟨hown, fun j hj => (hother j hj).trans ((hgrps j).trans (setGrp_other _ _ _ _ hj)), fun k => (hdch k).trans (hdchs k),
    ((setGrp_step d g _).trans hstep).trans hcut⟩

/-- Between FIELD_UNDER and FIELD_LOW a sample is its marks and the report of FIELD_LOW (R383). -/
theorem fieldSupplySample_low {c : Cfg} {g mv : Nat} {d : Dyn} (hen : c.grpEn g = true) (hcond : (d.grp g).cond = 2) (hunder : 16000 ≤ supplyMean (d.grp g) mv)
    (hlow : supplyMean (d.grp g) mv < 19200) (hnew : (d.grp g).low = false) :
    fieldSupplySample c g mv d = fldFault c (grpSrc g) (grpCode g 0) 1 false false (d.setGrp g (supplied (d.grp g) mv)) :=
  (fieldSupplySample_eq mv hen hcond).trans ((if_neg (by omega)).trans (supplyReports_low c hunder hlow hnew))

/-- Settles O41, below the cut and above it. -/
theorem fieldSupplySample_holds : Obligations.FieldSupplySample := by
  unfold Obligations.FieldSupplySample
  intro g mv s hg hen hst hcond hlatch ss mean
  have hexec : exec (.fieldSupplySample g mv) s = .next { s with d := moverGroup s.c g (fieldSupplySample s.c g mv s.d) } :=
    congrArg Host.Outcome.next (if_pos hg)
  refine ⟨_, hexec, ?_⟩
  by_cases hcut : mean < 12000
  · obtain ⟨hown, hother, hdch, hstep⟩ := fieldSupplySample_below hen hcond hlatch hcut
    exact ⟨(congrArg FGrp.samples hown).trans rfl, (congrArg FGrp.now hown).trans rfl, (congrArg FGrp.min hown).trans rfl, fun h => by omega, fun h => by omega,
      fun _ h => by omega, fun _ => ⟨(congrArg FGrp.cond hown).trans rfl, (congrArg FGrp.latch hown).trans rfl⟩, hother, hdch, hstep⟩
  · have habove : 12000 ≤ mean := by omega
    obtain ⟨hstep, hgrps, hdch⟩ := fieldSupplySample_above hen hcond habove
    have hgrp : (moverGroup s.c g (fieldSupplySample s.c g mv s.d)).grp g = supplied (s.d.grp g) mv := (hgrps g).trans (setGrp_same _ _ _)
    rw [hgrp]
    refine ⟨rfl, rfl, rfl, fun h => ⟨if_neg (Nat.not_lt.2 h), hlatch⟩, fun hunder hlow hnew hreset => ?_, fun hunder _ => (supplied_under_iff _ _).2 hunder,
      fun h => absurd h hcut, fun h hh => (hgrps h).trans (setGrp_other _ _ _ _ hh), hdch, (setGrp_step s.d g _).trans hstep⟩
    rw [fieldSupplySample_low hen hcond hunder hlow hnew]
    exact (fldFault_opened s.c (grpSrc g) (grpCode g 0) 1 false false (s.d.setGrp g _) hst hreset (grpSrc_ne g hg).1).of rfl rfl (moverG_flt s.c g _)

theorem statusFramesBad_loses {c : Cfg} {g : Nat} {d : Dyn} (hen : c.grpEn g = true) (hbad : 3 ≤ (d.grp g).badRun) (h5 : (d.grp g).cond ≠ 5) (h6 : (d.grp g).cond ≠ 6) :
    statusFramesBad c g d = groupLost c g 5 (grpCode g 4) d := if_pos ⟨hen, hbad, h5, h6⟩

theorem groupMissing_loses {c : Cfg} {g : Nat} {d : Dyn} (hen : c.grpEn g = true) (h6 : (d.grp g).cond ≠ 6) :
    groupMissing c g d = groupLost c g 6 (grpCode g 3) d := if_pos ⟨hen, h6⟩

theorem statusRecovered_ends {g : Nat} {d : Dyn} (h5 : (d.grp g).cond = 5) (hgood : 1000 ≤ (d.grp g).goodRun) :
    statusRecovered g d = d.setGrp g { d.grp g with cond := 2 } := if_pos ⟨h5, hgood⟩

/-- Settles O42: both losses by `lost_core`. -/
theorem statusRecordsOfAGroup : Obligations.StatusRecordsOfAGroup := by
  unfold Obligations.StatusRecordsOfAGroup
  intro g s hg
  refine ⟨fun hen hreset hst hbad h5 h6 => ?_, fun hen hreset hst h6 => ?_, fun h5 hgood => ?_⟩
  · obtain ⟨hcond, hlatch, -, hcnt, hoff, hdrive, hlost, hrec, hgrps, hdchs, hframe⟩ := lost_core s.c g 5 (grpCode g 4) s.d hg hst hreset
    exact ⟨_, (congrArg Host.Outcome.next (if_pos hg)).trans (next_dyn (congrArg (moverGroup s.c g) (statusFramesBad_loses hen hbad h5 h6))),
      hcond, hlatch, hcnt, hoff, hdrive, hlost, hrec, hgrps, hdchs, hframe⟩
  · obtain ⟨hcond, hlatch, hok, hcnt, hoff, hdrive, hlost, hrec, hgrps, hdchs, hframe⟩ := lost_core s.c g 6 (grpCode g 3) s.d hg hst hreset
    refine ⟨_, (congrArg Host.Outcome.next (if_pos hg)).trans (next_dyn (congrArg (moverGroup s.c g) (groupMissing_loses hen h6))),
      hcond, hlatch, hok.trans (Bool.and_false _), hcnt, hoff, hdrive, fun k hkg hk => (hlost k hkg hk).1, fun hnone => ?_, hgrps, hdchs, hframe⟩
    obtain ⟨r, hr, hcode, hsev, -⟩ := hrec hnone
    exact ⟨r, hr, hcode, hsev⟩
  · exact (congrArg Host.Outcome.next (if_pos hg)).trans (next_dyn (statusRecovered_ends h5 hgood))

end Sys2Proof.Machine
end

section
/-! Forward and return frame sets of the field groups (R364, R365, R374, R380, R402, R422). -/

namespace Sys2Proof.Machine

open Sys2Proof

/-- While the module sends nothing, or the line is held, a digital die gets no frame set (R365, R366). -/
theorem forwardDio_idle {g : Nat} {s : State} (h : s.d.sends = false ∨ (s.d.grp g).line ≠ 0) : forwardDio g s = s :=
  if_neg (by rcases h with h | h <;> simp [h])

/-- Nor does a mover die. -/
theorem forwardMov_idle (c : Cfg) {m : Nat} {d : Dyn} (h : d.sends = false ∨ (d.grp (4 + m)).line ≠ 0) : forwardMov c m d = d :=
  if_neg (by rcases h with h | h <;> simp [h])

theorem exec_forwardDio {g : Nat} (s : State) (hg : g < 4) : exec (.forwardFrameSet g) s = .next (forwardDio g s) := congrArg Host.Outcome.next (if_pos hg)

theorem exec_forwardMov {m : Nat} (s : State) (hm : m < 2) : exec (.forwardFrameSet (4 + m)) s = .next { s with d := forwardMov s.c m s.d } := by
  refine congrArg Host.Outcome.next ((if_neg (by omega)).trans ((if_pos (by omega)).trans ?_))
  rw [Nat.add_sub_cancel_left]

theorem exec_forwardNone {g : Nat} (s : State) (hg : 6 ≤ g) : exec (.forwardFrameSet g) s = .next s :=
  congrArg Host.Outcome.next ((if_neg (by omega)).trans (if_neg (by omega)))

theorem exec_returnDio {g : Nat} (r : ReturnSet) (s : State) (hg : g < 4) : exec (.returnFrameSet g r) s = .next { s with d := returnDio s.c g r s.d } :=
  next_dyn (if_pos hg)

theorem exec_returnMov {m : Nat} (r : ReturnSet) (s : State) (hm : m < 2) :
    exec (.returnFrameSet (4 + m) r) s = .next { s with d := returnMov s.c m r s.d } := by
  refine next_dyn ((if_neg (by omega)).trans ((if_pos (by omega)).trans ?_))
  rw [Nat.add_sub_cancel_left]

theorem exec_returnNone {g : Nat} (r : ReturnSet) (s : State) (hg : 6 ≤ g) : exec (.returnFrameSet g r) s = .next s :=
  next_dyn ((if_neg (by omega)).trans (if_neg (by omega)))

/-- A group number is a digital group, a mover group, or none. -/
theorem group_cases (g : Nat) : g < 4 ∨ (∃ m, m < 2 ∧ g = 4 + m) ∨ 6 ≤ g := by
  by_cases h4 : g < 4
  · exact .inl h4
  · by_cases h6 : g < 6
    · exact .inr (.inl ⟨g - 4, by omega, by omega⟩)
    · exact .inr (.inr (by omega))

/-- What reading a status record leaves of the group: its counts and its condition; the state moves in the field block alone (R364, R385). -/
def StatusRead (g : Nat) (ok : Bool) (d t : Dyn) : Prop :=
  FldStep d t ∧ (∀ h, h ≠ g → t.grp h = d.grp h) ∧ (ok = true → (t.grp g).badRun = 0 ∧ (t.grp g).goodRun = (d.grp g).goodRun + 1) ∧
    (ok = false → (t.grp g).badRun = (d.grp g).badRun + 1 ∧ (t.grp g).goodRun = 0) ∧
    (t.grp g).cond = (if ok = true ∧ (d.grp g).cond = 6 then 2 else (d.grp g).cond)

theorem returnStatus_reads (g : Nat) (ok : Bool) (d : Dyn) : StatusRead g ok d (returnStatus g ok d) := by
  obtain ⟨hstep, hother, -, -, hgood, hbad, hcond, -⟩ := returnStatus_spec g ok d
  exact ⟨hstep, hother, hgood, hbad, hcond⟩

/-- What follows the status record keeps that reading, where it keeps the counts and the condition. -/
theorem StatusRead.followed {g : Nat} {ok : Bool} {d e t : Dyn} (h : StatusRead g ok d e) (hstep : FldStep e t) (hother : ∀ j, j ≠ g → t.grp j = e.grp j)
    (hbad : (t.grp g).badRun = (e.grp g).badRun) (hgood : (t.grp g).goodRun = (e.grp g).goodRun) (hcond : (t.grp g).cond = (e.grp g).cond) :
    StatusRead g ok d t := by
  obtain ⟨h1, h2, h3, h4, h5⟩ := h
  refine ⟨h1.trans hstep, fun j hj => (hother j hj).trans (h2 j hj), ?_, ?_, hcond.trans h5⟩
  · rwa [hbad, hgood]
  · rwa [hbad, hgood]

/-- The levels and readbacks of a return frame set, before the loads and edges of its channels (R364). -/
def Dyn.levelsRead (d : Dyn) (g : Nat) (r : ReturnSet) : Dyn :=
  d.setGrp g { d.grp g with raw := r.levels % 65536, rb := r.readback % 65536, wakeSet := false }

/-- A digital group in a known state takes levels, readbacks, loads and edges (R364, R374). -/
theorem returnDio_reads {c : Cfg} {g : Nat} {r : ReturnSet} {d e : Dyn} (hen : c.grpEn g = true) (he : returnStatus g r.valid d = e) (h5 : (e.grp g).cond ≠ 5)
    (h6 : (e.grp g).cond ≠ 6) :
    returnDio c g r d = forEach (List.range 16) (e.levelsRead g r) (fun i d =>
      returnChan (16 * g + i) (nth 0 r.load i % 4096) (if c.dioMode (16 * g + i) = 2 then nth 0 r.edges i else 0) d.standby (e.grp g).wakeSet d) := by
  subst he
  exact (if_pos hen).trans (if_neg (by omega))

theorem returnDio_lost {c : Cfg} {g : Nat} {r : ReturnSet} {d : Dyn} (hen : c.grpEn g = true)
    (h : ((returnStatus g r.valid d).grp g).cond = 5 ∨ ((returnStatus g r.valid d).grp g).cond = 6) : returnDio c g r d = returnStatus g r.valid d :=
  (if_pos hen).trans (if_pos h)

/-- What a return set brings a digital channel: its load, and the edges of a counter (R374). -/
def ChanRead (c : Cfg) (r : ReturnSet) (sb : Bool) (k i : Nat) (x y : DChan) : Prop :=
  y.load = nth 0 r.load i % 4096 ∧ (sb = false → c.dioMode k = 2 → y.count = (x.count + nth 0 r.edges i) % 2 ^ 32) ∧
    (sb = true ∨ c.dioMode k ≠ 2 → y.count % 2 ^ 32 = x.count % 2 ^ 32)

/-- A STANDBY takes the load alone. -/
theorem chanRead_standby (c : Cfg) (r : ReturnSet) (k i : Nat) (x : DChan) : ChanRead c r true k i x { x with load := nth 0 r.load i % 4096 } :=
  ⟨rfl, nofun, fun _ => rfl⟩

/-- A counter counts its edges; every other channel keeps its count. -/
theorem chanRead_own (c : Cfg) (r : ReturnSet) (k i n : Nat) (x : DChan) :
    ChanRead c r false k i x { x with load := nth 0 r.load i % 4096, count := (x.count + if c.dioMode k = 2 then nth 0 r.edges i else 0) % 2 ^ 32, edges := n } := by
  refine ⟨rfl, fun _ hmode => ?_, fun hmode => ?_⟩
  · dsimp only
    rw [if_pos hmode]
  · dsimp only
    rw [if_neg (hmode.resolve_left nofun), Nat.add_zero, Nat.mod_mod]

/-- RETURN_FRAME_SET of an enabled digital group (R364, R374, R385). -/
theorem returnDio_spec {c : Cfg} {g : Nat} (r : ReturnSet) (d : Dyn) (hen : c.grpEn g = true) :
    StatusRead g r.valid d (returnDio c g r d) ∧
      (((returnDio c g r d).grp g).cond ≠ 5 → ((returnDio c g r d).grp g).cond ≠ 6 →
        ((returnDio c g r d).grp g).raw = r.levels % 65536 ∧ ((returnDio c g r d).grp g).rb = r.readback % 65536 ∧
        ∀ i, i < 16 → ChanRead c r d.standby (16 * g + i) i (d.dch (16 * g + i)) ((returnDio c g r d).dch (16 * g + i))) := by
  have hread := returnStatus_reads g r.valid d
  obtain ⟨-, -, hdch, -, -, -, -, hglb⟩ := returnStatus_spec g r.valid d
  generalize he : returnStatus g r.valid d = e at hread hdch hglb
  by_cases hlost : (e.grp g).cond = 5 ∨ (e.grp g).cond = 6
  · rw [returnDio_lost hen (by rw [he]; exact hlost), he]
    exact ⟨hread, fun h5 h6 => absurd hlost (by omega)⟩
  · have hsb : (e.levelsRead g r).standby = d.standby := by
      show (e.glb.role == .standby) = _
      rw [hglb]
      rfl
    obtain ⟨hstep, hgrp, hchan⟩ := return_loop g (fun i => nth 0 r.load i % 4096) (fun i => if c.dioMode (16 * g + i) = 2 then nth 0 r.edges i else 0) d.standby
      (e.grp g).wakeSet (List.range 16) List.nodup_range (e.levelsRead g r) _ rfl hsb
    rw [← returnDio_reads hen he (fun h => hlost (.inl h)) (fun h => hlost (.inr h))] at hstep hgrp hchan
    have hown : (returnDio c g r d).grp g = { e.grp g with raw := r.levels % 65536, rb := r.readback % 65536, wakeSet := false } :=
      (hgrp g).trans (setGrp_same _ _ _)
    have hother : ∀ j, j ≠ g → (returnDio c g r d).grp j = e.grp j := fun j hj => (hgrp j).trans (setGrp_other _ _ _ _ hj)
    refine ⟨hread.followed ((setGrp_step e g _).trans hstep) hother (by rw [hown]) (by rw [hown]) (by rw [hown]), fun _ _ => ⟨by rw [hown], by rw [hown], fun i hi => ?_⟩⟩
    rw [hchan i (List.mem_range.2 hi)]
    have hbefore : (e.levelsRead g r).dch (16 * g + i) = d.dch (16 * g + i) := hdch _
    rw [hbefore]
    cases d.standby with
    | true => exact chanRead_standby c r (16 * g + i) i _
    | false => exact chanRead_own c r (16 * g + i) i _ _

/-- A STANDBY takes the status record of a mover group alone. -/
theorem returnMov_standby {c : Cfg} {m : Nat} {r : ReturnSet} {d e : Dyn} (hen : c.grpEn (4 + m) = true) (he : returnStatus (4 + m) r.valid d = e)
    (hsb : d.standby = true) : returnMov c m r d = e := by
  subst he
  exact (if_pos hen).trans (if_pos hsb)

/-- Outside a STANDBY every supervised channel learns whether its tachometer input rests open (R402). -/
theorem returnMov_reads {c : Cfg} {m : Nat} {r : ReturnSet} {d e : Dyn} (hen : c.grpEn (4 + m) = true) (he : returnStatus (4 + m) r.valid d = e)
    (hsb : d.standby = false) :
    returnMov c m r d = forEach (List.range 16) e (fun i d =>
      if c.movEn (16 * m + i) ∧ ¬ c.movPlain (16 * m + i) then d.setMch (16 * m + i) { d.mch (16 * m + i) with openIn := r.levels.testBit i } else d) := by
  subst he
  exact (if_pos hen).trans (if_neg (by rw [hsb]; decide))

/-- RETURN_FRAME_SET of an enabled mover group (R364, R402). -/
theorem returnMov_spec {c : Cfg} {m : Nat} (r : ReturnSet) (d : Dyn) (hen : c.grpEn (4 + m) = true) :
    StatusRead (4 + m) r.valid d (returnMov c m r d) ∧
      (d.standby = false → ∀ i, i < 16 → c.movEn (16 * m + i) = true → c.movPlain (16 * m + i) = false →
        ((returnMov c m r d).mch (16 * m + i)).openIn = r.levels.testBit i) := by
  have hread := returnStatus_reads (4 + m) r.valid d
  generalize he : returnStatus (4 + m) r.valid d = e at hread
  cases hsb : d.standby with
  | true =>
    rw [returnMov_standby hen he hsb]
    exact ⟨hread, nofun⟩
  | false =>
    rw [returnMov_reads hen he hsb]
    obtain ⟨hstep, hgrp, hopen⟩ := open_loop c m r.levels (List.range 16) List.nodup_range e _ rfl
    exact ⟨hread.followed hstep (fun j _ => hgrp j) (by rw [hgrp]) (by rw [hgrp]) (by rw [hgrp]), fun _ i hi => hopen i (List.mem_range.2 hi)⟩

theorem returnDio_disabled {c : Cfg} {g : Nat} (r : ReturnSet) {d : Dyn} (h : c.grpEn g = false) : returnDio c g r d = d := if_neg (by rw [h]; decide)

theorem returnMov_disabled {c : Cfg} {m : Nat} (r : ReturnSet) {d : Dyn} (h : c.grpEn (4 + m) = false) : returnMov c m r d = d := if_neg (by rw [h]; decide)

/-- Settles O44: a forward set by `forwardDio_spec` and `forwardMov_spec`, a return set by what its status record and then its channels bring. -/
theorem fieldFrames : Obligations.FieldFrames := by
  unfold Obligations.FieldFrames
  intro g r s
  refine ⟨fun hidle => ?_, fun hg hs hl => ?_, fun h4 h6 hs hl => ?_, fun hoff => ?_, fun hg hen => ?_⟩
  · rcases group_cases g with hg | ⟨m, hm, rfl⟩ | hg
    · exact (exec_forwardDio s hg).trans (congrArg Host.Outcome.next (forwardDio_idle (hidle.imp_right fun h => h.resolve_right (by omega))))
    · exact (exec_forwardMov s hm).trans (next_dyn (forwardMov_idle s.c (hidle.imp_right fun h => h.resolve_right (by omega))))
    · exact exec_forwardNone s hg
  · obtain ⟨u, hu⟩ := forwardDio_spec g s hs hl
    exact ⟨_, u, exec_forwardDio s hg, hu⟩
  · obtain ⟨m, rfl⟩ := Nat.exists_eq_add_of_le h4
    obtain ⟨u, hrun, hu⟩ := forwardMov_spec s.c m s.d hs hl
    rw [Nat.add_sub_cancel_left]
    exact ⟨u, (exec_forwardMov s (by omega)).trans (next_dyn hrun), hu⟩
  · rcases group_cases g with hg | ⟨m, hm, rfl⟩ | hg
    · exact (exec_returnDio r s hg).trans (next_dyn (returnDio_disabled r (hoff.resolve_right (by omega))))
    · exact (exec_returnMov r s hm).trans (next_dyn (returnMov_disabled r (hoff.resolve_right (by omega))))
    · exact exec_returnNone r s hg
  · rcases group_cases g with h4 | ⟨m, hm, rfl⟩ | h6
    · obtain ⟨⟨hstep, hother, hgood, hbad, hcond⟩, hchans⟩ := returnDio_spec r s.d hen
      exact ⟨_, exec_returnDio r s h4, hstep, hother, hgood, hbad, hcond, fun _ => hchans, fun h => by omega⟩
    · obtain ⟨⟨hstep, hother, hgood, hbad, hcond⟩, hopen⟩ := returnMov_spec r s.d hen
      rw [Nat.add_sub_cancel_left]
      exact ⟨_, exec_returnMov r s hm, hstep, hother, hgood, hbad, hcond, fun h => by omega, fun _ => hopen⟩
    · omega

end Sys2Proof.Machine
end

section
/-! The windows of a fan's start, pause and run, and the edges of its tachometer (R402, R404, R405, R407, R416). -/

namespace Sys2Proof.Machine

open Sys2Proof

theorem tachEdge_stamps {c : Cfg} {n : Nat} (stamp : Nat) {d : Dyn} (hen : c.movEn n = true) (hfan : c.movPlain n = false) :
    tachEdge c n stamp d = d.setMch n { d.mch n with stamps := (d.mch n).stamps ++ [stamp], lastEdge := some stamp } :=
  if_pos ⟨hen, by rw [hfan]; decide⟩

theorem fanTimeout_steps {c : Cfg} {n : Nat} (run : Bool) {states : List Nat} {d : Dyn} (hen : c.movEn n = true) (hfan : c.movPlain n = false)
    (hsb : d.standby = false) (hst : d.glb.st = .run ∨ d.glb.st = .scan) (hin : (d.mch n).state ∈ states) :
    fanTimeout c run n states d = fanStep c run false n d :=
  if_pos (by simpa [hen, hfan, hsb, hin] using hst)

/-- A start whose window has run out with the speed unproven and no evidence has failed (R405). -/
theorem fanStep_start_fails {c : Cfg} {n : Nat} (tick : Bool) {d : Dyn} (hstate : (d.mch n).state = 2) (hfree : MChan.frozen c d n = false)
    (hdue : (d.mch n).since + 1000 * c.movSpinup n ≤ d.ms) (hspeed : (d.mch n).speedOk = false) (hevid : (d.mch n).evid = false) :
    fanStep c true tick n d = stallStart c n d := by
  simp [fanStep, hstate, hfree, hdue, hspeed, hevid]

theorem fanStep_pause_ends {c : Cfg} {n : Nat} (tick : Bool) {d : Dyn} (hstate : (d.mch n).state = 5) (hfree : MChan.frozen c d n = false)
    (hdue : (d.mch n).since + 1000 * c.movPause n ≤ d.ms) :
    fanStep c true tick n d = d.setMch n { (d.mch n).go d.ms 2 with retry := (d.mch n).retry + 1 } := by
  simp [fanStep, hstate, hfree, hdue]

/-- A running fan whose tachometer input rests open has lost its speed (R402); without evidence it stalls (R405). -/
theorem fanStep_run_stalls {c : Cfg} {n : Nat} (tick : Bool) {d : Dyn} (hstate : (d.mch n).state = 3) (hfree : MChan.frozen c d n = false)
    (hopen : (d.mch n).openIn = true) (hevid : (d.mch n).evid = false) : fanStep c true tick n d = stallRun c n d := by
  simp [fanStep, hstate, hfree, hopen, hevid]

/-- The channel after a start that failed with retries left. -/
def MChan.paused (x : MChan) (ms : Nat) : MChan := { x.go ms 5 with stalls := satInc 16 x.stalls }

/-- The channel after a stall that latches with `cause`. -/
def MChan.stalled (x : MChan) (ms cause : Nat) : MChan := { x.go ms 6 with latch := cause, stalls := satInc 16 x.stalls }

theorem stallStart_pauses {c : Cfg} {n : Nat} {d : Dyn} (h : (d.mch n).retry < c.movRetries n) :
    stallStart c n d = (d.setMch n ((d.mch n).paused d.ms)).fault c (0x9000 + n) 0x9060 1 0 0 false false := if_pos h

theorem stallStart_latches {c : Cfg} {n : Nat} {d : Dyn} (h : c.movRetries n ≤ (d.mch n).retry) :
    stallStart c n d = (d.setMch n ((d.mch n).stalled d.ms 1)).fault c (0x9000 + n) 0x9061 2 0 0 false false := if_neg (by omega)

theorem stallRun_latches (c : Cfg) (n : Nat) (d : Dyn) :
    stallRun c n d = (d.setMch n ((d.mch n).stalled d.ms 2)).fault c (0x9000 + n) 0x9062 3 0 0 false false := rfl

/-- A channel in a new state with a record raised on it: the record opens, and the other channels, the groups and all outside the field
side stand. -/
theorem setMch_fault_spec (c : Cfg) {n : Nat} (x : MChan) (code sev : Nat) (d : Dyn) (hn : n < 32) :
    let t := (d.setMch n x).fault c (0x9000 + n) code sev 0 0 false false
    t.mch n = x ∧ Opened d t (0x9000 + n) code sev 0 0 false false ∧
      (∀ j, j ≠ n → t.mch j = d.mch j) ∧ (∀ g, t.grp g = d.grp g) ∧ Alike { t with fld := d.fld } d := by
  intro t
  refine ⟨?_, fault_opened_after c _ _ _ _ _ _ _ rfl rfl (by omega), fun j hj => ?_, fun g => ?_, ?_⟩
  · rw [fault_mch, setMch_same]
  · rw [fault_mch, setMch_other _ _ _ _ hj]
  · rw [fault_grp, setMch_grp]
  · exact (setMch_step d n x).trans (fault_step _ c _ _ _ _ _ _ _).fld

/-- Settles O39: each window runs out into one transition of `fanStep`; a stall is the new state of the channel and its record. -/
theorem fanSupervision : Obligations.FanSupervision := by
  unfold Obligations.FanSupervision
  intro n stamp s hn hen hfan hsb
  refine ⟨(congrArg Host.Outcome.next (if_pos hn)).trans (next_dyn (tachEdge_stamps stamp hen hfan)), fun hst hrun hfree => ?_⟩
  have hstep : ∀ states, (s.d.mch n).state ∈ states → fanTimeout s.c (runRequest s.c s.d n) n states s.d = fanStep s.c true false n s.d :=
    fun states hin => (fanTimeout_steps _ hen hfan hsb hst hin).trans (by rw [hrun])
  refine ⟨fun hstate hdue hspeed hevid hleft => ?_, fun hstate hdue hspeed hevid hspent => ?_, fun hstate hdue => ?_, fun hstate hopen hevid => ?_⟩
  · have hpause := (hstep [2] (by simp [hstate])).trans ((fanStep_start_fails false hstate hfree hdue hspeed hevid).trans (stallStart_pauses hleft))
    obtain ⟨hx, hrest⟩ := setMch_fault_spec s.c ((s.d.mch n).paused s.d.ms) 0x9060 1 s.d hn
    exact ⟨_, (congrArg Host.Outcome.next (if_pos hn)).trans (next_dyn hpause), congrArg MChan.state hx, congrArg MChan.since hx,
      (congrArg MChan.retry hx).trans rfl, congrArg MChan.stalls hx, hrest⟩
  · have hlatch := (hstep [2] (by simp [hstate])).trans ((fanStep_start_fails false hstate hfree hdue hspeed hevid).trans (stallStart_latches hspent))
    obtain ⟨hx, hrest⟩ := setMch_fault_spec s.c ((s.d.mch n).stalled s.d.ms 1) 0x9061 2 s.d hn
    exact ⟨_, (congrArg Host.Outcome.next (if_pos hn)).trans (next_dyn hlatch), congrArg MChan.state hx, congrArg MChan.latch hx, hrest⟩
  · have hstart := (hstep [5] (by simp [hstate])).trans (fanStep_pause_ends false hstate hfree hdue)
    have hx := setMch_same s.d n { (s.d.mch n).go s.d.ms 2 with retry := (s.d.mch n).retry + 1 }
    exact ⟨_, (congrArg Host.Outcome.next (if_pos hn)).trans (next_dyn hstart), congrArg MChan.state hx, congrArg MChan.retry hx,
      congrArg MChan.starts hx, fun j hj => setMch_other _ _ _ _ hj, rfl⟩
  · have hlatch := (hstep [3, 4] (by simp [hstate])).trans ((fanStep_run_stalls false hstate hfree hopen hevid).trans (stallRun_latches s.c n s.d))
    obtain ⟨hx, hrest⟩ := setMch_fault_spec s.c ((s.d.mch n).stalled s.d.ms 2) 0x9062 3 s.d hn
    exact ⟨_, (congrArg Host.Outcome.next (if_pos hn)).trans (next_dyn hlatch), congrArg MChan.state hx, congrArg MChan.latch hx, hrest⟩

end Sys2Proof.Machine
end

section
/-! Steps and slews of network time (R453, R454, R463, R481). -/

namespace Sys2Proof.Machine

open Sys2Proof

/-- A command that a STANDBY does not take has come to a module that is none. -/
theorem HostRuns.active {a : Nat} {s : State} (h : HostRuns a false s) : s.d.standby = false := by simpa using h.2.1

theorem Alike.can {t d : Dyn} (h : Alike t d) : t.can = d.can := by
  obtain ⟨-, -, -, -, -, -, -, -, -, -, hcan, -⟩ := h.blocks
  exact hcan

theorem timeStep_refused {c : Cfg} {d : Dyn} {k : Nat} (h : stepCode c d c.stepVal = k) (hk : k ≠ 0) : timeStep c d = timResult k d := by
  subst h
  have hcmd : stepCmd c c.stepVal d = (timResult (stepCode c d c.stepVal) d, stepCode c d c.stepVal) := if_neg hk
  unfold timeStep
  rw [hcmd]
  exact if_neg hk

theorem timeStep_taken {c : Cfg} {d : Dyn} (h : stepCode c d c.stepVal = 0) : timeStep c d = canStep c (timResult 0 (stepDo c c.stepVal d)) := by
  have hcmd : stepCmd c c.stepVal d = (timResult 0 (stepDo c c.stepVal d), 0) := if_pos h
  unfold timeStep
  rw [hcmd]
  exact if_pos rfl

theorem stepCode_zero {c : Cfg} {d : Dyn} (hs : d.standby = false) : stepCode c d 0 = 1 := by
  simp [stepCode, hs]

theorem stepCode_back {c : Cfg} {d : Dyn} {st : Int} (hs : d.standby = false) (h : st < 0) (hb : c.stepBack = false) : stepCode c d st = 0x42 := by
  simp [stepCode, hs, h, hb, Int.ne_of_lt h]

theorem stepCode_taken {c : Cfg} {d : Dyn} {st : Int} (hs : d.standby = false) (h : st ≠ 0) (hb : 0 < st ∨ c.stepBack = true) : stepCode c d st = 0 := by
  have hback : ¬(st < 0 ∧ (!c.stepBack) = true) := by
    rintro ⟨hneg, hno⟩
    rcases hb with hpos | hyes
    · omega
    · simp [hyes] at hno
  unfold stepCode
  rw [if_neg (by simp [hs]), if_neg h, if_neg hback]

/-- An accepted step: the time and the marks of the actions by `stepDo`, the launches by `canStep`. -/
theorem timeStep_spec {c : Cfg} {d : Dyn} (h : stepCode c d c.stepVal = 0) : ∀ t, timeStep c d = t →
    t.tim = { d.tim with ofs := sext 64 (d.tim.ofs + c.stepVal), epoch := (d.tim.epoch + 1) % 256, netSet := true, steps := satInc 16 d.tim.steps, cmdResult := 0, acts := t.tim.acts } ∧
    (∀ a, a < 256 → t.act a = if (d.act a).state = 1 ∧ c.actBind a = true ∧ (d.tim.net : Int) < actDue c a (d.act a) (d.act a).next ∧
      actDue c a (d.act a) (d.act a).next ≤ (t.tim.net : Int) then { d.act a with passed := true }
      else if (d.act a).state = 1 ∧ c.actBind a = true ∧ (d.act a).passed = true ∧ (t.tim.net : Int) < actDue c a (d.act a) (d.act a).next then { d.act a with passed := false } else d.act a) ∧
    (∀ p e, p < 4 → e < 16 → (t.port p).launch e = steppedLaunch c t.tim.net p e ((d.port p).launch e)) ∧
    (∀ m, t.flt.find m = d.flt.find m) ∧ Alike { t with tim := d.tim, arc := d.arc, can := d.can } d := by
  intro t ht
  obtain ⟨htim, hacts, hports, hfind, halike⟩ := stepDo_spec c c.stepVal d _ rfl
  obtain ⟨⟨ctim, carc, cfind, calike⟩, clau⟩ := canStep_spec c (timResult 0 (stepDo c c.stepVal d))
  rw [timeStep_taken h] at ht
  rw [ht] at ctim carc cfind calike clau
  generalize stepDo c c.stepVal d = e at *
  have hact : ∀ a, t.act a = e.act a := fun a => (congrArg (fun x : Tim => tget Act.empty x.acts a) ctim).trans rfl
  have hnet : t.tim.net = e.tim.net := (congrArg Tim.net ctim).trans rfl
  refine ⟨?_, fun a ha => ?_, fun p e' hp he => ?_, fun m => (cfind m).trans (hfind m), ?_⟩
  · rw [ctim]
    exact congrArg (fun x : Tim => { x with cmdResult := 0 }) htim
  · rw [hact, hnet]
    exact hacts a ha
  · refine (clau p e' hp he).trans ?_
    rw [ctim]
    exact congrArg (fun x : Port => steppedLaunch c e.tim.net p e' (x.launch e')) (hports p)
  · rw [show (timResult 0 e).can = d.can from halike.can] at calike
    have hback := congrArg (fun x : Dyn => ({ x with tim := d.tim, arc := d.arc } : Dyn)) calike
    exact hback.trans halike

/-- TIM_CMD.SLEW on a module that is no STANDBY (R453). -/
theorem slewCode_eq {d : Dyn} (hs : d.standby = false) (r : Int) (m : Nat) : slewCode d r m = if r < -140737 ∨ 140737 < r ∨ m = 0 then 1 else 0 := by
  simp [slewCode, hs]

theorem slewStart_taken {c : Cfg} {d : Dyn} (hs : d.standby = false) (hlo : -140737 ≤ sword (c.f 0x30034)) (hhi : sword (c.f 0x30034) ≤ 140737)
    (hms : (c.f 0x30038).toNat ≠ 0) :
    slewStart c d = { d with tim := { d.tim with slew := sword (c.f 0x30034), slewLeft := (c.f 0x30038).toNat, cmdResult := 0 } } :=
  (slewCmd_to _ _ 0 d ((slewCode_eq hs _ _).trans (if_neg (by omega)))).trans (if_pos rfl)

theorem slewStart_refused {c : Cfg} {d : Dyn} (hs : d.standby = false)
    (h : sword (c.f 0x30034) < -140737 ∨ 140737 < sword (c.f 0x30034) ∨ (c.f 0x30038).toNat = 0) :
    slewStart c d = { d with tim := { d.tim with cmdResult := 1 } } :=
  (slewCmd_to _ _ 1 d ((slewCode_eq hs _ _).trans (if_pos h))).trans (if_neg (by decide))

theorem slewStopCmd_active {s : State} (hs : s.d.standby = false) : slewStopCmd s =
    { s with c := { s.c with reg := s.c.reg.putB 0x30038 0 }, d := { s.d with tim := { s.d.tim with slew := 0, slewLeft := 0, cmdResult := 0 } } } :=
  if_neg (by simp [hs])

/-- Settles O48: a step by `timeStep_spec`, the slews by their codes, the end of one by the milliseconds left. -/
theorem timeCommands : Obligations.TimeCommands := by
  unfold Obligations.TimeCommands
  intro s st x put
  refine ⟨fun hhost => ⟨fun hst => ?_, fun hst hback => ?_, fun hst hdir => ?_, ⟨fun hlo hhi hms => ?_, fun hbad => ?_⟩, ?_⟩, fun hleft => next_dyn (if_pos hleft),
    fun hleft => next_dyn (if_neg hleft)⟩
  · have hcode : stepCode s.c s.d s.c.stepVal = 1 := (congrArg (stepCode s.c s.d) hst).trans (stepCode_zero hhost.active)
    exact (congrArg Host.Outcome.next (hostCmd_runs hhost _)).trans (next_dyn (timeStep_refused hcode (by decide)))
  · exact (congrArg Host.Outcome.next (hostCmd_runs hhost _)).trans (next_dyn (timeStep_refused (stepCode_back hhost.active hst hback) (by decide)))
  · obtain ⟨htim, hacts, hlaunches, hrest⟩ := timeStep_spec (stepCode_taken hhost.active hst hdir) _ rfl
    exact ⟨_, congrArg Host.Outcome.next (hostCmd_runs hhost _), htim, hacts, hlaunches, hrest⟩
  · exact (congrArg Host.Outcome.next (hostCmd_runs hhost _)).trans (next_dyn (slewStart_taken hhost.active hlo hhi hms))
  · exact (congrArg Host.Outcome.next (hostCmd_runs hhost _)).trans (next_dyn (slewStart_refused hhost.active hbad))
  · refine ⟨_, congrArg Host.Outcome.next ((hostCmd_runs hhost _).trans (slewStopCmd_active hhost.active)), rfl, ?_, ?_, fun b hb => ⟨?_, ?_⟩, rfl, rfl⟩
    · exact (putB_get _ _ _ _).trans (if_pos rfl)
    · exact (putB_fget _ _ _ _).trans (if_pos rfl)
    · exact (putB_get _ _ _ _).trans (if_neg hb)
    · exact (putB_fget _ _ _ _).trans (if_neg hb)

end Sys2Proof.Machine
end

section
/-! The firing of a timed action (R456 to R463). -/

namespace Sys2Proof.Machine

open Sys2Proof

/-- The state in which entry `a` is looked at: at its due time, where it is not late or passed already (R461). -/
def Dyn.atDue (c : Cfg) (a : Nat) (d : Dyn) : Dyn :=
  if (d.act a).lateNow || (d.act a).passed then d else d.reach c (c.actBind a) (actDue c a (d.act a) (d.act a).next)

/-- Moving on to the due time moves device time alone. -/
theorem atDue_tim (c : Cfg) (a : Nat) (d : Dyn) : ∀ e, d.atDue c a = e →
    { e with tim := d.tim } = d ∧ e.tim.ofs = d.tim.ofs ∧ e.tim.epoch = d.tim.epoch ∧ (∀ b, e.act b = d.act b) ∧ e.tim.effects = d.tim.effects ∧ e.tim.wakeFired = d.tim.wakeFired := by
  intro e he
  unfold Dyn.atDue at he
  split at he
  · subst he
    exact ⟨rfl, rfl, rfl, fun _ => rfl, rfl, rfl⟩
  · obtain ⟨hrest, hofs, hepoch, hacts, heffects, hwake⟩ := reach_tim c _ _ d e he
    exact ⟨hrest, hofs, hepoch, fun b => congrArg (fun t => tget Act.empty t b) hacts, heffects, hwake⟩

theorem timedActionFire_idle {c : Cfg} {a : Nat} {d : Dyn} (h : 256 ≤ a ∨ (d.act a).state ≠ 1 ∨ d.live c = false) : timedActionFire c a d = d := by
  refine if_neg ?_
  unfold actsRun
  rcases h with h | h | h
  · simp [show ¬ a < 256 by omega]
  · simp [h]
  · simp [h]

theorem timedActionFire_runs {c : Cfg} {a : Nat} {d : Dyn} (ha : a < 256) (hst : (d.act a).state = 1) (hlive : d.live c = true) :
    timedActionFire c a d = fireAction c false a (d.atDue c a) := by
  refine if_pos ?_
  unfold actsRun
  simp [ha, hst, hlive]

/-- Settles O49: an entry that is not due stands; one that is due fires by `fireAction_spec`, seen from the state before device time moved. -/
theorem actionFires : Obligations.ActionFires := by
  unfold Obligations.ActionFires
  intro a s x net
  refine ⟨fun h => next_dyn (timedActionFire_idle h), ?_⟩
  intro ha hst hlive d0 due
  obtain ⟨hrest, hofs, hepoch, hacts, heffects, hwake⟩ := atDue_tim s.c a s.d d0 rfl
  have hx : d0.act a = x := hacts a
  have hdue := actIsDue_iff s.c d0 a ((congrArg Act.state hx).trans hst)
  have hrun : timedActionFire s.c a s.d = fireAction s.c false a d0 := timedActionFire_runs ha hst hlive
  rw [hx] at hdue
  refine ⟨fun hnot => next_dyn (hrun.trans (if_neg (fun h => hnot (hdue.1 h)))), fun h => ⟨_, next_dyn hrun, ?_⟩⟩
  obtain ⟨hact, hother, hfind, tofs, tepoch, halike⟩ := fireAction_spec s.c a d0 (hdue.2 h) _ rfl
  have hpwr : d0.pwr = s.d.pwr := (congrArg Dyn.pwr hrest :)
  have hglb : d0.glb = s.d.glb := (congrArg Dyn.glb hrest :)
  have hflt : d0.flt = s.d.flt := (congrArg Dyn.flt hrest :)
  have hstb : d0.standby = s.d.standby := (congrArg Dyn.standby hrest :)
  rw [hx, hpwr, hglb, hstb, heffects, hwake] at hact
  refine ⟨hact, fun b hb => (hother b hb).trans (hacts b), fun m => (hfind m).trans (congrArg (fun f : Flt => f.find m) hflt), tofs.trans hofs, tepoch.trans hepoch, ?_⟩
  rw [hpwr] at halike
  exact (congrArg (fun e : Dyn => ({ e with tim := s.d.tim } : Dyn)) halike).trans (congrArg Dyn.silent hrest)

end Sys2Proof.Machine
end

section
/-! The release, the reset and the path fault of guard terms (R420, R421, R423, R435, R446, R449). -/

namespace Sys2Proof.Machine

open Sys2Proof

/-- A non-latching trip of term `n` has been false for RELEASE_MS (R420). -/
def ReleaseDue (c : Cfg) (n : Nat) (d : Dyn) : Prop :=
  d.live c = true ∧ c.termEn n = true ∧ c.termLatch n = false ∧ (d.term n).tripped = true ∧ d.termValue n = false ∧
    ∃ since, (d.term n).relSince = some since ∧ since + c.termRelMs n ≤ d.ms

theorem guardRelease_ends {c : Cfg} {n : Nat} {d : Dyn} (h : ReleaseDue c n d) : guardRelease c n d = endTrip n d := by
  obtain ⟨hlive, hen, hlatch, htrip, hval, since, hsince, hms⟩ := h
  unfold guardRelease
  dsimp only
  rw [hsince]
  exact if_pos (by simp [hlive, hen, hlatch, htrip, hval, hms])

theorem guardRelease_waits {c : Cfg} {n : Nat} {d : Dyn} (h : ¬ReleaseDue c n d) : guardRelease c n d = d := by
  unfold guardRelease
  dsimp only
  split
  · next since hsince =>
    refine if_neg ?_
    rintro ⟨hlive, hen, hlatch, htrip, hval, hms⟩
    exact h ⟨hlive, hen, by simpa using hlatch, htrip, by simpa using hval, since, hsince, hms⟩
  · rfl

theorem guardPathFault_idle {c : Cfg} {n : Nat} {d : Dyn} (h : ¬(d.live c = true ∧ c.termEn n = true)) : guardPathFault c n d = d := if_neg h

/-- The state in which disagreeing evaluators raise their record: the term tripped, the path marked (R421). -/
def Dyn.pathBad (n : Nat) (d : Dyn) : Dyn :=
  let t := d.term n
  let d1 := d.setTerm n { t with tripped := true, count := if t.tripped then t.count else satInc 16 t.count }
  { d1 with grd := { d1.grd with pathOk := false, bad := if d1.grd.bad.contains n then d1.grd.bad else d1.grd.bad ++ [n] } }

theorem pathBad_term (n j : Nat) (d : Dyn) : (d.pathBad n).term j =
    if j = n then { d.term n with tripped := true, count := if (d.term n).tripped then (d.term n).count else satInc 16 (d.term n).count } else d.term j :=
  setTerm_get _ _ _ _

theorem pathBad_bad (n : Nat) (d : Dyn) : n ∈ (d.pathBad n).grd.bad := by
  show n ∈ (if d.grd.bad.contains n then d.grd.bad else d.grd.bad ++ [n])
  split
  · next h => simpa using h
  · simp

theorem guardPathFault_trips {c : Cfg} {n : Nat} {d : Dyn} (hlive : d.live c = true) (hen : c.termEn n = true) :
    guardPathFault c n d = (d.pathBad n).fault c 0xD100 0xD061 4 0 0 false false := if_pos ⟨hlive, hen⟩

/-- What a path fault leaves: the trip, the marks of the path, a HALT with its record, and every other term (R421, R435). -/
theorem guardPathFault_spec {c : Cfg} {n : Nat} {d : Dyn} (hlive : d.live c = true) (hen : c.termEn n = true) : ∀ t, guardPathFault c n d = t →
    (t.term n).tripped = true ∧ (t.term n).count = (if (d.term n).tripped = true then (d.term n).count else satInc 16 (d.term n).count) ∧
      t.grd.pathOk = false ∧ n ∈ t.grd.bad ∧
      (d.flt.find 0xD100 = none → t.glb.haltCause ≠ none ∧ ∃ r, t.flt.find 0xD100 = some r ∧ r.code = 0xD061 ∧ r.sev = 4) ∧
      (∀ j, j ≠ n → t.term j = d.term j) ∧ Alike { t with grd := d.grd } d := by
  intro t ht
  rw [guardPathFault_trips hlive hen] at ht
  subst ht
  have hstep := fault_step (d.pathBad n) c 0xD100 0xD061 4 0 0 false false
  have hterm := fun j => (hstep.term j).trans (pathBad_term n j d)
  refine ⟨?_, ?_, ?_, ?_, fun hnone => ⟨fault_halt _ c _ _ _ _ _ _ (.inr hnone), fault_own _ c _ _ _ _ _ _ hnone (by decide)⟩,
    fun j hj => (hterm j).trans (if_neg hj), (hstep.grdAlike d.grd).trans rfl⟩
  · rw [hterm n, if_pos rfl]
  · rw [hterm n, if_pos rfl]
  · rw [fault_grd]
    rfl
  · rw [fault_grd]
    exact pathBad_bad n d

/-- GRD_CMD.RESET ends the trip of a latched term that is false (R423). -/
theorem guardReset_ends {c : Cfg} {n : Nat} {d : Dyn} (hcode : guardResetCode c d n = 0) (hen : c.termEn n = true) (hlatch : c.termLatch n = true)
    (htrip : (d.term n).tripped = true) : guardReset c n d = { endTrip n d with grd := { (endTrip n d).grd with cmdResult := 0 } } := by
  unfold guardReset
  dsimp only
  rw [if_pos ⟨hcode, hen, hlatch, htrip⟩, hcode]

/-- Else it shows its code alone (R446). -/
theorem guardReset_keeps {c : Cfg} {n : Nat} {d : Dyn} (h : guardResetCode c d n ≠ 0 ∨ c.termEn n = false ∨ c.termLatch n = false ∨ (d.term n).tripped = false) :
    guardReset c n d = { d with grd := { d.grd with cmdResult := guardResetCode c d n } } := by
  unfold guardReset
  dsimp only
  rw [if_neg]
  rintro ⟨hcode, hen, hlatch, htrip⟩
  simp [hcode, hen, hlatch, htrip] at h

theorem guardResetCode_off {c : Cfg} {d : Dyn} {n : Nat} (h : c.img.ok = false) : guardResetCode c d n = 0xD00D := if_pos (by simp [h])

theorem guardResetCode_on {c : Cfg} {d : Dyn} {n : Nat} (h : c.img.ok = true) :
    guardResetCode c d n = if c.fx.nTerms ≤ n then 0xD004 else if d.termValue n then 0xD044 else 0 := if_neg (by simp [h])

theorem guardResetCode_missing {c : Cfg} {d : Dyn} {n : Nat} (h : c.img.ok = true) (hn : c.fx.nTerms ≤ n) : guardResetCode c d n = 0xD004 :=
  (guardResetCode_on h).trans (if_pos hn)

theorem guardResetCode_true {c : Cfg} {d : Dyn} {n : Nat} (h : c.img.ok = true) (hn : n < c.fx.nTerms) (hv : d.termValue n = true) :
    guardResetCode c d n = 0xD044 :=
  (guardResetCode_on h).trans ((if_neg (Nat.not_le.mpr hn)).trans (if_pos hv))

theorem guardResetCode_false {c : Cfg} {d : Dyn} {n : Nat} (h : c.img.ok = true) (hn : n < c.fx.nTerms) (hv : d.termValue n = false) :
    guardResetCode c d n = 0 :=
  (guardResetCode_on h).trans ((if_neg (Nat.not_le.mpr hn)).trans (if_neg (by simp [hv])))

/-- The command keeps its argument in GRD_CMD and writes no other word. -/
theorem exec_guardReset {n : Nat} {s : State} (hn : n < 64) (h : HostRuns 0x50018 false s) :
    ∃ t, exec (.guardReset n) s = .next t ∧ t.d = guardReset s.c n s.d ∧ fld (t.c.w 0x50018) 2 6 = n ∧
      ∀ a, a ≠ 0x50018 → t.c.w a = s.c.w a ∧ t.c.f a = s.c.f a :=
  ⟨_, congrArg Host.Outcome.next ((if_pos hn).trans (hostCmd_runs h _)), keepArg_guard n { s with d := guardReset s.c n s.d } hn⟩

theorem guardResetAll_off {c : Cfg} (d : Dyn) (h : c.img.ok = false) : guardResetAll c d = { d with grd := { d.grd with cmdResult := 0xD00D } } :=
  if_pos (by simp [h])

/-- GRD_CMD.RESET_ALL ends the trips of the latched terms that are false (R423). -/
theorem guardResetAll_spec {c : Cfg} (d : Dyn) (n : Nat) (h : c.img.ok = true) : ∀ t, guardResetAll c d = t →
    t.grd.cmdResult = 0 ∧ Alike { t with grd := d.grd } d ∧
      (t.term n).tripped = ((d.term n).tripped && !(decide (n < c.fx.nTerms) && c.termEn n && c.termLatch n && !d.termValue n)) ∧
      (t.term n).value = (d.term n).value ∧ (t.term n).hold = (d.term n).hold ∧ (t.term n).count = (d.term n).count := by
  intro t ht
  obtain ⟨halike, -, hvalue, hhold, hcount, htrip⟩ := resetAll_spec c (List.range c.fx.nTerms) d n
  unfold guardResetAll at ht
  rw [if_neg (by simp [h])] at ht
  subst ht
  simp only [List.mem_range] at htrip
  exact ⟨rfl, halike, htrip, hvalue, hhold, hcount⟩

/-- Settles O46, command by command: a trip that ends is `endTrip`, a path fault is `guardPathFault_spec`. -/
theorem guardTerms : Obligations.GuardTerms := by
  unfold Obligations.GuardTerms
  intro n s x stays
  have hends := endTrip_spec n s.d _ rfl
  refine ⟨fun hn => ⟨?_, ?_⟩, ?_, fun hn => ⟨fun h => ?_, fun hlive hen => ?_⟩, ?_, fun hhost => ⟨fun himg => ?_, fun himg => ?_⟩⟩
  · exact congrArg Host.Outcome.next (if_neg (Nat.not_lt.mpr hn))
  · exact congrArg Host.Outcome.next (if_neg (Nat.not_lt.mpr hn))
  · intro hn due
    refine ⟨fun h => ?_, fun h => ?_⟩
    · exact (congrArg Host.Outcome.next (if_pos hn)).trans (next_dyn (guardRelease_waits h))
    · obtain ⟨hterm, hother, halike, hclosed, -, -⟩ := hends
      exact ⟨_, (congrArg Host.Outcome.next (if_pos hn)).trans (next_dyn (guardRelease_ends h)), hterm, hclosed, hother, halike⟩
  · exact (congrArg Host.Outcome.next (if_pos hn)).trans (next_dyn (guardPathFault_idle h))
  · exact ⟨_, congrArg Host.Outcome.next (if_pos hn), guardPathFault_spec hlive hen _ rfl⟩
  · intro hn hhost done
    obtain ⟨t, hrun, hd, harg, hwords⟩ := exec_guardReset hn hhost
    have hkeeps : ∀ k, guardResetCode s.c s.d n = k → k ≠ 0 ∨ s.c.termEn n = false ∨ s.c.termLatch n = false ∨ x.tripped = false →
        done k (fun d => { d with grd := s.d.grd } = s.d ∧ d.grd.terms = s.d.grd.terms) := fun k hk h => by
      subst hk
      rw [guardReset_keeps h] at hd
      exact ⟨t, hrun, by rw [hd], harg, hwords, by rw [hd], by rw [hd]⟩
    refine ⟨fun himg => hkeeps _ (guardResetCode_off himg) (.inl (by decide)), fun himg hmiss => hkeeps _ (guardResetCode_missing himg hmiss) (.inl (by decide)),
      fun himg hlt hval => hkeeps _ (guardResetCode_true himg hlt hval) (.inl (by decide)), fun himg hlt hval hen hlatch htrip => ?_,
      fun himg hlt hval h => hkeeps _ (guardResetCode_false himg hlt hval) (.inr h)⟩
    obtain ⟨hterm, hother, halike, hclosed, -, -⟩ := hends
    rw [guardReset_ends (guardResetCode_false himg hlt hval) hen hlatch htrip] at hd
    refine ⟨t, hrun, ?_⟩
    rw [hd]
    exact ⟨rfl, harg, hwords, hterm, hclosed.of rfl rfl, hother, halike⟩
  · exact (congrArg Host.Outcome.next (hostCmd_runs hhost _)).trans (next_dyn (guardResetAll_off s.d himg))
  · exact ⟨_, congrArg Host.Outcome.next (hostCmd_runs hhost _), guardResetAll_spec s.d n himg _ rfl⟩

end Sys2Proof.Machine
end

section
/-! The identity frame (R517). -/

namespace Sys2Proof.Machine

open Sys2Proof

/-- The words of GLB_ID and GLB_VARIANT have no writable field. -/
theorem fieldsAt_identity (c : Cfg) {a : Nat} (h : a = 0 ∨ a = 4 ∨ a = 8) : fieldsAt c a = none := by
  rcases h with rfl | rfl | rfl <;> rfl

theorem readReg_idLow (c : Cfg) (d : Dyn) : readReg c d 0x0 = BitVec.ofNat 32 c.fx.id := by
  unfold readReg
  rw [fieldsAt_identity c (by decide)]
  rfl

theorem readReg_idHigh (c : Cfg) (d : Dyn) : readReg c d 0x4 = BitVec.ofNat 32 (c.fx.id / 2 ^ 32) := by
  unfold readReg
  rw [fieldsAt_identity c (by decide)]
  rfl

theorem readReg_variant (c : Cfg) (d : Dyn) : readReg c d 0x8 = BitVec.ofNat 32 c.fx.word := by
  unfold readReg
  rw [fieldsAt_identity c (by decide)]
  show packW [c.fx.word] = _
  simp [packW]

/-- The twelve bytes of identity. -/
def identityBytes (c : Cfg) : List Byte := [0xE5, 0x5A] ++ leBytes 2 c.fx.word ++ leBytes 8 c.fx.id

theorem identityBytes_length (c : Cfg) : (identityBytes c).length = 12 := by
  simp [identityBytes, leBytes_length]

theorem dpIdentity_out {n : Nat} (c : Cfg) {d : Dyn} (hd : d.portDead = false) (hn : 12 ≤ n) :
    dpIdentity n c d = dpOut false (identityBytes c ++ List.replicate (n - 12) 0) d := by
  refine (if_neg (by simp [hd])).trans ?_
  show dpOut false ((identityBytes c).take n ++ _) d = _
  rw [List.take_of_length_le (by rw [identityBytes_length]; exact hn)]

theorem identity_word (c : Cfg) (r : List Byte) : leAt (identityBytes c ++ r) 2 2 = c.fx.word % 256 ^ 2 := by
  have htake : ((identityBytes c ++ r).drop 2).take 2 = leBytes 2 c.fx.word := rfl
  unfold leAt
  rw [htake, leNat_leBytes]

theorem identity_id (c : Cfg) (r : List Byte) : leAt (identityBytes c ++ r) 4 8 = c.fx.id % 256 ^ 8 := by
  have htake : ((identityBytes c ++ r).drop 4).take 8 = leBytes 8 c.fx.id := rfl
  unfold leAt
  rw [htake, leNat_leBytes]

/-- Settles O56: the frame's bytes are those of the words that GLB_VARIANT and GLB_ID read. -/
theorem identityFrame : Obligations.IdentityFrame := by
  unfold Obligations.IdentityFrame
  intro n s hd hn
  refine ⟨_, next_dyn (dpIdentity_out s.c hd hn), ?_, rfl, rfl, ?_, ?_⟩
  · rw [List.length_append, identityBytes_length, List.length_replicate]
    omega
  · rw [identity_word, readReg_variant]
    unfold fld
    rw [BitVec.toNat_ofNat]
    omega
  · rw [identity_id, readReg_idLow, readReg_idHigh, BitVec.toNat_ofNat, BitVec.toNat_ofNat]
    omega

end Sys2Proof.Machine
end

section
/-! Read, write and status frames of the data port (R512 to R516, R518, R519, R523). -/

namespace Sys2Proof.Machine

open Sys2Proof

/-- A frame that ends with nothing but code `code` noted, and these bytes on the lanes. -/
def FrameNoted (q : Bool) (code addr : Nat) (l : List Byte) (d t : Dyn) : Prop :=
  t.dp.out = l ∧ t.dp.code = code ∧ t.dp.count = satInc 16 d.dp.count ∧ t.dp.addr = addr ∧ t.dp.frameErr = true ∧ t.dp.lock = d.dp.lock ∧
    t.dp.queue = d.dp.queue ∧ t.dp.sbuf = d.dp.sbuf ∧ t.dp.quad = q ∧ { t with dp := d.dp } = d

theorem dpRead_dead {d : Dyn} (h : d.portDead = true) (q : Bool) (addr n : Nat) (late : List Nat) (c : Cfg) : dpRead q addr n late c d = d := if_pos h

theorem dpWrite_dead {d : Dyn} (h : d.portDead = true) (addr : Nat) (data : List Byte) (c : Cfg) : dpWrite addr data c d = d := if_pos h

/-- A read in BOOT gives zeros (R519). -/
theorem dpRead_boot {d : Dyn} (h : d.portDead = false) (hb : d.glb.st = .boot) (q : Bool) (addr n : Nat) (late : List Nat) (c : Cfg) :
    FrameNoted q 0x2048 addr (List.replicate n 0) d (dpRead q addr n late c d) :=
  dpCode_noted 0x2048 addr q _ d (by decide) _ ((if_neg (by simp [h])).trans (if_pos hb)).symm

/-- A read at an address that is no word's gives 0xFF (R513). -/
theorem dpRead_unaligned {d : Dyn} (h : d.portDead = false) (hb : d.glb.st ≠ .boot) {addr : Nat} (ha : addr % 4 ≠ 0) (q : Bool) (n : Nat) (late : List Nat) (c : Cfg) :
    FrameNoted q 0x2041 addr (List.replicate n 0xFF) d (dpRead q addr n late c d) :=
  dpCode_noted 0x2041 addr q _ d (by decide) _ ((if_neg (by simp [h])).trans ((if_neg hb).trans (if_pos ha))).symm

theorem dpWrite_boot {d : Dyn} (h : d.portDead = false) (hb : d.glb.st = .boot) (addr : Nat) (data : List Byte) (c : Cfg) :
    FrameNoted false 0x2048 addr [] d (dpWrite addr data c d) :=
  dpCode_noted 0x2048 addr false _ d (by decide) _ ((if_neg (by simp [h])).trans (if_pos hb)).symm

theorem dpWrite_unaligned {d : Dyn} (h : d.portDead = false) (hb : d.glb.st ≠ .boot) {addr : Nat} (ha : addr % 4 ≠ 0) (data : List Byte) (c : Cfg) :
    FrameNoted false 0x2041 addr [] d (dpWrite addr data c d) :=
  dpCode_noted 0x2041 addr false _ d (by decide) _ ((if_neg (by simp [h])).trans ((if_neg hb).trans (if_pos ha))).symm

theorem unknownCommand_noted {d : Dyn} {b : Byte} (h : d.portDead = false) (hb : b.toNat ∉ [0x0B, 0x6B, 0x02, 0x32, 0x05, 0x9F]) :
    FrameNoted false 0x2040 0 [] d (unknownCommand b d) := by
  refine dpCode_noted 0x2040 0 false _ d (by decide) _ (if_neg ?_).symm
  rintro (hdead | hknown)
  · simp [h] at hdead
  · exact hb (List.contains_iff_mem.mp hknown)

/-- A lock on a snapshot that is no frame buffer's goes after 100 µs (R518). -/
theorem lockExpired_drops {d : Dyn} {l : Lock} (h : d.dp.lock = some l) (hb : bufferAt l.first = none) :
    ∃ i, lockExpired d = { d with dp := { d.dp with lock := none, code := 0x2044, count := satInc 16 d.dp.count, addr := 0, expired := true, irq := i } } := by
  obtain ⟨i, hi⟩ := dpCode_spec 0x2044 0 { d with dp := { d.dp with lock := none } }
  refine ⟨i, ?_⟩
  unfold lockExpired dpUnlock
  rw [h]
  dsimp only
  unfold bufferRelease
  rw [hb]
  exact hi

theorem lockExpired_idle {d : Dyn} (h : d.dp.lock = none) : lockExpired d = d := by
  unfold lockExpired dpUnlock
  rw [h]

/-- Settles O57, by the kind of each frame: dead port, BOOT, unaligned, plain. -/
theorem portFrames : Obligations.PortFrames := by
  unfold Obligations.PortFrames
  intro addr n m late data b s x lanes noted
  refine ⟨fun hd => ⟨?_, ?_, ?_, ?_, ?_, ?_, ?_⟩, fun hd => ⟨?_, fun hb => ?_, fun hb => ⟨?_, ?_, ?_, ?_⟩, fun hb ha => ⟨?_, ?_, ?_, ?_⟩, ?_, ?_⟩, fun hl => ?_, fun l hl hbuf => ?_⟩
  · exact next_dyn (dpRead_dead hd _ _ _ _ _)
  · exact next_dyn (dpRead_dead hd _ _ _ _ _)
  · exact next_dyn (dpWrite_dead hd _ _ _)
  · exact next_dyn (dpWrite_dead hd _ _ _)
  · exact next_dyn (if_pos hd)
  · exact next_dyn (if_pos hd)
  · exact next_dyn (if_pos (.inl hd))
  · exact next_dyn (if_neg (by simp [hd]))
  · exact ⟨_, _, rfl, unknownCommand_noted hd hb⟩
  · exact ⟨_, _, rfl, dpRead_boot hd hb _ _ _ _ _⟩
  · exact ⟨_, _, rfl, dpRead_boot hd hb _ _ _ _ _⟩
  · exact ⟨_, _, rfl, dpWrite_boot hd hb _ _ _⟩
  · exact ⟨_, _, rfl, dpWrite_boot hd hb _ _ _⟩
  · exact ⟨_, _, rfl, dpRead_unaligned hd hb ha _ _ _ _⟩
  · exact ⟨_, _, rfl, dpRead_unaligned hd hb ha _ _ _ _⟩
  · exact ⟨_, _, rfl, dpWrite_unaligned hd hb ha _ _⟩
  · exact ⟨_, _, rfl, dpWrite_unaligned hd hb ha _ _⟩
  · intro hb ha hm hl hplain bytes
    exact ⟨next_dyn (dpRead_plain false addr m late s.c s.d hd hb ha hm hl hplain), next_dyn (dpRead_plain true addr m late s.c s.d hd hb ha hm hl hplain)⟩
  · intro hb ha hm hn hq hplain q
    have hwrite := dpWrite_plain addr m data s.c s.d hd hb ha hm hn hq hplain
    exact ⟨next_dyn hwrite, next_dyn hwrite⟩
  · exact next_dyn (lockExpired_idle hl)
  · obtain ⟨i, hi⟩ := lockExpired_drops hl hbuf
    exact ⟨i, next_dyn hi⟩

end Sys2Proof.Machine
end

section
/-! The host's commands to a CAN port, its mailbox requests and its transmit buffers (R475, R481, R487, R500, R504, R505, R507). -/

namespace Sys2Proof.Machine

open Sys2Proof

theorem recoverCmd_starts {p : Nat} {d : Dyn} (hs : d.standby = false) (hb : (d.port p).busOff = true) :
    recoverCmd p d = d.setPort p { d.port p with recovering := true, ctlResult := 0 } := (if_neg (by simp [hs])).trans (if_pos hb)

theorem recoverCmd_refused {p : Nat} {d : Dyn} (hs : d.standby = false) (hb : (d.port p).busOff = false) :
    recoverCmd p d = d.setPort p { d.port p with ctlResult := 0xE00D } := (if_neg (by simp [hs])).trans (if_neg (by simp [hb]))

theorem canClrCounts_clears {p : Nat} {d : Dyn} (hs : d.standby = false) :
    canClrCounts p d = d.setPort p { d.port p with txcnt := 0, rxcnt := 0, fifoDrops := 0, svcDrops := 0, ctlResult := 0 } := if_neg (by simp [hs])

/-- A mailbox that takes no request of the host: it does not send, or a map owns it (R475). -/
def Cfg.mbxBarred (c : Cfg) (p m : Nat) : Prop := c.mbxEn p m = false ∨ c.mbxTx p m = false ∨ c.mbxMap p m = true

theorem mbxBarred_iff (c : Cfg) (p m : Nat) : c.mbxBarred p m ↔ (!(c.mbxEn p m && c.mbxTx p m) || c.mbxMap p m) = true := by
  unfold Cfg.mbxBarred
  cases c.mbxEn p m <;> simp

theorem txreqBit_barred {p m : Nat} {s : State} (h : s.c.mbxBarred p m) :
    txreqBit p m s = { s with d := s.d.setPort p { s.d.port p with reason := 0xE047 } } := if_pos ((mbxBarred_iff _ _ _).1 h)

theorem txreqBit_launched {p m : Nat} {s : State} (h : ¬s.c.mbxBarred p m) (hl : (launchOf s.c p (s.d.port p) m).isSome = true) :
    txreqBit p m s = { s with d := s.d.setPort p { s.d.port p with reason := 0xE00D } } :=
  (if_neg (fun hb => h ((mbxBarred_iff _ _ _).2 hb))).trans (if_pos hl)

theorem txreqBit_requests {p m : Nat} {s : State} (h : ¬s.c.mbxBarred p m) (hl : launchOf s.c p (s.d.port p) m = none) :
    txreqBit p m s = { s with c := mbxLoad p m s.c, d := mbxRequest (mbxLoad p m s.c) p m s.d } :=
  (if_neg (fun hb => h ((mbxBarred_iff _ _ _).2 hb))).trans (if_neg (by simp [hl]))

/-- A request of one mailbox. -/
theorem txreqWrite_one {p m : Nat} {s : State} (hs : s.d.standby = false) (hm : m < 32) :
    txreqWrite p (BitVec.ofNat 32 (2 ^ m)) s = txreqBit p m s := by
  unfold txreqWrite
  rw [if_neg (by simp [hs]), txBits m hm]
  rfl

theorem txBufferPut_refused {p m dlc : Nat} {data : List Byte} {s : State} (hs : s.d.standby = false) (h : s.c.mbxTx p m = false ∨ s.c.mbxMap p m = true) :
    txBufferPut p m dlc data s = { s with d := s.d.setPort p { s.d.port p with reason := 0xE047 } } := by
  refine (if_neg (by simp [hs])).trans (if_neg ?_)
  rcases h with h | h <;> simp [h]

/-- A buffer that the host owns takes its content, and a write over a waiting frame counts (R475, R507). -/
theorem txBufferPut_takes {p m : Nat} {s : State} (hs : s.d.standby = false) (htx : s.c.mbxTx p m = true) (hmap : s.c.mbxMap p m = false) (dlc : Nat)
    (data : List Byte) :
    ∃ b, txBufferPut p m dlc data s = { s with c := mbxLoad p m s.c, d := s.d.setPort p ((s.d.port p).setMb m b) } ∧
      b.buf.dlc = dlc % 16 ∧ b.buf.data = data.take 64 ∧ b.buf.esi = false ∧ b.pending = ((s.d.port p).mb m).pending ∧
      b.overwrites = if ((s.d.port p).mb m).pending = true then satInc 16 ((s.d.port p).mb m).overwrites else ((s.d.port p).mb m).overwrites :=
  ⟨_, (if_neg (by simp [hs])).trans (if_pos (by simp [htx, hmap])), rfl, rfl, rfl, rfl, rfl⟩

/-- A command of a port's control register that is taken. -/
theorem portCmd_runs {p a : Nat} {takes : Bool} {s : State} (hp : p < 4) (h : HostRuns a takes s) (g : State → State) :
    (Host.Outcome.next (if p < 4 then hostCmd a takes g s else s) : Host.Outcome State Fault Refusal) = .next (g s) :=
  congrArg Host.Outcome.next ((if_pos hp).trans (hostCmd_runs h g))

/-- Settles O51, command by command: an abort by `abortAll_spec`, a request by `mbxRequest_spec`. -/
theorem canCommands : Obligations.CanCommands := by
  unfold Obligations.CanCommands
  intro p m dlc data s hp hs x put wired
  refine ⟨fun hhost => ⟨fun hb => ?_, fun hb => ?_, ?_, ?_⟩, fun hm hhost => ?_, fun hm hhost => ⟨fun h => ?_, fun htx hmap => ?_⟩⟩
  · exact (portCmd_runs hp hhost _).trans (next_dyn (recoverCmd_starts hs hb))
  · exact (portCmd_runs hp hhost _).trans (next_dyn (recoverCmd_refused hs hb))
  · exact (portCmd_runs hp hhost _).trans (next_dyn (canClrCounts_clears hs))
  · exact ⟨_, portCmd_runs hp hhost _, abortAll_spec s.c p s.d hs _ rfl⟩
  · intro v bad
    have hrun : exec (.txreq p v) s = .next (txreqBit p m s) := (portCmd_runs hp hhost _).trans (congrArg Host.Outcome.next (txreqWrite_one hs hm))
    refine ⟨fun hbad => hrun.trans (congrArg Host.Outcome.next (txreqBit_barred hbad)),
      fun hbad hl => hrun.trans (congrArg Host.Outcome.next (txreqBit_launched hbad hl)), fun hbad hl => ?_⟩
    obtain ⟨hwired, hfree, hmb, -, hport, hrest⟩ := mbxRequest_spec (mbxLoad p m s.c) p m s.d _ rfl
    exact ⟨_, hrun.trans (congrArg Host.Outcome.next (txreqBit_requests hbad hl)), rfl, rfl, hwired, hfree, hmb, hport, hrest⟩
  · exact (congrArg Host.Outcome.next ((if_pos ⟨hp, hm⟩).trans (hostCmd_runs hhost _))).trans (congrArg Host.Outcome.next (txBufferPut_refused hs h))
  · obtain ⟨b, hput, hdlc, hdata, hesi, hpending, hover⟩ := txBufferPut_takes hs htx hmap dlc data
    have hmb : ∀ k, ((s.d.setPort p ((s.d.port p).setMb m b)).port p).mb k = ((s.d.port p).setMb m b).mb k := fun k => by rw [setPort_same]
    refine ⟨_, (congrArg Host.Outcome.next ((if_pos ⟨hp, hm⟩).trans (hostCmd_runs hhost _))).trans (congrArg Host.Outcome.next hput), rfl, rfl, ?_,
      fun k hk => (hmb k).trans (setMb_other _ _ _ _ hk), fun q hq => setPort_other _ _ _ _ hq, rfl⟩
    dsimp only
    rw [hmb, setMb_same]
    exact ⟨hdlc, hdata, hesi, hpending, hover⟩

end Sys2Proof.Machine
end

section
/-! The launch entries of a CAN port (R475, R481). -/

namespace Sys2Proof.Machine

open Sys2Proof

theorem launchArm_busy {c : Cfg} {p e : Nat} {d : Dyn} (h : ((d.port p).launch e).state = 1 ∨ ((d.port p).launch e).state = 2) : launchArm c p e d = d := if_pos h

theorem launchArm_refused {c : Cfg} {p e k : Nat} {d : Dyn} (h1 : ((d.port p).launch e).state ≠ 1) (h2 : ((d.port p).launch e).state ≠ 2)
    (hcode : launchCode c d p e = k) (hk : k ≠ 0) :
    launchArm c p e d = d.setPort p { (d.port p).setLaunch e { (d.port p).launch e with reason := k } with reason := k } := by
  subst hcode
  exact (if_neg (not_or.mpr ⟨h1, h2⟩)).trans (if_neg hk)

theorem launchArm_arms {c : Cfg} {p e : Nat} {d : Dyn} (h1 : ((d.port p).launch e).state ≠ 1) (h2 : ((d.port p).launch e).state ≠ 2)
    (hcode : launchCode c d p e = 0) :
    launchArm c p e d = d.setPort p ((d.port p).setLaunch e { state := 1, txres := 0, reason := 0, sent := 0, due :=
      (((d.bound (c.launchNet p e) / 2 ^ 16 * 2 ^ 16 : Nat) : Int) + shortDiff (c.f (launchA p e 1)).toNat (shortOf (d.bound (c.launchNet p e))) * 2 ^ 16).toNat }) :=
  (if_neg (not_or.mpr ⟨h1, h2⟩)).trans (if_pos hcode)

/-- What an entry needs to be armed (R481). -/
theorem launchCode_zero {c : Cfg} {d : Dyn} {p e : Nat} (hs : d.standby = false) (hon : portOn c d p = true) (hwin : 10 ≤ c.launchWin p e)
    (htx : c.mbxTx p (c.launchMb p e) = true) (hmap : c.mbxMap p (c.launchMb p e) = false) (hen : c.mbxEn p (c.launchMb p e) = true)
    (hfree : launchOf c p (d.port p) (c.launchMb p e) = none)
    (hdd : 0 ≤ shortDiff (c.f (launchA p e 1)).toNat (shortOf (d.bound (c.launchNet p e)))) : launchCode c d p e = 0 := by
  unfold launchCode
  dsimp only
  rw [if_neg (by simp [hs, hon]), if_neg (by omega), if_neg (by simp [htx, hmap]), if_neg (by simp [hen]), if_neg (by simp [hfree]), if_neg (by omega)]

/-- Moving on to a time leaves every port. -/
theorem reach_port (c : Cfg) (net : Bool) (due : Int) (d : Dyn) (q : Nat) : (d.reach c net due).port q = d.port q := by
  obtain ⟨hrest, -⟩ := reach_tim c net due d _ rfl
  exact (congrArg (fun e : Dyn => e.port q) hrest :)

theorem launchDue_idle {p e : Nat} {s : State} (h : ((s.d.port p).launch e).state ≠ 1 ∨ portOn s.c s.d p = false) : launchDue p e s = s := by
  refine if_neg ?_
  rintro ⟨hst, hon⟩
  rcases h with h | h
  · exact h hst
  · rw [h] at hon
    cases hon

theorem launchDue_early {p e : Nat} {s : State} (hst : ((s.d.port p).launch e).state = 1) (hon : portOn s.c s.d p = true)
    (h : (s.d.reach s.c (s.c.launchNet p e) ((s.d.port p).launch e).due).bound (s.c.launchNet p e) < ((s.d.port p).launch e).due) : launchDue p e s = s :=
  (if_pos ⟨hst, hon⟩).trans (if_neg (Nat.not_le.mpr h))

/-- The state in which a launched frame is presented: at its time, the entry launched. -/
def Dyn.launchedAt (c : Cfg) (p e : Nat) (d : Dyn) : Dyn :=
  (d.reach c (c.launchNet p e) ((d.port p).launch e).due).setPort p ((d.port p).setLaunch e { (d.port p).launch e with state := 2 })

theorem launchedAt_port (c : Cfg) (p e : Nat) (d : Dyn) :
    (d.launchedAt c p e).port p = (d.port p).setLaunch e { (d.port p).launch e with state := 2 } ∧ (∀ q, q ≠ p → (d.launchedAt c p e).port q = d.port q) ∧
      { d.launchedAt c p e with can := d.can, tim := d.tim } = d := by
  obtain ⟨hrest, -⟩ := reach_tim c (c.launchNet p e) ((d.port p).launch e).due d _ rfl
  exact ⟨setPort_same _ _ _, fun q hq => (setPort_other _ _ _ _ hq).trans (reach_port _ _ _ _ _), (congrArg (fun e : Dyn => ({ e with can := d.can } : Dyn)) hrest :)⟩

theorem launchDue_presents {p e : Nat} {s : State} (hst : ((s.d.port p).launch e).state = 1) (hon : portOn s.c s.d p = true)
    (h : ((s.d.port p).launch e).due ≤ (s.d.reach s.c (s.c.launchNet p e) ((s.d.port p).launch e).due).bound (s.c.launchNet p e)) :
    launchDue p e s = { s with c := mbxLoad p (s.c.launchMb p e) s.c, d := mbxRequest (mbxLoad p (s.c.launchMb p e) s.c) p (s.c.launchMb p e) (s.d.launchedAt s.c p e) } := by
  unfold Dyn.launchedAt
  rw [← reach_port s.c (s.c.launchNet p e) ((s.d.port p).launch e).due s.d p]
  exact (if_pos ⟨hst, hon⟩).trans ((if_pos h).trans (by simp only [reach_port]))

/-- At its time the entry is launched and its mailbox asks for the bus (R481). -/
theorem launched_spec (c c' : Cfg) (p e m : Nat) (d : Dyn) : ∀ t, mbxRequest c' p m (d.launchedAt c p e) = t →
    (t.port p).launch e = { (d.port p).launch e with state := 2 } ∧ (∀ k, k ≠ e → (t.port p).launch k = (d.port p).launch k) ∧
      ((t.port p).mb m).buf = ((d.port p).mb m).buf ∧ (((t.port p).mb m).pending = true ∨ ((t.port p).mb m).again = true) ∧
      (∀ k, k ≠ m → (t.port p).mb k = (d.port p).mb k) ∧ (∀ q, q ≠ p → t.port q = d.port q) ∧ { t with can := d.can, tim := d.tim } = d := by
  intro t ht
  obtain ⟨hwired, hfree, hmb, hlaunch, hport, hrest⟩ := mbxRequest_spec c' p m (d.launchedAt c p e) t ht
  obtain ⟨hp, hother, hback⟩ := launchedAt_port c p e d
  rw [hp] at hwired hfree hmb hlaunch
  simp only [setLaunch_mb] at hfree hmb
  have hasks : ((t.port p).mb m).buf = ((d.port p).mb m).buf ∧ (((t.port p).mb m).pending = true ∨ ((t.port p).mb m).again = true) := by
    by_cases hw : ∃ f, ((d.port p).setLaunch e { (d.port p).launch e with state := 2 }).wire = some (.mailbox m f)
    · rw [hwired hw, setPort_same, setMb_same, setLaunch_mb]
      exact ⟨rfl, .inr rfl⟩
    · obtain ⟨hpending, hbuf⟩ := hfree hw
      exact ⟨hbuf, .inl hpending⟩
  obtain ⟨hbuf, hpending⟩ := hasks
  refine ⟨(hlaunch e).trans (setLaunch_same _ _ _), fun k hk => (hlaunch k).trans (setLaunch_other _ _ _ _ hk), hbuf, hpending, hmb,
    fun q hq => (hport q hq).trans (hother q hq), ?_⟩
  exact (congrArg (fun e : Dyn => ({ e with can := d.can, tim := d.tim } : Dyn)) hrest :).trans hback

/-- The window of an entry has no say: its frame is on the wire, or the entry is neither armed nor launched. -/
def WindowOff (c : Cfg) (p e : Nat) (d : Dyn) : Prop :=
  (∃ f, (d.port p).wire = some (.mailbox (c.launchMb p e) f)) ∨ (((d.port p).launch e).state ≠ 1 ∧ ((d.port p).launch e).state ≠ 2)

theorem windowOff_iff (c : Cfg) (p e : Nat) (d : Dyn) : WindowOff c p e d ↔
    ¬((((d.port p).launch e).state = 1 ∨ ((d.port p).launch e).state = 2) ∧
      (!(match (d.port p).wire with | some (.mailbox k _) => k == c.launchMb p e | _ => false)) = true) := by
  have hwire := Port.onWire (d.port p) (c.launchMb p e)
  unfold WindowOff
  rw [← hwire, ← not_or, Bool.not_eq_true', not_and_or, Bool.not_eq_false]
  exact Or.comm

theorem launchWindowClose_off {c : Cfg} {p e : Nat} {d : Dyn} (h : WindowOff c p e d) : launchWindowClose c p e d = d :=
  if_neg ((windowOff_iff c p e d).1 h)

/-- The tick after the window of an entry. -/
def Dyn.windowEnd (c : Cfg) (p e : Nat) (d : Dyn) : Dyn :=
  d.reach c (c.launchNet p e) ((((d.port p).launch e).due + c.launchWin p e * 2 ^ 32 / 1000000 + 1 : Nat) : Int)

theorem launchWindowClose_on {c : Cfg} {p e : Nat} {d : Dyn} (h : ¬WindowOff c p e d) :
    launchWindowClose c p e d = if ((d.port p).launch e).due + c.launchWin p e * 2 ^ 32 / 1000000 ≤ (d.windowEnd c p e).bound (c.launchNet p e)
      then launchFail c p e 4 (d.windowEnd c p e) else d := by
  refine (if_pos (Decidable.of_not_not (fun hn => h ((windowOff_iff c p e d).2 hn)))).trans (if_congr ?_ rfl rfl)
  unfold launchClosed
  dsimp only
  rw [reach_port, decide_eq_true_iff]
  rfl

/-- A window that closes ends its entry and the request of its mailbox (R481). -/
theorem windowEnd_fails (c : Cfg) (p e : Nat) (d : Dyn) : ∀ t, launchFail c p e 4 (d.windowEnd c p e) = t →
    (t.port p).launch e = { (d.port p).launch e with state := 4, txres := 4 } ∧ (∀ k, k ≠ e → (t.port p).launch k = (d.port p).launch k) ∧
      (t.port p).mb (c.launchMb p e) = { (d.port p).mb (c.launchMb p e) with pending := false, again := false, txres := 4 } ∧
      (∀ k, k ≠ c.launchMb p e → (t.port p).mb k = (d.port p).mb k) ∧ (∀ q, q ≠ p → t.port q = d.port q) ∧ (∀ k, t.flt.find k = d.flt.find k) ∧
      t.tim.ofs = d.tim.ofs ∧ Alike { t with can := d.can, tim := d.tim } d := by
  intro t ht
  subst ht
  obtain ⟨hrest, hofs, -⟩ := reach_tim c (c.launchNet p e) ((((d.port p).launch e).due + c.launchWin p e * 2 ^ 32 / 1000000 + 1 : Nat) : Int) d _ rfl
  have hport : ∀ q, (d.windowEnd c p e).port q = d.port q := reach_port _ _ _ d
  obtain ⟨⟨htim, -, hfind, halike⟩, hother, hlaunch⟩ := launchFail_spec c p e 4 (d.windowEnd c p e)
  obtain ⟨hmb, hmbs, -, -⟩ := launchFail_mb c p e 4 (d.windowEnd c p e)
  simp only [hport] at hother hlaunch hmb hmbs
  have hcan : (d.windowEnd c p e).can = d.can := (congrArg Dyn.can hrest :)
  have hflt : (d.windowEnd c p e).flt = d.flt := (congrArg Dyn.flt hrest :)
  rw [hcan] at halike
  refine ⟨(hlaunch e).trans (if_pos rfl), fun k hk => (hlaunch k).trans (if_neg hk), hmb, hmbs, hother, fun k => (hfind k).trans (by rw [hflt]),
    (congrArg Tim.ofs htim).trans hofs, ?_⟩
  exact (congrArg (fun e : Dyn => ({ e with tim := d.tim } : Dyn)) halike).trans (congrArg Dyn.silent hrest)

/-- Settles O52: arming by the code of its refusal, the due time and the window's end by the state of the entry. -/
theorem launches : Obligations.Launches := by
  unfold Obligations.Launches
  intro p e s hp he x l net now m dd
  have hpe : p < 4 ∧ e < 16 := ⟨hp, he⟩
  refine ⟨fun hhost => ?_, fun h => ?_, fun hst hon h => ?_, fun hst hon h => ?_, ?_⟩
  · have hrun : exec (.launchArm p e) s = .next { s with d := launchArm s.c p e s.d } := congrArg Host.Outcome.next ((if_pos hpe).trans (hostCmd_runs hhost _))
    refine ⟨fun hst => hrun.trans (next_dyn (launchArm_busy hst)), fun h1 h2 => ⟨fun k hcode hk => hrun.trans (next_dyn (launchArm_refused h1 h2 hcode hk)),
      fun hcode => hrun.trans (next_dyn (launchArm_arms h1 h2 hcode)), fun hs hon hwin htx hmap hen hfree hdd => ?_⟩⟩
    exact launchCode_zero hs hon hwin htx hmap hen hfree hdd
  · exact congrArg Host.Outcome.next ((if_pos hpe).trans (launchDue_idle h))
  · exact congrArg Host.Outcome.next ((if_pos hpe).trans (launchDue_early hst hon h))
  · exact ⟨_, congrArg Host.Outcome.next ((if_pos hpe).trans (launchDue_presents hst hon h)), rfl, rfl, launched_spec s.c _ p e m s.d _ rfl⟩
  · intro off d1
    have hrun : exec (.launchWindowClose p e) s = .next { s with d := launchWindowClose s.c p e s.d } := congrArg Host.Outcome.next (if_pos hpe)
    exact ⟨fun hoff => hrun.trans (next_dyn (launchWindowClose_off hoff)),
      fun hon hearly => hrun.trans (next_dyn ((launchWindowClose_on hon).trans (if_neg (Nat.not_le.mpr hearly)))),
      fun hon hclosed => ⟨_, hrun.trans (next_dyn ((launchWindowClose_on hon).trans (if_pos hclosed))), windowEnd_fails s.c p e s.d _ rfl⟩⟩

end Sys2Proof.Machine
end

section
/-! Frames that a CAN port sends and receives, and the register service (R470, R475 to R482, R496, R497). -/

namespace Sys2Proof.Machine

open Sys2Proof

theorem canTxComplete_idle {c : Cfg} {p : Nat} {d : Dyn} (h : portSends c d p = false) (r : TxOutcome) : canTxComplete c p r d = d :=
  if_pos (by simp [h])

theorem canFrameReceived_idle {c : Cfg} {p : Nat} {d : Dyn} (h : portOn c d p = false ∨ (d.port p).busOff = true) (fr : CanFrame) :
    canFrameReceived c p fr d = d := by
  refine if_neg ?_
  rcases h with h | h <;> simp [h]

theorem PoStep.quiet {p : Nat} {d t : Dyn} (h : PoStep p d t) : (∀ q, q ≠ p → t.port q = d.port q) ∧ Alike { t with can := d.can } d := by
  obtain ⟨hport, -, halike⟩ := h
  exact ⟨hport, halike⟩

theorem serviceRead_empty {c : Cfg} {p : Nat} {d : Dyn} (h : (d.port p).svc = []) : serviceRead c p d = d := by
  unfold serviceRead
  simp only [h]

theorem serviceWrite_empty {c : Cfg} {p : Nat} {d : Dyn} (h : (d.port p).svc = []) : serviceWrite c p d = d := by
  unfold serviceWrite
  simp only [h]

theorem serviceWriteReply_empty {c : Cfg} {p : Nat} {d : Dyn} (h : (d.port p).replies = []) : serviceWriteReply c p d = d := by
  unfold serviceWriteReply
  simp only [h]

theorem serviceWriteReply_oldest {c : Cfg} {p : Nat} {d : Dyn} {r : SvcReq} {rest : List SvcReq} (h : (d.port p).replies = r :: rest) :
    serviceWriteReply c p d = svcReply c p r.op r.code r.val (d.setPort p { d.port p with replies := rest }) := by
  unfold serviceWriteReply
  simp only [h]

/-- The state in which the oldest request of the service is answered: without it (R496). -/
def Dyn.svcTaken (p : Nat) (rest : List SvcReq) (d : Dyn) : Dyn := d.setPort p { d.port p with svc := rest }

theorem serviceRead_oldest {c : Cfg} {p : Nat} {d : Dyn} {r : SvcReq} {rest : List SvcReq} (h : (d.port p).svc = r :: rest) :
    serviceRead c p d = if r.bad then svcReply c p r.op 0xE044 r.val (d.svcTaken p rest)
      else if r.op % 16 = 1 then svcReply c p r.op 0 (svcFetch c p r.addr (d.svcTaken p rest)).1 (svcFetch c p r.addr (d.svcTaken p rest)).2 else d := by
  unfold serviceRead
  simp only [h]
  rfl

theorem serviceWrite_oldest {c : Cfg} {p : Nat} {d : Dyn} {r : SvcReq} {rest : List SvcReq} (h : (d.port p).svc = r :: rest) :
    serviceWrite c p d = if r.bad || r.op % 16 != 2 then d
      else if c.svcWr p then (d.svcTaken p rest).canWrite r.stamp (.service p r) else svcReply c p r.op 0xE00D r.val (d.svcTaken p rest) := by
  unfold serviceWrite
  simp only [h]
  rfl

/-- The service reads a live register as it stands (R497). -/
theorem svcFetch_live {c : Cfg} {p a : Nat} {d : Dyn} (hl : (d.port p).lock = none) (hg : groupAt c d a = none) : svcFetch c p a d = (readReg c d a, d) := by
  have hexp : svcExpire p d = d := by
    unfold svcExpire
    rw [hl]
  unfold svcFetch
  dsimp only
  rw [hexp, hg]
  dsimp only
  rw [hl]

/-- Settles O54: the outcomes of a frame on the wire, a received frame, and the oldest request of the service. -/
theorem canFrames : Obligations.CanFrames := by
  unfold Obligations.CanFrames
  intro p m edge lec after f fr s hp x quiet once
  have hport : ∀ d : Dyn, (Host.Outcome.next (if p < 4 then { s with d := d } else s) : Host.Outcome State Fault Refusal) = .next { s with d := d } :=
    fun d => congrArg Host.Outcome.next (if_pos hp)
  refine ⟨fun h r => (hport _).trans (next_dyn (canTxComplete_idle h r)), fun hsends hwire => ⟨?_, fun hfree => ?_, ?_⟩,
    fun h => (hport _).trans (next_dyn (canFrameReceived_idle h fr)), fun hon hoff => ?_, fun h => ⟨?_, ?_⟩, fun h => (hport _).trans (next_dyn (serviceWriteReply_empty h)),
    fun r rest hsvc => ?_, fun r rest hreplies => ?_⟩
  · obtain ⟨hstep, hrest⟩ := txSent_spec s.c p m edge f s.d hsends hwire _ rfl
    exact ⟨_, hport _, hstep.quiet, hrest⟩
  · obtain ⟨hstep, hrest⟩ := txLost_spec s.c p m f s.d hsends hwire hfree _ rfl
    exact ⟨_, hport _, hstep.quiet, hrest⟩
  · obtain ⟨hstep, hrest⟩ := txErr_spec s.c p m lec after f s.d hsends hwire _ rfl
    exact ⟨_, hport _, hstep.quiet, hrest⟩
  · obtain ⟨hstep, hrest⟩ := rx_spec s.c p m fr s.d hon hoff _ rfl
    exact ⟨_, hport _, hstep.quiet, hrest⟩
  · exact (hport _).trans (next_dyn (serviceRead_empty h))
  · exact (hport _).trans (next_dyn (serviceWrite_empty h))
  · intro replied y
    have hread : exec (.serviceRead p) s = .next { s with d := _ } := (hport _).trans (next_dyn (serviceRead_oldest hsvc))
    have hwrite : exec (.serviceWrite p) s = .next { s with d := _ } := (hport _).trans (next_dyn (serviceWrite_oldest hsvc))
    have hreply : ∀ (e : Instr) (code : Nat) (v : Word), exec e s = .next { s with d := svcReply s.c p r.op code v (s.d.setPort p y) } → replied e y r.op code v :=
      fun e code v he => ⟨_, he, svcReply_spec s.c p r.op code v s.d y _ rfl⟩
    refine ⟨fun hbad => ⟨hreply _ _ _ (hread.trans (next_dyn (if_pos hbad))), hwrite.trans (next_dyn (if_pos (by simp [hbad])))⟩,
      fun hgood hop => ⟨hwrite.trans (next_dyn (if_pos (by simp [hop]))), fun hlock hgroup => hreply _ _ _ ?_⟩,
      fun hgood hop => ⟨hread.trans (next_dyn ?_), fun hwr => hreply _ _ _ (hwrite.trans (next_dyn ?_)), fun hwr => hwrite.trans (next_dyn ?_)⟩⟩
    · have hfetch : svcFetch s.c p r.addr (s.d.setPort p y) = (readReg s.c (s.d.setPort p y) r.addr, s.d.setPort p y) :=
        svcFetch_live ((congrArg Port.lock (setPort_same s.d p y)).trans hlock) hgroup
      refine hread.trans (next_dyn ((if_neg (by simp [hgood])).trans ((if_pos hop).trans ?_)))
      show svcReply s.c p r.op 0 (svcFetch s.c p r.addr (s.d.setPort p y)).1 (svcFetch s.c p r.addr (s.d.setPort p y)).2 = _
      rw [hfetch]
    · exact (if_neg (by simp [hgood])).trans (if_neg (by omega))
    · exact (if_neg (by simp [hgood, hop])).trans (if_neg (by simp [hwr]))
    · exact (if_neg (by simp [hgood, hop])).trans (if_pos hwr)
  · obtain ⟨hrest, hsvc, hleft, -⟩ := svcReply_spec s.c p r.op r.code r.val s.d { s.d.port p with replies := rest } _ rfl
    exact ⟨_, (hport _).trans (next_dyn (serviceWriteReply_oldest hreplies)), hrest, hleft, hsvc⟩

end Sys2Proof.Machine
end

section
/-! The ledger in the NAND and the Shuttle operations on it (R525 to R542). -/

namespace Sys2Proof.Machine

open Sys2Proof

theorem subpageProgramDone_idle {c : Cfg} {d : Dyn} (h : d.arc.queue = [] ∨ d.arc.state ≠ 2) (ok : Bool) : subpageProgramDone c ok d = d := by
  unfold subpageProgramDone
  split
  · next q rest hq =>
    rcases h with h | h
    · rw [hq] at h
      cases h
    · exact if_pos h
  · rfl

theorem subpageProgramDone_data {c : Cfg} {ok : Bool} {d : Dyn} {q : PQ} {rest : List PQ} (hq : d.arc.queue = q :: rest) (hst : d.arc.state = 2)
    (hk : q.kind = .data) : subpageProgramDone c ok d = dataDone c ok q rest d := by
  rw [programDone_eq c ok d q rest hq hst, hk]

/-- The parity pages of a stripe go into their band, while it holds that stripe (R526). -/
theorem subpageProgramDone_parity {c : Cfg} {ok : Bool} {d : Dyn} {q : PQ} {rest : List PQ} {k o st : Nat} (hq : d.arc.queue = q :: rest)
    (hst : d.arc.state = 2) (hk : q.kind = .parity k o st) :
    subpageProgramDone c ok d = { d with arc := { d.arc with queue := rest, bands :=
      if 2 ≤ (d.band k).cond ∧ (d.band k).order = o then tput Band.empty d.arc.bands k ((d.band k).withParity st ok) else d.arc.bands } } := by
  rw [programDone_eq c ok d q rest hq hst, hk]
  dsimp only
  rw [parityDone_eq]
  by_cases h : 2 ≤ (d.band k).cond ∧ (d.band k).order = o
  · rw [if_pos h]
    exact if_pos h
  · rw [if_neg h]
    exact if_neg h

/-- The index of a band goes into it, while it is the same band (R530). -/
theorem subpageProgramDone_index {c : Cfg} {ok : Bool} {d : Dyn} {q : PQ} {rest : List PQ} {k o : Nat} (hq : d.arc.queue = q :: rest)
    (hst : d.arc.state = 2) (hk : q.kind = .index k o) :
    subpageProgramDone c ok d = { d with arc := { d.arc with queue := rest, bands :=
      if 2 ≤ (d.band k).cond ∧ (d.band k).order = o then tput Band.empty d.arc.bands k ((d.band k).withIndex ok) else d.arc.bands } } := by
  rw [programDone_eq c ok d q rest hq hst, hk]
  dsimp only
  rw [indexDone_eq]
  by_cases h : 2 ≤ (d.band k).cond ∧ (d.band k).order = o
  · rw [if_pos h]
    exact if_pos h
  · rw [if_neg h]
    exact if_neg h

/-- An erased band is empty; the blocks that failed retire, with a spare each while spares last (R527, R532). -/
theorem bandEraseDone_spec {c : Cfg} {b n : Nat} {d : Dyn} (h : (d.band b).cond = 1) : ∀ u, bandEraseDone c b n d = u →
    Alike { u with arc := d.arc } d ∧ (u.band b).cond = 0 ∧ (u.band b).subs = [] ∧ (u.band b).failed = [] ∧ (∀ k, k ≠ b → u.band k = d.band k) ∧
    u.arc.spare = d.arc.spare - min 16 ((d.band b).failed.length + n) ∧
    (d.arc.retired ≤ 65535 → u.arc.retired = min 65535 (d.arc.retired + min 16 ((d.band b).failed.length + n))) ∧
    (u.band b).bad = (d.band b).bad + (min 16 ((d.band b).failed.length + n) - d.arc.spare) := by
  intro u hu
  obtain ⟨hstep, hretired, hspare, hbad, hcond, hsubs, hfailed, hother⟩ := retireAll_spec c b (List.range (min 16 ((d.band b).failed.length + n)))
    (d.setBand b { (d.band b).wiped 0 with owner := 0, order := 0, failed := [] }) u ((if_pos h).symm.trans hu)
  rw [List.length_range] at hretired hspare hbad
  rw [setBand_same] at hbad hcond hsubs hfailed
  exact ⟨(ArcStep.band d b _).trans hstep, hcond, hsubs, hfailed, fun k hk => (hother k hk).trans (setBand_other _ _ _ _ hk), hspare, hretired, hbad⟩

/-- FLUSH_r has passed since the first record of a region's partly filled subpage entered (R533). -/
def FlushDue (c : Cfg) (r : Nat) (d : Dyn) : Prop := r < 6 ∧ (d.region r).partialRecs ≠ [] ∧ (d.region r).since + 100 * c.arcFlush r ≤ d.ms

theorem flushDue_iff (c : Cfg) (r : Nat) (d : Dyn) : FlushDue c r d ↔
    (decide (r < 6) && decide ((d.region r).partialRecs ≠ []) && decide ((d.region r).since + 100 * c.arcFlush r ≤ d.ms)) = true := by
  unfold FlushDue
  rw [Bool.and_eq_true, Bool.and_eq_true, decide_eq_true_iff, decide_eq_true_iff, decide_eq_true_iff, and_assoc]

theorem flushTimeout_waits {c : Cfg} {r : Nat} {d : Dyn} (h : ¬FlushDue c r d) : flushTimeout c r d = d :=
  if_neg (fun hd => h ((flushDue_iff c r d).2 hd))

theorem flushTimeout_flushes {c : Cfg} {r : Nat} {d : Dyn} (h : FlushDue c r d) : flushTimeout c r d = flushRegion r d := if_pos ((flushDue_iff c r d).1 h)

theorem arcFlushCmd_spec (d : Dyn) : ∀ u, arcFlushCmd d = u → Alike { u with arc := d.arc } d ∧ u.arc.cmdResult = 0 ∧ (∀ k, k < 6 → (u.region k).partialRecs = []) ∧
    u.arc.queue = d.arc.queue ++ ((List.range 6).filter (fun k => decide ((d.region k).partialRecs ≠ []))).map (fun k => { region := k, recs := (d.region k).partialRecs }) := by
  intro u hu
  unfold arcFlushCmd at hu
  obtain ⟨hstep, hempty, -, hqueue⟩ := flushAll_spec (List.range 6) d List.nodup_range _ rfl
  generalize forEach (List.range 6) d flushRegion = e at hu hstep hempty hqueue
  subst hu
  exact ⟨hstep.trans (ArcStep.put _ _), rfl, fun k hk => hempty k (List.mem_range.mpr hk), hqueue⟩

/-- A region drops records, and 60 s have passed since the last summary (R532). -/
def DropDue (d : Dyn) : Prop := (∃ q, q ∈ d.arc.regions ∧ q.2.full = true) ∧ d.arc.dropTimer + 60000 ≤ d.ms

theorem dropDue_iff (d : Dyn) : DropDue d ↔ (d.arc.regions.any (fun q => q.2.full) && decide (d.arc.dropTimer + 60000 ≤ d.ms)) = true := by
  unfold DropDue
  rw [Bool.and_eq_true, List.any_eq_true, decide_eq_true_iff]

theorem dropSummary_waits {d : Dyn} (h : ¬DropDue d) : dropSummary d = d := if_neg (fun hd => h ((dropDue_iff d).2 hd))

theorem dropSummary_writes {d : Dyn} (h : DropDue d) : dropSummary d =
    { d with arc := { (d.ledger 9 0 ((List.range 8).map (fun k => leBytes 4 (d.region k).drops)).flatten).arc with dropTimer := d.ms } } := by
  refine (if_pos ((dropDue_iff d).1 h)).trans ?_
  dsimp only
  obtain ⟨a, ha⟩ := ledger_arc d 9 0 ((List.range 8).map (fun k => leBytes 4 (d.region k).drops)).flatten
  rw [ha]
  rfl

/-- The argument that a command register keeps depends on the configuration alone. -/
theorem keepArg_with (a : Nat) (v : Word) (s : State) (d : Dyn) : keepArg a v { s with d := d } = { keepArg a v s with d := d } := by
  unfold keepArg
  split <;> rfl

theorem exec_clearRegion {r : Nat} {s : State} (hr : r < 8) (h : HostRuns 0x500018 false s) :
    exec (.clearRegion r) s = .next { keepArg 0x500018 (BitVec.ofNat 32 (4 * r)) s with d := clearRegion r s.d } :=
  (congrArg Host.Outcome.next ((if_pos hr).trans (hostCmd_runs h _))).trans (congrArg Host.Outcome.next (keepArg_with _ _ s _))

theorem clearRegion_missing {r : Nat} {d : Dyn} (hs : d.standby = false) (hr : 6 ≤ r) : clearRegion r d = { d with arc := { d.arc with cmdResult := 0xF004 } } :=
  (if_neg (by simp [hs])).trans (if_pos hr)

/-- Tag `t` has an operation that waits or is under way (R536). -/
def Dyn.tagLive (d : Dyn) (t : Nat) : Prop := (d.tag t).state = 1 ∨ (d.tag t).state = 2

theorem shuttleGo_busy {c : Cfg} {d : Dyn} (h : d.tagLive c.ssel) : shuttleGo c d = { d with arc := { d.arc with scmdResult := 0xF042 } } := if_pos h

theorem shuttleGo_invalid {c : Cfg} {d : Dyn} (h : ¬d.tagLive c.ssel) (hw : fld (c.f (tagA c.ssel 0)) 0 2 = 0 ∨ fld (c.f (tagA c.ssel 0)) 8 8 = 0) :
    shuttleGo c d = { d with arc := { d.arc with scmdResult := 0xF043 } } := (if_neg h).trans (if_pos hw)

/-- An accepted GO queues its tag, whose operation starts at once on a mounted archive (R536). -/
theorem shuttleGo_queues {c : Cfg} {d : Dyn} (h : ¬d.tagLive c.ssel) (hop : fld (c.f (tagA c.ssel 0)) 0 2 ≠ 0) (hcls : fld (c.f (tagA c.ssel 0)) 8 8 ≠ 0) :
    ∀ u, shuttleGo c d = u → Alike { u with arc := d.arc } d ∧ u.arc.scmdResult = 0 ∧ u.arc.tagQueue = d.arc.tagQueue ++ [c.ssel] ∧
      u.tag c.ssel = { Tag.empty with state := if d.arc.state = 2 then 2 else 1, next := (d.tag c.ssel).next, gones := (List.range 6).map (fun r => (d.region r).gone) } ∧
      ∀ k, k ≠ c.ssel → u.tag k = d.tag k := by
  intro u hu
  have hgo : shuttleGo c d = _ := (if_neg h).trans (if_neg (not_or.mpr ⟨hop, hcls⟩))
  rw [hgo] at hu
  subst hu
  exact ⟨rfl, rfl, rfl, setTag_same _ _ _, fun k hk => setTag_other _ _ _ _ hk⟩

theorem shuttleCancel_idle {c : Cfg} {d : Dyn} (h : ¬d.tagLive c.ssel) : shuttleCancel c d = { d with arc := { d.arc with scmdResult := 0 } } := if_neg h

/-- A cancelled operation ends, with nothing known of its buffer (R536). -/
theorem shuttleCancel_ends {c : Cfg} {d : Dyn} (h : d.tagLive c.ssel) : ∀ u, shuttleCancel c d = u →
    Alike { u with arc := d.arc } d ∧ u.arc.scmdResult = 0 ∧ (u.tag c.ssel).state = 4 ∧ (u.tag c.ssel).count = 0 ∧ (u.tag c.ssel).bytes = 0 ∧ (u.tag c.ssel).buf.length = 4096 ∧
      u.arc.tagQueue = d.arc.tagQueue.filter (· ≠ c.ssel) ∧ (∀ k, k ≠ c.ssel → u.tag k = d.tag k) ∧ (c.bF (tagA c.ssel 0) 2 = true → u.dp.irq.testBit 4 = true) := by
  intro u hu
  have hcancel : shuttleCancel c d = _ := if_pos h
  rw [hcancel] at hu
  obtain ⟨hstep, htag, hqueue, hother, hirq⟩ := shuttleEnd_spec c c.ssel
    { d.tag c.ssel with state := 4, count := 0, bytes := 0, buf := (List.range 4096).map (Config.cancelledByteFree d.arc.free) } d _ rfl
  generalize shuttleEnd c c.ssel _ d = e at hu hstep htag hqueue hother hirq
  subst hu
  have hself : (scmdResult 0 { e with arc := { e.arc with free := d.arc.free + 1 } }).tag c.ssel =
    { d.tag c.ssel with state := 4, count := 0, bytes := 0, buf := (List.range 4096).map (Config.cancelledByteFree d.arc.free) } := htag
  refine ⟨hstep.trans (ArcStep.put e _), rfl, ?_, ?_, ?_, ?_, hqueue, hother, hirq⟩
  · rw [hself]
  · rw [hself]
  · rw [hself]
  · rw [hself, List.length_map, List.length_range]

theorem shuttleDone_idle {c : Cfg} {t : Nat} {d : Dyn} (h : ¬d.tagLive t ∨ d.arc.state ≠ 2) (m : MediaRead) : shuttleDone c t m d = d := by
  refine if_neg ?_
  rintro ⟨hlive, hst⟩
  exact h.elim (fun hn => hn hlive) (fun hn => hn hst)

theorem mountComplete_idle {c : Cfg} {rebuilt : Bool} {d : Dyn} (h : ¬(d.arc.state = 1 ∧ d.glb.st ≠ .boot ∧ (rebuilt = true ∨ d.arc.cpValid = true))) :
    mountComplete c rebuilt d = d := by
  refine if_pos (Decidable.of_not_not fun hn => h ?_)
  rw [not_or, not_or] at hn
  obtain ⟨hst, hboot, hcp⟩ := hn
  exact ⟨Decidable.of_not_not hst, hboot, by simpa [Decidable.or_iff_not_imp_left] using hcp⟩

/-- Settles O58, command by command, each where it is due and where it is not. -/
theorem archiveCommands : Obligations.ArchiveCommands := by
  unfold Obligations.ArchiveCommands
  intro ok rebuilt b n r t m s a quiet live ends
  refine ⟨fun h => next_dyn (subpageProgramDone_idle h ok), fun q rest hq hst => ⟨fun hk => ?_, fun k o st hk => ?_, fun k o hk => ?_⟩, fun h => next_dyn (if_neg h), fun h => ?_, ?_,
    fun hhost => ?_, ?_, ?_, ?_, fun h => next_dyn (shuttleDone_idle h m), fun hlive hst => ?_, ?_⟩
  · obtain ⟨⟨halike, hfront⟩, hopen⟩ := dataDone_spec s.c ok q rest s.d hq
    exact ⟨_, next_dyn (subpageProgramDone_data hq hst hk), halike, hfront, hopen⟩
  · exact next_dyn (subpageProgramDone_parity hq hst hk)
  · exact next_dyn (subpageProgramDone_index hq hst hk)
  · exact ⟨_, rfl, bandEraseDone_spec h _ rfl⟩
  · intro due
    refine ⟨fun h => next_dyn (flushTimeout_waits h), fun h => ?_⟩
    obtain ⟨halike, hempty, hother, hqueue⟩ := flushRegion_fields r s.d _ rfl
    have ⟨_, hrecs, _⟩ := h
    rw [if_neg hrecs] at hqueue
    exact ⟨_, next_dyn (flushTimeout_flushes h), halike, hqueue, hempty, hother⟩
  · exact ⟨_, congrArg Host.Outcome.next (hostCmd_runs hhost _), arcFlushCmd_spec s.d _ rfl⟩
  · intro due
    exact ⟨fun h => next_dyn (dropSummary_waits h), fun h => next_dyn (dropSummary_writes h)⟩
  · intro hhost hr kept
    have hrun := exec_clearRegion hr hhost
    refine ⟨fun hmiss => hrun.trans (congrArg Host.Outcome.next ?_), fun hlt => ⟨_, hrun, clearRegion_spec r s.d hhost.active hlt _ rfl⟩⟩
    rw [clearRegion_missing hhost.active hmiss]
  · intro hhost ht
    subst ht
    have hgo : exec .shuttleGo s = .next { s with d := shuttleGo s.c s.d } := congrArg Host.Outcome.next (hostCmd_runs hhost _)
    have hcancel : exec .shuttleCancel s = .next { s with d := shuttleCancel s.c s.d } := congrArg Host.Outcome.next (hostCmd_runs hhost _)
    exact ⟨fun h => hgo.trans (next_dyn (shuttleGo_busy h)),
      ⟨fun h hw => hgo.trans (next_dyn (shuttleGo_invalid h hw)), fun h hop hcls => ⟨_, hgo, shuttleGo_queues h hop hcls _ rfl⟩⟩,
      fun h => hcancel.trans (next_dyn (shuttleCancel_idle h)), fun h => ⟨_, hcancel, shuttleCancel_ends h _ rfl⟩⟩
  · exact ⟨_, rfl, shuttleDone_spec s.c t m s.d hlive hst _ rfl⟩
  · intro ready
    refine ⟨fun h => next_dyn (mountComplete_idle h), fun h => ?_⟩
    obtain ⟨hst, hboot, hcp⟩ := h
    exact ⟨_, rfl, mount_spec s.c rebuilt s.d hst hboot hcp _ rfl⟩

end Sys2Proof.Machine
end

section
/-! Seals, return frames, fences and the passing of the role in a redundant pair (R545 to R566). -/

namespace Sys2Proof.Machine

open Sys2Proof

/-- Between two states outside BOOT and reset, the common-fault lines have come to follow the fence (R546). -/
def LinesFollow (d u : Dyn) : Prop :=
  d.glb.st ≠ .boot → d.pwr.resetFrom.isSome = false → ∀ g, g < 6 → (u.grp g).line = if u.pair.fenced then 2 else 0

/-- The module has entered ACTIVE, for a cause of PAIR_TAKE (R555, R564). -/
def EnteredActive (cause : Nat) (s t : State) : Prop :=
  t.d.glb.role = .active ∧ t.d.glb.st = s.d.glb.st ∧ t.d.tim = s.d.tim ∧ t.c.reg.w = s.c.reg.w ∧ t.pending = s.pending ∧
    t.d.pair.takes = satInc 16 s.d.pair.takes ∧ t.d.pair.takeCause = cause ∧ t.d.pair.takeFrame = (s.d.ms + 1) % 2 ^ 32 ∧ t.d.pair.missed = 0 ∧ t.d.pair.stream = [] ∧
    t.d.pair.switchAt = none ∧ t.d.pair.wakeAt = none ∧ ∀ q, q < 4 → (t.d.port q).tec = 0 ∧ (t.d.port q).rcv = 0

/-- It entered ACTIVE without a partner, fencing (R555). -/
def TookRole (cause : Nat) (s t : State) : Prop :=
  EnteredActive cause s t ∧ t.d.pair.state = 2 ∧ t.d.pair.fencing = true ∧ t.d.pair.thread = (if s.d.pair.thread = 1 then 3 else s.d.pair.thread) ∧ LinesFollow s.d t.d

/-- The ACTIVE has lost its partner (R553). -/
def LostPartner (d u : Dyn) : Prop :=
  (Alike { u with pair := d.pair, fld := d.fld } d ∧ LinesFollow d u) ∧ u.pair.state = 2 ∧ u.pair.fencing = true ∧ u.pair.join = none ∧ u.pair.acceptPend = false ∧
    u.pair.imageOk = false ∧ Opened d u 0x3000 0x3060 2 0 0 false false

theorem fenceInChange_spec (c : Cfg) (on : Bool) (d : Dyn) : ∀ u, fenceInChange c on d = u →
    (Alike { u with pair := d.pair, fld := d.fld } d ∧ LinesFollow d u) ∧ u.pair = { d.pair with fenceIn := on && c.fx.pair } ∧ u.flt = d.flt := by
  intro u hu
  obtain ⟨f, heq, hlines⟩ := fenceLines_spec c { d with pair := { d.pair with fenceIn := on && c.fx.pair } } u hu
  subst heq
  exact ⟨⟨rfl, hlines⟩, rfl, rfl⟩

theorem seekTimeout_early {c : Cfg} {d : Dyn} (h : ¬d.pair.seekAt + c.seekMs ≤ d.ms) : seekTimeout c d = d := if_neg h

theorem seekTimeout_claiming {c : Cfg} {d : Dyn} (h1 : d.pair.state = 1) (h2 : d.pair.claim = true) : seekTimeout c d = d := by
  simp [seekTimeout, h1, h2]

theorem seekTimeout_elsewhere {c : Cfg} {d : Dyn} (h1 : d.pair.state ≠ 1) (h2 : ¬(d.pair.state = 9 ∧ d.glb.st = .run)) : seekTimeout c d = d := by
  unfold seekTimeout
  rw [if_neg h1, if_neg h2, ite_self]

theorem seekTimeout_claims {c : Cfg} {d : Dyn} (hdue : d.pair.seekAt + c.seekMs ≤ d.ms) (h1 : d.pair.state = 1) (h2 : d.pair.claim = false) :
    seekTimeout c d = claimStart c d := by
  simp [seekTimeout, hdue, h1, h2]

theorem seekTimeout_again {c : Cfg} {d : Dyn} (hdue : d.pair.seekAt + c.seekMs ≤ d.ms) (h1 : d.pair.state = 9) (h2 : d.glb.st = .run) :
    seekTimeout c d = seekStart d := by
  simp [seekTimeout, hdue, h1, h2]

theorem claimStart_spec (c : Cfg) (d : Dyn) : ∀ u, claimStart c d = u →
    (Alike { u with pair := d.pair, fld := d.fld } d ∧ LinesFollow d u) ∧ u.pair = { d.pair with claim := true, fencing := true } := by
  intro u hu
  obtain ⟨f, heq, hlines⟩ := setFence_spec c true { d with pair := { d.pair with claim := true } } u hu
  subst heq
  exact ⟨⟨rfl, hlines⟩, rfl⟩

theorem sealMissed_synced {d : Dyn} (h : d.pair.state = 7) : sealMissed d = { d with pair := { d.pair with missed := satInc 8 d.pair.missed, state := 8 } } :=
  if_pos h

theorem sealMissed_bridging {d : Dyn} (h : d.pair.state = 8) : sealMissed d = { d with pair := { d.pair with missed := satInc 8 d.pair.missed } } := by
  simp [sealMissed, h]

theorem sealMissed_joining {d : Dyn} (h : d.pair.state = 5 ∨ d.pair.state = 6) : sealMissed d =
    if 2 ≤ satInc 8 d.pair.missed then seekStart { d with pair := { d.pair with missed := satInc 8 d.pair.missed } } else { d with pair := { d.pair with missed := satInc 8 d.pair.missed } } := by
  unfold sealMissed
  rw [if_neg (by omega), if_neg (by omega), if_pos h]

theorem sealMissed_elsewhere {d : Dyn} (h : d.pair.state < 5 ∨ 8 < d.pair.state) : sealMissed d = d := by
  unfold sealMissed
  rw [if_neg (by omega), if_neg (by omega), if_neg (by omega)]

theorem sealReceived_idle {c : Cfg} {x : Seal} {d : Dyn} (h : d.glb.role ≠ .standby ∨ d.pair.state = 0) : sealReceived c x d = d := if_pos h

theorem sealReceived_broken {c : Cfg} {x : Seal} {d : Dyn} (h1 : d.glb.role = .standby) (h2 : d.pair.state ≠ 0) (h3 : x.crcOk = false) :
    sealReceived c x d = linkError c d := by
  unfold sealReceived
  rw [if_neg (by simp [h1, h2]), if_pos (by simp [h3])]

theorem returnFrameReceived_idle {c : Cfg} {r : ReturnFrame} {d : Dyn} (h : d.glb.role ≠ .active ∨ (d.pair.state ≠ 3 ∧ d.pair.state ≠ 4)) :
    returnFrameReceived c r d = d := if_pos h

theorem returnFrameReceived_broken {c : Cfg} {r : ReturnFrame} {d : Dyn} (h1 : d.glb.role = .active) (h2 : d.pair.state = 3 ∨ d.pair.state = 4) (h3 : r.crcOk = false) :
    returnFrameReceived c r d = linkError c d := by
  unfold returnFrameReceived
  rw [if_neg (by rintro (h | ⟨n3, n4⟩); exacts [h h1, h2.elim n3 n4]), if_pos (by simp [h3])]

theorem returnFrameMissed_idle {c : Cfg} {d : Dyn} (h : d.glb.role ≠ .active ∨ (d.pair.state ≠ 3 ∧ d.pair.state ≠ 4)) : returnFrameMissed c d = d :=
  if_neg (by rintro ⟨h1, h2⟩; rcases h with h | ⟨n3, n4⟩; exacts [h h1, h2.elim n3 n4])

theorem returnFrameMissed_counts {c : Cfg} {d : Dyn} (h1 : d.glb.role = .active) (h2 : d.pair.state = 3 ∨ d.pair.state = 4) (h3 : satInc 8 d.pair.missed < 3) :
    returnFrameMissed c d = { d with pair := { d.pair with missed := satInc 8 d.pair.missed } } :=
  (if_pos ⟨h1, h2⟩).trans (if_neg (Nat.not_le.mpr h3))

theorem returnFrameMissed_third {c : Cfg} {d : Dyn} (h1 : d.glb.role = .active) (h2 : d.pair.state = 3 ∨ d.pair.state = 4) (h3 : 3 ≤ satInc 8 d.pair.missed) :
    returnFrameMissed c d = partnerLost c { d with pair := { d.pair with missed := satInc 8 d.pair.missed } } :=
  (if_pos ⟨h1, h2⟩).trans (if_pos h3)

/-- A loss of the partner, found after other registers of the pair have changed. -/
theorem partnerLost_lost (c : Cfg) (d : Dyn) (q : Pair) : LostPartner d (partnerLost c { d with pair := q }) := by
  obtain ⟨⟨halike, hlines⟩, hpair, hopened⟩ := partnerLost_spec c { d with pair := q } _ rfl
  refine ⟨⟨(congrArg (fun z : Dyn => ({ z with pair := d.pair } : Dyn)) halike :), hlines⟩, ?_, ?_, ?_, ?_, ?_, hopened⟩
  all_goals rw [hpair]

/-- A taking of the role, begun after the grace period of a wake has been taken off. -/
theorem takeRole_took (cause : Nat) (s : State) (w : Option Nat) : TookRole cause s (takeRole cause { s with d := { s.d with pair := { s.d.pair with wakeAt := w } } }) := by
  obtain ⟨hreg, hpend, hpair, hrole, hst, htim, hports, hlines⟩ := takeRole_spec cause { s with d := { s.d with pair := { s.d.pair with wakeAt := w } } } _ rfl
  exact ⟨⟨hrole, hst, htim, hreg, hpend, congrArg Pair.takes hpair, congrArg Pair.takeCause hpair, congrArg Pair.takeFrame hpair, congrArg Pair.missed hpair,
    congrArg Pair.stream hpair, congrArg Pair.switchAt hpair, congrArg Pair.wakeAt hpair, hports⟩, congrArg Pair.state hpair, congrArg Pair.fencing hpair, congrArg Pair.thread hpair, hlines⟩

theorem takeover_idle {s : State} (h : ¬(s.d.pair.state = 8 ∧ 2 ≤ s.d.pair.missed ∧ s.d.pair.f0 + 4 ≤ s.d.ms + 1)) : takeover s = s := if_neg h

theorem takeover_due {s : State} (h : s.d.pair.state = 8 ∧ 2 ≤ s.d.pair.missed ∧ s.d.pair.f0 + 4 ≤ s.d.ms + 1) : takeover s = takeRole 1 s := if_pos h

theorem wakeGraceTimeout_none {s : State} (h : s.d.pair.wakeAt = none) : wakeGraceTimeout s = s := by
  simp only [wakeGraceTimeout, h]

theorem wakeGraceTimeout_early {s : State} {t : Nat} (h : s.d.pair.wakeAt = some t) (hlt : s.d.ms < t + s.c.wakeGrace) : wakeGraceTimeout s = s := by
  simp only [wakeGraceTimeout, h]
  exact if_neg (Nat.not_le.mpr hlt)

/-- What the end of a grace period does (R559). -/
theorem wakeGraceTimeout_due {s : State} {t : Nat} (h : s.d.pair.wakeAt = some t) (hle : t + s.c.wakeGrace ≤ s.d.ms) : wakeGraceTimeout s =
    (let s1 : State := { s with d := { s.d with pair := { s.d.pair with wakeAt := none } } }
     if s.d.glb.role = .active then { s1 with d := if s.d.pair.state = 2 then s1.d else partnerLost s.c s1.d }
     else if s.d.pair.state = 7 ∨ s.d.pair.state = 8 then takeRole 4 s1
     else { s1 with d := seekStart s1.d }) := by
  simp only [wakeGraceTimeout, h]
  exact if_pos hle

theorem handover_none {s : State} (h : s.d.pair.switchAt = none) : handover s = s := by simp only [handover, h]

theorem handover_early {s : State} {t : Nat} (h : s.d.pair.switchAt = some t) (hlt : s.d.ms + 1 < t) : handover s = s := by
  simp only [handover, h]
  exact if_neg (Nat.not_le.mpr hlt)

theorem handover_unsynced {s : State} {t : Nat} (h : s.d.pair.switchAt = some t) (hrole : s.d.glb.role ≠ .active) (hsync : ¬(s.d.pair.state = 7 ∨ s.d.pair.state = 8)) :
    handover s = s := by
  simp [handover, h, hrole, hsync]

theorem handover_afterHalt {s : State} {t : Nat} (h : s.d.pair.switchAt = some t) (hle : t ≤ s.d.ms + 1) (hrole : s.d.glb.role ≠ .active)
    (hsync : s.d.pair.state = 7 ∨ s.d.pair.state = 8) (hcause : s.d.pair.switchCause = 3) : handover s = takeRole 3 s := by
  simp [handover, h, hle, hrole, hsync, hcause]

/-- The state in which the STANDBY that takes the role over from a living partner leaves listen mode (R556). -/
def handedRole (s : State) : Dyn :=
  let d1 := pairState 4 (threadEnds s.c (activeEntry (s.d.ms + 1) s.d.pair.switchCause s.d))
  { d1 with pair := { d1.pair with pid := s.d.pair.pid, imageOk := true } }

theorem handover_takes {s : State} {t : Nat} (h : s.d.pair.switchAt = some t) (hle : t ≤ s.d.ms + 1) (hrole : s.d.glb.role ≠ .active)
    (hsync : s.d.pair.state = 7 ∨ s.d.pair.state = 8) (hcause : s.d.pair.switchCause ≠ 3) : handover s = takeInputs { s with d := handedRole s } := by
  simp [handover, handedRole, h, hle, hrole, hsync, hcause]

theorem handedRole_spec (s : State) : ∀ d, handedRole s = d → d.glb.role = .active ∧ d.glb.st = s.d.glb.st ∧ d.tim = s.d.tim ∧
    d.pair = { s.d.pair.entered (s.d.ms + 1) s.d.pair.switchCause with thread := if s.d.pair.thread = 1 then 3 else s.d.pair.thread, state := 4, imageOk := true } := by
  intro d hd
  unfold handedRole at hd
  have hentry := activeEntry_spec (s.d.ms + 1) s.d.pair.switchCause s.d
  generalize activeEntry (s.d.ms + 1) s.d.pair.switchCause s.d = d0 at hd hentry
  obtain ⟨a, hends⟩ := threadEnds_spec s.c d0
  generalize threadEnds s.c d0 = d1 at hd hends
  obtain ⟨f, i, x, y, k, rfl⟩ := hentry
  obtain ⟨f', i', x', y', k', rfl⟩ := hends
  subst hd
  exact ⟨rfl, rfl, rfl, rfl⟩

/-- A hand-over from a living partner: the role passes, and nothing is fenced anew (R556). -/
theorem handover_entered (s : State) : ∀ t, takeInputs { s with d := handedRole s } = t → EnteredActive s.d.pair.switchCause s t ∧ t.d.pair.state = 4 ∧
    t.d.pair.fencing = s.d.pair.fencing ∧ t.d.pair.imageOk = true ∧ t.d.pair.thread = if s.d.pair.thread = 1 then 3 else s.d.pair.thread := by
  intro t ht
  obtain ⟨hrole, hst, htim, hpair⟩ := handedRole_spec s _ rfl
  obtain ⟨kreg, kpend, kalike, -, kports⟩ := takeInputs_spec { s with d := handedRole s } t ht
  obtain ⟨ktim, -, -, -, -, -, -, -, -, -, -, kpair, kst, krole⟩ := kalike.blocks
  have htimEq : t.d.tim = s.d.tim := Eq.trans ktim htim
  have hpairEq := Eq.trans kpair hpair
  exact ⟨⟨Eq.trans krole hrole, Eq.trans kst hst, htimEq, kreg, kpend, congrArg Pair.takes hpairEq, congrArg Pair.takeCause hpairEq, congrArg Pair.takeFrame hpairEq,
    congrArg Pair.missed hpairEq, congrArg Pair.stream hpairEq, congrArg Pair.switchAt hpairEq, congrArg Pair.wakeAt hpairEq, kports⟩,
    congrArg Pair.state hpairEq, (congrArg Pair.fencing hpairEq :), congrArg Pair.imageOk hpairEq, congrArg Pair.thread hpairEq⟩

theorem linkPacket_off {c : Cfg} {pk : LinkPacket} {d : Dyn} (h : d.pair.state = 0) : linkPacket c pk d = d := if_pos h

theorem linkPacket_broken {c : Cfg} {pk : LinkPacket} {d : Dyn} (h1 : d.pair.state ≠ 0) (h2 : pk.crcOk = false) : linkPacket c pk d = linkError c d :=
  (if_neg h1).trans (if_pos (by simp [h2]))

theorem linkPacket_unthreaded {c : Cfg} {pk : LinkPacket} {d : Dyn} (h1 : pk.crcOk = true) (h2 : ¬(d.standby = true ∧ d.pair.thread = 1)) : linkPacket c pk d = d := by
  unfold linkPacket
  rw [if_neg (c := (!pk.crcOk) = true) (by simp [h1]), if_neg h2, ite_self]

/-- A packet continues a re-threading record by record (R561). -/
theorem linkPacket_threads {c : Cfg} {pk : LinkPacket} {d : Dyn} (h1 : d.pair.state ≠ 0) (h2 : pk.crcOk = true) (h3 : d.standby = true) (h4 : d.pair.thread = 1) :
    linkPacket c pk d = pk.recs.foldl (fun d r =>
      if d.pair.threadSeq ≤ r.seq then
        let d1 := mirrorRec r d
        { d1 with pair := { d1.pair with threadSeq := r.seq + 1, threadEnd := max d1.pair.threadEnd (r.seq + 1), done := d1.pair.done + 32 + r.body.length } }
      else d) d := by
  unfold linkPacket
  rw [if_neg h1, if_neg (by simp [h2]), if_pos ⟨h3, h4⟩]

theorem linkPacket_known {c : Cfg} {pk : LinkPacket} {d : Dyn} {q : MirrorRec} (h1 : d.pair.state ≠ 0) (h2 : pk.crcOk = true) (h3 : d.standby = true) (h4 : d.pair.thread = 1)
    (hq : pk.recs = [q]) (hold : q.seq < d.pair.threadSeq) : linkPacket c pk d = d := by
  rw [linkPacket_threads h1 h2 h3 h4, hq]
  exact if_neg (Nat.not_le.mpr hold)

theorem linkPacket_next {c : Cfg} {pk : LinkPacket} {d : Dyn} {q : MirrorRec} (h1 : d.pair.state ≠ 0) (h2 : pk.crcOk = true) (h3 : d.standby = true) (h4 : d.pair.thread = 1)
    (hq : pk.recs = [q]) (hnew : d.pair.threadSeq ≤ q.seq) : linkPacket c pk d = { d with arc := (mirrorRec q d).arc, pair := { d.pair with
      threadSeq := q.seq + 1, threadEnd := max d.pair.threadEnd (q.seq + 1), done := d.pair.done + 32 + q.body.length } } := by
  rw [linkPacket_threads h1 h2 h3 h4, hq]
  refine (if_pos hnew).trans ?_
  obtain ⟨a, ha⟩ : ∃ a, mirrorRec q d = { d with arc := a } := ledgerRec_arc _ _
  dsimp only
  rw [ha]

/-- Settles O59, command by command: each is the model's own step, which is nothing where nothing is due, and else one of the shared steps of the pair: the fence lines that
follow, a partner lost, a role taken or left, a seeking begun, a packet counted as broken. -/
theorem pairSeals : Obligations.PairSeals := by
  unfold Obligations.PairSeals
  intro on x r pk s p lines quiet field seeking left synced lost broken entered took
  have hlink : broken (linkError s.c s.d) := linkError_spec s.c s.d _ rfl
  have next_state : ∀ {a b : State}, a = b → (Host.Outcome.next a : Host.Outcome State Fault Refusal) = .next b := congrArg _
  refine ⟨?fence, ⟨?seekIdle, ?seekClaims, ?seekAgain⟩, fun h => next_dyn (sealMissed_synced h), fun h => next_dyn (sealMissed_bridging h), ?missedJoining,
    fun h => next_dyn (sealMissed_elsewhere h), fun h => next_dyn (sealReceived_idle h), ?sealBroken, ?sealTaken, ?returnIdle, ?returns, ⟨?takeoverIdle, ?takeoverDue⟩,
    fun h => next_state (wakeGraceTimeout_none h), ?wake, fun h => next_state (handover_none h), ?handing, ?linkIdle, ?linkBroken, ?linkThreads, ?linkOne⟩
  case fence => exact ⟨_, rfl, fenceInChange_spec s.c on s.d _ rfl⟩
  case seekIdle =>
    rintro (h | ⟨h1, h2⟩ | ⟨h1, h2⟩)
    · exact next_dyn (seekTimeout_early h)
    · exact next_dyn (seekTimeout_claiming h1 h2)
    · exact next_dyn (seekTimeout_elsewhere h1 h2)
  case seekClaims => exact fun hdue h1 h2 => ⟨_, next_dyn (seekTimeout_claims hdue h1 h2), claimStart_spec s.c s.d _ rfl⟩
  case seekAgain => exact fun hdue h1 h2 => next_dyn ((seekTimeout_again hdue h1 h2).trans (seekStart_eq s.d))
  case missedJoining => exact fun h => next_dyn ((sealMissed_joining h).trans (if_congr Iff.rfl (seekStart_eq _) rfl))
  case sealBroken => exact fun h1 h2 h3 => ⟨_, next_dyn (sealReceived_broken h1 h2 h3), hlink⟩
  case sealTaken => exact fun h1 h2 h3 => ⟨_, rfl, seal_spec s.c x s.d h1 h2 h3 _ rfl⟩
  case returnIdle => exact fun h => ⟨next_dyn (returnFrameReceived_idle h), next_dyn (returnFrameMissed_idle h)⟩
  case returns =>
    exact fun h1 h2 => ⟨fun h3 => ⟨_, next_dyn (returnFrameReceived_broken h1 h2 h3), hlink⟩, fun h3 => ⟨_, rfl, return_spec s.c r s.d h1 h2 h3 _ rfl⟩,
      fun h3 => next_dyn (returnFrameMissed_counts h1 h2 h3), fun h3 => ⟨_, next_dyn (returnFrameMissed_third h1 h2 h3), partnerLost_lost s.c s.d _⟩⟩
  case takeoverIdle => exact fun h => next_state (takeover_idle h)
  case takeoverDue => exact fun h => ⟨_, next_state (takeover_due h), takeRole_took 1 s s.d.pair.wakeAt⟩
  case wake =>
    refine fun t0 h => ⟨fun hlt => next_state (wakeGraceTimeout_early h hlt), fun hle => ⟨fun ha h2 => ?_, fun ha h2 => ?_, fun ha hs => ?_, fun ha hs => ?_⟩⟩
    all_goals have hd := wakeGraceTimeout_due h hle
    · exact next_state (hd.trans ((if_pos ha).trans (congrArg (fun z : Dyn => ({ s with d := z } : State)) (if_pos h2))))
    · exact ⟨_, next_state (hd.trans ((if_pos ha).trans (congrArg (fun z : Dyn => ({ s with d := z } : State)) (if_neg h2)))), partnerLost_lost s.c s.d _⟩
    · exact ⟨_, next_state (hd.trans ((if_neg ha).trans (if_pos hs))), takeRole_took 4 s none⟩
    · exact next_state (hd.trans ((if_neg ha).trans ((if_neg hs).trans (congrArg (fun z : Dyn => ({ s with d := z } : State)) (seekStart_eq _)))))
  case handing =>
    refine fun t0 h => ⟨fun hlt => next_state (handover_early h hlt), fun hle => ⟨fun ha hc => ?_, fun ha hc => ?_, fun ha hs => next_state (handover_unsynced h ha hs),
      fun ha hs hc => ⟨_, next_state (handover_afterHalt h hle ha hs hc), takeRole_took 3 s s.d.pair.wakeAt⟩, fun ha hs hc => ⟨_, next_state (handover_takes h hle ha hs hc), handover_entered s _ rfl⟩⟩⟩
    all_goals refine ⟨_, next_state (handover_active s t0 h hle ha), ?_⟩
    · rw [decide_eq_false hc]
      exact standDown_spec (s.d.pair.leaves false s.d.ms) s.d ha _ rfl
    · rw [decide_eq_true hc]
      exact standDown_spec (s.d.pair.leaves true s.d.ms) s.d ha _ rfl
  case linkIdle =>
    rintro (h | ⟨h1, h2⟩)
    · exact next_dyn (linkPacket_off h)
    · exact next_dyn (linkPacket_unthreaded h1 h2)
  case linkBroken => exact fun h1 h2 => ⟨_, next_dyn (linkPacket_broken h1 h2), hlink⟩
  case linkThreads =>
    intro h1 h2 h3 h4
    obtain ⟨a, q, heq, hle, hall⟩ := packets_spec pk.recs s.d
    exact ⟨a, q, next_dyn ((linkPacket_threads h1 h2 h3 h4).trans heq), hle, hall⟩
  case linkOne =>
    exact fun q h1 h2 h3 h4 hq => ⟨fun hold => next_dyn (linkPacket_known h1 h2 h3 h4 hq hold), fun hnew => next_dyn (linkPacket_next h1 h2 h3 h4 hq hnew)⟩

end Sys2Proof.Machine
end

section
/-! Joining, accepting, copying and re-threading in a redundant pair (R544 to R565). -/

namespace Sys2Proof.Machine

open Sys2Proof

/-- The ACTIVE has begun to copy its dynamic state, and fences meanwhile (R560 step 4). -/
def CopyBegun (d u : Dyn) : Prop :=
  u.pair.state = 3 ∧ u.pair.imageOk = true ∧ u.pair.fencing = true ∧ u.pair.resyncs = satInc 16 d.pair.resyncs ∧ LinesFollow d u

theorem partnerAnswer_idle {c : Cfg} {a : RoleAnswer} {d : Dyn} (h : ¬((d.pair.state = 1 ∧ d.pair.claim = false) ∨ d.pair.state = 5)) : partnerAnswer c a d = d :=
  if_neg (by simpa only [Bool.not_eq_true] using h)

theorem partnerJoin_idle {c : Cfg} {j : JoinReport} {d : Dyn} (h : ¬(d.glb.role = .active ∧ (d.pair.state = 2 ∨ d.pair.state = 3))) : partnerJoin c j d = d := if_neg h

theorem accept_runs {s : State} {u : Dyn} (h : HostRuns 0x400024 false s) (heq : pairAccept s.c s.d = u) : exec .accept s = .next { s with d := u } :=
  (congrArg Host.Outcome.next (hostCmd_runs h _)).trans (next_dyn heq)

theorem reject_runs {s : State} {u : Dyn} (h : HostRuns 0x400024 false s) (heq : pairReject s.c s.d = u) : exec .reject s = .next { s with d := u } :=
  (congrArg Host.Outcome.next (hostCmd_runs h _)).trans (next_dyn heq)

theorem switch_runs {s : State} {u : Dyn} (h : HostRuns 0x400024 false s) (heq : pairSwitch s.d = u) : exec .switch s = .next { s with d := u } :=
  (congrArg Host.Outcome.next (hostCmd_runs h _)).trans (next_dyn heq)

theorem resync_runs {s : State} {u : Dyn} (h : HostRuns 0x400024 true s) (heq : pairResync s.c s.d = u) : exec .resync s = .next { s with d := u } :=
  (congrArg Host.Outcome.next (hostCmd_runs h _)).trans (next_dyn heq)

theorem pairAccept_none {c : Cfg} {d : Dyn} (hs : d.standby = false) (h : d.pair.acceptPend = false ∨ d.pair.join = none) : pairAccept c d = pairResult 0x3042 d := by
  unfold pairAccept
  rw [if_neg (by simp [hs])]
  rcases h with h | h
  · rw [h]
  · rw [h]
    cases d.pair.acceptPend <;> rfl

theorem pairAccept_some {c : Cfg} {d : Dyn} {j : JoinReport} (hs : d.standby = false) (h1 : d.pair.acceptPend = true) (h2 : d.pair.join = some j) :
    pairAccept c d = letIn c j (pairResult 0 { d with pair := { d.pair with accepted := j.id :: d.pair.accepted } }) := by
  unfold pairAccept
  rw [if_neg (by simp [hs]), h1, h2]

theorem pairReject_none {c : Cfg} {d : Dyn} (hs : d.standby = false) (h : d.pair.acceptPend = false) : pairReject c d = pairResult 0x3042 d :=
  (if_neg (by simp [hs])).trans (if_neg (by simp [h]))

theorem pairSwitch_standby {d : Dyn} (h : d.glb.role ≠ .active) : pairSwitch d = pairResult 0x300D d := if_pos h

theorem pairSwitch_unready {d : Dyn} (h1 : d.glb.role = .active) (h2 : d.pair.state ≠ 4 ∨ d.pair.partnerHalt = true) : pairSwitch d = pairResult 0x3043 d :=
  (if_neg (not_not_intro h1)).trans (if_pos h2)

theorem pairSwitch_named {d : Dyn} (h1 : d.glb.role = .active) (h2 : d.pair.state = 4) (h3 : d.pair.partnerHalt = false) :
    pairSwitch d = pairResult 0 { d with pair := { d.pair with switchAt := some (d.ms + 1), switchCause := 2 } } :=
  (if_neg (not_not_intro h1)).trans (if_neg (by simp [h2, h3]))

theorem pairResync_refused {c : Cfg} {d : Dyn} (h : ¬(d.pair.state = 4 ∨ d.pair.state = 6 ∨ d.pair.state = 7 ∨ (d.pair.state = 3 ∧ d.pair.imageOk = true))) :
    pairResync c d = pairResult 0x300D d := if_neg h

theorem pairResync_copies {c : Cfg} {d : Dyn} (h : d.pair.state = 4 ∨ d.pair.state = 6 ∨ d.pair.state = 7 ∨ (d.pair.state = 3 ∧ d.pair.imageOk = true)) :
    pairResync c d = copyStart c (pairResult 0 d) := if_pos h

/-- A copy that the ACTIVE begins, after PAIR_CMD.RESULT may have been stored. -/
theorem copyStart_begun (c : Cfg) (d : Dyn) (k : Nat) (r : Nat) (h : d.glb.role = .active) : ∀ u, copyStart c { d with pair := { d.pair with cmdResult := k, reason := r } } = u →
    Alike { u with pair := d.pair, fld := d.fld } d ∧ u.pair.cmdResult = k ∧ CopyBegun d u := by
  intro u hu
  obtain ⟨f, heq, hlines⟩ := copyStart_active c { d with pair := { d.pair with cmdResult := k, reason := r } } h u hu
  subst heq
  exact ⟨rfl, rfl, rfl, rfl, rfl, rfl, hlines⟩

theorem partnerImage_idle {l : List Byte} {s : State}
    (h : ¬((s.d.standby = true ∧ s.d.pair.state ≠ 0) ∨ (s.d.glb.st = .safe ∧ s.c.img.ok = false ∧ s.c.fx.pair = true))) : partnerImage l s = s := by
  unfold partnerImage
  exact if_pos (by simpa [imp_iff_not_or, or_assoc] using h)

theorem partnerSynced_idle {c : Cfg} {keep : Bool} {total : Nat} {d : Dyn} (h1 : ¬(d.glb.role = .active ∧ d.pair.state = 3 ∧ d.pair.imageOk = true))
    (h2 : ¬(d.glb.role = .standby ∧ d.pair.state = 6)) : partnerSynced c keep total d = d := (if_neg h1).trans (if_neg h2)

theorem commitPartnerResult_own {code : Nat} {s : State} {k : Commit} (h : s.d.cfg.commit = some k) (hp : k.toPartner = false) : commitPartnerResult code s = s := by
  simp [commitPartnerResult, h, hp]

/-- The answer to a commit that waits for the partner's Sage (R560). -/
theorem commitPartnerResult_answers {code : Nat} {s : State} {k : Commit} (h : s.d.cfg.commit = some k) (hp : k.toPartner = true) : commitPartnerResult code s =
    (let t := commitDo { k with toPartner := false } (checkImage s.c s.d 3 k.bytes).2 s
     if code = 0 ∨ t.d.pair.state ≠ 4 then t else { t with d := setFence t.c true { t.d with pair := { t.d.pair with state := 2, imageOk := false, join := none } } }) := by
  unfold commitPartnerResult
  rw [h]
  exact if_pos hp

theorem commitPartnerResult_idle {code : Nat} {s : State} (h : s.d.cfg.commit = none)
    (hi : ¬(s.d.glb.role = .active ∧ s.d.pair.state = 3 ∧ s.d.pair.imageOk = false ∧ s.d.pair.acceptPend = false)) : commitPartnerResult code s = s := by
  unfold commitPartnerResult
  rw [h]
  exact if_neg (by simpa using hi)

theorem commitPartnerResult_join {code : Nat} {s : State} (h : s.d.cfg.commit = none)
    (hi : s.d.glb.role = .active ∧ s.d.pair.state = 3 ∧ s.d.pair.imageOk = false ∧ s.d.pair.acceptPend = false) : commitPartnerResult code s = { s with d := joinImage s.c code s.d } := by
  unfold commitPartnerResult
  rw [h]
  exact if_pos (by simpa using hi)

/-- A synced partner that refuses a commit is synced no more (R560). -/
theorem partnerDropped_spec (c : Cfg) (d : Dyn) : ∀ u, setFence c true { d with pair := { d.pair with state := 2, imageOk := false, join := none } } = u →
    Alike { u with pair := d.pair, fld := d.fld } d ∧ u.pair = { d.pair with state := 2, imageOk := false, join := none, fencing := true } ∧ u.cfg = d.cfg ∧ LinesFollow d u := by
  intro u hu
  obtain ⟨f, heq, hlines⟩ := setFence_spec c true { d with pair := { d.pair with state := 2, imageOk := false, join := none } } u hu
  subst heq
  exact ⟨rfl, rfl, rfl, hlines⟩

theorem joinImage_accepted (c : Cfg) (d : Dyn) (h : d.glb.role = .active) : ∀ u, joinImage c 0 d = u → Alike { u with pair := d.pair, fld := d.fld } d ∧ CopyBegun d u := by
  intro u hu
  obtain ⟨halike, -, hcopy⟩ := copyStart_begun c d d.pair.cmdResult d.pair.reason h u hu
  exact ⟨halike, hcopy⟩

theorem joinImage_refused (c : Cfg) (code : Nat) (d : Dyn) (h : code ≠ 0) : ∀ u, joinImage c code d = u → Alike { u with pair := d.pair, fld := d.fld } d ∧
    u.pair = { d.pair with state := 2, join := none } ∧ Opened d u 0x3000 0x3067 2 0 code false false := by
  intro u hu
  have hfault : ({ d with pair := { d.pair with state := 2, join := none } } : Dyn).fault c 0x3000 0x3067 2 0 code false false = u := Eq.trans (if_neg h).symm hu
  have hstep := fault_step { d with pair := { d.pair with state := 2, join := none } } c 0x3000 0x3067 2 0 code false false
  have hopened := fault_opened_after (d := d) (d' := { d with pair := { d.pair with state := 2, join := none } }) c 0x3000 0x3067 2 0 code false false rfl rfl (by decide)
  rw [hfault] at hstep hopened
  obtain ⟨hpair, -, halike⟩ := hstep.copies
  exact ⟨halike d.pair d.fld, hpair, hopened⟩

theorem threadDone_idle {d : Dyn} (h : d.pair.thread ≠ 1) : threadDone d = d := if_neg h

theorem threadDone_spec (d : Dyn) (h : d.pair.thread = 1) : ∀ u, threadDone d = u → Alike { u with pair := d.pair } d ∧
    u.pair = { d.pair with thread := 2, done := max d.pair.done d.pair.total } ∧ ∀ m, u.flt.find m = d.flt.find m := by
  intro u hu
  have hevent : ({ d with pair := { d.pair with thread := 2, done := max d.pair.done d.pair.total } } : Dyn).event 0x3000 0x3068 0 0 0 = u := Eq.trans (if_pos h).symm hu
  have hstep := event_step { d with pair := { d.pair with thread := 2, done := max d.pair.done d.pair.total } } 0x3000 0x3068 0 0 0
  have hfind := event_find { d with pair := { d.pair with thread := 2, done := max d.pair.done d.pair.total } } 0x3000 0x3068 0 0 0
  rw [hevent] at hstep hfind
  exact ⟨(hstep.withPair d.pair d.pair).1, hstep.copies.1, hfind⟩

/-- PAIR_CMD.ACCEPT of a partner that waits for it (R560, R565). -/
theorem pairAccept_spec (c : Cfg) (d : Dyn) (j : JoinReport) (hs : d.standby = false) (ha : d.glb.role = .active) (h1 : d.pair.acceptPend = true) (h2 : d.pair.join = some j) :
    ∀ u, pairAccept c d = u → Alike { u with pair := d.pair, fld := d.fld } d ∧ u.pair.cmdResult = 0 ∧ u.pair.accepted = j.id :: d.pair.accepted ∧
      u.pair.join = some j ∧ u.pair.acceptPend = false ∧ u.pair.missed = 0 ∧ (j.digest = d.cfg.digest → CopyBegun d u) ∧
      (j.digest ≠ d.cfg.digest → u.pair.state = 3 ∧ u.pair.imageOk = false ∧ u.pair.fencing = d.pair.fencing) := by
  intro u hu
  obtain ⟨halike, hjoin, hpend, hmissed, -, -, hresult, haccepted, hsame, hother⟩ :=
    letIn_spec c j (pairResult 0 { d with pair := { d.pair with accepted := j.id :: d.pair.accepted } }) ha u ((pairAccept_some hs h1 h2).symm.trans hu)
  exact ⟨(congrArg (fun z : Dyn => ({ z with pair := d.pair } : Dyn)) halike :), hresult, haccepted, hjoin, hpend, hmissed, hsame, hother⟩

/-- A stored commit whose partner has answered (R119, R560). -/
theorem commitPartnerResult_stored {code : Nat} {s : State} {k : Commit} (h : s.d.cfg.commit = some k) (hp : k.toPartner = true) (hm : k.mode = 2) :
    ∃ u, commitPartnerResult code s = { s with d := u } ∧ u.cfg.commit = none ∧ u.cfg.session = .none ∧ u.cfg.wbState = 1 ∧ (code = 0 ∨ s.d.pair.state ≠ 4 → u.pair = s.d.pair) ∧
      (code ≠ 0 → s.d.pair.state = 4 → u.pair.state = 2 ∧ u.pair.fencing = true ∧ u.pair.imageOk = false ∧ LinesFollow s.d u) := by
  obtain ⟨t, heq, hcommit, hsession, hwb, hpair, hglb, hpwr⟩ := commitStore_pair s { k with toPartner := false } (checkImage s.c s.d 3 k.bytes).2 hm
  rw [commitPartnerResult_answers h hp, heq]
  by_cases hkeep : code = 0 ∨ t.pair.state ≠ 4
  · refine ⟨t, if_pos hkeep, hcommit, hsession, hwb, fun _ => hpair, fun hcode hst => ?_⟩
    rw [← hpair] at hst
    exact absurd hst (hkeep.resolve_left hcode)
  · obtain ⟨-, upair, ucfg, ulines⟩ := partnerDropped_spec s.c t _ rfl
    refine ⟨_, if_neg hkeep, ?_⟩
    generalize setFence s.c true { t with pair := { t.pair with state := 2, imageOk := false, join := none } } = u at upair ucfg ulines
    refine ⟨by rw [ucfg, hcommit], by rw [ucfg, hsession], by rw [ucfg, hwb], fun hkept => ?_, fun _ _ => ⟨by rw [upair], by rw [upair], by rw [upair], fun hboot hreset => ?_⟩⟩
    · rw [← hpair] at hkept
      exact absurd hkept hkeep
    · exact ulines (by rwa [hglb]) (by rwa [hpwr])

/-- Settles O60, command by command, from what an answer, an admission, a copy, a sync and a re-threading can do. -/
theorem pairJoin : Obligations.PairJoin := by
  unfold Obligations.PairJoin
  intro a j bytes keep total code s p lines quiet field copies admits told conflict
  have next_state : ∀ {a b : State}, a = b → (Host.Outcome.next a : Host.Outcome State Fault Refusal) = .next b := congrArg _
  refine ⟨?answer, ?join, ?commands, ?resync, ?image, ?synced, ?commit, ?joinAnswer, fun h => next_dyn (threadDone_idle h), fun h => ⟨_, rfl, threadDone_spec s.d h _ rfl⟩⟩
  case answer =>
    intro asks
    exact ⟨fun h => next_dyn (partnerAnswer_idle h), fun h => ⟨_, rfl, answer_spec s.c a s.d h _ rfl⟩⟩
  case join =>
    intro meets known
    exact ⟨fun h => next_dyn (partnerJoin_idle h), fun h => ⟨_, rfl, join_spec s.c j s.d h.1 h.2 _ rfl⟩⟩
  case commands =>
    intro hhost
    have hs := hhost.active
    exact ⟨fun h => accept_runs hhost (pairAccept_none hs h), fun ha h1 h2 => ⟨_, accept_runs hhost rfl, pairAccept_spec s.c s.d j hs ha h1 h2 _ rfl⟩,
      fun h => reject_runs hhost (pairReject_none hs h), fun h => ⟨_, reject_runs hhost rfl, reject_spec s.c s.d hs h _ rfl⟩,
      fun h => switch_runs hhost (pairSwitch_standby h), fun h1 h2 => switch_runs hhost (pairSwitch_unready h1 h2), fun h1 h2 h3 => switch_runs hhost (pairSwitch_named h1 h2 h3)⟩
  case resync =>
    intro hhost joined
    exact ⟨fun h => resync_runs hhost (pairResync_refused h), fun h ha => ⟨_, resync_runs hhost (pairResync_copies h), copyStart_begun s.c s.d 0 s.d.pair.reason ha _ rfl⟩,
      fun h ha => resync_runs hhost ((pairResync_copies h).trans (copyStart_standby s.c (pairResult 0 s.d) ha))⟩
  case image =>
    intro joins sage
    refine ⟨fun h => next_state (partnerImage_idle h), fun h x hx => ?_, fun h hx => ⟨_, rfl, image_taken bytes s h hx _ rfl⟩⟩
    obtain ⟨u, heq, hu⟩ := image_refused bytes s h x hx
    exact ⟨u, next_state heq, hu⟩
  case synced =>
    intro act stb
    exact ⟨fun h1 h2 => next_dyn (partnerSynced_idle h1 h2), fun ⟨h1, h2, h3⟩ => ⟨_, rfl, synced_active s.c keep total s.d h1 h2 h3 _ rfl⟩,
      fun ⟨h1, h2⟩ => ⟨_, rfl, synced_standby s.c keep total s.d h1 h2 _ rfl⟩⟩
  case commit =>
    refine fun k hk => ⟨fun hp => next_state (commitPartnerResult_own hk hp), fun hp => ?_, fun hp hm => ?_⟩
    · intro sage t
      have hanswers := commitPartnerResult_answers (code := code) hk hp
      exact ⟨fun hkeep => next_state (hanswers.trans (if_pos hkeep)), fun hcode hst => ⟨_, next_state (hanswers.trans (if_neg (by rintro (h | h); exacts [hcode h, h hst]))), (partnerDropped_spec t.c t.d _ rfl).imp_right And.left⟩,
        fun hm ho => commitApply s { k with toPartner := false } sage hm ho⟩
    · obtain ⟨u, heq, hu⟩ := commitPartnerResult_stored (code := code) hk hp hm
      exact ⟨u, next_state heq, hu⟩
  case joinAnswer =>
    intro hnone sent
    refine ⟨fun h => next_state (commitPartnerResult_idle hnone h), fun h => ?_⟩
    have heq := commitPartnerResult_join (code := code) hnone h
    by_cases hcode : code = 0
    · subst hcode
      obtain ⟨halike, hcopy⟩ := joinImage_accepted s.c s.d h.1 _ rfl
      exact ⟨_, next_state heq, halike, fun _ => hcopy, fun hne => absurd rfl hne⟩
    · obtain ⟨halike, hrefused⟩ := joinImage_refused s.c code s.d hcode _ rfl
      exact ⟨_, next_state heq, halike, fun hzero => absurd hzero hcode, fun _ => hrefused⟩

end Sys2Proof.Machine
end
